-- ==== Sys2Proof/Word.lean ====
section
/-! DEFINITION. The words of the machine: the widths the spec names in 00_scope.md R5 and R7. -/

namespace Sys2Proof

/-- A byte: 8 bits (R5). -/
abbrev Byte := BitVec 8

/-- A word: 32 bits (R5), the width of a thread register (R13). -/
abbrev Word := BitVec 32

/-- A doubleword: 64 bits (R5), the width of a PC (R12) and of a Caller register (R40). -/
abbrev DWord := BitVec 64

end Sys2Proof
end

