-- ==== Sys2Proof/Config.lean ====
section
/-! DEFINITION. What the spec leaves open: the free values, as opaque constants. Nothing can prove a value of one, so a
statement about the machine holds whatever they are. Each is applied to a counter of the state or to the operands it
depends on. -/

namespace Sys2Proof.Config

open Sys2Proof

/-- A value the spec does not state, by the number of its use (the field `fv` of the state). -/
opaque free : Nat → Nat

/-- The clocks of a unit that pass before a step, by the step and the unit (R4 gives the clock, no rule gives the clocks
of a step of this model; R367 gives each unit its own). -/
opaque clocks : Nat → Nat → Nat

/-- An access is performed out of the order of its thread where nothing in scope can tell (R294, R303), by the number of its
instruction: a release ahead of stores before it, a load ahead of an acquire before it. -/
opaque late : Nat → Bool

/-- The frame of the host that a Translation Request of the device's own is answered with, by the function with its PASID and the
page (R417). -/
opaque hostFrame : Nat → Nat → Nat

/-- The Page Request Interface is enabled for a function (R414, R417). -/
opaque pri : Nat → Bool

/-- The present timer's microseconds that pass before a step (R337). -/
opaque micros : Nat → Nat

/-- The correctly rounded result of R123 where the interval evaluation of the model does not decide it: the function,
the format, the rounding mode and the source. -/
opaque transcend : Nat → Nat → Nat → Nat → Word

/-- Bits 63:32 of a 64-bit read of a queue register, whose elements the spec gives 32 bits (R208 to R211). -/
opaque queueHigh : Nat → Word

/-- Umawin's public key, whose root is fixed in the mask ROM (R410): OID, root and seed. -/
opaque umawinKey : BitVec 544

/-- The identity of the device that a roll back names (R411). -/
opaque deviceId : BitVec 256

/-- The secret strings of the keys of the device (R410), three for each key by its number: 0 for the identity key, n + 1 for
attestation key n. -/
opaque secret : Nat → BitVec 256

/-- The memory errors that are corrected, the retries of links, and the minutes' counts of temperature, before a step (R289, R406, R413):
the record each is counted in. -/
opaque corrected : Nat → List Nat

end Sys2Proof.Config
end

