-- ==== Sys2Proof/Syntax.lean ====
section
/-! DEFINITION. The instructions as syntax: operand classes (R37), the common frame of R30 and R31, the modifiers of
each family, and one constructor of `Instr` for every row of the opcode table. A row that is coded carries its frame
and its modifiers; a row that is an event of the machine (no encoding) carries what the event names. -/

namespace Sys2Proof

/-- The three instruction lengths of R27. -/
inductive Form where
  | s | m | l
  deriving DecidableEq, Repr

/-- The unit an instruction is decoded for (R52): a wave of a core, or a Caller. -/
inductive Unit2 where
  | w | c
  deriving DecidableEq, Repr

/-- An 11-bit operand field (R37). `bad` holds a reserved pattern as it stands. In the Caller, `v n` names c n (R40). -/
inductive Operand where
  | v (n : BitVec 10)
  | lit (n : BitVec 7)
  | s (n : BitVec 7)
  | q (n : BitVec 5)
  | sr (n : BitVec 7)
  | p (n : BitVec 3)
  | k (n : BitVec 4)
  | bad (raw : BitVec 11)
  deriving DecidableEq, Repr

/-- The fields every coded instruction has (R30, R31). A field the form does not have, or the instruction does not
use, holds 0 (the operand `v 0`). -/
structure Frame where
  form : Form
  gp : BitVec 3
  gs : Bool
  la : BitVec 4
  ret : BitVec 2
  d : Operand
  a : Operand
  b : Operand
  c : Operand
  x : BitVec 21
  i : BitVec 32
  deriving DecidableEq, Repr

/-- The integer types of R93. -/
inductive IntTy where
  | s32 | z32 | b32 | s64 | z64 | b64 | f32
  deriving DecidableEq, Repr

/-- The floating types of R114. -/
inductive FTy where
  | f32 | f16 | bf16
  deriving DecidableEq, Repr

/-- The rounding modes of R46. -/
inductive Rnd where
  | rne | rtz | rdn | rup
  deriving DecidableEq, Repr

/-- The consistency scopes of R46 and R291. -/
inductive Scope where
  | thr | wav | cor | cls | prt | die | dev | peer | host | sys
  deriving DecidableEq, Repr

/-- The orderings of R295. `ar` is acquire and release. -/
inductive Ord where
  | plain | rlx | acq | rel | ar
  deriving DecidableEq, Repr

/-- The conditions of `icmp` (R106). -/
inductive ICond where
  | eq | ne | lt | le | gt | ge
  deriving DecidableEq, Repr

/-- The conditions of `fcmp` (R120). -/
inductive FCond where
  | eq | ne | lt | le | gt | ge | num | nan
  deriving DecidableEq, Repr

/-- The index scales of R108 and R152. -/
inductive Scale where
  | x1 | x2 | x4 | x8 | x16
  deriving DecidableEq, Repr

/-- The modes of `shfl` (R110). -/
inductive ShflMode where
  | idx | up | down | xor
  deriving DecidableEq, Repr

/-- The modes of `vote` (R111). -/
inductive VoteMode where
  | all | any | eq | bal
  deriving DecidableEq, Repr

/-- The operations of `redux` (R112). -/
inductive ReduxOp where
  | add | min | max | and | or | xor
  deriving DecidableEq, Repr

/-- The type codes of `cvt` (R125); `slot` is the format of the slot it names. -/
inductive CvtTy where
  | f32 | f16 | bf16 | e4m3 | e5m2 | s8 | z8 | s16 | z16 | s32 | z32 | s64 | z64 | slot
  deriving DecidableEq, Repr

/-- The access widths of R151. -/
inductive Wid where
  | z8 | s8 | z16 | s16 | b32 | b64 | b128
  deriving DecidableEq, Repr

/-- The control word CTL of a memory access (R152): its scope and the scale of its index. -/
structure MemCtl where
  scope : Scope
  sc : Scale
  deriving DecidableEq, Repr

/-- The modifiers of a load or store (R151, R152). -/
structure MemMod where
  wid : Wid
  ord : Ord
  ixs : Bool
  ctl : MemCtl
  deriving DecidableEq, Repr

/-- The operations of an atomic (R248). -/
inductive AtomOp where
  | add | min | max | and | or | xor | exch
  deriving DecidableEq, Repr

/-- The types of an atomic (R248). -/
inductive AtomTy where
  | s32 | z32 | b32 | s64 | z64 | b64 | f32 | bf16
  deriving DecidableEq, Repr

/-- The offset, scope and ordering an atomic holds in X (R249). -/
structure AtomCtl where
  off : BitVec 13
  scope : Scope
  ord : Ord
  deriving DecidableEq, Repr

/-- The ordering field of R200: `none` is 00. -/
inductive SyncOrd where
  | none | rlx | acq | rel
  deriving DecidableEq, Repr

/-- KIND of `coll` (R419). -/
inductive CollKind where
  | allred | allgat | redsc
  deriving DecidableEq, Repr

/-- RED of `coll` (R419). -/
inductive CollRed where
  | add | min | max
  deriving DecidableEq, Repr

/-- What a peer asks of a local frame (R418). The operand bytes come with the request: for `cas` and `mcas` the compared
value and then the new one. -/
inductive PeerOp where
  | load | store
  | rmw (op : AtomOp) (ty : AtomTy)
  | cas (ty : AtomTy)
  | mcas
  | mred (op : AtomOp) (ty : AtomTy)
  | mscale (rnd : Rnd) (ty : AtomTy) (a b : Word)
  deriving DecidableEq, Repr

/-- An address of the host, with the function for whose translations it stands (R416, R417). -/
structure HostAddr where
  fn : Nat
  addr : Nat
  deriving DecidableEq, Repr

/-- The instructions: one constructor per row of the opcode table. `f` is the frame of a coded instruction. -/
inductive Instr where
  -- integer, logic, address and wave-wide (05_integer_wave_instructions.md)
  | iadd (f : Frame) (ty : IntTy) (sat : Bool)
  | isub (f : Frame) (ty : IntTy) (sat : Bool)
  | iaddc (f : Frame) (pd : BitVec 3)
  | isubb (f : Frame) (pd : BitVec 3)
  | iadd64 (f : Frame) (ty : IntTy) (sat : Bool)
  | imul (f : Frame) (ty : IntTy) (sat : Bool)
  | imulhi (f : Frame) (ty : IntTy)
  | imad (f : Frame) (ty : IntTy) (sat : Bool)
  | imadw (f : Frame) (ty : IntTy)
  | idiv (f : Frame) (ty : IntTy) (sat : Bool)
  | irem (f : Frame) (ty : IntTy)
  | imin (f : Frame) (ty : IntTy)
  | imax (f : Frame) (ty : IntTy)
  | iabs (f : Frame) (sat : Bool)
  | ineg (f : Frame) (sat : Bool)
  | and (f : Frame) (ty : IntTy)
  | or (f : Frame) (ty : IntTy)
  | xor (f : Frame) (ty : IntTy)
  | andn (f : Frame) (ty : IntTy)
  | not (f : Frame) (ty : IntTy)
  | shl (f : Frame)
  | shr (f : Frame)
  | sar (f : Frame)
  | rol (f : Frame)
  | shl64 (f : Frame)
  | shr64 (f : Frame) (ty : IntTy)
  | popc (f : Frame) (ty : IntTy)
  | clz (f : Frame) (ty : IntTy)
  | ctz (f : Frame) (ty : IntTy)
  | brev (f : Frame) (ty : IntTy)
  | bfe (f : Frame) (ty : IntTy) (imm : Bool)
  | bfi (f : Frame) (imm : Bool)
  | perm (f : Frame) (imm : Bool)
  | sel (f : Frame) (ty : IntTy) (neg : Bool) (ps : BitVec 3)
  | icmp (f : Frame) (ty : IntTy) (cc : ICond)
  | mov (f : Frame) (ty : IntTy)
  | movi (f : Frame) (ty : IntTy)
  | lea (f : Frame) (ty : IntTy) (sc : Scale)
  | dp4 (f : Frame) (ty : IntTy) (sat sa sb : Bool)
  | shfl (f : Frame) (ty : IntTy) (mode : ShflMode)
  | vote (f : Frame) (mode : VoteMode)
  | redux (f : Frame) (ty : IntTy) (ftz : Bool) (op : ReduxOp) (rnd : Rnd)
  -- floating point and conversion (06_float_conversion_instructions.md)
  | fadd (f : Frame) (ty : FTy) (rnd : Rnd) (sat ftz : Bool)
  | fsub (f : Frame) (ty : FTy) (rnd : Rnd) (sat ftz : Bool)
  | fmul (f : Frame) (ty : FTy) (rnd : Rnd) (sat ftz : Bool)
  | ffma (f : Frame) (ty : FTy) (rnd : Rnd) (sat ftz : Bool)
  | fmin (f : Frame) (ty : FTy) (ftz : Bool)
  | fmax (f : Frame) (ty : FTy) (ftz : Bool)
  | fcmp (f : Frame) (ty : FTy) (cc : FCond) (ftz : Bool)
  | fclass (f : Frame) (ty : FTy) (ftz : Bool)
  | frnd (f : Frame) (ty : FTy) (rnd : Rnd) (ftz : Bool)
  | fldexp (f : Frame) (ty : FTy) (rnd : Rnd) (sat ftz : Bool)
  | frcp (f : Frame) (ty : FTy) (rnd : Rnd) (sat ftz : Bool)
  | frsq (f : Frame) (ty : FTy) (rnd : Rnd) (sat ftz : Bool)
  | fsqrt (f : Frame) (ty : FTy) (rnd : Rnd) (sat ftz : Bool)
  | fdiv (f : Frame) (ty : FTy) (rnd : Rnd) (sat ftz : Bool)
  | fexp2 (f : Frame) (ty : FTy) (rnd : Rnd) (sat ftz : Bool)
  | flog2 (f : Frame) (ty : FTy) (rnd : Rnd) (sat ftz : Bool)
  | fsin (f : Frame) (ty : FTy) (rnd : Rnd) (sat ftz : Bool)
  | fcos (f : Frame) (ty : FTy) (rnd : Rnd) (sat ftz : Bool)
  | hadd2 (f : Frame) (ty : FTy) (rnd : Rnd) (sat ftz : Bool)
  | hmul2 (f : Frame) (ty : FTy) (rnd : Rnd) (sat ftz : Bool)
  | hfma2 (f : Frame) (ty : FTy) (rnd : Rnd) (sat ftz : Bool)
  | hdot2 (f : Frame) (ty : FTy) (dt : Bool) (rnd : Rnd) (sat ftz : Bool)
  | cvt (f : Frame) (dt st : CvtTy) (rnd : Rnd) (sat ftz : Bool) (sel : BitVec 2) (slot : BitVec 3)
  | qpack (f : Frame) (slot : BitVec 3)
  | qunpk (f : Frame) (slot : BitVec 3) (ty : FTy)
  -- control flow, divergence and spawning (07_control_divergence.md)
  | bra (f : Frame)
  | brx (f : Frame)
  | call (f : Frame)
  | callx (f : Frame)
  | ret (f : Frame)
  | kset (f : Frame) (or : Bool)
  | kclr (f : Frame) (sel : Bool)
  | join (f : Frame)
  | wsync (f : Frame)
  | exit (f : Frame)
  | yield (f : Frame)
  | nop (f : Frame)
  | spawn (f : Frame) (flt : Bool)
  -- thread memory access (08_thread_memory_traps.md)
  | ld (f : Frame) (m : MemMod)
  | ldS (f : Frame) (m : MemMod) (win : Bool)
  | ldC (f : Frame) (m : MemMod)
  | ldr (f : Frame) (m : MemMod)
  | st (f : Frame) (m : MemMod)
  | stS (f : Frame) (m : MemMod) (win : Bool)
  | stc (f : Frame) (m : MemMod)
  | pf (f : Frame) (m : MemMod)
  -- atomics and memory-side operations (14_cluster_atomics_gathering.md)
  | atom (f : Frame) (op : AtomOp) (ty : AtomTy) (base : Bool) (ctl : AtomCtl)
  | atomS (f : Frame) (op : AtomOp) (ty : AtomTy) (win : Bool) (ctl : AtomCtl)
  | cas (f : Frame) (ty : AtomTy) (base : Bool) (ctl : AtomCtl)
  | red (f : Frame) (op : AtomOp) (ty : AtomTy) (base : Bool) (ctl : AtomCtl)
  | mred (f : Frame) (op : AtomOp) (ty : AtomTy) (base : Bool) (ctl : AtomCtl)
  | mcas (f : Frame) (base : Bool) (ctl : AtomCtl)
  | mscale (f : Frame) (rnd : Rnd) (ty : AtomTy) (base : Bool) (ctl : AtomCtl)
  -- synchronisation (11_core_scratchpad_barriers.md)
  | barInit (f : Frame) (rmt : Bool)
  | arrive (f : Frame) (ord : SyncOrd) (scope : Scope) (rmt : Bool)
  | expect (f : Frame) (rmt : Bool)
  | wait (f : Frame) (ord : SyncOrd) (scope : Scope) (rmt : Bool)
  | cwatch (f : Frame) (rmt : Bool)
  | fence (f : Frame) (ord : SyncOrd) (scope : Scope)
  -- engine and queue commands (11, 14, 21, 24, 26)
  | copy (f : Frame) (dg ck : Bool)
  | halo (f : Frame)
  | gqEnq (f : Frame) (flt : Bool)
  | gqResv (f : Frame) (flt : Bool)
  | gqPub (f : Frame)
  | gqCfgConfigure (f : Frame)
  | gqCfgDisable (f : Frame)
  | gqCfgRelease (f : Frame)
  | gqCfgQuery (f : Frame)
  | rlaunch (f : Frame)
  | rlaunchPrism (f : Frame)
  | rlaunchSusp (f : Frame)
  | rlaunchRes (f : Frame)
  | rlaunchKill (f : Frame)
  | rlaunchRepl (f : Frame)
  | wdq (f : Frame)
  | sweep (f : Frame)
  | ctxSet (f : Frame)
  | ctxWake (f : Frame)
  | coll (f : Frame) (kind : CollKind) (red : CollRed)
  -- matrix and tile operations (13_cluster_caller_matrix.md)
  | mma (f : Frame) (sa sb : BitVec 3) (bh : Bool)
  | mmaZ (f : Frame) (sa sb : BitVec 3) (bh : Bool)
  | tfetch (f : Frame) (fs : BitVec 3) (q : Bool)
  | trel (f : Frame)
  | drain (f : Frame) (fs : BitVec 3)
  | azero (f : Frame)
  | dqPut (f : Frame) (all : Bool)
  | gqTake (f : Frame) (nb : Bool)
  | mwait (f : Frame)
  -- facets and versioned memory (19_facets_versioned_memory.md)
  | commit (f : Frame)
  | squash (f : Frame)
  | ldBase (f : Frame) (m : MemMod)
  | stBase (f : Frame) (m : MemMod)
  | present (f : Frame)
  -- render (23_render_path.md)
  | tex (f : Frame)
  | texF (f : Frame)
  | texG (f : Frame)
  | texQ (f : Frame)
  | trace (f : Frame)
  | binPut (f : Frame)
  | binPutEnd (f : Frame)
  | pxlock (f : Frame)
  | pxunlock (f : Frame) (all : Bool)
  -- system and trap (08_thread_memory_traps.md)
  | csrr (f : Frame)
  | csrw (f : Frame)
  | spillbWrite (f : Frame)
  | spilllWrite (f : Frame)
  | fairtWrite (f : Frame)
  | mestatHaltResume (f : Frame)
  | mestatDiscard (f : Frame)
  | trap (f : Frame)
  | bkpt (f : Frame)
  | eret (f : Frame)
  | icinv (f : Frame)
  | tlbinv (f : Frame) (all : Bool)
  -- events of threads, memory and the core (spec/95_what_each_step_holds.md); `w` is an issue unit, `err` says that the
  -- access met an uncorrectable error (R289)
  | fairnessExpiry (w : Nat)
  | llResultReturn (w lane acc : Nat) (err : Bool)
  | storePerform (w lane acc : Nat) (err : Bool)
  | homeAtomicPerform (w lane acc : Nat) (err : Bool)
  | serviceWaveRequest (cluster : Nat)
  | cwatchArrival (watch : Nat)
  | queueAccessComplete (w : Nat)
  | feedElementWrite (w stream : Nat)
  | copyTransfer (op : Nat)
  | haloStart (op : Nat)
  | reservedOpcode (sub : BitVec 8)
  | coreGate (core : Nat)
  | coreWake (core : Nat)
  | pageWalk (cluster : Nat)
  -- events of the gathering units, the work distributor and the sweep engines
  | gatherFiring (cluster : Nat)
  | reservationVoid (cluster queue ticket : Nat)
  | gatherFaultRetry (cluster queue : Nat)
  | deliveredWavePlace (delivery core : Nat)
  | wdqServe (op : Nat)
  | sweepStart (die : Nat)
  | sweepChunk (die engine : Nat)
  | chunkStepComplete (die engine : Nat)
  -- events of the collective and matrix engines; `others` holds the elements of the other members by rank
  | collExecute (op : Nat) (agree failed : Bool) (others : List (Nat × List Word))
  | tfetchRowFetch (cluster handle row : Nat)
  | engineMmaExecute (core : Nat)
  | engineDrainExecute (core : Nat)
  | engineAzeroExecute (core : Nat)
  -- events of the facet controller and the present unit
  | commitPublish (set : Nat)
  | setOpen (req set : Nat)
  | prefixEnd (set : Nat)
  | retireWalk (set : Nat)
  | presentFlip (queue : Nat)
  | presentGuard (queue : Nat)
  | presentReadoutDone (index : Nat)
  | flushComplete (die desc : Nat)
  -- events of homes and of the scheduler
  | homeMove (frame slice : Nat)
  | homeForward (frame : Nat)
  | dependenceMet (rgn index : Nat)
  | workgroupPlace (rgn core : Nat)
  | placementStarvationHold (die rgn : Nat)
  | preemptDecision (rgn : Nat)
  | workgroupSave (wg : Nat) (migrate : Bool)
  | workgroupRestore (wg core : Nat)
  | migrationForward (wg : Nat)
  | regionEnd (rgn : Nat)
  | timeQuotaCharge (core : Nat)
  -- events of the package; `acc` is true for a segment of the accumulator store
  | segmentTest (core : Nat) (acc : Bool) (quad seg : Nat) (fail : Bool)
  | powerCapStep (above : Bool)
  -- Fjoub's commands (R409): the function, the tag, the arguments, and what goes beside the 64 bytes
  | fwLaunch (fn : Nat) (tag : BitVec 16) (rcb : DWord)
  | fwPrismLaunch (fn : Nat) (tag : BitVec 16) (prism : DWord)
  | fwSuspend (fn : Nat) (tag : BitVec 16) (rcb : DWord)
  | fwResume (fn : Nat) (tag : BitVec 16) (rcb : DWord)
  | fwKill (fn : Nat) (tag : BitVec 16) (rcb : DWord)
  | fwReplay (fn : Nat) (tag : BitVec 16) (rcb : DWord) (seq : BitVec 16) (all : Bool)
  | fwFreeFrames (fn : Nat) (tag : BitVec 16) (rcb frame count : DWord)
  | fwSetQuota (fn : Nat) (tag : BitVec 16) (vf : BitVec 8) (rcb : DWord) (pasid : BitVec 20) (partition : BitVec 8)
      (pq : BitVec 4) (memq timeq : DWord) (regq scrq : Word) (accq : DWord)
  | fwSetPresent (fn : Nat) (tag : BitVec 16) (en : BitVec 48) (guard : BitVec 16) (intervals : List Word)
  | fwHomeMove (fn : Nat) (tag : BitVec 16) (frame slice : DWord)
  | fwSetL2Mode (fn : Nat) (tag : BitVec 16) (modes : DWord) (data : List Byte)
  | fwSetPower (fn : Nat) (tag : BitVec 16) (limit : DWord)
  | fwAttest (fn : Nat) (tag : BitVec 16) (nonce : BitVec 256)
  | fwWriteSlot (fn : Nat) (tag : BitVec 16) (version rollback length : Word) (image sig : List Byte)
  | fwConfirm (fn : Nat) (tag : BitVec 16)
  | fwRollBack (fn : Nat) (tag : BitVec 16) (slot : DWord) (nonce : BitVec 256) (sig : List Byte)
  | fwReadCounters (fn : Nat) (tag : BitVec 16)
  | fwFreeze (fn : Nat) (tag : BitVec 16)
  | fwInvalidCode (fn : Nat) (tag : BitVec 16) (code : BitVec 8)
  -- pins and links (R412 to R423)
  | freezePin
  | deviceReset
  | lifetimeCounterFlush
  | hostRequest (fn : Nat) (wr : Bool) (key : Nat) (data : List Byte) (size : Nat)
  | peerRequest (link : Nat) (op : PeerOp) (key : Nat) (data : List Byte) (size : Nat)
  | atsTranslationResponse (va : HostAddr) (key size : Nat) (rd wr : Bool)
  | atsInvalidateRequest (va : HostAddr) (size : Nat)
  | linkRetrain (link : Nat)
  | linkDown (link : Nat)
  | powerLoss
  deriving DecidableEq, Repr

end Sys2Proof
end

