-- ==== Sys2Proof/Machine/Bits.lean ====
section
/-! DEFINITION. Bit fields, and the encodings of the named values of the syntax: for each, the bits the spec gives it
and the value those bits stand for. -/

namespace Sys2Proof

/-- Bits hi:lo of x (R7). -/
def bits {w : Nat} (x : BitVec w) (hi lo : Nat) : BitVec (hi + 1 - lo) := x.extractLsb' lo (hi + 1 - lo)

/-- `sext(x, n)` of R44: the integer a two's-complement word stands for. -/
abbrev sext {w : Nat} (x : BitVec w) : Int := x.toInt

/-- `zext(x, n)` of R44, as an integer. -/
abbrev zext {w : Nat} (x : BitVec w) : Int := (x.toNat : Int)

/-- A one-bit field. -/
def boolBit (b : Bool) : BitVec 1 := BitVec.ofBool b

/-- R37: the class and number an operand field encodes. -/
def Operand.ofBits (x : BitVec 11) : Operand :=
  if x.getLsbD 10 = false then .v (x.extractLsb' 0 10)
  else
    match (x.extractLsb' 7 3).toNat with
    | 0 => .lit (x.extractLsb' 0 7)
    | 1 => .s (x.extractLsb' 0 7)
    | 2 => if x.extractLsb' 5 2 = 0 then .q (x.extractLsb' 0 5) else .bad x
    | 3 => .sr (x.extractLsb' 0 7)
    | 4 =>
      if x.extractLsb' 3 4 = 0 then .p (x.extractLsb' 0 3)
      else if x.extractLsb' 4 3 = 1 then .k (x.extractLsb' 0 4) else .bad x
    | _ => .bad x

/-- R37: the field that encodes an operand. -/
def Operand.toBits : Operand → BitVec 11
  | .v n => 0#1 ++ n
  | .lit n => 0b1000#4 ++ n
  | .s n => 0b1001#4 ++ n
  | .q n => 0b101000#6 ++ n
  | .sr n => 0b1011#4 ++ n
  | .p n => 0b11000000#8 ++ n
  | .k n => 0b1100001#7 ++ n
  | .bad x => x

/-- The field value 0, which an unused operand field must hold (R32). -/
def Operand.unused : Operand := .v 0

/-- The zero literal 0x400 (R37). -/
def Operand.zeroLit : Operand := .lit 0

/-- TY of R93. -/
def IntTy.ofBits (x : BitVec 3) : Option IntTy :=
  match x.toNat with
  | 0 => some .s32 | 1 => some .z32 | 2 => some .b32 | 3 => some .s64 | 4 => some .z64 | 5 => some .b64
  | 6 => some .f32 | _ => none

/-- TY of R93. -/
def IntTy.toBits : IntTy → BitVec 3
  | .s32 => 0 | .z32 => 1 | .b32 => 2 | .s64 => 3 | .z64 => 4 | .b64 => 5 | .f32 => 6

/-- TY of R114. -/
def FTy.ofBits (x : BitVec 2) : Option FTy :=
  match x.toNat with
  | 0 => some .f32 | 1 => some .f16 | 2 => some .bf16 | _ => none

/-- TY of R114. -/
def FTy.toBits : FTy → BitVec 2
  | .f32 => 0 | .f16 => 1 | .bf16 => 2

/-- The rounding field of R46. -/
def Rnd.ofBits (x : BitVec 2) : Rnd :=
  match x.toNat with
  | 0 => .rne | 1 => .rtz | 2 => .rdn | _ => .rup

/-- The rounding field of R46. -/
def Rnd.toBits : Rnd → BitVec 2
  | .rne => 0 | .rtz => 1 | .rdn => 2 | .rup => 3

/-- The scope field of R46. -/
def Scope.ofBits (x : BitVec 4) : Option Scope :=
  match x.toNat with
  | 0 => some .thr | 1 => some .wav | 2 => some .cor | 3 => some .cls | 4 => some .prt | 5 => some .die
  | 6 => some .dev | 7 => some .peer | 8 => some .host | 9 => some .sys | _ => none

/-- The scope field of R46. -/
def Scope.toBits : Scope → BitVec 4
  | .thr => 0 | .wav => 1 | .cor => 2 | .cls => 3 | .prt => 4 | .die => 5 | .dev => 6 | .peer => 7 | .host => 8
  | .sys => 9

/-- CMP of R106. -/
def ICond.ofBits (x : BitVec 3) : Option ICond :=
  match x.toNat with
  | 0 => some .eq | 1 => some .ne | 2 => some .lt | 3 => some .le | 4 => some .gt | 5 => some .ge | _ => none

/-- CMP of R106. -/
def ICond.toBits : ICond → BitVec 3
  | .eq => 0 | .ne => 1 | .lt => 2 | .le => 3 | .gt => 4 | .ge => 5

/-- CC of R120. -/
def FCond.ofBits (x : BitVec 3) : FCond :=
  match x.toNat with
  | 0 => .eq | 1 => .ne | 2 => .lt | 3 => .le | 4 => .gt | 5 => .ge | 6 => .num | _ => .nan

/-- CC of R120. -/
def FCond.toBits : FCond → BitVec 3
  | .eq => 0 | .ne => 1 | .lt => 2 | .le => 3 | .gt => 4 | .ge => 5 | .num => 6 | .nan => 7

/-- SC of R108 and R152. -/
def Scale.ofBits (x : BitVec 3) : Option Scale :=
  match x.toNat with
  | 0 => some .x1 | 1 => some .x2 | 2 => some .x4 | 3 => some .x8 | 4 => some .x16 | _ => none

/-- SC of R108 and R152. -/
def Scale.toBits : Scale → BitVec 3
  | .x1 => 0 | .x2 => 1 | .x4 => 2 | .x8 => 3 | .x16 => 4

/-- The factor a scale stands for (R108). -/
def Scale.factor : Scale → Nat
  | .x1 => 1 | .x2 => 2 | .x4 => 4 | .x8 => 8 | .x16 => 16

/-- MODE of R110. -/
def ShflMode.ofBits (x : BitVec 2) : ShflMode :=
  match x.toNat with
  | 0 => .idx | 1 => .up | 2 => .down | _ => .xor

/-- MODE of R110. -/
def ShflMode.toBits : ShflMode → BitVec 2
  | .idx => 0 | .up => 1 | .down => 2 | .xor => 3

/-- MODE of R111. -/
def VoteMode.ofBits (x : BitVec 2) : VoteMode :=
  match x.toNat with
  | 0 => .all | 1 => .any | 2 => .eq | _ => .bal

/-- MODE of R111. -/
def VoteMode.toBits : VoteMode → BitVec 2
  | .all => 0 | .any => 1 | .eq => 2 | .bal => 3

/-- OPN of R112. -/
def ReduxOp.ofBits (x : BitVec 3) : Option ReduxOp :=
  match x.toNat with
  | 0 => some .add | 1 => some .min | 2 => some .max | 3 => some .and | 4 => some .or | 5 => some .xor | _ => none

/-- OPN of R112. -/
def ReduxOp.toBits : ReduxOp → BitVec 3
  | .add => 0 | .min => 1 | .max => 2 | .and => 3 | .or => 4 | .xor => 5

/-- The type codes of R125. -/
def CvtTy.ofBits (x : BitVec 4) : Option CvtTy :=
  match x.toNat with
  | 0 => some .f32 | 1 => some .f16 | 2 => some .bf16 | 3 => some .e4m3 | 4 => some .e5m2 | 5 => some .s8
  | 6 => some .z8 | 7 => some .s16 | 8 => some .z16 | 9 => some .s32 | 10 => some .z32 | 11 => some .s64
  | 12 => some .z64 | 13 => some .slot | _ => none

/-- The type codes of R125. -/
def CvtTy.toBits : CvtTy → BitVec 4
  | .f32 => 0 | .f16 => 1 | .bf16 => 2 | .e4m3 => 3 | .e5m2 => 4 | .s8 => 5 | .z8 => 6 | .s16 => 7 | .z16 => 8
  | .s32 => 9 | .z32 => 10 | .s64 => 11 | .z64 => 12 | .slot => 13

/-- WID of R151. -/
def Wid.ofBits (x : BitVec 3) : Option Wid :=
  match x.toNat with
  | 0 => some .z8 | 1 => some .s8 | 2 => some .z16 | 3 => some .s16 | 4 => some .b32 | 5 => some .b64
  | 6 => some .b128 | _ => none

/-- WID of R151. -/
def Wid.toBits : Wid → BitVec 3
  | .z8 => 0 | .s8 => 1 | .z16 => 2 | .s16 => 3 | .b32 => 4 | .b64 => 5 | .b128 => 6

/-- The bytes an access of a width touches (R155). -/
def Wid.size : Wid → Nat
  | .z8 => 1 | .s8 => 1 | .z16 => 2 | .s16 => 2 | .b32 => 4 | .b64 => 8 | .b128 => 16

/-- The registers an access of a width names (R153). -/
def Wid.words : Wid → Nat
  | .b64 => 2 | .b128 => 4 | _ => 1

/-- ORD of R151. -/
def Ord.ofMem (x : BitVec 2) : Ord :=
  match x.toNat with
  | 0 => .plain | 1 => .rlx | 2 => .acq | _ => .rel

/-- ORD of R151. -/
def Ord.toMem : Ord → BitVec 2
  | .plain => 0 | .rlx => 1 | .acq => 2 | .rel => 3 | .ar => 0

/-- ORD of R249. -/
def Ord.ofAtom (x : BitVec 2) : Ord :=
  match x.toNat with
  | 0 => .ar | 1 => .rlx | 2 => .acq | _ => .rel

/-- ORD of R249. -/
def Ord.toAtom : Ord → BitVec 2
  | .ar => 0 | .rlx => 1 | .acq => 2 | .rel => 3 | .plain => 1

/-- OP of R248. -/
def AtomOp.ofBits (x : BitVec 3) : Option AtomOp :=
  match x.toNat with
  | 0 => some .add | 1 => some .min | 2 => some .max | 3 => some .and | 4 => some .or | 5 => some .xor
  | 6 => some .exch | _ => none

/-- OP of R248. -/
def AtomOp.toBits : AtomOp → BitVec 3
  | .add => 0 | .min => 1 | .max => 2 | .and => 3 | .or => 4 | .xor => 5 | .exch => 6

/-- TY of R248. -/
def AtomTy.ofBits (x : BitVec 3) : AtomTy :=
  match x.toNat with
  | 0 => .s32 | 1 => .z32 | 2 => .b32 | 3 => .s64 | 4 => .z64 | 5 => .b64 | 6 => .f32 | _ => .bf16

/-- TY of R248. -/
def AtomTy.toBits : AtomTy → BitVec 3
  | .s32 => 0 | .z32 => 1 | .b32 => 2 | .s64 => 3 | .z64 => 4 | .b64 => 5 | .f32 => 6 | .bf16 => 7

/-- The registers a value of an atomic's type names (R250, R251). -/
def AtomTy.words : AtomTy → Nat
  | .s64 => 2 | .z64 => 2 | .b64 => 2 | _ => 1

/-- ORD of R200. -/
def SyncOrd.ofBits (x : BitVec 2) : SyncOrd :=
  match x.toNat with
  | 0 => .none | 1 => .rlx | 2 => .acq | _ => .rel

/-- ORD of R200. -/
def SyncOrd.toBits : SyncOrd → BitVec 2
  | .none => 0 | .rlx => 1 | .acq => 2 | .rel => 3

/-- KIND of R419. -/
def CollKind.ofBits (x : BitVec 2) : Option CollKind :=
  match x.toNat with
  | 0 => some .allred | 1 => some .allgat | 2 => some .redsc | _ => none

/-- KIND of R419. -/
def CollKind.toBits : CollKind → BitVec 2
  | .allred => 0 | .allgat => 1 | .redsc => 2

/-- RED of R419. -/
def CollRed.ofBits (x : BitVec 3) : Option CollRed :=
  match x.toNat with
  | 0 => some .add | 1 => some .min | 2 => some .max | _ => none

/-- RED of R419. -/
def CollRed.toBits : CollRed → BitVec 3
  | .add => 0 | .min => 1 | .max => 2

/-- CTL of R152: SCOPE 10:7, SC 6:4, reserved 3:0. -/
def MemCtl.ofBits (x : BitVec 11) : Option MemCtl :=
  if x.extractLsb' 0 4 ≠ 0 then none
  else
    match Scope.ofBits (x.extractLsb' 7 4), Scale.ofBits (x.extractLsb' 4 3) with
    | some sc, some k => some ⟨sc, k⟩
    | _, _ => none

/-- CTL of R152. -/
def MemCtl.toBits (c : MemCtl) : BitVec 11 := c.scope.toBits ++ c.sc.toBits ++ 0#4

/-- X of R249: OFF 20:8, SCOPE 7:4, ORD 3:2, reserved 1:0. -/
def AtomCtl.ofBits (x : BitVec 21) : Option AtomCtl :=
  if x.extractLsb' 0 2 ≠ 0 then none
  else
    match Scope.ofBits (x.extractLsb' 4 4) with
    | some sc => some ⟨x.extractLsb' 8 13, sc, Ord.ofAtom (x.extractLsb' 2 2)⟩
    | none => none

/-- X of R249. -/
def AtomCtl.toBits (c : AtomCtl) : BitVec 21 := c.off ++ c.scope.toBits ++ c.ord.toAtom ++ 0#2

end Sys2Proof
end

