-- ==== Sys2Proof/Machine/Flt.lean ====
section
/-! DEFINITION. Floating formats and rounding (04_number_formats.md R72 to R76, R45, R117), on exact extended reals. -/

namespace Sys2Proof

/-- The floating formats of R72. -/
inductive Fmt where
  | f32 | f16 | bf16 | e5m2 | e4m3
  deriving DecidableEq, Repr

/-- Fraction bits (R72). -/
def Fmt.frac : Fmt → Nat
  | .f32 => 23 | .f16 => 10 | .bf16 => 7 | .e5m2 => 2 | .e4m3 => 3

/-- Exponent bits (R72). -/
def Fmt.expo : Fmt → Nat
  | .f32 => 8 | .f16 => 5 | .bf16 => 8 | .e5m2 => 5 | .e4m3 => 4

/-- Width in bits. -/
def Fmt.width (f : Fmt) : Nat := 1 + f.expo + f.frac

/-- The bias (R72). -/
def Fmt.bias : Fmt → Int
  | .f32 => 127 | .f16 => 15 | .bf16 => 127 | .e5m2 => 15 | .e4m3 => 7

/-- The encoding of the largest finite value (R72). -/
def Fmt.maxBits : Fmt → Nat
  | .f32 => 0x7F7FFFFF | .f16 => 0x7BFF | .bf16 => 0x7F7F | .e5m2 => 0x7B | .e4m3 => 0x7E

/-- The encoding of +∞; E4M3 has none (R72). -/
def Fmt.infBits : Fmt → Option Nat
  | .f32 => some 0x7F800000 | .f16 => some 0x7C00 | .bf16 => some 0x7F80 | .e5m2 => some 0x7C | .e4m3 => none

/-- The canonical NaN (R72). -/
def Fmt.nanBits : Fmt → Nat
  | .f32 => 0x7FC00000 | .f16 => 0x7E00 | .bf16 => 0x7FC0 | .e5m2 => 0x7E | .e4m3 => 0x7F

/-- The exponent of the smallest subnormal (R72). -/
def Fmt.qmin (f : Fmt) : Int := 1 - f.bias - f.frac

/-- The format a type names (R114). -/
def FTy.fmt : FTy → Fmt
  | .f32 => .f32 | .f16 => .f16 | .bf16 => .bf16

/-- An extended real (R45, R117): NaN, a signed infinity, or ±(m + t) × 2^e, where t is 0, or some number strictly
between 0 and 1 when `more` is set. -/
inductive XR where
  | nan
  | inf (neg : Bool)
  | fin (neg : Bool) (m : Nat) (e : Int) (more : Bool)
  deriving DecidableEq, Repr

/-- The exact integer. -/
def XR.ofInt (n : Int) : XR := .fin (decide (n < 0)) n.natAbs 0 false

/-- A zero of a sign. -/
def XR.zero (neg : Bool) : XR := .fin neg 0 0 false

/-- The value is a zero. -/
def XR.isZero : XR → Bool
  | .fin _ m _ more => m == 0 && !more
  | _ => false

/-- `fval` of R117: the extended real that the low bits of `b` encode (R72). -/
def fval (b : Nat) (f : Fmt) (ftz : Bool) : XR :=
  let neg := b.testBit (f.width - 1)
  let mag := b % 2 ^ (f.width - 1)
  let m := mag % 2 ^ f.frac
  let e := mag / 2 ^ f.frac
  let isNan := match f.infBits with
    | some i => decide (i < mag)
    | none => mag == f.nanBits
  if isNan then .nan
  else if some mag = f.infBits then .inf neg
  else if e = 0 then
    if ftz && (f == .f32 || f == .f16 || f == .bf16) then .zero neg else .fin neg m f.qmin false
  else .fin neg (2 ^ f.frac + m) (f.qmin + e - 1) false

/-- The rounding of n + r, where `half` says how r compares with one half (`exact` when r = 0): does it go up? -/
def roundsUp (mode : Rnd) (neg : Bool) (odd : Bool) (half : Ordering) (exact : Bool) : Bool :=
  match mode with
  | .rne => half == .gt || (half == .eq && odd)
  | .rtz => false
  | .rdn => neg && !exact
  | .rup => !neg && !exact

/-- (m + t) × 2^e as a multiple of 2^q: the rounded multiple (R45). -/
def roundAt (mode : Rnd) (neg : Bool) (m : Nat) (e : Int) (more : Bool) (q : Int) : Nat :=
  if q ≤ e then
    let n := m * 2 ^ (e - q).toNat
    n + (if roundsUp mode neg (n % 2 == 1) .lt (!more) then 1 else 0)
  else
    let s := (q - e).toNat
    if m.log2 + 1 < s then (if roundsUp mode neg false .lt (m == 0 && !more) then 1 else 0)
    else
      let n := m / 2 ^ s
      let r := m % 2 ^ s
      let h := 2 ^ (s - 1)
      let half := if r < h then Ordering.lt else if r = h && !more then .eq else .gt
      n + (if roundsUp mode neg (n % 2 == 1) half (r == 0 && !more) then 1 else 0)

/-- The encoding of a finite magnitude rounded to a format's precision, as if its exponent had no upper bound. -/
def magBits (f : Fmt) (mode : Rnd) (neg : Bool) (m : Nat) (e : Int) (more : Bool) : Nat :=
  let top : Int := e + m.log2
  let q := if m = 0 then f.qmin else max (top - f.frac) f.qmin
  (q - f.qmin).toNat * 2 ^ f.frac + roundAt mode neg m e more q

/-- A magnitude with its sign bit. -/
def withSign (f : Fmt) (neg : Bool) (mag : Nat) : Nat := if neg then 2 ^ (f.width - 1) + mag else mag

/-- The result of R45 where the rounded magnitude exceeds the largest finite value. -/
def overflowBits (f : Fmt) (mode : Rnd) (sat neg : Bool) : Nat :=
  if sat then withSign f neg f.maxBits
  else
    match f.infBits with
    | none => f.nanBits
    | some i =>
      let toMax := match mode with
        | .rne => false
        | .rtz => true
        | .rdn => !neg
        | .rup => neg
      withSign f neg (if toMax then f.maxBits else i)

/-- `round` of R45 into a floating format. -/
def roundF (x : XR) (f : Fmt) (mode : Rnd) (sat : Bool) : Nat :=
  match x with
  | .nan => f.nanBits
  | .inf neg =>
    if sat then withSign f neg f.maxBits
    else match f.infBits with
      | some i => withSign f neg i
      | none => f.nanBits
  | .fin neg m e more =>
    let b := magBits f mode neg m e more
    if f.maxBits < b then overflowBits f mode sat neg else withSign f neg b

/-- The encoding is a nonzero subnormal (R72). -/
def isSubnormal (f : Fmt) (b : Nat) : Bool :=
  let mag := b % 2 ^ (f.width - 1)
  mag != 0 && decide (mag < 2 ^ f.frac)

/-- `fres` of R117. -/
def fres (x : XR) (f : Fmt) (mode : Rnd) (sat ftz : Bool) : Nat :=
  let b := roundF x f mode sat
  if ftz && (f == .f32 || f == .f16 || f == .bf16) && isSubnormal f b then b / 2 ^ (f.width - 1) * 2 ^ (f.width - 1)
  else b

/-- The bits of an integer format, as `round` of R45 gives them: w bits, signed or not. -/
def roundI (x : XR) (w : Nat) (signed : Bool) (mode : Rnd) (sat : Bool) : Nat :=
  let lo : Int := if signed then -(2 ^ (w - 1)) else 0
  let hi : Int := if signed then 2 ^ (w - 1) - 1 else 2 ^ w - 1
  let put (n : Int) : Nat := (n % 2 ^ w).toNat
  match x with
  | .nan => 0
  | .inf neg => put (if neg then lo else hi)
  | .fin neg m e more =>
    let a : Int := roundAt mode neg m e more 0
    let n := if neg then -a else a
    put (if sat then max lo (min hi n) else n)

/-- The signed numerator over 2^(-e), for a finite value without a tail. -/
def XR.scaled (neg : Bool) (m : Nat) (e low : Int) : Int :=
  let a : Int := m * 2 ^ (e - low).toNat
  if neg then -a else a

/-- The product of two extended reals (R117). -/
def XR.mul : XR → XR → XR
  | .nan, _ => .nan
  | _, .nan => .nan
  | .inf a, .inf b => .inf (a != b)
  | .inf a, .fin b m e more => if (XR.fin b m e more).isZero then .nan else .inf (a != b)
  | .fin a m e more, .inf b => if (XR.fin a m e more).isZero then .nan else .inf (a != b)
  | .fin a m e _, .fin b n d _ => .fin (a != b) (m * n) (e + d) false

/-- The negative. -/
def XR.neg : XR → XR
  | .nan => .nan
  | .inf a => .inf (!a)
  | .fin a m e more => .fin (!a) m e more

/-- The exact sum of a list (R90, R117): an exact zero is +0, or −0 under `.rdn`, unless every term is a zero of one
sign. -/
def XR.sum (mode : Rnd) (xs : List XR) : XR :=
  if xs.contains .nan then .nan
  else if xs.contains (.inf false) then (if xs.contains (.inf true) then .nan else .inf false)
  else if xs.contains (.inf true) then .inf true
  else
    let low := xs.foldl (fun l x => match x with | .fin _ m e _ => if m = 0 then l else min l e | _ => l) 0
    let n := xs.foldl (fun (a : Int) x => match x with
      | .fin neg m e _ => if m = 0 then a else a + XR.scaled neg m e low
      | _ => a) 0
    if n = 0 then
      let sign (b : Bool) (x : XR) : Bool := match x with | .fin neg m _ _ => m == 0 && neg == b | _ => false
      if xs.all (sign true) then .zero true
      else if xs.all (sign false) then .zero false
      else .zero (mode == .rdn)
    else .fin (decide (n < 0)) n.natAbs low false

/-- The sum of two extended reals (R117). -/
def XR.add (mode : Rnd) (x y : XR) : XR := XR.sum mode [x, y]

/-- The order of two values that are no NaN; zeros compare equal (R120). -/
def XR.lt (x y : XR) : Bool :=
  match x, y with
  | .nan, _ => false
  | _, .nan => false
  | .inf a, .inf b => a && !b
  | .inf a, _ => a
  | _, .inf b => !b
  | .fin a m e _, .fin b n d _ =>
    let low := min e d
    decide (XR.scaled a m e low < XR.scaled b n d low)

/-- The values are equal; zeros of both signs are (R120). -/
def XR.eq (x y : XR) : Bool :=
  match x, y with
  | .nan, _ => false
  | _, .nan => false
  | _, _ => !x.lt y && !y.lt x

/-- The quotient of two extended reals (R117, R123). -/
def XR.div : XR → XR → XR
  | .nan, _ => .nan
  | _, .nan => .nan
  | .inf _, .inf _ => .nan
  | .inf a, .fin b _ _ _ => .inf (a != b)
  | .fin a _ _ _, .inf b => .zero (a != b)
  | .fin a m e _, .fin b n d _ =>
    if n = 0 then (if m = 0 then .nan else .inf (a != b))
    else if m = 0 then .zero (a != b)
    else
      let k := 64 + n.log2
      let q := m * 2 ^ k / n
      .fin (a != b) q (e - d - k) (decide (q * n ≠ m * 2 ^ k))

/-- The integer square root of n, found bit by bit below bit k. -/
def isqrt (n : Nat) : Nat → Nat → Nat
  | 0, r => r
  | k + 1, r => let c := r + 2 ^ k; isqrt n k (if c * c ≤ n then c else r)

/-- The square root (R123). -/
def XR.sqrt : XR → XR
  | .nan => .nan
  | .inf neg => if neg then .nan else .inf false
  | .fin neg m e _ =>
    if m = 0 then .zero neg
    else if neg then .nan
    else
      let k := 128 + (e % 2).toNat
      let n := m * 2 ^ k
      let r := isqrt n ((n.log2 + 2) / 2 + 1) 0
      .fin false r ((e - k) / 2) (decide (r * r ≠ n))

/-- The reciprocal of the square root (R123). -/
def XR.rsqrt : XR → XR
  | .nan => .nan
  | .inf neg => if neg then .nan else .zero false
  | .fin neg m e _ =>
    if m = 0 then .inf neg
    else if neg then .nan
    else
      let o := (e % 2).toNat
      let n := m * 2 ^ o
      let k := 64 + n.log2
      let w := 2 ^ (2 * k) / n
      let r := isqrt w ((w.log2 + 2) / 2 + 1) 0
      .fin false r (-(k : Int) - (e - o) / 2) (decide (r * r * n ≠ 2 ^ (2 * k)))

/-- The sum of z^(2i+1) / (2i+1) from i = 0, in units of 2^-w, with alternating signs when `alt`: `t` is the power of z,
`z2` its square. -/
def oddSeries (alt : Bool) (z2 w : Nat) : Nat → Nat → Nat → Int → Int
  | 0, _, _, a => a
  | fuel + 1, i, t, a =>
    if t = 0 then a
    else
      let d : Int := t / (2 * i + 1)
      oddSeries alt z2 w fuel (i + 1) (t * z2 / 2 ^ w) (if alt && i % 2 == 1 then a - d else a + d)

/-- arctan(1/n), in units of 2^-w. -/
def atanInv (n w : Nat) : Nat :=
  let one := 2 ^ w
  (oddSeries true (one / (n * n)) w (w + 2) 0 (one / n) 0).toNat

/-- π, in units of 2^-w, within a few thousand of them. -/
def piFix (w : Nat) : Nat := 16 * atanInv 5 w - 4 * atanInv 239 w

/-- ln 2, in units of 2^-w, within a few thousand of them. -/
def ln2Fix (w : Nat) : Nat :=
  let one := 2 ^ w
  2 * (oddSeries false (one / 9) w (w + 2) 0 (one / 3) 0).toNat

/-- The sum of t_i, where t_(i+1) = t_i × x / ((a + i × b)(...)) in units of 2^-w: the series of exp (step 1) and of sin
and cos (step 2, alternating). `n` is the last factor of the factorial. -/
def factSeries (alt : Bool) (step x w : Nat) : Nat → Nat → Nat → Int → Int
  | 0, _, _, a => a
  | fuel + 1, n, t, a =>
    if t = 0 then a
    else
      let d := if step = 1 then n + 1 else (n + 1) * (n + 2)
      let neg := alt && (n / 2) % 2 == 1
      factSeries alt step x w fuel (n + step) (t * x / 2 ^ w / d) (if neg then a - t else a + t)

/-- x in units of 2^-w, rounded down; x is m × 2^e. -/
def fixed (m : Nat) (e : Int) (w : Nat) : Nat :=
  let k := e + w
  if 0 ≤ k then m * 2 ^ k.toNat else m / 2 ^ (-k).toNat

/-- The functions of R123 that are evaluated between bounds. -/
inductive Trans where
  | exp2 | log2 | sin | cos
  deriving DecidableEq, Repr

/-- A value of a function in units of 2^-w, within 2^24 of them, with the exponent it is scaled by. -/
def Trans.approx (fn : Trans) (neg : Bool) (m : Nat) (e : Int) (w : Nat) : Int × Int :=
  match fn with
  | .exp2 =>
    let a : Int := fixed m e w
    let x := if neg then -a - 1 else a
    let k := x / 2 ^ w
    let f := (x % 2 ^ w).toNat
    (factSeries false 1 (f * ln2Fix w / 2 ^ w) w (w + 2) 0 (2 ^ w) 0, k)
  | .log2 =>
    let p := m.log2
    let one := 2 ^ w
    let y := fixed m (-(p : Int)) w
    let z := (y - one) * one / (y + one)
    let l := 2 * oddSeries false (z * z / one) w (w + 2) 0 z 0
    ((e + p) * one + l * one / ln2Fix w, 0)
  | .sin | .cos =>
    let v := w + 144
    let x := fixed m e v
    let h := piFix v / 2
    let q := x / h % 4
    let r := x % h / 2 ^ 144
    let r2 := r * r / 2 ^ w
    let sn := factSeries true 2 r2 w (w + 2) 1 r 0
    let cs := factSeries true 2 r2 w (w + 2) 0 (2 ^ w) 0
    let (a, b) := match q with
      | 0 => (sn, cs)
      | 1 => (cs, -sn)
      | 2 => (-sn, -cs)
      | _ => (-cs, sn)
    ((if fn = .sin then (if neg then -a else a) else b), 0)

/-- v × 2^e as an extended real. -/
def XR.ofScaled (v : Int) (e : Int) : XR := .fin (decide (v < 0)) v.natAbs e false

/-- The correctly rounded result where the bounds of one precision agree; the precisions are tried in order, and a
source that none decides takes the free value of `Config.transcend`. -/
def Trans.ziv (fn : Trans) (f : Fmt) (mode : Rnd) (sat ftz : Bool) (neg : Bool) (m : Nat) (e : Int) : List Nat → Nat
  | [] => (Config.transcend (match fn with | .exp2 => 0 | .log2 => 1 | .sin => 2 | .cos => 3) f.width
      mode.toBits.toNat (roundF (.fin neg m e false) f .rne false)).toNat % 2 ^ f.width
  | w :: ws =>
    let (v, k) := fn.approx neg m e w
    let lo := fres (.ofScaled (v - 2 ^ 24) (k - w)) f mode sat ftz
    let hi := fres (.ofScaled (v + 2 ^ 24) (k - w)) f mode sat ftz
    if lo = hi then lo else Trans.ziv fn f mode sat ftz neg m e ws

/-- The precisions tried. -/
def zivSteps : List Nat := [112, 224, 448, 896]

/-- The integral value of m × 2^e, if it is one. -/
def integral (m : Nat) (e : Int) : Option Nat :=
  if 0 ≤ e then (if e < 64 then some (m * 2 ^ e.toNat) else none)
  else
    let k := (-e).toNat
    if m % 2 ^ k = 0 then some (m / 2 ^ k) else none

/-- The result of `fexp2`, `flog2`, `fsin` and `fcos` (R123). A source beyond the exponent range of every format, and one
so small that the result lies next to its limit value, is decided without a series. -/
def Trans.eval (fn : Trans) (x : XR) (f : Fmt) (mode : Rnd) (sat ftz : Bool) : Nat :=
  let done (y : XR) : Nat := fres y f mode sat ftz
  match fn, x with
  | _, .nan => done .nan
  | .exp2, .inf neg => done (if neg then .zero false else .inf false)
  | .log2, .inf neg => done (if neg then .nan else .inf false)
  | .sin, .inf _ => done .nan
  | .cos, .inf _ => done .nan
  | .exp2, .fin neg m e _ =>
    if m = 0 then done (.fin false 1 0 false)
    else if 10 < e + m.log2 then done (.fin false 1 (if neg then -1024 else 1024) true)
    else
      match integral m e with
      | some n => done (.fin false 1 (if neg then -n else n) false)
      | none => fn.ziv f mode sat ftz neg m e zivSteps
  | .log2, .fin neg m e _ =>
    if m = 0 then done (.inf true)
    else if neg then done .nan
    else if m = 2 ^ m.log2 then
      (let n : Int := e + m.log2
       done (if n = 0 then .zero false else .ofInt n))
    else fn.ziv f mode sat ftz neg m e zivSteps
  | .sin, .fin neg m e _ =>
    if m = 0 then done (.zero neg)
    else if e + m.log2 < -32 then done (.fin neg (m * 2 ^ 80 - 1) (e - 80) true)
    else fn.ziv f mode sat ftz neg m e zivSteps
  | .cos, .fin neg m e _ =>
    if m = 0 then done (.fin false 1 0 false)
    else if e + m.log2 < -32 then done (.fin false (2 ^ 80 - 1) (-80) true)
    else fn.ziv f mode sat ftz neg m e zivSteps

end Sys2Proof
end

