-- ==== Sys2Proof/Machine/Flags.lean ====
section
/-! DEFINITION. Integer arithmetic on exact integers and every status bit it gives: carries, borrows, conditions, clamps
(05_integer_wave_instructions.md R95 to R106). -/

namespace Sys2Proof

/-- The type is signed (R95). -/
def IntTy.signed : IntTy → Bool
  | .s32 => true | .s64 => true | _ => false

/-- The width of a type in bits (R95). -/
def IntTy.width : IntTy → Nat
  | .s64 => 64 | .z64 => 64 | .b64 => 64 | _ => 32

/-- The bits of a type, all set. -/
def IntTy.ones (ty : IntTy) : Nat := 2 ^ ty.width - 1

/-- `int_of` of R95, on a value already cut to the width of the type. -/
def intOf (x : Nat) (ty : IntTy) : Int :=
  if ty.signed && decide (2 ^ (ty.width - 1) ≤ x) then (x : Int) - 2 ^ ty.width else x

/-- `clamp` of R95. -/
def clampTo (e : Int) (ty : IntTy) : Int :=
  if ty.signed then max (-(2 ^ (ty.width - 1))) (min (2 ^ (ty.width - 1) - 1) e)
  else max 0 (min (2 ^ ty.width - 1) e)

/-- Bits w−1:0 of an integer (R44). -/
def lowBits (e : Int) (w : Nat) : Nat := (e % 2 ^ w).toNat

/-- The write rule of R96: clamp under SAT, then the low bits. -/
def intResult (e : Int) (ty : IntTy) (sat : Bool) : Nat := lowBits (if sat then clampTo e ty else e) ty.width

/-- The carry-out of `iaddc` (R97). -/
def carryOut (x y c : Nat) : Bool := decide (2 ^ 32 ≤ x + y + c)

/-- The borrow-out of `isubb` (R97). -/
def borrowOut (x y c : Nat) : Bool := decide (x < y + c)

/-- The condition of `icmp` (R106). -/
def ICond.holds (cc : ICond) (x y : Int) : Bool :=
  match cc with
  | .eq => decide (x = y)
  | .ne => decide (x ≠ y)
  | .lt => decide (x < y)
  | .le => decide (x ≤ y)
  | .gt => decide (x > y)
  | .ge => decide (x ≥ y)

/-- The condition of `fcmp` (R120). -/
def FCond.holds (cc : FCond) (x y : XR) : Bool :=
  let un := decide (x = .nan) || decide (y = .nan)
  match cc with
  | .eq => !un && x.eq y
  | .ne => un || !x.eq y
  | .lt => !un && x.lt y
  | .le => !un && !y.lt x
  | .gt => !un && y.lt x
  | .ge => !un && !x.lt y
  | .num => !un
  | .nan => un

/-- A truth value as a number. -/
def b2n (b : Bool) : Nat := if b then 1 else 0

/-- `idiv` (R98). -/
def divResult (x y : Int) (ty : IntTy) (sat : Bool) : Nat :=
  if y = 0 then 0xFFFFFFFF
  else if ty.signed && x == -(2 ^ 31) && y == -1 then (if sat then 0x7FFFFFFF else 0x80000000)
  else lowBits (x.tdiv y) 32

/-- `irem` (R98). -/
def remResult (x y : Int) (ty : IntTy) : Nat :=
  if y = 0 then lowBits x 32
  else if ty.signed && x == -(2 ^ 31) && y == -1 then 0
  else lowBits (x.tmod y) 32

/-- The shifts of R101 on a w-bit value; n is the amount in full. -/
def shiftLeft (x n w : Nat) : Nat := if w ≤ n then 0 else x * 2 ^ n % 2 ^ w

/-- The right shifts of R101: logical, or arithmetic on a signed integer. -/
def shiftRight (x : Int) (n w : Nat) : Nat := lowBits (x / 2 ^ (min n w)) w

/-- `rol` (R101). -/
def rotLeft (x n : Nat) : Nat := let k := n % 32; (x * 2 ^ k + x / 2 ^ (32 - k)) % 2 ^ 32

/-- The number of 1 bits below bit w (R102). -/
def popCount (x : Nat) : Nat → Nat
  | 0 => 0
  | w + 1 => b2n (x.testBit w) + popCount x w

/-- The zero bits above the highest 1 bit below bit w (R102). -/
def leadZeros (x : Nat) : Nat → Nat
  | 0 => 0
  | w + 1 => if x.testBit w then 0 else 1 + leadZeros x w

/-- The zero bits below the lowest 1 bit, counted from bit i upwards, at most `fuel` of them (R102). -/
def trailZeros (x i : Nat) : Nat → Nat
  | 0 => 0
  | fuel + 1 => if x.testBit i then 0 else 1 + trailZeros x (i + 1) fuel

/-- Bit order reversed in w bits (R102). -/
def bitRev (x w : Nat) : Nat → Nat
  | 0 => 0
  | k + 1 => bitRev x w k + (if x.testBit k then 2 ^ (w - 1 - k) else 0)

/-- `bfe` (R103). -/
def bitExtract (a ctl : Nat) (signed : Bool) : Nat :=
  let pos := ctl % 256
  let len := ctl / 256 % 256
  if 32 ≤ pos || len == 0 then 0
  else
    let n := min len (32 - pos)
    let f := a / 2 ^ pos % 2 ^ n
    if signed && f.testBit (n - 1) then lowBits ((f : Int) - 2 ^ n) 32 else f

/-- `bfi` (R103). -/
def bitInsert (a ctl base : Nat) : Nat :=
  let pos := ctl % 256
  let len := ctl / 256 % 256
  if 32 ≤ pos || len == 0 then base
  else
    let n := min len (32 - pos)
    base % 2 ^ pos + a % 2 ^ n * 2 ^ pos + base / 2 ^ (pos + n) * 2 ^ (pos + n)

/-- `perm` (R104). -/
def bytePermute (a b selector : Nat) : Nat :=
  let src := a + b * 2 ^ 32
  let byte (i : Nat) : Nat :=
    let k := selector / 16 ^ i % 16
    let v := src / 256 ^ (k % 8) % 256
    if 8 ≤ k then (if 128 ≤ v then 255 else 0) else v
  byte 0 + byte 1 * 256 + byte 2 * 65536 + byte 3 * 16777216

/-- The dot product of `dp4` (R99): the exact sum of the byte products. -/
def dotBytes (a b : Nat) (sa sb : Bool) : Int :=
  let el (x i : Nat) (sg : Bool) : Int :=
    let v := x / 256 ^ i % 256
    if sg && 128 ≤ v then (v : Int) - 256 else v
  el a 0 sa * el b 0 sb + el a 1 sa * el b 1 sb + el a 2 sa * el b 2 sb + el a 3 sa * el b 3 sb

/-- The address expression of R108 and R154, before it is cut to a width. -/
def addrSum (base : Nat) (index : Int) (scale : Nat) (off : Int) (w : Nat) : Nat :=
  lowBits (base + index * scale + off) w

/-- The class bit of `fclass` (R121), by number. -/
def classBit (b : Nat) (f : Fmt) (ftz : Bool) : Nat :=
  let neg := b.testBit (f.width - 1)
  match fval b f ftz with
  | .nan => if b.testBit (f.frac - 1) then 9 else 8
  | .inf _ => if neg then 0 else 7
  | .fin _ m _ _ =>
    if m = 0 then (if neg then 3 else 4)
    else if isSubnormal f b then (if neg then 2 else 5)
    else (if neg then 1 else 6)

/-- `fmin` (R119), on the values fval gives; −0 lies below +0. -/
def minMax (wantMax : Bool) (x y : XR) : XR :=
  let below (a b : XR) : Bool :=
    a.lt b || (a.eq b && (match a, b with | .fin na ma _ _, .fin nb _ _ _ => ma == 0 && na && !nb | _, _ => false))
  match x, y with
  | .nan, _ => y
  | _, .nan => x
  | _, _ => if wantMax then (if below x y then y else x) else (if below y x then y else x)

end Sys2Proof
end

