-- ==== Sys2Proof/Machine/Shape.lean ====
section
/-! DEFINITION. The shape of each coded instruction: the map of R54, and for each instruction its code, its modifier
bits, the operand positions it uses with the classes each admits, and the checks 4 to 8 and 10 of R41. -/

namespace Sys2Proof

/-- One line of the map of R54: a minor code, the forms it accepts (R51), whether it is LL (R53) and the units it is
marked for (R52). -/
structure Code where
  op : Nat
  minor : Nat
  s : Bool
  m : Bool
  l : Bool
  ll : Bool
  w : Bool
  c : Bool
  deriving DecidableEq, Repr

/-- R54, part 1 of 8. -/
def codeTable1 : List Code := [
  ⟨0x00, 0, true, true, true, false, true, true⟩,
  ⟨0x00, 1, true, true, true, false, true, true⟩,
  ⟨0x00, 2, true, true, true, false, true, true⟩,
  ⟨0x00, 3, true, true, true, false, true, true⟩,
  ⟨0x00, 4, true, true, true, false, true, true⟩,
  ⟨0x01, 0, true, true, true, false, true, true⟩,
  ⟨0x01, 1, true, true, true, false, true, true⟩,
  ⟨0x01, 2, true, true, true, false, true, true⟩,
  ⟨0x01, 3, true, true, true, false, true, true⟩,
  ⟨0x02, 0, true, true, true, true, true, true⟩,
  ⟨0x02, 1, true, true, true, true, true, true⟩,
  ⟨0x03, 0, true, true, true, false, true, true⟩,
  ⟨0x03, 1, true, true, true, false, true, true⟩,
  ⟨0x03, 2, true, true, true, false, true, true⟩,
  ⟨0x03, 3, true, true, true, false, true, true⟩,
  ⟨0x04, 0, true, true, true, false, true, true⟩,
  ⟨0x04, 1, true, true, true, false, true, true⟩,
  ⟨0x04, 2, true, true, true, false, true, true⟩,
  ⟨0x04, 3, true, true, true, false, true, true⟩,
  ⟨0x04, 4, true, true, true, false, true, true⟩]

/-- R54, part 2 of 8. -/
def codeTable2 : List Code := [
  ⟨0x05, 0, true, true, false, false, true, true⟩,
  ⟨0x05, 1, true, true, false, false, true, true⟩,
  ⟨0x05, 2, true, true, false, false, true, true⟩,
  ⟨0x05, 3, true, true, false, false, true, true⟩,
  ⟨0x05, 4, true, true, false, false, true, true⟩,
  ⟨0x05, 5, true, true, false, false, true, true⟩,
  ⟨0x06, 0, true, false, false, false, true, true⟩,
  ⟨0x06, 1, true, false, false, false, true, true⟩,
  ⟨0x06, 2, true, false, false, false, true, true⟩,
  ⟨0x06, 3, true, false, false, false, true, true⟩,
  ⟨0x07, 0, true, true, false, false, true, true⟩,
  ⟨0x07, 1, true, true, false, false, true, true⟩,
  ⟨0x07, 2, true, true, false, false, true, true⟩,
  ⟨0x08, 0, true, true, true, false, true, true⟩,
  ⟨0x08, 1, true, true, true, false, true, true⟩,
  ⟨0x09, 0, true, true, true, false, true, true⟩,
  ⟨0x09, 1, true, true, true, false, true, true⟩,
  ⟨0x09, 2, true, true, true, false, true, true⟩,
  ⟨0x0A, 0, true, true, false, false, true, true⟩,
  ⟨0x0B, 0, true, true, false, false, true, false⟩]

/-- R54, part 3 of 8. -/
def codeTable3 : List Code := [
  ⟨0x0B, 1, true, true, false, false, true, false⟩,
  ⟨0x0B, 2, true, true, false, false, true, false⟩,
  ⟨0x20, 0, true, true, true, false, true, true⟩,
  ⟨0x20, 1, true, true, true, false, true, true⟩,
  ⟨0x20, 2, true, true, true, false, true, true⟩,
  ⟨0x20, 3, true, true, true, false, true, true⟩,
  ⟨0x21, 0, true, true, true, false, true, true⟩,
  ⟨0x21, 1, true, true, true, false, true, true⟩,
  ⟨0x22, 0, true, true, false, false, true, true⟩,
  ⟨0x22, 1, true, true, false, false, true, true⟩,
  ⟨0x23, 0, true, true, false, false, true, true⟩,
  ⟨0x23, 1, true, true, false, false, true, true⟩,
  ⟨0x24, 0, true, false, false, true, true, true⟩,
  ⟨0x24, 1, true, false, false, true, true, true⟩,
  ⟨0x24, 2, true, false, false, true, true, true⟩,
  ⟨0x24, 3, true, false, false, true, true, true⟩,
  ⟨0x25, 0, true, false, false, true, true, true⟩,
  ⟨0x25, 1, true, false, false, true, true, true⟩,
  ⟨0x25, 2, true, false, false, true, true, true⟩,
  ⟨0x25, 3, true, false, false, true, true, true⟩]

/-- R54, part 4 of 8. -/
def codeTable4 : List Code := [
  ⟨0x26, 0, true, true, true, false, true, true⟩,
  ⟨0x26, 1, true, true, true, false, true, true⟩,
  ⟨0x26, 2, true, true, true, false, true, true⟩,
  ⟨0x26, 3, true, true, true, false, true, true⟩,
  ⟨0x27, 0, true, true, false, false, true, true⟩,
  ⟨0x28, 0, true, true, false, false, true, false⟩,
  ⟨0x28, 1, true, true, false, false, true, true⟩,
  ⟨0x40, 0, true, true, false, false, true, true⟩,
  ⟨0x40, 1, true, true, false, false, true, true⟩,
  ⟨0x41, 0, true, true, false, false, true, true⟩,
  ⟨0x41, 1, true, true, false, false, true, true⟩,
  ⟨0x41, 2, true, true, false, false, true, true⟩,
  ⟨0x42, 0, true, false, false, false, true, false⟩,
  ⟨0x42, 1, true, false, false, false, true, false⟩,
  ⟨0x42, 2, true, false, false, false, true, false⟩,
  ⟨0x42, 3, true, false, false, false, true, false⟩,
  ⟨0x43, 0, true, false, false, false, true, true⟩,
  ⟨0x43, 1, true, false, false, false, true, false⟩,
  ⟨0x43, 2, true, false, false, false, true, true⟩,
  ⟨0x44, 0, true, true, false, false, true, false⟩]

/-- R54, part 5 of 8. -/
def codeTable5 : List Code := [
  ⟨0x50, 0, true, true, false, true, true, true⟩,
  ⟨0x50, 1, true, true, false, true, true, false⟩,
  ⟨0x50, 2, true, true, false, true, true, true⟩,
  ⟨0x50, 3, true, true, false, true, true, true⟩,
  ⟨0x51, 0, true, true, false, false, true, true⟩,
  ⟨0x51, 1, true, true, false, false, true, false⟩,
  ⟨0x51, 2, true, true, false, true, true, true⟩,
  ⟨0x52, 0, true, true, false, false, true, true⟩,
  ⟨0x60, 0, true, true, false, true, true, true⟩,
  ⟨0x60, 1, true, true, false, true, true, false⟩,
  ⟨0x61, 0, false, true, false, true, true, true⟩,
  ⟨0x62, 0, true, true, false, false, true, true⟩,
  ⟨0x63, 0, false, true, false, false, true, true⟩,
  ⟨0x63, 1, false, true, false, true, true, true⟩,
  ⟨0x63, 2, false, true, false, false, true, true⟩,
  ⟨0x70, 0, true, true, false, false, true, true⟩,
  ⟨0x70, 1, true, true, false, false, true, true⟩,
  ⟨0x70, 2, true, true, false, false, true, true⟩,
  ⟨0x70, 3, true, true, false, false, true, true⟩,
  ⟨0x70, 4, true, true, false, false, true, true⟩]

/-- R54, part 6 of 8. -/
def codeTable6 : List Code := [
  ⟨0x71, 0, true, false, false, false, true, true⟩,
  ⟨0x80, 0, false, true, true, false, true, true⟩,
  ⟨0x81, 0, false, true, true, false, true, false⟩,
  ⟨0x82, 0, true, true, false, true, true, true⟩,
  ⟨0x82, 1, true, true, false, true, true, true⟩,
  ⟨0x82, 2, true, true, false, false, true, true⟩,
  ⟨0x82, 3, true, true, false, false, true, true⟩,
  ⟨0x83, 0, true, true, false, false, true, true⟩,
  ⟨0x83, 1, true, true, false, false, true, true⟩,
  ⟨0x84, 0, true, true, false, false, true, true⟩,
  ⟨0x84, 1, true, true, false, false, true, false⟩,
  ⟨0x84, 2, true, true, false, false, true, true⟩,
  ⟨0x85, 0, false, true, true, false, true, true⟩,
  ⟨0x90, 0, true, true, false, false, false, true⟩,
  ⟨0x90, 1, true, true, false, false, false, true⟩,
  ⟨0x91, 0, true, true, false, false, false, true⟩,
  ⟨0x91, 1, true, true, false, false, false, true⟩,
  ⟨0x92, 0, true, true, false, false, false, true⟩,
  ⟨0x92, 1, true, true, false, false, false, true⟩,
  ⟨0x93, 0, true, true, false, false, false, true⟩]

/-- R54, part 7 of 8. -/
def codeTable7 : List Code := [
  ⟨0x93, 1, true, true, false, true, false, true⟩,
  ⟨0x93, 2, true, true, false, false, false, true⟩,
  ⟨0xA0, 0, true, true, false, false, true, true⟩,
  ⟨0xA0, 1, true, true, false, false, true, true⟩,
  ⟨0xA1, 0, true, true, false, true, true, true⟩,
  ⟨0xA1, 1, true, true, false, false, true, true⟩,
  ⟨0xA2, 0, true, true, false, false, true, true⟩,
  ⟨0xB0, 0, true, true, false, true, true, false⟩,
  ⟨0xB0, 1, true, true, false, true, true, false⟩,
  ⟨0xB0, 2, false, true, false, true, true, false⟩,
  ⟨0xB0, 3, true, true, false, true, true, false⟩,
  ⟨0xB1, 0, true, true, false, true, true, false⟩,
  ⟨0xB2, 0, true, true, false, false, true, false⟩,
  ⟨0xB3, 0, true, false, false, false, true, false⟩,
  ⟨0xB3, 1, true, false, false, false, true, false⟩,
  ⟨0xC0, 0, true, true, false, false, true, true⟩,
  ⟨0xC0, 1, true, true, false, false, true, true⟩,
  ⟨0xC1, 0, true, false, false, false, true, true⟩,
  ⟨0xC1, 1, true, false, false, false, true, true⟩,
  ⟨0xC1, 2, true, false, false, false, true, true⟩]

/-- R54, part 8 of 8. -/
def codeTable8 : List Code := [
  ⟨0xC2, 0, true, true, false, false, true, true⟩,
  ⟨0xC2, 1, true, true, false, false, true, true⟩]

/-- The map of R54. -/
def codeTable : List Code :=
  codeTable1 ++ codeTable2 ++ codeTable3 ++ codeTable4 ++ codeTable5 ++ codeTable6 ++ codeTable7 ++ codeTable8

/-- The line of the map for a major and minor code. -/
def codeOf (op minor : Nat) : Option Code := codeTable.find? fun r => r.op == op && r.minor == minor

/-- R54: the major opcode is assigned. -/
def majorAssigned (op : Nat) : Bool := codeTable.any fun r => r.op == op

/-- R51, R52: the code accepts the form and the unit. -/
def Code.accepts (r : Code) (u : Unit2) (f : Form) : Bool :=
  (match f with | .s => r.s | .m => r.m | .l => r.l) && (match u with | .w => r.w | .c => r.c)

/-- The operand classes of R37 as a position admits them; `zero` is the zero literal alone. -/
inductive OpClass where
  | v | lit | zero | s | q | sr | p | k
  deriving DecidableEq, Repr

/-- How an instruction uses a position. -/
inductive Use where
  | src | dst | both
  deriving DecidableEq, Repr

/-- An operand position: its use, the registers it names, their alignment and the classes it admits. -/
structure Pos where
  use : Use
  words : Nat
  align : Nat
  cls : List OpClass
  deriving DecidableEq, Repr

/-- A 32-bit source of any class (R39). -/
def Pos.src1 : Pos := ⟨.src, 1, 1, [.v, .lit, .s, .q, .sr, .p, .k]⟩
/-- A 64-bit source (R39). -/
def Pos.src2 : Pos := ⟨.src, 2, 2, [.v, .lit, .s, .q]⟩
/-- A floating source of one register (R39). -/
def Pos.fsrc : Pos := ⟨.src, 1, 1, [.v, .lit, .s, .q]⟩
/-- A source in an 8-bit floating format (R39). -/
def Pos.nsrc : Pos := ⟨.src, 1, 1, [.v, .s, .q]⟩
/-- A 32-bit source that the row gives as a v or s register or a literal. -/
def Pos.regLit : Pos := ⟨.src, 1, 1, [.v, .s, .lit]⟩
/-- A 64-bit source that the row gives as a v or s pair. -/
def Pos.pair : Pos := ⟨.src, 2, 2, [.v, .s]⟩
/-- A 64-bit source that the row gives as a v or s pair or a literal. -/
def Pos.pairLit : Pos := ⟨.src, 2, 2, [.v, .s, .lit]⟩
/-- A block of v registers, aligned to its length (R153, R250). -/
def Pos.block (n : Nat) : Pos := ⟨.src, n, n, [.v]⟩
/-- A 32-bit destination (R38). -/
def Pos.dst1 : Pos := ⟨.dst, 1, 1, [.v, .zero, .s, .q, .p, .k]⟩
/-- A 64-bit destination (R38). -/
def Pos.dst2 : Pos := ⟨.dst, 2, 2, [.v, .zero, .s, .q, .p, .k]⟩
/-- A quad destination (R153). -/
def Pos.dst4 : Pos := ⟨.dst, 4, 4, [.v, .zero]⟩
/-- A status that the row gives as a predicate, a v or s register or the zero literal. -/
def Pos.status : Pos := ⟨.dst, 1, 1, [.v, .zero, .s, .p]⟩
/-- A status that the row gives as a predicate or the zero literal. -/
def Pos.statusP : Pos := ⟨.dst, 1, 1, [.p, .zero]⟩
/-- A rejoin mask that is written (R138). -/
def Pos.kDst : Pos := ⟨.dst, 1, 1, [.k]⟩
/-- A rejoin mask that is read and written (R139). -/
def Pos.kBoth : Pos := ⟨.both, 1, 1, [.k]⟩
/-- A rejoin mask that is read (R138). -/
def Pos.kSrc : Pos := ⟨.src, 1, 1, [.k]⟩
/-- A Caller register, as R230 to R242 name one. -/
def Pos.cReg : Pos := ⟨.src, 1, 1, [.v]⟩
/-- A Caller register or a literal (R240, R241). -/
def Pos.cLit : Pos := ⟨.src, 1, 1, [.v, .lit]⟩
/-- A Caller register or the zero literal (R237). -/
def Pos.cZero : Pos := ⟨.src, 1, 1, [.v, .zero]⟩
/-- The zero literal alone. -/
def Pos.zeroOnly : Pos := ⟨.src, 1, 1, [.zero]⟩

/-- A source of one or two registers. -/
def Pos.src (words : Nat) : Pos := if words = 1 then .src1 else .src2
/-- A destination of one or two registers. -/
def Pos.dst (words : Nat) : Pos := if words = 1 then .dst1 else .dst2

/-- The class list admits the operand. -/
def OpClass.admits (cls : List OpClass) (o : Operand) : Bool :=
  match o with
  | .v _ => cls.contains .v
  | .lit n => cls.contains .lit || (cls.contains .zero && n == 0)
  | .s _ => cls.contains .s
  | .q _ => cls.contains .q
  | .sr _ => cls.contains .sr
  | .p _ => cls.contains .p
  | .k _ => cls.contains .k
  | .bad _ => false

/-- What the checks and the encoder know of a coded instruction. `cRaw` and `xRaw` are field C and X as encoded: the
operand and the immediate of the frame, unless the family holds modifiers there. `ok` says that every modifier value
is one its row admits (check 5 of R41). `xUse` and `iUse` say that the form gives X and I a use. -/
structure Desc where
  op : Nat
  minor : Nat
  mod : BitVec 7
  f : Frame
  cRaw : BitVec 11
  xRaw : BitVec 21
  ok : Bool
  d : Option Pos
  a : Option Pos
  b : Option Pos
  c : Option Pos
  xUse : Bool
  iUse : Bool
  deriving DecidableEq, Repr

/-- A description without operands. -/
def Desc.mk0 (f : Frame) (op minor : Nat) (mod : BitVec 7) : Desc :=
  { op := op, minor := minor, mod := mod, f := f, cRaw := f.c.toBits, xRaw := f.x, ok := true,
    d := none, a := none, b := none, c := none, xUse := false, iUse := false }

/-- The registers a type names in a 32-bit or 64-bit position (R93). -/
def IntTy.words : IntTy → Nat
  | .s64 => 2 | .z64 => 2 | .b64 => 2 | _ => 1

/-- The type is one of those listed. -/
def IntTy.isIn (ty : IntTy) (l : List IntTy) : Bool := l.contains ty

/-- Operand B, which I replaces in the L form (R92, R116). -/
def Frame.posB (f : Frame) (p : Pos) : Option Pos := if f.form = .l then none else some p

/-- Operand C, which the S form lacks (R92, R116). -/
def Frame.posC (f : Frame) (p : Pos) : Option Pos := if f.form = .s then none else some p

/-- The form is L, or M. -/
def Frame.isL (f : Frame) : Bool := decide (f.form = .l)
/-- The form is M. -/
def Frame.isM (f : Frame) : Bool := decide (f.form = .m)
/-- The form is S. -/
def Frame.isS (f : Frame) : Bool := decide (f.form = .s)

/-- MOD of R93. -/
def intMod (ty : IntTy) (m56 : Bool) (m55 : BitVec 3) : BitVec 7 := ty.toBits ++ boolBit m56 ++ m55

/-- D, A and B of an integer instruction (R92), each of the width given. -/
def descInt (f : Frame) (op minor : Nat) (mod : BitVec 7) (ok : Bool) (wd wa wb : Nat) : Desc :=
  { Desc.mk0 f op minor mod with
    ok := ok, d := some (.dst wd), a := some (.src wa), b := f.posB (.src wb), iUse := f.isL }

/-- D and A of an integer instruction. -/
def descInt1 (f : Frame) (op minor : Nat) (mod : BitVec 7) (ok : Bool) (wd wa : Nat) : Desc :=
  { Desc.mk0 f op minor mod with ok := ok, d := some (.dst wd), a := some (.src wa) }

/-- MOD of R114. -/
def fpMod (ty : FTy) (rnd : BitVec 2) (m55 sat ftz : Bool) : BitVec 7 :=
  ty.toBits ++ rnd ++ boolBit m55 ++ boolBit sat ++ boolBit ftz

/-- D, A and B of a floating instruction (R116). -/
def descFp (f : Frame) (op minor : Nat) (mod : BitVec 7) : Desc :=
  { Desc.mk0 f op minor mod with
    d := some .dst1, a := some .fsrc, b := f.posB .fsrc, iUse := f.isL }

/-- D, A, B and C of a floating instruction (R116). -/
def descFp3 (f : Frame) (op minor : Nat) (mod : BitVec 7) : Desc :=
  { descFp f op minor mod with c := f.posC .fsrc }

/-- D and A of a floating instruction. -/
def descFp1 (f : Frame) (op minor : Nat) (mod : BitVec 7) : Desc :=
  { Desc.mk0 f op minor mod with d := some .dst1, a := some .fsrc }

/-- Width in bits of a `cvt` type; a slot's format is known only at execution. -/
def CvtTy.bits : CvtTy → Nat
  | .f32 => 32 | .f16 => 16 | .bf16 => 16 | .e4m3 => 8 | .e5m2 => 8 | .s8 => 8 | .z8 => 8 | .s16 => 16 | .z16 => 16
  | .s32 => 32 | .z32 => 32 | .s64 => 64 | .z64 => 64 | .slot => 8

/-- The source position of `cvt` by its type (R39, R125). -/
def CvtTy.pos : CvtTy → Pos
  | .f32 => .fsrc | .f16 => .fsrc | .bf16 => .fsrc | .e4m3 => .nsrc | .e5m2 => .nsrc
  | .s64 => .src2 | .z64 => .src2 | _ => .src1

/-- The conditions of R125. -/
def cvtOk (f : Frame) (dt st : CvtTy) (rnd : Rnd) (sat ftz : Bool) (sel : BitVec 2) (slot : BitVec 3) : Bool :=
  !(dt == .slot && st == .slot) &&
  (!f.isS || (dt != .slot && st == .f32 && !ftz && sel == 0 && slot == 0)) &&
  (match st.bits with | 8 => true | 16 => sel.toNat < 2 | _ => sel == 0) &&
  (!(dt == .slot || st == .slot) || rnd == .rne) &&
  !(st == .slot && sat)

/-- X of `cvt` (R125). -/
def cvtX (f : Frame) (st : CvtTy) (ftz : Bool) (sel : BitVec 2) (slot : BitVec 3) : BitVec 21 :=
  if f.isS then 0 else 0#11 ++ sel ++ boolBit ftz ++ slot ++ st.toBits

/-- MOD of R151. -/
def memMod (m : MemMod) (win : Bool) : BitVec 7 := m.wid.toBits ++ m.ord.toMem ++ boolBit win ++ boolBit m.ixs

/-- Scopes from `.wav` to `.sys` (R153). -/
def Scope.wavToSys (s : Scope) : Bool := s != .thr
/-- `.wav` and `.cor` (R153). -/
def Scope.wavCor (s : Scope) : Bool := s == .wav || s == .cor
/-- Scopes from `.wav` to `.dev` (R200). -/
def Scope.wavToDev (s : Scope) : Bool := s != .thr && s != .peer && s != .host && s != .sys

/-- The control word R152 gives: SCOPE 0 exactly with plain ordering, the row's scopes otherwise, and in the S form
the family's default scope and the scale 1. -/
def memCtlOk (f : Frame) (m : MemMod) (scopes : Scope → Bool) (dflt : Scope) : Bool :=
  (if m.ord == .plain then m.ctl.scope == .thr else scopes m.ctl.scope) &&
  (!f.isS || (m.ctl.sc == .x1 && m.ctl.scope == (if m.ord == .plain then Scope.thr else dflt)))

/-- The destination of a load (R153). -/
def loadDst (w : Wid) : Pos :=
  match w with
  | .b64 => ⟨.dst, 2, 2, [.v, .zero, .s, .p, .k]⟩
  | .b128 => .dst4
  | _ => ⟨.dst, 1, 1, [.v, .zero, .s, .p, .k]⟩

/-- The data source of a store (R153). -/
def storeSrc (w : Wid) : Pos :=
  match w with
  | .b64 => .pairLit
  | .b128 => ⟨.src, 4, 4, [.v, .lit]⟩
  | _ => ⟨.src, 1, 1, [.v, .lit, .s, .sr, .p, .k]⟩

/-- A load or store of majors 0x50 to 0x52 and 0xA1 (R151 to R153). -/
def descMem (f : Frame) (op minor : Nat) (m : MemMod) (win ok : Bool) (d : Option Pos) (a : Pos) (b : Option Pos) :
    Desc :=
  { Desc.mk0 f op minor (memMod m win) with
    cRaw := if f.isS then 0 else m.ctl.toBits
    ok := ok, d := d, a := some a, b := b, xUse := !f.isS }

/-- Orderings of a load, and of a store (R153). -/
def Ord.loadOrd (o : Ord) : Bool := o == .plain || o == .rlx || o == .acq
/-- Orderings of a store (R153). -/
def Ord.storeOrd (o : Ord) : Bool := o == .plain || o == .rlx || o == .rel

/-- MOD of R248. -/
def atomMod (op : AtomOp) (ty : AtomTy) (b53 : Bool) : BitVec 7 := op.toBits ++ ty.toBits ++ boolBit b53

/-- The combinations of R251 for `atom` and `atom.s`. -/
def atomOpTy (op : AtomOp) (ty : AtomTy) : Bool :=
  match op with
  | .add | .min | .max => ty != .b32 && ty != .b64 && ty != .bf16
  | .and | .or | .xor | .exch => ty == .b32 || ty == .b64

/-- The scope and ordering of R249 and R250: the S form has offset 0, `.rlx` and the default scope. -/
def atomCtlOk (f : Frame) (c : AtomCtl) (scopes : Scope → Bool) (ords : List Ord) (dflt : Scope) : Bool :=
  scopes c.scope && ords.contains c.ord && (!f.isS || (c.off == 0 && c.ord == .rlx && c.scope == dflt))

/-- The orderings of a full atomic (R250). -/
def atomOrds : List Ord := [.ar, .rlx, .acq, .rel]
/-- The orderings of a memory-side operation without a result (R250). -/
def redOrds : List Ord := [.rlx, .rel]

/-- The operand position of an atomic's value by its type (R39, R250). -/
def AtomTy.pos (ty : AtomTy) : Pos :=
  match ty with
  | .f32 => .fsrc | .bf16 => .fsrc | .s64 => .src2 | .z64 => .src2 | .b64 => .src2 | _ => .src1

/-- An instruction of majors 0x60 to 0x63 (R248 to R250). -/
def descAtom (f : Frame) (op minor : Nat) (mod : BitVec 7) (ctl : AtomCtl) (ok : Bool) (d : Option Pos) (a b : Pos)
    (c : Option Pos) : Desc :=
  { Desc.mk0 f op minor mod with
    xRaw := if f.isS then 0 else ctl.toBits
    ok := ok, d := d, a := some a, b := some b, c := c }

/-- MOD of R200. -/
def syncMod (scope : Scope) (ord : SyncOrd) (rmt : Bool) : BitVec 7 := scope.toBits ++ ord.toBits ++ boolBit rmt

/-- A barrier instruction (R200). -/
def descBar (f : Frame) (minor : Nat) (mod : BitVec 7) (ok : Bool) (d b c : Option Pos) : Desc :=
  { Desc.mk0 f 0x70 minor mod with
    ok := ok, d := d, a := some .regLit, b := b, c := c, xUse := !f.isS }

/-- RMT of a row that admits it only in the Caller, and requires it there (R200). -/
def rmtCaller (u : Unit2) (rmt : Bool) : Bool := rmt == (u == .c)

/-- The matrix control word fields an instruction does not use are 0 (R230), as the M form is checked at decode. -/
def mcwOk (x : BitVec 21) (eng tile hnd : Bool) : Bool :=
  (eng || x.extractLsb' 19 2 == 0) && (tile || x.extractLsb' 12 7 == 0) && (hnd || x.extractLsb' 8 4 == 0)

/-- An instruction with a matrix control word (R230): X in the M form, field D in the S form. -/
def descMcw (f : Frame) (op minor : Nat) (mod : BitVec 7) (ok : BitVec 21 → Bool) (a b c : Option Pos) : Desc :=
  { Desc.mk0 f op minor mod with
    ok := f.isS || ok f.x
    d := if f.isS then some .cReg else none
    a := a, b := b, c := c, xUse := !f.isS }

/-- The CSR numbers of the device and the 32-bit registers each holds (R21, R133, R189, R211, R225, R287, R288, R337,
R408). -/
def csrWords (n : Nat) : Option Nat :=
  match n with
  | 0x000 | 0x021 | 0x100 | 0x110 | 0x111 | 0x112 | 0x113 | 0x200 | 0x201 | 0x203 | 0x600 | 0x800 | 0x805 => some 1
  | 0x010 | 0x011 | 0x012 | 0x020 | 0x202 | 0x400 | 0x401 | 0x402 | 0x403 | 0x404 | 0x405 | 0x406 | 0x407
  | 0x601 | 0x602 | 0x603 | 0x604 | 0x801 | 0x802 | 0x803 | 0x804 => some 2
  | _ => none

/-- The CSR number a coded CSR access names in X (R167). -/
def csrX (f : Frame) : Nat := (f.x.extractLsb' 0 12).toNat

/-- The registers of the data operand of a CSR access as decode knows it (R167). -/
def csrDataWords (f : Frame) : Nat := if f.isS then 1 else (csrWords (csrX f)).getD 1

/-- `csrw` (R167). -/
def descCsrw (f : Frame) (ok : Bool) : Desc :=
  { Desc.mk0 f 0xC0 1 0 with
    ok := ok && (f.isS || f.x.extractLsb' 12 9 == 0)
    a := some (.src (csrDataWords f))
    b := if f.isS then some .src1 else none
    xUse := !f.isS }

/-- The value a `csrw` writes is a literal with DISC set (R226). -/
def csrwDisc (f : Frame) : Bool :=
  match f.a with
  | .lit n => n.getLsbD 1
  | _ => false

/-- A present, texture or region operand list: an address in A or B with sext(X, 21) in the M form. -/
def descX (f : Frame) (op minor : Nat) (mod : BitVec 7) (d a b c : Option Pos) : Desc :=
  { Desc.mk0 f op minor mod with d := d, a := a, b := b, c := c, xUse := !f.isS }

/-- `rlaunch` (R357). -/
def descRlaunch (f : Frame) (opc : BitVec 3) (b : Option Pos) : Desc :=
  descX f 0x83 0 (0#4 ++ opc) (some .status) (some .pair) b none

/-- What the checks and the encoder know of each coded instruction in unit u; an event has no encoding. -/
def descOf (u : Unit2) : Instr → Option Desc
  -- R94
  | .iadd f ty sat => some (descInt f 0x00 0 (intMod ty sat 0)
      (ty.isIn [.s32, .z32, .b32] && (!sat || ty.isIn [.s32, .z32])) 1 1 1)
  | .isub f ty sat => some (descInt f 0x00 1 (intMod ty sat 0)
      (ty.isIn [.s32, .z32, .b32] && (!sat || ty.isIn [.s32, .z32])) 1 1 1)
  | .iaddc f pd => some { descInt f 0x00 2 (intMod .z32 false pd) true 1 1 1 with c := f.posC .src1 }
  | .isubb f pd => some { descInt f 0x00 3 (intMod .z32 false pd) true 1 1 1 with c := f.posC .src1 }
  | .iadd64 f ty sat => some (descInt f 0x00 4 (intMod ty sat 0)
      (ty.isIn [.s64, .z64, .b64] && (!sat || ty.isIn [.s64, .z64])) 2 2 2)
  | .imul f ty sat => some (descInt f 0x01 0 (intMod ty sat 0)
      (ty.isIn [.s32, .z32, .b32] && (!sat || ty.isIn [.s32, .z32])) 1 1 1)
  | .imulhi f ty => some (descInt f 0x01 1 (intMod ty false 0) (ty.isIn [.s32, .z32]) 1 1 1)
  | .imad f ty sat => some { descInt f 0x01 2 (intMod ty sat 0)
      (ty.isIn [.s32, .z32, .b32] && (!sat || ty.isIn [.s32, .z32])) 1 1 1 with c := f.posC .src1 }
  | .imadw f ty => some { descInt f 0x01 3 (intMod ty false 0) (ty.isIn [.s32, .z32]) 2 1 1 with
      c := f.posC .src2 }
  | .idiv f ty sat => some (descInt f 0x02 0 (intMod ty sat 0)
      (ty.isIn [.s32, .z32] && (!sat || ty.isIn [.s32])) 1 1 1)
  | .irem f ty => some (descInt f 0x02 1 (intMod ty false 0) (ty.isIn [.s32, .z32]) 1 1 1)
  | .imin f ty => some (descInt f 0x03 0 (intMod ty false 0) (ty.isIn [.s32, .z32]) 1 1 1)
  | .imax f ty => some (descInt f 0x03 1 (intMod ty false 0) (ty.isIn [.s32, .z32]) 1 1 1)
  | .iabs f sat => some (descInt1 f 0x03 2 (intMod .s32 sat 0) true 1 1)
  | .ineg f sat => some (descInt1 f 0x03 3 (intMod .s32 sat 0) true 1 1)
  | .and f ty => some (descInt f 0x04 0 (intMod ty false 0) (ty.isIn [.b32, .b64]) ty.words ty.words ty.words)
  | .or f ty => some (descInt f 0x04 1 (intMod ty false 0) (ty.isIn [.b32, .b64]) ty.words ty.words ty.words)
  | .xor f ty => some (descInt f 0x04 2 (intMod ty false 0) (ty.isIn [.b32, .b64]) ty.words ty.words ty.words)
  | .andn f ty => some (descInt f 0x04 3 (intMod ty false 0) (ty.isIn [.b32, .b64]) ty.words ty.words ty.words)
  | .not f ty => some (descInt1 f 0x04 4 (intMod ty false 0) (ty.isIn [.b32, .b64]) ty.words ty.words)
  | .shl f => some (descInt f 0x05 0 (intMod .b32 false 0) true 1 1 1)
  | .shr f => some (descInt f 0x05 1 (intMod .b32 false 0) true 1 1 1)
  | .sar f => some (descInt f 0x05 2 (intMod .s32 false 0) true 1 1 1)
  | .rol f => some (descInt f 0x05 3 (intMod .b32 false 0) true 1 1 1)
  | .shl64 f => some (descInt f 0x05 4 (intMod .b64 false 0) true 2 2 1)
  | .shr64 f ty => some (descInt f 0x05 5 (intMod ty false 0) (ty.isIn [.b64, .z64, .s64]) 2 2 1)
  | .popc f ty => some (descInt1 f 0x06 0 (intMod ty false 0) (ty.isIn [.b32, .b64]) 1 ty.words)
  | .clz f ty => some (descInt1 f 0x06 1 (intMod ty false 0) (ty.isIn [.b32, .b64]) 1 ty.words)
  | .ctz f ty => some (descInt1 f 0x06 2 (intMod ty false 0) (ty.isIn [.b32, .b64]) 1 ty.words)
  | .brev f ty => some (descInt1 f 0x06 3 (intMod ty false 0) (ty.isIn [.b32, .b64]) ty.words ty.words)
  | .bfe f ty imm => some { descInt f 0x07 0 (intMod ty false (boolBit imm ++ 0#2))
      (ty.isIn [.z32, .s32] && (!imm || (f.isM && f.x.extractLsb' 16 5 == 0))) 1 1 1 with
      b := if imm then none else some .src1, xUse := imm }
  | .bfi f imm => some { descInt f 0x07 1 (intMod .b32 false (boolBit imm ++ 0#2))
      (!imm || (f.isM && f.x.extractLsb' 16 5 == 0)) 1 1 1 with
      b := if imm then none else some .src1, c := f.posC .src1, xUse := imm }
  | .perm f imm => some { descInt f 0x07 2 (intMod .b32 false (boolBit imm ++ 0#2))
      (!imm || (f.isM && f.x.extractLsb' 16 5 == 0)) 1 1 1 with
      c := if imm then none else f.posC .src1, xUse := imm }
  | .sel f ty neg ps => some (descInt f 0x08 0 (intMod ty neg ps) (ty.isIn [.b32, .b64]) ty.words ty.words ty.words)
  | .icmp f ty cc => some (descInt f 0x08 1 (intMod ty false cc.toBits) (ty.isIn [.s32, .z32, .s64, .z64]) 1
      ty.words ty.words)
  | .mov f ty => some (descInt1 f 0x09 0 (intMod ty false 0) (ty.isIn [.b32, .b64]) ty.words ty.words)
  | .movi f ty => some { descInt1 f 0x09 1 (intMod ty false 0) (ty.isIn [.b32, .b64]) ty.words ty.words with
      a := if f.isS then some (.src ty.words) else none, xUse := f.isM, iUse := f.isL }
  | .lea f ty sc => some { Desc.mk0 f 0x09 2 (intMod ty false sc.toBits) with
      ok := ty.isIn [.z32, .s32], d := some .dst2, a := some .pair, b := some .regLit, xUse := f.isM, iUse := f.isL }
  | .dp4 f ty sat sa sb => some { descInt f 0x0A 0 (intMod ty sat (boolBit sa ++ boolBit sb ++ 0#1))
      (ty.isIn [.s32, .z32]) 1 1 1 with c := f.posC .src1 }
  | .shfl f ty mode => some (descInt f 0x0B 0 (intMod ty false (mode.toBits ++ 0#1)) (ty.isIn [.b32, .b64])
      ty.words ty.words 1)
  | .vote f mode => some (descInt1 f 0x0B 1 (intMod .b32 false (0#1 ++ mode.toBits)) true 1 1)
  | .redux f ty ftz op rnd => some { Desc.mk0 f 0x0B 2 (intMod ty ftz op.toBits) with
      xRaw := if f.isS then 0 else 0#19 ++ rnd.toBits
      ok := ty.isIn [.s32, .z32, .b32, .f32] && (!ftz || ty == .f32) && (rnd == .rne || (ty == .f32 && !f.isS)) &&
        (match op with
         | .add => true
         | .min | .max => ty.isIn [.s32, .z32, .f32]
         | .and | .or | .xor => ty == .b32)
      d := some .dst1, a := some (if ty == .f32 then .fsrc else .src1) }
  -- R115
  | .fadd f ty rnd sat ftz => some (descFp f 0x20 0 (fpMod ty rnd.toBits false sat ftz))
  | .fsub f ty rnd sat ftz => some (descFp f 0x20 1 (fpMod ty rnd.toBits false sat ftz))
  | .fmul f ty rnd sat ftz => some (descFp f 0x20 2 (fpMod ty rnd.toBits false sat ftz))
  | .ffma f ty rnd sat ftz => some (descFp3 f 0x20 3 (fpMod ty rnd.toBits false sat ftz))
  | .fmin f ty ftz => some (descFp f 0x21 0 (fpMod ty 0 false false ftz))
  | .fmax f ty ftz => some (descFp f 0x21 1 (fpMod ty 0 false false ftz))
  | .fcmp f ty cc ftz => some (descFp f 0x22 0 (fpMod ty (cc.toBits.extractLsb' 1 2) (cc.toBits.getLsbD 0) false ftz))
  | .fclass f ty ftz => some { descFp f 0x22 1 (fpMod ty 0 false false ftz) with b := some .src1 }
  | .frnd f ty rnd ftz => some (descFp1 f 0x23 0 (fpMod ty rnd.toBits false false ftz))
  | .fldexp f ty rnd sat ftz => some { descFp f 0x23 1 (fpMod ty rnd.toBits false sat ftz) with b := some .src1 }
  | .frcp f ty rnd sat ftz => some (descFp1 f 0x24 0 (fpMod ty rnd.toBits false sat ftz))
  | .frsq f ty rnd sat ftz => some (descFp1 f 0x24 1 (fpMod ty rnd.toBits false sat ftz))
  | .fsqrt f ty rnd sat ftz => some (descFp1 f 0x24 2 (fpMod ty rnd.toBits false sat ftz))
  | .fdiv f ty rnd sat ftz => some (descFp f 0x24 3 (fpMod ty rnd.toBits false sat ftz))
  | .fexp2 f ty rnd sat ftz => some (descFp1 f 0x25 0 (fpMod ty rnd.toBits false sat ftz))
  | .flog2 f ty rnd sat ftz => some (descFp1 f 0x25 1 (fpMod ty rnd.toBits false sat ftz))
  | .fsin f ty rnd sat ftz => some (descFp1 f 0x25 2 (fpMod ty rnd.toBits false sat ftz))
  | .fcos f ty rnd sat ftz => some (descFp1 f 0x25 3 (fpMod ty rnd.toBits false sat ftz))
  | .hadd2 f ty rnd sat ftz => some { descFp f 0x26 0 (fpMod ty rnd.toBits false sat ftz) with ok := ty != .f32 }
  | .hmul2 f ty rnd sat ftz => some { descFp f 0x26 1 (fpMod ty rnd.toBits false sat ftz) with ok := ty != .f32 }
  | .hfma2 f ty rnd sat ftz => some { descFp3 f 0x26 2 (fpMod ty rnd.toBits false sat ftz) with ok := ty != .f32 }
  | .hdot2 f ty dt rnd sat ftz => some { descFp3 f 0x26 3 (fpMod ty rnd.toBits dt sat ftz) with ok := ty != .f32 }
  -- R125, R127, R128
  | .cvt f dt st rnd sat ftz sel slot => some { Desc.mk0 f 0x27 0 (dt.toBits ++ rnd.toBits ++ boolBit sat) with
      xRaw := cvtX f st ftz sel slot
      ok := cvtOk f dt st rnd sat ftz sel slot
      d := some (if dt == .s64 || dt == .z64 then .dst2 else .dst1), a := some st.pos }
  | .qpack f slot => some { Desc.mk0 f 0x28 0 (slot ++ 0#4) with d := some .dst2, a := some .fsrc }
  | .qunpk f slot ty => some { Desc.mk0 f 0x28 1 (slot ++ ty.toBits ++ 0#2) with
      d := some .dst1, a := some .src1, b := some .src1, c := f.posC .src1 }
  -- R135, R138, R144, R145
  | .bra f => some { Desc.mk0 f 0x40 0 0 with a := if f.isS then some .regLit else none, xUse := f.isM }
  | .brx f => some { Desc.mk0 f 0x40 1 0 with a := some .pair, xUse := f.isM }
  | .call f => some { Desc.mk0 f 0x41 0 0 with a := if f.isS then some .regLit else none, xUse := f.isM }
  | .callx f => some { Desc.mk0 f 0x41 1 0 with a := some .pair, xUse := f.isM }
  | .ret f => some (Desc.mk0 f 0x41 2 0)
  | .kset f or => some { Desc.mk0 f 0x42 0 (0#6 ++ boolBit or) with d := some (if or then .kBoth else .kDst) }
  | .kclr f sel => some { Desc.mk0 f 0x42 1 (0#6 ++ boolBit sel) with
      d := some (if sel then .kBoth else .kDst), a := if sel then some .src1 else none }
  | .join f => some { Desc.mk0 f 0x42 2 0 with a := some .kSrc }
  | .wsync f => some { Desc.mk0 f 0x42 3 0 with a := some .src1 }
  | .exit f => some (Desc.mk0 f 0x43 0 0)
  | .yield f => some (Desc.mk0 f 0x43 1 0)
  | .nop f => some (Desc.mk0 f 0x43 2 0)
  | .spawn f flt => some { Desc.mk0 f 0x44 0 (0#6 ++ boolBit flt) with
      d := some .statusP, a := some ⟨.src, 4, 1, [.v]⟩, b := if f.isS then some .pair else none, xUse := f.isM }
  -- R153
  | .ld f m => some (descMem f 0x50 0 m false (m.ord.loadOrd && memCtlOk f m Scope.wavToSys .dev)
      (some (loadDst m.wid)) .pairLit (some .regLit))
  | .ldS f m win => some (descMem f 0x50 1 m win (m.ord.loadOrd && memCtlOk f m Scope.wavCor .cor)
      (some (loadDst m.wid)) .regLit (some .regLit))
  | .ldC f m => some (descMem f 0x50 2 m false (m.ord == .plain && memCtlOk f m Scope.wavToSys .dev)
      (some (loadDst m.wid)) .regLit (some .regLit))
  | .ldr f m => some (descMem f 0x50 3 m false
      (m.ord.loadOrd && memCtlOk f m Scope.wavToSys .dev && (m.wid == .b32 || m.wid == .b64) && !m.ixs &&
        m.ctl.sc == .x1)
      (some (loadDst m.wid)) .pairLit none)
  | .st f m => some (descMem f 0x51 0 m false (m.ord.storeOrd && memCtlOk f m Scope.wavToSys .dev)
      (some (storeSrc m.wid)) .pairLit (some .regLit))
  | .stS f m win => some (descMem f 0x51 1 m win (m.ord.storeOrd && memCtlOk f m Scope.wavCor .cor)
      (some (storeSrc m.wid)) .regLit (some .regLit))
  | .stc f m => some (descMem f 0x51 2 m false
      (m.ord.storeOrd && memCtlOk f m Scope.wavToSys .dev && (m.wid == .b32 || m.wid == .b64) && !m.ixs &&
        m.ctl.sc == .x1)
      (some (loadDst .b32)) .pairLit (some (storeSrc m.wid)))
  | .pf f m => some (descMem f 0x52 0 m false (m.ord == .plain && m.wid == .z8 && memCtlOk f m Scope.wavToSys .dev)
      none .pairLit (some .regLit))
  -- R250
  | .atom f op ty base ctl => some (descAtom f 0x60 0 (atomMod op ty base) ctl
      (atomOpTy op ty && atomCtlOk f ctl Scope.wavToSys atomOrds .dev) (some (.dst ty.words)) .pair ty.pos none)
  | .atomS f op ty win ctl => some (descAtom f 0x60 1 (atomMod op ty win) ctl
      (atomOpTy op ty && atomCtlOk f ctl Scope.wavCor atomOrds .cor) (some (.dst ty.words)) .regLit ty.pos none)
  | .cas f ty base ctl => some (descAtom f 0x61 0 (atomMod .add ty base) ctl
      ((ty == .b32 || ty == .b64) && atomCtlOk f ctl Scope.wavToSys atomOrds .dev) (some (.dst ty.words)) .pair
      ty.pos (some ty.pos))
  | .red f op ty base ctl => some (descAtom f 0x62 0 (atomMod op ty base) ctl
      (op != .exch && atomOpTy op ty && atomCtlOk f ctl Scope.wavToSys redOrds .dev) none .pair ty.pos none)
  | .mred f op ty base ctl => some (descAtom f 0x63 0 (atomMod op ty base) ctl
      (op != .exch && [AtomTy.s32, .z32, .b32, .f32, .bf16].contains ty &&
        (atomOpTy op ty || (ty == .bf16 && (op == .add || op == .min || op == .max))) &&
        atomCtlOk f ctl Scope.wavToSys redOrds .dev)
      none .pair (.block 16) none)
  | .mcas f base ctl => some (descAtom f 0x63 1 (atomMod .add .s32 base) ctl
      (atomCtlOk f ctl Scope.wavToSys atomOrds .dev) (some .dst4) .pair (.block 4) (some (.block 4)))
  | .mscale f rnd ty base ctl => some (descAtom f 0x63 2 (rnd.toBits ++ 0#1 ++ ty.toBits ++ boolBit base) ctl
      ((ty == .f32 || ty == .bf16) && atomCtlOk f ctl Scope.wavToSys redOrds .dev) none .pair (.block 16)
      (some .pair))
  -- R200
  | .barInit f rmt => some (descBar f 0 (syncMod .thr .none rmt) (rmtCaller u rmt) none (some .src1) none)
  | .arrive f ord scope rmt => some (descBar f 1 (syncMod scope ord rmt)
      ((ord == .rel || ord == .rlx) && scope.wavToDev && (u == .w || rmt)) (some .dst1) (some .src1) none)
  | .expect f rmt => some (descBar f 2 (syncMod .thr .none rmt) (u == .w || rmt) none (some .src1) none)
  | .wait f ord scope rmt => some (descBar f 3 (syncMod scope ord rmt)
      ((ord == .acq || ord == .rlx) && scope.wavToDev && rmtCaller u rmt) (some .dst1) (some .src1) none)
  | .cwatch f rmt => some (descBar f 4 (syncMod .thr .none rmt) (rmtCaller u rmt) (some .dst1) (some .pair)
      (f.posC .src2))
  | .fence f ord scope => some { Desc.mk0 f 0x71 0 (syncMod scope ord false) with
      ok := ord != .rlx && scope.wavToSys }
  -- R212, R216
  | .copy f dg ck => some { Desc.mk0 f 0x80 0 (0#5 ++ boolBit dg ++ boolBit ck) with
      ok := u == .w || dg
      a := some (if dg then .pair else .regLit), b := some (if ck then .pair else .regLit)
      c := some ⟨.src, 2, 2, [.v, .s, .zero]⟩, xUse := true, iUse := f.isL }
  | .halo f => some { Desc.mk0 f 0x81 0 0 with
      a := some .regLit, b := some .regLit, c := some .src1, xUse := true, iUse := f.isL }
  -- R265
  | .gqEnq f flt => some { Desc.mk0 f 0x82 0 (0#6 ++ boolBit flt) with
      d := some .statusP, a := some .regLit, b := some (.block 4) }
  | .gqResv f flt => some { Desc.mk0 f 0x82 1 (0#6 ++ boolBit flt) with d := some .dst1, a := some .regLit }
  | .gqPub f => some { Desc.mk0 f 0x82 2 0 with d := some (.block 4), a := some .regLit, b := some .src1 }
  | .gqCfgConfigure f => some (descX f 0x82 3 0 none (some .regLit) (some .pair) none)
  | .gqCfgDisable f => some { Desc.mk0 f 0x82 3 1 with a := some .regLit }
  | .gqCfgRelease f => some { Desc.mk0 f 0x82 3 2 with a := some .regLit, b := some .src1 }
  | .gqCfgQuery f => some { Desc.mk0 f 0x82 3 3 with d := some .dst1, a := some .regLit }
  -- R357, R358
  | .rlaunch f => some (descRlaunch f 0 none)
  | .rlaunchPrism f => some (descRlaunch f 1 none)
  | .rlaunchSusp f => some (descRlaunch f 2 none)
  | .rlaunchRes f => some (descRlaunch f 3 none)
  | .rlaunchKill f => some (descRlaunch f 4 none)
  | .rlaunchRepl f => some (descRlaunch f 5 (some .src1))
  | .wdq f => some (descX f 0x83 1 0 none (some .regLit) (some .regLit) none)
  -- R399
  | .sweep f => some (descX f 0x84 0 0 (some .dst1) (some .pair) (some .pair) (f.posC .src1))
  | .ctxSet f => some { Desc.mk0 f 0x84 1 0 with a := some .src1 }
  | .ctxWake f => some (descX f 0x84 2 0 none (some .pair) (some .src1) none)
  -- R419
  | .coll f kind red => some { Desc.mk0 f 0x85 0 (kind.toBits ++ red.toBits ++ 0#2) with
      ok := kind != .allgat || red == .add
      d := some .status, a := some .pair, b := some .pair, xUse := true, iUse := f.isL }
  -- R231, R234, R236, R237, R239 to R242
  | .mma f sa sb bh => some { descMcw f 0x90 0 (sa ++ sb ++ boolBit bh) (fun x => mcwOk x true true bh &&
      x.extractLsb' 0 8 == 0) (some .cReg) (some (if bh then .zeroOnly else .cReg)) none with
      ok := (!bh || sb == 0) && (f.isS || (mcwOk f.x true true bh && f.x.extractLsb' 0 8 == 0)) }
  | .mmaZ f sa sb bh => some { descMcw f 0x90 1 (sa ++ sb ++ boolBit bh) (fun x => mcwOk x true true bh &&
      x.extractLsb' 0 8 == 0) (some .cReg) (some (if bh then .zeroOnly else .cReg)) none with
      ok := (!bh || sb == 0) && (f.isS || (mcwOk f.x true true bh && f.x.extractLsb' 0 8 == 0)) }
  | .tfetch f fs q => some (descMcw f 0x91 0 (fs ++ boolBit q ++ 0#3)
      (fun x => mcwOk x false false true && x.extractLsb' 0 8 == 0) (some .cReg) (some .cReg) none)
  | .trel f => some (descMcw f 0x91 1 0 (fun x => mcwOk x false false true && x.extractLsb' 0 8 == 0) none none none)
  | .drain f fs => some (descMcw f 0x92 0 (fs ++ 0#4)
      (fun x => mcwOk x true true false && x.extractLsb' 6 2 != 3 && x.extractLsb' 0 4 == 0 &&
        (x.extractLsb' 6 2 == 2 || x.extractLsb' 4 2 == 0))
      (some (if f.isS then .cZero else if f.x.extractLsb' 6 2 == 2 then .zeroOnly else .cReg)) (some .cZero)
      (f.posC (if f.x.extractLsb' 6 2 == 2 then .zeroOnly else .cZero)))
  | .azero f => some (descMcw f 0x92 1 0 (fun x => mcwOk x true true false && x.extractLsb' 0 8 == 0) none none none)
  | .dqPut f all => some { Desc.mk0 f 0x93 0 (0#6 ++ boolBit all) with
      a := some .cLit, b := some (if all then .zeroOnly else .cLit) }
  | .gqTake f nb => some { Desc.mk0 f 0x93 1 (0#6 ++ boolBit nb) with d := some ⟨.dst, 1, 1, [.v]⟩ }
  | .mwait f => some { Desc.mk0 f 0x93 2 0 with d := some ⟨.dst, 1, 1, [.v, .zero, .p]⟩, a := some .cLit }
  -- R327, R331, R335
  | .commit f => some { descX f 0xA0 0 0 (some .status) (some .src1) (some .src1) none with
      ok := f.isS || (f.b == .zeroLit && f.x.extractLsb' 8 13 == 0) }
  | .squash f => some { descX f 0xA0 1 0 (some .status) (some .src1) (some .src1) none with
      ok := f.isS || (f.b == .zeroLit && f.x.extractLsb' 8 13 == 0) }
  | .ldBase f m => some (descMem f 0xA1 0 m false (m.ord.loadOrd && memCtlOk f m Scope.wavToSys .dev)
      (some (loadDst m.wid)) .pairLit (some .regLit))
  | .stBase f m => some (descMem f 0xA1 1 m false (m.ord.storeOrd && memCtlOk f m Scope.wavToSys .dev)
      (some (storeSrc m.wid)) .pairLit (some .regLit))
  | .present f => some (descX f 0xA2 0 0 (some .status) (some .regLit) (some .pair) none)
  -- R374, R379, R383, R390
  | .tex f => some { Desc.mk0 f 0xB0 0 0 with
      d := some .dst4, a := some .pair, b := some .pair, c := f.posC .fsrc }
  | .texF f => some { Desc.mk0 f 0xB0 1 0 with
      d := some .dst4, a := some .pair, b := some .pair, c := f.posC .src1 }
  | .texG f => some { Desc.mk0 f 0xB0 2 0 with
      d := some .dst4, a := some .pair, b := some .pair, c := f.posC (.block 4) }
  | .texQ f => some { Desc.mk0 f 0xB0 3 0 with d := some .dst4, b := some .pair, c := f.posC .src1 }
  | .trace f => some (descX f 0xB1 0 0 (some .dst4) (some (.block 8)) (some .pair) none)
  | .binPut f => some (descX f 0xB2 0 0 (some ⟨.dst, 1, 1, [.v, .zero, .s]⟩) (some .pair) (some (.block 4)) none)
  | .binPutEnd f => some (descX f 0xB2 0 1 (some ⟨.dst, 1, 1, [.v, .zero, .s]⟩) (some .pair) none none)
  | .pxlock f => some { Desc.mk0 f 0xB3 0 0 with a := some .src1, b := some .src1 }
  | .pxunlock f all => some { Desc.mk0 f 0xB3 1 (0#6 ++ boolBit all) with
      a := if all then none else some .src1, b := some .src1 }
  -- R167, R169 to R171
  | .csrr f => some { Desc.mk0 f 0xC0 0 0 with
      ok := f.isS || f.x.extractLsb' 12 9 == 0
      d := some (if csrDataWords f = 1 then .dst1 else ⟨.dst, 2, 2, [.v, .zero, .s, .q]⟩)
      a := if f.isS then some .src1 else none, xUse := !f.isS }
  | .csrw f => some (descCsrw f (f.isS || !([0x010, 0x011, 0x100, 0x400, 0x401, 0x402, 0x403].contains (csrX f))))
  | .spillbWrite f => some (descCsrw f (f.isM && csrX f == 0x010))
  | .spilllWrite f => some (descCsrw f (f.isM && csrX f == 0x011))
  | .fairtWrite f => some (descCsrw f (f.isM && csrX f == 0x100))
  | .mestatHaltResume f => some (descCsrw f (f.isM && [0x400, 0x401, 0x402, 0x403].contains (csrX f) && !csrwDisc f))
  | .mestatDiscard f => some (descCsrw f (f.isM && [0x400, 0x401, 0x402, 0x403].contains (csrX f) && csrwDisc f))
  | .trap f => some { Desc.mk0 f 0xC1 0 0 with a := some .src1 }
  | .bkpt f => some (Desc.mk0 f 0xC1 1 0)
  | .eret f => some (Desc.mk0 f 0xC1 2 0)
  | .icinv f => some (descX f 0xC2 0 0 none (some .pair) (some .src1) none)
  | .tlbinv f all => some { descX f 0xC2 1 (0#6 ++ boolBit all) none
      (if all then none else some .pair) (if all then none else some .src1) none with
      ok := !all || f.x == 0 }
  | _ => none

/-- Check 5 of R41 on a field the instruction gives no use: it must hold 0 (R32). -/
def unusedOk (p : Option Pos) (o : Operand) : Bool := p.isSome || o == .unused

/-- The fields a form lacks hold 0: this says that the term is one the bits can spell. -/
def Frame.formOk (f : Frame) (cRaw : BitVec 11) (xRaw : BitVec 21) : Bool :=
  match f.form with
  | .s => cRaw == 0 && xRaw == 0 && f.i == 0
  | .m => f.i == 0
  | .l => true

/-- Check 5 of R41: modifiers, reserved bits and unused fields (fault 0x01, subcode 0x03). -/
def Desc.check5 (e : Desc) : Bool :=
  e.ok && unusedOk e.d e.f.d && unusedOk e.a e.f.a && unusedOk e.b e.f.b &&
  (e.c.isSome || e.f.c == .unused) && (e.xUse || e.f.x == 0) &&
  (e.iUse || e.f.i == 0)

/-- The classes the unit has: the Caller has no uniform, rejoin-mask or queue registers (R40); queue registers are
q0 to q4 and q8 to q11 and special registers 0 to 13 (R18, R37). -/
def Operand.present (u : Unit2) : Operand → Bool
  | .bad _ => false
  | .q n => u == .w && (n.toNat ≤ 4 || (8 ≤ n.toNat && n.toNat ≤ 11))
  | .sr n => n.toNat ≤ 13
  | .s _ => u == .w
  | .k _ => u == .w
  | _ => true

/-- The operands of the used positions, with their positions, in the order D, A, B, C. -/
def Desc.operands (e : Desc) : List (Pos × Operand) :=
  (e.d.toList.map fun p => (p, e.f.d)) ++ (e.a.toList.map fun p => (p, e.f.a)) ++
  (e.b.toList.map fun p => (p, e.f.b)) ++ (e.c.toList.map fun p => (p, e.f.c))

/-- Check 6 of R41: reserved operand classes, and an unassigned CSR number (fault 0x01, subcode 0x06). -/
def Desc.check6 (u : Unit2) (e : Desc) : Bool :=
  e.operands.all (fun po => po.2.present u) &&
  (e.op != 0xC0 || e.f.isS || (csrWords (csrX e.f)).isSome)

/-- An s register named for a wider value is even (R39). -/
def uniformOk (p : Pos) (o : Operand) : Bool :=
  match o with
  | .s n => n.toNat % p.align == 0
  | _ => true

/-- Check 7 of R41: class use (fault 0x01, subcode 0x09). -/
def Desc.check7 (e : Desc) : Bool := e.operands.all fun po => OpClass.admits po.1.cls po.2 && uniformOk po.1 po.2

/-- RET names a source position the instruction has, with a v-class field (R36). -/
def retOk (p : Option Pos) (o : Operand) : Bool :=
  match p, o with
  | some _, .v _ => true
  | _, _ => false

/-- Check 8 of R41, on RET (fault 0x01, subcode 0x08). -/
def Desc.check8 (e : Desc) : Bool :=
  match e.f.ret.toNat with
  | 0 => true
  | 1 => retOk e.a e.f.a
  | 2 => retOk e.b e.f.b
  | _ => retOk e.c e.f.c

/-- The code is marked LL (R53). -/
def isLL (op minor : Nat) : Bool :=
  match codeOf op minor with
  | some r => r.ll
  | none => false

/-- Checks 5 to 8 of R41, in order: the subcode of fault 0x01 of the first that fails. -/
def Desc.check (u : Unit2) (e : Desc) : Option (BitVec 8) :=
  if !e.check5 then some 0x03
  else if !e.check6 u then some 0x06
  else if !e.check7 then some 0x09
  else if e.f.la != 0 && !isLL e.op e.minor then some 0x07
  else if !e.check8 then some 0x08
  else none

/-- Check 10 of R41 on one position: R14 and R153 on alignment, R13, R14 and R40 on the bound. The Caller's registers
hold 64 bits, so a pair there is one register and a longer block half as many. -/
def rangeOne (u : Unit2) (alloc : Nat) (p : Pos) (o : Operand) : Option (BitVec 8) :=
  match o with
  | .v n =>
    let words := match u with | .w => p.words | .c => if p.words ≤ 2 then 1 else p.words / 2
    let align := match u with | .w => p.align | .c => if p.align ≤ 2 then 1 else p.align / 2
    if n.toNat % align ≠ 0 then some 0x02
    else if alloc < n.toNat + words then some 0x01
    else none
  | _ => none

/-- Check 10 of R41: the subcode of fault 0x03, if any. `alloc` is the allocation of R13, or 64 in the Caller. Of two operands that
fail differently the first in the order D, A, B, C gives the subcode, and of one that is misaligned and beyond the allocation its
alignment: the spec gives no order (DESIGN CHOICE, assumption 11). -/
def Desc.rangeFault (u : Unit2) (alloc : Nat) (e : Desc) : Option (BitVec 8) :=
  e.operands.findSome? fun po => rangeOne u alloc po.1 po.2

end Sys2Proof
end

