-- ==== Sys2Proof/WellFormed.lean ====
section
/-! DEFINITION. Well-formed instructions: the coded terms that pass the checks 4 to 8 of R41 in a unit and that the
bits of their form can spell. An event has no encoding and is well formed as it stands. -/

namespace Sys2Proof

/-- The fields of a decoded instruction that only its modifiers hold are spelled by them: a frame whose family keeps
modifiers in X or in field C holds 0 there, and a form holds 0 in the fields it lacks. -/
def Desc.spelled (e : Desc) : Bool :=
  e.f.formOk e.cRaw e.xRaw &&
  (match e.f.d, e.f.a, e.f.b, e.f.c with
   | .bad _, _, _, _ | _, .bad _, _, _ | _, _, .bad _, _ | _, _, _, .bad _ => false
   | _, _, _, _ => true)

/-- R41: the instruction is one unit u decodes. -/
def Instr.wf (u : Unit2) (i : Instr) : Bool :=
  match descOf u i with
  | none => true
  | some e =>
    (match codeOf e.op e.minor with
     | some r => r.accepts u e.f.form
     | none => false) &&
    (e.check u).isNone && e.spelled

end Sys2Proof
end

