-- ==== Sys2Proof/Decode.lean ====
section
/-! DEFINITION. The decoder, total on any bits: it reads an instruction of a unit or rejects the word with the subcode
of fault 0x01 that R42 names. After it the encoder, written from the same tables of the spec. -/

namespace Sys2Proof

/-- The fields of R30, R31 and R50 as they stand. -/
structure Raw where
  form : Form
  op : BitVec 8
  gp : BitVec 3
  gs : BitVec 1
  la : BitVec 4
  ret : BitVec 2
  d : BitVec 11
  a : BitVec 11
  b : BitVec 11
  mod : BitVec 7
  minor : BitVec 4
  c : BitVec 11
  x : BitVec 21
  i : BitVec 32
  deriving DecidableEq, Repr

/-- LEN of R27. -/
def Form.toBits : Form → BitVec 2
  | .s => 0 | .m => 1 | .l => 2

/-- The bytes of a form (R27). -/
def Form.bytes : Form → Nat
  | .s => 8 | .m => 12 | .l => 16

/-- R30, R31: the fields of a word of 64, 96 or 128 bits; none for a filler (R27). Bits above the form's length are not
read. -/
def Raw.ofBits (w : BitVec 128) : Option Raw :=
  let form? := match (w.extractLsb' 0 2).toNat with
    | 0 => some Form.s | 1 => some Form.m | 2 => some Form.l | _ => none
  form?.map fun form =>
    { form := form
      op := w.extractLsb' 2 8
      gp := w.extractLsb' 10 3
      gs := w.extractLsb' 13 1
      la := w.extractLsb' 14 4
      ret := w.extractLsb' 18 2
      d := w.extractLsb' 20 11
      a := w.extractLsb' 31 11
      b := w.extractLsb' 42 11
      mod := w.extractLsb' 53 7
      minor := w.extractLsb' 60 4
      c := if form = .s then 0 else w.extractLsb' 64 11
      x := if form = .s then 0 else w.extractLsb' 75 21
      i := if form = .l then w.extractLsb' 96 32 else 0 }

/-- R30, R31: the word that holds the fields. -/
def Raw.toBits (r : Raw) : BitVec 128 :=
  r.i ++ r.x ++ r.c ++ r.minor ++ r.mod ++ r.b ++ r.a ++ r.d ++ r.ret ++ r.la ++ r.gs ++ r.gp ++ r.op ++ r.form.toBits

/-- The frame the fields give. -/
def Raw.frame (r : Raw) : Frame :=
  { form := r.form, gp := r.gp, gs := r.gs == 1, la := r.la, ret := r.ret
    d := .ofBits r.d, a := .ofBits r.a, b := .ofBits r.b, c := .ofBits r.c, x := r.x, i := r.i }

/-- The frame of a family whose modifiers stand in X. -/
def Raw.frameX (r : Raw) : Frame := { r.frame with x := 0 }

/-- The frame of a family whose control word stands in field C. -/
def Raw.frameC (r : Raw) : Frame := { r.frame with c := .unused }

/-- The form is S. -/
def Raw.isS (r : Raw) : Bool := decide (r.form = .s)

/-- TY of R93. -/
def Raw.ty (r : Raw) : Option IntTy := IntTy.ofBits (r.mod.extractLsb' 4 3)
/-- M56 of R93. -/
def Raw.m56 (r : Raw) : Bool := r.mod.getLsbD 3
/-- M55 of R93. -/
def Raw.m55 (r : Raw) : BitVec 3 := r.mod.extractLsb' 0 3
/-- MOD bit 53. -/
def Raw.m53 (r : Raw) : Bool := r.mod.getLsbD 0

/-- A value where a condition on reserved bits holds. -/
def guardOpt {α : Type} (c : Bool) (x : Option α) : Option α := if c then x else none

/-- An integer instruction with a type and SAT. -/
def Raw.tySat (r : Raw) (k : Frame → IntTy → Bool → Instr) : Option Instr :=
  guardOpt (r.m55 == 0) (r.ty.map fun ty => k r.frame ty r.m56)

/-- An integer instruction with a type alone. -/
def Raw.tyOnly (r : Raw) (k : Frame → IntTy → Instr) : Option Instr :=
  guardOpt (r.m55 == 0 && !r.m56) (r.ty.map fun ty => k r.frame ty)

/-- An integer instruction of one type, with nothing else in MOD. -/
def Raw.fixedTy (r : Raw) (ty : IntTy) (i : Instr) : Option Instr :=
  guardOpt (r.mod == intMod ty false 0) (some i)

/-- FTY of R114. -/
def Raw.fty (r : Raw) : Option FTy := FTy.ofBits (r.mod.extractLsb' 5 2)
/-- RND of R114. -/
def Raw.frnd (r : Raw) : Rnd := .ofBits (r.mod.extractLsb' 3 2)
/-- SAT of R114. -/
def Raw.fsat (r : Raw) : Bool := r.mod.getLsbD 1

/-- A floating instruction with a type, a mode, SAT and FTZ (R114, R115). -/
def Raw.fpFull (r : Raw) (k : Frame → FTy → Rnd → Bool → Bool → Instr) : Option Instr :=
  guardOpt (!r.mod.getLsbD 2) (r.fty.map fun ty => k r.frame ty r.frnd r.fsat r.m53)

/-- A floating instruction with a type and FTZ alone. -/
def Raw.fpFtz (r : Raw) (k : Frame → FTy → Bool → Instr) : Option Instr :=
  guardOpt (r.mod.extractLsb' 1 4 == 0) (r.fty.map fun ty => k r.frame ty r.m53)

/-- The modifiers of a load or store (R151, R152). -/
def Raw.memMod (r : Raw) (dflt : Scope) : Option MemMod :=
  match Wid.ofBits (r.mod.extractLsb' 4 3) with
  | none => none
  | some w =>
    let o := Ord.ofMem (r.mod.extractLsb' 2 2)
    if r.isS then some ⟨w, o, r.m53, ⟨if o = .plain then .thr else dflt, .x1⟩⟩
    else (MemCtl.ofBits r.c).map fun k => ⟨w, o, r.m53, k⟩

/-- A load or store without WIN. -/
def Raw.mem (r : Raw) (k : Frame → MemMod → Instr) : Option Instr :=
  guardOpt (!r.mod.getLsbD 1) ((r.memMod .dev).map fun m => k r.frameC m)

/-- A load or store with WIN. -/
def Raw.memWin (r : Raw) (k : Frame → MemMod → Bool → Instr) : Option Instr :=
  (r.memMod .cor).map fun m => k r.frameC m (r.mod.getLsbD 1)

/-- The offset, scope and ordering of an atomic (R249). -/
def Raw.atomCtl (r : Raw) (dflt : Scope) : Option AtomCtl :=
  if r.isS then some ⟨0, dflt, .rlx⟩ else AtomCtl.ofBits r.x

/-- An atomic with an operation and a type (R248). -/
def Raw.atomic (r : Raw) (dflt : Scope) (k : Frame → AtomOp → AtomTy → Bool → AtomCtl → Instr) : Option Instr :=
  match AtomOp.ofBits (r.mod.extractLsb' 4 3), r.atomCtl dflt with
  | some op, some ctl => some (k r.frameX op (.ofBits (r.mod.extractLsb' 1 3)) r.m53 ctl)
  | _, _ => none

/-- SCOPE of R200. -/
def Raw.syncScope (r : Raw) : Option Scope := Scope.ofBits (r.mod.extractLsb' 3 4)
/-- ORD of R200. -/
def Raw.syncOrd (r : Raw) : SyncOrd := .ofBits (r.mod.extractLsb' 1 2)

/-- An instruction with no modifier but RMT or F in bit 53. -/
def Raw.bit53 (r : Raw) (k : Frame → Bool → Instr) : Option Instr :=
  guardOpt (r.mod.extractLsb' 1 6 == 0) (some (k r.frame r.m53))

/-- An instruction with MOD = 0. -/
def Raw.plain (r : Raw) (k : Frame → Instr) : Option Instr := guardOpt (r.mod == 0) (some (k r.frame))

/-- Major 0x00 to 0x05. -/
def buildInt (r : Raw) : Option Instr :=
  match r.op.toNat, r.minor.toNat with
  | 0x00, 0 => r.tySat .iadd
  | 0x00, 1 => r.tySat .isub
  | 0x00, 2 => guardOpt (r.ty == some .z32 && !r.m56) (some (.iaddc r.frame r.m55))
  | 0x00, 3 => guardOpt (r.ty == some .z32 && !r.m56) (some (.isubb r.frame r.m55))
  | 0x00, 4 => r.tySat .iadd64
  | 0x01, 0 => r.tySat .imul
  | 0x01, 1 => r.tyOnly .imulhi
  | 0x01, 2 => r.tySat .imad
  | 0x01, 3 => r.tyOnly .imadw
  | 0x02, 0 => r.tySat .idiv
  | 0x02, 1 => r.tyOnly .irem
  | 0x03, 0 => r.tyOnly .imin
  | 0x03, 1 => r.tyOnly .imax
  | 0x03, 2 => guardOpt (r.ty == some .s32 && r.m55 == 0) (some (.iabs r.frame r.m56))
  | 0x03, 3 => guardOpt (r.ty == some .s32 && r.m55 == 0) (some (.ineg r.frame r.m56))
  | 0x04, 0 => r.tyOnly .and
  | 0x04, 1 => r.tyOnly .or
  | 0x04, 2 => r.tyOnly .xor
  | 0x04, 3 => r.tyOnly .andn
  | 0x04, 4 => r.tyOnly .not
  | 0x05, 0 => r.fixedTy .b32 (.shl r.frame)
  | 0x05, 1 => r.fixedTy .b32 (.shr r.frame)
  | 0x05, 2 => r.fixedTy .s32 (.sar r.frame)
  | 0x05, 3 => r.fixedTy .b32 (.rol r.frame)
  | 0x05, 4 => r.fixedTy .b64 (.shl64 r.frame)
  | 0x05, 5 => r.tyOnly .shr64
  | _, _ => none

/-- Major 0x06 to 0x0B. -/
def buildBit (r : Raw) : Option Instr :=
  match r.op.toNat, r.minor.toNat with
  | 0x06, 0 => r.tyOnly .popc
  | 0x06, 1 => r.tyOnly .clz
  | 0x06, 2 => r.tyOnly .ctz
  | 0x06, 3 => r.tyOnly .brev
  | 0x07, 0 => guardOpt (!r.m56 && r.mod.extractLsb' 0 2 == 0)
      (r.ty.map fun ty => .bfe r.frame ty (r.mod.getLsbD 2))
  | 0x07, 1 => guardOpt (r.ty == some .b32 && !r.m56 && r.mod.extractLsb' 0 2 == 0)
      (some (.bfi r.frame (r.mod.getLsbD 2)))
  | 0x07, 2 => guardOpt (r.ty == some .b32 && !r.m56 && r.mod.extractLsb' 0 2 == 0)
      (some (.perm r.frame (r.mod.getLsbD 2)))
  | 0x08, 0 => r.ty.map fun ty => .sel r.frame ty r.m56 r.m55
  | 0x08, 1 =>
    match r.ty, ICond.ofBits r.m55 with
    | some ty, some cc => guardOpt (!r.m56) (some (.icmp r.frame ty cc))
    | _, _ => none
  | 0x09, 0 => r.tyOnly .mov
  | 0x09, 1 => r.tyOnly .movi
  | 0x09, 2 =>
    match r.ty, Scale.ofBits r.m55 with
    | some ty, some k => guardOpt (!r.m56) (some (.lea r.frame ty k))
    | _, _ => none
  | 0x0A, 0 => guardOpt (!r.m53) (r.ty.map fun ty => .dp4 r.frame ty r.m56 (r.mod.getLsbD 2) (r.mod.getLsbD 1))
  | 0x0B, 0 => guardOpt (!r.m56 && !r.m53)
      (r.ty.map fun ty => .shfl r.frame ty (.ofBits (r.mod.extractLsb' 1 2)))
  | 0x0B, 1 => guardOpt (r.ty == some .b32 && !r.m56 && !r.mod.getLsbD 2)
      (some (.vote r.frame (.ofBits (r.mod.extractLsb' 0 2))))
  | 0x0B, 2 =>
    match r.ty, ReduxOp.ofBits r.m55 with
    | some ty, some op => guardOpt (r.x.extractLsb' 2 19 == 0)
        (some (.redux r.frameX ty r.m56 op (.ofBits (r.x.extractLsb' 0 2))))
    | _, _ => none
  | _, _ => none

/-- Majors 0x20 to 0x28. -/
def buildFp (r : Raw) : Option Instr :=
  match r.op.toNat, r.minor.toNat with
  | 0x20, 0 => r.fpFull .fadd
  | 0x20, 1 => r.fpFull .fsub
  | 0x20, 2 => r.fpFull .fmul
  | 0x20, 3 => r.fpFull .ffma
  | 0x21, 0 => r.fpFtz .fmin
  | 0x21, 1 => r.fpFtz .fmax
  | 0x22, 0 => guardOpt (!r.fsat) (r.fty.map fun ty => .fcmp r.frame ty (.ofBits (r.mod.extractLsb' 2 3)) r.m53)
  | 0x22, 1 => r.fpFtz .fclass
  | 0x23, 0 => guardOpt (r.mod.extractLsb' 1 2 == 0) (r.fty.map fun ty => .frnd r.frame ty r.frnd r.m53)
  | 0x23, 1 => r.fpFull .fldexp
  | 0x24, 0 => r.fpFull .frcp
  | 0x24, 1 => r.fpFull .frsq
  | 0x24, 2 => r.fpFull .fsqrt
  | 0x24, 3 => r.fpFull .fdiv
  | 0x25, 0 => r.fpFull .fexp2
  | 0x25, 1 => r.fpFull .flog2
  | 0x25, 2 => r.fpFull .fsin
  | 0x25, 3 => r.fpFull .fcos
  | 0x26, 0 => r.fpFull .hadd2
  | 0x26, 1 => r.fpFull .hmul2
  | 0x26, 2 => r.fpFull .hfma2
  | 0x26, 3 => r.fty.map fun ty => .hdot2 r.frame ty (r.mod.getLsbD 2) r.frnd r.fsat r.m53
  | 0x27, 0 =>
    match CvtTy.ofBits (r.mod.extractLsb' 3 4), CvtTy.ofBits (r.x.extractLsb' 0 4) with
    | some dt, some st => guardOpt (r.x.extractLsb' 10 11 == 0)
        (some (.cvt r.frameX dt st (.ofBits (r.mod.extractLsb' 1 2)) r.m53 (r.x.getLsbD 7) (r.x.extractLsb' 8 2)
          (r.x.extractLsb' 4 3)))
    | _, _ => none
  | 0x28, 0 => guardOpt (r.mod.extractLsb' 0 4 == 0) (some (.qpack r.frame (r.mod.extractLsb' 4 3)))
  | 0x28, 1 => guardOpt (r.mod.extractLsb' 0 2 == 0)
      ((FTy.ofBits (r.mod.extractLsb' 2 2)).map fun ty => .qunpk r.frame (r.mod.extractLsb' 4 3) ty)
  | _, _ => none

/-- Majors 0x40 to 0x52. -/
def buildCtl (r : Raw) : Option Instr :=
  match r.op.toNat, r.minor.toNat with
  | 0x40, 0 => r.plain .bra
  | 0x40, 1 => r.plain .brx
  | 0x41, 0 => r.plain .call
  | 0x41, 1 => r.plain .callx
  | 0x41, 2 => r.plain .ret
  | 0x42, 0 => r.bit53 .kset
  | 0x42, 1 => r.bit53 .kclr
  | 0x42, 2 => r.plain .join
  | 0x42, 3 => r.plain .wsync
  | 0x43, 0 => r.plain .exit
  | 0x43, 1 => r.plain .yield
  | 0x43, 2 => r.plain .nop
  | 0x44, 0 => r.bit53 .spawn
  | 0x50, 0 => r.mem .ld
  | 0x50, 1 => r.memWin .ldS
  | 0x50, 2 => r.mem .ldC
  | 0x50, 3 => r.mem .ldr
  | 0x51, 0 => r.mem .st
  | 0x51, 1 => r.memWin .stS
  | 0x51, 2 => r.mem .stc
  | 0x52, 0 => r.mem .pf
  | _, _ => none

/-- Majors 0x60 to 0x71. -/
def buildSync (r : Raw) : Option Instr :=
  match r.op.toNat, r.minor.toNat with
  | 0x60, 0 => r.atomic .dev .atom
  | 0x60, 1 => r.atomic .cor .atomS
  | 0x61, 0 => guardOpt (r.mod.extractLsb' 4 3 == 0) (r.atomic .dev fun f _ ty b c => .cas f ty b c)
  | 0x62, 0 => r.atomic .dev .red
  | 0x63, 0 => r.atomic .dev .mred
  | 0x63, 1 => guardOpt (r.mod.extractLsb' 1 6 == 0) (r.atomic .dev fun f _ _ b c => .mcas f b c)
  | 0x63, 2 => guardOpt (!r.mod.getLsbD 4)
      ((r.atomCtl .dev).map fun c =>
        .mscale r.frameX (.ofBits (r.mod.extractLsb' 5 2)) (.ofBits (r.mod.extractLsb' 1 3)) r.m53 c)
  | 0x70, 0 => r.bit53 .barInit
  | 0x70, 1 => r.syncScope.map fun sc => .arrive r.frame r.syncOrd sc r.m53
  | 0x70, 2 => r.bit53 .expect
  | 0x70, 3 => r.syncScope.map fun sc => .wait r.frame r.syncOrd sc r.m53
  | 0x70, 4 => r.bit53 .cwatch
  | 0x71, 0 => guardOpt (!r.m53) (r.syncScope.map fun sc => .fence r.frame r.syncOrd sc)
  | _, _ => none

/-- Majors 0x80 to 0x85. -/
def buildEng (r : Raw) : Option Instr :=
  match r.op.toNat, r.minor.toNat with
  | 0x80, 0 => guardOpt (r.mod.extractLsb' 2 5 == 0) (some (.copy r.frame (r.mod.getLsbD 1) r.m53))
  | 0x81, 0 => r.plain .halo
  | 0x82, 0 => r.bit53 .gqEnq
  | 0x82, 1 => r.bit53 .gqResv
  | 0x82, 2 => r.plain .gqPub
  | 0x82, 3 => guardOpt (r.mod.extractLsb' 2 5 == 0)
      (match (r.mod.extractLsb' 0 2).toNat with
       | 0 => some (.gqCfgConfigure r.frame)
       | 1 => some (.gqCfgDisable r.frame)
       | 2 => some (.gqCfgRelease r.frame)
       | _ => some (.gqCfgQuery r.frame))
  | 0x83, 0 => guardOpt (r.mod.extractLsb' 3 4 == 0)
      (match r.m55.toNat with
       | 0 => some (.rlaunch r.frame)
       | 1 => some (.rlaunchPrism r.frame)
       | 2 => some (.rlaunchSusp r.frame)
       | 3 => some (.rlaunchRes r.frame)
       | 4 => some (.rlaunchKill r.frame)
       | 5 => some (.rlaunchRepl r.frame)
       | _ => none)
  | 0x83, 1 => r.plain .wdq
  | 0x84, 0 => r.plain .sweep
  | 0x84, 1 => r.plain .ctxSet
  | 0x84, 2 => r.plain .ctxWake
  | 0x85, 0 =>
    match CollKind.ofBits (r.mod.extractLsb' 5 2), CollRed.ofBits (r.mod.extractLsb' 2 3) with
    | some kd, some rd => guardOpt (r.mod.extractLsb' 0 2 == 0) (some (.coll r.frame kd rd))
    | _, _ => none
  | _, _ => none

/-- Majors 0x90 to 0x93. -/
def buildMat (r : Raw) : Option Instr :=
  match r.op.toNat, r.minor.toNat with
  | 0x90, 0 => some (.mma r.frame (r.mod.extractLsb' 4 3) (r.mod.extractLsb' 1 3) r.m53)
  | 0x90, 1 => some (.mmaZ r.frame (r.mod.extractLsb' 4 3) (r.mod.extractLsb' 1 3) r.m53)
  | 0x91, 0 => guardOpt (r.mod.extractLsb' 0 3 == 0)
      (some (.tfetch r.frame (r.mod.extractLsb' 4 3) (r.mod.getLsbD 3)))
  | 0x91, 1 => r.plain .trel
  | 0x92, 0 => guardOpt (r.mod.extractLsb' 0 4 == 0) (some (.drain r.frame (r.mod.extractLsb' 4 3)))
  | 0x92, 1 => r.plain .azero
  | 0x93, 0 => r.bit53 .dqPut
  | 0x93, 1 => r.bit53 .gqTake
  | 0x93, 2 => r.plain .mwait
  | _, _ => none

/-- `csrw` by the CSR its M form names (R167): the opcode table gives the writes of R23, R133 and R226 rows of their
own. -/
def buildCsrw (f : Frame) : Instr :=
  if f.isM then
    match csrX f with
    | 0x010 => .spillbWrite f
    | 0x011 => .spilllWrite f
    | 0x100 => .fairtWrite f
    | 0x400 | 0x401 | 0x402 | 0x403 => if csrwDisc f then .mestatDiscard f else .mestatHaltResume f
    | _ => .csrw f
  else .csrw f

/-- Majors 0xA0 to 0xC2. -/
def buildSys (r : Raw) : Option Instr :=
  match r.op.toNat, r.minor.toNat with
  | 0xA0, 0 => r.plain .commit
  | 0xA0, 1 => r.plain .squash
  | 0xA1, 0 => r.mem .ldBase
  | 0xA1, 1 => r.mem .stBase
  | 0xA2, 0 => r.plain .present
  | 0xB0, 0 => r.plain .tex
  | 0xB0, 1 => r.plain .texF
  | 0xB0, 2 => r.plain .texG
  | 0xB0, 3 => r.plain .texQ
  | 0xB1, 0 => r.plain .trace
  | 0xB2, 0 => guardOpt (r.mod.extractLsb' 1 6 == 0) (some (if r.m53 then .binPutEnd r.frame else .binPut r.frame))
  | 0xB3, 0 => r.plain .pxlock
  | 0xB3, 1 => r.bit53 .pxunlock
  | 0xC0, 0 => r.plain .csrr
  | 0xC0, 1 => r.plain buildCsrw
  | 0xC1, 0 => r.plain .trap
  | 0xC1, 1 => r.plain .bkpt
  | 0xC1, 2 => r.plain .eret
  | 0xC2, 0 => r.plain .icinv
  | 0xC2, 1 => r.bit53 .tlbinv
  | _, _ => none

/-- The instruction the fields stand for; none where a modifier is reserved (check 5 of R41). -/
def build (r : Raw) : Option Instr :=
  let n := r.op.toNat
  if n ≤ 0x05 then buildInt r
  else if n ≤ 0x0B then buildBit r
  else if n ≤ 0x28 then buildFp r
  else if n ≤ 0x52 then buildCtl r
  else if n ≤ 0x71 then buildSync r
  else if n ≤ 0x85 then buildEng r
  else if n ≤ 0x93 then buildMat r
  else buildSys r

/-- The checks 4 to 8 of R41 in order, on the fields: the instruction, or the subcode of fault 0x01 (R42); `bad` is the
subcode of a modifier that has no meaning. -/
def decodeWith (bad : BitVec 8) (u : Unit2) (r : Raw) : Except (BitVec 8) Instr :=
  if !majorAssigned r.op.toNat then .error 0x01
  else
    match codeOf r.op.toNat r.minor.toNat with
    | none => .error 0x02
    | some k =>
      if !k.accepts u r.form then .error 0x02
      else
        match build r with
        | none => .error bad
        | some i =>
          match descOf u i with
          | none => .error 0x02
          | some e =>
            match e.check u with
            | some sub => .error sub
            | none => .ok i

/-- The scope field of an instruction that has one (R152, R200, R249). -/
def Raw.scopeField (r : Raw) : Option (BitVec 4) :=
  let n := r.op.toNat
  if (0x50 ≤ n ∧ n ≤ 0x52) ∨ n = 0xA1 then (if r.isS then none else some (r.c.extractLsb' 7 4))
  else if 0x60 ≤ n ∧ n ≤ 0x63 then (if r.isS then none else some (r.x.extractLsb' 4 4))
  else if (n = 0x70 ∧ (r.minor = 1 ∨ r.minor = 3)) ∨ n = 0x71 then some (r.mod.extractLsb' 3 4)
  else none

/-- The fields with another scope. -/
def Raw.withScope (r : Raw) (sc : BitVec 4) : Raw :=
  let n := r.op.toNat
  if (0x50 ≤ n ∧ n ≤ 0x52) ∨ n = 0xA1 then { r with c := sc ++ r.c.extractLsb' 0 7 }
  else if 0x60 ≤ n ∧ n ≤ 0x63 then { r with x := r.x.extractLsb' 8 13 ++ sc ++ r.x.extractLsb' 0 4 }
  else { r with mod := sc ++ r.mod.extractLsb' 0 3 }

/-- The checks up to check 5 of R41 have been passed. -/
def pastBits : Except (BitVec 8) Instr → Bool
  | .ok _ => true
  | .error e => decide (6 ≤ e.toNat)

/-- The subcode of a modifier that has no meaning: 0x06 where it is the scope alone, a field of 0xA to 0xF (R46), and 0x03
else. A scope of R46 that the instruction does not admit is 0x03 (assumption 11). -/
def modifierSub (u : Unit2) (r : Raw) : BitVec 8 :=
  match r.scopeField with
  | some v =>
    if 0xA ≤ v.toNat ∧ (List.range 10).any fun n => pastBits (decodeWith 3 u (r.withScope (BitVec.ofNat 4 n))) then 6 else 3
  | none => 3

/-- The checks 4 to 8 of R41 in order, on the fields: the instruction, or the subcode of fault 0x01 (R42). -/
def decodeRaw (u : Unit2) (r : Raw) : Except (BitVec 8) Instr := decodeWith (modifierSub u r) u r

/-- The instruction a word of 64, 96 or 128 bits holds, for a unit: the checks 2 and 4 to 8 of R41. A filler word that
is not 0x0000_0003 is subcode 0x05 (R28); the filler itself is no instruction and is refused here with the same
subcode, fetch steps over it. -/
def decodeBits (u : Unit2) (w : BitVec 128) : Except (BitVec 8) Instr :=
  match Raw.ofBits w with
  | none => .error 0x05
  | some r => decodeRaw u r

/-- Bytes as one little-endian value (R7). -/
def leBytes : List Byte → Nat
  | [] => 0
  | b :: bs => b.toNat + 256 * leBytes bs

/-- The length in bytes that the first byte of a word gives (R27). -/
def lenOf (b : Byte) : Nat :=
  match (b.extractLsb' 0 2).toNat with
  | 0 => 8 | 1 => 12 | 2 => 16 | _ => 4

/-- The decoder on bytes: the instruction at the head of the list and the bytes after it, or the subcode of fault 0x01.
Too few bytes for the length is the fetch-block boundary, subcode 0x04 (R29). -/
def decode (u : Unit2) (bs : List Byte) : Except (BitVec 8) (Instr × List Byte) :=
  match bs with
  | [] => .error 0x04
  | b :: _ =>
    let n := lenOf b
    if bs.length < n then .error 0x04
    else
      match decodeBits u (BitVec.ofNat 128 (leBytes (bs.take n))) with
      | .error e => .error e
      | .ok i => .ok (i, bs.drop n)

/-- R30, R31, R50: the fields of a coded instruction in unit u. -/
def Desc.raw (e : Desc) : Raw :=
  { form := e.f.form, op := BitVec.ofNat 8 e.op, gp := e.f.gp, gs := BitVec.ofBool e.f.gs, la := e.f.la
    ret := e.f.ret, d := e.f.d.toBits, a := e.f.a.toBits, b := e.f.b.toBits, mod := e.mod
    minor := BitVec.ofNat 4 e.minor, c := e.cRaw, x := e.xRaw, i := e.f.i }

/-- The word of an instruction; an event has none. -/
def encode (u : Unit2) (i : Instr) : Option (BitVec 128) := (descOf u i).map fun e => e.raw.toBits

/-- A value of n bytes in little-endian order (R7). -/
def toLe : Nat → Nat → List Byte
  | 0, _ => []
  | n + 1, v => BitVec.ofNat 8 v :: toLe n (v / 256)

/-- The bytes of an instruction in memory (R7). -/
def encodeBytes (u : Unit2) (i : Instr) : Option (List Byte) :=
  (descOf u i).map fun e => toLe e.f.form.bytes e.raw.toBits.toNat

/-- The opcode table's word: bits 31:0 are the first word, and the hardware stores the words in that order, each
little-endian (R7), so the value is the instruction's bits as they stand. Bits above `nbits` are 0. The unit is the
wave, or the Caller where only it accepts the word. -/
def decodeTableWord (nbits w : Nat) : Option Instr :=
  let bs := toLe 16 (w % 2 ^ nbits)
  match decode .w bs with
  | .ok (i, _) => some i
  | .error _ =>
    match decode .c bs with
    | .ok (i, _) => some i
    | .error _ => none

end Sys2Proof
end

