-- ==== Sys2Proof/Machine/Map.lean ====
section
/-! DEFINITION. Sparse data by number: a list of pairs with strictly rising keys. -/

namespace Sys2Proof

/-- Data by number: pairs in strictly rising order of their keys. -/
abbrev NMap (β : Type) := List (Nat × β)

/-- The entry of a key: the first, where a list that is in no order has several. -/
def NMap.find {β : Type} : NMap β → Nat → Option β
  | [], _ => none
  | (k, x) :: m, n => if n = k then some x else NMap.find m n

/-- The map with an entry set. -/
def NMap.ins {β : Type} : NMap β → Nat → β → NMap β
  | [], n, y => [(n, y)]
  | (k, x) :: m, n, y =>
    if n = k then (n, y) :: m else if n < k then (n, y) :: (k, x) :: m else (k, x) :: NMap.ins m n y

/-- The map without the entries of a key. -/
def NMap.del {β : Type} (m : NMap β) (n : Nat) : NMap β := m.filter fun e => e.1 != n

/-- The entry of a key, or the value an unlisted key reads as. -/
def NMap.get {β : Type} (d : β) (m : NMap β) (n : Nat) : β := (m.find n).getD d

/-- A write that keeps the canonical form: no entry equals what an unlisted key reads as. -/
def NMap.put {β : Type} [DecidableEq β] (d : β) (m : NMap β) (n : Nat) (y : β) : NMap β :=
  if y = d then m.del n else m.ins n y

/-- The keys rise strictly, all above a bound. -/
def NMap.risesAbove {β : Type} : Option Nat → NMap β → Bool
  | _, [] => true
  | none, (k, _) :: m => NMap.risesAbove (some k) m
  | some b, (k, _) :: m => decide (b < k) && NMap.risesAbove (some k) m

/-- The keys rise strictly. -/
def NMap.sorted {β : Type} (m : NMap β) : Bool := NMap.risesAbove none m

/-- The canonical form: rising keys, and no entry equal to what an unlisted key reads as. -/
def NMap.canonical {β : Type} [DecidableEq β] (d : β) (m : NMap β) : Bool :=
  m.sorted && m.all fun e => decide (e.2 ≠ d)

/-- The value of one entry, changed. -/
def NMap.upd {β : Type} (m : NMap β) (n : Nat) (g : β → β) : NMap β :=
  match m.find n with
  | some x => m.ins n (g x)
  | none => m

end Sys2Proof
end

