-- ==== Sys2Proof/Machine/State.lean ====
section
/-! DEFINITION. The state of the machine: everything the spec gives it, as plain data, and the state after reset.
Places are numbered over the device: core g is 96 × die + core (0 to 191), cluster k is 24 × die + cluster (0 to 47) and
equals g / 4, and a wave slot is 128 × g + slot. A Caller stream is held with the waves, under 24,576 + k, as an issue
unit of one lane. A byte of physical memory is numbered by its place: local memory from 0, host memory from 2^52, the
memory of peer link n from (2 + n) × 2^52 (R275). -/

namespace Sys2Proof.Machine

open Sys2Proof

/-- Why a step stops with a fault of the model: never. Every fault the spec names is taken by the machine itself: its
record is posted, the thread is parked and the fault domain acts (R163, R366). Safe: the type has no constructor. -/
inductive Fault where
  deriving DecidableEq, Repr

/-- Why a step refuses. -/
inductive Refusal where
  /-- Raised by `exec` alone, for an instruction without a meaning in this model; its argument is the mnemonic. Safe. -/
  | notModelled (mnemonic : String)
  deriving DecidableEq, Repr

/-- The page classes of R277. -/
inductive PgCls where
  | r | p | h
  deriving DecidableEq, Repr

/-- A piece of an access inside one page, translated (R48): its first byte's place, its virtual address, its size and
the class of its page. -/
structure Part where
  key : Nat
  va : Nat
  size : Nat
  cls : PgCls
  deriving DecidableEq, Repr

/-- The space an issued access goes to (R150): a workgroup's scratch window or TOB window, or global memory. -/
inductive Space where
  | scr (wg : Nat)
  | tob (wg : Nat)
  | glob
  deriving DecidableEq, Repr

/-- Where the result of an LL instruction goes. `wr` is off in a lane whose group has a lower lane that writes the result
of an s or k register (R17); the lane waits for its own result all the same (R34). -/
structure Dst where
  op : Operand
  words : Nat
  wr : Bool
  deriving DecidableEq, Repr

/-- What an issued access does when it is performed. `calc` holds a result that is already computed, `constant` is a read
through the constant cache (R157). -/
inductive AccKind where
  | calc
  | load (wid : Wid) (resv : Bool)
  | constant (wid : Wid)
  | store (bytes : List Byte)
  | stc (bytes : List Byte)
  | rmw (op : AtomOp) (ty : AtomTy) (x : Nat)
  | cas (ty : AtomTy) (cmp new : Nat)
  | mcas (cmp new : Nat)
  | mred (op : AtomOp) (ty : AtomTy) (x : Nat)
  | mscale (rnd : Rnd) (ty : AtomTy) (a b : Nat) (x : Nat)
  | fence
  deriving DecidableEq, Repr

/-- A load performed ahead of an earlier acquire of its thread, which orders it towards nobody yet (R294): the acquire, the
value loaded, and the bytes at the acquire's place since then, as far as writes have changed them that the acquire does not
synchronise with. -/
structure Early where
  past : Nat
  val : List Word
  seen : List Byte
  deriving DecidableEq, Repr

/-- What a texture or ray unit is asked for (R383, R390). -/
inductive UnitKind where
  | tex | texG | texF | texQ | trace
  deriving DecidableEq, Repr

/-- An operation of a texture or ray unit, with the sources of its lane as its instruction has read them: `isS` says that the
instruction has no source C. -/
structure UnitOp where
  kind : UnitKind
  a : Nat
  b : Nat
  c : Nat
  isS : Bool
  deriving DecidableEq, Repr

/-- An instruction of a thread that is issued and not complete: an access not yet performed (R298, R300), or an LL
result not yet written (R34). `win` is what is left of its lookahead window, `val` its result once known, `feed` the feed
stream whose element a store is (R211), `got` the bytes of its lower grains that are loaded (R297), and `due` the scopes of
the releases that were performed ahead of it: what is mutually in scope with one of them waits for it (R294, R303). `early` is
a load's value from before an acquire, `redo` the operation of a unit whose reads are still to be performed (R307), and `popped`
detail word 1 of a fault of the access, an element that its instruction has popped (R208). -/
structure Acc where
  id : Nat
  kind : AccKind
  space : Space
  parts : List Part
  ord : Ord
  scope : Scope
  tag : Option (BitVec 5)
  dst : Option Dst
  win : Nat
  val : Option (List Word)
  pc : DWord
  feed : Option Nat := none
  got : List Byte := []
  due : List Scope := []
  early : Option Early := none
  redo : Option UnitOp := none
  popped : Word := 0
  deriving DecidableEq, Repr

/-- The place at which a load reservation is held (R160). -/
inductive ResvAt where
  | core (g : Nat)
  | home
  deriving DecidableEq, Repr

/-- A load reservation: its executing point and its 32-byte grain (R160). -/
structure Resv where
  pt : ResvAt
  grain : Nat
  deriving DecidableEq, Repr

/-- What a Blocked thread waits for (R25). A thread in `wait` has the destination of its status, the scope of its acquire
if it is one, the number and the PC of its instruction, and the PC after it: it returns when its phase completes (R204). A thread
in `queue` has the queue registers of its instruction. A committing thread has the destination of its status and the PC after its instruction. -/
inductive Why where
  | join (k : Nat)
  | wsync (mask : Word)
  | phase (wg off : Nat) (g : Word) (d : Dst) (acq : Option Scope) (id : Nat) (pc npc : DWord)
  | queue (qs : List Nat)
  | commit (set : Nat) (d : Operand) (npc : DWord)
  | pixel (px seq : Word)
  | engines
  | decision
  | take
  deriving DecidableEq, Repr

/-- The lifecycle of a thread (R25). Pending threads are records in a bin; Saved threads are those of a saved
workgroup. `parked` holds the code, the subcode and the record's sequence number. -/
inductive TSt where
  | placed
  | running
  | blocked (w : Why)
  | parked (code sub : BitVec 8) (seq : Nat)
  | exited
  deriving DecidableEq, Repr

/-- What a thread delivered by a sweep knows of its element (R18, R396). -/
structure Elem where
  index : Word
  ctxVa : DWord
  csz : Nat
  die : Nat
  engine : Nat
  deriving DecidableEq, Repr

/-- One thread (R12), or the Caller's one thread. In the Caller register c n is held as v(2n) and v(2n+1). `v` and the
predicates read 0 where nothing is listed. `popped` holds the elements that the instruction at the PC has popped and not
used, by queue register (R208), and `fenced` the scope with which a `fence.rel` makes the next store, arrival or engine
issue a release (R304). -/
structure Thread where
  st : TSt
  pc : DWord
  v : NMap Word
  preds : BitVec 8
  stack : List DWord
  spillb : DWord
  spilll : DWord
  spillp : DWord
  spl : Bool
  lav : Bool
  sdep : Nat
  fac : Bool
  epc : DWord
  ecause : Word
  mark : Bool
  cychi : Word
  resv : Option Resv
  accs : List Acc
  elem : Option Elem
  clsAt : Bool
  popped : List (Nat × Word)
  fenced : Option Scope
  deriving DecidableEq, Repr

/-- A pending join instance (R140). -/
structure JoinInst where
  mask : Word
  pc : DWord
  arrived : Word
  deriving DecidableEq, Repr

/-- A pending wsync instance (R141). -/
structure SyncInst where
  mask : Word
  arrived : Word
  deriving DecidableEq, Repr

/-- A barrier object: the workgroup whose scratch window holds it, and its offset (R198). -/
structure BarRef where
  wg : Nat
  off : Nat
  deriving DecidableEq, Repr

/-- A pending arrival instance (R202). -/
structure ArrInst where
  bar : BarRef
  mask : Word
  arrived : Word
  deriving DecidableEq, Repr

/-- Which delivery placed a wave (R24). -/
inductive WKind where
  | launch | spawn | gather | tile | step | caller
  deriving DecidableEq, Repr

/-- A pixel held or cleared by an entry (R380): the pixel word and the sequence number. -/
structure PxRef where
  px : Word
  seq : Word
  deriving DecidableEq, Repr

/-- The interlock state of a tile wave (R380): its tile, its list of sequence numbers in order, the pixels held, those
cleared, the entries cleared whole, and for each entry the lanes that named it. -/
structure TileSt where
  tx : Nat
  ty : Nat
  seqs : List Word
  held : List PxRef
  clear : List PxRef
  clearAll : List Word
  named : List (Word × Word)
  deriving DecidableEq, Repr

/-- One wave (R17, R131 to R143), or one Caller stream (R222). `turn` is the lane whose path holds the turn; `fair` the
fairness count, `limit` the limit in effect and `fairt` the register. `retain` names the v registers of the operand
buffer, `src` the descriptor or sweep a delivered wave belongs to. -/
structure Wave where
  rgn : Nat
  wg : Nat
  wave : Nat
  kind : WKind
  entry : Option Nat
  alloc : Nat
  row : Nat
  threads : List Thread
  s : NMap Word
  k : NMap Word
  turn : Option Nat
  fair : Nat
  fairt : Word
  limit : Nat
  retain : List (Option Nat)
  joins : NMap JoinInst
  syncs : List SyncInst
  arrs : List ArrInst
  feedp : List Word
  dqPos : Nat
  tile : Option TileSt
  src : Nat
  charged : Nat
  fetched : Option (Nat × List Byte)
  deriving DecidableEq, Repr

/-- A tile handle of the Caller (R234 to R236). `inst` tells bindings of one handle apart; `rows` holds the place of
each fetched row and `scales` those of its scale bytes, `pc` is that of the `tfetch`. -/
structure Handle where
  inst : Nat
  bound : Bool
  faulted : Bool
  base : DWord
  pitch : Nat
  slot : Nat
  q : Bool
  rows : NMap Nat
  scales : NMap Nat
  pc : DWord := 0
  deriving DecidableEq, Repr

/-- One tile of the accumulator store: elements 128 × m + n, +0 where unlisted, and the invalid mark (R229). -/
structure Tile where
  acc : NMap Word
  invalid : Bool
  deriving DecidableEq, Repr

/-- A workgroup (R3): its place, its windows, its accumulator tiles and its decision queue. It keeps its number through
a save. Bytes not listed read 0. -/
structure Wg where
  rgn : Nat
  index : Word
  core : Nat
  nwaves : Nat
  kind : WKind
  entry : Option Nat
  tag : Option (BitVec 5)
  scrBase : Nat
  scrSize : Nat
  scr : NMap Byte
  tobBank : Nat
  tobBanks : Nat
  tob : NMap Byte
  accBase : Nat
  accN : Nat
  tiles : NMap Tile
  dq : List Word
  dqHead : Nat
  group : Option Nat
  member : Nat
  saved : Bool
  saving : Bool
  deriving DecidableEq, Repr

/-- A cluster group (R223): its region, its cluster, the workgroup of each member, and what belongs to its Caller. -/
structure Group where
  rgn : Nat
  cluster : Nat
  members : NMap Nat
  handles : NMap Handle
  caller : Bool
  started : Bool
  deriving DecidableEq, Repr

/-- An engine command (R228). `inst` is the binding of the handle it names. -/
inductive ECmd where
  | mma (z : Bool) (sa sb : Nat) (bh : Option (Nat × Nat)) (tile a b : Nat)
  | drain (fs dst str tile addr pitch : Nat) (absmax : Option Nat) (bar : Option BarRef)
  | azero (tile : Nat)
  deriving DecidableEq, Repr

/-- A command in an engine's queue (R228): its sequence number (R227), and the PC and the number of its instruction. -/
structure QCmd where
  cmd : ECmd
  seq : BitVec 32
  pc : DWord
  id : Nat
  deriving DecidableEq, Repr

/-- A matrix engine (R226 to R228): its queue, `mestat` without its write-only bit, the counts of `mecnt`, the elements
its drain streams hold and those still to be pushed (R210, R238), the rows that the drain at its head has written (129 says that it
has none to write and merges nothing), the pieces of the next row that it has, and the grains of its operands that the `mma` at its head
has read (R233). -/
structure Engine where
  queue : List QCmd
  mestat : BitVec 64
  issued : BitVec 32
  done : BitVec 32
  streams : List (List Word)
  backlog : List (List Word)
  row : Nat
  piece : Nat
  read : NMap (List Byte) := []
  deriving DecidableEq, Repr

/-- A saved workgroup (R361): its waves in order, and for member 0 of a cluster group the Caller and the engines. `image` is
the free value whose bytes its record in memory was given, `migrate` says that the streamer migrates it (R362). -/
structure Saved where
  wg : Nat
  waves : List (Nat × Wave)
  caller : Option Wave
  engines : List (Nat × Engine)
  order : Nat
  image : Nat
  migrate : Bool
  deriving DecidableEq, Repr

/-- A sector held in a core's cache (R274): its class, whether it is dirty, its 64 bytes, whether the service wave dirtied
it (R247), and the poison of its two grains (R289). -/
structure Copy where
  cls : PgCls
  dirty : Bool
  data : BitVec 512
  svc : Bool
  poison : BitVec 2 := 0
  deriving DecidableEq, Repr

/-- A translation held in a TLB (R281): the address space, the leaf's virtual page and size, its first frame's place and
its class and permissions. -/
structure Leaf where
  asr : Nat
  va : Nat
  size : Nat
  key : Nat
  cls : PgCls
  rd : Bool
  wr : Bool
  ex : Bool
  deriving DecidableEq, Repr

/-- A table entry of level 1 to 3 in a walk cache (R281): the address space, its level, its virtual address range's first
address, and the table it names. -/
structure WalkEnt where
  asr : Nat
  level : Nat
  va : Nat
  table : Nat
  deriving DecidableEq, Repr

/-- The state of a sector in an L2 slice (R273): not present, equal to memory, or newer than memory. -/
inductive SecSt where
  | i | c | d
  deriving DecidableEq, Repr

/-- A line in an L2 slice (R273): the states of its four sectors. -/
structure L2Line where
  secs : List SecSt
  deriving DecidableEq, Repr

/-- A forwarding entry of a core (R362). -/
structure FwdWg where
  wg : Nat
  count : Nat
  restored : Bool
  deriving DecidableEq, Repr

/-- The loop buffer of a quadrant (R186): the last taken backward branch, and the first and last block captured. -/
structure LoopBuf where
  last : Option Nat
  range : Option (Nat × Nat)
  deriving DecidableEq, Repr

/-- One core: its CSRs (R189 to R192), its cache (R274), its TLB, its clock gating (R187, R188; `woken` until the first
issue after a wake), the instruction blocks of its instruction cache and of the L0 cache of each quadrant (R175, R185), its engine, its vertical-bus segments
(R405), the wave-clocks it has counted and not yet added, by region (R365), and its constant cache, newest first: a region, a
grain and its bytes (R157, R175). -/
structure Core where
  scrn : Nat
  tobn : Nat
  wakerc : Word
  gatec : DWord
  gated : Bool
  gatedAt : Nat
  wake : BitVec 9
  woken : Bool
  copies : NMap Copy
  tlb : List Leaf
  icache : NMap (List Byte)
  l0 : NMap (NMap (List Byte)) := []
  loops : NMap LoopBuf
  engine : Engine
  fwd : List FwdWg
  fenced : List Nat
  available : Bool
  owed : NMap Nat
  consts : List (Nat × Nat × List Byte)
  deriving DecidableEq, Repr

/-- An atomic waiting for the service wave (R247): the thread that issued it and its access. -/
structure SvcReq where
  wave : Nat
  lane : Nat
  acc : Nat
  deriving DecidableEq, Repr

/-- A slot of a gathering queue (R259): its ticket; its record once published; the clock of its reservation or
publication; the region and tag that made it; and its place in the spill ring if it stands there. -/
structure GSlot where
  ticket : Nat
  data : Option (BitVec 128)
  clk : Nat
  rgn : Nat
  tag : Option (BitVec 5)
  spill : Option Nat
  deriving DecidableEq, Repr

/-- A gathering queue (R257 to R263). `wOff` is the write offset of its delivery ring in entries, `unfreed` the entries
delivered and not freed, with the entries a skip to the ring's start left unused. `faultHeld` says that a fault has been recorded
and no access has succeeded since, `unwritten` that entries in spill are still to be written there, and `hold` is the access that
faulted and is to be made again: whether it writes, and its address (R424). -/
structure GQueue where
  enabled : Bool
  cons : Nat
  dbase : Nat
  sbase : Nat
  ssize : Nat
  dsize : Nat
  entry : DWord
  age : Nat
  fill : Nat
  bmax : Nat
  pri : Nat
  cfgRgn : Option Nat
  ticket : Nat
  slots : List GSlot
  sOff : Nat
  wOff : Nat
  unfreed : List (Nat × Nat)
  faultHeld : Bool
  unwritten : Bool
  hold : Option (Bool × Nat) := none
  deriving DecidableEq, Repr

/-- A record of a spawn bin (R146): the record, its publication clock, and its chunk and its place there when it stands in
spill. -/
structure BinRec where
  data : BitVec 128
  clk : Nat
  chunk : Option (Nat × Nat)
  deriving DecidableEq, Repr

/-- An open spawn bin (R146, R147): its key and its records; what it holds for is said as for a queue (R424). -/
structure SpawnBin where
  rgn : Nat
  entry : DWord
  tag : Option (BitVec 5)
  sdep : Nat
  recs : List BinRec
  faultHeld : Bool
  unwritten : Bool
  hold : Option (Bool × Nat) := none
  deriving DecidableEq, Repr

/-- A batch descriptor in the take queue (R242). -/
structure TakeDesc where
  word : BitVec 64
  queue : Nat
  tag : Option (BitVec 5)
  deriving DecidableEq, Repr

/-- A translation request waiting in a cluster (R281). -/
structure WalkReq where
  rgn : Nat
  va : Nat
  deriving DecidableEq, Repr

/-- One cluster: its TLB, its waiting walks, the service wave's queue (R247), its gathering queues and spawn bins, its
take queue, the clock of the last firing (R261), and whether it may host cluster groups (R405). -/
structure Cluster where
  tlb : List Leaf
  walks : List WalkReq
  svc : List SvcReq
  queues : NMap GQueue
  bins : NMap SpawnBin
  take : List TakeDesc
  firedAt : Nat
  groups : Bool
  deriving DecidableEq, Repr

/-- A region control block as it was read at acceptance, with what it inherits (R347, R349). `ownb` says that it has
budgets of its own. -/
structure Rcb where
  entry : DWord
  centry : DWord
  asr : Nat
  dirq : Bool
  sys : Bool
  npre : Bool
  troot : Bool
  pri : Nat
  dl : Bool
  pq : BitVec 4
  scrn : Nat
  tobn : Nat
  scr : Nat
  acc : Nat
  tob : Nat
  regs : Nat
  cgs : Nat
  wgsz : Nat
  nwg : Nat
  depb : Nat
  witems : Nat
  bint : Nat
  hln : Nat
  depn : Nat
  constb : DWord
  constsz : Nat
  spillb : DWord
  savestr : Nat
  dpool : Nat
  spstr : Nat
  trape : DWord
  fdr : DWord
  spwb : DWord
  fdn : Nat
  act : BitVec 64
  qlo : Nat
  qn : Nat
  spwn : Nat
  memq : Nat
  timeq : Nat
  scrq : Nat
  regq : Nat
  accq : Nat
  saveb : DWord
  donec : DWord
  hlb : DWord
  chgb : DWord
  ownb : Bool
  arg0 : DWord
  arg1 : DWord
  win : List (Nat × Nat)
  slots : List (BitVec 128)
  deriving DecidableEq, Repr

/-- ST of R348. -/
inductive RSt where
  | waiting | ready | running | suspended | ended | killed
  deriving DecidableEq, Repr

/-- A region (R346 to R352): its block, its place in the tree, and what the device keeps of it. `prism` marks a region of a
prism launch (R348), `passed` holds for each die the clock at which an uninterrupted pass-over began (R355), `raised` names the
present queues for which it is raised (R363), `cores` the cores that have held a wave of it, whose caches its end pushes
(R305, R352), `consts` the frames of its constant window as it became ready (R157), and `due` how many of its workgroups are to be
placed where victims were chosen for them (R360, R371). -/
structure Region where
  rcbVa : DWord
  rcbKey : Nat
  rcb : Rcb
  parent : Option Nat
  root : Nat
  fn : Nat
  tag : Option (BitVec 5)
  prism : Bool
  st : RSt
  resume : RSt
  quota : Bool
  seq : Nat
  widx : Nat
  lost : Nat
  memu : Nat
  timeu : Nat
  depDone : List Nat
  nextWg : Nat
  exited : Nat
  pool : List Nat
  dcount : Nat
  nextItem : Nat
  spwUsed : List Nat
  link : Nat
  passed : List (Option Nat)
  raised : BitVec 4
  cores : List Nat
  consts : List Nat := []
  due : Nat := 0
  deriving DecidableEq, Repr

/-- The states of a facet set (R320). -/
inductive FSt where
  | free | prefixing | opened | resolving | retiring
  deriving DecidableEq, Repr

/-- A facet set (R316 to R330). `frames` are the frames of its window, `squashed` its squashed facets.
`bound` tells what its winner issued before the commit began from what it issued after (R330). -/
structure FSet where
  st : FSt
  gen : BitVec 16
  used : Bool
  root : Nat
  preRgn : Nat
  facets : List Nat
  squashed : BitVec 8
  frames : List Nat
  hnda : Nat
  resc : Nat
  ovfn : Nat
  ovfb : Nat
  winner : Nat
  bound : Nat
  deriving DecidableEq, Repr

/-- A facet's version of a sector (R324): whether it stands in the overflow area, its bytes, and the poison of its two grains
(R289). -/
structure Version where
  set : Nat
  facet : Nat
  sector : Nat
  ovf : Bool
  data : BitVec 512
  poison : BitVec 2 := 0
  deriving DecidableEq, Repr

/-- An accepted prism launch that waits for a set (R319): `wins` holds the ranges of its window, each with the address space
that names it, and `gone` the facets that were killed meanwhile (R329), bit f for facet f. -/
structure PrismReq where
  preRgn : Nat
  facets : List Nat
  wins : List (Nat × Nat × Nat)
  gone : Nat
  hnda : Nat
  resc : Nat
  ovfn : Nat
  ovfb : Nat
  deriving DecidableEq, Repr

/-- An entry of a present queue (R334, R336). -/
structure PEntry where
  desc : BitVec 512
  rgn : Nat
  tag : Option (BitVec 5)
  released : Bool
  deriving DecidableEq, Repr

/-- A frame delivered by a flip and not yet read out (R336, R338). -/
structure Readout where
  queue : Nat
  desc : BitVec 512
  rgn : Nat
  deriving DecidableEq, Repr

/-- A frame that has left the device (R338): the present queue, the descriptor and the surface's lines; a black frame has
neither. -/
structure OutFrame where
  queue : Nat
  desc : Option (BitVec 512)
  data : List Byte
  deriving DecidableEq, Repr

/-- A present queue (R334, R337, R338). `slot` is the time of the present timer at the next flip slot. -/
structure PQueue where
  entries : List PEntry
  last : Option (BitVec 512 × Nat)
  slot : Nat
  interval : Nat
  deriving DecidableEq, Repr

/-- What a copy-slot operation does (R212, R216, R358). -/
inductive CopyKind where
  | copy | halo | wdq
  deriving DecidableEq, Repr

/-- The completion object of an engine operation: a barrier, or a counter in memory, by its place and its address (R212). -/
inductive Done where
  | bar (b : BarRef)
  | ctr (key va : Nat)
  deriving DecidableEq, Repr

/-- A copy, halo or work request in flight (R212 to R216, R358), of the instruction `issue` of a thread. `desc` is the
descriptor as read at issue with its replaced addresses, `wg` the workgroup of the local range, `src` that of a local
source, `run` and `off` the next run and the bytes of it that are moved (of a work request, the answer word's offset),
`idx` the index of the run, once it is read (of a work request, the item that is handed out), `wait` a halo's cluster barrier
and phase, `via` the descriptor or the sweep whose tile or step wave issued it, else 0. -/
structure CopyOp where
  id : Nat
  kind : CopyKind
  core : Nat
  rgn : Nat
  tag : Option (BitVec 5)
  wg : Nat
  src : Nat
  w : Nat
  lane : Nat
  issue : Nat
  desc : BitVec 512
  run : Nat
  off : Nat
  left : Nat
  moved : Nat
  done : Done
  wait : Option (BarRef × Word)
  started : Bool
  held : Bool
  pc : DWord
  idx : Option Nat := none
  via : Nat := 0
  deriving DecidableEq, Repr

/-- A counter watch (R205, R354): the counter's place, the target, what its arrival does, and the thread that issued it, by
wave and lane. -/
structure Watch where
  id : Nat
  key : Nat
  target : DWord
  bar : Option BarRef
  dep : Option (Nat × Nat)
  rgn : Nat
  tag : Option (BitVec 5)
  by_ : Option (Nat × Nat) := none
  deriving DecidableEq, Repr

/-- A sweep, queued or running (R395, R400). `cursor` is the next or the current chunk, `waves` whether the chunk's
waves are in flight, `held` the wakes held for it, `ctr` the address of its counter, `cores` the cores that have held a wave of
it, `via` what delivered its issuer, as for a copy. -/
structure Sweep where
  id : Nat
  rgn : Nat
  tag : Option (BitVec 5)
  descVa : DWord
  desc : BitVec 512
  gen : Word
  ctr : Nat
  cursor : Nat
  flying : Bool
  noSkip : Bool
  held : List Word
  cores : List Nat
  pc : DWord
  via : Nat := 0
  deriving DecidableEq, Repr

/-- The waves that firings, flushes and sweeps have asked for and that are not yet placed (R148, R262, R377, R396).
`prods` names the region that made each lane's record, `src` the queue, descriptor or sweep it comes from. -/
structure Delivery where
  id : Nat
  rgn : Nat
  kind : WKind
  die : Nat
  cluster : Option Nat
  entry : DWord
  tag : Option (BitVec 5)
  sdep : Nat
  recs : NMap (BitVec 128)
  prods : NMap Nat
  elems : NMap Elem
  tile : Option TileSt
  src : Nat
  deriving DecidableEq, Repr

/-- A primitive waiting for room in the bin memory (R375, R378): the thread, its sequence number, its box and payload. -/
structure Prim where
  seq : Word
  x0 : Nat
  y0 : Nat
  x1 : Nat
  y1 : Nat
  payload : BitVec 64
  deriving DecidableEq, Repr

/-- The list of one screen tile (R376): its chunks in order and its entries. -/
structure TileList where
  chunks : List Nat
  ents : List (Word × BitVec 64)
  deriving DecidableEq, Repr

/-- An open bin descriptor (R373 to R378). `lists` is keyed by 256 × ty + tx, `cores` are those that have held a tile wave
of the flush that runs, `pc` is that of the instruction that opened it. `writes` are those to bin memory that are still to be made,
each an address and its bytes (R364). -/
structure BinDesc where
  id : Nat
  addr : DWord
  tag : Option (BitVec 5)
  rgn : Nat
  done : DWord
  entry : DWord
  tw : Nat
  th : Nat
  bchk : Nat
  bmem : DWord
  seq : Word
  flush : Nat
  lists : NMap TileList
  flushing : Bool
  ending : Bool
  pending : List Prim
  cores : List Nat
  pc : DWord
  writes : List (Nat × List Byte)
  deriving DecidableEq, Repr

/-- A collective, queued or in an engine (R419 to R421): `ctr` and `ctrVa` are its counter's place and address, `via` is what
delivered its issuer, as for a copy. -/
structure CollOp where
  id : Nat
  die : Nat
  rgn : Nat
  kind : CollKind
  red : CollRed
  desc : BitVec 512
  count : Nat
  ctr : Nat
  pc : DWord
  via : Nat := 0
  ctrVa : Nat := 0
  deriving DecidableEq, Repr

/-- One die: its bin engine, its walk cache (R281), its sweep engines and queue, its L2 mode and partitions (R287, R288), the region its
scheduler holds for, and those it has placed for in this pass (R355). -/
structure Die where
  bins : List BinDesc
  tables : List WalkEnt
  engines : NMap Sweep
  sweepQ : List Sweep
  l2mode : Word
  l2part : List DWord
  hold : Option Nat
  offered : List Nat
  deriving DecidableEq, Repr

/-- A move of a frame's home (R283, R284): the old and new slice, and once it has moved the requests that are still to be
forwarded, in arrival order: each by its wave, its lane and its access. -/
structure HomeFwd where
  frame : Nat
  old : Nat
  new : Nat
  reqs : List (Nat × Nat × Nat)
  moved : Bool
  deriving DecidableEq, Repr

/-- A firmware slot (R411): its header of 16 bytes, the image, and the signature. -/
structure FwSlot where
  header : BitVec 128
  image : List Byte
  sig : List Byte
  deriving DecidableEq, Repr

/-- What Fjoub and the on-package flash keep (R410, R411, R413): the slots, the slot that boots, the image that runs, the
pending slot with the boots it has had, the slot that a roll back makes active at the next reset, the anti-rollback counter, the nonce issued, the next index of the identity key, the
attestation key's number and next index, and the identity key's index that certified it. -/
structure Firmware where
  slots : List FwSlot
  active : Nat
  running : Option Nat
  pending : Option Nat
  tries : Nat
  counter : Nat
  nonce : BitVec 256
  idIndex : Nat
  attKey : Nat
  attIndex : Nat
  certIndex : Nat
  next : Option Nat := none
  deriving DecidableEq, Repr

/-- The lifetime counters (R413): those in flash, keyed by record, and what was counted since the last write. -/
structure Lifetime where
  flash : NMap Nat
  live : NMap Nat
  deriving DecidableEq, Repr

/-- The binding of a function to a tenant (R416). -/
structure FnBind where
  root : Option Nat
  pasid : BitVec 20
  partition : Nat
  pq : BitVec 4
  deriving DecidableEq, Repr

/-- A command in the ring of a function (R409): its 64 bytes. -/
structure Command where
  fn : Nat
  word : BitVec 512
  deriving DecidableEq, Repr

/-- A reply in the ring of a function (R409): its 32 bytes, and the bytes that the command returns beside them. -/
structure Reply where
  fn : Nat
  word : BitVec 256
  data : List Byte
  deriving DecidableEq, Repr

/-- An event record in Fjoub's own ring (R289, R405, R423): code, subcode, address and detail word 0. -/
structure FjEvent where
  code : BitVec 8
  sub : BitVec 8
  addr : Nat
  det : Word
  deriving DecidableEq, Repr

/-- An Invalidate Request that is pending (R417): the first address of its range, for a function, and the size. -/
structure AtsInval where
  base : HostAddr
  size : Nat
  deriving DecidableEq, Repr

/-- What the device answers over a link (R322, R414, R417, R418): the link, the function of a host request, whether it is
completed with Completer Abort, and the bytes returned. -/
structure Answer where
  link : Nat
  fn : Nat
  abort : Bool
  data : List Byte
  deriving DecidableEq, Repr

/-- The power states of R407 that are not FROZEN. -/
inductive PwrSt where
  | active | capped
  deriving DecidableEq, Repr

/-- What acts next: a unit issues, or an event of the machine comes about. -/
inductive Sched where
  | issue (wave : Nat)
  | event (i : Instr)
  deriving DecidableEq, Repr

/-- What a fault domain still has to do for the threads of the group that acts (R163): its action on a parked thread, or
the kill of a region. -/
inductive DomAct where
  | act (w lane rgn : Nat) (code sub : BitVec 8) (marked : Bool)
  | kill (rgn : Nat)
  deriving DecidableEq, Repr

/-- What a grain held before a write (R157): the region whose constant window the grain is in, the grain, its bytes, and the
thread that wrote over them, if one did. -/
structure ConstOld where
  rgn : Nat
  grain : Nat
  bytes : List Byte
  by_ : Option (Nat × Nat)
  deriving DecidableEq, Repr

/-- A counter's rise that is held until the set of its winner is published (R325): the operation's region, core, cluster, PC and
number, and the counter's place and address. -/
structure CtrHeld where
  rgn : Nat
  core : Option Nat
  cluster : Nat
  pc : DWord
  id : Nat
  key : Nat
  va : Option Nat
  deriving DecidableEq, Repr

/-- The machine. `cur` is the unit whose instruction is issued, `agenda` what acts next (the model's own fields: they
stand for the choices the spec leaves to the hardware), `ticks` and `fv` the counters that free values are applied to,
`clks` the local clock counters of the units (R19, R367): core g at g, cluster k at 192 + k, the scheduler of die d at
240 + d; `us` the present timer. `acts` holds what the fault domains have to do once the group that acts is done. `ended`
holds the waves that have ended, by their slots, and `endedWgs` the workgroups, until another takes their place. `l2` holds the
lines of the L2 slices by their numbers (R273). `fclk` is the core clock in 100 MHz, `cappedClk` what it goes back to once the
Invalidate Requests in `atsPending` are completed (R407, R417). `links` says which links are up, 0 to 7 for the peers and 8 for
the host, `linkUse` which tenant roots' work has used which link (R423). `commands` holds what the tenants' command rings have
been given and `replies` what their reply rings have (R409). `constOld` holds what the constant windows of regions held before
(R157), the newest first, `ctrHeld` the rises of counters that wait for a publication (R325), and `transReqs` and `pageReqs` the
Translation Requests and Page Requests that the host has not answered (R417). -/
structure State where
  cur : Nat
  agenda : List Sched
  ticks : Nat
  fv : Nat
  clks : List Nat
  us : Nat
  nextId : Nat
  acts : Option (List DomAct)
  frozen : Bool
  waves : NMap Wave
  wgs : NMap Wg
  groups : NMap Group
  saved : NMap Saved
  ended : NMap Wave
  endedWgs : NMap Wg
  regions : NMap Region
  cores : NMap Core
  clusters : NMap Cluster
  dies : List Die
  mem : List Host.Cell
  l2 : NMap L2Line
  poison : List Nat
  versions : List Version
  sets : List FSet
  prisms : List PrismReq
  presents : List PQueue
  presEn : BitVec 4
  presGuard : Nat
  readouts : List Readout
  copies : List CopyOp
  watches : List Watch
  deliveries : List Delivery
  colls : List CollOp
  homes : NMap Nat
  homeFwd : List HomeFwd
  fw : Firmware
  life : Lifetime
  pwrLimit : Nat
  fclk : Nat
  pwrSt : PwrSt
  fns : List FnBind
  ats : List Leaf
  atsPending : List AtsInval
  cappedClk : Nat
  links : List Bool
  linkUse : List (Nat × Nat)
  answers : List Answer
  commands : List Command
  replies : List Reply
  msix : List (Nat × Nat)
  fjRing : List FjEvent
  scanout : List OutFrame
  constOld : List ConstOld
  ctrHeld : List CtrHeld
  transReqs : List HostAddr
  pageReqs : List HostAddr
  deriving DecidableEq, Repr

/-- A sparse list of n values, each made from its number. -/
def numbered {β : Type} (n : Nat) (g : Nat → β) : List β := (List.range n).map g

/-- An engine at placement of a Caller stream (R226) and after reset (R227). -/
def Engine.fresh : Engine :=
  { queue := [], mestat := 0, issued := 0, done := 0, streams := [[], [], [], []], backlog := [[], [], [], []], row := 0
    piece := 0 }

/-- A core after reset (R190 to R192): its CSRs read 0 and its cache and TLB are empty. -/
def Core.fresh : Core :=
  { scrn := 0, tobn := 0, wakerc := 0, gatec := 0, gated := false, gatedAt := 0, wake := 0, woken := false, copies := [], tlb := []
    icache := [], loops := [], engine := .fresh, fwd := [], fenced := [], available := true, owed := [], consts := [] }

/-- A cluster after reset: no queue is configured and nothing waits. -/
def Cluster.fresh : Cluster :=
  { tlb := [], walks := [], svc := [], queues := [], bins := [], take := [], firedAt := 0, groups := true }

/-- A die after reset: shared mode, with the partition registers of R287 and R288. -/
def Die.fresh : Die :=
  { bins := [], tables := [], engines := [], sweepQ := [], l2mode := 0x80, l2part := [0x00C0000000FFFFFF, 0, 0, 0], hold := none, offered := [] }

/-- A facet set after reset (R320). -/
def FSet.fresh : FSet :=
  { st := .free, gen := 0, used := false, root := 0, preRgn := 0, facets := [], squashed := 0, frames := []
    hnda := 0, resc := 0, ovfn := 0, ovfb := 0, winner := 0, bound := 0 }

/-- A present queue after reset (R337): the interval is 16,667 µs. -/
def PQueue.fresh : PQueue := { entries := [], last := none, slot := 0, interval := 0x411B }

/-- The firmware records at first power-up: the spec gives them no values (DESIGN CHOICE, assumption 16). -/
def Firmware.fresh : Firmware :=
  { slots := [⟨0, [], []⟩, ⟨0, [], []⟩], active := 0, running := none, pending := none, tries := 0
    counter := 0, nonce := 0, idIndex := 1, attKey := 0, attIndex := 0, certIndex := 0 }

/-- A function that is bound to no tenant (R416). -/
def FnBind.fresh : FnBind := { root := none, pasid := 0, partition := 0, pq := 0 }

/-- The machine right after device reset: no region is accepted and no wave is resident, memory lists nothing, every
CSR holds its reset value. -/
def State.reset : State :=
  { cur := 0, agenda := [], ticks := 0, fv := 0, clks := numbered 242 fun _ => 0, us := 0, nextId := 1, acts := none
    frozen := false, waves := [], wgs := [], groups := [], saved := [], ended := [], endedWgs := [], regions := [], cores := [], clusters := []
    dies := [.fresh, .fresh], mem := [], l2 := [], poison := [], versions := []
    sets := [.fresh, .fresh, .fresh, .fresh], prisms := []
    presents := [.fresh, .fresh, .fresh, .fresh], presEn := 0, presGuard := 0x07D0, readouts := []
    copies := [], watches := [], deliveries := [], colls := [], homes := [], homeFwd := []
    fw := .fresh, life := { flash := [], live := [] }, pwrLimit := 0x47E, fclk := 0x17, pwrSt := .active
    fns := numbered 32 fun _ => .fresh, ats := [], atsPending := [], cappedClk := 0x17, links := numbered 9 fun _ => true, linkUse := [], answers := []
    commands := [], replies := [], msix := [], fjRing := [], scanout := []
    constOld := [], ctrHeld := [], transReqs := [], pageReqs := [] }

end Sys2Proof.Machine
end

