-- ==== Sys2Proof/Machine/Memory.lean ====
section
/-! DEFINITION. Physical memory: bytes at their places, poison, reservations, the versions of facet sets, and the copies
of sectors that cores hold (16_die_l2_copy.md, 17_memory_model.md, 19_facets_versioned_memory.md). -/

namespace Sys2Proof.Machine

open Sys2Proof

/-! ### Places in the state -/

/-- Core g; one that is not listed is as after reset. -/
def State.core (s : State) (g : Nat) : Core := NMap.get Core.fresh s.cores g

/-- The state with core g replaced. -/
def State.setCore (s : State) (g : Nat) (c : Core) : State := { s with cores := s.cores.ins g c }

/-- Cluster k; one that is not listed is as after reset. -/
def State.cluster (s : State) (k : Nat) : Cluster := NMap.get Cluster.fresh s.clusters k

/-- The state with cluster k replaced. -/
def State.setCluster (s : State) (k : Nat) (c : Cluster) : State := { s with clusters := s.clusters.ins k c }

/-- Die d. -/
def State.die (s : State) (d : Nat) : Die := s.dies.getD d .fresh

/-- The state with die d replaced. -/
def State.setDie (s : State) (d : Nat) (x : Die) : State := { s with dies := s.dies.set d x }

/-- The state with wave w replaced. -/
def State.setWave (s : State) (w : Nat) (x : Wave) : State := { s with waves := s.waves.ins w x }

/-- One thread of a wave, changed. -/
def Wave.updThread (x : Wave) (lane : Nat) (g : Thread → Thread) : Wave :=
  { x with threads := x.threads.modify lane g }

/-- One thread, changed. -/
def State.updThread (s : State) (w lane : Nat) (g : Thread → Thread) : State :=
  { s with waves := s.waves.upd w fun x => x.updThread lane g }

/-- A workgroup by its number; one that has ended is as it ended, until another takes its place. -/
def State.wgAt (s : State) (wg : Nat) : Option Wg :=
  match s.wgs.find wg with
  | some y => some y
  | none => s.endedWgs.find wg

/-- One workgroup, changed: engine work that is issued runs on after the workgroup's end (R25). -/
def State.updWg (s : State) (wg : Nat) (g : Wg → Wg) : State :=
  { s with wgs := s.wgs.upd wg g, endedWgs := s.endedWgs.upd wg g }

/-- The local clock counter of core g (R19). -/
def State.clkOf (s : State) (g : Nat) : Nat := s.clks.getD g 0
/-- The clock counter of cluster k (R367). -/
def State.clusterClk (s : State) (k : Nat) : Nat := s.clks.getD (192 + k) 0
/-- The clock counter of the scheduler of die d (R367). -/
def State.schedClk (s : State) (d : Nat) : Nat := s.clks.getD (240 + d) 0

/-- One thread. -/
def State.thread? (s : State) (w lane : Nat) : Option Thread := (s.waves.find w).bind fun x => x.threads[lane]?

/-- The first key of Caller streams among the waves. -/
def callerKey : Nat := 24576

/-- The core a wave is resident on; none for a Caller. -/
def coreOfWave (w : Nat) : Option Nat := if w < callerKey then some (w / 128) else none

/-- The cluster a wave or a Caller belongs to. -/
def clusterOfWave (w : Nat) : Nat := if w < callerKey then w / 512 else w - callerKey

/-- The core whose clock counter, caches and fetch a unit uses: its own, for a Caller core 0 of its cluster (R224). -/
def fetchCore (w : Nat) : Nat := match coreOfWave w with | some g => g | none => 4 * clusterOfWave w

/-- The unit an issue unit decodes for (R52). -/
def Wave.unit (x : Wave) : Unit2 := if x.kind = .caller then .c else .w

/-- A free value of the spec, and the state that has used it. -/
def State.fresh (s : State) : Nat × State := (Config.free s.fv, { s with fv := s.fv + 1 })

/-! ### Bytes -/

/-- The place of a physical address: local memory, host memory or the memory of a peer (R275, R279). -/
def placeOf (loc peer pa : Nat) : Nat :=
  match loc with
  | 0 => pa
  | 1 => 2 ^ 52 + pa
  | _ => (2 + peer) * 2 ^ 52 + pa

/-- 0 for local memory, 1 for host memory, 2 + n for peer n. -/
def locOf (key : Nat) : Nat := key / 2 ^ 52

/-- A byte of physical memory; one that is not listed reads 0 (assumption 3). -/
def State.byte (s : State) (key : Nat) : Byte := NMap.get 0 s.mem key

/-- The bytes from a place upwards. -/
def State.bytes (s : State) (key n : Nat) : List Byte := (List.range n).map fun i => s.byte (key + i)

/-- The little-endian value of n bytes (R7). -/
def State.num (s : State) (key n : Nat) : Nat := leBytes (s.bytes key n)

/-- The memory with bytes written from a place upwards, kept in its canonical form. -/
def putBytes (m : List Host.Cell) (key : Nat) : List Byte → List Host.Cell
  | [] => m
  | b :: bs => putBytes (NMap.put 0 m key b) (key + 1) bs

/-- The canonical form of memory: addresses rise strictly, and no entry equals what an unlisted address reads as. -/
abbrev Memory.wf (m : List Host.Cell) : Bool := NMap.canonical (0 : Byte) m

/-- Bytes of a window, 0 where unlisted (assumption 3). -/
def winBytes (m : NMap Byte) (off n : Nat) : List Byte := (List.range n).map fun i => NMap.get 0 m (off + i)

/-- A window with bytes written. -/
def winPut (m : NMap Byte) (off : Nat) : List Byte → NMap Byte
  | [] => m
  | b :: bs => winPut (NMap.put 0 m off b) (off + 1) bs

/-- A value of n bytes as words of 32 bits, the lowest first. -/
def wordsOf (n v : Nat) : List Word := (List.range n).map fun i => BitVec.ofNat 32 (v / 2 ^ (32 * i))

/-- The value of words of 32 bits, the lowest first. -/
def ofWords : List Word → Nat
  | [] => 0
  | x :: xs => x.toNat + 2 ^ 32 * ofWords xs

/-! ### Reservations (R160 to R162) -/

/-- A write performed at a point clears every reservation held there on its grain, but the writer's own. -/
def Thread.dropResv (t : Thread) (pt : ResvAt) (grain : Nat) : Thread :=
  match t.resv with
  | some r => if r.pt = pt ∧ r.grain = grain then { t with resv := none } else t
  | none => t

/-- R162, first row: the reservations a write of a grain at a point clears. -/
def State.clearResv (s : State) (pt : ResvAt) (grain : Nat) (by_ : Option (Nat × Nat)) : State :=
  { s with waves := s.waves.map fun (k, x) =>
      (k, { x with threads := x.threads.mapIdx fun l t => if by_ = some (k, l) then t else t.dropResv pt grain }) }

/-- The grains that n bytes from a place touch. -/
def grainsOf (key n : Nat) : List Nat :=
  (List.range ((key + n + 31) / 32 - key / 32)).map fun i => key / 32 + i

/-- The sectors that n bytes from a place touch. -/
def sectorsOf (key n : Nat) : List Nat :=
  (List.range ((key + n + 63) / 64 - key / 64)).map fun i => key / 64 + i

/-- R162 over every grain of a write. -/
def State.clearResvs (s : State) (pt : ResvAt) (key n : Nat) (by_ : Option (Nat × Nat)) : State :=
  (grainsOf key n).foldl (fun s g => s.clearResv pt g by_) s

/-! ### Poison (R289) -/

/-- R289: a write of all 32 bytes of a grain clears its poison; a narrower one leaves it. -/
def State.healed (s : State) (key n : Nat) : State :=
  { s with poison := s.poison.filter fun g => !(decide (key ≤ 32 * g) && decide (32 * g + 32 ≤ key + n)) }

/-- One more event of a lifetime record (R413), counted until the next write to flash. -/
def Lifetime.count (l : Lifetime) (record : Nat) : Lifetime :=
  { l with live := l.live.ins record (NMap.get 0 l.live record + 1) }

/-- One more event of a lifetime record. -/
def State.countLife (s : State) (record : Nat) : State := { s with life := s.life.count record }

/-- The lifetime record of the uncorrectable errors of a GiB of local memory (R413). -/
def lifeError (gib : Nat) : Nat := 0x2000 + gib
/-- The lifetime record of the corrected errors of a GiB of local memory (R413). -/
def lifeCorrected (gib : Nat) : Nat := 0x1000 + gib
/-- The lifetime record of a bin of 8 °C of a stack's temperatures, from 24 °C upwards (R413). -/
def lifeTemp (stack bin : Nat) : Nat := 0x3000 + 16 * stack + bin
/-- The lifetime record of the CRC retries of a link: 0 to 7 a peer's, 8 the host's, 9 the die-to-die bus's (R413). -/
def lifeRetry (link : Nat) : Nat := 0x5000 + link
/-- The lifetime record of the retrains of a link (R413). -/
def lifeRetrain (link : Nat) : Nat := 0x4000 + link
/-- The lifetime record of the vertical-bus tests run (R413). -/
def lifeTests : Nat := 0x6000
/-- The lifetime record of a segment that was fenced (R413). -/
def lifeFenced (core seg : Nat) : Nat := 0x10000 + 64 * core + seg

/-- The errors that were corrected, the retries of links, the retrains of the die-to-die bus and the temperatures before a step are
counted (R289, R406, R413): which there were is a free value. They change nothing else. -/
def State.countCorrected (s : State) : State :=
  let real (n : Nat) : Bool :=
    ((List.range 192).any fun g => n == lifeCorrected g) || ((List.range 10).any fun l => n == lifeRetry l) ||
    n == lifeRetrain 9 || (List.range 2).any fun d => (List.range 16).any fun b => n == lifeTemp d b
  { s with life := ((Config.corrected s.ticks).filter real).foldl Lifetime.count s.life }

/-- A grain becomes poisoned, and the error is counted for its GiB of local memory (R289, R413). -/
def State.addPoison (s : State) (key : Nat) : State :=
  if s.poison.contains (key / 32) then s
  else
    let s1 := { s with poison := (key / 32) :: s.poison }
    if locOf key = 0 then s1.countLife (lifeError (key / 2 ^ 30)) else s1

/-! ### Homes, and the slices of L2 (R273, R275, R276) -/

/-- Bits hi:lo of a number. -/
def field (x hi lo : Nat) : Nat := x / 2 ^ lo % 2 ^ (hi + 1 - lo)

/-- Partition p's clusters and range on die d (R287, R288), as (CLMASK, BASE, LIMIT) in GiB. -/
def Die.part (x : Die) (p : Nat) : Nat × Nat × Nat :=
  let r := (x.l2part.getD p 0).toNat
  (field r 23 0, field r 47 32, field r 63 48)

/-- The slices of the partition that holds a local frame, numbered 64 × die + slice (R276, R286 to R288). -/
def State.sliceList (s : State) (key : Nat) : List Nat :=
  if (s.die 0).l2mode.getLsbD 0 then
    let gib := key / 2 ^ 30
    let of (d : Nat) : List Nat :=
      let x := s.die d
      let sl (p : Nat) : Nat := field x.l2mode.toNat (7 + 4 * p) (4 + 4 * p)
      (List.range 4).flatMap fun p =>
        let (_, base, limit) := x.part p
        if base ≤ gib ∧ gib < limit then
          let first := 8 * ((List.range p).foldl (fun a q => a + sl q) 0)
          (List.range (8 * sl p)).map fun i => 64 * d + first + i
        else []
    of 0 ++ of 1
  else List.range 128

/-- The hash home of a local frame among the slices of its partition (R276). -/
def State.hashHome (s : State) (frame : Nat) : Nat :=
  let x (lo : Nat) : Nat := frame / 2 ^ lo % 128
  let h := x 0 ^^^ x 7 ^^^ x 14 ^^^ x 21 ^^^ x 28 ^^^ (frame / 2 ^ 35 % 32)
  let l := s.sliceList (frame * 4096)
  l.getD (h % l.length) 0

/-- The home of a place: a slice of the device (R275, R283), or a number above them for the host link and each peer. -/
def State.homeOf (s : State) (key : Nat) : Nat :=
  match locOf key with
  | 0 =>
    (match s.homes.find (key / 4096) with
     | some n => n
     | none => s.hashHome (key / 4096))
  | n => 127 + n

/-- A list without its repeats. -/
def distinct {α : Type} [DecidableEq α] : List α → List α
  | [] => []
  | x :: l => if x ∈ l then distinct l else x :: distinct l

/-- Some command of the group's engines names a binding of a handle. -/
def State.named (s : State) (g : Group) (hnd inst : Nat) : Bool :=
  g.members.any fun m => (s.core (4 * g.cluster + m.1)).engine.queue.any fun q =>
    match q.cmd with
    | .mma _ _ _ (some (h, i)) _ _ _ => h == hnd && i == inst
    | _ => false

/-- A binding holds its pins: it is bound, or an `mma` that named it before its release is not complete (R236). -/
def State.pinned (s : State) (g : Group) (n : Nat) (h : Handle) : Bool := h.bound || s.named g n h.inst

/-- The lines that tile fetches pin (R235). -/
def State.pins (s : State) : List Nat :=
  distinct (s.groups.flatMap fun e => e.2.handles.flatMap fun h =>
    if s.pinned e.2 h.1 h.2 then (h.2.rows ++ h.2.scales).map fun r => r.2 / 256 else [])

/-- The lines that tile fetches pin are held in their sets, and so are those with a version of an open set in them (R273). -/
def State.lineHeld (s : State) (line : Nat) : Bool :=
  s.pins.contains line || s.versions.any fun v => v.sector / 4 == line && !v.ovf

/-- The lines that the slice of a line holds in its set. Which set a line goes to is not stated (DESIGN CHOICE,
assumption 26). -/
def State.setLines (s : State) (line : Nat) : List Nat :=
  (s.l2.map Prod.fst).filter fun n => n % 1024 == line % 1024 && s.homeOf (256 * n) == s.homeOf (256 * line)

/-- A way for one more line in its set of 16 (R273): a line that nothing holds is evicted where the set is full, and a free value
says which; its D sectors are then in memory. None where every way is held. -/
def State.makeWay (s : State) (line : Nat) : Option State :=
  let here := s.setLines line
  if here.length < 16 then some s
  else
    match here.filter fun n => !s.lineHeld n with
    | [] => none
    | go => let (k, s1) := s.fresh; some { s1 with l2 := s1.l2.del (go.getD (k % go.length) 0) }

/-- A line with one of its sectors read or written (R273). -/
def L2Line.mark (x : L2Line) (i : Nat) (wr : Bool) : L2Line :=
  { x with secs := x.secs.modify i fun y => if wr then .d else if y = .i then .c else y }

/-- A sector of local memory is read or written at its home (R273); where its set has no way, that is done in memory. -/
def State.touch (s : State) (sector : Nat) (wr : Bool) : State :=
  if locOf (64 * sector) ≠ 0 then s
  else
    match s.l2.find (sector / 4) with
    | some x => { s with l2 := s.l2.ins (sector / 4) (x.mark (sector % 4) wr) }
    | none =>
      match s.makeWay (sector / 4) with
      | some s1 => { s1 with l2 := s1.l2.ins (sector / 4) (({ secs := [.i, .i, .i, .i] } : L2Line).mark (sector % 4) wr) }
      | none => s

/-! ### Facet sets and versions (R316 to R326) -/

/-- The set, not FREE, whose window holds the frame of a place, with its number (R319, R322). -/
def State.windowOf (s : State) (key : Nat) : Option (Nat × FSet) :=
  ((List.range 4).map fun i => (i, s.sets.getD i .fresh)).find? fun e =>
    decide (e.2.st ≠ .free) && e.2.frames.contains (key / 4096)

/-- The set, in PREFIX, OPEN or RESOLVING, whose window holds the frame of a place. -/
def State.frozenOf (s : State) (key : Nat) : Option (Nat × FSet) :=
  (s.windowOf key).filter fun e => decide (e.2.st ≠ .retiring)

/-- SET of a version tag (R317). -/
def tagSet (tag : BitVec 5) : Nat := tag.toNat / 8
/-- FACET of a version tag (R317). -/
def tagFacet (tag : BitVec 5) : Nat := tag.toNat % 8

/-- The facet whose versions an access with a tag uses at a place, if any: the set is OPEN or RESOLVING and the tag is a
facet of it (R325). What the winner of a commit issued after it began is held and does not come here. -/
def State.versionTag (s : State) (tag : Option (BitVec 5)) (key : Nat) : Option (Nat × Nat) :=
  match s.windowOf key, tag with
  | some (i, x), some t =>
    if tagSet t = i ∧ tagFacet t ≠ 0 ∧ (x.st = .opened ∨ x.st = .resolving) then
      some (i, tagFacet t)
    else none
  | _, _ => none

/-- The version of a sector that a facet of a set holds. -/
def State.version (s : State) (set facet sector : Nat) : Option Version :=
  s.versions.find? fun v => v.set == set && v.facet == facet && v.sector == sector

/-- Byte i of a sector's data. -/
def sectorByte (d : BitVec 512) (i : Nat) : Byte := d.extractLsb' (8 * i) 8

/-- A sector's data with bytes written from byte i. -/
def sectorPut (d : BitVec 512) (i : Nat) : List Byte → BitVec 512
  | [] => d
  | b :: bs =>
    let m : BitVec 512 := (0xFF : BitVec 512) <<< (8 * i)
    sectorPut ((d &&& ~~~m) ||| ((b.setWidth 512) <<< (8 * i))) (i + 1) bs

/-- The poison of the grains of a sector of which n bytes are written from byte i on: a grain written whole loses it (R289). -/
def poisonAfter (p : BitVec 2) (i n : Nat) : BitVec 2 :=
  let keep (r : Nat) : Bool := p.getLsbD r && !(decide (i ≤ 32 * r) && decide (32 * r + 32 ≤ i + n))
  BitVec.ofNat 2 (b2n (keep 0) + 2 * b2n (keep 1))

/-- The poison of a sector's two grains in base. -/
def State.basePoison (s : State) (sector : Nat) : BitVec 2 :=
  BitVec.ofNat 2 (b2n (s.poison.contains (2 * sector)) + 2 * b2n (s.poison.contains (2 * sector + 1)))

/-- The poison of a sector's two grains in base, replaced. -/
def State.setPoison (s : State) (sector : Nat) (p : BitVec 2) : State :=
  { s with poison := s.poison.filter (fun g => g / 2 != sector) ++
      ((List.range 2).filter p.getLsbD).map fun i => 2 * sector + i }

/-- The base data of a sector. -/
def State.sectorBase (s : State) (sector : Nat) : BitVec 512 := BitVec.ofNat 512 (s.num (64 * sector) 64)

/-- The bytes of a sector's data. -/
def sectorBytes (d : BitVec 512) : List Byte := (List.range 64).map (sectorByte d)

/-- The winner's version that base reads as while the set retires (R325: promotion changes no value). -/
def State.retired (s : State) (key : Nat) : Option Version :=
  match s.windowOf key with
  | some (i, x) => if x.st = .retiring ∧ x.winner ≠ 0 then s.version i x.winner (key / 64) else none
  | none => none

/-- A byte as an access with a tag reads it at the home (R325). -/
def State.homeByte (s : State) (tag : Option (BitVec 5)) (key : Nat) : Byte :=
  match s.versionTag tag key with
  | some (i, f) =>
    (match s.version i f (key / 64) with
     | some v => sectorByte v.data (key % 64)
     | none => s.byte key)
  | none =>
    match s.retired key with
    | some v => sectorByte v.data (key % 64)
    | none => s.byte key

/-- A grain is poisoned as an access with a tag reads it at the home (R289, R325). -/
def State.grainPoisoned (s : State) (tag : Option (BitVec 5)) (g : Nat) : Bool :=
  match (match s.versionTag tag (32 * g) with
    | some (i, f) => s.version i f (g / 2)
    | none => s.retired (32 * g)) with
  | some v => v.poison.getLsbD (g % 2)
  | none => s.poison.contains g

/-- Some grain of the bytes is poisoned for an access with a tag. -/
def State.poisonedFor (s : State) (tag : Option (BitVec 5)) (key n : Nat) : Bool := (grainsOf key n).any (s.grainPoisoned tag)

/-- Some grain of the bytes is poisoned in base. -/
def State.poisoned (s : State) (key n : Nat) : Bool := s.poisonedFor none key n

/-- A grain becomes poisoned where an access with a tag meets it: in its version, if it has one, else in base (R289). -/
def State.strikeGrain (s : State) (tag : Option (BitVec 5)) (key : Nat) : State :=
  match s.versionTag tag key with
  | some (i, f) =>
    if (s.version i f (key / 64)).isSome then
      let hit (v : Version) : Version :=
        if v.set == i && v.facet == f && v.sector == key / 64 then
          { v with poison := v.poison ||| BitVec.ofNat 2 (2 ^ (key / 32 % 2)) }
        else v
      { s with versions := s.versions.map hit }.countLife (lifeError (key / 2 ^ 30))
    else s.addPoison key
  | none => s.addPoison key

/-- Bytes as an access with a tag reads them at the home. -/
def State.homeBytes (s : State) (tag : Option (BitVec 5)) (key n : Nat) : List Byte :=
  (List.range n).map fun i => s.homeByte tag (key + i)

/-- R325, promote: in a retiring set the winner's versions of the line become base, and its other versions are freed. -/
def State.promote (s : State) (key : Nat) : State :=
  match s.windowOf key with
  | some (i, x) =>
    if x.st = .retiring then
      let line := key / 256
      let mine (v : Version) : Bool := v.set == i && v.sector / 4 == line
      let s1 := (s.versions.filter fun v => mine v && v.facet == x.winner).foldl
        (fun s v => (({ s with mem := putBytes s.mem (64 * v.sector) (sectorBytes v.data) } : State).setPoison v.sector
          v.poison).touch v.sector true) s
      { s1 with versions := s1.versions.filter fun v => !mine v }
    else s
  | none => s

/-- Bytes read at the home: a line of a retiring set is promoted first (R325), and the sectors are in L2 after (R273). -/
def State.atHome (s : State) (key n : Nat) : State := (sectorsOf key n).foldl (fun s i => (s.promote (64 * i)).touch i false) s

/-- R324: the facet's version of a sector, created from base if it is absent: in one of the sector's four slots where its line has
a way in L2, else in the overflow area. None when the overflow area has no free entry (R326). -/
def State.makeVersion (s : State) (set facet sector : Nat) : Option State :=
  match s.version set facet sector with
  | some _ => some s
  | none =>
    let here := (s.versions.filter fun v => v.sector == sector && !v.ovf).length
    let ovf := (s.versions.filter fun v => v.set == set && v.ovf).length
    let new (s : State) (o : Bool) : State :=
      { s with versions := s.versions ++ [⟨set, facet, sector, o, s.sectorBase sector, s.basePoison sector⟩] }
    let beside := if ovf < (s.sets.getD set .fresh).ovfn then some (new s true) else none
    if here < 4 then
      match if (s.l2.find (sector / 4)).isSome || locOf (64 * sector) != 0 then some s else s.makeWay (sector / 4) with
      | some s1 => some (new (s1.touch sector false) false)
      | none => beside
    else beside

/-- What the grains of a write hold before it is kept for the regions in whose constant windows they are (R157). -/
def State.noteConst (s : State) (key n : Nat) (by_ : Option (Nat × Nat)) : State :=
  let live := s.regions.filter fun e => !e.2.consts.isEmpty && decide (e.2.st ≠ .ended) && decide (e.2.st ≠ .killed)
  if live.isEmpty then s
  else
    let old (g : Nat) : List ConstOld := (live.filter fun e => e.2.consts.contains (g / 128)).map fun e =>
      ⟨e.1, g, s.homeBytes none (32 * g) 32, by_⟩
    { s with constOld := (grainsOf key n).flatMap old ++ s.constOld }

/-- Bytes within one sector written at the home by an access with a tag. -/
def State.homeWrite1 (s : State) (tag : Option (BitVec 5)) (by_ : Option (Nat × Nat)) (key : Nat) (bs : List Byte) :
    Option State :=
  match s.versionTag tag key with
  | some (i, f) =>
    (s.makeVersion i f (key / 64)).map fun s1 =>
      ({ s1 with versions := s1.versions.map fun v =>
          if v.set == i && v.facet == f && v.sector == key / 64 then
            { v with data := sectorPut v.data (key % 64) bs, poison := poisonAfter v.poison (key % 64) bs.length }
          else v } : State).clearResvs .home key bs.length by_
  | none =>
    let s1 := ((s.noteConst key bs.length by_).promote key).touch (key / 64) true
    some (({ s1 with mem := putBytes s1.mem key bs } : State).healed key bs.length
      |>.clearResvs .home key bs.length by_)

/-- The pieces of n bytes from a place, cut at sectors, in ascending order: place and length. -/
def sectorPieces (key n : Nat) : List (Nat × Nat) :=
  (sectorsOf key n).map fun sec =>
    let lo := max key (64 * sec)
    let hi := min (key + n) (64 * sec + 64)
    (lo, hi - lo)

/-- A write performed at the home (R322, R324, R325): the state after it, or the place of the sector whose version found
no room (R326), with the pieces below it performed. -/
def State.homeWrite (s : State) (tag : Option (BitVec 5)) (by_ : Option (Nat × Nat)) (key : Nat) (bs : List Byte) :
    Except (Nat × State) State :=
  (sectorPieces key bs.length).foldl
    (fun r p => match r with
      | .error e => .error e
      | .ok s =>
        match s.homeWrite1 tag by_ p.1 ((bs.drop (p.1 - key)).take p.2) with
        | some s1 => .ok s1
        | none => .error (p.1 / 64 * 64, s))
    (.ok s)

/-- A write of base that no version can refuse: the device's own writes and those of agents outside every set. -/
def State.baseWrite (s : State) (key : Nat) (bs : List Byte) : State :=
  match s.homeWrite none none key bs with
  | .ok s1 => s1
  | .error e => e.2

/-- A value of n bytes written at its home as base. -/
def State.putNum (s : State) (key n v : Nat) : State := s.baseWrite key (toLe n v)

/-! ### The cores' copies (R274, R278) -/

/-- The core has cache-role banks (R192, R274). -/
def Core.caches (c : Core) : Bool := decide (c.scrn + c.tobn < 32)

/-- The drop of a core's copy clears the reservations it holds on the sector's grains (R162). -/
def State.dropCopy (s : State) (g sector : Nat) : State :=
  let c := s.core g
  ((s.setCore g { c with copies := c.copies.del sector }).clearResv (.core g) (2 * sector) none).clearResv (.core g)
    (2 * sector + 1) none

/-- The poisoned grains of a copy poison those they are written to (R289). -/
def State.spread (s : State) (sector : Nat) (x : Copy) : State :=
  let new := (List.range 2).filter fun i => x.poison.getLsbD i && !s.poison.contains (2 * sector + i)
  { s with poison := s.poison ++ new.map fun i => 2 * sector + i }

/-- R274, R296: the write-back of a D sector is one store of its 64 bytes at the home. -/
def State.writeBack (s : State) (g sector : Nat) : State :=
  let c := s.core g
  match c.copies.find sector with
  | some x =>
    if x.dirty then
      ((s.setCore g { c with copies := c.copies.ins sector { x with dirty := false, svc := false } }).baseWrite
        (64 * sector) (sectorBytes x.data)).spread sector x
    else s
  | none => s

/-- R278: every D sector of a core is written back. -/
def State.writeBackAll (s : State) (g : Nat) : State :=
  (s.core g).copies.foldl (fun s e => s.writeBack g e.1) s

/-- R247, R278: the D sectors that the service wave dirtied are written back. -/
def State.writeBackSvc (s : State) (g : Nat) : State :=
  (s.core g).copies.foldl (fun s e => if e.2.svc then s.writeBack g e.1 else s) s

/-- R278: every C sector of class P that a core holds is dropped. -/
def State.dropClean (s : State) (g : Nat) : State :=
  (s.core g).copies.foldl
    (fun s e => if decide (e.2.cls = .p) && !e.2.dirty then s.dropCopy g e.1 else s) s

/-- R278: write back and drop the copies of a core that satisfy a condition on their sector. -/
def State.dropWhere (s : State) (g : Nat) (cond : Nat → Bool) : State :=
  (s.core g).copies.foldl (fun s e => if cond e.1 then (s.writeBack g e.1).dropCopy g e.1 else s) s

/-- Eviction of a sector: it is written back if it is dirty, and dropped (R278). -/
def State.evict (s : State) (g sector : Nat) : State := (s.writeBack g sector).dropCopy g sector

/-- The sectors that a core's cache-role banks of 128 KiB hold (R192, R274). -/
def Core.room (c : Core) : Nat := (32 - (c.scrn + c.tobn)) * 2048

/-- Room is made for one more sector: a free value says which sector goes, if one does, and one goes where the banks are
full (no rule names the sector that is evicted). -/
def State.makeRoom (s : State) (g : Nat) : State :=
  let l := (s.core g).copies.map Prod.fst
  match l with
  | [] => s
  | _ =>
    let (n, s1) := s.fresh
    match l[n % (if (s.core g).room ≤ l.length then l.length else l.length + 1)]? with
    | some v => s1.evict g v
    | none => s1

/-- The copy of a sector in a core, filled from the home where the core holds none (R274, R277). -/
def State.fill (s : State) (g sector : Nat) (cls : PgCls) : State :=
  match (s.core g).copies.find sector with
  | some _ => s
  | none =>
    let s1 := (s.makeRoom g).atHome (64 * sector) 64
    let c := s1.core g
    let d := BitVec.ofNat 512 (leBytes (s1.homeBytes none (64 * sector) 64))
    s1.setCore g { c with copies := c.copies.ins sector ⟨cls, false, d, false, s1.basePoison sector⟩ }

/-- Some grain of the bytes is poisoned in a core's copy (R289). -/
def State.copyPoisoned (s : State) (g key n : Nat) : Bool :=
  (grainsOf key n).any fun r => match (s.core g).copies.find (r / 2) with
    | some x => x.poison.getLsbD (r % 2)
    | none => s.poison.contains r

/-- The poison of a copy after a write of so many bytes from byte i of the sector (R289). -/
def Copy.healed (x : Copy) (i n : Nat) : BitVec 2 := poisonAfter x.poison i n

/-- A byte as a core's copy holds it. -/
def State.coreByte (s : State) (g key : Nat) : Byte :=
  match (s.core g).copies.find (key / 64) with
  | some x => sectorByte x.data (key % 64)
  | none => s.homeByte none key

/-- Bytes read in a core's copy, with the sectors they touch filled. -/
def State.coreRead (s : State) (g key n : Nat) (cls : PgCls) : State × List Byte :=
  let s1 := (sectorsOf key n).foldl (fun s sec => s.fill g sec cls) s
  (s1, (List.range n).map fun i => s1.coreByte g (key + i))

/-- Bytes written in a core's copy of class P; the sectors become D (R277). -/
def State.coreWrite (s : State) (g key : Nat) (bs : List Byte) (svc : Bool) (by_ : Option (Nat × Nat)) : State :=
  let s1 := (sectorPieces key bs.length).foldl
    (fun s p =>
      let s2 := s.fill g (p.1 / 64) .p
      let c := s2.core g
      match c.copies.find (p.1 / 64) with
      | some x =>
        let data := sectorPut x.data (p.1 % 64) ((bs.drop (p.1 - key)).take p.2)
        let y : Copy := { x with dirty := true, svc := x.svc || svc, data := data, poison := x.healed (p.1 % 64) p.2 }
        s2.setCore g { c with copies := c.copies.ins (p.1 / 64) y }
      | none => s2) s
  s1.clearResvs (.core g) key bs.length by_

end Sys2Proof.Machine
end

