-- ==== Sys2Proof/Machine/Mmu.lean ====
section
/-! DEFINITION. Translation: table entries, the walk, permissions, page classes and partitions (16_die_l2_copy.md R279 to
R282, R288), and the tree of regions it charges (21_regions_scheduling.md R349, R364). -/

namespace Sys2Proof.Machine

open Sys2Proof

/-- A fault as a rule names it: code, subcode, the faulting address if the record has one (AV), whether the access
writes, and detail words 0 and 1 (R49, R164). `bad` is the place of a table entry whose reading met an uncorrectable error
(R280). -/
structure Flt where
  code : BitVec 8
  sub : BitVec 8
  addr : Option Nat := none
  wr : Bool := false
  det0 : Nat := 0
  det1 : Nat := 0
  bad : Option Nat := none
  deriving DecidableEq, Repr

/-! ### Regions -/

/-- An accepted region. -/
def State.region? (s : State) (r : Nat) : Option Region := s.regions.find r

/-- One region, changed. -/
def State.updRegion (s : State) (r : Nat) (g : Region → Region) : State := { s with regions := s.regions.upd r g }

/-- A region and its ancestors, nearest first, at most `fuel` of them. -/
def ancestorsFrom (m : NMap Region) : Nat → Nat → List Nat
  | 0, _ => []
  | fuel + 1, r =>
    match m.find r with
    | none => []
    | some x =>
      match x.parent with
      | none => [r]
      | some p => r :: ancestorsFrom m fuel p

/-- A region and its ancestors, nearest first. -/
def State.ancestors (s : State) (r : Nat) : List Nat := ancestorsFrom s.regions s.regions.length r

/-- Region d is r or a descendant of r. -/
def State.under (s : State) (r d : Nat) : Bool := (s.ancestors d).contains r

/-- The subtree of a region: itself and its descendants. -/
def State.subtree (s : State) (r : Nat) : List Nat := (s.regions.map Prod.fst).filter fun d => s.under r d

/-- The address-space root of a region's work (R349). -/
def State.asrOf (s : State) (r : Nat) : Nat := match s.region? r with | some x => x.rcb.asr | none => 0

/-- The version tag of a region's agents (R317). -/
def State.tagOf (s : State) (r : Nat) : Option (BitVec 5) := (s.region? r).bind fun x => x.tag

/-- The region is marked system (R349). -/
def State.isSys (s : State) (r : Nat) : Bool := match s.region? r with | some x => x.rcb.sys | none => false

/-- The region belongs to a facet, and is no prefix region. -/
def facetOf (tag : Option (BitVec 5)) : Option (Nat × Nat) :=
  tag.bind fun t => if tagFacet t = 0 then none else some (tagSet t, tagFacet t)

/-! ### Table entries and the walk -/

/-- What an access needs of a page (R280): it reads, it writes, or it fetches. -/
inductive Need where
  | rd | wr | ex
  deriving DecidableEq, Repr

/-- A virtual address is canonical: bits 63:48 equal bit 47 (R279). -/
def canonicalVa (va : Nat) : Bool := va / 2 ^ 47 == 0 || va / 2 ^ 47 == 2 ^ 17 - 1

/-- The size of a leaf at a level (R279). -/
def leafSize (level : Nat) : Nat := 2 ^ (12 + 9 * (4 - level))

/-- CLS of R279. -/
def pgClsOf : Nat → PgCls
  | 0 => .r | 1 => .p | _ => .h

/-- The entry is ill-formed at its level (R279). -/
def pteBad (e level : Nat) : Bool :=
  let leaf := field e 4 4 == 1
  let loc := field e 55 54
  let cls := field e 53 52
  let peer := field e 58 56
  field e 63 59 != 0 || field e 11 5 != 0 || loc == 3 || cls == 3 || (loc != 2 && peer != 0) ||
  (level == 1 && leaf) || (level == 4 && !leaf) ||
  (leaf && field e 51 12 * 4096 % leafSize level != 0) ||
  (!leaf && (cls != 0 || loc != 0 || peer != 0 || field e 3 1 != 0)) ||
  (leaf && loc != 0 && cls != 2)

/-- The leaf an entry is (R279). -/
def pteLeaf (asr va e level : Nat) : Leaf :=
  { asr := asr, va := va / leafSize level * leafSize level, size := leafSize level
    key := placeOf (field e 55 54) (field e 58 56) (field e 51 12 * 4096)
    cls := pgClsOf (field e 53 52), rd := field e 1 1 == 1, wr := field e 2 2 == 1, ex := field e 3 3 == 1 }

/-- The outcome of a walk: a leaf, or a fault with the place of the entry that met an uncorrectable error. -/
inductive WalkRes where
  | leaf (l : Leaf)
  | fault (f : Flt) (bad : Option Nat)
  deriving DecidableEq, Repr

/-- The walk from a table at a level (R279, R280 steps 1 to 3). -/
def walkFrom (s : State) (asr va : Nat) : Nat → Nat → Nat → WalkRes
  | 0, _, _ => .fault { code := 4, sub := 1, addr := some va } none
  | fuel + 1, level, table =>
    let key := table + 8 * (va / leafSize level % 512)
    let e := leBytes (s.homeBytes none key 8)
    if e % 2 = 0 then .fault { code := 4, sub := 0, addr := some va } none
    else if pteBad e level then .fault { code := 4, sub := 1, addr := some va } none
    else if s.poisoned key 8 then .fault { code := 4, sub := 3, addr := some va } (some key)
    else if field e 4 4 = 1 then .leaf (pteLeaf asr va e level)
    else walkFrom s asr va fuel (level + 1) (field e 51 12 * 4096)

/-- The entries of levels 1 to 3 that a walk from a table at a level reads. -/
def walkEnts (s : State) (asr va : Nat) : Nat → Nat → Nat → List WalkEnt
  | 0, _, _ => []
  | fuel + 1, level, table =>
    let key := table + 8 * (va / leafSize level % 512)
    let e := leBytes (s.homeBytes none key 8)
    if e % 2 = 0 || pteBad e level || s.poisoned key 8 || field e 4 4 == 1 then []
    else
      let next := field e 51 12 * 4096
      ⟨asr, level, va / leafSize level * leafSize level, next⟩ :: walkEnts s asr va fuel (level + 1) next

/-- The walk of a virtual address in an address space (R279). -/
def State.walk (s : State) (asr va : Nat) : WalkRes :=
  if !canonicalVa va then .fault { code := 4, sub := 2, addr := some va } none else walkFrom s asr va 4 1 asr

/-- The deepest entry of a walk cache on the way to an address (R281). -/
def walkHit (t : List WalkEnt) (asr va : Nat) : Option WalkEnt :=
  let on (n : Nat) : Option WalkEnt :=
    t.find? fun e => e.asr == asr && e.level == n && e.va == va / leafSize n * leafSize n
  match on 3, on 2, on 1 with
  | some e, _, _ | none, some e, _ | none, none, some e => some e
  | none, none, none => none

/-- A walk by a walker of a die (R281): it starts at the deepest entry that the walk cache holds, and the entries that it reads
are held there after, 1,024 of them at most. -/
def State.walkBy (s : State) (die asr va : Nat) : State × WalkRes :=
  if !canonicalVa va then (s, s.walk asr va)
  else
    let d := s.die die
    let (level, table) := match walkHit d.tables asr va with
      | some e => (e.level + 1, e.table)
      | none => (1, asr)
    let new := walkEnts s asr va (5 - level) level table
    let put (t : List WalkEnt) (e : WalkEnt) : List WalkEnt := (e :: t.filter fun x => !decide (x = e)).take 1024
    (if new.isEmpty then s else s.setDie die { d with tables := new.foldl put d.tables },
      walkFrom s asr va (5 - level) level table)

/-- The leaf maps the address. -/
def Leaf.maps (l : Leaf) (asr va : Nat) : Bool := l.asr == asr && l.va == va / l.size * l.size

/-- The entry of a TLB for an address (R281). -/
def tlbFind (t : List Leaf) (asr va : Nat) : Option Leaf := t.find? fun l => l.maps asr va

/-- A TLB with a leaf installed: the newest first, the oldest out when it is full (R281). -/
def tlbPut (t : List Leaf) (cap : Nat) (l : Leaf) : List Leaf := (l :: t.filter fun x => !decide (x = l)).take cap

/-- The set of a leaf in a cluster TLB of 1,024 sets of 8 ways. R281 gives the ways; which set a leaf goes to is not stated
(DESIGN CHOICE, assumption 26). -/
def Leaf.way (l : Leaf) : Nat := l.va / l.size % 1024

/-- A cluster TLB with a leaf installed: the oldest leaf of its set goes out where the set is full (R281). -/
def tlbPutWay (t : List Leaf) (l : Leaf) : List Leaf :=
  let same := t.filter fun x => !decide (x = l) && x.way == l.way
  l :: t.filter fun x => !decide (x = l) && (x.way != l.way || (same.take 7).contains x)

/-- Who makes an access: its region, its cluster, and its core if it has one. -/
structure Agent where
  rgn : Nat
  cluster : Nat
  core : Option Nat
  deriving DecidableEq, Repr

/-- The agent of a wave or a Caller. -/
def Wave.agent (x : Wave) (w : Nat) : Agent := ⟨x.rgn, clusterOfWave w, coreOfWave w⟩

/-- The leaf in every TLB the agent asks (R281). -/
def State.install (s : State) (a : Agent) (l : Leaf) : State :=
  let c := s.cluster a.cluster
  let s1 := s.setCluster a.cluster { c with tlb := tlbPutWay c.tlb l }
  match a.core with
  | none => s1
  | some g => let c := s1.core g; s1.setCore g { c with tlb := tlbPut c.tlb 512 l }

/-- R282: a leaf that refused an access is dropped from the agent's TLBs. -/
def State.uninstall (s : State) (a : Agent) (l : Leaf) : State :=
  let c := s.cluster a.cluster
  let s1 := s.setCluster a.cluster { c with tlb := c.tlb.filter fun x => !decide (x = l) }
  match a.core with
  | none => s1
  | some g => let c := s1.core g; s1.setCore g { c with tlb := c.tlb.filter fun x => !decide (x = l) }

/-! ### Translations of the host (R417) -/

/-- What a function's requests to host memory carry, as one number: its requester ID in bits 4:0 and its PASID above it (R414, R416). -/
def State.hostId (s : State) (fn : Nat) : Nat := fn + 32 * (s.fns.getD fn .fresh).pasid.toNat

/-- The function whose requester ID and PASID the accesses of a region carry (R416). -/
def State.fnOf (s : State) (rgn : Nat) : Nat := match s.region? rgn with | some x => x.fn | none => 0

/-- The translation the host has given for a host page of a function, if any (R417). -/
def State.atsFor (s : State) (fn key : Nat) : Option Leaf :=
  s.ats.find? fun l => l.asr == s.hostId fn && l.va == key / l.size * l.size

/-- A translation is one of the function and meets the range of an Invalidate Request (R417). -/
def Leaf.inRange (l : Leaf) (r : AtsInval) : Bool :=
  l.asr % 32 == r.base.fn && decide (l.va < 2 ^ 52 + r.base.addr + r.size) && decide (2 ^ 52 + r.base.addr < l.va + l.size)

/-- The translation that an access may use: none that a pending Invalidate Request names (R417). -/
def State.atsOf (s : State) (fn key : Nat) : Option Leaf := (s.atsFor fn key).filter fun l => !s.atsPending.any l.inRange

/-- The place that a leaf's place stands for: on a host page, that of the host's translation for the function. Where the device holds
none that may be used, and does not wait for one, its own request is answered with a frame that is free (assumption 66). -/
def State.hostKey (s : State) (fn key : Nat) : Nat :=
  if locOf key ≠ 1 then key
  else
    match s.atsOf fn key with
    | some t => t.key + (key - t.va)
    | none => 2 ^ 52 + Config.hostFrame (s.hostId fn) ((key - 2 ^ 52) / 4096) % 2 ^ 40 * 4096 + key % 4096

/-- A Translation Request of a function for a host page is sent, if none is on its way (R417). -/
def State.askHost (s : State) (fn key : Nat) : State :=
  let q : HostAddr := ⟨fn, (key - 2 ^ 52) / 4096 * 4096⟩
  if s.transReqs.contains q then s else { s with transReqs := s.transReqs ++ [q] }

/-- A Page Request of a function for a host page is sent where the interface is enabled, and not more than 512 of the function are
on their way (R414, R417). -/
def State.askPage (s : State) (fn key : Nat) : State :=
  let q : HostAddr := ⟨fn, (key - 2 ^ 52) / 4096 * 4096⟩
  if !Config.pri fn || s.pageReqs.contains q || decide (512 ≤ (s.pageReqs.filter fun p => p.fn == fn).length) then s
  else { s with pageReqs := s.pageReqs ++ [q] }

/-! ### The memory quota (R364) -/

/-- The frames of a leaf in local memory. -/
def Leaf.frames (l : Leaf) : List Nat := (List.range (l.size / 4096)).map fun i => l.key / 4096 + i

/-- The place of a device address in an address space, as the device itself reads and writes it for a function, without a TLB. -/
def State.place (s : State) (fn asr va : Nat) : Option (Nat × Leaf) :=
  match s.walk asr va with
  | .leaf l => some (s.hostKey fn (l.key + (va - l.va)), l)
  | .fault _ _ => none

/-- The frames of a leaf whose bit in the charge bitmap is clear, with the place of the byte that holds the bit. A frame
beyond the 6 MiB of the bitmap has no bit. -/
def State.uncharged (s : State) (root : Region) (l : Leaf) : List (Nat × Nat) :=
  if locOf l.key ≠ 0 ∨ root.rcb.chgb = 0 then []
  else
    l.frames.filterMap fun f =>
      if 6 * 2 ^ 20 ≤ f / 8 then none
      else
        match s.place root.fn root.rcb.asr (root.rcb.chgb.toNat + f / 8) with
        | some (key, _) => if (s.byte key).toNat.testBit (f % 8) then none else some (f, key)
        | none => none

/-- The outcome of an installation: the leaf is charged and may be installed, or a region's quota would be passed. -/
inductive ChargeRes where
  | ok (s : State)
  | beyond (rgn : Nat)
  deriving DecidableEq, Repr

/-- The regions that are charged for what a region does: itself, where it has budgets of its own, and its ancestors (R349). -/
def State.payers (s : State) (rgn : Nat) : List Nat :=
  (s.ancestors rgn).filter fun r => r != rgn || match s.region? r with | some y => y.rcb.ownb | none => false

/-- R364: the frames of a leaf are charged to the region and its ancestors (R349), or the first whose MEMQ would be passed is
named and nothing changes. -/
def State.charge (s : State) (rgn : Nat) (l : Leaf) : ChargeRes :=
  match s.region? rgn with
  | none => .ok s
  | some x =>
    match s.region? x.root with
    | none => .ok s
    | some root =>
      let new := s.uncharged root l
      let ups := s.payers rgn
      let hit := ups.find? fun r =>
        match s.region? r with
        | some y => y.rcb.ownb && decide (y.rcb.memq ≠ 0 ∧ y.rcb.memq < y.memu + new.length)
        | none => false
      match hit with
      | some r => .beyond r
      | none =>
        let s1 := new.foldl (fun s (fk : Nat × Nat) =>
          s.putNum fk.2 1 ((s.byte fk.2).toNat ||| 2 ^ (fk.1 % 8))) s
        .ok (ups.foldl (fun s r =>
          let s2 := s.updRegion r fun y => { y with memu := y.memu + new.length }
          match s2.region? r with
          | some y => s2.putNum (y.rcbKey + 0xD0) 8 y.memu
          | none => s2) s1)

/-! ### Translation of one part -/

/-- The outcome of translating an address for an agent: a leaf; a fault; a quota that would be passed, with the region
whose it is; or a wait for the host's address translation, which is asked for (R417). -/
inductive TransRes where
  | ok (s : State) (l : Leaf)
  | fault (s : State) (f : Flt)
  | quota (s : State) (rgn : Nat)
  | wait (s : State)
  deriving DecidableEq, Repr

/-- R280 step 6, R288: a local frame lies in the partition of the cluster. In shared mode that is all local memory. -/
def State.inPartition (s : State) (cluster key : Nat) : Bool :=
  locOf key != 0 ||
  (let x := s.die (cluster / 24)
   (List.range 4).any fun p =>
     let (mask, base, limit) := x.part p
     mask.testBit (cluster % 24) && decide (base ≤ key / 2 ^ 30) && decide (key / 2 ^ 30 < limit))

/-- The checks of a leaf for an access in the order of R280: permission, class, partition. `clsOk` gives the subcode with
which the access is refused on a page of a class, if it is (R277). -/
def State.checkLeaf (s : State) (a : Agent) (l : Leaf) (va : Nat) (need : Need)
    (clsOk : PgCls → Option (BitVec 8)) : Option Flt :=
  let wr := need == .wr
  let permitted := match need with
    | .rd => l.rd
    | .wr => l.wr || l.cls == .r
    | .ex => l.ex
  if !permitted then some { code := 5, sub := 0, addr := some va, wr := wr }
  else
    match clsOk l.cls with
    | some sub => some { code := 5, sub := sub, addr := some va, wr := wr }
    | none =>
      if s.inPartition a.cluster (l.key + (va - l.va)) then none
      else some { code := 5, sub := 0x0C, addr := some va, wr := wr }

/-- The leaf for an address: the core TLB, the cluster TLB, or a walk whose leaf is charged and installed (R281, R282,
R364). -/
def State.lookup (s : State) (a : Agent) (va : Nat) : TransRes :=
  let asr := s.asrOf a.rgn
  let own := match a.core with | some g => tlbFind (s.core g).tlb asr va | none => none
  match own with
  | some l => .ok s l
  | none =>
    match tlbFind (s.cluster a.cluster).tlb asr va with
    | some l => .ok (s.install a l) l
    | none =>
      match s.walkBy (a.cluster / 24) asr va with
      | (s1, .fault f bad) => .fault s1 { f with bad := bad }
      | (s1, .leaf l) =>
        match s1.charge a.rgn l with
        | .beyond r => .quota s1 r
        | .ok s2 => .ok (s2.install a l) l

/-- The tenant root of a region. -/
def State.rootOf (s : State) (rgn : Nat) : Nat := match s.region? rgn with | some x => x.root | none => rgn

/-- The link a place lies behind: 0 to 7 for a peer, 8 for the host (R279, R414). -/
def linkOf (key : Nat) : Option Nat :=
  match locOf key with
  | 0 => none
  | 1 => some 8
  | n + 2 => some n

/-- The place lies behind a link that is down (R423). -/
def State.cutOff (s : State) (key : Nat) : Bool :=
  match linkOf key with
  | some l => !(s.links.getD l true)
  | none => false

/-- The tenant root of a region whose access goes over a link is noted (R423). -/
def State.noteLink (s : State) (rgn key : Nat) : State :=
  match linkOf key with
  | some l => if s.linkUse.contains (l, s.rootOf rgn) then s else { s with linkUse := s.linkUse ++ [(l, s.rootOf rgn)] }
  | none => s

/-- The translation of one address for an access, with the checks of R280 and, on a host page, the host's own answer
(R417). Behind a link that is down nothing is asked: the access completes as R423 says. -/
def State.translate (s : State) (a : Agent) (va : Nat) (need : Need) (clsOk : PgCls → Option (BitVec 8)) : TransRes :=
  match s.lookup a va with
  | .ok s1 l =>
    match s1.checkLeaf a l va need clsOk with
    | some f => .fault (if f.sub = 0 then s1.uninstall a l else s1) f
    | none =>
      let s2 := s1.noteLink a.rgn l.key
      if locOf l.key = 1 && !s2.cutOff l.key then
        match s2.atsOf (s2.fnOf a.rgn) (l.key + (va - l.va)) with
        | none => .wait (s2.askHost (s2.fnOf a.rgn) (l.key + (va - l.va)))
        | some t =>
          if (need == .wr && !t.wr) || (need != .wr && !t.rd) then
            .fault (s2.askPage (s2.fnOf a.rgn) (l.key + (va - l.va))) { code := 4, sub := 4, addr := some va, wr := need == .wr }
          else .ok s2 l
      else .ok s2 l
  | .fault s1 f => .fault s1 { f with wr := need == .wr }
  | r => r

/-- The pieces of an access cut at 4 KiB frames, in ascending order (R48, R275): address and length. Addresses wrap modulo
2^64. -/
def framePieces (va n : Nat) : List (Nat × Nat) :=
  (List.range ((va + n + 4095) / 4096 - va / 4096)).map fun i =>
    let lo := max va (4096 * (va / 4096 + i))
    let hi := min (va + n) (4096 * (va / 4096 + i) + 4096)
    (lo % 2 ^ 64, hi - lo)

/-- The outcome of translating the parts of an access: the parts below the first that failed, and why it failed. -/
structure PartsRes where
  s : State
  parts : List Part
  stop : Option (Option Flt × Option Nat)
  deriving DecidableEq, Repr

/-- The parts of an access, each translated and checked in ascending order (R48, R280). `stop` holds the fault of the
first part that has one, or the region whose quota it passes, or neither where it waits for the host. -/
def State.translateParts (s : State) (a : Agent) (need : Need) (clsOk : PgCls → Option (BitVec 8)) :
    List (Nat × Nat) → PartsRes
  | [] => ⟨s, [], none⟩
  | p :: ps =>
    match s.translate a p.1 need clsOk with
    | .fault s1 f => ⟨s1, [], some (some f, none)⟩
    | .quota s1 r => ⟨s1, [], some (none, some r)⟩
    | .wait s1 => ⟨s1, [], some (none, none)⟩
    | .ok s1 l =>
      let key := s1.hostKey (s1.fnOf a.rgn) (l.key + (p.1 - l.va))
      let r := s1.translateParts a need clsOk ps
      { r with parts := ⟨key, p.1, p.2, l.cls⟩ :: r.parts }

end Sys2Proof.Machine
end

