-- ==== Sys2Proof/Machine/Access.lean ====
section
/-! DEFINITION. Accesses: where one is performed, what it does there, and which earlier ones must be performed before it
(14_cluster_atomics_gathering.md R245 to R255, 17_memory_model.md R295 to R306). -/

namespace Sys2Proof

/-- The scope reaches beyond a core (R278, R305). -/
def Scope.beyondCor (s : Scope) : Bool := !(s == .thr || s == .wav || s == .cor)

/-- The scope reaches beyond a cluster (R247). -/
def Scope.beyondCls (s : Scope) : Bool := Scope.beyondCor s && s != .cls

/-- The ordering carries a release. -/
def Ord.releases (o : Ord) : Bool := o == .rel || o == .ar

/-- The ordering carries an acquire. -/
def Ord.acquires (o : Ord) : Bool := o == .acq || o == .ar

/-- The width of an element of `mred` and `mscale` in a sector of 64 bytes (R253). -/
def AtomTy.elemBits : AtomTy → Nat
  | .bf16 => 16 | _ => 32

end Sys2Proof

namespace Sys2Proof.Machine

open Sys2Proof

/-! ### Scope instances (R291 to R294) -/

/-- Where an agent is (R291): on the device, at the host, or on a peer. -/
inductive Side where
  | device | host | peer
  deriving DecidableEq, Repr

/-- An agent, as scopes see it (R291 to R293): the threads, the units and the cores whose `.thr`, `.wav` and `.cor` instances
it is a member of, the clusters of its `.cls` instances, and where it is. -/
structure Party where
  threads : List (Nat × Nat)
  units : List Nat
  cores : List Nat
  clusters : List Nat
  side : Side := .device
  deriving DecidableEq, Repr

/-- A thread as an agent: one of a wave belongs to its core, the Caller to its cluster alone (R291, R292). -/
def Party.thread (w lane : Nat) : Party := { threads := [(w, lane)], units := [w], cores := (coreOfWave w).toList, clusters := [clusterOfWave w] }

/-- An agent of the device that belongs to no cluster: a scheduler, and what Fjoub does. -/
def Party.device : Party := { threads := [], units := [], cores := [], clusters := [] }

/-- An agent of the host, or of a device that a peer link reaches (R291). -/
def Party.outside (side : Side) : Party := { Party.device with side := side }

/-- An engine operation: a member of the instances that contain its issuer, where it has one, and of those that contain the
cores whose windows or tiles it reads or writes; a firing belongs to its cluster (R293). -/
def Party.engine (issuer : Option Party) (cores clusters : List Nat) : Party :=
  let p := issuer.getD .device
  { p with cores := p.cores ++ cores, clusters := p.clusters ++ clusters ++ cores.map fun g => g / 4 }

/-- The service wave of a cluster: a member of the instances of its core 0, where it has slot 0 (R178, R292). -/
def Party.service (k : Nat) : Party := .thread (512 * k) 0

/-- The L2 partition of a cluster: its die, and in partitioned mode the partition whose CLMASK holds it (R286, R288). -/
def State.partitionOf (s : State) (k : Nat) : Nat × Nat :=
  if (s.die 0).l2mode.getLsbD 0 then
    (k / 24, ((List.range 4).find? fun p => ((s.die (k / 24)).part p).1.testBit (k % 24)).getD 0)
  else (k / 24, 0)

/-- The instance of a scope at an agent contains another agent (R291, R292). -/
def State.inScope (s : State) (sc : Scope) (x y : Party) : Bool :=
  match sc with
  | .thr => x.threads.any y.threads.contains
  | .wav => x.units.any y.units.contains
  | .cor => x.units.any y.units.contains || x.cores.any y.cores.contains
  | .cls => x.clusters.any y.clusters.contains
  | .prt => x.clusters.any fun k => y.clusters.any fun j => s.partitionOf k == s.partitionOf j
  | .die => x.clusters.any fun k => y.clusters.any fun j => k / 24 == j / 24
  | .dev => x.side == y.side
  | .peer => x.side == y.side || (x.side != .host && y.side != .host)
  | .host => x.side == y.side || (x.side != .peer && y.side != .peer)
  | .sys => true

/-- Two events, each with its agent and its scope, are mutually in scope (R294). -/
def State.mutual (s : State) (x : Party) (sx : Scope) (y : Party) (sy : Scope) : Bool := s.inScope sx x y && s.inScope sy y x

/-- The scope that contains two (R291). -/
def Scope.join (a b : Scope) : Scope :=
  if a = b then a
  else
    match a, b with
    | .peer, .host | .host, .peer => .sys
    | _, _ => if a.toBits.toNat ≤ b.toBits.toNat then b else a

/-! ### What one access does at its executing point -/

/-- Where an access is performed (R245, R277, R295): a window of a workgroup, a core's copy, or the home. -/
inductive Point where
  | scr (wg : Nat)
  | tob (wg : Nat)
  | copy (g : Nat) (svc : Bool)
  | home
  deriving DecidableEq, Repr

/-- The access is a read-modify-write. -/
def AccKind.isRmw : AccKind → Bool
  | .rmw .. | .cas .. | .mcas .. | .mred .. | .mscale .. => true
  | _ => false

/-- The access reads. -/
def AccKind.reads : AccKind → Bool
  | .load .. => true
  | k => k.isRmw

/-- The access writes. -/
def AccKind.writes : AccKind → Bool
  | .store .. | .stc .. => true
  | k => k.isRmw

/-- The executing point of an access on a page of a class, by the wave w (R245, R274, R277). -/
def State.pointOf (s : State) (w : Nat) (a : Acc) (cls : PgCls) : Point :=
  match a.space with
  | .scr wg => .scr wg
  | .tob wg => .tob wg
  | .glob =>
    let atCore (g : Nat) (svc : Bool) : Point := if (s.core g).caches then .copy g svc else .home
    match cls with
    | .h => .home
    | .r => (match coreOfWave w with | some g => atCore g false | none => .home)
    | .p =>
      if a.kind.isRmw then
        match a.kind with
        | .rmw .. | .cas .. =>
          if a.scope == .cls || ((coreOfWave w).isNone && !a.scope.beyondCor) then
            atCore (4 * clusterOfWave w) true
          else if a.scope.beyondCor then .home
          else (match coreOfWave w with | some g => atCore g false | none => .home)
        | _ => .home
      else match coreOfWave w with
        | some g => atCore g false
        | none => .home

/-- The access is one the service wave performs (R245, R247). -/
def viaService (w : Nat) (a : Acc) : Bool :=
  match a.parts with
  | [p] => decide (p.cls = .p) && (match a.kind with
      | .rmw .. | .cas .. => a.scope == .cls || ((coreOfWave w).isNone && !a.scope.beyondCor)
      | _ => false) && (match a.space with | .glob => true | _ => false)
  | _ => false

/-- The bytes a part reads at a point, and the state with the sectors it filled. -/
def State.readAt (s : State) (pt : Point) (tag : Option (BitVec 5)) (p : Part) : State × List Byte :=
  match pt with
  | .scr wg => (s, winBytes (match s.wgAt wg with | some x => x.scr | none => []) p.key p.size)
  | .tob wg => (s, winBytes (match s.wgAt wg with | some x => x.tob | none => []) p.key p.size)
  | .copy g _ => s.coreRead g p.key p.size p.cls
  | .home => let s1 := s.atHome p.key p.size; (s1, s1.homeBytes tag p.key p.size)

/-- The bytes a part writes at a point; or the place of the sector that found no room for its version (R326). -/
def State.writeAt (s : State) (pt : Point) (tag : Option (BitVec 5)) (by_ : Option (Nat × Nat)) (p : Part)
    (bs : List Byte) : Except (Nat × State) State :=
  match pt with
  | .scr wg => .ok (s.updWg wg fun x => { x with scr := winPut x.scr p.key bs })
  | .tob wg => .ok (s.updWg wg fun x => { x with tob := winPut x.tob p.key bs })
  | .copy g svc => .ok (s.coreWrite g p.key bs svc by_)
  | .home => s.homeWrite tag by_ p.key bs

/-- R325: an access to the window with the tag of a commit's winner that was issued after the commit began is held until
publication. -/
def State.heldPart (s : State) (tag : Option (BitVec 5)) (id key : Nat) : Bool :=
  match s.windowOf key, tag with
  | some (i, x), some t =>
    decide (x.st = .resolving) && tagSet t == i && tagFacet t != 0 && tagFacet t == x.winner && decide (x.bound ≤ id)
  | _, _ => false

/-- `combine` of R252 on w-bit values, and of R253 on BF16 elements. -/
def combine (op : AtomOp) (ty : AtomTy) (old new : Nat) : Nat :=
  let pick (lt : Bool) : Nat := if lt then old else new
  let int (t : IntTy) : Nat :=
    let x := intOf old t
    let y := intOf new t
    match op with
    | .add => lowBits (x + y) t.width
    | .min => pick (decide (x ≤ y))
    | .max => pick (decide (y ≤ x))
    | .and => old &&& new
    | .or => old ||| new
    | .xor => old ^^^ new
    | .exch => new
  let flt (f : Fmt) : Nat :=
    let x := fval old f false
    let y := fval new f false
    match op with
    | .add => fres (XR.add .rne x y) f .rne false false
    | .min => roundF (minMax false x y) f .rne false
    | .max => roundF (minMax true x y) f .rne false
    | _ => new
  match ty with
  | .s32 => int .s32 | .z32 => int .z32 | .b32 => int .b32
  | .s64 => int .s64 | .z64 => int .z64 | .b64 => int .b64
  | .f32 => flt .f32 | .bf16 => flt .bf16

/-- Element i of w bits. -/
def elemOf (v w i : Nat) : Nat := v / 2 ^ (w * i) % 2 ^ w

/-- n elements of w bits as one value. -/
def ofElems (w : Nat) : List Nat → Nat
  | [] => 0
  | x :: xs => x + 2 ^ w * ofElems w xs

/-- `mred` on a sector (R253). -/
def mredSector (op : AtomOp) (ty : AtomTy) (old x : Nat) : Nat :=
  ofElems ty.elemBits ((List.range (512 / ty.elemBits)).map fun i =>
    combine op ty (elemOf old ty.elemBits i) (elemOf x ty.elemBits i))

/-- `mscale` on a sector (R254). -/
def mscaleSector (rnd : Rnd) (ty : AtomTy) (a b old x : Nat) : Nat :=
  let f := if ty = .bf16 then Fmt.bf16 else .f32
  ofElems ty.elemBits ((List.range (512 / ty.elemBits)).map fun i =>
    let y := (fval a .f32 false).mul (fval (elemOf old ty.elemBits i) f false)
    let z := (fval b .f32 false).mul (fval (elemOf x ty.elemBits i) f false)
    fres (XR.sum rnd [y, z]) f rnd false false)

/-- The value a read-modify-write leaves in place of the old one (R252 to R255). -/
def AccKind.newVal (k : AccKind) (old : Nat) : Nat :=
  match k with
  | .rmw op ty x => combine op ty old x
  | .cas _ c n => if old = c then n else old
  | .mcas c n => if old = c then n else old
  | .mred op ty x => mredSector op ty old x
  | .mscale rnd ty a b x => mscaleSector rnd ty a b old x
  | _ => old

/-- A loaded value extended to the registers of its width (R153, R155). -/
def loadWords (wid : Wid) (v : Nat) : List Word :=
  match wid with
  | .s8 => [BitVec.ofInt 32 (if 128 ≤ v then (v : Int) - 256 else v)]
  | .s16 => [BitVec.ofInt 32 (if 32768 ≤ v then (v : Int) - 65536 else v)]
  | .b64 => wordsOf 2 v
  | .b128 => wordsOf 4 v
  | _ => wordsOf 1 v

/-- The registers of an LL result of an access. -/
def Acc.words (a : Acc) : Nat := match a.dst with | some d => d.words | none => 1

/-- A result that met a data error or a link that is down (R155, R256, R423). -/
def onesWords (n : Nat) : List Word := List.replicate n 0xFFFFFFFF

/-- What performing an access came to: held until a publication, or done, with the result it has, the place of a data
error it met, and the place of a sector without room for its version. -/
structure Perf where
  s : State
  val : Option (List Word)
  bad : Option Nat
  full : Option Nat
  deriving DecidableEq, Repr

/-- The read parts of an access, in ascending order: the bytes, and the first place of a data error. -/
def State.readParts (s : State) (w : Nat) (a : Acc) : List Part → State × List Byte × Option Nat
  | [] => (s, [], none)
  | p :: ps =>
    let pt := s.pointOf w a p.cls
    let (s1, bs) := s.readAt pt a.tag p
    let bad := match pt with
      | .scr _ | .tob _ => false
      | .copy g _ => s1.copyPoisoned g p.key p.size
      | .home => s.poisonedFor a.tag p.key p.size
    let (s2, rest, b2) := s1.readParts w a ps
    (s2, bs ++ rest, if bad then some p.key else b2)

/-- The values of a grain that a read through a constant cache may take (R157): those the grain has had since the region became
ready, the newest first, down to what the reading thread has written over itself (R159). What the core's copy holds that is newer
than memory is among the thread's own, so it alone is taken. -/
def State.constValues (s : State) (g rgn w lane grain : Nat) : List (List Byte) :=
  match (s.core g).copies.find (grain / 2) with
  | some x =>
    if x.dirty then [((sectorBytes x.data).drop (32 * (grain % 2))).take 32]
    else s.homeBytes none (32 * grain) 32 :: past
  | none => s.homeBytes none (32 * grain) 32 :: past
where
  past : List (List Byte) :=
    ((s.constOld.filter fun e => e.rgn == rgn && e.grain == grain).takeWhile fun e => e.by_ != some (w, lane)).map ConstOld.bytes

/-- A read of one grain through the constant cache of a core for a thread (R157): the bytes and whether they are those at its home. A
free value says which of the values it may take it takes, the one that the cache holds among them; the cache of 64 KiB (R175) holds
it then. -/
def State.constGrain (s : State) (g rgn w lane grain : Nat) : State × List Byte × Bool :=
  let s1 := s.atHome (32 * grain) 32
  let now := s1.homeBytes none (32 * grain) 32
  let all := s1.constValues g rgn w lane grain
  let held := ((s1.core g).consts.filter fun e => e.1 == rgn && e.2.1 == grain && all.contains e.2.2).map fun e => e.2.2
  let put (s : State) (bs : List Byte) : State :=
    let c := s.core g
    s.setCore g { c with consts := ((rgn, grain, bs) :: c.consts.filter fun e => !(e.1 == rgn && e.2.1 == grain)).take 2048 }
  match distinct (held ++ all) with
  | [] | [_] => (put s1 (all.headD now), all.headD now, decide (all.headD now = now))
  | l =>
    let (n, s2) := s1.fresh
    let bs := l.getD (n % l.length) now
    (put s2 bs, bs, decide (bs = now))

/-- Bytes read through the constant cache, and whether a poisoned grain of the home is among them (R289). -/
def State.constRead (s : State) (g rgn w lane key n : Nat) : State × List Byte × Bool :=
  let r := (grainsOf key n).foldl (fun r i =>
    let (s1, bs, home) := r.1.constGrain g rgn w lane i
    (s1, r.2.1 ++ bs, r.2.2 || home && s1.grainPoisoned none i)) (s, [], false)
  (r.1, (r.2.1.drop (key % 32)).take n, r.2.2)

/-- The parts of a read through the constant cache, in ascending order, and the first place of a data error. -/
def State.constParts (s : State) (g rgn w lane : Nat) : List Part → State × List Byte × Option Nat
  | [] => (s, [], none)
  | p :: ps =>
    let (s1, bs, hit) := s.constRead g rgn w lane p.key p.size
    let (s2, rest, bad) := s1.constParts g rgn w lane ps
    (s2, bs ++ rest, if hit then some p.key else bad)

/-- A part of an access lies behind a link that is down (R423). -/
def State.cutPart (s : State) (a : Acc) (p : Part) : Bool := decide (a.space = .glob) && s.cutOff p.key

/-- The write parts of an access, in ascending order (R48); those behind a link that is down are dropped (R423). -/
def State.writeParts (s : State) (w lane : Nat) (a : Acc) : List Part → List Byte → Except (Nat × State) State
  | [], _ => .ok s
  | p :: ps, bs =>
    if s.cutPart a p then s.writeParts w lane a ps (bs.drop p.size)
    else
    match s.writeAt (s.pointOf w a p.cls) a.tag (some (w, lane)) p (bs.take p.size) with
    | .error e => .error e
    | .ok s1 => s1.writeParts w lane a ps (bs.drop p.size)

/-- R305: what a release performed by a unit does to copies before it is performed. -/
def State.pushFor (s : State) (w : Nat) (scope : Scope) (clsAt : Bool) : State :=
  let s1 := match coreOfWave w with
    | some g => if Scope.beyondCor scope then s.writeBackAll g else s
    | none => s
  if Scope.beyondCls scope && clsAt then s1.writeBackSvc (4 * clusterOfWave w) else s1

/-- R305: what an acquire performed by a unit does to copies before any later load. -/
def State.pullFor (s : State) (w : Nat) (scope : Scope) : State :=
  match coreOfWave w with
  | some g => if Scope.beyondCor scope then s.dropClean g else s
  | none => s

/-- The thread holds a reservation at the point that covers an address (R161). -/
def Thread.holds (t : Thread) (pt : Point) (key : Nat) : Bool :=
  match t.resv with
  | some r => r.grain == key / 32 && (match pt, r.pt with
      | .copy g _, .core h => g == h
      | .home, .home => true
      | _, _ => false)
  | none => false

/-- The reservation an `ldr` sets (R160). -/
def resvFor (pt : Point) (key : Nat) : Option Resv :=
  match pt with
  | .copy g _ => some ⟨.core g, key / 32⟩
  | .home => some ⟨.home, key / 32⟩
  | _ => none

/-- An access performed at its executing points; none while it is held (R325). What an acquire does to the core's copies comes after
its own access, the reservation of an `ldr` with them: one wider than `.cor` on a page of class P drops the sector that it has just
read, so that its reservation is cleared at once (R162, R278; DESIGN CHOICE, assumption 67). A load that was performed ahead of
an acquire has its value already (R294). -/
def State.perform (s : State) (w lane : Nat) (a : Acc) : Option Perf :=
  if a.parts.any fun p => s.heldPart a.tag a.id p.key then none
  else
    let clsAt := match s.thread? w lane with | some t => t.clsAt | none => false
    let s0 := if a.ord.releases then s.pushFor w a.scope clsAt else s
    let cut := a.parts.any (s.cutPart a)
    let done (s : State) (v : Option (List Word)) : Perf :=
      ⟨if a.ord.acquires then s.pullFor w a.scope else s, v, none, none⟩
    match a.kind with
    | .calc => some ⟨s, a.val, none, none⟩
    | .fence => some (done s0 none)
    | .load wid resv =>
      if let some e := a.early then some (done s0 (some e.val)) else
      let reserve (s : State) : State := if resv then
          match a.parts with
          | p :: _ => s.updThread w lane fun t => { t with resv := resvFor (s.pointOf w a p.cls) p.key }
          | [] => s
        else s
      if cut then some (done (reserve s0) (some (onesWords a.words)))
      else
        let (s1, bs, bad) := s0.readParts w a a.parts
        match bad with
        | some k => some { done (reserve s1) (some (onesWords a.words)) with bad := some k }
        | none => some (done (reserve s1) (some (loadWords wid (leBytes (a.got ++ bs)))))
    | .constant wid =>
      if cut then some (done s0 (some (onesWords a.words)))
      else
        let rgn := match s.waves.find w with | some x => x.rgn | none => 0
        let (s1, bs, bad) := s0.constParts (fetchCore w) rgn w lane a.parts
        match bad with
        | some k => some { done s1 (some (onesWords a.words)) with bad := some k }
        | none => some (done s1 (some (loadWords wid (leBytes bs))))
    | .store bs =>
      match s0.writeParts w lane a a.parts bs with
      | .ok s1 => some (done s1 none)
      | .error (k, s1) => some ⟨s1, none, none, some k⟩
    | .stc bs =>
      match a.parts, s0.thread? w lane with
      | p :: _, some t =>
        let clear (s : State) : State := s.updThread w lane fun t => { t with resv := none }
        if t.holds (s0.pointOf w a p.cls) p.key then
          (if cut then some (done (clear s0) (some [0]))
           else
             match s0.writeParts w lane a a.parts bs with
             | .ok s1 => some (done (clear s1) (some [0]))
             | .error (k, s1) => some ⟨clear s1, some [1], none, some k⟩)
        else some (done (clear s0) (some [1]))
      | _, _ => some (done s0 (some [1]))
    | k =>
      if cut then some (done s0 (some (onesWords a.words)))
      else
        let wide := match coreOfWave w, a.parts, a.space with
          | some g, p :: _, .glob =>
            if p.cls == PgCls.p && a.scope.beyondCls then
              (s0.writeBack g (p.key / 64)).dropCopy g (p.key / 64)
            else s0
          | _, _, _ => s0
        let (s1, bs, bad) := wide.readParts w a a.parts
        match bad with
        | some b => some { done s1 (some (onesWords a.words)) with bad := some b }
        | none =>
          let old := leBytes bs
          match s1.writeParts w lane a a.parts (toLe bs.length (k.newVal old)) with
          | .ok s2 => some (done s2 (some (wordsOf a.words old)))
          | .error (b, s2) => some ⟨s2, some (onesWords a.words), none, some b⟩

/-! ### Order -/

/-- Two accesses touch a byte in common. -/
def Acc.overlaps (x y : Acc) : Bool :=
  decide (x.space = y.space) && x.parts.any fun p => y.parts.any fun q =>
    decide (p.key < q.key + q.size) && decide (q.key < p.key + p.size)

/-- The core whose scratch atomic unit performs what is done at a point one at a time, if one does (R245). -/
def State.scratchUnit (s : State) : Point → Option Nat
  | .scr wg | .tob wg => (s.wgAt wg).map Wg.core
  | _ => none

/-- Two accesses have an executing point in common: the same scratch atomic unit, core's copy or home. -/
def State.samePoint (s : State) (w : Nat) (x y : Acc) : Bool :=
  x.parts.any fun p => y.parts.any fun q =>
    let a := s.pointOf w x p.cls
    let b := s.pointOf w y q.cls
    ((s.scratchUnit a).isSome && s.scratchUnit a == s.scratchUnit b) ||
      (decide (a = b) && (decide (a ≠ .home) || s.homeOf p.key == s.homeOf q.key))

/-- The access is an `ldr` or a `stc`. -/
def AccKind.reserves : AccKind → Bool
  | .load _ resv => resv
  | .stc _ => true
  | _ => false

/-- The access reads through the constant cache (R157). -/
def AccKind.isConst : AccKind → Bool
  | .constant _ => true
  | _ => false

/-- The access touches memory. -/
def AccKind.touches (k : AccKind) : Bool := k.reads || k.writes || k.isConst

/-- The access is a release of R302 or R304: a write, or a fence. -/
def Acc.isRelease (a : Acc) : Bool := a.ord.releases && (a.kind.writes || decide (a.kind = .fence))

/-- The peer links that an access goes over. -/
def Acc.links (a : Acc) : List Nat :=
  if a.space = .glob then (a.parts.map fun p => locOf p.key).filter (2 ≤ ·) else []

/-- Two accesses go over one peer link: those of one source reach the peer in issue order (R418). -/
def Acc.sameLink (x y : Acc) : Bool := x.links.any y.links.contains

/-- X, earlier in its thread, is ordered before Y by R300, R301, R206, R246 and R418, but for Y's being a release, and for X's being
an acquire. A read through the constant cache is ordered against what touches the same bytes alone (R157, R159). The `ldr` and
`stc` of a thread are ordered among themselves, since a `stc` fails for the causes of R162 alone (R161; DEDUCED,
assumption 62). -/
def State.orderedBytes (s : State) (w : Nat) (x y : Acc) : Bool :=
  (x.overlaps y && x.kind.touches && y.kind.touches) || (x.kind.reserves && y.kind.reserves) ||
  (decide (x.kind = .fence) && decide (x.ord = .rel) && y.kind.writes) || (decide (x.kind = .fence) && decide (y.kind = .fence)) ||
  (decide (y.kind = .fence) && x.kind.reads) ||
  (x.kind.isRmw && y.kind.isRmw && s.samePoint w x y) || x.sameLink y ||
  ((coreOfWave w).isNone && x.kind.reads && y.kind.writes)

/-- X is an acquire of R302 or R304: a read, or a fence. -/
def Acc.isAcquire (x : Acc) : Bool := x.ord.acquires && (x.kind.reads || decide (x.kind = .fence))

/-- X, earlier in its thread, is ordered before Y by R300, R301, R206, R246 and R418, but for Y's being a release. -/
def State.orderedPlain (s : State) (w : Nat) (x y : Acc) : Bool := s.orderedBytes w x y || x.isAcquire

/-- X, earlier in its thread, is ordered before Y by R300, R301, R206, R246 and R418. -/
def State.ordered (s : State) (w : Nat) (x y : Acc) : Bool :=
  s.orderedPlain w x y || (y.isRelease && !x.kind.isConst)

/-- A store that a later release of its thread may be performed ahead of: a plain or relaxed one. A load is not, since a cycle of
R306 would go through it. -/
def Acc.mayLag (x : Acc) : Bool :=
  (x.ord == .plain || x.ord == .rlx) && x.feed.isNone && (match x.kind with | .store _ => true | _ => false)

/-- The release Y is performed ahead of X, which is earlier in its thread: R294 and R303 order the two towards the agents
alone that are mutually in scope with Y, and what one of them does next at a scope waits for X. A free value says which releases do
(assumption 63). -/
def lags (x y : Acc) : Bool := x.mayLag && y.isRelease && Config.late y.id

/-- A pending access with its thread. -/
structure Pend where
  w : Nat
  lane : Nat
  acc : Acc
  deriving DecidableEq, Repr

/-- The access of e was issued before that of f, or by a lower lane of the same group. -/
def Pend.precedes (e f : Pend) : Bool :=
  decide (e.acc.id < f.acc.id) || (e.acc.id == f.acc.id && e.w == f.w && decide (e.lane < f.lane))

/-- Pending accesses with their threads, by issue and then by lane. -/
def insertPend (e : Pend) : List Pend → List Pend
  | [] => [e]
  | f :: l => if f.precedes e then f :: insertPend e l else e :: f :: l

/-- The pending accesses of a wave with their lanes, by issue and then by lane. -/
def insertAcc (e : Nat × Acc) : List (Nat × Acc) → List (Nat × Acc)
  | [] => [e]
  | f :: l => if e.2.id < f.2.id ∨ (e.2.id = f.2.id ∧ e.1 ≤ f.1) then e :: f :: l else f :: insertAcc e l

/-- The pending accesses of a wave, in the order of their issue and of their lanes. -/
def Wave.pending (x : Wave) : List (Nat × Acc) :=
  ((x.threads.mapIdx fun l t => t.accs.map fun a => (l, a)).flatten).foldl (fun l e => insertAcc e l) []

/-- Element e is pushed to the feed stream of f before it (R211). -/
def pushedBefore (e f : Nat × Acc) : Bool :=
  e.2.feed.isSome && e.2.feed == f.2.feed && (decide (e.2.id < f.2.id) || (e.2.id == f.2.id && decide (e.1 < f.1)))

/-- The source that a home or a link knows of a unit's requests (R284, R418): its core, or the Caller. -/
def sourceOf (w : Nat) : Nat := match coreOfWave w with | some g => g | none => 192 + clusterOfWave w

/-- The request of e is held by the old home of a moved frame that f goes to: what it holds is forwarded before what its source sends to
the new home (R284). -/
def State.forwardedFirst (s : State) (e f : Pend) : Bool :=
  s.homeFwd.any fun h => h.moved && h.reqs.contains (e.w, e.lane, e.acc.id) && f.acc.parts.any fun p =>
    p.key / 4096 == h.frame && decide (f.acc.space = .glob)

/-- Access e must be performed before f (R300, R301); a release wider than `.cls` comes after every request that its wave
has made of the service wave (R247, R313); of one group, the lower lane comes first at an executing point that
takes them one at a time, and in a window (R195, R246). The elements of a feed stream are written in push order (R211). The requests
of one source come in issue order over a peer link (R418), and to the home of a frame that has moved the forwarded ones come first
(R284). -/
def State.before (s : State) (e f : Pend) : Bool :=
  if e.w ≠ f.w then e.precedes f && (e.acc.sameLink f.acc || s.forwardedFirst e f)
  else
    pushedBefore (e.lane, e.acc) (f.lane, f.acc) || (e.precedes f && s.forwardedFirst e f) ||
    if e.lane = f.lane then
      decide (e.acc.id < f.acc.id) &&
        (s.orderedPlain e.w e.acc f.acc || (s.ordered e.w e.acc f.acc && !lags e.acc f.acc))
    else if f.acc.isRelease && f.acc.scope.beyondCls && viaService e.w e.acc then decide (e.acc.id < f.acc.id)
    else
      e.precedes f && (e.acc.sameLink f.acc ||
        (e.acc.id == f.acc.id && e.acc.kind.writes && f.acc.kind.writes &&
          (e.acc.kind.isRmw || decide (e.acc.space ≠ .glob)) && s.samePoint e.w e.acc f.acc))

/-- The accesses that must be performed for the last of a list, itself among them, in order: the list is read from its
end. -/
def State.needed (s : State) : List Pend → List Pend → List Pend
  | [], need => need
  | e :: rest, need => s.needed rest (if need.any fun f => s.before e f then e :: need else need)

/-- A wave has a request to a peer, or one that waits at the old home of a frame: what another wave of its source does may have to wait
for it. -/
def State.sharesOrder (s : State) (e : Nat × Wave) : Bool :=
  e.2.threads.any fun t => t.accs.any fun a => !a.links.isEmpty || s.homeFwd.any fun h => h.reqs.any fun r => r.1 == e.1 && r.2.2 == a.id

/-- The pending accesses that may have to be performed before one of a wave, by issue and then by lane. -/
def State.pendingWith (s : State) (w : Nat) (x : Wave) : List Pend :=
  let own (w : Nat) (x : Wave) : List Pend := x.pending.map fun e => ⟨w, e.1, e.2⟩
  (s.waves.filter fun e => e.1 != w && sourceOf e.1 == sourceOf w && s.sharesOrder e).foldl
    (fun l e => (own e.1 e.2).foldl (fun l p => insertPend p l) l) (own w x)

/-- The accesses to perform so that an access of a thread is performed, in order. -/
def State.chain (s : State) (w lane id : Nat) : List Pend :=
  match s.waves.find w with
  | none => []
  | some x =>
    let all := s.pendingWith w x
    match all.find? fun e => e.w == w && e.lane == lane && e.acc.id == id with
    | none => []
    | some e => s.needed (all.filter fun f => f.precedes e).reverse [e]

/-! ### Loads ahead of an acquire (R294) -/

/-- The acquire alone that keeps a load of a thread from being performed, where it is a load that the other overtakes in nothing
else. -/
def State.overtaken (s : State) (w lane : Nat) (a : Acc) : Option Acc :=
  match s.waves.find w with
  | none => none
  | some x =>
    let e : Pend := ⟨w, lane, a⟩
    match (s.pendingWith w x).filter fun f => f.precedes e && s.before f e with
    | [f] =>
      let plain := match f.acc.kind with | .load _ false => true | _ => false
      if f.lane == lane && f.w == w && plain && f.acc.isAcquire && !s.orderedBytes w f.acc a && f.acc.early.isNone then some f.acc
      else none
    | _ => none

/-- The bytes at the places of an access, as it would read them. -/
def State.bytesOf (s : State) (w : Nat) (a : Acc) : List Byte := (s.readParts w a a.parts).2.1

/-- A write has been performed: where it is at the place of an acquire that a load has been performed ahead of, and the acquire is not to
synchronise with it, the bytes there are taken as those of before. -/
def State.passOver (before after : State) (y : Party) (b : Acc) : State :=
  if !after.waves.any fun e => e.2.threads.any fun t => t.accs.any fun a => a.early.isSome then after
  else
    let fix (w lane : Nat) (t : Thread) (a : Acc) : Acc :=
      match a.early with
      | none => a
      | some e =>
        match t.accs.find? fun x => x.id == e.past with
        | none => a
        | some x =>
          let quiet := !b.ord.releases || !after.mutual (.thread w lane) x.scope y b.scope
          if quiet && decide (before.bytesOf w x = e.seen) then { a with early := some { e with seen := after.bytesOf w x } } else a
    { after with waves := after.waves.map fun p =>
        (p.1, { p.2 with threads := p.2.threads.mapIdx fun l t => { t with accs := t.accs.map (fix p.1 l t) } }) }

/-- An acquire is performed: a load that was ahead of it keeps its value where the acquire reads what stood there then, but for
writes that it does not synchronise with; else it is performed anew. -/
def Thread.checkEarly (t : Thread) (id : Nat) (now : List Byte) : Thread :=
  let fix (a : Acc) : Acc :=
    match a.early with
    | some e => if e.past = id ∧ e.seen ≠ now then { a with early := none } else a
    | none => a
  { t with accs := t.accs.map fix }

end Sys2Proof.Machine
end

