-- ==== Sys2Proof/Machine/Barrier.lean ====
section
/-! DEFINITION. Paths and turns of a wave (07_control_divergence.md R131, R132), waking (10_core_issue.md R188), and the
barrier objects of scratch windows (11_core_scratchpad_barriers.md R198, R199). -/

namespace Sys2Proof.Machine

open Sys2Proof

/-! ### Paths and the turn -/

/-- The thread may issue: it is Placed or Running (R25, R131). -/
def Thread.ready (t : Thread) : Bool :=
  match t.st with
  | .placed | .running => true
  | _ => false

/-- The thread is Exited. -/
def Thread.done (t : Thread) : Bool := decide (t.st = .exited)

/-- The lanes of a wave that may issue, with their PCs, in ascending order. -/
def Wave.readyLanes (x : Wave) : List (Nat × DWord) :=
  (x.threads.mapIdx fun l t => if t.ready then some (l, t.pc) else none).filterMap id

/-- The path a lane stands on: the ready lanes with its PC (R131). -/
def Wave.pathOf (x : Wave) (lane : Nat) : List Nat :=
  match x.threads[lane]? with
  | some t => if t.ready then (x.readyLanes.filter fun e => e.2 == t.pc).map Prod.fst else []
  | none => []

/-- The lowest lanes of the paths of a wave: the first ready lane of each PC. -/
def pathHeads : List (Nat × DWord) → List DWord → List Nat
  | [], _ => []
  | (l, pc) :: rest, seen => if seen.contains pc then pathHeads rest seen else l :: pathHeads rest (pc :: seen)

/-- The lowest lanes of the ready paths, ascending. -/
def Wave.heads (x : Wave) : List Nat := pathHeads x.readyLanes []

/-- The next ready path after a lane: the smallest lowest lane above it, or else the smallest (R132). -/
def Wave.nextPath (x : Wave) (lane : Nat) : Option Nat :=
  match x.heads.find? fun h => decide (lane < h) with
  | some h => some h
  | none => x.heads.head?

/-- The limit a register value gives (R133). -/
def fairLimit (fairt : Word) : Nat := max 64 (fairt.toNat % 65536)

/-- The turn passes to a path: the count is reset, the limit in effect becomes the register's, and the retained operands
are invalid (R132, R133, R36). -/
def Wave.giveTurn (x : Wave) (next : Option Nat) : Wave :=
  { x with turn := next, fair := 0, limit := fairLimit x.fairt, retain := [none, none, none] }

/-- The turn after an instruction of a path, its lanes given in ascending order: the part with the lowest lane keeps it, or
the next ready path takes it (R132). Where the lowest lane has blocked, exited or parked and others of the path have not, the
part with the lowest lane that may still issue keeps turn and count; R132 leaves that case open (DESIGN CHOICE,
assumption 61). -/
def Wave.settleTurn (x : Wave) (path : List Nat) : Wave :=
  match path.find? fun l => match x.threads[l]? with | some t => t.ready | none => false with
  | some l => { x with turn := some l }
  | none => x.giveTurn (x.nextPath (path.headD 0))

/-- The turn where a thread has become ready: an unheld turn is taken by the first ready path (R132). -/
def Wave.fixTurn (x : Wave) : Wave :=
  match x.turn with
  | some _ => x
  | none => match x.heads with
    | [] => x
    | h :: _ => x.giveTurn (some h)

/-- The instruction in a lookahead window counts once it has issued (R34). -/
def Thread.countWindow (t : Thread) : Thread :=
  { t with accs := t.accs.map fun a => if a.dst.isSome then { a with win := a.win - 1 } else a }

/-- The lanes a mask names. -/
def maskHas (m : Word) (lane : Nat) : Bool := m.getLsbD lane

/-- The mask of a list of lanes. -/
def maskOf (lanes : List Nat) : Word := BitVec.ofNat 32 (lanes.foldl (fun a l => a + 2 ^ (l % 32)) 0)

/-! ### Waking -/

/-- The reason bits of `wakerc` (R188, R190). -/
inductive WakeBit where
  | bar | qdec | qdrn | qfed | place | pre | fdom | rgn | sync
  deriving DecidableEq, Repr

/-- The number of a reason bit (R190). -/
def WakeBit.num : WakeBit → Nat
  | .bar => 0 | .qdec => 1 | .qdrn => 2 | .qfed => 3 | .place => 4 | .pre => 5 | .fdom => 6 | .rgn => 7 | .sync => 8

/-- A wake event of a core: it counts while the core is gated (R188). -/
def State.wakeCore (s : State) (g : Option Nat) (b : WakeBit) : State :=
  match g with
  | some g =>
    let c := s.core g
    if c.gated then s.setCore g { c with wake := c.wake ||| BitVec.ofNat 9 (2 ^ b.num) } else s
  | none => s

/-- A Blocked thread becomes Running again and executes its instruction from the start, with the elements it has popped
(R25, R208). -/
def Wave.unblock (x : Wave) (lane : Nat) : Wave :=
  (x.updThread lane fun t => match t.st with | .blocked _ => { t with st := .running } | _ => t).fixTurn

/-- The threads of a wave whose wait satisfies a condition wake. -/
def State.wakeWhere (s : State) (w : Nat) (b : WakeBit) (cond : Why → Bool) : State :=
  match s.waves.find w with
  | none => s
  | some x =>
    let lanes := (x.threads.mapIdx fun l t => match t.st with
      | .blocked y => if cond y then some l else none
      | _ => none).filterMap id
    if lanes.isEmpty then s
    else (s.setWave w (lanes.foldl (fun x l => x.unblock l) x)).wakeCore (coreOfWave w) b

/-- The threads of the device whose wait satisfies a condition wake. -/
def State.wakeAll (s : State) (b : WakeBit) (cond : Why → Bool) : State :=
  (s.waves.map Prod.fst).foldl (fun s w => s.wakeWhere w b cond) s

/-! ### Barrier objects -/

/-- The fields of a barrier object (R198); `rsv` holds its reserved bits, in place, which a step on it keeps. -/
structure Bar where
  gen : Nat
  fltc : Bool
  fltp : Bool
  wch : Nat
  expa : Nat
  pend : Nat
  btgt : Nat
  blnd : Nat
  rsv : Nat := 0
  deriving DecidableEq, Repr

/-- The 32 bytes of an object. -/
def State.barRaw (s : State) (r : BarRef) : Nat :=
  match s.wgAt r.wg with
  | some x => leBytes (winBytes x.scr r.off 32)
  | none => 0

/-- A reserved field of the object is nonzero (R207). -/
def barBad (v : Nat) : Bool := field v 255 192 != 0 || field v 63 48 != 0 || field v 39 34 != 0

/-- The fields of the 32 bytes. -/
def Bar.ofRaw (v : Nat) : Bar :=
  { gen := field v 31 0, fltc := field v 32 32 == 1, fltp := field v 33 33 == 1, wch := field v 47 40
    expa := field v 95 64, pend := field v 127 96, btgt := field v 159 128, blnd := field v 191 160
    rsv := 2 ^ 34 * field v 39 34 + 2 ^ 48 * field v 63 48 + 2 ^ 192 * field v 255 192 }

/-- The 32 bytes of the fields. -/
def Bar.toRaw (b : Bar) : Nat :=
  b.gen + 2 ^ 32 * b2n b.fltc + 2 ^ 33 * b2n b.fltp + 2 ^ 40 * b.wch + 2 ^ 64 * b.expa + 2 ^ 96 * b.pend +
  2 ^ 128 * b.btgt + 2 ^ 160 * b.blnd + b.rsv

/-- The fields of an object. -/
def State.bar (s : State) (r : BarRef) : Bar := .ofRaw (s.barRaw r)

/-- An object written. -/
def State.putBar (s : State) (r : BarRef) (b : Bar) : State :=
  s.updWg r.wg fun x => { x with scr := winPut x.scr r.off (toLe 32 b.toRaw) }

/-- Phase g has completed when the generation is gen (R199). -/
def phaseDone (gen g : Nat) : Bool :=
  let d := (gen + 2 ^ 32 - g) % 2 ^ 32
  decide (1 ≤ d) && decide (d < 2 ^ 31)

/-- R199: the phase completes if nothing is pending and the bytes have landed. -/
def Bar.complete (b : Bar) : Bar :=
  { b with gen := (b.gen + 1) % 2 ^ 32, fltp := b.fltc, fltc := false, pend := b.expa, btgt := 0, blnd := 0 }

/-- The status a wait for phase g returns (R204). -/
def Bar.status (b : Bar) (g : Nat) : Word := if b.gen = (g + 1) % 2 ^ 32 ∧ !b.fltp then 0 else 1

/-- A thread that waits for a phase of an object which has now completed returns from its `wait` (R204): its status waits to
be written, its acquire stands before its later accesses, and it goes on after the instruction. -/
def Thread.returnWait (t : Thread) (r : BarRef) (b : Bar) : Thread :=
  match t.st with
  | .blocked (.phase wg off g d acq id pc npc) =>
    if wg = r.wg ∧ off = r.off ∧ phaseDone b.gen g.toNat then
      let a : Acc := { id := id, kind := .calc, space := .glob, parts := [], ord := .plain, scope := .thr, tag := none
                       dst := some d, win := 0, val := some [b.status g.toNat], pc := pc }
      let fence (sc : Scope) : Acc := { a with id := id + 1, kind := .fence, ord := .acq, scope := sc, dst := none, val := none }
      { t.countWindow with
        st := .running, pc := npc, popped := []
        accs := (t.countWindow).accs ++ a :: (match acq with | some sc => [fence sc] | none => []) }
    else t
  | _ => t

/-- The waiters of a wave whose phase has completed return. -/
def Wave.returnWaits (x : Wave) (r : BarRef) (b : Bar) : Wave :=
  ({ x with threads := x.threads.map fun t => t.returnWait r b } : Wave).fixTurn

/-- The waiters of the device whose phase of an object has completed return, the saved ones too (R362), and their cores wake
(R188, R199). -/
def State.returnWaits (s : State) (r : BarRef) (b : Bar) : State :=
  let s1 := (s.waves.map Prod.fst).foldl (fun s w =>
    match s.waves.find w with
    | some x =>
      let y := x.returnWaits r b
      if y.threads = x.threads then s else (s.setWave w y).wakeCore (coreOfWave w) .bar
    | none => s) s
  { s1 with saved := s1.saved.map fun e =>
      (e.1, { e.2 with waves := e.2.waves.map fun x => (x.1, x.2.returnWaits r b) }) }

/-! ### Decisions -/

/-- The decisions that every wave of a workgroup has popped are freed (R209). -/
def State.freeDecisions (s : State) (wg : Nat) : State :=
  let mine := (s.waves.map Prod.snd).filter fun x => x.wg == wg && x.kind != .caller
  let drop (y : Wg) : Wg :=
    let least := mine.foldl (fun a x => min a x.dqPos) (y.dqHead + y.dq.length)
    { y with dq := y.dq.drop (least - y.dqHead), dqHead := max y.dqHead least }
  ({ s with wgs := s.wgs.upd wg drop } : State).wakeAll .sync fun y => match y with
    | .decision => true
    | _ => false

/-- One step on an object (R199): the new fields, the completion of the phase, and the return of its waiters. -/
def State.barStep (s : State) (r : BarRef) (b : Bar) : State :=
  if b.pend = 0 ∧ b.blnd = b.btgt then
    let b1 := b.complete
    (s.putBar r b1).returnWaits r b1
  else s.putBar r b

/-- The end of a step on an object that has written nothing: the unit completes the phase where it finds it complete
(R199), as after a plain store. -/
def State.barSettle (s : State) (r : BarRef) : State :=
  let b := s.bar r
  if b.pend = 0 ∧ b.blnd = b.btgt then s.barStep r b else s

/-- One arrival (R202): none when nothing is pending. -/
def State.barArrive (s : State) (r : BarRef) : Option State :=
  let b := s.bar r
  if b.pend = 0 then none else some (s.barStep r { b with pend := b.pend - 1 })

/-- An arrival that no thread can be faulted for: it is dropped with FLTC := 1 when nothing is pending (R202, R205). -/
def State.barArriveOrDrop (s : State) (r : BarRef) : State :=
  match s.barArrive r with
  | some s1 => s1
  | none => s.barStep r { s.bar r with fltc := true }

/-- Bytes landed in the current phase, with FLTC when the landing is a faulted one (R214, R215). -/
def State.barLand (s : State) (r : BarRef) (n : Nat) (flt : Bool) : State :=
  let b := s.bar r
  s.barStep r { b with blnd := (b.blnd + n) % 2 ^ 32, fltc := b.fltc || flt }

/-- The workgroup of the partner on core m of a cluster group (R197). -/
def State.partner (s : State) (wg m : Nat) : Option Nat :=
  ((s.wgs.find wg).bind fun x => x.group).bind fun q => (s.groups.find q).bind fun g => g.members.find m

/-- The completion of an engine operation: bytes landed, or the counter raised at the end (R214). -/
def State.land (s : State) (d : Done) (n : Nat) (flt : Bool) : State :=
  match d with
  | .bar r => s.barLand r n flt
  | .ctr .. => s

end Sys2Proof.Machine
end

