-- ==== Sys2Proof/Machine/Domain.lean ====
section
/-! DEFINITION. Fault domains and the end of work: fault and event records (08_thread_memory_traps.md R164,
21_regions_scheduling.md R366), exits, squash (19_facets_versioned_memory.md R329), kill (21, R352) and suspension. -/

namespace Sys2Proof.Machine

open Sys2Proof

/-! ### Records -/

/-- The fields of a fault record but its sequence number (R164). -/
structure Rec where
  flt : Flt
  eng : Bool
  tid : Nat
  wg : Nat
  die : Nat
  clr : Bool
  clus : Nat
  core : Nat
  wave : Nat
  lane : Nat
  ftag : Nat
  pc : Nat
  rgn : Nat
  deriving DecidableEq, Repr

/-- The 64 bytes of a record, as one value (R164). -/
def Rec.bits (r : Rec) (seq : Nat) : Nat :=
  r.flt.code.toNat + 2 ^ 8 * r.flt.sub.toNat + 2 ^ 16 * (seq % 65536) + 2 ^ 32 * b2n r.flt.addr.isSome +
  2 ^ 33 * b2n r.flt.wr + 2 ^ 34 * b2n r.eng + 2 ^ 64 * r.tid + 2 ^ 96 * r.wg + 2 ^ 128 * r.die +
  2 ^ 129 * b2n r.clr + 2 ^ 136 * r.clus + 2 ^ 144 * r.core + 2 ^ 152 * r.wave + 2 ^ 160 * r.lane +
  2 ^ 168 * r.ftag + 2 ^ 192 * r.pc + 2 ^ 256 * (r.flt.addr.getD 0 % 2 ^ 64) + 2 ^ 320 * r.rgn +
  2 ^ 384 * (r.flt.det0 % 2 ^ 32) + 2 ^ 416 * (r.flt.det1 % 2 ^ 32)

/-- ST of R348. -/
def RSt.code : RSt → Nat
  | .waiting => 0 | .ready => 1 | .running => 2 | .suspended => 3 | .ended => 4 | .killed => 5

/-- STATE of R348: FB marks the regions of a prism launch, and the binding that a region has or inherits is in FSET and
FACET. -/
def Region.stateWord (x : Region) : Nat :=
  x.st.code + 2 ^ 6 * b2n x.prism + (match x.tag with | some t => 2 ^ 7 * tagSet t + 2 ^ 9 * tagFacet t | none => 0) +
  2 ^ 16 * x.lost + 2 ^ 24 * x.widx + 2 ^ 48 * (x.seq % 65536)

/-- STATE is stored at the RCB's home (R348). -/
def State.writeState (s : State) (r : Nat) : State :=
  match s.region? r with
  | some x => s.putNum (x.rcbKey + 0xE0) 8 x.stateWord
  | none => s

/-- The place of a device address of a function on a writable page of class H (R366). -/
def State.placeWr (s : State) (fn asr va : Nat) : Option Nat :=
  match s.place fn asr va with
  | some (key, l) => if l.wr && l.cls == .h then some key else none
  | none => none

/-- An MSI-X signal of a function (R415). -/
def State.signal (s : State) (fn vector : Nat) : State := { s with msix := s.msix ++ [(fn, vector)] }

/-- A record posted to the fault domain of a region (R366): the state after it, and the record's sequence number. The place
in the ring, the sequence number and the loss count are those of the region's own STATE (R348), also where FDR, FDN and ACT
are copied from its parent (R349). -/
def State.post (s : State) (dom : Nat) (r : Rec) : State × Nat :=
  match s.region? dom with
  | none => (s, 0)
  | some d =>
    let key := s.placeWr d.fn d.rcb.asr (d.rcb.fdr.toNat + 64 * d.widx)
    let next := if d.rcb.fdn = 0 then 0 else (d.widx + 1) % d.rcb.fdn
    let full := next == s.num (d.rcbKey + 0xE8) 3 || d.rcb.fdn == 0
    let s1 := match key, full with
      | some k, false =>
        (s.baseWrite k (toLe 64 (r.bits d.seq))).updRegion dom fun d =>
          { d with widx := next, seq := (d.seq + 1) % 65536 }
      | _, _ => s.updRegion dom fun d => { d with lost := min 255 (d.lost + 1), seq := (d.seq + 1) % 65536 }
    let s2 := s1.writeState dom
    (if d.root = dom then s2.signal d.fn 0 else s2, d.seq)

/-- The RCB address of a region, as records name it. -/
def State.rcbOf (s : State) (rgn : Nat) : Nat := match s.region? rgn with | some x => x.rcbVa.toNat | none => 0

/-- FTAG of a region's records (R164, R317). -/
def State.ftagOf (s : State) (rgn : Nat) : Nat := match s.tagOf rgn with | some t => t.toNat | none => 0

/-- The action ACT gives for a code (R366). -/
def State.actionOf (s : State) (rgn : Nat) (code : BitVec 8) : Nat :=
  match s.region? rgn with
  | some x => field x.rcb.act.toNat (2 * (code.toNat % 32) + 1) (2 * (code.toNat % 32))
  | none => 0

/-- A record that no thread raises: its region, the core or cluster it concerns, and a PC. The fields that name a thread
have no stated value and are free. -/
def State.engRec (s : State) (rgn : Nat) (core : Option Nat) (cluster pc : Nat) (eng : Bool) (f : Flt) :
    State × Rec :=
  let (n, s1) := s.fresh
  (s1, { flt := f, eng := eng, tid := n % 2 ^ 32, wg := n / 2 ^ 32 % 2 ^ 32, die := cluster / 24 % 2, clr := false
         clus := cluster % 24, core := (match core with | some g => g % 96 | none => n / 2 ^ 64 % 96)
         wave := n / 2 ^ 72 % 128, lane := n / 2 ^ 80 % 32, ftag := s1.ftagOf rgn, pc := pc, rgn := s1.rcbOf rgn })

/-- An engine record (ENG = 1) posted to the region's fault domain (R366). -/
def State.postEng (s : State) (rgn : Nat) (core : Option Nat) (cluster pc : Nat) (f : Flt) : State :=
  let (s1, r) := s.engRec rgn core cluster pc true f
  (s1.post rgn r).1

/-- An event record of a region posted to a domain (R366). No thread raises it, and no rule gives it a die, a cluster or a PC: they
are free values too (assumption 4). -/
def State.postEvent (s : State) (dom rgn : Nat) (f : Flt) : State :=
  let (n, s0) := s.fresh
  let (s1, r) := s0.engRec rgn none (n % 48) (n / 48 % 2 ^ 64) false f
  (s1.post dom r).1

/-- An event that concerns no region goes to Fjoub's ring (R289, R423). -/
def State.postFjoub (s : State) (code sub : BitVec 8) (addr : Nat) (det : Word) : State :=
  { s with fjRing := s.fjRing ++ [⟨code, sub, addr, det⟩] }

/-! ### The record of a thread -/

/-- `$wg` as a unit reads it: for a Caller, that of its lowest partner (R18, R224). -/
def State.wgIndex (s : State) (x : Wave) : Nat :=
  match s.wgs.find x.wg with
  | some y => y.index.toNat
  | none => 0

/-- The record a thread raises (R164, R224). -/
def State.threadRec (s : State) (w lane pc : Nat) (f : Flt) : Rec :=
  match s.waves.find w with
  | none => { flt := f, eng := false, tid := 0, wg := 0, die := 0, clr := false, clus := 0, core := 0, wave := 0
              lane := 0, ftag := 0, pc := pc, rgn := 0 }
  | some x =>
    let c := w ≥ callerKey
    let k := clusterOfWave w
    { flt := f, eng := false, tid := if c then 0 else 32 * x.wave + lane, wg := s.wgIndex x, die := k / 24 % 2, clr := c
      clus := k % 24, core := if c then 0x7F else w / 128 % 96, wave := if c then 0 else w % 128
      lane := if c then 0 else lane, ftag := s.ftagOf x.rgn, pc := pc, rgn := s.rcbOf x.rgn }

/-! ### The completion counter of a region, and exits -/

/-- A release at `.dev` of all that a region's threads have done: the dirty copies of the cores that held them, and those
of their clusters' service waves, are written back (R305). -/
def State.pushRegion (s : State) (r : Nat) : State :=
  match s.region? r with
  | none => s
  | some x => x.cores.foldl (fun s g => (s.writeBackAll g).writeBackSvc (4 * (g / 4))) s

/-- The region adds 1 to DONEC, and signals it under DIRQ (R347, R352). -/
def State.raiseDone (s : State) (r : Nat) : State :=
  match s.region? r with
  | none => s
  | some x =>
    if x.rcb.donec = 0 then s
    else
      let s1 := match s.placeWr x.fn x.rcb.asr x.rcb.donec.toNat with
        | some key => s.putNum key 8 ((s.num key 8 + 1) % 2 ^ 64)
        | none => s
      if x.rcb.dirq then s1.signal x.fn 2 else s1

/-- The lanes of a wave that are Exited. -/
def Wave.exitedMask (x : Wave) : Word :=
  maskOf ((x.threads.mapIdx fun l t => if t.done then some l else none).filterMap id)

/-- Every lane of a mask has arrived or exited; a lane without a thread counts as exited (R26, R140). -/
def Wave.allIn (x : Wave) (mask arrived : Word) : Bool := mask &&& ~~~(arrived ||| x.exitedMask) == 0

/-- The arrived threads of a completed instance resume after their instruction, which is of the S form (R140, R141). -/
def Wave.resume (x : Wave) (arrived : Word) : Wave :=
  ({ x with threads := x.threads.mapIdx fun l t =>
      if maskHas arrived l then
        match t.st with
        | .blocked (.join _) | .blocked (.wsync _) => { t.countWindow with st := .running, pc := t.pc + 8, popped := [] }
        | _ => t
      else t } : Wave).fixTurn

/-- The join instances that are complete are freed and their threads resume (R140). -/
def Wave.joinsDone (x : Wave) : Wave :=
  x.joins.foldl (fun x e =>
    if x.allIn e.2.mask e.2.arrived then ({ x with joins := x.joins.del e.1 } : Wave).resume e.2.arrived else x) x

/-- The wsync instances that are complete are freed and their threads resume (R141). -/
def Wave.syncsDone (x : Wave) : Wave :=
  x.syncs.foldl (fun x e =>
    if x.allIn e.mask e.arrived then
      ({ x with syncs := x.syncs.filter fun y => !decide (y = e) } : Wave).resume e.arrived
    else x) x

/-- The arrival instances that are complete make their arrival by the exit of a lane, or drop it (R202). -/
def State.arrsByExit (s : State) (w : Nat) : State :=
  match s.waves.find w with
  | none => s
  | some x =>
    let (inn, out) := x.arrs.partition fun a => x.allIn a.mask a.arrived
    inn.foldl (fun s a => s.barArriveOrDrop a.bar) (s.setWave w { x with arrs := out })

/-- An entry of a tile list is clear of a pixel (R380). -/
def Wave.pxClear (x : Wave) (t : TileSt) (px seq : Word) : Bool :=
  t.clearAll.contains seq || t.clear.contains ⟨px, seq⟩ ||
  (t.named.any fun e => e.1 == seq) &&
    (t.named.all fun e => e.1 != seq || e.2 &&& ~~~x.exitedMask == 0)

/-- A lock on a pixel may be granted: it is held or clear already, or every lower entry is clear of it (R380). -/
def Wave.pxGrant (x : Wave) (t : TileSt) (px seq : Word) : Bool :=
  t.held.contains ⟨px, seq⟩ || x.pxClear t px seq ||
  t.seqs.all fun e => decide (seq ≤ e) || x.pxClear t px e

/-- The pixel locks that may be granted wake their threads (R380, R188). -/
def State.pxWake (s : State) (w : Nat) : State :=
  match s.waves.find w with
  | some x =>
    (match x.tile with
     | some t => s.wakeWhere w .sync fun y => match y with
        | .pixel px seq => x.pxGrant t px seq
        | _ => false
     | none => s)
  | none => s

/-- One workgroup leaves its core, and the region counts it (R26, R352). Its windows stay as they are until another takes
their place: engine work that is issued runs on in them (R25), and what they hold at the end can be told (R221, R272). -/
def State.wgGone (s : State) (wg : Nat) : State :=
  match s.wgs.find wg with
  | none => s
  | some y =>
    let gone := { s with wgs := s.wgs.del wg, saved := s.saved.del wg, endedWgs := s.endedWgs.ins wg y }
    match y.kind with
    | .launch => gone.updRegion y.rgn fun r => { r with exited := r.exited + 1 }
    | _ => gone.updRegion y.rgn fun r => { r with pool := r.pool.filter fun e => !decide (some e = y.entry) }

/-- A cluster group is saved (R244). -/
def State.groupSaved (s : State) (g : Group) : Bool :=
  g.members.any fun m => match s.wgs.find m.2 with | some y => y.saved | none => false

/-- Something of a cluster group runs or is saved: a wave of a member, its Caller, or an engine command (R223, R228). -/
def State.groupBusy (s : State) (g : Group) : Bool :=
  g.caller || s.groupSaved g || g.members.any fun m =>
    (s.waves.any fun e => e.2.wg == m.2 && decide (e.2.kind ≠ .caller)) ||
    g.started && !(s.core (4 * g.cluster + m.1)).engine.queue.isEmpty

/-- A cluster group ends as a whole: its workgroups keep their windows and tiles while its Caller or an engine may use
them (R197, R223). -/
def State.groupEnd (s : State) (q : Nat) : State :=
  match s.groups.find q with
  | none => s
  | some g => if s.groupBusy g then s else g.members.foldl (fun s m => s.wgGone m.2) { s with groups := s.groups.del q }

/-- A workgroup whose waves are all gone ends, alone or with its cluster group. -/
def State.wgEnd (s : State) (wg : Nat) : State :=
  match s.wgs.find wg with
  | none => s
  | some y =>
    match y.group with
    | some q => s.groupEnd q
    | none => s.wgGone wg

/-- The wave-clocks of a wave since its core last counted them (R365). The Caller is no wave. -/
def State.owe (s : State) (w : Nat) : State :=
  match s.waves.find w, coreOfWave w with
  | some x, some g =>
    let c := s.core g
    let n := NMap.get 0 c.owed x.rgn + (s.clkOf g - x.charged)
    { s.setCore g { c with owed := c.owed.ins x.rgn n } with waves := s.waves.ins w { x with charged := s.clkOf g } }
  | _, _ => s

/-- A wave whose threads have all exited is gone (R26). -/
def State.waveEnd (s : State) (w : Nat) : State :=
  match s.waves.find w with
  | none => s
  | some x =>
    if x.threads.all Thread.done then
      let s0 := s.owe w
      let s1 := { s0 with waves := s0.waves.del w, ended := s0.ended.ins w x }
      match x.kind with
      | .caller =>
        (match (s1.wgs.find x.wg).bind fun y => y.group with
         | some q => ({ s1 with groups := s1.groups.upd q fun g => { g with caller := false } } : State).wgEnd x.wg
         | none => s1)
      | _ => if s1.waves.any fun e => e.2.wg == x.wg && e.2.kind != .caller then s1.freeDecisions x.wg else s1.wgEnd x.wg
    else s

/-- A thread becomes Exited (R25): its reservation, its return addresses and its spill pointer are discarded, the
instances that wait for its lane are completed, and the turn passes on. -/
def State.exitThread (s : State) (w lane : Nat) : State :=
  let s1 := { s with waves := s.waves.upd w fun x =>
    (((x.updThread lane fun t =>
        { t with st := .exited, resv := none, stack := [], spillp := t.spillb, accs := [] }).joinsDone).syncsDone).fixTurn }
  (((s1.arrsByExit w).pxWake w)).waveEnd w

/-! ### Discarding work (R264, R329, R352) -/

/-- An access that has been performed: a store is complete, an LL result waits to be written. -/
def Acc.performed (val : Option (List Word)) (a : Acc) : Option Acc :=
  match a.dst with
  | some _ => some { a with kind := .calc, val := val, parts := [], ord := .plain, early := none }
  | none => none

/-- A pending access, changed or removed. -/
def Thread.setAcc (t : Thread) (id : Nat) (g : Acc → Option Acc) : Thread :=
  { t with accs := t.accs.filterMap fun a => if a.id = id then g a else some a }

/-- A pending access performed where nothing holds it, and what it returns kept. -/
def State.performKept (s : State) (e : Pend) : State :=
  match s.perform e.w e.lane e.acc with
  | some p => p.s.updThread e.w e.lane fun t => t.setAcc e.acc.id (Acc.performed p.val)
  | none => s

/-- The issued stores and atomics of a terminated thread that are not its facet's own stand (R329). What another wave of its source
has at the home or over the link before one of them comes first (R284, R418). -/
def State.flushWave (s : State) (w : Nat) (x : Wave) : State :=
  x.pending.foldl (fun s e =>
    if e.2.kind.writes && e.2.tag.isNone then
      match e.2.kind with
      | .stc _ => s
      | _ => (((s.chain w e.1 e.2.id).filter fun f => f.w != w) ++ [⟨w, e.1, e.2⟩] : List Pend).foldl State.performKept s
    else s) s

/-- A queue that nothing configures (R264, R267). -/
def GQueue.fresh : GQueue :=
  { enabled := false, cons := 0, dbase := 0, sbase := 0, ssize := 0, dsize := 0, entry := 0, age := 0, fill := 0
    bmax := 0, pri := 0, cfgRgn := none, ticket := 0, slots := [], sOff := 0, wOff := 0, unfreed := []
    faultHeld := false, unwritten := false }

/-- A queue that is disabled and empty reads CONS 00 (R267). -/
def GQueue.rest (q : GQueue) : GQueue := if !q.enabled && q.slots.isEmpty then { q with cons := 0 } else q

/-- The gathering unit drops what belongs to the regions: the queues they configured, their entries and reservations in
others, their bins, and the descriptors of the queues that go (R264, R329). -/
def Cluster.discard (c : Cluster) (rs : List Nat) : Cluster :=
  let mine (q : GQueue) : Bool := match q.cfgRgn with | some r => rs.contains r | none => false
  let goneQ := (c.queues.filter fun e => mine e.2).map Prod.fst
  let keep (e : Nat × GQueue) : Nat × GQueue :=
    if mine e.2 then (e.1, GQueue.fresh)
    else (e.1, ({ e.2 with slots := e.2.slots.filter fun t => !rs.contains t.rgn }).rest)
  { c with
    queues := c.queues.map keep
    bins := c.bins.filter fun e => !rs.contains e.2.rgn
    take := c.take.filter fun t => !goneQ.contains t.queue
    walks := c.walks.filter fun r => !rs.contains r.rgn }

/-- A die drops the sweeps and the bin descriptors of the regions (R378, R402). -/
def Die.discard (d : Die) (rs : List Nat) : Die :=
  { d with
    bins := d.bins.filter fun b => !rs.contains b.rgn
    engines := d.engines.filter fun e => !rs.contains e.2.rgn
    sweepQ := d.sweepQ.filter fun e => !rs.contains e.rgn }

/-- A present queue loses the entries of the regions that have not flipped (R334). -/
def PQueue.discard (q : PQueue) (rs : List Nat) : PQueue :=
  { q with entries := q.entries.filter fun e => !rs.contains e.rgn }

/-- The engines of the cores of a cluster group lose their commands (R244, R329). -/
def State.clearEngines (s : State) (cluster : Nat) (members : List Nat) : State :=
  members.foldl (fun s m =>
    let g := 4 * cluster + m
    let c := s.core g
    let none_ : List (List Word) := [[], [], [], []]
    let e : Engine := { c.engine with queue := [], done := c.engine.issued, streams := none_, backlog := none_, row := 0, piece := 0, read := [] }
    s.setCore g { c with engine := e }) s

/-- The bin memory of a descriptor that is discarded is left undefined (R378): each page takes free bytes. -/
def State.spoilBin (s : State) (b : BinDesc) : State :=
  (List.range ((256 * b.bchk + 4095) / 4096)).foldl (fun s i =>
    match s.placeWr (s.fnOf b.rgn) (s.asrOf b.rgn) (b.bmem.toNat + 4096 * i) with
    | some key => let (v, s1) := s.fresh; s1.baseWrite key (toLe (min 4096 (256 * b.bchk - 4096 * i)) v)
    | none => s) s

/-- The operations in flight towards the window of a workgroup (R362). -/
def State.inFlight (s : State) (wid : Nat) : Nat :=
  let into (d : Done) : Bool := match d with | .bar b => b.wg == wid | .ctr .. => false
  (s.copies.filter fun o => o.wg == wid || o.src == wid || into o.done).length +
  (s.watches.filter fun y => match y.bar with | some b => b.wg == wid | none => false).length

/-- The forwarding entries with their counts; one is freed once its workgroup is restored, or gone, and no operation towards it
is in flight (R362). -/
def State.countFwd (s : State) : State :=
  let keep (f : FwdWg) : Option FwdWg :=
    let n := s.inFlight f.wg
    if (f.restored || (s.wgs.find f.wg).isNone) && n == 0 then none else some { f with count := n }
  if s.cores.all fun e => e.2.fwd.isEmpty then s
  else { s with cores := s.cores.map fun e => (e.1, { e.2 with fwd := e.2.fwd.filterMap keep }) }

/-- A batch loses the records of the regions that go; one that loses all of its records is dropped (R264). -/
def Delivery.without (d : Delivery) (rs : List Nat) : Option Delivery :=
  let recs := d.recs.filter fun e => match d.prods.find e.1 with | some r => !rs.contains r | none => true
  if recs.isEmpty && !d.recs.isEmpty then none else some { d with recs := recs }

/-- Everything the regions have in flight is terminated: their waves, workgroups, engine work, records and presents. -/
def State.discardWork (s : State) (rs : List Nat) : State :=
  let mine (r : Nat) : Bool := rs.contains r
  let dead := s.waves.filter fun e => mine e.2.rgn
  let s1 := dead.foldl (fun s e => (s.flushWave e.1 e.2).owe e.1) s
  let s2 := dead.foldl (fun s e => s.wakeCore (coreOfWave e.1) .rgn) s1
  let s2b := (s2.dies.flatMap fun d => d.bins.filter fun b => mine b.rgn).foldl State.spoilBin s2
  let s3 := (s2b.groups.filter fun e => mine e.2.rgn && e.2.started && !s2b.groupSaved e.2).foldl
    (fun s e => s.clearEngines e.2.cluster (e.2.members.map Prod.fst)) s2b
  let cluster (c : Cluster) : Cluster :=
    let c1 := c.discard rs
    let svc := c1.svc.filter fun q => match s3.waves.find q.wave with | some x => !mine x.rgn | none => false
    { c1 with svc := svc }
  State.countFwd { s3 with
    waves := s3.waves.filter fun e => !mine e.2.rgn
    groups := s3.groups.filter fun e => !mine e.2.rgn
    wgs := s3.wgs.filter fun e => !mine e.2.rgn
    saved := s3.saved.filter fun e => match s3.wgs.find e.1 with | some y => !mine y.rgn | none => false
    clusters := s3.clusters.map fun e => (e.1, cluster e.2)
    dies := s3.dies.map fun d => d.discard rs
    copies := s3.copies.filter fun c => !mine c.rgn
    watches := s3.watches.filter fun x => !mine x.rgn
    deliveries := (s3.deliveries.filter fun d => !mine d.rgn).filterMap fun d => d.without rs
    colls := s3.colls.filter fun c => !mine c.rgn
    ctrHeld := s3.ctrHeld.filter fun c => !mine c.rgn
    presents := s3.presents.map fun q => q.discard rs }

/-! ### Squash and kill -/

/-- One facet set, changed. -/
def State.updSet (s : State) (i : Nat) (g : FSet → FSet) : State := { s with sets := s.sets.modify i g }

/-- Facet f of a set has been squashed (R328). -/
def FSet.isSquashed (x : FSet) (f : Nat) : Bool := x.squashed.getLsbD f

/-- The mask of the facets of a set: bits 1 to NFAC. -/
def FSet.allMask (x : FSet) : Nat := 2 ^ (x.facets.length + 1) - 2

/-- RESC of a set is raised by 1 as a release at `.dev` (R329, R330). -/
def State.raiseResc (s : State) (i : Nat) : State :=
  let key := (s.sets.getD i .fresh).resc
  s.putNum key 8 ((s.num key 8 + 1) % 2 ^ 64)

/-- Every reservation on a grain of a set's window is cleared (R162, R330). -/
def State.clearWindow (s : State) (i : Nat) : State :=
  let fs := (s.sets.getD i .fresh).frames
  let drop (t : Thread) : Thread := match t.resv with
    | some r => if fs.contains (r.grain / 128) then { t with resv := none } else t
    | none => t
  { s with waves := s.waves.map fun e => (e.1, { e.2 with threads := e.2.threads.map drop }) }

/-- A set that is left without an unsquashed facet resolves with no winner (R329): it retires, and RESC is raised. Those
who wait for a commit or squash of it check again. -/
def State.resolveNone (s : State) (i : Nat) : State :=
  let x := s.sets.getD i .fresh
  let live := x.st = .prefixing ∨ x.st = .opened ∨ x.st = .resolving
  if live ∧ x.allMask &&& x.squashed.toNat = x.allMask then
    let s1 := s.updSet i fun x => { x with st := .retiring, winner := 0 }
    (({ s1 with versions := s1.versions.filter fun v => v.set != i } : State).clearWindow i |>.raiseResc i).wakeAll .sync fun y =>
      match y with
      | .commit j _ _ => j == i
      | _ => false
  else s

/-- Regions that are terminated place nothing more, and end (R329, R352). -/
def State.stopRegions (s : State) (rs : List Nat) : State :=
  rs.foldl (fun s r => s.updRegion r fun y => { y with nextWg := y.rcb.nwg, exited := y.rcb.nwg }) s

/-- The facets of a mask are terminated, with the child regions that are bound to them (R329, R349). Their regions place nothing
more and end. -/
def State.squashFacets (s : State) (i : Nat) (mask : Nat) : State :=
  let x := s.sets.getD i .fresh
  let fs := (List.range 8).filter fun f => mask.testBit f && !x.isSquashed f && decide (f ≠ 0)
  let rs := (fs.filterMap fun f => x.facets[f - 1]?).flatMap s.subtree
  let s1 := s.discardWork rs
  let s2 := s1.updSet i fun x => { x with squashed := x.squashed ||| BitVec.ofNat 8 mask }
  let s3 := { s2 with versions := s2.versions.filter fun v => !(v.set == i && fs.contains v.facet) }
  (s3.stopRegions rs).resolveNone i

/-- The facets of prism launches that wait for a set, and whose regions, or whose prefix region, are among those killed: they are
squashed as the set opens (R320, R329), and place nothing. -/
def State.squashWaiting (s : State) (rs : List Nat) : State :=
  let hit (p : PrismReq) : List Nat :=
    (List.range p.facets.length).filter fun k => rs.contains p.preRgn || rs.contains (p.facets.getD k 0)
  let mark (p : PrismReq) : PrismReq := { p with gone := (hit p).foldl (fun a k => a ||| 2 ^ (k + 1)) p.gone }
  ({ s with prisms := s.prisms.map mark } : State).stopRegions
    (s.prisms.flatMap fun p => (hit p).map fun k => p.facets.getD k 0)

/-- The facets of each set whose regions, or whose prefix region, are among those killed, are squashed (R320, R352), whether
their regions have ended or not. -/
def State.squashKilled (s : State) (rs : List Nat) : State :=
  (List.range 4).foldl (fun s i =>
    let x := s.sets.getD i .fresh
    let live := x.st = .prefixing ∨ x.st = .opened ∨ x.st = .resolving
    if live then
      if rs.contains x.preRgn then s.squashFacets i x.allMask
      else
        let fs := (List.range x.facets.length).filter fun k => rs.contains (x.facets.getD k 0)
        if fs.isEmpty then s else s.squashFacets i (fs.foldl (fun a k => a + 2 ^ (k + 1)) 0)
    else s) (s.squashWaiting rs)

/-- The kill of a region and of every descendant that has not ended (R352). -/
def State.killRegion (s : State) (r : Nat) : State :=
  let rs := (s.subtree r).filter fun d => match s.region? d with
    | some x => decide (x.st ≠ .ended) && decide (x.st ≠ .killed)
    | none => false
  let s1 := (s.squashKilled (s.subtree r)).discardWork rs
  rs.foldl (fun s d =>
    ((((s.pushRegion d).updRegion d fun x => { x with st := .killed }).raiseDone d).writeState d)) s1

/-- Suspension of a region's subtree (R357, R364, R365): nothing of it is placed, and its workgroups are to be saved. A gated core that
holds a wave of it wakes with RGN where a quota suspends it, else with PRE: R188 gives a quota suspension its own row, and R360 calls
every suspension a pre-emption (DESIGN CHOICE, assumption 68). -/
def State.suspendRegion (s : State) (r : Nat) (quota : Bool) : State :=
  let rs := (s.subtree r).filter fun d => match s.region? d with
    | some x => decide (x.st = .waiting ∨ x.st = .ready ∨ x.st = .running)
    | none => false
  let s1 := rs.foldl (fun s d =>
    (s.updRegion d fun x => { x with resume := x.st, st := .suspended, quota := quota }).writeState d) s
  let mark (e : Nat × Wg) : Nat × Wg := if rs.contains e.2.rgn then (e.1, { e.2 with saving := true }) else e
  let s2 := { s1 with wgs := s1.wgs.map mark }
  (s2.waves.filter fun e => rs.contains e.2.rgn).foldl
    (fun s (e : Nat × Wave) => s.wakeCore (coreOfWave e.1) (if quota then WakeBit.rgn else .pre)) s2

/-- R364: the quota of a region would be passed: it is suspended with its subtree, and event 0x0F goes to the root. -/
def State.quotaEvent (s : State) (r : Nat) (sub : BitVec 8) : State :=
  (s.suspendRegion r true).postEvent (s.rootOf r) r { code := 0x0F, sub := sub }

/-- The action on a record of code 0x0D (R326, R366): squash of the facet, or of every facet of its set. -/
def State.overflowAction (s : State) (rgn : Nat) : State :=
  match facetOf (s.tagOf rgn) with
  | none => s
  | some (i, f) =>
    if s.actionOf rgn 0x0D = 2 then s.squashFacets i (s.sets.getD i .fresh).allMask
    else s.squashFacets i (2 ^ f)

end Sys2Proof.Machine
end

