-- ==== Sys2Proof/Machine/Ops.lean ====
section
/-! DEFINITION. The shared operations of every instruction: taking a fault and returning from one
(08_thread_memory_traps.md R163 to R166), performing what a thread has issued (17_memory_model.md R298 to R305), and
writing late results (02_instruction_formats.md R34). -/

namespace Sys2Proof.Machine

open Sys2Proof

/-! ### Taking a fault, and returning from one -/

/-- The domain a record goes to (R366): codes 0x0F and 0x12, and 0x14 with subcodes 0x01 to 0x05, go to the tenant root. -/
def State.ringOf (s : State) (rgn : Nat) (f : Flt) : Nat :=
  if f.code = 0x0F ∨ f.code = 0x12 ∨ (f.code = 0x14 ∧ 1 ≤ f.sub.toNat ∧ f.sub.toNat ≤ 5) then s.rootOf rgn
  else rgn

/-- A thread parked at an instruction (R49, R163): its reservation is cleared (R162). -/
def Thread.park (t : Thread) (pc : DWord) (f : Flt) (seq : Nat) : Thread :=
  { t with st := .parked f.code f.sub seq, pc := pc, resv := none }

/-- Delivery (R166): the PC is saved in `epc`, the cause in `ecause`, the handler mark is set, and the thread resumes at
the trap handler. -/
def Thread.deliver (t : Thread) (trape : DWord) (code sub : BitVec 8) : Thread :=
  { t with st := .running, epc := t.pc &&& ~~~3, ecause := 0#16 ++ sub ++ code, mark := true, pc := trape }

/-- Replay (R166): the parked instruction is executed from its start. -/
def Thread.replay (t : Thread) : Thread :=
  match t.st with
  | .parked _ _ _ => { t with st := .running }
  | _ => t

/-- Return from a handler (R169). -/
def Thread.eret (t : Thread) : Thread := { t with pc := t.epc, mark := false }

/-- The turn of a wave after one of its threads has changed. -/
def State.fixTurn (s : State) (w : Nat) : State := { s with waves := s.waves.upd w Wave.fixTurn }

/-- A parked thread is delivered to its region's trap handler. -/
def State.deliverThread (s : State) (w lane : Nat) (rgn : Nat) (code sub : BitVec 8) : State :=
  let trape := match s.region? rgn with | some y => y.rcb.trape | none => 0
  ((s.updThread w lane fun t => t.deliver trape code sub).fixTurn w).wakeCore (coreOfWave w) .fdom

/-- A parked thread is replayed. -/
def State.replayThread (s : State) (w lane : Nat) : State :=
  ((s.updThread w lane Thread.replay).fixTurn w).wakeCore (coreOfWave w) .fdom

/-- The action of the fault domain on a parked thread (R166, R366): 01 delivers, 10 holds, the others kill. -/
def State.domainAct (s : State) (w lane rgn : Nat) (code sub : BitVec 8) (marked : Bool) : State :=
  if code = 0x0D then s.overflowAction rgn
  else
    match s.actionOf rgn code with
    | 1 =>
      if !marked then s.deliverThread w lane rgn code sub
      else if code = 0x04 then s.replayThread w lane
      else s.killRegion rgn
    | 2 => s
    | _ => s.killRegion rgn

/-- One thing a fault domain has to do. -/
def State.doAct (s : State) : DomAct → State
  | .act w lane rgn code sub marked => s.domainAct w lane rgn code sub marked
  | .kill rgn => s.killRegion rgn

/-- A fault domain acts: at once, or, while a group executes its instruction, once every lane of the group has (R163). -/
def State.act (s : State) (a : DomAct) : State :=
  match s.acts with
  | some l => { s with acts := some (l ++ [a]) }
  | none => s.doAct a

/-- From here on the fault domains act after the group (R163). -/
def State.holdActs (s : State) : State := { s with acts := some (s.acts.getD []) }

/-- The group is done: the fault domains act in the order of its faults. -/
def State.actAll (s : State) : State :=
  match s.acts with
  | some l => l.foldl State.doAct { s with acts := none }
  | none => s

/-- An uncorrectable error met by an access of a region (R289): event 0x13, with the domain's action on it where that is a
kill. -/
def State.dataError (s : State) (rgn key : Nat) : State :=
  let s1 := s.postEvent rgn rgn { code := 0x13, sub := 1, addr := some (key % 2 ^ 52) }
  match s1.actionOf rgn 0x13 with
  | 1 | 2 => s1
  | _ => s1.act (.kill rgn)

/-- A table entry that met an uncorrectable error in a walk of a region raises event 0x13 with its place (R280). -/
def State.walkError (s : State) (rgn : Nat) (f : Flt) : State :=
  match f.bad with
  | some key => s.dataError rgn key
  | none => s

/-- `fault` of R49: the record is posted, the thread is parked at the instruction at `pc`, and the domain acts. A table
entry that met an uncorrectable error raises event 0x13 too (R280). -/
def State.takeFault (s : State) (w lane : Nat) (pc : DWord) (f : Flt) : State :=
  match s.waves.find w, s.thread? w lane with
  | some x, some t =>
    let (s1, seq) := s.post (s.ringOf x.rgn f) (s.threadRec w lane pc.toNat f)
    let s2 := ((s1.updThread w lane fun t => t.park pc f seq).fixTurn w).act (.act w lane x.rgn f.code f.sub t.mark)
    s2.walkError x.rgn f
  | _, _ => s

/-- Fault 0x0F of R364: the thread is parked, the region whose quota would be passed is suspended, and the record goes to
the tenant root; the thread is replayed when the region is resumed. -/
def State.takeQuota (s : State) (w lane : Nat) (pc : DWord) (ov : Nat) (det1 : Nat := 0) : State :=
  match s.waves.find w with
  | some x =>
    let f : Flt := { code := 0x0F, sub := 1, det1 := det1 }
    let (s1, seq) := s.post (s.rootOf x.rgn) (s.threadRec w lane pc.toNat f)
    ((s1.updThread w lane fun t => t.park pc f seq).fixTurn w).suspendRegion ov true
  | none => s

/-! ### What a thread has issued -/

/-- The pending access of a thread with a number. -/
def State.accOf (s : State) (w lane id : Nat) : Option Acc :=
  (s.thread? w lane).bind fun t => t.accs.find? fun a => a.id == id

/-- The virtual address of the sector at a place that an access touches. -/
def Acc.vaOf (a : Acc) (key : Nat) : Nat :=
  match a.parts.find? fun p => decide (p.key / 64 * 64 ≤ key) && decide (key < p.key + p.size) with
  | some p => (p.va + key - p.key) % 2 ^ 64
  | none => key

/-- The accesses of a thread that a release has been performed ahead of are due before what acquires in its scope. -/
def Thread.markDue (t : Thread) (a : Acc) : Thread :=
  { t with accs := t.accs.map fun e => if e.id < a.id && lags e a then { e with due := a.scope :: e.due } else e }

/-- Room in a feed stream, where what is performed is an element of one, wakes those that wait for it (R188, R211). -/
def State.feedWake (s : State) (w : Nat) (a : Acc) : State :=
  match a.feed with
  | none => s
  | some n => s.wakeWhere w .qfed fun y => match y with
    | .queue qs => qs.contains (8 + n)
    | _ => false

/-- What a thread has issued before an access of its own is performed as far as nothing holds it, and the core's dirty copies are
pushed: the release at `.dev` that the write of a record is (R366). -/
def State.releaseLast (s : State) (w lane id : Nat) : State :=
  let s1 := match s.thread? w lane with
    | none => s
    | some t => (t.accs.filter fun (a : Acc) => decide (a.id < id)).foldl (fun (s : State) (a : Acc) => (s.chain w lane a.id).foldl State.performKept s) s
  s1.pushFor w .dev (match s1.thread? w lane with | some t => t.clsAt | none => false)

/-- One access performed at its points (R155, R245): its data error is reported, and a version that found no room makes its
facet take fault 0x0D and leaves no result (R163, R326). A load that was performed ahead of an acquire keeps its value where
that stands (R294). None while it is held (R325). -/
def State.performRaw (s : State) (w lane : Nat) (a : Acc) : Option State :=
  match a.kind with
  | .calc => some s
  | _ =>
    let ahead : Bool := match s.thread? w lane with
      | some t => a.isAcquire && t.accs.any fun b => b.early.any fun e => e.past == a.id
      | none => false
    let s0 := if ahead then s.updThread w lane fun t => t.checkEarly a.id (s.bytesOf w a) else s
    (s0.perform w lane a).map fun p =>
      let done := if p.full.isSome then fun _ => none else Acc.performed p.val
      let s1 := (p.s.updThread w lane fun t => (t.setAcc a.id done).markDue a).feedWake w a
      let s2 := if a.kind.writes then State.passOver s0 s1 (.thread w lane) a else s1
      let rgn := match s.waves.find w with | some x => x.rgn | none => 0
      let s3 := match p.bad with
        | some key => s2.dataError rgn key
        | none => s2
      match p.full with
      | some key => (s3.releaseLast w lane a.id).takeFault w lane a.pc
          { code := 0x0D, sub := 0, addr := some (a.vaOf key), wr := true, det1 := a.popped.toNat }
      | none => s3

/-- The accesses that are due before what an agent does at a scope, by thread (R294, R303). -/
def State.dueFor (s : State) (y : Party) (scope : Scope) : List Pend :=
  s.waves.flatMap fun e => (e.2.threads.mapIdx fun l t =>
    (t.accs.filter fun a => a.due.any fun sc => s.mutual (.thread e.1 l) sc y scope).map fun a => ⟨e.1, l, a⟩).flatten

/-- What is due before an event of an agent at a scope is performed, each access after those that come before it, and pushed as
the release did that it is due for (R303, R305). What a relaxed access among them has due comes first, in so many steps. None while
some of it is held. -/
def State.forceIn (s : State) (y : Party) (scope : Scope) : Nat → Option State
  | 0 => some s
  | n + 1 =>
    let one (s : State) (e : Pend) : Option State :=
      match s.accOf e.w e.lane e.acc.id with
      | none => some s
      | some a => (if a.ord = .plain then some s else s.forceIn (.thread e.w e.lane) a.scope n).bind fun s1 => s1.performRaw e.w e.lane a
    let clsAt (s : State) (e : Pend) : Bool := match s.thread? e.w e.lane with | some t => t.clsAt | none => false
    (s.dueFor y scope).foldl (fun r e => r.bind fun s1 =>
      ((s1.chain e.w e.lane e.acc.id).foldl (fun r f => r.bind fun s2 => one s2 f) (some s1)).map fun s2 =>
        e.acc.due.foldl (fun s sc => s.pushFor e.w sc (clsAt s e)) s2) (some s)

/-- What is due before an event of an agent at a scope is performed (R294, R303). None while some of it is held. -/
def State.force (s : State) (y : Party) (scope : Scope) : Option State := s.forceIn y scope 8

/-- An acquire of a thread at a scope (R302 to R305): what releases that are mutually in scope with it have left is performed,
and the core's clean copies of class P go. -/
def State.acquireAt (s : State) (w lane : Nat) (scope : Scope) : Option State :=
  (s.force (.thread w lane) scope).map fun s1 => s1.pullFor w scope

/-- One access performed: one at a scope after what is due before it (R294). -/
def State.performOne (s : State) (w lane : Nat) (a : Acc) : Option State :=
  if a.ord = .plain then s.performRaw w lane a
  else (s.force (.thread w lane) a.scope).bind fun s1 => s1.performRaw w lane a

/-- Accesses, each by its wave, its lane and its number, performed in order; one that is gone is passed over. -/
def State.performList (s : State) : List (Nat × Nat × Nat) → Option State
  | [] => some s
  | (w, l, id) :: rest =>
    match s.accOf w l id with
    | none => s.performList rest
    | some a => (s.performOne w l a).bind fun s1 => s1.performList rest

/-- An access and those that must be performed before it (R300), each by its wave, its lane and its number. -/
def State.chainIds (s : State) (w lane id : Nat) : List (Nat × Nat × Nat) := (s.chain w lane id).map fun e => (e.w, e.lane, e.acc.id)

/-- The next request of a cluster's service wave performed, with what comes before it (R247). -/
def State.serveOne (s : State) (k : Nat) (q : SvcReq) : Option State :=
  (s.performList (s.chainIds q.wave q.lane q.acc)).map fun s1 =>
    let c := s1.cluster k
    s1.setCluster k { c with svc := c.svc.filter fun e => !decide (e = q) }

/-- The requests of a queue up to and with one of them. -/
def upTo (q : SvcReq) : List SvcReq → List SvcReq
  | [] => []
  | e :: l => if e = q then [e] else e :: upTo q l

/-- An access performed in its place: a request of the service wave after those that reached the queue before it (R247). -/
def State.performElem (s : State) (e : Nat × Nat × Nat) : Option State :=
  let k := clusterOfWave e.1
  let q : SvcReq := ⟨e.1, e.2.1, e.2.2⟩
  if (s.cluster k).svc.contains q then
    (upTo q (s.cluster k).svc).foldl (fun r e => r.bind fun s1 => s1.serveOne k e) (some s)
  else s.performList [e]

/-- An access performed, after those that must be performed before it (R300). -/
def State.performUpTo (s : State) (w lane id : Nat) : Option State :=
  (s.chainIds w lane id).foldl (fun r e => r.bind fun s1 => s1.performElem e) (some s)

/-- What a thread has issued, of a kind, is performed in order. -/
def State.drainIf (s : State) (w lane : Nat) (p : Acc → Bool) : Option State :=
  match s.thread? w lane with
  | none => some s
  | some t => (t.accs.filter p).foldl (fun r a => r.bind fun s1 => s1.performUpTo w lane a.id) (some s)

/-- Every access of a thread performed in order: what a join arrival and an exit wait for. -/
def State.drain (s : State) (w lane : Nat) : Option State := s.drainIf w lane fun _ => true

/-- Something of the thread is still to be performed. -/
def Thread.busy (t : Thread) : Bool := t.accs.any fun a => decide (a.kind ≠ .calc)

/-- The requests that a wave has made of its service wave are performed (R247). -/
def State.drainSvc (s : State) (w : Nat) : Option State :=
  let k := clusterOfWave w
  ((s.cluster k).svc.filter fun q => q.wave == w).foldl (fun r q => r.bind fun s1 => s1.performUpTo q.wave q.lane q.acc) (some s)

/-- A release at a scope after the accesses of a kind (R302, R305): they are performed, with the wave's requests to the service
wave where the scope is wider than `.cls` (R247), and the core's dirty copies are pushed. -/
def State.releaseIf (s : State) (w lane : Nat) (scope : Scope) (p : Acc → Bool) : Option State :=
  ((s.drainIf w lane p).bind fun s1 => if Scope.beyondCls scope then s1.drainSvc w else some s1).map fun s1 =>
    s1.pushFor w scope (match s1.thread? w lane with | some t => t.clsAt | none => false)

/-- A release at a scope (R302, R305): the thread's earlier accesses are performed, but for its reads through the constant cache,
which are ordered against no store (R157). -/
def State.releaseAt (s : State) (w lane : Nat) (scope : Scope) : Option State := s.releaseIf w lane scope fun a => !a.kind.isConst

/-- An arrival that releases at a scope, of an instruction: a free value says whether it comes ahead of the thread's earlier plain and
relaxed stores; what acts next in its scope waits for those (R294, R303; assumption 63). -/
def State.releaseLag (s : State) (w lane : Nat) (scope : Scope) (id : Nat) : Option State :=
  if Config.late id then
    (s.releaseIf w lane scope fun a => !a.kind.isConst && !a.mayLag).map fun s1 => s1.updThread w lane fun t =>
      { t with accs := t.accs.map fun a => if a.mayLag then { a with due := scope :: a.due } else a }
  else s.releaseAt w lane scope

/-- The fault of a thread by an instruction (R49): the record's write is a release at `.dev` of what the thread has done (R366). None
while some of that is held. -/
def State.raise? (s : State) (w lane : Nat) (pc : DWord) (f : Flt) : Option State :=
  (s.releaseAt w lane .dev).map fun s1 => s1.takeFault w lane pc f

/-- The fault of a thread by an instruction; the thread stands as it did while what it has done is held. -/
def State.raise (s : State) (w lane : Nat) (pc : DWord) (f : Flt) : State := (s.raise? w lane pc f).getD s

/-- Fault 0x0F of a thread by an instruction (R364); its record's write is a release at `.dev` (R366). None while some of what the
thread has done is held. -/
def State.raiseQuota? (s : State) (w lane : Nat) (pc : DWord) (ov : Nat) (det1 : Nat := 0) : Option State :=
  (s.releaseAt w lane .dev).map fun s1 => s1.takeQuota w lane pc ov det1

/-- An access that stands for what is issued after others, with the number of its instruction. -/
def probe (id : Nat) (kind : AccKind) (space : Space) (parts : List Part) : Acc :=
  { id := id, kind := kind, space := space, parts := parts, ord := .plain, scope := .thr, tag := none, dst := none, win := 0
    val := none, pc := 0 }

/-- What a thread has issued before an access, and that is ordered before it, is performed. -/
def State.settleFor (s : State) (w lane : Nat) (y : Acc) : Option State :=
  s.drainIf w lane fun a => decide (a.id < y.id) && s.ordered w a y

/-- A barrier operation is issued: what R300 orders before it as before a store is performed (R300, R304), and the thread's earlier
read-modify-writes of a window, which the same scratch atomic unit performs in issue order (R245, R246). -/
def State.barIssue (s : State) (w lane id : Nat) : Option State :=
  (s.settleFor w lane (probe id (.store []) .glob [])).bind fun s1 =>
    s1.drainIf w lane fun a => decide (a.id < id) && a.kind.isRmw && decide (a.space ≠ .glob)

/-- The release that a `fence.rel` makes of an arrival or an engine issue (R304). -/
def State.fencedRelease (s : State) (w lane : Nat) : Option State :=
  match (s.thread? w lane).bind fun t => t.fenced with
  | some sc => (s.releaseAt w lane sc).map fun s1 => s1.updThread w lane fun t => { t with fenced := none }
  | none => some s

/-- An engine operation is issued: what R300 orders before it as before a store is performed (R300, R304, R307). -/
def State.engineIssue (s : State) (w lane id : Nat) : Option State :=
  (s.barIssue w lane id).bind fun s1 => s1.fencedRelease w lane

/-- The issuer's accesses before an instruction that touch bytes which it, or its operation, touches now (R159, R214). -/
def State.settleOwn (s : State) (w lane id : Nat) (space : Space) (key size : Nat) : Option State :=
  s.settleFor w lane (probe id (.store []) space [⟨key, key, size, .h⟩])

end Sys2Proof.Machine

namespace Sys2Proof

/-- The first entry of the register file a v field names: in the Caller, c n is v(2n) and v(2n+1) (R40). -/
def Unit2.idx (u : Unit2) (n : Nat) : Nat := match u with | .w => n | .c => 2 * n

/-- A result as the unit's registers hold it: a 32-bit result of the Caller is zero-extended (R40). -/
def Unit2.regWords (u : Unit2) (ws : List Word) : List Word :=
  match u, ws with
  | .c, [x] => [x, 0]
  | _, _ => ws

end Sys2Proof

namespace Sys2Proof.Machine

open Sys2Proof

/-- Words written to consecutive registers. -/
def putWords (m : NMap Word) (n : Nat) : List Word → NMap Word
  | [] => m
  | x :: xs => putWords (NMap.put 0 m n x) (n + 1) xs

/-- A predicate written; p7 discards it (R16). -/
def Thread.putPred (t : Thread) (n : BitVec 3) (v : Bool) : Thread :=
  if n = 7 then t
  else
    let m : BitVec 8 := 1#8 <<< n.toNat
    { t with preds := if v then t.preds ||| m else t.preds &&& ~~~m }

/-- The part of R38 that one thread holds: a result written to a v register or a predicate. -/
def Thread.putDst (u : Unit2) (o : Operand) (ws : List Word) (t : Thread) : Thread :=
  match o with
  | .v n => { t with v := putWords t.v (u.idx n.toNat) (u.regWords ws) }
  | .p n => t.putPred n ((ws.headD 0).getLsbD 0)
  | _ => t

/-- The size of the TOB window of a workgroup (R196). -/
def State.tobSize (s : State) (wg : Nat) : Nat :=
  match s.wgAt wg with
  | some y => y.tobBanks * 131072
  | none => 0

/-- An access as the thread's last `fence.rel` has it: a store after it is a release (R304). -/
def Acc.fencedBy (a : Acc) (f : Option Scope) : Acc :=
  match f with
  | some sc => if a.kind.writes then
      { a with ord := if a.ord.acquires then .ar else .rel, scope := if a.ord.releases then Scope.join a.scope sc else sc }
    else a
  | none => a

/-- The element of instruction `id` that a lane pushes to feed stream n of a wave, at the stream's pointer: a store of the
thread, which waits in the stream (R211). -/
def Wave.feedElem (x : Wave) (id : Nat) (pc : DWord) (n : Nat) (v : Word) : Acc :=
  let off := (x.feedp.getD n 0).toNat
  { probe id (.store (toLe 4 v.toNat)) (.tob x.wg) [⟨off, off, 4, .h⟩] with pc := pc, feed := some n }

/-- An element pushed to a feed stream of a wave: a store of the thread, a release after a `fence.rel` (R304), and the pointer
advances by 4 (R211). Past the last offset of 2^22 it goes on at 0: PTR has no bit above, and no rule says so (DESIGN CHOICE,
assumption 69). -/
def Wave.pushFeed (x : Wave) (lane id : Nat) (pc : DWord) (n : Nat) (v : Word) : Wave :=
  let a := x.feedElem id pc n v
  { x.updThread lane (fun t => { t with accs := t.accs ++ [Acc.fencedBy a t.fenced], fenced := none }) with
    feedp := x.feedp.set n (BitVec.ofNat 32 (((x.feedp.getD n 0).toNat + 4) % 2 ^ 22)) }

/-- The element of a lane pushed where it lies inside the TOB window, else the offset at which it would lie (R211). -/
def State.pushElem (s : State) (w lane id : Nat) (pc : DWord) (n : Nat) (v : Word) : Except Nat State :=
  match s.waves.find w with
  | none => .ok s
  | some x =>
    let off := (x.feedp.getD n 0).toNat
    if off + 4 ≤ s.tobSize x.wg then .ok { s with waves := s.waves.ins w (x.pushFeed lane id pc n v) } else .error off

/-- Fault 0x07 of an element beyond the TOB window (R211). -/
def feedFault (off : Nat) : Flt := { code := 7, sub := 1, addr := some off, wr := true }

/-- R38: a result of a thread written to a destination. An s or k register takes it for the whole wave (R17). What is
pushed to a queue register is no value of the wave (R211). -/
def Wave.putDst (x : Wave) (lane : Nat) (o : Operand) (ws : List Word) : Wave :=
  match o with
  | .s n => { x with s := putWords x.s n.toNat ws }
  | .k n => { x with k := NMap.put 0 x.k n.toNat (ws.headD 0) }
  | _ => x.updThread lane (Thread.putDst x.unit o ws)

/-- A result written. -/
def State.putDst (s : State) (w lane : Nat) (o : Operand) (ws : List Word) : State :=
  { s with waves := s.waves.upd w fun x => x.putDst lane o ws }

/-- One LL result written, and the access complete. A queue register is pushed its low word (R211); an element beyond the window is
the fault of its instruction, with what that popped (R208). None while something is held. -/
def State.returnOne (s : State) (w lane id : Nat) : Option State :=
  (s.performUpTo w lane id).bind fun s1 =>
    match s1.accOf w lane id with
    | some a =>
      (match a.dst, a.val with
       | some d, some v =>
         let s2 := s1.updThread w lane fun t => t.setAcc id fun _ => none
         (match d.op with
          | .q n => (match s2.pushElem w lane id a.pc (n.toNat - 8) (v.headD 0) with
            | .ok s3 => some s3
            | .error off => s2.raise? w lane a.pc { feedFault off with det1 := a.popped.toNat })
          | o => some (if d.wr then s2.putDst w lane o v else s2))
       | _, _ => some s1)
    | none => some s1

/-- The queue register a result is pushed to. -/
def Acc.queue? (a : Acc) : Option Nat :=
  match a.dst with
  | some ⟨.q n, _, _⟩ => some n.toNat
  | _ => none

/-- An LL result returned (R34). Elements of one feed stream are pushed in issue order and lane order (R211). -/
def State.returnAcc (s : State) (w lane id : Nat) : Option State :=
  match s.waves.find w, s.accOf w lane id with
  | some x, some a =>
    (match a.queue? with
     | none => s.returnOne w lane id
     | some n =>
       let first := x.pending.filter fun e => decide (e.2.queue? = some n) &&
         (decide (e.2.id < id) || (e.2.id == id && decide (e.1 ≤ lane)))
       first.foldl (fun r e => r.bind fun s1 => s1.returnOne w e.1 e.2.id) (some s))
  | _, _ => some s

/-- Every pending result of a thread written and every access performed (R144). -/
def State.returnAll (s : State) (w lane : Nat) : Option State :=
  match s.thread? w lane with
  | none => some s
  | some t =>
    (t.accs.foldl (fun r a => r.bind fun s1 => if a.dst.isSome then s1.returnAcc w lane a.id else some s1)
      (some s)).bind fun s1 => s1.drain w lane

end Sys2Proof.Machine
end

