-- ==== Sys2Proof/Machine/Operands.lean ====
section
/-! DEFINITION. Issue: the group of an instruction, its guard, its interlocks, its queue accesses, the value of every
source class and the effect of every destination class (01_thread_state.md R13 to R19, 02_instruction_formats.md R33 to
R41, 11_core_scratchpad_barriers.md R208 to R211, 13_cluster_caller_matrix.md R224). -/

namespace Sys2Proof.Machine

open Sys2Proof

/-- What is fixed while an instruction issues: the unit and its state after the interlocks, the instruction's
description, PC and length, the lanes of the path, those whose guard holds (`group` of R43), the number of its accesses,
`$wg`, the clock, the version tag of its accesses, and the elements popped from queue registers by register and lane. -/
structure Ctx where
  w : Nat
  x : Wave
  u : Unit2
  e : Desc
  pc : DWord
  path : List Nat
  group : List Nat
  id : Nat
  wgi : Nat
  clk : Nat
  tag : Option (BitVec 5)
  pops : List (Nat × Nat × Word)
  deriving DecidableEq, Repr

/-- The length of the instruction in bytes. -/
def Ctx.len (c : Ctx) : Nat := c.e.f.form.bytes

/-- The PC after the instruction. -/
def Ctx.npc (c : Ctx) : DWord := c.pc + BitVec.ofNat 64 c.len

/-- The lowest lane of the path. -/
def Ctx.low (c : Ctx) : Nat := c.path.headD 0

/-- An empty thread, for lanes that have none. -/
def Thread.empty : Thread :=
  { st := .exited, pc := 0, v := [], preds := 0, stack := [], spillb := 0, spilll := 0, spillp := 0, spl := false
    lav := false, sdep := 0, fac := false, epc := 0, ecause := 0, mark := false, cychi := 0, resv := none, accs := []
    elem := none, clsAt := false, popped := [], fenced := none }

/-- The thread of a lane as it was when the instruction issued. -/
def Ctx.thread (c : Ctx) (lane : Nat) : Thread := c.x.threads.getD lane .empty

/-! ### Sources -/

/-- A v register, or the low half of a c register. -/
def Thread.reg (t : Thread) (n : Nat) : Word := NMap.get 0 t.v n

/-- Words of consecutive registers as one value, the lowest first. -/
def regsVal (m : NMap Word) (n : Nat) : Nat → Nat
  | 0 => 0
  | k + 1 => (NMap.get 0 m n).toNat + 2 ^ 32 * regsVal m (n + 1) k

/-- A predicate read (R16). -/
def Thread.pred (t : Thread) (n : BitVec 3) : Bool := n == 7 || t.preds.getLsbD n.toNat

/-- The guard of R33. -/
def Thread.guard (t : Thread) (f : Frame) : Bool := t.pred f.gp != f.gs

/-- The special registers of R18, and of R224 in the Caller. -/
def Ctx.special (c : Ctx) (lane n : Nat) : Nat :=
  let t := c.thread lane
  let caller := c.u == .c
  match n with
  | 0 => if caller then 0 else 32 * c.x.wave + lane
  | 1 => if caller then 0 else lane
  | 2 => if caller then 0 else c.x.wave
  | 3 => c.wgi
  | 4 => if caller then 0xFFFFFFFF else c.w / 128 % 96
  | 5 => clusterOfWave c.w % 24
  | 6 => clusterOfWave c.w / 24
  | 7 => match c.tag with | some g => tagFacet g | none => 0
  | 8 => match c.tag with | some g => tagSet g | none => 0
  | 9 => c.clk % 2 ^ 32
  | 10 => t.cychi.toNat
  | 11 => if caller then 1 else (maskOf c.group).toNat
  | 12 => match t.elem with | some e => e.index.toNat | none => 0xFFFFFFFF
  | 13 => match t.elem with | some e => e.ctxVa.toNat % 2 ^ 32 | none => 0
  | _ => 0

/-- The element a lane popped from a queue register; a 64-bit read has no stated upper half. -/
def Ctx.popped (c : Ctx) (lane n words : Nat) : Nat :=
  match c.pops.find? fun e => e.1 == n && e.2.1 == lane with
  | some e => e.2.2.toNat + (if words = 2 then 2 ^ 32 * (Config.queueHigh n).toNat else 0)
  | none => 0

/-- An integer n as a literal of a floating format (R39). -/
def litBits (n : Nat) (f : Fmt) : Nat := roundF (.ofInt n) f .rne false

/-- The value of a source operand of a lane, of so many 32-bit registers (R39, R40). -/
def Ctx.src (c : Ctx) (lane : Nat) (o : Operand) (words : Nat) : Nat :=
  let t := c.thread lane
  match o with
  | .v n => regsVal t.v (c.u.idx n.toNat) words
  | .lit n => n.toNat
  | .s n => regsVal c.x.s n.toNat words
  | .q n => c.popped lane n.toNat words
  | .sr n => c.special lane n.toNat
  | .p n => b2n (t.pred n)
  | .k n => (NMap.get 0 c.x.k n.toNat).toNat
  | .bad _ => 0

/-- Field A, B or C of a lane (R43). -/
def Ctx.a (c : Ctx) (lane : Nat) (words : Nat := 1) : Nat := c.src lane c.e.f.a words
/-- Field B of a lane. -/
def Ctx.b (c : Ctx) (lane : Nat) (words : Nat := 1) : Nat := c.src lane c.e.f.b words
/-- Field C of a lane. -/
def Ctx.c (c : Ctx) (lane : Nat) (words : Nat := 1) : Nat := c.src lane c.e.f.c words
/-- Field D of a lane, where it is a source. -/
def Ctx.d (c : Ctx) (lane : Nat) (words : Nat := 1) : Nat := c.src lane c.e.f.d words

/-- The signed immediate X of R32. -/
def Ctx.immX (c : Ctx) : Int := c.e.f.x.toInt

/-- sext(I, 32). -/
def Ctx.immI (c : Ctx) : Int := c.e.f.i.toInt

/-- The M form's sext(X, 21), and 0 in the S form. -/
def Ctx.offX (c : Ctx) : Int := if c.e.f.isS then 0 else c.immX

/-! ### Interlocks (R34) -/

end Sys2Proof.Machine

namespace Sys2Proof

/-- The registers a v operand of so many words names. -/
def Unit2.span (u : Unit2) (words : Nat) : Nat := match u with | .w => words | .c => (words + 1) / 2

/-- Two operands name a register in common. -/
def Operand.meets (u : Unit2) (o : Operand) (n : Nat) (p : Operand) (m : Nat) : Bool :=
  let near (a i b j : Nat) : Bool := decide (a < b + j) && decide (b < a + i)
  match o, p with
  | .v a, .v b => near a.toNat (u.span n) b.toNat (u.span m)
  | .s a, .s b => near a.toNat n b.toNat m
  | .p a, .p b => a == b && a != 7
  | .k a, .k b => a == b
  | .q a, .q b => a == b
  | _, _ => false

/-- The predicates an instruction names outside its operand fields, but the guard. -/
def namedPreds : Instr → List (Operand × Nat)
  | .iaddc _ pd | .isubb _ pd => [(.p pd, 1)]
  | .sel _ _ _ ps => [(.p ps, 1)]
  | _ => []

/-- What an instruction reads and writes, with the words of each. -/
def touches (e : Desc) (i : Instr) : List (Operand × Nat) :=
  (e.operands.map fun po => (po.2, po.1.words)) ++ namedPreds i

/-- A result belongs to the whole wave. -/
def Operand.shared : Operand → Bool
  | .s _ | .k _ | .q _ => true
  | _ => false

end Sys2Proof

namespace Sys2Proof.Machine

open Sys2Proof

/-- The pending results that hold a lane back, with whether the wait lies inside the lane's own window: those of its own
whose window is over or that the operands touch, and those of any lane in a register of the wave that they touch. -/
def Wave.holders (x : Wave) (u : Unit2) (lane : Nat) (ops : List (Operand × Nat)) : List (Nat × Nat × Bool) :=
  x.pending.filterMap fun (l, a) =>
    match a.dst with
    | none => none
    | some d =>
      let hit := ops.any fun o => o.1.meets u o.2 d.op d.words
      if l = lane then
        (if a.win = 0 then some (l, a.id, false) else if hit then some (l, a.id, true) else none)
      else if hit && d.op.shared then some (l, a.id, false)
      else none

/-- The lanes wait for what holds them back (R34); a wait inside a window sets LAV in every lane whose own window it is. None while an
access is held. -/
def State.settle (s : State) (w : Nat) (u : Unit2) (ops : List (Operand × Nat)) (lanes : List Nat) : Option State :=
  match s.waves.find w with
  | none => some s
  | some x =>
    if x.threads.all fun t => t.accs.isEmpty then some s
    else
      let late := lanes.filter fun lane => (x.holders u lane ops).any fun h => h.2.2
      let s1 := late.foldl (fun s lane => s.updThread w lane fun t => { t with lav := true }) s
      lanes.foldl (fun r lane => r.bind fun s2 =>
        match s2.waves.find w with
        | none => some s2
        | some y => (y.holders u lane ops).foldl (fun r h => r.bind fun s3 => s3.returnAcc w h.1 h.2.1) (some s2)) (some s1)

/-! ### Queue registers (R208 to R211) -/

end Sys2Proof.Machine

namespace Sys2Proof

/-- The queue registers read, each once. -/
def Desc.queueSrcs (e : Desc) : List Nat :=
  (e.operands.filterMap fun po => match po.2 with
    | .q n => if po.1.use = .dst then none else some n.toNat
    | _ => none).eraseDups

/-- The queue register written. -/
def Desc.queueDst (e : Desc) : Option Nat :=
  match e.d, e.f.d with
  | some p, .q n => if p.use = .dst then some n.toNat else none
  | _, _ => none

/-- R208: a queue register is used against its direction. -/
def Desc.queueBad (e : Desc) : Bool :=
  e.queueSrcs.any (fun n => decide (8 ≤ n)) || (match e.queueDst with | some n => decide (n ≤ 4) | none => false)

end Sys2Proof

namespace Sys2Proof.Machine

open Sys2Proof

/-- The elements of q n that so many threads can pop now, if they are there: q0 gives its one decision to each. -/
def State.popView (s : State) (w : Nat) (x : Wave) (q n : Nat) : Option (List Word) :=
  if q = 0 then
    match s.wgs.find x.wg with
    | some y => (y.dq[x.dqPos - y.dqHead]?).map fun v => List.replicate n v
    | none => none
  else
    match coreOfWave w with
    | some g =>
      let l := (s.core g).engine.streams.getD (q - 1) []
      if n ≤ l.length then some (l.take n) else none
    | none => none

/-- Elements move from what a drain has still to push into its stream's buffer of 256 (R210). -/
def Engine.refill (e : Engine) (n : Nat) : Engine :=
  let l := e.streams.getD n []
  let b := e.backlog.getD n []
  let k := min (256 - l.length) b.length
  { e with streams := e.streams.set n (l ++ b.take k), backlog := e.backlog.set n (b.drop k) }

/-- The pop of q n by so many threads. -/
def State.popQueue (s : State) (w : Nat) (x : Wave) (q n : Nat) : State :=
  if q = 0 then
    ({ s with waves := s.waves.upd w fun x => { x with dqPos := x.dqPos + 1 } } : State).freeDecisions x.wg
  else
    match coreOfWave w with
    | some g =>
      let c := s.core g
      let e := c.engine
      let l := (e.streams.getD (q - 1) []).drop n
      let e1 : Engine := { e with streams := e.streams.set (q - 1) l }
      s.setCore g { c with engine := e1.refill (q - 1) }
    | none => s

/-- The feed stream that a waiting thread's status will be pushed to. -/
def Thread.waitQueue (t : Thread) : Option Nat :=
  match t.st with
  | .blocked (.phase _ _ _ ⟨.q n, _, _⟩ _ _ _ _) => some n.toNat
  | _ => none

/-- A feed stream has room for so many elements, with those that pending results and waits will push (R211). -/
def Wave.feedRoom (x : Wave) (q n : Nat) : Bool :=
  let later := (x.pending.filter fun e => decide (e.2.queue? = some q)).length
  let held := (x.pending.filter fun e => e.2.feed == some (q - 8)).length
  let waits := (x.threads.filter fun t => decide (t.waitQueue = some q)).length
  decide (held + later + waits + n ≤ 64)

/-- The element of q n that a lane has popped for this instruction and not used yet. -/
def Ctx.kept (c : Ctx) (q lane : Nat) : Option Word := ((c.thread lane).popped.find? fun e => e.1 == q).map Prod.snd

/-- The queue accesses of a group (R208): none while it cannot complete all of them, else the state after the pops and
what each lane popped. A lane that still holds the element it popped for this instruction pops no other. -/
def State.queueAccess (s : State) (c : Ctx) : Option (State × List (Nat × Nat × Word)) :=
  let n := c.group.length
  if n = 0 then some (s, [])
  else
    let room := match c.e.queueDst with
      | some q => c.x.feedRoom q n
      | none => true
    if !room then none
    else
      c.e.queueSrcs.foldl (fun r q => r.bind fun (s1, pops) =>
        let held := c.group.filterMap fun l => (c.kept q l).map fun v => (q, l, v)
        let need := c.group.filter fun l => (c.kept q l).isNone
        if need.isEmpty then some (s1, pops ++ held)
        else
          (s1.popView c.w c.x q need.length).map fun l =>
            (s1.popQueue c.w c.x q need.length, pops ++ held ++ ((need.zip l).map fun (lane, v) => (q, lane, v))))
        (some (s, []))

/-- What a group pops it acquires at `.cls` (R209, R302, R307): the decision its Caller has put, or the words its engine has
pushed. None while an access that the acquire waits for is held. -/
def State.popAcquire (s : State) (c : Ctx) : Option State :=
  if c.e.queueSrcs = [] then some s
  else c.group.foldl (fun r l => r.bind fun s1 => s1.acquireAt c.w l .cls) (some s)

/-! ### Issue -/

/-- The lowest lane of the group takes an s or k result (R17). -/
def Ctx.lead (c : Ctx) : Nat := c.group.headD 0

/-- A lane goes on to the next instruction. -/
def Thread.advance (t : Thread) (npc : DWord) : Thread := { t.countWindow with st := .running, pc := npc, popped := [] }

/-- A lane that has not executed its instruction after all stands at it again, with its windows as they were. -/
def Thread.undo (t : Thread) (pc : DWord) (id : Nat) : Thread :=
  { t with pc := pc
           accs := t.accs.map fun a => if a.dst.isSome && decide (a.id < id) then { a with win := a.win + 1 } else a }

/-- The operand buffer after an instruction (R36). -/
def Ctx.retained (c : Ctx) : List (Option Nat) :=
  let written (n : Nat) : Bool := match c.e.d, c.e.f.d with
    | some p, .v d => p.use != .src && decide (d.toNat ≤ n) && decide (n < d.toNat + p.words)
    | _, _ => false
  let keep := c.x.retain.map fun r => r.bind fun n => if written n then none else some n
  let put (i : Nat) (o : Operand) : List (Option Nat) := match o with
    | .v n => keep.set i (if written n.toNat then none else some n.toNat)
    | _ => keep
  match c.e.f.ret.toNat with
  | 1 => put 0 c.e.f.a
  | 2 => put 1 c.e.f.b
  | 3 => put 2 c.e.f.c
  | _ => keep

/-- The wave after the issue of the instruction, before its effect: every lane of the path goes on to the next
instruction, and a read of `$cyclo` latches its high half (R19). -/
def Ctx.issued (c : Ctx) (x : Wave) : Wave :=
  let latch := c.e.operands.any fun po => po.2 == .sr 9
  { x with
    retain := c.retained
    threads := x.threads.mapIdx fun l t =>
      if c.path.contains l then
        let t1 := t.advance c.npc
        if latch && c.group.contains l then { t1 with cychi := BitVec.ofNat 32 (c.clk / 2 ^ 32) } else t1
      else t }

/-- The first issue after a wake names its wave in `wakerc` (R190). -/
def State.noteIssue (s : State) (w : Nat) : State :=
  match coreOfWave w with
  | some g =>
    let c := s.core g
    if c.woken then
      s.setCore g { c with woken := false, wakerc := c.wakerc ||| BitVec.ofNat 32 (2 ^ 20 + 2 ^ 21 * (w % 128)) }
    else s
  | none => s

/-- The facet set tag the accesses of a region carry (R317): its own, while it, or the ancestor that its binding comes from
(R349), is a member of that set. -/
def State.liveTag (s : State) (rgn : Nat) : Option (BitVec 5) :=
  (s.tagOf rgn).filter fun t =>
    let x := s.sets.getD (tagSet t) .fresh
    let top := if tagFacet t = 0 then some x.preRgn else x.facets[tagFacet t - 1]?
    decide (x.st ≠ .free) && match top with | some r => s.under r rgn | none => false

/-- What the path that holds the turn of unit `w` issues with an instruction of this description. -/
def State.ctxOf (s : State) (w : Nat) (e : Desc) : Option Ctx :=
  match s.waves.find w with
  | none => none
  | some x =>
    match x.turn with
    | none => none
    | some l =>
      let path := x.pathOf l
      match path with
      | [] => none
      | _ =>
        some { w := w, x := x, u := x.unit, e := e, pc := (x.threads.getD l .empty).pc, path := path
               group := path.filter fun n => (x.threads.getD n .empty).guard e.f
               id := s.nextId, wgi := s.wgIndex x, clk := s.clkOf (fetchCore w), tag := s.tagOf x.rgn, pops := [] }

/-- The element that a lane has popped for the instruction, if it has. -/
def Ctx.elemOf (c : Ctx) (lane : Nat) : Option Word := (c.pops.find? fun p => p.2.1 == lane).map fun p => p.2.2

/-- A fault of a lane that has popped an element holds it in detail word 1 (R208). -/
def Ctx.detail (c : Ctx) (lane : Nat) (f : Flt) : Flt :=
  match c.elemOf lane with
  | some v => { f with det1 := v.toNat }
  | none => f

/-- A lane that has not executed its instruction after all, and keeps what it has popped for it (R208). -/
def Ctx.back (c : Ctx) (lane : Nat) (t : Thread) : Thread :=
  { t.undo c.pc c.id with popped := c.pops.filterMap fun p => if p.2.1 = lane then some (p.1, p.2.2) else none }

/-- A lane faults: it stands at the instruction again, and while the write of its record waits for what is held it has not executed it
(R366). -/
def State.faultLane (s : State) (c : Ctx) (lane : Nat) (f : Flt) : State :=
  ((s.updThread c.w lane fun t => t.undo c.pc c.id).raise? c.w lane c.pc (c.detail lane f)).getD (s.updThread c.w lane (c.back lane))

/-- A fault of every lane of a list, in ascending order (R163). -/
def State.faultLanes (s : State) (c : Ctx) (lanes : List (Nat × Flt)) : State :=
  if lanes.isEmpty then s
  else lanes.foldl (fun s e => s.faultLane c e.1 e.2) s.holdActs

/-- The end of an instruction: the turn after it (R132), and what its faults have the fault domains do (R163). -/
def State.settleTurn (s : State) (c : Ctx) : State :=
  ({ s with waves := s.waves.upd c.w fun x => x.settleTurn c.path } : State).actAll

/-- The allocation that bounds v registers (R13), and c registers (R40). -/
def Wave.bound (x : Wave) : Nat := if x.kind = .caller then 64 else x.alloc

/-- The group blocks as a whole in a queue access (R208); the lanes whose guard fails go on (R33). -/
def State.blockGroup (s : State) (c : Ctx) : State :=
  let hold (x : Wave) : Wave :=
    { x with threads := x.threads.mapIdx fun l t =>
        if c.group.contains l then { t with st := .blocked (.queue (c.e.queueSrcs ++ c.e.queueDst.toList)) }
        else if c.path.contains l then t.advance c.npc
        else t }
  ({ s with waves := s.waves.upd c.w hold } : State).settleTurn c

/-- The state once the group may act: every lane of the path has gone on, the number of the instruction is taken, and the
fault domains wait for the group (R163). -/
def State.begin (s : State) (c : Ctx) : State :=
  let s1 := { s with waves := s.waves.upd c.w c.issued, nextId := s.nextId + 1 }
  s1.holdActs.noteIssue c.w

/-- How the issue of an instruction begins: its group acts in a context on a state, or there is nothing more to do. -/
inductive Start where
  | stop (s : State)
  | go (c : Ctx) (s : State)
  deriving DecidableEq, Repr

/-- The instruction of the description `e` begins to issue for the unit `cur`: the interlocks of R34, the checks 9 and 10
of R41 and the queue accesses of R208. Its group then acts on the lanes whose guard holds, in a context that holds the
sources; where it cannot issue now, nothing changes. `fits` says whether the unit that takes the group's requests has room
for them. -/
def State.start (s : State) (i : Instr) (e : Desc) (fits : Ctx → State → Bool) : Start :=
  match s.ctxOf s.cur e with
  | none => .stop s
  | some c0 =>
    match s.settle c0.w c0.u [(.p e.f.gp, 1)] c0.path with
    | none => .stop s
    | some s1 =>
      match s1.ctxOf s.cur e with
      | none => .stop s1
      | some c1 =>
        match s1.settle c1.w c1.u (touches e i) c1.group with
        | none => .stop s1
        | some s2 =>
          match s2.ctxOf s.cur e with
          | none => .stop s2
          | some c =>
            match e.rangeFault c.u c.x.bound with
            | some sub =>
              .stop ((c.path.foldl (fun s l => s.raise c.w l c.pc { code := 3, sub := sub }) s2.holdActs).settleTurn c)
            | none =>
              if e.queueBad && !c.group.isEmpty then
                .stop (((s2.begin c).faultLanes c (c.group.map fun l => (l, { code := 8, sub := 1 }))).settleTurn c)
              else if !fits c s2 then .stop s2
              else
                match s2.queueAccess c with
                | none => .stop (s2.blockGroup c)
                | some (s3, pops) =>
                  match s3.popAcquire c with
                  | none => .stop s2
                  | some s4 =>
                    let c1 := { c with pops := pops }
                    .go c1 (s4.begin c1)

/-- The unit that decodes for the issue unit `cur` (R52). -/
def State.curUnit (s : State) : Unit2 := match s.waves.find s.cur with | some x => x.unit | none => .w

/-- A coded instruction begins to issue for the unit `cur`. -/
def State.startOf (s : State) (i : Instr) (fits : Ctx → State → Bool := fun _ _ => true) : Start :=
  match descOf s.curUnit i with
  | some e => s.start i e fits
  | none => .stop s

/-- The meaning of a coded instruction from its effect on a group; `turn` says where the turn goes after it. -/
def issue (i : Instr) (s : State) (fits : Ctx → State → Bool) (turn : Ctx → State → State) (body : Ctx → State → State) :
    Host.Outcome State Fault Refusal :=
  match s.startOf i fits with
  | .stop s1 => .next s1
  | .go c s1 => .next (turn c (body c s1))

/-- The meaning of a coded instruction from its effect on a group, for which every unit has room. -/
def run (i : Instr) (s : State) (body : Ctx → State → State) : Host.Outcome State Fault Refusal :=
  issue i s (fun _ _ => true) (fun c s1 => s1.settleTurn c) body

/-! ### Results -/

/-- What one lane computes: the words of D, and a further predicate with its value. -/
structure Out where
  d : List Word
  pd : Option (BitVec 3 × Bool) := none
  deriving DecidableEq, Repr

/-- A thread takes its own part of a result. -/
def Thread.take (u : Unit2) (o : Operand) (r : Out) (t : Thread) : Thread :=
  let t1 := t.putDst u o r.d
  match r.pd with
  | some (n, v) => t1.putPred n v
  | none => t1

/-- The results of a group written (R38): each lane its own, then what the wave holds. -/
def Wave.takeAll (x : Wave) (u : Unit2) (o : Operand) (outs : List (Nat × Out)) : Wave :=
  let put (l : Nat) (t : Thread) : Thread :=
    match outs.find? fun e => e.1 == l with
    | some e => t.take u o e.2
    | none => t
  let x1 := { x with threads := x.threads.mapIdx put }
  match o, outs with
  | .s _, e :: _ | .k _, e :: _ => x1.putDst e.1 o e.2.d
  | _, _ => x1

/-- The elements of a group pushed to a feed stream (R211), each with its lane's further predicate (R97); a lane whose
element lies beyond the TOB window faults and writes nothing. -/
def State.pushAll (s : State) (c : Ctx) (q : Nat) (outs : List (Nat × Out)) : State :=
  outs.foldl (fun s e =>
    let s1 := match e.2.pd with
      | some (n, v) => s.updThread c.w e.1 fun t => t.putPred n v
      | none => s
    match s1.pushElem c.w e.1 c.id c.pc (q - 8) (e.2.d.headD 0) with
    | .ok s2 => s2
    | .error off => s.faultLanes c [(e.1, feedFault off)]) s

/-- The TOB offset of the element that an LL result will push, where it lies beyond the window: the thread faults at issue
(R211). -/
def State.feedPast (s : State) (c : Ctx) (a : Acc) : Option Nat :=
  match a.queue?, s.waves.find c.w with
  | some q, some x =>
    let before := (x.pending.filter fun e => decide (e.2.queue? = some q)).length
    let off := (x.feedp.getD (q - 8) 0).toNat + 4 * before
    if s.tobSize x.wg < off + 4 then some off else none
  | _, _ => none

/-- The results of a group that returns them at once. -/
def State.writeAll (s : State) (c : Ctx) (outs : List (Nat × Out)) : State :=
  match c.e.f.d with
  | .q n => s.pushAll c n.toNat outs
  | o => { s with waves := s.waves.upd c.w fun x => x.takeAll c.u o outs }

/-- The destination a lane's LL result goes to: of the group, the lane `lead` writes an s or k result (R17), and every lane
waits for its own (R34). -/
def Ctx.dstOf (c : Ctx) (lane lead words : Nat) : Dst :=
  match c.e.f.d with
  | .s _ | .k _ => ⟨c.e.f.d, words, decide (lane = lead)⟩
  | o => ⟨o, words, true⟩

/-- A pending LL result with a value that is known. -/
def Ctx.calc (c : Ctx) (lane lead : Nat) (ws : List Word) : Acc :=
  { id := c.id, kind := .calc, space := .glob, parts := [], ord := .plain, scope := .thr, tag := none
    dst := some (c.dstOf lane lead ws.length), win := c.e.f.la.toNat, val := some ws, pc := c.pc
    popped := (c.elemOf lane).getD 0 }

/-- The results of a group of an LL instruction that computes them: they wait to be written (R34). -/
def State.pendAll (s : State) (c : Ctx) (outs : List (Nat × Out)) : State :=
  match c.e.f.d with
  | .q n => s.pushAll c n.toNat outs
  | _ =>
    let lead := match outs with | e :: _ => e.1 | [] => 0
    let put (l : Nat) (t : Thread) : Thread :=
      match outs.find? fun e => e.1 == l with
      | some e => { t with accs := t.accs ++ [c.calc l lead e.2.d] }
      | none => t
    { s with waves := s.waves.upd c.w fun x => { x with threads := x.threads.mapIdx put } }

/-- The lanes that completed, with what they computed. -/
def goods (rs : List (Nat × Except Flt Out)) : List (Nat × Out) :=
  rs.filterMap fun e => match e.2 with | .ok r => some (e.1, r) | .error _ => none

/-- The lanes that fault. -/
def bads (rs : List (Nat × Except Flt Out)) : List (Nat × Flt) :=
  rs.filterMap fun e => match e.2 with | .ok _ => none | .error f => some (e.1, f)

/-- A group computes a result in each lane and writes it at once, or, of an LL instruction, later; then the lanes that
fault do so in ascending order (R163). An s or k register takes the value of the lowest lane that completes: R17 and R38 name
the lowest lane of the group and do not say what it takes where that lane faults (DESIGN CHOICE, assumption 8). -/
def State.compute (s : State) (c : Ctx) (g : Nat → Except Flt Out) : State :=
  let rs := c.group.map fun l => (l, g l)
  let s1 := if isLL c.e.op c.e.minor then s.pendAll c (goods rs) else s.writeAll c (goods rs)
  s1.faultLanes c (bads rs)

/-- An instruction that computes a value of so many bits in each lane from its sources. -/
def alu (i : Instr) (s : State) (words : Nat) (g : Ctx → Nat → Nat) : Host.Outcome State Fault Refusal :=
  run i s fun c s1 => s1.compute c fun l => .ok { d := wordsOf words (g c l) }

/-- What one lane's part of an instruction came to, in the order of the lanes: its result written at once; an access or an
LL result that is pending; a fault; a quota that would be passed; a wait of the thread; or nothing yet, so that the lane
stands at the instruction again. -/
inductive Lane where
  | ok (s : State) (ws : List Word)
  | pend (s : State) (a : Acc)
  | fault (s : State) (f : Flt)
  | quota (s : State) (rgn : Nat)
  | block (s : State) (y : Why)
  | stay (s : State)
  | gone (s : State)
  deriving DecidableEq, Repr

/-- An LL write of a facet needs a version that does not exist yet (R324). -/
def State.needsVersion (s : State) (w : Nat) (a : Acc) : Bool :=
  a.dst.isSome && a.kind.writes && a.parts.any fun p =>
    decide (s.pointOf w a p.cls = .home) && (match s.versionTag a.tag p.key with
      | some (i, f) => (sectorsOf p.key p.size).any fun sec => (s.version i f sec).isNone
      | none => false)

/-- A pending access of a lane. One whose version may find no room is performed before the window of its result begins, so
that fault 0x0D is precise (R35, R326); while it is held the lane stands at the instruction. -/
def State.pendAcc (s : State) (c : Ctx) (lane : Nat) (a : Acc) : State :=
  let s1 := s.updThread c.w lane fun t => { t with accs := t.accs ++ [a] }
  if s.needsVersion c.w a then
    match s1.performUpTo c.w lane a.id with
    | some s2 => s2
    | none => s.updThread c.w lane (c.back lane)
  else s1

/-- What a waiting thread waits for, with the lane of its group that writes an s or k status (R17). -/
def Ctx.waits (c : Ctx) (lane : Nat) (led : Bool) (y : Why) : Why × Bool :=
  match y with
  | .phase wg off g d acq id pc npc =>
    (.phase wg off g (c.dstOf lane (if led then lane + 1 else lane) d.words) acq id pc npc, true)
  | y => (y, led)

/-- The effect of one lane's outcome; `led` says that an earlier lane has already written an s or k destination. -/
def State.laneOut (c : Ctx) (lane : Nat) (led : Bool) : Lane → State × Bool
  | .ok s ws => (match c.e.f.d with
      | .s _ | .k _ => if led then s else s.putDst c.w lane c.e.f.d ws
      | .q n => s.pushAll c n.toNat [(lane, { d := ws })]
      | o => if ws.isEmpty then s else s.putDst c.w lane o ws, led || !ws.isEmpty)
  | .pend s a =>
    let f := (s.thread? c.w lane).bind fun t => t.fenced
    let a0 := { Acc.fencedBy a f with popped := (c.elemOf lane).getD 0 }
    let s0 := if f.isSome && a.kind.writes then s.updThread c.w lane fun t => { t with fenced := none } else s
    let a1 : Acc := match a0.dst with
      | some d => { a0 with dst := some (c.dstOf lane (if led then lane + 1 else lane) d.words) }
      | none => a0
    (match s0.feedPast c a1 with
     | some off => s0.faultLanes c [(lane, feedFault off)]
     | none => s0.pendAcc c lane a1, led || a.dst.isSome)
  | .fault s f => (s.faultLanes c [(lane, f)], led)
  | .quota s r =>
    (((s.updThread c.w lane fun t => t.undo c.pc c.id).raiseQuota? c.w lane c.pc r
      (c.detail lane { code := 0x0F, sub := 1 }).det1).getD (s.updThread c.w lane (c.back lane)), led)
  | .block s y =>
    let r := c.waits lane led y
    (s.updThread c.w lane fun t => { c.back lane t with st := .blocked r.1 }, r.2)
  | .stay s => (s.updThread c.w lane (c.back lane), led)
  | .gone s => (s, led)

/-- The outcome leaves the lane standing at the instruction. -/
def Lane.stays : Lane → Bool
  | .stay _ => true
  | _ => false

/-- One lane of a group acts, after those below it: `r` holds the state, whether a lane has written an s or k destination,
and whether one stands at the instruction still. Where one does, the lanes above it stand there too, so that the lanes take
effect in ascending order (R149). -/
def State.laneStep (c : Ctx) (g : State → Nat → Lane) (r : State × Bool × Bool) (l : Nat) : State × Bool × Bool :=
  if (r.1.thread? c.w l).isSome then
    let o := if r.2.2 then .stay r.1 else g r.1 l
    let p := State.laneOut c l r.2.1 o
    (p.1, p.2, r.2.2 || o.stays)
  else r

/-- The lanes of a group act one after another, in ascending order. -/
def State.eachLane (s : State) (c : Ctx) (g : State → Nat → Lane) : State :=
  (c.group.foldl (State.laneStep c g) (s, false, false)).1

/-- An instruction whose lanes act one after another on the state, for which the unit that takes its requests has room. -/
def perLaneIf (i : Instr) (s : State) (fits : Ctx → State → Bool) (g : Ctx → State → Nat → Lane) :
    Host.Outcome State Fault Refusal :=
  issue i s fits (fun c s1 => s1.settleTurn c) fun c s1 => s1.eachLane c (g c)

/-- An instruction whose lanes act one after another on the state. -/
def perLane (i : Instr) (s : State) (g : Ctx → State → Nat → Lane) : Host.Outcome State Fault Refusal :=
  perLaneIf i s (fun _ _ => true) g

end Sys2Proof.Machine
end

