-- ==== Sys2Proof/Machine/Issue.lean ====
section
/-! DEFINITION. Issuing an access: its windows, its translation, its class and version checks, and the faults that come
before it leaves the thread (02_instruction_formats.md R48, 16_die_l2_copy.md R277 and R280,
19_facets_versioned_memory.md R322 and R323). -/

namespace Sys2Proof.Machine

open Sys2Proof

/-- How a write stands to versions (R322, R331): with its thread's tag, marked `.base`, or untagged as a spill is. -/
inductive Tagging where
  | tagged | base | spill
  deriving DecidableEq, Repr

/-- The tag an access carries (R317, R331, R332). A spill of the winner of a commit belongs to its facet while the set resolves, so
that one into the window is held until publication as every access of the winner is (R325). -/
def State.accTag (s : State) (rgn : Nat) (m : Tagging) : Option (BitVec 5) :=
  match m, s.liveTag rgn with
  | .tagged, t => t
  | .spill, some t =>
    let x := s.sets.getD (tagSet t) .fresh
    if x.st = .resolving ∧ tagFacet t = x.winner then some t else none
  | _, _ => none

/-- The subcode of fault 0x0E with which a write by a region to a place is refused, if it is (R322, R323); one marked `.base` is
refused on every window frame, with subcode 0x03, whoever makes it (R332; DEDUCED, assumption 25). -/
def State.windowBad (s : State) (rgn : Nat) (m : Tagging) (key : Nat) : Option (BitVec 8) :=
  let hit := s.frozenOf key
  let outside : Option (BitVec 8) := if hit.isSome then some 1 else none
  match if m = .base ∧ hit.isSome then none else some (s.liveTag rgn) with
  | none => some 3
  | some none => outside
  | some (some t) =>
    let i := tagSet t
    let f := tagFacet t
    let x := s.sets.getD i .fresh
    let own := match hit with | some (j, _) => j == i | none => false
    if x.st = .retiring then outside
    else if f = 0 ∨ (x.st = .resolving ∧ x.winner = f) then (if own then none else outside)
    else if own then (match m with | .spill => some 4 | _ => none)
    else if hit.isSome then some 1
    else (match m with | .tagged => some 2 | _ => none)

/-- The first part of a write that is refused: its address and subcode. -/
def State.windowBadPart (s : State) (rgn : Nat) (m : Tagging) : List Part → Option (Nat × BitVec 8)
  | [] => none
  | p :: ps =>
    match s.windowBad rgn m p.key with
    | some sub => some (p.va, sub)
    | none => s.windowBadPart rgn m ps

/-- What a translated access came to before it is issued: its parts; a fault with the parts below it; a quota; a wait for
the host. -/
inductive Trans2 where
  | ok (s : State) (parts : List Part)
  | fault (s : State) (below : List Part) (f : Flt)
  | quota (s : State) (rgn : Nat)
  | wait (s : State)
  deriving DecidableEq, Repr

/-- The translation and the checks of an access by an agent, part by part in ascending order (R48, R280, R322). Nothing
is performed of a write that fault 0x0E refuses. -/
def State.reach (s : State) (a : Agent) (need : Need) (clsOk : PgCls → Option (BitVec 8)) (m : Tagging) (va n : Nat) :
    Trans2 :=
  let r := s.translateParts a need clsOk (framePieces va n)
  let refused := if need == .wr then r.s.windowBadPart a.rgn m r.parts else none
  match refused, r.stop with
  | some (bad, sub), _ => .fault r.s [] { code := 0x0E, sub := sub, addr := some bad, wr := true }
  | none, none => .ok r.s r.parts
  | none, some (some f, _) => .fault r.s r.parts f
  | none, some (none, some ov) => .quota r.s ov
  | none, some (none, none) => .wait r.s

/-- What an instruction asks of memory: where, how much, what it does there, and where an LL result goes. -/
structure Req where
  va : Nat
  size : Nat
  kind : AccKind
  need : Need
  cls : PgCls → Option (BitVec 8)
  ord : Ord
  scope : Scope
  mode : Tagging
  words : Option Nat

/-- The access of a lane, as it waits to be performed. -/
def Ctx.acc (c : Ctx) (q : Req) (space : Space) (parts : List Part) (tag : Option (BitVec 5)) : Acc :=
  { id := c.id, kind := q.kind, space := space, parts := parts, ord := q.ord, scope := q.scope, tag := tag
    dst := q.words.map fun n => ⟨c.e.f.d, n, true⟩, win := c.e.f.la.toNat, val := none, pc := c.pc }

/-- The alignment check of R154. -/
def misaligned (va n : Nat) : Option Flt :=
  if va % n = 0 then none else some { code := 2, sub := 1, addr := some va }

/-- The lower parts of a store that faults are performed (R48): they are issued as a store of their own. -/
def State.partial_ (s : State) (c : Ctx) (lane : Nat) (q : Req) (below : List Part) : State :=
  match q.kind, below with
  | .store bs, _ :: _ =>
    let n := (below.map Part.size).sum
    let a := c.acc { q with kind := .store (bs.take n), words := none } .glob below (s.accTag c.x.rgn q.mode)
    s.updThread c.w lane fun t => { t with accs := t.accs ++ [{ a with popped := (c.elemOf lane).getD 0 }] }
  | _, _ => s

/-- A global access of a lane is issued (R48, R155). -/
def State.issueGlob (s : State) (c : Ctx) (lane : Nat) (q : Req) : Lane :=
  match s.reach (c.x.agent c.w) q.need q.cls q.mode q.va q.size with
  | .ok s1 parts => .pend s1 (c.acc q .glob parts (s1.accTag c.x.rgn q.mode))
  | .fault s1 below f => .fault (s1.partial_ c lane q below) f
  | .quota s1 r => .quota s1 r
  | .wait s1 => .stay s1

/-- The size of the scratch window of a workgroup. -/
def State.scrSize (s : State) (wg : Nat) : Nat := match s.wgAt wg with | some y => y.scrSize | none => 0

/-- An access of a lane to a window of its workgroup is issued (R150). It is never split: where a byte of it lies beyond the window,
nothing of it is performed (R197). -/
def State.issueWin (s : State) (c : Ctx) (q : Req) (tob : Bool) : Lane :=
  let size := if tob then s.tobSize c.x.wg else s.scrSize c.x.wg
  let space := if tob then Space.tob c.x.wg else .scr c.x.wg
  if size < q.va + q.size then .fault s { code := 7, sub := if tob then 1 else 0, addr := some q.va, wr := q.need == .wr }
  else .pend s (c.acc q space [⟨q.va, q.va, q.size, .h⟩] none)

/-! ### Class checks (R277) -/

/-- A load or a fetch is admitted on every class. -/
def clsAny (_ : PgCls) : Option (BitVec 8) := none
/-- A store is refused on class R. -/
def clsStore (k : PgCls) : Option (BitVec 8) := if k = .r then some 0 else none
/-- `ldr` and `stc` are refused on class R (R160). -/
def clsResv (k : PgCls) : Option (BitVec 8) := if k = .r then some 5 else none
/-- What needs class H. -/
def clsHome (k : PgCls) : Option (BitVec 8) := if k = .h then none else some 9
/-- An atomic, by its scope (R245). -/
def clsAtom (scope : Scope) (k : PgCls) : Option (BitVec 8) :=
  match k with
  | .r => some 0
  | .p => if scope == .peer || scope == .host || scope == .sys then some 9 else none
  | .h => none

/-! ### Accesses the thread waits for -/

/-- A read performed within an instruction, in the order of the thread's own accesses (R137): its bytes as words. The
access takes part in no window. None while it is held. -/
def State.readNow (s : State) (c : Ctx) (lane : Nat) (q : Req) (parts : List Part) : Option (State × List Word) :=
  let a := { c.acc { q with words := some 1 } .glob parts (s.accTag c.x.rgn q.mode) with dst := some ⟨.zeroLit, q.size / 4, true⟩ }
  let s1 := s.updThread c.w lane fun t => { t with accs := t.accs ++ [a] }
  (s1.performUpTo c.w lane c.id).map fun s2 =>
    let v := match s2.accOf c.w lane c.id with
      | some b => b.val.getD []
      | none => []
    (s2.updThread c.w lane fun t => t.setAcc c.id fun _ => none, v)

/-- Bytes of the device's own reads at a virtual address of a function's address space, without a TLB: they are base bytes. -/
def State.devRead (s : State) (fn asr va n : Nat) (tag : Option (BitVec 5)) : Option (List Byte) :=
  (framePieces va n).foldl (fun r p => r.bind fun bs =>
    (s.place fn asr p.1).map fun (key, _) => bs ++ s.homeBytes tag key p.2) (some [])

end Sys2Proof.Machine
end

