-- ==== Sys2Proof/Machine/Atomics.lean ====
section
/-! DEFINITION. Atomics and memory-side operations of majors 0x60 to 0x63 (14_cluster_atomics_gathering.md R245 to
R256). -/

namespace Sys2Proof.Machine

open Sys2Proof

/-- The bytes an atomic type is accessed with (R251). -/
def atomSize (ty : AtomTy) : Nat := 4 * ty.words

/-- The address of a global atomic (R252). -/
def Ctx.atomAddr (c : Ctx) (lane : Nat) (ctl : AtomCtl) : Nat := addrSum (c.a lane 2) 0 1 ctl.off.toInt 64

/-- The address of a window atomic (R252). -/
def Ctx.atomWinAddr (c : Ctx) (lane : Nat) (ctl : AtomCtl) : Nat := addrSum (c.a lane) 0 1 ctl.off.toInt 32

/-- The tagging an atomic's `.base` bit gives (R332). -/
def baseMode (base : Bool) : Tagging := if base then .base else .tagged

/-- The request an atomic makes of global memory. -/
def Ctx.atomReq (c : Ctx) (lane : Nat) (ctl : AtomCtl) (base : Bool) (size : Nat) (home : Bool) (kind : AccKind)
    (words : Option Nat) : Req :=
  { va := c.atomAddr lane ctl, size := size, kind := kind, need := .wr
    cls := if home then clsHome else clsAtom ctl.scope
    ord := ctl.ord, scope := ctl.scope, mode := baseMode base, words := words }

/-- The operand B of an atomic: in an `.f32` position a literal is the exact value n (R39, R252). -/
def Ctx.atomB (c : Ctx) (lane : Nat) (ty : AtomTy) : Nat :=
  match ty, c.e.f.b with
  | .f32, .lit n => litBits n.toNat .f32
  | _, _ => c.b lane ty.words

/-- A global atomic of one lane is issued (R252 to R256); one that the service wave performs joins its queue (R247). -/
def State.atomLane (s : State) (c : Ctx) (lane : Nat) (q : Req) : Lane :=
  match misaligned q.va q.size with
  | some f => .fault s { f with wr := true }
  | none =>
    match s.issueGlob c lane q with
    | .pend s1 a =>
      if viaService c.w a then
        let k := clusterOfWave c.w
        let x := s1.cluster k
        let s2 := s1.setCluster k { x with svc := x.svc ++ [⟨c.w, lane, c.id⟩] }
        .pend (s2.updThread c.w lane fun t => { t with clsAt := true }) a
      else .pend s1 a
    | r => r

/-- The requests a group would make of the service wave all fit its queue of 256 (R247). -/
def State.svcFits (s : State) (c : Ctx) (req : Ctx → Nat → Req) : Bool :=
  let asks (l : Nat) : Bool :=
    let q := req c l
    (misaligned q.va q.size).isNone && (match s.issueGlob c l q with
      | .pend _ a => viaService c.w a
      | _ => false)
  decide ((s.cluster (clusterOfWave c.w)).svc.length + (c.group.filter asks).length ≤ 256)

/-- A global atomic from the request each lane makes: a group whose requests to the service wave do not all fit waits at
issue (R247). -/
def atomic (i : Instr) (s : State) (req : Ctx → Nat → Req) : Host.Outcome State Fault Refusal :=
  perLaneIf i s (fun c s1 => s1.svcFits c req) fun c s1 l => s1.atomLane c l (req c l)

/-- `atom` (R252). -/
def execAtom (f : Frame) (op : AtomOp) (ty : AtomTy) (base : Bool) (ctl : AtomCtl) (s : State) :
    Host.Outcome State Fault Refusal :=
  atomic (.atom f op ty base ctl) s fun c l =>
    c.atomReq l ctl base (atomSize ty) false (.rmw op ty (c.atomB l ty)) (some ty.words)

/-- `atom.s` (R252). -/
def execAtomS (f : Frame) (op : AtomOp) (ty : AtomTy) (win : Bool) (ctl : AtomCtl) (s : State) :
    Host.Outcome State Fault Refusal :=
  perLane (.atomS f op ty win ctl) s fun c s1 l =>
    let va := c.atomWinAddr l ctl
    match misaligned va (atomSize ty) with
    | some g => .fault s1 { g with wr := true }
    | none =>
      s1.issueWin c { va := va, size := atomSize ty, kind := .rmw op ty (c.atomB l ty), need := .wr, cls := clsAny
                      ord := ctl.ord, scope := ctl.scope, mode := .base, words := some ty.words } win

/-- `cas` (R252). -/
def execCas (f : Frame) (ty : AtomTy) (base : Bool) (ctl : AtomCtl) (s : State) : Host.Outcome State Fault Refusal :=
  atomic (.cas f ty base ctl) s fun c l =>
    c.atomReq l ctl base (atomSize ty) false (.cas ty (c.b l ty.words) (c.c l ty.words)) (some ty.words)

/-- `red` (R252). -/
def execRed (f : Frame) (op : AtomOp) (ty : AtomTy) (base : Bool) (ctl : AtomCtl) (s : State) :
    Host.Outcome State Fault Refusal :=
  atomic (.red f op ty base ctl) s fun c l =>
    c.atomReq l ctl base (atomSize ty) false (.rmw op ty (c.atomB l ty)) none

/-- `mred` (R253). -/
def execMred (f : Frame) (op : AtomOp) (ty : AtomTy) (base : Bool) (ctl : AtomCtl) (s : State) :
    Host.Outcome State Fault Refusal :=
  atomic (.mred f op ty base ctl) s fun c l => c.atomReq l ctl base 64 true (.mred op ty (c.b l 16)) none

/-- `mcas` (R255). -/
def execMcas (f : Frame) (base : Bool) (ctl : AtomCtl) (s : State) : Host.Outcome State Fault Refusal :=
  atomic (.mcas f base ctl) s fun c l => c.atomReq l ctl base 16 true (.mcas (c.b l 4) (c.c l 4)) (some 4)

/-- `mscale` (R254). -/
def execMscale (f : Frame) (rnd : Rnd) (ty : AtomTy) (base : Bool) (ctl : AtomCtl) (s : State) :
    Host.Outcome State Fault Refusal :=
  atomic (.mscale f rnd ty base ctl) s fun c l =>
    let ab := c.c l 2
    c.atomReq l ctl base 64 true (.mscale rnd ty (ab % 2 ^ 32) (ab / 2 ^ 32) (c.b l 16)) none

end Sys2Proof.Machine
end

