-- ==== Sys2Proof/Machine/Engine.lean ====
section
/-! DEFINITION. What every engine operation shares: its reads and writes at the home (16_die_l2_copy.md R277), the records
it posts (21_regions_scheduling.md R364, R366, 19_facets_versioned_memory.md R322, R326), and the poison it meets
(16_die_l2_copy.md R289). -/

namespace Sys2Proof.Machine

open Sys2Proof

/-- Who an engine operation acts for: its region, the core it was issued from if any, a cluster, the PC of its issue and
its number. -/
structure EngOf where
  rgn : Nat
  core : Option Nat
  cluster : Nat
  pc : DWord
  id : Nat
  deriving DecidableEq, Repr

/-- What an engine's access came to: done with its bytes; a fault of translation, class, partition or window; a poisoned
grain; a version without room; a quota that would be passed; or a wait. -/
inductive EngRes where
  | ok (s : State) (bs : List Byte)
  | fault (s : State) (f : Flt)
  | poison (s : State) (va key : Nat)
  | full (s : State) (va : Nat)
  | quota (s : State) (rgn : Nat)
  | wait (s : State)
  deriving DecidableEq, Repr

/-- The clusters of a die that a region's work may use: all of them in shared mode, else those of the partition its
function is bound to, numbered 4 × die + partition (R286, R416). -/
def State.clustersFor (s : State) (rgn die : Nat) : List Nat :=
  let p := match s.region? rgn with | some x => (s.fns.getD x.fn .fresh).partition | none => 0
  let x := s.die die
  if x.l2mode.getLsbD 0 then
    let (mask, _, _) := x.part (p % 4)
    if p / 4 = die then (List.range 24).filter fun n => mask.testBit n else []
  else List.range 24

/-- The cluster whose partition a region's engine operations on a die use. -/
def State.clusterFor (s : State) (rgn die : Nat) : Nat :=
  match s.clustersFor rgn die with
  | n :: _ => 24 * die + n
  | [] => 24 * (1 - die) + (s.clustersFor rgn (1 - die)).headD 0

/-- The translated parts of an engine's access. -/
inductive EngParts where
  | ok (s : State) (parts : List Part)
  | stop (r : EngRes)
  deriving DecidableEq, Repr

/-- The translation of an engine's access, through the cluster's TLB (R281). -/
def State.engParts (s : State) (e : EngOf) (need : Need) (clsOk : PgCls → Option (BitVec 8)) (va n : Nat) : EngParts :=
  match s.reach ⟨e.rgn, e.cluster, none⟩ need clsOk .tagged va n with
  | .fault s1 _ f => .stop (.fault (s1.walkError e.rgn f) f)
  | .quota s1 r => .stop (.quota s1 r)
  | .wait s1 => .stop (.wait s1)
  | .ok s1 parts =>
    if parts.any fun p => s1.heldPart (s1.liveTag e.rgn) e.id p.key then .stop (.wait s1) else .ok s1 parts

/-- An engine's read of translated parts at the home (R277). -/
def State.engFetch (s : State) (e : EngOf) (parts : List Part) : EngRes :=
  match parts.find? fun p => s.poisonedFor (s.liveTag e.rgn) p.key p.size with
  | some p => .poison s p.va p.key
  | none =>
    let tag := s.liveTag e.rgn
    let s := parts.foldl (fun s p => if s.cutOff p.key then s else s.atHome p.key p.size) s
    .ok s (parts.flatMap fun p => if s.cutOff p.key then List.replicate p.size 0xFF else s.homeBytes tag p.key p.size)

/-- An engine's read. -/
def State.engRead (s : State) (e : EngOf) (va n : Nat) : EngRes :=
  match s.engParts e .rd clsAny va n with
  | .stop r => r
  | .ok s1 parts => s1.engFetch e parts

/-- An engine's write of translated parts at the home (R277, R322, R324). -/
def State.engStore (s : State) (e : EngOf) : List Part → List Byte → EngRes
  | [], _ => .ok s []
  | p :: ps, bs =>
    if s.cutOff p.key then s.engStore e ps (bs.drop p.size)
    else
      match s.homeWrite (s.liveTag e.rgn) none p.key (bs.take p.size) with
      | .ok s1 => s1.engStore e ps (bs.drop p.size)
      | .error (key, s1) => .full s1 ((p.va + key - p.key) % 2 ^ 64)

/-- An engine's write. -/
def State.engWrite (s : State) (e : EngOf) (va : Nat) (bs : List Byte) : EngRes :=
  match s.engParts e .wr clsStore va bs.length with
  | .stop r => r
  | .ok s1 parts => s1.engStore e parts bs

/-- An engine record of an operation. -/
def State.engRecord (s : State) (e : EngOf) (f : Flt) : State := s.postEng e.rgn e.core e.cluster e.pc.toNat f

/-- Fault 0x0D of an engine's write, with the action on it (R326, R366). -/
def State.engFull (s : State) (e : EngOf) (va : Nat) : State :=
  (s.engRecord e { code := 0x0D, sub := 0, addr := some va, wr := true }).overflowAction e.rgn

/-- Fault 0x0F of an engine operation: its record goes to the tenant root and the region is suspended (R364). -/
def State.engQuota (s : State) (e : EngOf) (ov : Nat) : State :=
  let (s1, r) := s.engRec e.rgn e.core e.cluster e.pc.toNat true { code := 0x0F, sub := 1 }
  ((s1.post (s1.rootOf e.rgn) r).1).suspendRegion ov true

/-- A counter is raised by 1 at its home, as a release by the operation's tag (R214, R325). A write that a window refuses is not
made; its record is that of the window, or another that its family has for it (R322). That of the winner of a commit is held until
publication (R325), one in a poisoned grain is not performed (R289), and where no version can be had the fault names the address of the
sector (R326). -/
def State.raiseCtr (s : State) (e : EngOf) (key : Nat) (va : Option Nat := none) (refused : Option Flt := none) : State :=
  let tag := s.liveTag e.rgn
  if s.cutOff key then s
  else
    match s.windowBad e.rgn .tagged key with
    | some sub => s.engRecord e (refused.getD { code := 0x0E, sub := sub, addr := va, wr := true })
    | none =>
      if s.heldPart tag e.id key then { s with ctrHeld := s.ctrHeld ++ [⟨e.rgn, e.core, e.cluster, e.pc, e.id, key, va⟩] }
      else if s.poisonedFor tag key 8 then s.dataError e.rgn key
      else
        match s.homeWrite tag none key (toLe 8 ((leBytes (s.homeBytes tag key 8) + 1) % 2 ^ 64)) with
        | .ok s1 => s1
        | .error (bad, s1) => s1.engFull e (match va with | some v => v / 64 * 64 | none => bad)

/-- The rises of counters that waited for the publication of a set's winner are made (R325). -/
def State.ctrFlush (s : State) (rs : List Nat) : State :=
  (s.ctrHeld.filter fun h => rs.contains h.rgn).foldl
    (fun s h => s.raiseCtr ⟨h.rgn, h.core, h.cluster, h.pc, h.id⟩ h.key h.va)
    { s with ctrHeld := s.ctrHeld.filter fun h => !rs.contains h.rgn }

/-! ### The gathering unit's own accesses (R147, R258, R424) -/

/-- The region's work stands still for its quota (R364): what its engine operations were refused is tried again when it is
resumed. -/
def State.quotaWait (s : State) (rgn : Nat) : Bool := match s.region? rgn with | some x => x.quota | none => false

/-- Who the gathering unit of a cluster acts for. Its accesses are issued as it makes them. -/
def State.gathererOf (s : State) (rgn k : Nat) : EngOf := ⟨rgn, none, k, 0, s.nextId⟩

/-- A record of 0x09, subcode 0x05, of an access that met a page fault; none where one has been posted and no access has
succeeded since (R424). -/
def State.gathFault (s : State) (rgn k va : Nat) (wr posted : Bool) : State :=
  if posted then s else s.engRecord (s.gathererOf rgn k) { code := 9, sub := 5, addr := some va, wr := wr }

/-- 16 bytes written by the gathering unit on a page of class H: the state after it, and if the access is to be made again
whether its fault has been recorded (R424). A write that a window refuses is not made (R322). -/
def State.gathPut (s : State) (rgn k va : Nat) (data : BitVec 128) (posted : Bool) : State × Option Bool :=
  let e := s.gathererOf rgn k
  if s.quotaWait rgn then (s, some posted) else
  match (match s.engParts e .wr clsHome va 16 with
    | .stop r => r
    | .ok s1 parts => s1.engStore e parts (toLe 16 data.toNat)) with
  | .ok s1 _ | .poison s1 _ _ => (s1, none)
  | .fault s1 f =>
    if f.code = 0x0E then (s1.engRecord e f, none) else (s1.gathFault rgn k (f.addr.getD va) true posted, some true)
  | .full s1 v => (s1.engFull e v, none)
  | .quota s1 r => (s1.engQuota e r, some posted)
  | .wait s1 => (s1, some posted)

/-- An access of 16 bytes on a page of class H tried by the gathering unit, without its effect: as the write of an entry, with the same
answer. A write that a window refuses is no page fault. -/
def State.gathTry (s : State) (rgn k : Nat) (wr : Bool) (va : Nat) (posted : Bool) : State × Option Bool :=
  let e := s.gathererOf rgn k
  if s.quotaWait rgn then (s, some posted) else
  match s.engParts e (if wr then .wr else .rd) clsHome va 16 with
  | .ok s1 _ => (s1, none)
  | .stop (.fault s1 f) =>
    if f.code = 0x0E then (s1, none) else (s1.gathFault rgn k (f.addr.getD va) wr posted, some true)
  | .stop (.quota s1 r) => (s1.engQuota e r, some posted)
  | .stop (.wait s1) => (s1, some posted)
  | .stop _ => (s, none)

/-- Reads of some entries tried one after another: the state after them, and the address of the first that is to be made again with
what is recorded of it. -/
def State.gathReads (s : State) (rgn k : Nat) (posted : Bool) : List Nat → State × Option (Nat × Bool)
  | [] => (s, none)
  | va :: vas =>
    match s.gathTry rgn k false va posted with
    | (s1, none) => s1.gathReads rgn k false vas
    | (s1, some p) => (s1, some (va, p))

/-- Bytes as a number of so many bits, for the descriptors that units read. -/
def descOfBytes (bs : List Byte) : BitVec 512 := BitVec.ofNat 512 (leBytes bs)

/-- Bits hi:lo of a descriptor. -/
def dfield (d : BitVec 512) (hi lo : Nat) : Nat := field d.toNat hi lo

/-- A signed field of a descriptor. -/
def dsigned (d : BitVec 512) (hi lo : Nat) : Int :=
  let v := dfield d hi lo
  if 2 ^ (hi - lo) ≤ v then (v : Int) - 2 ^ (hi + 1 - lo) else v

/-- A field of a descriptor replaced. -/
def dput (d : BitVec 512) (hi lo v : Nat) : BitVec 512 :=
  BitVec.ofNat 512 (d.toNat - dfield d hi lo * 2 ^ lo + v % 2 ^ (hi + 1 - lo) * 2 ^ lo)

/-- A descriptor of so many bytes that a thread reads at issue: its own read of global memory, in the order of its
accesses. -/
inductive DescRes where
  | ok (s : State) (d : BitVec 512)
  | stop (r : Lane)
  deriving DecidableEq, Repr

/-- A descriptor in global memory, aligned to its size, on a page of a class that the instruction admits. -/
def State.readDesc (s : State) (c : Ctx) (lane va n : Nat) (cls : PgCls → Option (BitVec 8) := clsAny) : DescRes :=
  match misaligned va n with
  | some f => .stop (.fault s f)
  | none =>
    let q : Req := { va := va, size := n, kind := .load .b64 false, need := .rd, cls := cls, ord := .plain
                     scope := .thr, mode := .tagged, words := some 1 }
    match s.reach (c.x.agent c.w) .rd cls .tagged va n with
    | .fault s1 _ f => .stop (.fault s1 f)
    | .quota s1 r => .stop (.quota s1 r)
    | .wait s1 => .stop (.stay s1)
    | .ok s1 parts =>
      match s1.engineIssue c.w lane c.id with
      | none => .stop (.stay s)
      | some s2 =>
        let a := c.acc q .glob parts (s2.accTag c.x.rgn .tagged)
        match s2.settleFor c.w lane { a with kind := .store [] } with
        | none => .stop (.stay s)
        | some s3 =>
          let (s4, bs, bad) := s3.readParts c.w a parts
          if parts.any fun p => s3.cutOff p.key then .ok s3 (BitVec.allOnes 512)
          else match bad with
          | some key => .ok (s4.dataError c.x.rgn key) (BitVec.allOnes 512)
          | none => .ok s4 (descOfBytes bs)

end Sys2Proof.Machine
end

