-- ==== Sys2Proof/Machine/Sync.lean ====
section
/-! DEFINITION. Barriers, counter watches and fences of majors 0x70 and 0x71 (11_core_scratchpad_barriers.md R197 to
R207). -/

namespace Sys2Proof.Machine

open Sys2Proof

/-! ### The barrier operand -/

/-- The cluster group a unit belongs to: that of its workgroup, which for a Caller is its lowest partner (R197, R223). -/
def State.groupOf (s : State) (x : Wave) : Option Nat := (s.wgs.find x.wg).bind fun y => y.group

/-- The workgroup of the partner on core m of a unit's cluster group (R197). -/
def State.partnerOf (s : State) (x : Wave) (m : Nat) : Option Nat :=
  ((s.groupOf x).bind fun q => s.groups.find q).bind fun g => g.members.find m

/-- A window address of a unit: the workgroup and the offset it names, in its own window or, where `rmt` holds and in the
Caller, in a partner's (R197). -/
def State.winPlace (s : State) (x : Wave) (rmt : Bool) (addr : Nat) : Except Flt BarRef :=
  if rmt || x.kind = .caller then
    match s.partnerOf x (addr / 2 ^ 30 % 4) with
    | some wg => .ok ⟨wg, addr % 2 ^ 30⟩
    | none => .error { code := 7, sub := 6, addr := some addr }
  else .ok ⟨x.wg, addr⟩

/-- The object a barrier operand names, with the checks of R207. -/
def State.barAt (s : State) (x : Wave) (rmt : Bool) (addr : Nat) : Except Flt BarRef :=
  if addr % 32 ≠ 0 then .error { code := 2, sub := 1, addr := some addr }
  else
    match s.winPlace x rmt addr with
    | .error f => .error f
    | .ok r =>
      if s.scrSize r.wg < r.off + 32 then .error { code := 7, sub := 0, addr := some addr }
      else if barBad (s.barRaw r) then .error { code := 7, sub := 2, addr := some addr }
      else .ok r

/-- The address of the barrier operand of R200. -/
def Ctx.barAddr (c : Ctx) (lane : Nat) : Nat := addrSum (c.a lane) 0 1 c.offX 32

/-- A barrier instruction of one lane on its object, once what is ordered before it is performed. -/
def State.onBar (s : State) (c : Ctx) (lane : Nat) (rmt : Bool) (g : State → BarRef → Lane) : Lane :=
  match s.barIssue c.w lane c.id with
  | none => .stay s
  | some s1 =>
    let addr := c.barAddr lane
    match (match s1.winPlace c.x rmt addr with
      | .ok r => s1.settleOwn c.w lane c.id (.scr r.wg) r.off 32
      | .error _ => some s1) with
    | none => .stay s
    | some s2 =>
      match s2.barAt c.x rmt addr with
      | .error f => .fault s2 f
      | .ok r => g s2 r

/-! ### The instructions -/

/-- `bar.init` of one lane (R201). -/
def State.barInitLane (s : State) (r : BarRef) (n : Nat) : Lane :=
  if n = 0 ∨ 2 ^ 24 ≤ n then .fault s { code := 7, sub := 2 }
  else if (s.bar r).wch ≠ 0 then .fault s { code := 7, sub := 5 }
  else
    .ok (s.barStep r { gen := 0, fltc := false, fltp := false, wch := 0, expa := n, pend := n, btgt := 0, blnd := 0 }) []

/-- `bar.init` (R201). -/
def execBarInit (f : Frame) (rmt : Bool) (s : State) : Host.Outcome State Fault Refusal :=
  perLane (.barInit f rmt) s fun c s1 l => s1.onBar c l rmt fun s2 r => s2.barInitLane r (c.b l)

/-- Fault 0x19 of an arrival whose mask the wave's instances do not admit (R202). Detail word 0 is the instance's mask where that
differs and else the mask of the instruction: R202 names no detail words (DESIGN CHOICE, assumption 70). -/
def Wave.arriveBad (x : Wave) (caller : Bool) (lane : Nat) (r : BarRef) (m : Word) : Option Flt :=
  let here := x.arrs.find? fun a => decide (a.bar = r)
  if caller && m != 1 then some { code := 0x19, sub := 2, det0 := m.toNat }
  else if !maskHas m lane then some { code := 0x19, sub := 2, det0 := m.toNat }
  else
    match here with
    | some a => if a.mask ≠ m then some { code := 0x19, sub := 1, det0 := a.mask.toNat } else none
    | none => if 16 ≤ x.arrs.length then some { code := 0x19, sub := 4, det0 := m.toNat } else none

/-- The wave with a lane's arrival at its instance on an object, opened where there is none. -/
def Wave.arriveAt (x : Wave) (lane : Nat) (r : BarRef) (m : Word) : Wave :=
  if x.arrs.any fun a => decide (a.bar = r) then
    { x with arrs := x.arrs.map fun a => if a.bar = r then { a with arrived := a.arrived ||| maskOf [lane] } else a }
  else { x with arrs := x.arrs ++ [⟨r, m, maskOf [lane]⟩] }

/-- `arrive` of one lane (R202): D takes GEN as it is read; the last lane of the mask makes the arrival. The release that an
earlier `fence.rel` makes of it comes with it (R304). -/
def State.arriveLane (s : State) (c : Ctx) (lane : Nat) (ord : SyncOrd) (scope : Scope) (r : BarRef) : Lane :=
  let m := BitVec.ofNat 32 (c.b lane)
  let x := (s.waves.find c.w).getD c.x
  match x.arriveBad (x.kind = .caller) lane r m with
  | some f => .fault s f
  | none =>
    match (if ord = .rel then s.releaseLag c.w lane scope c.id else some s).bind fun u => u.fencedRelease c.w lane with
    | none => .stay s
    | some s1 =>
      let gen := [BitVec.ofNat 32 (s1.bar r).gen]
      let x1 := ((s1.waves.find c.w).getD x).arriveAt lane r m
      match x1.arrs.find? fun a => decide (a.bar = r) with
      | none => .ok s1 gen
      | some a =>
        if x1.allIn a.mask a.arrived then
          match s1.barArrive r with
          | none => .fault s1 { code := 7, sub := 3 }
          | some s2 =>
            let y := (s2.waves.find c.w).getD x1
            .ok (s2.setWave c.w { y with arrs := y.arrs.filter fun a => !decide (a.bar = r) }) gen
        else .ok ((s1.setWave c.w x1).barSettle r) gen

/-- `arrive` (R202). -/
def execArrive (f : Frame) (ord : SyncOrd) (scope : Scope) (rmt : Bool) (s : State) :
    Host.Outcome State Fault Refusal :=
  perLane (.arrive f ord scope rmt) s fun c s1 l => s1.onBar c l rmt fun s2 r => s2.arriveLane c l ord scope r

/-- `expect` of one lane (R203). -/
def State.expectLane (s : State) (r : BarRef) (n : Nat) : Lane :=
  let b := s.bar r
  if 2 ^ 32 ≤ b.btgt + n then .fault s { code := 7, sub := 4 }
  else .ok (s.barStep r { b with btgt := b.btgt + n }) []

/-- `expect` (R203). -/
def execExpect (f : Frame) (rmt : Bool) (s : State) : Host.Outcome State Fault Refusal :=
  perLane (.expect f rmt) s fun c s1 l => s1.onBar c l rmt fun s2 r => s2.expectLane r (c.b l)

/-- `wait` of one lane (R204): it returns where its phase has completed, as an acquire with `.acq`. Else it blocks, unless
its own step on the object completes the phase (R199); it returns when the phase does. -/
def State.waitLane (s : State) (c : Ctx) (lane : Nat) (ord : SyncOrd) (scope : Scope) (r : BarRef) : Lane :=
  let g := c.b lane
  let back (s : State) (b : Bar) : Lane :=
    match if ord = .acq then s.acquireAt c.w lane scope else some s with
    | some s1 => .ok s1 [b.status g]
    | none => .stay s
  if phaseDone (s.bar r).gen g then back (s.barSettle r) (s.bar r)
  else
    let s1 := s.barSettle r
    if phaseDone (s1.bar r).gen g then back s1 (s1.bar r)
    else
      .block { s1 with nextId := s1.nextId + 2 }
        (.phase r.wg r.off (BitVec.ofNat 32 g) (c.dstOf lane lane 1) (if ord = .acq then some scope else none) s1.nextId
          c.pc c.npc)

/-- `wait` (R204). -/
def execWait (f : Frame) (ord : SyncOrd) (scope : Scope) (rmt : Bool) (s : State) : Host.Outcome State Fault Refusal :=
  perLane (.wait f ord scope rmt) s fun c s1 l => s1.onBar c l rmt fun s2 r => s2.waitLane c l ord scope r

/-- The watches held at the home of a place (R205). -/
def State.watchesAt (s : State) (key : Nat) : Nat :=
  (s.watches.filter fun x => s.homeOf x.key == s.homeOf key).length

/-- `cwatch` of one lane (R205): an engine issue, a release after a `fence.rel` (R304). -/
def State.cwatchLane (s : State) (c : Ctx) (lane : Nat) (r : BarRef) : Lane :=
  let va := c.b lane 2
  let target := if c.e.f.isS then 0 else c.c lane 2
  match misaligned va 8 with
  | some f => .fault s f
  | none =>
    match s.reach (c.x.agent c.w) .rd clsHome .base va 8 with
    | .fault s1 _ f => .fault s1 f
    | .quota s1 rgn => .quota s1 rgn
    | .wait s1 => .stay s1
    | .ok s1 parts =>
      let key := match parts with | p :: _ => p.key | [] => 0
      if 512 ≤ s1.watchesAt key ∨ (s1.bar r).wch = 255 then .ok s1 [1]
      else
        match s1.engineIssue c.w lane c.id with
        | none => .stay s1
        | some s2 =>
          let b := s2.bar r
          let x : Watch := { id := s2.nextId, key := key, target := BitVec.ofNat 64 target, bar := some r, dep := none
                             rgn := c.x.rgn, tag := s2.tagOf c.x.rgn, by_ := some (c.w, lane) }
          .ok (({ s2 with nextId := s2.nextId + 1, watches := s2.watches ++ [x] } : State).barStep r
            { b with wch := b.wch + 1 }) [0]

/-- `cwatch` (R205). -/
def execCwatch (f : Frame) (rmt : Bool) (s : State) : Host.Outcome State Fault Refusal :=
  perLane (.cwatch f rmt) s fun c s1 l => s1.onBar c l rmt fun s2 r => s2.cwatchLane c l r

/-- The kind of a fence (R200, R206). -/
def SyncOrd.fence : SyncOrd → Ord
  | .acq => .acq
  | .rel => .rel
  | _ => .ar

/-- The number of the latest load of a thread that is not performed yet. -/
def Thread.lastLoad (t : Thread) : Option Nat := ((t.accs.filter fun a => a.kind.reads).getLast?).map fun a => a.id

/-- An access as an acquire too, at a scope that reaches at least so far (R304). -/
def Acc.acquire (a : Acc) (scope : Scope) : Acc :=
  { a with ord := if a.ord.releases then .ar else .acq, scope := if a.ord.acquires then Scope.join a.scope scope else scope }

/-- A thread that issues a fence (R304): a release makes its next store, arrival or engine issue a release; an acquire makes
its latest earlier load an acquire. -/
def Thread.fence (t : Thread) (ord : Ord) (scope : Scope) : Thread :=
  let t1 := if ord.releases then
      { t with fenced := some (match t.fenced with | some sc => Scope.join sc scope | none => scope) }
    else t
  if ord.acquires then
    match t1.lastLoad with
    | some id => t1.setAcc id fun a => some (a.acquire scope)
    | none => t1
  else t1

/-- `fence` (R206, R304): it waits among the thread's accesses and orders those around it. -/
def execFence (f : Frame) (ord : SyncOrd) (scope : Scope) (s : State) : Host.Outcome State Fault Refusal :=
  perLane (.fence f ord scope) s fun c s1 l =>
    .pend (s1.updThread c.w l fun t => t.fence (SyncOrd.fence ord) scope)
      { probe c.id .fence .glob [] with ord := SyncOrd.fence ord, scope := scope, pc := c.pc }

/-! ### The arrival of a watch -/

/-- A watch as an agent: an operation of the thread that issued it (R293). -/
def Watch.party (x : Watch) : Party := .engine (x.by_.map fun b => .thread b.1 b.2) [] []

/-- CWATCH_ARRIVAL (R205): the counter has reached the target, so the watch arrives once, a release at `.dev` of what is ordered before
the increments seen: what their releases have left is performed first (R293, R303). An arrival that finds nothing pending is dropped
with FLTC := 1. -/
def execCwatchArrival (watch : Nat) (s : State) : Host.Outcome State Fault Refusal :=
  match s.watches.find? fun x => x.id == watch with
  | none => .next s
  | some x =>
    match x.bar with
    | none => .next s
    | some r =>
      if leBytes (s.homeBytes none x.key 8) < x.target.toNat then .next s
      else
        match s.force x.party .dev with
        | none => .next s
        | some s0 =>
          let s1 := { s0 with watches := s0.watches.filter fun y => y.id != watch }
          let b := s1.bar r
          let b1 := { b with wch := b.wch - 1 }
          .next (s1.barStep r (if b.pend = 0 then { b1 with fltc := true } else { b1 with pend := b.pend - 1 }))

end Sys2Proof.Machine
end

