-- ==== Sys2Proof/Machine/Copy.lean ====
section
/-! DEFINITION. The copy engine: `copy`, `halo` and their transfers (11_core_scratchpad_barriers.md R212 to R216). -/

namespace Sys2Proof.Machine

open Sys2Proof

/-! ### Descriptors -/

/-- DIM0 to DIM2 of a copy descriptor (R213). -/
def copyDims (d : BitVec 512) : Nat × Nat × Nat := (dfield d 143 128, dfield d 175 160, dfield d 191 176)

/-- A copy descriptor is ill-formed (R213). -/
def copyBad (d : BitVec 512) : Bool :=
  let (d0, d1, d2) := copyDims d
  let mode := dfield d 103 102
  let dir := dfield d 101 99
  let idx := dfield d 383 320
  dfield d 511 384 != 0 || dfield d 159 144 != 0 || dfield d 127 104 != 0 || dfield d 98 96 != 0 ||
  mode == 3 || decide (4 ≤ dir) || d0 == 0 || d1 == 0 || d2 == 0 || d0 % 4 != 0 ||
  dfield d 95 64 % 4 != 0 || dfield d 63 0 % 4 != 0 ||
  (mode == 1 && dir != 0 && dir != 3) || (mode == 2 && dir != 1) ||
  (mode != 0 && (d2 != 1 || idx == 0 || idx % 4 != 0)) || (mode == 0 && idx != 0) ||
  (dir == 2 && dfield d 63 32 != 0)

/-- The least and the greatest of a base with two strides taken so many times. -/
def strideSpan (base s1 s2 : Int) (n1 n2 : Nat) : Int × Int :=
  let a := s1 * ((n1 : Int) - 1)
  let b := s2 * ((n2 : Int) - 1)
  (base + min 0 a + min 0 b, base + max 0 a + max 0 b)

/-- The local range of a copy lies in a window of a size, from a base offset (R213). -/
def copyFits (d : BitVec 512) (base size : Nat) : Bool :=
  let (d0, d1, d2) := copyDims d
  let (_, hi) := strideSpan base (dfield d 287 256) (dfield d 319 288) d1 d2
  decide (hi + d0 ≤ size)

/-- The scratch source range of a copy from scratch to TOB lies in its window. -/
def copySrcFits (d : BitVec 512) (base size : Nat) : Bool :=
  let (d0, d1, d2) := copyDims d
  let (lo, hi) := strideSpan base (dsigned d 223 192) (dsigned d 255 224) d1 d2
  decide (0 ≤ lo) && decide (hi + d0 ≤ size)

/-- A halo descriptor is ill-formed (R216). -/
def haloBad (d : BitVec 512) : Bool :=
  let width := dfield d 143 128
  dfield d 63 2 != 0 || dfield d 159 144 == 0 || width == 0 || width % 4 != 0 || dfield d 127 96 % 4 != 0 ||
  dfield d 95 64 % 4 != 0 || dfield d 191 160 % 4 != 0 || dfield d 223 192 % 4 != 0

/-! ### Issue -/

/-- The copies in flight that hold a slot of a core (R212). -/
def State.slotsUsed (s : State) (g : Nat) : Nat := (s.copies.filter fun o => o.core == g).length

/-- The completion object of a copy (R212): a barrier by offset or partner address, or a counter on a page of class H. -/
def State.doneOf (s : State) (c : Ctx) (lane : Nat) (ck : Bool) : Except Lane (State × Done) :=
  if ck then
    let va := c.b lane 2
    match misaligned va 8 with
    | some f => .error (.fault s { f with wr := true })
    | none =>
      match s.reach (c.x.agent c.w) .wr clsHome .tagged va 8 with
      | .fault s1 _ f => .error (.fault s1 f)
      | .quota s1 r => .error (.quota s1 r)
      | .wait s1 => .error (.stay s1)
      | .ok s1 parts => .ok (s1, .ctr (match parts with | p :: _ => p.key | [] => 0) va)
  else
    match s.barAt c.x false (c.b lane) with
    | .error f => .error (.fault s f)
    | .ok r => .ok (s, .bar r)

/-- A descriptor in the scratch window of the unit's workgroup (R212, R216). -/
def State.winDesc (s : State) (c : Ctx) (lane off n : Nat) : DescRes :=
  match misaligned off n with
  | some f => .stop (.fault s f)
  | none =>
    if s.scrSize c.x.wg < off + n then .stop (.fault s { code := 7, sub := 0, addr := some off })
    else
      match (s.engineIssue c.w lane c.id).bind fun s1 => s1.settleOwn c.w lane c.id (.scr c.x.wg) off n with
      | none => .stop (.stay s)
      | some s1 =>
        .ok s1 (descOfBytes (winBytes (match s1.wgs.find c.x.wg with | some y => y.scr | none => []) off n))

/-- The L form's sext(I, 32) added to a 32-bit local address (R212, R216). -/
def Ctx.localPlus (c : Ctx) (v : Nat) : Nat := if c.e.f.form = .l then lowBits ((v : Int) + c.immI) 32 else v

/-- The core that holds the slot of a unit's operation on a workgroup (R212). -/
def State.slotCore (s : State) (c : Ctx) (wg : Nat) : Nat :=
  match coreOfWave c.w with
  | some g => g
  | none => match s.wgs.find wg with | some y => y.core | none => 4 * clusterOfWave c.w

/-- An operation in flight that a lane has issued. -/
def Ctx.op (c : Ctx) (s : State) (lane : Nat) (kind : CopyKind) (wg src : Nat) (d : BitVec 512) (bytes : Nat)
    (done : Done) : CopyOp :=
  { id := s.nextId, kind := kind, core := s.slotCore c wg, rgn := c.x.rgn, tag := s.liveTag c.x.rgn, wg := wg, src := src
    w := c.w, lane := lane, issue := c.id, desc := d, run := 0, off := 0, left := bytes, moved := 0, done := done
    wait := none, started := false, held := false, pc := c.pc
    via := if c.x.kind = .tile ∨ c.x.kind = .step then c.x.src else 0 }

/-- An operation takes its slot; where none is free the instruction waits (R212). -/
def State.putOp (s : State) (o : CopyOp) : Lane :=
  if 256 ≤ s.slotsUsed o.core then .stay s
  else .ok { s with nextId := s.nextId + 1, copies := s.copies ++ [o] } []

/-- A copy whose descriptor is read and whose addresses are in it (R212, R213). -/
def State.copyStart (s : State) (c : Ctx) (lane : Nat) (ck : Bool) (d : BitVec 512) : Lane :=
  if copyBad d then .fault s { code := 0x0A, sub := 1 }
  else
    let dir := dfield d 101 99
    let tob := dir = 2 ∨ dir = 3
    match s.winPlace c.x false (dfield d 95 64), s.winPlace c.x false (if dir = 2 then dfield d 31 0 else 0) with
    | .error f, _ => .fault s f
    | .ok _, .error f => .fault s f
    | .ok r, .ok from_ =>
      let size := if tob then s.tobSize r.wg else s.scrSize r.wg
      if !copyFits d r.off size then
        .fault s { code := 7, sub := if tob then 1 else 0, addr := some (dfield d 95 64), wr := dir != 1 }
      else if dir = 2 ∧ !copySrcFits d from_.off (s.scrSize from_.wg) then
        .fault s { code := 7, sub := 0, addr := some (dfield d 31 0) }
      else
        match s.doneOf c lane ck with
        | .error r => r
        | .ok (s1, done) =>
          let (d0, d1, d2) := copyDims d
          let d' := dput d 95 64 r.off
          let d'' := if dir = 2 then dput d' 63 0 from_.off else d'
          s1.putOp (c.op s1 lane .copy r.wg from_.wg d'' (d0 * d1 * d2) done)

/-- `copy` of one lane (R212). -/
def State.copyLane (s : State) (c : Ctx) (lane : Nat) (dg ck : Bool) : Lane :=
  let got := if dg then s.readDesc c lane (addrSum (c.a lane 2) 0 1 c.immX 64) 64
    else s.winDesc c lane (addrSum (c.a lane) 0 1 c.immX 32) 64
  match got with
  | .stop r => r
  | .ok s1 d =>
    let d1 := if c.e.f.c = .zeroLit then d else dput d 63 0 (c.c lane 2)
    s1.copyStart c lane ck (dput d1 95 64 (c.localPlus (dfield d1 95 64)))

/-- A slot of the core is free for each lane of the group (R212). The Caller's one lane is checked at its slot's core. -/
def State.slotsFit (s : State) (c : Ctx) : Bool :=
  match coreOfWave c.w with
  | some g => decide (s.slotsUsed g + c.group.length ≤ 256)
  | none => true

/-- An instruction whose lanes each take a copy slot. -/
def slotted (i : Instr) (s : State) (g : Ctx → State → Nat → Lane) : Host.Outcome State Fault Refusal :=
  perLaneIf i s (fun c s1 => s1.slotsFit c) g

/-- `copy` (R212). -/
def execCopy (f : Frame) (dg ck : Bool) (s : State) : Host.Outcome State Fault Refusal :=
  slotted (.copy f dg ck) s fun c s1 l => s1.copyLane c l dg ck

/-- `halo` of one lane (R216). -/
def State.haloLane (s : State) (c : Ctx) (lane : Nat) : Lane :=
  match s.winDesc c lane (addrSum (c.a lane) 0 1 c.immX 32) 32 with
  | .stop r => r
  | .ok s1 d0 =>
    let d := dput d0 127 96 (c.localPlus (dfield d0 127 96))
    let doff := dfield d 127 96
    let rows := dfield d 159 144
    let width := dfield d 143 128
    if haloBad d then .fault s1 { code := 0x0A, sub := 1 }
    else if s1.scrSize c.x.wg < doff + (rows - 1) * dfield d 223 192 + width then
      .fault s1 { code := 7, sub := 0, addr := some doff, wr := true }
    else
      match s1.partnerOf c.x (dfield d 1 0) with
      | none => .fault s1 { code := 7, sub := 6 }
      | some src =>
        match s1.barAt c.x true (dfield d 255 224) with
        | .error f => .fault s1 f
        | .ok cbar =>
          match s1.barAt c.x false (c.b lane) with
          | .error f => .fault s1 f
          | .ok r =>
            s1.putOp { c.op s1 lane .halo c.x.wg src d (rows * width) (.bar r) with
              wait := some (cbar, BitVec.ofNat 32 (c.c lane)) }

/-- `halo` (R216). -/
def execHalo (f : Frame) (s : State) : Host.Outcome State Fault Refusal :=
  slotted (.halo f) s fun c s1 l => s1.haloLane c l

/-! ### Transfer -/

/-- One operation changed, or removed, and the forwarding entries told (R362). -/
def State.setOp (s : State) (id : Nat) (g : CopyOp → Option CopyOp) : State :=
  ({ s with copies := s.copies.filterMap fun o => if o.id = id then g o else some o } : State).countFwd

/-- Who an operation acts for. -/
def CopyOp.eng (o : CopyOp) : EngOf := ⟨o.rgn, some o.core, o.core / 4, o.pc, o.id⟩

/-- The last step of an operation: a counter is raised by 1 (R214, R215). -/
def State.finish (s : State) (o : CopyOp) : State :=
  match o.done with
  | .bar _ => s
  | .ctr key va => s.raiseCtr o.eng key (some va) (some { code := 0x0A, sub := 5, wr := true, det0 := o.moved })

/-- COPY_FAULT (R215): the rest of the bytes land with FLTC, or the counter is raised, and the record is posted. -/
def State.copyFault (s : State) (o : CopyOp) (sub : BitVec 8) (addr : Nat) (wr : Bool) : State :=
  let s1 := (s.setOp o.id fun _ => none).land o.done o.left true
  (s1.finish o).engRecord o.eng { code := 0x0A, sub := sub, addr := some addr, wr := wr, det0 := o.moved }

/-- The subcode a copy gives a fault of its own accesses (R215). -/
def copySub (f : Flt) : BitVec 8 := if f.code = 4 then 2 else if f.code = 0x0E then 5 else 3

/-- What an access of an operation came to, carried to what follows it. -/
def copyRes (o : CopyOp) (wr : Bool) (r : EngRes) (k : State → List Byte → State) : State :=
  match r with
  | .ok s1 bs => k s1 bs
  | .fault s1 f => s1.copyFault o (copySub f) (f.addr.getD 0) wr
  | .poison s1 va key => (s1.copyFault o 3 va wr).dataError o.rgn key
  | .full s1 va => (s1.setOp o.id fun _ => none).engFull o.eng va
  | .quota s1 r => (s1.setOp o.id fun o => some { o with held := true }).engQuota o.eng r
  | .wait s1 => s1

/-- What the issuer has before the operation and that touches the bytes of a part is performed first (R214). -/
def State.copyOwn (s : State) (o : CopyOp) (sp : Space) (key n : Nat) : State :=
  (s.settleOwn o.w o.lane o.issue sp key n).getD s

/-- The parts of a global access after what the issuer has before it. -/
def State.copyOwnParts (s : State) (o : CopyOp) (parts : List Part) : State :=
  parts.foldl (fun s p => s.copyOwn o .glob p.key p.size) s

/-- The window bytes of an operation's local address. -/
def State.copyWin (s : State) (wg off n : Nat) : List Byte :=
  winBytes (match s.wgAt wg with | some y => y.scr | none => []) off n

/-- Bytes written to a local window of an operation. -/
def State.copyPut (s : State) (wg : Nat) (tob : Bool) (off : Nat) (bs : List Byte) : State :=
  s.updWg wg fun y => if tob then { y with tob := winPut y.tob off bs } else { y with scr := winPut y.scr off bs }

/-- The part has landed (R214): the next part is next, and after the last the operation ends. -/
def State.copyLanded (s : State) (o : CopyOp) (n run : Nat) : State :=
  let s1 := s.land o.done n false
  if o.left ≤ n then (s1.setOp o.id fun _ => none).finish o
  else
    let move (p : CopyOp) : CopyOp :=
      { p with left := o.left - n, moved := o.moved + n
               run := if o.off + n = run then o.run + 1 else o.run
               idx := if o.off + n = run then none else o.idx
               off := if o.off + n = run then 0 else o.off + n }
    s1.setOp o.id fun p => some (move p)

/-- The bytes of the part at the front of a run: the grain of the destination ends it (R214, R297). -/
def grainPart (dst left : Nat) : Nat := min left (32 - dst % 32)

/-- One part of a copy whose global address is known (R214). -/
def State.copyPart (s : State) (o : CopyOp) (g l : Nat) : State :=
  let (d0, _, _) := copyDims o.desc
  let dir := dfield o.desc 101 99
  let n := grainPart (if dir = 1 then g else l) (d0 - o.off)
  if dir = 1 then
    let s0 := s.copyOwn o (.scr o.wg) l n
    match s0.engParts o.eng .wr clsStore g n with
    | .stop r => copyRes o true r (fun s _ => s)
    | .ok s1 parts =>
      copyRes o true ((s1.copyOwnParts o parts).engStore o.eng parts (s0.copyWin o.wg l n))
        (fun s2 _ => s2.copyLanded o n d0)
  else if dir = 2 then
    let s0 := (s.copyOwn o (.scr o.src) g n).copyOwn o (.tob o.wg) l n
    (s0.copyPut o.wg true l (s0.copyWin o.src g n)).copyLanded o n d0
  else
    match s.engParts o.eng .rd clsAny g n with
    | .stop r => copyRes o false r (fun s _ => s)
    | .ok s1 parts =>
      let sp := if dir = 0 then Space.scr o.wg else .tob o.wg
      copyRes o false (((s1.copyOwnParts o parts).copyOwn o sp l n).engFetch o.eng parts)
        (fun s2 bs => (s2.copyPut o.wg (dir = 3) l bs).copyLanded o n d0)

/-- The next part of a copy (R214): under gather and scatter the index of its row is read once, before its first part. -/
def State.copyNext (s : State) (o : CopyOp) : State :=
  let (_, d1, _) := copyDims o.desc
  let i := o.run % d1
  let j := o.run / d1
  let l := dfield o.desc 95 64 + i * dfield o.desc 287 256 + j * dfield o.desc 319 288 + o.off
  let base : Int := dfield o.desc 63 0
  let pitch := dsigned o.desc 223 192
  let at_ (x : Int) : Nat := lowBits (x + o.off) 64
  if dfield o.desc 103 102 = 0 then s.copyPart o (at_ (base + i * pitch + j * dsigned o.desc 255 224)) l
  else
    match o.idx with
    | some v => s.copyPart o (at_ (base + (v : Int) * pitch)) l
    | none =>
      match s.engParts o.eng .rd clsAny ((dfield o.desc 383 320 + 4 * i) % 2 ^ 64) 4 with
      | .stop r => copyRes o false r (fun s _ => s)
      | .ok s1 parts =>
        copyRes o false ((s1.copyOwnParts o parts).engFetch o.eng parts)
          (fun s2 bs =>
            let v := leBytes bs
            (s2.setOp o.id fun p => some { p with idx := some v }).copyPart { o with idx := some v }
              (at_ (base + (v : Int) * pitch)) l)

/-- The next part of a halo (R216): rows from the partner's window to the local one. ADDR of a part that lies beyond the partner's window
in part is the part's first byte: no rule says which byte it is (DESIGN CHOICE, assumption 74). -/
def State.haloNext (s : State) (o : CopyOp) : State :=
  let width := dfield o.desc 143 128
  let src := dfield o.desc 95 64 + o.run * dfield o.desc 191 160 + o.off
  let dst := dfield o.desc 127 96 + o.run * dfield o.desc 223 192 + o.off
  let n := grainPart dst (width - o.off)
  if s.scrSize o.src < src + n then s.copyFault o 4 src false
  else
    let s0 := s.copyOwn o (.scr o.wg) dst n
    (s0.copyPut o.wg false dst (s0.copyWin o.src src n)).copyLanded o n width

/-- A copy may start: every copy of its core that was issued before it has started, and its workgroup is not being saved
(R214, R215, R361). -/
def State.copyMayStart (s : State) (o : CopyOp) : Bool :=
  (s.copies.all fun p => p.core != o.core || p.kind != .copy || decide (o.id ≤ p.id) || p.started) &&
  (match s.wgs.find o.wg with | some y => !y.saving && !y.saved | none => true)

/-- COPY_TRANSFER (R214, R215): one part of a copy, or of a halo that has started. -/
def execCopyTransfer (op : Nat) (s : State) : Host.Outcome State Fault Refusal :=
  match s.copies.find? fun o => o.id == op with
  | none => .next s
  | some o =>
    match o.kind with
    | .wdq => .next s
    | .halo => .next (if o.started then s.haloNext o else s)
    | .copy =>
      if o.held then .next s
      else if o.started || s.copyMayStart o then
        .next ((s.setOp op fun o => some { o with started := true }).copyNext { o with started := true })
      else .next s

/-- HALO_START (R216): the phase of the cluster barrier has completed, an acquire at `.cls`, and the halo reads from then
on. -/
def execHaloStart (op : Nat) (s : State) : Host.Outcome State Fault Refusal :=
  match s.copies.find? fun o => o.id == op with
  | none => .next s
  | some o =>
    match o.wait with
    | none => .next s
    | some (r, g) =>
      if o.started || !phaseDone (s.bar r).gen g.toNat || (match s.wgs.find o.wg with | some y => y.saving || y.saved | none => false)
      then .next s
      else
        match s.force (.engine (some (.thread o.w o.lane)) [o.core] []) .cls with
        | some s1 => .next ((s1.pullFor o.w .cls).setOp op fun o => some { o with started := true })
        | none => .next s

end Sys2Proof.Machine
end

