-- ==== Sys2Proof/Machine/Fetch.lean ====
section
/-! DEFINITION. Fetching an instruction's bytes (02_instruction_formats.md R27 to R29, R41, 10_core_issue.md R185,
08_thread_memory_traps.md R170), and the clocks of a step. -/

namespace Sys2Proof.Machine

open Sys2Proof

/-- The 32 bytes of a fetch block as L2 gives them now: the instruction caches are filled from there, whatever the class of the
page (R175, R185). -/
def State.blockBytes (s : State) (key : Nat) : State × List Byte :=
  if s.cutOff key then (s, List.replicate 32 0xFF)
  else let s1 := s.atHome key 32; (s1, s1.homeBytes none key 32)

/-- The L0 cache of its core that a unit fetches through: that of its quadrant, of the Caller one of its own (R175, R178; assumption 27). -/
def fetchQuad (w : Nat) : Nat := match coreOfWave w with | some _ => w % 128 / 32 | none => 4

/-- A block put into an instruction cache of so many blocks (R175): where it is full another goes, which one a free value says. -/
def State.cacheBlock (s : State) (cap : Nat) (m : NMap (List Byte)) (blk : Nat) (bs : List Byte) : State × NMap (List Byte) :=
  if (m.find blk).isSome || decide (m.length < cap) then (s, m.ins blk bs)
  else
    let (n, s1) := s.fresh
    (s1, (m.del ((m[n % m.length]?.map Prod.fst).getD 0)).ins blk bs)

/-- A block put into the L0 cache that a unit fetches through, of 16 KiB. -/
def State.fillL0 (s : State) (w blk : Nat) (bs : List Byte) : State :=
  let g := fetchCore w
  let (s1, m) := s.cacheBlock 512 (NMap.get [] (s.core g).l0 (fetchQuad w)) blk bs
  let c := s1.core g
  s1.setCore g { c with l0 := c.l0.ins (fetchQuad w) m }

/-- A block put into the instruction cache of a unit's core, of 128 KiB. -/
def State.fillCore (s : State) (w blk : Nat) (bs : List Byte) : State :=
  let g := fetchCore w
  let (s1, m) := s.cacheBlock 4096 (s.core g).icache blk bs
  let c := s1.core g
  s1.setCore g { c with icache := m }

/-- A fetch of a block (R185): through the L0 cache of the quadrant, then the core's instruction cache, then L2. The caches are not
kept consistent with stores, and no rule says which blocks they hold still, so where they hold other bytes than L2 gives a free value says
from where the block comes. A block that meets an uncorrectable error in L2 raises event 0x13, and its bytes are free (R289 gives the
value of a load alone). -/
def State.fetchBlock (s : State) (w rgn key : Nat) : State × List Byte :=
  let blk := key / 32
  let c := s.core (fetchCore w)
  let l0 := NMap.find (NMap.get [] c.l0 (fetchQuad w)) blk
  let (s1, now) := s.blockBytes key
  let bad := s1.poisoned key 32
  let both (s : State) : State := (s.fillCore w blk now).fillL0 w blk now
  let home (s : State) : State × List Byte :=
    if bad then let (n, s2) := s.fresh; (s2.dataError rgn key, toLe 32 n) else (both s, now)
  match l0, c.icache.find blk with
  | none, none => home s1
  | some a, none =>
    if a = now ∧ !bad then (s1, now) else let (n, s2) := s1.fresh; if n % 2 = 0 then (s2, a) else home s2
  | none, some b =>
    if b = now ∧ !bad then (s1.fillL0 w blk now, now)
    else let (n, s2) := s1.fresh; if n % 2 = 0 then (s2.fillL0 w blk b, b) else home s2
  | some a, some b =>
    if a = now ∧ b = now ∧ !bad then (s1, now)
    else
      let (n, s2) := s1.fresh
      if n % 3 = 0 then (s2, a) else if n % 3 = 1 then (s2.fillL0 w blk b, b) else home s2

/-- What fetch finds for a unit: an instruction; a filler; a word that decodes to none, with its subcode of fault 0x01; a
translation fault; a quota that would be passed; a wait for the host's translation; or nothing that can issue now. -/
inductive Fetched where
  | instr (s : State) (i : Instr)
  | filler (s : State)
  | bad (s : State) (sub : BitVec 8)
  | fault (s : State) (f : Flt)
  | quota (s : State) (rgn : Nat)
  | wait (s : State)
  | idle
  deriving DecidableEq, Repr

/-- The bytes of a fetch block from the PC to its end, decoded (R27 to R29). -/
def fetchedOf (s : State) (u : Unit2) (bs : List Byte) : Fetched :=
  if leBytes (bs.take 4) = 3 then .filler s
  else
    match bs with
    | [] => .bad s 4
    | b :: _ =>
      if lenOf b = 4 then .bad s 5
      else
        match decode u bs with
        | .ok (i, _) => .instr s i
        | .error sub => .bad s sub

/-- The unit may issue (R180): it is resident and not being saved, its core is not gated, and a path holds the turn. -/
def State.mayIssue (s : State) (w : Nat) (x : Wave) : Bool :=
  (match coreOfWave w with | some g => !(s.core g).gated | none => true) &&
  (match s.wgs.find x.wg with | some y => !y.saving | none => true)

/-- The fetch of the next instruction of a unit: check 1 of R41, then the bytes. -/
def State.fetch (s : State) (w : Nat) : Fetched :=
  match s.waves.find w with
  | none => .idle
  | some x =>
    match x.turn with
    | none => .idle
    | some l =>
      if !s.mayIssue w x || (x.pathOf l).isEmpty then .idle
      else
        let pc := (x.threads.getD l .empty).pc.toNat
        match s.translate (x.agent w) pc .ex (fun _ => none) with
        | .fault s1 f => .fault s1 f
        | .quota s1 r => .quota s1 r
        | .wait s1 => .wait s1
        | .ok s1 leaf =>
          let blk := pc / 32 * 32
          match x.fetched.filter fun p => p.1 == blk with
          | some (_, bs) => fetchedOf s1 x.unit (bs.drop (pc % 32))
          | none =>
            let (s2, bs) := s1.fetchBlock w x.rgn (s1.hostKey (s1.fnOf x.rgn) (leaf.key + (blk - leaf.va)))
            fetchedOf { s2 with waves := s2.waves.upd w fun x => { x with fetched := some (blk, bs) } } x.unit
              (bs.drop (pc % 32))

/-- The lanes of the path that holds the turn of a unit, and its PC. -/
def State.turnPath (s : State) (w : Nat) : List Nat × DWord :=
  match s.waves.find w with
  | some x => (match x.turn with
      | some l => (x.pathOf l, (x.threads.getD l .empty).pc)
      | none => ([], 0))
  | none => ([], 0)

/-- The turn of a unit after its path has acted (R132). -/
def State.settlePath (s : State) (w : Nat) (lanes : List Nat) : State :=
  { s with waves := s.waves.upd w fun x => x.settleTurn lanes }

/-- Every lane of the path that holds the turn takes a fault of the instruction itself (R41). A table entry that met an uncorrectable
error raises its event once (R280). -/
def State.faultPath (s : State) (w : Nat) (f : Flt) : State :=
  let (lanes, pc) := s.turnPath w
  let rgn := match s.waves.find w with | some x => x.rgn | none => 0
  let s1 := lanes.foldl (fun s l => s.raise w l pc { f with bad := none }) s.holdActs
  (((if lanes.isEmpty then s1 else s1.walkError rgn f)).settlePath w lanes).actAll

/-- Every lane of the path takes fault 0x0F (R364). -/
def State.quotaPath (s : State) (w rgn : Nat) : State :=
  let (lanes, pc) := s.turnPath w
  ((lanes.foldl (fun s l => (s.raiseQuota? w l pc rgn).getD s) s.holdActs).settlePath w lanes).actAll

/-- R28: fetch steps over a filler; it is no instruction of any window. -/
def State.skipFiller (s : State) (w : Nat) : State :=
  let (lanes, pc) := s.turnPath w
  { s with waves := s.waves.upd w fun x =>
      let put (l : Nat) (t : Thread) : Thread :=
        if lanes.contains l then { t with st := .running, pc := pc + 4 } else t
      { x with threads := x.threads.mapIdx put } }

/-- FAIRNESS_EXPIRY of one wave (R132): the count has reached the limit and another path is ready, so the turn passes. -/
def Wave.expire (x : Wave) : Wave :=
  match x.turn with
  | some l => if x.limit ≤ x.fair ∧ 2 ≤ x.heads.length then x.giveTurn (x.nextPath ((x.pathOf l).headD l)) else x
  | none => x

/-- The clocks of a wave's core pass, n of them, over at most `fuel` turns (R132, R134): while another path is ready they
are counted, and each time the count reaches the limit the turn passes. -/
def Wave.count (x : Wave) : Nat → Nat → Wave
  | 0, _ => x
  | fuel + 1, n =>
    if x.fair + n < x.limit then { x with fair := x.fair + n }
    else ({ x with fair := x.limit } : Wave).expire.count fuel (n - (x.limit - x.fair))

/-- The clocks of a wave's core pass: they count while a path holds the turn and another is ready (R132). -/
def Wave.age (x : Wave) (n : Nat) : Wave := if x.turn.isSome ∧ 2 ≤ x.heads.length then x.count (n + 1) n else x

/-- The clocks that pass before a step, in each unit its own (R19, R367), and the errors that are corrected meanwhile (R289): amounts
no rule gives (assumptions 9 and 48). -/
def State.tick (s : State) : State :=
  { s.countCorrected with
    waves := s.waves.map fun e => (e.1, e.2.age (Config.clocks s.ticks (fetchCore e.1)))
    clks := s.clks.mapIdx fun u n => n + Config.clocks s.ticks u
    us := s.us + Config.micros s.ticks
    ticks := s.ticks + 1 }

end Sys2Proof.Machine
end

