-- ==== Sys2Proof/Machine/Control.lean ====
section
/-! DEFINITION. Branches, calls and returns, rejoin masks, joins, exits and spawning (07_control_divergence.md R135 to
R148). -/

namespace Sys2Proof.Machine

open Sys2Proof

/-! ### Branches, calls and returns -/

/-- The loop buffer of a quadrant at a taken backward branch at `pc` to `tgt` (R186). -/
def LoopBuf.branch (b : LoopBuf) (pc tgt : Nat) : LoopBuf :=
  let first := tgt / 32
  let last := pc / 32
  { last := some pc
    range := if b.last = some pc ∧ last - first < 16 then some (first, last) else b.range }

/-- A group has branched: where a lane has gone backwards, the wave fetches its blocks afresh (R170), and the quadrant's
loop buffer may capture the loop (R186). -/
def State.noteBackward (s : State) (c : Ctx) : State :=
  let back := c.group.filterMap fun l => match s.thread? c.w l with
    | some t => if t.ready && decide (t.pc.toNat ≤ c.pc.toNat) then some t.pc.toNat else none
    | none => none
  match back with
  | [] => s
  | tgt :: _ =>
    let s1 := { s with waves := s.waves.upd c.w fun x => { x with fetched := none } }
    match coreOfWave c.w with
    | none => s1
    | some g =>
      let k := s1.core g
      let q := c.w % 128 / 32
      let b := (k.loops.find q).getD ⟨none, none⟩
      s1.setCore g { k with loops := k.loops.ins q (b.branch c.pc.toNat tgt) }

/-- PC + 4 × disp (R135). -/
def Ctx.dispTarget (c : Ctx) (lane : Nat) : DWord :=
  let disp : Int := if c.e.f.isS then intOf (c.a lane) .s32 else c.immX
  c.pc + BitVec.ofInt 64 (4 * disp)

/-- zext(A, 64) + off (R135). -/
def Ctx.regTarget (c : Ctx) (lane : Nat) : DWord := BitVec.ofNat 64 (c.a lane 2) + BitVec.ofInt 64 c.offX

/-- Fault 0x02, subcode 0x08, of a target whose bits 1:0 are not zero (R12, R136). -/
def targetBad (tgt : DWord) : Option Flt :=
  if tgt.toNat % 4 = 0 then none else some { code := 2, sub := 8, addr := some tgt.toNat }

/-- The thread goes to a target. -/
def State.goTo (s : State) (c : Ctx) (lane : Nat) (tgt : DWord) : State :=
  s.updThread c.w lane fun t => { t with pc := tgt }

/-- A branch of one lane. -/
def State.branchLane (s : State) (c : Ctx) (lane : Nat) (tgt : DWord) : Lane :=
  match targetBad tgt with
  | some f => .fault s f
  | none => .ok (s.goTo c lane tgt) []

/-- A return address pushed, and the spilled entry moved out of the way (R137). -/
def Thread.push (t : Thread) (ra : DWord) : Thread :=
  if t.stack.length = 4 then { t with stack := t.stack.drop 1 ++ [ra], spillp := t.spillp + 8, spl := true }
  else { t with stack := t.stack ++ [ra] }

/-- A call of one lane (R136, R137): the return address is pushed, the oldest one spilled where the stack is full, and the
thread goes to the target. -/
def State.callLane (s : State) (c : Ctx) (lane : Nat) (tgt : DWord) : Lane :=
  let t := c.thread lane
  match targetBad tgt with
  | some f => .fault s f
  | none =>
    let go (s : State) : State := (s.updThread c.w lane fun t => t.push c.npc).goTo c lane tgt
    if t.stack.length < 4 then .ok (go s) []
    else if t.spillp = t.spilll then .fault s { code := 6, sub := 1, addr := some t.spillp.toNat }
    else
      match s.issueGlob c lane { va := t.spillp.toNat, size := 8, kind := .store (toLe 8 (t.stack.headD 0).toNat)
                                 need := .wr, cls := clsStore, ord := .plain, scope := .thr, mode := .spill
                                 words := none } with
      | .pend s1 a => .pend (go s1) a
      | r => r

/-- A return of one lane (R136, R137). -/
def State.retLane (s : State) (c : Ctx) (lane : Nat) : Lane :=
  let t := c.thread lane
  match t.stack.getLast? with
  | some ra =>
    (match targetBad ra with
     | some f => .fault s f
     | none => .ok ((s.updThread c.w lane fun t => { t with stack := t.stack.dropLast }).goTo c lane ra) [])
  | none =>
    if t.spillp.toNat ≤ t.spillb.toNat then .fault s { code := 6, sub := 2 }
    else
      let q : Req := { va := t.spillp.toNat - 8, size := 8, kind := .load .b64 false, need := .rd, cls := clsAny
                       ord := .plain, scope := .thr, mode := .spill, words := some 2 }
      match s.reach (c.x.agent c.w) .rd clsAny .spill q.va 8 with
      | .fault s1 _ f => .fault s1 f
      | .quota s1 r => .quota s1 r
      | .wait s1 => .stay s1
      | .ok s1 parts =>
        match s1.readNow c lane q parts with
        | none => .stay s
        | some (s2, ws) =>
          let ra := BitVec.ofNat 64 (ofWords ws)
          match targetBad ra with
          | some f => .fault s2 f
          | none => .ok ((s2.updThread c.w lane fun t => { t with spillp := t.spillp - 8 }).goTo c lane ra) []

/-- An instruction that sends its lanes to targets. -/
def branching (i : Instr) (s : State) (g : Ctx → State → Nat → Lane) : Host.Outcome State Fault Refusal :=
  run i s fun c s1 => (s1.eachLane c (g c)).noteBackward c

/-- `bra` (R136). -/
def execBra (f : Frame) (s : State) : Host.Outcome State Fault Refusal :=
  branching (.bra f) s fun c s1 l => s1.branchLane c l (c.dispTarget l)

/-- `brx` (R136). -/
def execBrx (f : Frame) (s : State) : Host.Outcome State Fault Refusal :=
  branching (.brx f) s fun c s1 l => s1.branchLane c l (c.regTarget l)

/-- `call` (R136). -/
def execCall (f : Frame) (s : State) : Host.Outcome State Fault Refusal :=
  branching (.call f) s fun c s1 l => s1.callLane c l (c.dispTarget l)

/-- `callx` (R136). -/
def execCallx (f : Frame) (s : State) : Host.Outcome State Fault Refusal :=
  branching (.callx f) s fun c s1 l => s1.callLane c l (c.regTarget l)

/-- `ret` (R136). -/
def execRet (f : Frame) (s : State) : Host.Outcome State Fault Refusal :=
  branching (.ret f) s fun c s1 l => s1.retLane c l

/-! ### Rejoin masks, join and wsync -/

/-- A rejoin mask as it is when the instruction issues. -/
def Ctx.mask (c : Ctx) (o : Operand) : Word :=
  match o with
  | .k n => NMap.get 0 c.x.k n.toNat
  | _ => 0

/-- A rejoin mask written once for the group (R139). -/
def State.putMask (s : State) (c : Ctx) (m : Word) : State :=
  if c.group.isEmpty then s else s.putDst c.w c.lead c.e.f.d [m]

/-- `kset` and `kset.or` (R139). -/
def execKset (f : Frame) (or : Bool) (s : State) : Host.Outcome State Fault Refusal :=
  run (.kset f or) s fun c s1 => s1.putMask c (if or then c.mask f.d ||| maskOf c.group else maskOf c.group)

/-- `kclr` (R139). -/
def execKclr (f : Frame) (sel : Bool) (s : State) : Host.Outcome State Fault Refusal :=
  run (.kclr f sel) s fun c s1 =>
    s1.putMask c (if sel then c.mask f.d &&& ~~~(BitVec.ofNat 32 (c.a c.lead)) else 0)

/-- A fault 0x19 (R142). -/
def maskFault (sub : BitVec 8) (m : Word) : Flt := { code := 0x19, sub := sub, det0 := m.toNat }

/-- An arrival of a lane at a join instance (R140): its accesses are ordered before those after the completion (R142). -/
def State.joinLane (s : State) (c : Ctx) (lane k : Nat) (v : Word) : Lane :=
  if !maskHas v lane then .fault s (maskFault 2 v)
  else
    let inst := (s.waves.find c.w).bind fun x => x.joins.find k
    let bad := inst.bind fun j =>
      if j.mask ≠ v then some (maskFault 1 j.mask) else if j.pc ≠ c.pc then some (maskFault 3 j.mask) else none
    match bad with
    | some f => .fault s f
    | none =>
      match s.drain c.w lane with
      | none => .stay s
      | some s1 =>
        let j := inst.getD { mask := v, pc := c.pc, arrived := 0 }
        let j1 := { j with arrived := j.arrived ||| maskOf [lane] }
        .block { s1 with waves := s1.waves.upd c.w fun x => { x with joins := x.joins.ins k j1 } } (.join k)

/-- `join` (R140). One that its last lanes complete as they arrive is complete before the turn is settled: the holding path goes on with
its turn and its count, and has not ended. R132 does not say which comes first (DESIGN CHOICE, assumption 73). -/
def execJoin (f : Frame) (s : State) : Host.Outcome State Fault Refusal :=
  run (.join f) s fun c s1 =>
    let k := match f.a with | .k n => n.toNat | _ => 0
    let s2 := s1.eachLane c fun s l => s.joinLane c l k (c.mask f.a)
    { s2 with waves := s2.waves.upd c.w Wave.joinsDone }

/-- An arrival of a lane at a wsync instance (R141). -/
def State.syncLane (s : State) (c : Ctx) (lane : Nat) (v : Word) : Lane :=
  if !maskHas v lane then .fault s (maskFault 2 v)
  else
    let insts := match s.waves.find c.w with | some x => x.syncs | none => []
    match insts.find? fun j => j.mask &&& v != 0 && j.mask != v with
    | some j => .fault s (maskFault 1 j.mask)
    | none =>
      match s.drain c.w lane with
      | none => .stay s
      | some s1 =>
        let arrive (x : Wave) : Wave :=
          if x.syncs.any fun j => j.mask == v then
            { x with syncs := x.syncs.map fun j =>
                if j.mask = v then { j with arrived := j.arrived ||| maskOf [lane] } else j }
          else { x with syncs := x.syncs ++ [{ mask := v, arrived := maskOf [lane] }] }
        .block { s1 with waves := s1.waves.upd c.w arrive } (.wsync v)

/-- `wsync` (R141); as for `join`, its completion comes before the turn is settled (assumption 73). -/
def execWsync (f : Frame) (s : State) : Host.Outcome State Fault Refusal :=
  run (.wsync f) s fun c s1 =>
    let s2 := s1.eachLane c fun s l => s.syncLane c l (BitVec.ofNat 32 (c.a l))
    { s2 with waves := s2.waves.upd c.w Wave.syncsDone }

/-! ### Ending, yielding and doing nothing -/

/-- `exit` of one lane: once its pending results are written, it is Exited (R144). -/
def State.exitLane (s : State) (c : Ctx) (lane : Nat) : Lane :=
  match s.returnAll c.w lane with
  | none => .stay s
  | some s1 => .gone (s1.exitThread c.w lane)

/-- `exit` (R144). -/
def execExit (f : Frame) (s : State) : Host.Outcome State Fault Refusal :=
  perLane (.exit f) s fun c s1 l => s1.exitLane c l

/-- The turn passes to the next ready path after the one that has yielded, as it stands now, where there is another (R132, R144). -/
def Wave.yieldTurn (x : Wave) (path : List Nat) : Wave :=
  let l := path.headD 0
  if 2 ≤ x.heads.length then x.giveTurn (x.nextPath ((x.pathOf l).headD l)) else x.settleTurn path

/-- `yield` (R144): a group whose guard holds in some lane passes the turn. -/
def execYield (f : Frame) (s : State) : Host.Outcome State Fault Refusal :=
  let turn (c : Ctx) (s1 : State) : State :=
    if c.group.isEmpty then s1.settleTurn c
    else ({ s1 with waves := s1.waves.upd c.w fun x => x.yieldTurn c.path } : State).actAll
  issue (.yield f) s (fun _ _ => true) turn fun _ s1 => s1

/-- `nop` (R144). -/
def execNop (f : Frame) (s : State) : Host.Outcome State Fault Refusal :=
  run (.nop f) s fun _ s1 => s1

/-! ### Spawning -/

/-- The entry of `spawn` (R145). -/
def Ctx.spawnEntry (c : Ctx) (lane : Nat) : DWord :=
  if c.e.f.isS then BitVec.ofNat 64 (c.b lane 2) else c.pc + BitVec.ofInt 64 (4 * c.immX)

/-- The key of a spawn bin (R146). -/
def SpawnBin.hasKey (b : SpawnBin) (rgn : Nat) (entry : DWord) (tag : Option (BitVec 5)) (sdep : Nat) : Bool :=
  b.rgn == rgn && b.entry == entry && b.tag == tag && b.sdep == sdep

/-- The entries of the on-chip pool of a gathering unit that are taken (R147, R260). -/
def Cluster.poolUsed (c : Cluster) : Nat :=
  (c.queues.map fun e => (e.2.slots.filter fun t => t.spill.isNone).length).sum +
  (c.bins.map fun e => (e.2.recs.filter fun r => r.chunk.isNone).length).sum

/-- The lowest number in a range that is not among some numbers. -/
def lowestFree (used : List Nat) (n : Nat) : Option Nat := (List.range n).find? fun i => !used.contains i

/-- One spawn bin of a cluster, changed. -/
def State.updBin (s : State) (k i : Nat) (g : SpawnBin → SpawnBin) : State :=
  let c := s.cluster k
  s.setCluster k { c with bins := c.bins.upd i g }

/-- The address of a spilled record of a region, by its chunk and its place there (R147). -/
def State.chunkVa (s : State) (rgn : Nat) (at_ : Nat × Nat) : Nat :=
  let base := match s.region? rgn with | some x => x.rcb.spwb.toNat | none => 0
  (base + 256 * at_.1 + 16 * at_.2) % 2 ^ 64

/-- Where a spilling bin's next record stands (R147): behind the last one in its chunk, or at the start of a free chunk of the
region's pool. No rule says which free chunk that is: the lowest (DESIGN CHOICE, assumption 65). -/
def State.spawnChunk (s : State) (rgn : Nat) (b : SpawnBin) : Option (State × (Nat × Nat)) :=
  match s.region? rgn, b.recs.getLast?.bind fun r => r.chunk with
  | none, _ => none
  | some x, last =>
    match last with
    | some (ch, i) =>
      if i < 15 then some (s, ch, i + 1) else newChunk x
    | none => newChunk x
where
  newChunk (x : Region) : Option (State × (Nat × Nat)) :=
    if x.rcb.spwb = 0 then none
    else
      (lowestFree x.spwUsed x.rcb.spwn).map fun ch =>
        (s.updRegion rgn fun x => { x with spwUsed := ch :: x.spwUsed }, ch, 0)

/-- A spilled record of bin i of a cluster is written to its place; where its page is not there the bin holds (R147, R424). -/
def State.putRec (s : State) (k i : Nat) (r : BinRec) : State :=
  match (s.cluster k).bins.find i, r.chunk with
  | some b, some at_ =>
    let (s1, left) := s.gathPut b.rgn k (s.chunkVa b.rgn at_) r.data b.faultHeld
    s1.updBin k i fun y => match left with
      | none => { y with faultHeld := false }
      | some posted => { y with faultHeld := posted, unwritten := true, hold := some (true, s.chunkVa b.rgn at_) }
  | _, _ => s

/-- The spill places of some records of a bin read by the gathering unit (R147, R424): the state after it, and whether all of them were.
At the first that cannot be the bin holds. -/
def State.binTry (s : State) (k i : Nat) (b : SpawnBin) (recs : List BinRec) : State × Bool :=
  match s.gathReads b.rgn k b.faultHeld (recs.filterMap fun r => r.chunk.map fun at_ => s.chunkVa b.rgn at_) with
  | (s1, some (va, posted)) => (s1.updBin k i fun y => { y with faultHeld := posted, hold := some (false, va) }, false)
  | (s1, none) => (if recs.all fun r => r.chunk.isNone then s1 else s1.updBin k i fun y => { y with faultHeld := false }, true)

/-- The access that a bin holds for is made again (R424): the state after it, and whether the bin holds no longer. -/
def State.binRetry (s : State) (k i : Nat) : State × Bool :=
  match (s.cluster k).bins.find i with
  | none => (s, false)
  | some b =>
    match b.hold with
    | none => (s, true)
    | some (wr, va) =>
      match s.gathTry b.rgn k wr va b.faultHeld with
      | (s1, none) => (s1.updBin k i fun y => { y with faultHeld := false, hold := none }, true)
      | (s1, some posted) => (s1.updBin k i fun y => { y with faultHeld := posted }, false)

/-- As many of the first spilled records of a list as there is room for, on chip. -/
def recsOnChip (room : Nat) : List BinRec → List BinRec
  | [] => []
  | r :: l =>
    if r.chunk.isNone then r :: recsOnChip room l
    else match room with
      | 0 => r :: l
      | n + 1 => { r with chunk := none } :: recsOnChip n l

/-- The chunks of a region's spawn spill pool that no record stands in are returned (R147). -/
def State.freeChunks (s : State) (rgn : Nat) : State :=
  let held := (s.clusters.map fun e => e.2.bins.flatMap fun f =>
    if f.2.rgn = rgn then f.2.recs.filterMap fun r => r.chunk.map Prod.fst else []).flatten
  s.updRegion rgn fun x => { x with spwUsed := x.spwUsed.filter fun i => held.contains i }

/-- Records of a bin in spill move back on chip while the pool has room, and chunks whose records have are returned
(R147); none does while the bin holds (R424). A bin that holds no record is closed. -/
def State.unspillBin (s : State) (k i : Nat) : State :=
  let c := s.cluster k
  match c.bins.find i with
  | none => s
  | some b =>
    if b.recs.isEmpty then (s.setCluster k { c with bins := c.bins.del i }).freeChunks b.rgn
    else
      let room := 4096 - c.poolUsed
      let first := (b.recs.filter fun r => r.chunk.isSome).take room
      if b.unwritten ∨ b.hold.isSome ∨ first = [] then s.freeChunks b.rgn
      else
        let (s1, ok) := s.binTry k i b first
        (if ok then s1.updBin k i fun y => { y with recs := recsOnChip room y.recs } else s1).freeChunks b.rgn

/-- The open bin of a key, with its place in the table of 64, or the bin that is opened for it. No rule says which free place
that takes: the lowest (DESIGN CHOICE, assumption 65). -/
def Cluster.binFor (c : Cluster) (rgn : Nat) (entry : DWord) (tag : Option (BitVec 5)) (sdep : Nat) : Option (Nat × SpawnBin) :=
  match c.bins.find? fun e => e.2.hasKey rgn entry tag sdep with
  | some e => some e
  | none => (lowestFree (c.bins.map Prod.fst) 64).map fun i =>
      (i, { rgn := rgn, entry := entry, tag := tag, sdep := sdep, recs := [], faultHeld := false, unwritten := false })

/-- A record appended to bin i of a cluster (R146, R147), or the subcode of fault 0x09 with which it is refused. A record that spills is
written to its place in memory. -/
def State.spawnPut (s : State) (k rgn i : Nat) (b : SpawnBin) (data : BitVec 128) : Except (BitVec 8) State :=
  let put (s : State) (r : BinRec) : State :=
    let c := s.cluster k
    s.setCluster k { c with bins := c.bins.ins i { b with recs := b.recs ++ [r] } }
  if (s.cluster k).poolUsed < 4096 ∧ (b.recs.all fun r => r.chunk.isNone) then .ok (put s ⟨data, s.clusterClk k, none⟩)
  else
    match s.spawnChunk rgn b with
    | none => .error 0
    | some (s1, at_) =>
      let r : BinRec := ⟨data, s.clusterClk k, some at_⟩
      .ok ((put s1 r).putRec k i r)

/-- A record appended to the spawn bin of a key in a cluster (R146), once the records of the bin that are in spill have moved back on chip
as far as the pool has room (R147); or the subcode of fault 0x09 with which it is refused. -/
def State.spawnAppend (s : State) (k rgn : Nat) (entry : DWord) (tag : Option (BitVec 5)) (sdep : Nat)
    (data : BitVec 128) : Except (BitVec 8) State :=
  match (s.cluster k).binFor rgn entry tag sdep with
  | none => .error 6
  | some (i, b) =>
    if b.recs.all fun r => r.chunk.isNone then s.spawnPut k rgn i b data
    else
      let s1 := s.unspillBin k i
      s1.spawnPut k rgn i (((s1.cluster k).bins.find i).getD b) data

/-- `spawn` of one lane (R146). -/
def State.spawnLane (s : State) (c : Ctx) (lane : Nat) (flt : Bool) : Lane :=
  let entry := c.spawnEntry lane
  let t := c.thread lane
  match targetBad entry with
  | some f => .fault s f
  | none =>
    if t.sdep = 8 then .fault s { code := 0x18, sub := 0, addr := some entry.toNat }
    else
      match s.releaseAt c.w lane .cls with
      | none => .stay s
      | some s1 =>
        let data := BitVec.ofNat 128 (c.a lane 4)
        match s1.spawnAppend (clusterOfWave c.w) c.x.rgn entry (s1.tagOf c.x.rgn) (t.sdep + 1) data with
        | .ok s2 => .ok s2 [1]
        | .error sub => if flt then .fault s1 { code := 9, sub := sub } else .ok s1 [0]

/-- `spawn` (R145, R146). -/
def execSpawn (f : Frame) (flt : Bool) (s : State) : Host.Outcome State Fault Refusal :=
  perLane (.spawn f flt) s fun c s1 l => s1.spawnLane c l flt

end Sys2Proof.Machine
end

