-- ==== Sys2Proof/Machine/Place.lean ====
section
/-! DEFINITION. What fits a core, and waves as they start (01_thread_state.md R13, R15, R23 to R26, 10_core_issue.md R177,
R178, 11_core_scratchpad_barriers.md R192 to R196, 21_regions_scheduling.md R350, R355, R356). -/

namespace Sys2Proof.Machine

open Sys2Proof

/-! ### What fits a core -/

/-- The allocation A of R13. -/
def Rcb.alloc (r : Rcb) : Nat := (r.regs + 31) / 32 * 32

/-- The waves of a workgroup. -/
def Rcb.waves (r : Rcb) : Nat := (r.wgsz + 31) / 32

/-- The footprint a placement asks of a core: waves, rows per wave, scratch bytes, TOB banks and accumulator tiles. -/
structure Foot where
  waves : Nat
  alloc : Nat
  scr : Nat
  tob : Nat
  acc : Nat
  deriving DecidableEq, Repr

/-- The footprint of a workgroup (R356). -/
def Rcb.foot (r : Rcb) : Foot := ⟨r.waves, r.alloc, r.scr, r.tob, r.acc⟩

/-- The footprint of a delivered wave (R148). -/
def Rcb.wave1 (r : Rcb) : Foot := ⟨1, r.alloc, r.scr, 0, 0⟩

/-- A wave's slot, first row and allocation. -/
structure Spot where
  slot : Nat
  row : Nat
  alloc : Nat
  deriving DecidableEq, Repr

/-- The spots taken on a core, the service wave's among them (R178). -/
def State.spots (s : State) (g : Nat) : List Spot :=
  (if g % 4 = 0 then [⟨0, 0, 64⟩] else []) ++
  s.waves.filterMap fun e =>
    if e.1 < callerKey ∧ e.1 / 128 = g then some ⟨e.1 % 128, e.2.row, e.2.alloc⟩ else none

/-- A free slot and rows of a quadrant (R177, R178). No rule says which: the lowest, and of the quadrants the lowest that has room (DESIGN
CHOICE, assumption 65). -/
def freeSpot (used : List Spot) (q a : Nat) : Option Spot :=
  let here := used.filter fun u => u.slot / 32 == q
  match (List.range 32).find? fun i => here.all fun u => u.slot != 32 * q + i with
  | none => none
  | some i =>
    ((List.range 256).find? fun r => decide (32 * r + a ≤ 8192) &&
      here.all fun u => decide (32 * r + a ≤ u.row) || decide (u.row + u.alloc ≤ 32 * r)).map fun r =>
        ⟨32 * q + i, 32 * r, a⟩

/-- Spots for so many waves of an allocation on the four quadrants. -/
def freeSpots (a : Nat) : Nat → List Spot → Option (List Spot)
  | 0, _ => some []
  | n + 1, used =>
    match [0, 1, 2, 3].findSome? fun q => freeSpot used q a with
    | none => none
    | some p => (freeSpots a n (p :: used)).map fun l => p :: l

/-- The lowest base at which a run of a length lies beside the runs taken, at most so many bases. -/
def freeRun (taken : List (Nat × Nat)) (len : Nat) (bases : List Nat) : Option Nat :=
  bases.find? fun b => taken.all fun t => decide (b + len ≤ t.1) || decide (t.1 + t.2 ≤ b)

/-- The workgroups resident on a core. -/
def State.wgsOn (s : State) (g : Nat) : List (Nat × Wg) := s.wgs.filter fun e => e.2.core == g && !e.2.saved

/-- The bank roles a placement takes on a core (R193): those its region wants where no resident window forbids it. -/
def State.roles (s : State) (g : Nat) (r : Rcb) (f : Foot) : Option (Nat × Nat) :=
  let c := s.core g
  let here := s.wgsOn g
  let scrn := if here.all fun e => e.2.scrSize == 0 then r.scrn else c.scrn
  let tobn := if here.all fun e => e.2.tobBanks == 0 then r.tobn else c.tobn
  if f.scr ≠ 0 ∧ scrn ≠ r.scrn then none
  else if scrn + tobn ≤ 32 then some (scrn, tobn)
  else if f.scr = 0 ∧ c.scrn + tobn ≤ 32 then some (c.scrn, tobn)
  else if f.tob = 0 ∧ scrn + c.tobn ≤ 32 then some (scrn, c.tobn)
  else none

/-- The resident rows, scratch bytes and accumulator tiles of a region and its descendants (R356). -/
def State.usage (s : State) (r : Nat) : Nat × Nat × Nat :=
  let ws := s.waves.filter fun e => decide (e.1 < callerKey) && s.under r e.2.rgn
  let gs := s.wgs.filter fun e => !e.2.saved && s.under r e.2.rgn
  ((ws.map fun e => e.2.alloc).sum, (gs.map fun e => e.2.scrSize).sum, (gs.map fun e => e.2.accN).sum)

/-- No budget of the region or an ancestor is exceeded (R356). -/
def State.budgetOk (s : State) (rgn : Nat) (f : Foot) : Bool :=
  (s.ancestors rgn).all fun r =>
    match s.region? r with
    | none => true
    | some x =>
      let (rows, scr, acc) := s.usage r
      !x.rcb.ownb || (x.rcb.regq == 0 || decide (rows + f.waves * f.alloc ≤ x.rcb.regq)) &&
      (x.rcb.scrq == 0 || decide (scr + f.scr ≤ 1024 * x.rcb.scrq)) &&
      (x.rcb.accq == 0 || decide (acc + f.acc ≤ x.rcb.accq))

/-- Where on a core a placement goes. -/
structure Plan where
  scrn : Nat
  tobn : Nat
  scrBase : Nat
  scrSize : Nat
  tobBank : Nat
  accBase : Nat
  spots : List Spot
  deriving DecidableEq, Repr

/-- The clusters a region's work may use include that of the core, and the core is available (R286, R405). -/
def State.mayUse (s : State) (rgn g : Nat) : Bool :=
  (s.core g).available && (s.clustersFor rgn (g / 96)).contains (g / 4 % 24)

/-- The plan of a placement that fits a core (R356). -/
def State.plan (s : State) (rgn g : Nat) (r : Rcb) (f : Foot) : Option Plan :=
  if !s.mayUse rgn g || !s.budgetOk rgn f then none
  else
    match s.roles g r f with
    | none => none
    | some (scrn, tobn) =>
      let here := s.wgsOn g
      let gran := 256 * scrn
      let size := if f.scr = 0 then 0 else (f.scr + gran - 1) / gran * gran
      let scr := if f.scr = 0 then some 0
        else if scrn = 0 then none
        else freeRun (here.map fun e => (e.2.scrBase, (e.2.scrSize + gran - 1) / gran * gran)) size
          ((List.range ((scrn * 131072 - size) / gran + 1)).map fun i => i * gran)
      let tob := if f.tob = 0 then some 0
        else if tobn < f.tob then none
        else freeRun (here.map fun e => (e.2.tobBank, e.2.tobBanks)) f.tob (List.range (tobn - f.tob + 1))
      let acc := if f.acc = 0 then some 0
        else if 128 < f.acc then none
        else freeRun (here.map fun e => (e.2.accBase, e.2.accN)) f.acc (List.range (128 - f.acc + 1))
      match scr, tob, acc, freeSpots f.alloc f.waves (s.spots g) with
      | some a, some b, some c, some l =>
        if scrn * 131072 < a + size then none else some ⟨scrn, tobn, a, f.scr, b, c, l⟩
      | _, _, _, _ => none

/-- The bank roles written (R193): where they change, the dirty sectors are written back and no copy stays. -/
def State.setRoles (s : State) (g scrn tobn : Nat) : State :=
  let c := s.core g
  if c.scrn = scrn ∧ c.tobn = tobn then s
  else
    let s1 := s.dropWhere g fun _ => true
    s1.setCore g { s1.core g with scrn := scrn, tobn := tobn }

/-! ### Home moves (R283, R284) -/

/-- The slice lies in the partition of a frame (R283, R287). -/
def State.sliceFits (s : State) (frame slice : Nat) : Bool := (s.sliceList (4096 * frame)).contains slice

/-- The frames that have an entry in the home table of a die, or will have one once the moves begun are done (R283). An entry that a
begun move will free is there until it is done. -/
def State.tableFrames (s : State) (die : Nat) : List Nat :=
  let now := (s.homes.filter fun e => e.2 / 64 == die).map Prod.fst
  now ++ (s.homeFwd.filter fun f => !f.moved && f.new / 64 == die && s.hashHome f.frame != f.new && !now.contains f.frame).map HomeFwd.frame

/-- A move of a frame's home may begin (R283): the frame is local, the slice is in its partition, the table of the
slice's die has room and so has the old home's forwarding table. A frame whose move is under way waits for its end. -/
def State.mayMove (s : State) (frame slice : Nat) : Bool :=
  let old := s.homeOf (4096 * frame)
  let used := ((s.tableFrames (slice / 64)).filter fun f => f != frame).length
  locOf (4096 * frame) == 0 && s.sliceFits frame slice && (s.hashHome frame == slice || decide (used < 4096)) &&
    decide ((s.homeFwd.filter fun f => f.old == old).length < 64)

/-- A home move is begun, or refused (R283); the state after it and whether it was begun. -/
def State.beginMove (s : State) (frame slice : Nat) : State × Bool :=
  if s.mayMove frame slice then
    ({ s with homeFwd := s.homeFwd ++ [⟨frame, s.homeOf (4096 * frame), slice, [], false⟩] }, true)
  else (s, false)

/-- The streamer asks for a home move; one that is refused leaves the home in place (R362). -/
def State.askHome (s : State) (frame slice : Nat) : State := (s.beginMove frame slice).1

/-! ### Ready queues (R355) -/

/-- The region is treated as deadline class (R355, R363). -/
def Region.urgent (x : Region) : Bool := x.rcb.dl || x.raised != 0

/-- The region is offered before another (R355): the deadline class first, then the higher priority, then the earlier
linking. -/
def Region.ahead (x y : Region) : Bool :=
  if x.urgent = y.urgent then
    if x.urgent ∨ x.rcb.pri = y.rcb.pri then decide (x.link < y.link) else decide (y.rcb.pri < x.rcb.pri)
  else x.urgent

/-- Some workgroup of the region waits to be placed: one that is saved, or one of the grid. -/
def State.unplaced (s : State) (r : Nat) (x : Region) : Bool :=
  decide (x.st = .ready ∨ x.st = .running) &&
    (decide (x.nextWg < x.rcb.nwg) || s.wgs.any fun e => e.2.saved && e.2.rgn == r)

/-- A region placed in a list kept in the order of offering. -/
def insertRegion (e : Nat × Region) : List (Nat × Region) → List (Nat × Region)
  | [] => [e]
  | f :: l => if e.2.ahead f.2 then e :: f :: l else f :: insertRegion e l

/-- The ready queues of a die, in the order of offering (R355). -/
def State.linked (s : State) (die : Nat) : List Nat :=
  ((s.regions.filter fun e => s.unplaced e.1 e.2 && !(s.clustersFor e.1 die).isEmpty).foldl
    (fun l e => insertRegion e l) []).map Prod.fst

/-- A die places nothing of a region that is offered after the one it holds for (R355). -/
def State.heldBack (s : State) (die r : Nat) : Bool :=
  match (s.die die).hold with
  | none => false
  | some h =>
    if h = r then false
    else
      match s.region? h, s.region? r with
      | some x, some y => s.unplaced h x && x.ahead y
      | _, _ => false

/-- A workgroup of the region is placed: the passed-over counts of both dies start afresh (R355), and room that was made for one is
taken (R371). -/
def State.placedFor (s : State) (r : Nat) : State :=
  let free (d : Die) : Die := if d.hold = some r then { d with hold := none } else d
  ({ s with dies := s.dies.map free } : State).updRegion r fun x => { x with passed := [none, none], due := x.due - 1 }

/-! ### Waves as they start -/

/-- A thread at its placement (R15, R22, R23), at linear index `lin` of R24. -/
def Thread.start (r : Rcb) (tag : Option (BitVec 5)) (pc : DWord) (lin sdep : Nat) (v : NMap Word) (elem : Option Elem) :
    Thread :=
  let base := r.spillb + BitVec.ofNat 64 (lin * r.spstr)
  { Thread.empty with
    st := .placed, pc := pc, v := v, spillb := base, spilll := base + BitVec.ofNat 64 r.spstr, spillp := base, sdep := sdep
    fac := (facetOf tag).isSome, elem := elem }

/-- The argument words as uniform registers (R350). -/
def Rcb.args (r : Rcb) : NMap Word :=
  putWords [] 0 (wordsOf 2 r.arg0.toNat ++ wordsOf 2 r.arg1.toNat)

/-- A wave at its placement (R15, R17, R133). -/
def Wave.start (rgn wg wave : Nat) (kind : WKind) (entry : Option Nat) (p : Spot) (threads : List Thread) (args : NMap Word)
    (clk : Nat) : Wave :=
  ({ rgn := rgn, wg := wg, wave := wave, kind := kind, entry := entry, alloc := p.alloc, row := p.row, threads := threads
     s := args, k := [], turn := none, fair := 0, fairt := 0x800, limit := 0x800, retain := [none, none, none], joins := []
     syncs := [], arrs := [], feedp := [0, 0, 0, 0], dqPos := 0, tile := none, src := 0
     charged := clk, fetched := none } : Wave).fixTurn

/-- A core is noted among those that have held a wave of the region, and of the sweep or descriptor that made it. -/
def State.noteCore (s : State) (g : Nat) (x : Wave) : State :=
  let put (l : List Nat) : List Nat := if l.contains g then l else g :: l
  let swp (y : Sweep) : Sweep := if x.kind = .step ∧ y.id = x.src then { y with cores := put y.cores } else y
  let bin (b : BinDesc) : BinDesc := if x.kind = .tile ∧ b.id = x.src then { b with cores := put b.cores } else b
  let die (d : Die) : Die := { d with engines := d.engines.map fun e => (e.1, swp e.2), bins := d.bins.map bin }
  { s.updRegion x.rgn fun r => { r with cores := put r.cores } with dies := s.dies.map die }

/-- A new wave becomes resident in its slot (R188). Its first instruction is an acquire (R148, R320, R354, R357): what
earlier releases have left is performed, and what it would find stale in the core is dropped, here. -/
def State.seat (s : State) (g : Nat) (slot : Nat) (x : Wave) : State :=
  let w := 128 * g + slot
  let s1 := (s.force (.thread w 0) .dev).getD s
  ({ ((s1.dropClean g).noteCore g x).setWave w x with ended := s1.ended.del w } : State).wakeCore (some g) .place

/-- A workgroup that takes its place on core g: the windows of those that have ended there and that it overlaps are gone, but
those that engine work still uses (R25). -/
def State.takePlace (s : State) (g : Nat) (y : Wg) : State :=
  let meet (a n b m : Nat) : Bool := decide (a < b + m) && decide (b < a + n)
  let keep (e : Nat × Wg) : Bool :=
    e.2.core != g || (s.copies.any fun o => o.wg == e.1 || o.src == e.1) ||
    !(meet e.2.scrBase e.2.scrSize y.scrBase y.scrSize || meet e.2.tobBank e.2.tobBanks y.tobBank y.tobBanks ||
      meet e.2.accBase e.2.accN y.accBase y.accN)
  { s with nextId := s.nextId + 1, wgs := s.wgs.ins s.nextId y, endedWgs := s.endedWgs.filter keep }

/-- A workgroup with the windows of its plan. -/
def Plan.wg (p : Plan) (rgn : Nat) (index : Word) (g : Nat) (kind : WKind) (entry : Option Nat) (tag : Option (BitVec 5))
    (f : Foot) (group : Option Nat) (member : Nat) : Wg :=
  { rgn := rgn, index := index, core := g, nwaves := f.waves, kind := kind, entry := entry, tag := tag, scrBase := p.scrBase
    scrSize := p.scrSize, scr := [], tobBank := p.tobBank, tobBanks := f.tob, tob := [], accBase := p.accBase, accN := f.acc
    tiles := [], dq := [], dqHead := 0, group := group, member := member, saved := false, saving := false }

/-- W32 of R24. -/
def Rcb.w32 (r : Rcb) : Nat := 32 * r.waves

/-- NCG of R24. -/
def Rcb.ncg (r : Rcb) : Nat := if r.cgs = 0 then 0 else r.nwg / r.cgs

/-- A workgroup of the grid placed by its plan (R356): its waves start at ENTRY. -/
def State.seatWg (s : State) (rgn : Nat) (x : Region) (index g : Nat) (p : Plan) (group : Option Nat) (member : Nat) : State :=
  let wid := s.nextId
  let r := x.rcb
  let s2 := (s.setRoles g p.scrn p.tobn).takePlace g (p.wg rgn (BitVec.ofNat 32 index) g .launch none x.tag r.foot group member)
  let lane (i l : Nat) : Thread :=
    let tid := 32 * i + l
    if tid < r.wgsz then .start r x.tag r.entry (index * r.w32 + tid) 0 [] none else .empty
  (p.spots.zipIdx).foldl (fun s e =>
    s.seat g e.1.slot (.start rgn wid e.2 .launch none e.1 ((List.range 32).map (lane e.2)) r.args
      (s.clkOf g))) s2

/-- A delivered wave placed by its plan: a workgroup of one, with a record in v0 to v3 of each lane (R148). The count of
delivered waves in its `$wg` is 0 for the region's first; no rule says with what it begins (DESIGN CHOICE, assumption 65). -/
def State.seatDelivered (s : State) (d : Delivery) (x : Region) (g entry : Nat) (p : Plan) : State :=
  let wid := s.nextId
  let r := x.rcb
  let index := BitVec.ofNat 32 (2 ^ 31 + x.dcount % 2 ^ 31)
  let s2 := (s.setRoles g p.scrn p.tobn).takePlace g (p.wg d.rgn index g d.kind (some entry) x.tag r.wave1 none 0)
  let lane (l : Nat) : Thread :=
    match d.recs.find l with
    | some data =>
      .start r x.tag d.entry (r.nwg * r.w32 + r.ncg + 32 * entry + l) d.sdep (putWords [] 0 (wordsOf 4 data.toNat))
        (d.elems.find l)
    | none => .empty
  let s3 := s2.updRegion d.rgn fun y => { y with dcount := y.dcount + 1, pool := entry :: y.pool }
  p.spots.foldl (fun s e =>
    s.seat g e.slot { Wave.start d.rgn wid 0 d.kind (some entry) e ((List.range 32).map lane) r.args (s.clkOf g) with
      tile := d.tile, src := d.src }) s3

/-- A Caller stream starts, after the members of its group (R223, R350). -/
def State.seatCaller (s : State) (rgn : Nat) (x : Region) (cluster q wg h : Nat) : State :=
  let r := x.rcb
  let regs := putWords [] 0 (wordsOf 2 r.arg0.toNat ++ wordsOf 2 r.arg1.toNat)
  let t := Thread.start r x.tag r.centry (r.nwg * r.w32 + h) 0 regs none
  let y := Wave.start rgn wg 0 .caller none ⟨0, 0, 64⟩ [t] [] (s.clkOf (4 * cluster))
  let s1 := [0, 1, 2, 3].foldl (fun s m => s.setCore (4 * cluster + m) { s.core (4 * cluster + m) with engine := .fresh }) s
  { s1 with
    ended := s1.ended.del (callerKey + cluster)
    waves := s1.waves.ins (callerKey + cluster) y
    groups := s1.groups.upd q fun g => { g with caller := true, started := true } }

/-- A core holds the interlock state of 8 tile waves at most (R380). -/
def State.tileFits (s : State) (kind : WKind) (g : Nat) : Bool :=
  decide (kind ≠ .tile) || decide ((s.waves.filter fun e =>
    decide (e.1 < callerKey) && e.1 / 128 == g && decide (e.2.kind = .tile)).length < 8)

/-- The cores of a cluster. -/
def coresOf (cluster : Nat) : List Nat := [4 * cluster, 4 * cluster + 1, 4 * cluster + 2, 4 * cluster + 3]

/-- A core of a list where a delivered wave of a region fits, with its plan. -/
def State.fitsSome (s : State) (rgn : Nat) (r : Rcb) (cores : List Nat) : Option (Nat × Plan) :=
  cores.findSome? fun g => (s.plan rgn g r r.wave1).map fun p => (g, p)

end Sys2Proof.Machine
end

