-- ==== Sys2Proof/Machine/Gather.lean ====
section
/-! DEFINITION. Gathering queues and spawn bins: production, configuration, firing and delivery
(14_cluster_atomics_gathering.md R257 to R267, R424, 07_control_divergence.md R146 to R148). -/

namespace Sys2Proof.Machine

open Sys2Proof

/-! ### Queues by identifier -/

/-- The cluster and number of a queue identifier; none where it is ill-formed (R257). -/
def queueOf (id : Nat) : Option (Nat × Nat) :=
  if id / 2 ^ 15 ≠ 0 ∨ 24 ≤ field id 13 9 then none else some (24 * field id 14 14 + field id 13 9, field id 8 0)

/-- The identifier of a queue. -/
def queueId (k n : Nat) : Nat := 2 ^ 14 * (k / 24) + 2 ^ 9 * (k % 24) + n

/-- A queue of a cluster. -/
def State.queue (s : State) (k n : Nat) : GQueue := ((s.cluster k).queues.find n).getD .fresh

/-- A queue replaced. -/
def State.setQueue (s : State) (k n : Nat) (q : GQueue) : State :=
  let c := s.cluster k
  s.setCluster k { c with queues := c.queues.ins n q }

/-- Fault 0x05, subcode 0x0B, of a queue identifier (R257). -/
def queueFault (id : Nat) : Flt := { code := 5, sub := 0x0B, det0 := id }

/-- The check of a production: the identifier, the tenant (R257) and, of a facet agent, the region that configured the queue: its facet's,
or another that is bound to the same facet (R323, R349; DEDUCED, assumption 76). -/
def State.queueFor (s : State) (rgn id : Nat) : Except Flt (Nat × Nat) :=
  match queueOf id with
  | none => .error (queueFault id)
  | some (k, n) =>
    match (s.queue k n).cfgRgn with
    | none => if (facetOf (s.liveTag rgn)).isSome then .error { code := 0x0E, sub := 5, det0 := id } else .ok (k, n)
    | some r =>
      if s.rootOf r ≠ s.rootOf rgn then .error (queueFault id)
      else if (facetOf (s.liveTag rgn)).isSome && s.liveTag r != s.liveTag rgn then .error { code := 0x0E, sub := 5, det0 := id }
      else .ok (k, n)

/-- The check of a `gq.cfg`: the identifier and the region's grant (R257). -/
def State.queueCfg (s : State) (rgn id : Nat) : Except Flt (Nat × Nat) :=
  match queueOf id, s.region? rgn with
  | some (k, n), some x =>
    if x.rcb.qlo ≤ n ∧ n < x.rcb.qlo + x.rcb.qn then .ok (k, n) else .error (queueFault id)
  | _, _ => .error (queueFault id)

/-! ### Slots (R259, R260) -/

/-- The published prefix of a queue (R259). -/
def GQueue.pre (q : GQueue) : List GSlot := q.slots.takeWhile fun t => t.data.isSome

/-- The ticket after one (R259). -/
def nextTicket (t : Nat) : Nat := if 0xFFFFFFFE ≤ t then 0 else t + 1

/-- The next place in the spill ring; none while the oldest entry there stands in it. -/
def GQueue.spillNext (q : GQueue) : Option Nat :=
  if q.sbase = 0 ∨ q.ssize = 0 ∨ (q.slots.any fun t => t.spill == some q.sOff) then none else some q.sOff

/-- The address of a place in a queue's spill ring. -/
def GQueue.spillVa (q : GQueue) (pos : Nat) : Nat := (q.sbase + 16 * pos) % 2 ^ 64

/-- Spill places of a queue read by the gathering unit (R424): the state after it, and whether all of them were. At the first that cannot
be the queue holds. -/
def State.queueTry (s : State) (k n rgn : Nat) (vas : List Nat) : State × Bool :=
  match s.gathReads rgn k (s.queue k n).faultHeld vas with
  | (s1, some (va, posted)) => (s1.setQueue k n { s1.queue k n with faultHeld := posted, hold := some (false, va) }, false)
  | (s1, none) => (if vas.isEmpty then s1 else s1.setQueue k n { s1.queue k n with faultHeld := false }, true)

/-- The access that a queue holds for is made again (R424): the state after it, and whether the queue holds no longer. -/
def State.queueRetry (s : State) (k n : Nat) : State × Bool :=
  let q := s.queue k n
  match q.cfgRgn, q.hold with
  | none, _ => (s, false)
  | some _, none => (s, true)
  | some rgn, some (wr, va) =>
    match s.gathTry rgn k wr va q.faultHeld with
    | (s1, none) => (s1.setQueue k n { s1.queue k n with faultHeld := false, hold := none }, true)
    | (s1, some posted) => (s1.setQueue k n { s1.queue k n with faultHeld := posted }, false)

/-- As many of the first spilled entries of a list as there is room for, on chip. -/
def backOnChip (room : Nat) : List GSlot → List GSlot
  | [] => []
  | t :: l =>
    if t.spill.isNone then t :: backOnChip room l
    else match room with
      | 0 => t :: l
      | r + 1 => { t with spill := none } :: backOnChip r l

/-- Entries of a queue in spill move back on chip while the pool has room (R260), in order; none does while the queue holds (R424). -/
def State.unspillQueue (s : State) (k n : Nat) : State :=
  let q := s.queue k n
  let room := 4096 - (s.cluster k).poolUsed
  let first := (q.slots.filterMap fun t => t.spill).take room
  match q.cfgRgn with
  | none => s
  | some rgn =>
    if q.unwritten ∨ q.hold.isSome ∨ first = [] then s
    else
      let (s1, ok) := s.queueTry k n rgn (first.map q.spillVa)
      let q1 := s1.queue k n
      if ok then s1.setQueue k n { q1 with slots := backOnChip room q1.slots } else s1

/-- Where a new entry of a queue stands (R260), once the spilled entries for which the pool has room have moved back: on chip,
in the spill ring, or nowhere where both are full. An entry that the ring has no room for, while a fault keeps the spilled ones
from moving back, takes its place on chip; the order is that of the tickets. -/
def State.roomFor (s : State) (k n : Nat) : Option (Option Nat) :=
  let q := s.queue k n
  let pool := decide ((s.cluster k).poolUsed < 4096)
  if pool && (q.slots.all fun t => t.spill.isNone) then some none
  else
    match q.spillNext with
    | some pos => some (some pos)
    | none => if pool then some none else none

/-- A published entry of a queue written to its place in the spill ring; where its page is not there the queue holds
(R258, R424). -/
def State.spillPut (s : State) (k n : Nat) (pos : Nat) (data : BitVec 128) : State :=
  let q := s.queue k n
  match q.cfgRgn with
  | none => s
  | some rgn =>
    let (s1, left) := s.gathPut rgn k (q.spillVa pos) data q.faultHeld
    let q1 := s1.queue k n
    s1.setQueue k n (match left with
      | none => { q1 with faultHeld := false }
      | some posted => { q1 with faultHeld := posted, unwritten := true, hold := some (true, q.spillVa pos) })

/-- The spilled entries that a queue has published are written again, where some are still to be (R424): the state after it, and
whether all of them stand in memory. -/
def State.rewriteQueue (s : State) (k n : Nat) : State × Bool :=
  let q := s.queue k n
  if !q.unwritten then (s, true)
  else
    let put (s : State) (t : GSlot) : State :=
      match t.spill, t.data with
      | some pos, some d => if (s.queue k n).unwritten then s else s.spillPut k n pos d
      | _, _ => s
    let s1 := q.slots.foldl put (s.setQueue k n { q with unwritten := false })
    (s1, !(s1.queue k n).unwritten)

/-- A slot appended at the next ticket, reserved or published (R259), and the state after it. -/
def State.addSlot (s : State) (k n rgn : Nat) (tag : Option (BitVec 5)) (data : Option (BitVec 128)) (spill : Option Nat) :
    State :=
  let q := s.queue k n
  let t : GSlot := { ticket := q.ticket, data := data, clk := s.clusterClk k, rgn := rgn, tag := tag, spill := spill }
  let s1 := s.setQueue k n { q with
    ticket := nextTicket q.ticket, slots := q.slots ++ [t]
    sOff := if spill.isSome then (q.sOff + 1) % (max 1 q.ssize) else q.sOff }
  match spill, data with
  | some pos, some d => s1.spillPut k n pos d
  | _, _ => s1

/-! ### Producers (R266) -/

/-- `gq.enq` and `gq.resv` of one lane. -/
def State.produceLane (s : State) (c : Ctx) (lane : Nat) (flt enq : Bool) : Lane :=
  let id := c.a lane
  match s.queueFor c.x.rgn id with
  | .error f => .fault s f
  | .ok (k, n) =>
    match if enq then s.releaseAt c.w lane .dev else some s with
    | none => .stay s
    | some s1 =>
      let on := (s1.queue k n).enabled
      let s2 := if on then s1.unspillQueue k n else s1
      match if on then s2.roomFor k n else none with
      | none =>
        if flt then .fault s2 { code := 9, sub := if on then 0 else 1, det0 := id }
        else .pend s2 (c.calc lane lane [if enq then 0 else 0xFFFFFFFF])
      | some spill =>
        let q := s2.queue k n
        let data := if enq then some (BitVec.ofNat 128 (c.b lane 4)) else none
        .pend (s2.addSlot k n c.x.rgn (s2.liveTag c.x.rgn) data spill)
          (c.calc lane lane [if enq then 1 else BitVec.ofNat 32 q.ticket])

/-- `gq.enq` (R266). -/
def execGqEnq (f : Frame) (flt : Bool) (s : State) : Host.Outcome State Fault Refusal :=
  perLane (.gqEnq f flt) s fun c s1 l => s1.produceLane c l flt true

/-- `gq.resv` (R266). -/
def execGqResv (f : Frame) (flt : Bool) (s : State) : Host.Outcome State Fault Refusal :=
  perLane (.gqResv f flt) s fun c s1 l => s1.produceLane c l flt false

/-- `gq.pub` of one lane: a slot the region has reserved becomes published; a voided or unknown ticket has no effect. -/
def State.publishLane (s : State) (c : Ctx) (lane : Nat) : Lane :=
  match s.queueFor c.x.rgn (c.a lane) with
  | .error f => .fault s f
  | .ok (k, n) =>
    match s.releaseAt c.w lane .dev with
    | none => .stay s
    | some s1 =>
      let q := s1.queue k n
      let ticket := c.b lane
      let mine (t : GSlot) : Bool := t.ticket == ticket && t.data.isNone && t.rgn == c.x.rgn
      match q.slots.find? mine with
      | none => .ok s1 []
      | some t =>
        let data := BitVec.ofNat 128 (c.d lane 4)
        let put (u : GSlot) : GSlot := if mine u then { u with data := some data, clk := s1.clusterClk k } else u
        let s2 := s1.setQueue k n { q with slots := q.slots.map put }
        .ok (match t.spill with | some pos => s2.spillPut k n pos data | none => s2) []

/-- `gq.pub` (R266). -/
def execGqPub (f : Frame) (s : State) : Host.Outcome State Fault Refusal :=
  perLane (.gqPub f) s fun c s1 l => s1.publishLane c l

/-! ### Configuration (R258, R267) -/

/-- A queue descriptor is ill-formed (R258). -/
def queueDescBad (d : BitVec 512) : Bool :=
  let dbase := dfield d 511 448
  let sbase := dfield d 447 384
  let ssize := dfield d 383 352
  let dsize := dfield d 351 320
  let entry := dfield d 319 256
  let fill := dfield d 239 232
  let bmax := dfield d 231 224
  let cons := dfield d 209 208
  dfield d 223 219 != 0 || dfield d 215 210 != 0 || dfield d 207 0 != 0 || cons == 0 || cons == 3 ||
  dbase % 256 != 0 || sbase % 256 != 0 || ssize % 16 != 0 || (sbase == 0) != (ssize == 0) || entry % 4 != 0 ||
  bmax == 0 || fill == 0 || decide (bmax < fill) ||
  (if cons = 1 then decide (32 < bmax) || dbase != 0 || dsize != 0 || entry == 0
   else decide (128 < bmax) || dbase == 0 || entry != 0 || decide (dsize < bmax) || decide (16777216 < dsize))

/-- Every frame of a range of entries lies on a page of class H. -/
def State.rangeHome (s : State) (rgn base entries : Nat) : Bool :=
  (List.range ((16 * entries + 4095) / 4096 + 1)).all fun i =>
    let va := if i = (16 * entries + 4095) / 4096 then base + 16 * entries - 1 else base + 4096 * i
    decide (base + 16 * entries ≤ va) ||
      (match s.place (s.fnOf rgn) (s.asrOf rgn) (va % 2 ^ 64) with | some (_, l) => decide (l.cls = .h) | none => false)

/-- The queue a descriptor configures: its counters and rings start afresh (R267). -/
def queueOfDesc (d : BitVec 512) (rgn : Nat) : GQueue :=
  { GQueue.fresh with
    enabled := true, cons := dfield d 209 208, dbase := dfield d 511 448, sbase := dfield d 447 384
    ssize := dfield d 383 352, dsize := dfield d 351 320, entry := BitVec.ofNat 64 (dfield d 319 256)
    age := dfield d 255 240, fill := dfield d 239 232, bmax := dfield d 231 224, pri := dfield d 218 216
    cfgRgn := some rgn }

/-- `gq.cfg` of one lane (R267). -/
def State.configLane (s : State) (c : Ctx) (lane : Nat) : Lane :=
  match s.queueCfg c.x.rgn (c.a lane) with
  | .error f => .fault s f
  | .ok (k, n) =>
    let q := s.queue k n
    if q.enabled ∨ q.slots ≠ [] then .fault s { code := 9, sub := 3, det0 := c.a lane }
    else
      match s.readDesc c lane (addrSum (c.b lane 2) 0 1 c.offX 64) 64 with
      | .stop r => r
      | .ok s1 d =>
        if queueDescBad d then .fault s1 { code := 9, sub := 2, det0 := c.a lane }
        else
          let bad (base n : Nat) : Bool := decide (base ≠ 0) && !s1.rangeHome c.x.rgn base n
          if bad (dfield d 511 448) (dfield d 351 320) then
            .fault s1 { code := 5, sub := 9, addr := some (dfield d 511 448), wr := true }
          else if bad (dfield d 447 384) (dfield d 383 352) then
            .fault s1 { code := 5, sub := 9, addr := some (dfield d 447 384), wr := true }
          else .ok (s1.setQueue k n (queueOfDesc d c.x.rgn)) []

/-- `gq.cfg` configure (R267). -/
def execGqCfgConfigure (f : Frame) (s : State) : Host.Outcome State Fault Refusal :=
  perLane (.gqCfgConfigure f) s fun c s1 l => s1.configLane c l

/-- Fault 0x10 of a voided reservation, to the region that made it (R259). -/
def State.voidRecord (s : State) (k n : Nat) (t : GSlot) : State :=
  s.engRecord (s.gathererOf t.rgn k) { code := 0x10, sub := 0, det0 := queueId k n, det1 := t.ticket }

/-- `gq.cfg.off` of one lane: every reservation is voided and production stops (R267). -/
def State.disableLane (s : State) (c : Ctx) (lane : Nat) : Lane :=
  match s.queueCfg c.x.rgn (c.a lane) with
  | .error f => .fault s f
  | .ok (k, n) =>
    let q := s.queue k n
    let s1 := s.setQueue k n ({ q with enabled := false, slots := q.slots.filter fun t => t.data.isSome }).rest
    .ok ((q.slots.filter fun t => t.data.isNone).foldl (fun s t => s.voidRecord k n t) s1) []

/-- `gq.cfg.off` (R267). -/
def execGqCfgDisable (f : Frame) (s : State) : Host.Outcome State Fault Refusal :=
  perLane (.gqCfgDisable f) s fun c s1 l => s1.disableLane c l

/-- The oldest entries of the delivery area freed: each batch holds its entries and the entries a skip before it left
unused, which are free once all before them is. -/
def freeEntries (n : Nat) : List (Nat × Nat) → List (Nat × Nat)
  | [] => []
  | (e, _) :: l => if n = 0 then (e, 0) :: l else if e ≤ n then freeEntries (n - e) l else (e - n, 0) :: l

/-- `gq.cfg.ack` of one lane (R267). -/
def State.ackLane (s : State) (c : Ctx) (lane : Nat) : Lane :=
  match s.queueCfg c.x.rgn (c.a lane) with
  | .error f => .fault s f
  | .ok (k, n) =>
    let q := s.queue k n
    let b := c.b lane
    if (q.unfreed.map Prod.fst).sum < b then .fault s { code := 9, sub := 4, det0 := c.a lane }
    else .ok (s.setQueue k n { q with unfreed := freeEntries b q.unfreed }) []

/-- `gq.cfg.ack` (R267). -/
def execGqCfgRelease (f : Frame) (s : State) : Host.Outcome State Fault Refusal :=
  perLane (.gqCfgRelease f) s fun c s1 l => s1.ackLane c l

/-- The state word of a queue (R267). -/
def GQueue.word (q : GQueue) : Word :=
  let pub := (q.slots.filter fun t => t.data.isSome).length
  let res := (q.slots.filter fun t => t.data.isNone).length
  BitVec.ofNat 32 (min 65535 pub + 2 ^ 16 * min 32767 res + 2 ^ 31 * b2n q.enabled)

/-- `gq.cfg.q` of one lane (R267). -/
def State.queryLane (s : State) (c : Ctx) (lane : Nat) : Lane :=
  match s.queueCfg c.x.rgn (c.a lane) with
  | .error f => .fault s f
  | .ok (k, n) => .ok s [(s.queue k n).word]

/-- `gq.cfg.q` (R267). -/
def execGqCfgQuery (f : Frame) (s : State) : Host.Outcome State Fault Refusal :=
  perLane (.gqCfgQuery f) s fun c s1 l => s1.queryLane c l

/-! ### Firing (R261 to R263) -/

/-- A firable queue or bin: its effective priority, its head age, whether it is a bin, and its number. -/
structure Fire where
  pri : Nat
  age : Nat
  bin : Bool
  num : Nat
  deriving DecidableEq, Repr

/-- The order of choice of R261 and R147. -/
def Fire.first (x y : Fire) : Bool :=
  decide (y.pri < x.pri) || (x.pri == y.pri && (decide (y.age < x.age) ||
    (x.age == y.age && ((!x.bin && y.bin) || (x.bin == y.bin && decide (x.num ≤ y.num))))))

/-- The effective priority of R261. -/
def effPri (pri age head : Nat) : Nat := if age ≠ 0 ∧ 4 * age < head then 7 else pri

/-- The firable queue, if it is one (R261, R267). -/
def GQueue.fire (q : GQueue) (clk n : Nat) : Option Fire :=
  match q.pre with
  | [] => none
  | t :: _ =>
    let head := clk - t.clk
    if q.cons ≠ 0 ∧ (!q.enabled ∨ q.fill ≤ q.pre.length ∨ (q.age ≠ 0 ∧ q.age ≤ head)) then
      some ⟨effPri q.pri q.age head, head, false, n⟩
    else none

/-- The firable bin, if it is one (R146). -/
def SpawnBin.fire (b : SpawnBin) (pri bint clk n : Nat) : Option Fire :=
  match b.recs with
  | [] => none
  | r :: _ =>
    let head := clk - r.clk
    if 32 ≤ b.recs.length ∨ (bint ≠ 0 ∧ bint ≤ head) then some ⟨effPri pri bint head, head, true, n⟩ else none

/-- An element placed in a list kept in the order of choice. -/
def insertFire (x : Fire) : List Fire → List Fire
  | [] => [x]
  | y :: l => if x.first y then x :: y :: l else y :: insertFire x l

/-- The firable queues and bins of a cluster in the order of choice. -/
def State.firable (s : State) (k : Nat) : List Fire :=
  let c := s.cluster k
  let qs := c.queues.filterMap fun e => e.2.fire (s.clusterClk k) e.1
  let bs := c.bins.filterMap fun e => match s.region? e.2.rgn with
    | some x => e.2.fire x.rcb.pri x.rcb.bint (s.clusterClk k) e.1
    | none => none
  (qs ++ bs).foldl (fun l x => insertFire x l) []

/-- The spilled records of a bin are written again, where some are still to be (R424): the state after it, and whether all of
them stand in memory. -/
def State.rewriteBin (s : State) (k i : Nat) : State × Bool :=
  match (s.cluster k).bins.find i with
  | none => (s, false)
  | some b =>
    if !b.unwritten then (s, true)
    else
      let left (s : State) : Bool := match (s.cluster k).bins.find i with | some y => y.unwritten | none => true
      let s1 := b.recs.foldl (fun s r => if left s then s else s.putRec k i r) (s.updBin k i fun y => { y with unwritten := false })
      (s1, !left s1)

/-- The region may be given waves: it is running or ready, and its pool has a free entry (R24, R148). -/
def State.mayDeliver (s : State) (rgn : Nat) : Bool :=
  match s.region? rgn with
  | some x => decide (x.st = .running ∨ x.st = .ready) && (lowestFree x.pool x.rcb.dpool).isSome
  | none => false

/-- A free entry of a region's pool is left beside those that its waiting deliveries will take (R148). -/
def State.poolRoom (s : State) (rgn : Nat) : Bool :=
  match s.region? rgn with
  | some x => decide (x.pool.length + (s.deliveries.filter fun d => d.rgn == rgn).length < x.rcb.dpool)
  | none => false

/-- A core of the cluster has room for a delivered wave of a region. -/
def State.roomIn (s : State) (k rgn : Nat) : Bool :=
  s.mayDeliver rgn && (match s.region? rgn with
    | some x => (s.fitsSome rgn x.rcb (coresOf k)).isSome
    | none => false)

/-- The wave of a firing has a core of the cluster and an entry of its region's pool to itself (R148, R262): a wave of an earlier
firing that still waits, and for which there is room, comes first. -/
def State.mayFire (s : State) (k rgn : Nat) : Bool :=
  s.roomIn k rgn && s.poolRoom rgn && !s.deliveries.any fun d => decide (d.cluster = some k) && s.roomIn k d.rgn

/-- The delivery of a batch of records as one wave. -/
def deliveryOf (id rgn k : Nat) (kind : WKind) (entry : DWord) (tag : Option (BitVec 5)) (sdep src : Nat)
    (recs : List (BitVec 128 × Nat)) : Delivery :=
  { id := id, rgn := rgn, kind := kind, die := k / 24, cluster := some k, entry := entry, tag := tag, sdep := sdep
    recs := recs.zipIdx.map fun e => (e.2, e.1.1), prods := recs.zipIdx.map fun e => (e.2, e.1.2), elems := [], tile := none
    src := src }

/-- A firing of a queue to a bin (R262): the state after it, and whether it was done. -/
def State.fireBin (s : State) (k n : Nat) (q : GQueue) (rgn : Nat) (batch : List GSlot) : State × Bool :=
  if !s.mayFire k rgn then (s, false)
  else
    let recs := batch.filterMap fun t => t.data.map fun d => (d, t.rgn)
    let d := deliveryOf s.nextId rgn k .gather q.entry (s.tagOf rgn) 0 n recs
    ({ s with nextId := s.nextId + 1, deliveries := s.deliveries ++ [d] }, true)

/-- Where the delivery ring takes a batch of a length (R263): the offset of its first entry and the entries that a skip to the
ring's start leaves unused; none where the ring lacks room. An empty ring has no entry for a skip to leave. -/
def GQueue.ringRoom (q : GQueue) (len : Nat) : Option (Nat × Nat) :=
  let used := (q.unfreed.map fun e => e.1 + e.2).sum
  let past := decide (q.dsize < q.wOff + len)
  let skip := if past && decide (q.unfreed ≠ []) then q.dsize - q.wOff else 0
  if q.dsize < used + skip + len then none else some (if past then 0 else q.wOff, skip)

/-- A batch written to the delivery ring from an offset on (R263): the state after it, and whether all of it was. -/
def State.putBatch (s : State) (k n rgn : Nat) (q : GQueue) (off : Nat) : List GSlot → State × Bool
  | [] => (s, true)
  | t :: l =>
    let va := (q.dbase + 16 * off) % 2 ^ 64
    let (s1, left) := s.gathPut rgn k va (t.data.getD 0) (s.queue k n).faultHeld
    match left with
    | none => s1.putBatch k n rgn q (off + 1) l
    | some posted => (s1.setQueue k n { s1.queue k n with faultHeld := posted, hold := some (true, va) }, false)

/-- CALLER_BATCH_DELIVERY (R263): the batch is written to the delivery ring and its descriptor joins the take queue; the state
after it, and whether it was done: not where the ring or the take queue lacks room, or a page is not there (R424). -/
def State.fireCaller (s : State) (k n : Nat) (q : GQueue) (rgn : Nat) (batch : List GSlot) : State × Bool :=
  match if 64 ≤ (s.cluster k).take.length then none else q.ringRoom batch.length with
  | none => (s, false)
  | some (off, skip) =>
    let (s1, ok) := s.putBatch k n rgn q off batch
    let q1 := s1.queue k n
    if !ok || q1.cfgRgn.isNone then (s1, false)
    else
      let len := batch.length
      let s2 := s1.setQueue k n { q1 with
        faultHeld := false, wOff := (off + len) % q.dsize, unfreed := q1.unfreed ++ [(len, skip)] }
      let c := s2.cluster k
      let word := BitVec.ofNat 64 (2 ^ 55 * n + 2 ^ 40 * len + 16 * off)
      ((s2.setCluster k { c with take := c.take ++ [⟨word, n, s2.tagOf rgn⟩] }).wakeWhere (callerKey + k) .qdec fun y =>
        match y with
        | .take => true
        | _ => false, true)

/-- What a queue holds for is made good (R424): the access that faulted, and then what is still to be written in spill. The state after
it, and whether the queue holds no longer. -/
def State.queueReady (s : State) (k n : Nat) : State × Bool :=
  match s.queueRetry k n with
  | (s1, true) => s1.rewriteQueue k n
  | r => r

/-- The same of a spawn bin. -/
def State.binReady (s : State) (k i : Nat) : State × Bool :=
  match s.binRetry k i with
  | (s1, true) => s1.rewriteBin k i
  | r => r

/-- A firing of queue n (R261, R424): the state after it, and whether it was done. It reads the spill places of its batch, once
the queue holds no longer. -/
def State.fireQueue (s : State) (k n : Nat) : State × Bool :=
  match (s.queue k n).cfgRgn, s.queueReady k n with
  | none, _ => (s, false)
  | some _, (s, false) => (s, false)
  | some rgn, (s, true) =>
    let q := s.queue k n
    let batch := q.pre.take q.bmax
    match s.queueTry k n rgn (batch.filterMap fun t => t.spill.map q.spillVa) with
    | (s1, false) => (s1, false)
    | (s1, true) =>
      match if q.cons = 2 then s1.fireCaller k n q rgn batch else s1.fireBin k n q rgn batch with
      | (s2, false) => (s2, false)
      | (s2, true) =>
        let q2 := s2.queue k n
        ((s2.setQueue k n { q2 with slots := q2.slots.drop batch.length }.rest).unspillQueue k n, true)

/-- A firing of spawn bin i (R148, R424). -/
def State.fireSpawn (s : State) (k i : Nat) : State × Bool :=
  match s.binReady k i with
  | (s, false) => (s, false)
  | (s, true) =>
    match (s.cluster k).bins.find i with
    | none => (s, false)
    | some b =>
      let batch := b.recs.take 32
      match s.binTry k i b batch with
      | (s1, false) => (s1, false)
      | (s1, true) =>
        if !s1.mayFire k b.rgn then (s1, false)
        else
          let d := deliveryOf s1.nextId b.rgn k .spawn b.entry b.tag b.sdep i (batch.map fun r => (r.data, b.rgn))
          let s2 := { s1.updBin k i fun y => { y with recs := y.recs.drop batch.length } with
            nextId := s1.nextId + 1, deliveries := s1.deliveries ++ [d] }
          (s2.unspillBin k i, true)

/-- The first firable queue or bin whose delivery can proceed fires (R261). -/
def State.fireFirst (s : State) (k : Nat) : List Fire → State × Bool
  | [] => (s, false)
  | x :: l =>
    let r := if x.bin then s.fireSpawn k x.num else s.fireQueue k x.num
    if r.2 then r else r.1.fireFirst k l

/-- GATHER_FIRING (R261): at most one firing every 4 core clocks. -/
def execGatherFiring (cluster : Nat) (s : State) : Host.Outcome State Fault Refusal :=
  if s.clusterClk cluster < (s.cluster cluster).firedAt then .next s
  else
    let r := s.fireFirst cluster (s.firable cluster)
    if r.2 then
      let c := r.1.cluster cluster
      .next (r.1.setCluster cluster { c with firedAt := s.clusterClk cluster + 4 })
    else .next r.1

/-- RESERVATION_VOID (R259): a slot reserved for 65,536 core clocks is voided, and fault 0x10 goes to its region. -/
def execReservationVoid (cluster queue ticket : Nat) (s : State) : Host.Outcome State Fault Refusal :=
  let q := s.queue cluster queue
  let due (t : GSlot) : Bool := t.ticket == ticket && t.data.isNone && decide (t.clk + 65536 ≤ s.clusterClk cluster)
  match q.slots.find? due with
  | none => .next s
  | some t =>
    .next ((s.setQueue cluster queue ({ q with slots := q.slots.filter fun u => !due u }).rest).voidRecord cluster queue t)

/-- GATHER_FAULT_RETRY (R424): the access that a queue holds for, or a bin from number 512 on, is made again; once it holds no longer,
what is in spill moves back on chip as far as the pool has room. -/
def execGatherFaultRetry (cluster queue : Nat) (s : State) : Host.Outcome State Fault Refusal :=
  if queue < 512 then
    match s.queueReady cluster queue with
    | (s1, true) => .next (s1.unspillQueue cluster queue)
    | (s1, false) => .next s1
  else
    match s.binReady cluster (queue - 512) with
    | (s1, true) => .next (s1.unspillBin cluster (queue - 512))
    | (s1, false) => .next s1

/-- The cores a delivery may be placed on (R148, R377, R396). -/
def State.deliveryCores (s : State) (d : Delivery) : List Nat :=
  match d.cluster with
  | some k => coresOf k
  | none => (s.clustersFor d.rgn d.die).flatMap fun n => coresOf (24 * d.die + n)

/-- DELIVERED_WAVE_PLACE (R148, R262): a delivery takes a free pool entry and a core on which its wave fits. -/
def execDeliveredWavePlace (delivery core : Nat) (s : State) : Host.Outcome State Fault Refusal :=
  match s.deliveries.find? fun d => d.id == delivery with
  | none => .next s
  | some d =>
    match s.region? d.rgn with
    | none => .next s
    | some x =>
      if !s.mayDeliver d.rgn || s.heldBack (core / 96) d.rgn || !(s.deliveryCores d).contains core ||
          !s.tileFits d.kind core then .next s
      else
        match s.plan d.rgn core x.rcb x.rcb.wave1, lowestFree x.pool x.rcb.dpool with
        | some p, some e =>
          let s1 := { s with deliveries := s.deliveries.filter fun y => y.id != delivery }
          let s2 := s1.seatDelivered d x core e p
          .next (if x.st = .ready then (s2.updRegion d.rgn fun y => { y with st := .running }).writeState d.rgn else s2)
        | _, _ => .next s

end Sys2Proof.Machine
end

