-- ==== Sys2Proof/Machine/Sweep.lean ====
section
/-! DEFINITION. Context tensors and the sweep engines (24_sweep_engines.md R393 to R403). -/

namespace Sys2Proof.Machine

open Sys2Proof

/-! ### The descriptor (R393) -/

/-- ECNT. -/
def swCount (d : BitVec 512) : Nat := dfield d 255 224
/-- The context size in bytes. -/
def swSize (d : BitVec 512) : Nat := 8 * 2 ^ dfield d 210 208
/-- CBASE. -/
def swBase (d : BitVec 512) : Nat := dfield d 383 320
/-- The number of chunks. -/
def swChunks (d : BitVec 512) : Nat := (swCount d + 63) / 64
/-- The address of context k. -/
def swCtx (d : BitVec 512) (k : Nat) : Nat := (swBase d + k * swSize d) % 2 ^ 64
/-- The address of the skip byte of a chunk. -/
def swSkip (d : BitVec 512) (c : Nat) : Nat := (dfield d 511 448 + c / 8) % 2 ^ 64

/-- The subcode of fault 0x17 of a descriptor that breaks R393 (R403). -/
def swBad (d : BitVec 512) : Option (BitVec 8) :=
  let n := swCount d
  let esz := dfield d 12 0
  if dfield d 223 211 ≠ 0 ∨ dfield d 207 195 ≠ 0 ∨ dfield d 194 192 ≠ 0 ∨ dfield d 191 13 ≠ 0 ∨ 3 ≤ dfield d 210 208 ∨
      n = 0 ∨ 2 ^ 31 < n ∨ esz = 0 ∨ 4096 < esz then some 1
  else if swBase d % swSize d ≠ 0 ∨ dfield d 511 448 % 8 ≠ 0 ∨ dfield d 447 384 % 4 ≠ 0 then some 2
  else if swBase d / 2 ^ 32 ≠ (swBase d + n * swSize d - 1) / 2 ^ 32 then some 3
  else none

/-! ### Issue (R400) -/

/-- The descriptor of a tensor, read and checked: it lies on a page of class H (R393). -/
def State.sweepDesc (s : State) (c : Ctx) (lane va : Nat) : DescRes :=
  match s.readDesc c lane va 64 clsHome with
  | .stop r => .stop r
  | .ok s1 d =>
    match swBad d with
    | some sub => .stop (.fault s1 { code := 0x17, sub := sub })
    | none => .ok s1 d

/-- The address of the descriptor a lane names. -/
def Ctx.tensor (c : Ctx) (lane : Nat) : Nat := addrSum (c.a lane 2) 0 1 c.offX 64

/-- `sweep` of one lane (R400): status 1 where the die's queue is full. -/
def State.sweepLane (s : State) (c : Ctx) (lane : Nat) : Lane :=
  let va := c.tensor lane
  match s.sweepDesc c lane va with
  | .stop r => r
  | .ok s1 d =>
    let ctr := c.b lane 2
    match misaligned ctr 8 with
    | some f => .fault s1 { f with wr := true }
    | none =>
      match s1.reach (c.x.agent c.w) .wr clsHome .tagged ctr 8 with
      | .fault s2 _ f => .fault s2 f
      | .quota s2 r => .quota s2 r
      | .wait s2 => .stay s2
      | .ok s2 _ =>
        match s2.releaseAt c.w lane .dev with
        | none => .stay s
        | some s3 =>
          let n := clusterOfWave c.w / 24
          let x := s3.die n
          if 64 ≤ x.sweepQ.length then .ok s3 [1]
          else
            let gen := if c.e.f.isS then 0 else c.c lane
            let y : Sweep :=
              { id := s3.nextId, rgn := c.x.rgn, tag := s3.liveTag c.x.rgn, descVa := BitVec.ofNat 64 va, desc := d
                gen := BitVec.ofNat 32 gen, ctr := ctr, cursor := 0
                flying := false, noSkip := false, held := [], cores := [], pc := c.pc
                via := if c.x.kind = .tile ∨ c.x.kind = .step then c.x.src else 0 }
            .ok ({ s3 with nextId := s3.nextId + 1 }.setDie n { x with sweepQ := x.sweepQ ++ [y] }) [0]

/-- `sweep` (R399, R400). -/
def execSweep (f : Frame) (s : State) : Host.Outcome State Fault Refusal :=
  perLane (.sweep f) s fun c s1 l => s1.sweepLane c l

/-- The place of bytes of class H that a thread writes at their home, once it may write them now. -/
def State.reachHome (s : State) (c : Ctx) (va n : Nat) : Except Lane (State × Nat) :=
  match s.reach (c.x.agent c.w) .wr clsHome .tagged va n with
  | .fault s1 _ f => .error (.fault s1 f)
  | .quota s1 r => .error (.quota s1 r)
  | .wait s1 => .error (.stay s1)
  | .ok s1 parts =>
    let key := (parts.map Part.key).headD 0
    if s1.heldPart (s1.liveTag c.x.rgn) c.id key then .error (.stay s1) else .ok (s1, key)

/-- Bytes of class H that a thread writes at their home, in one step, by its tag. -/
def State.putHome (s : State) (c : Ctx) (lane va key : Nat) (bs : List Byte) : Lane :=
  if s.cutOff key then .ok s []
  else
    match s.homeWrite (s.liveTag c.x.rgn) (some (c.w, lane)) key bs with
    | .ok s2 => .ok s2 []
    | .error (_, s2) => .fault s2 { code := 0x0D, sub := 0, addr := some (va / 64 * 64), wr := true }

/-- A byte of class H that a thread changes at its home, in one step, by its tag; that of a poisoned grain is not changed (R256, R289). -/
def State.editHome (s : State) (c : Ctx) (lane va key : Nat) (g : Byte → Byte) : Lane :=
  let tag := s.liveTag c.x.rgn
  if !s.cutOff key && s.poisonedFor tag key 1 then .ok (s.dataError c.x.rgn key) []
  else s.putHome c lane va key ((s.homeBytes tag key 1).map g)

/-- `ctx.set` of one lane (R400): bits 15:0 of word 0 of its context, bits 31:16 kept. -/
def State.ctxSetLane (s : State) (c : Ctx) (lane : Nat) : Lane :=
  match (c.thread lane).elem with
  | none => .fault s { code := 0x17, sub := 8 }
  | some e =>
    let v := c.a lane % 2 ^ 16
    if 6 ≤ v % 16 ∨ (v % 16 = 2 ∧ e.csz = 0) then .fault s { code := 0x17, sub := 6 }
    else
      match s.releaseAt c.w lane .dev with
      | none => .stay s
      | some s1 =>
        match s1.reachHome c e.ctxVa.toNat 2 with
        | .error r => r
        | .ok (s2, key) => s2.putHome c lane e.ctxVa.toNat key (toLe 2 v)

/-- `ctx.set` (R400). -/
def execCtxSet (f : Frame) (s : State) : Host.Outcome State Fault Refusal :=
  perLane (.ctxSet f) s fun c s1 l => s1.ctxSetLane c l

/-! ### Waking (R401) -/

/-- The low byte of a context with KIND made ready where it sleeps or waits. -/
def wokenByte (b : Byte) : Byte := let k := b.toNat % 16; if 1 ≤ k ∧ k ≤ 4 then b &&& 0xF0 else b

/-- A sweep of the same descriptor, address space and tag (R398). -/
def State.sameSweep (s : State) (asr : Nat) (tag : Option (BitVec 5)) (va : DWord) (x : Sweep) : Bool :=
  s.asrOf x.rgn == asr && x.tag == tag && x.descVa == va

/-- A wake of an element applied by a thread: KIND is made ready, and the skip bit of its chunk is cleared, once the thread may write
both, so that a fault leaves neither written (R163). -/
def State.wakeNow (s : State) (c : Ctx) (lane k : Nat) (d : BitVec 512) : Lane :=
  match s.reachHome c (swCtx d k) 1 with
  | .error r => r
  | .ok (s1, ctx) =>
    match s1.reachHome c (swSkip d (k / 64)) 1 with
    | .error r => r
    | .ok (s2, skip) =>
      match s2.editHome c lane (swCtx d k) ctx wokenByte with
      | .ok s3 _ => s3.editHome c lane (swSkip d (k / 64)) skip fun b => b &&& ~~~(1#8 <<< (k / 64 % 8))
      | r => r

/-- A wake held for the chunk in flight. -/
def Sweep.hold (x : Sweep) (k : Nat) : Sweep := { x with held := x.held ++ [BitVec.ofNat 32 k] }

/-- `ctx.wake` of one lane (R400, R401): held while the element's chunk is in flight. -/
def State.ctxWakeLane (s : State) (c : Ctx) (lane : Nat) : Lane :=
  let va := c.tensor lane
  match s.sweepDesc c lane va with
  | .stop r => r
  | .ok s1 d =>
    let k := c.b lane
    if swCount d ≤ k then .fault s1 { code := 0x17, sub := 7 }
    else
      match s1.releaseAt c.w lane .dev with
      | none => .stay s
      | some s2 =>
        let mine (x : Sweep) : Bool :=
          s2.sameSweep (s2.asrOf c.x.rgn) (s2.liveTag c.x.rgn) (BitVec.ofNat 64 va) x && x.flying && x.cursor == k / 64
        if s2.dies.any fun x => x.engines.any fun e => mine e.2 then
          let note (x : Die) : Die :=
            { x with engines := x.engines.map fun e => (e.1, if mine e.2 then e.2.hold k else e.2) }
          .ok { s2 with dies := s2.dies.map note } []
        else s2.wakeNow c lane k d

/-- `ctx.wake` (R400, R401). -/
def execCtxWake (f : Frame) (s : State) : Host.Outcome State Fault Refusal :=
  perLane (.ctxWake f) s fun c s1 l => s1.ctxWakeLane c l

/-! ### The engine (R395 to R397) -/

/-- SWEEP_START (R398, R400): the first queued sweep of a die starts on its first free engine, once no earlier sweep of the
same descriptor under the same tag is queued or runs. -/
def execSweepStart (die : Nat) (s : State) : Host.Outcome State Fault Refusal :=
  let x := s.die die
  match x.sweepQ, (List.range 8).find? fun n => (x.engines.find n).isNone with
  | y :: rest, some n =>
    let same := s.sameSweep (s.asrOf y.rgn) y.tag y.descVa
    if s.dies.any fun d => (d.engines.any fun e => same e.2) || d.sweepQ.any fun z => decide (z.id < y.id) && same z then
      .next s
    else .next (s.setDie die { x with sweepQ := rest, engines := x.engines.ins n y })
  | _, _ => .next s

/-- Who a sweep acts for. Its accesses are issued as its engine makes them, so that those of a winner are held while its set resolves
(R325, R330). -/
def State.sweepEng (s : State) (die : Nat) (x : Sweep) : EngOf :=
  ⟨x.rgn, none, s.clusterFor x.rgn die, x.pc, s.nextId⟩

/-- A sweep's access of its context area or skip map, on pages of class H: what a facet's tag may not reach is refused, of a read
too (R402). -/
def State.sweepParts (s : State) (e : EngOf) (need : Need) (va n : Nat) : EngParts :=
  match s.engParts e need clsHome va n with
  | .stop r => .stop r
  | .ok s1 parts =>
    match if (facetOf (s1.liveTag e.rgn)).isSome then s1.windowBadPart e.rgn .tagged parts else none with
    | some (bad, sub) => .stop (.fault s1 { code := 0x0E, sub := sub, addr := some bad })
    | none => .ok s1 parts

/-- A sweep's read of its context area or skip map. -/
def State.sweepRead (s : State) (e : EngOf) (va n : Nat) : EngRes :=
  match s.sweepParts e .rd va n with
  | .stop r => r
  | .ok s1 parts => s1.engFetch e parts

/-- A sweep's read of the counter that a context waits for: a load, which a window refuses to none (R322). -/
def State.counterRead (s : State) (e : EngOf) (va : Nat) : EngRes :=
  match s.engParts e .rd clsHome va 8 with
  | .stop r => r
  | .ok s1 parts => s1.engFetch e parts

/-- One byte at its home changed by a sweep, in one step (R246, R395); in a poisoned grain the read stops it (R289). -/
def State.sweepEdit (s : State) (e : EngOf) (va : Nat) (g : Byte → Byte) : EngRes :=
  match s.sweepParts e .wr va 1 with
  | .stop r => r
  | .ok s1 parts =>
    match s1.engFetch e parts with
    | .ok s2 bs => s2.engStore e parts (bs.map g)
    | r => r

/-- KIND of a context's word 0 (R394). -/
def ctxKind (w : Nat) : Nat := w % 16
/-- RI of a context's word 0 (R394). -/
def ctxRi (w : Nat) : Nat := field w 15 4

/-- What an evaluation finds of a context: ready already, made ready by its condition, waiting, sleeping or done, or
ill-formed. -/
inductive CtxIs where
  | ready | turned | waiting | quiet | bad
  deriving DecidableEq, Repr

/-- An evaluation's outcome: the state with what was found, or what stopped the read. -/
inductive SwRes (β : Type) where
  | ok (s : State) (r : β)
  | stop (r : EngRes)

/-- The condition of one context, on the values read (R394). -/
def State.ctxEval (s : State) (e : EngOf) (x : Sweep) (k : Nat) (bs : List Byte) : SwRes CtxIs :=
  let w0 := leBytes (bs.take 4)
  let w1 := leBytes ((bs.drop 4).take 4)
  let is (s : State) (b : Bool) : SwRes CtxIs := .ok s (if b then .turned else .waiting)
  match ctxKind w0 with
  | 0 => .ok s .ready
  | 1 | 5 => .ok s .quiet
  | 2 =>
    let va := leBytes ((bs.drop 8).take 8)
    if swSize x.desc = 8 ∨ va % 8 ≠ 0 then .ok s .bad
    else
      (match s.counterRead e va with
       | .ok s1 v => is s1 (decide (w1 ≤ leBytes v))
       | r => .stop r)
  | 3 =>
    let n : Int := k + intOf w1 .s32
    if n < 0 ∨ (swCount x.desc : Int) ≤ n then is s true
    else
      (match s.sweepRead e (swCtx x.desc n.toNat) 4 with
       | .ok s1 v => is s1 (ctxKind (leBytes v) == 5 || decide (ctxRi w0 ≤ ctxRi (leBytes v)))
       | r => .stop r)
  | 4 => is s (decide ((2 ^ 32 + x.gen.toNat - w1) % 2 ^ 32 < 2 ^ 31))
  | _ => .ok s .bad

/-- A context read and evaluated: its number, its word 0 and what it is. -/
structure CtxSeen where
  k : Nat
  word : Nat
  is : CtxIs
  deriving DecidableEq, Repr

/-- The contexts of a list, each read and evaluated. -/
def State.ctxScan (s : State) (e : EngOf) (x : Sweep) : List Nat → SwRes (List CtxSeen)
  | [] => .ok s []
  | k :: ks =>
    match s.sweepRead e (swCtx x.desc k) (swSize x.desc) with
    | .ok s1 bs =>
      (match s1.ctxEval e x k bs with
       | .stop r => .stop r
       | .ok s2 v =>
         match s2.ctxScan e x ks with
         | .stop r => .stop r
         | .ok s3 l => .ok s3 (⟨k, leBytes (bs.take 4), v⟩ :: l))
    | r => .stop r

/-- The elements of a chunk, clipped to ECNT. -/
def chunkElems (d : BitVec 512) (c : Nat) : List Nat :=
  (List.range (min 64 (swCount d - 64 * c))).map fun i => 64 * c + i

/-- Elements changed one after another by a sweep: the state, and what stopped it if something did. -/
def State.sweepEdits (s : State) (e : EngOf) (g : Byte → Byte) : List Nat → State × Option EngRes
  | [] => (s, none)
  | va :: rest =>
    match s.sweepEdit e va g with
    | .ok s1 _ => s1.sweepEdits e g rest
    | r => (s, some r)

/-- A failure of a sweep's access posted (R402, R403): a fault of translation, permission or class is 0x17, subcode 0x04;
a refused part is 0x0E; a poisoned grain is subcode 0x03 of the family (R289). -/
def sweepFail (e : EngOf) (r : EngRes) : State :=
  match r with
  | .ok s1 _ => s1
  | .fault s1 f =>
    s1.engRecord e (if f.code = 0x0E then f else { code := 0x17, sub := 4, addr := f.addr, wr := f.wr })
  | .poison s1 va key => (s1.engRecord e { code := 0x17, sub := 3, addr := some va }).dataError e.rgn key
  | .full s1 va => s1.engFull e va
  | .quota s1 r => s1.engQuota e r
  | .wait s1 => s1

/-- What stopped an access lets the engine make it again: a wait, or a quota that suspended the region. -/
def EngRes.again : EngRes → Bool
  | .quota .. | .wait _ => true
  | _ => false

/-- The sweep of an engine, changed or removed. -/
def State.setSweep (s : State) (die n : Nat) (y : Option Sweep) : State :=
  let x := s.die die
  s.setDie die { x with engines := match y with | some z => x.engines.ins n z | none => x.engines.del n }

/-- A sweep that is still in its engine, changed. -/
def State.keepSweep (s : State) (die n : Nat) (y : Sweep) : State :=
  if ((s.die die).engines.find n).isSome then s.setSweep die n (some y) else s

/-- SWEEP_END (R395): the sweep leaves its engine and adds 1 to its counter, a release, where the counter's page is there (R403).
Until that can be tried the sweep stays, past its last chunk. -/
def State.sweepEnd (s : State) (die n : Nat) (x : Sweep) : State :=
  let e := s.sweepEng die x
  match s.engParts e .wr clsHome x.ctr 8 with
  | .ok s1 parts => (s1.setSweep die n none).raiseCtr e ((parts.map Part.key).headD 0) (some x.ctr)
  | .stop r =>
    if r.again then (sweepFail e r).keepSweep die n { x with cursor := swChunks x.desc, flying := false, held := [] }
    else (sweepFail e r).setSweep die n none

/-- The cursor goes on to the next chunk, and after the last the sweep ends. -/
def State.nextChunk (s : State) (die n : Nat) (x : Sweep) : State :=
  match (s.die die).engines.find n with
  | none => s
  | some _ =>
    if x.cursor + 1 < swChunks x.desc then
      s.setSweep die n (some { x with cursor := x.cursor + 1, flying := false, noSkip := false, held := [] })
    else s.sweepEnd die n x

/-- The skip bit of a chunk set: the state after it, and whether it is to be tried again. -/
def State.setSkip (s : State) (e : EngOf) (x : Sweep) : State × Bool :=
  match s.sweepEdit e (swSkip x.desc x.cursor) fun b => b ||| (1#8 <<< (x.cursor % 8)) with
  | .ok s1 _ => (s1, false)
  | r => (sweepFail e r, r.again)

/-- A started thread's record (R396): v0 the index, v1 word 0 with KIND 0, v2 and v3 the element's address. -/
def stepRecord (d : BitVec 512) (c : CtxSeen) : BitVec 128 :=
  BitVec.ofNat 128 (c.k + 2 ^ 32 * (c.word / 16 * 16) + 2 ^ 64 * ((dfield d 319 256 + c.k * dfield d 12 0) % 2 ^ 64))

/-- Wave h of the chunk asked for, where a context of its half is ready (R396). -/
def State.askStep (s : State) (die n : Nat) (x : Sweep) (ready : List CtxSeen) (h : Nat) : State :=
  let mine := ready.filter fun c => c.k % 64 / 32 == h
  match mine with
  | [] => s
  | _ =>
    let el (c : CtxSeen) : Elem := ⟨BitVec.ofNat 32 c.k, BitVec.ofNat 64 (swCtx x.desc c.k), dfield x.desc 210 208, die, n⟩
    let d : Delivery :=
      { id := s.nextId, rgn := x.rgn, kind := .step, die := die, cluster := none
        entry := BitVec.ofNat 64 (dfield x.desc 447 384), tag := x.tag, sdep := 0
        recs := mine.foldl (fun m c => NMap.ins m (c.k % 32) (stepRecord x.desc c)) [], prods := []
        elems := mine.foldl (fun m c => NMap.ins m (c.k % 32) (el c)) [], tile := none, src := x.id }
    { s with nextId := s.nextId + 1, deliveries := s.deliveries ++ [d] }

/-- The pages of the elements that are to be stepped, read by their threads (R396, R403): the state, and what stopped it if something
did. -/
def State.elemPages (s : State) (e : EngOf) (d : BitVec 512) : List CtxSeen → State × Option EngRes
  | [] => (s, none)
  | c :: rest =>
    match s.engParts e .rd clsAny ((dfield d 319 256 + c.k * dfield d 12 0) % 2 ^ 64) (dfield d 12 0) with
    | .ok s1 _ => s1.elemPages e d rest
    | .stop r => (s, some r)

/-- Fault 0x17, subcode 0x05, of each ill-formed context (R403). -/
def State.ctxRecords (s : State) (e : EngOf) (x : Sweep) (l : List CtxSeen) : State :=
  (l.filter fun c => c.is == .bad).foldl
    (fun s c => s.engRecord e { code := 0x17, sub := 5, addr := some (swCtx x.desc c.k) }) s

/-- A chunk whose contexts have been read: conditions that hold turn their contexts, and the ready ones are delivered; a
chunk without any may be skipped from then on (R395). The second part says that something is to be tried again, so that the chunk is
evaluated anew. -/
def State.chunkTry (s : State) (die n : Nat) (x : Sweep) (l : List CtxSeen) : State × Bool :=
  let e := s.sweepEng die x
  let turned := l.filter fun c => c.is == .turned
  let stop (r : EngRes) : State × Bool :=
    let s1 := sweepFail e r
    if r.again then (s1, true) else (s1.nextChunk die n x, false)
  match s.sweepEdits e (fun b => b &&& 0xF0) (turned.map fun c => swCtx x.desc c.k) with
  | (_, some r) => stop r
  | (s2, none) =>
    let ready := l.filter fun c => c.is == .ready || c.is == .turned
    match ready with
    | [] =>
      (match if l.all fun c => c.is == .quiet then s2.setSkip e x else (s2, false) with
       | (s3, true) => (s3, true)
       | (s3, false) => (s3.nextChunk die n x, false))
    | _ =>
      match s2.elemPages e x.desc ready with
      | (_, some r) => stop r
      | (s3, none) =>
        let s4 := s3.keepSweep die n { x with flying := true, noSkip := l.any fun c => c.is == .bad, held := [] }
        ((s4.askStep die n x ready 0).askStep die n x ready 1, false)

/-- The same, with the records of its ill-formed contexts posted once, by the evaluation that is the chunk's last (R403). -/
def State.chunkSeen (s : State) (die n : Nat) (x : Sweep) (l : List CtxSeen) : State :=
  match s.chunkTry die n x l with
  | (s1, true) => s1
  | (_, false) => ((s.ctxRecords (s.sweepEng die x) x l).chunkTry die n x l).1

/-- SWEEP_CHUNK (R395, R402, R403): the chunk at the cursor is evaluated; one that cannot be read is passed by. -/
def execSweepChunk (die engine : Nat) (s : State) : Host.Outcome State Fault Refusal :=
  match (s.die die).engines.find engine with
  | none => .next s
  | some x =>
    let e := s.sweepEng die x
    let fail (r : EngRes) : Host.Outcome State Fault Refusal :=
      if r.again then .next (sweepFail e r) else .next ((sweepFail e r).nextChunk die engine x)
    if x.flying || s.quotaWait x.rgn then .next s
    else if swChunks x.desc ≤ x.cursor then .next (s.sweepEnd die engine x)
    else
      match s.sweepRead e (swSkip x.desc x.cursor) 1 with
      | .ok s1 bs =>
        if (leBytes bs).testBit (x.cursor % 8) then .next (s1.nextChunk die engine x)
        else
          (match s1.ctxScan e x (chunkElems x.desc x.cursor) with
           | .ok s2 l => .next (s2.chunkSeen die engine x l)
           | .stop r => fail r)
      | r => fail r

/-- An engine operation is in flight that a wave of a descriptor's flush or of a sweep's chunk has issued: a copy, a collective or a
sweep, but for some sweeps (R377, R397). -/
def State.opsVia (s : State) (id : Nat) (but : Sweep → Bool) : Bool :=
  let mine (y : Sweep) : Bool := y.via == id && !but y
  (s.copies.any fun o => o.via == id) || (s.colls.any fun o => o.via == id) ||
  s.dies.any fun d => d.sweepQ.any mine || d.engines.any fun e => mine e.2

/-- A wave or a delivery of a sweep's chunk is still to end, or an operation that one of its waves has issued (R397). A sweep of the
same descriptor that one of them has issued starts after this one (R398), so that it is not waited for (DEDUCED, assumption 71). -/
def State.stepBusy (s : State) (x : Sweep) : Bool :=
  let mine (y : Wave) : Bool := decide (y.kind = .step) && y.src == x.id
  (s.waves.any fun e => mine e.2) || (s.saved.any fun z => z.2.waves.any fun e => mine e.2) ||
  (s.deliveries.any fun d => decide (d.kind = .step) && d.src == x.id) || s.opsVia x.id fun y => s.sameSweep (s.asrOf x.rgn) x.tag x.descVa y

/-- A held wake applied (R401): what stopped it, if it is to be tried again. -/
def State.applyWake (s : State) (e : EngOf) (x : Sweep) (k : Word) : State × Bool :=
  match s.sweepEdit e (swCtx x.desc k.toNat) wokenByte with
  | .ok s1 _ =>
    (match s1.sweepEdit e (swSkip x.desc x.cursor) fun b => b &&& ~~~(1#8 <<< (x.cursor % 8)) with
     | .ok s2 _ => (s2, false)
     | r => (sweepFail e r, r.again))
  | r => (sweepFail e r, r.again)

/-- The wakes held for a chunk applied, in order, while the sweep is in its engine (R401, R402): the state, and those that are still to
be. -/
def State.applyWakes (s : State) (die n : Nat) (x : Sweep) : List Word → State × List Word
  | [] => (s, [])
  | k :: ks =>
    if ((s.die die).engines.find n).isNone then (s, [])
    else
      match s.applyWake (s.sweepEng die x) x k with
      | (s1, true) => (s1, k :: ks)
      | (s1, false) => s1.applyWakes die n x ks

/-- The wakes held for a chunk are applied, and the cursor goes on; until all of them are the sweep stands still (R364, R401). -/
def State.wakesThenNext (s : State) (die n : Nat) (x : Sweep) : State :=
  match s.applyWakes die n x x.held with
  | (s1, []) => s1.nextChunk die n { x with cores := [] }
  | (s1, left) => s1.keepSweep die n { x with cores := [], noSkip := true, held := left }

/-- Every context of a list is sleeping or done (R395). -/
def State.allQuiet (s : State) (e : EngOf) (x : Sweep) : List Nat → SwRes Bool
  | [] => .ok s true
  | k :: ks =>
    match s.sweepRead e (swCtx x.desc k) 4 with
    | .ok s1 bs =>
      let kind := ctxKind (leBytes bs)
      if kind = 1 ∨ kind = 5 then s1.allQuiet e x ks else .ok s1 false
    | r => .stop r

/-- CHUNK_STEP_COMPLETE (R395, R397, R401): the chunk's waves are gone, a release at `.dev`; its skip bit is decided, then
the wakes held for it are applied. -/
def execChunkStepComplete (die engine : Nat) (s : State) : Host.Outcome State Fault Refusal :=
  match (s.die die).engines.find engine with
  | none => .next s
  | some x =>
    if !x.flying || s.stepBusy x || s.quotaWait x.rgn then .next s
    else
      let e := s.sweepEng die x
      let s1 := x.cores.foldl (fun (s : State) g => (s.writeBackAll g).writeBackSvc (4 * (g / 4))) s
      match if x.noSkip then .ok s1 false else s1.allQuiet e x (chunkElems x.desc x.cursor) with
      | .ok s2 quiet =>
        (match if quiet then s2.setSkip e x else (s2, false) with
         | (s3, true) => .next s3
         | (s3, false) => .next (s3.wakesThenNext die engine x))
      | .stop r =>
        if r.again then .next (sweepFail e r) else .next ((sweepFail e r).wakesThenNext die engine x)

end Sys2Proof.Machine
end

