-- ==== Sys2Proof/Machine/Coll.lean ====
section
/-! DEFINITION. Collectives of major 0x85 (26_fabric_host.md R419 to R423). -/

namespace Sys2Proof.Machine

open Sys2Proof

/-- LINKS of a collective descriptor (R420). -/
def collLinks (d : BitVec 512) : List Nat := (List.range 8).filter fun n => (dfield d 319 312).testBit n

/-- N of R420. -/
def collN (d : BitVec 512) : Nat := 1 + (collLinks d).length

/-- TY of R420. -/
def collTy (d : BitVec 512) : Option AtomTy :=
  match dfield d 303 301 with
  | 0 => some .s32
  | 1 => some .z32
  | 6 => some .f32
  | 7 => some .bf16
  | _ => none

/-- A collective descriptor is ill-formed (R420, R421), with the element count that applies. -/
def collBad (d : BitVec 512) (count : Nat) : Bool :=
  dfield d 511 448 % 64 != 0 || dfield d 447 384 % 64 != 0 || count == 0 || decide (2 ^ 28 < count) ||
  dfield d 307 304 != 0 || dfield d 300 0 != 0 || (collTy d).isNone || dfield d 319 312 == 0 ||
  decide (collN d ≤ dfield d 311 308)

/-- The collectives that the 2 engines of a die and its queue of 16 hold (R419). -/
def State.collsOf (s : State) (die : Nat) : List CollOp := s.colls.filter fun o => o.die == die

/-- `coll` of one lane (R421). -/
def State.collLane (s : State) (c : Ctx) (lane : Nat) (kind : CollKind) (red : CollRed) : Lane :=
  let va := addrSum (c.a lane 2) 0 1 c.immX 64
  let ctr := c.b lane 2
  match misaligned va 64, misaligned ctr 8 with
  | some f, _ => .fault s f
  | none, some f => .fault s { f with wr := true }
  | none, none =>
    match s.reach (c.x.agent c.w) .wr clsHome .tagged ctr 8 with
    | .fault s1 _ f => .fault s1 f
    | .quota s1 r => .quota s1 r
    | .wait s1 => .stay s1
    | .ok s1 parts =>
      match s1.readDesc c lane va 64 with
      | .stop r => r
      | .ok s2 d =>
        let count := if c.e.f.form = .l ∧ c.e.f.i ≠ 0 then c.e.f.i.toNat else dfield d 383 352
        if collBad d count then .fault s2 { code := 0x14, sub := 0x10 }
        else if (facetOf (s2.liveTag c.x.rgn)).isSome then .fault s2 { code := 5, sub := 0x16 }
        else
          let n := clusterOfWave c.w / 24
          if 18 ≤ (s2.collsOf n).length then .ok s2 [1]
          else
            let o : CollOp :=
              { id := s2.nextId, die := n, rgn := c.x.rgn, kind := kind, red := red, desc := d, count := count
                ctr := (match parts with | p :: _ => p.key | [] => 0), pc := c.pc
                via := if c.x.kind = .tile ∨ c.x.kind = .step then c.x.src else 0, ctrVa := ctr }
            let s3 := (collLinks d).foldl (fun s l => s.noteLink c.x.rgn (placeOf 2 l 0)) s2
            .ok { s3 with nextId := s3.nextId + 1, colls := s3.colls ++ [o] } [0]

/-- `coll` (R419, R421). -/
def execColl (f : Frame) (kind : CollKind) (red : CollRed) (s : State) : Host.Outcome State Fault Refusal :=
  perLane (.coll f kind red) s fun c s1 l => s1.collLane c l kind red

/-! ### The engine (R421, R422) -/

/-- The operation of RED as an atomic's. -/
def redOp : CollRed → AtomOp
  | .add => .add | .min => .min | .max => .max

/-- Elements of a list of bytes. -/
def elemsOf (w : Nat) : Nat → List Byte → List Nat
  | 0, _ => []
  | n + 1, bs => leBytes (bs.take w) :: elemsOf w n (bs.drop w)

/-- The fold of one element over the ranks in ascending order (R421). -/
def foldElem (op : AtomOp) (ty : AtomTy) : List Nat → Nat
  | [] => 0
  | x :: xs => xs.foldl (combine op ty) x

/-- The blocks of every member, in rank order; none where one is not given in full. -/
def collBlocks (o : CollOp) (mine : List Nat) (others : List (Nat × List Word)) (len : Nat) : Option (List (List Nat)) :=
  (List.range (collN o.desc)).foldr (fun r l => l.bind fun bs =>
    if r = dfield o.desc 311 308 then some (mine :: bs)
    else
      match others.find? fun e => e.1 == r with
      | some e => if e.2.length = len then some (e.2.map BitVec.toNat :: bs) else none
      | none => none) (some [])

/-- The elements that a member's DST takes (R421). -/
def collResult (o : CollOp) (ty : AtomTy) (blocks : List (List Nat)) : List Nat :=
  let fold (i : Nat) : Nat := foldElem (redOp o.red) ty (blocks.map fun b => b.getD i 0)
  match o.kind with
  | .allred => (List.range o.count).map fold
  | .allgat => blocks.flatten
  | .redsc => (List.range o.count).map fun i => fold (dfield o.desc 311 308 * o.count + i)

/-- Who a collective acts for. -/
def State.collEng (s : State) (o : CollOp) : EngOf := ⟨o.rgn, none, s.clusterFor o.rgn o.die, o.pc, o.id⟩

/-- The collective ends: its counter is raised by 1, a release at `.peer`. -/
def State.collEnd (s : State) (o : CollOp) : State :=
  ({ s with colls := s.colls.filter fun p => p.id != o.id } : State).raiseCtr (s.collEng o) o.ctr (some o.ctrVa)

/-- A collective that fails posts its record and raises its counter (R422). -/
def State.collFail (s : State) (o : CollOp) (f : Flt) : State := (s.engRecord (s.collEng o) f).collEnd o

/-- The translated parts of a collective's access: SRC and DST are local (R420). -/
def State.collParts (s : State) (e : EngOf) (need : Need) (va n : Nat) : EngParts :=
  match s.engParts e need (if need == .wr then clsStore else clsAny) va n with
  | .stop r => .stop r
  | .ok s1 parts =>
    match parts.find? fun p => locOf p.key != 0 with
    | some p => .stop (.fault s1 { code := 5, sub := 0, addr := some p.va, wr := need == .wr })
    | none => .ok s1 parts

/-- The bytes of DST that a collective writes (R421). -/
def CollOp.outBytes (o : CollOp) : Nat :=
  ((collTy o.desc).getD .z32).elemBits / 8 * (match o.kind with | .allgat => collN o.desc * o.count | _ => o.count)

/-- DST after a transfer that faulted is undefined (R422): each page of it that can be written takes free bytes. -/
def State.collSpoil (s : State) (o : CollOp) (n : Nat) : State :=
  let e := s.collEng o
  (framePieces (dfield o.desc 447 384) n).foldl (fun s p =>
    match s.collParts e .wr p.1 p.2 with
    | .stop _ => s
    | .ok s1 parts =>
      let (v, s2) := s1.fresh
      match s2.engStore e parts (toLe p.2 v) with
      | .ok s3 _ => s3
      | _ => s2) s

/-- A fault of the transfer (R422), or an access to be made again. -/
def collStop (o : CollOp) (n : Nat) (r : EngRes) : State :=
  let fail (s1 : State) (sub : BitVec 8) (va : Nat) (wr : Bool) : State :=
    (s1.collSpoil o n).collFail o { code := 0x0A, sub := sub, addr := some va, wr := wr }
  match r with
  | .ok s1 _ => s1
  | .fault s1 f => fail s1 (if f.code = 4 then 2 else 3) (f.addr.getD 0) f.wr
  | .poison s1 va key => (fail s1 3 va false).dataError o.rgn key
  | .full s1 va => fail s1 3 va true
  | .quota s1 r => s1.engQuota (s1.collEng o) r
  | .wait s1 => s1

/-- The transfer of a collective whose members agree. -/
def State.collRun (s : State) (o : CollOp) (others : List (Nat × List Word)) : State :=
  let ty := (collTy o.desc).getD .z32
  let w := ty.elemBits / 8
  let inLen := match o.kind with | .redsc => collN o.desc * o.count | _ => o.count
  let e := s.collEng o
  match s.collParts e .rd (dfield o.desc 511 448) (w * inLen) with
  | .stop r => collStop o o.outBytes r
  | .ok s1 from_ =>
    match s1.engFetch e from_ with
    | .ok s2 bs =>
      (match collBlocks o (elemsOf w inLen bs) others inLen with
       | none => s
       | some blocks =>
         let out := (collResult o ty blocks).flatMap (toLe w)
         match s2.collParts e .wr (dfield o.desc 447 384) o.outBytes with
         | .stop r => collStop o o.outBytes r
         | .ok s3 dst =>
           match s3.engStore e dst out with
           | .ok s4 _ => s4.collEnd o
           | r => collStop o o.outBytes r)
    | r => collStop o o.outBytes r

/-- COLL_EXECUTE (R421 to R423): one of the first two collectives of a die, once every member has started. The arguments
say whether the members agree, whether another has failed, and what the others hold. One that fails at another member, or at a link
that is down, leaves DST undefined (R422, R423). -/
def execCollExecute (op : Nat) (agree failed : Bool) (others : List (Nat × List Word)) (s : State) :
    Host.Outcome State Fault Refusal :=
  match s.colls.find? fun o => o.id == op with
  | none => .next s
  | some o =>
    if s.quotaWait o.rgn || !((s.collsOf o.die).take 2).contains o then .next s
    else if (collLinks o.desc).any fun n => !(s.links.getD n true) then
      .next ((s.collSpoil o o.outBytes).collFail o { code := 0x14, sub := 0x12 })
    else if !agree then .next (s.collFail o { code := 0x14, sub := 0x11 })
    else if failed then .next ((s.collSpoil o o.outBytes).collFail o { code := 0x14, sub := 0x12 })
    else .next (s.collRun o others)

end Sys2Proof.Machine
end

