-- ==== Sys2Proof/Machine/Region.lean ====
section
/-! DEFINITION. Regions: control blocks, validation, acceptance, dependences, control and end, prism launches and `wdq`
(21_regions_scheduling.md R346 to R359, 19_facets_versioned_memory.md R318 to R321). -/

namespace Sys2Proof.Machine

open Sys2Proof

/-! ### The region control block (R347) -/

/-- The doubleword of a block at a byte offset, read at the block's home. -/
def State.rcbWord (s : State) (key off : Nat) : Nat := leBytes (s.homeBytes none (key + off) 8)

/-- The fields of a block as R347 lays them out, from its doublewords. -/
def Rcb.read (d : Nat → Nat) : Rcb :=
  let w (i : Nat) : DWord := BitVec.ofNat 64 (d i)
  { entry := w 0x008, centry := w 0x010, asr := d 0x018
    dirq := (d 0x020).testBit 56, sys := (d 0x020).testBit 55, npre := (d 0x020).testBit 54, troot := (d 0x020).testBit 53
    pri := field (d 0x020) 47 45, dl := (d 0x020).testBit 44, pq := BitVec.ofNat 4 (field (d 0x020) 43 40)
    scrn := field (d 0x020) 13 8, tobn := field (d 0x020) 5 0
    scr := field (d 0x028) 63 32, acc := field (d 0x028) 31 24, tob := field (d 0x028) 21 16, regs := field (d 0x028) 10 0
    cgs := field (d 0x030) 50 48, wgsz := field (d 0x030) 42 32, nwg := field (d 0x030) 31 0
    depb := d 0x038
    witems := field (d 0x040) 63 32, bint := field (d 0x040) 31 16, hln := field (d 0x040) 12 8, depn := field (d 0x040) 7 0
    constb := w 0x048, constsz := field (d 0x050) 31 0, spillb := w 0x058
    savestr := field (d 0x060) 63 32, dpool := field (d 0x060) 31 16, spstr := field (d 0x060) 15 0
    trape := w 0x068, fdr := w 0x070
    spwb := BitVec.ofInt 64 (BitVec.ofNat 48 (field (d 0x078) 63 24 * 256)).toInt, fdn := field (d 0x078) 23 0
    act := w 0x080, qlo := field (d 0x088) 8 0, qn := field (d 0x088) 18 9
    spwn := field (d 0x090) 63 40, memq := field (d 0x090) 39 0, timeq := d 0x098
    scrq := field (d 0x0A0) 63 32, regq := field (d 0x0A0) 31 0, accq := field (d 0x0A8) 15 0
    saveb := w 0x0B0, donec := w 0x0B8, hlb := w 0x0C0, chgb := w 0x0C8, ownb := (d 0x020).testBit 35
    arg0 := w 0x0F0, arg1 := w 0x0F8
    win := (List.range 8).map fun i => (d (0x100 + 16 * i), d (0x108 + 16 * i))
    slots := (List.range 8).map fun i => BitVec.ofNat 128 (d (0x180 + 16 * i) + 2 ^ 64 * d (0x188 + 16 * i)) }

/-- The groups of fields taken from the parent where the override bit is clear, and the entry and address space that 0
inherits (R347, R349). -/
def Rcb.inherit (r p : Rcb) (ovr : Nat) : Rcb :=
  let r0 : Rcb := { r with entry := if r.entry = 0 then p.entry else r.entry, asr := if r.asr = 0 then p.asr else r.asr }
  let r1 := if ovr.testBit 0 then r0 else { r0 with pri := p.pri, dl := p.dl, pq := p.pq }
  let r2 := if ovr.testBit 1 then r1 else { r1 with trape := p.trape, fdr := p.fdr, fdn := p.fdn, act := p.act }
  let r3 := if ovr.testBit 2 then r2 else { r2 with slots := p.slots }
  let r4 := if ovr.testBit 3 then r3
    else { r3 with memq := p.memq, timeq := p.timeq, regq := p.regq, scrq := p.scrq, accq := p.accq }
  let r5 := if ovr.testBit 4 then r4 else { r4 with constb := p.constb, constsz := p.constsz }
  let r6 := if ovr.testBit 5 then r5 else { r5 with spillb := p.spillb, spstr := p.spstr }
  if ovr.testBit 6 then r6 else { r6 with bint := p.bint, qlo := p.qlo, qn := p.qn, spwb := p.spwb, spwn := p.spwn }

/-- Reserved bits of a block are not 0 (R347). -/
def rcbReserved (d : Nat → Nat) : Bool :=
  field (d 0x020) 63 57 != 0 || field (d 0x020) 52 48 != 0 || field (d 0x020) 39 39 != 0 || field (d 0x020) 31 14 != 0 ||
  field (d 0x020) 7 6 != 0 || field (d 0x028) 23 22 != 0 || field (d 0x028) 15 11 != 0 || field (d 0x030) 63 51 != 0 ||
  field (d 0x030) 47 43 != 0 || field (d 0x040) 15 13 != 0 || field (d 0x050) 63 32 != 0 || field (d 0x088) 63 19 != 0 ||
  field (d 0x0A8) 63 16 != 0 || field (d 0x0E8) 63 24 != 0

/-- Reason 0x10 (R351): a field outside the range that R347 gives it. The fields of a group that is inherited are
ignored (R349). -/
def Rcb.illFormed (r : Rcb) (d : Nat → Nat) (ovr : Nat) : Bool :=
  rcbReserved d || r.entry.toNat % 4 != 0 || r.centry.toNat % 4 != 0 || (r.centry != 0 && r.cgs == 0) ||
  r.asr % 4096 != 0 || r.regs == 0 || decide (1024 < r.regs) || r.wgsz == 0 || r.nwg == 0 || decide (2147483647 < r.nwg) ||
  decide (4 < r.cgs) || r.scr % 256 != 0 || decide (64 < r.depn) || decide (16 < r.hln) || r.savestr % 4096 != 0 ||
  r.saveb.toNat % 4096 != 0 || r.donec.toNat % 8 != 0 || (r.chgb != 0 && !r.troot) || (d 0 == 0 && !r.troot) ||
  (ovr.testBit 1 && (r.trape.toNat % 4 != 0 || r.fdr.toNat % 64 != 0 || r.fdn == 0)) ||
  (ovr.testBit 5 && (r.spillb.toNat % 8 != 0 || r.spstr % 8 != 0)) ||
  (ovr.testBit 6 && decide (512 < r.qn))

/-- The size of the save record of a workgroup with a footprint, or of member 0 of a cluster group (R361). -/
def Foot.recordSize (f : Foot) (first : Bool) : Nat :=
  4096 + f.waves * (f.alloc * 128 + 4096) + f.scr + f.tob * 131072 + f.acc * 65536 + (if first then 16384 else 0)

/-- The size of a region's largest save record (R361). -/
def Rcb.recordSize (r : Rcb) : Nat := r.foot.recordSize (r.cgs != 0)

/-- Reason 0x12 (R351): a workgroup can never fit one core. -/
def Rcb.neverFits (r : Rcb) : Bool :=
  decide (1024 < r.wgsz) || decide (4 * min 32 (8192 / r.alloc) < r.waves) || decide (r.tobn < r.tob) ||
  decide (32 < r.scrn + r.tobn) || decide (r.scrn * 131072 < r.scr) || decide (128 < r.acc) ||
  (r.cgs != 0 && r.nwg % r.cgs != 0)

/-- A budget of a region is more than its parent's: the parent's is a limit, and this one is none or a larger one. -/
def moreThan (own parent : Nat) : Bool := parent != 0 && (own == 0 || decide (parent < own))

/-- Reason 0x17 (R351): the region is granted more than its parent holds. -/
def Rcb.exceeds (r p : Rcb) (ovr : Nat) : Bool :=
  (ovr.testBit 0 && r.pq &&& ~~~p.pq != 0) ||
  (ovr.testBit 6 && r.qn != 0 && (decide (r.qlo < p.qlo) || decide (p.qlo + p.qn < r.qlo + r.qn))) ||
  (ovr.testBit 3 && (moreThan r.memq p.memq || moreThan r.timeq p.timeq || moreThan r.regq p.regq ||
    moreThan r.scrq p.scrq || moreThan r.accq p.accq))

/-! ### Validation (R351) -/

/-- Who launches: a thread's region, or the host for a function; the address space its addresses are named in, and the
tenant root of the tree. -/
structure Issuer where
  rgn : Option Nat
  fn : Nat
  asr : Option Nat
  root : Option Nat
  deriving DecidableEq, Repr

/-- The issuer a thread of a region is. -/
def State.issuerOf (s : State) (rgn : Nat) : Issuer :=
  match s.region? rgn with
  | some x => ⟨some rgn, x.fn, some x.rcb.asr, some x.root⟩
  | none => ⟨some rgn, 0, none, none⟩

/-- The place of a device address of an issuer on a readable page of class H. Before a function has a tenant root the
address is one of local memory (assumption 28). -/
def State.issuerKey (s : State) (by_ : Issuer) (va : Nat) : Option Nat :=
  match by_.asr with
  | none => some (placeOf 0 0 va)
  | some asr =>
    match s.place by_.fn asr va with
    | some (key, l) => if l.rd && l.cls == .h then some key else none
    | none => none

/-- The place of a device address of an issuer on a page of class H, whatever the page permits. -/
def State.homeKey (s : State) (by_ : Issuer) (va : Nat) : Option Nat :=
  match by_.asr with
  | none => some (placeOf 0 0 va)
  | some asr =>
    match s.place by_.fn asr va with
    | some (key, l) => if l.cls == .h then some key else none
    | none => none

/-- The latest region of a tree that a block address names, with its number (R346). -/
def State.regionNamed (s : State) (top va : Nat) : Option (Nat × Region) :=
  ((s.regions.filter fun e => e.2.rcbVa.toNat == va && s.under top e.1).getLast?)

/-- The parent a block names, or reason 0x11 (R346, R351). None stands for a tenant root, which has no parent. -/
def State.parentFor (s : State) (by_ : Issuer) (troot : Bool) (va : Nat) : Except Nat (Option (Nat × Region)) :=
  match by_.rgn with
  | some r =>
    (match s.region? r with
     | some x => if x.rcbVa.toNat = va then .ok (if troot then none else some (r, x)) else .error 0x11
     | none => .error 0x11)
  | none =>
    if troot && va == 0 && by_.fn == 0 then .ok none
    else
      match by_.root.bind fun t => s.regionNamed t va with
      | some (r, x) =>
        if x.st = .ready ∨ x.st = .running then .ok (if troot then none else some (r, x)) else .error 0x11
      | none => .error 0x11

/-- The region a block describes once it is accepted, or the lowest reason to refuse it (R351). -/
def State.readRegion (s : State) (by_ : Issuer) (va : Nat) : Except Nat Region :=
  if va % 512 ≠ 0 then .error 0x10
  else
    match s.issuerKey by_ va with
    | none => .error 0x10
    | some key =>
      let d := s.rcbWord key
      let own := Rcb.read d
      let ovr := if own.troot then 127 else field (d 0x020) 38 32
      if own.illFormed d ovr then .error 0x10
      else
        match s.parentFor by_ own.troot (d 0) with
        | .error n => .error n
        | .ok p =>
          let r := match p with
            | some (_, y) => own.inherit y.rcb ovr
            | none => { own with ownb := true }
          let sysUp := match p with | some (_, y) => y.rcb.sys | none => false
          let facet := match by_.rgn with | some i => (facetOf (s.liveTag i)).isSome | none => false
          let depBad := r.depn != 0 && (r.depb % 16 != 0 ||
            !(match s.place by_.fn r.asr r.depb with | some (_, l) => decide (l.cls = .h) | none => false))
          let tooMuch := match p with
            | some (_, y) => r.exceeds y.rcb ovr
            | none => by_.rgn.isNone && by_.fn != 0 && r.pq &&& ~~~(s.fns.getD by_.fn .fresh).pq != 0
          if r.neverFits then .error 0x12
          else if r.saveb = 0 ∨ r.savestr < r.recordSize then .error 0x13
          else if (r.sys && !(r.troot || sysUp)) || (r.npre && !r.sys) then .error 0x14
          else if facet then .error 0x15
          else if depBad then .error 0x16
          else if tooMuch then .error 0x17
          else
            .ok { rcbVa := BitVec.ofNat 64 va, rcbKey := key, rcb := r, parent := p.map Prod.fst
                  root := match p with | some (_, y) => y.root | none => 0
                  fn := by_.fn, prism := false, tag := match p with | some (_, y) => y.tag | none => none
                  st := .waiting, resume := .waiting, quota := false, seq := 0, widx := 0, lost := 0, memu := 0
                  timeu := 0, depDone := [], nextWg := 0, exited := 0, pool := [], dcount := 0, nextItem := 0
                  spwUsed := [], link := 0, passed := [none, none], raised := 0, cores := [] }

/-! ### Ready queues, acceptance and dependences (R352 to R355) -/

/-- The region is linked at the tail of its ready queue (R355). -/
def State.linkRegion (s : State) (r : Nat) : State :=
  { s.updRegion r (fun x => { x with link := s.nextId, passed := [none, none] }) with nextId := s.nextId + 1 }

/-- The region belongs to a prism launch and is held: its launch waits for a set, or it is a facet whose prefix has not
ended (R319, R320). -/
def State.heldByPrism (s : State) (r : Nat) : Bool :=
  (s.prisms.any fun p => p.preRgn == r || p.facets.contains r) ||
  (s.sets.any fun x => decide (x.st = .prefixing) && x.facets.contains r)

/-- The frames of a range of device addresses, now: those of its leaves that it touches. -/
def State.rangeFrames (s : State) (fn asr base size : Nat) : List Nat :=
  (List.range ((base + size + 4095) / 4096 - base / 4096)).filterMap fun i =>
    (s.place fn asr ((base / 4096 + i) * 4096 % 2 ^ 64)).map fun e => e.1 / 4096

/-- A region becomes ready: its item counter is 0 (R359), and the frames of its constant window are those of now (R157). -/
def State.becomeReady (s : State) (r : Nat) : State :=
  s.updRegion r fun y => { y with nextItem := 0, consts := s.rangeFrames y.fn y.rcb.asr y.rcb.constb.toNat y.rcb.constsz }

/-- A waiting region whose every dependence is met becomes ready (R352, R354). -/
def State.tryReady (s : State) (r : Nat) : State :=
  match s.region? r with
  | none => s
  | some x =>
    if x.depDone.length < x.rcb.depn || s.heldByPrism r then s
    else
      match x.st, x.resume with
      | .waiting, _ =>
        (((s.becomeReady r).updRegion r fun y => { y with st := .ready }).linkRegion r).writeState r
      | .suspended, .waiting => (s.becomeReady r).updRegion r fun y => { y with resume := .ready }
      | _, _ => s

/-- One entry of a dependence list becomes a watch, or is posted as fault 0x05, subcode 0x09 (R354). -/
def State.armDep (s : State) (r : Nat) (x : Region) (i : Nat) : State :=
  let bad (s : State) (va : Nat) : State := s.postEng r none 0 0 { code := 5, sub := 9, addr := some va, wr := true }
  match s.devRead x.fn x.rcb.asr ((x.rcb.depb + 16 * i) % 2 ^ 64) 16 none with
  | none => bad s (x.rcb.depb + 16 * i)
  | some bs =>
    let va := leBytes (bs.take 8)
    match s.place x.fn x.rcb.asr va with
    | some (key, l) =>
      if l.cls = .h ∧ va % 8 = 0 then
        let y : Watch := { id := s.nextId, key := key, target := BitVec.ofNat 64 (leBytes (bs.drop 8))
                           bar := none, dep := some (r, i), rgn := r, tag := none }
        { s with nextId := s.nextId + 1, watches := s.watches ++ [y] }
      else bad s va
    | none => bad s va

/-- The number of the region that is accepted next. -/
def State.nextRegion (s : State) : Nat := s.nextId

/-- A region is accepted (R351, R352): it takes its number, its device fields are written and its watches are armed. -/
def State.accept (s : State) (x : Region) : State :=
  let r := s.nextRegion
  let y : Region := { x with root := if x.parent = none then r else x.root }
  let s1 := { s with nextId := s.nextId + 1, regions := s.regions.ins r y }
  let s2 := ((s1.writeState r).putNum (y.rcbKey + 0xD0) 8 0).putNum (y.rcbKey + 0xD8) 8 0
  (List.range y.rcb.depn).foldl (fun s i => s.armDep r y i) s2

/-- A launch (R357, R409): the state after it and its reason, 0 where it is accepted. -/
def State.launch (s : State) (by_ : Issuer) (va : Nat) : State × Nat :=
  match s.readRegion by_ va with
  | .error n => (s, n)
  | .ok x => ((s.accept x).tryReady s.nextRegion, 0)

/-- DEPENDENCE_MET (R354): the counter of an entry has reached its target: what the releases of its increments have left is performed
first (R303, R354). -/
def execDependenceMet (rgn index : Nat) (s : State) : Host.Outcome State Fault Refusal :=
  match s.watches.find? fun x => decide (x.dep = some (rgn, index)) with
  | none => .next s
  | some x =>
    if leBytes (s.homeBytes none x.key 8) < x.target.toNat then .next s
    else
      match s.force x.party .dev with
      | none => .next s
      | some s0 =>
      let s1 := { s0 with watches := s0.watches.filter fun y => y.id != x.id }
      .next ((s1.updRegion rgn fun y => { y with depDone := y.depDone ++ [index] }).tryReady rgn)

/-! ### Prism launches (R318 to R321) -/

/-- The leaves of a range of device addresses, in order, at most so many; none where a page is not present. -/
def State.leavesOf (s : State) (fn asr : Nat) : Nat → Nat → Nat → Option (List Leaf)
  | 0, _, _ => some []
  | fuel + 1, va, stop =>
    if stop ≤ va then some []
    else
      match s.place fn asr (va % 2 ^ 64) with
      | none => none
      | some (_, l) => (s.leavesOf fn asr fuel (va / l.size * l.size + l.size) stop).map fun ls => l :: ls

/-- The leaves of a range. -/
def State.rangeLeaves (s : State) (fn asr base size : Nat) : Option (List Leaf) :=
  s.leavesOf fn asr ((size + 4095) / 4096 + 1) base (base + size)

/-- A leaf is writable and of class H. -/
def Leaf.home (l : Leaf) : Bool := l.wr && decide (l.cls = .h)

/-- A prism record as it is read (R318). -/
structure Prism where
  hnda : Nat
  resc : Nat
  ovfn : Nat
  ovfb : Nat
  pre : Nat
  insz : Nat
  nfac : Nat
  facets : List (Nat × Nat)
  deriving DecidableEq, Repr

/-- The fields of a prism record, whose 192 bytes are given, and whether reason 0x01 refuses it (R318, R319). -/
def prismOf (bs : List Byte) : Prism × Bool :=
  let h := leBytes (bs.take 64)
  let num (i n : Nat) : Nat := leBytes ((bs.drop i).take n)
  let nfac := field h 2 0
  let p : Prism :=
    { hnda := field h 511 448, resc := field h 447 384, ovfn := field h 383 352, ovfb := field h 319 256
      pre := field h 255 192, insz := field h 135 128, nfac := nfac
      facets := (List.range nfac).map fun i => (num (64 + 16 * i) 8, num (72 + 16 * i) 8) }
  (p, field h 351 320 != 0 || field h 191 136 != 0 || field h 127 3 != 0 || nfac == 0 || p.insz == 0 ||
    p.ovfn % 32 != 0 || decide (p.ovfn < 32) || decide (16777216 < p.ovfn) ||
    num (64 + 16 * nfac) (112 - 16 * nfac) != 0 || num 176 16 != 0)

/-- The bytes of a prism record on pages of class H (R318). -/
def State.prismBytes (s : State) (by_ : Issuer) (va : Nat) : Option (List Byte) :=
  if va % 64 ≠ 0 then none
  else
    (framePieces va 192).foldl (fun r p => r.bind fun bs =>
      (s.homeKey by_ p.1).map fun key => bs ++ s.homeBytes none key p.2) (some [])

/-- Reason 0x02 refuses the addresses of a record (R319). -/
def State.prismAddrBad (s : State) (by_ : Issuer) (p : Prism) : Bool :=
  let home (va a : Nat) : Bool := va % a == 0 && (s.homeKey by_ va).isSome
  !home p.hnda 4 || !home p.resc 8 || !home p.ovfb 4096 || (p.facets.any fun e => !home e.2 64) ||
  (match by_.asr with
   | none => false
   | some asr => match s.rangeLeaves by_.fn asr p.ovfb (128 * p.ovfn) with
     | some ls => ls.any fun l => !l.home
     | none => true)

/-- Reason 0x03 refuses a window range (R319). -/
def State.winRangeBad (s : State) (fn asr : Nat) (e : Nat × Nat) : Bool :=
  match s.rangeLeaves fn asr e.1 e.2 with
  | some ls => ls.any fun l => !l.home || e.1 % l.size != 0 || e.2 % l.size != 0
  | none => true

/-- The regions of a prism launch, read in the order of R319. -/
def State.readAll (s : State) (by_ : Issuer) : List Nat → Except Nat (List Region)
  | [] => .ok []
  | va :: l =>
    match s.readRegion by_ va with
    | .error n => .error n
    | .ok x =>
      match s.readAll by_ l with
      | .error n => .error n
      | .ok xs => .ok (x :: xs)

/-- The constant window of a facet region is its input record (R319). -/
def Region.withInput (x : Region) (inrec insz : Nat) : Region :=
  { x with rcb := { x.rcb with constb := BitVec.ofNat 64 inrec, constsz := 64 * insz } }

/-- The frames of the ranges of a window now, each range in the address space that names it (R319). -/
def State.winFrames (s : State) (fn : Nat) (wins : List (Nat × Nat × Nat)) : List Nat :=
  distinct (wins.flatMap fun e => s.rangeFrames fn e.1 e.2.1 e.2.2)

/-- A prism launch (R318, R319, R357): the state after it and its reason. Its regions are accepted together and wait for
a set. -/
def State.launchPrism (s : State) (by_ : Issuer) (va : Nat) : State × Nat :=
  match s.prismBytes by_ va with
  | none => (s, 2)
  | some bs =>
    let (p, bad) := prismOf bs
    if bad then (s, 1)
    else if s.prismAddrBad by_ p then (s, 2)
    else
      match s.readAll by_ (p.pre :: p.facets.map Prod.fst) with
      | .error n => (s, n)
      | .ok xs =>
        let asr := match xs with | x :: _ => x.rcb.asr | [] => 0
        let wins := distinct (xs.flatMap fun x => (x.rcb.win.filter fun e => e.2 != 0).map fun e => (x.rcb.asr, e))
        let frames := s.winFrames by_.fn wins
        let own := by_.asr.getD 0
        let key (va : Nat) : Nat := (s.homeKey by_ va).getD 0
        let taken := [key p.hnda / 4096, key p.resc / 4096] ++ s.rangeFrames by_.fn own p.ovfb (128 * p.ovfn)
        if wins.any fun e => s.winRangeBad by_.fn e.1 e.2 then (s, 3)
        else if 8 < (distinct (wins.map Prod.snd)).length then (s, 4)
        else if xs.any fun x => x.rcb.asr != asr || x.parent.isNone || x.root != (xs.map Region.root).headD 0 then (s, 5)
        else if taken.any fun f => frames.contains f then (s, 6)
        else
          let facets := (xs.drop 1).zip p.facets |>.map fun e => e.1.withInput e.2.2 p.insz
          let all := xs.take 1 ++ facets
          let (s1, ids) := all.foldl (fun r x =>
            (r.1.accept { x with tag := none, prism := true }, r.2 ++ [r.1.nextRegion])) (s, [])
          let q : PrismReq := { preRgn := ids.headD 0, facets := ids.drop 1, wins := wins, gone := 0, hnda := key p.hnda
                                resc := key p.resc, ovfn := p.ovfn, ovfb := key p.ovfb }
          ({ s1 with prisms := s1.prisms ++ [q] }, 0)

/-- Every translation of some frames leaves every TLB of the device, once the accesses made with it are performed, and the cores'
copies of the frames are written back and dropped (R171, R278, R321). None while such an access is held. -/
def State.dropFrames (s : State) (frames : List Nat) : Option State :=
  let keep (l : Leaf) : Bool := !(frames.any fun f => decide (l.key ≤ 4096 * f) && decide (4096 * f < l.key + l.size))
  let mine (key : Nat) : Bool := frames.contains (key / 4096)
  let served := s.waves.flatMap fun e => (e.2.pending.filter fun p =>
    decide (p.2.space = .glob) && p.2.parts.any fun q => mine q.key).map fun p => (e.1, p.1, p.2.id)
  if (s.copies.any fun o => match o.done with | .ctr key _ => mine key | .bar _ => false) || (s.colls.any fun o => mine o.ctr) ||
      s.ctrHeld.any fun h => mine h.key then none
  else
    (served.foldl (fun r e => r.bind fun s1 => s1.performUpTo e.1 e.2.1 e.2.2) (some s)).map fun s1 =>
      let s2 : State := { s1 with
        cores := s1.cores.map fun e => (e.1, { e.2 with tlb := e.2.tlb.filter keep })
        clusters := s1.clusters.map fun e => (e.1, { e.2 with tlb := e.2.tlb.filter keep }) }
      (s2.cores.map Prod.fst).foldl (fun s g => s.dropWhere g fun sec => mine (64 * sec)) s2

/-- The facet binding of a region of an opened set (R317, R349). -/
def State.bindFacet (s : State) (r tag : Nat) : State :=
  (s.updRegion r fun x => { x with tag := some (BitVec.ofNat 5 tag) }).writeState r

/-- SET_OPEN (R321): a waiting prism launch opens a free set; the frames of its window are those of its ranges now, and no other
set holds one of them. The facets that were killed meanwhile are squashed (R329). -/
def execSetOpen (req set : Nat) (s : State) : Host.Outcome State Fault Refusal :=
  match s.prisms[req]?, s.sets[set]? with
  | some p, some x =>
    let frames := s.winFrames (s.fnOf p.preRgn) p.wins
    let taken := s.sets.any fun y => decide (y.st ≠ .free) && y.frames.any fun f => frames.contains f
    match if x.st ≠ .free ∨ taken then none else s.dropFrames frames with
    | none => .next s
    | some s0 =>
      let gen := x.gen + 1
      let gone := match s0.prisms[req]? with | some q => q.gone | none => p.gone
      let y : FSet := { st := .prefixing, gen := gen, root := s.rootOf p.preRgn, preRgn := p.preRgn
                        facets := p.facets, squashed := BitVec.ofNat 8 gone, frames := frames, hnda := p.hnda, resc := p.resc
                        ovfn := p.ovfn, ovfb := p.ovfb, winner := 0, used := true, bound := 0 }
      let s1 := { s0 with prisms := s0.prisms.eraseIdx req, sets := s0.sets.set set y }
      let s2 := s1.putNum p.hnda 4 (set + 2 ^ 16 * gen.toNat)
      let s3 := (p.facets.zipIdx).foldl (fun s e => s.bindFacet e.1 (8 * set + e.2 + 1)) (s2.bindFacet p.preRgn (8 * set))
      .next ((s3.tryReady p.preRgn).resolveNone set)
  | _, _ => .next s

/-! ### The end of a region (R352) -/

/-- Something a region has made is still to complete: its waves, records, deliveries, copies, sweeps, collectives, bin
descriptors or engine commands, or what the queues that it configured still have to deliver to waves of it (R262, R293). -/
def State.regionBusy (s : State) (r : Nat) : Bool :=
  (s.waves.any fun e => e.2.rgn == r) || (s.wgs.any fun e => e.2.rgn == r) || (s.deliveries.any fun d => d.rgn == r) ||
  (s.clusters.any fun e => (e.2.bins.any fun b => b.2.rgn == r) ||
    e.2.queues.any fun q => q.2.cfgRgn == some r && q.2.cons == 1 && !q.2.slots.isEmpty) || (s.copies.any fun o => o.rgn == r) ||
  (s.dies.any fun d => (d.bins.any fun b => b.rgn == r) || (d.sweepQ.any fun w => w.rgn == r) ||
    d.engines.any fun w => w.2.rgn == r) ||
  (s.colls.any fun o => o.rgn == r) || (s.groups.any fun e => e.2.rgn == r)

/-- Every workgroup has exited, and every engine operation of the region has completed. -/
def State.regionDone (s : State) (r : Nat) (x : Region) : Bool :=
  decide (x.rcb.nwg ≤ x.exited) && !s.regionBusy r

/-- REGION_END (R352): a region whose work is done ends, and adds 1 to DONEC. One that a squash has stopped before its first
workgroup was placed ends too (R329). -/
def execRegionEnd (rgn : Nat) (s : State) : Host.Outcome State Fault Refusal :=
  match s.region? rgn with
  | none => .next s
  | some x =>
    if decide (x.st = .running ∨ x.st = .ready ∨ x.st = .waiting) && s.regionDone rgn x then
      .next ((((s.pushRegion rgn).updRegion rgn fun y => { y with st := .ended }).raiseDone rgn).writeState rgn)
    else .next s

/-- PREFIX_END (R320): the prefix region's work is done, so the set opens and the facet regions become ready together. -/
def execPrefixEnd (set : Nat) (s : State) : Host.Outcome State Fault Refusal :=
  match s.sets[set]? with
  | none => .next s
  | some x =>
    match s.region? x.preRgn with
    | none => .next s
    | some r =>
      if x.st = .prefixing && (decide (r.st = .ended) || (decide (r.st = .running) && s.regionDone x.preRgn r)) then
        .next (x.facets.foldl (fun s f => s.tryReady f) ((s.pushRegion x.preRgn).updSet set fun y => { y with st := .opened }))
      else .next s

/-! ### Control (R357) -/

/-- A thread parked by fault 0x0F (R364). -/
def Thread.quotaHeld (t : Thread) : Bool :=
  match t.st with
  | .parked code _ _ => code == 0x0F
  | _ => false

/-- A thread held with a record (R166, R357): with its number, or any of them. -/
def Thread.heldWith (t : Thread) (seq : Nat) (all : Bool) : Bool :=
  match t.st with
  | .parked code _ n => code != 0x0F && (all || n == seq)
  | _ => false

/-- The threads of a wave that satisfy a condition are replayed. -/
def Wave.replayIf (x : Wave) (cond : Thread → Bool) : Wave :=
  ({ x with threads := x.threads.map fun t => if cond t then t.replay else t } : Wave).fixTurn

/-- A thread of a wave satisfies a condition. -/
def Wave.has (x : Wave) (cond : Thread → Bool) : Bool := x.threads.any cond

/-- The saved waves of a workgroup, changed. -/
def Saved.mapWaves (y : Saved) (g : Wave → Wave) : Saved :=
  { y with waves := y.waves.map fun e => (e.1, g e.2), caller := y.caller.map g }

/-- The threads of waves that belong to regions of a set and satisfy a condition are replayed, the saved ones too. -/
def State.replayAll (s : State) (mine : Nat → Bool) (cond : Thread → Bool) : State :=
  let hit (x : Wave) : Bool := mine x.rgn && x.has cond
  let fix (x : Wave) : Wave := if mine x.rgn then x.replayIf cond else x
  let s1 := (s.waves.filter fun e => hit e.2).foldl (fun s e => s.wakeCore (coreOfWave e.1) .fdom) s
  { s1 with waves := s1.waves.map fun e => (e.1, fix e.2), saved := s1.saved.map fun e => (e.1, e.2.mapWaves fix) }

/-- Some thread, resident or saved, of such a region satisfies a condition. -/
def State.anyThread (s : State) (mine : Nat → Bool) (cond : Thread → Bool) : Bool :=
  let hit (x : Wave) : Bool := mine x.rgn && x.has cond
  (s.waves.any fun e => hit e.2) ||
  s.saved.any fun e => (e.2.waves.any fun y => hit y.2) || match e.2.caller with | some y => hit y | none => false

/-- A quota of R364 or R365 of a region is exceeded. -/
def Region.overQuota (x : Region) : Bool :=
  x.rcb.ownb && ((x.rcb.memq != 0 && decide (x.rcb.memq < x.memu)) || (x.rcb.timeq != 0 && decide (x.rcb.timeq ≤ x.timeu)))

/-- Resume of a suspended region's subtree (R357, R364): its parked accesses are replayed, and its regions are linked
again at the tail of their queues. A workgroup on a core with a fenced segment is still to be saved (R405). -/
def State.resumeRegion (s : State) (r : Nat) : State :=
  let rs := (s.subtree r).filter fun d => match s.region? d with | some x => decide (x.st = .suspended) | none => false
  let mine (d : Nat) : Bool := rs.contains d
  let s1 := rs.foldl (fun s d =>
    (((s.updRegion d fun x => { x with st := x.resume, quota := false }).linkRegion d).writeState d).tryReady d) s
  let go (e : Nat × Wg) : Nat × Wg :=
    if mine e.2.rgn then (e.1, { e.2 with saving := e.2.saving && !(s1.core e.2.core).available }) else e
  let free (o : CopyOp) : CopyOp := if mine o.rgn then { o with held := false } else o
  let s2 := { s1 with wgs := s1.wgs.map go, copies := s1.copies.map free }
  s2.replayAll mine Thread.quotaHeld

/-- The forms of `rlaunch` that act on a region, and Fjoub's commands beside them. -/
inductive RegionOp where
  | suspend | resume | kill
  | replay (seq : Nat) (all : Bool)
  deriving DecidableEq, Repr

/-- A control form on a region: the state after it and its reason (R357). -/
def State.control (s : State) (r : Nat) (x : Region) : RegionOp → State × Nat
  | .suspend => (s.suspendRegion r false, 0)
  | .resume =>
    let above := (s.subtree r ++ s.ancestors r).any fun d => match s.region? d with | some y => y.overQuota | none => false
    if x.st ≠ .suspended ∨ above then (s, 0x18) else (s.resumeRegion r, 0)
  | .kill => (s.killRegion r, 0)
  | .replay seq all =>
    let mine (d : Nat) : Bool := d == r
    if all || s.anyThread mine fun t => t.heldWith seq all then (s.replayAll mine fun t => t.heldWith seq all, 0)
    else (s, 0x19)

/-- A control form on the region an address names in a tree (R357). -/
def State.controlNamed (s : State) (top va : Nat) (op : RegionOp) : State × Nat :=
  if va % 512 ≠ 0 then (s, 0x10)
  else
    match s.regionNamed top va with
    | none => (s, 0x11)
    | some (r, x) => s.control r x op

/-- The status an `rlaunch` gives (R357). -/
def launchStatus (reason : Nat) : Word := BitVec.ofNat 32 (reason * 256 + (if reason = 0 then 0 else 1))

/-- One lane of an `rlaunch` form: its request is answered after a release, and an issuer that its own request stops
receives no status. -/
def State.rlaunchLane (s : State) (c : Ctx) (lane : Nat) (aligned : Bool) (act : State → Nat → State × Nat) : Lane :=
  let va := addrSum (c.a lane 2) 0 1 c.offX 64
  if aligned && va % 512 != 0 then .ok s [launchStatus 0x10]
  else
    match s.releaseAt c.w lane .dev with
    | none => .stay s
    | some s1 =>
      let (s2, reason) := act s1 va
      match s2.thread? c.w lane, s2.region? c.x.rgn with
      | some _, some y => .ok s2 (if y.st = .suspended then [] else [launchStatus reason])
      | _, _ => .gone s2

/-- `rlaunch` (R357). -/
def execRlaunch (f : Frame) (s : State) : Host.Outcome State Fault Refusal :=
  perLane (.rlaunch f) s fun c s1 l => s1.rlaunchLane c l true fun s2 va => s2.launch (s2.issuerOf c.x.rgn) va

/-- `rlaunch.prism` (R357). -/
def execRlaunchPrism (f : Frame) (s : State) : Host.Outcome State Fault Refusal :=
  perLane (.rlaunchPrism f) s fun c s1 l => s1.rlaunchLane c l false fun s2 va => s2.launchPrism (s2.issuerOf c.x.rgn) va

/-- `rlaunch.susp` (R357). -/
def execRlaunchSusp (f : Frame) (s : State) : Host.Outcome State Fault Refusal :=
  perLane (.rlaunchSusp f) s fun c s1 l => s1.rlaunchLane c l true fun s2 va => s2.controlNamed c.x.rgn va .suspend

/-- `rlaunch.res` (R357). -/
def execRlaunchRes (f : Frame) (s : State) : Host.Outcome State Fault Refusal :=
  perLane (.rlaunchRes f) s fun c s1 l => s1.rlaunchLane c l true fun s2 va => s2.controlNamed c.x.rgn va .resume

/-- `rlaunch.kill` (R357). -/
def execRlaunchKill (f : Frame) (s : State) : Host.Outcome State Fault Refusal :=
  perLane (.rlaunchKill f) s fun c s1 l => s1.rlaunchLane c l true fun s2 va => s2.controlNamed c.x.rgn va .kill

/-- `rlaunch.repl` (R357): B gives SEQ and ALL. -/
def execRlaunchRepl (f : Frame) (s : State) : Host.Outcome State Fault Refusal :=
  perLane (.rlaunchRepl f) s fun c s1 l =>
    s1.rlaunchLane c l true fun s2 va =>
      s2.controlNamed c.x.rgn va (.replay (c.b l % 65536) ((c.b l).testBit 16))

/-! ### Work items (R358, R359) -/

/-- `wdq` of one lane (R358). -/
def State.wdqLane (s : State) (c : Ctx) (lane : Nat) : Lane :=
  let ans := addrSum (c.a lane) 0 1 c.offX 32
  let b := c.b lane
  if ans % 4 ≠ 0 then .fault s { code := 2, sub := 1, addr := some ans }
  else if b % 32 ≠ 0 then .fault s { code := 2, sub := 1, addr := some b }
  else
    match s.winPlace c.x false ans with
    | .error f => .fault s f
    | .ok r =>
      if s.scrSize r.wg < r.off + 4 then .fault s { code := 7, sub := 0, addr := some ans, wr := true }
      else
        match s.barAt c.x false b with
        | .error f => .fault s f
        | .ok bar =>
          if bar.wg ≠ r.wg then .fault s { code := 7, sub := 6, addr := some b }
          else s.putOp { c.op s lane .wdq r.wg r.wg 0 4 (.bar bar) with off := r.off }

/-- `wdq` (R358). -/
def execWdq (f : Frame) (s : State) : Host.Outcome State Fault Refusal :=
  slotted (.wdq f) s fun c s1 l => s1.wdqLane c l

/-- WDQ_SERVE (R359): the distributor hands out the next item, or the end-of-work token, and then the answer arrives: it is written
to the answer word, and 4 bytes land (R371). Requests of one issue group are served in lane order. -/
def execWdqServe (op : Nat) (s : State) : Host.Outcome State Fault Refusal :=
  match s.copies.find? fun o => o.id == op && decide (o.kind = .wdq) with
  | none => .next s
  | some o =>
    let earlier (p : CopyOp) : Bool :=
      decide (p.kind = .wdq) && p.issue == o.issue && p.w == o.w && decide (p.id < o.id) && p.idx.isNone
    match o.idx, s.region? o.rgn with
    | some v, _ => .next (((s.copyPut o.wg false o.off (toLe 4 v)).setOp o.id fun _ => none).land o.done 4 false)
    | none, none => .next s
    | none, some x =>
      if s.copies.any earlier then .next s
      else
        let more := decide (x.nextItem < x.rcb.witems)
        let s1 := if more then s.updRegion o.rgn fun y => { y with nextItem := y.nextItem + 1 } else s
        .next (s1.setOp o.id fun p => some { p with idx := some (if more then x.nextItem else 0xFFFFFFFF) })

end Sys2Proof.Machine
end

