-- ==== Sys2Proof/Machine/Fabric.lean ====
section
/-! DEFINITION. The fabric: requests of the host and of peers to local frames, address translation with the host, and the
failures of links (26_fabric_host.md R414 to R418 and R423, 19_facets_versioned_memory.md R322, 16_die_l2_copy.md R278). -/

namespace Sys2Proof.Machine

open Sys2Proof

/-! ### Events of links (R423) -/

/-- A link of the device: 0 to 7 for the peers, 8 for the host. -/
def linkUp (s : State) (link : Nat) : Bool := decide (link < 9) && s.links.getD link true

/-- The tenant roots whose work has used a link. -/
def State.linkRoots (s : State) (link : Nat) : List Nat :=
  (s.linkUse.filter fun e => e.1 == link).map Prod.snd

/-- Event 0x14 goes to tenant roots and to Fjoub's ring, with the link in detail word 0, and MSI-X vector 3 to their
functions (R415, R423). -/
def State.linkEvent (s : State) (link : Nat) (sub : BitVec 8) (roots : List Nat) : State :=
  let s1 := roots.foldl (fun s r =>
    let s2 := s.postEvent r r { code := 0x14, sub := sub, det0 := link }
    match s2.region? r with
    | some x => s2.signal x.fn 3
    | none => s2) s
  s1.postFjoub 0x14 sub 0 (BitVec.ofNat 32 link)

/-- LINK_RETRAIN (R423): it loses no request. A link that is down stays down. -/
def execLinkRetrain (link : Nat) (s : State) : Host.Outcome State Fault Refusal :=
  if linkUp s link then
    .next ((s.countLife (lifeRetrain link)).linkEvent link (if link = 8 then 1 else 3) (s.linkRoots link))
  else .next s

/-- LINK_DOWN (R423): requests over the link complete as R423 says from now on. -/
def execLinkDown (link : Nat) (s : State) : Host.Outcome State Fault Refusal :=
  if linkUp s link then
    .next ({ s with links := s.links.set link false }.linkEvent link (if link = 8 then 2 else 4) (s.linkRoots link))
  else .next s

/-! ### Requests of the host and of peers (R322, R414, R418) -/

/-- The bytes of local memory (R406). -/
def localBytes : Nat := 192 * 2 ^ 30

/-- The place lies, with n bytes after it, in local memory. -/
def inLocal (key n : Nat) : Bool := decide (key + n ≤ localBytes)

/-- The set whose window a write from outside would change, where R322 refuses it. -/
def State.windowHit (s : State) (key n : Nat) : Option FSet :=
  ((framePieces key n).findSome? fun p => s.frozenOf p.1).map Prod.snd

/-- An answer sent over a link. -/
def State.answer (s : State) (link fn : Nat) (abort : Bool) (data : List Byte) : State :=
  let a : Answer := { link := link, fn := fn, abort := abort, data := data }
  { s with answers := s.answers ++ [a] }

/-- A write to a window frame is completed with Completer Abort, and event 0x14, subcode 0x05, is posted (R322, R423). -/
def State.refuseWrite (s : State) (link fn : Nat) (x : FSet) : State :=
  (s.linkEvent link 5 (distinct (x.root :: s.linkRoots link))).answer link fn true []

/-- An uncorrectable error that the access of no region meets is Fjoub's (R289). -/
def State.outsideError (s : State) (key : Nat) : State := s.postFjoub 0x13 1 key 0

/-- HOST_REQUEST (R414): performed at the home slices of local frames at `.sys` scope: what releases that reach the host have left is
performed first (R291, R294). A read that meets poison answers free bytes. -/
def execHostRequest (fn : Nat) (wr : Bool) (key : Nat) (data : List Byte) (size : Nat) (s : State) :
    Host.Outcome State Fault Refusal :=
  let n := if wr then data.length else size
  match if 32 ≤ fn || !linkUp s 8 || !inLocal key n then none else s.force (.outside .host) .sys with
  | none => .next s
  | some s =>
    if wr then
      match s.windowHit key n with
      | some x => .next (s.refuseWrite 8 fn x)
      | none => .next ((s.baseWrite key data).answer 8 fn false [])
    else if s.poisoned key n then
      let (v, s1) := s.fresh
      .next ((s1.outsideError key).answer 8 fn false (toLe n v))
    else let s1 := s.atHome key n; .next (s1.answer 8 fn false (s1.homeBytes none key n))

/-- The bytes of local memory that a peer's operation acts on, with the operation as an access performs it. -/
def peerAcc (op : PeerOp) (data : List Byte) (size : Nat) : Nat × AccKind :=
  let x := leBytes data
  match op with
  | .load => (size, .load .b32 false)
  | .store => (data.length, .store data)
  | .rmw o ty => (4 * ty.words, .rmw o ty (x % 2 ^ (32 * ty.words)))
  | .cas ty => (4 * ty.words, .cas ty (x % 2 ^ (32 * ty.words)) (x / 2 ^ (32 * ty.words) % 2 ^ (32 * ty.words)))
  | .mcas => (16, .mcas (x % 2 ^ 128) (x / 2 ^ 128 % 2 ^ 128))
  | .mred o ty => (64, .mred o ty (x % 2 ^ 512))
  | .mscale r ty a b => (64, .mscale r ty a.toNat b.toNat (x % 2 ^ 512))

/-- PEER_REQUEST (R418): performed at the home slice as the peer's instruction says (R245 to R255), at `.sys` scope, since the request
does not carry that of the instruction (assumption 77): what releases that reach the peer have left is performed first (R291, R294). A read
that meets poison answers all ones and leaves an atomic undone (R289). -/
def execPeerRequest (link : Nat) (op : PeerOp) (key : Nat) (data : List Byte) (size : Nat) (s : State) :
    Host.Outcome State Fault Refusal :=
  let (n, k) := peerAcc op data size
  match if 8 ≤ link || !linkUp s link || !inLocal key n then none else s.force (.outside .peer) .sys with
  | none => .next s
  | some s =>
    match if op = .load then none else s.windowHit key n with
    | some x => .next (s.refuseWrite link 0 x)
    | none =>
      if op = .store then .next ((s.baseWrite key data).answer link 0 false [])
      else if s.poisoned key n then
        .next ((s.outsideError key).answer link 0 false (List.replicate n 0xFF))
      else
        let s1 := s.atHome key n
        let old := s1.homeBytes none key n
        let s2 := if op = .load then s1 else s1.baseWrite key (toLe n (k.newVal (leBytes old)))
        .next (s2.answer link 0 false old)

/-! ### Address translation with the host (R417) -/

/-- A page size that a translation may have: 4 KiB times a power of two, to the whole space. -/
def pageSize (n : Nat) : Bool := (List.range 41).any fun i => n == 2 ^ (12 + i)

/-- ATS_TRANSLATION_RESPONSE (R417): the host's answer for a page, to a request with the requester ID and the PASID of a function
(R416); one without permission makes the access take fault 0x04, subcode 0x04. It answers the Translation Requests and the Page
Requests of its page that are on their way. None comes for a page that a pending Invalidate Request names. -/
def execAtsTranslationResponse (va : HostAddr) (key size : Nat) (rd wr : Bool) (s : State) : Host.Outcome State Fault Refusal :=
  if 32 ≤ va.fn || !linkUp s 8 || !pageSize size || decide (2 ^ 52 ≤ va.addr) || decide (2 ^ 52 ≤ key) then .next s
  else
    let l : Leaf :=
      { asr := s.hostId va.fn, va := 2 ^ 52 + va.addr / size * size, size := size, key := 2 ^ 52 + key / size * size, cls := .h
        rd := rd, wr := wr, ex := rd }
    let apart (x : Leaf) : Bool := x.asr != l.asr || decide (x.va + x.size ≤ l.va) || decide (l.va + l.size ≤ x.va)
    let left (q : HostAddr) : Bool := q.fn != va.fn || decide (2 ^ 52 + q.addr < l.va) || decide (l.va + l.size ≤ 2 ^ 52 + q.addr)
    if s.atsPending.any l.inRange then .next s
    else .next { s with ats := l :: s.ats.filter apart, transReqs := s.transReqs.filter left, pageReqs := s.pageReqs.filter left }

/-- The accesses that are translated through some answers of the host, by wave, lane and number. -/
def State.throughAts (s : State) (gone : List Leaf) : List (Nat × Nat × Nat) :=
  let hit (rgn : Nat) (p : Part) : Bool := gone.any fun l =>
    l.asr == s.hostId (s.fnOf rgn) && decide (p.key < l.key + l.size) && decide (l.key < p.key + p.size)
  s.waves.flatMap fun e =>
    (e.2.pending.filter fun p => decide (p.2.space = .glob) && p.2.parts.any (hit e.2.rgn)).map fun p => (e.1, p.1, p.2.id)

/-- The completion counter of a copy or a collective in flight is translated through one of the answers. -/
def State.atsCounter (s : State) (gone : List Leaf) : Bool :=
  let hit (rgn key : Nat) : Bool :=
    gone.any fun l => l.asr == s.hostId (s.fnOf rgn) && decide (l.key ≤ key) && decide (key < l.key + l.size)
  (s.copies.any fun o => match o.done with
    | .ctr key _ => hit o.rgn key
    | .bar _ => false) || s.colls.any fun o => hit o.rgn o.ctr

/-- The Invalidate Requests that are pending, and the core clock with them: 2.3 GHz while there is one, and the clock of the power
state when none is left (R407). -/
def State.setPending (s : State) (l : List AtsInval) : State :=
  { s with atsPending := l, fclk := if l.isEmpty then s.cappedClk else 23 }

/-- A pending Invalidate Request is completed (R417): what the translations of the range served is performed, the copies of their
frames are written back and dropped (R278), and the completion is sent. None while an access they served is held. -/
def State.invalidate (s : State) (r : AtsInval) : Option State :=
  let gone := s.ats.filter fun l => l.inRange r
  if s.atsCounter gone then none
  else
    ((s.throughAts gone).foldl (fun r e => r.bind fun (s1 : State) => s1.performUpTo e.1 e.2.1 e.2.2) (some s)).map fun s1 =>
      let s2 := { s1 with ats := s1.ats.filter fun l => !l.inRange r }.setPending (s1.atsPending.filter fun x => !decide (x = r))
      let inFrame (sec : Nat) : Bool := gone.any fun l => decide (l.key ≤ 64 * sec) && decide (64 * sec < l.key + l.size)
      ((s2.cores.map Prod.fst).foldl (fun (s : State) g => s.dropWhere g inFrame) s2).answer 8 r.base.fn false []

/-- ATS_INVALIDATE_REQUEST (R417): the translations of the range are used no more, and the completion is sent once it can be; until
then the request is pending. At most 32 are outstanding (R414). -/
def execAtsInvalidateRequest (va : HostAddr) (size : Nat) (s : State) : Host.Outcome State Fault Refusal :=
  let r : AtsInval := ⟨va, size⟩
  if 32 ≤ va.fn || !linkUp s 8 || (!s.atsPending.contains r && decide (32 ≤ s.atsPending.length)) then .next s
  else
    let s1 := if s.atsPending.contains r then s else s.setPending (s.atsPending ++ [r])
    .next ((s1.invalidate r).getD s1)

end Sys2Proof.Machine
end

