-- ==== Sys2Proof/Machine/Sched.lean ====
section
/-! DEFINITION. Placement, pre-emption, save, restoration, migration and time (21_regions_scheduling.md R355, R356, R360 to
R363, R365, 13_cluster_caller_matrix.md R244). -/

namespace Sys2Proof.Machine

open Sys2Proof

/-! ### The next workgroup of a region (R356) -/

/-- What a region places next: a saved workgroup, with its group's other members, or the next of the grid. Each has its
member number, and its own number where it is saved. -/
structure Next where
  saved : Bool
  members : List (Nat × Nat)
  foot : Foot
  kind : WKind
  caller : Bool
  group : Option Nat
  deriving DecidableEq, Repr

/-- The saved workgroup of a region that is placed first: the lowest `$wg` (R356, R361). -/
def State.firstSaved (s : State) (r : Nat) : Option (Nat × Wg) :=
  (s.wgs.filter fun e => e.2.saved && e.2.rgn == r).foldl
    (fun m e => match m with
      | none => some e
      | some f => if e.2.index < f.2.index then some e else m) none

/-- The footprint of a workgroup of a region (R148, R356). -/
def Rcb.footOf (r : Rcb) (kind : WKind) : Foot := if kind = .launch then r.foot else r.wave1

/-- The saved workgroup to be placed again, with its group. -/
def State.nextOf (s : State) (x : Region) (wid : Nat) (y : Wg) : Next :=
  let foot := x.rcb.footOf y.kind
  match y.group.bind fun q => s.groups.find q with
  | some g => ⟨true, g.members, foot, y.kind, g.caller, y.group⟩
  | none => ⟨true, [(0, wid)], foot, y.kind, false, none⟩

/-- What a region places next. -/
def State.nextFor (s : State) (r : Nat) (x : Region) : Option Next :=
  match s.firstSaved r with
  | some (wid, y) => some (s.nextOf x wid y)
  | none =>
    if x.rcb.nwg ≤ x.nextWg then none
    else if x.rcb.cgs = 0 then some ⟨false, [(0, 0)], x.rcb.foot, .launch, false, none⟩
    else
      some ⟨false, (List.range x.rcb.cgs).map fun m => (m, 0), x.rcb.foot, .launch, decide (x.rcb.centry ≠ 0), none⟩

/-- The workgroups form a cluster group. -/
def Next.grouped (n : Next) (x : Region) : Bool := decide (n.kind = .launch) && x.rcb.cgs != 0

/-- The group whose Caller, or whose engine commands, a cluster runs (R223). -/
def State.engineGroup (s : State) (k : Nat) : Option (Nat × Group) :=
  s.groups.find? fun e => e.2.cluster == k && e.2.started && !s.groupSaved e.2

/-- The plans of the members on a core, or on the cores of its cluster (R356). The Caller of the cluster must be free for
a stream (R223), and the budgets hold for the members together. -/
def State.plansFor (s : State) (r : Nat) (x : Region) (n : Next) (g : Nat) : Option (List (Nat × Nat × Nat × Plan)) :=
  if !s.tileFits n.kind g then none
  else if !n.grouped x then (s.plan r g x.rcb n.foot).map fun p => n.members.map fun m => (m.1, m.2, g, p)
  else
    let k := g / 4
    let count := n.members.length
    let f := n.foot
    let total : Foot := ⟨count * f.waves, f.alloc, count * f.scr, f.tob, count * f.acc⟩
    if !(s.cluster k).groups || (n.caller && (s.engineGroup k).isSome) || !s.budgetOk r total then none
    else
      n.members.foldr (fun m l => l.bind fun ps =>
        (s.plan r (4 * k + m.1) x.rcb f).map fun p => (m.1, m.2, 4 * k + m.1, p) :: ps) (some [])

/-- A core of a die on which the region's next workgroup fits. -/
def State.fitsOn (s : State) (r : Nat) (x : Region) (die : Nat) : Bool :=
  match s.nextFor r x with
  | none => false
  | some n => (List.range 96).any fun c => (s.plansFor r x n (96 * die + c)).isSome

/-- The region is the one a die's scheduler offers now (R355): no region ahead of it that this pass has not yet placed
for has a workgroup that fits. A region for whose workgroups victims were chosen comes before them: the room that their save makes is
its (R360, R371: the saves complete at one time, and both its workgroups are placed before a saved one that fits too; DEDUCED,
assumption 78). -/
def State.offers (s : State) (die r : Nat) : Bool :=
  let fits := (s.linked die).filter fun d => match s.region? d with
    | some x => s.fitsOn d x die && !s.heldBack die d
    | none => false
  let due := fits.filter fun d => match s.region? d with
    | some x => x.urgent && x.due != 0
    | none => false
  if !due.isEmpty then decide (due.head? = some r) else
  let fresh := fits.filter fun d => !(s.die die).offered.contains d
  decide ((if fresh.isEmpty then fits else fresh).head? = some r)

/-- The scheduler of a die has placed for a region and moves on to the next (R355). The regions of its pass that do not
fit now are passed over: where no other fits, the pass is at its end. -/
def State.noteOffer (s : State) (die r : Nat) : State :=
  let d := s.die die
  let pass := if d.offered.contains r then [r] else r :: d.offered
  let more := (s.linked die).any fun q => !pass.contains q && match s.region? q with
    | some x => s.fitsOn q x die && !s.heldBack die q
    | none => false
  s.setDie die { d with offered := if more then pass else [] }

/-! ### Placement (R356) -/

/-- The grid's next workgroup, or cluster group with its Caller, placed by its plans (R223, R356). -/
def State.placeNew (s : State) (r : Nat) (x : Region) (n : Next) (ps : List (Nat × Nat × Nat × Plan)) : State :=
  let q := s.nextId
  let k := match ps with | p :: _ => p.2.2.1 / 4 | [] => 0
  let grouped := n.grouped x
  let first := s.nextId + 1
  let s1 := if grouped then
      { s with
        nextId := s.nextId + 1
        groups := s.groups.ins q ⟨r, k, ps.zipIdx.map fun e => (e.1.1, first + e.2), [], false, false⟩ }
    else s
  let s2 := ps.foldl (fun s p =>
    s.seatWg r x (x.nextWg + p.1) p.2.2.1 p.2.2.2 (if grouped then some q else none) p.1) s1
  let s3 := s2.updRegion r fun y => { y with nextWg := y.nextWg + ps.length }
  if n.caller then s3.seatCaller r x k q first (x.nextWg / (max 1 x.rcb.cgs)) else s3

/-- WORKGROUP_PLACE (R355, R356): the next workgroup of the grid is placed on a core, and the region runs. -/
def execWorkgroupPlace (rgn core : Nat) (s : State) : Host.Outcome State Fault Refusal :=
  match s.region? rgn with
  | none => .next s
  | some x =>
    let die := core / 96
    if !s.unplaced rgn x || s.heldBack die rgn || !s.offers die rgn then .next s
    else
      match s.nextFor rgn x with
      | none => .next s
      | some n =>
        if n.saved then .next s
        else
          match s.plansFor rgn x n core with
          | none => .next s
          | some ps =>
            let s1 := ((s.placeNew rgn x n ps).placedFor rgn).noteOffer die rgn
            .next (if x.st = .ready then (s1.updRegion rgn fun y => { y with st := .running }).writeState rgn else s1)

/-- PLACEMENT_STARVATION_HOLD (R355): a die's scheduler offers a region's next workgroup again. Where it fits no core the region is
passed over; once it has been for 2^20 scheduler clocks without interruption the die holds what is offered after it. -/
def execPlacementStarvationHold (die rgn : Nat) (s : State) : Host.Outcome State Fault Refusal :=
  match s.region? rgn with
  | none => .next s
  | some x =>
    let earlier := match (s.die die).hold with
      | some h => (match s.region? h with | some y => s.unplaced h y && !x.ahead y | none => false)
      | none => false
    let since (v : Option Nat) : State := s.updRegion rgn fun y => { y with passed := y.passed.set die v }
    if !(s.linked die).contains rgn || s.fitsOn rgn x die then .next (since none)
    else
      match x.passed.getD die none with
      | none => .next (since (some (s.schedClk die)))
      | some t =>
        if s.schedClk die < t + 1048576 || earlier then .next s
        else .next (s.setDie die { s.die die with hold := some rgn })

/-! ### Pre-emption (R360) -/

/-- What is saved together: a workgroup, or a cluster group (R360). -/
structure Unit3 where
  wgs : List Nat
  pri : Nat
  bytes : Nat
  slot : Nat
  deriving DecidableEq, Repr

/-- The lowest wave slot on a core that some workgroups hold. -/
def State.lowSlot (s : State) (g : Nat) (ws : List Nat) : Nat :=
  match (s.waves.filter fun e => ws.contains e.2.wg && decide (e.1 < callerKey) && e.1 / 128 == g).head? with
  | some (w, _) => w % 128
  | none => 128

/-- The workgroups that may be pre-empted with a resident workgroup, as one unit, with the bytes that are saved and the lowest
slot it holds on core g (R360). -/
def State.victimUnit (s : State) (g wid : Nat) (y : Wg) : Option Unit3 :=
  match s.region? y.rgn with
  | none => none
  | some x =>
    if x.rcb.npre || x.urgent || y.saved || y.saving then none
    else
      let ms := match y.group.bind fun q => s.groups.find q with
        | some z => z.members
        | none => [(0, wid)]
      let bytes := ms.map fun m => (x.rcb.footOf y.kind).recordSize (y.group.isSome && m.1 == 0)
      some ⟨ms.map Prod.snd, x.rcb.pri, bytes.sum, s.lowSlot g (ms.map Prod.snd)⟩

/-- The sublists of a list. -/
def sublists {α : Type} : List α → List (List α)
  | [] => [[]]
  | x :: l => sublists l ++ (sublists l).map fun m => x :: m

/-- The state as it would be with some workgroups gone from their cores. -/
def State.without (s : State) (ws : List Nat) : State :=
  { s with
    wgs := s.wgs.map fun e => if ws.contains e.1 then (e.1, { e.2 with saved := true }) else e
    waves := s.waves.filter fun e => !ws.contains e.2.wg }

/-- A choice of victims: the workgroups in it, its keys and its place (R360). -/
structure Choice where
  wgs : List Nat
  keys : List Nat
  deriving DecidableEq, Repr

/-- A list of keys precedes another. -/
def keysBefore : List Nat → List Nat → Bool
  | x :: xs, y :: ys => decide (x < y) || (x == y && keysBefore xs ys)
  | _, _ => false

/-- The victims that a core or cluster offers. -/
def State.unitsAt (s : State) (x : Region) (n : Next) (g : Nat) : List Unit3 :=
  let cores := if n.grouped x then n.members.map fun m => 4 * (g / 4) + m.1 else [g]
  distinct ((s.wgs.filter fun e => cores.contains e.2.core).filterMap fun e => s.victimUnit g e.1 e.2)

/-- The choices of a core: the sets whose save lets the workgroup fit, with their keys in the order of R360. -/
def State.choicesAt (s : State) (r : Nat) (x : Region) (n : Next) (g : Nat) : List Choice :=
  ((sublists (s.unitsAt x n g)).filter fun us => !us.isEmpty).filterMap fun us =>
    let ws := distinct (us.flatMap Unit3.wgs)
    if ((s.without ws).plansFor r x n g).isSome then
      some ⟨ws, [ws.length, us.foldl (fun a u => max a u.pri) 0, (us.map Unit3.bytes).sum, g,
        us.foldl (fun a u => min a u.slot) 128]⟩
    else none

/-! ### Save (R361, R244) -/

/-- An engine of a group lets the save go on: its queue is empty, or it is halted (R244). -/
def Engine.settled (e : Engine) : Bool := e.queue.isEmpty || e.mestat.getLsbD 0

/-- What a save writes of every lane of a wave: its pending results (R35, R361). -/
def State.settleWave (s : State) (w : Nat) : Option State :=
  match s.waves.find w with
  | none => some s
  | some x => (List.range x.threads.length).foldl (fun r l => r.bind fun s1 => s1.returnAll w l) (some s)

/-- A wave as it is saved: its reservations are cleared (R162), and the Caller's waits are left unissued (R244). -/
def Wave.forSave (x : Wave) : Wave :=
  let undo (t : Thread) : Thread := match t.st with
    | .blocked _ => if x.kind = .caller then { t with st := .running } else t
    | _ => t
  ({ x with fetched := none, retain := [none, none, none]
            threads := x.threads.map fun t => { undo t with resv := none } } : Wave).fixTurn

/-- Byte i of a record that was given a free value (R361): no rule gives its layout. -/
def recordByte (v i : Nat) : Byte := BitVec.ofNat 8 (v >>> (8 * i))

/-- Where the save record of a workgroup stands in memory, piece by piece: the places of those whose page is there, with their
offsets and sizes (R361). -/
def State.recordPieces (s : State) (x : Region) (y : Wg) : List (Nat × Nat × Nat) :=
  let n := match y.kind, y.entry with
    | .launch, _ => y.index.toNat
    | _, e => x.rcb.nwg + e.getD 0
  let va := (x.rcb.saveb.toNat + n * x.rcb.savestr) % 2 ^ 64
  let size := (x.rcb.footOf y.kind).recordSize (y.group.isSome && y.member == 0)
  (framePieces va size).filterMap fun p =>
    (s.placeWr x.fn x.rcb.asr p.1).map fun key => (key, (p.1 + 2 ^ 64 - va) % 2 ^ 64, p.2)

/-- The bytes of a record written: they are free (R361). -/
def State.writeRecord (s : State) (x : Region) (y : Wg) (image : Nat) : State :=
  (s.recordPieces x y).foldl (fun s p => s.baseWrite p.1 ((List.range p.2.2).map fun i => recordByte image (p.2.1 + i))) s

/-- The record holds what the device has written (R361). -/
def State.recordKept (s : State) (x : Region) (y : Wg) (image : Nat) : Bool :=
  (s.recordPieces x y).all fun p => s.homeBytes none p.1 p.2.2 == (List.range p.2.2).map fun i => recordByte image (p.2.1 + i)

/-- One workgroup leaves its core for its record, and its forwarding entry is made (R361, R362). -/
def State.saveOne (s : State) (wid : Nat) (y : Wg) (caller : Option Wave) (engines : List (Nat × Engine)) (migrate : Bool) :
    State :=
  let mine := s.waves.filter fun e => e.2.wg == wid && decide (e.2.kind ≠ .caller)
  let (image, s0) := (mine.foldl (fun s e => s.owe e.1) (s.writeBackAll y.core)).fresh
  let rec_ : Saved := { wg := wid, waves := mine.map fun e => (e.1, e.2.forSave), caller := caller.map Wave.forSave
                        engines := engines, order := s0.nextId, image := image, migrate := migrate }
  let c := s0.core y.core
  let entry : FwdWg := ⟨wid, s0.inFlight wid, false⟩
  let s1 := s0.setCore y.core { c with fwd := c.fwd.filter (fun f => f.wg != wid) ++ [entry] }
  let s2 := { s1 with
    nextId := s1.nextId + 1
    waves := s1.waves.filter fun e => !(e.2.wg == wid && decide (e.2.kind ≠ WKind.caller))
    saved := s1.saved.ins wid rec_
    wgs := s1.wgs.upd wid fun z => { z with saved := true, saving := false } }
  match s2.region? y.rgn with
  | some x => s2.writeRecord x y image
  | none => s2

/-- The pins of a group are released, and its bound handles that did not fault are to be fetched again (R244). -/
def Handle.unpinned (h : Handle) : Handle := { h with rows := [], scales := [] }

/-- Some workgroups are to be saved: their waves stop, and the cores of those that were not asked before wake (R188, R361). -/
def State.markSaving (s : State) (ws : List Nat) : State :=
  let mark (e : Nat × Wg) : Nat × Wg := if ws.contains e.1 then (e.1, { e.2 with saving := true }) else e
  let new := ws.filter fun m => match s.wgs.find m with | some z => !z.saving | none => false
  let s1 := { s with wgs := s.wgs.map mark }
  (s1.waves.filter fun e => new.contains e.2.wg).foldl (fun s (e : Nat × Wave) => s.wakeCore (coreOfWave e.1) .pre) s1

/-- A cluster group, or a workgroup on its own, is saved once everything of it has settled; none before. -/
def State.saveGroup (s : State) (wid : Nat) (y : Wg) (migrate : Bool) : Option State :=
  let ms := match y.group.bind fun q => s.groups.find q with
    | some g => g.members.map Prod.snd
    | none => [wid]
  let mine (e : Nat × Wave) : Bool := ms.contains e.2.wg
  let full := ms.any fun m => match s.wgs.find m with
    | some z => decide (16 ≤ ((s.core z.core).fwd.filter fun f => f.wg != m).length)
    | none => false
  let gr := y.group.bind fun q => (s.groups.find q).map fun g => (q, g)
  let busy := match gr with
    | some (_, g) => g.started && g.members.any fun m => !(s.core (4 * g.cluster + m.1)).engine.settled
    | none => false
  if full || busy then none
  else
    ((s.waves.filter mine).foldl (fun r e => r.bind fun s1 => s1.settleWave e.1) (some s)).map fun s1 =>
      let caller := gr.bind fun e => if e.2.caller then s1.waves.find (callerKey + e.2.cluster) else none
      let engines := match gr with
        | some (_, g) => if g.started then g.members.map fun m => (m.1, (s1.core (4 * g.cluster + m.1)).engine) else []
        | none => []
      let s2 := (ms.zipIdx).foldl (fun s e => match s.wgs.find e.1 with
        | some z => s.saveOne e.1 z (if e.2 = 0 then caller else none) (if e.2 = 0 then engines else []) migrate
        | none => s) s1
      match gr with
      | none => s2
      | some (q, g) =>
        let s3 := if g.started then s2.clearEngines g.cluster (g.members.map Prod.fst) else s2
        { s3 with
          waves := if g.caller then s3.waves.del (callerKey + g.cluster) else s3.waves
          groups := s3.groups.upd q fun z => { z with handles := z.handles.map fun e => (e.1, e.2.unpinned) } }

/-- WORKGROUP_SAVE (R361): a workgroup that is to be saved, or that the streamer migrates, leaves its core with its group
once its engine commands are done. Until then its waves stand at an instruction boundary. The request wakes its cores (R188). -/
def execWorkgroupSave (wg : Nat) (migrate : Bool) (s : State) : Host.Outcome State Fault Refusal :=
  match s.wgs.find wg with
  | none => .next s
  | some y =>
    let npre := match s.region? y.rgn with | some x => x.rcb.npre | none => false
    if y.saved || !(y.saving || (migrate && !npre)) then .next s
    else
      let ms := match y.group.bind fun q => s.groups.find q with
        | some g => g.members.map Prod.snd
        | none => [wg]
      let s1 := s.markSaving ms
      .next ((s1.saveGroup wg y migrate).getD s1)

/-! ### Restoration and migration (R361, R362) -/

/-- A blocked thread of a restored wave looks again at what it waits for, except in a rejoin, or in a `wait`, which returns with
its phase, or where its facet set still resolves. -/
def State.recheck (s : State) (t : Thread) : Thread :=
  match t.st with
  | .blocked (.queue _) | .blocked (.pixel _ _) | .blocked .engines | .blocked .decision
  | .blocked .take => { t with st := .running }
  | .blocked (.commit i _ _) => if (s.sets.getD i .fresh).st = .resolving then t else { t with st := .running }
  | _ => t

/-- A saved wave takes a slot of its new core, and its copies and watches follow it. -/
def State.reseat (s : State) (g : Nat) (old : Nat) (x : Wave) (p : Spot) : State :=
  let w := 128 * g + p.slot
  let y := ({ x with row := p.row, charged := s.clkOf g, threads := x.threads.map s.recheck } : Wave).fixTurn
  let s1 := s.seat g p.slot y
  { s1 with
    copies := s1.copies.map fun o => if o.w = old && s.copies.contains o && o.wg == x.wg then { o with w := w } else o
    watches := s1.watches.map fun h => match h.by_ with
      | some (v, l) => if v = old && s.watches.contains h then { h with by_ := some (w, l) } else h
      | none => h }

/-- The k-th word of a free number. -/
def freeWord (v k : Nat) : Word := BitVec.ofNat 32 (v >>> (32 * k))

/-- The k-th pair of words of a free number. -/
def freePair (v k : Nat) : DWord := freeWord v (2 * k + 1) ++ freeWord v (2 * k)

/-- Bit k of a free number. -/
def freeBit (v k : Nat) : Bool := v.testBit k

/-- A thread whose record was changed, with n registers: its registers, predicates, PC, return entries, CSRs, handler mark and
standing are free (R361), within what its fields hold. -/
def Thread.undef (t : Thread) (n v : Nat) : Thread :=
  let pcAt (k : Nat) : DWord := freePair v k &&& ~~~3
  { t with
    v := putWords [] 0 ((List.range n).map (freeWord v))
    preds := (freeWord v 1024).setWidth 8
    st := match (freeWord v 1025).toNat % 3 with | 0 => t.st | 1 => .running | _ => .exited
    mark := freeBit v (32 * 1026)
    spl := freeBit v (32 * 1026 + 1)
    lav := freeBit v (32 * 1026 + 2)
    sdep := (freeWord v 1027).toNat % 9
    ecause := freeWord v 1028 &&& 0xFFFF
    cychi := freeWord v 1029
    pc := pcAt 520
    epc := pcAt 521
    stack := (List.range ((freeWord v 1030).toNat % 5)).map fun i => pcAt (522 + i)
    spillb := freePair v 526 &&& ~~~7
    spilll := freePair v 527 &&& ~~~7
    spillp := freePair v 528 &&& ~~~7 }

/-- A wave of a workgroup whose record was changed: what the record holds of it is undefined (R361), so it is free. -/
def State.undefWave (s : State) (x : Wave) : State × Wave :=
  let (v, s1) := s.fresh
  let (u, s2) := s1.fresh
  let n := if x.kind = .caller then 128 else x.alloc
  let mask (k : Nat) : Word := freeWord u k
  let some_ {α : Type} (k m : Nat) (g : Nat → α) : List (Nat × α) :=
    ((List.range m).filter fun i => freeBit u (32 * k + i)).map fun i => (i, g i)
  (s2, { x with
    threads := x.threads.mapIdx fun l t => t.undef n (v >>> (65536 * l))
    s := putWords [] 0 ((List.range 128).map (freeWord u))
    k := putWords [] 0 ((List.range 16).map fun i => freeWord u (128 + i))
    joins := some_ 144 16 fun i => ⟨mask (160 + i), freePair u (96 + i) &&& ~~~3, mask (160 + i) &&& mask (176 + i)⟩
    syncs := (some_ 145 32 fun i => (⟨mask (256 + i), mask (256 + i) &&& mask (288 + i)⟩ : SyncInst)).map Prod.snd
    arrs := (some_ 146 16 fun i =>
      (⟨⟨x.wg, (mask (320 + i)).toNat % 2 ^ 18 / 8 * 8⟩, mask (336 + i), mask (336 + i) &&& mask (352 + i)⟩ : ArrInst)).map Prod.snd
    fairt := mask 147 &&& 0xFFFF
    feedp := (List.range 4).map fun i => mask (148 + i) &&& 0x3FFFFC
    dqPos := (mask 152).toNat % 2 ^ 16 })

/-- The handles of a group whose record was changed (R244, R361): what the record holds of them is free. -/
def Handle.undef (h : Handle) (v : Nat) : Handle :=
  { h with base := freePair v 0, pitch := (freeWord v 2).toNat, slot := (freeWord v 3).toNat % 8, bound := freeBit v 128,
           faulted := freeBit v 129 }

/-- An engine of a group whose record was changed (R244, R361): `mestat`, `mecnt` and whether its commands are still queued are
free. -/
def Engine.undef (e : Engine) (v : Nat) : Engine :=
  { e with
    mestat := freePair v 0 &&& 0xFFFF007F00FFFFE1
    issued := freeWord v 2
    done := freeWord v 3
    queue := if freeBit v 128 then e.queue else [] }

/-- The workgroup whose record was changed: its windows and its tiles are undefined too (R361). -/
def State.undefWg (s : State) (wid : Nat) : State :=
  match s.wgs.find wid with
  | none => s
  | some y =>
    let (v, s1) := s.fresh
    let (u, s2) := s1.fresh
    let bytes (n off : Nat) : NMap Byte :=
      (List.range n).filterMap fun i => let b := recordByte v (off + i); if b = 0 then none else some (i, b)
    let tile (n : Nat) : Tile := ⟨putWords [] 0 ((List.range 16384).map fun i => freeWord u (16384 * n + i)), false⟩
    { s2 with wgs := s2.wgs.ins wid { y with
        scr := bytes y.scrSize 0
        tob := bytes (131072 * y.tobBanks) y.scrSize
        tiles := (List.range y.accN).map fun n => (n, tile n) } }

/-- Another agent has changed the record of a saved workgroup (R361). -/
def State.recordBad (s : State) (wid : Nat) (z : Saved) : Bool :=
  match s.wgs.find wid with
  | none => false
  | some y => match s.region? y.rgn with
    | none => false
    | some x => !s.recordKept x y z.image

/-- What the device restores of a workgroup (R361): what it has saved, exactly, or, where another agent has changed the record,
an undefined state of the workgroup. -/
def State.readRecord (s : State) (wid : Nat) (z : Saved) : State × List (Nat × Wave) :=
  if s.recordBad wid z then
    z.waves.foldl (fun r e => let (s1, w) := r.1.undefWave e.2; (s1, r.2 ++ [(e.1, w)])) (s.undefWg wid, [])
  else (s, z.waves)

/-- One saved workgroup placed by its plan: every field is brought back (R15, R361), and its forwarding entries are told
(R362). -/
def State.restoreOne (s : State) (wid g : Nat) (p : Plan) : State :=
  match s.saved.find wid with
  | none => s
  | some z =>
    let (sr, waves) := s.readRecord wid z
    let s0 := sr.setRoles g p.scrn p.tobn
    let put (y : Wg) : Wg :=
      { y with core := g, saved := false, scrBase := p.scrBase, tobBank := p.tobBank, accBase := p.accBase }
    let tell (e : Nat × Core) : Nat × Core :=
      (e.1, { e.2 with fwd := e.2.fwd.map fun f => if f.wg = wid then { f with restored := true } else f })
    let s1 := { s0 with wgs := s0.wgs.upd wid put, saved := s0.saved.del wid, cores := s0.cores.map tell }
    (waves.zip p.spots).foldl (fun s e => s.reseat g e.1.1 e.1.2 e.2) s1

/-- What the record of member 0 holds of its group, once another agent has changed it: the Caller, the engines and the handles are
free (R244, R361). -/
def State.undefGroup (s : State) (q : Nat) (z : Saved) : State × Saved :=
  let (v, s1) := s.fresh
  let (s2, caller) := match z.caller with
    | some x => (let (t, y) := s1.undefWave x; (t, some y))
    | none => (s1, none)
  let handles (g : Group) : Group := { g with handles := g.handles.map fun e => (e.1, e.2.undef (v >>> (256 * e.1))) }
  ({ s2 with groups := s2.groups.upd q handles },
   { z with caller := caller, engines := z.engines.map fun e => (e.1, e.2.undef (v >>> (4096 + 256 * e.1))) })

/-- The Caller and the engines of a restored group (R244), undefined where the record was changed (R361). -/
def State.restoreCaller (s : State) (q k : Nat) (z : Option Saved) (bad : Bool) : State :=
  let s0 := { s with groups := s.groups.upd q fun g => { g with cluster := k } }
  match z with
  | none => s0
  | some z =>
    let (s1, y) := if bad then s0.undefGroup q z else (s0, z)
    let s2 := y.engines.foldl (fun s e => s.setCore (4 * k + e.1) { s.core (4 * k + e.1) with engine := e.2 }) s1
    match y.caller with
    | some x => { s2 with waves := s2.waves.ins (callerKey + k) { x with threads := x.threads.map s2.recheck } }
    | none => s2

/-- The homes of the pages a workgroup lists are to move to its new cluster (R362, R283). -/
def State.askHomes (s : State) (x : Region) (y : Wg) (g : Nat) : State :=
  (List.range x.rcb.hln).foldl (fun s i =>
    match s.devRead x.fn x.rcb.asr ((x.rcb.hlb.toNat + 128 * y.index.toNat + 8 * i) % 2 ^ 64) 8 none with
    | none => s
    | some bs =>
      match s.place x.fn x.rcb.asr (leBytes bs) with
      | some (key, _) => s.askHome (key / 4096) (64 * (g / 96) + 64 * (g / 4 % 24) / 24)
      | none => s) s

/-- WORKGROUP_RESTORE (R361, R362): the saved workgroup that its region places first is placed again, with its group. One that
the streamer migrates, or that comes to another core, takes its listed pages with it. -/
def execWorkgroupRestore (wg core : Nat) (s : State) : Host.Outcome State Fault Refusal :=
  match s.wgs.find wg with
  | none => .next s
  | some y =>
    match s.region? y.rgn with
    | none => .next s
    | some x =>
      let die := core / 96
      match s.nextFor y.rgn x with
      | none => .next s
      | some n =>
        if !n.saved || !(n.members.any fun m => m.2 == wg) || !s.unplaced y.rgn x || s.heldBack die y.rgn ||
            !s.offers die y.rgn then .next s
        else
          match s.plansFor y.rgn x n core with
          | none => .next s
          | some ps =>
            let z := n.members.findSome? fun m => (s.saved.find m.2).bind fun v => if v.engines.isEmpty then none else some v
            let bad := match z with | some v => s.recordBad v.wg v | none => false
            let s1 := ps.foldl (fun s p => s.restoreOne p.2.1 p.2.2.1 p.2.2.2) s
            let s2 := match n.group with
              | some q => s1.restoreCaller q (core / 4) z bad
              | none => s1
            let moved := ps.filter fun p => match s.wgs.find p.2.1, s.saved.find p.2.1 with
              | some v, some r => r.migrate || v.core != p.2.2.1
              | _, _ => false
            let s3 := moved.foldl (fun s p => match s.wgs.find p.2.1 with
              | some v => s.askHomes x v p.2.2.1
              | none => s) s2
            .next (((s3.placedFor y.rgn).noteOffer die y.rgn).linkRegion y.rgn).countFwd

/-- MIGRATION_FORWARD (R362): operations towards an old window have reached the workgroup, in its record or on its new core; its
entry is freed once the workgroup is restored and none is in flight. -/
def execMigrationForward (wg : Nat) (s : State) : Host.Outcome State Fault Refusal :=
  if (s.wgs.find wg).isNone && !s.cores.any fun e => e.2.fwd.any fun f => f.wg == wg then .next s else .next s.countFwd

/-! ### The choice of victims (R360) -/

/-- The state in which as many of a region's next workgroups as fit have been placed, each on the first core that it fits. -/
def State.placedAhead (s : State) (r : Nat) : Nat → State
  | 0 => s
  | n + 1 =>
    match s.region? r with
    | none => s
    | some x =>
      match if s.unplaced r x then s.nextFor r x else none with
      | none => s
      | some m =>
        match (List.range 192).findSome? fun g => s.plansFor r x m g with
        | none => s
        | some ps =>
          let s1 := if m.saved then ps.foldl (fun s p => s.restoreOne p.2.1 p.2.2.1 p.2.2.2) s else s.placeNew r x m ps
          s1.placedAhead r n

/-- The workgroups that are being saved. -/
def State.beingSaved (s : State) : List Nat := (s.wgs.filter fun e => e.2.saving && !e.2.saved).map Prod.fst

/-- PREEMPT_DECISION (R360): the next workgroup of a region of the deadline class, or of one that is raised, fits no core:
the victims of the first choice are to be saved, and what they leave is the region's (R371). Those of its workgroups that fit, now or once the saves under way are done, need
none: what is chosen is for the first that does not (R371). -/
def execPreemptDecision (rgn : Nat) (s : State) : Host.Outcome State Fault Refusal :=
  match s.region? rgn with
  | none => .next s
  | some x =>
    let after := if x.urgent then (s.without s.beingSaved).placedAhead rgn 24576 else s
    match if x.urgent && s.unplaced rgn x then after.region? rgn else none with
    | none => .next s
    | some y =>
      match if after.unplaced rgn y then after.nextFor rgn y else none with
      | none => .next s
      | some n =>
        let cores := [0, 1].flatMap fun d => if (s.clustersFor rgn d).isEmpty then [] else
          (List.range 96).map fun c => 96 * d + c
        let best := (cores.flatMap fun g => after.choicesAt rgn y n g).foldl
          (fun m c => match m with
            | none => some c
            | some b => if keysBefore c.keys b.keys then some c else m) (none : Option Choice)
        match best with
        | none => .next s
        | some c => .next ((s.updRegion rgn fun z => { z with due := z.due + 1 }).markSaving c.wgs)

/-! ### Time (R365) -/

/-- TIMEU of a region and of its ancestors grows; of a region without budgets of its own only that of its ancestors (R349, R365). -/
def State.addTime (s : State) (r n : Nat) : State :=
  (s.payers r).foldl (fun s d =>
    let s1 := s.updRegion d fun y => { y with timeu := y.timeu + n }
    match s1.region? d with
    | some y => s1.putNum (y.rcbKey + 0xD8) 8 y.timeu
    | none => s1) s

/-- TIME_QUOTA_CHARGE (R365): a core adds the wave-clocks it has counted; a region whose TIMEU has reached its TIMEQ is
suspended with its subtree, and event 0x0F, subcode 0x02, goes to the tenant root. -/
def execTimeQuotaCharge (core : Nat) (s : State) : Host.Outcome State Fault Refusal :=
  let s1 := (s.waves.filter fun e => decide (coreOfWave e.1 = some core)).foldl (fun s e => s.owe e.1) s
  let c := s1.core core
  let s2 := c.owed.foldl (fun s e => s.addTime e.1 e.2) (s1.setCore core { c with owed := [] })
  let due := s2.regions.filter fun e =>
    decide (e.2.st = .waiting ∨ e.2.st = .ready ∨ e.2.st = .running) && e.2.rcb.ownb &&
      e.2.rcb.timeq != 0 && decide (e.2.rcb.timeq ≤ e.2.timeu)
  .next (due.foldl (fun s e => s.quotaEvent e.1 2) s2)

end Sys2Proof.Machine
end

