-- ==== Sys2Proof/Machine/Facets.lean ====
section
/-! DEFINITION. `commit`, `squash`, publication and retirement of facet sets, and the present unit
(19_facets_versioned_memory.md R325, R327 to R330, R334 to R338, 21_regions_scheduling.md R363). -/

namespace Sys2Proof.Machine

open Sys2Proof

/-! ### Commit and squash (R327 to R330) -/

/-- The facet or the mask of `commit` and `squash`: X[7:0] in the M form, B in the S form (R327). -/
def Ctx.facetArg (c : Ctx) (lane : Nat) : Nat := if c.e.f.isS then c.b lane else c.e.f.x.toNat % 256

/-- What the checks 1 and 2 of R328 come to: a fault, status 1, or the set. -/
inductive SetCheck where
  | fault (f : Flt)
  | closed
  | ok (i : Nat) (x : FSet)
  deriving DecidableEq, Repr

/-- The checks 1 and 2 of R328 on a handle word. -/
def State.handleCheck (s : State) (rgn h : Nat) : SetCheck :=
  let i := h % 4
  let x := s.sets.getD i .fresh
  if x.used && s.rootOf rgn != x.root then .fault { code := 5, sub := 0x0D }
  else if h / 2 ^ 16 ≠ x.gen.toNat ∨ x.st ≠ .opened then .closed
  else .ok i x

/-- A commit begins (R330): the set is RESOLVING from here on, and every other facet is squashed. -/
def State.beginCommit (s : State) (i w : Nat) (x : FSet) : State :=
  (s.updSet i fun y => { y with st := .resolving, winner := w, bound := s.nextId }).squashFacets i (x.allMask - 2 ^ w)

/-- `commit` of one lane (R328, R330). -/
def State.commitLane (s : State) (c : Ctx) (lane : Nat) : Lane :=
  let w := c.facetArg lane
  match s.handleCheck c.x.rgn (c.a lane) with
  | .fault f => .fault s f
  | .closed => .ok s [1]
  | .ok i x =>
    if w = 0 ∨ 7 < w then .fault s { code := 0x0E, sub := 6 }
    else if x.facets.length < w ∨ x.isSquashed w then .ok s [1]
    else
      let s1 := s.beginCommit i w x
      match s1.thread? c.w lane with
      | some _ => .block s1 (.commit i c.e.f.d c.npc)
      | none => .gone s1

/-- `commit` (R327 to R330). -/
def execCommit (f : Frame) (s : State) : Host.Outcome State Fault Refusal :=
  perLane (.commit f) s fun c s1 l => s1.commitLane c l

/-- `squash` of one lane (R328, R329). -/
def State.squashLane (s : State) (c : Ctx) (lane : Nat) : Lane :=
  let m := c.facetArg lane
  match s.handleCheck c.x.rgn (c.a lane) with
  | .fault f => .fault s f
  | .closed => .ok s [1]
  | .ok i x =>
    if m % 2 = 1 ∨ 2 ^ (x.facets.length + 1) ≤ m then .fault s { code := 0x0E, sub := 6 }
    else
      let s1 := s.squashFacets i m
      match s1.thread? c.w lane with
      | some _ => .ok s1 [0]
      | none => .gone s1

/-- `squash` (R327 to R329). -/
def execSquash (f : Frame) (s : State) : Host.Outcome State Fault Refusal :=
  perLane (.squash f) s fun c s1 l => s1.squashLane c l

/-- The regions of a set's winner: its facet region, and the children that are bound to the facet (R349). -/
def State.winnerRegions (s : State) (x : FSet) : List Nat :=
  match x.facets[x.winner - 1]? with
  | some r => s.subtree r
  | none => []

/-- What the winner's threads issued before the commit began is performed (R330); none while some of it cannot be. -/
def State.drainWinner (s : State) (x : FSet) : Option State :=
  let rs := s.winnerRegions x
  let todo := (s.waves.filter fun e => rs.contains e.2.rgn).flatMap fun e =>
    (e.2.pending.filter fun p => decide (p.2.id < x.bound)).map fun p => (e.1, p.1, p.2.id)
  todo.foldl (fun r e => r.bind fun s1 => s1.performUpTo e.1 e.2.1 e.2.2) (some s)

/-- An engine has a command that was issued before the commit began. -/
def Engine.before (e : Engine) (bound : Nat) : Bool := e.queue.any fun q => decide (q.id < bound)

/-- Engine work of the winner issued before the commit began is still to be performed (R330): copies, collectives, engine
commands, those of its saved groups too, and tile fetches. -/
def State.commitBusy (s : State) (x : FSet) : Bool :=
  let rs := s.winnerRegions x
  let wgs := (s.wgs.filter fun e => rs.contains e.2.rgn).map Prod.fst
  (s.copies.any fun o => rs.contains o.rgn && decide (o.id < x.bound)) ||
  (s.colls.any fun o => rs.contains o.rgn && decide (o.id < x.bound)) ||
  (s.saved.any fun e => wgs.contains e.1 && e.2.engines.any fun m => m.2.before x.bound) ||
  s.groups.any fun e => rs.contains e.2.rgn && e.2.started &&
    ((!s.groupSaved e.2 && e.2.members.any fun m => (s.core (4 * e.2.cluster + m.1)).engine.before x.bound) ||
     e.2.handles.any fun h => h.2.bound && !h.2.faulted && decide (h.2.inst < x.bound) && decide (h.2.rows.length < 128))

/-- A committing thread receives status 0 and goes on (R330). -/
def Thread.committed (i : Nat) (t : Thread) : Option (Operand × Thread) :=
  match t.st with
  | .blocked (.commit j d npc) => if j = i then some (d, { t.countWindow with st := .running, pc := npc }) else none
  | _ => none

/-- The committing threads of a wave receive status 0. -/
def Wave.committed (x : Wave) (i : Nat) : Wave :=
  let step (y : Wave) (l : Nat) : Wave := match (y.threads[l]?).bind (Thread.committed i) with
    | some (d, t) => ({ y with threads := y.threads.set l t } : Wave).putDst l d [0]
    | none => y
  ((List.range x.threads.length).foldl step x).fixTurn

/-- Some thread of a wave is committing the set. -/
def Wave.commits (x : Wave) (i : Nat) : Bool := x.threads.any fun t => (t.committed i).isSome

/-- The held presents of a facet's regions are released (R330, R334). -/
def State.releasePresents (s : State) (rs : List Nat) : State :=
  let go (e : PEntry) : PEntry := if rs.contains e.rgn then { e with released := true } else e
  { s with presents := s.presents.map fun q => { q with entries := q.entries.map go } }

/-- COMMIT_PUBLISH (R330): once what the winner issued before the commit began is performed, as a release at `.dev`, the resolution
is published in one step, and the counters of its operations that were held are raised. Where that left the set without a facet, it has resolved with no winner (R326, R329). -/
def execCommitPublish (set : Nat) (s : State) : Host.Outcome State Fault Refusal :=
  match (s.sets[set]?).filter fun x => decide (x.st = .resolving) with
  | none => .next s
  | some x =>
    match s.drainWinner x with
    | none => .next s
    | some s0 =>
      if (s0.sets.getD set .fresh).st ≠ .resolving || s0.commitBusy x then .next s0
      else
        let rs := s0.winnerRegions x
        let won := s0.versions.filter fun v => v.set == set && v.facet == x.winner
        let old := won.foldl (fun s v => s.noteConst (64 * v.sector) 64 none) (rs.foldl State.pushRegion s0)
        let s1 := (old.updSet set fun y => { y with st := .retiring }).clearWindow set
        let s2 := ((s1.ctrFlush rs).releasePresents rs).raiseResc set
        let woken := s2.waves.filter fun e => e.2.commits set
        let s3 := { s2 with
          waves := s2.waves.map fun e => (e.1, if e.2.commits set then e.2.committed set else e.2)
          saved := s2.saved.map fun e => (e.1, e.2.mapWaves fun y => if y.commits set then y.committed set else y) }
        .next (woken.foldl (fun s e => s.wakeCore (coreOfWave e.1) .sync) s3)

/-- A tag that is not of set i. -/
def notOf (i : Nat) (tag : Option (BitVec 5)) : Option (BitVec 5) := tag.filter fun g => tagSet g != i

/-- What waits with a tag of a set that is FREE again acts on base: the tag leaves the accesses, operations, descriptors, sweeps,
deliveries and entries that carry it (R317, R325). -/
def State.untag (s : State) (i : Nat) : State :=
  let thread (t : Thread) : Thread := { t with accs := t.accs.map fun a => { a with tag := notOf i a.tag } }
  let sweep (x : Sweep) : Sweep := { x with tag := notOf i x.tag }
  let die (d : Die) : Die := { d with
    bins := d.bins.map fun b => { b with tag := notOf i b.tag }
    engines := d.engines.map fun e => (e.1, sweep e.2)
    sweepQ := d.sweepQ.map sweep }
  let queue (q : GQueue) : GQueue := { q with slots := q.slots.map fun t => { t with tag := notOf i t.tag } }
  let cluster (c : Cluster) : Cluster := { c with
    queues := c.queues.map fun e => (e.1, queue e.2)
    take := c.take.map fun d => { d with tag := notOf i d.tag } }
  { s with
    waves := s.waves.map fun e => (e.1, { e.2 with threads := e.2.threads.map thread })
    copies := s.copies.map fun o => { o with tag := notOf i o.tag }
    watches := s.watches.map fun w => { w with tag := notOf i w.tag }
    deliveries := s.deliveries.map fun d => { d with tag := notOf i d.tag }
    clusters := s.clusters.map fun e => (e.1, cluster e.2)
    dies := s.dies.map die }

/-- RETIRE_WALK (R320, R325): the winner's versions become base, every other version is freed, and the set is FREE. -/
def execRetireWalk (set : Nat) (s : State) : Host.Outcome State Fault Refusal :=
  match s.sets[set]? with
  | none => .next s
  | some x =>
    if x.st ≠ .retiring then .next s
    else
      let mine (v : Version) : Bool := v.set == set
      let s1 := (s.versions.filter fun v => mine v && v.facet == x.winner).foldl
        (fun s v => (({ s with mem := putBytes s.mem (64 * v.sector) (sectorBytes v.data) } : State).setPoison v.sector
          v.poison).touch v.sector true) s
      let s2 := s1.updSet set fun y => { y with st := .free, frames := [] }
      .next (({ s2 with versions := s2.versions.filter fun v => !mine v } : State).untag set)

/-! ### Presents (R334 to R336) -/

/-- The size of a pixel (R336). -/
def frameCell (d : BitVec 512) : Nat := if dfield d 135 128 = 3 then 8 else 4

/-- A frame descriptor is ill-formed (R336). -/
def frameBad (d : BitVec 512) : Bool :=
  let h := dfield d 127 112
  let w := dfield d 111 96
  let p := dfield d 95 64
  let fmt := dfield d 135 128
  dfield d 383 136 != 0 || fmt == 0 || decide (4 < fmt) || h == 0 || decide (8192 < h) || w == 0 || decide (8192 < w) ||
  p % 64 != 0 || decide (p < w * frameCell d) || dfield d 63 0 % 256 != 0 || dfield d 511 448 % 8 != 0

/-- The queue is granted to the region (R335). -/
def State.granted (s : State) (rgn q : Nat) : Bool :=
  match s.region? rgn with
  | some x => decide (q ≤ 3) && x.rcb.pq.getLsbD q
  | none => false

/-- An entry that a present appends is released at once, unless its region is a facet whose set has not resolved
(R334). -/
def State.presentFree (s : State) (rgn : Nat) : Bool :=
  match facetOf (s.liveTag rgn) with
  | some (i, _) => decide ((s.sets.getD i .fresh).st = .retiring)
  | none => true

/-- The translation of DONE when the present reads its descriptor (R336). -/
def State.doneCheck (s : State) (c : Ctx) (d : BitVec 512) : Except Lane State :=
  let va := dfield d 511 448
  if va = 0 then .ok s
  else
    match s.translate (c.x.agent c.w) va .wr clsHome with
    | .ok s1 _ => .ok s1
    | .fault s1 f => .error (.fault s1 f)
    | .quota s1 r => .error (.quota s1 r)
    | .wait s1 => .error (.stay s1)

/-- `present` of one lane (R335). -/
def State.presentLane (s : State) (c : Ctx) (lane : Nat) : Lane :=
  let q := c.a lane
  if !s.granted c.x.rgn q then .fault s { code := 5, sub := 0x0F, det0 := q }
  else
    let va := addrSum (c.b lane 2) 0 1 c.offX 64
    match s.readDesc c lane va 64 with
    | .stop r => r
    | .ok s1 d =>
      if frameBad d then .fault s1 { code := 5, sub := 0x0E, addr := some va }
      else
        match s1.doneCheck c d with
        | .error r => r
        | .ok s2 =>
          if 16 ≤ (s2.presents.getD q .fresh).entries.length then .ok s2 [1]
          else
            match s2.releaseAt c.w lane .dev with
            | none => .stay s
            | some s3 =>
              let e : PEntry := ⟨d, c.x.rgn, s3.liveTag c.x.rgn, s3.presentFree c.x.rgn⟩
              let put (p : PQueue) : PQueue := { p with entries := p.entries ++ [e] }
              .ok { s3 with presents := s3.presents.modify q put } [0]

/-- `present` (R335). -/
def execPresent (f : Frame) (s : State) : Host.Outcome State Fault Refusal :=
  perLane (.present f) s fun c s1 l => s1.presentLane c l

/-! ### The present unit (R337, R338, R363) -/

/-- What a read of a surface comes to: its bytes, or fault 0x0A with its subcode and address. -/
inductive Surface where
  | ok (s : State) (bs : List Byte)
  | bad (s : State) (sub : BitVec 8) (va : Nat)
  deriving DecidableEq, Repr

/-- The place of a device address of a region, as the present unit translates it (R336), or the subcode with which it is refused: 0x02
where no page is there. A table entry that meets an uncorrectable error raises event 0x13 (R280). -/
def State.presentPlace (s : State) (rgn va : Nat) : State × Option (Nat × Leaf) :=
  match s.walk (s.asrOf rgn) va with
  | .fault _ bad => ((match bad with | some key => s.dataError rgn key | none => s), none)
  | .leaf l => (s, some (s.hostKey (s.fnOf rgn) (l.key + (va - l.va)), l))

/-- Pieces of a surface read at their homes as base (R336): a line of a retiring set is promoted (R325, R343). A page that is not
there, or not readable, stops the read, and so does an uncorrectable error (R289). -/
def State.surfacePieces (s : State) (rgn : Nat) (acc : List Byte) : List (Nat × Nat) → Surface
  | [] => .ok s acc
  | (va, n) :: rest =>
    match s.presentPlace rgn va with
    | (s, none) => .bad s 2 va
    | (s, some (key, l)) =>
      if !l.rd then .bad s 3 va
      else if s.poisoned key n then .bad (s.dataError rgn key) 3 va
      else
        let s1 := if s.cutOff key then s else s.atHome key n
        s1.surfacePieces rgn (acc ++ if s1.cutOff key then List.replicate n 0xFF else s1.homeBytes none key n) rest

/-- The bytes of a surface's lines (R336). -/
def State.surface (s : State) (rgn : Nat) (d : BitVec 512) : Surface :=
  let n := dfield d 111 96 * frameCell d
  s.surfacePieces rgn [] ((List.range (dfield d 127 112)).flatMap fun i =>
    framePieces ((dfield d 63 0 + i * dfield d 95 64) % 2 ^ 64) n)

/-- The last flipped frame is delivered again, or a black one (R338). -/
def State.again (s : State) (q : Nat) : State :=
  let out (s : State) (frame : OutFrame) : State := { s with scanout := s.scanout ++ [frame] }
  match (s.presents.getD q .fresh).last with
  | some (d, r) => (match s.surface r d with
    | .ok s1 bs => out s1 ⟨q, some d, bs⟩
    | .bad s1 _ _ => out s1 ⟨q, none, []⟩)
  | none => out s ⟨q, none, []⟩

/-- The head entry of a queue flips (R338): its surface is read and delivered. -/
def State.flipHead (s : State) (q : Nat) (e : PEntry) : State :=
  let drop (p : PQueue) : PQueue := { p with entries := p.entries.drop 1 }
  match ({ s with presents := s.presents.modify q drop } : State).surface e.rgn e.desc with
  | .bad s1 sub va => (s1.postEng e.rgn none 0 0 { code := 0x0A, sub := sub, addr := some va }).again q
  | .ok s1 bs =>
    let keep (p : PQueue) : PQueue := { p with last := some (e.desc, e.rgn) }
    { s1 with
      presents := s1.presents.modify q keep
      scanout := s1.scanout ++ [⟨q, some e.desc, bs⟩]
      readouts := s1.readouts ++ [⟨q, e.desc, e.rgn⟩] }

/-- The regions that may use a queue are raised for it, or no longer (R363). -/
def State.raiseFor (s : State) (q : Nat) (up : Bool) : State :=
  let bit : BitVec 4 := BitVec.ofNat 4 (2 ^ q)
  let go (x : Region) : Region :=
    if !up then { x with raised := x.raised &&& ~~~bit }
    else if (x.st = .running ∨ x.st = .ready) ∧ x.rcb.pq.getLsbD q then { x with raised := x.raised ||| bit }
    else x
  { s with regions := s.regions.map fun e => (e.1, go e.2) }

/-- The tenant root of a queue's owner: that of the entry at its head, or of the function the queue is granted to. -/
def State.ownerOf (s : State) (q : Nat) : Option Nat :=
  match (s.presents.getD q .fresh).entries with
  | e :: _ => some (s.rootOf e.rgn)
  | [] => ((s.regions.filter fun e => e.2.root == e.1 && e.2.rcb.pq.getLsbD q &&
      decide (e.2.st ≠ .ended) && decide (e.2.st ≠ .killed)).getLast?).map Prod.fst

/-- PRESENT_MISSED_SLOT (R338): event 0x12 goes to the owner's tenant root, and the last frame is delivered again. -/
def State.missedSlot (s : State) (q : Nat) : State :=
  (match s.ownerOf q with
   | some r => s.postEvent r r { code := 0x12, sub := 0, det0 := q }
   | none => s.postFjoub 0x12 0 0 (BitVec.ofNat 32 q)).again q

/-- PRESENT_FLIP (R338): a queue without EN flips its head once it is released; a queue with EN acts at its flip slot. -/
def execPresentFlip (queue : Nat) (s : State) : Host.Outcome State Fault Refusal :=
  match s.presents[queue]? with
  | none => .next s
  | some p =>
    let head := p.entries.head?.filter PEntry.released
    if s.presEn.getLsbD queue then
      if s.us < p.slot then .next s
      else
        let load (p : PQueue) : PQueue := { p with slot := p.slot + p.interval }
        let s1 := ({ s with presents := s.presents.modify queue load } : State).raiseFor queue false
        .next (match head with
          | some e => s1.flipHead queue e
          | none => s1.missedSlot queue)
    else
      match head with
      | some e => .next (s.flipHead queue e)
      | none => .next s

/-- PRESENT_GUARD (R338, R363): COUNT has reached GUARD and no released entry stands at the head, so the queue's present
regions are raised. -/
def execPresentGuard (queue : Nat) (s : State) : Host.Outcome State Fault Refusal :=
  match s.presents[queue]? with
  | none => .next s
  | some p =>
    let ready := (p.entries.head?.filter PEntry.released).isSome
    if s.presEn.getLsbD queue && decide (p.slot ≤ s.us + s.presGuard) && !ready then .next (s.raiseFor queue true)
    else .next s

/-- PRESENT_READOUT_DONE (R336, R338): the surface has been read out, so DONE is raised by 1; where its page has gone, or a window
refuses the write (R322), the record is posted instead. -/
def execPresentReadoutDone (index : Nat) (s : State) : Host.Outcome State Fault Refusal :=
  match s.readouts[index]? with
  | none => .next s
  | some x =>
    let s1 := { s with readouts := s.readouts.eraseIdx index }
    let va := dfield x.desc 511 448
    if va = 0 then .next s1
    else
      match s1.presentPlace x.rgn va with
      | (s1, none) => .next (s1.postEng x.rgn none 0 0 { code := 0x0A, sub := 2, addr := some va, wr := true })
      | (s1, some (key, l)) =>
        if l.home then .next (s1.raiseCtr ⟨x.rgn, none, 0, 0, s1.nextId⟩ key (some va))
        else .next (s1.postEng x.rgn none 0 0 { code := 0x0A, sub := 3, addr := some va, wr := true })

end Sys2Proof.Machine
end

