-- ==== Sys2Proof/Machine/Slot.lean ====
section
/-! DEFINITION. Format slots and the Q4 block family (04_number_formats.md R78 to R88, R127, R128). -/

namespace Sys2Proof

/-- A format slot record (R82). -/
abbrev SlotRec := BitVec 128

/-- FMT (R82). -/
def SlotRec.fmt (r : SlotRec) : Nat := (r.extractLsb' 0 8).toNat
/-- PACK (R82). -/
def SlotRec.pack (r : SlotRec) : Nat := (r.extractLsb' 8 2).toNat
/-- RND (R82). -/
def SlotRec.rnd (r : SlotRec) : Rnd := .ofBits (r.extractLsb' 13 2)
/-- SAT (R82). -/
def SlotRec.sat (r : SlotRec) : Bool := r.getLsbD 15
/-- BLK (R82). -/
def SlotRec.blk (r : SlotRec) : Nat := (r.extractLsb' 24 8).toNat
/-- SOFF, signed (R82). -/
def SlotRec.soff (r : SlotRec) : Int := (r.extractLsb' 96 32).toInt

/-- The subcode of the first case of R86 that holds, among the first five. -/
def SlotRec.check (r : SlotRec) : Option (BitVec 8) :=
  if r.fmt = 0 then some 1
  else if 8 ≤ r.fmt then some 2
  else if r.extractLsb' 32 64 ≠ 0 || r.extractLsb' 16 8 ≠ 0 || r.extractLsb' 10 3 ≠ 0 then some 3
  else if (if r.fmt = 7 then r.blk ≠ 32 else r.blk ≠ 0) then some 4
  else if r.fmt ≠ 7 ∧ r.extractLsb' 96 32 ≠ 0 then some 5
  else none

/-- R86 with the formats a position accepts: subcode 0x06 for any other. -/
def SlotRec.checkIn (r : SlotRec) (accepts : Nat → Bool) : Option (BitVec 8) :=
  match r.check with
  | some c => some c
  | none => if accepts r.fmt then none else some 6

/-- The floating format of an FMT value (R83). -/
def fmtOf : Nat → Option Fmt
  | 1 => some .f32 | 2 => some .f16 | 3 => some .bf16 | 4 => some .e4m3 | 5 => some .e5m2 | _ => none

/-- The width in bits of one element of an FMT value (R83). -/
def fmtBits : Nat → Nat
  | 1 => 32 | 2 => 16 | 3 => 16 | 7 => 4 | _ => 8

/-- Eight times mag(c) of R80, signed, for a block type: a code's value is this × 2^(E−35). -/
def q4Int (ty c : Nat) : Int :=
  if ty = 0 then (if 8 ≤ c then ((c : Int) - 16) * 8 else (c : Int) * 8)
  else
    let mag : Nat := match ty, c % 8 with
      | 1, k => [0, 4, 8, 12, 16, 24, 32, 48].getD k 0
      | 2, k => [0, 1, 2, 4, 8, 16, 32, 64].getD k 0
      | _, k => [0, 8, 16, 24, 32, 48, 64, 96].getD k 0
    if 8 ≤ c then -(Int.ofNat mag) else Int.ofNat mag

/-- The value of a code under a scale byte (R80); the code 0b1000 of types 01 to 11 is −0. -/
def q4Val (scale c : Nat) : XR :=
  let ty := scale / 64 % 4
  let e := scale % 64
  let v := q4Int ty (c % 16)
  if v = 0 then .zero (ty != 0 && 8 ≤ c % 16)
  else .ofScaled v ((e : Int) - 35)

/-- The largest positive value of a block type (R80). -/
def q4Max (ty : Nat) : Nat :=
  match ty with
  | 0 => 7 | 1 => 6 | 2 => 8 | _ => 12

/-- The codes of a type in ascending order of value, zero once (R80, R127). -/
def q4Codes (ty : Nat) : List Nat :=
  if ty = 0 then [8, 9, 10, 11, 12, 13, 14, 15, 0, 1, 2, 3, 4, 5, 6, 7]
  else [15, 14, 13, 12, 11, 10, 9, 0, 1, 2, 3, 4, 5, 6, 7]

/-- The neighbours of u among the codes: the last code at or below it and the first at or above it. -/
def q4Neighbours (ty : Nat) (u : XR) : Option Nat × Option Nat :=
  let val (c : Nat) : XR := .ofScaled (q4Int ty c) (-3)
  let lo := ((q4Codes ty).filter fun c => !u.lt (val c)).getLast?
  let hi := ((q4Codes ty).filter fun c => !(val c).lt u).head?
  (lo, hi)

/-- `qcode` of R127. -/
def qcode (u : XR) (ty : Nat) (mode : Rnd) : Nat :=
  match u with
  | .nan => 0
  | .inf neg => if neg then (if ty = 0 then 8 else 15) else 7
  | .fin neg _ _ _ =>
    match q4Neighbours ty u with
    | (some lo, some hi) =>
      if lo = hi then lo
      else
        let val (c : Nat) : XR := .ofScaled (q4Int ty c) (-3)
        match mode with
        | .rdn => lo
        | .rup => hi
        | .rtz => if neg then hi else lo
        | .rne =>
          let twice := XR.add .rne u u
          let mid := XR.add .rne (val lo) (val hi)
          if twice.lt mid then lo else if mid.lt twice then hi else if lo % 2 = 0 then lo else hi
    | (some lo, none) => lo
    | (none, some hi) => hi
    | (none, none) => 0

/-- The smallest E of R127 at or above the candidate `e`, with at most `fuel` more to try. -/
def q4Exp (top : Nat) (m : XR) (e : Nat) : Nat → Nat
  | 0 => e
  | fuel + 1 => if (XR.fin false top ((e : Int) - 32) false).lt m then q4Exp top m (e + 1) fuel else e

/-- E of R127: the scale exponent for the largest magnitude m. -/
def q4Scale (ty : Nat) (m : XR) : Nat :=
  match m with
  | .fin _ _ _ _ => q4Exp (q4Max ty) m 0 62
  | _ => 62

/-- One element of a format other than Q4, as an exact value (R83, R117). -/
def slotVal (fmt b : Nat) : XR :=
  match fmtOf fmt with
  | some f => fval b f false
  | none => .ofInt (if 128 ≤ b % 256 then (b % 256 : Int) - 256 else b % 256)

/-- The conversion of a value into a format other than Q4 under a mode and a saturation (R85, R45). -/
def slotRound (fmt : Nat) (x : XR) (mode : Rnd) (sat : Bool) : Nat :=
  match fmtOf fmt with
  | some f => roundF x f mode sat
  | none => roundI x 8 true mode sat

/-- A value rounded to an integral one, its sign kept (R122). -/
def XR.toIntegral (x : XR) (rnd : Rnd) : XR :=
  match x with
  | .fin neg m e more => .fin neg (roundAt rnd neg m e more 0) 0 false
  | _ => x

/-- A value scaled by a power of 2 (R122). -/
def XR.scale (x : XR) (n : Int) : XR :=
  match x with
  | .fin neg m e more => .fin neg m (e + n) more
  | _ => x

/-- The type a type code stands for once the slot is known: 0xD takes the slot's format (R126). -/
def CvtTy.resolve (t : CvtTy) (fmt : Nat) : CvtTy :=
  match t with
  | .slot => (match fmt with | 1 => .f32 | 2 => .f16 | 3 => .bf16 | 4 => .e4m3 | 5 => .e5m2 | _ => .s8)
  | _ => t

/-- The floating format of a type. -/
def CvtTy.fmt? : CvtTy → Option Fmt
  | .f32 => some .f32 | .f16 => some .f16 | .bf16 => some .bf16 | .e4m3 => some .e4m3 | .e5m2 => some .e5m2
  | _ => none

/-- The integer type is signed. -/
def CvtTy.signed : CvtTy → Bool
  | .s8 | .s16 | .s32 | .s64 => true
  | _ => false

end Sys2Proof
end

