-- ==== Sys2Proof/Machine/Float.lean ====
section
/-! DEFINITION. Floating-point and conversion instructions (06_float_conversion_instructions.md R114 to R128). -/

namespace Sys2Proof.Machine

open Sys2Proof

/-! ### Sources (R39, R116) -/

/-- Two elements of 16 bits in one register (R74). -/
def packed (lo hi : Nat) : Nat := lo % 65536 + 65536 * (hi % 65536)

/-- A floating source: a literal denotes its value (R39); the low bits of the register are the encoding. -/
def Ctx.fsrc (c : Ctx) (lane : Nat) (o : Operand) (f : Fmt) : Nat :=
  match o with
  | .lit n => litBits n.toNat f
  | _ => c.src lane o 1 % 2 ^ f.width

/-- A packed source: a literal stands in each half (R39). -/
def Ctx.psrc (c : Ctx) (lane : Nat) (o : Operand) (f : Fmt) : Nat :=
  match o with
  | .lit n => packed (litBits n.toNat f) (litBits n.toNat f)
  | _ => c.src lane o 1

/-- An FP32 source in field A, as `redux` reads it. -/
def Ctx.fsrc32 (c : Ctx) (lane : Nat) : Nat := c.fsrc lane c.e.f.a .f32

/-- I of the L form in a floating position (R116). -/
def Ctx.immF (c : Ctx) (f : Fmt) : Nat :=
  if f = .f32 then c.e.f.i.toNat else roundF (fval c.e.f.i.toNat .f32 false) f .rne false

/-- −0.0, which an absent C reads as (R116). -/
def negZero (f : Fmt) : Nat := 2 ^ (f.width - 1)

/-- x of R118. -/
def Ctx.fx (c : Ctx) (lane : Nat) (f : Fmt) (ftz : Bool) : XR := fval (c.fsrc lane c.e.f.a f) f ftz

/-- y of R118. -/
def Ctx.fy (c : Ctx) (lane : Nat) (f : Fmt) (ftz : Bool) : XR :=
  fval (if c.e.f.isL then c.immF f else c.fsrc lane c.e.f.b f) f ftz

/-- z of R118. -/
def Ctx.fz (c : Ctx) (lane : Nat) (f : Fmt) (ftz : Bool) : XR :=
  fval (if c.e.f.isS then negZero f else c.fsrc lane c.e.f.c f) f ftz

/-- Element j of a packed operand, 0 or 1. -/
def halfOf (v j : Nat) : Nat := v / 65536 ^ j % 65536

/-- The packed operand A. -/
def Ctx.pa (c : Ctx) (lane : Nat) (f : Fmt) : Nat := c.psrc lane c.e.f.a f

/-- The packed operand B, or I in both halves. -/
def Ctx.pb (c : Ctx) (lane : Nat) (f : Fmt) : Nat :=
  if c.e.f.isL then packed (c.immF f) (c.immF f) else c.psrc lane c.e.f.b f

/-- The packed operand C, or −0.0 in both halves. -/
def Ctx.pc_ (c : Ctx) (lane : Nat) (f : Fmt) : Nat :=
  if c.e.f.isS then packed (negZero f) (negZero f) else c.psrc lane c.e.f.c f

/-- A product with C added to it; an absent C leaves it as it is, with its sign (R116, R118). -/
def Ctx.plus (c : Ctx) (rnd : Rnd) (e z : XR) : XR := if c.e.f.isS then e else XR.add rnd e z

/-- An instruction whose result is an extended real, rounded once (R118, R123). -/
def fpu (i : Instr) (s : State) (ty : FTy) (rnd : Rnd) (sat ftz : Bool) (e : Ctx → Nat → XR) :
    Host.Outcome State Fault Refusal :=
  alu i s 1 fun c l => fres (e c l) ty.fmt rnd sat ftz

/-! ### Arithmetic, selection and classification -/

/-- `fadd` (R118). -/
def execFadd (f : Frame) (ty : FTy) (rnd : Rnd) (sat ftz : Bool) (s : State) : Host.Outcome State Fault Refusal :=
  fpu (.fadd f ty rnd sat ftz) s ty rnd sat ftz fun c l => XR.add rnd (c.fx l ty.fmt ftz) (c.fy l ty.fmt ftz)

/-- `fsub` (R118). -/
def execFsub (f : Frame) (ty : FTy) (rnd : Rnd) (sat ftz : Bool) (s : State) : Host.Outcome State Fault Refusal :=
  fpu (.fsub f ty rnd sat ftz) s ty rnd sat ftz fun c l => XR.add rnd (c.fx l ty.fmt ftz) (c.fy l ty.fmt ftz).neg

/-- `fmul` (R118). -/
def execFmul (f : Frame) (ty : FTy) (rnd : Rnd) (sat ftz : Bool) (s : State) : Host.Outcome State Fault Refusal :=
  fpu (.fmul f ty rnd sat ftz) s ty rnd sat ftz fun c l => (c.fx l ty.fmt ftz).mul (c.fy l ty.fmt ftz)

/-- `ffma` (R118). -/
def execFfma (f : Frame) (ty : FTy) (rnd : Rnd) (sat ftz : Bool) (s : State) : Host.Outcome State Fault Refusal :=
  fpu (.ffma f ty rnd sat ftz) s ty rnd sat ftz fun c l =>
    c.plus rnd ((c.fx l ty.fmt ftz).mul (c.fy l ty.fmt ftz)) (c.fz l ty.fmt ftz)

/-- `fmin` (R119). -/
def execFmin (f : Frame) (ty : FTy) (ftz : Bool) (s : State) : Host.Outcome State Fault Refusal :=
  fpu (.fmin f ty ftz) s ty .rne false ftz fun c l => minMax false (c.fx l ty.fmt ftz) (c.fy l ty.fmt ftz)

/-- `fmax` (R119). -/
def execFmax (f : Frame) (ty : FTy) (ftz : Bool) (s : State) : Host.Outcome State Fault Refusal :=
  fpu (.fmax f ty ftz) s ty .rne false ftz fun c l => minMax true (c.fx l ty.fmt ftz) (c.fy l ty.fmt ftz)

/-- `fcmp` (R120). -/
def execFcmp (f : Frame) (ty : FTy) (cc : FCond) (ftz : Bool) (s : State) : Host.Outcome State Fault Refusal :=
  alu (.fcmp f ty cc ftz) s 1 fun c l => b2n (cc.holds (c.fx l ty.fmt ftz) (c.fy l ty.fmt ftz))

/-- `fclass` (R121). -/
def execFclass (f : Frame) (ty : FTy) (ftz : Bool) (s : State) : Host.Outcome State Fault Refusal :=
  alu (.fclass f ty ftz) s 1 fun c l =>
    b2n ((c.b l).testBit (classBit (c.fsrc l c.e.f.a ty.fmt) ty.fmt ftz))

/-- `frnd` (R122). -/
def execFrnd (f : Frame) (ty : FTy) (rnd : Rnd) (ftz : Bool) (s : State) : Host.Outcome State Fault Refusal :=
  fpu (.frnd f ty rnd ftz) s ty rnd false ftz fun c l => XR.toIntegral (c.fx l ty.fmt ftz) rnd

/-- `fldexp` (R122). -/
def execFldexp (f : Frame) (ty : FTy) (rnd : Rnd) (sat ftz : Bool) (s : State) : Host.Outcome State Fault Refusal :=
  fpu (.fldexp f ty rnd sat ftz) s ty rnd sat ftz fun c l =>
    XR.scale (c.fx l ty.fmt ftz) (if c.e.f.isL then c.immI else intOf (c.b l) .s32)

/-! ### Division, roots and functions -/

/-- `frcp` (R123). -/
def execFrcp (f : Frame) (ty : FTy) (rnd : Rnd) (sat ftz : Bool) (s : State) : Host.Outcome State Fault Refusal :=
  fpu (.frcp f ty rnd sat ftz) s ty rnd sat ftz fun c l => (XR.ofInt 1).div (c.fx l ty.fmt ftz)

/-- `frsq` (R123). -/
def execFrsq (f : Frame) (ty : FTy) (rnd : Rnd) (sat ftz : Bool) (s : State) : Host.Outcome State Fault Refusal :=
  fpu (.frsq f ty rnd sat ftz) s ty rnd sat ftz fun c l => (c.fx l ty.fmt ftz).rsqrt

/-- `fsqrt` (R123). -/
def execFsqrt (f : Frame) (ty : FTy) (rnd : Rnd) (sat ftz : Bool) (s : State) : Host.Outcome State Fault Refusal :=
  fpu (.fsqrt f ty rnd sat ftz) s ty rnd sat ftz fun c l => (c.fx l ty.fmt ftz).sqrt

/-- `fdiv` (R123). -/
def execFdiv (f : Frame) (ty : FTy) (rnd : Rnd) (sat ftz : Bool) (s : State) : Host.Outcome State Fault Refusal :=
  fpu (.fdiv f ty rnd sat ftz) s ty rnd sat ftz fun c l => (c.fx l ty.fmt ftz).div (c.fy l ty.fmt ftz)

/-- `fexp2` (R123). -/
def execFexp2 (f : Frame) (ty : FTy) (rnd : Rnd) (sat ftz : Bool) (s : State) : Host.Outcome State Fault Refusal :=
  alu (.fexp2 f ty rnd sat ftz) s 1 fun c l => Trans.exp2.eval (c.fx l ty.fmt ftz) ty.fmt rnd sat ftz

/-- `flog2` (R123). -/
def execFlog2 (f : Frame) (ty : FTy) (rnd : Rnd) (sat ftz : Bool) (s : State) : Host.Outcome State Fault Refusal :=
  alu (.flog2 f ty rnd sat ftz) s 1 fun c l => Trans.log2.eval (c.fx l ty.fmt ftz) ty.fmt rnd sat ftz

/-- `fsin` (R123). -/
def execFsin (f : Frame) (ty : FTy) (rnd : Rnd) (sat ftz : Bool) (s : State) : Host.Outcome State Fault Refusal :=
  alu (.fsin f ty rnd sat ftz) s 1 fun c l => Trans.sin.eval (c.fx l ty.fmt ftz) ty.fmt rnd sat ftz

/-- `fcos` (R123). -/
def execFcos (f : Frame) (ty : FTy) (rnd : Rnd) (sat ftz : Bool) (s : State) : Host.Outcome State Fault Refusal :=
  alu (.fcos f ty rnd sat ftz) s 1 fun c l => Trans.cos.eval (c.fx l ty.fmt ftz) ty.fmt rnd sat ftz

/-! ### Packed halves -/

/-- An operation on each half (R124). -/
def pairwise (i : Instr) (s : State) (ty : FTy) (rnd : Rnd) (sat ftz : Bool) (e : Ctx → XR → XR → XR → XR) :
    Host.Outcome State Fault Refusal :=
  alu i s 1 fun c l =>
    let el (v j : Nat) : XR := fval (halfOf v j) ty.fmt ftz
    let r (j : Nat) : Nat := fres (e c (el (c.pa l ty.fmt) j) (el (c.pb l ty.fmt) j) (el (c.pc_ l ty.fmt) j)) ty.fmt
      rnd sat ftz
    packed (r 0) (r 1)

/-- `hadd2` (R124). -/
def execHadd2 (f : Frame) (ty : FTy) (rnd : Rnd) (sat ftz : Bool) (s : State) : Host.Outcome State Fault Refusal :=
  pairwise (.hadd2 f ty rnd sat ftz) s ty rnd sat ftz fun _ x y _ => XR.add rnd x y

/-- `hmul2` (R124). -/
def execHmul2 (f : Frame) (ty : FTy) (rnd : Rnd) (sat ftz : Bool) (s : State) : Host.Outcome State Fault Refusal :=
  pairwise (.hmul2 f ty rnd sat ftz) s ty rnd sat ftz fun _ x y _ => x.mul y

/-- `hfma2` (R124). -/
def execHfma2 (f : Frame) (ty : FTy) (rnd : Rnd) (sat ftz : Bool) (s : State) : Host.Outcome State Fault Refusal :=
  pairwise (.hfma2 f ty rnd sat ftz) s ty rnd sat ftz fun c x y z => c.plus rnd (x.mul y) z

/-- `hdot2` (R124). In the S form C is absent and adds nothing (R116): the two products are summed alone, so that two products of +0 give +0
under `.rdn` too, where a third addend of -0.0 (R117) would give -0.0. No rule says which of the two is meant (DESIGN CHOICE, assumption
72). -/
def execHdot2 (f : Frame) (ty : FTy) (dt : Bool) (rnd : Rnd) (sat ftz : Bool) (s : State) :
    Host.Outcome State Fault Refusal :=
  let df := if dt then ty.fmt else .f32
  alu (.hdot2 f ty dt rnd sat ftz) s 1 fun c l =>
    let el (v j : Nat) : XR := fval (halfOf v j) ty.fmt ftz
    let a := c.pa l ty.fmt
    let b := c.pb l ty.fmt
    let z := if c.e.f.isS then [] else [c.fz l df ftz]
    fres (XR.sum rnd ([(el a 0).mul (el b 0), (el a 1).mul (el b 1)] ++ z)) df rnd sat ftz

/-! ### Conversion -/

/-- A fault of a slot use (R87). -/
def slotFault (sub : BitVec 8) (slot : BitVec 3) : Flt := { code := 0x0B, sub := sub, det0 := slot.toNat }

/-- Slot n of a region (R84). -/
def State.slot (s : State) (rgn : Nat) (n : BitVec 3) : SlotRec :=
  match s.region? rgn with
  | some x => x.rcb.slots.getD n.toNat 0
  | none => 0

/-- The field that a type of 8 bits in a slot cannot take is one of R39's classes for a floating position. -/
def narrowBad (st : CvtTy) (o : Operand) : Bool :=
  match st, o with
  | .e4m3, .lit _ | .e5m2, .lit _ => true
  | .e4m3, .p _ | .e4m3, .k _ | .e4m3, .sr _ | .e5m2, .p _ | .e5m2, .k _ | .e5m2, .sr _ => true
  | .f32, .p _ | .f32, .k _ | .f32, .sr _ | .f16, .p _ | .f16, .k _ | .f16, .sr _ => true
  | .bf16, .p _ | .bf16, .k _ | .bf16, .sr _ => true
  | _, _ => false

/-- The fault of a `cvt` that names a slot (R126), and the classes of its operand once the format is known: a literal in a
`.q4` position is one of them (R39, R129). Of a SEL out of the format's elements and a class that the format cannot take,
SEL is reported; R126 and R129 give the two no order (DESIGN CHOICE, assumption 11). -/
def cvtFault (r : SlotRec) (dt st : CvtTy) (sel : BitVec 2) (slot : BitVec 3) (a : Operand) : Option Flt :=
  if dt = .slot ∨ st = .slot then
    match r.checkIn fun n => decide (1 ≤ n) && decide (n ≤ 6) with
    | some sub =>
      some (match a with
        | .lit _ => if st = .slot ∧ sub = 6 ∧ r.fmt = 7 then { code := 1, sub := 9 } else slotFault sub slot
        | _ => slotFault sub slot)
    | none =>
      if st = .slot then
        let w := (st.resolve r.fmt).bits
        if (w = 16 ∧ 2 ≤ sel.toNat) ∨ (w = 32 ∧ sel ≠ 0) then some { code := 1, sub := 3 }
        else if narrowBad (st.resolve r.fmt) a then some { code := 1, sub := 9 }
        else none
      else none
  else none

/-- The source of `cvt` as an extended real (R126). -/
def Ctx.cvtSrc (c : Ctx) (lane : Nat) (st : CvtTy) (sel : BitVec 2) (ftz : Bool) : XR :=
  let o := c.e.f.a
  let w := st.bits
  match st.fmt? with
  | some f =>
    let v := if w = 32 then c.fsrc lane o f else if w = 16 then c.psrc lane o f else c.src lane o 1
    fval (v / 2 ^ (w * sel.toNat) % 2 ^ w) f ftz
  | none =>
    let v := c.src lane o (if w = 64 then 2 else 1) / 2 ^ (w * sel.toNat) % 2 ^ w
    .ofInt (if st.signed && decide (2 ^ (w - 1) ≤ v) then (v : Int) - 2 ^ w else v)

/-- The result of `cvt` (R126). -/
def cvtResult (x : XR) (dt : CvtTy) (rnd : Rnd) (sat ftz : Bool) : Nat :=
  match dt.fmt? with
  | some f => fres x f rnd sat ftz
  | none => roundI x dt.bits dt.signed rnd sat

/-- `cvt` (R125, R126). -/
def execCvt (f : Frame) (dt st : CvtTy) (rnd : Rnd) (sat ftz : Bool) (sel : BitVec 2) (slot : BitVec 3) (s : State) :
    Host.Outcome State Fault Refusal :=
  run (.cvt f dt st rnd sat ftz sel slot) s fun c s1 =>
    let r := s1.slot c.x.rgn slot
    s1.compute c fun l =>
      match cvtFault r dt st sel slot f.a with
      | some flt => .error flt
      | none =>
        let named := dt == .slot || st == .slot
        let d := dt.resolve r.fmt
        let x := c.cvtSrc l (st.resolve r.fmt) sel ftz
        .ok { d := wordsOf (if d.bits = 64 then 2 else 1)
                (cvtResult x d (if named then r.rnd else rnd) (if dt == .slot then r.sat else sat) ftz) }

/-- The largest magnitude of a group, and +∞ where one is infinite (R127). -/
def Ctx.blockMax (c : Ctx) : XR :=
  c.group.foldl (fun m l =>
    match c.fx l .f32 false with
    | .inf _ => .inf false
    | .fin _ n e t => if m.lt (.fin false n e t) then .fin false n e t else m
    | .nan => m) (.zero false)

/-- The code a lane contributes to a block (R127). -/
def Ctx.blockCode (c : Ctx) (ty e : Nat) (rnd : Rnd) (lane : Nat) : Nat :=
  if c.group.contains lane then qcode (XR.scale (c.fx lane .f32 false) (32 - (e : Int))) ty rnd else 0

/-- `qpack` (R127). -/
def execQpack (f : Frame) (slot : BitVec 3) (s : State) : Host.Outcome State Fault Refusal :=
  run (.qpack f slot) s fun c s1 =>
    let r := s1.slot c.x.rgn slot
    s1.compute c fun l =>
      match r.checkIn fun n => n == 7 with
      | some sub => .error (slotFault sub slot)
      | none =>
        let ty := r.pack
        let e := q4Scale ty c.blockMax
        let o := l / 8
        let codes := (List.range 8).map fun i => c.blockCode ty e r.rnd (8 * o + i) * 16 ^ i
        .ok { d := [BitVec.ofNat 32 codes.sum, BitVec.ofNat 32 ((64 * ty + e) % 256)] }

/-- `qunpk` (R128). -/
def execQunpk (f : Frame) (slot : BitVec 3) (ty : FTy) (s : State) : Host.Outcome State Fault Refusal :=
  run (.qunpk f slot ty) s fun c s1 =>
    let r := s1.slot c.x.rgn slot
    s1.compute c fun l =>
      match r.checkIn fun n => n == 7 with
      | some sub => .error (slotFault sub slot)
      | none =>
        let sb := c.b l % 256
        if sb % 64 = 63 then .error (slotFault 7 slot)
        else
          let e := (if f.isS then 0 else c.c l) % 8
          .ok { d := wordsOf 1 (roundF (q4Val sb (c.a l / 16 ^ e % 16)) ty.fmt r.rnd false) }

end Sys2Proof.Machine
end

