-- ==== Sys2Proof/Machine/Integer.lean ====
section
/-! DEFINITION. Integer, logic, address and wave-wide instructions (05_integer_wave_instructions.md R92 to R112). -/

namespace Sys2Proof.Machine

open Sys2Proof

/-! ### Sources (R92) -/

/-- Operand B of an integer instruction: I in the L form (R92). -/
def Ctx.intB (c : Ctx) (lane : Nat) (ty : IntTy) (words : Nat) : Nat :=
  if c.e.f.isL then
    (if words = 1 then c.e.f.i.toNat else if ty = .z64 then c.e.f.i.toNat else lowBits c.immI 64)
  else c.b lane words

/-- Operand C: 0 in the S form (R92). -/
def Ctx.intC (c : Ctx) (lane : Nat) (words : Nat := 1) : Nat := if c.e.f.isS then 0 else c.c lane words

/-- x of R96. -/
def Ctx.x96 (c : Ctx) (lane : Nat) (ty : IntTy) : Int := intOf (c.a lane ty.words) ty
/-- y of R96. -/
def Ctx.y96 (c : Ctx) (lane : Nat) (ty : IntTy) : Int := intOf (c.intB lane ty ty.words) ty
/-- z of R96. -/
def Ctx.z96 (c : Ctx) (lane : Nat) (ty : IntTy) : Int := intOf (c.intC lane) ty

/-- The type of the 64-bit operand and result of `imadw` (R96). -/
def wideTy (ty : IntTy) : IntTy := if ty = .s32 then .s64 else .z64

/-- R96 on an exact result: D of the width of the type. -/
def arith (i : Instr) (s : State) (ty : IntTy) (sat : Bool) (e : Ctx → Nat → Int) :
    Host.Outcome State Fault Refusal :=
  alu i s ty.words fun c l => intResult (e c l) ty sat

/-! ### Arithmetic -/

/-- `iadd` (R96). -/
def execIadd (f : Frame) (ty : IntTy) (sat : Bool) (s : State) : Host.Outcome State Fault Refusal :=
  arith (.iadd f ty sat) s ty sat fun c l => c.x96 l ty + c.y96 l ty

/-- `isub` (R96). -/
def execIsub (f : Frame) (ty : IntTy) (sat : Bool) (s : State) : Host.Outcome State Fault Refusal :=
  arith (.isub f ty sat) s ty sat fun c l => c.x96 l ty - c.y96 l ty

/-- `iaddc` (R97). -/
def execIaddc (f : Frame) (pd : BitVec 3) (s : State) : Host.Outcome State Fault Refusal :=
  run (.iaddc f pd) s fun c s1 => s1.compute c fun l =>
    let x := c.a l
    let y := c.intB l .z32 1
    let k := c.intC l % 2
    .ok { d := wordsOf 1 (x + y + k), pd := some (pd, carryOut x y k) }

/-- `isubb` (R97). -/
def execIsubb (f : Frame) (pd : BitVec 3) (s : State) : Host.Outcome State Fault Refusal :=
  run (.isubb f pd) s fun c s1 => s1.compute c fun l =>
    let x := c.a l
    let y := c.intB l .z32 1
    let k := c.intC l % 2
    .ok { d := wordsOf 1 (lowBits ((x : Int) - y - k) 32), pd := some (pd, borrowOut x y k) }

/-- `iadd64` (R96). -/
def execIadd64 (f : Frame) (ty : IntTy) (sat : Bool) (s : State) : Host.Outcome State Fault Refusal :=
  arith (.iadd64 f ty sat) s ty sat fun c l => c.x96 l ty + c.y96 l ty

/-- `imul` (R96). -/
def execImul (f : Frame) (ty : IntTy) (sat : Bool) (s : State) : Host.Outcome State Fault Refusal :=
  arith (.imul f ty sat) s ty sat fun c l => c.x96 l ty * c.y96 l ty

/-- `imulhi` (R96). -/
def execImulhi (f : Frame) (ty : IntTy) (s : State) : Host.Outcome State Fault Refusal :=
  arith (.imulhi f ty) s ty false fun c l => c.x96 l ty * c.y96 l ty / 2 ^ 32

/-- `imad` (R96). -/
def execImad (f : Frame) (ty : IntTy) (sat : Bool) (s : State) : Host.Outcome State Fault Refusal :=
  arith (.imad f ty sat) s ty sat fun c l => c.x96 l ty * c.y96 l ty + c.z96 l ty

/-- `imadw` (R96). -/
def execImadw (f : Frame) (ty : IntTy) (s : State) : Host.Outcome State Fault Refusal :=
  arith (.imadw f ty) s (wideTy ty) false fun c l =>
    c.x96 l ty * c.y96 l ty + intOf (c.intC l 2) (wideTy ty)

/-- `idiv` (R98). -/
def execIdiv (f : Frame) (ty : IntTy) (sat : Bool) (s : State) : Host.Outcome State Fault Refusal :=
  alu (.idiv f ty sat) s 1 fun c l => divResult (c.x96 l ty) (c.y96 l ty) ty sat

/-- `irem` (R98). -/
def execIrem (f : Frame) (ty : IntTy) (s : State) : Host.Outcome State Fault Refusal :=
  alu (.irem f ty) s 1 fun c l => remResult (c.x96 l ty) (c.y96 l ty) ty

/-- `imin` (R96). -/
def execImin (f : Frame) (ty : IntTy) (s : State) : Host.Outcome State Fault Refusal :=
  arith (.imin f ty) s ty false fun c l => min (c.x96 l ty) (c.y96 l ty)

/-- `imax` (R96). -/
def execImax (f : Frame) (ty : IntTy) (s : State) : Host.Outcome State Fault Refusal :=
  arith (.imax f ty) s ty false fun c l => max (c.x96 l ty) (c.y96 l ty)

/-- `iabs` (R96). -/
def execIabs (f : Frame) (sat : Bool) (s : State) : Host.Outcome State Fault Refusal :=
  arith (.iabs f sat) s .s32 sat fun c l => (c.x96 l .s32).natAbs

/-- `ineg` (R96). -/
def execIneg (f : Frame) (sat : Bool) (s : State) : Host.Outcome State Fault Refusal :=
  arith (.ineg f sat) s .s32 sat fun c l => -c.x96 l .s32

/-- `dp4` (R99). -/
def execDp4 (f : Frame) (ty : IntTy) (sat sa sb : Bool) (s : State) : Host.Outcome State Fault Refusal :=
  arith (.dp4 f ty sat sa sb) s ty sat fun c l => c.z96 l ty + dotBytes (c.a l) (c.intB l ty 1) sa sb

/-! ### Logic, shifts and bits -/

/-- `and` (R100). -/
def execAnd (f : Frame) (ty : IntTy) (s : State) : Host.Outcome State Fault Refusal :=
  alu (.and f ty) s ty.words fun c l => c.a l ty.words &&& c.intB l ty ty.words

/-- `or` (R100). -/
def execOr (f : Frame) (ty : IntTy) (s : State) : Host.Outcome State Fault Refusal :=
  alu (.or f ty) s ty.words fun c l => c.a l ty.words ||| c.intB l ty ty.words

/-- `xor` (R100). -/
def execXor (f : Frame) (ty : IntTy) (s : State) : Host.Outcome State Fault Refusal :=
  alu (.xor f ty) s ty.words fun c l => c.a l ty.words ^^^ c.intB l ty ty.words

/-- `andn` (R100). -/
def execAndn (f : Frame) (ty : IntTy) (s : State) : Host.Outcome State Fault Refusal :=
  alu (.andn f ty) s ty.words fun c l => c.a l ty.words &&& (c.intB l ty ty.words ^^^ IntTy.ones ty)

/-- `not` (R100). -/
def execNot (f : Frame) (ty : IntTy) (s : State) : Host.Outcome State Fault Refusal :=
  alu (.not f ty) s ty.words fun c l => c.a l ty.words ^^^ IntTy.ones ty

/-- `shl` (R101). -/
def execShl (f : Frame) (s : State) : Host.Outcome State Fault Refusal :=
  alu (.shl f) s 1 fun c l => shiftLeft (c.a l) (c.b l) 32

/-- `shr` (R101). -/
def execShr (f : Frame) (s : State) : Host.Outcome State Fault Refusal :=
  alu (.shr f) s 1 fun c l => shiftRight (c.a l) (c.b l) 32

/-- `sar` (R101). -/
def execSar (f : Frame) (s : State) : Host.Outcome State Fault Refusal :=
  alu (.sar f) s 1 fun c l => shiftRight (c.x96 l .s32) (c.b l) 32

/-- `rol` (R101). -/
def execRol (f : Frame) (s : State) : Host.Outcome State Fault Refusal :=
  alu (.rol f) s 1 fun c l => rotLeft (c.a l) (c.b l)

/-- `shl64` (R101). -/
def execShl64 (f : Frame) (s : State) : Host.Outcome State Fault Refusal :=
  alu (.shl64 f) s 2 fun c l => shiftLeft (c.a l 2) (c.b l) 64

/-- `shr64` (R101). -/
def execShr64 (f : Frame) (ty : IntTy) (s : State) : Host.Outcome State Fault Refusal :=
  alu (.shr64 f ty) s 2 fun c l => shiftRight (c.x96 l ty) (c.b l) 64

/-- `popc` (R102). -/
def execPopc (f : Frame) (ty : IntTy) (s : State) : Host.Outcome State Fault Refusal :=
  alu (.popc f ty) s 1 fun c l => popCount (c.a l ty.words) ty.width

/-- `clz` (R102). -/
def execClz (f : Frame) (ty : IntTy) (s : State) : Host.Outcome State Fault Refusal :=
  alu (.clz f ty) s 1 fun c l => leadZeros (c.a l ty.words) ty.width

/-- `ctz` (R102). -/
def execCtz (f : Frame) (ty : IntTy) (s : State) : Host.Outcome State Fault Refusal :=
  alu (.ctz f ty) s 1 fun c l => trailZeros (c.a l ty.words) 0 ty.width

/-- `brev` (R102). -/
def execBrev (f : Frame) (ty : IntTy) (s : State) : Host.Outcome State Fault Refusal :=
  alu (.brev f ty) s ty.words fun c l => bitRev (c.a l ty.words) ty.width ty.width

/-- The control word of R103: X[15:0] under IMM. -/
def Ctx.ctl (c : Ctx) (lane : Nat) (imm : Bool) : Nat :=
  if imm then (c.e.f.x.extractLsb' 0 16).toNat else c.intB lane .b32 1

/-- `bfe` (R103). -/
def execBfe (f : Frame) (ty : IntTy) (imm : Bool) (s : State) : Host.Outcome State Fault Refusal :=
  alu (.bfe f ty imm) s 1 fun c l => bitExtract (c.a l) (c.ctl l imm) (ty == .s32)

/-- `bfi` (R103). -/
def execBfi (f : Frame) (imm : Bool) (s : State) : Host.Outcome State Fault Refusal :=
  alu (.bfi f imm) s 1 fun c l => bitInsert (c.a l) (c.ctl l imm) (c.intC l)

/-- `perm` (R104). -/
def execPerm (f : Frame) (imm : Bool) (s : State) : Host.Outcome State Fault Refusal :=
  alu (.perm f imm) s 1 fun c l =>
    bytePermute (c.a l) (c.intB l .b32 1) (if imm then (c.e.f.x.extractLsb' 0 16).toNat else c.intC l)

/-! ### Selection, comparison, moves and addresses -/

/-- `sel` (R105). -/
def execSel (f : Frame) (ty : IntTy) (neg : Bool) (ps : BitVec 3) (s : State) : Host.Outcome State Fault Refusal :=
  alu (.sel f ty neg ps) s ty.words fun c l =>
    if (c.thread l).pred ps != neg then c.a l ty.words else c.intB l ty ty.words

/-- `icmp` (R106). -/
def execIcmp (f : Frame) (ty : IntTy) (cc : ICond) (s : State) : Host.Outcome State Fault Refusal :=
  alu (.icmp f ty cc) s 1 fun c l => b2n (cc.holds (c.x96 l ty) (c.y96 l ty))

/-- `mov` (R107). -/
def execMov (f : Frame) (ty : IntTy) (s : State) : Host.Outcome State Fault Refusal :=
  alu (.mov f ty) s ty.words fun c l => c.a l ty.words

/-- The constant of `movi` (R107). -/
def Ctx.moviVal (c : Ctx) (lane : Nat) (ty : IntTy) : Nat :=
  match c.e.f.form with
  | .s => c.a lane ty.words
  | .m => lowBits c.immX ty.width
  | .l => lowBits c.immI ty.width

/-- `movi` (R107). -/
def execMovi (f : Frame) (ty : IntTy) (s : State) : Host.Outcome State Fault Refusal :=
  alu (.movi f ty) s ty.words fun c l => c.moviVal l ty

/-- `lea` (R108). -/
def execLea (f : Frame) (ty : IntTy) (sc : Scale) (s : State) : Host.Outcome State Fault Refusal :=
  alu (.lea f ty sc) s 2 fun c l =>
    addrSum (c.a l 2) (intOf (c.b l) ty) sc.factor
      (match c.e.f.form with | .s => 0 | .m => c.immX | .l => c.immI) 64

/-! ### Wave-wide instructions (R109) -/

/-- The source lane of `shfl` (R110), if it lies in 0 to 31. -/
def shflLane (mode : ShflMode) (lane b : Nat) : Option Nat :=
  let j : Int := match mode with
    | .idx => b
    | .up => (lane : Int) - b
    | .down => (lane : Int) + b
    | .xor => (lane ^^^ b : Nat)
  if 0 ≤ j ∧ j ≤ 31 then some j.toNat else none

/-- `shfl` (R110). -/
def execShfl (f : Frame) (ty : IntTy) (mode : ShflMode) (s : State) : Host.Outcome State Fault Refusal :=
  alu (.shfl f ty mode) s ty.words fun c l =>
    match shflLane mode l (c.b l) with
    | some j => if c.group.contains j then c.a j ty.words else c.a l ty.words
    | none => c.a l ty.words

/-- The result of `vote` (R111). -/
def Ctx.voteVal (c : Ctx) (mode : VoteMode) : Nat :=
  match mode with
  | .all => b2n (c.group.all fun l => c.a l != 0)
  | .any => b2n (c.group.any fun l => c.a l != 0)
  | .eq => b2n (c.group.all fun l => c.a l == c.a c.lead)
  | .bal => (maskOf (c.group.filter fun l => c.a l != 0)).toNat

/-- `vote` (R111). -/
def execVote (f : Frame) (mode : VoteMode) (s : State) : Host.Outcome State Fault Refusal :=
  alu (.vote f mode) s 1 fun c _ => c.voteVal mode

/-- One level of the tree of R89: neighbours are combined, an absent one passes the other through. -/
def treeLevel (g : Nat → Nat → Nat) : List (Option Nat) → List (Option Nat)
  | a :: b :: rest =>
    (match a, b with
     | some x, some y => some (g x y)
     | some x, none => some x
     | none, y => y) :: treeLevel g rest
  | l => l

/-- The tree of R89 over 32 positions: five levels. -/
def tree32 (g : Nat → Nat → Nat) (l : List (Option Nat)) : Nat :=
  let t := treeLevel g
  ((t (t (t (t (t l))))).headD none).getD 0

/-- A leaf of the tree as its lane gives it (R112): an FP32 source is flushed under `.ftz`, and a NaN is the canonical one
(R73, R75). -/
def reduxLeaf (ty : IntTy) (ftz : Bool) (x : Nat) : Nat :=
  if ty = .f32 then fres (fval x .f32 ftz) .f32 .rne false ftz else x

/-- The combination of two values at a node (R112). -/
def reduxNode (ty : IntTy) (ftz : Bool) (op : ReduxOp) (rnd : Rnd) (x y : Nat) : Nat :=
  if ty = .f32 then
    let a := fval x .f32 ftz
    let b := fval y .f32 ftz
    match op with
    | .min => fres (minMax false a b) .f32 .rne false ftz
    | .max => fres (minMax true a b) .f32 .rne false ftz
    | _ => fres (XR.add rnd a b) .f32 rnd false ftz
  else
    let a := intOf x ty
    let b := intOf y ty
    match op with
    | .add => lowBits (a + b) 32
    | .min => lowBits (min a b) 32
    | .max => lowBits (max a b) 32
    | .and => x &&& y
    | .or => x ||| y
    | .xor => x ^^^ y

/-- `redux` (R112). -/
def execRedux (f : Frame) (ty : IntTy) (ftz : Bool) (op : ReduxOp) (rnd : Rnd) (s : State) :
    Host.Outcome State Fault Refusal :=
  alu (.redux f ty ftz op rnd) s 1 fun c _ =>
    tree32 (reduxNode ty ftz op rnd) ((List.range 32).map fun l =>
      if c.group.contains l then some (reduxLeaf ty ftz (if ty = .f32 then c.fsrc32 l else c.a l)) else none)

end Sys2Proof.Machine
end

