-- ==== Sys2Proof/Machine/Matrix.lean ====
section
/-! DEFINITION. The Caller's instructions and the matrix engines (13_cluster_caller_matrix.md R226 to R243,
04_number_formats.md R86, R88, R91). -/

namespace Sys2Proof.Machine

open Sys2Proof

/-! ### The matrix control word, engines and tiles -/

/-- The matrix control word of R230: X in the M form, a c register in the S form. -/
def Ctx.mcw (c : Ctx) (lane : Nat) : Nat := if c.e.f.isS then c.d lane % 2 ^ 21 else c.e.f.x.toNat

/-- ENG of R230. -/
def mcwEng (m : Nat) : Nat := field m 20 19
/-- TILE of R230. -/
def mcwTile (m : Nat) : Nat := field m 18 12
/-- HND of R230. -/
def mcwHnd (m : Nat) : Nat := field m 11 8
/-- OPT of R230. -/
def mcwOpt (m : Nat) : Nat := field m 7 0

/-- Fault 0x01, subcode 0x03, of a field the instruction does not use (R230). -/
def mcwBad (m : Nat) (eng tile hnd opt : Bool) : Option Flt :=
  if (!eng && mcwEng m != 0) || (!tile && mcwTile m != 0) || (!hnd && mcwHnd m != 0) || (!opt && mcwOpt m != 0) then
    some { code := 1, sub := 3 }
  else none

/-- Fault 0x07, subcode 0x06 (R223, R233). -/
def noPartner : Flt := { code := 7, sub := 6 }

/-- The cluster group of a Caller, with its number. -/
def State.callerGroup (s : State) (c : Ctx) : Option (Nat × Group) :=
  (s.groupOf c.x).bind fun q => (s.groups.find q).map fun g => (q, g)

/-- A handle of a group. -/
def Group.handle (g : Group) (n : Nat) : Option Handle := g.handles.find n

/-- A tile that nothing has written: +0, with no invalid mark (R229). -/
def Tile.zero : Tile := { acc := [], invalid := false }

/-- Tile n of a workgroup. -/
def Wg.tile (y : Wg) (n : Nat) : Tile := (y.tiles.find n).getD .zero

/-- Tile n of a workgroup replaced. -/
def State.setTile (s : State) (wg n : Nat) (t : Tile) : State :=
  { s with wgs := s.wgs.upd wg fun y => { y with tiles := y.tiles.ins n t } }

/-- The invalid mark of a tile set. -/
def State.spoil (s : State) (wg n : Nat) : State :=
  { s with wgs := s.wgs.upd wg fun y => { y with tiles := y.tiles.ins n { y.tile n with invalid := true } } }

/-- The queue of the engine that a command names has room (R228). -/
def State.engineRoom (s : State) (c : Ctx) : Bool :=
  match c.group with
  | [] => true
  | l :: _ => decide ((s.core (4 * clusterOfWave c.w + mcwEng (c.mcw l))).engine.queue.length < 16)

/-- An engine command enters the queue of its engine (R227, R228). -/
def State.putCmd (s : State) (c : Ctx) (eng : Nat) (cmd : ECmd) : State :=
  let g := 4 * clusterOfWave c.w + eng
  let k := s.core g
  let n := k.engine.issued + 1
  s.setCore g { k with engine := { k.engine with issued := n, queue := k.engine.queue ++ [⟨cmd, n, c.pc, c.id⟩] } }

/-- An engine command of the Caller: it waits at issue while its queue is full (R228). -/
def engineCmd (i : Instr) (s : State) (g : Ctx → State → Nat → Lane) : Host.Outcome State Fault Refusal :=
  perLaneIf i s (fun c s1 => s1.engineRoom c) g

/-- A command is issued after what R300 orders before it. -/
def State.engineGo (s : State) (c : Ctx) (lane eng : Nat) (cmd : ECmd) : Lane :=
  match s.engineIssue c.w lane c.id with
  | none => .stay s
  | some s1 => .ok (s1.putCmd c eng cmd) []

/-- The partner of an engine, by workgroup. -/
def State.enginePartner (s : State) (c : Ctx) (eng : Nat) : Option (Nat × Wg) :=
  (s.partnerOf c.x eng).bind fun wg => (s.wgs.find wg).map fun y => (wg, y)

/-! ### Issue of `mma`, `mma.z` and `azero` (R233, R239) -/

/-- The TOB operands of an `mma` are aligned, name the engine's partner and lie in its window (R233). -/
def tobBad (size eng : Nat) (as : List Nat) : Option Flt :=
  match as.find? fun a => a % 2 ^ 30 % 16384 != 0 with
  | some a => some { code := 2, sub := 1, addr := some a }
  | none =>
    match as.find? fun a => a / 2 ^ 30 % 4 != eng with
    | some a => some { noPartner with addr := some a }
    | none =>
      match as.find? fun a => decide (size < a % 2 ^ 30 + 16384) with
      | some a => some { code := 7, sub := 1, addr := some a }
      | none => none

/-- `mma` and `mma.z` of the Caller (R231, R233). -/
def State.mmaLane (s : State) (c : Ctx) (lane : Nat) (z : Bool) (sa sb : BitVec 3) (bh : Bool) : Lane :=
  let m := c.mcw lane
  let eng := mcwEng m
  let a := c.a lane
  let b := c.b lane
  match mcwBad m true true bh false, s.enginePartner c eng with
  | some f, _ => .fault s f
  | none, none =>
    .fault s (match tobBad (2 ^ 30) eng (if bh then [a] else [a, b]) with
      | some f => if f.code = 2 then f else noPartner
      | none => noPartner)
  | none, some (_, y) =>
    match tobBad (y.tobBanks * 131072) eng (if bh then [a] else [a, b]) with
    | some f => .fault s f
    | none =>
      if y.accN ≤ mcwTile m then .fault s { code := 3, sub := 3 }
      else
        let off (v : Nat) : Nat := v % 2 ^ 30
        if !bh then s.engineGo c lane eng (.mma z sa.toNat sb.toNat none (mcwTile m) (off a) (off b))
        else
          match (s.callerGroup c).bind fun g => g.2.handle (mcwHnd m) with
          | some h =>
            if h.bound then s.engineGo c lane eng (.mma z sa.toNat sb.toNat (some (mcwHnd m, h.inst)) (mcwTile m) (off a) 0)
            else .fault s { code := 0x0C, sub := 3 }
          | none => .fault s { code := 0x0C, sub := 3 }

/-- `mma` (R231, R233). -/
def execMma (f : Frame) (sa sb : BitVec 3) (bh : Bool) (s : State) : Host.Outcome State Fault Refusal :=
  engineCmd (.mma f sa sb bh) s fun c s1 l => s1.mmaLane c l false sa sb bh

/-- `mma.z` (R231, R233). -/
def execMmaZ (f : Frame) (sa sb : BitVec 3) (bh : Bool) (s : State) : Host.Outcome State Fault Refusal :=
  engineCmd (.mmaZ f sa sb bh) s fun c s1 l => s1.mmaLane c l true sa sb bh

/-- `azero` of the Caller (R239). -/
def State.azeroLane (s : State) (c : Ctx) (lane : Nat) : Lane :=
  let m := c.mcw lane
  match mcwBad m true true false false, s.enginePartner c (mcwEng m) with
  | some f, _ => .fault s f
  | none, none => .fault s noPartner
  | none, some (_, y) =>
    if y.accN ≤ mcwTile m then .fault s { code := 3, sub := 3 } else s.engineGo c lane (mcwEng m) (.azero (mcwTile m))

/-- `azero` (R239). -/
def execAzero (f : Frame) (s : State) : Host.Outcome State Fault Refusal :=
  engineCmd (.azero f) s fun c s1 l => s1.azeroLane c l

/-! ### Tile fetch (R234 to R236) -/

/-- A handle is bound, and its rows are to be fetched (R234, R235). -/
def State.bindHandle (s : State) (c : Ctx) (lane n hnd base pitch : Nat) (slot : BitVec 3) (q : Bool) : Lane :=
  match if q then (s.slot c.x.rgn slot).checkIn (fun n => n == 7) else none with
  | some sub => .fault s (slotFault sub slot)
  | none =>
    match s.engineIssue c.w lane c.id with
    | none => .stay s
    | some s1 =>
      let h : Handle := { inst := c.id, bound := true, faulted := false, base := BitVec.ofNat 64 base, pitch := pitch
                          slot := if q then slot.toNat else 0, q := q, rows := [], scales := [], pc := c.pc }
      .ok { s1 with groups := s1.groups.upd n fun g => { g with handles := g.handles.ins hnd h } } []

/-- `tfetch` of the Caller (R234). -/
def State.tfetchLane (s : State) (c : Ctx) (lane : Nat) (fs : BitVec 3) (q : Bool) : Lane :=
  let m := c.mcw lane
  let base := c.a lane 2
  let pitch := c.b lane
  match mcwBad m false false true false, s.callerGroup c with
  | some f, _ => .fault s f
  | none, none => .stay s
  | none, some (n, g) =>
    let hnd := mcwHnd m
    if base % 128 ≠ 0 ∨ pitch = 0 ∨ pitch % 128 ≠ 0 then .fault s { code := 2, sub := 1, addr := some base }
    else
      match g.handle hnd with
      | some h =>
        if h.bound then .fault s { code := 0x0C, sub := 2 }
        else if s.named g hnd h.inst then .stay s
        else s.bindHandle c lane n hnd base pitch fs q
      | none => s.bindHandle c lane n hnd base pitch fs q

/-- `tfetch` (R234). -/
def execTfetch (f : Frame) (fs : BitVec 3) (q : Bool) (s : State) : Host.Outcome State Fault Refusal :=
  perLane (.tfetch f fs q) s fun c s1 l => s1.tfetchLane c l fs q

/-- `trel` of the Caller (R236). -/
def State.trelLane (s : State) (c : Ctx) (lane : Nat) : Lane :=
  let m := c.mcw lane
  match mcwBad m false false true false, s.callerGroup c with
  | some f, _ => .fault s f
  | none, none => .ok s []
  | none, some (n, _) =>
    let free (g : Group) : Group := { g with handles := g.handles.upd (mcwHnd m) fun h => { h with bound := false } }
    .ok { s with groups := s.groups.upd n free } []

/-- `trel` (R236). -/
def execTrel (f : Frame) (s : State) : Host.Outcome State Fault Refusal :=
  perLane (.trel f) s fun c s1 l => s1.trelLane c l

/-- The lines of some bytes may be pinned: each slice pins 512 lines at most, with those it pins already (R235). -/
def State.pinRoom (s : State) (keys : List Nat) : Bool :=
  let held := s.pins
  let new := (distinct (keys.map fun k => k / 256)).filter fun l => !held.contains l
  new.all fun l => decide (((held ++ new).filter fun n => s.homeOf (256 * n) == s.homeOf (256 * l)).length ≤ 512)

/-- Class P is refused to a tile fetch (R235). -/
def clsFetch (k : PgCls) : Option (BitVec 8) := if k = .p then some 0x0A else none

/-- Who a tile fetch acts for: a record of it names the PC of the `tfetch` (R164). -/
def fetchOf (rgn k : Nat) (h : Handle) : EngOf := ⟨rgn, none, k, h.pc, h.inst⟩

/-- One piece of a fetch, of row or scale number i. -/
inductive FetchRes where
  | got (s : State) (keys : List (Nat × Nat))
  | bad (s : State)
  | wait (s : State)
  deriving DecidableEq, Repr

/-- The bytes of a fetch translated and read, each with its place. An uncorrectable error is fault 0x0C, subcode 0x03, of the
fetch (R289). -/
def State.fetchAt (s : State) (e : EngOf) (va n i : Nat) : FetchRes :=
  match s.engParts e .rd clsFetch va n with
  | .stop (.fault s1 f) => .bad (s1.engRecord e f)
  | .stop (.quota s1 r) => .wait (s1.engQuota e r)
  | .stop (.wait s1) => .wait s1
  | .stop _ => .wait s
  | .ok s1 parts =>
    match s1.engFetch e parts with
    | .poison s2 bad key => .bad ((s2.engRecord e { code := 0x0C, sub := 3, addr := some bad }).dataError e.rgn key)
    | .ok s2 _ => .got s2 (parts.flatMap fun p => (List.range p.size).map fun j => (i + (p.va - va) + j, p.key + j))
    | _ => .wait s1

/-- What a fetch of a row asks for: the row, and under Q its scale bytes (R235). -/
def State.fetchRow (s : State) (e : EngOf) (h : Handle) (row : Nat) : FetchRes :=
  match s.fetchAt e ((h.base.toNat + row * h.pitch) % 2 ^ 64) 128 0 with
  | .got s1 keys =>
    if !h.q then .got s1 (keys.take 1)
    else
      let off := (s1.slot e.rgn (BitVec.ofNat 3 h.slot)).soff
      let va := lowBits ((h.base.toNat : Int) + off + (row * h.pitch / 16 : Nat)) 64
      (match s1.fetchAt e va 8 (8 * row) with
       | .got s2 ks => .got s2 (keys.take 1 ++ ks)
       | r => r)
  | r => r

/-- TFETCH_ROW_FETCH (R235): a row of a bound tile is translated and pinned, and under Q its scale bytes too, where its lines have
room beside those that their slices pin. -/
def execTfetchRowFetch (cluster handle row : Nat) (s : State) : Host.Outcome State Fault Refusal :=
  match s.engineGroup cluster with
  | none => .next s
  | some (q, g) =>
    match g.handle handle with
    | none => .next s
    | some h =>
      if 128 ≤ row ∨ h.faulted ∨ !s.pinned g handle h ∨ (h.rows.find row).isSome ∨ s.quotaWait g.rgn then .next s
      else
        let put (s : State) (u : Handle → Handle) : State :=
          { s with groups := s.groups.upd q fun g => { g with handles := g.handles.upd handle u } }
        match s.fetchRow (fetchOf g.rgn cluster h) h row with
        | .bad s1 => .next (put s1 fun h => { h with faulted := true })
        | .wait s1 => .next s1
        | .got s1 keys =>
          if !s1.pinRoom (keys.map Prod.snd) then .next s
          else
            .next (put s1 fun h => { h with
              rows := h.rows.ins row ((keys.headD (0, 0)).2)
              scales := (keys.drop 1).foldl (fun m k => m.ins k.1 k.2) h.scales })

/-! ### Issue of `drain` (R237, R238) -/

/-- The absmax word of a `drain` at issue (R238). -/
def State.absmaxBad (s : State) (c : Ctx) (va : Nat) : Except Lane State :=
  if va % 4 ≠ 0 then .error (.fault s { code := 2, sub := 1, addr := some va, wr := true })
  else
    match s.translate (c.x.agent c.w) va .wr clsHome with
    | .ok s1 _ => .ok s1
    | .fault s1 f => .error (.fault s1 f)
    | .quota s1 r => .error (.quota s1 r)
    | .wait s1 => .error (.stay s1)

/-- The destination, pitch and barrier of a `drain` at issue (R238). -/
def drainBad (y : Wg) (eng dst : Nat) (a : Nat) (bar : Option Nat) : Option Flt :=
  let addr := a % 2 ^ 32
  let named := (if dst = 2 then [] else [addr]) ++ bar.toList
  match named.find? fun v => v / 2 ^ 30 % 4 != eng with
  | some v => some { noPartner with addr := some v }
  | none =>
    match bar with
    | some b =>
      if b % 32 ≠ 0 then some { code := 2, sub := 1, addr := some b }
      else if y.scrSize < b % 2 ^ 30 + 32 then some { code := 7, sub := 0, addr := some b }
      else if dst ≠ 2 ∧ (addr % 4 ≠ 0 ∨ a / 2 ^ 32 % 4 ≠ 0) then some { code := 2, sub := 1, addr := some addr }
      else none
    | none => if dst ≠ 2 ∧ (addr % 4 ≠ 0 ∨ a / 2 ^ 32 % 4 ≠ 0) then some { code := 2, sub := 1, addr := some addr } else none

/-- `drain` of the Caller (R237, R238). In the S form the destination says at execution which class A has: the zero literal with
10, a register else (R42). -/
def State.drainLane (s : State) (c : Ctx) (lane : Nat) (fs : BitVec 3) : Lane :=
  let m := c.mcw lane
  let opt := mcwOpt m
  let dst := field opt 7 6
  let str := field opt 5 4
  let eng := mcwEng m
  let bar := if c.e.f.isS ∨ c.e.f.c = .zeroLit then none else some (c.c lane % 2 ^ 32)
  let form := mcwBad m true true false true
  let bad := form.isSome || dst == 3 || field opt 3 0 != 0 || (dst != 2 && str != 0)
  let clsBad := (dst == 2) != (c.e.f.a == .zeroLit)
  match bad, s.enginePartner c eng with
  | true, _ => .fault s { code := 1, sub := 3 }
  | false, none => .fault s (if clsBad then { code := 1, sub := 9 } else noPartner)
  | false, some (wg, y) =>
    if clsBad then .fault s { code := 1, sub := 9 }
    else if y.accN ≤ mcwTile m then .fault s { code := 3, sub := 3 }
    else
      match drainBad y eng dst (c.a lane 2) bar with
      | some f => .fault s f
      | none =>
        let merge := c.e.f.b != .zeroLit
        match if merge then s.absmaxBad c (c.b lane 2) else .ok s with
        | .error r => r
        | .ok s1 =>
          let a := c.a lane 2
          s1.engineGo c lane eng (.drain fs.toNat dst str (mcwTile m) (a % 2 ^ 30) (a / 2 ^ 32)
            (if merge then some (c.b lane 2) else none) (bar.map fun b => ⟨wg, b % 2 ^ 30⟩))

/-- `drain` (R237, R238). -/
def execDrain (f : Frame) (fs : BitVec 3) (s : State) : Host.Outcome State Fault Refusal :=
  engineCmd (.drain f fs) s fun c s1 l => s1.drainLane c l fs

/-! ### Engines at work (R228, R233, R238, R243) -/

/-- An engine at work: its core, its group, its workgroup and the command at the head of its queue. -/
structure AtWork where
  core : Nat
  group : Nat
  rgn : Nat
  wg : Nat
  q : QCmd
  deriving DecidableEq, Repr

/-- The command at the head of an engine that is not halted. -/
def State.atWork (s : State) (g : Nat) : Option AtWork :=
  let e := (s.core g).engine
  match e.queue, s.engineGroup (g / 4) with
  | c :: _, some (q, y) =>
    if e.mestat.getLsbD 0 then none else (y.members.find (g % 4)).map fun wg => ⟨g, q, y.rgn, wg, c⟩
  | _, _ => none

/-- Who a command acts for. -/
def AtWork.eng (x : AtWork) : EngOf := ⟨x.rgn, some x.core, x.core / 4, x.q.pc, x.q.id⟩

/-- The command is complete (R227): it leaves the queue, a Caller that waits looks again, and a group with nothing more to
do ends. -/
def State.cmdDone (s : State) (x : AtWork) : State :=
  let c := s.core x.core
  let e : Engine :=
    { c.engine with queue := c.engine.queue.drop 1, done := c.engine.done + 1, row := 0, piece := 0, read := [] }
  ((s.setCore x.core { c with engine := e }).wakeWhere (callerKey + x.core / 4) .sync fun y => match y with
    | .engines => true
    | _ => false).groupEnd x.group

/-- ENGINE_HALT (R243): the tile is marked invalid, `mestat` is written, and DONE counts the command. -/
def State.engineHalt (s : State) (x : AtWork) (tile cause : Nat) (sub : BitVec 8) (slot : Nat) : State :=
  let s1 := s.spoil x.wg tile
  let c := s1.core x.core
  let word := 2 ^ 48 * (x.q.seq.toNat % 65536) + 2 ^ 32 * (tile % 128) + 2 ^ 16 * cause + 2 ^ 8 * sub.toNat + 2 ^ 5 * slot + 1
  (s1.setCore x.core { c with engine := { c.engine with mestat := BitVec.ofNat 64 word } }).cmdDone x

/-- The formats `mma` accepts (R232). -/
def mmaAccepts (n : Nat) : Bool := decide (2 ≤ n) && decide (n ≤ 7)

/-- The elements of a row, of a format and its width, under the scale bytes of its blocks (R72, R77, R80). -/
def rowVals (fmt : Nat) (row scales : List Byte) : List XR :=
  let v := leBytes row
  let w := fmtBits fmt
  (List.range (1024 / w)).map fun k =>
    let b := v / 2 ^ (w * k) % 2 ^ w
    if fmt = 7 then q4Val ((scales.getD (k / 32) 0).toNat) b else slotVal fmt b

/-- One element of R91: groups of 16 products in ascending k, each summed exactly with the accumulator and rounded once. -/
def dotGroups (acc : Nat) (ps : List XR) : Nat → Nat
  | 0 => acc
  | n + 1 => dotGroups (fres (XR.sum .rne (fval acc .f32 false :: ps.take 16)) .f32 .rne false false) (ps.drop 16) n

/-- One element of an accumulator tile after an `mma` (R91, R233). -/
def mmaElem (acc : Nat) (a b : List XR) : Word :=
  BitVec.ofNat 32 (dotGroups acc ((a.zip b).map fun e => e.1.mul e.2) ((a.length + 15) / 16))

/-- An accumulator tile after an `mma` or `mma.z`. -/
def mmaTile (z : Bool) (t : Tile) (a b : List (List XR)) : Tile :=
  let acc := (a.zipIdx).foldl (fun m r => (b.zipIdx).foldl (fun m c =>
    let i := 128 * r.2 + c.2
    NMap.put 0 m i (mmaElem (if z then 0 else (NMap.get 0 t.acc i).toNat) r.1 c.1)) m) t.acc
  { acc := acc, invalid := if z then false else t.invalid }

/-- An operand as an engine reads it: 128 rows of bytes, and the 8 scale bytes of each. -/
abbrev OperandRows := List (List Byte × List Byte)

/-- A Q4 block of an operand has EXP = 63 (R81). -/
def q4Bad (fmt : Nat) (rows : OperandRows) : Bool :=
  fmt == 7 && rows.any fun r => r.2.any fun b => b.toNat % 64 == 63

/-- Where an operand is read from: a tile of the TOB, or a fetched tile. -/
inductive Source where
  | tob (base : Nat)
  | handle (h : Handle)
  deriving DecidableEq, Repr

/-- A scale byte of a Q4 tile of the TOB lies beyond the window (R232, R233). -/
def Wg.scaleBeyond (y : Wg) (base : Nat) (slot : SlotRec) : Bool :=
  let off : Int := base + slot.soff
  slot.fmt == 7 && (decide (off < 0) || decide ((y.tobBanks * 131072 : Int) < off + 1024))

/-- The places at which a piece of a row of a fetched tile is read: grain p of the row, or with p = 4 its scale bytes (R235). -/
def Handle.keysOf (h : Handle) (slot : SlotRec) (r p : Nat) : List (Nat × Nat) :=
  if p < 4 then [((h.rows.find r).getD 0 + 32 * p, 32)]
  else if slot.fmt = 7 then (List.range 8).filterMap fun b => (h.scales.find (8 * r + b)).map fun k => (k, 1)
  else []

/-- A piece of a row as an engine reads it (R232, R235): grain p of the row's 128 bytes, or with p = 4 its 8 scale bytes. A scale
byte that no fetch has asked for, of a slot that a handle without Q reads as Q4, has no stated value: it is free. -/
def State.readPiece (s : State) (tag : Option (BitVec 5)) (y : Wg) (src : Source) (slot : SlotRec) (v r p : Nat) : List Byte :=
  match src with
  | .tob base =>
    if p < 4 then winBytes y.tob (base + 128 * r + 32 * p) 32
    else if slot.fmt = 7 then winBytes y.tob (base + slot.soff + 8 * r : Int).toNat 8
    else []
  | .handle h =>
    let byte (k : Nat) : Byte := if s.cutOff k then 0xFF else s.homeByte tag k
    if p < 4 then (List.range 32).map fun j => byte ((h.rows.find r).getD 0 + 32 * p + j)
    else if slot.fmt = 7 then (List.range 8).map fun b => match h.scales.find (8 * r + b) with
      | some k => byte k
      | none => recordByte v (8 * r + b)
    else []

/-- A fetched tile is there for an engine's reads: every row of it, and under Q every scale byte, is fetched (R235). -/
def Handle.there (h : Handle) : Bool := decide (128 ≤ h.rows.length) && (!h.q || decide (1024 ≤ h.scales.length))

/-- What a B operand comes to: where it is read from, the cause with which the engine halts, or a wait. -/
inductive BRes where
  | ok (src : Source)
  | halt (cause : Nat)
  | wait
  deriving DecidableEq, Repr

/-- Where an `mma` reads its B operand (R231, R233). -/
def State.operandB (s : State) (x : AtWork) (y : Wg) (bh : Option (Nat × Nat)) (b : Nat) (slot : SlotRec) : BRes :=
  match bh with
  | none => if y.scaleBeyond b slot then .halt 3 else .ok (.tob b)
  | some (n, inst) =>
    match (s.groups.find x.group).bind fun g => g.handle n with
    | none => .wait
    | some h =>
      if h.inst ≠ inst ∧ !h.bound then .wait
      else if h.faulted then .halt 2
      else if h.there then .ok (.handle h)
      else .wait

/-- An uncorrectable error in a fetched tile faults its handle, with fault 0x0C, subcode 0x03 (R289). -/
def State.handlePoison (s : State) (x : AtWork) (bh : Option (Nat × Nat)) (key : Nat) : State :=
  let n := match bh with | some (n, _) => n | none => 0
  let s1 := { s with groups := s.groups.upd x.group fun g =>
    { g with handles := g.handles.upd n fun h => { h with faulted := true } } }
  (s1.engRecord x.eng { code := 0x0C, sub := 3 }).dataError x.rgn key

/-- The rows of the operands of an `mma` from their pieces in order. -/
def rowsOf : List (List Byte) → OperandRows
  | a :: b :: c :: d :: e :: l => (a ++ b ++ c ++ d, e) :: rowsOf l
  | _ => []

/-- The slot of the B operand: the handle's where there is one (R231). -/
def State.slotB (s : State) (x : AtWork) (bh : Option (Nat × Nat)) (sb : Nat) : Nat :=
  match bh with
  | none => sb
  | some (n, _) => match (s.groups.find x.group).bind fun g => g.handle n with | some h => h.slot | none => sb

/-- An `mma` with its operands: the pieces that it still has to read, of A and then of B, each by 5 × (row + 128 for B) + its place in
the row. -/
def Engine.todo (e : Engine) : List Nat := (List.range 1280).filter fun n => (e.read.find n).isNone

/-- An `mma` reads its operands grain by grain while it executes, as a free value has it, so a store meanwhile is seen in each grain or
not (R233, R235, R297): the pieces read now, with their bytes, the state after, and the place of an uncorrectable error. None where
one of them is held. A pinned grain is read at its home, at that time (DESIGN CHOICE among the values that R235 allows, assumption
75). -/
def State.mmaRead (s : State) (x : AtWork) (y : Wg) (ra rb : SlotRec) (sa sb : Source) :
    Option (State × List (Nat × List Byte) × Option Nat) :=
  let tag := s.liveTag x.rgn
  let todo := (s.core x.core).engine.todo
  let (n, s1) := s.fresh
  let (v, s2) := s1.fresh
  let now := if n % 2 = 0 then todo else todo.filter fun i => n.testBit (i + 1)
  let at_ (i : Nat) : Source × SlotRec := if i < 640 then (sa, ra) else (sb, rb)
  let keys := now.flatMap fun i => match (at_ i).1 with
    | .tob _ => []
    | .handle h => h.keysOf (at_ i).2 (i / 5 % 128) (i % 5)
  if keys.any fun k => s2.heldPart tag x.q.id k.1 then none
  else
    let s3 := keys.foldl (fun s k => if s.cutOff k.1 then s else s.atHome k.1 k.2) s2
    some (s3, now.map fun i => (i, s3.readPiece tag y (at_ i).1 (at_ i).2 v (i / 5 % 128) (i % 5)),
      (keys.find? fun k => s2.poisonedFor tag k.1 k.2).map Prod.fst)

/-- An `mma` that has read its operands acts on its tile (R91, R233). -/
def State.mmaFinish (s : State) (x : AtWork) (y : Wg) (z : Bool) (ra rb : SlotRec) (sa nb tile : Nat) (rows : OperandRows) :
    State :=
  let rowsA := rows.take 128
  let rowsB := rows.drop 128
  if q4Bad ra.fmt rowsA then s.engineHalt x tile 1 7 sa
  else if q4Bad rb.fmt rowsB then s.engineHalt x tile 1 7 nb
  else
    let vals (fmt : Nat) (rows : OperandRows) : List (List XR) := rows.map fun r => rowVals fmt r.1 r.2
    (s.setTile x.wg tile (mmaTile z (y.tile tile) (vals ra.fmt rowsA) (vals rb.fmt rowsB))).cmdDone x

/-- ENGINE_MMA_EXECUTE (R233): `mma` and `mma.z`. -/
def State.runMma (s : State) (x : AtWork) (y : Wg) (z : Bool) (sa sb : Nat) (bh : Option (Nat × Nat))
    (tile a b : Nat) : State :=
  let nb := s.slotB x bh sb
  let ra := s.slot x.rgn (BitVec.ofNat 3 sa)
  let rb := s.slot x.rgn (BitVec.ofNat 3 nb)
  match ra.checkIn mmaAccepts, rb.checkIn mmaAccepts with
  | some sub, _ => s.engineHalt x tile 1 sub sa
  | none, some sub => s.engineHalt x tile 1 sub nb
  | none, none =>
    if fmtBits ra.fmt ≠ fmtBits rb.fmt then s.engineHalt x tile 1 6 nb
    else
      match s.operandB x y bh b rb, y.scaleBeyond a ra with
      | .wait, _ => s
      | .halt 2, _ => s.engineHalt x tile 2 0 nb
      | _, true => s.engineHalt x tile 3 0 sa
      | .halt n, false => s.engineHalt x tile n 0 nb
      | .ok src, false =>
        if (y.tile tile).invalid && !z then s.cmdDone x
        else
          match s.mmaRead x y ra rb (.tob a) src with
          | none => s
          | some (s1, _, some key) => (s1.handlePoison x bh key).engineHalt x tile 2 0 nb
          | some (s1, new, none) =>
            let e := (s1.core x.core).engine
            let read : NMap (List Byte) := if e.read.isEmpty then new else new.foldl (fun m i => m.ins i.1 i.2) e.read
            if read.length < 1280 then s1.setCore x.core { s1.core x.core with engine := { e with read := read } }
            else s1.mmaFinish x y z ra rb sa nb tile (rowsOf (read.map Prod.snd))

/-- ENGINE_MMA_EXECUTE (R233). -/
def execEngineMmaExecute (core : Nat) (s : State) : Host.Outcome State Fault Refusal :=
  match s.atWork core with
  | none => .next s
  | some x =>
    match x.q.cmd, s.wgs.find x.wg with
    | .mma z sa sb bh tile a b, some y => .next (s.runMma x y z sa sb bh tile a b)
    | _, _ => .next s

/-- ENGINE_AZERO_EXECUTE (R239). -/
def execEngineAzeroExecute (core : Nat) (s : State) : Host.Outcome State Fault Refusal :=
  match s.atWork core with
  | none => .next s
  | some x =>
    match x.q.cmd with
    | .azero tile => .next ((s.setTile x.wg tile .zero).cmdDone x)
    | _ => .next s

/-! ### Drains -/

/-- What a drain writes: its destination, stream, tile, address, pitch, absmax word and barrier. -/
structure DrainOf where
  fs : Nat
  dst : Nat
  str : Nat
  tile : Nat
  addr : Nat
  pitch : Nat
  absmax : Option Nat
  bar : Option BarRef
  deriving DecidableEq, Repr

/-- The width of an element that a slot names for the whole count of R243: 32 bits where it names none. -/
def countBits (fmt : Nat) : Nat := if fmt = 0 ∨ 8 ≤ fmt then 32 else fmtBits fmt

/-- The bytes a drain to a window writes, and the words it pushes to a stream (R243). -/
def wholeCount (fmt : Nat) : Nat × Nat :=
  (128 * (16 * countBits fmt) + (if fmt = 7 then 512 else 0), 16384 * countBits fmt / 32)

/-- Bytes landed in the barrier of a drain, if it has one. -/
def State.drainLand (s : State) (d : DrainOf) (n : Nat) (flt : Bool) : State :=
  match d.bar with
  | some r => s.barLand r n flt
  | none => s

/-- Words pushed onto a drain stream of an engine (R210); the waves of its core that wait for them wake (R188). -/
def State.drainPush (s : State) (g str : Nat) (ws : List Word) : State :=
  let c := s.core g
  let e := c.engine
  let e1 : Engine := { e with backlog := e.backlog.modify str fun l => l ++ ws }
  let s1 := s.setCore g { c with engine := e1.refill str }
  ((s1.waves.filter fun e => decide (coreOfWave e.1 = some g)).map Prod.fst).foldl
    (fun s w => s.wakeWhere w .qdrn fun y => match y with
      | .queue qs => qs.contains (str + 1)
      | _ => false) s1

/-- The drain writes nothing: the whole count lands with FLTC, or all ones enter the stream (R238, R243). -/
def State.drainVoid (s : State) (x : AtWork) (d : DrainOf) : State :=
  let (bytes, words) := wholeCount (s.slot x.rgn (BitVec.ofNat 3 d.fs)).fmt
  if d.dst = 2 then s.drainPush x.core d.str (onesWords words) else s.drainLand d bytes true

/-- An engine has come to a row of its drain, and to a piece of it. -/
def State.setRow (s : State) (g n : Nat) (piece : Nat := 0) : State :=
  let c := s.core g
  s.setCore g { c with engine := { c.engine with row := n, piece := piece } }

/-- The elements of a row of a tile. -/
def Tile.row (t : Tile) (r : Nat) : List Nat := (List.range 128).map fun c => (NMap.get 0 t.acc (128 * r + c)).toNat

/-- The greatest magnitude among elements, by its bits; a NaN takes no part (R238). -/
def absMax (es : List Nat) : Nat :=
  es.foldl (fun m e => let a := e % 2 ^ 31; if 0x7F800000 < a then m else max m a) 0

/-- A row packed: its bytes and its scale bytes (R74, R127, R238). -/
def packRow (slot : SlotRec) (es : List Nat) : List Byte × List Byte :=
  let val (e : Nat) : XR := fval e .f32 false
  let w := fmtBits slot.fmt
  if slot.fmt ≠ 7 then
    let v := (es.zipIdx.map fun e => slotRound slot.fmt (val e.1) slot.rnd slot.sat % 2 ^ w * 2 ^ (w * e.2)).sum
    (toLe (16 * w) v, [])
  else
    let block (b : Nat) : List Nat := (es.drop (32 * b)).take 32
    let scale (b : Nat) : Nat := q4Scale slot.pack (val (absMax (block b)))
    let code (b e : Nat) : Nat := qcode (XR.scale (val e) (32 - (scale b : Int))) slot.pack slot.rnd
    let codes := (List.range 4).flatMap fun b => (block b).map (code b)
    (toLe 64 (codes.zipIdx.map fun e => e.1 % 16 * 16 ^ e.2).sum,
     (List.range 4).map fun b => BitVec.ofNat 8 (64 * slot.pack + scale b))

/-- A row, or a scale byte, of a drain lies beyond its window (R238). -/
def drainBeyond (slot : SlotRec) (d : DrainOf) (size : Nat) : Bool :=
  let last := d.addr + 127 * d.pitch + 16 * fmtBits slot.fmt
  let lo : Int := d.addr + slot.soff
  d.dst != 2 && (decide (size < last) ||
    (slot.fmt == 7 && (decide (lo < 0) || decide ((size : Int) < lo + (127 * d.pitch / 16 : Nat) + 4))))

/-- The atomic maximum of a drain at the absmax word's home (R238): the state after it, and whether it is done. It is not while
it is held, or while its region stands still for a quota (R364). -/
def State.mergeMax (s : State) (x : AtWork) (va m : Nat) : State × Bool :=
  if s.quotaWait x.rgn then (s, false)
  else
    match s.engParts x.eng .wr clsHome va 4 with
    | .stop (.fault s1 f) => (s1.engRecord x.eng f, true)
    | .stop (.quota s1 r) => (s1.engQuota x.eng r, false)
    | .stop (.wait s1) => (s1, false)
    | .stop _ => (s, false)
    | .ok s1 parts =>
      match s1.engFetch x.eng parts with
      | .ok s2 bs =>
        (match s2.engStore x.eng parts (toLe 4 (max m (leBytes bs))) with
         | .ok s3 _ => (s3, true)
         | .full s3 v => (s3.engFull x.eng v, true)
         | _ => (s2, true))
      | .poison s2 _ key => (s2.dataError x.rgn key, true)
      | _ => (s1, true)

/-- The merge of a drain that has one. -/
def State.drainMerge (s : State) (x : AtWork) (d : DrainOf) (t : Tile) : State × Bool :=
  match d.absmax with
  | none => (s, true)
  | some va => s.mergeMax x va (absMax ((List.range 128).flatMap t.row))

/-- Bytes to be written from an offset of a window on, cut by its grains of 32 bytes (R297), at most so many. -/
def cutGrains : Nat → Nat → List Byte → List (Nat × List Byte)
  | 0, _, _ => []
  | n + 1, off, bs =>
    if bs.isEmpty then []
    else
      let k := 32 - off % 32
      (off, bs.take k) :: cutGrains n (off + k) (bs.drop k)

/-- The pieces of a row that a drain writes, each with its offset in the window: the row's, then those of its scale bytes (R238). -/
def drainPieces (slot : SlotRec) (d : DrainOf) (r : Nat) (bs sc : List Byte) : List (Nat × List Byte) :=
  cutGrains bs.length (d.addr + r * d.pitch) bs ++
    cutGrains sc.length ((d.addr + slot.soff + (r * d.pitch / 16 : Nat) : Int)).toNat sc

/-- A drain goes on after a piece of a row: to the next one, to the next row, or to its end. -/
def State.drainNext (s : State) (x : AtWork) (r piece left : Nat) : State :=
  if 0 < left then s.setRow x.core r (piece + 1) else if r = 127 then s.cmdDone x else s.setRow x.core (r + 1)

/-- A piece of a row of a drain, or a row of a drain stream (R238): each grain that is written lands its bytes, and before the last
landing the maximum is merged. -/
def State.drainRow (s : State) (x : AtWork) (d : DrainOf) (y : Wg) (slot : SlotRec) (r piece : Nat) : State :=
  let t := y.tile d.tile
  let (bs, sc) := packRow slot (t.row r)
  if d.dst = 2 then
    (s.setRow x.core (r + 1)).drainPush x.core d.str (wordsOf (4 * fmtBits slot.fmt) (leBytes bs))
  else
    match (drainPieces slot d r bs sc).drop piece with
    | [] => s.drainNext x r piece 0
    | (off, p) :: rest =>
      match if r = 127 ∧ rest = [] then s.drainMerge x d t else (s, true) with
      | (s1, false) => s1
      | (s1, true) =>
        if s1.atWork x.core ≠ some x then s1
        else ((s1.copyPut x.wg (decide (d.dst = 1)) off p).drainLand d p.length false).drainNext x r piece rest.length

/-- The start of a drain: its checks, and its first row (R238). -/
def State.drainStart (s : State) (x : AtWork) (d : DrainOf) (y : Wg) (slot : SlotRec) : State :=
  let ok (n : Nat) : Bool := decide (1 ≤ n) && decide (n ≤ (if d.dst = 2 then 6 else 7))
  let sub := match slot.checkIn ok with
    | some c => some c
    | none => if slot.fmt = 7 ∧ d.pitch % 16 ≠ 0 then some 6 else none
  let void (f : Flt) : State :=
    let s1 := (s.engRecord x.eng f).drainVoid x d
    if d.dst = 2 then s1.setRow x.core 129 else s1.cmdDone x
  match sub with
  | some c => s.engineHalt x d.tile 1 c d.fs
  | none =>
    if (y.tile d.tile).invalid then void { code := 0x0C, sub := 1 }
    else if drainBeyond slot d (if d.dst = 1 then y.tobBanks * 131072 else y.scrSize) then
      void { code := 7, sub := BitVec.ofNat 8 d.dst, addr := some d.addr, wr := true }
    else s.drainRow x d y slot 0 0

/-- The next part of a drain: a piece of a row, or, of a drain stream whose words are all in its buffer, the merge and the end. -/
def State.runDrain (s : State) (x : AtWork) (d : DrainOf) (y : Wg) : State :=
  let slot := s.slot x.rgn (BitVec.ofNat 3 d.fs)
  let e := (s.core x.core).engine
  let pushed := (e.backlog.getD d.str []).isEmpty
  if e.row = 0 ∧ e.piece = 0 then s.drainStart x d y slot
  else if e.row < 128 then s.drainRow x d y slot e.row e.piece
  else if !pushed then s
  else if e.row = 128 then
    match s.drainMerge x d (y.tile d.tile) with
    | (s1, true) => if s1.atWork x.core = some x then s1.cmdDone x else s1
    | (s1, false) => s1
  else s.cmdDone x

/-- ENGINE_DRAIN_EXECUTE (R238). -/
def execEngineDrainExecute (core : Nat) (s : State) : Host.Outcome State Fault Refusal :=
  match s.atWork core with
  | none => .next s
  | some x =>
    match x.q.cmd, s.wgs.find x.wg with
    | .drain fs dst str tile addr pitch absmax bar, some y => .next (s.runDrain x ⟨fs, dst, str, tile, addr, pitch, absmax, bar⟩ y)
    | _, _ => .next s

/-! ### Waiting, decisions and batches (R240 to R242) -/

/-- `mwait` of the Caller (R240). -/
def State.mwaitLane (s : State) (c : Ctx) (lane : Nat) : Lane :=
  let mask := c.a lane % 16
  let engs := [0, 1, 2, 3].filter fun n => mask.testBit n
  let e (n : Nat) : Engine := (s.core (4 * clusterOfWave c.w + n)).engine
  if engs.any fun n => (s.enginePartner c n).isNone then .fault s noPartner
  else if engs.all fun n => (e n).settled then
    (match s.acquireAt c.w lane .cls with
     | none => .stay s
     | some s1 => .ok s1 [BitVec.ofNat 32 (b2n (engs.any fun n => (e n).mestat.getLsbD 0))])
  else .block s .engines

/-- `mwait` (R240). -/
def execMwait (f : Frame) (s : State) : Host.Outcome State Fault Refusal :=
  perLane (.mwait f) s fun c s1 l => s1.mwaitLane c l

/-- A decision appended to a partner's queue, whose waves wake (R241). -/
def State.putDecision (s : State) (wg : Nat) (v : Word) : State :=
  let s1 := { s with wgs := s.wgs.upd wg fun y => { y with dq := y.dq ++ [v] } }
  ((s1.waves.filter fun e => e.2.wg == wg && decide (e.2.kind ≠ WKind.caller)).map Prod.fst).foldl
    (fun s w => s.wakeWhere w .qdec fun y => match y with
      | .queue qs => qs.contains 0
      | _ => false) s1

/-- `dq.put` of the Caller (R241). -/
def State.dqPutLane (s : State) (c : Ctx) (lane : Nat) (all : Bool) : Lane :=
  let b := c.b lane
  let targets := match s.callerGroup c with
    | some (_, g) => if all then g.members.map Prod.snd else if 3 < b then [] else (g.members.find b).toList
    | none => []
  if targets.isEmpty then .fault s noPartner
  else if targets.any fun wg => match s.wgs.find wg with | some y => decide (64 ≤ y.dq.length) | none => false then
    .block s .decision
  else
    match s.releaseAt c.w lane .cls with
    | none => .stay s
    | some s1 => .ok (targets.foldl (fun s wg => s.putDecision wg (BitVec.ofNat 32 (c.a lane))) s1) []

/-- `dq.put` (R241). -/
def execDqPut (f : Frame) (all : Bool) (s : State) : Host.Outcome State Fault Refusal :=
  perLane (.dqPut f all) s fun c s1 l => s1.dqPutLane c l all

/-- `gq.take` of the Caller (R242). -/
def State.takeLane (s : State) (c : Ctx) (lane : Nat) (nb : Bool) : Lane :=
  let k := clusterOfWave c.w
  let y := s.cluster k
  match y.take with
  | d :: rest =>
    (match (s.setCluster k { y with take := rest }).acquireAt c.w lane .cls with
     | none => .stay s
     | some s1 => .pend s1 (c.calc lane lane (wordsOf 2 d.word.toNat)))
  | [] => if nb then .pend s (c.calc lane lane [0, 0]) else .block s .take

/-- `gq.take` (R242). -/
def execGqTake (f : Frame) (nb : Bool) (s : State) : Host.Outcome State Fault Refusal :=
  perLane (.gqTake f nb) s fun c s1 l => s1.takeLane c l nb

/-! ### `mestat` (R226, R243) -/

/-- A discarded command: its tile is invalid, or its whole count lands with FLTC or enters its stream (R243). -/
def State.discardCmd (s : State) (x : AtWork) : State :=
  match x.q.cmd with
  | .mma _ _ _ _ tile _ _ => s.spoil x.wg tile
  | .azero tile => s.spoil x.wg tile
  | .drain fs dst str tile addr pitch absmax bar => s.drainVoid x ⟨fs, dst, str, tile, addr, pitch, absmax, bar⟩

/-- Every queued command of an engine is discarded, and counted in DONE (R243). -/
def State.discardAll (s : State) (g : Nat) : State :=
  let e := (s.core g).engine
  let s1 := match s.engineGroup (g / 4) with
    | some (q, y) => (match y.members.find (g % 4) with
        | some wg => e.queue.foldl (fun (s : State) c => s.discardCmd ⟨g, q, y.rgn, wg, c⟩) s
        | none => s)
    | none => s
  let c := s1.core g
  s1.setCore g { c with engine := { c.engine with queue := [], done := c.engine.issued, row := 0, piece := 0, read := [] } }

/-- A write of 64 bits to `mestat` of an engine by field access (R9, R226): DISC and HALT act while the engine is
halted. -/
def State.writeMestat (s : State) (g v : Nat) : State :=
  let halted := (s.core g).engine.mestat.getLsbD 0
  if !halted then s
  else
    let s1 := if v.testBit 1 then s.discardAll g else s
    if v.testBit 0 || v.testBit 1 then
      let c := s1.core g
      s1.setCore g { c with engine := { c.engine with mestat := c.engine.mestat &&& ~~~1 } }
    else s1

end Sys2Proof.Machine
end

