-- ==== Sys2Proof/Machine/Mem.lean ====
section
/-! DEFINITION. Loads, stores, reservations and prefetch of majors 0x50 to 0x52, and of major 0xA1
(08_thread_memory_traps.md R150 to R162, 19_facets_versioned_memory.md R331). -/

namespace Sys2Proof.Machine

open Sys2Proof

/-! ### The address (R154) -/

/-- The index B of a lane as IXS states (R151). -/
def Ctx.index (c : Ctx) (lane : Nat) (ixs : Bool) : Int :=
  if ixs then intOf (c.b lane) .s32 else (c.b lane : Int)

/-- The effective address of the global space. -/
def Ctx.globAddr (c : Ctx) (lane : Nat) (m : MemMod) : Nat :=
  addrSum (c.a lane 2) (c.index lane m.ixs) m.ctl.sc.factor c.offX 64

/-- The effective address of the scratch and constant spaces. -/
def Ctx.winAddr (c : Ctx) (lane : Nat) (m : MemMod) : Nat :=
  addrSum (c.a lane) (c.index lane m.ixs) m.ctl.sc.factor c.offX 32

/-- The effective address of `ldr` and `stc`, which have no index. -/
def Ctx.resvAddr (c : Ctx) (lane : Nat) : Nat := addrSum (c.a lane 2) 0 1 c.offX 64

/-- The alignment an access needs (R154). -/
def MemMod.align (m : MemMod) (own : Bool) : Nat :=
  if own || m.ord != .plain then m.wid.size else min 4 m.wid.size

/-- The bytes a store takes from its data operand (R155). -/
def MemMod.dataOf (m : MemMod) (v : Nat) : List Byte := toLe m.wid.size v

end Sys2Proof.Machine

namespace Sys2Proof

/-- The scope with which an access is made: a plain one is at `.thr` (R152). -/
def MemMod.scope (m : MemMod) : Scope := if m.ord == .plain then .thr else m.ctl.scope

end Sys2Proof

namespace Sys2Proof.Machine

open Sys2Proof

/-! ### Loads and stores (R155) -/

/-- A load of the global space by one lane. -/
def State.loadLane (s : State) (c : Ctx) (lane : Nat) (m : MemMod) (tagging : Tagging) : Lane :=
  let va := c.globAddr lane m
  match misaligned va (MemMod.align m false) with
  | some f => .fault s f
  | none =>
    s.issueGlob c lane { va := va, size := m.wid.size, kind := .load m.wid false, need := .rd, cls := clsAny, ord := m.ord
                         scope := m.scope, mode := tagging, words := some m.wid.words }

/-- A store of the global space by one lane. -/
def State.storeLane (s : State) (c : Ctx) (lane : Nat) (m : MemMod) (tagging : Tagging) : Lane :=
  let va := c.globAddr lane m
  match misaligned va (MemMod.align m false) with
  | some f => .fault s { f with wr := true }
  | none =>
    s.issueGlob c lane { va := va, size := m.wid.size, kind := .store (MemMod.dataOf m (c.d lane m.wid.words)), need := .wr
                         cls := clsStore, ord := m.ord, scope := m.scope, mode := tagging, words := none }

/-- A load of a window by one lane. -/
def State.loadWinLane (s : State) (c : Ctx) (lane : Nat) (m : MemMod) (tob : Bool) : Lane :=
  let va := c.winAddr lane m
  match misaligned va (MemMod.align m false) with
  | some f => .fault s f
  | none =>
    s.issueWin c { va := va, size := m.wid.size, kind := .load m.wid false, need := .rd, cls := clsAny, ord := m.ord
                   scope := m.scope, mode := .base, words := some m.wid.words } tob

/-- A store of a window by one lane. -/
def State.storeWinLane (s : State) (c : Ctx) (lane : Nat) (m : MemMod) (tob : Bool) : Lane :=
  let va := c.winAddr lane m
  match misaligned va (MemMod.align m false) with
  | some f => .fault s { f with wr := true }
  | none =>
    s.issueWin c { va := va, size := m.wid.size, kind := .store (MemMod.dataOf m (c.d lane m.wid.words)), need := .wr
                   cls := clsAny, ord := m.ord, scope := m.scope, mode := .base, words := none } tob

/-- A load of the constant space by one lane, through the constant cache (R155, R157). -/
def State.loadConstLane (s : State) (c : Ctx) (lane : Nat) (m : MemMod) : Lane :=
  let va := c.winAddr lane m
  match misaligned va (MemMod.align m false) with
  | some f => .fault s f
  | none =>
    let (base, size) := match s.region? c.x.rgn with
      | some r => (r.rcb.constb.toNat, r.rcb.constsz)
      | none => (0, 0)
    if size < va + m.wid.size then .fault s { code := 5, sub := 4, addr := some va }
    else
      s.issueGlob c lane { va := (base + va) % 2 ^ 64, size := m.wid.size, kind := .constant m.wid, need := .rd
                           cls := clsAny, ord := .plain, scope := .thr, mode := .base, words := some m.wid.words }

/-- `ldr` of one lane (R160). -/
def State.ldrLane (s : State) (c : Ctx) (lane : Nat) (m : MemMod) : Lane :=
  let va := c.resvAddr lane
  match misaligned va (MemMod.align m true) with
  | some f => .fault s f
  | none =>
    s.issueGlob c lane { va := va, size := m.wid.size, kind := .load m.wid true, need := .rd, cls := clsResv, ord := m.ord
                         scope := m.scope, mode := .tagged, words := some m.wid.words }

/-- `stc` of one lane (R161). -/
def State.stcLane (s : State) (c : Ctx) (lane : Nat) (m : MemMod) : Lane :=
  let va := c.resvAddr lane
  match misaligned va (MemMod.align m true) with
  | some f => .fault s { f with wr := true }
  | none =>
    s.issueGlob c lane { va := va, size := m.wid.size, kind := .stc (MemMod.dataOf m (c.b lane m.wid.words)), need := .wr
                         cls := clsResv, ord := m.ord, scope := m.scope, mode := .tagged, words := some 1 }

/-! ### Prefetch (R158) -/

/-- Two pages asked for are of one leaf: their walks coalesce (R281). -/
def State.sameLeaf (s : State) (asr va vb : Nat) : Bool :=
  va / 4096 == vb / 4096 || match s.walk asr va with
    | .leaf l => l.maps asr vb
    | .fault _ _ => false

/-- A walk asked for, where none for the leaf waits and there is room (R281). -/
def State.askWalk (s : State) (rgn k va : Nat) : State :=
  let c := s.cluster k
  let here (q : WalkReq) : Bool := s.asrOf q.rgn == s.asrOf rgn && s.sameLeaf (s.asrOf rgn) q.va va
  if c.walks.any here || decide (64 ≤ c.walks.length) then s
  else s.setCluster k { c with walks := c.walks ++ [⟨rgn, va / 4096 * 4096⟩] }

/-- `pf` of one lane (R158): a line of class R or P is filled into the core's cache, one of class H into the home slice; an
address that no TLB holds is walked first, and that is all. -/
def State.pfLane (s : State) (c : Ctx) (lane : Nat) (m : MemMod) : State :=
  let va := c.globAddr lane m
  let asr := s.asrOf c.x.rgn
  let k := clusterOfWave c.w
  let own := match coreOfWave c.w with | some g => tlbFind (s.core g).tlb asr va | none => none
  match (match own with | some l => some l | none => tlbFind (s.cluster k).tlb asr va) with
  | none => s.askWalk c.x.rgn k va
  | some l =>
    let key := s.hostKey (s.fnOf c.x.rgn) (l.key + (va - l.va))
    if (s.checkLeaf (c.x.agent c.w) l va .rd clsAny).isSome || s.cutOff key then s
    else if l.cls = .h then s.atHome (key / 256 * 256) 256
    else
      match coreOfWave c.w with
      | none => s
      | some g => if (s.core g).caches then [0, 1, 2, 3].foldl (fun s i => s.fill g (4 * (key / 256) + i) l.cls) s else s

/-! ### The instructions -/

/-- `ld` (R155). -/
def execLd (f : Frame) (m : MemMod) (s : State) : Host.Outcome State Fault Refusal :=
  perLane (.ld f m) s fun c s1 l => s1.loadLane c l m .tagged

/-- `ld.s` (R155). -/
def execLdS (f : Frame) (m : MemMod) (win : Bool) (s : State) : Host.Outcome State Fault Refusal :=
  perLane (.ldS f m win) s fun c s1 l => s1.loadWinLane c l m win

/-- `ld.c` (R155, R157). -/
def execLdC (f : Frame) (m : MemMod) (s : State) : Host.Outcome State Fault Refusal :=
  perLane (.ldC f m) s fun c s1 l => s1.loadConstLane c l m

/-- `ldr` (R160). -/
def execLdr (f : Frame) (m : MemMod) (s : State) : Host.Outcome State Fault Refusal :=
  perLane (.ldr f m) s fun c s1 l => s1.ldrLane c l m

/-- `st` (R155). -/
def execSt (f : Frame) (m : MemMod) (s : State) : Host.Outcome State Fault Refusal :=
  perLane (.st f m) s fun c s1 l => s1.storeLane c l m .tagged

/-- `st.s` (R155). -/
def execStS (f : Frame) (m : MemMod) (win : Bool) (s : State) : Host.Outcome State Fault Refusal :=
  perLane (.stS f m win) s fun c s1 l => s1.storeWinLane c l m win

/-- `stc` (R161). -/
def execStc (f : Frame) (m : MemMod) (s : State) : Host.Outcome State Fault Refusal :=
  perLane (.stc f m) s fun c s1 l => s1.stcLane c l m

/-- `pf` (R158). -/
def execPf (f : Frame) (m : MemMod) (s : State) : Host.Outcome State Fault Refusal :=
  perLane (.pf f m) s fun c s1 l => .ok (s1.pfLane c l m) []

/-- `ld.base` (R331). -/
def execLdBase (f : Frame) (m : MemMod) (s : State) : Host.Outcome State Fault Refusal :=
  perLane (.ldBase f m) s fun c s1 l => s1.loadLane c l m .base

/-- How `st.base` of a region stands to versions: outside a facet region it is exactly `st` (R331). -/
def State.stBaseMode (s : State) (rgn : Nat) : Tagging := if (facetOf (s.liveTag rgn)).isSome then .base else .tagged

/-- `st.base` (R331). -/
def execStBase (f : Frame) (m : MemMod) (s : State) : Host.Outcome State Fault Refusal :=
  perLane (.stBase f m) s fun c s1 l => s1.storeLane c l m (s1.stBaseMode c.x.rgn)

end Sys2Proof.Machine
end

