-- ==== Sys2Proof/Machine/Texture.lean ====
section
/-! DEFINITION. Texture sampling and ray traversal of majors 0xB0 and 0xB1 (23_render_path.md R381 to R392). -/

namespace Sys2Proof.Machine

open Sys2Proof

/-! ### Exact extended rationals -/

/-- NaN, an infinity, or num / den with den > 0. -/
inductive XQ where
  | nan
  | inf (neg : Bool)
  | fin (num : Int) (den : Nat)
  deriving DecidableEq, Repr

/-- The rational a floating value is. -/
def XQ.ofXR : XR → XQ
  | .nan => .nan
  | .inf neg => .inf neg
  | .fin neg m e _ =>
    let a : Int := m * 2 ^ e.toNat
    .fin (if neg then -a else a) (2 ^ (-e).toNat)

/-- The value of an encoding. -/
def XQ.ofBits (b : Nat) (f : Fmt) : XQ := .ofXR (fval b f false)

/-- The sum. -/
def XQ.add : XQ → XQ → XQ
  | .nan, _ => .nan
  | _, .nan => .nan
  | .inf a, .inf b => if a = b then .inf a else .nan
  | .inf a, .fin _ _ => .inf a
  | .fin _ _, .inf b => .inf b
  | .fin a n, .fin b d => .fin (a * d + b * n) (n * d)

/-- A positive multiple, w / 2^k. -/
def XQ.scale (w k : Nat) : XQ → XQ
  | .fin a n => .fin (a * w) (n * 2 ^ k)
  | x => x

/-- The comparison a ≤ b of two values that are no NaN. -/
def XQ.le : XQ → XQ → Bool
  | .nan, _ => false
  | _, .nan => false
  | .inf a, .inf b => a || !b
  | .inf a, .fin _ _ => a
  | .fin _ _, .inf b => !b
  | .fin a n, .fin b d => decide (a * d ≤ b * n)

/-- The value rounded to FP32 (R45). -/
def XQ.round : XQ → Word
  | .nan => BitVec.ofNat 32 (roundF .nan .f32 .rne false)
  | .inf neg => BitVec.ofNat 32 (roundF (.inf neg) .f32 .rne false)
  | .fin a n =>
    let m := a.natAbs
    let k := 64 + n.log2
    let q := m * 2 ^ k / n
    BitVec.ofNat 32 (roundF (.fin (decide (a < 0)) q (-(k : Int)) (decide (q * n ≠ m * 2 ^ k))) .f32 .rne false)

/-! ### Reads of the units (R387, R392) -/

/-- An operation of a texture or ray unit at work: the lane whose instruction asked for it, the number of that instruction, its agent,
and what is asked. Its reads are those of a thread of its own (R293, R307). -/
structure Asked where
  w : Nat
  lane : Nat
  id : Nat
  agent : Agent
  op : UnitOp
  deriving DecidableEq, Repr

/-- What a read of a unit came to: bytes; poisoned grains, each reported; or a stop of the lane. -/
inductive URes where
  | ok (s : State) (bs : List Byte)
  | poison (s : State)
  | stop (r : Lane)
  deriving DecidableEq, Repr

/-- What an operation of a unit came to: its result, or a stop of the lane. -/
inductive URun where
  | ok (s : State) (ws : List Word)
  | stop (r : Lane)
  deriving DecidableEq, Repr

/-- A read of a lane's sample or traversal: at the home, by its tag, after the lane's own earlier stores (R277, R307). -/
def State.unitRead (s : State) (q : Asked) (va n : Nat) : URes :=
  match s.reach q.agent .rd clsAny .tagged va n with
  | .fault s1 _ f => .stop (.fault s1 f)
  | .quota s1 r => .stop (.quota s1 r)
  | .wait s1 => .stop (.stay s1)
  | .ok s1 parts =>
    let tag := s1.liveTag q.agent.rgn
    if parts.any fun p => s1.heldPart tag q.id p.key then .stop (.stay s1)
    else
      match (s1.engineIssue q.w q.lane q.id).bind fun (s2 : State) =>
          s2.settleFor q.w q.lane (probe q.id (.store []) .glob parts) with
      | none => .stop (.stay s)
      | some s2 =>
        let s3 := parts.foldl (fun (s : State) p => if s.cutOff p.key then s else s.atHome p.key p.size) s2
        let bad := parts.flatMap fun p => ((grainsOf p.key p.size).filter (s3.grainPoisoned tag)).map fun g => max p.key (32 * g)
        if bad.isEmpty then
          .ok s3 (parts.flatMap fun p => if s3.cutOff p.key then List.replicate p.size 0xFF else s3.homeBytes tag p.key p.size)
        else .poison (bad.foldl (fun (s : State) key => s.dataError q.agent.rgn key) s3)

/-- What follows a read; a poisoned one gives all ones (R387). -/
def URes.go (r : URes) (k : State → List Byte → URun) : URun :=
  match r with
  | .ok s bs => k s bs
  | .poison s => .ok s (onesWords 4)
  | .stop r => .stop r

/-! ### Texture descriptors and layouts (R381, R382) -/

/-- The fields of a texture descriptor. -/
structure Tex where
  amv : Nat
  amu : Nat
  filt : Nat
  tiled : Bool
  levels : Nat
  fmt : Nat
  height : Nat
  width : Nat
  pitch : Nat
  base : Nat
  deriving DecidableEq, Repr

/-- The descriptor's fields. -/
def Tex.ofDesc (d : BitVec 512) : Tex :=
  { amv := dfield d 146 145, amu := dfield d 144 143, filt := dfield d 142 141, tiled := dfield d 140 140 == 1
    levels := dfield d 139 136, fmt := dfield d 135 128, height := dfield d 127 112, width := dfield d 111 96
    pitch := dfield d 95 64, base := dfield d 63 0 }

/-- The texel size in bytes. -/
def Tex.size (t : Tex) : Nat := match t.fmt with | 3 => 8 | 5 => 16 | _ => 4

/-- The descriptor is ill-formed (R381). -/
def texBad (d : BitVec 512) : Bool :=
  let t := Tex.ofDesc d
  let most := if t.tiled then 1 + (max t.width t.height).log2 else 1
  dfield d 511 147 != 0 || t.amv == 3 || t.amu == 3 || t.filt == 3 || t.fmt == 0 || decide (5 < t.fmt) ||
  t.width == 0 || decide (16384 < t.width) || t.height == 0 || decide (16384 < t.height) ||
  t.levels == 0 || decide (most < t.levels) || t.base % 256 != 0 ||
  (if t.tiled then t.pitch != 0 else t.pitch % 64 != 0 || decide (t.pitch < t.width * t.size))

/-- Wk and Hk. -/
def Tex.dims (t : Tex) (k : Nat) : Nat × Nat := (max 1 (t.width / 2 ^ k), max 1 (t.height / 2 ^ k))

/-- The blocks of 64 texels along a length. -/
def blocks64 (n : Nat) : Nat := (n + 63) / 64

/-- Lk of a tiled texture. -/
def Tex.levelBase (t : Tex) : Nat → Nat
  | 0 => t.base
  | k + 1 => let (w, h) := t.dims k; t.levelBase k + blocks64 w * blocks64 h * 4096 * t.size

/-- The Z-order index of the micro-tile (mx, my). -/
def zOrder (mx my : Nat) : Nat :=
  mx % 2 + 2 * (my % 2) + 4 * (mx / 2 % 2) + 8 * (my / 2 % 2) + 16 * (mx / 4 % 2) + 32 * (my / 4 % 2)

/-- The address of texel (x, y) of level k. -/
def Tex.addr (t : Tex) (k x y : Nat) : Nat :=
  (if t.tiled then
    let (w, _) := t.dims k
    t.levelBase k + ((y / 64 * blocks64 w + x / 64) * 4096 + zOrder (x % 64 / 8) (y % 64 / 8) * 64 + y % 8 * 8 + x % 8) * t.size
  else t.base + y * t.pitch + x * t.size) % 2 ^ 64

/-- The channels of a texel (R385): exact reals, so that a zero has no sign. -/
def Tex.channels (t : Tex) (bs : List Byte) : List XQ :=
  let v := leBytes bs
  match t.fmt with
  | 1 => (List.range 4).map fun i => .fin (v / 2 ^ (8 * i) % 256 : Nat) 255
  | 2 => ((List.range 3).map fun i => .fin (v / 2 ^ (10 * i) % 1024 : Nat) 1023) ++ [.fin (v / 2 ^ 30 : Nat) 3]
  | 3 => (List.range 4).map fun i => .ofBits (v / 2 ^ (16 * i) % 65536) .f16
  | 4 => let l := XQ.ofBits v .f32; [l, l, l, .fin 1 1]
  | _ => (List.range 4).map fun i => .ofBits (v / 2 ^ (32 * i) % 2 ^ 32) .f32

/-- An index of a level of size n under an address mode (R384). -/
def texIndex (mode : Nat) (i : Int) (n : Nat) : Nat :=
  match mode with
  | 0 => (min (max i 0) (n - 1)).toNat
  | 1 => (i % n).toNat
  | _ => let j := (i % (2 * n)).toNat; if j < n then j else 2 * n - 1 - j

/-! ### Sampling (R384) -/

/-- A texel to read, with its weight in units of 2^-24. -/
structure Tap where
  level : Nat
  i : Int
  j : Int
  w : Nat
  deriving DecidableEq, Repr

/-- num / den rounded to nearest, ties to even. -/
def rneDiv (num : Int) (den : Nat) : Int :=
  let q := num / den
  let r := (num % den).toNat
  if 2 * r < den then q else if den < 2 * r then q + 1 else if q % 2 = 0 then q else q + 1

/-- A level of detail in units of 1/256, clamped to the levels. -/
def lodClamp (levels : Nat) (n : Int) : Nat := (min (max n 0) (256 * (levels - 1) : Nat)).toNat

/-- λ of `tex` in units of 1/256: NaN gives 0. -/
def lodOf (levels : Nat) : XQ → Nat
  | .nan => 0
  | .inf neg => if neg then 0 else 256 * (levels - 1)
  | .fin a n => lodClamp levels (rneDiv (256 * a) n)

/-- λ of `tex.g` in units of 1/256: 256 λ = 128 log2 m is rounded through m^256, and is never a tie. -/
def lodGrad (levels : Nat) (g : List XQ) : Nat :=
  if g.contains .nan then 0
  else if g.any fun x => match x with | .inf _ => true | _ => false then 256 * (levels - 1)
  else
    let sq (x : XQ) : XQ := match x with | .fin a n => .fin (a * a) (n * n) | y => y
    let at_ (i : Nat) : XQ := sq (g.getD i .nan)
    let x := (at_ 0).add (at_ 1)
    let y := (at_ 2).add (at_ 3)
    match if x.le y then y else x with
    | .fin a n =>
      if a = 0 then 0
      else
        let l : Int := ((a.natAbs ^ 256).log2 : Nat) - ((n ^ 256).log2 : Nat)
        lodClamp levels ((l + 1) / 2)
    | _ => 0

/-- The floor of a coordinate of level l, and the fraction beyond it of the coordinate less one half, in units of 1/256. -/
def texCoord (l : Nat) (u : Int) (den : Nat) : Int × Int × Nat :=
  let d := 2 * den * 2 ^ l
  let x := 2 * u - den * 2 ^ l
  (u / (den * 2 ^ l : Nat), x / (d : Nat), (rneDiv (256 * (x % (d : Nat))) d).toNat)

/-- The taps of one level, with a weight of the level in units of 1/256. -/
def levelTaps (filt l wl : Nat) (u v : Int × Nat) : List Tap :=
  let (pu, iu, a) := texCoord l u.1 u.2
  let (pv, jv, b) := texCoord l v.1 v.2
  if filt = 0 then [⟨l, pu, pv, 65536 * wl⟩]
  else
    [⟨l, iu, jv, (256 - a) * (256 - b) * wl⟩, ⟨l, iu + 1, jv, a * (256 - b) * wl⟩,
     ⟨l, iu, jv + 1, (256 - a) * b * wl⟩, ⟨l, iu + 1, jv + 1, a * b * wl⟩]

/-- The taps of a sample at a level of detail; those of weight 0 are left out. -/
def Tex.taps (t : Tex) (lod : Nat) (u v : Int × Nat) : List Tap :=
  let all :=
    if t.filt = 2 then
      let l := lod / 256
      let f := if l = t.levels - 1 then 0 else lod % 256
      levelTaps 2 l (256 - f) u v ++ levelTaps 2 (l + 1) f u v
    else levelTaps t.filt ((lod + 128) / 256) 256 u v
  all.filter fun p => p.w != 0

/-- The sum of the taps' texels, channel by channel, each tap read in order; `acc` is none once one has met poison, and the
result is all ones then (R387). -/
def State.sampleTaps (s : State) (q : Asked) (t : Tex) : List Tap → Option (List XQ) → URun
  | [], acc => .ok s (match acc with | some l => l.map XQ.round | none => onesWords 4)
  | p :: ps, acc =>
    let (w, h) := t.dims p.level
    match s.unitRead q (t.addr p.level (texIndex t.amu p.i w) (texIndex t.amv p.j h)) t.size with
    | .ok s1 bs =>
      s1.sampleTaps q t ps (acc.map fun l => (l.zip (t.channels bs)).map fun e => e.1.add (e.2.scale p.w 24))
    | .poison s1 => s1.sampleTaps q t ps none
    | .stop r => .stop r

/-- A descriptor read by the texture unit, and what follows where it is well-formed (R387). -/
def State.texDesc (s : State) (q : Asked) (k : State → Tex → URun) : URun :=
  let va := q.op.b
  match misaligned va 64 with
  | some f => .stop (.fault s f)
  | none =>
    (s.unitRead q va 64).go fun s1 bs =>
      let d := descOfBytes bs
      if texBad d then .stop (.fault s1 { code := 5, sub := 0x13, addr := some va }) else k s1 (Tex.ofDesc d)

/-- The channels that are +0. -/
def zeroWords : List Word := [0, 0, 0, 0]

/-- A sample at (u, v) with a level of detail (R384). -/
def State.sample (s : State) (q : Asked) (lod : Nat → Nat) : URun :=
  s.texDesc q fun s1 t =>
    match XQ.ofBits (q.op.a % 2 ^ 32) .f32, XQ.ofBits (q.op.a / 2 ^ 32) .f32 with
    | .fin u n, .fin v d =>
      s1.sampleTaps q t (t.taps (lod t.levels) (u, n) (v, d)) (some (List.replicate 4 (.fin 0 1)))
    | _, _ => .ok s1 zeroWords

/-- A fetch of a texel (R386). -/
def State.texFetch (s : State) (q : Asked) : URun :=
  s.texDesc q fun s1 t =>
    let l := q.op.c
    let x := intOf (q.op.a % 2 ^ 32) .s32
    let y := intOf (q.op.a / 2 ^ 32) .s32
    let (w, h) := t.dims l
    if t.levels ≤ l ∨ x < 0 ∨ y < 0 ∨ (w : Int) ≤ x ∨ (h : Int) ≤ y then .ok s1 zeroWords
    else
      (s1.unitRead q (t.addr l x.toNat y.toNat) t.size).go fun s2 bs => .ok s2 ((t.channels bs).map XQ.round)

/-- A query of a level (R386). -/
def State.texQuery (s : State) (q : Asked) : URun :=
  s.texDesc q fun s1 t =>
    let l := q.op.c
    let (w, h) := t.dims l
    .ok s1 (if t.levels ≤ l then zeroWords
      else [BitVec.ofNat 32 w, BitVec.ofNat 32 h, BitVec.ofNat 32 t.levels, BitVec.ofNat 32 t.fmt])

/-! ### Ray traversal (R388 to R392) -/

/-- Three coordinates in units of 2^-149. -/
structure V3 where
  x : Int
  y : Int
  z : Int
  deriving DecidableEq, Repr

/-- The difference. -/
def V3.sub (a b : V3) : V3 := ⟨a.x - b.x, a.y - b.y, a.z - b.z⟩
/-- The inner product. -/
def V3.dot (a b : V3) : Int := a.x * b.x + a.y * b.y + a.z * b.z
/-- The outer product. -/
def V3.cross (a b : V3) : V3 := ⟨a.y * b.z - a.z * b.y, a.z * b.x - a.x * b.z, a.x * b.y - a.y * b.x⟩

/-- A finite value in units of 2^-149. -/
def unitsOf (x : XR) : Option Int :=
  match x with
  | .fin neg m e _ => some (if neg then -(m * 2 ^ (e + 149).toNat : Int) else m * 2 ^ (e + 149).toNat)
  | _ => none

/-- Element i of so many bits of a value, as a floating value. -/
def fpAt (v i : Nat) (f : Fmt) : XR := fval (elemOf v f.width i) f false

/-- Three consecutive finite elements. -/
def v3At (v i : Nat) (f : Fmt) : Option V3 :=
  match unitsOf (fpAt v i f), unitsOf (fpAt v (i + 1) f), unitsOf (fpAt v (i + 2) f) with
  | some x, some y, some z => some ⟨x, y, z⟩
  | _, _, _ => none

/-- A ray: origin and direction, and the interval of t. -/
structure Ray where
  o : V3
  d : V3
  tmin : XQ
  tmax : XQ
  deriving DecidableEq, Repr

/-- A hit: t, u and w, the primitive and the leaf's address. -/
structure Hit where
  t : XQ
  u : XQ
  w : XQ
  prim : Nat
  addr : Nat
  deriving DecidableEq, Repr

/-- n / d with a positive denominator. -/
def XQ.ratio (n d : Int) : XQ := .fin (if d < 0 then -n else n) d.natAbs

/-- A leaf tested against a ray (R391). -/
def leafHit (r : Ray) (best : XQ) (v addr : Nat) : Option Hit :=
  match v3At v 0 .f32, v3At v 6 .f16, v3At v 9 .f16 with
  | some v0, some e1, some e2 =>
    let n := e1.cross e2
    let det := r.d.dot n
    if det = 0 ∨ (0 < det ∧ !v.testBit 224) then none
    else
      let q := r.o.sub v0
      let t := XQ.ratio (-(q.dot n)) det
      let un := r.d.dot (q.cross e2)
      let wn := r.d.dot (e1.cross q)
      let u := XQ.ratio un det
      let w := XQ.ratio wn det
      if (XQ.fin 0 1).le u && (XQ.fin 0 1).le w && (XQ.ratio (un + wn) det).le (.fin 1 1) && r.tmin.le t && t.le best then
        some ⟨t, u, w, field v 223 192, addr⟩
      else none
  | _, _, _ => none

/-- The closer of two hits: a tie in t goes to the lower leaf address (R391). -/
def closer (a : Option Hit) (b : Hit) : Hit :=
  match a with
  | some h => if h.t.le b.t && (!b.t.le h.t || decide (h.addr < b.addr)) then h else b
  | none => b

/-- (x − o) / d of an extended coordinate, in units of 2^-149, for a direction that is not 0. -/
def slabAt (x : XR) (o d : Int) : XQ :=
  match x with
  | .nan => .nan
  | .inf neg => .inf (neg != decide (d < 0))
  | y => match unitsOf y with | some n => XQ.ratio (n - o) d | none => .nan

/-- The interval of one axis meets [lo, hi]: the bounds that are left, or none. -/
def slab (lo hi : XR) (o d : Int) (span : XQ × XQ) : Option (XQ × XQ) :=
  if d = 0 then
    let at_ : XQ := .fin o (2 ^ 149)
    if (XQ.ofXR lo).le at_ && at_.le (.ofXR hi) then some span else none
  else
    let a := slabAt (if d < 0 then hi else lo) o d
    let b := slabAt (if d < 0 then lo else hi) o d
    let x := if span.1.le a then a else span.1
    let y := if b.le span.2 then b else span.2
    if x.le y then some (x, y) else none

/-- Child box i of a node is entered (R388, R391). -/
def boxEntered (r : Ray) (best : XQ) (node i : Nat) : Bool :=
  let v := node / 2 ^ (128 + 96 * i)
  let c (k : Nat) : XR := fpAt v k .f16
  let ok := (List.range 6).all (fun k => decide (c k ≠ .nan)) && (List.range 3).all fun k => (XQ.ofXR (c k)).le (.ofXR (c (k + 3)))
  ok && ((((slab (c 0) (c 3) r.o.x r.d.x (r.tmin, best)).bind (slab (c 1) (c 4) r.o.y r.d.y)).bind
    (slab (c 2) (c 5) r.o.z r.d.z)).isSome)

/-- A box node is ill-formed (R388). -/
def nodeBad (v : Nat) : Bool :=
  field v 127 72 != 0 || v % 64 != 0 || (List.range 4).any fun i => field v (65 + 2 * i) (64 + 2 * i) == 3

/-- A leaf is ill-formed (R389, R10). -/
def leafBad (v : Nat) : Bool := field v 255 225 != 0 || decide (0xFFFFFFFE ≤ field v 223 192)

/-- tbest of R391. -/
def Ray.best (r : Ray) (h : Option Hit) : XQ := match h with | some x => x.t | none => r.tmax

/-- The children of a node that the ray enters: address, and whether each is a leaf. -/
def childrenOf (r : Ray) (best : XQ) (v : Nat) : List (Nat × Bool) :=
  (List.range 4).filterMap fun i =>
    match field v (65 + 2 * i) (64 + 2 * i) with
    | 0 => none
    | k => if boxEntered r best v i then some ((v % 2 ^ 64 + 64 * i) % 2 ^ 64, k == 2) else none

/-- What a traversal came to: the result words, all ones after a poisoned read, or a stop. -/
def State.traverse (q : Asked) (r : Ray) : Nat → List (Nat × Bool) → Option Hit → State → URun
  | _, [], h, s => .ok s (match h with
      | some x => [x.t.round, BitVec.ofNat 32 x.prim, x.u.round, x.w.round]
      | none => [0x7F800000, 0xFFFFFFFF, 0, 0])
  | 0, _ :: _, _, s => .ok s [0x7F800000, 0xFFFFFFFE, 0, 0]
  | fuel + 1, (va, leaf) :: rest, h, s =>
    match s.unitRead q va (if leaf then 32 else 64) with
    | .poison s1 => .ok s1 (onesWords 4)
    | .stop (.fault s1 f) => .stop (.fault s1 { f with addr := some va })
    | .stop o => .stop o
    | .ok s1 bs =>
      let v := leBytes bs
      if (if leaf then leafBad v else nodeBad v) then .stop (.fault s1 { code := 5, sub := 0x14, addr := some va })
      else if leaf then
        State.traverse q r fuel rest (match leafHit r (r.best h) v va with | some x => some (closer h x) | none => h) s1
      else State.traverse q r fuel (childrenOf r (r.best h) v ++ rest) h s1

/-- A ray from its root (R390 to R392). A ray with an infinite origin or direction has no stated result. -/
def State.traceRay (s : State) (q : Asked) : URun :=
  match misaligned q.op.b 64 with
  | some f => .stop (.fault s f)
  | none =>
    let v := q.op.a
    let miss : List Word := [0x7F800000, 0xFFFFFFFF, 0, 0]
    if (List.range 8).any fun i => decide (fpAt v i .f32 = .nan) then .ok s miss
    else if (List.range 3).all fun i => (fpAt v (3 + i) .f32).isZero then .ok s miss
    else
      match v3At v 0 .f32, v3At v 3 .f32 with
      | some o, some d =>
        State.traverse q ⟨o, d, .ofXR (fpAt v 6 .f32), .ofXR (fpAt v 7 .f32)⟩ 65536 [(q.op.b, false)] none s
      | _, _ => let (n, s1) := s.fresh; .ok s1 (wordsOf 4 n)

/-! ### The instructions -/

/-- An operation of a unit (R383 to R386, R390). -/
def State.unitRun (s : State) (q : Asked) : URun :=
  match q.op.kind with
  | .tex => s.sample q fun n => if q.op.isS then 0 else lodOf n (.ofBits q.op.c .f32)
  | .texG => s.sample q fun n => lodGrad n ((List.range 4).map fun i => XQ.ofBits (q.op.c / 2 ^ (32 * i) % 2 ^ 32) .f32)
  | .texF => s.texFetch q
  | .texQ => s.texQuery q
  | .trace => s.traceRay q

/-- An operation of a unit for one lane, with its sources as they are read at issue. Its faults are precise. The reads of its result
may be made as late as its result returns (R307), so that the result is one that can be read anew. -/
def State.unitLane (s : State) (c : Ctx) (lane : Nat) (op : UnitOp) : Lane :=
  match s.unitRun ⟨c.w, lane, c.id, c.x.agent c.w, op⟩ with
  | .ok s1 ws => .pend s1 { c.calc lane lane ws with redo := some op }
  | .stop r => r

/-- The reads of an operation of a unit made anew, as a free value has it, before its result returns: they are ordered to those of other
operations by no more than its issue and its result (R307). Where they would stop, the result stands. -/
def State.unitAgain (s : State) (w lane : Nat) (a : Acc) : State :=
  match a.redo, s.waves.find w with
  | some op, some x =>
    let (n, s1) := s.fresh
    if n % 2 = 0 then s1
    else
      match s1.unitRun ⟨w, lane, a.id, x.agent w, op⟩ with
      | .ok s2 ws => s2.updThread w lane fun t => t.setAcc a.id fun b => some { b with val := some ws }
      | .stop _ => s1
  | _, _ => s

/-- The sources of a unit's operation: A, B and C as its instruction reads them (R383, R390). -/
def Ctx.unitOp (c : Ctx) (kind : UnitKind) (a b cc : Nat) : UnitOp :=
  { kind := kind, a := a, b := b, c := cc, isS := c.e.f.isS }

/-- The level that C names, 0 where it is absent. -/
def Ctx.texLevel (c : Ctx) (lane : Nat) : Nat := if c.e.f.isS then 0 else c.c lane

/-- `tex` (R383, R384). -/
def execTex (f : Frame) (s : State) : Host.Outcome State Fault Refusal :=
  perLane (.tex f) s fun c s1 l => s1.unitLane c l (c.unitOp .tex (c.a l 2) (c.b l 2) (c.fsrc l c.e.f.c .f32))

/-- `tex.g` (R383, R384). -/
def execTexG (f : Frame) (s : State) : Host.Outcome State Fault Refusal :=
  perLane (.texG f) s fun c s1 l => s1.unitLane c l (c.unitOp .texG (c.a l 2) (c.b l 2) (c.c l 4))

/-- `tex.f` (R386). -/
def execTexF (f : Frame) (s : State) : Host.Outcome State Fault Refusal :=
  perLane (.texF f) s fun c s1 l => s1.unitLane c l (c.unitOp .texF (c.a l 2) (c.b l 2) (c.texLevel l))

/-- `tex.q` (R386). -/
def execTexQ (f : Frame) (s : State) : Host.Outcome State Fault Refusal :=
  perLane (.texQ f) s fun c s1 l => s1.unitLane c l (c.unitOp .texQ 0 (c.b l 2) (c.texLevel l))

/-- `trace` (R390 to R392). -/
def execTrace (f : Frame) (s : State) : Host.Outcome State Fault Refusal :=
  perLane (.trace f) s fun c s1 l => s1.unitLane c l (c.unitOp .trace (c.a l 8) (addrSum (c.b l 2) 0 1 c.offX 64) 0)

end Sys2Proof.Machine
end

