-- ==== Sys2Proof/Machine/MemEvents.lean ====
section
/-! DEFINITION. The events of waves, memory and homes: turns, results, performed accesses, queue elements, gating, walks
and home moves (07_control_divergence.md R132, 02_instruction_formats.md R34 and R55, 08_thread_memory_traps.md R155,
14_cluster_atomics_gathering.md R246 and R247, 11_core_scratchpad_barriers.md R208 and R211, 10_core_issue.md R187 and
R188, 16_die_l2_copy.md R281 to R284). -/

namespace Sys2Proof.Machine

open Sys2Proof

/-- FAIRNESS_EXPIRY (R132): the count has reached the limit, so the turn of a wave passes to its next ready path. -/
def execFairnessExpiry (w : Nat) (s : State) : Host.Outcome State Fault Refusal :=
  .next { s with waves := s.waves.upd w Wave.expire }

/-- RESERVED_OPCODE (R55, R41): an unassigned code raises fault 0x01 in every thread of the path that issues. -/
def execReservedOpcode (sub : BitVec 8) (s : State) : Host.Outcome State Fault Refusal :=
  .next (s.faultPath s.cur { code := 1, sub := sub })

/-! ### Accesses performed -/

/-- The place of the first byte that an access has at its home: one that a core's cache holds is not looked for there (R274). -/
def State.homeHead (s : State) (w : Nat) (a : Acc) : Option Nat :=
  match a.space, a.parts with
  | .glob, p :: _ =>
    if a.val.isSome then none
    else
      (match s.pointOf w a p.cls with
       | .copy g _ => if ((s.core g).copies.find (p.key / 64)).isSome then none else some p.key
       | _ => some p.key)
  | _, _ => none

/-- An error that cannot be corrected strikes the first grain of an access before it is performed (R289): in L2 data, where the access
comes to it. -/
def State.strike (s : State) (w : Nat) (a : Acc) (err : Bool) : State :=
  match err, s.homeHead w a with
  | true, some key => s.strikeGrain a.tag key
  | _, _ => s

/-- LL_RESULT_RETURN (R34): a pending result is written to its destination; what it waits for is performed first, and the reads of a
texture or ray unit may be (R307). -/
def execLlResultReturn (w lane acc : Nat) (err : Bool) (s : State) : Host.Outcome State Fault Refusal :=
  match s.accOf w lane acc with
  | none => .next s
  | some a =>
    if a.dst.isNone then .next s
    else
      match ((s.strike w a err).unitAgain w lane a).returnAcc w lane acc with
      | some s1 => .next s1
      | none => .next s

/-- A store's first grain and what is left of it. -/
def Acc.splitGrain (a : Acc) (bs : List Byte) : Acc × Option Acc :=
  match a.parts with
  | [] => (a, none)
  | p :: ps =>
    let n := min p.size (32 - p.key % 32)
    if bs.length ≤ n then (a, none)
    else
      let rest := if n = p.size then ps else { p with key := p.key + n, va := p.va + n, size := p.size - n } :: ps
      ({ a with kind := .store (bs.take n), parts := [{ p with size := n }] },
       some { a with kind := .store (bs.drop n), parts := rest })

/-- A load's first grain and what is left of it, where it has more. -/
def Acc.loadGrain (a : Acc) : Option (Acc × Acc) :=
  match a.parts with
  | [] => none
  | p :: ps =>
    let n := min p.size (32 - p.key % 32)
    let rest := if n = p.size then ps else { p with key := p.key + n, va := p.va + n, size := p.size - n } :: ps
    if rest.isEmpty then none else some ({ a with parts := [{ p with size := n }] }, { a with parts := rest })

/-- What comes before an access of a thread is performed (R294, R300). None while some of it is held. -/
def State.clearFor (s : State) (w lane : Nat) (a : Acc) : Option State :=
  ((s.chainIds w lane a.id).dropLast.foldl (fun r e => r.bind fun (s1 : State) => s1.performElem e) (some s)).bind
    fun s1 => if a.ord = .plain then some s1 else s1.force (.thread w lane) a.scope

/-- The first grain of a store is performed, before which nothing is left: the rest waits on (R297). -/
def State.storeGrain (s : State) (w lane : Nat) (a b rest : Acc) : Option State :=
  (s.perform w lane b).map fun p =>
    match p.full with
    | some key =>
      ((p.s.updThread w lane fun t => t.setAcc a.id fun _ => none).releaseLast w lane a.id).takeFault w lane a.pc
        { code := 0x0D, sub := 0, addr := some (a.vaOf key), wr := true, det1 := a.popped.toNat }
    | none =>
      State.passOver s (p.s.updThread w lane fun t => (t.setAcc a.id fun _ => some rest).markDue a) (.thread w lane) b

/-- What a load of a thread reads now of some of its bytes, and the state after the read, where it may be made. -/
def State.peek (s : State) (w : Nat) (a : Acc) : Option (State × List Byte) :=
  let (s1, bs, bad) := s.readParts w a a.parts
  if bad.isSome || a.parts.any fun p => s.heldPart a.tag a.id p.key || s.cutOff p.key then none else some (s1, bs)

/-- A load performed ahead of an acquire of its thread, with what the acquire would read then (R294): its value stands if the acquire
comes to no write of another that it synchronises with. -/
def State.loadEarly (s : State) (w lane : Nat) (a acq : Acc) (wid : Wid) : Option State :=
  (s.force (.thread w lane) acq.scope).bind fun s1 =>
    (s1.peek w a).map fun r =>
      let e : Early := ⟨acq.id, loadWords wid (leBytes r.2), r.1.bytesOf w acq⟩
      r.1.updThread w lane fun t => t.setAcc a.id fun b => some { b with early := some e }

/-- The next grain of a store or of a load performed (R155, R297, R298): the rest waits on as the thread's access. A load may be performed
ahead of an acquire, as a free value has it. -/
def State.storePart (s : State) (w lane : Nat) (a : Acc) : Option State :=
  match a.kind with
  | .store bs =>
    (match a.splitGrain bs with
     | (_, none) => s.performUpTo w lane a.id
     | (b, some rest) =>
       (s.clearFor w lane a).bind fun s1 => if (s1.accOf w lane a.id).isNone then some s1 else s1.storeGrain w lane a b rest)
  | .load wid false =>
    let ahead := if Config.late a.id && a.got.isEmpty && a.early.isNone then s.overtaken w lane a else none
    (match ahead, a.loadGrain with
     | some acq, _ => s.loadEarly w lane a acq wid
     | none, none => s.performUpTo w lane a.id
     | none, some (b, rest) =>
       if a.ord.acquires || a.early.isSome then s.performUpTo w lane a.id
       else
         (s.clearFor w lane a).bind fun s1 =>
           if (s1.accOf w lane a.id).isNone then some s1
           else
             match s1.peek w b with
             | none => s1.performUpTo w lane a.id
             | some (s2, bs) =>
               some (s2.updThread w lane fun t =>
                 t.setAcc a.id fun _ => some { rest with got := a.got ++ bs, kind := .load wid false }))
  | _ => s.performUpTo w lane a.id

/-- The region a unit works for. -/
def State.rgnOf (s : State) (w : Nat) : Nat := match s.waves.find w with | some x => x.rgn | none => 0

/-- STORE_PERFORM (R155, R298): the next grain of an issued store is performed, or an issued fence takes effect. An error
in the grain is reported (R289). The elements of feed streams are not among them (R211). Where it names a load of several
grains, the next of them is read (R297): no row of the opcode table is the event of that (DESIGN CHOICE, assumption 64). -/
def execStorePerform (w lane acc : Nat) (err : Bool) (s : State) : Host.Outcome State Fault Refusal :=
  match s.accOf w lane acc with
  | none => .next s
  | some a =>
    match if a.feed.isSome then AccKind.calc else a.kind with
    | .load _ false => (match s.storePart w lane a with
      | some s2 => .next s2
      | none => .next s)
    | .store _ | .fence =>
      let s1 := match err, s.homeHead w a with
        | true, some key => (s.strikeGrain a.tag key).dataError (s.rgnOf w) key
        | _, _ => s
      (match s1.accOf w lane acc with
       | none => .next s1
       | some _ => match s1.storePart w lane a with
         | some s2 => .next s2
         | none => .next s)
    | _ => .next s

/-- HOME_ATOMIC_PERFORM (R246): a read-modify-write that no service wave performs is performed in one step, after those
of its source that reached the point before it. -/
def execHomeAtomicPerform (w lane acc : Nat) (err : Bool) (s : State) : Host.Outcome State Fault Refusal :=
  match s.accOf w lane acc with
  | none => .next s
  | some a =>
    if !a.kind.isRmw || (s.cluster (clusterOfWave w)).svc.contains ⟨w, lane, acc⟩ then .next s
    else
      match (s.strike w a err).performUpTo w lane acc with
      | some s1 => .next s1
      | none => .next s

/-- SERVICE_WAVE_REQUEST (R247): the service wave of a cluster performs its first request and replies. -/
def execServiceWaveRequest (cluster : Nat) (s : State) : Host.Outcome State Fault Refusal :=
  match (s.cluster cluster).svc with
  | [] => .next s
  | q :: _ =>
    match s.serveOne cluster q with
    | none => .next s
    | some s1 =>
      match s1.accOf q.wave q.lane q.acc with
      | none => .next s1
      | some _ => match s1.returnOne q.wave q.lane q.acc with
        | some s2 => .next s2
        | none => .next s1

/-! ### Queue registers -/

/-- The thread waits in a queue register. -/
def atQueue (y : Why) : Bool := match y with | .queue _ => true | _ => false

/-- QUEUE_ACCESS_COMPLETE (R208): the group of a wave that waits in a queue register tries its access again. -/
def execQueueAccessComplete (w : Nat) (s : State) : Host.Outcome State Fault Refusal :=
  if (coreOfWave w).any fun g => (s.core g).gated then .next s else .next (s.wakeWhere w .qdec atQueue)

/-- FEED_ELEMENT_WRITE (R211): the oldest element that a feed stream of a wave holds is written to the TOB window, and a
group that waits for room looks again. What R300 orders before it as before a store is performed first. -/
def execFeedElementWrite (w stream : Nat) (s : State) : Host.Outcome State Fault Refusal :=
  match s.waves.find w with
  | none => .next s
  | some x =>
    let held := x.pending.filter fun e => e.2.feed == some stream
    match held.find? fun e => !held.any fun f => pushedBefore f e with
    | none => .next s
    | some e =>
      match s.performUpTo w e.1 e.2.id with
      | some s1 => .next s1
      | none => .next s

/-! ### Clock gating (R187, R188) -/

/-- A wait during which a core may gate (R187). -/
def Why.gates : Why → Bool
  | .phase .. | .queue _ | .commit _ _ _ | .pixel _ _ => true
  | _ => false

/-- The waves resident on a core. -/
def State.wavesOn (s : State) (g : Nat) : List Wave :=
  (s.waves.filter fun e => decide (e.1 < callerKey) && e.1 / 128 == g).map Prod.snd

/-- A core may gate (R187); core 0 of a cluster does so while its service wave has nothing to perform. -/
def State.mayGate (s : State) (g : Nat) : Bool :=
  let ts := (s.wavesOn g).flatMap fun x => x.threads
  (ts.isEmpty || ts.any fun t => match t.st with | .blocked y => y.gates | _ => false) &&
  (ts.all fun t => !t.ready && t.accs.all fun a => a.dst.isNone) &&
  (g % 4 != 0 || (s.cluster (g / 4)).svc.isEmpty)

/-- CORE_GATE (R187): the clocks of a core stop. -/
def execCoreGate (core : Nat) (s : State) : Host.Outcome State Fault Refusal :=
  let c := s.core core
  if c.gated || !s.mayGate core then .next s
  else .next (s.setCore core { c with gated := true, gatedAt := s.clkOf core, wake := 0 })

/-- CORE_WAKE (R188, R190): a gated core to which a wake event has come runs on; `wakerc` names the events and the clocks
until the first issue, 0 to 40, which no rule fixes. -/
def execCoreWake (core : Nat) (s : State) : Host.Outcome State Fault Refusal :=
  let c := s.core core
  if !c.gated || c.wake == 0 then .next s
  else
    let (n, s1) := s.fresh
    .next (s1.setCore core
      { c with gated := false, woken := true, wake := 0
               gatec := c.gatec + BitVec.ofNat 64 (s.clkOf core - c.gatedAt)
               wakerc := c.wake.setWidth 32 ||| BitVec.ofNat 32 (2 ^ 10 * (n % 41)) })

/-! ### Walks (R281, R282, R364) -/

/-- PAGE_WALK (R281): the first walk that waits in a cluster, for all that wait for its leaf; a table entry with an uncorrectable error raises
event 0x13 (R280). A leaf that may be read is charged
and installed, and one that would pass a quota suspends the region. A page that the thread may not read is left alone
(R158). -/
def execPageWalk (cluster : Nat) (s : State) : Host.Outcome State Fault Refusal :=
  let c := s.cluster cluster
  match c.walks with
  | [] => .next s
  | q :: rest =>
    match (s.setCluster cluster { c with walks := rest }).walkBy (cluster / 24) (s.asrOf q.rgn) q.va with
    | (s1, .fault _ bad) => .next (match bad with | some key => s1.dataError q.rgn key | none => s1)
    | (s1, .leaf l) =>
      let served (r : WalkReq) : Bool := s1.asrOf r.rgn == l.asr && l.maps l.asr r.va
      let s2 := s1.setCluster cluster { s1.cluster cluster with walks := rest.filter fun r => !served r }
      if (s2.checkLeaf ⟨q.rgn, cluster, none⟩ l q.va .rd clsAny).isSome then .next s2
      else
        match s2.charge q.rgn l with
        | .beyond r => .next (s2.quotaEvent r 1)
        | .ok s3 => .next (s3.install ⟨q.rgn, cluster, none⟩ l)

/-! ### Home moves (R284) -/

/-- The requests on their way to the home of a frame: the pending accesses that are performed there and touch it, by wave, lane
and access, in the order in which each unit has issued them. -/
def State.frameRequests (s : State) (frame : Nat) : List (Nat × Nat × Nat) :=
  s.waves.flatMap fun e => (e.2.pending.filter fun f => decide (f.2.space = .glob) && f.2.parts.any fun p =>
    p.key / 4096 == frame && decide (s.pointOf e.1 f.2 p.cls = .home)).map fun f => (e.1, f.1, f.2.id)

/-- The lines of a frame in L2 move to the sets of its new slice (R273, R284). -/
def State.moveLines (s : State) (frame : Nat) (homes : NMap Nat) : State :=
  let here := s.l2.filter fun e => e.1 / 16 == frame
  here.foldl (fun s e =>
    let s1 := (s.makeWay e.1).getD s
    { s1 with l2 := s1.l2.ins e.1 e.2 }) { s with l2 := s.l2.filter fun e => e.1 / 16 != frame, homes := homes }

/-- Every reservation on a grain of a frame is cleared (R162). -/
def Thread.dropFrame (frame : Nat) (t : Thread) : Thread :=
  match t.resv with
  | some r => if r.grain / 128 = frame then { t with resv := none } else t
  | none => t

/-- HOME_MOVE (R284, steps 1 to 3): the lines of a frame move to the new slice and the table names it; the requests in
flight are held to be forwarded. -/
def execHomeMove (frame slice : Nat) (s : State) : Host.Outcome State Fault Refusal :=
  match s.homeFwd.find? fun f => f.frame == frame && f.new == slice && !f.moved with
  | none => .next s
  | some f =>
    let reqs := s.frameRequests frame
    let put (g : HomeFwd) : HomeFwd := if g = f then { g with reqs := reqs, moved := true } else g
    let clean (x : Wave) : Wave := { x with threads := x.threads.map (Thread.dropFrame frame) }
    let s1 := s.moveLines frame (if s.hashHome frame = slice then s.homes.del frame else s.homes.ins frame slice)
    .next { s1 with
      homeFwd := s1.homeFwd.map put
      waves := s1.waves.map fun e => (e.1, clean e.2) }

/-- HOME_FORWARD (R284, steps 4 and 5): the old home forwards the first request that it holds, and the new one performs it; where
it holds none, every router has the new table, and the entry is freed. -/
def execHomeForward (frame : Nat) (s : State) : Host.Outcome State Fault Refusal :=
  match s.homeFwd.find? fun f => f.frame == frame && f.moved with
  | none => .next s
  | some f =>
    match f.reqs with
    | [] => .next { s with homeFwd := s.homeFwd.filter fun g => !decide (g = f) }
    | r :: rest =>
      match s.performUpTo r.1 r.2.1 r.2.2 with
      | none => .next s
      | some s1 =>
        let put (g : HomeFwd) : HomeFwd := if g.frame = frame ∧ g.moved then { g with reqs := rest } else g
        .next { s1 with homeFwd := s1.homeFwd.map put }

end Sys2Proof.Machine
end

