-- ==== Sys2Proof/Machine/Xmss.lean ====
section
/-! DEFINITION. The signatures of the device, XMSS-SHAKE256_10_256 (25_package.md R410). The rule names the scheme and gives the
sizes of its keys and signatures; what its functions compute is taken from FIPS 202, RFC 8391 and SP 800-208 (PRESUMED,
assumption 7). -/

namespace Sys2Proof.Machine

open Sys2Proof

/-! ### SHAKE256 -/

/-- A lane of the Keccak state, which holds lane (x, y) at x + 5y. -/
def kLane (a : List DWord) (x y : Nat) : DWord := a.getD (x % 5 + 5 * (y % 5)) 0

/-- The step θ. -/
def kTheta (a : List DWord) : List DWord :=
  let c (x : Nat) : DWord := kLane a x 0 ^^^ kLane a x 1 ^^^ kLane a x 2 ^^^ kLane a x 3 ^^^ kLane a x 4
  let cs := (List.range 5).map c
  let d (x : Nat) : DWord := cs.getD ((x + 4) % 5) 0 ^^^ (cs.getD ((x + 1) % 5) 0).rotateLeft 1
  let ds := (List.range 5).map d
  a.mapIdx fun i v => v ^^^ ds.getD (i % 5) 0

/-- The walk over the lanes that gives the rotations of the step ρ: from lane (x, y) the next is (y, 2x + 3y), and the lane at step k
is turned by the sum of 1 to k. Each lane is given as its place x + 5y with its rotation. -/
def kWalk : Nat → Nat → Nat → Nat → List (Nat × Nat)
  | 0, _, _, _ => []
  | n + 1, k, x, y => (x + 5 * y, k * (k + 1) / 2 % 64) :: kWalk n (k + 1) y ((2 * x + 3 * y) % 5)

/-- The rotation of a lane in the step ρ: lane (0, 0) stays, and the walk over the others begins at (1, 0). -/
def kTurn (i : Nat) : Nat := ((kWalk 24 1 1 0).lookup i).getD 0

/-- The steps ρ and π. -/
def kRhoPi (a : List DWord) : List DWord :=
  (List.range 25).map fun i =>
    let j := (i % 5 + 3 * (i / 5)) % 5 + 5 * (i % 5)
    (a.getD j 0).rotateLeft (kTurn j)

/-- The step χ. -/
def kChi (a : List DWord) : List DWord :=
  a.mapIdx fun i v => v ^^^ (~~~(kLane a (i + 1) (i / 5)) &&& kLane a (i + 2) (i / 5))

/-- A step of the register of 8 bits that gives the constants of the step ι: times x, modulo x^8 + x^6 + x^5 + x^4 + 1. -/
def kShift (r : Nat) : Nat := if r < 128 then 2 * r else (2 * r) ^^^ 0x171

/-- The constant of a round, from the register at its start: after j steps the lowest bit of the register is bit 2^j - 1 of it, for j
from 0 to 6; with the register at the end of the round. -/
def kConst (r : Nat) : Nat × DWord :=
  (List.range 7).foldl (fun (e : Nat × DWord) j => (kShift e.1, e.2 ||| BitVec.ofNat 64 (e.1 % 2 * 2 ^ (2 ^ j - 1)))) (r, 0)

/-- So many rounds of the permutation, the register being at its value. -/
def kRounds : Nat → Nat → List DWord → List DWord
  | 0, _, a => a
  | n + 1, r, a =>
    let c := kConst r
    kRounds n c.1 ((kChi (kRhoPi (kTheta a))).modify 0 (· ^^^ c.2))

/-- The permutation Keccak-f[1600]. -/
def keccakF (a : List DWord) : List DWord := kRounds 24 1 a

/-- The state with a block of 136 bytes added, permuted. -/
def kAbsorb (a : List DWord) (block : List Byte) : List DWord :=
  keccakF (a.mapIdx fun i v => if i < 17 then v ^^^ BitVec.ofNat 64 (leBytes ((block.drop (8 * i)).take 8)) else v)

/-- SHAKE256 of a message, 32 bytes of it. -/
def shake256 (m : List Byte) : List Byte :=
  let n := m.length / 136 + 1
  let p := m ++ [0x1F] ++ List.replicate (136 * n - m.length - 1) 0
  let p := p.modify (136 * n - 1) (· ^^^ 0x80)
  let a := (List.range n).foldl (fun a i => kAbsorb a ((p.drop (136 * i)).take 136)) (List.replicate 25 0)
  (a.take 4).flatMap fun v => toLe 8 v.toNat

/-! ### The functions of the scheme -/

/-- A number as n bytes, the highest first. -/
def toBe (n v : Nat) : List Byte := (toLe n v).reverse

/-- The number of bytes, the highest first. -/
def beNum (bs : List Byte) : Nat := leBytes bs.reverse

/-- A keyed function: F is number 0, H 1, H_msg 2, PRF 3 and PRF_keygen 4. -/
def xHash (fn : Nat) (key m : List Byte) : List Byte := shake256 (toBe 32 fn ++ key ++ m)

/-- A hash function address of layer 0 and tree 0: its type, its words 4 to 6, and keyAndMask. -/
def xAdrs (type a b c mask : Nat) : List Byte := toBe 12 0 ++ [type, a, b, c, mask].flatMap (toBe 4)

/-- The exclusive or of two strings. -/
def xorBytes (a b : List Byte) : List Byte := List.zipWith (· ^^^ ·) a b

/-- Two nodes hashed with a key and two masks of their address. -/
def xPair (seed : List Byte) (adr : Nat → List Byte) (l r : List Byte) : List Byte :=
  let prf (k : Nat) : List Byte := xHash 3 seed (adr k)
  xHash 1 (prf 0) (xorBytes l (prf 1) ++ xorBytes r (prf 2))

/-- So many steps of a chain of a one-time key, from a step on. -/
def wChain (seed : List Byte) (ots i : Nat) : Nat → Nat → List Byte → List Byte
  | 0, _, x => x
  | n + 1, from_, x =>
    let prf (k : Nat) : List Byte := xHash 3 seed (xAdrs 0 ots i from_ k)
    wChain seed ots i n (from_ + 1) (xHash 0 (prf 0) (xorBytes x (prf 1)))

/-- The 67 digits to base 16 of a digest, with their check sum. -/
def wDigits (m : List Byte) : List Nat :=
  let d := m.flatMap fun b => [b.toNat / 16, b.toNat % 16]
  let c := (d.map fun x => 15 - x).sum
  d ++ [c / 256 % 16, c / 16 % 16, c % 16]

/-- A level of an L-tree: neighbours are paired, and the last goes up alone where their number is odd. -/
def lPairs (f : Nat → List Byte → List Byte → List Byte) : Nat → List (List Byte) → List (List Byte)
  | i, l :: r :: t => f i l r :: lPairs f (i + 1) t
  | _, t => t

/-- The leaf that the 67 ends of a one-time key's chains give. -/
def lTree (seed : List Byte) (leaf : Nat) (ends : List (List Byte)) : List Byte :=
  ((List.range 7).foldl (fun t h => lPairs (fun i => xPair seed (xAdrs 1 leaf h i)) 0 t) ends).headD []

/-- The root that a leaf and its authentication path give. -/
def xClimb (seed : List Byte) : Nat → Nat → List Byte → List (List Byte) → List Byte
  | _, _, x, [] => x
  | h, i, x, a :: path =>
    let up := xPair seed (xAdrs 2 0 h (i / 2))
    xClimb seed (h + 1) (i / 2) (if i % 2 = 0 then up x a else up a x) path

/-- The 32-byte strings of a list. -/
def strings (n : Nat) (bs : List Byte) : List (List Byte) := (List.range n).map fun i => (bs.drop (32 * i)).take 32

/-- The digest of a message that is signed. -/
def xDigest (r root : List Byte) (index : Nat) (m : List Byte) : List Byte :=
  xHash 2 (r ++ root ++ toBe 32 index) m

/-- The first 4 bytes of a public key of the scheme. -/
def xmssOid : List Byte := toBe 4 0x10

/-- A signature of 2,500 bytes on a message checks with a public key of 68 bytes (R410): 4 bytes of index, r, 67 chains and 10
nodes. -/
def xmssCheck (key sig m : List Byte) : Bool :=
  if sig.length ≠ 2500 then false
  else
    let index := beNum (sig.take 4)
    let root := (key.drop 4).take 32
    let seed := key.drop 36
    let digits := wDigits (xDigest ((sig.drop 4).take 32) root index m)
    let ends := (List.zip digits (strings 67 (sig.drop 36))).mapIdx fun i e => wChain seed index i (15 - e.1) e.1 e.2
    decide (key.take 4 = xmssOid) && decide (index < 1024) &&
      decide (xClimb seed 0 index (lTree seed index ends) (strings 10 (sig.drop 2180)) = root)

/-! ### The keys of the device -/

/-- A secret string of a key of the device: 0 the seed of its chains, 1 that of r, 2 its public seed. -/
def keySecret (key i : Nat) : List Byte := toBe 32 (Config.secret (3 * key + i)).toNat

/-- The start of a chain of a one-time key. -/
def wStart (key ots i : Nat) : List Byte := xHash 4 (keySecret key 0) (keySecret key 2 ++ xAdrs 0 ots i 0 0)

/-- A leaf of a key's tree. -/
def xLeaf (key leaf : Nat) : List Byte :=
  lTree (keySecret key 2) leaf ((List.range 67).map fun i => wChain (keySecret key 2) leaf i 15 0 (wStart key leaf i))

/-- A node of a key's tree, by its height and its place. -/
def xNode (key : Nat) : Nat → Nat → List Byte
  | 0, i => xLeaf key i
  | h + 1, i => xPair (keySecret key 2) (xAdrs 2 0 h i) (xNode key h (2 * i)) (xNode key h (2 * i + 1))

/-- The public key of a key of the device (R410). -/
def publicKey (key : Nat) : List Byte := xmssOid ++ xNode key 10 0 ++ keySecret key 2

/-- A key's signature on a message with one of its indices (R410). -/
def xmssSign (key index : Nat) (m : List Byte) : List Byte :=
  let r := xHash 3 (keySecret key 1) (toBe 32 index)
  let digits := wDigits (xDigest r (xNode key 10 0) index m)
  toBe 4 index ++ r ++
    (digits.mapIdx fun i d => wChain (keySecret key 2) index i d 0 (wStart key index i)).flatten ++
    (List.range 10).flatMap fun h => xNode key h ((index / 2 ^ h) ^^^ 1)

/-- The number of the identity key (R410). -/
def identityKey : Nat := 0

/-- The number of an attestation key (R410). -/
def attestationKey (n : Nat) : Nat := n + 1

/-- Umawin's public key (R410). -/
def umawinKey : List Byte := toBe 68 Config.umawinKey.toNat

end Sys2Proof.Machine
end

