-- ==== Sys2Proof/Machine/Package.lean ====
section
/-! DEFINITION. The package: vertical-bus tests, power, Fjoub's commands, firmware slots, signatures, freeze, reset and the
lifetime counters (25_package.md R404 to R413, 26_fabric_host.md R415 and R416, 16_die_l2_copy.md R283 and R290,
19_facets_versioned_memory.md R337, 21_regions_scheduling.md R364). -/

namespace Sys2Proof.Machine

open Sys2Proof

/-! ### Segments (R404, R405) -/

/-- A segment of a core by number: 8 for each quadrant's register file, then the 4 of the accumulator store. -/
def segNumber (acc : Bool) (quad seg : Nat) : Nat := if acc then 32 + seg else 8 * quad + seg

/-- Detail word 0 of a failed segment (R405). -/
def segDetail (core : Nat) (acc : Bool) (quad seg : Nat) : Word :=
  BitVec.ofNat 32 (core / 96 + 2 * (core % 96) + 2 ^ 8 * b2n acc + 2 ^ 9 * (if acc then 0 else quad) + 2 ^ 11 * seg)

/-- A segment that fails is fenced (R405): the workgroups of the core are to be saved, nothing more is placed there, and a
failed accumulator segment closes the cluster to cluster groups. -/
def State.fenceSegment (s : State) (core : Nat) (acc : Bool) (quad seg : Nat) : State :=
  let n := segNumber acc quad seg
  let c := s.core core
  let s1 := s.setCore core { c with fenced := c.fenced ++ [n], available := false }
  let s2 := if acc then s1.setCluster (core / 4) { s1.cluster (core / 4) with groups := false } else s1
  let s3 := s2.markSaving ((s2.wgs.filter fun e => decide (e.2.core = core) && !e.2.saved).map Prod.fst)
  (s3.countLife (lifeFenced core n)).postFjoub 0x13 0x04 0 (segDetail core acc quad seg)

/-- SEGMENT_TEST (R405): a test of a segment that is not fenced; it changes nothing where it does not fail. -/
def execSegmentTest (core : Nat) (acc : Bool) (quad seg : Nat) (fail : Bool) (s : State) :
    Host.Outcome State Fault Refusal :=
  let valid := decide (core < 192) && (if acc then quad == 0 && decide (seg < 4) else decide (quad < 4) && decide (seg < 8))
  if !valid || (s.core core).fenced.contains (segNumber acc quad seg) then .next s
  else
    let s1 := s.countLife lifeTests
    .next (if fail then s1.fenceSegment core acc quad seg else s1)

/-! ### Power (R407, R408) -/

/-- POWER_CAP_STEP (R407): an average above the limit lowers the clock by a step of 100 MHz, to 1.2 GHz at the lowest; power
below the limit is the ACTIVE state, at 2.3 GHz. The clock stays at 2.3 GHz while an Invalidate Request is pending. -/
def execPowerCapStep (above : Bool) (s : State) : Host.Outcome State Fault Refusal :=
  let capped := if above then max 12 (s.cappedClk - 1) else 23
  .next { s with
    pwrSt := if above then .capped else .active
    cappedClk := capped
    fclk := if s.atsPending.isEmpty then capped else 23 }

/-! ### Commands and replies (R409, R415, R416)

R409 places the code and the tag of a command. The places of its arguments, of the status and the tag in a reply, and what goes
beside the 64 and the 32 bytes, are the model's (DESIGN CHOICE, assumption 51). -/

/-- Arguments of 64 bits one after the other, as one number. -/
def argsNat : List DWord → Nat
  | [] => 0
  | a :: l => a.toNat + 2 ^ 64 * argsNat l

/-- The 64 bytes of a command (R409): the code in bits 7:0, the operation of command 0x03 in bits 9:8 (0 suspend, 1 resume, 2 kill,
3 replay), the tag in bits 31:16, and the arguments, argument k in the 64 bits from bit 64 × k. -/
def cmdWord (code : BitVec 8) (op : BitVec 2) (tag : BitVec 16) (args : List DWord) : BitVec 512 :=
  BitVec.ofNat 512 (code.toNat + 2 ^ 8 * op.toNat + 2 ^ 16 * tag.toNat + 2 ^ 64 * argsNat args)

/-- The 32 bytes of a reply (R409): the status, and the tag where the command has it. -/
def replyWord (tag : BitVec 16) (status : Nat) : BitVec 256 := BitVec.ofNat 256 (status % 2 ^ 16 + 2 ^ 16 * tag.toNat)

/-- A reply of Fjoub, signalled by MSI-X vector 1 (R409, R415). -/
def State.reply (s : State) (fn : Nat) (tag : BitVec 16) (status : Nat) (data : List Byte) : State :=
  let r : Reply := { fn := fn, word := replyWord tag status, data := data }
  { s with replies := s.replies ++ [r] }.signal fn 1

/-- A refusal whose status no rule gives: a free value that is not 0. -/
def State.refuse (s : State) (fn : Nat) (tag : BitVec 16) : State :=
  let (n, s1) := s.fresh
  s1.reply fn tag (n % 255 + 1) []

/-- The function is the PF, or a VF that is bound to a tenant (R416). -/
def State.bound (s : State) (fn : Nat) : Bool := fn == 0 || (s.fns.getD fn .fresh).root.isSome

/-- The oldest command of a function's ring that is not done: it is done where the function may give it and refused with status
0x20 where not (R409). No command comes from a function that does not exist, or over a host link that is down. -/
def State.command (s : State) (fn : Nat) (tag : BitVec 16) (cmd : BitVec 512) (pf : Bool) (act : State → State) :
    Host.Outcome State Fault Refusal :=
  if 32 ≤ fn || !(s.links.getD 8 true) then .next s
  else
    let s1 := { s with commands := s.commands ++ [⟨fn, cmd⟩] }
    if !s.bound fn || (pf && fn != 0) then .next (s1.reply fn tag 0x20 []) else .next (act s1)

/-- What an operation with a reason answers. -/
def replyWith (fn : Nat) (tag : BitVec 16) (r : State × Nat) : State := r.1.reply fn tag r.2 []

/-- The issuer a function is: its addresses are those of its tenant root's address space. -/
def State.hostIssuer (s : State) (fn : Nat) : Issuer :=
  let root := (s.fns.getD fn .fresh).root
  ⟨none, fn, root.map s.asrOf, root⟩

/-- The root of the system tenant: the PF's first launched tenant root that is marked system (R416). -/
def State.bindPf (s : State) (fn r : Nat) : State :=
  match s.region? r with
  | some x =>
    if fn = 0 ∧ x.rcb.troot ∧ x.rcb.sys ∧ (s.fns.getD 0 .fresh).root.isNone then
      let put (b : FnBind) : FnBind := { b with root := some r }
      { s with fns := s.fns.modify 0 put }
    else s
  | none => s

/-- FW_LAUNCH, command 0x01 (R351, R409): argument 1 is the address of the RCB. -/
def execFwLaunch (fn : Nat) (tag : BitVec 16) (rcb : DWord) (s : State) : Host.Outcome State Fault Refusal :=
  s.command fn tag (cmdWord 0x01 0 tag [rcb]) false fun s =>
    let (s1, n) := s.launch (s.hostIssuer fn) rcb.toNat
    replyWith fn tag (if n = 0 then s1.bindPf fn s.nextRegion else s1, n)

/-- FW_PRISM_LAUNCH, command 0x02 (R319, R409): argument 1 is the address of the record. -/
def execFwPrismLaunch (fn : Nat) (tag : BitVec 16) (prism : DWord) (s : State) : Host.Outcome State Fault Refusal :=
  s.command fn tag (cmdWord 0x02 0 tag [prism]) false fun s =>
    replyWith fn tag (s.launchPrism (s.hostIssuer fn) prism.toNat)

/-- A control form on a region of the function's tree, by the address of its RCB (R357, R409). -/
def State.fwControl (s : State) (fn : Nat) (tag : BitVec 16) (rcb : DWord) (op : RegionOp) : State :=
  match (s.fns.getD fn .fresh).root with
  | some top => replyWith fn tag (s.controlNamed top rcb.toNat op)
  | none => s.reply fn tag (if rcb.toNat % 512 = 0 then 0x11 else 0x10) []

/-- FW_SUSPEND, command 0x03 (R357, R409). -/
def execFwSuspend (fn : Nat) (tag : BitVec 16) (rcb : DWord) (s : State) : Host.Outcome State Fault Refusal :=
  s.command fn tag (cmdWord 0x03 0 tag [rcb]) false fun s => s.fwControl fn tag rcb .suspend

/-- FW_RESUME, command 0x03 (R357, R409). -/
def execFwResume (fn : Nat) (tag : BitVec 16) (rcb : DWord) (s : State) : Host.Outcome State Fault Refusal :=
  s.command fn tag (cmdWord 0x03 1 tag [rcb]) false fun s => s.fwControl fn tag rcb .resume

/-- FW_KILL, command 0x03 (R352, R357, R409). -/
def execFwKill (fn : Nat) (tag : BitVec 16) (rcb : DWord) (s : State) : Host.Outcome State Fault Refusal :=
  s.command fn tag (cmdWord 0x03 2 tag [rcb]) false fun s => s.fwControl fn tag rcb .kill

/-- FW_REPLAY, command 0x03 (R166, R357, R409): argument 2 holds SEQ in bits 15:0 and ALL in bit 16. -/
def execFwReplay (fn : Nat) (tag : BitVec 16) (rcb : DWord) (seq : BitVec 16) (all : Bool) (s : State) :
    Host.Outcome State Fault Refusal :=
  s.command fn tag (cmdWord 0x03 3 tag [rcb, BitVec.ofNat 64 (seq.toNat + 2 ^ 16 * b2n all)]) false fun s =>
    s.fwControl fn tag rcb (.replay seq.toNat all)

/-! ### Frames and quotas (R364, R416) -/

/-- The charge bits of frames that are set, with the places of their bytes. -/
def State.chargedOf (s : State) (root : Region) (frame count : Nat) : List (Nat × Nat) :=
  if root.rcb.chgb = 0 then []
  else
    ((List.range count).map fun i => frame + i).filterMap fun f =>
      match s.place root.fn root.rcb.asr (root.rcb.chgb.toNat + f / 8) with
      | some (key, _) => if (s.byte key).toNat.testBit (f % 8) then some (f, key) else none
      | none => none

/-- The frames' charge bits are cleared, and MEMU of the region and its ancestors is lowered by their number (R349, R364). -/
def State.freeFrames (s : State) (r : Nat) (root : Region) (frame count : Nat) : State :=
  let fs := s.chargedOf root frame count
  let s1 := fs.foldl (fun s (e : Nat × Nat) => s.putNum e.2 1 ((s.byte e.2).toNat - 2 ^ (e.1 % 8))) s
  (s1.payers r).foldl (fun s d =>
    match s.region? d with
    | some y => (s.updRegion d fun y => { y with memu := y.memu - fs.length }).putNum (y.rcbKey + 0xD0) 8 (y.memu - fs.length)
    | none => s) s1

/-- The frames that the 6 MiB of a charge bitmap name (R364). -/
def chargeFrames : Nat := 8 * 6 * 2 ^ 20

/-- FW_FREE_FRAMES, command 0x04 (R364): the region's RCB, the first frame and their number. -/
def execFwFreeFrames (fn : Nat) (tag : BitVec 16) (rcb frame count : DWord) (s : State) :
    Host.Outcome State Fault Refusal :=
  s.command fn tag (cmdWord 0x04 0 tag [rcb, frame, count]) false fun s =>
    match (s.fns.getD fn .fresh).root.bind fun top => s.regionNamed top rcb.toNat with
    | none => s.reply fn tag 0x11 []
    | some (r, x) =>
      if chargeFrames < frame.toNat + count.toNat then s.reply fn tag 0x24 []
      else
        match s.region? x.root with
        | some root => (s.freeFrames r root frame.toNat count.toNat).reply fn tag 0 []
        | none => s.reply fn tag 0 []

/-- The latest tenant root that a block address names, with its number. -/
def State.tenantRoot (s : State) (va : Nat) : Option (Nat × Region) :=
  (s.regions.filter fun e => e.2.rcb.troot && e.2.rcbVa.toNat == va).getLast?

/-- The binding of a VF to a tenant root, with the root's budgets and present queues (R416). -/
def State.bindVf (s : State) (vf r : Nat) (b : FnBind) (q : Rcb → Rcb) : State :=
  let mine (x : Region) : Bool := x.root == r
  let set (e : Nat × Region) : Nat × Region := if mine e.2 then (e.1, { e.2 with fn := vf }) else e
  let put (_ : FnBind) : FnBind := b
  { s with fns := s.fns.modify vf put, regions := s.regions.map set }.updRegion r fun x => { x with rcb := q x.rcb }

/-- The budgets and present queues that a set-quota command gives a tenant root (R347, R416). -/
def quotaOf (pq : BitVec 4) (memq timeq : DWord) (regq scrq : Word) (accq : DWord) (x : Rcb) : Rcb :=
  { x with
    pq := pq, memq := memq.toNat, timeq := timeq.toNat, regq := regq.toNat, scrq := scrq.toNat, accq := accq.toNat, ownb := true }

/-- FW_SET_QUOTA, command 0x05 (R409, R416): it binds a VF to a tenant root, a PASID, a partition and present queues, and
sets the root's budgets. The PF, function 0, is no VF: it is the system tenant. Argument 1 is the root's RCB; argument 2 holds the VF in bits 7:0, the partition in bits 15:8, the
present queues in bits 19:16 and the PASID in bits 51:32; the budgets follow in the order MEMQ, TIMEQ, REGQ with SCRQ, ACCQ. -/
def execFwSetQuota (fn : Nat) (tag : BitVec 16) (vf : BitVec 8) (rcb : DWord) (pasid : BitVec 20) (partition : BitVec 8)
    (pq : BitVec 4) (memq timeq : DWord) (regq scrq : Word) (accq : DWord) (s : State) : Host.Outcome State Fault Refusal :=
  let names := vf.toNat + 2 ^ 8 * partition.toNat + 2 ^ 16 * pq.toNat + 2 ^ 32 * pasid.toNat
  let args := [rcb, BitVec.ofNat 64 names, memq, timeq, BitVec.ofNat 64 (regq.toNat + 2 ^ 32 * scrq.toNat), accq]
  s.command fn tag (cmdWord 0x05 0 tag args) true fun s =>
    let good := vf != 0 && decide (vf.toNat < 32) && decide (partition.toNat < 8) && decide (memq.toNat < 2 ^ 40) && decide (accq.toNat < 2 ^ 16)
    match good, s.tenantRoot rcb.toNat with
    | true, some (r, _) =>
      let b : FnBind := { root := some r, pasid := pasid, partition := partition.toNat, pq := pq }
      (s.bindVf vf.toNat r b (quotaOf pq memq timeq regq scrq accq)).reply fn tag 0 []
    | _, _ => s.reply fn tag 0x24 []

/-! ### The present unit, homes, and the L2 mode (R283, R290, R337) -/

/-- A present queue takes its interval; one that begins to run to deadlines has its first flip slot an interval later. -/
def PQueue.program (p : PQueue) (interval us : Nat) (starts : Bool) : PQueue :=
  { p with interval := interval, slot := if starts then us + interval else p.slot }

/-- FW_SET_PRESENT, command 0x06 (R337): argument 1 is as `presdl`, with GUARD in bits 15:0 and EN above it, and arguments 2 and 3
hold the four intervals. -/
def execFwSetPresent (fn : Nat) (tag : BitVec 16) (en : BitVec 48) (guard : BitVec 16) (intervals : List Word) (s : State) :
    Host.Outcome State Fault Refusal :=
  let iv (q : Nat) : Word := intervals.getD q 0
  s.command fn tag (cmdWord 0x06 0 tag [en ++ guard, iv 1 ++ iv 0, iv 3 ++ iv 2]) true fun s =>
    if en.toNat < 16 then
      let go (q : Nat) (p : PQueue) : PQueue := p.program (iv q).toNat s.us (en.getLsbD q && !s.presEn.getLsbD q)
      { s with presEn := en.setWidth 4, presGuard := guard.toNat, presents := s.presents.mapIdx go }.reply fn tag 0 []
    else s.reply fn tag 0x24 []

/-- FW_HOME_MOVE, command 0x07 (R283), of a frame to a slice: begun, or refused with a status that no rule gives. -/
def execFwHomeMove (fn : Nat) (tag : BitVec 16) (frame slice : DWord) (s : State) : Host.Outcome State Fault Refusal :=
  s.command fn tag (cmdWord 0x07 0 tag [frame, slice]) true fun s =>
    match s.beginMove frame.toNat slice.toNat with
    | (s1, true) => s1.reply fn tag 0 []
    | (s1, false) => s1.refuse fn tag

/-- The conditions of R290 on the device: nothing is resident, saved, open, in flight or configured. -/
def State.idleForMode (s : State) : Bool :=
  s.waves.isEmpty && s.wgs.isEmpty && s.saved.isEmpty && (s.sets.all fun x => decide (x.st = .free)) &&
  s.copies.isEmpty && s.colls.isEmpty && s.deliveries.isEmpty &&
  (s.dies.all fun d => d.sweepQ.isEmpty && d.engines.isEmpty) &&
  s.clusters.all fun e => (e.2.queues.all fun q => !q.2.enabled && q.2.slots.isEmpty) && e.2.bins.all fun b => b.2.recs.isEmpty

/-- The fields of `l2part` of a partition (R288): its clusters, and its range in GiB. -/
def partFields (x : DWord) : Nat × Nat × Nat := (field x.toNat 23 0, field x.toNat 47 32, field x.toNat 63 48)

/-- Ranges cover [from, 192) without a gap or an overlap, taken in rising order of their bases. -/
def rangesTile : Nat → Nat → List (Nat × Nat) → Bool
  | 0, lo, l => l.isEmpty && lo == 192
  | fuel + 1, lo, l =>
    match l.find? fun e => e.1 == lo && decide (lo < e.2) with
    | some e => rangesTile fuel e.2 (l.filter fun f => !decide (f = e))
    | none => l.isEmpty && lo == 192

/-- The values of a die in partitioned mode are such as R287 and R288 allow. -/
def partitionedOk (mode : Word) (parts : List DWord) : Bool :=
  let m := mode.toNat
  let n := field m 3 2 + 1
  let sl (p : Nat) : Nat := field m (7 + 4 * p) (4 + 4 * p)
  let masks := (List.range 4).map fun p => (partFields (parts.getD p 0)).1
  decide (m < 2 ^ 20) && m % 4 == 1 && decide (2 ≤ n) && parts.length == 4 &&
  ((List.range 4).all fun p => if p < n then decide (1 ≤ sl p) else sl p == 0 && parts.getD p 0 == 0) &&
  ((List.range 4).map sl).sum == 8 && masks.sum == 0xFFFFFF && masks.foldl (· ||| ·) 0 == 0xFFFFFF &&
  parts.all fun x => field x.toNat 31 24 == 0

/-- The values of both dies are such as R287 and R288 allow. -/
def modeOk (modes : List Word) (parts : List (List DWord)) : Bool :=
  if modes == [0x80, 0x80] then parts.all (fun l => decide (l = Die.fresh.l2part)) && parts.length == 2
  else
    match modes, parts with
    | [a, b], [p, q] =>
      partitionedOk a p && partitionedOk b q &&
      rangesTile 8 0 (((p ++ q).map fun x => (partFields x).2).filter fun e => e.1 != e.2)
    | _, _ => false

/-- The change of R290: every core copy is written back and dropped, L2, the tables of homes, forwarding and watches, every TLB
and every walk cache are emptied, and the new values are written. -/
def State.changeMode (s : State) (modes : List Word) (parts : List (List DWord)) : State :=
  let s1 := (s.cores.map Prod.fst).foldl (fun s g => s.dropWhere g fun _ => true) s
  let die (i : Nat) (d : Die) : Die := { d with l2mode := modes.getD i 0, l2part := parts.getD i [], tables := [] }
  { s1 with
    cores := s1.cores.map fun e => (e.1, { e.2 with tlb := [], consts := [] })
    clusters := s1.clusters.map fun e => (e.1, { e.2 with tlb := [], walks := [] })
    l2 := [], homes := [], homeFwd := [], watches := [], ats := []
    dies := s1.dies.mapIdx die }

/-- The values of `l2part0` to `l2part3` of both dies that a command carries beside its 64 bytes. -/
def partsOf (data : List Byte) : List (List DWord) :=
  (List.range 2).map fun d => (List.range 4).map fun p => BitVec.ofNat 64 (leBytes ((data.drop (32 * d + 8 * p)).take 8))

/-- The values of `l2mode` of both dies that a command gives. -/
def modesOf (modes : DWord) : List Word := [modes.extractLsb' 0 32, modes.extractLsb' 32 32]

/-- FW_SET_L2_MODE, command 0x08 (R290): argument 1 holds `l2mode` of both dies. -/
def execFwSetL2Mode (fn : Nat) (tag : BitVec 16) (modes : DWord) (data : List Byte) (s : State) :
    Host.Outcome State Fault Refusal :=
  s.command fn tag (cmdWord 0x08 0 tag [modes]) true fun s =>
    if data.length != 64 || !modeOk (modesOf modes) (partsOf data) then s.reply fn tag 0x24 []
    else if !s.idleForMode then s.refuse fn tag
    else (s.changeMode (modesOf modes) (partsOf data)).reply fn tag 0 []

/-- FW_SET_POWER, command 0x09 (R407): 600 W to 1,300 W. -/
def execFwSetPower (fn : Nat) (tag : BitVec 16) (limit : DWord) (s : State) : Host.Outcome State Fault Refusal :=
  s.command fn tag (cmdWord 0x09 0 tag [limit]) true fun s =>
    if 600 ≤ limit.toNat ∧ limit.toNat ≤ 1300 then { s with pwrLimit := limit.toNat }.reply fn tag 0 []
    else s.reply fn tag 0x24 []

/-! ### Signatures and firmware slots (R410, R411) -/

/-- The messages a key signs at most (R410). -/
def keyUses : Nat := 1024

/-- An attestation key that has used its last index is replaced by a new one, which the identity key certifies while it has an index
left (R410). -/
def Firmware.rollKey (f : Firmware) : Firmware :=
  if f.attIndex < keyUses ∨ keyUses ≤ f.idIndex then f
  else { f with attKey := f.attKey + 1, attIndex := 0, certIndex := f.idIndex, idIndex := f.idIndex + 1 }

/-- The next index of the attestation key is written to flash (R410). -/
def Firmware.useIndex (f : Firmware) : Firmware := { f with attIndex := f.attIndex + 1 }.rollKey

/-- A loss of supply between the write of a key's next index and the signature skips an index of that key (R410): of the attestation key, or,
where that has used its last, also of the identity key that was to certify the next. -/
def Firmware.skipIndex (f : Firmware) (id : Bool) : Firmware :=
  if keyUses ≤ f.idIndex then f
  else if id && decide (keyUses ≤ f.attIndex + 1) then { f with attIndex := f.attIndex + 1, idIndex := f.idIndex + 1 }.rollKey
  else f.useIndex

/-- The certificate of the attestation key (R410): its public key, signed with an index of the identity key. -/
def Firmware.cert (f : Firmware) : List Byte := xmssSign identityKey f.certIndex (publicKey (attestationKey f.attKey))

/-- The bytes of a slot that its signature covers: its header and its image. -/
def FwSlot.signedBytes (x : FwSlot) : List Byte := toLe 16 x.header.toNat ++ x.image

/-- The anti-rollback value of a slot (R411). -/
def FwSlot.rollback (x : FwSlot) : Nat := (x.header.extractLsb' 32 32).toNat

/-- The measurement of the image that runs; zeros where none does. -/
def Firmware.measurement (f : Firmware) : List Byte :=
  match f.running.bind fun n => f.slots[n]? with
  | some x => shake256 x.signedBytes
  | none => List.replicate 32 0

/-- The attest reply (R410): the measurement and the nonce, the attestation key's signature on them, its public key, and its
certificate. -/
def Firmware.quote (f : Firmware) (nonce : List Byte) : List Byte :=
  let m := f.measurement ++ nonce
  let key := attestationKey f.attKey
  m ++ xmssSign key f.attIndex m ++ publicKey key ++ f.cert

/-- The four arguments that hold 32 bytes. -/
def args256 (x : BitVec 256) : List DWord := (List.range 4).map fun i => x.extractLsb' (64 * i) 64

/-- FW_ATTEST, command 0x0A (R410): arguments 1 to 4 are the nonce. -/
def execFwAttest (fn : Nat) (tag : BitVec 16) (nonce : BitVec 256) (s : State) : Host.Outcome State Fault Refusal :=
  s.command fn tag (cmdWord 0x0A 0 tag (args256 nonce)) false fun s =>
    if keyUses ≤ s.fw.idIndex then s.reply fn tag 0x22 []
    else { s with fw := s.fw.useIndex }.reply fn tag 0 (s.fw.quote (toLe 32 nonce.toNat))

/-- The slot that a write goes to: the one that is not running (R411). -/
def Firmware.idle (f : Firmware) : Nat := 1 - f.running.getD f.active

/-- A slot from the bytes that are written to it (R411): 16 bytes of header, with the version in bits 31:0, the anti-rollback value
in bits 63:32 and the length in bits 95:64; the image, and its signature. -/
def FwSlot.written (data : List Byte) : Option FwSlot :=
  let header : BitVec 128 := BitVec.ofNat 128 (leBytes (data.take 16))
  let length := (header.extractLsb' 64 32).toNat
  if data.length = 16 + length + 2500 then
    some { header := header, image := (data.drop 16).take length, sig := data.drop (16 + length) }
  else none

/-- FW_WRITE_SLOT, command 0x0B (R411): the slot goes beside the 64 bytes of the command. It decides over a roll back before it. -/
def execFwWriteSlot (fn : Nat) (tag : BitVec 16) (version rollback length : Word) (image sig : List Byte) (s : State) :
    Host.Outcome State Fault Refusal :=
  let header : BitVec 128 := (0 : Word) ++ length ++ rollback ++ version
  s.command fn tag (cmdWord 0x0B 0 tag []) true fun s =>
    match FwSlot.written (toLe 16 header.toNat ++ image ++ sig) with
    | none => s.reply fn tag 0x24 []
    | some x =>
      let n := s.fw.idle
      { s with fw := { s.fw with slots := s.fw.slots.set n x, pending := some n, tries := 0, next := none } }.reply fn tag 0 []

/-- The running slot becomes active, and the counter rises to its anti-rollback value (R411). -/
def Firmware.confirm (f : Firmware) : Firmware :=
  match f.running with
  | none => f
  | some n =>
    { f with active := n, counter := max f.counter ((f.slots[n]?.map FwSlot.rollback).getD 0)
             pending := if f.pending = some n then none else f.pending, tries := 0 }

/-- FW_CONFIRM, command 0x0C (R411). -/
def execFwConfirm (fn : Nat) (tag : BitVec 16) (s : State) : Host.Outcome State Fault Refusal :=
  s.command fn tag (cmdWord 0x0C 0 tag []) true fun s => { s with fw := s.fw.confirm }.reply fn tag 0 []

/-- A slot passes the boot checks (R411): its signature checks with Umawin's key (R410), and its anti-rollback value is at least
the counter. -/
def Firmware.bootOk (f : Firmware) (n : Nat) : Bool :=
  match f.slots[n]? with
  | some x => xmssCheck umawinKey x.sig x.signedBytes && decide (f.counter ≤ x.rollback)
  | none => false

/-- What the signature of a roll back is over: the device identity, the slot and the nonce (R411). -/
def rollBackBytes (slot : Nat) (nonce : BitVec 256) : List Byte :=
  toLe 32 Config.deviceId.toNat ++ toLe 1 slot ++ toLe 32 nonce.toNat

/-- FW_ROLL_BACK, command 0x0D (R411): argument 1 is the slot, arguments 2 to 5 are the nonce, and the signature goes beside
the 64 bytes. The slot becomes active at the next reset, over a write before it; until then the active slot stays. The nonce is used up,
and Fjoub has another. -/
def execFwRollBack (fn : Nat) (tag : BitVec 16) (slot : DWord) (nonce : BitVec 256) (sig : List Byte) (s : State) :
    Host.Outcome State Fault Refusal :=
  s.command fn tag (cmdWord 0x0D 0 tag (slot :: args256 nonce)) true fun s =>
    if slot.toNat = s.fw.idle ∧ nonce = s.fw.nonce ∧ xmssCheck umawinKey sig (rollBackBytes slot.toNat nonce) ∧
        s.fw.bootOk slot.toNat then
      let (n, s1) := s.fresh
      { s1 with fw := { s1.fw with next := some slot.toNat, pending := none, tries := 0, nonce := BitVec.ofNat 256 n } }.reply fn tag 0 []
    else s.reply fn tag 0x23 []

/-! ### Lifetime counters (R413) -/

/-- The records of flash with what was counted since (R413). No count decreases. -/
def Lifetime.flushed (l : Lifetime) : Lifetime :=
  { flash := l.live.foldl (fun m e => m.ins e.1 (NMap.get 0 m e.1 + e.2)) l.flash, live := [] }

/-- The lifetime counters as they are returned (R413): the next index of each key, and the records in flash, each as record and
count, in numbers of 8 bytes. -/
def State.counterBytes (s : State) : List Byte :=
  ([s.fw.idIndex, s.fw.attKey, s.fw.attIndex] ++ s.life.flash.flatMap fun e => [e.1, e.2]).flatMap (toLe 8)

/-- FW_READ_COUNTERS, command 0x0E (R413). -/
def execFwReadCounters (fn : Nat) (tag : BitVec 16) (s : State) : Host.Outcome State Fault Refusal :=
  s.command fn tag (cmdWord 0x0E 0 tag []) false fun s => s.reply fn tag 0 s.counterBytes

/-- LIFETIME_COUNTER_FLUSH (R413). -/
def execLifetimeCounterFlush (s : State) : Host.Outcome State Fault Refusal := .next { s with life := s.life.flushed }

/-! ### Freeze, other codes, reset and loss of supply (R409, R411 to R413) -/

/-- FW_FREEZE, command 0x0F (R412): every clock stops, so no reply is sent. -/
def execFwFreeze (fn : Nat) (tag : BitVec 16) (s : State) : Host.Outcome State Fault Refusal :=
  s.command fn tag (cmdWord 0x0F 0 tag []) true fun s => { s with frozen := true }

/-- FW_INVALID_CODE (R409): code 0x00 and codes 0x10 to 0xFF. The other codes have their own commands. -/
def execFwInvalidCode (fn : Nat) (tag : BitVec 16) (code : BitVec 8) (s : State) : Host.Outcome State Fault Refusal :=
  if code ≠ 0 ∧ code.toNat < 0x10 then .next s
  else s.command fn tag (cmdWord code 0 tag []) false fun s => s.reply fn tag 0x21 []

/-- FREEZE_PIN (R412). -/
def execFreezePin (s : State) : Host.Outcome State Fault Refusal := .next { s with frozen := true }

/-- A slot that passes the boot checks, to be booted. -/
def Firmware.tryBoot (f : Firmware) (n : Nat) : Option Nat := if f.bootOk n then some n else none

/-- A roll back takes effect at a reset (R411). -/
def Firmware.rolled (f : Firmware) : Firmware := { f with active := f.next.getD f.active, next := none }

/-- The slot that boots (R411): the pending one, until it fails or has been booted three times without a confirm; else the
active one, which a roll back has set. A new nonce is issued. -/
def Firmware.boot (f : Firmware) (nonce : BitVec 256) : Firmware :=
  let f := f.rolled
  match f.pending with
  | some p =>
    if f.bootOk p && decide (f.tries < 3) then { f with running := some p, tries := f.tries + 1, nonce := nonce }
    else { f with running := f.tryBoot (1 - p), pending := none, tries := 0, nonce := nonce }
  | none => { f with running := f.tryBoot f.active, nonce := nonce }

/-- The machine after a reset: as `State.reset`, with memory, flash and what has left the device kept, and the counters of
the model's own choices going on. -/
def State.restart (s : State) (mem : List Host.Cell) (poison : List Nat) (fw : Firmware) (life : Lifetime) : State :=
  let (n, s1) := s.fresh
  { State.reset with
    mem := mem, poison := poison, fw := fw.boot (BitVec.ofNat 256 n), life := life
    agenda := s1.agenda, ticks := s1.ticks, fv := s1.fv
    answers := s1.answers, commands := s1.commands, replies := s1.replies, msix := s1.msix, scanout := s1.scanout }

/-- DEVICE_RESET (R411, R412): every register and table is as after reset, and Fjoub boots. -/
def execDeviceReset (s : State) : Host.Outcome State Fault Refusal :=
  .next (s.restart s.mem s.poison s.fw s.life)

/-- POWER_LOSS (R410, R413): all volatile state and the counts since the last write are lost, and the device boots anew.
Whether an index of the attestation key or of the identity key is skipped is a free value. -/
def execPowerLoss (s : State) : Host.Outcome State Fault Refusal :=
  let (n, s1) := s.fresh
  let fw := if n % 3 = 0 then s.fw else s.fw.skipIndex (n % 3 == 2)
  .next (s1.restart (s.mem.filter fun c => locOf c.1 != 0) (s.poison.filter fun g => locOf (32 * g) != 0) fw
    { s.life with live := [] })

end Sys2Proof.Machine
end

