-- ==== Sys2Proof/Machine/Render.lean ====
section
/-! DEFINITION. The bin engine and the pixel interlock of majors 0xB2 and 0xB3 (23_render_path.md R373 to R380). -/

namespace Sys2Proof.Machine

open Sys2Proof

/-! ### Bin descriptors (R373) -/

/-- The bin memory of a descriptor is present, of class H and outside every open window. -/
def State.binMemOk (s : State) (fn asr base n : Nat) : Bool :=
  (List.range ((n + 4095) / 4096)).all fun i =>
    match s.placeWr fn asr (base + 4096 * i) with
    | some key => (s.frozenOf key).isNone
    | none => false

/-- A descriptor is ill-formed (R373). -/
def State.binBad (s : State) (fn asr : Nat) (d : BitVec 512) : Bool :=
  let chunks := dfield d 95 64
  let done := dfield d 255 192
  dfield d 511 256 != 0 || done % 8 != 0 || dfield d 191 128 % 4 != 0 || dfield d 127 112 == 0 ||
  decide (256 < dfield d 127 112) || dfield d 111 96 == 0 || decide (256 < dfield d 111 96) || decide (chunks < 16) ||
  decide (16777215 < chunks) || dfield d 63 0 % 4096 != 0 || !s.binMemOk fn asr (dfield d 63 0) (256 * chunks) ||
  (done != 0 && (s.placeWr fn asr done).isNone)

/-- The open descriptor of an address under a tag in an address space; and whether the address is open under another tag. -/
def State.binFind (s : State) (die asr va : Nat) (tag : Option (BitVec 5)) : Option BinDesc × Bool :=
  let same := (s.die die).bins.filter fun b => b.addr.toNat == va && s.asrOf b.rgn == asr
  (same.find? fun b => b.tag == tag, same.any fun b => b.tag != tag)

/-- A descriptor as it opens (R375). -/
def BinDesc.open_ (id va rgn : Nat) (tag : Option (BitVec 5)) (d : BitVec 512) (pc : DWord) : BinDesc :=
  { id := id, addr := BitVec.ofNat 64 va, tag := tag, rgn := rgn, done := BitVec.ofNat 64 (dfield d 255 192)
    entry := BitVec.ofNat 64 (dfield d 191 128), tw := dfield d 111 96, th := dfield d 127 112, bchk := dfield d 95 64
    bmem := BitVec.ofNat 64 (dfield d 63 0), seq := 0, flush := 0, lists := [], flushing := false, ending := false
    pending := [], cores := [], pc := pc, writes := [] }

/-- The descriptors of a die with one set. -/
def State.setBin (s : State) (die : Nat) (b : BinDesc) : State :=
  let x := s.die die
  let bins := if x.bins.any fun y => y.id == b.id then x.bins.map fun y => if y.id = b.id then b else y else x.bins ++ [b]
  s.setDie die { x with bins := bins }

/-! ### Lists and chunks (R375, R376) -/

/-- The keys of the tiles a primitive covers. -/
def Prim.tiles (p : Prim) : List Nat :=
  (List.range (p.y1 / 32 + 1 - p.y0 / 32)).flatMap fun j =>
    (List.range (p.x1 / 32 + 1 - p.x0 / 32)).map fun i => 256 * (p.y0 / 32 + j) + p.x0 / 32 + i

/-- The list of a tile. -/
def BinDesc.list (b : BinDesc) (tile : Nat) : TileList := NMap.get ⟨[], []⟩ b.lists tile

/-- A list needs a new chunk for one more entry. -/
def TileList.full (l : TileList) : Bool := l.ents.length % 15 == 0

/-- A number put into an ascending list. -/
def insertNat (n : Nat) : List Nat → List Nat
  | [] => [n]
  | m :: l => if n ≤ m then n :: m :: l else m :: insertNat n l

/-- The chunks in use, ascending. -/
def BinDesc.taken (b : BinDesc) : List Nat :=
  ((b.lists.flatMap fun e => e.2.chunks).eraseDups).foldl (fun l n => insertNat n l) []

/-- The primitive needs more chunks than are free. -/
def BinDesc.overflows (b : BinDesc) (p : Prim) : Bool :=
  decide (b.bchk < b.taken.length + (p.tiles.filter fun t => (b.list t).full).length)

/-- The k-th free chunk, where those of an ascending list are taken. -/
def freeChunk (taken : List Nat) (k : Nat) : Nat := taken.foldl (fun c u => if u ≤ c then c + 1 else c) k

/-- The address of a chunk. -/
def BinDesc.chunkAddr (b : BinDesc) (n : Nat) : Nat := b.bmem.toNat + 256 * n

/-- The bytes of an entry. -/
def entryBytes (seq : Word) (payload : BitVec 64) : List Byte := toLe 16 (seq.toNat + 2 ^ 64 * payload.toNat)

/-- The engine's write to bin memory, which is base (R376): at the home, and a fault posts its record. None where it is to be made
again, with the state after it. -/
def State.binWrite (s : State) (die : Nat) (b : BinDesc) (va : Nat) (bs : List Byte) : State × Bool :=
  let k := s.clusterFor b.rgn die
  let e : EngOf := ⟨b.rgn, none, k, b.pc, b.id⟩
  match s.reach ⟨b.rgn, k, none⟩ .wr clsHome .base va bs.length with
  | .ok s1 parts =>
    ((parts.foldl (fun (a : State × List Byte) p =>
      (if a.1.cutOff p.key then a.1 else a.1.baseWrite p.key (a.2.take p.size), a.2.drop p.size)) (s1, bs)).1, true)
  | .fault s1 _ f => (s1.engRecord e f, true)
  | .quota s1 r => (s1.engQuota e r, false)
  | .wait s1 => (s1, false)

/-- Writes to bin memory made in order (R376): the state, and those that a quota or the host keeps waiting (R364). -/
def State.binWrites (s : State) (die : Nat) (b : BinDesc) : List (Nat × List Byte) → State × List (Nat × List Byte)
  | [] => (s, [])
  | (va, bs) :: rest =>
    match if s.quotaWait b.rgn then (s, false) else s.binWrite die b va bs with
    | (s1, true) => s1.binWrites die b rest
    | (s1, false) => (s1, (va, bs) :: rest)

/-- The writes of a descriptor that are still to be made. -/
def State.binSettle (s : State) (die : Nat) (b : BinDesc) : State × BinDesc :=
  let (s1, left) := s.binWrites die b b.writes
  (s1, { b with writes := left })

/-- An entry appended to a list, with a new chunk where its last is full: no rule says which free chunk is taken. -/
def State.binAppend (s : State) (die : Nat) (b : BinDesc) (tile : Nat) (seq : Word) (payload : BitVec 64) :
    State × BinDesc :=
  let l := b.list tile
  let pos := l.ents.length % 15
  let (s1, chunks, links) :=
    if l.full then
      let (n, s1) := s.fresh
      let c := freeChunk b.taken (n % (b.bchk - b.taken.length))
      let link := match l.chunks.getLast? with
        | some last => [(b.chunkAddr last, toLe 8 (b.chunkAddr c))]
        | none => []
      (s1, l.chunks ++ [c], link ++ [(b.chunkAddr c, toLe 8 0)])
    else (s, l.chunks, [])
  let at_ := b.chunkAddr (chunks.getLastD 0)
  s1.binSettle die { b with
    lists := b.lists.ins tile ⟨chunks, l.ents ++ [(seq, payload)]⟩
    writes := b.writes ++ links ++ [(at_ + 16 + 16 * pos, entryBytes seq payload), (at_ + 8, toLe 8 (pos + 1))] }

/-- A primitive appended to the lists of its tiles. -/
def State.binAdd (s : State) (die : Nat) (b : BinDesc) (p : Prim) : State × BinDesc :=
  p.tiles.foldl (fun a t => a.1.binAppend die a.2 t p.seq p.payload) (s, b)

/-! ### Flushes (R377, R378) -/

/-- The record and the interlock state of a tile wave (R377, R380). -/
def State.askTile (s : State) (die : Nat) (b : BinDesc) (tile : Nat) (l : TileList) : State :=
  let tx := tile % 256
  let ty := tile / 256
  let rec_ := BitVec.ofNat 128
    (65536 * ty + tx + 2 ^ 32 * l.ents.length + 2 ^ 64 * (b.chunkAddr (l.chunks.headD 0) % 2 ^ 64))
  let d : Delivery :=
    { id := s.nextId, rgn := b.rgn, kind := .tile, die := die, cluster := none, entry := b.entry, tag := b.tag, sdep := 0
      recs := numbered 32 fun i => (i, rec_), prods := [], elems := []
      tile := some { tx := tx, ty := ty, seqs := l.ents.map Prod.fst, held := [], clear := [], clearAll := [], named := [] }
      src := b.id }
  { s with nextId := s.nextId + 1, deliveries := s.deliveries ++ [d] }

/-- A flush begins: every list that holds an entry asks for its tile wave. -/
def State.binFlush (s : State) (die : Nat) (b : BinDesc) : State :=
  let b1 : BinDesc := { b with flushing := true, cores := [] }
  b1.lists.foldl (fun (s : State) e => if e.2.ents.isEmpty then s else s.askTile die b1 e.1 e.2) (s.setBin die b1)

/-- A primitive that needs more chunks than are free (R378): a flush, event 0x11, and the primitive waits. -/
def State.binOverflow (s : State) (die : Nat) (b : BinDesc) (p : Prim) : State :=
  (s.binFlush die { b with pending := [p] }).postEvent b.rgn b.rgn { code := 0x11, sub := 0, det0 := b.flush }

/-- A primitive that alone needs more chunks than there are (R378): its one entry, in one chunk, is the list of every tile
it covers, and it is flushed on its own. Until that entry is written the flush waits. -/
def State.binAlone (s : State) (die : Nat) (old b : BinDesc) (p : Prim) : State :=
  match p.tiles with
  | [] => s.setBin die b
  | t :: _ =>
    let (s1, b1) := s.binAppend die b t p.seq p.payload
    if b1.writes.isEmpty then
      let one := b1.list t
      s1.binFlush die { b1 with lists := p.tiles.foldl (fun m u => NMap.ins m u one) [] }
    else s1.setBin die { old with writes := b1.writes }

/-- The writes that the bin engine of a die has still to make are tried again. -/
def State.settleBins (s : State) (die : Nat) : State :=
  ((s.die die).bins.filter fun b => !b.writes.isEmpty).foldl (fun s b =>
    let (s1, b1) := s.binSettle die b
    s1.setBin die b1) s

/-! ### `bin.put` (R374, R375) -/

/-- The clipped box of a primitive record: none where it is empty. -/
def BinDesc.clip (b : BinDesc) (seq : Word) (r : Nat) : Option Prim :=
  let x0 := field r 15 0
  let y0 := field r 31 16
  let x1 := min (field r 47 32) (32 * b.tw - 1)
  let y1 := min (field r 63 48) (32 * b.th - 1)
  if x1 < x0 ∨ y1 < y0 then none else some ⟨seq, x0, y0, x1, y1, BitVec.ofNat 64 (r / 2 ^ 64)⟩

/-- The open descriptor that a lane's `bin.put` uses, opened where it is not (R375); none while the engine waits. -/
def State.binOpen (s : State) (c : Ctx) (die va : Nat) (d : BitVec 512) : Option (State × BinDesc) :=
  let x := s.die die
  let tag := s.liveTag c.x.rgn
  if x.bins.any fun b => !b.pending.isEmpty || !b.writes.isEmpty then none
  else
    match s.binFind die (s.asrOf c.x.rgn) va tag with
    | (some b, _) => if b.flushing then none else some (s, b)
    | (none, other) =>
      if other || decide (16 ≤ x.bins.length) then none
      else
        let b := BinDesc.open_ s.nextId va c.x.rgn tag d c.pc
        some ({ s with nextId := s.nextId + 1 }.setBin die b, b)

/-- A lane's `bin.put` up to the record: its descriptor read and checked, its release made. -/
def State.binGo (s : State) (c : Ctx) (lane : Nat) (k : State → Nat → BinDesc → Lane) : Lane :=
  let va := addrSum (c.a lane 2) 0 1 c.offX 64
  match s.readDesc c lane va 64 clsHome with
  | .stop r => r
  | .ok s1 d =>
    if s1.binBad (s1.fnOf c.x.rgn) (s1.asrOf c.x.rgn) d then .fault s1 { code := 5, sub := 0x15, addr := some va }
    else
      match s1.releaseAt c.w lane .dev with
      | none => .stay s
      | some s2 =>
        let die := clusterOfWave c.w / 24
        let s3 := s2.settleBins die
        match s3.binOpen c die va d with
        | none => .stay s3
        | some (s4, b) => k s4 die b

/-- A record given to the engine: its sequence number. -/
def State.binRecord (s : State) (die : Nat) (b : BinDesc) (r : Nat) : Lane :=
  let b1 : BinDesc := { b with seq := b.seq + 1 }
  match b.clip b.seq r with
  | none => .ok (s.setBin die b1) [b.seq]
  | some p =>
    if b1.overflows p then .ok (s.binOverflow die b1 p) [b.seq]
    else
      let (s1, b2) := s.binAdd die b1 p
      .ok (s1.setBin die b2) [b.seq]

/-- `bin.put` (R374, R375). -/
def execBinPut (f : Frame) (s : State) : Host.Outcome State Fault Refusal :=
  perLane (.binPut f) s fun c s1 l => s1.binGo c l fun s2 die b => s2.binRecord die b (c.b l 4)

/-- `bin.put` with END (R375, R377): the frame ends with a flush. -/
def execBinPutEnd (f : Frame) (s : State) : Host.Outcome State Fault Refusal :=
  perLane (.binPutEnd f) s fun c s1 l => s1.binGo c l fun s2 die b => .ok (s2.binFlush die { b with ending := true }) [0]

/-- A tile wave of the descriptor's flush, or its delivery, is still to end, or an operation that one of them has issued (R377). -/
def State.tileBusy (s : State) (b : BinDesc) : Bool :=
  let mine (y : Wave) : Bool := decide (y.kind = .tile) && y.src == b.id
  (s.waves.any fun e => mine e.2) || (s.saved.any fun z => z.2.waves.any fun e => mine e.2) ||
  (s.deliveries.any fun d => decide (d.kind = .tile) && d.src == b.id) || s.opsVia b.id fun _ => false

/-- A descriptor closes (R377): 1 is added to DONE, a release at `.dev`. -/
def State.binClose (s : State) (die : Nat) (b : BinDesc) : State :=
  let x := s.die die
  let s1 := s.setDie die { x with bins := x.bins.filter fun y => y.id != b.id }
  if b.done = 0 then s1
  else
    match s1.placeWr (s1.fnOf b.rgn) (s1.asrOf b.rgn) b.done.toNat with
    | some key => s1.raiseCtr ⟨b.rgn, none, s1.clusterFor b.rgn die, b.pc, s1.nextId⟩ key (some b.done.toNat)
    | none => s1.engRecord ⟨b.rgn, none, s1.clusterFor b.rgn die, b.pc, b.id⟩
        { code := 5, sub := 9, addr := some b.done.toNat, wr := true }

/-- FLUSH_COMPLETE (R377, R378): the tile waves of a flush are gone, a release at `.dev`; the chunks are freed, the flush
number advances, and the primitive that waits is taken, or the descriptor closes. -/
def execFlushComplete (die desc : Nat) (s : State) : Host.Outcome State Fault Refusal :=
  match ((s.settleBins die).die die).bins.find? fun b => b.id == desc with
  | none => .next s
  | some b =>
    let s0 := s.settleBins die
    if !b.flushing || !b.writes.isEmpty || s0.tileBusy b then .next s0
    else
      let s1 := b.cores.foldl (fun (s : State) g => (s.writeBackAll g).writeBackSvc (4 * (g / 4))) s0
      let b1 : BinDesc := { b with flushing := false, lists := [], flush := b.flush + 1, cores := [], pending := [] }
      match b.pending with
      | p :: _ =>
        if b1.overflows p then .next (s1.binAlone die b b1 p)
        else
          let (s2, b2) := s1.binAdd die b1 p
          .next (s2.setBin die b2)
      | [] => if b.ending then .next (s1.binClose die b1) else .next (s1.setBin die b1)

/-! ### Pixel interlock (R379, R380) -/

/-- The interlock state of a wave changed. -/
def State.updTile (s : State) (w : Nat) (g : TileSt → TileSt) : State :=
  { s with waves := s.waves.upd w fun x => { x with tile := x.tile.map g } }

/-- A lane names a sequence number in a lock. -/
def TileSt.name (t : TileSt) (seq : Word) (lane : Nat) : TileSt :=
  if t.named.any fun e => e.1 == seq then
    { t with named := t.named.map fun e => if e.1 = seq then (e.1, e.2 ||| maskOf [lane]) else e }
  else { t with named := t.named ++ [(seq, maskOf [lane])] }

/-- The pixel lies outside the wave's tile. -/
def TileSt.outside (t : TileSt) (px : Word) : Bool :=
  px.toNat % 65536 / 32 != t.tx || px.toNat / 65536 / 32 != t.ty

/-- `pxlock` of one lane (R380). -/
def State.pxlockLane (s : State) (c : Ctx) (lane : Nat) : Lane :=
  let px := BitVec.ofNat 32 (c.a lane)
  let seq := BitVec.ofNat 32 (c.b lane)
  match s.waves.find c.w with
  | none => .stay s
  | some x =>
    match x.tile with
    | none => .fault s { code := 5, sub := 0x10 }
    | some t =>
      if t.outside px then .fault s { code := 5, sub := 0x11 }
      else if !t.seqs.contains seq then .fault s { code := 5, sub := 0x12 }
      else
        let free := t.held.contains ⟨px, seq⟩ || x.pxClear t px seq
        let s1 := s.updTile c.w fun t => t.name seq lane
        if free then .ok s1 []
        else if x.pxGrant t px seq then
          (match (s1.updTile c.w fun t => { t with held := t.held ++ [⟨px, seq⟩] }).acquireAt c.w lane .dev with
           | some s2 => .ok s2 []
           | none => .stay s)
        else .block s1 (.pixel px seq)

/-- `pxlock` (R379, R380). -/
def execPxlock (f : Frame) (s : State) : Host.Outcome State Fault Refusal :=
  perLane (.pxlock f) s fun c s1 l => s1.pxlockLane c l

/-- `pxunlock` of one lane (R380): a release at `.dev`, after which the entry is clear of the pixel, or of every pixel. -/
def State.pxunlockLane (s : State) (c : Ctx) (lane : Nat) (all : Bool) : Lane :=
  let px := BitVec.ofNat 32 (c.a lane)
  let seq := BitVec.ofNat 32 (c.b lane)
  if (s.waves.find c.w).any fun x => x.tile.isSome then
    match s.releaseAt c.w lane .dev with
    | none => .stay s
    | some s1 =>
      let clear (t : TileSt) : TileSt :=
        if all then { t with clearAll := t.clearAll ++ [seq], held := t.held.filter fun h => h.seq != seq }
        else { t with clear := t.clear ++ [⟨px, seq⟩], held := t.held.filter fun h => !decide (h = ⟨px, seq⟩) }
      .ok ((s1.updTile c.w clear).pxWake c.w) []
  else .fault s { code := 5, sub := 0x10 }

/-- `pxunlock` (R379, R380). -/
def execPxunlock (f : Frame) (all : Bool) (s : State) : Host.Outcome State Fault Refusal :=
  perLane (.pxunlock f all) s fun c s1 l => s1.pxunlockLane c l all

end Sys2Proof.Machine
end

