-- ==== Sys2Proof/Machine/System.lean ====
section
/-! DEFINITION. CSR access, traps and returns, and cache and translation control of majors 0xC0 to 0xC2
(08_thread_memory_traps.md R167 to R171, 01_thread_state.md R21 to R23, 07_control_divergence.md R133, 10_core_issue.md
R189 to R191, 11_core_scratchpad_barriers.md R192 and R211, 13_cluster_caller_matrix.md R225 to R227, 16_die_l2_copy.md
R287 and R288, 19_facets_versioned_memory.md R337, 25_package.md R408). -/

namespace Sys2Proof.Machine

open Sys2Proof

/-! ### Reading a CSR -/

/-- `thrstat` (R22). -/
def Thread.thrstat (t : Thread) : Nat :=
  b2n t.lav + 2 * b2n t.spl + 2 ^ 6 * t.stack.length + 2 ^ 9 * b2n t.resv.isSome + 2 ^ 10 * b2n t.fac + 2 ^ 11 * t.sdep

/-- The thread CSRs (R21 to R23). -/
def Thread.csr (t : Thread) (n : Nat) : Nat :=
  match n with
  | 0x000 => t.thrstat
  | 0x010 => t.spillb.toNat
  | 0x011 => t.spilll.toNat
  | 0x012 => t.spillp.toNat
  | 0x020 => t.epc.toNat
  | _ => t.ecause.toNat

/-- The wave CSRs (R133, R211). -/
def Wave.csr (x : Wave) (n : Nat) : Nat :=
  if n = 0x100 then x.fairt.toNat else (x.feedp.getD (n - 0x110) 0).toNat

/-- The resident waves of a quadrant, the service wave on core 0 of a cluster among them (R191). -/
def State.resident (s : State) (g q : Nat) : Nat :=
  ((s.spots g).filter fun p => p.slot / 32 == q).length

/-- The core CSRs (R189 to R192). -/
def State.coreCsr (s : State) (g n : Nat) : Nat :=
  let c := s.core g
  match n with
  | 0x200 => c.scrn + 2 ^ 8 * c.tobn
  | 0x201 => c.wakerc.toNat
  | 0x202 => c.gatec.toNat
  | _ => s.resident g 0 + 2 ^ 6 * s.resident g 1 + 2 ^ 12 * s.resident g 2 + 2 ^ 18 * s.resident g 3

/-- The cluster CSRs (R225 to R227). -/
def State.clusterCsr (s : State) (k n : Nat) : Nat :=
  let e := (s.core (4 * k + n % 4)).engine
  if n < 0x404 then e.mestat.toNat else e.done.toNat + 2 ^ 32 * e.issued.toNat

/-- `presq` of a present queue (R337). -/
def State.presq (s : State) (q : Nat) : Nat :=
  let p := s.presents.getD q .fresh
  p.interval + 2 ^ 32 * (if s.presEn.getLsbD q then (p.slot - s.us) % 2 ^ 20 else 0) + 2 ^ 52 * p.entries.length

/-- ST of `pwrst` (R408). -/
def PwrSt.code : PwrSt → Nat
  | .active => 0 | .capped => 1

/-- The die and device CSRs (R287, R288, R337, R408). -/
def State.deviceCsr (s : State) (die n : Nat) : Nat :=
  match n with
  | 0x600 => (s.die die).l2mode.toNat
  | 0x800 => s.presGuard + 2 ^ 16 * s.presEn.toNat
  | 0x805 => s.pwrSt.code + 2 ^ 12 * s.fclk + 2 ^ 18 * s.pwrLimit
  | _ =>
    if n < 0x800 then ((s.die die).l2part.getD (n - 0x601) 0).toNat else s.presq (n - 0x801)

/-- Fault 0x05, subcode 0x07, of an access its level does not admit (R168). -/
def csrRefused : Flt := { code := 5, sub := 7 }

/-- The value of a CSR as a lane reads it, by the level of the CSR (R168, R225). -/
def State.csrRead (s : State) (c : Ctx) (lane n : Nat) : Except Flt Nat :=
  match s.waves.find c.w with
  | none => .error csrRefused
  | some x =>
    if n < 0x100 then .ok ((x.threads.getD lane .empty).csr n)
    else if n < 0x400 then
      match coreOfWave c.w with
      | none => .error csrRefused
      | some g => .ok (if n < 0x200 then x.csr n else s.coreCsr g n)
    else if n < 0x600 then
      match coreOfWave c.w with
      | some _ => .error csrRefused
      | none => .ok (s.clusterCsr (clusterOfWave c.w) n)
    else if s.isSys x.rgn then .ok (s.deviceCsr (clusterOfWave c.w / 24) n)
    else .error csrRefused

/-! ### Writing a CSR -/

/-- A write of `spillb` (R23): refused while the spill area holds an address, or where the limit would lie below. -/
def Thread.putSpillb (t : Thread) (v : Nat) : Except Flt Thread :=
  let base := BitVec.ofNat 64 (v / 8 * 8)
  if t.spillp ≠ t.spillb then .error { code := 5, sub := 2 }
  else if t.spilll < base then .error { code := 5, sub := 3 }
  else .ok { t with spillb := base, spillp := base }

/-- A write of `spilll` (R23). -/
def Thread.putSpilll (t : Thread) (v : Nat) : Except Flt Thread :=
  let limit := BitVec.ofNat 64 (v / 8 * 8)
  if t.spillp ≠ t.spillb then .error { code := 5, sub := 2 }
  else if limit < t.spillb then .error { code := 5, sub := 3 }
  else .ok { t with spilll := limit }

/-- A write of a thread CSR by field access (R9, R22, R23). -/
def Thread.putCsr (t : Thread) (n v : Nat) : Except Flt Thread :=
  match n with
  | 0x000 => .ok { t with lav := t.lav && !v.testBit 0, spl := t.spl && !v.testBit 1 }
  | 0x010 => t.putSpillb v
  | 0x011 => t.putSpilll v
  | 0x020 => .ok { t with epc := BitVec.ofNat 64 (v / 4 * 4) }
  | _ => .ok t

/-- A write of a wave CSR (R133, R211): a new fairness limit is in effect from the next reset of the count. -/
def Wave.putCsr (x : Wave) (n v : Nat) : Wave :=
  if n = 0x100 then { x with fairt := BitVec.ofNat 32 (v % 2 ^ 16) }
  else { x with feedp := x.feedp.set (n - 0x110) (BitVec.ofNat 32 (v % 2 ^ 22 / 4 * 4)) }

/-- A CSR written by a lane (R168, R225). -/
def State.csrWrite (s : State) (c : Ctx) (lane n v : Nat) : Except Flt State :=
  if n < 0x100 then
    match s.thread? c.w lane with
    | none => .ok s
    | some t => match t.putCsr n v with
      | .ok t1 => .ok (s.updThread c.w lane fun _ => t1)
      | .error f => .error f
  else if n < 0x200 then
    match coreOfWave c.w with
    | some _ => .ok { s with waves := s.waves.upd c.w fun x => x.putCsr n v }
    | none => .error csrRefused
  else if n < 0x400 then .error csrRefused
  else if n < 0x600 then
    match coreOfWave c.w with
    | some _ => .error csrRefused
    | none => .ok (if n < 0x404 then s.writeMestat (4 * clusterOfWave c.w + n % 4) v else s)
  else .error csrRefused

/-! ### `csrr` and `csrw` (R167) -/

/-- The CSR number an access names: X in the M form, else the low 12 bits of a source. -/
def Ctx.csrNum (c : Ctx) (src : Nat) : Nat := if c.e.f.isS then src % 2 ^ 12 else csrX c.e.f

/-- The checks of the S form on the data operand of a 64-bit CSR, made at execution. -/
def Ctx.csrOperand (c : Ctx) (o : Operand) : Option Flt :=
  match o with
  | .p _ | .k _ | .sr _ => some { code := 1, sub := 9 }
  | .s n => if n.toNat % 2 = 1 then some { code := 1, sub := 9 } else none
  | .v n =>
    if c.u == .c then none
    else if n.toNat % 2 = 1 then some { code := 3, sub := 2 }
    else if c.x.bound ≤ n.toNat + 1 then some { code := 3, sub := 1 }
    else none
  | _ => none

/-- The registers of a CSR, or the fault of a number no CSR has, or of an operand that cannot hold its value. -/
def Ctx.csrCheck (c : Ctx) (n : Nat) (o : Operand) : Except Flt Nat :=
  match csrWords n with
  | none => .error { code := 1, sub := 6 }
  | some 2 => (match if c.e.f.isS then c.csrOperand o else none with
      | some f => .error f
      | none => .ok 2)
  | some k => .ok k

/-- The lane's pending results in the pair of a data operand whose width the S form learns at execution are written
(R34). -/
def State.settlePair (s : State) (c : Ctx) (lane words : Nat) (o : Operand) : Option State :=
  let hs := if words = 2 then c.x.holders c.u lane [(o, 2)] else []
  let s1 := if hs.any fun h => h.2.2 then s.updThread c.w lane fun t => { t with lav := true } else s
  hs.foldl (fun r h => r.bind fun (s2 : State) => s2.returnAcc c.w h.1 h.2.1) (some s1)

/-- `csrr` of one lane. -/
def State.csrrLane (s : State) (c : Ctx) (lane : Nat) : Lane :=
  let n := c.csrNum (c.a lane)
  match c.csrCheck n c.e.f.d with
  | .error f => .fault s f
  | .ok words =>
    match s.settlePair c lane words c.e.f.d with
    | none => .stay s
    | some s1 =>
      match s1.csrRead c lane n with
      | .error f => .fault s1 f
      | .ok v => .ok s1 (wordsOf words v)

/-- `csrw` of one lane. -/
def State.csrwLane (s : State) (c : Ctx) (lane : Nat) : Lane :=
  let n := c.csrNum (c.b lane)
  match c.csrCheck n c.e.f.a with
  | .error f => .fault s f
  | .ok words =>
    match s.settlePair c lane words c.e.f.a with
    | none => .stay s
    | some s1 =>
      let x := match s1.waves.find c.w with | some x => x | none => c.x
      match s1.csrWrite c lane n (Ctx.a { c with x := x } lane words) with
      | .error f => .fault s1 f
      | .ok s2 => .ok s2 []

/-- `csrr` (R167, R168). -/
def execCsrr (f : Frame) (s : State) : Host.Outcome State Fault Refusal :=
  perLane (.csrr f) s fun c s1 l => s1.csrrLane c l

/-- `csrw` of a CSR whose write has no row of its own (R167, R168). -/
def execCsrw (f : Frame) (s : State) : Host.Outcome State Fault Refusal :=
  perLane (.csrw f) s fun c s1 l => s1.csrwLane c l

/-- `csrw spillb` (R23). -/
def execSpillbWrite (f : Frame) (s : State) : Host.Outcome State Fault Refusal :=
  perLane (.spillbWrite f) s fun c s1 l => s1.csrwLane c l

/-- `csrw spilll` (R23). -/
def execSpilllWrite (f : Frame) (s : State) : Host.Outcome State Fault Refusal :=
  perLane (.spilllWrite f) s fun c s1 l => s1.csrwLane c l

/-- `csrw fairt` (R133). -/
def execFairtWrite (f : Frame) (s : State) : Host.Outcome State Fault Refusal :=
  perLane (.fairtWrite f) s fun c s1 l => s1.csrwLane c l

/-- `csrw mestat` that resumes an engine (R226, R243). -/
def execMestatHaltResume (f : Frame) (s : State) : Host.Outcome State Fault Refusal :=
  perLane (.mestatHaltResume f) s fun c s1 l => s1.csrwLane c l

/-- `csrw mestat` with DISC (R226, R243). -/
def execMestatDiscard (f : Frame) (s : State) : Host.Outcome State Fault Refusal :=
  perLane (.mestatDiscard f) s fun c s1 l => s1.csrwLane c l

/-! ### Traps and returns (R169) -/

/-- `trap`: fault 0x15 with the low byte of A as its subcode. -/
def execTrap (f : Frame) (s : State) : Host.Outcome State Fault Refusal :=
  perLane (.trap f) s fun c s1 l =>
    .fault s1 { code := 0x15, sub := BitVec.ofNat 8 (c.a l), det0 := c.a l }

/-- `bkpt`: fault 0x16. -/
def execBkpt (f : Frame) (s : State) : Host.Outcome State Fault Refusal :=
  perLane (.bkpt f) s fun _ s1 _ => .fault s1 { code := 0x16, sub := 0 }

/-- `eret`: the thread resumes at `epc` without its handler mark. -/
def execEret (f : Frame) (s : State) : Host.Outcome State Fault Refusal :=
  perLane (.eret f) s fun c s1 l =>
    if (c.thread l).mark then .ok (s1.updThread c.w l Thread.eret) [] else .fault s1 { code := 5, sub := 6 }

/-! ### Cache and translation control (R170, R171) -/

/-- The virtual address range of `icinv` and `tlbinv`: base and size. -/
def Ctx.invRange (c : Ctx) (lane : Nat) : Nat × Nat := (addrSum (c.a lane 2) 0 1 c.offX 64, c.b lane)

/-- Two ranges of virtual addresses, modulo 2^64, share a byte. -/
def vaMeets (a n b m : Nat) : Bool :=
  let d (x y : Nat) : Nat := (2 ^ 64 + x - y) % 2 ^ 64
  decide (0 < n) && decide (0 < m) && (decide (d b a < n) || decide (d a b < m))

/-- The leaves that every TLB of the device holds of an address space. -/
def State.heldLeaves (s : State) (asr : Nat) : List Leaf :=
  ((s.cores.flatMap fun e => e.2.tlb) ++ s.clusters.flatMap fun e => e.2.tlb).filter fun l => l.asr == asr

/-- The functions whose regions work in an address space (R416). -/
def State.fnsOf (s : State) (asr : Nat) : List Nat :=
  distinct ((s.regions.filter fun e => e.2.rcb.asr == asr).map fun e => e.2.fn)

/-- The first places of the frames that a leaf maps, for each function whose regions use it. -/
def State.leafKeys (s : State) (l : Leaf) : List Nat := (s.fnsOf l.asr).map fun fn => s.hostKey fn l.key

/-- A leaf maps the sector. -/
def State.leafHas (s : State) (l : Leaf) (sec : Nat) : Bool :=
  (s.leafKeys l).any fun k => decide (k ≤ 64 * sec) && decide (64 * sec < k + l.size)

/-- The places that an address may stand for: by the tables now, and by each translation that a TLB still holds (R282). -/
def State.placesOf (s : State) (asr va : Nat) : List Nat :=
  ((match s.walk asr va with | .leaf l => [l] | .fault _ _ => []) ++
    (s.heldLeaves asr).filter fun l => l.maps asr va).flatMap fun l => (s.fnsOf asr).map fun fn => s.hostKey fn (l.key + (va - l.va))

/-- The whole fetch blocks of a range (R170): base and size. -/
def blockSpan (base size : Nat) : Nat × Nat :=
  if size = 0 then (base, 0) else (base / 32 * 32, (base + size + 31) / 32 * 32 - base / 32 * 32)

/-- A captured loop has a block in a range. -/
def LoopBuf.inSpan (b : LoopBuf) (base size : Nat) : Bool :=
  match b.range with
  | some (first, last) => vaMeets (32 * first) (32 * (last - first + 1)) base size
  | none => false

/-- Every instruction cache of the device drops the blocks of a range, and every loop buffer a loop that overlaps it
(R170, R186). -/
def State.dropBlocks (s : State) (asr base size : Nat) : State :=
  let span := blockSpan base size
  let pieces := (framePieces span.1 span.2).flatMap fun p => (s.placesOf asr p.1).map fun key => (key, p.2)
  let hit (blk : Nat) : Bool := pieces.any fun p => decide (p.1 < 32 * blk + 32) && decide (32 * blk < p.1 + p.2)
  let loop (b : LoopBuf) : LoopBuf := if b.inSpan span.1 span.2 then { b with range := none } else b
  let core (c : Core) : Core :=
    { c with icache := c.icache.filter fun e => !hit e.1, l0 := c.l0.map fun q => (q.1, q.2.filter fun e => !hit e.1), loops := c.loops.map fun e => (e.1, loop e.2) }
  { s with cores := s.cores.map fun e => (e.1, core e.2) }

/-- `icinv` of one lane (R170): a release at `.dev`, then the drop. -/
def State.icinvLane (s : State) (c : Ctx) (lane : Nat) : Lane :=
  let r := c.invRange lane
  match s.releaseAt c.w lane .dev with
  | none => .stay s
  | some s1 => .ok (s1.dropBlocks (s1.asrOf c.x.rgn) r.1 r.2) []

/-- `icinv` (R170). -/
def execIcinv (f : Frame) (s : State) : Host.Outcome State Fault Refusal :=
  perLane (.icinv f) s fun c s1 l => s1.icinvLane c l

/-- The accesses issued in an address space, by wave, lane and number, that a translation which goes may have served:
with a byte in the range, or in the page of a leaf that goes. -/
def State.servedBy (s : State) (asr : Nat) (inRange : Nat → Nat → Bool) : List (Nat × Nat × Nat) :=
  s.waves.flatMap fun e =>
    if s.asrOf e.2.rgn = asr then
      (e.2.pending.filter fun p => decide (p.2.space = .glob) && p.2.parts.any fun q => inRange q.va q.size).map
        fun p => (e.1, p.1, p.2.id)
    else []

/-- A completion counter of a copy or of a collective in flight, or one that waits for a publication, in the address space, lies in a
frame that a removed translation mapped: its access is translated and not performed (R171, R212). -/
def State.counterServed (s : State) (asr : Nat) (gone : List Leaf) : Bool :=
  let on (rgn key : Nat) : Bool := decide (s.asrOf rgn = asr) && gone.any fun l => s.leafHas l (key / 64)
  (s.copies.any fun o => match o.done with | .ctr key _ => on o.rgn key | .bar _ => false) ||
  (s.colls.any fun o => on o.rgn o.ctr) || s.ctrHeld.any fun h => on h.rgn h.key

/-- The translations of an address space in a range, or all of them, leave every TLB and every walk cache, once what they served is performed;
the copies of the frames they mapped are written back and dropped (R171, R278), and with them every copy of a frame that no TLB maps any
more, which only a translation that has left it can have brought in (R282). None while an access is held. -/
def State.dropTranslations (s : State) (asr : Nat) (all : Bool) (base size : Nat) : Option State :=
  let goes (l : Leaf) : Bool := l.asr == asr && (all || vaMeets base size l.va l.size)
  let gone := (s.heldLeaves asr).filter goes
  let left (e : WalkEnt) : Bool := e.asr == asr && (all || vaMeets base size e.va (leafSize e.level))
  let served (va n : Nat) : Bool := all || vaMeets base size va n || gone.any fun l => vaMeets l.va l.size va n
  if s.counterServed asr gone then none
  else
    ((s.servedBy asr served).foldl (fun r e => r.bind fun (s1 : State) => s1.performUpTo e.1 e.2.1 e.2.2) (some s)).map
      fun s1 =>
        let tidy (t : List Leaf) : List Leaf := t.filter fun l => !goes l
        let s2 : State :=
          { s1 with cores := s1.cores.map fun e => (e.1, { e.2 with tlb := tidy e.2.tlb })
                    clusters := s1.clusters.map fun e => (e.1, { e.2 with tlb := tidy e.2.tlb })
                    dies := s1.dies.map fun d => { d with tables := d.tables.filter fun e => !left e } }
        let held := s2.cores.flatMap (fun e => e.2.tlb) ++ s2.clusters.flatMap fun e => e.2.tlb
        let drops (sec : Nat) : Bool := (gone.any fun l => s2.leafHas l sec) || !held.any fun l => s2.leafHas l sec
        (s2.cores.map Prod.fst).foldl (fun (s : State) g => s.dropWhere g drops) s2

/-- `tlbinv` of one lane (R171). -/
def State.tlbinvLane (s : State) (c : Ctx) (lane : Nat) (all : Bool) : Lane :=
  let r := if all then (0, 0) else c.invRange lane
  if !s.isSys c.x.rgn then .fault s { code := 5, sub := 8 }
  else
    match s.dropTranslations (s.asrOf c.x.rgn) all r.1 r.2 with
    | none => .stay s
    | some s1 => .ok s1 []

/-- `tlbinv` (R171). -/
def execTlbinv (f : Frame) (all : Bool) (s : State) : Host.Outcome State Fault Refusal :=
  perLane (.tlbinv f all) s fun c s1 l => s1.tlbinvLane c l all

end Sys2Proof.Machine
end

