-- ==== Sys2Proof/Machine/Dispatch.lean ====
section
/-! DEFINITION. One arm per instruction and event: a direct call of its meaning. -/

namespace Sys2Proof.Machine

open Sys2Proof

/-- What an instruction does to a state: a coded instruction issues for the unit `cur`, an event comes about. -/
def exec (i : Instr) (s : State) : Host.Outcome State Fault Refusal :=
  match i with
  | .iadd f ty sat => Sys2Proof.Machine.execIadd f ty sat s
  | .isub f ty sat => Sys2Proof.Machine.execIsub f ty sat s
  | .iaddc f pd => Sys2Proof.Machine.execIaddc f pd s
  | .isubb f pd => Sys2Proof.Machine.execIsubb f pd s
  | .iadd64 f ty sat => Sys2Proof.Machine.execIadd64 f ty sat s
  | .imul f ty sat => Sys2Proof.Machine.execImul f ty sat s
  | .imulhi f ty => Sys2Proof.Machine.execImulhi f ty s
  | .imad f ty sat => Sys2Proof.Machine.execImad f ty sat s
  | .imadw f ty => Sys2Proof.Machine.execImadw f ty s
  | .idiv f ty sat => Sys2Proof.Machine.execIdiv f ty sat s
  | .irem f ty => Sys2Proof.Machine.execIrem f ty s
  | .imin f ty => Sys2Proof.Machine.execImin f ty s
  | .imax f ty => Sys2Proof.Machine.execImax f ty s
  | .iabs f sat => Sys2Proof.Machine.execIabs f sat s
  | .ineg f sat => Sys2Proof.Machine.execIneg f sat s
  | .and f ty => Sys2Proof.Machine.execAnd f ty s
  | .or f ty => Sys2Proof.Machine.execOr f ty s
  | .xor f ty => Sys2Proof.Machine.execXor f ty s
  | .andn f ty => Sys2Proof.Machine.execAndn f ty s
  | .not f ty => Sys2Proof.Machine.execNot f ty s
  | .shl f => Sys2Proof.Machine.execShl f s
  | .shr f => Sys2Proof.Machine.execShr f s
  | .sar f => Sys2Proof.Machine.execSar f s
  | .rol f => Sys2Proof.Machine.execRol f s
  | .shl64 f => Sys2Proof.Machine.execShl64 f s
  | .shr64 f ty => Sys2Proof.Machine.execShr64 f ty s
  | .popc f ty => Sys2Proof.Machine.execPopc f ty s
  | .clz f ty => Sys2Proof.Machine.execClz f ty s
  | .ctz f ty => Sys2Proof.Machine.execCtz f ty s
  | .brev f ty => Sys2Proof.Machine.execBrev f ty s
  | .bfe f ty imm => Sys2Proof.Machine.execBfe f ty imm s
  | .bfi f imm => Sys2Proof.Machine.execBfi f imm s
  | .perm f imm => Sys2Proof.Machine.execPerm f imm s
  | .sel f ty neg ps => Sys2Proof.Machine.execSel f ty neg ps s
  | .icmp f ty cc => Sys2Proof.Machine.execIcmp f ty cc s
  | .mov f ty => Sys2Proof.Machine.execMov f ty s
  | .movi f ty => Sys2Proof.Machine.execMovi f ty s
  | .lea f ty sc => Sys2Proof.Machine.execLea f ty sc s
  | .dp4 f ty sat sa sb => Sys2Proof.Machine.execDp4 f ty sat sa sb s
  | .shfl f ty mode => Sys2Proof.Machine.execShfl f ty mode s
  | .vote f mode => Sys2Proof.Machine.execVote f mode s
  | .redux f ty ftz op rnd => Sys2Proof.Machine.execRedux f ty ftz op rnd s
  | .fadd f ty rnd sat ftz => Sys2Proof.Machine.execFadd f ty rnd sat ftz s
  | .fsub f ty rnd sat ftz => Sys2Proof.Machine.execFsub f ty rnd sat ftz s
  | .fmul f ty rnd sat ftz => Sys2Proof.Machine.execFmul f ty rnd sat ftz s
  | .ffma f ty rnd sat ftz => Sys2Proof.Machine.execFfma f ty rnd sat ftz s
  | .fmin f ty ftz => Sys2Proof.Machine.execFmin f ty ftz s
  | .fmax f ty ftz => Sys2Proof.Machine.execFmax f ty ftz s
  | .fcmp f ty cc ftz => Sys2Proof.Machine.execFcmp f ty cc ftz s
  | .fclass f ty ftz => Sys2Proof.Machine.execFclass f ty ftz s
  | .frnd f ty rnd ftz => Sys2Proof.Machine.execFrnd f ty rnd ftz s
  | .fldexp f ty rnd sat ftz => Sys2Proof.Machine.execFldexp f ty rnd sat ftz s
  | .frcp f ty rnd sat ftz => Sys2Proof.Machine.execFrcp f ty rnd sat ftz s
  | .frsq f ty rnd sat ftz => Sys2Proof.Machine.execFrsq f ty rnd sat ftz s
  | .fsqrt f ty rnd sat ftz => Sys2Proof.Machine.execFsqrt f ty rnd sat ftz s
  | .fdiv f ty rnd sat ftz => Sys2Proof.Machine.execFdiv f ty rnd sat ftz s
  | .fexp2 f ty rnd sat ftz => Sys2Proof.Machine.execFexp2 f ty rnd sat ftz s
  | .flog2 f ty rnd sat ftz => Sys2Proof.Machine.execFlog2 f ty rnd sat ftz s
  | .fsin f ty rnd sat ftz => Sys2Proof.Machine.execFsin f ty rnd sat ftz s
  | .fcos f ty rnd sat ftz => Sys2Proof.Machine.execFcos f ty rnd sat ftz s
  | .hadd2 f ty rnd sat ftz => Sys2Proof.Machine.execHadd2 f ty rnd sat ftz s
  | .hmul2 f ty rnd sat ftz => Sys2Proof.Machine.execHmul2 f ty rnd sat ftz s
  | .hfma2 f ty rnd sat ftz => Sys2Proof.Machine.execHfma2 f ty rnd sat ftz s
  | .hdot2 f ty dt rnd sat ftz => Sys2Proof.Machine.execHdot2 f ty dt rnd sat ftz s
  | .cvt f dt st rnd sat ftz sel slot => Sys2Proof.Machine.execCvt f dt st rnd sat ftz sel slot s
  | .qpack f slot => Sys2Proof.Machine.execQpack f slot s
  | .qunpk f slot ty => Sys2Proof.Machine.execQunpk f slot ty s
  | .bra f => Sys2Proof.Machine.execBra f s
  | .brx f => Sys2Proof.Machine.execBrx f s
  | .call f => Sys2Proof.Machine.execCall f s
  | .callx f => Sys2Proof.Machine.execCallx f s
  | .ret f => Sys2Proof.Machine.execRet f s
  | .kset f or => Sys2Proof.Machine.execKset f or s
  | .kclr f sel => Sys2Proof.Machine.execKclr f sel s
  | .join f => Sys2Proof.Machine.execJoin f s
  | .wsync f => Sys2Proof.Machine.execWsync f s
  | .exit f => Sys2Proof.Machine.execExit f s
  | .yield f => Sys2Proof.Machine.execYield f s
  | .nop f => Sys2Proof.Machine.execNop f s
  | .spawn f flt => Sys2Proof.Machine.execSpawn f flt s
  | .ld f m => Sys2Proof.Machine.execLd f m s
  | .ldS f m win => Sys2Proof.Machine.execLdS f m win s
  | .ldC f m => Sys2Proof.Machine.execLdC f m s
  | .ldr f m => Sys2Proof.Machine.execLdr f m s
  | .st f m => Sys2Proof.Machine.execSt f m s
  | .stS f m win => Sys2Proof.Machine.execStS f m win s
  | .stc f m => Sys2Proof.Machine.execStc f m s
  | .pf f m => Sys2Proof.Machine.execPf f m s
  | .atom f op ty base ctl => Sys2Proof.Machine.execAtom f op ty base ctl s
  | .atomS f op ty win ctl => Sys2Proof.Machine.execAtomS f op ty win ctl s
  | .cas f ty base ctl => Sys2Proof.Machine.execCas f ty base ctl s
  | .red f op ty base ctl => Sys2Proof.Machine.execRed f op ty base ctl s
  | .mred f op ty base ctl => Sys2Proof.Machine.execMred f op ty base ctl s
  | .mcas f base ctl => Sys2Proof.Machine.execMcas f base ctl s
  | .mscale f rnd ty base ctl => Sys2Proof.Machine.execMscale f rnd ty base ctl s
  | .barInit f rmt => Sys2Proof.Machine.execBarInit f rmt s
  | .arrive f ord scope rmt => Sys2Proof.Machine.execArrive f ord scope rmt s
  | .expect f rmt => Sys2Proof.Machine.execExpect f rmt s
  | .wait f ord scope rmt => Sys2Proof.Machine.execWait f ord scope rmt s
  | .cwatch f rmt => Sys2Proof.Machine.execCwatch f rmt s
  | .fence f ord scope => Sys2Proof.Machine.execFence f ord scope s
  | .copy f dg ck => Sys2Proof.Machine.execCopy f dg ck s
  | .halo f => Sys2Proof.Machine.execHalo f s
  | .gqEnq f flt => Sys2Proof.Machine.execGqEnq f flt s
  | .gqResv f flt => Sys2Proof.Machine.execGqResv f flt s
  | .gqPub f => Sys2Proof.Machine.execGqPub f s
  | .gqCfgConfigure f => Sys2Proof.Machine.execGqCfgConfigure f s
  | .gqCfgDisable f => Sys2Proof.Machine.execGqCfgDisable f s
  | .gqCfgRelease f => Sys2Proof.Machine.execGqCfgRelease f s
  | .gqCfgQuery f => Sys2Proof.Machine.execGqCfgQuery f s
  | .rlaunch f => Sys2Proof.Machine.execRlaunch f s
  | .rlaunchPrism f => Sys2Proof.Machine.execRlaunchPrism f s
  | .rlaunchSusp f => Sys2Proof.Machine.execRlaunchSusp f s
  | .rlaunchRes f => Sys2Proof.Machine.execRlaunchRes f s
  | .rlaunchKill f => Sys2Proof.Machine.execRlaunchKill f s
  | .rlaunchRepl f => Sys2Proof.Machine.execRlaunchRepl f s
  | .wdq f => Sys2Proof.Machine.execWdq f s
  | .sweep f => Sys2Proof.Machine.execSweep f s
  | .ctxSet f => Sys2Proof.Machine.execCtxSet f s
  | .ctxWake f => Sys2Proof.Machine.execCtxWake f s
  | .coll f kind red => Sys2Proof.Machine.execColl f kind red s
  | .mma f sa sb bh => Sys2Proof.Machine.execMma f sa sb bh s
  | .mmaZ f sa sb bh => Sys2Proof.Machine.execMmaZ f sa sb bh s
  | .tfetch f fs q => Sys2Proof.Machine.execTfetch f fs q s
  | .trel f => Sys2Proof.Machine.execTrel f s
  | .drain f fs => Sys2Proof.Machine.execDrain f fs s
  | .azero f => Sys2Proof.Machine.execAzero f s
  | .dqPut f all => Sys2Proof.Machine.execDqPut f all s
  | .gqTake f nb => Sys2Proof.Machine.execGqTake f nb s
  | .mwait f => Sys2Proof.Machine.execMwait f s
  | .commit f => Sys2Proof.Machine.execCommit f s
  | .squash f => Sys2Proof.Machine.execSquash f s
  | .ldBase f m => Sys2Proof.Machine.execLdBase f m s
  | .stBase f m => Sys2Proof.Machine.execStBase f m s
  | .present f => Sys2Proof.Machine.execPresent f s
  | .tex f => Sys2Proof.Machine.execTex f s
  | .texF f => Sys2Proof.Machine.execTexF f s
  | .texG f => Sys2Proof.Machine.execTexG f s
  | .texQ f => Sys2Proof.Machine.execTexQ f s
  | .trace f => Sys2Proof.Machine.execTrace f s
  | .binPut f => Sys2Proof.Machine.execBinPut f s
  | .binPutEnd f => Sys2Proof.Machine.execBinPutEnd f s
  | .pxlock f => Sys2Proof.Machine.execPxlock f s
  | .pxunlock f all => Sys2Proof.Machine.execPxunlock f all s
  | .csrr f => Sys2Proof.Machine.execCsrr f s
  | .csrw f => Sys2Proof.Machine.execCsrw f s
  | .spillbWrite f => Sys2Proof.Machine.execSpillbWrite f s
  | .spilllWrite f => Sys2Proof.Machine.execSpilllWrite f s
  | .fairtWrite f => Sys2Proof.Machine.execFairtWrite f s
  | .mestatHaltResume f => Sys2Proof.Machine.execMestatHaltResume f s
  | .mestatDiscard f => Sys2Proof.Machine.execMestatDiscard f s
  | .trap f => Sys2Proof.Machine.execTrap f s
  | .bkpt f => Sys2Proof.Machine.execBkpt f s
  | .eret f => Sys2Proof.Machine.execEret f s
  | .icinv f => Sys2Proof.Machine.execIcinv f s
  | .tlbinv f all => Sys2Proof.Machine.execTlbinv f all s
  | .fairnessExpiry w => Sys2Proof.Machine.execFairnessExpiry w s
  | .llResultReturn w lane acc err => Sys2Proof.Machine.execLlResultReturn w lane acc err s
  | .storePerform w lane acc err => Sys2Proof.Machine.execStorePerform w lane acc err s
  | .homeAtomicPerform w lane acc err => Sys2Proof.Machine.execHomeAtomicPerform w lane acc err s
  | .serviceWaveRequest cluster => Sys2Proof.Machine.execServiceWaveRequest cluster s
  | .cwatchArrival watch => Sys2Proof.Machine.execCwatchArrival watch s
  | .queueAccessComplete w => Sys2Proof.Machine.execQueueAccessComplete w s
  | .feedElementWrite w stream => Sys2Proof.Machine.execFeedElementWrite w stream s
  | .copyTransfer op => Sys2Proof.Machine.execCopyTransfer op s
  | .haloStart op => Sys2Proof.Machine.execHaloStart op s
  | .reservedOpcode sub => Sys2Proof.Machine.execReservedOpcode sub s
  | .coreGate core => Sys2Proof.Machine.execCoreGate core s
  | .coreWake core => Sys2Proof.Machine.execCoreWake core s
  | .pageWalk cluster => Sys2Proof.Machine.execPageWalk cluster s
  | .gatherFiring cluster => Sys2Proof.Machine.execGatherFiring cluster s
  | .reservationVoid cluster queue ticket => Sys2Proof.Machine.execReservationVoid cluster queue ticket s
  | .gatherFaultRetry cluster queue => Sys2Proof.Machine.execGatherFaultRetry cluster queue s
  | .deliveredWavePlace delivery core => Sys2Proof.Machine.execDeliveredWavePlace delivery core s
  | .wdqServe op => Sys2Proof.Machine.execWdqServe op s
  | .sweepStart die => Sys2Proof.Machine.execSweepStart die s
  | .sweepChunk die engine => Sys2Proof.Machine.execSweepChunk die engine s
  | .chunkStepComplete die engine => Sys2Proof.Machine.execChunkStepComplete die engine s
  | .collExecute op agree failed others => Sys2Proof.Machine.execCollExecute op agree failed others s
  | .tfetchRowFetch cluster handle row => Sys2Proof.Machine.execTfetchRowFetch cluster handle row s
  | .engineMmaExecute core => Sys2Proof.Machine.execEngineMmaExecute core s
  | .engineDrainExecute core => Sys2Proof.Machine.execEngineDrainExecute core s
  | .engineAzeroExecute core => Sys2Proof.Machine.execEngineAzeroExecute core s
  | .commitPublish set => Sys2Proof.Machine.execCommitPublish set s
  | .setOpen req set => Sys2Proof.Machine.execSetOpen req set s
  | .prefixEnd set => Sys2Proof.Machine.execPrefixEnd set s
  | .retireWalk set => Sys2Proof.Machine.execRetireWalk set s
  | .presentFlip queue => Sys2Proof.Machine.execPresentFlip queue s
  | .presentGuard queue => Sys2Proof.Machine.execPresentGuard queue s
  | .presentReadoutDone index => Sys2Proof.Machine.execPresentReadoutDone index s
  | .flushComplete die desc => Sys2Proof.Machine.execFlushComplete die desc s
  | .homeMove frame slice => Sys2Proof.Machine.execHomeMove frame slice s
  | .homeForward frame => Sys2Proof.Machine.execHomeForward frame s
  | .dependenceMet rgn index => Sys2Proof.Machine.execDependenceMet rgn index s
  | .workgroupPlace rgn core => Sys2Proof.Machine.execWorkgroupPlace rgn core s
  | .placementStarvationHold die rgn => Sys2Proof.Machine.execPlacementStarvationHold die rgn s
  | .preemptDecision rgn => Sys2Proof.Machine.execPreemptDecision rgn s
  | .workgroupSave wg migrate => Sys2Proof.Machine.execWorkgroupSave wg migrate s
  | .workgroupRestore wg core => Sys2Proof.Machine.execWorkgroupRestore wg core s
  | .migrationForward wg => Sys2Proof.Machine.execMigrationForward wg s
  | .regionEnd rgn => Sys2Proof.Machine.execRegionEnd rgn s
  | .timeQuotaCharge core => Sys2Proof.Machine.execTimeQuotaCharge core s
  | .segmentTest core acc quad seg fail => Sys2Proof.Machine.execSegmentTest core acc quad seg fail s
  | .powerCapStep above => Sys2Proof.Machine.execPowerCapStep above s
  | .fwLaunch fn tag rcb => Sys2Proof.Machine.execFwLaunch fn tag rcb s
  | .fwPrismLaunch fn tag prism => Sys2Proof.Machine.execFwPrismLaunch fn tag prism s
  | .fwSuspend fn tag rcb => Sys2Proof.Machine.execFwSuspend fn tag rcb s
  | .fwResume fn tag rcb => Sys2Proof.Machine.execFwResume fn tag rcb s
  | .fwKill fn tag rcb => Sys2Proof.Machine.execFwKill fn tag rcb s
  | .fwReplay fn tag rcb seq all => Sys2Proof.Machine.execFwReplay fn tag rcb seq all s
  | .fwFreeFrames fn tag rcb frame count => Sys2Proof.Machine.execFwFreeFrames fn tag rcb frame count s
  | .fwSetQuota fn tag vf rcb pasid partition pq memq timeq regq scrq accq => Sys2Proof.Machine.execFwSetQuota fn tag vf rcb pasid partition pq memq timeq regq scrq accq s
  | .fwSetPresent fn tag en guard intervals => Sys2Proof.Machine.execFwSetPresent fn tag en guard intervals s
  | .fwHomeMove fn tag frame slice => Sys2Proof.Machine.execFwHomeMove fn tag frame slice s
  | .fwSetL2Mode fn tag modes parts => Sys2Proof.Machine.execFwSetL2Mode fn tag modes parts s
  | .fwSetPower fn tag limit => Sys2Proof.Machine.execFwSetPower fn tag limit s
  | .fwAttest fn tag nonce => Sys2Proof.Machine.execFwAttest fn tag nonce s
  | .fwWriteSlot fn tag version rollback length image sig => Sys2Proof.Machine.execFwWriteSlot fn tag version rollback length image sig s
  | .fwConfirm fn tag => Sys2Proof.Machine.execFwConfirm fn tag s
  | .fwRollBack fn tag slot nonce sig => Sys2Proof.Machine.execFwRollBack fn tag slot nonce sig s
  | .fwReadCounters fn tag => Sys2Proof.Machine.execFwReadCounters fn tag s
  | .fwFreeze fn tag => Sys2Proof.Machine.execFwFreeze fn tag s
  | .fwInvalidCode fn tag code => Sys2Proof.Machine.execFwInvalidCode fn tag code s
  | .freezePin => Sys2Proof.Machine.execFreezePin s
  | .deviceReset => Sys2Proof.Machine.execDeviceReset s
  | .lifetimeCounterFlush => Sys2Proof.Machine.execLifetimeCounterFlush s
  | .hostRequest fn wr key data size => Sys2Proof.Machine.execHostRequest fn wr key data size s
  | .peerRequest link op key data size => Sys2Proof.Machine.execPeerRequest link op key data size s
  | .atsTranslationResponse va key size rd wr => Sys2Proof.Machine.execAtsTranslationResponse va key size rd wr s
  | .atsInvalidateRequest va size => Sys2Proof.Machine.execAtsInvalidateRequest va size s
  | .linkRetrain link => Sys2Proof.Machine.execLinkRetrain link s
  | .linkDown link => Sys2Proof.Machine.execLinkDown link s
  | .powerLoss => Sys2Proof.Machine.execPowerLoss s

end Sys2Proof.Machine
end

