-- ==== Sys2Proof/Machine/Step.lean ====
section
/-! DEFINITION. One step: the clocks that pass, then what the agenda names next, or the issue of the unit `cur`. -/

namespace Sys2Proof.Machine

open Sys2Proof

/-- The row of the opcode table is an event of the machine, which has no encoding. -/
def isEvent (i : Instr) : Bool := (descOf .w i).isNone

/-- What a fetch has found is carried out: the instruction is executed, a filler stepped over, a word that decodes to
nothing takes fault 0x01, a fetch that fails takes its fault (R41). -/
def carryOut (s : State) (w : Nat) : Fetched → Host.Outcome State Fault Refusal
  | .instr s1 i => exec i s1
  | .filler s1 => .next (s1.skipFiller w)
  | .bad s1 sub => exec (.reservedOpcode sub) s1
  | .fault s1 f => .next (s1.faultPath w f)
  | .quota s1 r => .next (s1.quotaPath w r)
  | .wait s1 => .next s1
  | .idle => .next s

/-- The unit `cur` issues its next instruction. -/
def issueNext (s : State) : Host.Outcome State Fault Refusal := carryOut s s.cur (s.fetch s.cur)

/-- One step. A frozen device does nothing until it is reset (R412); an agenda entry that is no event is passed over. -/
def step (s : State) : Host.Outcome State Fault Refusal :=
  if s.frozen then
    match s.agenda with
    | .event .deviceReset :: rest => exec .deviceReset { s with agenda := rest }
    | _ :: rest => .next { s with agenda := rest }
    | [] => .next s
  else
    let s1 := s.tick
    match s1.agenda with
    | .event i :: rest =>
      if isEvent i then exec i { s1 with agenda := rest } else .next { s1 with agenda := rest }
    | .issue w :: rest => issueNext { s1 with agenda := rest, cur := w }
    | [] => issueNext s1

/-! ### A word placed where the next step fetches -/

/-- A region block of zeros that holds its work after a fault. -/
def Rcb.zero : Rcb :=
  { entry := 0, centry := 0, asr := 0, dirq := false, sys := false, npre := false, troot := true, pri := 0, dl := false
    pq := 0, scrn := 1, tobn := 1, scr := 65536, acc := 1, tob := 1, regs := 1024, cgs := 0, wgsz := 1, nwg := 1
    depb := 0, witems := 0, bint := 0, hln := 0, depn := 0, constb := 0, constsz := 65536, spillb := 0, savestr := 0
    dpool := 0, spstr := 0, trape := 0, fdr := 0, spwb := 0, fdn := 0, act := 0xAAAAAAAAAAAAAAAA, qlo := 0, qn := 0
    spwn := 0, memq := 0, timeq := 0, scrq := 0, regq := 0, accq := 0, saveb := 0, donec := 0, hlb := 0, chgb := 0
    ownb := true, arg0 := 0, arg1 := 0, win := [], slots := [] }

/-- A running tenant root with that block. -/
def Region.loaded : Region :=
  { rcbVa := 0, rcbKey := 0, rcb := .zero, parent := none, root := 1, fn := 0, tag := none, prism := false, st := .running
    resume := .running, quota := false, seq := 0, widx := 0, lost := 0, memu := 0, timeu := 0, depDone := []
    nextWg := 1, exited := 0, pool := [], dcount := 0, nextItem := 0, spwUsed := [], link := 0, passed := [none, none]
    raised := 0, cores := [] }

/-- The lanes of a unit that holds one thread. -/
def loadedThreads (n : Nat) (pc : DWord) : List Thread :=
  { Thread.empty with st := .placed, pc := pc } :: List.replicate n .empty

/-- A wave, or a Caller stream, with one thread. -/
def Wave.loaded (kind : WKind) (wg : Nat) (pc : DWord) : Wave :=
  { rgn := 1, wg := wg, wave := 0, kind := kind, entry := none, alloc := 1024, row := 0
    threads := loadedThreads (if kind = .caller then 0 else 31) pc
    s := [], k := [], turn := some 0, fair := 0, fairt := 0x800, limit := 0x800, retain := [none, none, none]
    joins := [], syncs := [], arrs := [], feedp := [0, 0, 0, 0], dqPos := 0, tile := none
    src := 0, charged := 0, fetched := none }

/-- The workgroup of that wave, on core 1. -/
def Wg.loaded : Wg :=
  { rgn := 1, index := 0, core := 1, nwaves := 1, kind := .launch, entry := none, tag := none, scrBase := 0
    scrSize := 65536, scr := [], tobBank := 0, tobBanks := 1, tob := [], accBase := 0, accN := 1, tiles := []
    dq := [], dqHead := 0, group := some 0, member := 1, saved := false, saving := false }

/-- The leaf that maps the first GiB of the address space to the first of local memory. -/
def Leaf.loaded : Leaf := { asr := 0, va := 0, size := 2 ^ 30, key := 0, cls := .h, rd := true, wr := true, ex := true }

/-- The PC of a program that is loaded where none runs. -/
def loadPc : Nat := 0x1000

/-- The unit that decodes the word: a wave, or the Caller where only that one does. -/
def unitFor (bs : List Byte) : Unit2 :=
  match decode .w bs with
  | .ok _ => .w
  | .error _ =>
    match decode .c bs with
    | .ok _ => .c
    | .error _ => .w

/-- A program of one word loaded into a machine in which no unit can fetch: a tenant root, a workgroup, a wave on core 1
or a Caller stream of cluster 0 beside it, and a mapping of the page it lies in. -/
def State.loadWord (s : State) (bs : List Byte) : State :=
  let pc := BitVec.ofNat 64 loadPc
  let w := match unitFor bs with | .w => 128 | .c => callerKey
  let x := match unitFor bs with | .w => Wave.loaded .launch 0 pc | .c => Wave.loaded .caller 0 pc
  let g := { s.core 1 with tlb := [.loaded], gated := false, scrn := 1, tobn := 1 }
  let c := { s.cluster 0 with tlb := [.loaded] }
  let q : Group := { rgn := 1, cluster := 0, members := [(1, 0)], handles := [], caller := true, started := true }
  let s1 := (s.setCore 1 g).setCluster 0 c
  { s1 with
    cur := w, agenda := [], frozen := false
    regions := s1.regions.ins 1 .loaded
    wgs := s1.wgs.ins 0 .loaded
    groups := s1.groups.ins 0 q
    waves := s1.waves.ins w x
    mem := putBytes s1.mem loadPc bs }

/-- The place of the PC of the unit `cur`, if it can fetch there: its wave, the place, and the offset in the block. -/
def State.fetchPlace (s : State) : Option (Wave × Nat × Nat) :=
  match s.waves.find s.cur with
  | none => none
  | some x =>
    match x.turn with
    | none => none
    | some l =>
      if !s.mayIssue s.cur x || (x.pathOf l).isEmpty then none
      else
        let pc := (x.threads.getD l .empty).pc.toNat
        match s.translate (x.agent s.cur) pc .ex (fun _ => none) with
        | .ok s1 leaf => some (x, s1.hostKey (s1.fnOf x.rgn) (leaf.key + (pc - leaf.va)), pc % 32)
        | _ => none

/-- The state with the word of an opcode-table row where the next step fetches: at the PC of the unit `cur` where that
unit can fetch and the word fits its fetch block, else loaded as a program of its own (assumption 1). -/
def State.withFetchWord (s : State) (nbits w : Nat) : State :=
  let bs := toLe 16 (w % 2 ^ nbits)
  match if s.frozen then none else s.fetchPlace with
  | some (x, key, off) =>
    if off + 16 ≤ 32 ∧ (s.windowOf key).isNone ∧ unitFor bs = x.unit then
      let g := fetchCore s.cur
      let c := s.core g
      let s1 := s.setCore g { c with icache := c.icache.del (key / 32), l0 := c.l0.map fun q => (q.1, q.2.del (key / 32)), copies := c.copies.del (key / 64) }
      { s1 with
        agenda := []
        waves := s1.waves.upd s.cur fun x => { x with fetched := none }
        mem := putBytes s1.mem key bs }
    else s.loadWord bs
  | none => s.loadWord bs

end Sys2Proof.Machine
end

