-- ==== Sys2Proof/Laws/Encode.lean ====
section
/-! SUPPORT. Encoding: the fields of a word are read back as they were written, bytes round trip, and a word that the
builder turns back into its instruction decodes to it. -/

namespace Sys2Proof

/-! ### The fields of a word (R30, R31, R50) -/

theorem Raw.toBits_op (r : Raw) : r.toBits.extractLsb' 2 8 = r.op := by
  apply BitVec.eq_of_getLsbD_eq
  intro i hi
  simp only [Raw.toBits, BitVec.getLsbD_extractLsb', BitVec.getLsbD_append, hi, decide_true, Bool.true_and]
  repeat rw [if_neg (by omega)]
  rw [if_pos (by omega)]
  congr 1; omega

theorem Raw.toBits_form_ (r : Raw) : r.toBits.extractLsb' 0 2 = r.form.toBits := by
  apply BitVec.eq_of_getLsbD_eq
  intro i hi
  simp only [Raw.toBits, BitVec.getLsbD_extractLsb', BitVec.getLsbD_append, hi, decide_true, Bool.true_and]
  rw [if_pos (by omega)]
  congr 1; omega

theorem Raw.toBits_gp (r : Raw) : r.toBits.extractLsb' 10 3 = r.gp := by
  apply BitVec.eq_of_getLsbD_eq
  intro i hi
  simp only [Raw.toBits, BitVec.getLsbD_extractLsb', BitVec.getLsbD_append, hi, decide_true, Bool.true_and]
  repeat rw [if_neg (by omega)]
  rw [if_pos (by omega)]
  congr 1; omega

theorem Raw.toBits_gs (r : Raw) : r.toBits.extractLsb' 13 1 = r.gs := by
  apply BitVec.eq_of_getLsbD_eq
  intro i hi
  simp only [Raw.toBits, BitVec.getLsbD_extractLsb', BitVec.getLsbD_append, hi, decide_true, Bool.true_and]
  repeat rw [if_neg (by omega)]
  rw [if_pos (by omega)]
  congr 1; omega

theorem Raw.toBits_la (r : Raw) : r.toBits.extractLsb' 14 4 = r.la := by
  apply BitVec.eq_of_getLsbD_eq
  intro i hi
  simp only [Raw.toBits, BitVec.getLsbD_extractLsb', BitVec.getLsbD_append, hi, decide_true, Bool.true_and]
  repeat rw [if_neg (by omega)]
  rw [if_pos (by omega)]
  congr 1; omega

theorem Raw.toBits_ret (r : Raw) : r.toBits.extractLsb' 18 2 = r.ret := by
  apply BitVec.eq_of_getLsbD_eq
  intro i hi
  simp only [Raw.toBits, BitVec.getLsbD_extractLsb', BitVec.getLsbD_append, hi, decide_true, Bool.true_and]
  repeat rw [if_neg (by omega)]
  rw [if_pos (by omega)]
  congr 1; omega

theorem Raw.toBits_d (r : Raw) : r.toBits.extractLsb' 20 11 = r.d := by
  apply BitVec.eq_of_getLsbD_eq
  intro i hi
  simp only [Raw.toBits, BitVec.getLsbD_extractLsb', BitVec.getLsbD_append, hi, decide_true, Bool.true_and]
  repeat rw [if_neg (by omega)]
  rw [if_pos (by omega)]
  congr 1; omega

theorem Raw.toBits_a (r : Raw) : r.toBits.extractLsb' 31 11 = r.a := by
  apply BitVec.eq_of_getLsbD_eq
  intro i hi
  simp only [Raw.toBits, BitVec.getLsbD_extractLsb', BitVec.getLsbD_append, hi, decide_true, Bool.true_and]
  repeat rw [if_neg (by omega)]
  rw [if_pos (by omega)]
  congr 1; omega

theorem Raw.toBits_b (r : Raw) : r.toBits.extractLsb' 42 11 = r.b := by
  apply BitVec.eq_of_getLsbD_eq
  intro i hi
  simp only [Raw.toBits, BitVec.getLsbD_extractLsb', BitVec.getLsbD_append, hi, decide_true, Bool.true_and]
  repeat rw [if_neg (by omega)]
  rw [if_pos (by omega)]
  congr 1; omega

theorem Raw.toBits_mod (r : Raw) : r.toBits.extractLsb' 53 7 = r.mod := by
  apply BitVec.eq_of_getLsbD_eq
  intro i hi
  simp only [Raw.toBits, BitVec.getLsbD_extractLsb', BitVec.getLsbD_append, hi, decide_true, Bool.true_and]
  repeat rw [if_neg (by omega)]
  rw [if_pos (by omega)]
  congr 1; omega

theorem Raw.toBits_minor (r : Raw) : r.toBits.extractLsb' 60 4 = r.minor := by
  apply BitVec.eq_of_getLsbD_eq
  intro i hi
  simp only [Raw.toBits, BitVec.getLsbD_extractLsb', BitVec.getLsbD_append, hi, decide_true, Bool.true_and]
  repeat rw [if_neg (by omega)]
  rw [if_pos (by omega)]
  congr 1; omega

theorem Raw.toBits_c (r : Raw) : r.toBits.extractLsb' 64 11 = r.c := by
  apply BitVec.eq_of_getLsbD_eq
  intro i hi
  simp only [Raw.toBits, BitVec.getLsbD_extractLsb', BitVec.getLsbD_append, hi, decide_true, Bool.true_and]
  repeat rw [if_neg (by omega)]
  rw [if_pos (by omega)]
  congr 1; omega

theorem Raw.toBits_x (r : Raw) : r.toBits.extractLsb' 75 21 = r.x := by
  apply BitVec.eq_of_getLsbD_eq
  intro i hi
  simp only [Raw.toBits, BitVec.getLsbD_extractLsb', BitVec.getLsbD_append, hi, decide_true, Bool.true_and]
  repeat rw [if_neg (by omega)]
  rw [if_pos (by omega)]
  congr 1; omega

theorem Raw.toBits_i (r : Raw) : r.toBits.extractLsb' 96 32 = r.i := by
  apply BitVec.eq_of_getLsbD_eq
  intro i hi
  simp only [Raw.toBits, BitVec.getLsbD_extractLsb', BitVec.getLsbD_append, hi, decide_true, Bool.true_and]
  repeat rw [if_neg (by omega)]
  congr 1; omega

/-- A form holds 0 in the fields it lacks. -/
def Raw.fits (r : Raw) : Prop :=
  (r.form = .s → r.c = 0 ∧ r.x = 0 ∧ r.i = 0) ∧ (r.form = .m → r.i = 0)

/-- The fields read back from their word. -/
theorem Raw.ofBits_toBits (r : Raw) (h : r.fits) : Raw.ofBits r.toBits = some r := by
  obtain ⟨form, op, gp, gs, la, ret, d, a, b, mod, minor, c, x, i⟩ := r
  simp only [Raw.ofBits, Raw.toBits_form_, Raw.toBits_op, Raw.toBits_gp, Raw.toBits_gs, Raw.toBits_la, Raw.toBits_ret,
    Raw.toBits_d, Raw.toBits_a, Raw.toBits_b, Raw.toBits_mod, Raw.toBits_minor, Raw.toBits_c, Raw.toBits_x, Raw.toBits_i]
  obtain ⟨hs, hm⟩ := h
  cases form <;> simp_all [Form.toBits]

/-- A word lies within the length of its form. -/
theorem Raw.toBits_lt (r : Raw) (h : r.fits) : r.toBits.toNat < 256 ^ r.form.bytes := by
  have key : ∀ n, (∀ j, n ≤ j → r.toBits.getLsbD j = false) → r.toBits.toNat < 2 ^ n := fun n hj =>
    Nat.lt_pow_two_of_testBit _ fun j h => by rw [BitVec.testBit_toNat]; exact hj j h
  obtain ⟨hs, hm⟩ := h
  cases hf : r.form with
  | l => exact r.toBits.isLt
  | m =>
    refine key 96 fun j hj => ?_
    simp only [Raw.toBits, BitVec.getLsbD_append]
    repeat rw [if_neg (by omega)]
    simp [hm hf]
  | s =>
    obtain ⟨hc, hx, hi⟩ := hs hf
    refine key 64 fun j hj => ?_
    simp only [Raw.toBits, BitVec.getLsbD_append]
    repeat rw [if_neg (by omega)]
    simp [hc, hx, hi]

/-! ### Bytes (R7) -/

theorem toLe_length (n v : Nat) : (toLe n v).length = n := by
  induction n generalizing v with
  | zero => rfl
  | succ n ih => simp [toLe, ih]

theorem leBytes_toLe (n v : Nat) : leBytes (toLe n v) = v % 256 ^ n := by
  induction n generalizing v with
  | zero => simp [toLe, leBytes, Nat.mod_one]
  | succ n ih =>
    simp only [toLe, leBytes, ih, BitVec.toNat_ofNat]
    rw [show (2 : Nat) ^ 8 = 256 from rfl, pow_succ', Nat.mod_mul]

theorem lenOf_toBits (r : Raw) : lenOf (BitVec.ofNat 8 r.toBits.toNat) = r.form.bytes := by
  have h : (BitVec.ofNat 8 r.toBits.toNat).extractLsb' 0 2 = r.form.toBits := by
    rw [← Raw.toBits_form_ r]
    apply BitVec.eq_of_getLsbD_eq
    intro i hi
    simp only [BitVec.getLsbD_extractLsb', BitVec.getLsbD_ofNat, hi, decide_true, Bool.true_and, BitVec.testBit_toNat,
      Nat.zero_add]
    simp [show i < 8 by omega]
  unfold lenOf
  rw [h]
  cases r.form <;> rfl

/-- The bytes of fields that decode to an instruction decode to it, and leave the rest. -/
theorem decode_bytes (u : Unit2) (r : Raw) (i : Instr) (rest : List Byte) (hf : r.fits) (h : decodeRaw u r = .ok i) :
    decode u (toLe r.form.bytes r.toBits.toNat ++ rest) = .ok (i, rest) := by
  have hl : (toLe r.form.bytes r.toBits.toNat).length = r.form.bytes := toLe_length _ _
  have hv : leBytes (toLe r.form.bytes r.toBits.toNat) = r.toBits.toNat := by
    rw [leBytes_toLe, Nat.mod_eq_of_lt (r.toBits_lt hf)]
  have hb : decodeBits u r.toBits = .ok i := by
    unfold decodeBits
    rw [r.ofBits_toBits hf]
    exact h
  obtain ⟨n, hn⟩ : ∃ n, r.form.bytes = n + 1 := by
    cases r.form
    exacts [⟨7, rfl⟩, ⟨11, rfl⟩, ⟨15, rfl⟩]
  have hx : toLe r.form.bytes r.toBits.toNat = BitVec.ofNat 8 r.toBits.toNat :: toLe n (r.toBits.toNat / 256) := by
    rw [hn]; rfl
  have hd : ∀ l : List Byte, l = toLe r.form.bytes r.toBits.toNat →
      decode u (l ++ rest) = .ok (i, rest) := by
    intro l hl2
    match l, hl2 with
    | [], h2 => rw [hx] at h2; cases h2
    | b :: bs, h2 =>
      have hb0 : b = BitVec.ofNat 8 r.toBits.toNat := by rw [hx] at h2; exact (List.cons.inj h2).1
      have hlen : (b :: bs).length = r.form.bytes := by rw [h2, hl]
      simp only [decode, List.cons_append]
      rw [hb0, lenOf_toBits, ← hb0, ← List.cons_append]
      rw [if_neg (by rw [List.length_append]; omega), List.take_left' hlen, List.drop_left' hlen, h2, hv,
        BitVec.ofNat_toNat, BitVec.setWidth_eq, hb]
  exact hd _ rfl

/-! ### Operands, frames and modifiers (R32, R37, R93) -/

theorem low_append {w v : Nat} (a : BitVec v) (n : BitVec w) : (a ++ n).extractLsb' 0 w = n := by
  rw [BitVec.extractLsb'_append_eq_of_add_le (by omega)]; simp

theorem Operand.ofBits_lit (n : BitVec 7) : Operand.ofBits (Operand.lit n).toBits = .lit n := by
  have h1 : (8#4 ++ n).getLsbD 10 = true := by rw [BitVec.getLsbD_append, if_neg (by omega)]; rfl
  have h2 : (8#4 ++ n).extractLsb' 7 3 = 0#3 := by
    rw [BitVec.extractLsb'_append_eq_of_le (by omega)]; rfl
  have h3 : (8#4 ++ n).extractLsb' 0 7 = n := low_append _ _
  unfold Operand.ofBits
  simp only [Operand.toBits, h1]
  rw [h2, h3]; rfl

theorem Operand.ofBits_s (n : BitVec 7) : Operand.ofBits (Operand.s n).toBits = .s n := by
  have h1 : (9#4 ++ n).getLsbD 10 = true := by rw [BitVec.getLsbD_append, if_neg (by omega)]; rfl
  have h2 : (9#4 ++ n).extractLsb' 7 3 = 1#3 := by
    rw [BitVec.extractLsb'_append_eq_of_le (by omega)]; rfl
  have h3 : (9#4 ++ n).extractLsb' 0 7 = n := low_append _ _
  unfold Operand.ofBits
  simp only [Operand.toBits, h1]
  rw [h2, h3]; rfl

theorem Operand.ofBits_sr (n : BitVec 7) : Operand.ofBits (Operand.sr n).toBits = .sr n := by
  have h1 : (11#4 ++ n).getLsbD 10 = true := by rw [BitVec.getLsbD_append, if_neg (by omega)]; rfl
  have h2 : (11#4 ++ n).extractLsb' 7 3 = 3#3 := by
    rw [BitVec.extractLsb'_append_eq_of_le (by omega)]; rfl
  have h3 : (11#4 ++ n).extractLsb' 0 7 = n := low_append _ _
  unfold Operand.ofBits
  simp only [Operand.toBits, h1]
  rw [h2, h3]; rfl

theorem Operand.ofBits_q (n : BitVec 5) : Operand.ofBits (Operand.q n).toBits = .q n := by
  revert n; decide

theorem Operand.ofBits_p (n : BitVec 3) : Operand.ofBits (Operand.p n).toBits = .p n := by
  revert n; decide

theorem Operand.ofBits_k (n : BitVec 4) : Operand.ofBits (Operand.k n).toBits = .k n := by
  revert n; decide

theorem Operand.ofBits_toBits (o : Operand) (h : ∀ x, o ≠ .bad x) : Operand.ofBits o.toBits = o := by
  cases o with
  | bad x => exact absurd rfl (h x)
  | v n =>
    have h1 : (0#1 ++ n).getLsbD 10 = false := by rw [BitVec.getLsbD_append, if_neg (by omega)]; rfl
    have h2 : (0#1 ++ n).extractLsb' 0 10 = n := low_append _ _
    show (if (0#1 ++ n).getLsbD 10 = false then Operand.v ((0#1 ++ n).extractLsb' 0 10) else _) = .v n
    rw [if_pos h1, h2]
  | lit n => exact ofBits_lit n
  | s n => exact ofBits_s n
  | q n => exact ofBits_q n
  | sr n => exact ofBits_sr n
  | p n => exact ofBits_p n
  | k n => exact ofBits_k n

theorem Desc.spelled_fits {e : Desc} (h : e.spelled = true) : e.raw.fits := by
  simp only [Desc.spelled, Frame.formOk, Bool.and_eq_true] at h
  obtain ⟨h1, _⟩ := h
  constructor
  · intro hf
    have hf' : e.f.form = .s := hf
    rw [hf'] at h1
    simpa [Desc.raw, and_assoc] using h1
  · intro hf
    have hf' : e.f.form = .m := hf
    rw [hf'] at h1
    simpa [Desc.raw] using h1

theorem Desc.spelled_ops {e : Desc} (h : e.spelled = true) (x : BitVec 11) :
    e.f.d ≠ .bad x ∧ e.f.a ≠ .bad x ∧ e.f.b ≠ .bad x ∧ e.f.c ≠ .bad x := by
  simp only [Desc.spelled, Bool.and_eq_true] at h
  obtain ⟨_, h2⟩ := h
  refine ⟨?_, ?_, ?_, ?_⟩ <;> intro hx <;> simp [hx] at h2
  all_goals (revert h2; split <;> simp_all)

/-- The frame of the fields of an instruction, with what the family holds in C and X. -/
theorem Desc.raw_frame {e : Desc} (h : e.spelled = true) :
    e.raw.frame = { e.f with c := .ofBits e.cRaw, x := e.xRaw } := by
  have hx := fun x => e.spelled_ops h x
  have hd : Operand.ofBits e.f.d.toBits = e.f.d := Operand.ofBits_toBits _ fun x => (hx x).1
  have ha : Operand.ofBits e.f.a.toBits = e.f.a := Operand.ofBits_toBits _ fun x => (hx x).2.1
  have hb : Operand.ofBits e.f.b.toBits = e.f.b := Operand.ofBits_toBits _ fun x => (hx x).2.2.1
  simp only [Raw.frame, Desc.raw, hd, ha, hb]
  cases e.f.gs <;> rfl

end Sys2Proof
end

