-- ==== Sys2Proof/Laws/Fields.lean ====
section
/-! SUPPORT. Encoding, family by family: the modifiers of R93, R114, R151, R200, R248 and R249 are read back from the bits
that spell them. -/

namespace Sys2Proof

/-! ### Frames -/

theorem Desc.frame_eq {e : Desc} (hs : e.spelled = true) (hc : e.cRaw = e.f.c.toBits) (hx : e.xRaw = e.f.x) :
    e.raw.frame = e.f := by
  rw [Desc.raw_frame hs, hc, hx, Operand.ofBits_toBits _ fun x => (Desc.spelled_ops hs x).2.2.2]

theorem Desc.frameX_eq {e : Desc} (hs : e.spelled = true) (hc : e.cRaw = e.f.c.toBits) (hx : e.f.x = 0) :
    e.raw.frameX = e.f := by
  rw [Raw.frameX, Desc.raw_frame hs, hc, Operand.ofBits_toBits _ fun x => (Desc.spelled_ops hs x).2.2.2, ← hx]

theorem Desc.frameC_eq {e : Desc} (hs : e.spelled = true) (hx : e.xRaw = e.f.x) (hc : e.f.c = .unused) :
    e.raw.frameC = e.f := by
  rw [Raw.frameC, Desc.raw_frame hs, hx, ← hc]

theorem Desc.c_unused {e : Desc} (h : e.check5 = true) (hc : e.c = none) : e.f.c = .unused := by
  simp only [Desc.check5, hc, Bool.and_eq_true] at h
  simpa using h.1.1.2

theorem Desc.x_unused {e : Desc} (h : e.check5 = true) (hx : e.xUse = false) : e.f.x = 0 := by
  simp only [Desc.check5, hx, Bool.and_eq_true] at h
  simpa using h.1.2

theorem Desc.ok_of {e : Desc} (h : e.check5 = true) : e.ok = true := by
  simp only [Desc.check5, Bool.and_eq_true] at h
  exact h.1.1.1.1.1.1

/-! ### Fields inside a concatenation -/

theorem mid_append {u v w : Nat} (a : BitVec u) (b : BitVec v) (c : BitVec w) :
    (a ++ b ++ c).extractLsb' w v = b := by
  rw [BitVec.extractLsb'_append_eq_of_le (by omega), Nat.sub_self, low_append]

theorem high_append {u w : Nat} (a : BitVec u) (c : BitVec w) : (a ++ c).extractLsb' w u = a := by
  rw [BitVec.extractLsb'_append_eq_of_le (by omega), Nat.sub_self]
  exact BitVec.extractLsb'_eq_self

theorem IntTy.ofBits_toBits (t : IntTy) : IntTy.ofBits t.toBits = some t := by cases t <;> rfl
theorem FTy.ofBits_toBits (t : FTy) : FTy.ofBits t.toBits = some t := by cases t <;> rfl
theorem Rnd.ofBits_toBits (t : Rnd) : Rnd.ofBits t.toBits = t := by cases t <;> rfl
theorem Scope.ofBits_toBits (t : Scope) : Scope.ofBits t.toBits = some t := by cases t <;> rfl
theorem Scale.ofBits_toBits (t : Scale) : Scale.ofBits t.toBits = some t := by cases t <;> rfl
theorem Wid.ofBits_toBits (t : Wid) : Wid.ofBits t.toBits = some t := by cases t <;> rfl
theorem AtomOp.ofBits_toBits (t : AtomOp) : AtomOp.ofBits t.toBits = some t := by cases t <;> rfl
theorem AtomTy.ofBits_toBits (t : AtomTy) : AtomTy.ofBits t.toBits = t := by cases t <;> rfl
theorem SyncOrd.ofBits_toBits (t : SyncOrd) : SyncOrd.ofBits t.toBits = t := by cases t <;> rfl
theorem CvtTy.ofBits_toBits (t : CvtTy) : CvtTy.ofBits t.toBits = some t := by cases t <;> rfl

theorem Ord.ofMem_toMem (t : Ord) (h : t ≠ .ar) : Ord.ofMem t.toMem = t := by
  cases t <;> first | rfl | exact absurd rfl h

theorem Ord.ofAtom_toAtom (t : Ord) (h : t ≠ .plain) : Ord.ofAtom t.toAtom = t := by
  cases t <;> first | rfl | exact absurd rfl h

theorem MemCtl.ofBits_toBits (k : MemCtl) : MemCtl.ofBits k.toBits = some k := by
  obtain ⟨scope, sc⟩ := k
  cases scope <;> cases sc <;> rfl

theorem AtomCtl.ofBits_toBits (k : AtomCtl) (h : k.ord ≠ .plain) : AtomCtl.ofBits k.toBits = some k := by
  obtain ⟨off, scope, ord⟩ := k
  have h1 : (off ++ scope.toBits ++ ord.toAtom ++ 0#2).extractLsb' 0 2 = 0#2 := low_append _ _
  have h2 : (off ++ scope.toBits ++ ord.toAtom ++ 0#2).extractLsb' 2 2 = ord.toAtom := mid_append _ _ _
  have h3 : (off ++ scope.toBits ++ ord.toAtom ++ 0#2).extractLsb' 4 4 = scope.toBits := by
    rw [BitVec.extractLsb'_append_eq_of_le (by omega)]
    exact mid_append _ _ _
  have h4 : (off ++ scope.toBits ++ ord.toAtom ++ 0#2).extractLsb' 8 13 = off := by
    rw [BitVec.extractLsb'_append_eq_of_le (by omega), BitVec.extractLsb'_append_eq_of_le (by omega)]
    exact high_append _ _
  unfold AtomCtl.ofBits AtomCtl.toBits
  simp only [h1, h2, h3, h4, Scope.ofBits_toBits, Ord.ofAtom_toAtom ord h]
  simp

/-! ### Builders -/

theorem Raw.tySat_eq {r : Raw} {f : Frame} {ty : IntTy} {sat : Bool} {k : Frame → IntTy → Bool → Instr}
    (hf : r.frame = f) (hm : r.mod = intMod ty sat 0) : r.tySat k = some (k f ty sat) := by
  subst hf
  simp only [Raw.tySat, Raw.m55, Raw.ty, Raw.m56, hm]
  cases ty <;> cases sat <;> rfl

theorem Raw.tyOnly_eq {r : Raw} {f : Frame} {ty : IntTy} {k : Frame → IntTy → Instr}
    (hf : r.frame = f) (hm : r.mod = intMod ty false 0) : r.tyOnly k = some (k f ty) := by
  subst hf
  simp only [Raw.tyOnly, Raw.m55, Raw.ty, Raw.m56, hm]
  cases ty <;> rfl

theorem Raw.fixedTy_eq {r : Raw} {ty : IntTy} {i : Instr} (hm : r.mod = intMod ty false 0) :
    r.fixedTy ty i = some i := by
  simp [Raw.fixedTy, hm, guardOpt]

theorem Raw.fpFull_eq {r : Raw} {f : Frame} {ty : FTy} {rnd : Rnd} {sat ftz : Bool}
    {k : Frame → FTy → Rnd → Bool → Bool → Instr} (hf : r.frame = f)
    (hm : r.mod = fpMod ty rnd.toBits false sat ftz) : r.fpFull k = some (k f ty rnd sat ftz) := by
  subst hf
  simp only [Raw.fpFull, Raw.fty, Raw.frnd, Raw.fsat, Raw.m53, hm]
  cases ty <;> cases rnd <;> cases sat <;> cases ftz <;> rfl

theorem Raw.fpFtz_eq {r : Raw} {f : Frame} {ty : FTy} {ftz : Bool} {k : Frame → FTy → Bool → Instr}
    (hf : r.frame = f) (hm : r.mod = fpMod ty 0 false false ftz) : r.fpFtz k = some (k f ty ftz) := by
  subst hf
  simp only [Raw.fpFtz, Raw.fty, Raw.m53, hm]
  cases ty <;> cases ftz <;> rfl

theorem Raw.bit53_eq {r : Raw} {f : Frame} {b : Bool} {k : Frame → Bool → Instr} (hf : r.frame = f)
    (hm : r.mod = 0#6 ++ boolBit b) : r.bit53 k = some (k f b) := by
  subst hf
  simp only [Raw.bit53, Raw.m53, hm]
  cases b <;> rfl

theorem Raw.plain_eq {r : Raw} {f : Frame} {k : Frame → Instr} (hf : r.frame = f) (hm : r.mod = 0) :
    r.plain k = some (k f) := by
  subst hf
  simp [Raw.plain, hm, guardOpt]

theorem getLsbD_one_append {w : Nat} (a : BitVec w) (b c : Bool) :
    (a ++ boolBit b ++ boolBit c).getLsbD 1 = b := by
  rw [BitVec.getLsbD_append, if_neg (by omega), BitVec.getLsbD_append, if_pos (by omega)]
  cases b <;> rfl

theorem getLsbD_zero_append {w : Nat} (a : BitVec w) (c : Bool) : (a ++ boolBit c).getLsbD 0 = c := by
  rw [BitVec.getLsbD_append, if_pos (by omega)]
  cases c <;> rfl

theorem memMod_wid (m : MemMod) (win : Bool) : (memMod m win).extractLsb' 4 3 = m.wid.toBits := by
  unfold memMod
  rw [BitVec.extractLsb'_append_eq_of_le (by omega), BitVec.extractLsb'_append_eq_of_le (by omega)]
  exact high_append _ _

theorem memMod_ord (m : MemMod) (win : Bool) : (memMod m win).extractLsb' 2 2 = m.ord.toMem := by
  unfold memMod
  rw [BitVec.extractLsb'_append_eq_of_le (by omega)]
  exact mid_append _ _ _

theorem memMod_win (m : MemMod) (win : Bool) : (memMod m win).getLsbD 1 = win := getLsbD_one_append _ _ _

theorem memMod_ixs (m : MemMod) (win : Bool) : (memMod m win).getLsbD 0 = m.ixs := getLsbD_zero_append _ _

theorem Raw.memMod_eq {r : Raw} {f : Frame} {m : MemMod} {win : Bool} {scopes : Scope → Bool} {dflt : Scope}
    (hm : r.mod = Sys2Proof.memMod m win) (hc : r.c = if f.isS then 0 else m.ctl.toBits) (hS : r.form = f.form)
    (hk : memCtlOk f m scopes dflt = true) (ho : m.ord ≠ .ar) : r.memMod dflt = some m := by
  unfold Raw.memMod
  simp only [Raw.isS, Raw.m53, hm, memMod_wid, memMod_ord, memMod_ixs, Wid.ofBits_toBits, Ord.ofMem_toMem _ ho, hS]
  obtain ⟨wid, ord, ixs, scope, sc⟩ := m
  by_cases hf : f.form = .s
  · simp only [memCtlOk, Frame.isS, hf, decide_true, Bool.not_true, Bool.false_or, Bool.and_eq_true, beq_iff_eq] at hk
    obtain ⟨-, h1, h2⟩ := hk
    simp [hf, h1, h2]
  · simp only [Frame.isS, hf, decide_false] at hc
    simp [hf, hc, MemCtl.ofBits_toBits]

theorem Raw.mem_eq {r : Raw} {f : Frame} {m : MemMod} {scopes : Scope → Bool} {k : Frame → MemMod → Instr}
    (hf : r.frameC = f) (hm : r.mod = Sys2Proof.memMod m false) (hc : r.c = if f.isS then 0 else m.ctl.toBits)
    (hS : r.form = f.form) (hk : memCtlOk f m scopes .dev = true) (ho : m.ord ≠ .ar) : r.mem k = some (k f m) := by
  unfold Raw.mem
  rw [Raw.memMod_eq hm hc hS hk ho, hm, memMod_win, hf]
  rfl

theorem Raw.memWin_eq {r : Raw} {f : Frame} {m : MemMod} {win : Bool} {scopes : Scope → Bool}
    {k : Frame → MemMod → Bool → Instr} (hf : r.frameC = f) (hm : r.mod = Sys2Proof.memMod m win)
    (hc : r.c = if f.isS then 0 else m.ctl.toBits) (hS : r.form = f.form) (hk : memCtlOk f m scopes .cor = true)
    (ho : m.ord ≠ .ar) : r.memWin k = some (k f m win) := by
  unfold Raw.memWin
  rw [Raw.memMod_eq hm hc hS hk ho, hm, memMod_win, hf]
  rfl

theorem Ord.load_ne {o : Ord} (h : o.loadOrd = true) : o ≠ .ar := by rintro rfl; cases h
theorem Ord.store_ne {o : Ord} (h : o.storeOrd = true) : o ≠ .ar := by rintro rfl; cases h

theorem Raw.atomCtl_eq {r : Raw} {f : Frame} {k : AtomCtl} {scopes : Scope → Bool} {ords : List Ord} {dflt : Scope}
    (hx : r.x = if f.isS then 0 else k.toBits) (hS : r.form = f.form) (hk : atomCtlOk f k scopes ords dflt = true)
    (ho : ords.contains .plain = false) : r.atomCtl dflt = some k := by
  have hne : k.ord ≠ .plain := by
    rintro h
    simp [atomCtlOk, h] at hk
    simp_all
  unfold Raw.atomCtl
  obtain ⟨off, scope, ord⟩ := k
  by_cases hf : f.form = .s
  · simp only [atomCtlOk, Frame.isS, hf, decide_true, Bool.not_true, Bool.false_or, Bool.and_eq_true, beq_iff_eq] at hk
    obtain ⟨-, ⟨h1, h2⟩, h3⟩ := hk
    simp [Raw.isS, hS, hf, h1, h2, h3]
  · simp only [Frame.isS, hf, decide_false] at hx
    simp [Raw.isS, hS, hf, hx, AtomCtl.ofBits_toBits _ hne]

theorem atomMod_op (op : AtomOp) (ty : AtomTy) (b : Bool) : (atomMod op ty b).extractLsb' 4 3 = op.toBits := by
  unfold atomMod
  rw [BitVec.extractLsb'_append_eq_of_le (by omega)]
  exact high_append _ _

theorem atomMod_ty (op : AtomOp) (ty : AtomTy) (b : Bool) : (atomMod op ty b).extractLsb' 1 3 = ty.toBits :=
  mid_append _ _ _

theorem atomMod_b (op : AtomOp) (ty : AtomTy) (b : Bool) : (atomMod op ty b).getLsbD 0 = b :=
  getLsbD_zero_append _ _

theorem Raw.atomic_eq {r : Raw} {f : Frame} {op : AtomOp} {ty : AtomTy} {b : Bool} {c : AtomCtl} {dflt : Scope}
    {k : Frame → AtomOp → AtomTy → Bool → AtomCtl → Instr} (hf : r.frameX = f) (hm : r.mod = atomMod op ty b)
    (hc : r.atomCtl dflt = some c) : r.atomic dflt k = some (k f op ty b c) := by
  unfold Raw.atomic
  simp only [Raw.m53, hm, hc, atomMod_op, atomMod_ty, atomMod_b, AtomOp.ofBits_toBits, AtomTy.ofBits_toBits, hf]

theorem Raw.shl_eq {r : Raw} {f : Frame} (hf : r.frame = f) (hm : r.mod = intMod .b32 false 0) :
    (r.fixedTy .b32 (.shl r.frame) : Option Instr) = some (.shl f) := by
  subst hf
  exact Raw.fixedTy_eq hm

theorem Raw.shr_eq {r : Raw} {f : Frame} (hf : r.frame = f) (hm : r.mod = intMod .b32 false 0) :
    (r.fixedTy .b32 (.shr r.frame) : Option Instr) = some (.shr f) := by
  subst hf
  exact Raw.fixedTy_eq hm

theorem Raw.sar_eq {r : Raw} {f : Frame} (hf : r.frame = f) (hm : r.mod = intMod .s32 false 0) :
    (r.fixedTy .s32 (.sar r.frame) : Option Instr) = some (.sar f) := by
  subst hf
  exact Raw.fixedTy_eq hm

theorem Raw.rol_eq {r : Raw} {f : Frame} (hf : r.frame = f) (hm : r.mod = intMod .b32 false 0) :
    (r.fixedTy .b32 (.rol r.frame) : Option Instr) = some (.rol f) := by
  subst hf
  exact Raw.fixedTy_eq hm

theorem Raw.shl64_eq {r : Raw} {f : Frame} (hf : r.frame = f) (hm : r.mod = intMod .b64 false 0) :
    (r.fixedTy .b64 (.shl64 r.frame) : Option Instr) = some (.shl64 f) := by
  subst hf
  exact Raw.fixedTy_eq hm

theorem Raw.iabs_eq {r : Raw} {f : Frame} {sat : Bool} (hf : r.frame = f) (hm : r.mod = intMod .s32 sat 0) :
    (guardOpt (r.ty == some .s32 && r.m55 == 0) (some (.iabs r.frame r.m56)) : Option Instr) = some (.iabs f sat) := by
  subst hf
  simp only [Raw.ty, Raw.m56, Raw.m55, hm]
  cases sat <;> rfl

theorem Raw.ineg_eq {r : Raw} {f : Frame} {sat : Bool} (hf : r.frame = f) (hm : r.mod = intMod .s32 sat 0) :
    (guardOpt (r.ty == some .s32 && r.m55 == 0) (some (.ineg r.frame r.m56)) : Option Instr) = some (.ineg f sat) := by
  subst hf
  simp only [Raw.ty, Raw.m56, Raw.m55, hm]
  cases sat <;> rfl

theorem Raw.bfe_eq {r : Raw} {f : Frame} {ty : IntTy} {imm : Bool} (hf : r.frame = f) (hm : r.mod = intMod ty false (boolBit imm ++ 0#2)) :
    (guardOpt (!r.m56 && r.mod.extractLsb' 0 2 == 0)
    (r.ty.map fun ty => .bfe r.frame ty (r.mod.getLsbD 2)) : Option Instr) = some (.bfe f ty imm) := by
  subst hf
  simp only [Raw.ty, Raw.m56, hm]
  cases ty <;> cases imm <;> rfl

theorem Raw.bfi_eq {r : Raw} {f : Frame} {imm : Bool} (hf : r.frame = f) (hm : r.mod = intMod .b32 false (boolBit imm ++ 0#2)) :
    (guardOpt (r.ty == some .b32 && !r.m56 && r.mod.extractLsb' 0 2 == 0)
    (some (.bfi r.frame (r.mod.getLsbD 2))) : Option Instr) = some (.bfi f imm) := by
  subst hf
  simp only [Raw.ty, Raw.m56, hm]
  cases imm <;> rfl

theorem Raw.perm_eq {r : Raw} {f : Frame} {imm : Bool} (hf : r.frame = f) (hm : r.mod = intMod .b32 false (boolBit imm ++ 0#2)) :
    (guardOpt (r.ty == some .b32 && !r.m56 && r.mod.extractLsb' 0 2 == 0)
    (some (.perm r.frame (r.mod.getLsbD 2))) : Option Instr) = some (.perm f imm) := by
  subst hf
  simp only [Raw.ty, Raw.m56, hm]
  cases imm <;> rfl

theorem Raw.icmp_eq {r : Raw} {f : Frame} {ty : IntTy} {cc : ICond} (hf : r.frame = f) (hm : r.mod = intMod ty false cc.toBits) :
    (match r.ty, ICond.ofBits r.m55 with
  | some ty, some cc => guardOpt (!r.m56) (some (.icmp r.frame ty cc))
  | _, _ => none : Option Instr) = some (.icmp f ty cc) := by
  subst hf
  simp only [Raw.ty, Raw.m56, Raw.m55, hm]
  cases ty <;> cases cc <;> rfl

theorem Raw.lea_eq {r : Raw} {f : Frame} {ty : IntTy} {sc : Scale} (hf : r.frame = f) (hm : r.mod = intMod ty false sc.toBits) :
    (match r.ty, Scale.ofBits r.m55 with
  | some ty, some k => guardOpt (!r.m56) (some (.lea r.frame ty k))
  | _, _ => none : Option Instr) = some (.lea f ty sc) := by
  subst hf
  simp only [Raw.ty, Raw.m56, Raw.m55, hm]
  cases ty <;> cases sc <;> rfl

theorem Raw.dp4_eq {r : Raw} {f : Frame} {ty : IntTy} {sat : Bool} {sa : Bool} {sb : Bool} (hf : r.frame = f) (hm : r.mod = intMod ty sat (boolBit sa ++ boolBit sb ++ 0#1)) :
    (guardOpt (!r.m53) (r.ty.map fun ty => .dp4 r.frame ty r.m56 (r.mod.getLsbD 2) (r.mod.getLsbD 1)) : Option Instr) = some (.dp4 f ty sat sa sb) := by
  subst hf
  simp only [Raw.ty, Raw.m56, Raw.m53, hm]
  cases ty <;> cases sat <;> cases sa <;> cases sb <;> rfl

theorem Raw.shfl_eq {r : Raw} {f : Frame} {ty : IntTy} {mode : ShflMode} (hf : r.frame = f) (hm : r.mod = intMod ty false (mode.toBits ++ 0#1)) :
    (guardOpt (!r.m56 && !r.m53)
    (r.ty.map fun ty => .shfl r.frame ty (.ofBits (r.mod.extractLsb' 1 2))) : Option Instr) = some (.shfl f ty mode) := by
  subst hf
  simp only [Raw.ty, Raw.m56, Raw.m53, hm]
  cases ty <;> cases mode <;> rfl

theorem Raw.vote_eq {r : Raw} {f : Frame} {mode : VoteMode} (hf : r.frame = f) (hm : r.mod = intMod .b32 false (0#1 ++ mode.toBits)) :
    (guardOpt (r.ty == some .b32 && !r.m56 && !r.mod.getLsbD 2)
    (some (.vote r.frame (.ofBits (r.mod.extractLsb' 0 2)))) : Option Instr) = some (.vote f mode) := by
  subst hf
  simp only [Raw.ty, Raw.m56, hm]
  cases mode <;> rfl

theorem Raw.fcmp_eq {r : Raw} {f : Frame} {ty : FTy} {cc : FCond} {ftz : Bool} (hf : r.frame = f) (hm : r.mod = fpMod ty (cc.toBits.extractLsb' 1 2) (cc.toBits.getLsbD 0) false ftz) :
    (guardOpt (!r.fsat) (r.fty.map fun ty => .fcmp r.frame ty (.ofBits (r.mod.extractLsb' 2 3)) r.m53) : Option Instr) = some (.fcmp f ty cc ftz) := by
  subst hf
  simp only [Raw.fty, Raw.fsat, Raw.m53, hm]
  cases ty <;> cases cc <;> cases ftz <;> rfl

theorem Raw.frnd_eq {r : Raw} {f : Frame} {ty : FTy} {rnd : Rnd} {ftz : Bool} (hf : r.frame = f) (hm : r.mod = fpMod ty rnd.toBits false false ftz) :
    (guardOpt (r.mod.extractLsb' 1 2 == 0) (r.fty.map fun ty => .frnd r.frame ty r.frnd r.m53) : Option Instr) = some (.frnd f ty rnd ftz) := by
  subst hf
  simp only [Raw.fty, Raw.frnd, Raw.m53, hm]
  cases ty <;> cases rnd <;> cases ftz <;> rfl

theorem Raw.hdot2_eq {r : Raw} {f : Frame} {ty : FTy} {dt : Bool} {rnd : Rnd} {sat : Bool} {ftz : Bool} (hf : r.frame = f) (hm : r.mod = fpMod ty rnd.toBits dt sat ftz) :
    (r.fty.map fun ty => .hdot2 r.frame ty (r.mod.getLsbD 2) r.frnd r.fsat r.m53 : Option Instr) = some (.hdot2 f ty dt rnd sat ftz) := by
  subst hf
  simp only [Raw.fty, Raw.frnd, Raw.fsat, Raw.m53, hm]
  cases ty <;> cases dt <;> cases rnd <;> cases sat <;> cases ftz <;> rfl

theorem Raw.arrive_eq {r : Raw} {f : Frame} {ord : SyncOrd} {scope : Scope} {rmt : Bool} (hf : r.frame = f) (hm : r.mod = syncMod scope ord rmt) :
    (r.syncScope.map fun sc => .arrive r.frame r.syncOrd sc r.m53 : Option Instr) = some (.arrive f ord scope rmt) := by
  subst hf
  simp only [Raw.syncScope, Raw.syncOrd, Raw.m53, hm]
  cases scope <;> cases ord <;> cases rmt <;> rfl

theorem Raw.wait_eq {r : Raw} {f : Frame} {ord : SyncOrd} {scope : Scope} {rmt : Bool} (hf : r.frame = f) (hm : r.mod = syncMod scope ord rmt) :
    (r.syncScope.map fun sc => .wait r.frame r.syncOrd sc r.m53 : Option Instr) = some (.wait f ord scope rmt) := by
  subst hf
  simp only [Raw.syncScope, Raw.syncOrd, Raw.m53, hm]
  cases scope <;> cases ord <;> cases rmt <;> rfl

theorem Raw.fence_eq {r : Raw} {f : Frame} {ord : SyncOrd} {scope : Scope} (hf : r.frame = f) (hm : r.mod = syncMod scope ord false) :
    (guardOpt (!r.m53) (r.syncScope.map fun sc => .fence r.frame r.syncOrd sc) : Option Instr) = some (.fence f ord scope) := by
  subst hf
  simp only [Raw.syncScope, Raw.syncOrd, Raw.m53, hm]
  cases scope <;> cases ord <;> rfl

theorem Raw.copy_eq {r : Raw} {f : Frame} {dg : Bool} {ck : Bool} (hf : r.frame = f) (hm : r.mod = 0#5 ++ boolBit dg ++ boolBit ck) :
    (guardOpt (r.mod.extractLsb' 2 5 == 0) (some (.copy r.frame (r.mod.getLsbD 1) r.m53)) : Option Instr) = some (.copy f dg ck) := by
  subst hf
  simp only [Raw.m53, hm]
  cases dg <;> cases ck <;> rfl

theorem Raw.coll_eq {r : Raw} {f : Frame} {kind : CollKind} {red : CollRed} (hf : r.frame = f) (hm : r.mod = kind.toBits ++ red.toBits ++ 0#2) :
    (match CollKind.ofBits (r.mod.extractLsb' 5 2), CollRed.ofBits (r.mod.extractLsb' 2 3) with
  | some kd, some rd => guardOpt (r.mod.extractLsb' 0 2 == 0) (some (.coll r.frame kd rd))
  | _, _ => none : Option Instr) = some (.coll f kind red) := by
  subst hf
  simp only [hm]
  cases kind <;> cases red <;> rfl

theorem Raw.gqCfgConfigure_eq {r : Raw} {f : Frame} (hf : r.frame = f) (hm : r.mod = 0) :
    (guardOpt (r.mod.extractLsb' 2 5 == 0)
    (match (r.mod.extractLsb' 0 2).toNat with
     | 0 => some (.gqCfgConfigure r.frame)
     | 1 => some (.gqCfgDisable r.frame)
     | 2 => some (.gqCfgRelease r.frame)
     | _ => some (.gqCfgQuery r.frame)) : Option Instr) = some (.gqCfgConfigure f) := by
  subst hf
  simp only [hm]
  rfl

theorem Raw.gqCfgDisable_eq {r : Raw} {f : Frame} (hf : r.frame = f) (hm : r.mod = 1) :
    (guardOpt (r.mod.extractLsb' 2 5 == 0)
    (match (r.mod.extractLsb' 0 2).toNat with
     | 0 => some (.gqCfgConfigure r.frame)
     | 1 => some (.gqCfgDisable r.frame)
     | 2 => some (.gqCfgRelease r.frame)
     | _ => some (.gqCfgQuery r.frame)) : Option Instr) = some (.gqCfgDisable f) := by
  subst hf
  simp only [hm]
  rfl

theorem Raw.gqCfgRelease_eq {r : Raw} {f : Frame} (hf : r.frame = f) (hm : r.mod = 2) :
    (guardOpt (r.mod.extractLsb' 2 5 == 0)
    (match (r.mod.extractLsb' 0 2).toNat with
     | 0 => some (.gqCfgConfigure r.frame)
     | 1 => some (.gqCfgDisable r.frame)
     | 2 => some (.gqCfgRelease r.frame)
     | _ => some (.gqCfgQuery r.frame)) : Option Instr) = some (.gqCfgRelease f) := by
  subst hf
  simp only [hm]
  rfl

theorem Raw.gqCfgQuery_eq {r : Raw} {f : Frame} (hf : r.frame = f) (hm : r.mod = 3) :
    (guardOpt (r.mod.extractLsb' 2 5 == 0)
    (match (r.mod.extractLsb' 0 2).toNat with
     | 0 => some (.gqCfgConfigure r.frame)
     | 1 => some (.gqCfgDisable r.frame)
     | 2 => some (.gqCfgRelease r.frame)
     | _ => some (.gqCfgQuery r.frame)) : Option Instr) = some (.gqCfgQuery f) := by
  subst hf
  simp only [hm]
  rfl

theorem Raw.rlaunch_eq {r : Raw} {f : Frame} (hf : r.frame = f) (hm : r.mod = 0#4 ++ 0#3) :
    (guardOpt (r.mod.extractLsb' 3 4 == 0)
    (match r.m55.toNat with
     | 0 => some (.rlaunch r.frame)
     | 1 => some (.rlaunchPrism r.frame)
     | 2 => some (.rlaunchSusp r.frame)
     | 3 => some (.rlaunchRes r.frame)
     | 4 => some (.rlaunchKill r.frame)
     | 5 => some (.rlaunchRepl r.frame)
     | _ => none) : Option Instr) = some (.rlaunch f) := by
  subst hf
  simp only [Raw.m55, hm]
  rfl

theorem Raw.rlaunchPrism_eq {r : Raw} {f : Frame} (hf : r.frame = f) (hm : r.mod = 0#4 ++ 1#3) :
    (guardOpt (r.mod.extractLsb' 3 4 == 0)
    (match r.m55.toNat with
     | 0 => some (.rlaunch r.frame)
     | 1 => some (.rlaunchPrism r.frame)
     | 2 => some (.rlaunchSusp r.frame)
     | 3 => some (.rlaunchRes r.frame)
     | 4 => some (.rlaunchKill r.frame)
     | 5 => some (.rlaunchRepl r.frame)
     | _ => none) : Option Instr) = some (.rlaunchPrism f) := by
  subst hf
  simp only [Raw.m55, hm]
  rfl

theorem Raw.rlaunchSusp_eq {r : Raw} {f : Frame} (hf : r.frame = f) (hm : r.mod = 0#4 ++ 2#3) :
    (guardOpt (r.mod.extractLsb' 3 4 == 0)
    (match r.m55.toNat with
     | 0 => some (.rlaunch r.frame)
     | 1 => some (.rlaunchPrism r.frame)
     | 2 => some (.rlaunchSusp r.frame)
     | 3 => some (.rlaunchRes r.frame)
     | 4 => some (.rlaunchKill r.frame)
     | 5 => some (.rlaunchRepl r.frame)
     | _ => none) : Option Instr) = some (.rlaunchSusp f) := by
  subst hf
  simp only [Raw.m55, hm]
  rfl

theorem Raw.rlaunchRes_eq {r : Raw} {f : Frame} (hf : r.frame = f) (hm : r.mod = 0#4 ++ 3#3) :
    (guardOpt (r.mod.extractLsb' 3 4 == 0)
    (match r.m55.toNat with
     | 0 => some (.rlaunch r.frame)
     | 1 => some (.rlaunchPrism r.frame)
     | 2 => some (.rlaunchSusp r.frame)
     | 3 => some (.rlaunchRes r.frame)
     | 4 => some (.rlaunchKill r.frame)
     | 5 => some (.rlaunchRepl r.frame)
     | _ => none) : Option Instr) = some (.rlaunchRes f) := by
  subst hf
  simp only [Raw.m55, hm]
  rfl

theorem Raw.rlaunchKill_eq {r : Raw} {f : Frame} (hf : r.frame = f) (hm : r.mod = 0#4 ++ 4#3) :
    (guardOpt (r.mod.extractLsb' 3 4 == 0)
    (match r.m55.toNat with
     | 0 => some (.rlaunch r.frame)
     | 1 => some (.rlaunchPrism r.frame)
     | 2 => some (.rlaunchSusp r.frame)
     | 3 => some (.rlaunchRes r.frame)
     | 4 => some (.rlaunchKill r.frame)
     | 5 => some (.rlaunchRepl r.frame)
     | _ => none) : Option Instr) = some (.rlaunchKill f) := by
  subst hf
  simp only [Raw.m55, hm]
  rfl

theorem Raw.rlaunchRepl_eq {r : Raw} {f : Frame} (hf : r.frame = f) (hm : r.mod = 0#4 ++ 5#3) :
    (guardOpt (r.mod.extractLsb' 3 4 == 0)
    (match r.m55.toNat with
     | 0 => some (.rlaunch r.frame)
     | 1 => some (.rlaunchPrism r.frame)
     | 2 => some (.rlaunchSusp r.frame)
     | 3 => some (.rlaunchRes r.frame)
     | 4 => some (.rlaunchKill r.frame)
     | 5 => some (.rlaunchRepl r.frame)
     | _ => none) : Option Instr) = some (.rlaunchRepl f) := by
  subst hf
  simp only [Raw.m55, hm]
  rfl

theorem Raw.binPut_eq {r : Raw} {f : Frame} (hf : r.frame = f) (hm : r.mod = 0) :
    (guardOpt (r.mod.extractLsb' 1 6 == 0) (some (if r.m53 then .binPutEnd r.frame else .binPut r.frame)) : Option Instr) = some (.binPut f) := by
  subst hf
  simp only [Raw.m53, hm]
  rfl

theorem Raw.binPutEnd_eq {r : Raw} {f : Frame} (hf : r.frame = f) (hm : r.mod = 1) :
    (guardOpt (r.mod.extractLsb' 1 6 == 0) (some (if r.m53 then .binPutEnd r.frame else .binPut r.frame)) : Option Instr) = some (.binPutEnd f) := by
  subst hf
  simp only [Raw.m53, hm]
  rfl

theorem intMod_ty (ty : IntTy) (b : Bool) (n : BitVec 3) : (intMod ty b n).extractLsb' 4 3 = ty.toBits := by
  unfold intMod
  rw [BitVec.extractLsb'_append_eq_of_le (by omega)]
  exact high_append _ _

theorem intMod_m56 (ty : IntTy) (b : Bool) (n : BitVec 3) : (intMod ty b n).getLsbD 3 = b := by
  unfold intMod
  rw [BitVec.getLsbD_append, if_neg (by omega), BitVec.getLsbD_append, if_pos (by omega)]
  cases b <;> rfl

theorem intMod_m55 (ty : IntTy) (b : Bool) (n : BitVec 3) : (intMod ty b n).extractLsb' 0 3 = n := low_append _ _

theorem Raw.iaddc_eq {r : Raw} {f : Frame} {pd : BitVec 3} (hf : r.frame = f) (hm : r.mod = intMod .z32 false pd) :
    (guardOpt (r.ty == some .z32 && !r.m56) (some (.iaddc r.frame r.m55)) : Option Instr) = some (.iaddc f pd) := by
  subst hf
  simp only [Raw.ty, Raw.m56, Raw.m55, hm, intMod_ty, intMod_m56, intMod_m55, IntTy.ofBits_toBits]
  rfl

theorem Raw.isubb_eq {r : Raw} {f : Frame} {pd : BitVec 3} (hf : r.frame = f) (hm : r.mod = intMod .z32 false pd) :
    (guardOpt (r.ty == some .z32 && !r.m56) (some (.isubb r.frame r.m55)) : Option Instr) = some (.isubb f pd) := by
  subst hf
  simp only [Raw.ty, Raw.m56, Raw.m55, hm, intMod_ty, intMod_m56, intMod_m55, IntTy.ofBits_toBits]
  rfl

theorem Raw.sel_eq {r : Raw} {f : Frame} {ty : IntTy} {neg : Bool} {ps : BitVec 3} (hf : r.frame = f)
    (hm : r.mod = intMod ty neg ps) :
    (r.ty.map fun ty => Instr.sel r.frame ty r.m56 r.m55) = some (.sel f ty neg ps) := by
  subst hf
  simp only [Raw.ty, Raw.m56, Raw.m55, hm, intMod_ty, intMod_m56, intMod_m55, IntTy.ofBits_toBits]
  rfl

theorem Raw.redux_eq {r : Raw} {f : Frame} {ty : IntTy} {ftz : Bool} {op : ReduxOp} {rnd : Rnd} (hf : r.frameX = f)
    (hm : r.mod = intMod ty ftz op.toBits) (hx : r.x = 0#19 ++ rnd.toBits) :
    (match r.ty, ReduxOp.ofBits r.m55 with
    | some ty, some op => guardOpt (r.x.extractLsb' 2 19 == 0)
        (some (.redux r.frameX ty r.m56 op (.ofBits (r.x.extractLsb' 0 2))))
    | _, _ => none : Option Instr) = some (.redux f ty ftz op rnd) := by
  subst hf
  have ho : ReduxOp.ofBits op.toBits = some op := by cases op <;> rfl
  have h1 : (0#19 ++ rnd.toBits).extractLsb' 2 19 = 0#19 := high_append _ _
  have h2 : (0#19 ++ rnd.toBits).extractLsb' 0 2 = rnd.toBits := low_append _ _
  simp only [Raw.ty, Raw.m56, Raw.m55, hm, intMod_ty, intMod_m56, intMod_m55, IntTy.ofBits_toBits, ho, hx, h1, h2,
    Rnd.ofBits_toBits]
  rfl

theorem Raw.qpack_eq {r : Raw} {f : Frame} {slot : BitVec 3} (hf : r.frame = f) (hm : r.mod = slot ++ 0#4) :
    (guardOpt (r.mod.extractLsb' 0 4 == 0) (some (.qpack r.frame (r.mod.extractLsb' 4 3))) : Option Instr) =
      some (.qpack f slot) := by
  subst hf
  have h1 : (slot ++ 0#4).extractLsb' 4 3 = slot := high_append _ _
  have h2 : (slot ++ 0#4).extractLsb' 0 4 = 0#4 := low_append _ _
  simp only [hm, h1, h2]
  rfl

theorem Raw.qunpk_eq {r : Raw} {f : Frame} {slot : BitVec 3} {ty : FTy} (hf : r.frame = f)
    (hm : r.mod = slot ++ ty.toBits ++ 0#2) :
    (guardOpt (r.mod.extractLsb' 0 2 == 0)
      ((FTy.ofBits (r.mod.extractLsb' 2 2)).map fun ty => .qunpk r.frame (r.mod.extractLsb' 4 3) ty) : Option Instr) =
      some (.qunpk f slot ty) := by
  subst hf
  have h1 : (slot ++ ty.toBits ++ 0#2).extractLsb' 4 3 = slot := by
    rw [BitVec.extractLsb'_append_eq_of_le (by omega)]
    exact high_append _ _
  have h2 : (slot ++ ty.toBits ++ 0#2).extractLsb' 2 2 = ty.toBits := mid_append _ _ _
  have h3 : (slot ++ ty.toBits ++ 0#2).extractLsb' 0 2 = 0#2 := low_append _ _
  simp only [hm, h1, h2, h3, FTy.ofBits_toBits]
  rfl

theorem Raw.cvt_eq {r : Raw} {f : Frame} {dt st : CvtTy} {rnd : Rnd} {sat ftz : Bool} {sel : BitVec 2}
    {slot : BitVec 3} (hf : r.frameX = f) (hm : r.mod = dt.toBits ++ rnd.toBits ++ boolBit sat)
    (hx : r.x = 0#11 ++ sel ++ boolBit ftz ++ slot ++ st.toBits) :
    (match CvtTy.ofBits (r.mod.extractLsb' 3 4), CvtTy.ofBits (r.x.extractLsb' 0 4) with
    | some dt, some st => guardOpt (r.x.extractLsb' 10 11 == 0)
        (some (.cvt r.frameX dt st (.ofBits (r.mod.extractLsb' 1 2)) r.m53 (r.x.getLsbD 7) (r.x.extractLsb' 8 2)
          (r.x.extractLsb' 4 3)))
    | _, _ => none : Option Instr) = some (.cvt f dt st rnd sat ftz sel slot) := by
  subst hf
  have h1 : (dt.toBits ++ rnd.toBits ++ boolBit sat).extractLsb' 3 4 = dt.toBits := by
    rw [BitVec.extractLsb'_append_eq_of_le (by omega)]
    exact high_append _ _
  have h2 : (dt.toBits ++ rnd.toBits ++ boolBit sat).extractLsb' 1 2 = rnd.toBits := mid_append _ _ _
  have h3 : (dt.toBits ++ rnd.toBits ++ boolBit sat).getLsbD 0 = sat := getLsbD_zero_append _ _
  have h4 : (0#11 ++ sel ++ boolBit ftz ++ slot ++ st.toBits).extractLsb' 0 4 = st.toBits := low_append _ _
  have h5 : (0#11 ++ sel ++ boolBit ftz ++ slot ++ st.toBits).extractLsb' 4 3 = slot := mid_append _ _ _
  have h6 : (0#11 ++ sel ++ boolBit ftz ++ slot ++ st.toBits).getLsbD 7 = ftz := by
    rw [BitVec.getLsbD_append, if_neg (by omega), BitVec.getLsbD_append, if_neg (by omega)]
    exact getLsbD_zero_append _ _
  have h7 : (0#11 ++ sel ++ boolBit ftz ++ slot ++ st.toBits).extractLsb' 8 2 = sel := by
    rw [BitVec.extractLsb'_append_eq_of_le (by omega), BitVec.extractLsb'_append_eq_of_le (by omega)]
    exact mid_append _ _ _
  have h8 : (0#11 ++ sel ++ boolBit ftz ++ slot ++ st.toBits).extractLsb' 10 11 = 0#11 := by
    rw [BitVec.extractLsb'_append_eq_of_le (by omega), BitVec.extractLsb'_append_eq_of_le (by omega),
      BitVec.extractLsb'_append_eq_of_le (by omega)]
    exact high_append _ _
  simp only [Raw.m53, hm, hx, h1, h2, h3, h4, h5, h6, h7, h8, CvtTy.ofBits_toBits, Rnd.ofBits_toBits]
  rfl

theorem matMod_a (a b : BitVec 3) (c : Bool) : (a ++ b ++ boolBit c).extractLsb' 4 3 = a := by
  rw [BitVec.extractLsb'_append_eq_of_le (by omega)]
  exact high_append _ _

theorem matMod_b (a b : BitVec 3) (c : Bool) : (a ++ b ++ boolBit c).extractLsb' 1 3 = b := mid_append _ _ _

theorem Raw.mma_eq {r : Raw} {f : Frame} {sa sb : BitVec 3} {bh : Bool} (hf : r.frame = f)
    (hm : r.mod = sa ++ sb ++ boolBit bh) :
    (some (.mma r.frame (r.mod.extractLsb' 4 3) (r.mod.extractLsb' 1 3) r.m53) : Option Instr) = some (Instr.mma f sa sb bh) := by
  subst hf
  simp only [Raw.m53, hm, matMod_a, matMod_b, getLsbD_zero_append]

theorem Raw.mmaZ_eq {r : Raw} {f : Frame} {sa sb : BitVec 3} {bh : Bool} (hf : r.frame = f)
    (hm : r.mod = sa ++ sb ++ boolBit bh) :
    (some (.mmaZ r.frame (r.mod.extractLsb' 4 3) (r.mod.extractLsb' 1 3) r.m53) : Option Instr) = some (Instr.mmaZ f sa sb bh) := by
  subst hf
  simp only [Raw.m53, hm, matMod_a, matMod_b, getLsbD_zero_append]

theorem Raw.tfetch_eq {r : Raw} {f : Frame} {fs : BitVec 3} {q : Bool} (hf : r.frame = f)
    (hm : r.mod = fs ++ boolBit q ++ 0#3) :
    (guardOpt (r.mod.extractLsb' 0 3 == 0)
      (some (.tfetch r.frame (r.mod.extractLsb' 4 3) (r.mod.getLsbD 3))) : Option Instr) = some (.tfetch f fs q) := by
  subst hf
  have h1 : (fs ++ boolBit q ++ 0#3).extractLsb' 4 3 = fs := by
    rw [BitVec.extractLsb'_append_eq_of_le (by omega)]
    exact high_append _ _
  have h2 : (fs ++ boolBit q ++ 0#3).getLsbD 3 = q := by
    rw [BitVec.getLsbD_append, if_neg (by omega)]
    exact getLsbD_zero_append _ _
  have h3 : (fs ++ boolBit q ++ 0#3).extractLsb' 0 3 = 0#3 := low_append _ _
  simp only [hm, h1, h2, h3]
  rfl

theorem Raw.drain_eq {r : Raw} {f : Frame} {fs : BitVec 3} (hf : r.frame = f) (hm : r.mod = fs ++ 0#4) :
    (guardOpt (r.mod.extractLsb' 0 4 == 0) (some (.drain r.frame (r.mod.extractLsb' 4 3))) : Option Instr) =
      some (.drain f fs) := by
  subst hf
  have h1 : (fs ++ 0#4).extractLsb' 4 3 = fs := high_append _ _
  have h2 : (fs ++ 0#4).extractLsb' 0 4 = 0#4 := low_append _ _
  simp only [hm, h1, h2]
  rfl

theorem Raw.mscale_eq {r : Raw} {f : Frame} {rnd : Rnd} {ty : AtomTy} {b : Bool} {c : AtomCtl} (hf : r.frameX = f)
    (hm : r.mod = rnd.toBits ++ 0#1 ++ ty.toBits ++ boolBit b) (hc : r.atomCtl .dev = some c) :
    (guardOpt (!r.mod.getLsbD 4)
      ((r.atomCtl .dev).map fun c =>
        .mscale r.frameX (.ofBits (r.mod.extractLsb' 5 2)) (.ofBits (r.mod.extractLsb' 1 3)) r.m53 c) : Option Instr) =
      some (.mscale f rnd ty b c) := by
  subst hf
  simp only [Raw.m53, hm, hc]
  cases rnd <;> cases ty <;> cases b <;> rfl

theorem Raw.cas_eq {r : Raw} {f : Frame} {ty : AtomTy} {b : Bool} {c : AtomCtl} (hf : r.frameX = f)
    (hm : r.mod = atomMod .add ty b) (hc : r.atomCtl .dev = some c) :
    (guardOpt (r.mod.extractLsb' 4 3 == 0) (r.atomic .dev fun f _ ty b c => .cas f ty b c) : Option Instr) =
      some (.cas f ty b c) := by
  rw [Raw.atomic_eq hf hm hc, hm, atomMod_op]
  rfl

theorem Raw.mcas_eq {r : Raw} {f : Frame} {b : Bool} {c : AtomCtl} (hf : r.frameX = f)
    (hm : r.mod = atomMod .add .s32 b) (hc : r.atomCtl .dev = some c) :
    (guardOpt (r.mod.extractLsb' 1 6 == 0) (r.atomic .dev fun f _ _ b c => .mcas f b c) : Option Instr) = some (.mcas f b c) := by
  rw [Raw.atomic_eq hf hm hc, hm]
  cases b <;> rfl

theorem Desc.split_ok {a b : Bool} (h : (a && b) = true) : a = true ∧ b = true := by simpa using h

theorem Frame.isM_notS {f : Frame} (h : f.isM = true) : f.isS = false := by
  simp only [Frame.isM, decide_eq_true_eq] at h
  simp [Frame.isS, h]

theorem buildCsrw_csrw {f : Frame}
    (h : (f.isS || !([0x010, 0x011, 0x100, 0x400, 0x401, 0x402, 0x403].contains (csrX f))) = true) :
    buildCsrw f = .csrw f := by
  unfold buildCsrw
  split
  · rename_i hm
    rw [Frame.isM_notS hm, Bool.false_or] at h
    split <;> simp_all
  · rfl

theorem buildCsrw_spillb {f : Frame} (h : (f.isM && csrX f == 0x010) = true) : buildCsrw f = .spillbWrite f := by
  simp only [Bool.and_eq_true, beq_iff_eq] at h
  simp [buildCsrw, h.1, h.2]

theorem buildCsrw_spilll {f : Frame} (h : (f.isM && csrX f == 0x011) = true) : buildCsrw f = .spilllWrite f := by
  simp only [Bool.and_eq_true, beq_iff_eq] at h
  simp [buildCsrw, h.1, h.2]

theorem buildCsrw_fairt {f : Frame} (h : (f.isM && csrX f == 0x100) = true) : buildCsrw f = .fairtWrite f := by
  simp only [Bool.and_eq_true, beq_iff_eq] at h
  simp [buildCsrw, h.1, h.2]

theorem buildCsrw_mestat {f : Frame} (hm : f.isM = true) (h : [0x400, 0x401, 0x402, 0x403].contains (csrX f) = true) :
    buildCsrw f = if csrwDisc f then .mestatDiscard f else .mestatHaltResume f := by
  simp only [List.contains_eq_mem, List.mem_cons, List.not_mem_nil, or_false, decide_eq_true_eq] at h
  unfold buildCsrw
  rw [if_pos hm]
  obtain h | h | h | h := h <;> rw [h] <;> rfl

theorem buildCsrw_haltResume {f : Frame}
    (h : (f.isM && [0x400, 0x401, 0x402, 0x403].contains (csrX f) && !csrwDisc f) = true) :
    buildCsrw f = .mestatHaltResume f := by
  simp only [Bool.and_eq_true] at h
  rw [buildCsrw_mestat h.1.1 h.1.2, if_neg (by simpa using h.2)]

theorem buildCsrw_discard {f : Frame}
    (h : (f.isM && [0x400, 0x401, 0x402, 0x403].contains (csrX f) && csrwDisc f) = true) :
    buildCsrw f = .mestatDiscard f := by
  simp only [Bool.and_eq_true] at h
  rw [buildCsrw_mestat h.1.1 h.1.2, if_pos h.2]

/-! ### The decoder on an encoded instruction -/

theorem codeOf_mem {op minor : Nat} {k : Code} (h : codeOf op minor = some k) :
    k ∈ codeTable ∧ k.op = op ∧ k.minor = minor := by
  have h1 := List.mem_of_find?_eq_some h
  have h2 := List.find?_some h
  simp only [Bool.and_eq_true, beq_iff_eq] at h2
  exact ⟨h1, h2.1, h2.2⟩

theorem codeTable_small : codeTable.all (fun k => decide (k.op < 256 ∧ k.minor < 16)) = true := by decide +kernel

/-- R41: where the builder gives a well-formed instruction back from its own fields, the decoder does. -/
theorem decode_of_build {u : Unit2} {i : Instr} {e : Desc} (hd : descOf u i = some e) (hw : i.wf u = true)
    (hb : build e.raw = some i) (rest : List Byte) :
    decode u (toLe e.f.form.bytes e.raw.toBits.toNat ++ rest) = .ok (i, rest) := by
  simp only [Instr.wf, hd, Bool.and_eq_true] at hw
  obtain ⟨⟨h1, h2⟩, h3⟩ := hw
  refine decode_bytes u e.raw i rest (Desc.spelled_fits h3) ?_
  cases hk : codeOf e.op e.minor with
  | none => simp [hk] at h1
  | some k =>
    simp only [hk] at h1
    obtain ⟨hm, ho, hn⟩ := codeOf_mem hk
    have hsm := List.all_eq_true.1 codeTable_small k hm
    simp only [decide_eq_true_eq, ho, hn] at hsm
    have hop : e.raw.op.toNat = e.op := by
      show (BitVec.ofNat 8 e.op).toNat = e.op
      rw [BitVec.toNat_ofNat]; exact Nat.mod_eq_of_lt hsm.1
    have hmi : e.raw.minor.toNat = e.minor := by
      show (BitVec.ofNat 4 e.minor).toNat = e.minor
      rw [BitVec.toNat_ofNat]; exact Nat.mod_eq_of_lt hsm.2
    have hmaj : majorAssigned e.op = true := by
      unfold majorAssigned
      rw [List.any_eq_true]
      exact ⟨k, hm, by simp [ho]⟩
    have hck : e.check u = none := by simpa using h2
    have hacc : k.accepts u e.raw.form = true := h1
    unfold decodeRaw decodeWith
    simp only [hop, hmi, hmaj, hk, hacc, hb, hd, hck]
    rfl

end Sys2Proof
end

