-- ==== Sys2Proof/Laws/PerInstr.lean ====
section
/-! SUPPORT. The family `Encoding`: every well-formed coded instruction decodes from its own bytes, and an event of the
machine has none. One lemma per constructor of `Instr`. -/

namespace Sys2Proof.Laws

/-- R27 to R42: in a unit that decodes it, an instruction is read back from its bytes with every operand and modifier,
whatever bytes come after; an instruction without bytes has no description. -/
def Encoding.Statement (i : Instr) : Prop :=
  ∀ u, i.wf u = true →
    match encodeBytes u i with
    | some bs => ∀ rest, decode u (bs ++ rest) = .ok (i, rest)
    | none => descOf u i = none

theorem Encoding.of_event {i : Instr} (hw : descOf .w i = none) (hc : descOf .c i = none) : Encoding.Statement i := by
  intro u _
  cases u
  · simp only [encodeBytes, hw, Option.map_none]
  · simp only [encodeBytes, hc, Option.map_none]

theorem Encoding.of_build {i : Instr}
    (h : ∀ u e, descOf u i = some e → e.spelled = true → e.check5 = true → build e.raw = some i) :
    Encoding.Statement i := by
  intro u hw
  cases hd : descOf u i with
  | none => simp only [encodeBytes, hd, Option.map_none]
  | some e =>
    simp only [encodeBytes, hd, Option.map_some]
    intro rest
    have hw2 := hw
    simp only [Instr.wf, hd, Bool.and_eq_true] at hw2
    obtain ⟨⟨_, h2⟩, h3⟩ := hw2
    refine decode_of_build hd hw (h u e hd h3 ?_) rest
    cases hn : e.check5 with
    | true => rfl
    | false => simp [Desc.check, hn] at h2

theorem Encoding.iadd (f : Frame) (ty : IntTy) (sat : Bool) : Encoding.Statement (.iadd f ty sat) :=
  Encoding.of_build fun u e hd hs h5 => by
    cases hd
    exact Raw.tySat_eq (Desc.frame_eq hs rfl rfl) rfl

theorem Encoding.isub (f : Frame) (ty : IntTy) (sat : Bool) : Encoding.Statement (.isub f ty sat) :=
  Encoding.of_build fun u e hd hs h5 => by
    cases hd
    exact Raw.tySat_eq (Desc.frame_eq hs rfl rfl) rfl

theorem Encoding.iaddc (f : Frame) (pd : BitVec 3) : Encoding.Statement (.iaddc f pd) :=
  Encoding.of_build fun u e hd hs h5 => by
    cases hd
    exact Raw.iaddc_eq (Desc.frame_eq hs rfl rfl) rfl

theorem Encoding.isubb (f : Frame) (pd : BitVec 3) : Encoding.Statement (.isubb f pd) :=
  Encoding.of_build fun u e hd hs h5 => by
    cases hd
    exact Raw.isubb_eq (Desc.frame_eq hs rfl rfl) rfl

theorem Encoding.iadd64 (f : Frame) (ty : IntTy) (sat : Bool) : Encoding.Statement (.iadd64 f ty sat) :=
  Encoding.of_build fun u e hd hs h5 => by
    cases hd
    exact Raw.tySat_eq (Desc.frame_eq hs rfl rfl) rfl

theorem Encoding.imul (f : Frame) (ty : IntTy) (sat : Bool) : Encoding.Statement (.imul f ty sat) :=
  Encoding.of_build fun u e hd hs h5 => by
    cases hd
    exact Raw.tySat_eq (Desc.frame_eq hs rfl rfl) rfl

theorem Encoding.imulhi (f : Frame) (ty : IntTy) : Encoding.Statement (.imulhi f ty) :=
  Encoding.of_build fun u e hd hs h5 => by
    cases hd
    exact Raw.tyOnly_eq (Desc.frame_eq hs rfl rfl) rfl

theorem Encoding.imad (f : Frame) (ty : IntTy) (sat : Bool) : Encoding.Statement (.imad f ty sat) :=
  Encoding.of_build fun u e hd hs h5 => by
    cases hd
    exact Raw.tySat_eq (Desc.frame_eq hs rfl rfl) rfl

theorem Encoding.imadw (f : Frame) (ty : IntTy) : Encoding.Statement (.imadw f ty) :=
  Encoding.of_build fun u e hd hs h5 => by
    cases hd
    exact Raw.tyOnly_eq (Desc.frame_eq hs rfl rfl) rfl

theorem Encoding.idiv (f : Frame) (ty : IntTy) (sat : Bool) : Encoding.Statement (.idiv f ty sat) :=
  Encoding.of_build fun u e hd hs h5 => by
    cases hd
    exact Raw.tySat_eq (Desc.frame_eq hs rfl rfl) rfl

theorem Encoding.irem (f : Frame) (ty : IntTy) : Encoding.Statement (.irem f ty) :=
  Encoding.of_build fun u e hd hs h5 => by
    cases hd
    exact Raw.tyOnly_eq (Desc.frame_eq hs rfl rfl) rfl

theorem Encoding.imin (f : Frame) (ty : IntTy) : Encoding.Statement (.imin f ty) :=
  Encoding.of_build fun u e hd hs h5 => by
    cases hd
    exact Raw.tyOnly_eq (Desc.frame_eq hs rfl rfl) rfl

theorem Encoding.imax (f : Frame) (ty : IntTy) : Encoding.Statement (.imax f ty) :=
  Encoding.of_build fun u e hd hs h5 => by
    cases hd
    exact Raw.tyOnly_eq (Desc.frame_eq hs rfl rfl) rfl

theorem Encoding.iabs (f : Frame) (sat : Bool) : Encoding.Statement (.iabs f sat) :=
  Encoding.of_build fun u e hd hs h5 => by
    cases hd
    exact Raw.iabs_eq (Desc.frame_eq hs rfl rfl) rfl

theorem Encoding.ineg (f : Frame) (sat : Bool) : Encoding.Statement (.ineg f sat) :=
  Encoding.of_build fun u e hd hs h5 => by
    cases hd
    exact Raw.ineg_eq (Desc.frame_eq hs rfl rfl) rfl

theorem Encoding.and (f : Frame) (ty : IntTy) : Encoding.Statement (.and f ty) :=
  Encoding.of_build fun u e hd hs h5 => by
    cases hd
    exact Raw.tyOnly_eq (Desc.frame_eq hs rfl rfl) rfl

theorem Encoding.or (f : Frame) (ty : IntTy) : Encoding.Statement (.or f ty) :=
  Encoding.of_build fun u e hd hs h5 => by
    cases hd
    exact Raw.tyOnly_eq (Desc.frame_eq hs rfl rfl) rfl

theorem Encoding.xor (f : Frame) (ty : IntTy) : Encoding.Statement (.xor f ty) :=
  Encoding.of_build fun u e hd hs h5 => by
    cases hd
    exact Raw.tyOnly_eq (Desc.frame_eq hs rfl rfl) rfl

theorem Encoding.andn (f : Frame) (ty : IntTy) : Encoding.Statement (.andn f ty) :=
  Encoding.of_build fun u e hd hs h5 => by
    cases hd
    exact Raw.tyOnly_eq (Desc.frame_eq hs rfl rfl) rfl

theorem Encoding.not (f : Frame) (ty : IntTy) : Encoding.Statement (.not f ty) :=
  Encoding.of_build fun u e hd hs h5 => by
    cases hd
    exact Raw.tyOnly_eq (Desc.frame_eq hs rfl rfl) rfl

theorem Encoding.shl (f : Frame) : Encoding.Statement (.shl f) :=
  Encoding.of_build fun u e hd hs h5 => by
    cases hd
    exact Raw.shl_eq (Desc.frame_eq hs rfl rfl) rfl

theorem Encoding.shr (f : Frame) : Encoding.Statement (.shr f) :=
  Encoding.of_build fun u e hd hs h5 => by
    cases hd
    exact Raw.shr_eq (Desc.frame_eq hs rfl rfl) rfl

theorem Encoding.sar (f : Frame) : Encoding.Statement (.sar f) :=
  Encoding.of_build fun u e hd hs h5 => by
    cases hd
    exact Raw.sar_eq (Desc.frame_eq hs rfl rfl) rfl

theorem Encoding.rol (f : Frame) : Encoding.Statement (.rol f) :=
  Encoding.of_build fun u e hd hs h5 => by
    cases hd
    exact Raw.rol_eq (Desc.frame_eq hs rfl rfl) rfl

theorem Encoding.shl64 (f : Frame) : Encoding.Statement (.shl64 f) :=
  Encoding.of_build fun u e hd hs h5 => by
    cases hd
    exact Raw.shl64_eq (Desc.frame_eq hs rfl rfl) rfl

theorem Encoding.shr64 (f : Frame) (ty : IntTy) : Encoding.Statement (.shr64 f ty) :=
  Encoding.of_build fun u e hd hs h5 => by
    cases hd
    exact Raw.tyOnly_eq (Desc.frame_eq hs rfl rfl) rfl

theorem Encoding.popc (f : Frame) (ty : IntTy) : Encoding.Statement (.popc f ty) :=
  Encoding.of_build fun u e hd hs h5 => by
    cases hd
    exact Raw.tyOnly_eq (Desc.frame_eq hs rfl rfl) rfl

theorem Encoding.clz (f : Frame) (ty : IntTy) : Encoding.Statement (.clz f ty) :=
  Encoding.of_build fun u e hd hs h5 => by
    cases hd
    exact Raw.tyOnly_eq (Desc.frame_eq hs rfl rfl) rfl

theorem Encoding.ctz (f : Frame) (ty : IntTy) : Encoding.Statement (.ctz f ty) :=
  Encoding.of_build fun u e hd hs h5 => by
    cases hd
    exact Raw.tyOnly_eq (Desc.frame_eq hs rfl rfl) rfl

theorem Encoding.brev (f : Frame) (ty : IntTy) : Encoding.Statement (.brev f ty) :=
  Encoding.of_build fun u e hd hs h5 => by
    cases hd
    exact Raw.tyOnly_eq (Desc.frame_eq hs rfl rfl) rfl

theorem Encoding.bfe (f : Frame) (ty : IntTy) (imm : Bool) : Encoding.Statement (.bfe f ty imm) :=
  Encoding.of_build fun u e hd hs h5 => by
    cases hd
    exact Raw.bfe_eq (Desc.frame_eq hs rfl rfl) rfl

theorem Encoding.bfi (f : Frame) (imm : Bool) : Encoding.Statement (.bfi f imm) :=
  Encoding.of_build fun u e hd hs h5 => by
    cases hd
    exact Raw.bfi_eq (Desc.frame_eq hs rfl rfl) rfl

theorem Encoding.perm (f : Frame) (imm : Bool) : Encoding.Statement (.perm f imm) :=
  Encoding.of_build fun u e hd hs h5 => by
    cases hd
    exact Raw.perm_eq (Desc.frame_eq hs rfl rfl) rfl

theorem Encoding.sel (f : Frame) (ty : IntTy) (neg : Bool) (ps : BitVec 3) : Encoding.Statement (.sel f ty neg ps) :=
  Encoding.of_build fun u e hd hs h5 => by
    cases hd
    exact Raw.sel_eq (Desc.frame_eq hs rfl rfl) rfl

theorem Encoding.icmp (f : Frame) (ty : IntTy) (cc : ICond) : Encoding.Statement (.icmp f ty cc) :=
  Encoding.of_build fun u e hd hs h5 => by
    cases hd
    exact Raw.icmp_eq (Desc.frame_eq hs rfl rfl) rfl

theorem Encoding.mov (f : Frame) (ty : IntTy) : Encoding.Statement (.mov f ty) :=
  Encoding.of_build fun u e hd hs h5 => by
    cases hd
    exact Raw.tyOnly_eq (Desc.frame_eq hs rfl rfl) rfl

theorem Encoding.movi (f : Frame) (ty : IntTy) : Encoding.Statement (.movi f ty) :=
  Encoding.of_build fun u e hd hs h5 => by
    cases hd
    exact Raw.tyOnly_eq (Desc.frame_eq hs rfl rfl) rfl

theorem Encoding.lea (f : Frame) (ty : IntTy) (sc : Scale) : Encoding.Statement (.lea f ty sc) :=
  Encoding.of_build fun u e hd hs h5 => by
    cases hd
    exact Raw.lea_eq (Desc.frame_eq hs rfl rfl) rfl

theorem Encoding.dp4 (f : Frame) (ty : IntTy) (sat : Bool) (sa : Bool) (sb : Bool) : Encoding.Statement (.dp4 f ty sat sa sb) :=
  Encoding.of_build fun u e hd hs h5 => by
    cases hd
    exact Raw.dp4_eq (Desc.frame_eq hs rfl rfl) rfl

theorem Encoding.shfl (f : Frame) (ty : IntTy) (mode : ShflMode) : Encoding.Statement (.shfl f ty mode) :=
  Encoding.of_build fun u e hd hs h5 => by
    cases hd
    exact Raw.shfl_eq (Desc.frame_eq hs rfl rfl) rfl

theorem Encoding.vote (f : Frame) (mode : VoteMode) : Encoding.Statement (.vote f mode) :=
  Encoding.of_build fun u e hd hs h5 => by
    cases hd
    exact Raw.vote_eq (Desc.frame_eq hs rfl rfl) rfl

theorem Encoding.redux (f : Frame) (ty : IntTy) (ftz : Bool) (op : ReduxOp) (rnd : Rnd) : Encoding.Statement (.redux f ty ftz op rnd) :=
  Encoding.of_build fun u e hd hs h5 => by
    cases hd
    have ho := Desc.ok_of h5
    replace ho : (_ && _ && (rnd == .rne || (ty == .f32 && !f.isS)) && _) = true := ho
    simp only [Bool.and_eq_true] at ho
    refine Raw.redux_eq (Desc.frameX_eq hs rfl (Desc.x_unused h5 rfl)) rfl ?_
    show (if f.isS then 0 else 0#19 ++ rnd.toBits) = _
    cases hf : f.isS with
    | false => rfl
    | true =>
      have hr : rnd = .rne := by simpa [hf] using ho.1.2
      rw [hr]; rfl

theorem Encoding.fadd (f : Frame) (ty : FTy) (rnd : Rnd) (sat : Bool) (ftz : Bool) : Encoding.Statement (.fadd f ty rnd sat ftz) :=
  Encoding.of_build fun u e hd hs h5 => by
    cases hd
    exact Raw.fpFull_eq (Desc.frame_eq hs rfl rfl) rfl

theorem Encoding.fsub (f : Frame) (ty : FTy) (rnd : Rnd) (sat : Bool) (ftz : Bool) : Encoding.Statement (.fsub f ty rnd sat ftz) :=
  Encoding.of_build fun u e hd hs h5 => by
    cases hd
    exact Raw.fpFull_eq (Desc.frame_eq hs rfl rfl) rfl

theorem Encoding.fmul (f : Frame) (ty : FTy) (rnd : Rnd) (sat : Bool) (ftz : Bool) : Encoding.Statement (.fmul f ty rnd sat ftz) :=
  Encoding.of_build fun u e hd hs h5 => by
    cases hd
    exact Raw.fpFull_eq (Desc.frame_eq hs rfl rfl) rfl

theorem Encoding.ffma (f : Frame) (ty : FTy) (rnd : Rnd) (sat : Bool) (ftz : Bool) : Encoding.Statement (.ffma f ty rnd sat ftz) :=
  Encoding.of_build fun u e hd hs h5 => by
    cases hd
    exact Raw.fpFull_eq (Desc.frame_eq hs rfl rfl) rfl

theorem Encoding.fmin (f : Frame) (ty : FTy) (ftz : Bool) : Encoding.Statement (.fmin f ty ftz) :=
  Encoding.of_build fun u e hd hs h5 => by
    cases hd
    exact Raw.fpFtz_eq (Desc.frame_eq hs rfl rfl) rfl

theorem Encoding.fmax (f : Frame) (ty : FTy) (ftz : Bool) : Encoding.Statement (.fmax f ty ftz) :=
  Encoding.of_build fun u e hd hs h5 => by
    cases hd
    exact Raw.fpFtz_eq (Desc.frame_eq hs rfl rfl) rfl

theorem Encoding.fcmp (f : Frame) (ty : FTy) (cc : FCond) (ftz : Bool) : Encoding.Statement (.fcmp f ty cc ftz) :=
  Encoding.of_build fun u e hd hs h5 => by
    cases hd
    exact Raw.fcmp_eq (Desc.frame_eq hs rfl rfl) rfl

theorem Encoding.fclass (f : Frame) (ty : FTy) (ftz : Bool) : Encoding.Statement (.fclass f ty ftz) :=
  Encoding.of_build fun u e hd hs h5 => by
    cases hd
    exact Raw.fpFtz_eq (Desc.frame_eq hs rfl rfl) rfl

theorem Encoding.frnd (f : Frame) (ty : FTy) (rnd : Rnd) (ftz : Bool) : Encoding.Statement (.frnd f ty rnd ftz) :=
  Encoding.of_build fun u e hd hs h5 => by
    cases hd
    exact Raw.frnd_eq (Desc.frame_eq hs rfl rfl) rfl

theorem Encoding.fldexp (f : Frame) (ty : FTy) (rnd : Rnd) (sat : Bool) (ftz : Bool) : Encoding.Statement (.fldexp f ty rnd sat ftz) :=
  Encoding.of_build fun u e hd hs h5 => by
    cases hd
    exact Raw.fpFull_eq (Desc.frame_eq hs rfl rfl) rfl

theorem Encoding.frcp (f : Frame) (ty : FTy) (rnd : Rnd) (sat : Bool) (ftz : Bool) : Encoding.Statement (.frcp f ty rnd sat ftz) :=
  Encoding.of_build fun u e hd hs h5 => by
    cases hd
    exact Raw.fpFull_eq (Desc.frame_eq hs rfl rfl) rfl

theorem Encoding.frsq (f : Frame) (ty : FTy) (rnd : Rnd) (sat : Bool) (ftz : Bool) : Encoding.Statement (.frsq f ty rnd sat ftz) :=
  Encoding.of_build fun u e hd hs h5 => by
    cases hd
    exact Raw.fpFull_eq (Desc.frame_eq hs rfl rfl) rfl

theorem Encoding.fsqrt (f : Frame) (ty : FTy) (rnd : Rnd) (sat : Bool) (ftz : Bool) : Encoding.Statement (.fsqrt f ty rnd sat ftz) :=
  Encoding.of_build fun u e hd hs h5 => by
    cases hd
    exact Raw.fpFull_eq (Desc.frame_eq hs rfl rfl) rfl

theorem Encoding.fdiv (f : Frame) (ty : FTy) (rnd : Rnd) (sat : Bool) (ftz : Bool) : Encoding.Statement (.fdiv f ty rnd sat ftz) :=
  Encoding.of_build fun u e hd hs h5 => by
    cases hd
    exact Raw.fpFull_eq (Desc.frame_eq hs rfl rfl) rfl

theorem Encoding.fexp2 (f : Frame) (ty : FTy) (rnd : Rnd) (sat : Bool) (ftz : Bool) : Encoding.Statement (.fexp2 f ty rnd sat ftz) :=
  Encoding.of_build fun u e hd hs h5 => by
    cases hd
    exact Raw.fpFull_eq (Desc.frame_eq hs rfl rfl) rfl

theorem Encoding.flog2 (f : Frame) (ty : FTy) (rnd : Rnd) (sat : Bool) (ftz : Bool) : Encoding.Statement (.flog2 f ty rnd sat ftz) :=
  Encoding.of_build fun u e hd hs h5 => by
    cases hd
    exact Raw.fpFull_eq (Desc.frame_eq hs rfl rfl) rfl

theorem Encoding.fsin (f : Frame) (ty : FTy) (rnd : Rnd) (sat : Bool) (ftz : Bool) : Encoding.Statement (.fsin f ty rnd sat ftz) :=
  Encoding.of_build fun u e hd hs h5 => by
    cases hd
    exact Raw.fpFull_eq (Desc.frame_eq hs rfl rfl) rfl

theorem Encoding.fcos (f : Frame) (ty : FTy) (rnd : Rnd) (sat : Bool) (ftz : Bool) : Encoding.Statement (.fcos f ty rnd sat ftz) :=
  Encoding.of_build fun u e hd hs h5 => by
    cases hd
    exact Raw.fpFull_eq (Desc.frame_eq hs rfl rfl) rfl

theorem Encoding.hadd2 (f : Frame) (ty : FTy) (rnd : Rnd) (sat : Bool) (ftz : Bool) : Encoding.Statement (.hadd2 f ty rnd sat ftz) :=
  Encoding.of_build fun u e hd hs h5 => by
    cases hd
    exact Raw.fpFull_eq (Desc.frame_eq hs rfl rfl) rfl

theorem Encoding.hmul2 (f : Frame) (ty : FTy) (rnd : Rnd) (sat : Bool) (ftz : Bool) : Encoding.Statement (.hmul2 f ty rnd sat ftz) :=
  Encoding.of_build fun u e hd hs h5 => by
    cases hd
    exact Raw.fpFull_eq (Desc.frame_eq hs rfl rfl) rfl

theorem Encoding.hfma2 (f : Frame) (ty : FTy) (rnd : Rnd) (sat : Bool) (ftz : Bool) : Encoding.Statement (.hfma2 f ty rnd sat ftz) :=
  Encoding.of_build fun u e hd hs h5 => by
    cases hd
    exact Raw.fpFull_eq (Desc.frame_eq hs rfl rfl) rfl

theorem Encoding.hdot2 (f : Frame) (ty : FTy) (dt : Bool) (rnd : Rnd) (sat : Bool) (ftz : Bool) : Encoding.Statement (.hdot2 f ty dt rnd sat ftz) :=
  Encoding.of_build fun u e hd hs h5 => by
    cases hd
    exact Raw.hdot2_eq (Desc.frame_eq hs rfl rfl) rfl

theorem Encoding.cvt (f : Frame) (dt : CvtTy) (st : CvtTy) (rnd : Rnd) (sat : Bool) (ftz : Bool) (sel : BitVec 2) (slot : BitVec 3) : Encoding.Statement (.cvt f dt st rnd sat ftz sel slot) :=
  Encoding.of_build fun u e hd hs h5 => by
    cases hd
    have ho := Desc.ok_of h5
    replace ho : cvtOk f dt st rnd sat ftz sel slot = true := ho
    refine Raw.cvt_eq (Desc.frameX_eq hs rfl (Desc.x_unused h5 rfl)) rfl ?_
    show cvtX f st ftz sel slot = _
    unfold cvtX
    cases hf : f.isS with
    | false => rfl
    | true =>
      simp only [cvtOk, hf, Bool.not_true, Bool.false_or, Bool.and_eq_true, beq_iff_eq, Bool.not_eq_true'] at ho
      obtain ⟨⟨⟨⟨_, h⟩, _⟩, _⟩, _⟩ := ho
      rw [h.1.1.1.2, h.1.1.2, h.1.2, h.2]; rfl

theorem Encoding.qpack (f : Frame) (slot : BitVec 3) : Encoding.Statement (.qpack f slot) :=
  Encoding.of_build fun u e hd hs h5 => by
    cases hd
    exact Raw.qpack_eq (Desc.frame_eq hs rfl rfl) rfl

theorem Encoding.qunpk (f : Frame) (slot : BitVec 3) (ty : FTy) : Encoding.Statement (.qunpk f slot ty) :=
  Encoding.of_build fun u e hd hs h5 => by
    cases hd
    exact Raw.qunpk_eq (Desc.frame_eq hs rfl rfl) rfl

theorem Encoding.bra (f : Frame) : Encoding.Statement (.bra f) :=
  Encoding.of_build fun u e hd hs h5 => by
    cases hd
    exact Raw.plain_eq (Desc.frame_eq hs rfl rfl) rfl

theorem Encoding.brx (f : Frame) : Encoding.Statement (.brx f) :=
  Encoding.of_build fun u e hd hs h5 => by
    cases hd
    exact Raw.plain_eq (Desc.frame_eq hs rfl rfl) rfl

theorem Encoding.call (f : Frame) : Encoding.Statement (.call f) :=
  Encoding.of_build fun u e hd hs h5 => by
    cases hd
    exact Raw.plain_eq (Desc.frame_eq hs rfl rfl) rfl

theorem Encoding.callx (f : Frame) : Encoding.Statement (.callx f) :=
  Encoding.of_build fun u e hd hs h5 => by
    cases hd
    exact Raw.plain_eq (Desc.frame_eq hs rfl rfl) rfl

theorem Encoding.ret (f : Frame) : Encoding.Statement (.ret f) :=
  Encoding.of_build fun u e hd hs h5 => by
    cases hd
    exact Raw.plain_eq (Desc.frame_eq hs rfl rfl) rfl

theorem Encoding.kset (f : Frame) (or : Bool) : Encoding.Statement (.kset f or) :=
  Encoding.of_build fun u e hd hs h5 => by
    cases hd
    exact Raw.bit53_eq (Desc.frame_eq hs rfl rfl) rfl

theorem Encoding.kclr (f : Frame) (sel : Bool) : Encoding.Statement (.kclr f sel) :=
  Encoding.of_build fun u e hd hs h5 => by
    cases hd
    exact Raw.bit53_eq (Desc.frame_eq hs rfl rfl) rfl

theorem Encoding.join (f : Frame) : Encoding.Statement (.join f) :=
  Encoding.of_build fun u e hd hs h5 => by
    cases hd
    exact Raw.plain_eq (Desc.frame_eq hs rfl rfl) rfl

theorem Encoding.wsync (f : Frame) : Encoding.Statement (.wsync f) :=
  Encoding.of_build fun u e hd hs h5 => by
    cases hd
    exact Raw.plain_eq (Desc.frame_eq hs rfl rfl) rfl

theorem Encoding.exit (f : Frame) : Encoding.Statement (.exit f) :=
  Encoding.of_build fun u e hd hs h5 => by
    cases hd
    exact Raw.plain_eq (Desc.frame_eq hs rfl rfl) rfl

theorem Encoding.yield (f : Frame) : Encoding.Statement (.yield f) :=
  Encoding.of_build fun u e hd hs h5 => by
    cases hd
    exact Raw.plain_eq (Desc.frame_eq hs rfl rfl) rfl

theorem Encoding.nop (f : Frame) : Encoding.Statement (.nop f) :=
  Encoding.of_build fun u e hd hs h5 => by
    cases hd
    exact Raw.plain_eq (Desc.frame_eq hs rfl rfl) rfl

theorem Encoding.spawn (f : Frame) (flt : Bool) : Encoding.Statement (.spawn f flt) :=
  Encoding.of_build fun u e hd hs h5 => by
    cases hd
    exact Raw.bit53_eq (Desc.frame_eq hs rfl rfl) rfl

theorem Encoding.ld (f : Frame) (m : MemMod) : Encoding.Statement (.ld f m) :=
  Encoding.of_build fun u e hd hs h5 => by
    cases hd
    have ho := Desc.ok_of h5
    replace ho : (m.ord.loadOrd && memCtlOk f m Scope.wavToSys .dev) = true := ho
    simp only [Bool.and_eq_true] at ho
    exact Raw.mem_eq (Desc.frameC_eq hs rfl (Desc.c_unused h5 rfl)) rfl rfl rfl ho.2 (Ord.load_ne ho.1)

theorem Encoding.ldS (f : Frame) (m : MemMod) (win : Bool) : Encoding.Statement (.ldS f m win) :=
  Encoding.of_build fun u e hd hs h5 => by
    cases hd
    have ho := Desc.ok_of h5
    replace ho : (m.ord.loadOrd && memCtlOk f m Scope.wavCor .cor) = true := ho
    simp only [Bool.and_eq_true] at ho
    exact Raw.memWin_eq (Desc.frameC_eq hs rfl (Desc.c_unused h5 rfl)) rfl rfl rfl ho.2 (Ord.load_ne ho.1)

theorem Encoding.ldC (f : Frame) (m : MemMod) : Encoding.Statement (.ldC f m) :=
  Encoding.of_build fun u e hd hs h5 => by
    cases hd
    have ho := Desc.ok_of h5
    replace ho : (m.ord == .plain && memCtlOk f m Scope.wavToSys .dev) = true := ho
    simp only [Bool.and_eq_true] at ho
    exact Raw.mem_eq (Desc.frameC_eq hs rfl (Desc.c_unused h5 rfl)) rfl rfl rfl ho.2 (by rw [eq_of_beq ho.1]; decide)

theorem Encoding.ldr (f : Frame) (m : MemMod) : Encoding.Statement (.ldr f m) :=
  Encoding.of_build fun u e hd hs h5 => by
    cases hd
    have ho := Desc.ok_of h5
    replace ho : (m.ord.loadOrd && memCtlOk f m Scope.wavToSys .dev && _ && _ && _) = true := ho
    simp only [Bool.and_eq_true] at ho
    exact Raw.mem_eq (Desc.frameC_eq hs rfl (Desc.c_unused h5 rfl)) rfl rfl rfl ho.1.1.1.2 (Ord.load_ne ho.1.1.1.1)

theorem Encoding.st (f : Frame) (m : MemMod) : Encoding.Statement (.st f m) :=
  Encoding.of_build fun u e hd hs h5 => by
    cases hd
    have ho := Desc.ok_of h5
    replace ho : (m.ord.storeOrd && memCtlOk f m Scope.wavToSys .dev) = true := ho
    simp only [Bool.and_eq_true] at ho
    exact Raw.mem_eq (Desc.frameC_eq hs rfl (Desc.c_unused h5 rfl)) rfl rfl rfl ho.2 (Ord.store_ne ho.1)

theorem Encoding.stS (f : Frame) (m : MemMod) (win : Bool) : Encoding.Statement (.stS f m win) :=
  Encoding.of_build fun u e hd hs h5 => by
    cases hd
    have ho := Desc.ok_of h5
    replace ho : (m.ord.storeOrd && memCtlOk f m Scope.wavCor .cor) = true := ho
    simp only [Bool.and_eq_true] at ho
    exact Raw.memWin_eq (Desc.frameC_eq hs rfl (Desc.c_unused h5 rfl)) rfl rfl rfl ho.2 (Ord.store_ne ho.1)

theorem Encoding.stc (f : Frame) (m : MemMod) : Encoding.Statement (.stc f m) :=
  Encoding.of_build fun u e hd hs h5 => by
    cases hd
    have ho := Desc.ok_of h5
    replace ho : (m.ord.storeOrd && memCtlOk f m Scope.wavToSys .dev && _ && _ && _) = true := ho
    simp only [Bool.and_eq_true] at ho
    exact Raw.mem_eq (Desc.frameC_eq hs rfl (Desc.c_unused h5 rfl)) rfl rfl rfl ho.1.1.1.2 (Ord.store_ne ho.1.1.1.1)

theorem Encoding.pf (f : Frame) (m : MemMod) : Encoding.Statement (.pf f m) :=
  Encoding.of_build fun u e hd hs h5 => by
    cases hd
    have ho := Desc.ok_of h5
    replace ho : (m.ord == .plain && _ && memCtlOk f m Scope.wavToSys .dev) = true := ho
    simp only [Bool.and_eq_true] at ho
    exact Raw.mem_eq (Desc.frameC_eq hs rfl (Desc.c_unused h5 rfl)) rfl rfl rfl ho.2 (by rw [eq_of_beq ho.1.1]; decide)

theorem Encoding.atom (f : Frame) (op : AtomOp) (ty : AtomTy) (base : Bool) (ctl : AtomCtl) : Encoding.Statement (.atom f op ty base ctl) :=
  Encoding.of_build fun u e hd hs h5 => by
    cases hd
    have ho := Desc.ok_of h5
    replace ho : (_ && atomCtlOk f ctl _ _ _) = true := ho
    exact Raw.atomic_eq (Desc.frameX_eq hs rfl (Desc.x_unused h5 rfl)) rfl (Raw.atomCtl_eq rfl rfl ((Bool.and_eq_true _ _ ▸ ho).2) rfl)

theorem Encoding.atomS (f : Frame) (op : AtomOp) (ty : AtomTy) (win : Bool) (ctl : AtomCtl) : Encoding.Statement (.atomS f op ty win ctl) :=
  Encoding.of_build fun u e hd hs h5 => by
    cases hd
    have ho := Desc.ok_of h5
    replace ho : (_ && atomCtlOk f ctl _ _ _) = true := ho
    exact Raw.atomic_eq (Desc.frameX_eq hs rfl (Desc.x_unused h5 rfl)) rfl (Raw.atomCtl_eq rfl rfl ((Bool.and_eq_true _ _ ▸ ho).2) rfl)

theorem Encoding.cas (f : Frame) (ty : AtomTy) (base : Bool) (ctl : AtomCtl) : Encoding.Statement (.cas f ty base ctl) :=
  Encoding.of_build fun u e hd hs h5 => by
    cases hd
    have ho := Desc.ok_of h5
    replace ho : (_ && atomCtlOk f ctl _ _ _) = true := ho
    exact Raw.cas_eq (Desc.frameX_eq hs rfl (Desc.x_unused h5 rfl)) rfl (Raw.atomCtl_eq rfl rfl ((Bool.and_eq_true _ _ ▸ ho).2) rfl)

theorem Encoding.red (f : Frame) (op : AtomOp) (ty : AtomTy) (base : Bool) (ctl : AtomCtl) : Encoding.Statement (.red f op ty base ctl) :=
  Encoding.of_build fun u e hd hs h5 => by
    cases hd
    have ho := Desc.ok_of h5
    replace ho : (_ && atomCtlOk f ctl _ _ _) = true := ho
    exact Raw.atomic_eq (Desc.frameX_eq hs rfl (Desc.x_unused h5 rfl)) rfl (Raw.atomCtl_eq rfl rfl ((Bool.and_eq_true _ _ ▸ ho).2) rfl)

theorem Encoding.mred (f : Frame) (op : AtomOp) (ty : AtomTy) (base : Bool) (ctl : AtomCtl) : Encoding.Statement (.mred f op ty base ctl) :=
  Encoding.of_build fun u e hd hs h5 => by
    cases hd
    have ho := Desc.ok_of h5
    replace ho : (_ && atomCtlOk f ctl _ _ _) = true := ho
    exact Raw.atomic_eq (Desc.frameX_eq hs rfl (Desc.x_unused h5 rfl)) rfl (Raw.atomCtl_eq rfl rfl ((Bool.and_eq_true _ _ ▸ ho).2) rfl)

theorem Encoding.mcas (f : Frame) (base : Bool) (ctl : AtomCtl) : Encoding.Statement (.mcas f base ctl) :=
  Encoding.of_build fun u e hd hs h5 => by
    cases hd
    have ho := Desc.ok_of h5
    replace ho : (atomCtlOk f ctl _ _ _) = true := ho
    exact Raw.mcas_eq (Desc.frameX_eq hs rfl (Desc.x_unused h5 rfl)) rfl (Raw.atomCtl_eq rfl rfl (ho) rfl)

theorem Encoding.mscale (f : Frame) (rnd : Rnd) (ty : AtomTy) (base : Bool) (ctl : AtomCtl) : Encoding.Statement (.mscale f rnd ty base ctl) :=
  Encoding.of_build fun u e hd hs h5 => by
    cases hd
    have ho := Desc.ok_of h5
    replace ho : (_ && atomCtlOk f ctl _ _ _) = true := ho
    exact Raw.mscale_eq (Desc.frameX_eq hs rfl (Desc.x_unused h5 rfl)) rfl (Raw.atomCtl_eq rfl rfl ((Bool.and_eq_true _ _ ▸ ho).2) rfl)

theorem Encoding.barInit (f : Frame) (rmt : Bool) : Encoding.Statement (.barInit f rmt) :=
  Encoding.of_build fun u e hd hs h5 => by
    cases hd
    exact Raw.bit53_eq (Desc.frame_eq hs rfl rfl) rfl

theorem Encoding.arrive (f : Frame) (ord : SyncOrd) (scope : Scope) (rmt : Bool) : Encoding.Statement (.arrive f ord scope rmt) :=
  Encoding.of_build fun u e hd hs h5 => by
    cases hd
    exact Raw.arrive_eq (Desc.frame_eq hs rfl rfl) rfl

theorem Encoding.expect (f : Frame) (rmt : Bool) : Encoding.Statement (.expect f rmt) :=
  Encoding.of_build fun u e hd hs h5 => by
    cases hd
    exact Raw.bit53_eq (Desc.frame_eq hs rfl rfl) rfl

theorem Encoding.wait (f : Frame) (ord : SyncOrd) (scope : Scope) (rmt : Bool) : Encoding.Statement (.wait f ord scope rmt) :=
  Encoding.of_build fun u e hd hs h5 => by
    cases hd
    exact Raw.wait_eq (Desc.frame_eq hs rfl rfl) rfl

theorem Encoding.cwatch (f : Frame) (rmt : Bool) : Encoding.Statement (.cwatch f rmt) :=
  Encoding.of_build fun u e hd hs h5 => by
    cases hd
    exact Raw.bit53_eq (Desc.frame_eq hs rfl rfl) rfl

theorem Encoding.fence (f : Frame) (ord : SyncOrd) (scope : Scope) : Encoding.Statement (.fence f ord scope) :=
  Encoding.of_build fun u e hd hs h5 => by
    cases hd
    exact Raw.fence_eq (Desc.frame_eq hs rfl rfl) rfl

theorem Encoding.copy (f : Frame) (dg : Bool) (ck : Bool) : Encoding.Statement (.copy f dg ck) :=
  Encoding.of_build fun u e hd hs h5 => by
    cases hd
    exact Raw.copy_eq (Desc.frame_eq hs rfl rfl) rfl

theorem Encoding.halo (f : Frame) : Encoding.Statement (.halo f) :=
  Encoding.of_build fun u e hd hs h5 => by
    cases hd
    exact Raw.plain_eq (Desc.frame_eq hs rfl rfl) rfl

theorem Encoding.gqEnq (f : Frame) (flt : Bool) : Encoding.Statement (.gqEnq f flt) :=
  Encoding.of_build fun u e hd hs h5 => by
    cases hd
    exact Raw.bit53_eq (Desc.frame_eq hs rfl rfl) rfl

theorem Encoding.gqResv (f : Frame) (flt : Bool) : Encoding.Statement (.gqResv f flt) :=
  Encoding.of_build fun u e hd hs h5 => by
    cases hd
    exact Raw.bit53_eq (Desc.frame_eq hs rfl rfl) rfl

theorem Encoding.gqPub (f : Frame) : Encoding.Statement (.gqPub f) :=
  Encoding.of_build fun u e hd hs h5 => by
    cases hd
    exact Raw.plain_eq (Desc.frame_eq hs rfl rfl) rfl

theorem Encoding.gqCfgConfigure (f : Frame) : Encoding.Statement (.gqCfgConfigure f) :=
  Encoding.of_build fun u e hd hs h5 => by
    cases hd
    exact Raw.gqCfgConfigure_eq (Desc.frame_eq hs rfl rfl) rfl

theorem Encoding.gqCfgDisable (f : Frame) : Encoding.Statement (.gqCfgDisable f) :=
  Encoding.of_build fun u e hd hs h5 => by
    cases hd
    exact Raw.gqCfgDisable_eq (Desc.frame_eq hs rfl rfl) rfl

theorem Encoding.gqCfgRelease (f : Frame) : Encoding.Statement (.gqCfgRelease f) :=
  Encoding.of_build fun u e hd hs h5 => by
    cases hd
    exact Raw.gqCfgRelease_eq (Desc.frame_eq hs rfl rfl) rfl

theorem Encoding.gqCfgQuery (f : Frame) : Encoding.Statement (.gqCfgQuery f) :=
  Encoding.of_build fun u e hd hs h5 => by
    cases hd
    exact Raw.gqCfgQuery_eq (Desc.frame_eq hs rfl rfl) rfl

theorem Encoding.rlaunch (f : Frame) : Encoding.Statement (.rlaunch f) :=
  Encoding.of_build fun u e hd hs h5 => by
    cases hd
    exact Raw.rlaunch_eq (Desc.frame_eq hs rfl rfl) rfl

theorem Encoding.rlaunchPrism (f : Frame) : Encoding.Statement (.rlaunchPrism f) :=
  Encoding.of_build fun u e hd hs h5 => by
    cases hd
    exact Raw.rlaunchPrism_eq (Desc.frame_eq hs rfl rfl) rfl

theorem Encoding.rlaunchSusp (f : Frame) : Encoding.Statement (.rlaunchSusp f) :=
  Encoding.of_build fun u e hd hs h5 => by
    cases hd
    exact Raw.rlaunchSusp_eq (Desc.frame_eq hs rfl rfl) rfl

theorem Encoding.rlaunchRes (f : Frame) : Encoding.Statement (.rlaunchRes f) :=
  Encoding.of_build fun u e hd hs h5 => by
    cases hd
    exact Raw.rlaunchRes_eq (Desc.frame_eq hs rfl rfl) rfl

theorem Encoding.rlaunchKill (f : Frame) : Encoding.Statement (.rlaunchKill f) :=
  Encoding.of_build fun u e hd hs h5 => by
    cases hd
    exact Raw.rlaunchKill_eq (Desc.frame_eq hs rfl rfl) rfl

theorem Encoding.rlaunchRepl (f : Frame) : Encoding.Statement (.rlaunchRepl f) :=
  Encoding.of_build fun u e hd hs h5 => by
    cases hd
    exact Raw.rlaunchRepl_eq (Desc.frame_eq hs rfl rfl) rfl

theorem Encoding.wdq (f : Frame) : Encoding.Statement (.wdq f) :=
  Encoding.of_build fun u e hd hs h5 => by
    cases hd
    exact Raw.plain_eq (Desc.frame_eq hs rfl rfl) rfl

theorem Encoding.sweep (f : Frame) : Encoding.Statement (.sweep f) :=
  Encoding.of_build fun u e hd hs h5 => by
    cases hd
    exact Raw.plain_eq (Desc.frame_eq hs rfl rfl) rfl

theorem Encoding.ctxSet (f : Frame) : Encoding.Statement (.ctxSet f) :=
  Encoding.of_build fun u e hd hs h5 => by
    cases hd
    exact Raw.plain_eq (Desc.frame_eq hs rfl rfl) rfl

theorem Encoding.ctxWake (f : Frame) : Encoding.Statement (.ctxWake f) :=
  Encoding.of_build fun u e hd hs h5 => by
    cases hd
    exact Raw.plain_eq (Desc.frame_eq hs rfl rfl) rfl

theorem Encoding.coll (f : Frame) (kind : CollKind) (red : CollRed) : Encoding.Statement (.coll f kind red) :=
  Encoding.of_build fun u e hd hs h5 => by
    cases hd
    exact Raw.coll_eq (Desc.frame_eq hs rfl rfl) rfl

theorem Encoding.mma (f : Frame) (sa : BitVec 3) (sb : BitVec 3) (bh : Bool) : Encoding.Statement (.mma f sa sb bh) :=
  Encoding.of_build fun u e hd hs h5 => by
    cases hd
    exact Raw.mma_eq (Desc.frame_eq hs rfl rfl) rfl

theorem Encoding.mmaZ (f : Frame) (sa : BitVec 3) (sb : BitVec 3) (bh : Bool) : Encoding.Statement (.mmaZ f sa sb bh) :=
  Encoding.of_build fun u e hd hs h5 => by
    cases hd
    exact Raw.mmaZ_eq (Desc.frame_eq hs rfl rfl) rfl

theorem Encoding.tfetch (f : Frame) (fs : BitVec 3) (q : Bool) : Encoding.Statement (.tfetch f fs q) :=
  Encoding.of_build fun u e hd hs h5 => by
    cases hd
    exact Raw.tfetch_eq (Desc.frame_eq hs rfl rfl) rfl

theorem Encoding.trel (f : Frame) : Encoding.Statement (.trel f) :=
  Encoding.of_build fun u e hd hs h5 => by
    cases hd
    exact Raw.plain_eq (Desc.frame_eq hs rfl rfl) rfl

theorem Encoding.drain (f : Frame) (fs : BitVec 3) : Encoding.Statement (.drain f fs) :=
  Encoding.of_build fun u e hd hs h5 => by
    cases hd
    exact Raw.drain_eq (Desc.frame_eq hs rfl rfl) rfl

theorem Encoding.azero (f : Frame) : Encoding.Statement (.azero f) :=
  Encoding.of_build fun u e hd hs h5 => by
    cases hd
    exact Raw.plain_eq (Desc.frame_eq hs rfl rfl) rfl

theorem Encoding.dqPut (f : Frame) (all : Bool) : Encoding.Statement (.dqPut f all) :=
  Encoding.of_build fun u e hd hs h5 => by
    cases hd
    exact Raw.bit53_eq (Desc.frame_eq hs rfl rfl) rfl

theorem Encoding.gqTake (f : Frame) (nb : Bool) : Encoding.Statement (.gqTake f nb) :=
  Encoding.of_build fun u e hd hs h5 => by
    cases hd
    exact Raw.bit53_eq (Desc.frame_eq hs rfl rfl) rfl

theorem Encoding.mwait (f : Frame) : Encoding.Statement (.mwait f) :=
  Encoding.of_build fun u e hd hs h5 => by
    cases hd
    exact Raw.plain_eq (Desc.frame_eq hs rfl rfl) rfl

theorem Encoding.commit (f : Frame) : Encoding.Statement (.commit f) :=
  Encoding.of_build fun u e hd hs h5 => by
    cases hd
    exact Raw.plain_eq (Desc.frame_eq hs rfl rfl) rfl

theorem Encoding.squash (f : Frame) : Encoding.Statement (.squash f) :=
  Encoding.of_build fun u e hd hs h5 => by
    cases hd
    exact Raw.plain_eq (Desc.frame_eq hs rfl rfl) rfl

theorem Encoding.ldBase (f : Frame) (m : MemMod) : Encoding.Statement (.ldBase f m) :=
  Encoding.of_build fun u e hd hs h5 => by
    cases hd
    have ho := Desc.ok_of h5
    replace ho : (m.ord.loadOrd && memCtlOk f m Scope.wavToSys .dev) = true := ho
    simp only [Bool.and_eq_true] at ho
    exact Raw.mem_eq (Desc.frameC_eq hs rfl (Desc.c_unused h5 rfl)) rfl rfl rfl ho.2 (Ord.load_ne ho.1)

theorem Encoding.stBase (f : Frame) (m : MemMod) : Encoding.Statement (.stBase f m) :=
  Encoding.of_build fun u e hd hs h5 => by
    cases hd
    have ho := Desc.ok_of h5
    replace ho : (m.ord.storeOrd && memCtlOk f m Scope.wavToSys .dev) = true := ho
    simp only [Bool.and_eq_true] at ho
    exact Raw.mem_eq (Desc.frameC_eq hs rfl (Desc.c_unused h5 rfl)) rfl rfl rfl ho.2 (Ord.store_ne ho.1)

theorem Encoding.present (f : Frame) : Encoding.Statement (.present f) :=
  Encoding.of_build fun u e hd hs h5 => by
    cases hd
    exact Raw.plain_eq (Desc.frame_eq hs rfl rfl) rfl

theorem Encoding.tex (f : Frame) : Encoding.Statement (.tex f) :=
  Encoding.of_build fun u e hd hs h5 => by
    cases hd
    exact Raw.plain_eq (Desc.frame_eq hs rfl rfl) rfl

theorem Encoding.texF (f : Frame) : Encoding.Statement (.texF f) :=
  Encoding.of_build fun u e hd hs h5 => by
    cases hd
    exact Raw.plain_eq (Desc.frame_eq hs rfl rfl) rfl

theorem Encoding.texG (f : Frame) : Encoding.Statement (.texG f) :=
  Encoding.of_build fun u e hd hs h5 => by
    cases hd
    exact Raw.plain_eq (Desc.frame_eq hs rfl rfl) rfl

theorem Encoding.texQ (f : Frame) : Encoding.Statement (.texQ f) :=
  Encoding.of_build fun u e hd hs h5 => by
    cases hd
    exact Raw.plain_eq (Desc.frame_eq hs rfl rfl) rfl

theorem Encoding.trace (f : Frame) : Encoding.Statement (.trace f) :=
  Encoding.of_build fun u e hd hs h5 => by
    cases hd
    exact Raw.plain_eq (Desc.frame_eq hs rfl rfl) rfl

theorem Encoding.binPut (f : Frame) : Encoding.Statement (.binPut f) :=
  Encoding.of_build fun u e hd hs h5 => by
    cases hd
    exact Raw.binPut_eq (Desc.frame_eq hs rfl rfl) rfl

theorem Encoding.binPutEnd (f : Frame) : Encoding.Statement (.binPutEnd f) :=
  Encoding.of_build fun u e hd hs h5 => by
    cases hd
    exact Raw.binPutEnd_eq (Desc.frame_eq hs rfl rfl) rfl

theorem Encoding.pxlock (f : Frame) : Encoding.Statement (.pxlock f) :=
  Encoding.of_build fun u e hd hs h5 => by
    cases hd
    exact Raw.plain_eq (Desc.frame_eq hs rfl rfl) rfl

theorem Encoding.pxunlock (f : Frame) (all : Bool) : Encoding.Statement (.pxunlock f all) :=
  Encoding.of_build fun u e hd hs h5 => by
    cases hd
    exact Raw.bit53_eq (Desc.frame_eq hs rfl rfl) rfl

theorem Encoding.csrr (f : Frame) : Encoding.Statement (.csrr f) :=
  Encoding.of_build fun u e hd hs h5 => by
    cases hd
    exact Raw.plain_eq (Desc.frame_eq hs rfl rfl) rfl

theorem Encoding.csrw (f : Frame) : Encoding.Statement (.csrw f) :=
  Encoding.of_build fun u e hd hs h5 => by
    cases hd
    have ho := Desc.ok_of h5
    replace ho : (_ && _) = true := ho
    rw [Bool.and_eq_true] at ho
    exact (Raw.plain_eq (Desc.frame_eq hs rfl rfl) rfl).trans (congrArg some (buildCsrw_csrw ho.1))

theorem Encoding.spillbWrite (f : Frame) : Encoding.Statement (.spillbWrite f) :=
  Encoding.of_build fun u e hd hs h5 => by
    cases hd
    have ho := Desc.ok_of h5
    replace ho : (_ && _) = true := ho
    rw [Bool.and_eq_true] at ho
    exact (Raw.plain_eq (Desc.frame_eq hs rfl rfl) rfl).trans (congrArg some (buildCsrw_spillb ho.1))

theorem Encoding.spilllWrite (f : Frame) : Encoding.Statement (.spilllWrite f) :=
  Encoding.of_build fun u e hd hs h5 => by
    cases hd
    have ho := Desc.ok_of h5
    replace ho : (_ && _) = true := ho
    rw [Bool.and_eq_true] at ho
    exact (Raw.plain_eq (Desc.frame_eq hs rfl rfl) rfl).trans (congrArg some (buildCsrw_spilll ho.1))

theorem Encoding.fairtWrite (f : Frame) : Encoding.Statement (.fairtWrite f) :=
  Encoding.of_build fun u e hd hs h5 => by
    cases hd
    have ho := Desc.ok_of h5
    replace ho : (_ && _) = true := ho
    rw [Bool.and_eq_true] at ho
    exact (Raw.plain_eq (Desc.frame_eq hs rfl rfl) rfl).trans (congrArg some (buildCsrw_fairt ho.1))

theorem Encoding.mestatHaltResume (f : Frame) : Encoding.Statement (.mestatHaltResume f) :=
  Encoding.of_build fun u e hd hs h5 => by
    cases hd
    have ho := Desc.ok_of h5
    replace ho : (_ && _) = true := ho
    rw [Bool.and_eq_true] at ho
    exact (Raw.plain_eq (Desc.frame_eq hs rfl rfl) rfl).trans (congrArg some (buildCsrw_haltResume ho.1))

theorem Encoding.mestatDiscard (f : Frame) : Encoding.Statement (.mestatDiscard f) :=
  Encoding.of_build fun u e hd hs h5 => by
    cases hd
    have ho := Desc.ok_of h5
    replace ho : (_ && _) = true := ho
    rw [Bool.and_eq_true] at ho
    exact (Raw.plain_eq (Desc.frame_eq hs rfl rfl) rfl).trans (congrArg some (buildCsrw_discard ho.1))

theorem Encoding.trap (f : Frame) : Encoding.Statement (.trap f) :=
  Encoding.of_build fun u e hd hs h5 => by
    cases hd
    exact Raw.plain_eq (Desc.frame_eq hs rfl rfl) rfl

theorem Encoding.bkpt (f : Frame) : Encoding.Statement (.bkpt f) :=
  Encoding.of_build fun u e hd hs h5 => by
    cases hd
    exact Raw.plain_eq (Desc.frame_eq hs rfl rfl) rfl

theorem Encoding.eret (f : Frame) : Encoding.Statement (.eret f) :=
  Encoding.of_build fun u e hd hs h5 => by
    cases hd
    exact Raw.plain_eq (Desc.frame_eq hs rfl rfl) rfl

theorem Encoding.icinv (f : Frame) : Encoding.Statement (.icinv f) :=
  Encoding.of_build fun u e hd hs h5 => by
    cases hd
    exact Raw.plain_eq (Desc.frame_eq hs rfl rfl) rfl

theorem Encoding.tlbinv (f : Frame) (all : Bool) : Encoding.Statement (.tlbinv f all) :=
  Encoding.of_build fun u e hd hs h5 => by
    cases hd
    exact Raw.bit53_eq (Desc.frame_eq hs rfl rfl) rfl

theorem Encoding.fairnessExpiry (w : Nat) : Encoding.Statement (.fairnessExpiry w) :=
  Encoding.of_event rfl rfl

theorem Encoding.llResultReturn (w : Nat) (lane : Nat) (acc : Nat) (err : Bool) : Encoding.Statement (.llResultReturn w lane acc err) :=
  Encoding.of_event rfl rfl

theorem Encoding.storePerform (w : Nat) (lane : Nat) (acc : Nat) (err : Bool) : Encoding.Statement (.storePerform w lane acc err) :=
  Encoding.of_event rfl rfl

theorem Encoding.homeAtomicPerform (w : Nat) (lane : Nat) (acc : Nat) (err : Bool) : Encoding.Statement (.homeAtomicPerform w lane acc err) :=
  Encoding.of_event rfl rfl

theorem Encoding.serviceWaveRequest (cluster : Nat) : Encoding.Statement (.serviceWaveRequest cluster) :=
  Encoding.of_event rfl rfl

theorem Encoding.cwatchArrival (watch : Nat) : Encoding.Statement (.cwatchArrival watch) :=
  Encoding.of_event rfl rfl

theorem Encoding.queueAccessComplete (w : Nat) : Encoding.Statement (.queueAccessComplete w) :=
  Encoding.of_event rfl rfl

theorem Encoding.feedElementWrite (w : Nat) (stream : Nat) : Encoding.Statement (.feedElementWrite w stream) :=
  Encoding.of_event rfl rfl

theorem Encoding.copyTransfer (op : Nat) : Encoding.Statement (.copyTransfer op) :=
  Encoding.of_event rfl rfl

theorem Encoding.haloStart (op : Nat) : Encoding.Statement (.haloStart op) :=
  Encoding.of_event rfl rfl

theorem Encoding.reservedOpcode (sub : BitVec 8) : Encoding.Statement (.reservedOpcode sub) :=
  Encoding.of_event rfl rfl

theorem Encoding.coreGate (core : Nat) : Encoding.Statement (.coreGate core) :=
  Encoding.of_event rfl rfl

theorem Encoding.coreWake (core : Nat) : Encoding.Statement (.coreWake core) :=
  Encoding.of_event rfl rfl

theorem Encoding.pageWalk (cluster : Nat) : Encoding.Statement (.pageWalk cluster) :=
  Encoding.of_event rfl rfl

theorem Encoding.gatherFiring (cluster : Nat) : Encoding.Statement (.gatherFiring cluster) :=
  Encoding.of_event rfl rfl

theorem Encoding.reservationVoid (cluster : Nat) (queue : Nat) (ticket : Nat) : Encoding.Statement (.reservationVoid cluster queue ticket) :=
  Encoding.of_event rfl rfl

theorem Encoding.gatherFaultRetry (cluster : Nat) (queue : Nat) : Encoding.Statement (.gatherFaultRetry cluster queue) :=
  Encoding.of_event rfl rfl

theorem Encoding.deliveredWavePlace (delivery : Nat) (core : Nat) : Encoding.Statement (.deliveredWavePlace delivery core) :=
  Encoding.of_event rfl rfl

theorem Encoding.wdqServe (op : Nat) : Encoding.Statement (.wdqServe op) :=
  Encoding.of_event rfl rfl

theorem Encoding.sweepStart (die : Nat) : Encoding.Statement (.sweepStart die) :=
  Encoding.of_event rfl rfl

theorem Encoding.sweepChunk (die : Nat) (engine : Nat) : Encoding.Statement (.sweepChunk die engine) :=
  Encoding.of_event rfl rfl

theorem Encoding.chunkStepComplete (die : Nat) (engine : Nat) : Encoding.Statement (.chunkStepComplete die engine) :=
  Encoding.of_event rfl rfl

theorem Encoding.collExecute (op : Nat) (agree : Bool) (failed : Bool) (others : List (Nat × List Word)) : Encoding.Statement (.collExecute op agree failed others) :=
  Encoding.of_event rfl rfl

theorem Encoding.tfetchRowFetch (cluster : Nat) (handle : Nat) (row : Nat) : Encoding.Statement (.tfetchRowFetch cluster handle row) :=
  Encoding.of_event rfl rfl

theorem Encoding.engineMmaExecute (core : Nat) : Encoding.Statement (.engineMmaExecute core) :=
  Encoding.of_event rfl rfl

theorem Encoding.engineDrainExecute (core : Nat) : Encoding.Statement (.engineDrainExecute core) :=
  Encoding.of_event rfl rfl

theorem Encoding.engineAzeroExecute (core : Nat) : Encoding.Statement (.engineAzeroExecute core) :=
  Encoding.of_event rfl rfl

theorem Encoding.commitPublish (set : Nat) : Encoding.Statement (.commitPublish set) :=
  Encoding.of_event rfl rfl

theorem Encoding.setOpen (req : Nat) (set : Nat) : Encoding.Statement (.setOpen req set) :=
  Encoding.of_event rfl rfl

theorem Encoding.prefixEnd (set : Nat) : Encoding.Statement (.prefixEnd set) :=
  Encoding.of_event rfl rfl

theorem Encoding.retireWalk (set : Nat) : Encoding.Statement (.retireWalk set) :=
  Encoding.of_event rfl rfl

theorem Encoding.presentFlip (queue : Nat) : Encoding.Statement (.presentFlip queue) :=
  Encoding.of_event rfl rfl

theorem Encoding.presentGuard (queue : Nat) : Encoding.Statement (.presentGuard queue) :=
  Encoding.of_event rfl rfl

theorem Encoding.presentReadoutDone (index : Nat) : Encoding.Statement (.presentReadoutDone index) :=
  Encoding.of_event rfl rfl

theorem Encoding.flushComplete (die : Nat) (desc : Nat) : Encoding.Statement (.flushComplete die desc) :=
  Encoding.of_event rfl rfl

theorem Encoding.homeMove (frame : Nat) (slice : Nat) : Encoding.Statement (.homeMove frame slice) :=
  Encoding.of_event rfl rfl

theorem Encoding.homeForward (frame : Nat) : Encoding.Statement (.homeForward frame) :=
  Encoding.of_event rfl rfl

theorem Encoding.dependenceMet (rgn : Nat) (index : Nat) : Encoding.Statement (.dependenceMet rgn index) :=
  Encoding.of_event rfl rfl

theorem Encoding.workgroupPlace (rgn : Nat) (core : Nat) : Encoding.Statement (.workgroupPlace rgn core) :=
  Encoding.of_event rfl rfl

theorem Encoding.placementStarvationHold (die : Nat) (rgn : Nat) : Encoding.Statement (.placementStarvationHold die rgn) :=
  Encoding.of_event rfl rfl

theorem Encoding.preemptDecision (rgn : Nat) : Encoding.Statement (.preemptDecision rgn) :=
  Encoding.of_event rfl rfl

theorem Encoding.workgroupSave (wg : Nat) (migrate : Bool) : Encoding.Statement (.workgroupSave wg migrate) :=
  Encoding.of_event rfl rfl

theorem Encoding.workgroupRestore (wg : Nat) (core : Nat) : Encoding.Statement (.workgroupRestore wg core) :=
  Encoding.of_event rfl rfl

theorem Encoding.migrationForward (wg : Nat) : Encoding.Statement (.migrationForward wg) :=
  Encoding.of_event rfl rfl

theorem Encoding.regionEnd (rgn : Nat) : Encoding.Statement (.regionEnd rgn) :=
  Encoding.of_event rfl rfl

theorem Encoding.timeQuotaCharge (core : Nat) : Encoding.Statement (.timeQuotaCharge core) :=
  Encoding.of_event rfl rfl

theorem Encoding.segmentTest (core : Nat) (acc : Bool) (quad : Nat) (seg : Nat) (fail : Bool) : Encoding.Statement (.segmentTest core acc quad seg fail) :=
  Encoding.of_event rfl rfl

theorem Encoding.powerCapStep (above : Bool) : Encoding.Statement (.powerCapStep above) :=
  Encoding.of_event rfl rfl

theorem Encoding.fwLaunch (fn : Nat) (tag : BitVec 16) (rcb : DWord) : Encoding.Statement (.fwLaunch fn tag rcb) :=
  Encoding.of_event rfl rfl

theorem Encoding.fwPrismLaunch (fn : Nat) (tag : BitVec 16) (prism : DWord) :
    Encoding.Statement (.fwPrismLaunch fn tag prism) :=
  Encoding.of_event rfl rfl

theorem Encoding.fwSuspend (fn : Nat) (tag : BitVec 16) (rcb : DWord) : Encoding.Statement (.fwSuspend fn tag rcb) :=
  Encoding.of_event rfl rfl

theorem Encoding.fwResume (fn : Nat) (tag : BitVec 16) (rcb : DWord) : Encoding.Statement (.fwResume fn tag rcb) :=
  Encoding.of_event rfl rfl

theorem Encoding.fwKill (fn : Nat) (tag : BitVec 16) (rcb : DWord) : Encoding.Statement (.fwKill fn tag rcb) :=
  Encoding.of_event rfl rfl

theorem Encoding.fwReplay (fn : Nat) (tag : BitVec 16) (rcb : DWord) (seq : BitVec 16) (all : Bool) :
    Encoding.Statement (.fwReplay fn tag rcb seq all) :=
  Encoding.of_event rfl rfl

theorem Encoding.fwFreeFrames (fn : Nat) (tag : BitVec 16) (rcb frame count : DWord) :
    Encoding.Statement (.fwFreeFrames fn tag rcb frame count) :=
  Encoding.of_event rfl rfl

theorem Encoding.fwSetQuota (fn : Nat) (tag : BitVec 16) (vf : BitVec 8) (rcb : DWord) (pasid : BitVec 20) (partition : BitVec 8) (pq : BitVec 4) (memq timeq : DWord) (regq scrq : Word) (accq : DWord) :
    Encoding.Statement (.fwSetQuota fn tag vf rcb pasid partition pq memq timeq regq scrq accq) :=
  Encoding.of_event rfl rfl

theorem Encoding.fwSetPresent (fn : Nat) (tag : BitVec 16) (en : BitVec 48) (guard : BitVec 16) (intervals : List Word) :
    Encoding.Statement (.fwSetPresent fn tag en guard intervals) :=
  Encoding.of_event rfl rfl

theorem Encoding.fwHomeMove (fn : Nat) (tag : BitVec 16) (frame slice : DWord) :
    Encoding.Statement (.fwHomeMove fn tag frame slice) :=
  Encoding.of_event rfl rfl

theorem Encoding.fwSetL2Mode (fn : Nat) (tag : BitVec 16) (modes : DWord) (data : List Byte) :
    Encoding.Statement (.fwSetL2Mode fn tag modes data) :=
  Encoding.of_event rfl rfl

theorem Encoding.fwSetPower (fn : Nat) (tag : BitVec 16) (limit : DWord) : Encoding.Statement (.fwSetPower fn tag limit) :=
  Encoding.of_event rfl rfl

theorem Encoding.fwAttest (fn : Nat) (tag : BitVec 16) (nonce : BitVec 256) : Encoding.Statement (.fwAttest fn tag nonce) :=
  Encoding.of_event rfl rfl

theorem Encoding.fwWriteSlot (fn : Nat) (tag : BitVec 16) (version rollback length : Word) (image sig : List Byte) :
    Encoding.Statement (.fwWriteSlot fn tag version rollback length image sig) :=
  Encoding.of_event rfl rfl

theorem Encoding.fwConfirm (fn : Nat) (tag : BitVec 16) : Encoding.Statement (.fwConfirm fn tag) :=
  Encoding.of_event rfl rfl

theorem Encoding.fwRollBack (fn : Nat) (tag : BitVec 16) (slot : DWord) (nonce : BitVec 256) (sig : List Byte) :
    Encoding.Statement (.fwRollBack fn tag slot nonce sig) :=
  Encoding.of_event rfl rfl

theorem Encoding.fwReadCounters (fn : Nat) (tag : BitVec 16) : Encoding.Statement (.fwReadCounters fn tag) :=
  Encoding.of_event rfl rfl

theorem Encoding.fwFreeze (fn : Nat) (tag : BitVec 16) : Encoding.Statement (.fwFreeze fn tag) :=
  Encoding.of_event rfl rfl

theorem Encoding.fwInvalidCode (fn : Nat) (tag : BitVec 16) (code : BitVec 8) :
    Encoding.Statement (.fwInvalidCode fn tag code) :=
  Encoding.of_event rfl rfl

theorem Encoding.freezePin : Encoding.Statement .freezePin :=
  Encoding.of_event rfl rfl

theorem Encoding.deviceReset : Encoding.Statement .deviceReset :=
  Encoding.of_event rfl rfl

theorem Encoding.lifetimeCounterFlush : Encoding.Statement .lifetimeCounterFlush :=
  Encoding.of_event rfl rfl

theorem Encoding.hostRequest (fn : Nat) (wr : Bool) (key : Nat) (data : List Byte) (size : Nat) : Encoding.Statement (.hostRequest fn wr key data size) :=
  Encoding.of_event rfl rfl

theorem Encoding.peerRequest (link : Nat) (op : PeerOp) (key : Nat) (data : List Byte) (size : Nat) : Encoding.Statement (.peerRequest link op key data size) :=
  Encoding.of_event rfl rfl

theorem Encoding.atsTranslationResponse (va : HostAddr) (key size : Nat) (rd wr : Bool) :
    Encoding.Statement (.atsTranslationResponse va key size rd wr) :=
  Encoding.of_event rfl rfl

theorem Encoding.atsInvalidateRequest (va : HostAddr) (size : Nat) : Encoding.Statement (.atsInvalidateRequest va size) :=
  Encoding.of_event rfl rfl

theorem Encoding.linkRetrain (link : Nat) : Encoding.Statement (.linkRetrain link) :=
  Encoding.of_event rfl rfl

theorem Encoding.linkDown (link : Nat) : Encoding.Statement (.linkDown link) :=
  Encoding.of_event rfl rfl

theorem Encoding.powerLoss : Encoding.Statement .powerLoss :=
  Encoding.of_event rfl rfl

end Sys2Proof.Laws
end

