-- ==== Sys2Proof/Safety.lean ====
section
/-! DEFINITION. What a safe run is, the invariants of the state that every step keeps, and the words in which the claims
say what an instruction does. -/

namespace Sys2Proof

open Machine

/-- The step goes on: it answers a next state. -/
def StepsOn (s : State) : Prop := ∃ t, step s = .next t

/-- Memory is in its canonical form. -/
def MemInv (s : State) : Prop := Memory.wf s.mem = true

/-- Every PC is 4-aligned (R12). -/
def PcInv (s : State) : Prop := ∀ e ∈ s.waves, ∀ t ∈ e.2.threads, t.pc.toNat % 4 = 0

namespace Machine

/-- Every address at which a thread may go on is 4-aligned: that saved for its handler, those of what it has issued, and that after
what it waits for. -/
def Thread.aligned (t : Thread) : Prop :=
  t.pc.toNat % 4 = 0 ∧ t.epc.toNat % 4 = 0 ∧ (∀ a ∈ t.accs, a.pc.toNat % 4 = 0) ∧
  match t.st with
  | .blocked (.phase _ _ _ _ _ _ pc npc) => pc.toNat % 4 = 0 ∧ npc.toNat % 4 = 0
  | .blocked (.commit _ _ npc) => npc.toNat % 4 = 0
  | _ => True

end Machine

/-- Every address at which a thread may go on, or one may be placed, is 4-aligned (R12): those of the resident and the saved threads,
the entries and the trap handler of each region, and the entries of what delivers waves. -/
def EntryInv (s : State) : Prop :=
  (∀ e ∈ s.waves, ∀ t ∈ e.2.threads, t.aligned) ∧
  (∀ e ∈ s.saved, (∀ x ∈ e.2.waves, ∀ t ∈ x.2.threads, t.aligned) ∧
    ∀ x, e.2.caller = some x → ∀ t ∈ x.threads, t.aligned) ∧
  (∀ e ∈ s.regions,
    e.2.rcb.entry.toNat % 4 = 0 ∧ e.2.rcb.centry.toNat % 4 = 0 ∧ e.2.rcb.trape.toNat % 4 = 0) ∧
  (∀ e ∈ s.clusters, (∀ q ∈ e.2.queues, q.2.entry.toNat % 4 = 0) ∧ ∀ b ∈ e.2.bins, b.2.entry.toNat % 4 = 0) ∧
  (∀ d ∈ s.dies, (∀ b ∈ d.bins, b.entry.toNat % 4 = 0) ∧
    (∀ x ∈ d.sweepQ, dfield x.desc 447 384 % 4 = 0) ∧ ∀ e ∈ d.engines, dfield e.2.desc 447 384 % 4 = 0) ∧
  ∀ d ∈ s.deliveries, d.entry.toNat % 4 = 0

/-- The instruction issues for the unit `cur`: nothing holds it back (R34, R208), its registers lie in the allocation
(R13, R14), and its group acts in the context `c` on `s1`. The context holds the group, the sources as they stand and the
PC; `s1` is the state in which every lane of the path stands at the next instruction. -/
abbrev Begins (i : Instr) (s : State) (c : Ctx) (s1 : State) : Prop := s.startOf i = .go c s1

/-- The same, of an instruction whose requests go to a unit that must have room for them. -/
abbrev BeginsIf (i : Instr) (s : State) (fits : Ctx → State → Bool) (c : Ctx) (s1 : State) : Prop :=
  s.startOf i fits = .go c s1

namespace Machine

/-- What each lane of the group computes, in so many words. -/
def Ctx.results (c : Ctx) (words : Nat) (v : Nat → Nat) : List (Nat × Out) :=
  c.group.map fun l => (l, { d := wordsOf words (v l) })

/-- The state in which each lane's value stands in the destination and the turn is settled (R38, R132). -/
def State.written (s : State) (c : Ctx) (words : Nat) (v : Nat → Nat) : State :=
  (s.writeAll c (c.results words v)).settleTurn c

/-- The state in which each lane's value waits to be written, within the window LA gives (R34). -/
def State.pended (s : State) (c : Ctx) (words : Nat) (v : Nat → Nat) : State :=
  (s.pendAll c (c.results words v)).settleTurn c

/-- The state after the lanes of the group have acted one after another (R163), and the turn is settled. -/
def State.lanes (s : State) (c : Ctx) (g : State → Nat → Lane) : State := (s.eachLane c g).settleTurn c

/-- The state after the lanes of a list have acted, whether an s or k result has been written, and whether a lane of the list
stands at the instruction still. -/
def State.lanesUpTo (s : State) (c : Ctx) (g : State → Nat → Lane) (ls : List Nat) : State × Bool × Bool :=
  ls.foldl (State.laneStep c g) (s, false, false)

/-- The two states differ in their waves alone. -/
def State.sameButWaves (s t : State) : Prop := t = { s with waves := t.waves }

/-- A lane arrives at the wsync instance of a mask, which is made where there is none (R141). -/
def Wave.arriveSync (x : Wave) (m : Word) (lane : Nat) : Wave :=
  if x.syncs.any fun j => j.mask == m then
    { x with syncs := x.syncs.map fun j => if j.mask = m then { j with arrived := j.arrived ||| maskOf [lane] } else j }
  else { x with syncs := x.syncs ++ [⟨m, maskOf [lane]⟩] }

end Machine

end Sys2Proof
end

