-- ==== Sys2Proof/Certificates/Slice0/Obligations.lean ====
section
/-! DEFINITION. The statements for the provers. Each names the rules of the spec it formalises; where it says that an
instruction goes on, it says so for every state and operands for which the instruction issues. -/

open Sys2Proof Sys2Proof.Machine

/-! ### The machine as a whole -/

/-- Memory right after reset is in its canonical form, no thread is resident, and no PC and no entry is misaligned. -/
def Obligations.ResetInv : Prop :=
  MemInv State.reset ∧ PcInv State.reset ∧ EntryInv State.reset ∧ State.reset.waves = [] ∧ State.reset.regions = [] ∧
  State.reset.frozen = false ∧ State.reset.pwrSt = .active ∧ State.reset.pwrLimit = 0x47E ∧
  (∀ d, State.reset.die d = Die.fresh) ∧ (∀ g, State.reset.core g = Core.fresh)

/-- Every step keeps memory in its canonical form: addresses rise strictly and no entry equals what an unlisted address
reads as. -/
def Obligations.StepKeepsMemory : Prop :=
  ∀ s t, MemInv s → step s = .next t → MemInv t

/-- R12: a misaligned PC cannot arise. Every step keeps the PC of every resident thread 4-aligned, and with it every address at which a
thread may go on or be placed: what a handler, a wait or an access that faults late has saved, the saved workgroups, the entries and
the trap handler of each region, and the entries of queues, bins, sweeps and deliveries. -/
def Obligations.StepKeepsPcs : Prop :=
  ∀ s t, PcInv s → EntryInv s → step s = .next t → PcInv t ∧ EntryInv t

/-- R27 to R42: a well-formed instruction is read back from its own bytes with every operand and modifier, for the unit
that decodes it and whatever bytes come after; an event has no bytes. -/
def Obligations.DecodeEncode : Prop := ∀ i, Laws.Encoding.Statement i

/-- No instruction and no event stops the machine: `exec` answers a next state for each of them in every state, and so does
a step. That no arm refuses, and nothing stands where the spec is silent, is the choice of log 59 (DESIGN CHOICE); that an event which
cannot happen now, and an entry of the agenda passed over, leave the state as it is, is log 2's. -/
def Obligations.EveryStepGoesOn : Prop :=
  (∀ i s, ∃ t, exec i s = .next t) ∧ ∀ s, StepsOn s

/-- A step runs the instruction whose bytes stand at the PC of the path that holds the turn (R28, R132), after the clocks
have passed and the block is noted in the wave's fetch buffer; or the event the agenda names. -/
def Obligations.StepRunsDecoded : Prop :=
  (∀ s x l s1 leaf i rest blk, s.frozen = false → s.agenda = [] →
    s.tick.waves.find s.cur = some x → x.turn = some l → s.tick.mayIssue s.cur x = true → x.pathOf l ≠ [] →
    s.tick.translate (x.agent s.cur) (x.threads.getD l .empty).pc.toNat .ex (fun _ => none) = .ok s1 leaf →
    decode x.unit (blk.drop ((x.threads.getD l .empty).pc.toNat % 32)) = .ok (i, rest) →
    (x.fetched = some ((x.threads.getD l .empty).pc.toNat / 32 * 32, blk) → step s = exec i s1) ∧
    (∀ s2, (∀ e, x.fetched = some e → e.1 ≠ (x.threads.getD l .empty).pc.toNat / 32 * 32) →
      s1.fetchBlock s.cur x.rgn
          (s1.hostKey (s1.fnOf x.rgn) (leaf.key + ((x.threads.getD l .empty).pc.toNat / 32 * 32 - leaf.va))) = (s2, blk) →
      step s = exec i { s2 with waves := s2.waves.upd s.cur fun x =>
        { x with fetched := some ((x.threads.getD l .empty).pc.toNat / 32 * 32, blk) } })) ∧
  (∀ s w rest, s.frozen = false → s.agenda = .issue w :: rest →
    step s = issueNext { s.tick with agenda := rest, cur := w }) ∧
  (∀ s i rest, s.frozen = false → s.agenda = .event i :: rest → descOf .w i = none →
    step s = exec i { s.tick with agenda := rest })

/-- R175, R185: the bytes of a fetch block are those of its home, or those that the L0 cache of the unit's quadrant or the
instruction cache of its core holds, the block as a whole; where neither cache holds other bytes than the home, they are those of the
home. Which of them a fetch takes where they differ is free (assumption 27). The block lies at a place no link failure cuts off, meets
no error, and lies in no facet window. Memory and the waves are as they were. -/
def Obligations.FetchReadsMemory : Prop :=
  ∀ (s : State) w rgn key, key % 32 = 0 → s.cutOff key = false → s.poisoned key 32 = false → s.windowOf key = none →
    let l0 := NMap.find (NMap.get [] (s.core (fetchCore w)).l0 (fetchQuad w)) (key / 32)
    let shared := (s.core (fetchCore w)).icache.find (key / 32)
    ((s.fetchBlock w rgn key).2 = s.homeBytes none key 32 ∨
      l0 = some (s.fetchBlock w rgn key).2 ∨ shared = some (s.fetchBlock w rgn key).2) ∧
    ((∀ e, l0 = some e → e = s.homeBytes none key 32) → (∀ e, shared = some e → e = s.homeBytes none key 32) →
      (s.fetchBlock w rgn key).2 = s.homeBytes none key 32) ∧
    (s.fetchBlock w rgn key).1.mem = s.mem ∧ (s.fetchBlock w rgn key).1.waves = s.waves

/-- R54, R56, R144 and the worked encodings of the chapters, word for word: each decodes to the instruction it stands for,
with every operand and modifier. R97 names p1 where its word holds 0x603, which R37 reads as p3: the word is taken as it stands
(assumption 79). -/
def Obligations.WorkedWords : Prop :=
  let fr : Form → Operand → Operand → Operand → Operand → BitVec 21 → Frame := fun form d a b c x =>
    ⟨form, 7, false, 0, 0, d, a, b, c, x, 0⟩
  decodeTableWord 64 0x0000000000001D0C = some (.exit (fr .s (.v 0) (.v 0) (.v 0) (.v 0) 0)) ∧
  decodeTableWord 64 0x2000000000001D0C = some (.nop (fr .s (.v 0) (.v 0) (.v 0) (.v 0) 0)) ∧
  decodeTableWord 64 0x1000000000001D0C = some (.yield (fr .s (.v 0) (.v 0) (.v 0) (.v 0) 0)) ∧
  decodeTableWord 64 0x0320000100301C9C =
    some (.cvt (fr .s (.v 3) (.v 2) (.v 0) (.v 0) 0) .e4m3 .f32 .rne true false 0 0) ∧
  decodeTableWord 96 0x0000060322E01C0280B01C01 = some (.iaddc (fr .m (.v 11) (.v 5) (.v 7) (.p 3) 0) 7) ∧
  decodeTableWord 96 0x42800000_02800C0100001E41 =
    some (.mma (fr .m (.v 0) (.v 2) (.v 3) (.v 0) 0x085000) 1 2 false)


/-! ### Issue, sources and results -/

/-- R13, R33, R34, R36, R132: an instruction of a wave with nothing pending, whose operands name no queue register and lie in
the allocation, issues: its group is the lanes of the path whose guard holds; each lane of the path stands at the next
instruction, running, with its registers, predicates and stacks as they were, and holds no element popped for another; nothing
but the wave, the number of the instruction and the core's `wakerc` changes, and what a fault has its domain do waits for the
group (R163). With one LL result pending in a lane of the group (R34): an instruction that does not name its destination issues
while the window lasts, which is one shorter then; one that names it, or comes after the window, issues as it does once the result is
written, and within the window the wait sets LAV. -/
def Obligations.IssueBegins : Prop :=
  (∀ (s : State) (i : Instr) (e : Desc) (x : Wave) (l : Nat),
    s.waves.find s.cur = some x → x.turn = some l → x.pathOf l ≠ [] → (∀ t ∈ x.threads, t.accs = []) →
    descOf x.unit i = some e → e.rangeFault x.unit x.bound = none → e.queueSrcs = [] → e.queueDst = none →
    ∃ c s1, Begins i s c s1 ∧ s.ctxOf s.cur e = some c ∧ s1 = s.begin c ∧
      c.w = s.cur ∧ c.x = x ∧ c.e = e ∧ c.pc = (x.threads.getD l .empty).pc ∧ c.path = x.pathOf l ∧
      c.group = (x.pathOf l).filter (fun n => (x.threads.getD n .empty).guard e.f) ∧
      (∃ y, s1.waves.find s.cur = some y ∧ y.s = x.s ∧ y.k = x.k ∧ y.wg = x.wg ∧ y.turn = x.turn ∧
        y.threads.length = x.threads.length ∧
        ∀ n t, x.threads[n]? = some t → ∃ t1, y.threads[n]? = some t1 ∧ t1.v = t.v ∧ t1.preds = t.preds ∧
          t1.stack = t.stack ∧ t1.epc = t.epc ∧ t1.mark = t.mark ∧ t1.accs = [] ∧
          (n ∈ c.path → t1.pc = t.pc + BitVec.ofNat 64 e.f.form.bytes ∧ t1.st = .running ∧ t1.popped = []) ∧ (n ∉ c.path → t1 = t)) ∧
      (∀ w, w ≠ s.cur → s1.waves.find w = s.waves.find w) ∧
      s1 = { s with waves := s1.waves, cores := s1.cores, nextId := s.nextId + 1, acts := some (s.acts.getD []) } ∧
      (∀ g, (s1.core g).tlb = (s.core g).tlb ∧ (s1.core g).copies = (s.core g).copies ∧
        (s1.core g).engine = (s.core g).engine)) ∧
  (∀ (s : State) (i : Instr) (e : Desc) (x : Wave) (h l : Nat) (t : Thread) (a : Acc) (d : Dst) (v : List Word),
    s.waves.find s.cur = some x → x.turn = some h → descOf x.unit i = some e →
    l ∈ x.pathOf h → x.threads[l]? = some t → t.guard e.f = true → t.accs = [a] →
    (∀ n u, n ≠ l → x.threads[n]? = some u → u.accs = []) →
    a.kind = .calc → a.parts = [] → a.ord = .plain → a.dst = some d → d.wr = true → a.val = some v →
    (∀ q, d.op ≠ .q q) → Operand.meets x.unit (.p e.f.gp) 1 d.op d.words = false →
    (s.cluster (clusterOfWave s.cur)).svc.contains ⟨s.cur, l, a.id⟩ = false →
    let named := (touches e i).any fun o => o.1.meets x.unit o.2 d.op d.words
    let written (r : State) : State := (r.updThread s.cur l fun t => t.setAcc a.id fun _ => none).putDst s.cur l d.op v
    (a.win = 0 → s.startOf i = (written s).startOf i) ∧
    (a.win ≠ 0 → named = true → s.startOf i = (written (s.updThread s.cur l fun t => { t with lav := true })).startOf i) ∧
    (a.win ≠ 0 → named = false → e.rangeFault x.unit x.bound = none → e.queueSrcs = [] → e.queueDst = none →
      ∃ c, s.ctxOf s.cur e = some c ∧ Begins i s c (s.begin c) ∧
        ∃ t1, (s.begin c).thread? s.cur l = some t1 ∧ t1.accs = [{ a with win := a.win - 1 }] ∧ t1.lav = t.lav))

/-- R41 check 10, R13, R14: an operand that lies beyond the allocation, or is not aligned to its length, faults every lane
of the path with code 0x03; the instruction has no other effect. Where two operands fail differently the subcode is that of the first
in the order D, A, B, C (assumption 11). -/
def Obligations.RegisterRangeFaults : Prop :=
  ∀ (s : State) (i : Instr) (e : Desc) (x : Wave) (l : Nat) (sub : BitVec 8),
    s.waves.find s.cur = some x → x.turn = some l → x.pathOf l ≠ [] → (∀ t ∈ x.threads, t.accs = []) →
    descOf x.unit i = some e → e.rangeFault x.unit x.bound = some sub →
    ∃ c, s.ctxOf s.cur e = some c ∧ c.path = x.pathOf l ∧
      s.startOf i = .stop
        ((c.path.foldl (fun r n => r.raise c.w n c.pc { code := 3, sub := sub }) s.holdActs).settleTurn c) ∧
      (∀ alloc p (n : BitVec 10), rangeOne .w alloc p (.v n) =
        if n.toNat % p.align ≠ 0 then some 2 else if alloc < n.toNat + p.words then some 1 else none) ∧
      (∀ alloc p o, (∀ n, o ≠ .v n) → rangeOne .w alloc p o = none)

/-- R16 to R19, R37, R39, R40, R208, R224: what a source operand reads in each class: the lane's registers, low word first, a
Caller register as 64 bits or its low half; the literal's number; the wave's uniform registers; the element popped from a queue
register; a predicate as 0 or 1, p7 as 1; a rejoin mask; the special registers, of a wave and of the Caller. A read of `$cyclo` by a
thread of the group latches the half that `$cychi` reads, and no other instruction does. -/
def Obligations.SourceOperands : Prop :=
  (∀ (c : Ctx) (l : Nat), c.u = .w →
    (∀ n, c.src l (.v n) 1 = ((c.thread l).reg n.toNat).toNat) ∧
    (∀ n, c.src l (.v n) 2 =
      ((c.thread l).reg n.toNat).toNat + 2 ^ 32 * ((c.thread l).reg (n.toNat + 1)).toNat) ∧
    (∀ n k, c.src l (.k n) k = (NMap.get 0 c.x.k n.toNat).toNat) ∧
    c.src l (.sr 0) 1 = 32 * c.x.wave + l ∧ c.src l (.sr 1) 1 = l ∧ c.src l (.sr 2) 1 = c.x.wave ∧
    c.src l (.sr 4) 1 = c.w / 128 % 96 ∧ (c.w < callerKey → c.src l (.sr 5) 1 = c.w / 512 % 24) ∧
    c.src l (.sr 11) 1 = (maskOf c.group).toNat) ∧
  (∀ (c : Ctx) (l : Nat), c.u = .c →
    (∀ n, c.src l (.v n) 1 = ((c.thread l).reg (2 * n.toNat)).toNat) ∧
    (∀ n, c.src l (.v n) 2 =
      ((c.thread l).reg (2 * n.toNat)).toNat + 2 ^ 32 * ((c.thread l).reg (2 * n.toNat + 1)).toNat) ∧
    c.src l (.sr 0) 1 = 0 ∧ c.src l (.sr 1) 1 = 0 ∧ c.src l (.sr 2) 1 = 0 ∧ c.src l (.sr 4) 1 = 0xFFFFFFFF ∧
    c.src l (.sr 11) 1 = 1) ∧
  (∀ (c : Ctx) (l : Nat),
    (∀ n k, c.src l (.lit n) k = n.toNat) ∧
    (∀ n, c.src l (.s n) 1 = (NMap.get 0 c.x.s n.toNat).toNat) ∧
    (∀ n, c.src l (.s n) 2 =
      (NMap.get 0 c.x.s n.toNat).toNat + 2 ^ 32 * (NMap.get 0 c.x.s (n.toNat + 1)).toNat) ∧
    (∀ (n : BitVec 5) v, c.pops.find? (fun e => e.1 == n.toNat && e.2.1 == l) = some (n.toNat, l, v) →
      c.src l (.q n) 1 = v.toNat) ∧
    (∀ n : BitVec 3, n ≠ 7 → c.src l (.p n) 1 = if (c.thread l).preds.getLsbD n.toNat then 1 else 0) ∧
    c.src l (.p 7) 1 = 1 ∧
    c.src l (.sr 3) 1 = c.wgi ∧
    c.src l (.sr 5) 1 = clusterOfWave c.w % 24 ∧ c.src l (.sr 6) 1 = clusterOfWave c.w / 24 ∧
    (∀ g, c.tag = some g → c.src l (.sr 7) 1 = g.toNat % 8 ∧ c.src l (.sr 8) 1 = g.toNat / 8) ∧
    (c.tag = none → c.src l (.sr 7) 1 = 0 ∧ c.src l (.sr 8) 1 = 0) ∧
    c.src l (.sr 9) 1 = c.clk % 2 ^ 32 ∧ c.src l (.sr 10) 1 = (c.thread l).cychi.toNat ∧
    (∀ e, (c.thread l).elem = some e →
      c.src l (.sr 12) 1 = e.index.toNat ∧ c.src l (.sr 13) 1 = e.ctxVa.toNat % 2 ^ 32) ∧
    ((c.thread l).elem = none → c.src l (.sr 12) 1 = 0xFFFFFFFF ∧ c.src l (.sr 13) 1 = 0) ∧
    ∀ (x : Wave) t, x.threads[l]? = some t →
      ((c.issued x).threads[l]?).map Thread.cychi =
        if l ∈ c.path ∧ l ∈ c.group ∧ (c.e.operands.any fun o => o.2 == .sr 9) = true
        then some (BitVec.ofNat 32 (c.clk / 2 ^ 32)) else some t.cychi) ∧
  ∀ (s : State) (w : Nat) (e : Desc) (c : Ctx), s.ctxOf w e = some c →
    c.clk = s.clkOf (fetchCore w) ∧ c.tag = s.tagOf c.x.rgn ∧
    ∀ y, s.wgs.find c.x.wg = some y → c.wgi = y.index.toNat

/-- R16, R17, R38, R40: where the results of a group go. A v register takes each lane's own words and leaves every other register
and predicate; a Caller register takes 64 bits, a 32-bit result zero-extended; a predicate takes bit 0, and p7 discards it; an s register
takes the lowest lane's words for the wave; a k register its first; the zero literal takes nothing. Lanes outside the group, other waves, memory and every other piece of
state are unchanged. -/
def Obligations.DestinationsTakeResults : Prop :=
  ∀ (s : State) (c : Ctx) (x : Wave) (words : Nat) (v : Nat → Nat),
    s.waves.find c.w = some x → (∀ q, c.e.f.d ≠ .q q) →
    ∃ y, (s.writeAll c (c.results words v)).waves.find c.w = some y ∧
      State.sameButWaves s (s.writeAll c (c.results words v)) ∧
      (∀ w, w ≠ c.w → (s.writeAll c (c.results words v)).waves.find w = s.waves.find w) ∧
      y = { x with threads := y.threads, s := y.s, k := y.k } ∧ y.threads.length = x.threads.length ∧
      (∀ l t, x.threads[l]? = some t → ∃ t1, y.threads[l]? = some t1 ∧ t1 = { t with v := t1.v, preds := t1.preds } ∧
        (l ∉ c.group → t1 = t) ∧
        (l ∈ c.group →
          (∀ n, c.e.f.d = .v n → t1.preds = t.preds ∧
            (c.u = .w →
              (∀ k, k < words → t1.reg (n.toNat + k) = BitVec.ofNat 32 (v l / 2 ^ (32 * k))) ∧
              (∀ r, r < n.toNat ∨ n.toNat + words ≤ r → t1.reg r = t.reg r)) ∧
            (c.u = .c →
              (words = 1 → t1.reg (2 * n.toNat) = BitVec.ofNat 32 (v l) ∧ t1.reg (2 * n.toNat + 1) = 0) ∧
              (words ≠ 1 → ∀ k, k < words → t1.reg (2 * n.toNat + k) = BitVec.ofNat 32 (v l / 2 ^ (32 * k))) ∧
              (∀ r, r < 2 * n.toNat ∨ 2 * n.toNat + max words 2 ≤ r → t1.reg r = t.reg r))) ∧
          (∀ n, c.e.f.d = .p n → 0 < words → t1.v = t.v ∧
            ∀ m : BitVec 3, m ≠ 7 → t1.pred m = if m = n then (v l).testBit 0 else t.pred m) ∧
          ((∀ n, c.e.f.d ≠ .v n) → (∀ n, c.e.f.d ≠ .p n) → t1 = t))) ∧
      (∀ n, c.e.f.d = .s n → c.group ≠ [] → y.k = x.k ∧
        (∀ k, k < words → NMap.get 0 y.s (n.toNat + k) = BitVec.ofNat 32 (v c.lead / 2 ^ (32 * k))) ∧
        ∀ r, r < n.toNat ∨ n.toNat + words ≤ r → NMap.get 0 y.s r = NMap.get 0 x.s r) ∧
      (∀ n, c.e.f.d = .k n → c.group ≠ [] → 0 < words → y.s = x.s ∧
        ∀ r, NMap.get 0 y.k r = if r = n.toNat then BitVec.ofNat 32 (v c.lead) else NMap.get 0 x.k r) ∧
      ((∀ n, c.e.f.d ≠ .s n) → (∀ n, c.e.f.d ≠ .k n) → y.s = x.s ∧ y.k = x.k)

/-- R149, R163: the lanes of a group act one after another in ascending order of the list, each on the state its predecessors
left, and what a lane's part came to has the effect the rules give it: a result written, an access or result pending (a store
after `fence.rel` as a release, R304), a fault raised at the instruction, a thread Blocked at it, or a thread that stands at it
again; once one lane stands at it again, the lanes above it do as well. -/
def Obligations.LanesActInOrder : Prop :=
  (∀ (s : State) (c : Ctx) g, s.eachLane c g = (s.lanesUpTo c g c.group).1) ∧
  (∀ (s : State) (c : Ctx) g pre l, ((s.lanesUpTo c g pre).1.thread? c.w l).isSome →
    let r := s.lanesUpTo c g pre
    let o := g r.1 l
    (r.2.2 = false → s.lanesUpTo c g (pre ++ [l]) =
      ((State.laneOut c l r.2.1 o).1, (State.laneOut c l r.2.1 o).2, o.stays)) ∧
    (r.2.2 = true → s.lanesUpTo c g (pre ++ [l]) = (r.1.updThread c.w l (c.back l), r.2.1, true))) ∧
  (∀ (c : Ctx) l led (r : State), (∀ q, c.e.f.d ≠ .q q) → (∀ n, c.e.f.d ≠ .s n) → (∀ n, c.e.f.d ≠ .k n) →
    (State.laneOut c l led (.ok r [])).1 = r ∧
    (∀ w ws, (State.laneOut c l led (.ok r (w :: ws))).1 = r.putDst c.w l c.e.f.d (w :: ws)) ∧
    (∀ (a : Acc) t, r.thread? c.w l = some t → t.fenced = none → a.dst = none →
      (State.laneOut c l led (.pend r a)).1 =
        r.updThread c.w l fun t => { t with accs := t.accs ++ [{ a with popped := (c.elemOf l).getD 0 }] }) ∧
    (∀ (a : Acc) t n, r.thread? c.w l = some t → t.fenced = none → a.dst = some ⟨c.e.f.d, n, true⟩ →
      r.needsVersion c.w a = false →
      (State.laneOut c l led (.pend r a)).1 =
        r.updThread c.w l fun t => { t with accs := t.accs ++ [{ a with popped := (c.elemOf l).getD 0 }] }) ∧
    (∀ (a : Acc) t sc, r.thread? c.w l = some t → t.fenced = some sc → a.dst = none → a.kind.writes = true → a.ord = .plain →
      (State.laneOut c l led (.pend r a)).1 =
        r.updThread c.w l fun t => { t with
          fenced := none, accs := t.accs ++ [{ a with ord := .rel, scope := sc, popped := (c.elemOf l).getD 0 }] }) ∧
    (∀ (f : Flt) r1, c.pops = [] →
      (r.holdActs.updThread c.w l fun t => t.undo c.pc c.id).releaseAt c.w l .dev = some r1 →
      (State.laneOut c l led (.fault r f)).1 = r1.takeFault c.w l c.pc f) ∧
    (∀ (f : Flt) r1 n v, c.pops.find? (fun p => p.2.1 == l) = some (n, l, v) →
      (r.holdActs.updThread c.w l fun t => t.undo c.pc c.id).releaseAt c.w l .dev = some r1 →
      (State.laneOut c l led (.fault r f)).1 = r1.takeFault c.w l c.pc { f with det1 := v.toNat }) ∧
    (∀ f, (r.holdActs.updThread c.w l fun t => t.undo c.pc c.id).releaseAt c.w l .dev = none →
      (State.laneOut c l led (.fault r f)).1 = r.holdActs.updThread c.w l (c.back l)) ∧
    (∀ y, (State.laneOut c l led (.block r y)).1 =
      r.updThread c.w l fun t => { c.back l t with st := .blocked (c.waits l led y).1 }) ∧
    (State.laneOut c l led (.stay r)).1 = r.updThread c.w l (c.back l) ∧
    (State.laneOut c l led (.gone r)).1 = r ∧
    (c.pops = [] → ∀ t, c.back l t = { t.undo c.pc c.id with popped := [] }) ∧
    (∀ y, (∀ wg off g d acq id pc npc, y ≠ .phase wg off g d acq id pc npc) → c.waits l led y = (y, led)))

/-! ### Integer, logic, address and wave-wide instructions -/

/-- R92, R95, R96, R97, R99: the exact result of each arithmetic instruction, clamped under SAT, is cut to the width of its
type and written in every lane of the group; `iaddc` and `isubb` also write the carry or the borrow to the named
predicate. -/
def Obligations.IntegerArithmetic : Prop :=
  ∀ (f : Frame) (ty : IntTy) (sat : Bool) (s s1 : State) (c : Ctx),
    let A : Nat → Int := fun l => intOf (c.a l ty.words) ty
    let B : Nat → Int := fun l => intOf (c.intB l ty ty.words) ty
    let C : Nat → Int := fun l => intOf (c.intC l) ty
    let res : (Nat → Int) → Nat → Nat := fun e l => lowBits (if sat then clampTo (e l) ty else e l) ty.width
    (Begins (.iadd f ty sat) s c s1 →
      exec (.iadd f ty sat) s = .next (s1.written c ty.words (res fun l => A l + B l))) ∧
    (Begins (.isub f ty sat) s c s1 →
      exec (.isub f ty sat) s = .next (s1.written c ty.words (res fun l => A l - B l))) ∧
    (Begins (.iadd64 f ty sat) s c s1 →
      exec (.iadd64 f ty sat) s = .next (s1.written c ty.words (res fun l => A l + B l))) ∧
    (Begins (.imul f ty sat) s c s1 →
      exec (.imul f ty sat) s = .next (s1.written c ty.words (res fun l => A l * B l))) ∧
    (Begins (.imad f ty sat) s c s1 →
      exec (.imad f ty sat) s = .next (s1.written c ty.words (res fun l => A l * B l + C l))) ∧
    (∀ sa sb, Begins (.dp4 f ty sat sa sb) s c s1 →
      exec (.dp4 f ty sat sa sb) s =
        .next (s1.written c ty.words (res fun l => C l + dotBytes (c.a l) (c.intB l ty 1) sa sb))) ∧
    (Begins (.imulhi f ty) s c s1 →
      exec (.imulhi f ty) s = .next (s1.written c ty.words fun l => lowBits (A l * B l / 2 ^ 32) ty.width)) ∧
    (Begins (.imin f ty) s c s1 →
      exec (.imin f ty) s = .next (s1.written c ty.words fun l => lowBits (min (A l) (B l)) ty.width)) ∧
    (Begins (.imax f ty) s c s1 →
      exec (.imax f ty) s = .next (s1.written c ty.words fun l => lowBits (max (A l) (B l)) ty.width)) ∧
    (Begins (.imadw f ty) s c s1 →
      exec (.imadw f ty) s = .next (s1.written c 2 fun l =>
        lowBits (A l * B l + intOf (c.intC l 2) (if ty = .s32 then .s64 else .z64)) 64)) ∧
    (ty = .s32 → Begins (.iabs f sat) s c s1 →
      exec (.iabs f sat) s = .next (s1.written c 1 (res fun l => if 0 ≤ A l then A l else -A l))) ∧
    (ty = .s32 → Begins (.ineg f sat) s c s1 →
      exec (.ineg f sat) s = .next (s1.written c 1 (res fun l => -A l))) ∧
    (∀ pd, Begins (.iaddc f pd) s c s1 →
      exec (.iaddc f pd) s = .next ((s1.writeAll c (c.group.map fun l =>
        let e := c.a l + c.intB l .z32 1 + c.intC l % 2
        (l, { d := wordsOf 1 e, pd := some (pd, decide (2 ^ 32 ≤ e)) }))).settleTurn c)) ∧
    (∀ pd, Begins (.isubb f pd) s c s1 →
      exec (.isubb f pd) s = .next ((s1.writeAll c (c.group.map fun l =>
        let e : Int := (c.a l : Int) - c.intB l .z32 1 - (c.intC l % 2 : Nat)
        (l, { d := wordsOf 1 (lowBits e 32), pd := some (pd, decide (e < 0)) }))).settleTurn c))

/-- R34, R98: the quotient rounds towards zero and the remainder has the dividend's sign; a division by 0 gives all ones,
or the dividend; the most negative number over −1 gives itself, or the largest under SAT, and remainder 0. The result of
these LL instructions waits to be written. -/
def Obligations.IntegerDivision : Prop :=
  ∀ (f : Frame) (ty : IntTy) (s s1 : State) (c : Ctx),
    let A : Nat → Int := fun l => intOf (c.a l ty.words) ty
    let B : Nat → Int := fun l => intOf (c.intB l ty ty.words) ty
    (∀ sat, Begins (.idiv f ty sat) s c s1 →
      exec (.idiv f ty sat) s = .next (s1.pended c 1 fun l =>
        if B l = 0 then 0xFFFFFFFF
        else if ty.signed ∧ A l = -(2 ^ 31) ∧ B l = -1 then (if sat then 0x7FFFFFFF else 0x80000000)
        else lowBits ((A l).tdiv (B l)) 32)) ∧
    (Begins (.irem f ty) s c s1 →
      exec (.irem f ty) s = .next (s1.pended c 1 fun l =>
        if B l = 0 then lowBits (A l) 32
        else if ty.signed ∧ A l = -(2 ^ 31) ∧ B l = -1 then 0
        else lowBits ((A l).tmod (B l)) 32))

/-- R100 to R104: bitwise logic, shifts by the full amount of B (a shift by the width or more leaves 0 or the sign), rotation
modulo 32, counts, reversal, and bit fields. A count of zeros ends at the highest or the lowest 1 bit; `brev` puts bit i where bit
w − 1 − i was. `bfe` extends its field by 0 or, of `.s32`, by its top bit, a field that reaches past bit 31 ending there; `bfi` replaces
the field in the base; `perm` takes each byte of the result from one of eight, or its sign. -/
def Obligations.LogicShiftBits : Prop :=
  (∀ (f : Frame) (ty : IntTy) (s s1 : State) (c : Ctx),
    let A : Nat → Nat := fun l => c.a l ty.words
    let B : Nat → Nat := fun l => c.intB l ty ty.words
    let ones : Nat := 2 ^ ty.width - 1
    (Begins (.and f ty) s c s1 → exec (.and f ty) s = .next (s1.written c ty.words fun l => A l &&& B l)) ∧
    (Begins (.or f ty) s c s1 → exec (.or f ty) s = .next (s1.written c ty.words fun l => A l ||| B l)) ∧
    (Begins (.xor f ty) s c s1 → exec (.xor f ty) s = .next (s1.written c ty.words fun l => A l ^^^ B l)) ∧
    (Begins (.andn f ty) s c s1 →
      exec (.andn f ty) s = .next (s1.written c ty.words fun l => A l &&& (B l ^^^ ones))) ∧
    (Begins (.not f ty) s c s1 → exec (.not f ty) s = .next (s1.written c ty.words fun l => A l ^^^ ones)) ∧
    (Begins (.shl f) s c s1 → exec (.shl f) s = .next (s1.written c 1 fun l =>
      if 32 ≤ c.b l then 0 else c.a l * 2 ^ c.b l % 2 ^ 32)) ∧
    (Begins (.shr f) s c s1 → exec (.shr f) s = .next (s1.written c 1 fun l =>
      lowBits ((c.a l : Int) / 2 ^ (min (c.b l) 32)) 32)) ∧
    (Begins (.sar f) s c s1 → exec (.sar f) s = .next (s1.written c 1 fun l =>
      lowBits (intOf (c.a l) .s32 / 2 ^ (min (c.b l) 32)) 32)) ∧
    (Begins (.rol f) s c s1 → exec (.rol f) s = .next (s1.written c 1 fun l =>
      (c.a l * 2 ^ (c.b l % 32) + c.a l / 2 ^ (32 - c.b l % 32)) % 2 ^ 32)) ∧
    (Begins (.shl64 f) s c s1 → exec (.shl64 f) s = .next (s1.written c 2 fun l =>
      if 64 ≤ c.b l then 0 else c.a l 2 * 2 ^ c.b l % 2 ^ 64)) ∧
    (Begins (.shr64 f ty) s c s1 → exec (.shr64 f ty) s = .next (s1.written c 2 fun l =>
      lowBits (intOf (A l) ty / 2 ^ (min (c.b l) 64)) 64)) ∧
    (Begins (.popc f ty) s c s1 → exec (.popc f ty) s = .next (s1.written c 1 fun l =>
      ((List.range ty.width).filter fun i => (A l).testBit i).length)) ∧
    (Begins (.clz f ty) s c s1 → exec (.clz f ty) s = .next (s1.written c 1 fun l => leadZeros (A l) ty.width)) ∧
    (Begins (.ctz f ty) s c s1 → exec (.ctz f ty) s = .next (s1.written c 1 fun l => trailZeros (A l) 0 ty.width)) ∧
    (Begins (.brev f ty) s c s1 →
      exec (.brev f ty) s = .next (s1.written c ty.words fun l => bitRev (A l) ty.width ty.width)) ∧
    (∀ imm, Begins (.bfe f ty imm) s c s1 → exec (.bfe f ty imm) s = .next (s1.written c 1 fun l =>
      bitExtract (c.a l) (if imm then (f.x.extractLsb' 0 16).toNat else c.intB l .b32 1) (ty == .s32))) ∧
    (∀ imm, Begins (.bfi f imm) s c s1 → exec (.bfi f imm) s = .next (s1.written c 1 fun l =>
      bitInsert (c.a l) (if imm then (f.x.extractLsb' 0 16).toNat else c.intB l .b32 1) (c.intC l))) ∧
    (∀ imm, Begins (.perm f imm) s c s1 → exec (.perm f imm) s = .next (s1.written c 1 fun l =>
      bytePermute (c.a l) (c.intB l .b32 1) (if imm then (f.x.extractLsb' 0 16).toNat else c.intC l)))) ∧
  (∀ x w,
    (leadZeros x w ≤ w ∧ (∀ i, i < w → w ≤ leadZeros x w + i → x.testBit i = false) ∧
      (leadZeros x w < w → x.testBit (w - 1 - leadZeros x w) = true)) ∧
    (trailZeros x 0 w ≤ w ∧ (∀ i, i < trailZeros x 0 w → x.testBit i = false) ∧
      (trailZeros x 0 w < w → x.testBit (trailZeros x 0 w) = true)) ∧
    (bitRev x w w < 2 ^ w ∧ ∀ i, i < w → (bitRev x w w).testBit i = x.testBit (w - 1 - i))) ∧
  (∀ a ctl i, a < 2 ^ 32 → i < 32 →
    let pos := ctl % 256
    let len := ctl / 256 % 256
    (bitExtract a ctl false).testBit i = decide (pos + i < 32 ∧ i < len ∧ a.testBit (pos + i)) ∧
    (bitExtract a ctl true).testBit i =
      decide (pos < 32 ∧ len ≠ 0 ∧ a.testBit (pos + min i (min len (32 - pos) - 1)))) ∧
  (∀ a ctl base i, base < 2 ^ 32 → i < 32 →
    let pos := ctl % 256
    let len := ctl / 256 % 256
    (bitInsert a ctl base).testBit i = if pos ≤ i ∧ i < pos + len then a.testBit (i - pos) else base.testBit i) ∧
  (∀ a b sel i, a < 2 ^ 32 → b < 2 ^ 32 → i < 4 →
    let k := sel / 16 ^ i % 16
    let v := (if k % 8 < 4 then a / 256 ^ (k % 8) else b / 256 ^ (k % 8 - 4)) % 256
    bytePermute a b sel / 256 ^ i % 256 = if k < 8 then v else if 128 ≤ v then 255 else 0)

/-- R105 to R108: selection by a predicate, comparison, moves, constants, and addresses modulo 2^64. -/
def Obligations.SelectMoveAddress : Prop :=
  ∀ (f : Frame) (ty : IntTy) (s s1 : State) (c : Ctx),
    let A : Nat → Nat := fun l => c.a l ty.words
    let B : Nat → Nat := fun l => c.intB l ty ty.words
    (∀ neg ps, Begins (.sel f ty neg ps) s c s1 → exec (.sel f ty neg ps) s = .next (s1.written c ty.words fun l =>
      if (c.thread l).pred ps != neg then A l else B l)) ∧
    (∀ cc, Begins (.icmp f ty cc) s c s1 → exec (.icmp f ty cc) s = .next (s1.written c 1 fun l =>
      if cc.holds (intOf (A l) ty) (intOf (B l) ty) then 1 else 0)) ∧
    (Begins (.mov f ty) s c s1 → exec (.mov f ty) s = .next (s1.written c ty.words A)) ∧
    (Begins (.movi f ty) s c s1 → exec (.movi f ty) s = .next (s1.written c ty.words fun l =>
      match f.form with
      | .s => A l
      | .m => lowBits f.x.toInt ty.width
      | .l => lowBits f.i.toInt ty.width)) ∧
    (∀ sc, Begins (.lea f ty sc) s c s1 → exec (.lea f ty sc) s = .next (s1.written c 2 fun l =>
      lowBits (c.a l 2 + intOf (c.b l) ty * sc.factor +
        (match f.form with | .s => 0 | .m => f.x.toInt | .l => f.i.toInt)) 64))

/-- R109 to R112: a lane takes the value of a lane of the group, or its own where that lane is not in the group; a vote
gives every lane one value of all lanes; a reduction combines the lanes of the group in the tree of R89, an FP32 source as
R73 and R75 take it. -/
def Obligations.WaveWide : Prop :=
  ∀ (f : Frame) (s s1 : State) (c : Ctx),
    (∀ ty mode, Begins (.shfl f ty mode) s c s1 → exec (.shfl f ty mode) s = .next (s1.written c ty.words fun l =>
      let j : Int := match mode with
        | .idx => c.b l
        | .up => (l : Int) - c.b l
        | .down => (l : Int) + c.b l
        | .xor => (l ^^^ c.b l : Nat)
      if 0 ≤ j ∧ j ≤ 31 ∧ j.toNat ∈ c.group then c.a j.toNat ty.words else c.a l ty.words)) ∧
    (∀ mode, Begins (.vote f mode) s c s1 → exec (.vote f mode) s = .next (s1.written c 1 fun _ =>
      match mode with
      | .all => if c.group.all (fun l => c.a l != 0) then 1 else 0
      | .any => if c.group.any (fun l => c.a l != 0) then 1 else 0
      | .eq => if c.group.all (fun l => c.a l == c.a c.lead) then 1 else 0
      | .bal => (maskOf (c.group.filter fun l => c.a l != 0)).toNat)) ∧
    (∀ ty ftz op rnd, Begins (.redux f ty ftz op rnd) s c s1 →
      exec (.redux f ty ftz op rnd) s = .next (s1.written c 1 fun _ =>
        tree32 (reduxNode ty ftz op rnd) ((List.range 32).map fun l =>
          if l ∈ c.group then
            some (if ty = .f32 then fres (fval (c.fsrc l f.a .f32) .f32 ftz) .f32 .rne false ftz else c.a l)
          else none)))

/-! ### Floating point and conversion -/

/-- R45, R72, R75, R89, R117, R119: the values that encodings stand for, rounding, flushing, exact sums and products, and the tree of a
reduction. A finite encoding stands for the number that R72 gives it. `round` takes a number to the encoding that its mode says among
those of R72 continued upwards without a bound, the even one of a tie, and where that is beyond the largest finite one, to the overflow
result of the mode; `more` stands for a tail below the digits of a number that has one more digit than the format at least. `.ftz` reads
a subnormal as a zero of its sign and leaves one. The smaller of two is the one that is no NaN, and −0 lies below +0. A node of the tree with one input passes it through. -/
def Obligations.Rounding : Prop :=
  (∀ f : Fmt, (f.expo, f.frac, f.bias, f.maxBits, f.infBits, f.nanBits) = match f with
    | .f32 => (8, 23, 127, 0x7F7FFFFF, some 0x7F800000, 0x7FC00000)
    | .f16 => (5, 10, 15, 0x7BFF, some 0x7C00, 0x7E00)
    | .bf16 => (8, 7, 127, 0x7F7F, some 0x7F80, 0x7FC0)
    | .e5m2 => (5, 2, 15, 0x7B, some 0x7C, 0x7E)
    | .e4m3 => (4, 3, 7, 0x7E, none, 0x7F)) ∧
  (∀ (f : Fmt) (ftz : Bool) (b : Nat), b < 2 ^ (1 + f.expo + f.frac) →
    let neg := b.testBit (f.expo + f.frac)
    let E := b / 2 ^ f.frac % 2 ^ f.expo
    let M := b % 2 ^ f.frac
    let top := decide (E = 2 ^ f.expo - 1)
    let flush := ftz && (f == .f32 || f == .f16 || f == .bf16)
    (f ≠ .e4m3 → top = true → fval b f ftz = if M = 0 then .inf neg else .nan) ∧
    (f = .e4m3 → top = true → M = 7 → fval b f ftz = .nan) ∧
    (top = false ∨ (f = .e4m3 ∧ M ≠ 7) → ∃ (m : Nat) (e : Int), fval b f ftz = .fin neg m e false ∧
      (m : ℚ) * 2 ^ e =
        if E = 0 then (if flush then 0 else (M : ℚ) / 2 ^ f.frac * 2 ^ (1 - f.bias))
        else (1 + (M : ℚ) / 2 ^ f.frac) * 2 ^ ((E : Int) - f.bias))) ∧
  (∀ (f : Fmt) (mode : Rnd) (sat : Bool),
    let val : Nat → ℚ := fun p =>
      if p / 2 ^ f.frac = 0 then (p : ℚ) / 2 ^ f.frac * 2 ^ (1 - f.bias)
      else (1 + ((p % 2 ^ f.frac : Nat) : ℚ) / 2 ^ f.frac) * 2 ^ (((p / 2 ^ f.frac : Nat) : Int) - f.bias)
    let signed : Bool → Nat → Nat := fun neg p => if neg then 2 ^ (f.expo + f.frac) + p else p
    roundF .nan f mode sat = f.nanBits ∧
    (∀ neg, roundF (.inf neg) f mode sat =
      if sat then signed neg f.maxBits else match f.infBits with | some i => signed neg i | none => f.nanBits) ∧
    ∀ (neg : Bool) (m : Nat) (e : Int) (more : Bool) (X : ℚ),
      (more = false → X = m * 2 ^ e) →
      (more = true → 2 ^ (f.frac + 1) ≤ m ∧ (m : ℚ) * 2 ^ e < X ∧ X < (m + 1 : ℚ) * 2 ^ e) →
      ∃ p : Nat,
        (match mode with
          | .rne => (∀ q, |X - val p| ≤ |X - val q|) ∧ ∀ q, q ≠ p → |X - val q| = |X - val p| → p % 2 = 0
          | .rtz => val p ≤ X ∧ X < val (p + 1)
          | .rdn => if neg then X ≤ val p ∧ ∀ q, q < p → val q < X else val p ≤ X ∧ X < val (p + 1)
          | .rup => if neg then val p ≤ X ∧ X < val (p + 1) else X ≤ val p ∧ ∀ q, q < p → val q < X) ∧
        roundF (.fin neg m e more) f mode sat =
          if p ≤ f.maxBits then signed neg p
          else if sat then signed neg f.maxBits
          else match f.infBits with
            | none => 0x7F
            | some i => signed neg (if mode = .rtz ∨ (mode = .rdn ∧ neg = false) ∨ (mode = .rup ∧ neg = true)
                then f.maxBits else i)) ∧
  (∀ (x : XR) (f : Fmt) (mode : Rnd) (sat : Bool),
    let b := roundF x f mode sat
    fres x f mode sat false = b ∧
    fres x f mode sat true =
      if (f = .f32 ∨ f = .f16 ∨ f = .bf16) ∧ b % 2 ^ (f.expo + f.frac) ≠ 0 ∧ b % 2 ^ (f.expo + f.frac) < 2 ^ f.frac
      then b - b % 2 ^ (f.expo + f.frac) else b) ∧
  (∀ (a b : Bool) (m n : Nat) (d e : Int) (mode : Rnd),
    let sv : Bool → Nat → Int → ℚ := fun s k l => if s then -((k : ℚ) * 2 ^ l) else k * 2 ^ l
    XR.mul (.fin a m e false) (.fin b n d false) = .fin (a != b) (m * n) (e + d) false ∧
    ∃ s k l, XR.add mode (.fin a m e false) (.fin b n d false) = .fin s k l false ∧
      sv s k l = sv a m e + sv b n d ∧
      (k = 0 → s = if m = 0 ∧ n = 0 ∧ a = b then a else mode == .rdn) ∧
      let x : XR := .fin a m e false
      let y : XR := .fin b n d false
      let below : Prop := sv a m e < sv b n d ∨ (m = 0 ∧ n = 0 ∧ a = true ∧ b = false)
      let above : Prop := sv b n d < sv a m e ∨ (m = 0 ∧ n = 0 ∧ b = true ∧ a = false)
      (below → minMax false x y = x ∧ minMax true x y = y) ∧ (above → minMax false x y = y ∧ minMax true x y = x)) ∧
  (∀ (hi : Bool) (x : XR), minMax hi .nan x = x ∧ minMax hi x .nan = x) ∧
  (∀ (g : Nat → Nat → Nat) (leaf : Nat → Option Nat), ∃ node : Nat → Nat → Option Nat,
    (∀ i, node 0 i = leaf i) ∧
    (∀ k i, node (k + 1) i = match node k (2 * i), node k (2 * i + 1) with
      | some x, some y => some (g x y)
      | some x, none => some x
      | none, y => y) ∧
    tree32 g ((List.range 32).map leaf) = (node 5 0).getD 0) ∧
  ∀ (ty : IntTy) (ftz : Bool) (op : ReduxOp) (rnd : Rnd) (x y : Nat),
    (ty = .f32 → reduxNode ty ftz op rnd x y = match op with
      | .min => fres (minMax false (fval x .f32 ftz) (fval y .f32 ftz)) .f32 .rne false ftz
      | .max => fres (minMax true (fval x .f32 ftz) (fval y .f32 ftz)) .f32 .rne false ftz
      | _ => fres (XR.add rnd (fval x .f32 ftz) (fval y .f32 ftz)) .f32 rnd false ftz) ∧
    (ty ≠ .f32 → reduxNode ty ftz op rnd x y = match op with
      | .add => ((intOf x ty + intOf y ty) % 2 ^ 32).toNat
      | .min => (min (intOf x ty) (intOf y ty) % 2 ^ 32).toNat
      | .max => (max (intOf x ty) (intOf y ty) % 2 ^ 32).toNat
      | .and => x &&& y
      | .or => x ||| y
      | .xor => x ^^^ y)

/-- R114, R116, R118 to R122: the exact result of each instruction is rounded once, in its mode, with SAT and FTZ as they
stand; `ffma` in the S form, which has no C, gives the result of `fmul`; comparisons and classifications give 0 or 1. -/
def Obligations.FloatArithmetic : Prop :=
  ∀ (f : Frame) (ty : FTy) (rnd : Rnd) (sat ftz : Bool) (s s1 : State) (c : Ctx),
    let X : Nat → XR := fun l => c.fx l ty.fmt ftz
    let Y : Nat → XR := fun l => c.fy l ty.fmt ftz
    let Z : Nat → XR := fun l => c.fz l ty.fmt ftz
    let res : (Nat → XR) → State := fun e => s1.written c 1 fun l => fres (e l) ty.fmt rnd sat ftz
    (Begins (.fadd f ty rnd sat ftz) s c s1 →
      exec (.fadd f ty rnd sat ftz) s = .next (res fun l => XR.add rnd (X l) (Y l))) ∧
    (Begins (.fsub f ty rnd sat ftz) s c s1 →
      exec (.fsub f ty rnd sat ftz) s = .next (res fun l => XR.add rnd (X l) (Y l).neg)) ∧
    (Begins (.fmul f ty rnd sat ftz) s c s1 →
      exec (.fmul f ty rnd sat ftz) s = .next (res fun l => (X l).mul (Y l))) ∧
    (Begins (.ffma f ty rnd sat ftz) s c s1 →
      exec (.ffma f ty rnd sat ftz) s = .next (res fun l =>
        if f.isS then (X l).mul (Y l) else XR.add rnd ((X l).mul (Y l)) (Z l))) ∧
    (Begins (.fldexp f ty rnd sat ftz) s c s1 →
      exec (.fldexp f ty rnd sat ftz) s = .next (res fun l =>
        XR.scale (X l) (if f.isL then f.i.toInt else intOf (c.b l) .s32))) ∧
    (Begins (.frnd f ty rnd ftz) s c s1 →
      exec (.frnd f ty rnd ftz) s = .next (s1.written c 1 fun l =>
        fres (XR.toIntegral (X l) rnd) ty.fmt rnd false ftz)) ∧
    (Begins (.fmin f ty ftz) s c s1 →
      exec (.fmin f ty ftz) s = .next (s1.written c 1 fun l => fres (minMax false (X l) (Y l)) ty.fmt .rne false ftz)) ∧
    (Begins (.fmax f ty ftz) s c s1 →
      exec (.fmax f ty ftz) s = .next (s1.written c 1 fun l => fres (minMax true (X l) (Y l)) ty.fmt .rne false ftz)) ∧
    (∀ cc, Begins (.fcmp f ty cc ftz) s c s1 →
      exec (.fcmp f ty cc ftz) s = .next (s1.written c 1 fun l => if cc.holds (X l) (Y l) then 1 else 0)) ∧
    (Begins (.fclass f ty ftz) s c s1 →
      exec (.fclass f ty ftz) s = .next (s1.written c 1 fun l =>
        if (c.b l).testBit (classBit (c.fsrc l f.a ty.fmt) ty.fmt ftz) then 1 else 0))

/-- R34, R53, R123: the LL floating instructions compute from the sources at issue, rounded once, and the result waits to be
written. -/
def Obligations.FloatFunctions : Prop :=
  ∀ (f : Frame) (ty : FTy) (rnd : Rnd) (sat ftz : Bool) (s s1 : State) (c : Ctx),
    let X : Nat → XR := fun l => c.fx l ty.fmt ftz
    let res : (Nat → XR) → State := fun e => s1.pended c 1 fun l => fres (e l) ty.fmt rnd sat ftz
    let fn : Trans → State := fun g => s1.pended c 1 fun l => g.eval (X l) ty.fmt rnd sat ftz
    (Begins (.frcp f ty rnd sat ftz) s c s1 →
      exec (.frcp f ty rnd sat ftz) s = .next (res fun l => (XR.ofInt 1).div (X l))) ∧
    (Begins (.frsq f ty rnd sat ftz) s c s1 → exec (.frsq f ty rnd sat ftz) s = .next (res fun l => (X l).rsqrt)) ∧
    (Begins (.fsqrt f ty rnd sat ftz) s c s1 → exec (.fsqrt f ty rnd sat ftz) s = .next (res fun l => (X l).sqrt)) ∧
    (Begins (.fdiv f ty rnd sat ftz) s c s1 →
      exec (.fdiv f ty rnd sat ftz) s = .next (res fun l => (X l).div (c.fy l ty.fmt ftz))) ∧
    (Begins (.fexp2 f ty rnd sat ftz) s c s1 → exec (.fexp2 f ty rnd sat ftz) s = .next (fn .exp2)) ∧
    (Begins (.flog2 f ty rnd sat ftz) s c s1 → exec (.flog2 f ty rnd sat ftz) s = .next (fn .log2)) ∧
    (Begins (.fsin f ty rnd sat ftz) s c s1 → exec (.fsin f ty rnd sat ftz) s = .next (fn .sin)) ∧
    (Begins (.fcos f ty rnd sat ftz) s c s1 → exec (.fcos f ty rnd sat ftz) s = .next (fn .cos))

/-- R124: the packed instructions act on each half of their operands and round each half once; `hdot2` rounds the exact sum
of both products and C once. -/
def Obligations.PackedFloat : Prop :=
  ∀ (f : Frame) (ty : FTy) (rnd : Rnd) (sat ftz : Bool) (s s1 : State) (c : Ctx),
    let el : Nat → Nat → XR := fun v j => fval (v / 65536 ^ j % 65536) ty.fmt ftz
    let A : Nat → Nat → XR := fun l => el (c.pa l ty.fmt)
    let B : Nat → Nat → XR := fun l => el (c.pb l ty.fmt)
    let C : Nat → Nat → XR := fun l => el (c.pc_ l ty.fmt)
    let half : XR → Nat := fun e => fres e ty.fmt rnd sat ftz % 65536
    (Begins (.hadd2 f ty rnd sat ftz) s c s1 →
      exec (.hadd2 f ty rnd sat ftz) s = .next (s1.written c 1 fun l =>
        half (XR.add rnd (A l 0) (B l 0)) + 65536 * half (XR.add rnd (A l 1) (B l 1)))) ∧
    (Begins (.hmul2 f ty rnd sat ftz) s c s1 →
      exec (.hmul2 f ty rnd sat ftz) s = .next (s1.written c 1 fun l =>
        half ((A l 0).mul (B l 0)) + 65536 * half ((A l 1).mul (B l 1)))) ∧
    (Begins (.hfma2 f ty rnd sat ftz) s c s1 →
      exec (.hfma2 f ty rnd sat ftz) s = .next (s1.written c 1 fun l =>
        let el (j : Nat) : XR :=
          if f.isS then (A l j).mul (B l j) else XR.add rnd ((A l j).mul (B l j)) (C l j)
        half (el 0) + 65536 * half (el 1))) ∧
    (∀ dt, Begins (.hdot2 f ty dt rnd sat ftz) s c s1 →
      exec (.hdot2 f ty dt rnd sat ftz) s = .next (s1.written c 1 fun l =>
        let df := if dt then ty.fmt else .f32
        fres (XR.sum rnd ([(A l 0).mul (B l 0), (A l 1).mul (B l 1)] ++ if f.isS then [] else [c.fz l df ftz])) df
          rnd sat ftz))

/-- R84 to R87, R125 to R128: conversions read the slot of the region, take fault 0x0B with the subcode of R86 in every lane
where the record is unusable, and otherwise write the rounded value, the packed codes and scale byte, or the unpacked
element. -/
def Obligations.Conversions : Prop :=
  ∀ (f : Frame) (s s1 : State) (c : Ctx),
    (∀ dt st rnd sat ftz sel slot, Begins (.cvt f dt st rnd sat ftz sel slot) s c s1 →
      let r := s1.slot c.x.rgn slot
      (cvtFault r dt st sel slot f.a = none →
        exec (.cvt f dt st rnd sat ftz sel slot) s = .next (s1.written c (if (dt.resolve r.fmt).bits = 64 then 2 else 1)
          fun l => cvtResult (c.cvtSrc l (st.resolve r.fmt) sel ftz) (dt.resolve r.fmt)
            (if dt = .slot ∨ st = .slot then r.rnd else rnd) (if dt = .slot then r.sat else sat) ftz)) ∧
      (∀ flt, cvtFault r dt st sel slot f.a = some flt →
        exec (.cvt f dt st rnd sat ftz sel slot) s =
          .next (((s1.writeAll c []).faultLanes c (c.group.map fun l => (l, flt))).settleTurn c))) ∧
    (∀ slot, Begins (.qpack f slot) s c s1 →
      let r := s1.slot c.x.rgn slot
      let e := q4Scale r.pack c.blockMax
      (r.checkIn (fun n => n == 7) = none →
        exec (.qpack f slot) s = .next ((s1.writeAll c (c.group.map fun l =>
          (l, { d := [BitVec.ofNat 32 ((List.range 8).map fun i =>
                        c.blockCode r.pack e r.rnd (8 * (l / 8) + i) * 16 ^ i).sum,
                      BitVec.ofNat 32 ((64 * r.pack + e) % 256)] }))).settleTurn c)) ∧
      (∀ sub, r.checkIn (fun n => n == 7) = some sub →
        exec (.qpack f slot) s = .next (((s1.writeAll c []).faultLanes c (c.group.map fun l =>
          (l, { code := 0x0B, sub := sub, det0 := slot.toNat }))).settleTurn c))) ∧
    (∀ slot ty, Begins (.qunpk f slot ty) s c s1 →
      let r := s1.slot c.x.rgn slot
      (r.checkIn (fun n => n == 7) = none → (∀ l ∈ c.group, c.b l % 64 ≠ 63) →
        exec (.qunpk f slot ty) s = .next (s1.written c 1 fun l =>
          roundF (q4Val (c.b l % 256) (c.a l / 16 ^ ((if f.isS then 0 else c.c l) % 8) % 16)) ty.fmt r.rnd false)) ∧
      (∀ sub, r.checkIn (fun n => n == 7) = some sub →
        exec (.qunpk f slot ty) s = .next (((s1.writeAll c []).faultLanes c (c.group.map fun l =>
          (l, { code := 0x0B, sub := sub, det0 := slot.toNat }))).settleTurn c)))

/-! ### Control flow, divergence and spawning -/

/-- R12, R135, R136, R186: each lane of a branch goes to its target, PC + 4 × the displacement or a register plus an offset;
a target whose bits 1:0 are not 0 faults with code 0x02, subcode 0x08. -/
def Obligations.Branches : Prop :=
  ∀ (f : Frame) (s s1 : State) (c : Ctx),
    let near : Nat → DWord := fun l =>
      c.pc + BitVec.ofInt 64 (4 * (if f.isS then intOf (c.a l) .s32 else f.x.toInt))
    let far : Nat → DWord := fun l => BitVec.ofNat 64 (c.a l 2) + BitVec.ofInt 64 (if f.isS then 0 else f.x.toInt)
    (Begins (.bra f) s c s1 →
      exec (.bra f) s = .next (((s1.eachLane c fun r l => r.branchLane c l (near l)).noteBackward c).settleTurn c)) ∧
    (Begins (.brx f) s c s1 →
      exec (.brx f) s = .next (((s1.eachLane c fun r l => r.branchLane c l (far l)).noteBackward c).settleTurn c)) ∧
    ∀ (r : State) (l : Nat) (tgt : DWord),
      r.branchLane c l tgt =
        if tgt.toNat % 4 = 0 then .ok (r.updThread c.w l fun t => { t with pc := tgt }) []
        else .fault r { code := 2, sub := 8, addr := some tgt.toNat }

/-- R12, R136, R137: a call pushes the address of the next instruction and goes to its target; a full stack of 4 first spills its
oldest entry: a store of 8 bytes at the spill pointer, base and untagged, and the pointer goes up by 8 with SPL set; at the spill limit
it faults with code 0x06. A return goes to the newest entry and drops it; where the stack is empty it reads the entry below the spill
pointer, which goes down by 8, and where the spill area is empty too it faults with code 0x06. A target, or a popped address, whose bits
1:0 are not 0 faults with code 0x02, subcode 0x08. A fault leaves stack and pointer as they were. -/
def Obligations.CallsAndReturns : Prop :=
  ∀ (f : Frame) (s s1 : State) (c : Ctx),
    let near : Nat → DWord := fun l =>
      c.pc + BitVec.ofInt 64 (4 * (if f.isS then intOf (c.a l) .s32 else f.x.toInt))
    let far : Nat → DWord := fun l => BitVec.ofNat 64 (c.a l 2) + BitVec.ofInt 64 (if f.isS then 0 else f.x.toInt)
    (Begins (.call f) s c s1 →
      exec (.call f) s = .next (((s1.eachLane c fun r l => r.callLane c l (near l)).noteBackward c).settleTurn c)) ∧
    (Begins (.callx f) s c s1 →
      exec (.callx f) s = .next (((s1.eachLane c fun r l => r.callLane c l (far l)).noteBackward c).settleTurn c)) ∧
    (Begins (.ret f) s c s1 →
      exec (.ret f) s = .next (((s1.eachLane c fun r l => r.retLane c l).noteBackward c).settleTurn c)) ∧
    ∀ (r r1 : State) (l : Nat),
      let t := c.thread l
      let goes : State → (Thread → Thread) → DWord → State := fun r g pc =>
        (r.updThread c.w l g).updThread c.w l fun t => { t with pc := pc }
      (∀ tgt : DWord, tgt.toNat % 4 ≠ 0 →
        r.callLane c l tgt = .fault r { code := 2, sub := 8, addr := some tgt.toNat }) ∧
      (∀ tgt : DWord, tgt.toNat % 4 = 0 → t.stack.length < 4 → (r.thread? c.w l).map Thread.stack = some t.stack →
        r.callLane c l tgt = .ok (goes r (fun t => { t with stack := t.stack ++ [c.npc] }) tgt) []) ∧
      (∀ tgt : DWord, tgt.toNat % 4 = 0 → t.stack.length = 4 → t.spillp = t.spilll →
        r.callLane c l tgt = .fault r { code := 6, sub := 1, addr := some t.spillp.toNat }) ∧
      (∀ (tgt : DWord) parts, tgt.toNat % 4 = 0 → t.stack.length = 4 → t.spillp ≠ t.spilll →
        (r1.thread? c.w l).map Thread.stack = some t.stack →
        r.reach (c.x.agent c.w) .wr clsStore .spill t.spillp.toNat 8 = .ok r1 parts →
        r.callLane c l tgt = .pend
          (goes r1 (fun t => { t with stack := t.stack.drop 1 ++ [c.npc], spillp := t.spillp + 8, spl := true }) tgt)
          ⟨c.id, .store (toLe 8 (t.stack.headD 0).toNat), .glob, parts, .plain, .thr, r1.accTag c.x.rgn .spill, none,
            c.e.f.la.toNat, none, c.pc, none, [], [], none, none, 0⟩) ∧
      (∀ (tgt : DWord) fl, tgt.toNat % 4 = 0 → t.stack.length = 4 → t.spillp ≠ t.spilll →
        r.reach (c.x.agent c.w) .wr clsStore .spill t.spillp.toNat 8 = .fault r1 [] fl →
        r.callLane c l tgt = .fault r1 fl) ∧
      (∀ ra, t.stack.getLast? = some ra → ra.toNat % 4 ≠ 0 →
        r.retLane c l = .fault r { code := 2, sub := 8, addr := some ra.toNat }) ∧
      (∀ ra, t.stack.getLast? = some ra → ra.toNat % 4 = 0 →
        r.retLane c l = .ok (goes r (fun t => { t with stack := t.stack.dropLast }) ra) []) ∧
      (t.stack = [] → t.spillp.toNat ≤ t.spillb.toNat → r.retLane c l = .fault r { code := 6, sub := 2 }) ∧
      (∀ fl below, t.stack = [] → t.spillb.toNat < t.spillp.toNat →
        r.reach (c.x.agent c.w) .rd clsAny .spill (t.spillp.toNat - 8) 8 = .fault r1 below fl →
        r.retLane c l = .fault r1 fl) ∧
      (∀ (p : Part) u, t.stack = [] → t.spillb.toNat < t.spillp.toNat →
        r.reach (c.x.agent c.w) .rd clsAny .spill (t.spillp.toNat - 8) 8 = .ok r1 [p] →
        p.cls = .h → p.size = 8 → locOf p.key = 0 → r1.poisoned p.key 8 = false →
        (∀ k, p.key ≤ k → k < p.key + 8 → r1.windowOf k = none) → r1.homeFwd = [] →
        r1.thread? c.w l = some u → u.accs = [] →
        (r1.cluster (clusterOfWave c.w)).svc.contains ⟨c.w, l, c.id⟩ = false →
        ∃ r2 : State, r2.mem = r1.mem ∧ (∀ v, r2.waves.find v = r1.waves.find v) ∧
          let ra := BitVec.ofNat 64 (r1.num p.key 8)
          r.retLane c l = if ra.toNat % 4 = 0
            then .ok (goes r2 (fun t => { t with spillp := t.spillp - 8 }) ra) []
            else .fault r2 { code := 2, sub := 8, addr := some ra.toNat })

/-- R33, R139, R144: `kset` writes the group's lanes to the mask, or adds them; `kclr` clears the mask, or the lanes A names;
`yield` passes the turn to the next ready path after the one its threads stand on now, where there is another; `nop` does nothing. A group without a lane does
nothing at all. The write of a mask changes nothing but that mask of its wave. -/
def Obligations.MasksYieldNop : Prop :=
  ∀ (f : Frame) (s s1 : State) (c : Ctx),
    (∀ or, Begins (.kset f or) s c s1 → c.group ≠ [] →
      exec (.kset f or) s = .next ((s1.putDst c.w (c.group.headD 0) f.d
        [if or then c.mask f.d ||| maskOf c.group else maskOf c.group]).settleTurn c)) ∧
    (∀ sel, Begins (.kclr f sel) s c s1 → c.group ≠ [] →
      exec (.kclr f sel) s = .next ((s1.putDst c.w (c.group.headD 0) f.d
        [if sel then c.mask f.d &&& ~~~(BitVec.ofNat 32 (c.a (c.group.headD 0))) else 0]).settleTurn c)) ∧
    (∀ or, Begins (.kset f or) s c s1 → c.group = [] → exec (.kset f or) s = .next (s1.settleTurn c)) ∧
    (∀ sel, Begins (.kclr f sel) s c s1 → c.group = [] → exec (.kclr f sel) s = .next (s1.settleTurn c)) ∧
    (Begins (.nop f) s c s1 → exec (.nop f) s = .next (s1.settleTurn c)) ∧
    (Begins (.yield f) s c s1 → s.acts = none → exec (.yield f) s = .next (if c.group = [] then s1.settleTurn c
      else { s1 with
        acts := none
        waves := s1.waves.upd c.w fun x =>
          let l := c.path.headD 0
          if 2 ≤ x.heads.length then x.giveTurn (x.nextPath ((x.pathOf l).headD l)) else x.settleTurn c.path })) ∧
    (∀ (s : State) (w l : Nat) (n : BitVec 4) (m : Word) (x : Wave), s.waves.find w = some x →
      ∃ y, (s.putDst w l (.k n) [m]).waves.find w = some y ∧ y = { x with k := y.k } ∧
        (∀ r, NMap.get 0 y.k r = if r = n.toNat then m else NMap.get 0 x.k r) ∧
        State.sameButWaves s (s.putDst w l (.k n) [m]) ∧
        ∀ v, v ≠ w → (s.putDst w l (.k n) [m]).waves.find v = s.waves.find v)

/-- R25, R26, R140 to R142, R144, R202, R221: a lane that arrives at `join` or `wsync` is noted in the instance of its mask and becomes
Blocked, once its own accesses are performed; a mask without the lane, or one that disagrees with a pending instance, or overlaps a
pending one of `wsync`, faults with code 0x19. An instance is complete where every lane of its mask has arrived or exited, be there
others or not: it is freed and its threads go on after the instruction; one that completes as it is arrived at does so before the turn is
settled (assumption 73). `exit` of a lane whose pending results and accesses are complete makes it Exited: its return addresses, its spill
pointer and its reservation are discarded, and it counts as arrived: the joins and wsyncs that waited for it alone complete, and the
arrival instance that it was the last of makes its arrival, or with nothing pending is dropped with FLTC. A wave whose threads have all
exited is no longer resident; its registers and masks stand as it left them. -/
def Obligations.JoinWsyncExit : Prop :=
  (∀ (f : Frame) (s s1 : State) (c : Ctx),
    (∀ n, f.a = .k n → Begins (.join f) s c s1 →
      let V := NMap.get 0 c.x.k n.toNat
      let r := s1.eachLane c fun r l => r.joinLane c l n.toNat V
      exec (.join f) s = .next (({ r with waves := r.waves.upd c.w Wave.joinsDone } : State).settleTurn c)) ∧
    (Begins (.wsync f) s c s1 →
      let r := s1.eachLane c fun r l => r.syncLane c l (BitVec.ofNat 32 (c.a l))
      exec (.wsync f) s = .next (({ r with waves := r.waves.upd c.w Wave.syncsDone } : State).settleTurn c)) ∧
    (Begins (.exit f) s c s1 → exec (.exit f) s = .next (s1.lanes c fun r l => r.exitLane c l)) ∧
    (∀ (r r1 : State) l, r.returnAll c.w l = some r1 → r.exitLane c l = .gone (r1.exitThread c.w l)) ∧
    (∀ (r : State) l u, r.thread? c.w l = some u → u.accs = [] → r.exitLane c l = .gone (r.exitThread c.w l)) ∧
    (∀ (r r1 : State) (x : Wave) (l k : Nat) (V : Word), r.waves.find c.w = some x →
      (maskHas V l = false → r.joinLane c l k V = .fault r { code := 0x19, sub := 2, det0 := V.toNat } ∧
        r.syncLane c l V = .fault r { code := 0x19, sub := 2, det0 := V.toNat }) ∧
      (maskHas V l = true →
        (∀ j, x.joins.find k = some j → j.mask ≠ V →
          r.joinLane c l k V = .fault r { code := 0x19, sub := 1, det0 := j.mask.toNat }) ∧
        (∀ j, x.joins.find k = some j → j.mask = V → j.pc ≠ c.pc →
          r.joinLane c l k V = .fault r { code := 0x19, sub := 3, det0 := j.mask.toNat }) ∧
        (x.joins.find k = none → r.drain c.w l = some r1 →
          r.joinLane c l k V = .block { r1 with waves := r1.waves.upd c.w fun x =>
            { x with joins := x.joins.ins k ⟨V, c.pc, 0 ||| maskOf [l]⟩ } } (.join k)) ∧
        (∀ j, x.joins.find k = some j → j.mask = V → j.pc = c.pc → r.drain c.w l = some r1 →
          r.joinLane c l k V = .block { r1 with waves := r1.waves.upd c.w fun x =>
            { x with joins := x.joins.ins k { j with arrived := j.arrived ||| maskOf [l] } } } (.join k)) ∧
        (∀ j, (x.syncs.find? fun j => j.mask &&& V != 0 && j.mask != V) = some j →
          r.syncLane c l V = .fault r { code := 0x19, sub := 1, det0 := j.mask.toNat }) ∧
        ((x.syncs.find? fun j => j.mask &&& V != 0 && j.mask != V) = none → r.drain c.w l = some r1 →
          r.syncLane c l V =
            .block { r1 with waves := r1.waves.upd c.w fun x => x.arriveSync V l } (.wsync V))) ∧
      (∀ u, r.thread? c.w l = some u → u.accs = [] → r.drain c.w l = some r))) ∧
  (∀ (x : Wave) (m a : Word), x.threads.length ≤ 32 →
    (x.allIn m a = true ↔ ∀ n, n < 32 → maskHas m n = true → maskHas a n = true ∨
      ∃ t, x.threads[n]? = some t ∧ t.st = .exited)) ∧
  (∀ (x : Wave), x.joins.Pairwise (fun e f => e.1 ≠ f.1) →
    let full : Nat × JoinInst → Bool := fun e => x.allIn e.2.mask e.2.arrived
    x.joinsDone.joins = x.joins.filter (fun e => !full e) ∧ x.joinsDone.syncs = x.syncs ∧ x.joinsDone.arrs = x.arrs ∧
    ∀ l t, x.threads[l]? = some t → ∃ t1, x.joinsDone.threads[l]? = some t1 ∧
      (∀ k, t.st = .blocked (.join k) → (∃ e ∈ x.joins, full e = true ∧ maskHas e.2.arrived l = true) →
        t1.st = .running ∧ t1.pc = t.pc + 8 ∧ t1.v = t.v ∧ t1.preds = t.preds ∧ t1.stack = t.stack) ∧
      ((∀ e ∈ x.joins, full e = true → maskHas e.2.arrived l = false) → t1 = t)) ∧
  (∀ (x : Wave),
    let full : SyncInst → Bool := fun e => x.allIn e.mask e.arrived
    x.syncsDone.syncs = x.syncs.filter (fun e => !full e) ∧ x.syncsDone.joins = x.joins ∧ x.syncsDone.arrs = x.arrs ∧
    ∀ l t, x.threads[l]? = some t → ∃ t1, x.syncsDone.threads[l]? = some t1 ∧
      (∀ m, t.st = .blocked (.wsync m) → (∃ e ∈ x.syncs, full e = true ∧ maskHas e.arrived l = true) →
        t1.st = .running ∧ t1.pc = t.pc + 8 ∧ t1.v = t.v ∧ t1.preds = t.preds ∧ t1.stack = t.stack) ∧
      ((∀ e ∈ x.syncs, full e = true → maskHas e.arrived l = false) → t1 = t)) ∧
  (∀ (r : State) w l x t, r.waves.find w = some x → x.threads[l]? = some t → x.tile = none →
    (∃ n t2, n ≠ l ∧ x.threads[n]? = some t2 ∧ t2.done = false) →
    let gone : Thread → Thread := fun t =>
      { t with st := .exited, resv := none, stack := [], spillp := t.spillb, accs := [] }
    let x1 := ((x.updThread l gone).joinsDone).syncsDone.fixTurn
    (∃ t1, x1.threads[l]? = some t1 ∧ t1.st = .exited ∧ t1.stack = [] ∧ t1.resv = none ∧ t1.spillp = t.spillb ∧
      t1.accs = [] ∧ t1.v = t.v) ∧
    ((∀ a ∈ x.arrs, x1.allIn a.mask a.arrived = false) → (r.exitThread w l).waves.find w = some x1 ∧
      (r.exitThread w l).mem = r.mem ∧ (r.exitThread w l).wgs = r.wgs ∧
      ∀ v, v ≠ w → (r.exitThread w l).waves.find v = r.waves.find v) ∧
    (∀ a, x.arrs = [a] → x1.allIn a.mask a.arrived = true →
      let r1 := { r with waves := r.waves.ins w { x1 with arrs := [] } }
      let b := r.bar a.bar
      (b.pend = 0 → b.blnd ≠ b.btgt → r.exitThread w l = r1.putBar a.bar { b with fltc := true }) ∧
      (b.pend ≠ 0 → b.pend ≠ 1 ∨ b.blnd ≠ b.btgt →
        r.exitThread w l = r1.putBar a.bar { b with pend := b.pend - 1 }))) ∧
  (∀ (r : State) w x, r.waves.find w = some x → x.threads.all Thread.done = true →
    (r.waveEnd w).waves.find w = none ∧ (r.waveEnd w).ended.find w = some x)

/-- R145, R146: a spawn appends the record in A to A + 3 to the bin of its entry, region, tag and depth in the cluster, and
answers 1; an entry that is misaligned faults with code 0x02, a thread of depth 8 with code 0x18; where no bin can take it,
it answers 0, or faults with code 0x09 under FLT. -/
def Obligations.Spawns : Prop :=
  ∀ (f : Frame) (flt : Bool) (s s1 : State) (c : Ctx), Begins (.spawn f flt) s c s1 →
    let entry : Nat → DWord := fun l =>
      if f.isS then BitVec.ofNat 64 (c.b l 2) else c.pc + BitVec.ofInt 64 (4 * f.x.toInt)
    exec (.spawn f flt) s = .next (s1.lanes c fun r l => r.spawnLane c l flt) ∧
    ∀ (r r1 r2 : State) (l : Nat) (sub : BitVec 8),
      ((entry l).toNat % 4 ≠ 0 → r.spawnLane c l flt = .fault r { code := 2, sub := 8, addr := some (entry l).toNat }) ∧
      ((entry l).toNat % 4 = 0 → (c.thread l).sdep = 8 →
        r.spawnLane c l flt = .fault r { code := 0x18, sub := 0, addr := some (entry l).toNat }) ∧
      ((entry l).toNat % 4 = 0 → (c.thread l).sdep ≠ 8 → r.releaseAt c.w l .cls = some r1 →
        (r1.spawnAppend (clusterOfWave c.w) c.x.rgn (entry l) (r1.tagOf c.x.rgn) ((c.thread l).sdep + 1)
            (BitVec.ofNat 128 (c.a l 4)) = .ok r2 → r.spawnLane c l flt = .ok r2 [1]) ∧
        (r1.spawnAppend (clusterOfWave c.w) c.x.rgn (entry l) (r1.tagOf c.x.rgn) ((c.thread l).sdep + 1)
            (BitVec.ofNat 128 (c.a l 4)) = .error sub →
          r.spawnLane c l flt = if flt then .fault r1 { code := 9, sub := sub } else .ok r1 [0])) ∧
      (∀ i b, (r.cluster (clusterOfWave c.w)).bins.find? (fun e =>
          e.2.hasKey c.x.rgn (entry l) (r.tagOf c.x.rgn) ((c.thread l).sdep + 1)) = some (i, b) →
        (r.cluster (clusterOfWave c.w)).poolUsed < 4096 → b.recs.all (fun e => e.chunk.isNone) = true →
        ∀ data, r.spawnAppend (clusterOfWave c.w) c.x.rgn (entry l) (r.tagOf c.x.rgn) ((c.thread l).sdep + 1) data =
          .ok (r.setCluster (clusterOfWave c.w)
            { r.cluster (clusterOfWave c.w) with
              bins := (r.cluster (clusterOfWave c.w)).bins.ins i { b with recs := b.recs ++ [⟨data, r.clusterClk (clusterOfWave c.w), none⟩] } }))

/-! ### Thread memory access -/

/-- R280, R281, R277: an access of a core's wave that lies in one page its core's TLB holds, with the permission it needs, on
a class it is admitted on, in local memory of a partition of its cluster, reaches that page's frame; nothing changes. One
without the permission is refused with code 0x05, subcode 0x00, and the leaf leaves the TLBs (R282). -/
def Obligations.TranslationHit : Prop :=
  ∀ (s : State) (x : Wave) (w g va size : Nat) (leaf : Leaf) (cls : PgCls → Option (BitVec 8)) (mode : Tagging),
    coreOfWave w = some g → tlbFind (s.core g).tlb (s.asrOf x.rgn) va = some leaf →
    locOf (leaf.key + (va - leaf.va)) = 0 → 0 < size → va % 4096 + size ≤ 4096 → va < 2 ^ 64 →
    (leaf.rd = true → cls leaf.cls = none → s.inPartition (clusterOfWave w) (leaf.key + (va - leaf.va)) = true →
      s.reach (x.agent w) .rd cls mode va size = .ok s [⟨leaf.key + (va - leaf.va), va, size, leaf.cls⟩]) ∧
    (leaf.wr = true → cls leaf.cls = none → s.inPartition (clusterOfWave w) (leaf.key + (va - leaf.va)) = true →
      s.windowBad x.rgn mode (leaf.key + (va - leaf.va)) = none →
      s.reach (x.agent w) .wr cls mode va size = .ok s [⟨leaf.key + (va - leaf.va), va, size, leaf.cls⟩]) ∧
    (leaf.rd = false → s.reach (x.agent w) .rd cls mode va size =
      .fault (s.uninstall (x.agent w) leaf) [] { code := 5, sub := 0, addr := some va })

/-- R150 to R155, R160, R197, R280, R331: what issuing a load does in each lane. The address is the base plus the scaled index plus
the offset, modulo the width of the space; where it is aligned and reached, the access waits to be performed, with its
ordering, scope and version tag, for the destination; a misaligned one faults with code 0x02, and one beyond a window
with code 0x07, or 0x05 in the constant space. A window access is never split. -/
def Obligations.LoadsIssue : Prop :=
  ∀ (f : Frame) (m : MemMod) (s s1 : State) (c : Ctx),
    let index : Nat → Int := fun l => if m.ixs then intOf (c.b l) .s32 else (c.b l : Int)
    let off : Int := if f.isS then 0 else f.x.toInt
    let glob : Nat → Nat := fun l => lowBits (c.a l 2 + index l * m.ctl.sc.factor + off) 64
    let win : Nat → Nat := fun l => lowBits (c.a l + index l * m.ctl.sc.factor + off) 32
    let resv : Nat → Nat := fun l => lowBits (c.a l 2 + off) 64
    let scope : Scope := if m.ord = .plain then .thr else m.ctl.scope
    let ok : Nat → Prop := fun va => va % (if m.ord = .plain then min 4 m.wid.size else m.wid.size) = 0
    let acc : AccKind → Space → List Part → Option (BitVec 5) → Acc := fun k sp ps tag =>
      ⟨c.id, k, sp, ps, m.ord, scope, tag, some ⟨f.d, m.wid.words, true⟩, f.la.toNat, none, c.pc, none, [], [], none, none, 0⟩
    (Begins (.ld f m) s c s1 →
      exec (.ld f m) s = .next (s1.lanes c fun r l => r.loadLane c l m .tagged) ∧
      ∀ (r r1 : State) l parts,
        (ok (glob l) → r.reach (c.x.agent c.w) .rd clsAny .tagged (glob l) m.wid.size = .ok r1 parts →
          r.loadLane c l m .tagged = .pend r1 (acc (.load m.wid false) .glob parts (r1.liveTag c.x.rgn))) ∧
        (¬ ok (glob l) → r.loadLane c l m .tagged = .fault r { code := 2, sub := 1, addr := some (glob l) })) ∧
    (Begins (.ldBase f m) s c s1 →
      exec (.ldBase f m) s = .next (s1.lanes c fun r l => r.loadLane c l m .base) ∧
      ∀ (r r1 : State) l parts,
        ok (glob l) → r.reach (c.x.agent c.w) .rd clsAny .base (glob l) m.wid.size = .ok r1 parts →
        r.loadLane c l m .base = .pend r1 (acc (.load m.wid false) .glob parts none)) ∧
    (Begins (.ldr f m) s c s1 →
      exec (.ldr f m) s = .next (s1.lanes c fun r l => r.ldrLane c l m) ∧
      ∀ (r r1 : State) l parts,
        (resv l % m.wid.size = 0 → r.reach (c.x.agent c.w) .rd clsResv .tagged (resv l) m.wid.size = .ok r1 parts →
          r.ldrLane c l m = .pend r1 (acc (.load m.wid true) .glob parts (r1.liveTag c.x.rgn))) ∧
        (resv l % m.wid.size ≠ 0 → r.ldrLane c l m = .fault r { code := 2, sub := 1, addr := some (resv l) })) ∧
    (∀ tob, Begins (.ldS f m tob) s c s1 →
      exec (.ldS f m tob) s = .next (s1.lanes c fun r l => r.loadWinLane c l m tob) ∧
      ∀ (r : State) l, ok (win l) →
        let size := if tob then r.tobSize c.x.wg else r.scrSize c.x.wg
        r.loadWinLane c l m tob =
          if win l + m.wid.size ≤ size then
            .pend r (acc (.load m.wid false) (if tob then .tob c.x.wg else .scr c.x.wg) [⟨win l, win l, m.wid.size, .h⟩] none)
          else .fault r { code := 7, sub := if tob then 1 else 0, addr := some (win l) }) ∧
    (Begins (.ldC f m) s c s1 →
      exec (.ldC f m) s = .next (s1.lanes c fun r l => r.loadConstLane c l m) ∧
      ∀ (r r1 : State) l parts (y : Region), r.region? c.x.rgn = some y → m.ord = .plain → ok (win l) →
        (win l + m.wid.size ≤ y.rcb.constsz →
          r.reach (c.x.agent c.w) .rd clsAny .base ((y.rcb.constb.toNat + win l) % 2 ^ 64) m.wid.size = .ok r1 parts →
          r.loadConstLane c l m = .pend r1 (acc (.constant m.wid) .glob parts none)) ∧
        (y.rcb.constsz < win l + m.wid.size →
          r.loadConstLane c l m = .fault r { code := 5, sub := 4, addr := some (win l) }))

/-- R150 to R155, R158, R161, R197, R331: what issuing a store does in each lane: the bytes of its data wait to be performed at the
address, and `stc` waits for its status too; nothing is stored yet. Outside a facet region `st.base` is exactly `st`. A
prefetch on a page of class R or P fills the line into the core's cache, one of class H into the home's slice. That one whose page
no TLB holds asks for a walk, and drops itself, is the model's reading (assumption 18). A window store is never split: where a byte
of it lies beyond the window, nothing of it is performed. -/
def Obligations.StoresIssue : Prop :=
  ∀ (f : Frame) (m : MemMod) (s s1 : State) (c : Ctx),
    let index : Nat → Int := fun l => if m.ixs then intOf (c.b l) .s32 else (c.b l : Int)
    let off : Int := if f.isS then 0 else f.x.toInt
    let glob : Nat → Nat := fun l => lowBits (c.a l 2 + index l * m.ctl.sc.factor + off) 64
    let win : Nat → Nat := fun l => lowBits (c.a l + index l * m.ctl.sc.factor + off) 32
    let resv : Nat → Nat := fun l => lowBits (c.a l 2 + off) 64
    let scope : Scope := if m.ord = .plain then .thr else m.ctl.scope
    let ok : Nat → Prop := fun va => va % (if m.ord = .plain then min 4 m.wid.size else m.wid.size) = 0
    let data : Nat → List Byte := fun l => toLe m.wid.size (c.d l m.wid.words)
    let acc : AccKind → Space → List Part → Option (BitVec 5) → Option Dst → Acc := fun k sp ps tag d =>
      ⟨c.id, k, sp, ps, m.ord, scope, tag, d, f.la.toNat, none, c.pc, none, [], [], none, none, 0⟩
    let mode : State → Tagging := fun r => if (facetOf (r.liveTag c.x.rgn)).isSome then .base else .tagged
    (Begins (.st f m) s c s1 →
      exec (.st f m) s = .next (s1.lanes c fun r l => r.storeLane c l m .tagged) ∧
      ∀ (r r1 : State) l parts,
        (ok (glob l) → r.reach (c.x.agent c.w) .wr clsStore .tagged (glob l) m.wid.size = .ok r1 parts →
          r.storeLane c l m .tagged = .pend r1 (acc (.store (data l)) .glob parts (r1.liveTag c.x.rgn) none)) ∧
        (¬ ok (glob l) →
          r.storeLane c l m .tagged = .fault r { code := 2, sub := 1, addr := some (glob l), wr := true })) ∧
    (Begins (.stBase f m) s c s1 →
      exec (.stBase f m) s = .next (s1.lanes c fun r l => r.storeLane c l m (mode r)) ∧
      ∀ (r r1 : State) l parts,
        ok (glob l) → r.reach (c.x.agent c.w) .wr clsStore (mode r) (glob l) m.wid.size = .ok r1 parts →
        r.storeLane c l m (mode r) =
          .pend r1 (acc (.store (data l)) .glob parts (if mode r = .base then none else r1.liveTag c.x.rgn) none)) ∧
    (∀ tob, Begins (.stS f m tob) s c s1 →
      exec (.stS f m tob) s = .next (s1.lanes c fun r l => r.storeWinLane c l m tob) ∧
      ∀ (r : State) l, ok (win l) →
        let size := if tob then r.tobSize c.x.wg else r.scrSize c.x.wg
        let space : Space := if tob then .tob c.x.wg else .scr c.x.wg
        r.storeWinLane c l m tob =
          if win l + m.wid.size ≤ size then
            .pend r (acc (.store (data l)) space [⟨win l, win l, m.wid.size, .h⟩] none none)
          else .fault r { code := 7, sub := if tob then 1 else 0, addr := some (win l), wr := true }) ∧
    (Begins (.stc f m) s c s1 →
      exec (.stc f m) s = .next (s1.lanes c fun r l => r.stcLane c l m) ∧
      ∀ (r r1 : State) l parts,
        resv l % m.wid.size = 0 → r.reach (c.x.agent c.w) .wr clsResv .tagged (resv l) m.wid.size = .ok r1 parts →
        r.stcLane c l m = .pend r1 (acc (.stc (toLe m.wid.size (c.b l m.wid.words))) .glob parts (r1.liveTag c.x.rgn)
          (some ⟨f.d, 1, true⟩))) ∧
    (Begins (.pf f m) s c s1 →
      exec (.pf f m) s = .next (s1.lanes c fun r l => .ok (r.pfLane c l m) []) ∧
      ∀ (r : State) l g, coreOfWave c.w = some g →
        (∀ leaf, tlbFind (r.core g).tlb (r.asrOf c.x.rgn) (glob l) = some leaf →
          r.checkLeaf (c.x.agent c.w) leaf (glob l) .rd clsAny = none → locOf (leaf.key + (glob l - leaf.va)) = 0 →
          let line := (leaf.key + (glob l - leaf.va)) / 256
          (leaf.cls = .h → r.pfLane c l m = r.atHome (256 * line) 256) ∧
          (leaf.cls ≠ .h → (r.core g).caches = true →
            r.pfLane c l m = (((r.fill g (4 * line) leaf.cls).fill g (4 * line + 1) leaf.cls).fill g (4 * line + 2)
              leaf.cls).fill g (4 * line + 3) leaf.cls)) ∧
        (tlbFind (r.core g).tlb (r.asrOf c.x.rgn) (glob l) = none →
          tlbFind (r.cluster (clusterOfWave c.w)).tlb (r.asrOf c.x.rgn) (glob l) = none →
          r.pfLane c l m = r.askWalk c.x.rgn (clusterOfWave c.w) (glob l)))

/-- R245 to R247, R249 to R256: what issuing an atomic does in each lane: the read-modify-write waits to be performed at
its address, which is the base plus the offset; where the service wave performs it, it joins that wave's queue; it needs
its natural alignment, and the memory-side operations a page of class H. A literal B of an `.f32` atomic is the exact value
that it names (R39). -/
def Obligations.AtomicsIssue : Prop :=
  ∀ (f : Frame) (ctl : AtomCtl) (base : Bool) (s s1 : State) (c : Ctx),
    let va : Nat → Nat := fun l => lowBits (c.a l 2 + ctl.off.toInt) 64
    let win : Nat → Nat := fun l => lowBits (c.a l + ctl.off.toInt) 32
    let mode : Tagging := if base then .base else .tagged
    let tag : State → Option (BitVec 5) := fun r => if base then none else r.liveTag c.x.rgn
    let acc : AccKind → Space → List Part → Option (BitVec 5) → Option Nat → Acc := fun k sp ps t n =>
      ⟨c.id, k, sp, ps, ctl.ord, ctl.scope, t, n.map fun n => ⟨f.d, n, true⟩, f.la.toNat, none, c.pc, none, [], [], none, none, 0⟩
    let req : Bool → Nat → Option Nat → (Ctx → Nat → AccKind) → Ctx → Nat → Req := fun home size n k c l =>
      c.atomReq l ctl base size home (k c l) n
    let issues : Instr → Bool → Nat → Option Nat → (Ctx → Nat → AccKind) → Prop := fun i home size n k =>
      BeginsIf i s (fun c r => r.svcFits c (req home size n k)) c s1 →
        exec i s = .next (s1.lanes c fun r l => r.atomLane c l (req home size n k c l)) ∧
        ∀ (r r1 : State) l parts,
          (va l % size = 0 →
            r.reach (c.x.agent c.w) .wr (if home then clsHome else clsAtom ctl.scope) mode (va l) size = .ok r1 parts →
            let a := acc (k c l) .glob parts (tag r1) n
            (viaService c.w a = false → r.atomLane c l (req home size n k c l) = .pend r1 a) ∧
            (viaService c.w a = true → r.atomLane c l (req home size n k c l) =
              .pend ((r1.setCluster (clusterOfWave c.w) { r1.cluster (clusterOfWave c.w) with
                  svc := (r1.cluster (clusterOfWave c.w)).svc ++ [⟨c.w, l, c.id⟩] }).updThread c.w l
                fun t => { t with clsAt := true }) a)) ∧
          (va l % size ≠ 0 →
            r.atomLane c l (req home size n k c l) = .fault r { code := 2, sub := 1, addr := some (va l), wr := true })
    (∀ op ty, issues (.atom f op ty base ctl) false (4 * ty.words) (some ty.words)
      fun c l => .rmw op ty (c.atomB l ty)) ∧
    (∀ op ty, issues (.red f op ty base ctl) false (4 * ty.words) none fun c l => .rmw op ty (c.atomB l ty)) ∧
    (∀ ty, issues (.cas f ty base ctl) false (4 * ty.words) (some ty.words)
      fun c l => .cas ty (c.b l ty.words) (c.c l ty.words)) ∧
    (∀ op ty, issues (.mred f op ty base ctl) true 64 none fun c l => .mred op ty (c.b l 16)) ∧
    issues (.mcas f base ctl) true 16 (some 4) (fun c l => .mcas (c.b l 4) (c.c l 4)) ∧
    (∀ rnd ty, issues (.mscale f rnd ty base ctl) true 64 none
      fun c l => .mscale rnd ty (c.c l 2 % 2 ^ 32) (c.c l 2 / 2 ^ 32) (c.b l 16)) ∧
    (∀ op ty tob, Begins (.atomS f op ty tob ctl) s c s1 → ∃ g : State → Nat → Lane,
      exec (.atomS f op ty tob ctl) s = .next (s1.lanes c g) ∧
      ∀ (r : State) l, win l % (4 * ty.words) = 0 →
        win l + 4 * ty.words ≤ (if tob then r.tobSize c.x.wg else r.scrSize c.x.wg) →
        g r l = .pend r (acc (.rmw op ty (c.atomB l ty)) (if tob then .tob c.x.wg else .scr c.x.wg)
          [⟨win l, win l, 4 * ty.words, .h⟩] none (some ty.words))) ∧
    (∀ l ty, (∀ n, c.e.f.b = .lit n → c.atomB l .f32 = roundF (.ofInt n.toNat) .f32 .rne false) ∧
      (ty ≠ .f32 ∨ (∀ n, c.e.f.b ≠ .lit n) → c.atomB l ty = c.b l ty.words))

/-- R7, R153, R155, R252 to R256, R289: what an access does when it is performed at the home of one page of class H, outside
every facet window, over a link that is up and without a data error: a load reads its bytes, extended to its registers,
and changes no byte, wave or core; a store leaves every byte outside its own; a read-modify-write answers the old value and leaves the
combined one. -/
def Obligations.AccessesPerform : Prop :=
  ∀ (s : State) (w lane : Nat) (a : Acc) (p : Part),
    a.space = .glob → a.parts = [p] → p.cls = .h → a.ord = .plain ∨ a.ord = .rlx → 0 < p.size →
    s.cutOff p.key = false → s.poisonedFor a.tag p.key p.size = false →
    (∀ k, p.key ≤ k → k < p.key + p.size → s.windowOf k = none) →
    (∀ wid, a.kind = .load wid false → a.got = [] → a.early = none → ∃ q, s.perform w lane a = some q ∧
      q.val = some (loadWords wid (s.num p.key p.size)) ∧ q.bad = none ∧ q.full = none ∧ q.s.mem = s.mem ∧
      q.s.waves = s.waves ∧ q.s.cores = s.cores) ∧
    (∀ bs, a.kind = .store bs → bs.length = p.size → ∃ q, s.perform w lane a = some q ∧ q.val = none ∧ q.bad = none ∧
      q.full = none ∧
      ∀ k, q.s.byte k = if p.key ≤ k ∧ k < p.key + p.size then bs.getD (k - p.key) 0 else s.byte k) ∧
    (a.kind.isRmw = true → ∃ q, s.perform w lane a = some q ∧ q.bad = none ∧ q.full = none ∧
      q.val = some (wordsOf a.words (s.num p.key p.size)) ∧
      ∀ k, q.s.byte k = if p.key ≤ k ∧ k < p.key + p.size
        then (toLe p.size (a.kind.newVal (s.num p.key p.size))).getD (k - p.key) 0 else s.byte k)

/-- R252 to R255: the value each atomic leaves: the sum modulo the width, the smaller or larger of the two as the type orders
them, the bitwise combination, the new value, and for `cas` the new value exactly where the old one matches. A floating sum is
rounded once, to nearest even, and the smaller or larger is that of `fmin` or `fmax` without flushing. A memory-side operation acts
on each element of its sector, and `mscale` rounds each exact sum of two products once. -/
def Obligations.AtomicValues : Prop :=
  let els : AtomTy → Nat := fun ty => if ty = .bf16 then 16 else 32
  let fmt : AtomTy → Fmt := fun ty => if ty = .bf16 then .bf16 else .f32
  (∀ old x, AccKind.newVal (.rmw .add .z32 x) old = (old + x) % 2 ^ 32) ∧
  (∀ old x, old < 2 ^ 32 → x < 2 ^ 32 → AccKind.newVal (.rmw .add .s32 x) old = (old + x) % 2 ^ 32) ∧
  (∀ old x, AccKind.newVal (.rmw .add .z64 x) old = (old + x) % 2 ^ 64) ∧
  (∀ old x, AccKind.newVal (.rmw .add .s64 x) old = (old + x) % 2 ^ 64) ∧
  (∀ ty old x, ty = .z32 ∨ ty = .z64 →
    AccKind.newVal (.rmw .min ty x) old = min old x ∧ AccKind.newVal (.rmw .max ty x) old = max old x) ∧
  (∀ old x, old < 2 ^ 32 → x < 2 ^ 32 →
    AccKind.newVal (.rmw .min .s32 x) old = (if (BitVec.ofNat 32 old).sle (BitVec.ofNat 32 x) then old else x) ∧
    AccKind.newVal (.rmw .max .s32 x) old = if (BitVec.ofNat 32 old).sle (BitVec.ofNat 32 x) then x else old) ∧
  (∀ old x, old < 2 ^ 64 → x < 2 ^ 64 →
    AccKind.newVal (.rmw .min .s64 x) old = (if (BitVec.ofNat 64 old).sle (BitVec.ofNat 64 x) then old else x) ∧
    AccKind.newVal (.rmw .max .s64 x) old = if (BitVec.ofNat 64 old).sle (BitVec.ofNat 64 x) then x else old) ∧
  (∀ ty old x, ty = .f32 ∨ ty = .bf16 →
    let y : XR := fval old (fmt ty) false
    let z : XR := fval x (fmt ty) false
    combine .add ty old x = fres (XR.add .rne y z) (fmt ty) .rne false false ∧
    combine .min ty old x = fres (minMax false y z) (fmt ty) .rne false false ∧
    combine .max ty old x = fres (minMax true y z) (fmt ty) .rne false false) ∧
  (∀ op old x, AccKind.newVal (.rmw op .f32 x) old = combine op .f32 old x) ∧
  (∀ ty old x, ty = .b32 ∨ ty = .b64 →
    AccKind.newVal (.rmw .and ty x) old = old &&& x ∧ AccKind.newVal (.rmw .or ty x) old = old ||| x ∧
    AccKind.newVal (.rmw .xor ty x) old = old ^^^ x ∧ AccKind.newVal (.rmw .exch ty x) old = x) ∧
  (∀ ty old cmp new, AccKind.newVal (.cas ty cmp new) old = if old = cmp then new else old) ∧
  (∀ old cmp new, AccKind.newVal (.mcas cmp new) old = if old = cmp then new else old) ∧
  (∀ op ty old x i, ty = .s32 ∨ ty = .z32 ∨ ty = .b32 ∨ ty = .f32 ∨ ty = .bf16 → i < 512 / els ty →
    AccKind.newVal (.mred op ty x) old / 2 ^ (els ty * i) % 2 ^ els ty =
      combine op ty (old / 2 ^ (els ty * i) % 2 ^ els ty) (x / 2 ^ (els ty * i) % 2 ^ els ty)) ∧
  ∀ rnd ty a b old x i, ty = .f32 ∨ ty = .bf16 → i < 512 / els ty →
    AccKind.newVal (.mscale rnd ty a b x) old / 2 ^ (els ty * i) % 2 ^ els ty =
      fres (XR.add rnd ((fval a .f32 false).mul (fval (old / 2 ^ (els ty * i) % 2 ^ els ty) (fmt ty) false))
        ((fval b .f32 false).mul (fval (x / 2 ^ (els ty * i) % 2 ^ els ty) (fmt ty) false))) (fmt ty) rnd false false

/-- R160 to R162: a load-reserve at the home holds its 32-byte grain for the thread; a store-conditional whose thread still
holds it stores and answers 0, any other stores nothing and answers 1, and both give the reservation up; a store or a
read-modify-write leaves its own thread's. Each of these writes clears the reservations held there on its grain by all other threads,
those of its wave among them, and no reservation held elsewhere. A store in a core's copy of class P clears those that other threads
hold at that core on its grain, and none held of it at another core or at its home. -/
def Obligations.Reservations : Prop :=
  ∀ (s : State) (w lane : Nat) (a : Acc) (p : Part) (t : Thread),
    a.space = .glob → a.parts = [p] → a.ord = .plain ∨ a.ord = .rlx → s.thread? w lane = some t →
    s.cutOff p.key = false → s.poisonedFor a.tag p.key p.size = false → s.windowOf p.key = none →
    p.key % 32 + p.size ≤ 32 → 0 < p.size →
    let here : Resv := ⟨.home, p.key / 32⟩
    let swept : Perf → Prop := fun q => ∀ v n u, (v, n) ≠ (w, lane) → s.thread? v n = some u →
      (q.s.thread? v n).map (·.resv) = some (if u.resv = some here then none else u.resv)
    let stored : Perf → List Byte → Prop := fun q bs => q.bad = none ∧ q.full = none ∧
      ∀ k, q.s.byte k = if p.key ≤ k ∧ k < p.key + p.size then bs.getD (k - p.key) 0 else s.byte k
    (p.cls = .h →
      (∀ wid, a.kind = .load wid true → a.got = [] → a.early = none → ∃ q, s.perform w lane a = some q ∧
        q.val = some (loadWords wid (s.num p.key p.size)) ∧ q.bad = none ∧ q.full = none ∧ q.s.mem = s.mem ∧
        q.s.waves = (s.updThread w lane fun t => { t with resv := some here }).waves) ∧
      (∀ bs, a.kind = .stc bs → bs.length = p.size → t.resv = some here →
        ∃ q, s.perform w lane a = some q ∧ q.val = some [0] ∧ stored q bs ∧ swept q ∧
          (q.s.thread? w lane).map (·.resv) = some none) ∧
      (∀ bs, a.kind = .stc bs → t.resv ≠ some here →
        s.perform w lane a = some ⟨s.updThread w lane fun t => { t with resv := none }, some [1], none, none⟩) ∧
      (∀ bs, a.kind = .store bs → bs.length = p.size →
        ∃ q, s.perform w lane a = some q ∧ q.val = none ∧ stored q bs ∧ swept q ∧
          (q.s.thread? w lane).map (·.resv) = some t.resv) ∧
      (a.kind.isRmw = true →
        ∃ q, s.perform w lane a = some q ∧ stored q (toLe p.size (a.kind.newVal (s.num p.key p.size))) ∧ swept q ∧
          (q.s.thread? w lane).map (·.resv) = some t.resv)) ∧
    (∀ g bs, p.cls = .p → coreOfWave w = some g → (s.core g).caches = true → a.kind = .store bs → bs.length = p.size →
      ∃ q, s.perform w lane a = some q ∧
        (t.resv = some ⟨.core g, p.key / 32⟩ → (q.s.thread? w lane).map (·.resv) = some t.resv) ∧
        ∀ v n u, (v, n) ≠ (w, lane) → s.thread? v n = some u →
          (u.resv = some ⟨.core g, p.key / 32⟩ → (q.s.thread? v n).map (·.resv) = some none) ∧
          ∀ r, u.resv = some r → r.pt ≠ .core g → r.grain = p.key / 32 → (q.s.thread? v n).map (·.resv) = some (some r))

/-- R34, R155, R246, R247, R298, R300, R302, R304: the events that complete what a thread has issued. A pending result, once it and what
it waits for are performed, is written to its destination and is pending no more; the next grain of a store, or a fence, is
performed; a read-modify-write of the home is performed; the service wave performs the first request of its queue and
writes its result. Of an s or k destination one lane alone writes (R17). An access is performed last of those that it waits for:
among them are the earlier ones of its thread that touch a byte it touches, its acquires, before a release or a fence those that this
covers, and a `fence.rel` before a store. A release may be performed ahead of a plain or relaxed store, as a free value has it: what
acts next in its scope waits for the store (R294; assumption 63). -/
def Obligations.IssuedAccessesComplete : Prop :=
  ∀ (s s1 s2 : State) (w lane id k : Nat) (a b : Acc),
    (∀ d v, s.accOf w lane id = some a → a.dst.isSome = true → a.queue? = none → a.redo = none →
      (s.waves.find w).isSome = true →
      s.performUpTo w lane id = some s1 → s1.accOf w lane id = some b → b.dst = some d → b.val = some v → b.queue? = none →
      exec (.llResultReturn w lane id false) s =
        .next (if d.wr then (s1.updThread w lane fun t => t.setAcc id fun _ => none).putDst w lane d.op v
          else s1.updThread w lane fun t => t.setAcc id fun _ => none)) ∧
    (∀ bs, s.accOf w lane id = some a → a.id = id → a.feed = none → a.kind = .store bs → (a.splitGrain bs).2 = none →
      s.performUpTo w lane id = some s1 → exec (.storePerform w lane id false) s = .next s1) ∧
    (∀ bs rest p, s.accOf w lane id = some a → a.id = id → a.feed = none → a.kind = .store bs → a.ord = .plain →
      a.splitGrain bs = (b, some rest) → s.chainIds w lane id = [(w, lane, id)] → s.perform w lane b = some p →
      p.full = none →
      exec (.storePerform w lane id false) s =
        .next (State.passOver s (p.s.updThread w lane fun t => (t.setAcc id fun _ => some rest).markDue a)
          (.thread w lane) b)) ∧
    (s.accOf w lane id = some a → a.id = id → a.feed = none → a.kind = .fence → s.performUpTo w lane id = some s1 →
      exec (.storePerform w lane id false) s = .next s1) ∧
    (s.accOf w lane id = some a → a.kind.isRmw = true →
      (s.cluster (clusterOfWave w)).svc.contains ⟨w, lane, id⟩ = false → s.performUpTo w lane id = some s1 →
      exec (.homeAtomicPerform w lane id false) s = .next s1) ∧
    (∀ q rest, (s.cluster k).svc = q :: rest → s.serveOne k q = some s1 →
      (s1.accOf q.wave q.lane q.acc = none → exec (.serviceWaveRequest k) s = .next s1) ∧
      (s1.accOf q.wave q.lane q.acc = some b → s1.returnOne q.wave q.lane q.acc = some s2 →
        exec (.serviceWaveRequest k) s = .next s2)) ∧
    (s.accOf w lane id = some a → s.chainIds w lane id = [(w, lane, id)] →
      (s.cluster (clusterOfWave w)).svc.contains ⟨w, lane, id⟩ = false →
      s.performUpTo w lane id = s.performOne w lane a) ∧
    (s.performUpTo w lane id =
      (s.chainIds w lane id).foldl (fun r e => r.bind fun r1 => r1.performElem e) (some s)) ∧
    (∀ (t : Thread) (e : Acc), s.thread? w lane = some t → a ∈ t.accs → a.id = id → (∀ x ∈ t.accs, x.id = id → x = a) →
      (s.chainIds w lane id).getLast? = some (w, lane, id) ∧
      let reads : Acc → Prop := fun x => (∃ wid r, x.kind = .load wid r) ∨ x.kind.isRmw = true
      let writes : Acc → Prop := fun x => (∃ bs, x.kind = .store bs ∨ x.kind = .stc bs) ∨ x.kind.isRmw = true
      let const : Acc → Prop := fun x => ∃ wid, x.kind = .constant wid
      let touches : Acc → Prop := fun x => reads x ∨ writes x ∨ const x
      let late : Prop := Config.late id = true ∧ e.feed = none ∧ (e.ord = .plain ∨ e.ord = .rlx) ∧ ∃ bs, e.kind = .store bs
      (e ∈ t.accs → e.id < id →
        (touches e ∧ touches a ∧ e.space = a.space ∧
          ∃ p ∈ e.parts, ∃ q ∈ a.parts, p.key < q.key + q.size ∧ q.key < p.key + p.size) ∨
        ((e.ord = .acq ∨ e.ord = .ar) ∧ (reads e ∨ e.kind = .fence)) ∨
        ((a.ord = .rel ∨ a.ord = .ar) ∧ (writes a ∨ a.kind = .fence) ∧ ¬ const e ∧ ¬ late) ∨
        (a.kind = .fence ∧ reads e) ∨
        (e.kind = .fence ∧ e.ord = .rel ∧ writes a) →
        (w, lane, e.id) ∈ s.chainIds w lane id))

/-! ### Barriers, copies and gathering -/

/-- R197, R200 to R207: what the barrier instructions do in each lane, once what is ordered before them is performed: on the
object their operand names, aligned to 32 bytes, inside the window and with its reserved fields 0, they set it afresh,
arrive, raise the byte target, answer the status of a phase that is complete or wait for it, and watch a counter; a fence
waits among the thread's own accesses, and makes its next store, arrival or engine issue a release, its latest load an
acquire (R304). A wait or an arrival that finds the phase complete completes it (R199). An arrival opens an instance or joins the one
that its wave has on the object, and the last lane of the mask closes it and takes one from what is pending; a mask without its lane, one
that differs from the instance's, a seventeenth instance, and an arrival with nothing pending fault. Detail word 0 of the fault 0x19
is the model's choice (assumption 70), and so is which release comes ahead of its thread's earlier stores (assumption 63). The arrival
of a watch whose counter has reached its target takes one from what is pending, once what the increments' releases have left is
performed. -/
def Obligations.BarrierInstructions : Prop :=
  ∀ (f : Frame) (ord : SyncOrd) (scope : Scope) (rmt : Bool) (s s1 : State) (c : Ctx),
    (Begins (.barInit f rmt) s c s1 → exec (.barInit f rmt) s =
      .next (s1.lanes c fun r l => r.onBar c l rmt fun r b => r.barInitLane b (c.b l))) ∧
    (Begins (.arrive f ord scope rmt) s c s1 → exec (.arrive f ord scope rmt) s =
      .next (s1.lanes c fun r l => r.onBar c l rmt fun r b => r.arriveLane c l ord scope b)) ∧
    (Begins (.expect f rmt) s c s1 → exec (.expect f rmt) s =
      .next (s1.lanes c fun r l => r.onBar c l rmt fun r b => r.expectLane b (c.b l))) ∧
    (Begins (.wait f ord scope rmt) s c s1 → exec (.wait f ord scope rmt) s =
      .next (s1.lanes c fun r l => r.onBar c l rmt fun r b => r.waitLane c l ord scope b)) ∧
    (Begins (.cwatch f rmt) s c s1 → exec (.cwatch f rmt) s =
      .next (s1.lanes c fun r l => r.onBar c l rmt fun r b => r.cwatchLane c l b)) ∧
    (Begins (.fence f ord scope) s c s1 → exec (.fence f ord scope) s =
      let o : Ord := if ord = .acq then .acq else if ord = .rel then .rel else .ar
      .next (s1.lanes c fun r l => .pend (r.updThread c.w l fun t => t.fence o scope)
        ⟨c.id, .fence, .glob, [], o, scope, none, none, 0, none, c.pc, none, [], [], none, none, 0⟩)) ∧
    (∀ t : Thread, (∀ a ∈ t.accs, a.kind.reads = false) → t.fenced = none →
      t.fence .acq scope = t ∧ t.fence .rel scope = { t with fenced := some scope } ∧
      t.fence .ar scope = { t with fenced := some scope }) ∧
    (∀ (t : Thread) (a : Acc), t.accs = [a] → a.kind.reads = true → a.ord = .plain →
      t.fence .acq scope = { t with accs := [{ a with ord := .acq, scope := scope }] }) ∧
    (∀ (r r1 r2 : State) (l : Nat) (b : BarRef) (g : State → BarRef → Lane),
      r.barIssue c.w l c.id = some r1 → r1.winPlace c.x rmt (c.barAddr l) = .ok b →
      r1.settleOwn c.w l c.id (.scr b.wg) b.off 32 = some r2 → r2.winPlace c.x rmt (c.barAddr l) = .ok b →
      r.onBar c l rmt g =
        if c.barAddr l % 32 ≠ 0 then .fault r2 { code := 2, sub := 1, addr := some (c.barAddr l) }
        else if r2.scrSize b.wg < b.off + 32 then .fault r2 { code := 7, sub := 0, addr := some (c.barAddr l) }
        else if barBad (r2.barRaw b) then .fault r2 { code := 7, sub := 2, addr := some (c.barAddr l) }
        else g r2 b) ∧
    (∀ (r : State) (b : BarRef) (n : Nat), 0 < n → n < 2 ^ 24 →
      ((r.bar b).wch = 0 → r.barInitLane b n = .ok (r.putBar b ⟨0, false, false, 0, n, n, 0, 0, 0⟩) []) ∧
      ((r.bar b).wch ≠ 0 → r.barInitLane b n = .fault r { code := 7, sub := 5 })) ∧
    (∀ (r : State) (b : BarRef) (n : Nat),
      r.expectLane b n = if (r.bar b).btgt + n < 2 ^ 32 then
        .ok (r.barStep b { r.bar b with btgt := (r.bar b).btgt + n }) [] else .fault r { code := 7, sub := 4 }) ∧
    (∀ (r : State) (l : Nat) (b : BarRef),
      ((r.bar b).pend ≠ 0 ∨ (r.bar b).blnd ≠ (r.bar b).btgt →
        (phaseDone (r.bar b).gen (c.b l) = true → ord ≠ .acq → r.waitLane c l ord scope b =
          .ok r [if (r.bar b).gen = (c.b l + 1) % 2 ^ 32 ∧ (r.bar b).fltp = false then 0 else 1]) ∧
        (phaseDone (r.bar b).gen (c.b l) = true → ∀ r1, ord = .acq → r.acquireAt c.w l scope = some r1 →
          r.waitLane c l ord scope b =
            .ok r1 [if (r.bar b).gen = (c.b l + 1) % 2 ^ 32 ∧ (r.bar b).fltp = false then 0 else 1]) ∧
        (phaseDone (r.bar b).gen (c.b l) = false → r.waitLane c l ord scope b =
          .block { r with nextId := r.nextId + 2 } (.phase b.wg b.off (BitVec.ofNat 32 (c.b l)) (c.dstOf l l 1)
            (if ord = .acq then some scope else none) r.nextId c.pc c.npc))) ∧
      ((r.bar b).pend = 0 → (r.bar b).blnd = (r.bar b).btgt → phaseDone (r.bar b).gen (c.b l) = false → ord ≠ .acq →
        phaseDone ((r.barStep b (r.bar b)).bar b).gen (c.b l) = true →
        r.waitLane c l ord scope b = .ok (r.barStep b (r.bar b))
          [((r.barStep b (r.bar b)).bar b).status (c.b l)])) ∧
    (∀ (r : State) (x : Wave) (l : Nat) (b : BarRef), r.waves.find c.w = some x →
      let m := BitVec.ofNat 32 (c.b l)
      let held := x.arrs.find? fun a => decide (a.bar = b)
      let fits : Prop := (x.kind = .caller → m = 1) ∧ maskHas m l = true
      (¬ fits → r.arriveLane c l ord scope b = .fault r { code := 0x19, sub := 2, det0 := m.toNat }) ∧
      (fits → ∀ a, held = some a → a.mask ≠ m →
        r.arriveLane c l ord scope b = .fault r { code := 0x19, sub := 1, det0 := a.mask.toNat }) ∧
      (fits → held = none → 16 ≤ x.arrs.length →
        r.arriveLane c l ord scope b = .fault r { code := 0x19, sub := 4, det0 := m.toNat }) ∧
      (fits → (∀ a, held = some a → a.mask = m) → (held = none → x.arrs.length < 16) → ∀ r1 y,
        ((if ord = .rel then r.releaseLag c.w l scope c.id else some r).bind fun r => r.fencedRelease c.w l) = some r1 →
        r1.waves.find c.w = some y → y.arrs = x.arrs →
        let arrived : Word := (match held with | some a => a.arrived | none => 0) ||| maskOf [l]
        let gen := [BitVec.ofNat 32 (r1.bar b).gen]
        (y.allIn m arrived = false → r.arriveLane c l ord scope b = .ok ((r1.setWave c.w { y with
          arrs := if held.isSome then x.arrs.map fun a => if a.bar = b then { a with arrived := a.arrived ||| maskOf [l] } else a
            else x.arrs ++ [⟨b, m, arrived⟩] }).barSettle b) gen) ∧
        (y.allIn m arrived = true → (r1.bar b).pend = 0 → r.arriveLane c l ord scope b = .fault r1 { code := 7, sub := 3 }) ∧
        (y.allIn m arrived = true → (r1.bar b).pend ≠ 0 →
          let r2 := r1.barStep b { r1.bar b with pend := (r1.bar b).pend - 1 }
          ∀ z, r2.waves.find c.w = some z → r.arriveLane c l ord scope b =
            .ok (r2.setWave c.w { z with arrs := z.arrs.filter fun a => !decide (a.bar = b) }) gen))) ∧
    (∀ (r : State) (b : BarRef),
      r.barSettle b = if (r.bar b).pend = 0 ∧ (r.bar b).blnd = (r.bar b).btgt then r.barStep b (r.bar b) else r) ∧
    (∀ (r r1 r2 : State) (p : Part) (l : Nat) (b : BarRef), c.b l 2 % 8 = 0 →
      r.reach (c.x.agent c.w) .rd clsHome .base (c.b l 2) 8 = .ok r1 [p] →
      let full : Prop := 512 ≤ r1.watchesAt p.key ∨ (r1.bar b).wch = 255
      (full → r.cwatchLane c l b = .ok r1 [1]) ∧
      (¬ full → r1.engineIssue c.w l c.id = some r2 → r.cwatchLane c l b =
        .ok (({ r2 with nextId := r2.nextId + 1, watches := r2.watches ++
            [⟨r2.nextId, p.key, BitVec.ofNat 64 (if c.e.f.isS then 0 else c.c l 2), some b, none, c.x.rgn,
              r2.tagOf c.x.rgn, some (c.w, l)⟩] } : State).barStep b { r2.bar b with wch := (r2.bar b).wch + 1 }) [0])) ∧
    (∀ (n : Nat) (x : Watch) (b : BarRef) (s0 : State),
      (s.watches.find? fun y => y.id == n) = some x → x.bar = some b → x.target.toNat ≤ leBytes (s.homeBytes none x.key 8) →
      s.force (.engine (x.by_.map fun t => .thread t.1 t.2) [] []) .dev = some s0 →
      let r := { s0 with watches := s0.watches.filter fun y => y.id != n }
      exec (.cwatchArrival n) s = .next (r.barStep b
        (if (r.bar b).pend = 0 then { r.bar b with wch := (r.bar b).wch - 1, fltc := true }
         else { r.bar b with wch := (r.bar b).wch - 1, pend := (r.bar b).pend - 1 })))

/-- R198, R199: the fields written to a barrier object are read back from the 32 bytes of its window, and no other byte of the
window changes, and reserved bits stand as they were; a phase completes exactly where nothing is pending and the bytes landed are the bytes expected: GEN
advances modulo 2^32, PEND takes EXPA, and the byte counts start at 0 again. A thread that waits for the phase returns from its
`wait` with the status of the phase, and goes on after it (R204). -/
def Obligations.BarrierPhases : Prop :=
  (∀ (s : State) (r : BarRef) (b : Bar), (s.wgs.find r.wg).isSome = true →
    b.gen < 2 ^ 32 → b.wch < 256 → b.expa < 2 ^ 32 → b.pend < 2 ^ 32 → b.btgt < 2 ^ 32 → b.blnd < 2 ^ 32 →
    (∀ i j k, b.rsv = 2 ^ 34 * i + 2 ^ 48 * j + 2 ^ 192 * k → i < 2 ^ 6 → j < 2 ^ 16 → k < 2 ^ 64 → (s.putBar r b).bar r = b) ∧
    (b.rsv = 0 → barBad ((s.putBar r b).barRaw r) = false) ∧
    ∀ y z, s.wgs.find r.wg = some y → (s.putBar r b).wgs.find r.wg = some z → ∀ off, off < r.off ∨ r.off + 32 ≤ off →
      NMap.get 0 z.scr off = NMap.get 0 y.scr off) ∧
  (∀ (s : State) (r : BarRef) (b : Bar), b.pend ≠ 0 ∨ b.blnd ≠ b.btgt → s.barStep r b = s.putBar r b) ∧
  (∀ (s : State) (r : BarRef) (b : Bar), (s.wgs.find r.wg).isSome = true → b.pend = 0 → b.blnd = b.btgt →
    b.gen < 2 ^ 32 → b.wch < 256 → b.expa < 2 ^ 32 → b.rsv = 0 →
    (s.barStep r b).bar r = ⟨(b.gen + 1) % 2 ^ 32, false, b.fltc, b.wch, b.expa, b.expa, 0, 0, 0⟩ ∧
    (s.barStep r b).mem = s.mem) ∧
  (∀ (t : Thread) (r : BarRef) (b : Bar) (g : Word) d id pc npc,
    t.st = .blocked (.phase r.wg r.off g d none id pc npc) → phaseDone b.gen g.toNat = true →
    (t.returnWait r b).st = .running ∧ (t.returnWait r b).pc = npc ∧ (t.returnWait r b).v = t.v ∧
    ∃ a, (t.returnWait r b).accs = t.countWindow.accs ++ [a] ∧ a.kind = .calc ∧ a.dst = some d ∧
      a.val = some [if b.gen = (g.toNat + 1) % 2 ^ 32 ∧ b.fltp = false then 0 else 1]) ∧
  (∀ (t : Thread) (r : BarRef) (b : Bar), (∀ g d acq id pc npc, t.st = .blocked (.phase r.wg r.off g d acq id pc npc) →
    phaseDone b.gen g.toNat = false) → t.returnWait r b = t) ∧
  (∀ (s : State) (r : BarRef), (s.bar r).pend = 0 → s.barArrive r = none) ∧
  (∀ g n, 1 ≤ n → n < 2 ^ 31 → g < 2 ^ 32 → phaseDone ((g + n) % 2 ^ 32) g = true) ∧
  (∀ g, g < 2 ^ 32 → phaseDone g g = false)

/-- R212, R213, R216: what issuing a copy or a halo does in each lane: with a well-formed descriptor whose local ranges lie in
their windows, an object it completes to and a free slot among the 256 of the core, the operation is in flight; an
ill-formed descriptor faults with code 0x0A, subcode 0x01, and where no slot is free the instruction waits. -/
def Obligations.CopiesIssue : Prop :=
  ∀ (f : Frame) (dg ck : Bool) (s s1 : State) (c : Ctx),
    (BeginsIf (.copy f dg ck) s (fun c r => r.slotsFit c) c s1 →
      exec (.copy f dg ck) s = .next (s1.lanes c fun r l => r.copyLane c l dg ck)) ∧
    (BeginsIf (.halo f) s (fun c r => r.slotsFit c) c s1 →
      exec (.halo f) s = .next (s1.lanes c fun r l => r.haloLane c l)) ∧
    (∀ (r r1 : State) (l : Nat) (d : BitVec 512),
      (if dg then r.readDesc c l (addrSum (c.a l 2) 0 1 c.immX 64) 64
        else r.winDesc c l (addrSum (c.a l) 0 1 c.immX 32) 64) = .ok r1 d →
      let e := if c.e.f.c = .zeroLit then d else dput d 63 0 (c.c l 2)
      r.copyLane c l dg ck = r1.copyStart c l ck (dput e 95 64 (c.localPlus (dfield e 95 64)))) ∧
    (∀ (r r1 : State) (l : Nat) (d : BitVec 512) (wg off : Nat) (done : Done),
      (copyBad d = true → r.copyStart c l ck d = .fault r { code := 0x0A, sub := 1 }) ∧
      (copyBad d = false → dfield d 101 99 ≠ 2 → r.winPlace c.x false (dfield d 95 64) = .ok ⟨wg, off⟩ →
        r.winPlace c.x false 0 = .ok ⟨wg, 0⟩ →
        let tob := dfield d 101 99 = 3
        (copyFits d off (if tob then r.tobSize wg else r.scrSize wg) = false →
          r.copyStart c l ck d = .fault r
            { code := 7, sub := if tob then 1 else 0, addr := some (dfield d 95 64), wr := dfield d 101 99 != 1 }) ∧
        (copyFits d off (if tob then r.tobSize wg else r.scrSize wg) = true → r.doneOf c l ck = .ok (r1, done) →
          r.copyStart c l ck d =
            if 256 ≤ r1.slotsUsed (r1.slotCore c wg) then .stay r1
            else .ok { r1 with nextId := r1.nextId + 1, copies := r1.copies ++
              [c.op r1 l .copy wg wg (dput d 95 64 off) (dfield d 143 128 * dfield d 175 160 * dfield d 191 176)
                done] } []))) ∧
    (∀ (r r1 : State) (l src : Nat) (d0 : BitVec 512) (b e : BarRef),
      r.winDesc c l (addrSum (c.a l) 0 1 c.immX 32) 32 = .ok r1 d0 →
      let d := dput d0 127 96 (c.localPlus (dfield d0 127 96))
      (haloBad d = true → r.haloLane c l = .fault r1 { code := 0x0A, sub := 1 }) ∧
      (haloBad d = false →
        dfield d 127 96 + (dfield d 159 144 - 1) * dfield d 223 192 + dfield d 143 128 ≤ r1.scrSize c.x.wg →
        r1.partnerOf c.x (dfield d 1 0) = some src → r1.barAt c.x true (dfield d 255 224) = .ok b →
        r1.barAt c.x false (c.b l) = .ok e →
        r.haloLane c l =
          if 256 ≤ r1.slotsUsed (r1.slotCore c c.x.wg) then .stay r1
          else .ok { r1 with nextId := r1.nextId + 1, copies := r1.copies ++
            [{ c.op r1 l .halo c.x.wg src d (dfield d 159 144 * dfield d 143 128) (.bar e) with
                wait := some (b, BitVec.ofNat 32 (c.c l)) }] } []))

/-- R214 to R216: the transfer of one part of a copy from memory to scratch, from scratch to the TOB and of a halo that has
started: the bytes of the part stand at the destination, they land at the barrier, and after the last the operation ends;
a fault of its accesses ends it with a record of code 0x0A. A part ends with the grain of its destination (the model's
reading, assumption 33). A halo starts once its
cluster barrier's phase is complete, with an acquire at `.cls`. -/
def Obligations.CopiesMove : Prop :=
  ∀ (s s1 s2 : State) (o : CopyOp) (parts : List Part) (bs : List Byte) (fl : Flt),
    (s.copies.find? fun p => p.id == o.id) = some o →
    let d0 := dfield o.desc 143 128
    let i := o.run % dfield o.desc 175 160
    let j := o.run / dfield o.desc 175 160
    let l := dfield o.desc 95 64 + i * dfield o.desc 287 256 + j * dfield o.desc 319 288 + o.off
    let g := lowBits ((dfield o.desc 63 0 : Int) + i * dsigned o.desc 223 192 + j * dsigned o.desc 255 224 + o.off) 64
    let n := min (d0 - o.off) (32 - l % 32)
    let r := s.setOp o.id fun o => some { o with started := true }
    (o.kind = .copy → o.held = false → o.started = true → dfield o.desc 103 102 = 0 →
      (dfield o.desc 101 99 = 0 → r.engParts o.eng .rd clsAny g n = .ok s1 parts →
        ((s1.copyOwnParts o parts).copyOwn o (.scr o.wg) l n).engFetch o.eng parts = .ok s2 bs →
        exec (.copyTransfer o.id) s = .next ((s2.copyPut o.wg false l bs).copyLanded o n d0)) ∧
      (dfield o.desc 101 99 = 0 → r.engParts o.eng .rd clsAny g n = .stop (.fault s1 fl) →
        exec (.copyTransfer o.id) s = .next (s1.copyFault o
          (if fl.code = 4 then 2 else if fl.code = 0x0E then 5 else 3) (fl.addr.getD 0) false)) ∧
      (dfield o.desc 101 99 = 2 → exec (.copyTransfer o.id) s =
        let t := (r.copyOwn o (.scr o.src) g n).copyOwn o (.tob o.wg) l n
        .next ((t.copyPut o.wg true l (t.copyWin o.src g n)).copyLanded o n d0))) ∧
    (∀ (t : State) (b : BarRef) (m run : Nat), o.done = .bar b →
      (m < o.left → (t.copyLanded o m run).mem = t.mem) ∧
      (o.left ≤ m → t.copyLanded o m run = (t.barLand b m false).setOp o.id fun _ => none)) ∧
    (o.kind = .halo → o.started = true →
      let src := dfield o.desc 95 64 + o.run * dfield o.desc 191 160 + o.off
      let dst := dfield o.desc 127 96 + o.run * dfield o.desc 223 192 + o.off
      let m := min (dfield o.desc 143 128 - o.off) (32 - dst % 32)
      src + m ≤ s.scrSize o.src → exec (.copyTransfer o.id) s =
        let t := s.copyOwn o (.scr o.wg) dst m
        .next ((t.copyPut o.wg false dst (t.copyWin o.src src m)).copyLanded o m (dfield o.desc 143 128))) ∧
    (∀ b g, o.wait = some (b, g) → o.started = false → phaseDone (s.bar b).gen g.toNat = true →
      (∀ y, s.wgs.find o.wg = some y → y.saving = false ∧ y.saved = false) →
      s.force (.engine (some (.thread o.w o.lane)) [o.core] []) .cls = some s1 →
      exec (.haloStart o.id) s = .next ((s1.pullFor o.w .cls).setOp o.id fun o => some { o with started := true }))

/-- R257 to R260, R266, R267: what the gathering instructions do in each lane. To an enabled queue with room `gq.enq` appends
the record, published, at the next ticket and answers 1, `gq.resv` reserves the slot and answers its ticket; without room
they answer 0 and FFFFFFFF, or fault with code 0x09; `gq.pub` publishes a slot its region has reserved. A configuration
starts the queue afresh, a disable voids every reservation with a record of fault 0x10 each, an acknowledgement frees entries, a query
answers the state word. Spilled entries for which there is room move back on chip first, and an entry that has none on chip stands
in spill (R260). -/
def Obligations.GatherInstructions : Prop :=
  ∀ (f : Frame) (flt : Bool) (s s1 : State) (c : Ctx),
    (Begins (.gqEnq f flt) s c s1 →
      exec (.gqEnq f flt) s = .next (s1.lanes c fun r l => r.produceLane c l flt true)) ∧
    (Begins (.gqResv f flt) s c s1 →
      exec (.gqResv f flt) s = .next (s1.lanes c fun r l => r.produceLane c l flt false)) ∧
    (Begins (.gqPub f) s c s1 → exec (.gqPub f) s = .next (s1.lanes c fun r l => r.publishLane c l)) ∧
    (Begins (.gqCfgConfigure f) s c s1 →
      exec (.gqCfgConfigure f) s = .next (s1.lanes c fun r l => r.configLane c l)) ∧
    (Begins (.gqCfgDisable f) s c s1 → exec (.gqCfgDisable f) s = .next (s1.lanes c fun r l => r.disableLane c l)) ∧
    (Begins (.gqCfgRelease f) s c s1 → exec (.gqCfgRelease f) s = .next (s1.lanes c fun r l => r.ackLane c l)) ∧
    (Begins (.gqCfgQuery f) s c s1 → exec (.gqCfgQuery f) s = .next (s1.lanes c fun r l => r.queryLane c l)) ∧
    (∀ (r r1 : State) (l k n : Nat),
      let r2 := r1.unspillQueue k n
      let q := r2.queue k n
      let slot : Option (BitVec 128) → Option Nat → GSlot := fun data sp =>
        ⟨q.ticket, data, r2.clusterClk k, c.x.rgn, r2.liveTag c.x.rgn, sp⟩
      (r.queueFor c.x.rgn (c.a l) = .ok (k, n) → r.releaseAt c.w l .dev = some r1 → (r1.queue k n).enabled = true →
        r2.roomFor k n = some none →
        r.produceLane c l flt true = .pend (r2.setQueue k n { q with
            ticket := nextTicket q.ticket
            slots := q.slots ++ [slot (some (BitVec.ofNat 128 (c.b l 4))) none] }) (c.calc l l [1])) ∧
      (r.queueFor c.x.rgn (c.a l) = .ok (k, n) → r1 = r → (r1.queue k n).enabled = true → r2.roomFor k n = some none →
        r.produceLane c l flt false = .pend (r2.setQueue k n { q with
            ticket := nextTicket q.ticket
            slots := q.slots ++ [slot none none] }) (c.calc l l [BitVec.ofNat 32 q.ticket])) ∧
      (∀ pos, r.queueFor c.x.rgn (c.a l) = .ok (k, n) → (r1.queue k n).enabled = true → r2.roomFor k n = some (some pos) →
        let put : Option (BitVec 128) → State := fun data => r2.setQueue k n { q with
          ticket := nextTicket q.ticket
          slots := q.slots ++ [slot data (some pos)]
          sOff := (q.sOff + 1) % max 1 q.ssize }
        (r.releaseAt c.w l .dev = some r1 → r.produceLane c l flt true =
          .pend ((put (some (BitVec.ofNat 128 (c.b l 4)))).spillPut k n pos (BitVec.ofNat 128 (c.b l 4))) (c.calc l l [1])) ∧
        (r1 = r → r.produceLane c l flt false = .pend (put none) (c.calc l l [BitVec.ofNat 32 q.ticket]))) ∧
      (r.queueFor c.x.rgn (c.a l) = .ok (k, n) → r1 = r → (r1.queue k n).enabled = true → r2.roomFor k n = none →
        r.produceLane c l flt false = if flt then .fault r2 { code := 9, sub := 0, det0 := c.a l }
          else .pend r2 (c.calc l l [0xFFFFFFFF])) ∧
      (r.queueFor c.x.rgn (c.a l) = .ok (k, n) → r.releaseAt c.w l .dev = some r1 → (r1.queue k n).enabled = true →
        r2.roomFor k n = none →
        r.produceLane c l flt true = if flt then .fault r2 { code := 9, sub := 0, det0 := c.a l }
          else .pend r2 (c.calc l l [0])) ∧
      (r.queueFor c.x.rgn (c.a l) = .ok (k, n) → (r.queue k n).enabled = false →
        r.produceLane c l flt false = if flt then .fault r { code := 9, sub := 1, det0 := c.a l }
          else .pend r (c.calc l l [0xFFFFFFFF])) ∧
      (2 ^ 15 ≤ c.a l → ∀ enq, r.produceLane c l flt enq = .fault r { code := 5, sub := 0x0B, det0 := c.a l }) ∧
      (∀ t, r.queueFor c.x.rgn (c.a l) = .ok (k, n) → r.releaseAt c.w l .dev = some r1 →
        let q := r1.queue k n
        (q.slots.find? fun t => t.ticket == c.b l && t.data.isNone && t.rgn == c.x.rgn) = some t →
        let put : GSlot → GSlot := fun u => if u.ticket == c.b l && u.data.isNone && u.rgn == c.x.rgn then
            { u with data := some (BitVec.ofNat 128 (c.d l 4)), clk := r1.clusterClk k } else u
        let r3 := r1.setQueue k n { q with slots := q.slots.map put }
        r.publishLane c l = .ok (match t.spill with
          | some pos => r3.spillPut k n pos (BitVec.ofNat 128 (c.d l 4))
          | none => r3) [])) ∧
    (∀ (r r1 : State) (l k n : Nat) (d : BitVec 512), r.queueCfg c.x.rgn (c.a l) = .ok (k, n) →
      (((r.queue k n).enabled = true ∨ (r.queue k n).slots ≠ []) →
        r.configLane c l = .fault r { code := 9, sub := 3, det0 := c.a l }) ∧
      ((r.queue k n).enabled = false → (r.queue k n).slots = [] →
        r.readDesc c l (addrSum (c.b l 2) 0 1 c.offX 64) 64 = .ok r1 d →
        (queueDescBad d = true → r.configLane c l = .fault r1 { code := 9, sub := 2, det0 := c.a l }) ∧
        (queueDescBad d = false →
          dfield d 511 448 = 0 ∨ r1.rangeHome c.x.rgn (dfield d 511 448) (dfield d 351 320) = true →
          dfield d 447 384 = 0 ∨ r1.rangeHome c.x.rgn (dfield d 447 384) (dfield d 383 352) = true →
          r.configLane c l = .ok (r1.setQueue k n (queueOfDesc d c.x.rgn)) [])) ∧
      (let q := r.queue k n
        let left := q.slots.filter fun t => t.data.isSome
        r.disableLane c l = .ok ((q.slots.filter fun t => t.data.isNone).foldl
          (fun r t => r.engRecord ⟨t.rgn, none, k, 0, 0⟩ { code := 0x10, sub := 0, det0 := queueId k n, det1 := t.ticket })
          (r.setQueue k n { q with enabled := false, slots := left, cons := if left = [] then 0 else q.cons })) []) ∧
      (((r.queue k n).unfreed.map Prod.fst).sum < c.b l →
        r.ackLane c l = .fault r { code := 9, sub := 4, det0 := c.a l }) ∧
      (c.b l ≤ ((r.queue k n).unfreed.map Prod.fst).sum →
        r.ackLane c l = .ok (r.setQueue k n { r.queue k n with
          unfreed := freeEntries (c.b l) (r.queue k n).unfreed }) [] ∧
        ((freeEntries (c.b l) (r.queue k n).unfreed).map Prod.fst).sum =
          ((r.queue k n).unfreed.map Prod.fst).sum - c.b l) ∧
      r.queryLane c l = .ok r [BitVec.ofNat 32 (min 65535 (((r.queue k n).slots.filter fun t => t.data.isSome).length) +
        2 ^ 16 * min 32767 (((r.queue k n).slots.filter fun t => t.data.isNone).length) +
        2 ^ 31 * b2n (r.queue k n).enabled)])

/-- R146 to R148, R259, R261 to R263, R424: the events of the gathering unit. The first firable queue whose batch can be
delivered fires: its oldest records leave it for a wave that waits to be placed, or for the delivery area of a Caller, and the cluster
fires no more for 4 clocks; a reservation of 65,536 clocks is voided, with fault 0x10 to its region; a queue whose access succeeds at
last holds no longer; a delivered wave takes a free pool entry, the lowest (the model's choice, assumption 65), and a core it fits
on. -/
def Obligations.GatherEvents : Prop :=
  ∀ (s s1 : State) (k n : Nat),
    (∀ x l, (s.cluster k).firedAt ≤ s.clusterClk k → s.firable k = x :: l → x.bin = false →
      s.fireQueue k x.num = (s1, true) →
      exec (.gatherFiring k) s = .next (s1.setCluster k { s1.cluster k with firedAt := s.clusterClk k + 4 })) ∧
    (∀ x l, (s.cluster k).firedAt ≤ s.clusterClk k → s.firable k = x :: l → x.bin = true →
      s.fireSpawn k x.num = (s1, true) →
      exec (.gatherFiring k) s = .next (s1.setCluster k { s1.cluster k with firedAt := s.clusterClk k + 4 })) ∧
    (s.clusterClk k < (s.cluster k).firedAt → exec (.gatherFiring k) s = .next s) ∧
    (∀ rgn t, let q := s.queue k n
      let batch := q.pre.take q.bmax
      q.cfgRgn = some rgn → q.hold = none → q.unwritten = false → (∀ u ∈ batch, u.spill = none) →
      (if q.cons = 2 then s.fireCaller k n q rgn batch else s.fireBin k n q rgn batch) = (t, true) →
      let q2 := t.queue k n
      let left := q2.slots.drop batch.length
      s.fireQueue k n = ((t.setQueue k n { q2 with
        slots := left, cons := if q2.enabled = true ∨ left ≠ [] then q2.cons else 0 }).unspillQueue k n, true)) ∧
    (∀ q rgn batch, s.mayFire k rgn = false → s.fireBin k n q rgn batch = (s, false)) ∧
    (∀ q rgn batch, s.mayFire k rgn = true → ∃ t, s.fireBin k n q rgn batch = (t, true) ∧
      t.deliveries = s.deliveries ++ [⟨s.nextId, rgn, .gather, k / 24, some k, q.entry, s.tagOf rgn, 0,
        (batch.filterMap fun t => t.data.map fun d => (d, t.rgn)).zipIdx.map fun e => (e.2, e.1.1),
        (batch.filterMap fun t => t.data.map fun d => (d, t.rgn)).zipIdx.map fun e => (e.2, e.1.2), [], none, n⟩] ∧
      t.clusters = s.clusters ∧ t.mem = s.mem ∧ t.waves = s.waves) ∧
    (∀ t, (s.queue k n).slots = [t] → t.data = none → t.clk + 65536 ≤ s.clusterClk k →
      exec (.reservationVoid k n t.ticket) s =
        .next ((s.setQueue k n { s.queue k n with
            slots := [], cons := if (s.queue k n).enabled then (s.queue k n).cons else 0 }).engRecord ⟨t.rgn, none, k, 0, 0⟩
          { code := 0x10, sub := 0, det0 := queueId k n, det1 := t.ticket })) ∧
    (∀ rgn wr va, n < 512 → (s.queue k n).cfgRgn = some rgn → (s.queue k n).hold = some (wr, va) →
      (s.gathTry rgn k wr va (s.queue k n).faultHeld = (s1, none) → (s1.queue k n).unwritten = false →
        exec (.gatherFaultRetry k n) s =
          .next ((s1.setQueue k n { s1.queue k n with faultHeld := false, hold := none }).unspillQueue k n)) ∧
      (∀ posted, s.gathTry rgn k wr va (s.queue k n).faultHeld = (s1, some posted) →
        exec (.gatherFaultRetry k n) s = .next (s1.setQueue k n { s1.queue k n with faultHeld := posted }))) ∧
    (∀ d x p e g, (s.deliveries.find? fun y => y.id == n) = some d → s.region? d.rgn = some x → x.st = .running →
      s.mayDeliver d.rgn = true → s.heldBack (g / 96) d.rgn = false → (s.deliveryCores d).contains g = true →
      s.tileFits d.kind g = true → s.plan d.rgn g x.rcb x.rcb.wave1 = some p → lowestFree x.pool x.rcb.dpool = some e →
      exec (.deliveredWavePlace n g) s =
        .next (({ s with deliveries := s.deliveries.filter fun y => y.id != n } : State).seatDelivered d x g e p))

/-! ### Regions and scheduling -/

/-- R351, R352, R357: what the six forms of `rlaunch` do in each lane: after a release at `.dev` the request is carried out
and answered with its reason in bits 15:8, and bit 0 set where it is refused; a misaligned control block is refused with
reason 0x10. A block with a reason against it is not accepted; an accepted region without dependences is ready. A kill
leaves no wave of the region. -/
def Obligations.RegionLaunches : Prop :=
  ∀ (f : Frame) (s s1 : State) (c : Ctx),
    (Begins (.rlaunch f) s c s1 → exec (.rlaunch f) s =
      .next (s1.lanes c fun r l => r.rlaunchLane c l true fun r va => r.launch (r.issuerOf c.x.rgn) va)) ∧
    (Begins (.rlaunchPrism f) s c s1 → exec (.rlaunchPrism f) s =
      .next (s1.lanes c fun r l => r.rlaunchLane c l false fun r va => r.launchPrism (r.issuerOf c.x.rgn) va)) ∧
    (Begins (.rlaunchSusp f) s c s1 → exec (.rlaunchSusp f) s =
      .next (s1.lanes c fun r l => r.rlaunchLane c l true fun r va => r.controlNamed c.x.rgn va .suspend)) ∧
    (Begins (.rlaunchRes f) s c s1 → exec (.rlaunchRes f) s =
      .next (s1.lanes c fun r l => r.rlaunchLane c l true fun r va => r.controlNamed c.x.rgn va .resume)) ∧
    (Begins (.rlaunchKill f) s c s1 → exec (.rlaunchKill f) s =
      .next (s1.lanes c fun r l => r.rlaunchLane c l true fun r va => r.controlNamed c.x.rgn va .kill)) ∧
    (Begins (.rlaunchRepl f) s c s1 → exec (.rlaunchRepl f) s =
      .next (s1.lanes c fun r l => r.rlaunchLane c l true fun r va =>
        r.controlNamed c.x.rgn va (.replay (c.b l % 65536) ((c.b l).testBit 16)))) ∧
    (∀ (r r1 r2 : State) (l reason : Nat) (aligned : Bool) (act : State → Nat → State × Nat) (t : Thread) (y : Region),
      let va := addrSum (c.a l 2) 0 1 c.offX 64
      (va % 512 ≠ 0 → r.rlaunchLane c l true act = .ok r [0x1001]) ∧
      ((aligned = true → va % 512 = 0) → r.releaseAt c.w l .dev = some r1 → act r1 va = (r2, reason) →
        r2.thread? c.w l = some t → r2.region? c.x.rgn = some y → y.st ≠ .suspended →
        r.rlaunchLane c l aligned act =
          .ok r2 [BitVec.ofNat 32 (256 * reason + if reason = 0 then 0 else 1)])) ∧
    (∀ (r : State) (by_ : Issuer) (va n : Nat) (x : Region),
      (r.readRegion by_ va = .error n → r.launch by_ va = (r, n)) ∧
      (r.readRegion by_ va = .ok x → x.rcb.depn = 0 → (r.accept x).heldByPrism r.nextId = false →
        (r.launch by_ va).2 = 0 ∧ ∃ y, (r.launch by_ va).1.region? r.nextId = some y ∧ y.st = .ready ∧ y.rcb = x.rcb ∧
          y.rcbVa = BitVec.ofNat 64 va ∧ y.parent = x.parent) ∧
      (va % 512 ≠ 0 → r.launch by_ va = (r, 0x10))) ∧
    (∀ (r : State) (top va n : Nat) (op : RegionOp) (x : Region),
      (va % 512 ≠ 0 → r.controlNamed top va op = (r, 0x10)) ∧
      (va % 512 = 0 → r.regionNamed top va = none → r.controlNamed top va op = (r, 0x11)) ∧
      (va % 512 = 0 → r.regionNamed top va = some (n, x) →
        r.controlNamed top va .suspend = (r.suspendRegion n false, 0) ∧
        r.controlNamed top va .kill = (r.killRegion n, 0) ∧
        (x.st ≠ .suspended → r.controlNamed top va .resume = (r, 0x18)) ∧
        (∀ seq, (r.anyThread (fun d => d == n) fun t => t.heldWith seq false) = false →
          r.controlNamed top va (.replay seq false) = (r, 0x19)))) ∧
    (∀ (r : State) (n : Nat) (x : Region), r.region? n = some x → x.st ≠ .ended → x.st ≠ .killed →
      ∀ e ∈ (r.killRegion n).waves, e.2.rgn ≠ n)

/-- R358, R359: `wdq` of a lane whose answer word and barrier lie in its window takes a slot; when it is served, the next
item of the region, or FFFFFFFF where none is left, is handed out; when the answer arrives it stands in the answer word, and
4 bytes land. -/
def Obligations.WorkItems : Prop :=
  ∀ (f : Frame) (s s1 : State) (c : Ctx),
    (BeginsIf (.wdq f) s (fun c r => r.slotsFit c) c s1 →
      exec (.wdq f) s = .next (s1.lanes c fun r l => r.wdqLane c l)) ∧
    (∀ (r : State) (l wg off : Nat) (b : BarRef),
      let ans := addrSum (c.a l) 0 1 c.offX 32
      (ans % 4 ≠ 0 → r.wdqLane c l = .fault r { code := 2, sub := 1, addr := some ans }) ∧
      (ans % 4 = 0 → c.b l % 32 = 0 → r.winPlace c.x false ans = .ok ⟨wg, off⟩ → off + 4 ≤ r.scrSize wg →
        r.barAt c.x false (c.b l) = .ok b → b.wg = wg →
        r.wdqLane c l =
          if 256 ≤ r.slotsUsed (r.slotCore c wg) then .stay r
          else .ok { r with nextId := r.nextId + 1, copies := r.copies ++
            [{ c.op r l .wdq wg wg 0 4 (.bar b) with off := off }] } [])) ∧
    (∀ (o : CopyOp) (x : Region) (b : BarRef), s.copies = [o] → o.kind = .wdq → o.done = .bar b →
      s.region? o.rgn = some x →
      (o.idx = none → x.nextItem < x.rcb.witems → exec (.wdqServe o.id) s =
        .next ((s.updRegion o.rgn fun y => { y with nextItem := y.nextItem + 1 }).setOp o.id
          fun p => some { p with idx := some x.nextItem })) ∧
      (o.idx = none → x.rcb.witems ≤ x.nextItem → exec (.wdqServe o.id) s =
        .next (s.setOp o.id fun p => some { p with idx := some 0xFFFFFFFF })) ∧
      (∀ v, o.idx = some v → exec (.wdqServe o.id) s =
        .next (((s.copyPut o.wg false o.off (toLe 4 v)).setOp o.id fun _ => none).barLand b 4 false)))

/-- R15, R349, R352 to R356, R360 to R362, R365: the events of the scheduler. A dependence whose counter has reached its target is
met, and a waiting region with all of them met is ready; the region a die offers has its next workgroup placed by its
plan, and runs; a region passed over for 2^20 scheduler clocks without interruption holds the die; a region that must not wait
marks the victims of the first choice to be saved, for its first workgroup that no core has room for; a workgroup that is to be saved
or migrated leaves its core, and its waves stand in its record without their reservations; it comes back by a plan, where nobody has
changed the record with every field, on the core and in the slots that the plan gives, and with its listed pages where it is migrated
or comes to another core; a region whose work is done ends; a core adds the wave-clocks it has counted, to a region that has budgets
of its own. How the count of the hold runs and that the victims are those of the first workgroup that does not fit (assumption 30),
that the device keeps what it saves beside the record, and that a workgroup on another core takes its pages with it (assumption 31),
and how a die's offers go round (assumption 34), are the model's readings. -/
def Obligations.SchedulerEvents : Prop :=
  ∀ (s t : State) (r g n : Nat) (x : Region), s.region? r = some x →
    (∀ w s0, (s.watches.find? fun y => decide (y.dep = some (r, n))) = some w →
      w.target.toNat ≤ leBytes (s.homeBytes none w.key 8) →
      s.force (.engine (w.by_.map fun b => .thread b.1 b.2) [] []) .dev = some s0 →
      exec (.dependenceMet r n) s =
        .next ((({ s0 with watches := s0.watches.filter fun y => y.id != w.id } : State).updRegion r
          fun y => { y with depDone := y.depDone ++ [n] }).tryReady r)) ∧
    (x.st = .waiting → x.rcb.depn ≤ x.depDone.length → s.heldByPrism r = false →
      ∃ y, (s.tryReady r).region? r = some y ∧ y.st = .ready ∧ y.nextItem = 0) ∧
    (∀ m ps, s.unplaced r x = true → s.heldBack (g / 96) r = false → s.offers (g / 96) r = true →
      s.nextFor r x = some m → m.saved = false → s.plansFor r x m g = some ps →
      let u := ((s.placeNew r x m ps).placedFor r).noteOffer (g / 96) r
      (x.st = .running → exec (.workgroupPlace r g) s = .next u) ∧
      (x.st = .ready → exec (.workgroupPlace r g) s =
        .next ((u.updRegion r fun y => { y with st := .running }).writeState r))) ∧
    (∀ b tag pc lin d v e, let u := Thread.start b tag pc lin d v e
      u.st = .placed ∧ u.pc = pc ∧ u.v = v ∧ u.stack = [] ∧ u.spillb = b.spillb + BitVec.ofNat 64 (lin * b.spstr) ∧
        u.spillp = u.spillb ∧ u.spilll = u.spillb + BitVec.ofNat 64 b.spstr ∧ u.resv = none ∧ u.accs = [] ∧ u.sdep = d) ∧
    ((s.linked n).contains r = true → s.fitsOn r x n = false →
      (∀ k, x.passed.getD n none = some k → k + 2 ^ 20 ≤ s.schedClk n → (s.die n).hold = none →
        exec (.placementStarvationHold n r) s = .next (s.setDie n { s.die n with hold := some r })) ∧
      (∀ k, x.passed.getD n none = some k → s.schedClk n < k + 2 ^ 20 →
        exec (.placementStarvationHold n r) s = .next s) ∧
      (x.passed.getD n none = none → exec (.placementStarvationHold n r) s =
        .next (s.updRegion r fun y => { y with passed := y.passed.set n (some (s.schedClk n)) }))) ∧
    (s.fitsOn r x n = true → exec (.placementStarvationHold n r) s =
      .next (s.updRegion r fun y => { y with passed := y.passed.set n none })) ∧
    (∀ y m c, x.urgent = true → s.unplaced r x = true →
      let after := (s.without s.beingSaved).placedAhead r 24576
      after.region? r = some y → after.unplaced r y = true → after.nextFor r y = some m →
      (([0, 1].flatMap fun d => if (s.clustersFor r d).isEmpty then [] else
        (List.range 96).map fun c => 96 * d + c).flatMap fun g => after.choicesAt r y m g) = [c] →
      exec (.preemptDecision r) s = .next ((s.updRegion r fun z => { z with due := z.due + 1 }).markSaving c.wgs)) ∧
    (∀ ws v z, s.wgs.find v = some z → (s.markSaving ws).wgs.find v =
      some (if v ∈ ws then { z with saving := true } else z)) ∧
    (∀ y mig, s.wgs.find n = some y → y.rgn = r → y.saved = false → y.group = none →
      y.saving = true ∨ (mig = true ∧ x.rcb.npre = false) →
      let u := s.markSaving [n]
      let full : Prop := 16 ≤ ((s.core y.core).fwd.filter fun f => f.wg != n).length
      let quiet : Prop := ∀ e ∈ s.waves, e.2.wg = n → ∀ v, s.waves.find e.1 = some v → ∀ t ∈ v.threads, t.accs = []
      (u.saveGroup n y mig = some t → exec (.workgroupSave n mig) s = .next t) ∧
      (full → exec (.workgroupSave n mig) s = .next u) ∧
      (¬ full → quiet → ∃ t z k, exec (.workgroupSave n mig) s = .next t ∧
        (∀ e ∈ t.waves, e.2.wg = n → e.2.kind = .caller) ∧
        t.wgs.find n = some { y with saved := true, saving := false } ∧
        t.saved.find n = some z ∧ z.migrate = mig ∧ z.caller = none ∧ z.engines = [] ∧
        z.waves = ((s.waves.filter fun e => e.2.wg == n && decide (e.2.kind ≠ .caller)).map fun e =>
          (e.1, ({ e.2 with fetched := none, retain := [none, none, none]
                            threads := e.2.threads.map fun t => { t with resv := none } } : Wave).fixTurn)) ∧
        (⟨n, k, false⟩ : FwdWg) ∈ (t.core y.core).fwd)) ∧
    (∀ y z p, s.saved.find n = some z → s.wgs.find n = some y → s.recordBad n z = false → (p.spots.map Spot.slot).Nodup →
      (∀ e ∈ s.waves ++ z.waves, ∀ t ∈ e.2.threads, ∀ a ∈ t.accs, a.due = []) →
      (∀ e ∈ z.waves, ∀ t ∈ e.2.threads, t.resv = none) →
      let u := s.restoreOne n g p
      u.saved.find n = none ∧
      u.wgs.find n = some { y with
        core := g, saved := false, scrBase := p.scrBase, tobBank := p.tobBank, accBase := p.accBase } ∧
      ∀ (i : Nat) (e : Nat × Wave) (q : Spot), z.waves[i]? = some e → p.spots[i]? = some q → u.waves.find (128 * g + q.slot) =
        some ({ e.2 with row := q.row, charged := s.clkOf g, threads := e.2.threads.map s.recheck } : Wave).fixTurn) ∧
    (∀ t : Thread, (∀ y, t.st ≠ .blocked y) → s.recheck t = t) ∧
    (∀ y m p v z, s.saved.find n = some z → s.wgs.find n = some y → y.rgn = r → s.nextFor r x = some m → m.saved = true → m.members = [(v, n)] →
      m.group = none → s.unplaced r x = true → s.heldBack (g / 96) r = false → s.offers (g / 96) r = true →
      s.plansFor r x m g = some [(v, n, g, p)] →
      let u := s.restoreOne n g p
      exec (.workgroupRestore n g) s =
        .next ((((if z.migrate = true ∨ y.core ≠ g then u.askHomes x y g else u).placedFor r).noteOffer (g / 96)
          r).linkRegion r).countFwd) ∧
    (let keep : FwdWg → Option FwdWg := fun f =>
        if (f.restored = true ∨ (s.wgs.find f.wg).isNone = true) ∧ s.inFlight f.wg = 0 then none
        else some { f with count := s.inFlight f.wg }
      ∀ y, s.wgs.find n = some y → ∃ u, exec (.migrationForward n) s = .next u ∧ ∀ k c, s.cores.find k = some c →
        u.cores.find k = some { c with fwd := c.fwd.filterMap keep }) ∧
    (x.st = .running ∨ x.st = .ready ∨ x.st = .waiting → s.regionDone r x = true →
      exec (.regionEnd r) s =
        .next ((((s.pushRegion r).updRegion r fun y => { y with st := .ended }).raiseDone r).writeState r)) ∧
    (∀ k, (∀ e ∈ s.waves, coreOfWave e.1 ≠ some g) → (s.core g).owed = [(r, k)] → (∀ e ∈ s.regions, e.2.rcb.timeq = 0) →
      exec (.timeQuotaCharge g) s = .next ((s.setCore g { s.core g with owed := [] }).addTime r k)) ∧
    (∀ k, s.ancestors r = [r] →
      ∃ y, (s.addTime r k).region? r = some y ∧ y.timeu = if x.rcb.ownb = true then x.timeu + k else x.timeu)

/-! ### Sweeps, collectives and the matrix engines -/

/-- R394 to R401: what `sweep`, `ctx.set` and `ctx.wake` do in each lane, and the events of the sweep engines: a queued sweep
takes a free engine, a chunk that may be skipped is passed by, any other has its contexts evaluated; a chunk whose waves
are gone decides its skip bit and applies the wakes held for it; after its last chunk a sweep ends and raises its
counter. -/
def Obligations.Sweeps : Prop :=
  ∀ (f : Frame) (s s1 s2 : State) (c : Ctx) (die n : Nat),
    (Begins (.sweep f) s c s1 → exec (.sweep f) s = .next (s1.lanes c fun r l => r.sweepLane c l)) ∧
    (Begins (.ctxSet f) s c s1 → exec (.ctxSet f) s = .next (s1.lanes c fun r l => r.ctxSetLane c l)) ∧
    (Begins (.ctxWake f) s c s1 → exec (.ctxWake f) s = .next (s1.lanes c fun r l => r.ctxWakeLane c l)) ∧
    (∀ (r r1 r2 r3 : State) (l : Nat) (d : BitVec 512) (p : Part),
      r.sweepDesc c l (c.tensor l) = .ok r1 d → c.b l 2 % 8 = 0 →
      r1.reach (c.x.agent c.w) .wr clsHome .tagged (c.b l 2) 8 = .ok r2 [p] → r2.releaseAt c.w l .dev = some r3 →
      let k := clusterOfWave c.w / 24
      r.sweepLane c l =
        if 64 ≤ (r3.die k).sweepQ.length then .ok r3 [1]
        else
          let y : Sweep := ⟨r3.nextId, c.x.rgn, r3.liveTag c.x.rgn, BitVec.ofNat 64 (c.tensor l), d,
            BitVec.ofNat 32 (if c.e.f.isS then 0 else c.c l), c.b l 2, 0, false, false, [], [], c.pc,
            if c.x.kind = .tile ∨ c.x.kind = .step then c.x.src else 0⟩
          .ok (({ r3 with nextId := r3.nextId + 1 } : State).setDie k
            { r3.die k with sweepQ := (r3.die k).sweepQ ++ [y] }) [0]) ∧
    (∀ (r r1 : State) (l : Nat) (e : Elem),
      ((c.thread l).elem = none → r.ctxSetLane c l = .fault r { code := 0x17, sub := 8 }) ∧
      ((c.thread l).elem = some e → 6 ≤ c.a l % 16 → r.ctxSetLane c l = .fault r { code := 0x17, sub := 6 }) ∧
      (∀ r2 key, (c.thread l).elem = some e → c.a l % 16 < 6 → c.a l % 16 ≠ 2 ∨ e.csz ≠ 0 → r.releaseAt c.w l .dev = some r1 →
        r1.reachHome c e.ctxVa.toNat 2 = .ok (r2, key) →
        r.ctxSetLane c l = r2.putHome c l e.ctxVa.toNat key (toLe 2 (c.a l % 65536)))) ∧
    (∀ (r r1 : State) (va m : Nat) (p : Part), r.reach (c.x.agent c.w) .wr clsHome .tagged va m = .ok r1 [p] →
      r1.heldPart (r1.liveTag c.x.rgn) c.id p.key = false → r.reachHome c va m = .ok (r1, p.key)) ∧
    (∀ (r r1 : State) (l va key : Nat) (bs : List Byte) (g : Byte → Byte), r.cutOff key = false →
      (r.homeWrite (r.liveTag c.x.rgn) (some (c.w, l)) key bs = .ok r1 → r.putHome c l va key bs = .ok r1 []) ∧
      (r.poisonedFor (r.liveTag c.x.rgn) key 1 = false →
        r.editHome c l va key g = r.putHome c l va key ((r.homeBytes (r.liveTag c.x.rgn) key 1).map g))) ∧
    (∀ (r r1 r2 : State) (l : Nat) (d : BitVec 512), r.sweepDesc c l (c.tensor l) = .ok r1 d →
      (swCount d ≤ c.b l → r.ctxWakeLane c l = .fault r1 { code := 0x17, sub := 7 }) ∧
      (c.b l < swCount d → r1.releaseAt c.w l .dev = some r2 →
        let mine : Sweep → Bool := fun x => r2.sameSweep (r2.asrOf c.x.rgn) (r2.liveTag c.x.rgn) (BitVec.ofNat 64 (c.tensor l)) x &&
          x.flying && x.cursor == c.b l / 64
        ((∀ x ∈ r2.dies, ∀ e ∈ x.engines, mine e.2 = false) → r.ctxWakeLane c l = r2.wakeNow c l (c.b l) d) ∧
        ((∃ x ∈ r2.dies, ∃ e ∈ x.engines, mine e.2 = true) → r.ctxWakeLane c l =
          .ok { r2 with dies := r2.dies.map fun x => { x with engines := x.engines.map fun e => (e.1,
            if mine e.2 then { e.2 with held := e.2.held ++ [BitVec.ofNat 32 (c.b l)] } else e.2) } } []))) ∧
    (∀ (r r1 r2 r3 : State) (l k ctx skip : Nat) (d : BitVec 512),
      r.reachHome c (swCtx d k) 1 = .ok (r1, ctx) → r1.reachHome c (swSkip d (k / 64)) 1 = .ok (r2, skip) →
      r2.editHome c l (swCtx d k) ctx wokenByte = .ok r3 [] → r.wakeNow c l k d =
        r3.editHome c l (swSkip d (k / 64)) skip fun b => b &&& ~~~(1#8 <<< (k / 64 % 8))) ∧
    (∀ b, wokenByte b = if 1 ≤ b.toNat % 16 ∧ b.toNat % 16 ≤ 4 then b &&& 0xF0 else b) ∧
    (∀ y rest, (s.die die).sweepQ = y :: rest → (s.die die).engines.find 0 = none →
      (∀ d ∈ s.dies, (∀ e ∈ d.engines, e.2.descVa ≠ y.descVa) ∧ ∀ z ∈ d.sweepQ, y.id ≤ z.id) →
      exec (.sweepStart die) s = .next (s.setDie die
        { s.die die with sweepQ := rest, engines := (s.die die).engines.ins 0 y })) ∧
    (∀ x, (s.die die).engines.find n = some x → s.quotaWait x.rgn = false →
      (∀ bs, x.flying = false → x.cursor < swChunks x.desc →
        s.sweepRead (s.sweepEng die x) (swSkip x.desc x.cursor) 1 = .ok s1 bs →
        ((leBytes bs).testBit (x.cursor % 8) = true → exec (.sweepChunk die n) s = .next (s1.nextChunk die n x)) ∧
        (∀ l, (leBytes bs).testBit (x.cursor % 8) = false →
          s1.ctxScan (s.sweepEng die x) x (chunkElems x.desc x.cursor) = .ok s2 l →
          exec (.sweepChunk die n) s = .next (s2.chunkSeen die n x l))) ∧
      (x.flying = false → swChunks x.desc ≤ x.cursor → exec (.sweepChunk die n) s = .next (s.sweepEnd die n x)) ∧
      (x.flying = true → s.stepBusy x = false → x.cores = [] →
        (x.noSkip = true → exec (.chunkStepComplete die n) s = .next (s.wakesThenNext die n x)) ∧
        (x.noSkip = false → ∀ quiet, s.allQuiet (s.sweepEng die x) x (chunkElems x.desc x.cursor) = .ok s2 quiet →
          (quiet = false → exec (.chunkStepComplete die n) s = .next (s2.wakesThenNext die n x)) ∧
          (∀ s3 again, quiet = true → s2.setSkip (s.sweepEng die x) x = (s3, again) →
            exec (.chunkStepComplete die n) s = .next (if again then s3 else s3.wakesThenNext die n x)))) ∧
      (∀ s3 left, s.applyWakes die n x x.held = (s3, left) → s.wakesThenNext die n x =
        if left = [] then s3.nextChunk die n { x with cores := [] }
        else s3.keepSweep die n { x with cores := [], noSkip := true, held := left }) ∧
      (x.cursor + 1 < swChunks x.desc → s.nextChunk die n x =
        s.setSweep die n (some { x with cursor := x.cursor + 1, flying := false, noSkip := false, held := [] })) ∧
      (swChunks x.desc ≤ x.cursor + 1 → s.nextChunk die n x = s.sweepEnd die n x) ∧
      (∀ p, s.engParts (s.sweepEng die x) .wr clsHome x.ctr 8 = .ok s1 [p] → s.sweepEnd die n x =
        (s1.setSweep die n none).raiseCtr (s.sweepEng die x) p.key (some x.ctr)))

/-- R419 to R423: what `coll` does in each lane, and the transfer of a collective: an ill-formed descriptor faults with code
0x14, subcode 0x10; where the engines and the queue of the die hold 18 it answers 1, else it is queued and answers 0; a
collective whose members disagree, or one of which failed or whose link is down, ends with its record, and where one failed or a
link is down its destination is undefined: it takes free bytes. The result of a reduction is the fold over the ranks in ascending
order. -/
def Obligations.Collectives : Prop :=
  ∀ (f : Frame) (kind : CollKind) (red : CollRed) (s s1 : State) (c : Ctx),
    (Begins (.coll f kind red) s c s1 →
      exec (.coll f kind red) s = .next (s1.lanes c fun r l => r.collLane c l kind red)) ∧
    (∀ (r r1 r2 : State) (l : Nat) (d : BitVec 512) (p : Part),
      addrSum (c.a l 2) 0 1 c.immX 64 % 64 = 0 → c.b l 2 % 8 = 0 →
      r.reach (c.x.agent c.w) .wr clsHome .tagged (c.b l 2) 8 = .ok r1 [p] →
      r1.readDesc c l (addrSum (c.a l 2) 0 1 c.immX 64) 64 = .ok r2 d →
      let count := if c.e.f.form = .l ∧ c.e.f.i ≠ 0 then c.e.f.i.toNat else dfield d 383 352
      (collBad d count = true → r.collLane c l kind red = .fault r2 { code := 0x14, sub := 0x10 }) ∧
      (collBad d count = false → (facetOf (r2.liveTag c.x.rgn)).isSome = true →
        r.collLane c l kind red = .fault r2 { code := 5, sub := 0x16 }) ∧
      (collBad d count = false → (facetOf (r2.liveTag c.x.rgn)).isSome = false →
        18 ≤ (r2.collsOf (clusterOfWave c.w / 24)).length → r.collLane c l kind red = .ok r2 [1]) ∧
      (collBad d count = false → (facetOf (r2.liveTag c.x.rgn)).isSome = false →
        (r2.collsOf (clusterOfWave c.w / 24)).length < 18 →
        let t := (collLinks d).foldl (fun s n => s.noteLink c.x.rgn (placeOf 2 n 0)) r2
        r.collLane c l kind red = .ok { t with nextId := t.nextId + 1, colls := t.colls ++
          [⟨r2.nextId, clusterOfWave c.w / 24, c.x.rgn, kind, red, d, count, p.key, c.pc,
            if c.x.kind = .tile ∨ c.x.kind = .step then c.x.src else 0, c.b l 2⟩] } [0])) ∧
    (∀ (o : CollOp) others, (s.colls.find? fun p => p.id == o.id) = some o → s.quotaWait o.rgn = false →
      ((s.collsOf o.die).take 2).contains o = true →
      ((∀ n ∈ collLinks o.desc, s.links.getD n true = true) →
        exec (.collExecute o.id true false others) s = .next (s.collRun o others) ∧
        exec (.collExecute o.id false false others) s = .next (s.collFail o { code := 0x14, sub := 0x11 }) ∧
        exec (.collExecute o.id true true others) s =
          .next ((s.collSpoil o o.outBytes).collFail o { code := 0x14, sub := 0x12 })) ∧
      (∀ n agree failed, n ∈ collLinks o.desc → s.links.getD n true = false →
        exec (.collExecute o.id agree failed others) s =
          .next ((s.collSpoil o o.outBytes).collFail o { code := 0x14, sub := 0x12 }))) ∧
    (∀ op ty a b xs, foldElem op ty [a] = a ∧ foldElem op ty (a :: b :: xs) = foldElem op ty (combine op ty a b :: xs))

/-- R227 to R242: what the Caller's instructions do: a command whose fields are used and whose operands its partner holds
enters the queue of its engine; `tfetch` binds an unbound handle, `trel` releases it; `mwait` answers once the named
engines are idle or halted, and waits until then; `dq.put` appends a decision to the partners' queues, after a release;
`gq.take` takes the oldest batch descriptor. -/
def Obligations.MatrixIssue : Prop :=
  ∀ (f : Frame) (sa sb fs : BitVec 3) (bh q all nb : Bool) (s s1 : State) (c : Ctx),
    (BeginsIf (.mma f sa sb bh) s (fun c r => r.engineRoom c) c s1 →
      exec (.mma f sa sb bh) s = .next (s1.lanes c fun r l => r.mmaLane c l false sa sb bh)) ∧
    (BeginsIf (.mmaZ f sa sb bh) s (fun c r => r.engineRoom c) c s1 →
      exec (.mmaZ f sa sb bh) s = .next (s1.lanes c fun r l => r.mmaLane c l true sa sb bh)) ∧
    (BeginsIf (.azero f) s (fun c r => r.engineRoom c) c s1 →
      exec (.azero f) s = .next (s1.lanes c fun r l => r.azeroLane c l)) ∧
    (BeginsIf (.drain f fs) s (fun c r => r.engineRoom c) c s1 →
      exec (.drain f fs) s = .next (s1.lanes c fun r l => r.drainLane c l fs)) ∧
    (Begins (.tfetch f fs q) s c s1 → exec (.tfetch f fs q) s = .next (s1.lanes c fun r l => r.tfetchLane c l fs q)) ∧
    (Begins (.trel f) s c s1 → exec (.trel f) s = .next (s1.lanes c fun r l => r.trelLane c l)) ∧
    (Begins (.mwait f) s c s1 → exec (.mwait f) s = .next (s1.lanes c fun r l => r.mwaitLane c l)) ∧
    (Begins (.dqPut f all) s c s1 → exec (.dqPut f all) s = .next (s1.lanes c fun r l => r.dqPutLane c l all)) ∧
    (Begins (.gqTake f nb) s c s1 → exec (.gqTake f nb) s = .next (s1.lanes c fun r l => r.takeLane c l nb)) ∧
    (∀ (r : State) (eng : Nat) (cmd : ECmd), let k := r.core (4 * clusterOfWave c.w + eng)
      let q : List QCmd := k.engine.queue ++ [⟨cmd, k.engine.issued + 1, c.pc, c.id⟩]
      r.putCmd c eng cmd = r.setCore (4 * clusterOfWave c.w + eng)
        { k with engine := { k.engine with issued := k.engine.issued + 1, queue := q } }) ∧
    (∀ (r r1 : State) (l wg : Nat) (y : Wg),
      let m := c.mcw l
      r.enginePartner c (mcwEng m) = some (wg, y) → r.engineIssue c.w l c.id = some r1 →
      (∀ z, mcwBad m true true false false = none → tobBad (y.tobBanks * 131072) (mcwEng m) [c.a l, c.b l] = none →
        (mcwTile m < y.accN → r.mmaLane c l z sa sb false = .ok (r1.putCmd c (mcwEng m)
          (.mma z sa.toNat sb.toNat none (mcwTile m) (c.a l % 2 ^ 30) (c.b l % 2 ^ 30))) []) ∧
        (y.accN ≤ mcwTile m → r.mmaLane c l z sa sb false = .fault r { code := 3, sub := 3 })) ∧
      (∀ z g h, mcwBad m true true true false = none → tobBad (y.tobBanks * 131072) (mcwEng m) [c.a l] = none →
        mcwTile m < y.accN → r.callerGroup c = some g → g.2.handle (mcwHnd m) = some h →
        (h.bound = true → r.mmaLane c l z sa sb true = .ok (r1.putCmd c (mcwEng m)
          (.mma z sa.toNat sb.toNat (some (mcwHnd m, h.inst)) (mcwTile m) (c.a l % 2 ^ 30) 0)) []) ∧
        (h.bound = false → r.mmaLane c l z sa sb true = .fault r { code := 0x0C, sub := 3 })) ∧
      (mcwBad m true true false false = none → mcwTile m < y.accN →
        r.azeroLane c l = .ok (r1.putCmd c (mcwEng m) (.azero (mcwTile m))) []) ∧
      (mcwBad m true true false true = none → mcwTile m < y.accN → mcwOpt m = 0 ∨ mcwOpt m = 64 → c.e.f.isS = true →
        c.e.f.a ≠ .zeroLit → c.e.f.b = .zeroLit → drainBad y (mcwEng m) (mcwOpt m / 64) (c.a l 2) none = none →
        r.drainLane c l fs = .ok (r1.putCmd c (mcwEng m)
          (.drain fs.toNat (mcwOpt m / 64) 0 (mcwTile m) (c.a l 2 % 2 ^ 30) (c.a l 2 / 2 ^ 32) none none)) [])) ∧
    (∀ (r r1 : State) (l n : Nat) (g : Group),
      let m := c.mcw l
      mcwBad m false false true false = none → r.callerGroup c = some (n, g) →
      (c.a l 2 % 128 = 0 → c.b l ≠ 0 → c.b l % 128 = 0 → g.handle (mcwHnd m) = none →
        r.engineIssue c.w l c.id = some r1 →
        let h : Handle := ⟨c.id, true, false, BitVec.ofNat 64 (c.a l 2), c.b l, 0, false, [], [], c.pc⟩
        let bind : Group → Group := fun g => { g with handles := g.handles.ins (mcwHnd m) h }
        r.tfetchLane c l fs false = .ok { r1 with groups := r1.groups.upd n bind } []) ∧
      (∀ h, c.a l 2 % 128 = 0 → c.b l ≠ 0 → c.b l % 128 = 0 → g.handle (mcwHnd m) = some h → h.bound = true →
        r.tfetchLane c l fs q = .fault r { code := 0x0C, sub := 2 }) ∧
      (c.a l 2 % 128 ≠ 0 → r.tfetchLane c l fs q = .fault r { code := 2, sub := 1, addr := some (c.a l 2) }) ∧
      let free : Group → Group := fun g => { g with handles := g.handles.upd (mcwHnd m) fun h => { h with bound := false } }
      r.trelLane c l = .ok { r with groups := r.groups.upd n free } []) ∧
    (∀ (r r1 : State) (l : Nat),
      let e : Nat → Engine := fun n => (r.core (4 * clusterOfWave c.w + n)).engine
      let engs := [0, 1, 2, 3].filter fun n => (c.a l % 16).testBit n
      ((∀ n ∈ engs, (r.enginePartner c n).isSome = true ∧ (e n).queue = []) →
        r.acquireAt c.w l .cls = some r1 → r.mwaitLane c l = .ok r1 [BitVec.ofNat 32 (b2n (engs.any fun n => (e n).mestat.getLsbD 0))]) ∧
      ((∀ n ∈ engs, (r.enginePartner c n).isSome = true) →
        (∃ n ∈ engs, (e n).queue ≠ [] ∧ (e n).mestat.getLsbD 0 = false) → r.mwaitLane c l = .block r .engines) ∧
      (∀ n g wg y, r.callerGroup c = some (n, g) → c.b l < 4 → g.members.find (c.b l) = some wg → r.wgs.find wg = some y →
        (y.dq.length < 64 → r.releaseAt c.w l .cls = some r1 →
          r.dqPutLane c l false = .ok (r1.putDecision wg (BitVec.ofNat 32 (c.a l))) []) ∧
        (64 ≤ y.dq.length → r.dqPutLane c l false = .block r .decision)) ∧
      (let k := clusterOfWave c.w
       (∀ d rest, (r.cluster k).take = d :: rest →
          (r.setCluster k { r.cluster k with take := rest }).acquireAt c.w l .cls = some r1 →
          r.takeLane c l nb = .pend r1 (c.calc l l (wordsOf 2 d.word.toNat))) ∧
       ((r.cluster k).take = [] → r.takeLane c l nb = if nb then .pend r (c.calc l l [0, 0]) else .block r .take)))

/-- R91, R227, R233, R235, R238, R239, R243: the engines at work. An element of an `mma` of 16 products is their exact sum
with the accumulator, rounded once; an `mma` whose slots and operands are in order reads the rows of its operands grain by grain, some
of what it has not read yet in each event, and writes its tile once it has all; `azero` clears it; the next piece of a row of a drain,
the part of it that lies in one grain, stands in its window; a command that breaks a rule halts its engine. A complete
command leaves the queue and is counted. A row of a bound tile is translated and pinned. -/
def Obligations.MatrixEngines : Prop :=
  (∀ acc a b, a.length = 16 → b.length = 16 → mmaElem acc a b =
    BitVec.ofNat 32 (fres (XR.sum .rne (fval acc .f32 false :: (a.zip b).map fun e => e.1.mul e.2)) .f32 .rne false
      false)) ∧
  (∀ (s : State) (x : AtWork), ((s.cmdDone x).core x.core).engine =
    { (s.core x.core).engine with
      queue := (s.core x.core).engine.queue.drop 1, done := (s.core x.core).engine.done + 1, row := 0,
      piece := 0, read := [] }) ∧
  (∀ n off bs, bs.length ≤ n → (cutGrains n off bs).flatMap Prod.snd = bs ∧
    ∀ p ∈ cutGrains n off bs, p.1 % 32 + p.2.length ≤ 32) ∧
  (∀ (s : State) (g : Nat) (x : AtWork) (y : Wg), s.atWork g = some x → s.wgs.find x.wg = some y →
    (∀ z sa sb bh tile a b src s1 new, x.q.cmd = .mma z sa sb bh tile a b →
      let nb := s.slotB x bh sb
      let ra := s.slot x.rgn (BitVec.ofNat 3 sa)
      let rb := s.slot x.rgn (BitVec.ofNat 3 nb)
      ra.checkIn mmaAccepts = none → rb.checkIn mmaAccepts = none → fmtBits ra.fmt = fmtBits rb.fmt →
      y.scaleBeyond a ra = false → s.operandB x y bh b rb = .ok src → (y.tile tile).invalid = false ∨ z = true →
      s.mmaRead x y ra rb (.tob a) src = some (s1, new, none) →
      let e := (s1.core x.core).engine
      let read : NMap (List Byte) := if e.read = [] then new else new.foldl (fun m i => m.ins i.1 i.2) e.read
      let rows := rowsOf (read.map Prod.snd)
      (read.length < 1280 → exec (.engineMmaExecute g) s =
        .next (s1.setCore x.core { s1.core x.core with engine := { e with read := read } })) ∧
      (1280 ≤ read.length → q4Bad ra.fmt (rows.take 128) = false → q4Bad rb.fmt (rows.drop 128) = false →
        exec (.engineMmaExecute g) s = .next ((s1.setTile x.wg tile (mmaTile z (y.tile tile)
          ((rows.take 128).map fun r => rowVals ra.fmt r.1 r.2)
          ((rows.drop 128).map fun r => rowVals rb.fmt r.1 r.2))).cmdDone x))) ∧
    (∀ ra rb a b, ∃ s1 new, s.mmaRead x y ra rb (.tob a) (.tob b) = some (s1, new, none) ∧
      s1.wgs = s.wgs ∧ s1.mem = s.mem ∧ s1.cores = s.cores ∧ ∀ i ∈ new,
        i.1 < 1280 ∧ (s.core x.core).engine.read.find i.1 = none ∧
        let base := if i.1 < 640 then a else b
        let slot := if i.1 < 640 then ra else rb
        let row := i.1 / 5 % 128
        i.2 = if i.1 % 5 < 4 then winBytes y.tob (base + 128 * row + 32 * (i.1 % 5)) 32
          else if slot.fmt = 7 then winBytes y.tob (base + slot.soff + 8 * row : Int).toNat 8 else []) ∧
    (∀ z sa sb bh tile a b sub, x.q.cmd = .mma z sa sb bh tile a b →
      (s.slot x.rgn (BitVec.ofNat 3 sa)).checkIn mmaAccepts = some sub →
      exec (.engineMmaExecute g) s = .next (s.engineHalt x tile 1 sub sa)) ∧
    (∀ tile, x.q.cmd = .azero tile →
      exec (.engineAzeroExecute g) s = .next ((s.setTile x.wg tile ⟨[], false⟩).cmdDone x)) ∧
    (∀ fs tile addr pitch, x.q.cmd = .drain fs 1 0 tile addr pitch none none →
      let slot := s.slot x.rgn (BitVec.ofNat 3 fs)
      let e := (s.core x.core).engine
      let d : DrainOf := ⟨fs, 1, 0, tile, addr, pitch, none, none⟩
      let bytes := packRow slot ((y.tile tile).row e.row)
      e.row < 128 →
      (e.row = 0 → e.piece = 0 → slot.checkIn (fun n => decide (1 ≤ n) && decide (n ≤ 7)) = none ∧
        (slot.fmt = 7 → pitch % 16 = 0) ∧ (y.tile tile).invalid = false ∧
        drainBeyond slot d (y.tobBanks * 131072) = false) →
      ∀ off p rest, (drainPieces slot d e.row bytes.1 bytes.2).drop e.piece = (off, p) :: rest →
        let t := s.copyPut x.wg true off p
        exec (.engineDrainExecute g) s = .next (
          if rest ≠ [] then t.setRow x.core e.row (e.piece + 1)
          else if e.row = 127 then t.cmdDone x
          else t.setRow x.core (e.row + 1)))) ∧
  (∀ (s : State) (x : AtWork) (tile cause slot : Nat) (sub : BitVec 8),
    ((s.engineHalt x tile cause sub slot).core x.core).engine.mestat =
      BitVec.ofNat 64 (2 ^ 48 * (x.q.seq.toNat % 65536) + 2 ^ 32 * (tile % 128) + 2 ^ 16 * cause + 2 ^ 8 * sub.toNat +
        2 ^ 5 * slot + 1)) ∧
  (∀ (s s1 : State) (k n row id : Nat) (g : Group) (h : Handle) keys, s.engineGroup k = some (id, g) →
    g.handle n = some h → row < 128 → h.faulted = false → h.q = false → h.bound = true → h.rows.find row = none →
    s.quotaWait g.rgn = false →
    s.fetchAt ⟨g.rgn, none, k, h.pc, h.inst⟩ ((h.base.toNat + row * h.pitch) % 2 ^ 64) 128 0 = .got s1 keys →
    s1.pinRoom ((keys.take 1).map Prod.snd) = true →
    let rows : Handle → Handle := fun h => { h with rows := h.rows.ins row ((keys.headD (0, 0)).2) }
    let put : Group → Group := fun g => { g with handles := g.handles.upd n rows }
    exec (.tfetchRowFetch k n row) s = .next { s1 with groups := s1.groups.upd id put })

/-! ### Facet sets, presents, textures and rendering -/

/-- R319 to R330: what `commit` and `squash` do in each lane, and the events of a facet set: a handle of another tenant faults
with code 0x05, a stale or closed one answers 1, a facet or mask outside the set faults with code 0x0E; a commit that
begins blocks its thread until publication, which comes once what the winner issued before it is performed, makes the set
RETIRING and lets the thread go on. A waiting prism launch opens a free set over the frames its ranges have then; its prefix
then ends; retirement makes the winner's versions base and the set FREE. -/
def Obligations.FacetSets : Prop :=
  ∀ (f : Frame) (s s1 : State) (c : Ctx),
    (Begins (.commit f) s c s1 → exec (.commit f) s = .next (s1.lanes c fun r l => r.commitLane c l)) ∧
    (Begins (.squash f) s c s1 → exec (.squash f) s = .next (s1.lanes c fun r l => r.squashLane c l)) ∧
    (∀ (r : State) (rgn h : Nat), let x := r.sets.getD (h % 4) .fresh
      (x.used = true → r.rootOf rgn ≠ x.root → r.handleCheck rgn h = .fault { code := 5, sub := 0x0D }) ∧
      (r.rootOf rgn = x.root → h / 65536 ≠ x.gen.toNat ∨ x.st ≠ .opened → r.handleCheck rgn h = .closed) ∧
      (r.rootOf rgn = x.root → h / 65536 = x.gen.toNat → x.st = .opened → r.handleCheck rgn h = .ok (h % 4) x)) ∧
    (∀ (r r1 : State) (l i : Nat) (x : FSet) (t : Thread), let w := c.facetArg l
      (r.handleCheck c.x.rgn (c.a l) = .closed → r.commitLane c l = .ok r [1] ∧ r.squashLane c l = .ok r [1]) ∧
      (r.handleCheck c.x.rgn (c.a l) = .ok i x →
        (w = 0 ∨ 7 < w → r.commitLane c l = .fault r { code := 0x0E, sub := 6 }) ∧
        (0 < w → w ≤ 7 → x.facets.length < w ∨ x.isSquashed w = true → r.commitLane c l = .ok r [1]) ∧
        (0 < w → w ≤ x.facets.length → w ≤ 7 → x.isSquashed w = false → r.beginCommit i w x = r1 →
          r1.thread? c.w l = some t → r.commitLane c l = .block r1 (.commit i c.e.f.d c.npc)) ∧
        (w % 2 = 1 ∨ 2 ^ (x.facets.length + 1) ≤ w → r.squashLane c l = .fault r { code := 0x0E, sub := 6 }) ∧
        (w % 2 = 0 → w < 2 ^ (x.facets.length + 1) → (r.squashFacets i w).thread? c.w l = some t →
          r.squashLane c l = .ok (r.squashFacets i w) [0]))) ∧
    (∀ (r : State) (i w : Nat) (x : FSet), r.beginCommit i w x =
      (r.updSet i fun y => { y with st := .resolving, winner := w, bound := r.nextId }).squashFacets i
        (2 ^ (x.facets.length + 1) - 2 - 2 ^ w)) ∧
    (∀ n x r, s.sets[n]? = some x → x.st = .resolving → s.drainWinner x = some r →
      (r.sets[n]?).map FSet.st = some .resolving → r.commitBusy x = false →
      ∃ t, exec (.commitPublish n) s = .next t ∧ (t.sets[n]?).map FSet.st = some .retiring ∧
        ∀ (w l : Nat) (y : Wave) (u : Thread) d npc, r.waves.find w = some y → y.threads[l]? = some u →
          u.st = .blocked (.commit n d npc) → (∀ h ∈ r.ctrHeld, h.rgn ∉ r.winnerRegions x) →
          ∃ (z : Wave) (v : Thread), t.waves.find w = some z ∧ z.threads[l]? = some v ∧ v.st = .running ∧ v.pc = npc) ∧
    (∀ m n p x, s.prisms[m]? = some p → s.sets[n]? = some x → x.st = .free →
      let frames := s.winFrames (s.fnOf p.preRgn) p.wins
      (∀ y ∈ s.sets, y.st ≠ .free → ∀ f ∈ y.frames, f ∉ frames) →
      ∀ r, s.dropFrames frames = some r → r.prisms = s.prisms → p.gone = 0 → p.facets ≠ [] →
      ∃ t, exec (.setOpen m n) s = .next t ∧ t.prisms = s.prisms.eraseIdx m ∧
        ∃ y, t.sets[n]? = some y ∧ y.st = .prefixing ∧ y.gen = x.gen + 1 ∧ y.preRgn = p.preRgn ∧ y.facets = p.facets ∧
          y.frames = frames ∧ y.squashed = 0) ∧
    (∀ n x r, s.sets[n]? = some x → x.st = .prefixing → s.region? x.preRgn = some r →
      r.st = .ended ∨ r.st = .running ∧ s.regionDone x.preRgn r = true →
      exec (.prefixEnd n) s = .next (x.facets.foldl (fun s f => s.tryReady f)
        ((s.pushRegion x.preRgn).updSet n fun y => { y with st := .opened }))) ∧
    (∀ n x, s.sets[n]? = some x → x.st = .retiring →
      ∃ t, exec (.retireWalk n) s = .next t ∧ (∃ y, t.sets[n]? = some y ∧ y.st = .free ∧ y.frames = []) ∧
        t.versions = s.versions.filter (fun v => v.set != n) ∧
        ((∀ v ∈ s.versions, v.set = n → v.facet ≠ x.winner) → t.mem = s.mem) ∧
        (∀ v, (s.versions.filter fun v => v.set == n && v.facet == x.winner) = [v] →
          t.mem = putBytes s.mem (64 * v.sector) (sectorBytes v.data)))

/-- R334 to R338, R363: what `present` does in each lane, and the events of the present unit: a queue that is not granted
faults with code 0x05, subcode 0x0F, an ill-formed descriptor with subcode 0x0E; a full queue of 16 answers 1, else the
descriptor is appended, after a release, and 0 is answered. A released head flips, at its slot where the queue runs to
slots, and its surface leaves the device; at GUARD the regions granted the queue are raised; a surface that has been
read out adds 1 to DONE, where its page can be written and is of class H. A counter's rise by an operation of a commit's winner, issued
after the commit, is held until publication (R325), one in a poisoned grain gives event 0x13 (R289). -/
def Obligations.Presents : Prop :=
  ∀ (f : Frame) (s s1 : State) (c : Ctx),
    (Begins (.present f) s c s1 → exec (.present f) s = .next (s1.lanes c fun r l => r.presentLane c l)) ∧
    (∀ (r r1 r2 r3 : State) (l : Nat) (d : BitVec 512),
      let q := c.a l
      let va := addrSum (c.b l 2) 0 1 c.offX 64
      (r.granted c.x.rgn q = false → r.presentLane c l = .fault r { code := 5, sub := 0x0F, det0 := q }) ∧
      (r.granted c.x.rgn q = true → r.readDesc c l va 64 = .ok r1 d →
        (frameBad d = true → r.presentLane c l = .fault r1 { code := 5, sub := 0x0E, addr := some va }) ∧
        (frameBad d = false → r1.doneCheck c d = .ok r2 →
          (16 ≤ (r2.presents.getD q .fresh).entries.length → r.presentLane c l = .ok r2 [1]) ∧
          ((r2.presents.getD q .fresh).entries.length < 16 → r2.releaseAt c.w l .dev = some r3 →
            let e : PEntry := ⟨d, c.x.rgn, r3.liveTag c.x.rgn, r3.presentFree c.x.rgn⟩
            let put : PQueue → PQueue := fun p => { p with entries := p.entries ++ [e] }
            r.presentLane c l = .ok { r3 with presents := r3.presents.modify q put } [0])))) ∧
    (∀ n p e rest, s.presents[n]? = some p → p.entries = e :: rest → e.released = true →
      (s.presEn.getLsbD n = false → exec (.presentFlip n) s = .next (s.flipHead n e)) ∧
      (s.presEn.getLsbD n = true → p.slot ≤ s.us → exec (.presentFlip n) s =
        let load : PQueue → PQueue := fun p => { p with slot := p.slot + p.interval }
        .next ((({ s with presents := s.presents.modify n load } : State).raiseFor n false).flipHead n e)) ∧
      (let drop : PQueue → PQueue := fun p => { p with entries := p.entries.drop 1 }
       let r := { s with presents := s.presents.modify n drop }
       ∀ r1 bs, r.surface e.rgn e.desc = .ok r1 bs →
        (s.flipHead n e).scanout = s.scanout ++ [⟨n, some e.desc, bs⟩] ∧
        (s.flipHead n e).readouts = s.readouts ++ [⟨n, e.desc, e.rgn⟩] ∧ (s.flipHead n e).mem = r1.mem ∧
        ((∀ x ∈ s.sets, x.st ≠ .retiring) → (s.flipHead n e).mem = s.mem) ∧
        ((s.flipHead n e).presents[n]?).map PQueue.entries = some rest)) ∧
    (∀ n p, s.presents[n]? = some p → p.entries = [] → s.presEn.getLsbD n = true →
      (p.slot ≤ s.us → exec (.presentFlip n) s =
        let load : PQueue → PQueue := fun p => { p with slot := p.slot + p.interval }
        .next ((({ s with presents := s.presents.modify n load } : State).raiseFor n false).missedSlot n)) ∧
      (p.slot ≤ s.us + s.presGuard → exec (.presentGuard n) s = .next (s.raiseFor n true))) ∧
    (∀ n x r, s.region? n = some x → r < 4 → x.st = .running → x.rcb.pq.getLsbD r = true →
      ∃ y, (s.raiseFor r true).region? n = some y ∧ y.raised.getLsbD r = true) ∧
    (∀ n x, s.readouts[n]? = some x →
      let r := { s with readouts := s.readouts.eraseIdx n }
      let va := dfield x.desc 511 448
      (va = 0 → exec (.presentReadoutDone n) s = .next r) ∧
      (∀ key leaf, va ≠ 0 → r.place (r.fnOf x.rgn) (r.asrOf x.rgn) va = some (key, leaf) →
        (leaf.wr = true → leaf.cls = .h →
          exec (.presentReadoutDone n) s = .next (r.raiseCtr ⟨x.rgn, none, 0, 0, r.nextId⟩ key (some va))) ∧
        (leaf.wr = false ∨ leaf.cls ≠ .h → exec (.presentReadoutDone n) s =
          .next (r.postEng x.rgn none 0 0 { code := 0x0A, sub := 3, addr := some va, wr := true })))) ∧
    (∀ (e : EngOf) (key va : Nat), s.cutOff key = false →
      (∀ sub, s.windowBad e.rgn .tagged key = some sub →
        s.raiseCtr e key (some va) = s.engRecord e { code := 0x0E, sub := sub, addr := some va, wr := true }) ∧
      (s.windowBad e.rgn .tagged key = none → s.heldPart (s.liveTag e.rgn) e.id key = true → s.raiseCtr e key (some va) =
        { s with ctrHeld := s.ctrHeld ++ [⟨e.rgn, e.core, e.cluster, e.pc, e.id, key, some va⟩] }) ∧
      (s.windowBad e.rgn .tagged key = none → s.heldPart (s.liveTag e.rgn) e.id key = false →
        s.poisonedFor (s.liveTag e.rgn) key 8 = true → s.raiseCtr e key (some va) = s.dataError e.rgn key) ∧
      (∀ r, s.windowBad e.rgn .tagged key = none → s.heldPart (s.liveTag e.rgn) e.id key = false →
        s.poisonedFor (s.liveTag e.rgn) key 8 = false →
        s.homeWrite (s.liveTag e.rgn) none key
          (toLe 8 ((leBytes (s.homeBytes (s.liveTag e.rgn) key 8) + 1) % 2 ^ 64)) = .ok r → s.raiseCtr e key (some va) = r))

/-- R381 to R392: what the texture and ray instructions do in each lane. The unit runs with the operands that were read at issue; what it
came to is the result to come, and a fault is precise. The descriptor is aligned to 64 bytes; an
ill-formed one faults with code 0x05, subcode 0x13. `tex.q` answers the size of the level; a texel that `tex.f` names
outside its level, and a sample at an infinite or undefined coordinate, answers +0 in every channel; a texel inside is
read and its channels answered. A sample one of whose texels is poisoned answers all ones. A ray with an undefined component, or
without a direction, misses; a traversal that has nothing left to visit answers its closest hit, or a miss. Whether the reads are made
anew before the result returns is a free value: log 10 (DESIGN CHOICE; R307 orders them by issue and result alone). -/
def Obligations.TexturesAndRays : Prop :=
  ∀ (f : Frame) (s s1 : State) (c : Ctx),
    (Begins (.tex f) s c s1 → exec (.tex f) s = .next (s1.lanes c fun r l =>
      r.unitLane c l ⟨.tex, c.a l 2, c.b l 2, c.fsrc l c.e.f.c .f32, c.e.f.isS⟩)) ∧
    (Begins (.texG f) s c s1 → exec (.texG f) s = .next (s1.lanes c fun r l =>
      r.unitLane c l ⟨.texG, c.a l 2, c.b l 2, c.c l 4, c.e.f.isS⟩)) ∧
    (Begins (.texF f) s c s1 → exec (.texF f) s = .next (s1.lanes c fun r l =>
      r.unitLane c l ⟨.texF, c.a l 2, c.b l 2, if c.e.f.isS then 0 else c.c l, c.e.f.isS⟩)) ∧
    (Begins (.texQ f) s c s1 → exec (.texQ f) s = .next (s1.lanes c fun r l =>
      r.unitLane c l ⟨.texQ, 0, c.b l 2, if c.e.f.isS then 0 else c.c l, c.e.f.isS⟩)) ∧
    (Begins (.trace f) s c s1 → exec (.trace f) s = .next (s1.lanes c fun r l =>
      r.unitLane c l ⟨.trace, c.a l 8, addrSum (c.b l 2) 0 1 c.offX 64, 0, c.e.f.isS⟩)) ∧
    (∀ (r r1 : State) (l : Nat) (op : UnitOp) (ws : List Word) (o : Lane),
      let q : Asked := ⟨c.w, l, c.id, c.x.agent c.w, op⟩
      (r.unitRun q = .ok r1 ws → r.unitLane c l op = .pend r1 { c.calc l l ws with redo := some op }) ∧
      (r.unitRun q = .stop o → r.unitLane c l op = o)) ∧
    (∀ (r : State) (q : Asked),
      (q.op.kind = .tex → r.unitRun q = r.sample q fun n => if q.op.isS then 0 else lodOf n (.ofBits q.op.c .f32)) ∧
      (q.op.kind = .texG → r.unitRun q =
        r.sample q fun n => lodGrad n ((List.range 4).map fun i => XQ.ofBits (q.op.c / 2 ^ (32 * i) % 2 ^ 32) .f32))) ∧
    (∀ (r : State) (w l : Nat) (a : Acc), a.redo = none → r.unitAgain w l a = r) ∧
    (∀ (r r1 r2 : State) (w l n : Nat) (a : Acc) (op : UnitOp) (x : Wave) (ws : List Word),
      a.redo = some op → r.waves.find w = some x → r.fresh = (n, r1) →
      (n % 2 = 0 → r.unitAgain w l a = r1) ∧
      (n % 2 = 1 → r1.unitRun ⟨w, l, a.id, x.agent w, op⟩ = .ok r2 ws → r.unitAgain w l a =
        r2.updThread w l fun t => t.setAcc a.id fun b => some { b with val := some ws })) ∧
    (∀ (r r1 r2 : State) (q : Asked) (bs : List Byte) (lod : Nat → Nat),
      (q.op.kind = .texQ → q.op.b % 64 ≠ 0 →
        r.unitRun q = .stop (.fault r { code := 2, sub := 1, addr := some q.op.b })) ∧
      (q.op.b % 64 = 0 → r.unitRead q q.op.b 64 = .ok r1 bs → texBad (descOfBytes bs) = true →
        r.sample q lod = .stop (.fault r1 { code := 5, sub := 0x13, addr := some q.op.b })) ∧
      (q.op.b % 64 = 0 → r.unitRead q q.op.b 64 = .ok r1 bs → texBad (descOfBytes bs) = false →
        let t := Tex.ofDesc (descOfBytes bs)
        let k := q.op.c
        let x := intOf (q.op.a % 2 ^ 32) .s32
        let y := intOf (q.op.a / 2 ^ 32) .s32
        (q.op.kind = .texQ → k < t.levels → r.unitRun q = .ok r1
          [BitVec.ofNat 32 (t.dims k).1, BitVec.ofNat 32 (t.dims k).2, BitVec.ofNat 32 t.levels, BitVec.ofNat 32 t.fmt]) ∧
        (q.op.kind = .texQ → t.levels ≤ k → r.unitRun q = .ok r1 [0, 0, 0, 0]) ∧
        (q.op.kind = .texF → t.levels ≤ k ∨ x < 0 ∨ y < 0 ∨ ((t.dims k).1 : Int) ≤ x ∨ ((t.dims k).2 : Int) ≤ y →
          r.unitRun q = .ok r1 [0, 0, 0, 0]) ∧
        (∀ cs, q.op.kind = .texF → k < t.levels → 0 ≤ x → 0 ≤ y → x < (t.dims k).1 → y < (t.dims k).2 →
          r1.unitRead q (t.addr k x.toNat y.toNat) t.size = .ok r2 cs →
          r.unitRun q = .ok r2 ((t.channels cs).map XQ.round)) ∧
        (∀ u n v d, XQ.ofBits (q.op.a % 2 ^ 32) .f32 = .fin u n → XQ.ofBits (q.op.a / 2 ^ 32) .f32 = .fin v d →
          r.sample q lod = r1.sampleTaps q t (t.taps (lod t.levels) (u, n) (v, d)) (some (List.replicate 4 (.fin 0 1)))) ∧
        ((∀ u n, XQ.ofBits (q.op.a % 2 ^ 32) .f32 ≠ .fin u n) → r.sample q lod = .ok r1 [0, 0, 0, 0]))) ∧
    (∀ (r r1 : State) (q : Asked) (t : Tex) (p : Tap) (ps : List Tap) (bs : List Byte) (acc : Option (List XQ)),
      (∀ xs, acc = some xs → r.sampleTaps q t [] acc = .ok r (xs.map XQ.round)) ∧
      (acc = none → r.sampleTaps q t [] acc = .ok r (List.replicate 4 0xFFFFFFFF)) ∧
      (let read := r.unitRead q (t.addr p.level (texIndex t.amu p.i (t.dims p.level).1)
         (texIndex t.amv p.j (t.dims p.level).2)) t.size
       (read = .poison r1 → r.sampleTaps q t (p :: ps) acc = r1.sampleTaps q t ps none) ∧
       (∀ o, read = .stop o → r.sampleTaps q t (p :: ps) acc = .stop o) ∧
       (read = .ok r1 bs → r.sampleTaps q t (p :: ps) acc = r1.sampleTaps q t ps
         (acc.map fun xs => (xs.zip (t.channels bs)).map fun e => e.1.add (e.2.scale p.w 24))))) ∧
    (∀ (r : State) (q : Asked) (ray : Ray) (n : Nat) (h : Hit),
      State.traverse q ray n [] none r = .ok r [0x7F800000, 0xFFFFFFFF, 0, 0] ∧
      State.traverse q ray n [] (some h) r =
        .ok r [h.t.round, BitVec.ofNat 32 h.prim, h.u.round, h.w.round]) ∧
    (∀ (r : State) (q : Asked), q.op.kind = .trace → q.op.b % 64 = 0 →
      (∀ i, i < 8 → fpAt q.op.a i .f32 = .nan → r.unitRun q = .ok r [0x7F800000, 0xFFFFFFFF, 0, 0]) ∧
      (∀ o d, (∀ i, i < 8 → fpAt q.op.a i .f32 ≠ .nan) → v3At q.op.a 0 .f32 = some o →
        v3At q.op.a 3 .f32 = some d → (∃ i, i < 3 ∧ (fpAt q.op.a (3 + i) .f32).isZero = false) →
        r.unitRun q = State.traverse q ⟨o, d, .ofXR (fpAt q.op.a 6 .f32), .ofXR (fpAt q.op.a 7 .f32)⟩ 65536
          [(q.op.b, false)] none r))

/-- R373 to R380: what the instructions of the render path do in each lane. A primitive is given the descriptor's next
sequence number and is appended to the lists of the tiles its clipped box covers; END flushes the lists, and a flush whose
tile waves are gone frees the chunks and advances the flush number. `pxlock` outside a tile wave, outside its tile or on
an entry it does not hold faults with code 0x05, and else waits until every lower entry is clear of the pixel; `pxunlock`
makes the entry clear of the pixel, or with ALL of every pixel, after a release. That `pxunlock` outside a tile wave faults as `pxlock`
does is log 40 (DEDUCED: R380 gives the fault to `pxlock` alone). -/
def Obligations.Rendering : Prop :=
  ∀ (f : Frame) (all : Bool) (s s1 : State) (c : Ctx),
    (Begins (.binPut f) s c s1 → exec (.binPut f) s =
      .next (s1.lanes c fun r l => r.binGo c l fun r die b => r.binRecord die b (c.b l 4))) ∧
    (Begins (.binPutEnd f) s c s1 → exec (.binPutEnd f) s =
      .next (s1.lanes c fun r l => r.binGo c l fun r die b => .ok (r.binFlush die { b with ending := true }) [0])) ∧
    (Begins (.pxlock f) s c s1 → exec (.pxlock f) s = .next (s1.lanes c fun r l => r.pxlockLane c l)) ∧
    (Begins (.pxunlock f all) s c s1 →
      exec (.pxunlock f all) s = .next (s1.lanes c fun r l => r.pxunlockLane c l all)) ∧
    (∀ (r r1 r2 r3 : State) (l : Nat) (d : BitVec 512) (b : BinDesc) (k : State → Nat → BinDesc → Lane),
      let va := addrSum (c.a l 2) 0 1 c.offX 64
      r.readDesc c l va 64 clsHome = .ok r1 d →
      (r1.binBad (r1.fnOf c.x.rgn) (r1.asrOf c.x.rgn) d = true → r.binGo c l k = .fault r1 { code := 5, sub := 0x15, addr := some va }) ∧
      (r1.binBad (r1.fnOf c.x.rgn) (r1.asrOf c.x.rgn) d = false → r1.releaseAt c.w l .dev = some r2 →
        (r2.settleBins (clusterOfWave c.w / 24)).binOpen c (clusterOfWave c.w / 24) va d = some (r3, b) →
        r.binGo c l k = k r3 (clusterOfWave c.w / 24) b)) ∧
    (∀ (r : State) (die rec_ : Nat) (b : BinDesc),
      let b1 : BinDesc := { b with seq := b.seq + 1 }
      (b.clip b.seq rec_ = none → r.binRecord die b rec_ = .ok (r.setBin die b1) [b.seq]) ∧
      (∀ p, b.clip b.seq rec_ = some p → b1.overflows p = false →
        r.binRecord die b rec_ = .ok ((r.binAdd die b1 p).1.setBin die (r.binAdd die b1 p).2) [b.seq]) ∧
      (∀ p, b.clip b.seq rec_ = some p → b1.overflows p = true →
        r.binRecord die b rec_ = .ok (r.binOverflow die b1 p) [b.seq])) ∧
    (∀ (r : State) (l : Nat) (x : Wave) (t : TileSt), r.waves.find c.w = some x →
      let px := BitVec.ofNat 32 (c.a l)
      let seq := BitVec.ofNat 32 (c.b l)
      let u := r.updTile c.w fun t => t.name seq l
      (x.tile = none → r.pxlockLane c l = .fault r { code := 5, sub := 0x10 } ∧
        r.pxunlockLane c l all = .fault r { code := 5, sub := 0x10 }) ∧
      (x.tile = some t →
        (t.outside px = true → r.pxlockLane c l = .fault r { code := 5, sub := 0x11 }) ∧
        (t.outside px = false → seq ∉ t.seqs → r.pxlockLane c l = .fault r { code := 5, sub := 0x12 }) ∧
        (t.outside px = false → seq ∈ t.seqs → t.held.contains ⟨px, seq⟩ = true → r.pxlockLane c l = .ok u []) ∧
        (t.outside px = false → seq ∈ t.seqs → t.held.contains ⟨px, seq⟩ = false → x.pxClear t px seq = false →
          (∀ r1, x.pxGrant t px seq = true →
            (u.updTile c.w fun t => { t with held := t.held ++ [⟨px, seq⟩] }).acquireAt c.w l .dev = some r1 →
            r.pxlockLane c l = .ok r1 []) ∧
          (x.pxGrant t px seq = false → r.pxlockLane c l = .block u (.pixel px seq))) ∧
        (∀ r1, r.releaseAt c.w l .dev = some r1 → all = true → r.pxunlockLane c l all =
          let clear : TileSt → TileSt := fun t =>
            { t with clearAll := t.clearAll ++ [seq], held := t.held.filter fun h => h.seq != seq }
          .ok ((r1.updTile c.w clear).pxWake c.w) []) ∧
        (∀ r1, r.releaseAt c.w l .dev = some r1 → all = false → r.pxunlockLane c l all =
          let clear : TileSt → TileSt := fun t =>
            { t with clear := t.clear ++ [⟨px, seq⟩], held := t.held.filter fun h => !decide (h = ⟨px, seq⟩) }
          .ok ((r1.updTile c.w clear).pxWake c.w) []))) ∧
    (∀ die (b : BinDesc), ((s.die die).bins.find? fun y => y.id == b.id) = some b → b.flushing = true →
      (∀ y ∈ (s.die die).bins, y.writes = []) → s.tileBusy b = false → b.cores = [] → b.pending = [] →
      let b1 : BinDesc := { b with flushing := false, lists := [], flush := b.flush + 1, cores := [], pending := [] }
      (b.ending = false → exec (.flushComplete die b.id) s = .next (s.setBin die b1)) ∧
      (b.ending = true → exec (.flushComplete die b.id) s = .next (s.binClose die b1)))

/-! ### CSRs, faults, translation control and the events of waves -/

/-- R9, R22, R23, R133, R167, R168, R225, R226: what the CSR instructions do in each lane: a number that no CSR has faults
with code 0x01, subcode 0x06; a level the unit may not read, a die or device CSR outside a system region, and a CSR that
may not be written fault with code 0x05, subcode 0x07; else the CSR is read to D, or takes A by field access. Each level's CSRs and
their fields are pinned: a write of `thrstat` clears LAV and SPL where it has a one, `feedp0` to `feedp3` take bits 21:2, and what is
read-only ignores the write. -/
def Obligations.CsrAccess : Prop :=
  ∀ (f : Frame) (s s1 : State) (c : Ctx),
    (Begins (.csrr f) s c s1 → exec (.csrr f) s = .next (s1.lanes c fun r l => r.csrrLane c l)) ∧
    (Begins (.csrw f) s c s1 → exec (.csrw f) s = .next (s1.lanes c fun r l => r.csrwLane c l)) ∧
    (Begins (.spillbWrite f) s c s1 → exec (.spillbWrite f) s = .next (s1.lanes c fun r l => r.csrwLane c l)) ∧
    (Begins (.spilllWrite f) s c s1 → exec (.spilllWrite f) s = .next (s1.lanes c fun r l => r.csrwLane c l)) ∧
    (Begins (.fairtWrite f) s c s1 → exec (.fairtWrite f) s = .next (s1.lanes c fun r l => r.csrwLane c l)) ∧
    (Begins (.mestatHaltResume f) s c s1 →
      exec (.mestatHaltResume f) s = .next (s1.lanes c fun r l => r.csrwLane c l)) ∧
    (Begins (.mestatDiscard f) s c s1 → exec (.mestatDiscard f) s = .next (s1.lanes c fun r l => r.csrwLane c l)) ∧
    (∀ (r r1 r2 : State) (l v k : Nat) (x : Wave) (e : Flt),
      let n := if c.e.f.isS then c.a l % 4096 else csrX c.e.f
      let m := if c.e.f.isS then c.b l % 4096 else csrX c.e.f
      (csrWords n = none → r.csrrLane c l = .fault r { code := 1, sub := 6 }) ∧
      (csrWords m = none → r.csrwLane c l = .fault r { code := 1, sub := 6 }) ∧
      (c.csrCheck n c.e.f.d = .ok k → r.settlePair c l k c.e.f.d = some r1 →
        (r1.csrRead c l n = .ok v → r.csrrLane c l = .ok r1 (wordsOf k v)) ∧
        (r1.csrRead c l n = .error e → r.csrrLane c l = .fault r1 e)) ∧
      (c.csrCheck m c.e.f.a = .ok k → r.settlePair c l k c.e.f.a = some r1 → r1.waves.find c.w = some x →
        (r1.csrWrite c l m (Ctx.a { c with x := x } l k) = .ok r2 → r.csrwLane c l = .ok r2 []) ∧
        (r1.csrWrite c l m (Ctx.a { c with x := x } l k) = .error e → r.csrwLane c l = .fault r1 e))) ∧
    (∀ (r : State) (l n v : Nat) (x : Wave) (t : Thread), r.waves.find c.w = some x → x.threads[l]? = some t →
      (n < 0x100 → r.csrRead c l n = .ok (t.csr n)) ∧
      (0x100 ≤ n → n < 0x400 → callerKey ≤ c.w → r.csrRead c l n = .error { code := 5, sub := 7 }) ∧
      (0x100 ≤ n → n < 0x200 → c.w < callerKey → r.csrRead c l n = .ok (x.csr n)) ∧
      (0x200 ≤ n → n < 0x400 → c.w < callerKey → r.csrRead c l n = .ok (r.coreCsr (c.w / 128) n)) ∧
      (0x400 ≤ n → n < 0x600 → c.w < callerKey → r.csrRead c l n = .error { code := 5, sub := 7 }) ∧
      (0x400 ≤ n → n < 0x600 → callerKey ≤ c.w → r.csrRead c l n = .ok (r.clusterCsr (clusterOfWave c.w) n)) ∧
      (0x600 ≤ n → r.isSys x.rgn = false → r.csrRead c l n = .error { code := 5, sub := 7 }) ∧
      (0x600 ≤ n → r.isSys x.rgn = true → r.csrRead c l n = .ok (r.deviceCsr (clusterOfWave c.w / 24) n)) ∧
      (t.csr 0x000 = b2n t.lav + 2 * b2n t.spl + 2 ^ 6 * t.stack.length + 2 ^ 9 * b2n t.resv.isSome + 2 ^ 10 * b2n t.fac +
        2 ^ 11 * t.sdep) ∧
      (t.csr 0x010 = t.spillb.toNat ∧ t.csr 0x011 = t.spilll.toNat ∧ t.csr 0x012 = t.spillp.toNat ∧ t.csr 0x020 = t.epc.toNat ∧
        t.csr 0x021 = t.ecause.toNat) ∧
      (x.csr 0x100 = x.fairt.toNat ∧ ∀ i, i < 4 → x.csr (0x110 + i) = (x.feedp.getD i 0).toNat) ∧
      (∀ g, r.coreCsr g 0x200 = (r.core g).scrn + 2 ^ 8 * (r.core g).tobn ∧ r.coreCsr g 0x201 = (r.core g).wakerc.toNat ∧
        r.coreCsr g 0x202 = (r.core g).gatec.toNat ∧
        r.coreCsr g 0x203 = r.resident g 0 + 2 ^ 6 * r.resident g 1 + 2 ^ 12 * r.resident g 2 + 2 ^ 18 * r.resident g 3) ∧
      (∀ k i, i < 4 → let e := (r.core (4 * k + i)).engine
        r.clusterCsr k (0x400 + i) = e.mestat.toNat ∧ r.clusterCsr k (0x404 + i) = e.done.toNat + 2 ^ 32 * e.issued.toNat) ∧
      (∀ die, r.deviceCsr die 0x600 = (r.die die).l2mode.toNat ∧
        (∀ i, i < 8 → r.deviceCsr die (0x601 + i) = ((r.die die).l2part.getD i 0).toNat) ∧
        r.deviceCsr die 0x800 = r.presGuard + 2 ^ 16 * r.presEn.toNat ∧
        (∀ i p, r.presents[i]? = some p → i < 4 → r.deviceCsr die (0x801 + i) =
          p.interval + 2 ^ 32 * (if r.presEn.getLsbD i then (p.slot - r.us) % 2 ^ 20 else 0) + 2 ^ 52 * p.entries.length) ∧
        r.deviceCsr die 0x805 = (if r.pwrSt = .active then 0 else 1) + 2 ^ 12 * r.fclk + 2 ^ 18 * r.pwrLimit) ∧
      (0x600 ≤ n ∨ 0x200 ≤ n ∧ n < 0x400 → r.csrWrite c l n v = .error { code := 5, sub := 7 }) ∧
      (0x100 ≤ n → n < 0x200 → callerKey ≤ c.w → r.csrWrite c l n v = .error { code := 5, sub := 7 }) ∧
      (0x400 ≤ n → n < 0x600 → c.w < callerKey → r.csrWrite c l n v = .error { code := 5, sub := 7 }) ∧
      (0x400 ≤ n → n < 0x404 → callerKey ≤ c.w →
        r.csrWrite c l n v = .ok (r.writeMestat (4 * clusterOfWave c.w + n % 4) v)) ∧
      (0x404 ≤ n → n < 0x600 → callerKey ≤ c.w → r.csrWrite c l n v = .ok r) ∧
      (r.csrWrite c l 0x000 v = .ok (r.updThread c.w l fun _ =>
        { t with lav := t.lav && !v.testBit 0, spl := t.spl && !v.testBit 1 })) ∧
      (n = 0x012 ∨ n = 0x021 → r.csrWrite c l n v = .ok (r.updThread c.w l fun _ => t)) ∧
      (∀ i, i < 4 → c.w < callerKey → r.csrWrite c l (0x110 + i) v = .ok { r with
        waves := r.waves.upd c.w fun x => { x with feedp := x.feedp.set i (BitVec.ofNat 32 (v % 2 ^ 22 / 4 * 4)) } }) ∧
      (c.w < callerKey → r.csrWrite c l 0x100 v =
        .ok { r with waves := r.waves.upd c.w fun x => { x with fairt := BitVec.ofNat 32 (v % 65536) } }) ∧
      (r.csrWrite c l 0x020 v = .ok (r.updThread c.w l fun _ => { t with epc := BitVec.ofNat 64 (v / 4 * 4) })) ∧
      (t.spillp ≠ t.spillb → r.csrWrite c l 0x010 v = .error { code := 5, sub := 2 } ∧
        r.csrWrite c l 0x011 v = .error { code := 5, sub := 2 }) ∧
      (t.spillp = t.spillb →
        let a := BitVec.ofNat 64 (v / 8 * 8)
        (a.toNat ≤ t.spilll.toNat →
          r.csrWrite c l 0x010 v = .ok (r.updThread c.w l fun _ => { t with spillb := a, spillp := a })) ∧
        (t.spilll.toNat < a.toNat → r.csrWrite c l 0x010 v = .error { code := 5, sub := 3 }) ∧
        (t.spillb.toNat ≤ a.toNat → r.csrWrite c l 0x011 v = .ok (r.updThread c.w l fun _ => { t with spilll := a })) ∧
        (a.toNat < t.spillb.toNat → r.csrWrite c l 0x011 v = .error { code := 5, sub := 3 }))) ∧
    (∀ (r : State) (g v : Nat),
      ((r.core g).engine.mestat.getLsbD 0 = false → r.writeMestat g v = r) ∧
      ((r.core g).engine.mestat.getLsbD 0 = true → v % 4 = 1 → r.writeMestat g v = r.setCore g
        { r.core g with engine := { (r.core g).engine with mestat := (r.core g).engine.mestat &&& ~~~1 } }) ∧
      ((r.core g).engine.mestat.getLsbD 0 = true → v.testBit 1 = true →
        ((r.writeMestat g v).core g).engine.queue = [] ∧ ((r.writeMestat g v).core g).engine.mestat.getLsbD 0 = false ∧
        ((r.writeMestat g v).core g).engine.done = ((r.writeMestat g v).core g).engine.issued))

/-- R166, R169: `trap` takes fault 0x15 with the low byte of A as its subcode and A in detail word 0, `bkpt` fault 0x16;
`eret` resumes at `epc` without the handler mark, and outside a handler faults with code 0x05, subcode 0x06. -/
def Obligations.TrapsAndReturns : Prop :=
  ∀ (f : Frame) (s s1 : State) (c : Ctx),
    (Begins (.trap f) s c s1 → exec (.trap f) s = .next (s1.lanes c fun r l =>
      .fault r { code := 0x15, sub := BitVec.ofNat 8 (c.a l), det0 := c.a l })) ∧
    (Begins (.bkpt f) s c s1 → exec (.bkpt f) s = .next (s1.lanes c fun r _ => .fault r { code := 0x16, sub := 0 })) ∧
    (Begins (.eret f) s c s1 → exec (.eret f) s = .next (s1.lanes c fun r l =>
      if (c.thread l).mark then .ok (r.updThread c.w l fun t => { t with pc := t.epc, mark := false }) []
      else .fault r { code := 5, sub := 6 })) ∧
    (∀ (r r1 : State) (l : Nat) (led : Bool) (fl : Flt), c.pops = [] →
      (r.holdActs.updThread c.w l fun t => t.undo c.pc c.id).releaseAt c.w l .dev = some r1 →
      State.laneOut c l led (.fault r fl) = (r1.takeFault c.w l c.pc fl, led)) ∧
    (∀ (r r1 : State) (w l : Nat) (pc : DWord) (fl : Flt), r.releaseAt w l .dev = some r1 →
      r.raise w l pc fl = r1.takeFault w l pc fl)

/-- R49, R162 to R166, R366: taking a fault. The record is posted with the next sequence number of the ring, and lost where
the ring is full; the thread is parked at the instruction, its reservation cleared. The domain's action for the code is
to deliver it to the trap handler, with the PC in `epc`, the cause in `ecause` and the handler mark set; to hold it; or
to kill the region. A handler that faults is killed with its region, but an access of it that code 0x04 parked is made
again. While a group executes its instruction the domain's action is noted, and done once every lane of it has. A fault whose walk met
an uncorrectable error posts event 0x13 after it. -/
def Obligations.FaultsTaken : Prop :=
  (∀ (s : State) (w l : Nat) (pc : DWord) (f : Flt) (x : Wave) (t : Thread) (y : Region),
    s.acts = none → s.waves.find w = some x → x.threads[l]? = some t → s.region? x.rgn = some y → f.code ≠ 0x0D →
    f.bad = none →
    let act := field y.rcb.act.toNat (2 * (f.code.toNat % 32) + 1) (2 * (f.code.toNat % 32))
    (act = 1 → t.mark = false → ∃ u, (s.takeFault w l pc f).thread? w l = some u ∧ u.st = .running ∧
      u.pc = y.rcb.trape ∧ u.epc = pc &&& ~~~3 ∧ u.ecause = 0#16 ++ f.sub ++ f.code ∧ u.mark = true ∧ u.resv = none ∧
      u.v = t.v ∧ u.preds = t.preds ∧ u.stack = t.stack) ∧
    (act = 2 → ∃ u seq, (s.takeFault w l pc f).thread? w l = some u ∧ u.st = .parked f.code f.sub seq ∧ u.pc = pc ∧
      u.resv = none ∧ u.v = t.v ∧ u.preds = t.preds ∧ u.epc = t.epc ∧ u.mark = t.mark) ∧
    (act = 1 → t.mark = true → f.code = 4 → ∃ u, (s.takeFault w l pc f).thread? w l = some u ∧ u.st = .running ∧ u.pc = pc ∧
      u.mark = true) ∧
    (act ≠ 2 → (act = 1 → t.mark = true ∧ f.code ≠ 4) → y.st ≠ .ended → y.st ≠ .killed →
      ∀ e ∈ (s.takeFault w l pc f).waves, e.2.rgn ≠ x.rgn)) ∧
  (∀ (s : State) (w l : Nat) (pc : DWord) (f : Flt) (x : Wave) (t : Thread) (as : List DomAct),
    s.acts = some as → s.waves.find w = some x → x.threads[l]? = some t → f.bad = none →
    (s.takeFault w l pc f).acts = some (as ++ [.act w l x.rgn f.code f.sub t.mark]) ∧
    ∃ u seq, (s.takeFault w l pc f).thread? w l = some u ∧ u.st = .parked f.code f.sub seq ∧ u.pc = pc ∧ u.resv = none) ∧
  (∀ (s : State) (as : List DomAct), s.acts = some as →
    s.actAll = as.foldl State.doAct { s with acts := none }) ∧
  (∀ (s : State) (dom k : Nat) (r : Rec) (d : Region), s.region? dom = some d → d.rcb.fdn ≠ 0 →
    s.placeWr d.fn d.rcb.asr (d.rcb.fdr.toNat + 64 * d.widx) = some k → (∀ q, s.windowOf q = none) →
    let next := (d.widx + 1) % d.rcb.fdn
    (next ≠ s.num (d.rcbKey + 0xE8) 3 → (s.post dom r).2 = d.seq ∧
      (∃ e, (s.post dom r).1.region? dom = some e ∧ e.widx = next ∧ e.seq = (d.seq + 1) % 65536 ∧ e.lost = d.lost) ∧
      (k + 64 ≤ d.rcbKey + 0xE0 ∨ d.rcbKey + 0xE8 ≤ k →
        ∀ i, i < 64 → (s.post dom r).1.byte (k + i) = (toLe 64 (r.bits d.seq)).getD i 0)) ∧
    (next = s.num (d.rcbKey + 0xE8) 3 → (s.post dom r).2 = d.seq ∧
      ∃ e, (s.post dom r).1.region? dom = some e ∧ e.widx = d.widx ∧ e.lost = min 255 (d.lost + 1))) ∧
  (∀ (t : Thread) code sub seq, t.st = .parked code sub seq → t.replay = { t with st := .running })

/-- R170, R171, R281 to R284: `icinv` drops the fetch blocks of its range from every instruction cache, after a release;
`tlbinv` outside a system region faults with code 0x05, subcode 0x08, and else leaves no translation of its address space
in its range in any TLB; a walk that waits, which a prefetch left, installs its leaf, charged to the region, where the thread may read
the page, and one that would pass a quota gives an event and no fault (the prefetch's walk is log 18, DEDUCED); a home
move names the new home and holds the requests in flight, which are forwarded one by one, and empties the frame's entry of the
forwarding table once none is left. -/
def Obligations.InvalidationAndHomes : Prop :=
  ∀ (f : Frame) (all : Bool) (s s1 : State) (c : Ctx),
    (Begins (.icinv f) s c s1 → exec (.icinv f) s = .next (s1.lanes c fun r l => r.icinvLane c l)) ∧
    (Begins (.tlbinv f all) s c s1 → exec (.tlbinv f all) s = .next (s1.lanes c fun r l => r.tlbinvLane c l all)) ∧
    (∀ (r r1 : State) (l : Nat),
      (r.releaseAt c.w l .dev = some r1 → r.icinvLane c l =
        .ok (r1.dropBlocks (r1.asrOf c.x.rgn) (addrSum (c.a l 2) 0 1 c.offX 64) (c.b l)) []) ∧
      (r.isSys c.x.rgn = false → r.tlbinvLane c l all = .fault r { code := 5, sub := 8 }) ∧
      (r.isSys c.x.rgn = true → all = false →
        r.dropTranslations (r.asrOf c.x.rgn) false (addrSum (c.a l 2) 0 1 c.offX 64) (c.b l) = some r1 →
        r.tlbinvLane c l all = .ok r1 [])) ∧
    (∀ (r : State) asr base size p key g blk, p ∈ framePieces (blockSpan base size).1 (blockSpan base size).2 →
      key ∈ r.placesOf asr p.1 → key < 32 * blk + 32 → 32 * blk < key + p.2 →
      ((r.dropBlocks asr base size).core g).icache.find blk = none ∧
        ∀ e ∈ ((r.dropBlocks asr base size).core g).l0, e.2.find blk = none) ∧
    (∀ (r t : State) asr base size, r.dropTranslations asr all base size = some t →
      ∀ leaf ∈ t.heldLeaves asr, all = false ∧ vaMeets base size leaf.va leaf.size = false) ∧
    (∀ k q rest, (s.cluster k).walks = q :: rest →
      (∀ r fl b, (s.setCluster k { s.cluster k with walks := rest }).walkBy (k / 24) (s.asrOf q.rgn) q.va = (r, .fault fl b) →
        exec (.pageWalk k) s = .next (match b with | some key => r.dataError q.rgn key | none => r)) ∧
      (∀ r leaf, (s.setCluster k { s.cluster k with walks := rest }).walkBy (k / 24) (s.asrOf q.rgn) q.va = (r, .leaf leaf) →
        let left := rest.filter fun p => !(r.asrOf p.rgn == leaf.asr && leaf.maps leaf.asr p.va)
        let t := r.setCluster k { r.cluster k with walks := left }
        (t.checkLeaf ⟨q.rgn, k, none⟩ leaf q.va .rd clsAny ≠ none → exec (.pageWalk k) s = .next t) ∧
        (t.checkLeaf ⟨q.rgn, k, none⟩ leaf q.va .rd clsAny = none →
          (∀ r1, t.charge q.rgn leaf = .ok r1 →
            exec (.pageWalk k) s = .next (r1.install ⟨q.rgn, k, none⟩ leaf)) ∧
          (∀ n, t.charge q.rgn leaf = .beyond n → exec (.pageWalk k) s = .next (t.quotaEvent n 1))))) ∧
    (∀ frame old slice, s.homeFwd = [⟨frame, old, slice, [], false⟩] → slice ≠ s.hashHome frame →
      (∀ e ∈ s.l2, e.1 / 16 ≠ frame) →
      exec (.homeMove frame slice) s = .next { s with
        homeFwd := [⟨frame, old, slice, s.frameRequests frame, true⟩], homes := s.homes.ins frame slice
        waves := s.waves.map fun e => (e.1, { e.2 with threads := e.2.threads.map (Thread.dropFrame frame) }) }) ∧
    (∀ frame old slice reqs, s.homeFwd = [⟨frame, old, slice, reqs, true⟩] →
      (reqs = [] → exec (.homeForward frame) s = .next { s with homeFwd := [] }) ∧
      (∀ w l id rest r, reqs = (w, l, id) :: rest → s.performUpTo w l id = some r →
        exec (.homeForward frame) s = .next { r with
          homeFwd := r.homeFwd.map fun g => if g.frame = frame ∧ g.moved = true then { g with reqs := rest } else g }))

/-- R55, R132, R187, R188, R190, R208, R211: the events of waves and cores. At the fairness limit the turn passes to the next
ready path, as often as the clocks that pass reach it; a reserved code faults in every thread of the path; the threads that wait in a queue register look again; the
oldest element of a feed stream stands in the TOB window; a core that may gate is gated, and a wake event lets it run on,
with its gated clocks counted. -/
def Obligations.WaveEvents : Prop :=
  ∀ (s : State) (w n : Nat),
    (exec (.fairnessExpiry w) s = .next { s with waves := s.waves.upd w Wave.expire }) ∧
    (∀ (x : Wave) l, x.turn = some l → x.expire =
      if x.limit ≤ x.fair ∧ 2 ≤ x.heads.length then
        { x with turn := x.nextPath ((x.pathOf l).headD l), fair := 0, limit := max 64 (x.fairt.toNat % 65536)
                 retain := [none, none, none] }
      else x) ∧
    (∀ (x : Wave) k, x.turn.isSome = true → 2 ≤ x.heads.length → x.fair < x.limit →
      (x.fair + k < x.limit → x.age k = { x with fair := x.fair + k }) ∧
      (x.fair + k = x.limit → 0 < ({ x with fair := x.limit } : Wave).expire.limit →
        x.age k = ({ x with fair := x.limit } : Wave).expire)) ∧
    (∀ sub x l, s.waves.find s.cur = some x → x.turn = some l →
      exec (.reservedOpcode sub) s = .next
        (((x.pathOf l).foldl (fun r n => r.raise s.cur n (x.threads.getD l .empty).pc { code := 1, sub := sub })
          s.holdActs).settlePath s.cur (x.pathOf l)).actAll) ∧
    ((∀ g, coreOfWave w = some g → (s.core g).gated = false) → ∃ t, exec (.queueAccessComplete w) s = .next t ∧
      t.mem = s.mem ∧ ∀ x l u qs, s.waves.find w = some x → x.threads[l]? = some u → u.st = .blocked (.queue qs) →
        (t.thread? w l).map Thread.st = some .running) ∧
    (∀ x l id pc v, s.waves.find w = some x →
      let off := (x.feedp.getD n 0).toNat
      let a := x.feedElem id pc n v
      (off + 4 ≤ s.tobSize x.wg →
        s.pushElem w l id pc n v = .ok { s with waves := s.waves.ins w (x.pushFeed l id pc n v) }) ∧
      (s.tobSize x.wg < off + 4 → s.pushElem w l id pc n v = .error off) ∧
      (x.pushFeed l id pc n v).feedp = x.feedp.set n (BitVec.ofNat 32 ((off + 4) % 2 ^ 22)) ∧
      s.perform w l a = some ⟨s.updWg x.wg fun y => { y with tob := winPut y.tob off (toLe 4 v.toNat) },
        none, none, none⟩) ∧
    (∀ x e t, s.waves.find w = some x → (x.pending.filter fun f => f.2.feed == some n) = [e] →
      s.performUpTo w e.1 e.2.id = some t → exec (.feedElementWrite w n) s = .next t) ∧
    ((s.core n).gated = false → s.mayGate n = true →
      exec (.coreGate n) s = .next (s.setCore n { s.core n with gated := true, gatedAt := s.clkOf n, wake := 0 })) ∧
    ((s.core n).gated = true → (s.core n).wake ≠ 0 → ∃ t, exec (.coreWake n) s = .next t ∧
      (t.core n).gated = false ∧ (t.core n).gatec = (s.core n).gatec + BitVec.ofNat 64 (s.clkOf n - (s.core n).gatedAt) ∧
      (t.core n).wakerc.setWidth 9 = (s.core n).wake ∧ (t.core n).wake = 0 ∧ t.waves = s.waves ∧ t.mem = s.mem)

/-! ### Fjoub, the fabric and the package -/

/-- R409 to R413, R415, R416: Fjoub's commands. A command of 64 bytes, with its code in bits 7:0 and its tag in bits 31:16, of a
function that exists, over a host link that is up, gets a reply with its tag and an MSI-X signal: of a VF that is bound to no
tenant, and of a VF that gives a command of the PF, with status 0x20; a code without a command with status 0x21; values outside
their ranges with status 0x24; an operation on a region with its reason. A freeze stops every clock, and is not answered. The
places of the arguments, and of the status and the tag in the reply, are the model's (assumption 51), which bytes a firmware image and
a roll-back authorisation sign are too (assumption 7), and so are that a roll back ends a pending state at once and a slot's bytes
(assumption 47), and the bound of a partition (assumption 24). -/
def Obligations.FirmwareCommands : Prop :=
  ∀ (s : State) (fn : Nat) (tag : BitVec 16) (rcb a b : DWord) (data : List Byte), fn < 32 → s.links.getD 8 true = true →
    let got : BitVec 8 → BitVec 2 → List DWord → State := fun code op args =>
      { s with commands := s.commands ++ [⟨fn, cmdWord code op tag args⟩] }
    let reply : State → Nat → List Byte → State := fun t n bs => { t with
      replies := t.replies ++ [⟨fn, BitVec.ofNat 256 (n % 2 ^ 16 + 2 ^ 16 * tag.toNat), bs⟩]
      msix := t.msix ++ [(fn, 1)] }
    (∀ code op args, (cmdWord code op tag args).extractLsb' 0 8 = code ∧ (cmdWord code op tag args).extractLsb' 8 2 = op ∧
      (cmdWord code op tag args).extractLsb' 16 16 = tag ∧
      ∀ i x, i < 7 → args[i]? = some x → (cmdWord code op tag args).extractLsb' (64 * (i + 1)) 64 = x) ∧
    (s.bound fn = false → exec (.fwLaunch fn tag rcb) s = .next (reply (got 1 0 [rcb]) 0x20 []) ∧
      exec (.fwHomeMove fn tag a b) s = .next (reply (got 7 0 [a, b]) 0x20 [])) ∧
    (fn ≠ 0 → exec (.fwSetPower fn tag a) s = .next (reply (got 9 0 [a]) 0x20 [])) ∧
    (s.bound fn = true →
      (∀ n t, (got 1 0 [rcb]).launch ((got 1 0 [rcb]).hostIssuer fn) rcb.toNat = (t, n) → exec (.fwLaunch fn tag rcb) s =
        .next (reply (if n = 0 then t.bindPf fn s.nextRegion else t) n [])) ∧
      (∀ n t, (got 2 0 [a]).launchPrism ((got 2 0 [a]).hostIssuer fn) a.toNat = (t, n) →
        exec (.fwPrismLaunch fn tag a) s = .next (reply t n [])) ∧
      (∀ top t n, (s.fns.getD fn .fresh).root = some top →
        ((got 3 0 [rcb]).controlNamed top rcb.toNat .suspend = (t, n) →
          exec (.fwSuspend fn tag rcb) s = .next (reply t n [])) ∧
        ((got 3 1 [rcb]).controlNamed top rcb.toNat .resume = (t, n) →
          exec (.fwResume fn tag rcb) s = .next (reply t n [])) ∧
        ((got 3 2 [rcb]).controlNamed top rcb.toNat .kill = (t, n) → exec (.fwKill fn tag rcb) s = .next (reply t n [])) ∧
        (∀ (seq : BitVec 16) (all : Bool),
          (got 3 3 [rcb, BitVec.ofNat 64 (seq.toNat + if all then 2 ^ 16 else 0)]).controlNamed top rcb.toNat
            (.replay seq.toNat all) = (t, n) →
          exec (.fwReplay fn tag rcb seq all) s = .next (reply t n [])) ∧
        (∀ m x root, let r := got 4 0 [rcb, a, b]
          r.regionNamed top rcb.toNat = some (m, x) → r.region? x.root = some root →
          exec (.fwFreeFrames fn tag rcb a b) s = .next (if 8 * 6 * 2 ^ 20 < a.toNat + b.toNat then reply r 0x24 []
            else reply (r.freeFrames m root a.toNat b.toNat) 0 []))) ∧
      (∀ nonce : BitVec 256, let r := got 0x0A 0 ((List.range 4).map fun i => nonce.extractLsb' (64 * i) 64)
        exec (.fwAttest fn tag nonce) s = .next (if 1024 ≤ s.fw.idIndex then reply r 0x22 []
          else reply { r with fw := s.fw.useIndex } 0 (s.fw.quote (toLe 32 nonce.toNat)))) ∧
      exec (.fwReadCounters fn tag) s = .next (reply (got 0x0E 0 []) 0 (([s.fw.idIndex, s.fw.attKey, s.fw.attIndex] ++
        s.life.flash.flatMap fun e => [e.1, e.2]).flatMap (toLe 8))) ∧
      (∀ code : BitVec 8, (code = 0 ∨ 0x10 ≤ code.toNat → exec (.fwInvalidCode fn tag code) s =
          .next (reply (got code 0 []) 0x21 [])) ∧
        (¬ (code = 0 ∨ 0x10 ≤ code.toNat) → exec (.fwInvalidCode fn tag code) s = .next s))) ∧
    (fn = 0 →
      (∀ (vf partition : BitVec 8) (pasid : BitVec 20) (pq : BitVec 4) (memq timeq accq : DWord) (regq scrq : Word) m x,
        let r := got 5 0 [rcb, BitVec.ofNat 64 (vf.toNat + 2 ^ 8 * partition.toNat + 2 ^ 16 * pq.toNat + 2 ^ 32 * pasid.toNat),
          memq, timeq, BitVec.ofNat 64 (regq.toNat + 2 ^ 32 * scrq.toNat), accq]
        let exec_ := exec (.fwSetQuota fn tag vf rcb pasid partition pq memq timeq regq scrq accq) s
        (vf = 0 ∨ 32 ≤ vf.toNat ∨ 8 ≤ partition.toNat ∨ 2 ^ 40 ≤ memq.toNat ∨ 2 ^ 16 ≤ accq.toNat → exec_ = .next (reply r 0x24 [])) ∧
        (vf ≠ 0 → vf.toNat < 32 → partition.toNat < 8 → memq.toNat < 2 ^ 40 → accq.toNat < 2 ^ 16 →
          r.tenantRoot rcb.toNat = some (m, x) →
          exec_ = .next (reply (r.bindVf vf.toNat m ⟨some m, pasid, partition.toNat, pq⟩ fun y => { y with
            pq := pq, memq := memq.toNat, timeq := timeq.toNat, regq := regq.toNat, scrq := scrq.toNat, accq := accq.toNat
            ownb := true }) 0 []))) ∧
      (∀ (en : BitVec 48) (guard : BitVec 16) (ivs : List Word),
        let r := got 6 0 [en ++ guard, ivs.getD 1 0 ++ ivs.getD 0 0, ivs.getD 3 0 ++ ivs.getD 2 0]
        (16 ≤ en.toNat → exec (.fwSetPresent fn tag en guard ivs) s = .next (reply r 0x24 [])) ∧
        (en.toNat < 16 → ∃ t, exec (.fwSetPresent fn tag en guard ivs) s = .next (reply t 0 []) ∧
          t.presEn = en.setWidth 4 ∧ t.presGuard = guard.toNat ∧ t.presents.length = s.presents.length ∧
          ∀ q p, s.presents[q]? = some p → (t.presents[q]?).map PQueue.interval = some (ivs.getD q 0).toNat)) ∧
      (let r := got 7 0 [a, b]
       r.mayMove a.toNat b.toNat = true → exec (.fwHomeMove fn tag a b) s = .next (reply
          { r with homeFwd := s.homeFwd ++ [⟨a.toNat, r.homeOf (4096 * a.toNat), b.toNat, [], false⟩] } 0 [])) ∧
      (data.length = 64 → let r := got 8 0 [a]
        (modeOk (modesOf a) (partsOf data) = false → exec (.fwSetL2Mode fn tag a data) s = .next (reply r 0x24 [])) ∧
        (modeOk (modesOf a) (partsOf data) = true → r.idleForMode = true →
          exec (.fwSetL2Mode fn tag a data) s = .next (reply (r.changeMode (modesOf a) (partsOf data)) 0 []))) ∧
      exec (.fwSetPower fn tag a) s = .next (if 600 ≤ a.toNat ∧ a.toNat ≤ 1300
        then reply { got 9 0 [a] with pwrLimit := a.toNat } 0 [] else reply (got 9 0 [a]) 0x24 []) ∧
      (∀ (version rollback length : Word) (image sig : List Byte),
        let x : FwSlot := ⟨(0 : Word) ++ length ++ rollback ++ version, image, sig⟩
        (image.length = length.toNat → sig.length = 2500 → exec (.fwWriteSlot fn tag version rollback length image sig) s =
          .next (reply { got 0x0B 0 [] with fw := { s.fw with
            slots := s.fw.slots.set s.fw.idle x, pending := some s.fw.idle, tries := 0, next := none } } 0 [])) ∧
        (image.length + sig.length ≠ length.toNat + 2500 → exec (.fwWriteSlot fn tag version rollback length image sig) s =
          .next (reply (got 0x0B 0 []) 0x24 []))) ∧
      exec (.fwConfirm fn tag) s = .next (reply { got 0x0C 0 [] with fw := s.fw.confirm } 0 []) ∧
      (∀ nonce : BitVec 256,
        let good : Bool := a.toNat == s.fw.idle && nonce == s.fw.nonce &&
          xmssCheck umawinKey data (rollBackBytes a.toNat nonce) && s.fw.bootOk a.toNat
        ∃ t, exec (.fwRollBack fn tag a nonce data) s = .next (reply t (if good then 0 else 0x23) []) ∧ t.mem = s.mem ∧
          t.fw.active = s.fw.active ∧ t.fw.next = (if good then some a.toNat else s.fw.next) ∧ t.fw.pending = if good then none else s.fw.pending) ∧
      exec (.fwFreeze fn tag) s = .next { got 0x0F 0 [] with frozen := true }) ∧
    (∀ n x, s.fw.slots[n]? = some x → s.fw.bootOk n =
      (xmssCheck umawinKey x.sig (toLe 16 x.header.toNat ++ x.image) && decide (s.fw.counter ≤ x.header.toNat / 2 ^ 32 % 2 ^ 32))) ∧
    (∀ key sig m, sig.length ≠ 2500 ∨ 1024 ≤ beNum (sig.take 4) → xmssCheck key sig m = false)

/-- R404, R405, R407, R411 to R414, R417, R418, R423: the events of the package and the fabric. A failed segment fences its
core; power above the limit lowers the clock by 100 MHz, to 1.2 GHz at the lowest, which holds unless an Invalidate Request is
pending; a frozen device does nothing until it
is reset; a reset keeps memory and boots, with a roll back that was given done then, and a loss of supply loses local memory; requests of the host and of peers are
performed at the home, but a write to a window frame is aborted; a translation answered by the host is held until it is
invalidated, and the clock stays at 2.3 GHz while that waits; a link that fails is down from then on, and its event is posted. What a
release that reaches the host or a peer has left is performed before their requests. Logs: link 8 as the host link, and the link in
the detail word, 21; an answer's key by function and PASID, 66; a core unavailable in the step of its failed test, 49; the page sizes of
an answer, 46; the scope `.sys` of a peer's request, 77. -/
def Obligations.PackageAndFabric : Prop :=
  ∀ (s : State),
    (∀ g acc q k, g < 192 → (if acc then q = 0 ∧ k < 4 else q < 4 ∧ k < 8) →
      (s.core g).fenced.contains (segNumber acc q k) = false →
      exec (.segmentTest g acc q k false) s = .next (s.countLife 0x6000) ∧
      ∃ t, exec (.segmentTest g acc q k true) s = .next t ∧ (t.core g).available = false ∧
        (t.core g).fenced = (s.core g).fenced ++ [segNumber acc q k] ∧
        (acc = true → (t.cluster (g / 4)).groups = false) ∧ t.mem = s.mem) ∧
    (exec (.powerCapStep true) s = let f := max 12 (s.cappedClk - 1)
      .next { s with pwrSt := .capped, cappedClk := f, fclk := if s.atsPending = [] then f else 23 }) ∧
    (exec (.powerCapStep false) s = .next { s with pwrSt := .active, cappedClk := 23, fclk := 23 }) ∧
    (exec .freezePin s = .next { s with frozen := true }) ∧
    (s.frozen = true → s.agenda = [] → step s = .next s) ∧
    (∀ e rest, s.frozen = true → s.agenda = e :: rest → e ≠ .event .deviceReset →
      step s = .next { s with agenda := rest }) ∧
    (∃ t, exec .deviceReset s = .next t ∧ t.mem = s.mem ∧ t.poison = s.poison ∧ t.life = s.life ∧ t.frozen = false ∧
      t.waves = [] ∧ t.regions = [] ∧ t.cores = State.reset.cores ∧ t.clusters = State.reset.clusters ∧
      t.dies = State.reset.dies ∧ t.sets = State.reset.sets ∧ t.links = State.reset.links ∧ t.pwrLimit = 0x47E ∧
      t.fw.counter = s.fw.counter ∧ t.fw.slots = s.fw.slots ∧ t.fw.active = s.fw.next.getD s.fw.active ∧ t.fw.next = none) ∧
    (∃ t, exec .powerLoss s = .next t ∧ (∀ c, c ∈ t.mem ↔ c ∈ s.mem ∧ 2 ^ 52 ≤ c.1) ∧ t.life = { s.life with live := [] } ∧
      t.frozen = false ∧ t.waves = [] ∧ t.regions = [] ∧ t.fw.counter = s.fw.counter) ∧
    (exec .lifetimeCounterFlush s = .next { s with life :=
      ⟨s.life.live.foldl (fun m e => m.ins e.1 (NMap.get 0 m e.1 + e.2)) s.life.flash, []⟩ }) ∧
    (∀ fn key data n, fn < 32 → s.links.getD 8 true = true → key + n ≤ 192 * 2 ^ 30 →
      (∀ s1, s.force (.outside .host) .sys = some s1 → s1.poisoned key n = false → exec (.hostRequest fn false key data n) s =
        let r := s1.atHome key n
        .next { r with answers := r.answers ++ [⟨8, fn, false, r.homeBytes none key n⟩] }) ∧
      (∀ s1, data.length ≤ n → s.force (.outside .host) .sys = some s1 → s1.windowHit key data.length = none →
        exec (.hostRequest fn true key data data.length) s =
          .next { s1.baseWrite key data with answers := (s1.baseWrite key data).answers ++ [⟨8, fn, false, []⟩] }) ∧
      (∀ s1 x, data.length ≤ n → s.force (.outside .host) .sys = some s1 → s1.windowHit key data.length = some x →
        exec (.hostRequest fn true key data data.length) s =
          .next ((s1.linkEvent 8 5 (distinct (x.root :: s1.linkRoots 8))).answer 8 fn true []))) ∧
    (∀ y sc, s.dueFor y sc = [] → s.force y sc = some s) ∧
    (∀ link key data n s1, link < 8 → s.links.getD link true = true → key + n ≤ 192 * 2 ^ 30 →
      s.force (.outside .peer) .sys = some s1 →
      (s1.poisoned key n = false → exec (.peerRequest link .load key data n) s =
        let r := s1.atHome key n
        .next { r with answers := r.answers ++ [⟨link, 0, false, r.homeBytes none key n⟩] }) ∧
      (data.length = n → s1.windowHit key n = none → exec (.peerRequest link .store key data 0) s =
        .next ((s1.baseWrite key data).answer link 0 false [])) ∧
      (∀ op ty, n = 4 * ty.words → s1.windowHit key n = none → s1.poisoned key n = false →
        exec (.peerRequest link (.rmw op ty) key data 0) s =
          let r := s1.atHome key n
          .next ((r.baseWrite key (toLe n (AccKind.newVal (.rmw op ty (leBytes data % 2 ^ (32 * ty.words)))
            (leBytes (r.homeBytes none key n))))).answer link 0 false (r.homeBytes none key n)))) ∧
    (∀ fn va key i rd wr, fn < 32 → s.links.getD 8 true = true → i ≤ 40 → va < 2 ^ 52 → key < 2 ^ 52 → s.ats = [] →
      s.atsPending = [] →
      exec (.atsTranslationResponse ⟨fn, va⟩ key (2 ^ (12 + i)) rd wr) s =
        let size := 2 ^ (12 + i)
        let left : HostAddr → Bool := fun q => q.fn != fn ||
          decide (2 ^ 52 + q.addr < 2 ^ 52 + va / size * size) || decide (2 ^ 52 + va / size * size + size ≤ 2 ^ 52 + q.addr)
        .next { s with
          ats := [⟨fn + 32 * (s.fns.getD fn .fresh).pasid.toNat, 2 ^ 52 + va / size * size, size,
            2 ^ 52 + key / size * size, .h, rd, wr, rd⟩]
          transReqs := s.transReqs.filter left, pageReqs := s.pageReqs.filter left }) ∧
    (∀ fn va size, fn < 32 → s.links.getD 8 true = true → s.copies = [] → s.colls = [] → s.waves = [] → s.atsPending = [] →
      ∃ t, exec (.atsInvalidateRequest ⟨fn, va⟩ size) s = .next t ∧
        (∀ l ∈ t.ats, l ∈ s.ats ∧ (l.asr % 32 ≠ fn ∨ 2 ^ 52 + va + size ≤ l.va ∨ l.va + l.size ≤ 2 ^ 52 + va)) ∧
        t.answers = s.answers ++ [⟨8, fn, false, []⟩] ∧ t.atsPending = [] ∧ t.fclk = s.cappedClk) ∧
    (∀ fn va size, fn < 32 → s.links.getD 8 true = true → s.atsPending = [] →
      s.atsCounter (s.ats.filter fun l => l.inRange ⟨⟨fn, va⟩, size⟩) = true →
      exec (.atsInvalidateRequest ⟨fn, va⟩ size) s = .next { s with atsPending := [⟨⟨fn, va⟩, size⟩], fclk := 23 }) ∧
    (∀ link, link < 9 → s.links.getD link true = true →
      exec (.linkRetrain link) s = .next ((s.countLife (0x4000 + link)).linkEvent link (if link = 8 then 1 else 3)
        (s.linkRoots link)) ∧
      exec (.linkDown link) s = .next (({ s with links := s.links.set link false } : State).linkEvent link
        (if link = 8 then 2 else 4) (s.linkRoots link))) ∧
    (∀ link sub, (s.linkEvent link sub []).fjRing = s.fjRing ++ [⟨0x14, sub, 0, BitVec.ofNat 32 link⟩] ∧
      (s.linkEvent link sub []).mem = s.mem)
end

