-- ==== Sys2Proof/Laws/Issue.lean ====
section
/-! SUPPORT. What issue can do: what the context of a group holds, and what an instruction that computes its result answers
once its group acts. -/

namespace Sys2Proof.Machine

open Sys2Proof

theorem State.ctxOf_eq {s : State} {w : Nat} {e : Desc} {c : Ctx} (h : s.ctxOf w e = some c) : c.e = e ∧ c.w = w := by
  unfold State.ctxOf at h
  split at h
  · cases h
  · split at h
    · cases h
    · dsimp only at h
      split at h
      · cases h
      · cases h; exact ⟨rfl, rfl⟩

/-- A group that acts does so in a context of the instruction's own description, for the unit `cur`, on a state begun from
one in which its queue accesses were made. -/
theorem State.startOf_go {s : State} {i : Instr} {fits : Ctx → State → Bool} {c : Ctx} {s1 : State}
    (h : s.startOf i fits = .go c s1) :
    ∃ e, descOf s.curUnit i = some e ∧ c.e = e ∧ c.w = s.cur ∧ ∃ s3 : State, s1 = s3.begin c := by
  unfold State.startOf at h
  split at h
  · rename_i e he
    refine ⟨e, he, ?_⟩
    unfold State.start at h
    repeat' split at h
    all_goals first | cases h; done | skip
    rename_i hc _ _ _ _ _ _ _ _ _ _ _
    cases h
    have key := State.ctxOf_eq hc
    exact ⟨key.1, key.2, _, rfl⟩
  · cases h

theorem issue_go {i : Instr} {s : State} {fits : Ctx → State → Bool} {turn body : Ctx → State → State} {c : Ctx}
    {s1 : State} (h : s.startOf i fits = .go c s1) : issue i s fits turn body = .next (turn c (body c s1)) := by
  unfold issue; rw [h]

theorem run_go {i : Instr} {s : State} {body : Ctx → State → State} {c : Ctx} {s1 : State}
    (h : s.startOf i = .go c s1) : run i s body = .next ((body c s1).settleTurn c) := issue_go h

theorem perLane_go {i : Instr} {s : State} {fits : Ctx → State → Bool} {g : Ctx → State → Nat → Lane} {c : Ctx}
    {s1 : State} (h : s.startOf i fits = .go c s1) :
    perLaneIf i s fits g = .next ((s1.eachLane c (g c)).settleTurn c) := issue_go h

/-- The meaning of every coded instruction answers a next state. -/
theorem issue_next (i : Instr) (s : State) (fits : Ctx → State → Bool) (turn body : Ctx → State → State) :
    ∃ t, issue i s fits turn body = .next t := by
  unfold issue
  split
  · exact ⟨_, rfl⟩
  · exact ⟨_, rfl⟩

theorem goods_ok (l : List Nat) (r : Nat → Out) :
    goods (l.map fun n => (n, (Except.ok (r n) : Except Flt Out))) = l.map fun n => (n, r n) := by
  induction l with
  | nil => rfl
  | cons a l ih => simp [goods]

theorem bads_ok (l : List Nat) (r : Nat → Out) : bads (l.map fun n => (n, (Except.ok (r n) : Except Flt Out))) = [] := by
  induction l with
  | nil => rfl
  | cons a l ih => simp [bads]

theorem goods_error (l : List Nat) (f : Nat → Flt) :
    goods (l.map fun n => (n, (Except.error (f n) : Except Flt Out))) = [] := by
  induction l with
  | nil => rfl
  | cons a l ih => simp [goods]

theorem bads_error (l : List Nat) (f : Nat → Flt) :
    bads (l.map fun n => (n, (Except.error (f n) : Except Flt Out))) = l.map fun n => (n, f n) := by
  induction l with
  | nil => rfl
  | cons a l ih => simp [bads]

/-- A group all of whose lanes complete writes its results at once, or leaves them pending where the code is LL. -/
theorem State.compute_ok (s : State) (c : Ctx) (r : Nat → Out) :
    (s.compute c fun l => .ok (r l)) =
      if isLL c.e.op c.e.minor then s.pendAll c (c.group.map fun l => (l, r l))
      else s.writeAll c (c.group.map fun l => (l, r l)) := by
  unfold State.compute
  simp only [goods_ok, bads_ok, State.faultLanes, List.isEmpty_nil, if_true]

/-- A group all of whose lanes fault writes nothing. -/
theorem State.compute_error (s : State) (c : Ctx) (f : Nat → Flt) (h : isLL c.e.op c.e.minor = false) :
    (s.compute c fun l => .error (f l)) = (s.writeAll c []).faultLanes c (c.group.map fun l => (l, f l)) := by
  unfold State.compute
  simp only [goods_error, bads_error, h, Bool.false_eq_true, if_false]

/-- An instruction that computes a value in each lane writes it. -/
theorem alu_go {i : Instr} {s s1 : State} {words : Nat} {g : Ctx → Nat → Nat} {c : Ctx} (h : s.startOf i = .go c s1)
    (hl : isLL c.e.op c.e.minor = false) :
    alu i s words g =
      .next ((s1.writeAll c (c.group.map fun l => (l, { d := wordsOf words (g c l) }))).settleTurn c) := by
  unfold alu
  rw [run_go h, State.compute_ok, hl]
  rfl

/-- An LL instruction that computes a value in each lane leaves it pending. -/
theorem alu_go_ll {i : Instr} {s s1 : State} {words : Nat} {g : Ctx → Nat → Nat} {c : Ctx} (h : s.startOf i = .go c s1)
    (hl : isLL c.e.op c.e.minor = true) :
    alu i s words g =
      .next ((s1.pendAll c (c.group.map fun l => (l, { d := wordsOf words (g c l) }))).settleTurn c) := by
  unfold alu
  rw [run_go h, State.compute_ok, hl]
  rfl

end Sys2Proof.Machine
end

