-- ==== Sys2Proof/Laws/Map.lean ====
section
/-! SUPPORT. Sparse data: what a read after a write gives, and which operations keep the canonical form. -/

namespace Sys2Proof

variable {β : Type}

@[simp] theorem NMap.find_nil (n : Nat) : NMap.find ([] : NMap β) n = none := rfl

@[simp] theorem NMap.find_cons (k n : Nat) (x : β) (m : NMap β) :
    NMap.find ((k, x) :: m) n = if n = k then some x else NMap.find m n := rfl

/-- The entry just written is read back, whatever the order of the list. -/
@[simp] theorem NMap.find_ins_same (m : NMap β) (n : Nat) (y : β) : (m.ins n y).find n = some y := by
  induction m with
  | nil => simp [NMap.ins]
  | cons e m ih =>
    obtain ⟨k, x⟩ := e
    simp only [NMap.ins]
    split
    · simp
    · split
      · simp
      · rename_i h _; simpa [h] using ih

/-- A write leaves every other key alone, whatever the order of the list. -/
theorem NMap.find_ins_ne (m : NMap β) {n j : Nat} (y : β) (h : j ≠ n) : (m.ins n y).find j = m.find j := by
  induction m with
  | nil => simp [NMap.ins, h]
  | cons e m ih =>
    obtain ⟨k, x⟩ := e
    simp only [NMap.ins]
    split
    · rename_i hk; subst hk; simp [h]
    · split
      · simp [h]
      · simp [ih]

theorem NMap.find_ins (m : NMap β) (n j : Nat) (y : β) :
    (m.ins n y).find j = if j = n then some y else m.find j := by
  split
  · rename_i h; subst h; simp
  · rename_i h; exact NMap.find_ins_ne m y h

theorem NMap.find_del (m : NMap β) (n j : Nat) : (m.del n).find j = if j = n then none else m.find j := by
  induction m with
  | nil => simp [NMap.del]
  | cons e m ih =>
    obtain ⟨k, x⟩ := e
    by_cases hk : k = n
    · subst hk
      have : NMap.del ((k, x) :: m) k = NMap.del m k := by simp [NMap.del]
      rw [this, ih]
      by_cases hj : j = k <;> simp [hj]
    · have : NMap.del ((k, x) :: m) n = (k, x) :: NMap.del m n := by simp [NMap.del, hk]
      rw [this, NMap.find_cons, ih, NMap.find_cons]
      by_cases hj : j = k
      · subst hj; simp [hk]
      · simp [hj]

/-- An entry changed: the others stand as they were. -/
theorem NMap.find_upd (m : NMap β) (n j : Nat) (g : β → β) :
    (m.upd n g).find j = if j = n then (m.find n).map g else m.find j := by
  unfold NMap.upd
  split
  · rename_i x hx
    rw [NMap.find_ins, hx]; rfl
  · rename_i hx
    split
    · rename_i h; rw [h, hx]; rfl
    · rfl

@[simp] theorem NMap.find_upd_same (m : NMap β) (n : Nat) (g : β → β) : (m.upd n g).find n = (m.find n).map g := by
  rw [NMap.find_upd, if_pos rfl]

theorem NMap.find_upd_ne (m : NMap β) {n j : Nat} (g : β → β) (h : j ≠ n) : (m.upd n g).find j = m.find j := by
  rw [NMap.find_upd, if_neg h]

/-- A read after a write gives the value written at its key and the old value elsewhere. -/
theorem NMap.get_put [DecidableEq β] (d : β) (m : NMap β) (n j : Nat) (y : β) :
    NMap.get d (NMap.put d m n y) j = if j = n then y else NMap.get d m j := by
  unfold NMap.get NMap.put
  split
  · rename_i hy
    rw [NMap.find_del]
    split
    · rw [hy]; rfl
    · rfl
  · rw [NMap.find_ins]
    split <;> rfl

@[simp] theorem NMap.get_put_same [DecidableEq β] (d : β) (m : NMap β) (n : Nat) (y : β) :
    NMap.get d (NMap.put d m n y) n = y := by rw [NMap.get_put, if_pos rfl]

theorem NMap.get_put_ne [DecidableEq β] (d : β) (m : NMap β) {n j : Nat} (y : β) (h : j ≠ n) :
    NMap.get d (NMap.put d m n y) j = NMap.get d m j := by rw [NMap.get_put, if_neg h]

@[simp] theorem NMap.get_ins_same (d : β) (m : NMap β) (n : Nat) (y : β) : NMap.get d (m.ins n y) n = y := by
  simp [NMap.get]

theorem NMap.get_ins_ne (d : β) (m : NMap β) {n j : Nat} (y : β) (h : j ≠ n) :
    NMap.get d (m.ins n y) j = NMap.get d m j := by
  simp [NMap.get, NMap.find_ins_ne m y h]

/-! ### Rising keys -/

/-- The keys of a list that rises above a bound are above it. -/
theorem NMap.risesAbove_some {b : Nat} {m : NMap β} :
    NMap.risesAbove (some b) m = true ↔ NMap.sorted m = true ∧ ∀ e ∈ m, b < e.1 := by
  induction m generalizing b with
  | nil => simp [NMap.sorted, NMap.risesAbove]
  | cons e m ih =>
    obtain ⟨k, x⟩ := e
    simp only [NMap.sorted, NMap.risesAbove, Bool.and_eq_true, decide_eq_true_eq, List.forall_mem_cons]
    constructor
    · rintro ⟨h1, h2⟩
      exact ⟨h2, h1, fun e he => Nat.lt_trans h1 ((ih.mp h2).2 e he)⟩
    · rintro ⟨h1, h2, _⟩
      exact ⟨h2, h1⟩

theorem NMap.sorted_cons {k : Nat} {x : β} {m : NMap β} :
    NMap.sorted ((k, x) :: m) = true ↔ NMap.sorted m = true ∧ ∀ e ∈ m, k < e.1 :=
  NMap.risesAbove_some

theorem NMap.mem_ins {m : NMap β} {n : Nat} {y : β} {e : Nat × β} (h : e ∈ m.ins n y) : e = (n, y) ∨ e ∈ m := by
  induction m with
  | nil => simpa [NMap.ins] using h
  | cons a m ih =>
    obtain ⟨k, x⟩ := a
    simp only [NMap.ins] at h
    split at h
    · rcases List.mem_cons.mp h with h | h
      · exact .inl h
      · exact .inr (List.mem_cons_of_mem _ h)
    · split at h
      · rcases List.mem_cons.mp h with h | h
        · exact .inl h
        · exact .inr h
      · rcases List.mem_cons.mp h with h | h
        · exact .inr (h ▸ List.mem_cons_self)
        · exact (ih h).imp id (List.mem_cons_of_mem _)

theorem NMap.sorted_ins {m : NMap β} (n : Nat) (y : β) (h : m.sorted = true) : (m.ins n y).sorted = true := by
  induction m with
  | nil => rfl
  | cons a m ih =>
    obtain ⟨k, x⟩ := a
    have hs := NMap.sorted_cons.mp h
    simp only [NMap.ins]
    split
    · rename_i hk; subst hk; exact NMap.sorted_cons.mpr hs
    · split
      · rename_i hlt
        refine NMap.sorted_cons.mpr ⟨h, ?_⟩
        intro e he
        rcases List.mem_cons.mp he with he | he
        · rw [he]; exact hlt
        · exact Nat.lt_trans hlt (hs.2 e he)
      · refine NMap.sorted_cons.mpr ⟨ih hs.1, ?_⟩
        intro e he
        rcases NMap.mem_ins he with he | he
        · rw [he]; simp only; omega
        · exact hs.2 e he

theorem NMap.sorted_filter {m : NMap β} (p : Nat × β → Bool) (h : m.sorted = true) :
    NMap.sorted (m.filter p) = true := by
  induction m with
  | nil => rfl
  | cons a m ih =>
    obtain ⟨k, x⟩ := a
    have hs := NMap.sorted_cons.mp h
    rw [List.filter_cons]
    split
    · exact NMap.sorted_cons.mpr ⟨ih hs.1, fun e he => hs.2 e (List.mem_filter.mp he).1⟩
    · exact ih hs.1

theorem NMap.sorted_del {m : NMap β} (n : Nat) (h : m.sorted = true) : (m.del n).sorted = true :=
  NMap.sorted_filter _ h

/-- In a list with rising keys, what stands in it is what its key reads as. -/
theorem NMap.find_of_mem {m : NMap β} {n : Nat} {x : β} (h : m.sorted = true) (hm : (n, x) ∈ m) :
    m.find n = some x := by
  induction m with
  | nil => cases hm
  | cons a m ih =>
    obtain ⟨k, y⟩ := a
    have hs := NMap.sorted_cons.mp h
    rw [NMap.find_cons]
    rcases List.mem_cons.mp hm with hm | hm
    · cases hm; simp
    · have := hs.2 _ hm
      rw [if_neg (by simp only at this; omega)]
      exact ih hs.1 hm

/-! ### The canonical form -/

variable [DecidableEq β]

theorem NMap.canonical_iff {d : β} {m : NMap β} :
    NMap.canonical d m = true ↔ m.sorted = true ∧ ∀ e ∈ m, e.2 ≠ d := by
  simp [NMap.canonical]

@[simp] theorem NMap.canonical_nil (d : β) : NMap.canonical d ([] : NMap β) = true := rfl

/-- A write keeps the canonical form. -/
theorem NMap.canonical_put {d : β} {m : NMap β} (n : Nat) (y : β) (h : NMap.canonical d m = true) :
    NMap.canonical d (NMap.put d m n y) = true := by
  rw [NMap.canonical_iff] at h ⊢
  unfold NMap.put
  split
  · exact ⟨NMap.sorted_del n h.1, fun e he => h.2 e (List.mem_filter.mp he).1⟩
  · rename_i hy
    refine ⟨NMap.sorted_ins n y h.1, fun e he => ?_⟩
    rcases NMap.mem_ins he with he | he
    · rw [he]; exact hy
    · exact h.2 e he

/-- The entries outside a set of keys, dropped together, leave the canonical form. -/
theorem NMap.canonical_filter {d : β} {m : NMap β} (p : Nat × β → Bool) (h : NMap.canonical d m = true) :
    NMap.canonical d (m.filter p : NMap β) = true := by
  rw [NMap.canonical_iff] at h ⊢
  exact ⟨NMap.sorted_filter p h.1, fun e he => h.2 e (List.mem_filter.mp he).1⟩

/-- Two canonical lists that read the same everywhere are the same data. -/
theorem NMap.ext_of_get {d : β} {m k : NMap β} (hm : NMap.canonical d m = true) (hk : NMap.canonical d k = true)
    (h : ∀ n, NMap.get d m n = NMap.get d k n) : m = k := by
  induction m generalizing k with
  | nil =>
    cases k with
    | nil => rfl
    | cons e k =>
      obtain ⟨a, x⟩ := e
      have := h a
      simp [NMap.get] at this
      exact absurd this.symm ((NMap.canonical_iff.mp hk).2 _ List.mem_cons_self)
  | cons e m ih =>
    obtain ⟨a, x⟩ := e
    have hm' := NMap.canonical_iff.mp hm
    have sm := NMap.sorted_cons.mp hm'.1
    have below {j : Nat} {l : NMap β} (hl : ∀ e ∈ l, j < e.1) : l.find j = none := by
      clear h ih hm hm' sm hk
      induction l with
      | nil => rfl
      | cons b l ih =>
        obtain ⟨c, y⟩ := b
        rw [NMap.find_cons, if_neg (by have := hl (c, y) List.mem_cons_self; simp only at this; omega)]
        exact ih fun e he => hl e (List.mem_cons_of_mem _ he)
    cases k with
    | nil =>
      have := h a
      simp [NMap.get] at this
      exact absurd this (hm'.2 _ List.mem_cons_self)
    | cons b k =>
      obtain ⟨c, y⟩ := b
      have hk' := NMap.canonical_iff.mp hk
      have sk := NMap.sorted_cons.mp hk'.1
      have hx : x ≠ d := hm'.2 _ List.mem_cons_self
      have hy : y ≠ d := hk'.2 _ List.mem_cons_self
      rcases Nat.lt_trichotomy a c with hac | hac | hac
      · have := h a
        have hn : NMap.find ((c, y) :: k) a = none := below fun e he => by
          rcases List.mem_cons.mp he with he | he
          · rw [he]; exact hac
          · exact Nat.lt_trans hac (sk.2 e he)
        rw [NMap.get, NMap.get, hn] at this
        simp at this
        exact absurd this hx
      · subst hac
        have hxy := h a
        simp [NMap.get] at hxy
        subst hxy
        congr 1
        refine ih (NMap.canonical_iff.mpr ⟨sm.1, fun e he => hm'.2 e (List.mem_cons_of_mem _ he)⟩)
          (NMap.canonical_iff.mpr ⟨sk.1, fun e he => hk'.2 e (List.mem_cons_of_mem _ he)⟩) fun n => ?_
        by_cases hn : n = a
        · subst hn; simp [NMap.get, below sm.2, below sk.2]
        · have := h n
          simpa [NMap.get, hn] using this
      · have := h c
        have hn : NMap.find ((a, x) :: m) c = none := below fun e he => by
          rcases List.mem_cons.mp he with he | he
          · rw [he]; exact hac
          · exact Nat.lt_trans hac (sm.2 e he)
        rw [NMap.get, NMap.get, hn] at this
        simp at this
        exact absurd this.symm hy

end Sys2Proof
end

