-- ==== Sys2Proof/Laws/State.lean ====
section
/-! SUPPORT. The updates of the state, field by field: what each leaves alone. -/

namespace Sys2Proof.Machine

open Sys2Proof

/-! ### A core replaced -/

section

variable (s : State) (g : Nat) (c : Core)

@[simp] theorem State.setCore_cur : (s.setCore g c).cur = s.cur := rfl
@[simp] theorem State.setCore_agenda : (s.setCore g c).agenda = s.agenda := rfl
@[simp] theorem State.setCore_ticks : (s.setCore g c).ticks = s.ticks := rfl
@[simp] theorem State.setCore_fv : (s.setCore g c).fv = s.fv := rfl
@[simp] theorem State.setCore_clks : (s.setCore g c).clks = s.clks := rfl
@[simp] theorem State.setCore_us : (s.setCore g c).us = s.us := rfl
@[simp] theorem State.setCore_nextId : (s.setCore g c).nextId = s.nextId := rfl
@[simp] theorem State.setCore_acts : (s.setCore g c).acts = s.acts := rfl
@[simp] theorem State.setCore_frozen : (s.setCore g c).frozen = s.frozen := rfl
@[simp] theorem State.setCore_waves : (s.setCore g c).waves = s.waves := rfl
@[simp] theorem State.setCore_wgs : (s.setCore g c).wgs = s.wgs := rfl
@[simp] theorem State.setCore_groups : (s.setCore g c).groups = s.groups := rfl
@[simp] theorem State.setCore_saved : (s.setCore g c).saved = s.saved := rfl
@[simp] theorem State.setCore_ended : (s.setCore g c).ended = s.ended := rfl
@[simp] theorem State.setCore_endedWgs : (s.setCore g c).endedWgs = s.endedWgs := rfl
@[simp] theorem State.setCore_regions : (s.setCore g c).regions = s.regions := rfl
@[simp] theorem State.setCore_clusters : (s.setCore g c).clusters = s.clusters := rfl
@[simp] theorem State.setCore_dies : (s.setCore g c).dies = s.dies := rfl
@[simp] theorem State.setCore_mem : (s.setCore g c).mem = s.mem := rfl
@[simp] theorem State.setCore_l2 : (s.setCore g c).l2 = s.l2 := rfl
@[simp] theorem State.setCore_poison : (s.setCore g c).poison = s.poison := rfl
@[simp] theorem State.setCore_versions : (s.setCore g c).versions = s.versions := rfl
@[simp] theorem State.setCore_sets : (s.setCore g c).sets = s.sets := rfl
@[simp] theorem State.setCore_prisms : (s.setCore g c).prisms = s.prisms := rfl
@[simp] theorem State.setCore_presents : (s.setCore g c).presents = s.presents := rfl
@[simp] theorem State.setCore_presEn : (s.setCore g c).presEn = s.presEn := rfl
@[simp] theorem State.setCore_presGuard : (s.setCore g c).presGuard = s.presGuard := rfl
@[simp] theorem State.setCore_readouts : (s.setCore g c).readouts = s.readouts := rfl
@[simp] theorem State.setCore_copies : (s.setCore g c).copies = s.copies := rfl
@[simp] theorem State.setCore_watches : (s.setCore g c).watches = s.watches := rfl
@[simp] theorem State.setCore_deliveries : (s.setCore g c).deliveries = s.deliveries := rfl
@[simp] theorem State.setCore_colls : (s.setCore g c).colls = s.colls := rfl
@[simp] theorem State.setCore_homes : (s.setCore g c).homes = s.homes := rfl
@[simp] theorem State.setCore_homeFwd : (s.setCore g c).homeFwd = s.homeFwd := rfl
@[simp] theorem State.setCore_fw : (s.setCore g c).fw = s.fw := rfl
@[simp] theorem State.setCore_life : (s.setCore g c).life = s.life := rfl
@[simp] theorem State.setCore_pwrLimit : (s.setCore g c).pwrLimit = s.pwrLimit := rfl
@[simp] theorem State.setCore_fclk : (s.setCore g c).fclk = s.fclk := rfl
@[simp] theorem State.setCore_pwrSt : (s.setCore g c).pwrSt = s.pwrSt := rfl
@[simp] theorem State.setCore_fns : (s.setCore g c).fns = s.fns := rfl
@[simp] theorem State.setCore_ats : (s.setCore g c).ats = s.ats := rfl
@[simp] theorem State.setCore_atsPending : (s.setCore g c).atsPending = s.atsPending := rfl
@[simp] theorem State.setCore_cappedClk : (s.setCore g c).cappedClk = s.cappedClk := rfl
@[simp] theorem State.setCore_links : (s.setCore g c).links = s.links := rfl
@[simp] theorem State.setCore_linkUse : (s.setCore g c).linkUse = s.linkUse := rfl
@[simp] theorem State.setCore_answers : (s.setCore g c).answers = s.answers := rfl
@[simp] theorem State.setCore_commands : (s.setCore g c).commands = s.commands := rfl
@[simp] theorem State.setCore_replies : (s.setCore g c).replies = s.replies := rfl
@[simp] theorem State.setCore_msix : (s.setCore g c).msix = s.msix := rfl
@[simp] theorem State.setCore_fjRing : (s.setCore g c).fjRing = s.fjRing := rfl
@[simp] theorem State.setCore_scanout : (s.setCore g c).scanout = s.scanout := rfl
@[simp] theorem State.setCore_constOld : (s.setCore g c).constOld = s.constOld := rfl
@[simp] theorem State.setCore_ctrHeld : (s.setCore g c).ctrHeld = s.ctrHeld := rfl
@[simp] theorem State.setCore_transReqs : (s.setCore g c).transReqs = s.transReqs := rfl
@[simp] theorem State.setCore_pageReqs : (s.setCore g c).pageReqs = s.pageReqs := rfl

end

/-! ### A cluster replaced -/

section

variable (s : State) (k : Nat) (c : Cluster)

@[simp] theorem State.setCluster_cur : (s.setCluster k c).cur = s.cur := rfl
@[simp] theorem State.setCluster_agenda : (s.setCluster k c).agenda = s.agenda := rfl
@[simp] theorem State.setCluster_ticks : (s.setCluster k c).ticks = s.ticks := rfl
@[simp] theorem State.setCluster_fv : (s.setCluster k c).fv = s.fv := rfl
@[simp] theorem State.setCluster_clks : (s.setCluster k c).clks = s.clks := rfl
@[simp] theorem State.setCluster_us : (s.setCluster k c).us = s.us := rfl
@[simp] theorem State.setCluster_nextId : (s.setCluster k c).nextId = s.nextId := rfl
@[simp] theorem State.setCluster_acts : (s.setCluster k c).acts = s.acts := rfl
@[simp] theorem State.setCluster_frozen : (s.setCluster k c).frozen = s.frozen := rfl
@[simp] theorem State.setCluster_waves : (s.setCluster k c).waves = s.waves := rfl
@[simp] theorem State.setCluster_wgs : (s.setCluster k c).wgs = s.wgs := rfl
@[simp] theorem State.setCluster_groups : (s.setCluster k c).groups = s.groups := rfl
@[simp] theorem State.setCluster_saved : (s.setCluster k c).saved = s.saved := rfl
@[simp] theorem State.setCluster_ended : (s.setCluster k c).ended = s.ended := rfl
@[simp] theorem State.setCluster_endedWgs : (s.setCluster k c).endedWgs = s.endedWgs := rfl
@[simp] theorem State.setCluster_regions : (s.setCluster k c).regions = s.regions := rfl
@[simp] theorem State.setCluster_cores : (s.setCluster k c).cores = s.cores := rfl
@[simp] theorem State.setCluster_dies : (s.setCluster k c).dies = s.dies := rfl
@[simp] theorem State.setCluster_mem : (s.setCluster k c).mem = s.mem := rfl
@[simp] theorem State.setCluster_l2 : (s.setCluster k c).l2 = s.l2 := rfl
@[simp] theorem State.setCluster_poison : (s.setCluster k c).poison = s.poison := rfl
@[simp] theorem State.setCluster_versions : (s.setCluster k c).versions = s.versions := rfl
@[simp] theorem State.setCluster_sets : (s.setCluster k c).sets = s.sets := rfl
@[simp] theorem State.setCluster_prisms : (s.setCluster k c).prisms = s.prisms := rfl
@[simp] theorem State.setCluster_presents : (s.setCluster k c).presents = s.presents := rfl
@[simp] theorem State.setCluster_presEn : (s.setCluster k c).presEn = s.presEn := rfl
@[simp] theorem State.setCluster_presGuard : (s.setCluster k c).presGuard = s.presGuard := rfl
@[simp] theorem State.setCluster_readouts : (s.setCluster k c).readouts = s.readouts := rfl
@[simp] theorem State.setCluster_copies : (s.setCluster k c).copies = s.copies := rfl
@[simp] theorem State.setCluster_watches : (s.setCluster k c).watches = s.watches := rfl
@[simp] theorem State.setCluster_deliveries : (s.setCluster k c).deliveries = s.deliveries := rfl
@[simp] theorem State.setCluster_colls : (s.setCluster k c).colls = s.colls := rfl
@[simp] theorem State.setCluster_homes : (s.setCluster k c).homes = s.homes := rfl
@[simp] theorem State.setCluster_homeFwd : (s.setCluster k c).homeFwd = s.homeFwd := rfl
@[simp] theorem State.setCluster_fw : (s.setCluster k c).fw = s.fw := rfl
@[simp] theorem State.setCluster_life : (s.setCluster k c).life = s.life := rfl
@[simp] theorem State.setCluster_pwrLimit : (s.setCluster k c).pwrLimit = s.pwrLimit := rfl
@[simp] theorem State.setCluster_fclk : (s.setCluster k c).fclk = s.fclk := rfl
@[simp] theorem State.setCluster_pwrSt : (s.setCluster k c).pwrSt = s.pwrSt := rfl
@[simp] theorem State.setCluster_fns : (s.setCluster k c).fns = s.fns := rfl
@[simp] theorem State.setCluster_ats : (s.setCluster k c).ats = s.ats := rfl
@[simp] theorem State.setCluster_atsPending : (s.setCluster k c).atsPending = s.atsPending := rfl
@[simp] theorem State.setCluster_cappedClk : (s.setCluster k c).cappedClk = s.cappedClk := rfl
@[simp] theorem State.setCluster_links : (s.setCluster k c).links = s.links := rfl
@[simp] theorem State.setCluster_linkUse : (s.setCluster k c).linkUse = s.linkUse := rfl
@[simp] theorem State.setCluster_answers : (s.setCluster k c).answers = s.answers := rfl
@[simp] theorem State.setCluster_commands : (s.setCluster k c).commands = s.commands := rfl
@[simp] theorem State.setCluster_replies : (s.setCluster k c).replies = s.replies := rfl
@[simp] theorem State.setCluster_msix : (s.setCluster k c).msix = s.msix := rfl
@[simp] theorem State.setCluster_fjRing : (s.setCluster k c).fjRing = s.fjRing := rfl
@[simp] theorem State.setCluster_scanout : (s.setCluster k c).scanout = s.scanout := rfl
@[simp] theorem State.setCluster_constOld : (s.setCluster k c).constOld = s.constOld := rfl
@[simp] theorem State.setCluster_ctrHeld : (s.setCluster k c).ctrHeld = s.ctrHeld := rfl
@[simp] theorem State.setCluster_transReqs : (s.setCluster k c).transReqs = s.transReqs := rfl
@[simp] theorem State.setCluster_pageReqs : (s.setCluster k c).pageReqs = s.pageReqs := rfl

end

/-! ### A die replaced -/

section

variable (s : State) (d : Nat) (x : Die)

@[simp] theorem State.setDie_cur : (s.setDie d x).cur = s.cur := rfl
@[simp] theorem State.setDie_agenda : (s.setDie d x).agenda = s.agenda := rfl
@[simp] theorem State.setDie_ticks : (s.setDie d x).ticks = s.ticks := rfl
@[simp] theorem State.setDie_fv : (s.setDie d x).fv = s.fv := rfl
@[simp] theorem State.setDie_clks : (s.setDie d x).clks = s.clks := rfl
@[simp] theorem State.setDie_us : (s.setDie d x).us = s.us := rfl
@[simp] theorem State.setDie_nextId : (s.setDie d x).nextId = s.nextId := rfl
@[simp] theorem State.setDie_acts : (s.setDie d x).acts = s.acts := rfl
@[simp] theorem State.setDie_frozen : (s.setDie d x).frozen = s.frozen := rfl
@[simp] theorem State.setDie_waves : (s.setDie d x).waves = s.waves := rfl
@[simp] theorem State.setDie_wgs : (s.setDie d x).wgs = s.wgs := rfl
@[simp] theorem State.setDie_groups : (s.setDie d x).groups = s.groups := rfl
@[simp] theorem State.setDie_saved : (s.setDie d x).saved = s.saved := rfl
@[simp] theorem State.setDie_ended : (s.setDie d x).ended = s.ended := rfl
@[simp] theorem State.setDie_endedWgs : (s.setDie d x).endedWgs = s.endedWgs := rfl
@[simp] theorem State.setDie_regions : (s.setDie d x).regions = s.regions := rfl
@[simp] theorem State.setDie_cores : (s.setDie d x).cores = s.cores := rfl
@[simp] theorem State.setDie_clusters : (s.setDie d x).clusters = s.clusters := rfl
@[simp] theorem State.setDie_mem : (s.setDie d x).mem = s.mem := rfl
@[simp] theorem State.setDie_l2 : (s.setDie d x).l2 = s.l2 := rfl
@[simp] theorem State.setDie_poison : (s.setDie d x).poison = s.poison := rfl
@[simp] theorem State.setDie_versions : (s.setDie d x).versions = s.versions := rfl
@[simp] theorem State.setDie_sets : (s.setDie d x).sets = s.sets := rfl
@[simp] theorem State.setDie_prisms : (s.setDie d x).prisms = s.prisms := rfl
@[simp] theorem State.setDie_presents : (s.setDie d x).presents = s.presents := rfl
@[simp] theorem State.setDie_presEn : (s.setDie d x).presEn = s.presEn := rfl
@[simp] theorem State.setDie_presGuard : (s.setDie d x).presGuard = s.presGuard := rfl
@[simp] theorem State.setDie_readouts : (s.setDie d x).readouts = s.readouts := rfl
@[simp] theorem State.setDie_copies : (s.setDie d x).copies = s.copies := rfl
@[simp] theorem State.setDie_watches : (s.setDie d x).watches = s.watches := rfl
@[simp] theorem State.setDie_deliveries : (s.setDie d x).deliveries = s.deliveries := rfl
@[simp] theorem State.setDie_colls : (s.setDie d x).colls = s.colls := rfl
@[simp] theorem State.setDie_homes : (s.setDie d x).homes = s.homes := rfl
@[simp] theorem State.setDie_homeFwd : (s.setDie d x).homeFwd = s.homeFwd := rfl
@[simp] theorem State.setDie_fw : (s.setDie d x).fw = s.fw := rfl
@[simp] theorem State.setDie_life : (s.setDie d x).life = s.life := rfl
@[simp] theorem State.setDie_pwrLimit : (s.setDie d x).pwrLimit = s.pwrLimit := rfl
@[simp] theorem State.setDie_fclk : (s.setDie d x).fclk = s.fclk := rfl
@[simp] theorem State.setDie_pwrSt : (s.setDie d x).pwrSt = s.pwrSt := rfl
@[simp] theorem State.setDie_fns : (s.setDie d x).fns = s.fns := rfl
@[simp] theorem State.setDie_ats : (s.setDie d x).ats = s.ats := rfl
@[simp] theorem State.setDie_atsPending : (s.setDie d x).atsPending = s.atsPending := rfl
@[simp] theorem State.setDie_cappedClk : (s.setDie d x).cappedClk = s.cappedClk := rfl
@[simp] theorem State.setDie_links : (s.setDie d x).links = s.links := rfl
@[simp] theorem State.setDie_linkUse : (s.setDie d x).linkUse = s.linkUse := rfl
@[simp] theorem State.setDie_answers : (s.setDie d x).answers = s.answers := rfl
@[simp] theorem State.setDie_commands : (s.setDie d x).commands = s.commands := rfl
@[simp] theorem State.setDie_replies : (s.setDie d x).replies = s.replies := rfl
@[simp] theorem State.setDie_msix : (s.setDie d x).msix = s.msix := rfl
@[simp] theorem State.setDie_fjRing : (s.setDie d x).fjRing = s.fjRing := rfl
@[simp] theorem State.setDie_scanout : (s.setDie d x).scanout = s.scanout := rfl
@[simp] theorem State.setDie_constOld : (s.setDie d x).constOld = s.constOld := rfl
@[simp] theorem State.setDie_ctrHeld : (s.setDie d x).ctrHeld = s.ctrHeld := rfl
@[simp] theorem State.setDie_transReqs : (s.setDie d x).transReqs = s.transReqs := rfl
@[simp] theorem State.setDie_pageReqs : (s.setDie d x).pageReqs = s.pageReqs := rfl

end

/-! ### A wave replaced -/

section

variable (s : State) (w : Nat) (x : Wave)

@[simp] theorem State.setWave_cur : (s.setWave w x).cur = s.cur := rfl
@[simp] theorem State.setWave_agenda : (s.setWave w x).agenda = s.agenda := rfl
@[simp] theorem State.setWave_ticks : (s.setWave w x).ticks = s.ticks := rfl
@[simp] theorem State.setWave_fv : (s.setWave w x).fv = s.fv := rfl
@[simp] theorem State.setWave_clks : (s.setWave w x).clks = s.clks := rfl
@[simp] theorem State.setWave_us : (s.setWave w x).us = s.us := rfl
@[simp] theorem State.setWave_nextId : (s.setWave w x).nextId = s.nextId := rfl
@[simp] theorem State.setWave_acts : (s.setWave w x).acts = s.acts := rfl
@[simp] theorem State.setWave_frozen : (s.setWave w x).frozen = s.frozen := rfl
@[simp] theorem State.setWave_wgs : (s.setWave w x).wgs = s.wgs := rfl
@[simp] theorem State.setWave_groups : (s.setWave w x).groups = s.groups := rfl
@[simp] theorem State.setWave_saved : (s.setWave w x).saved = s.saved := rfl
@[simp] theorem State.setWave_ended : (s.setWave w x).ended = s.ended := rfl
@[simp] theorem State.setWave_endedWgs : (s.setWave w x).endedWgs = s.endedWgs := rfl
@[simp] theorem State.setWave_regions : (s.setWave w x).regions = s.regions := rfl
@[simp] theorem State.setWave_cores : (s.setWave w x).cores = s.cores := rfl
@[simp] theorem State.setWave_clusters : (s.setWave w x).clusters = s.clusters := rfl
@[simp] theorem State.setWave_dies : (s.setWave w x).dies = s.dies := rfl
@[simp] theorem State.setWave_mem : (s.setWave w x).mem = s.mem := rfl
@[simp] theorem State.setWave_l2 : (s.setWave w x).l2 = s.l2 := rfl
@[simp] theorem State.setWave_poison : (s.setWave w x).poison = s.poison := rfl
@[simp] theorem State.setWave_versions : (s.setWave w x).versions = s.versions := rfl
@[simp] theorem State.setWave_sets : (s.setWave w x).sets = s.sets := rfl
@[simp] theorem State.setWave_prisms : (s.setWave w x).prisms = s.prisms := rfl
@[simp] theorem State.setWave_presents : (s.setWave w x).presents = s.presents := rfl
@[simp] theorem State.setWave_presEn : (s.setWave w x).presEn = s.presEn := rfl
@[simp] theorem State.setWave_presGuard : (s.setWave w x).presGuard = s.presGuard := rfl
@[simp] theorem State.setWave_readouts : (s.setWave w x).readouts = s.readouts := rfl
@[simp] theorem State.setWave_copies : (s.setWave w x).copies = s.copies := rfl
@[simp] theorem State.setWave_watches : (s.setWave w x).watches = s.watches := rfl
@[simp] theorem State.setWave_deliveries : (s.setWave w x).deliveries = s.deliveries := rfl
@[simp] theorem State.setWave_colls : (s.setWave w x).colls = s.colls := rfl
@[simp] theorem State.setWave_homes : (s.setWave w x).homes = s.homes := rfl
@[simp] theorem State.setWave_homeFwd : (s.setWave w x).homeFwd = s.homeFwd := rfl
@[simp] theorem State.setWave_fw : (s.setWave w x).fw = s.fw := rfl
@[simp] theorem State.setWave_life : (s.setWave w x).life = s.life := rfl
@[simp] theorem State.setWave_pwrLimit : (s.setWave w x).pwrLimit = s.pwrLimit := rfl
@[simp] theorem State.setWave_fclk : (s.setWave w x).fclk = s.fclk := rfl
@[simp] theorem State.setWave_pwrSt : (s.setWave w x).pwrSt = s.pwrSt := rfl
@[simp] theorem State.setWave_fns : (s.setWave w x).fns = s.fns := rfl
@[simp] theorem State.setWave_ats : (s.setWave w x).ats = s.ats := rfl
@[simp] theorem State.setWave_atsPending : (s.setWave w x).atsPending = s.atsPending := rfl
@[simp] theorem State.setWave_cappedClk : (s.setWave w x).cappedClk = s.cappedClk := rfl
@[simp] theorem State.setWave_links : (s.setWave w x).links = s.links := rfl
@[simp] theorem State.setWave_linkUse : (s.setWave w x).linkUse = s.linkUse := rfl
@[simp] theorem State.setWave_answers : (s.setWave w x).answers = s.answers := rfl
@[simp] theorem State.setWave_commands : (s.setWave w x).commands = s.commands := rfl
@[simp] theorem State.setWave_replies : (s.setWave w x).replies = s.replies := rfl
@[simp] theorem State.setWave_msix : (s.setWave w x).msix = s.msix := rfl
@[simp] theorem State.setWave_fjRing : (s.setWave w x).fjRing = s.fjRing := rfl
@[simp] theorem State.setWave_scanout : (s.setWave w x).scanout = s.scanout := rfl
@[simp] theorem State.setWave_constOld : (s.setWave w x).constOld = s.constOld := rfl
@[simp] theorem State.setWave_ctrHeld : (s.setWave w x).ctrHeld = s.ctrHeld := rfl
@[simp] theorem State.setWave_transReqs : (s.setWave w x).transReqs = s.transReqs := rfl
@[simp] theorem State.setWave_pageReqs : (s.setWave w x).pageReqs = s.pageReqs := rfl

end

/-! ### A thread changed -/

section

variable (s : State) (w l : Nat) (g : Thread → Thread)

@[simp] theorem State.updThread_cur : (s.updThread w l g).cur = s.cur := rfl
@[simp] theorem State.updThread_agenda : (s.updThread w l g).agenda = s.agenda := rfl
@[simp] theorem State.updThread_ticks : (s.updThread w l g).ticks = s.ticks := rfl
@[simp] theorem State.updThread_fv : (s.updThread w l g).fv = s.fv := rfl
@[simp] theorem State.updThread_clks : (s.updThread w l g).clks = s.clks := rfl
@[simp] theorem State.updThread_us : (s.updThread w l g).us = s.us := rfl
@[simp] theorem State.updThread_nextId : (s.updThread w l g).nextId = s.nextId := rfl
@[simp] theorem State.updThread_acts : (s.updThread w l g).acts = s.acts := rfl
@[simp] theorem State.updThread_frozen : (s.updThread w l g).frozen = s.frozen := rfl
@[simp] theorem State.updThread_wgs : (s.updThread w l g).wgs = s.wgs := rfl
@[simp] theorem State.updThread_groups : (s.updThread w l g).groups = s.groups := rfl
@[simp] theorem State.updThread_saved : (s.updThread w l g).saved = s.saved := rfl
@[simp] theorem State.updThread_ended : (s.updThread w l g).ended = s.ended := rfl
@[simp] theorem State.updThread_endedWgs : (s.updThread w l g).endedWgs = s.endedWgs := rfl
@[simp] theorem State.updThread_regions : (s.updThread w l g).regions = s.regions := rfl
@[simp] theorem State.updThread_cores : (s.updThread w l g).cores = s.cores := rfl
@[simp] theorem State.updThread_clusters : (s.updThread w l g).clusters = s.clusters := rfl
@[simp] theorem State.updThread_dies : (s.updThread w l g).dies = s.dies := rfl
@[simp] theorem State.updThread_mem : (s.updThread w l g).mem = s.mem := rfl
@[simp] theorem State.updThread_l2 : (s.updThread w l g).l2 = s.l2 := rfl
@[simp] theorem State.updThread_poison : (s.updThread w l g).poison = s.poison := rfl
@[simp] theorem State.updThread_versions : (s.updThread w l g).versions = s.versions := rfl
@[simp] theorem State.updThread_sets : (s.updThread w l g).sets = s.sets := rfl
@[simp] theorem State.updThread_prisms : (s.updThread w l g).prisms = s.prisms := rfl
@[simp] theorem State.updThread_presents : (s.updThread w l g).presents = s.presents := rfl
@[simp] theorem State.updThread_presEn : (s.updThread w l g).presEn = s.presEn := rfl
@[simp] theorem State.updThread_presGuard : (s.updThread w l g).presGuard = s.presGuard := rfl
@[simp] theorem State.updThread_readouts : (s.updThread w l g).readouts = s.readouts := rfl
@[simp] theorem State.updThread_copies : (s.updThread w l g).copies = s.copies := rfl
@[simp] theorem State.updThread_watches : (s.updThread w l g).watches = s.watches := rfl
@[simp] theorem State.updThread_deliveries : (s.updThread w l g).deliveries = s.deliveries := rfl
@[simp] theorem State.updThread_colls : (s.updThread w l g).colls = s.colls := rfl
@[simp] theorem State.updThread_homes : (s.updThread w l g).homes = s.homes := rfl
@[simp] theorem State.updThread_homeFwd : (s.updThread w l g).homeFwd = s.homeFwd := rfl
@[simp] theorem State.updThread_fw : (s.updThread w l g).fw = s.fw := rfl
@[simp] theorem State.updThread_life : (s.updThread w l g).life = s.life := rfl
@[simp] theorem State.updThread_pwrLimit : (s.updThread w l g).pwrLimit = s.pwrLimit := rfl
@[simp] theorem State.updThread_fclk : (s.updThread w l g).fclk = s.fclk := rfl
@[simp] theorem State.updThread_pwrSt : (s.updThread w l g).pwrSt = s.pwrSt := rfl
@[simp] theorem State.updThread_fns : (s.updThread w l g).fns = s.fns := rfl
@[simp] theorem State.updThread_ats : (s.updThread w l g).ats = s.ats := rfl
@[simp] theorem State.updThread_atsPending : (s.updThread w l g).atsPending = s.atsPending := rfl
@[simp] theorem State.updThread_cappedClk : (s.updThread w l g).cappedClk = s.cappedClk := rfl
@[simp] theorem State.updThread_links : (s.updThread w l g).links = s.links := rfl
@[simp] theorem State.updThread_linkUse : (s.updThread w l g).linkUse = s.linkUse := rfl
@[simp] theorem State.updThread_answers : (s.updThread w l g).answers = s.answers := rfl
@[simp] theorem State.updThread_commands : (s.updThread w l g).commands = s.commands := rfl
@[simp] theorem State.updThread_replies : (s.updThread w l g).replies = s.replies := rfl
@[simp] theorem State.updThread_msix : (s.updThread w l g).msix = s.msix := rfl
@[simp] theorem State.updThread_fjRing : (s.updThread w l g).fjRing = s.fjRing := rfl
@[simp] theorem State.updThread_scanout : (s.updThread w l g).scanout = s.scanout := rfl
@[simp] theorem State.updThread_constOld : (s.updThread w l g).constOld = s.constOld := rfl
@[simp] theorem State.updThread_ctrHeld : (s.updThread w l g).ctrHeld = s.ctrHeld := rfl
@[simp] theorem State.updThread_transReqs : (s.updThread w l g).transReqs = s.transReqs := rfl
@[simp] theorem State.updThread_pageReqs : (s.updThread w l g).pageReqs = s.pageReqs := rfl

end

/-! ### The fault domains held back -/

section

variable (s : State) 

@[simp] theorem State.holdActs_cur : (s.holdActs).cur = s.cur := rfl
@[simp] theorem State.holdActs_agenda : (s.holdActs).agenda = s.agenda := rfl
@[simp] theorem State.holdActs_ticks : (s.holdActs).ticks = s.ticks := rfl
@[simp] theorem State.holdActs_fv : (s.holdActs).fv = s.fv := rfl
@[simp] theorem State.holdActs_clks : (s.holdActs).clks = s.clks := rfl
@[simp] theorem State.holdActs_us : (s.holdActs).us = s.us := rfl
@[simp] theorem State.holdActs_nextId : (s.holdActs).nextId = s.nextId := rfl
@[simp] theorem State.holdActs_frozen : (s.holdActs).frozen = s.frozen := rfl
@[simp] theorem State.holdActs_waves : (s.holdActs).waves = s.waves := rfl
@[simp] theorem State.holdActs_wgs : (s.holdActs).wgs = s.wgs := rfl
@[simp] theorem State.holdActs_groups : (s.holdActs).groups = s.groups := rfl
@[simp] theorem State.holdActs_saved : (s.holdActs).saved = s.saved := rfl
@[simp] theorem State.holdActs_ended : (s.holdActs).ended = s.ended := rfl
@[simp] theorem State.holdActs_endedWgs : (s.holdActs).endedWgs = s.endedWgs := rfl
@[simp] theorem State.holdActs_regions : (s.holdActs).regions = s.regions := rfl
@[simp] theorem State.holdActs_cores : (s.holdActs).cores = s.cores := rfl
@[simp] theorem State.holdActs_clusters : (s.holdActs).clusters = s.clusters := rfl
@[simp] theorem State.holdActs_dies : (s.holdActs).dies = s.dies := rfl
@[simp] theorem State.holdActs_mem : (s.holdActs).mem = s.mem := rfl
@[simp] theorem State.holdActs_l2 : (s.holdActs).l2 = s.l2 := rfl
@[simp] theorem State.holdActs_poison : (s.holdActs).poison = s.poison := rfl
@[simp] theorem State.holdActs_versions : (s.holdActs).versions = s.versions := rfl
@[simp] theorem State.holdActs_sets : (s.holdActs).sets = s.sets := rfl
@[simp] theorem State.holdActs_prisms : (s.holdActs).prisms = s.prisms := rfl
@[simp] theorem State.holdActs_presents : (s.holdActs).presents = s.presents := rfl
@[simp] theorem State.holdActs_presEn : (s.holdActs).presEn = s.presEn := rfl
@[simp] theorem State.holdActs_presGuard : (s.holdActs).presGuard = s.presGuard := rfl
@[simp] theorem State.holdActs_readouts : (s.holdActs).readouts = s.readouts := rfl
@[simp] theorem State.holdActs_copies : (s.holdActs).copies = s.copies := rfl
@[simp] theorem State.holdActs_watches : (s.holdActs).watches = s.watches := rfl
@[simp] theorem State.holdActs_deliveries : (s.holdActs).deliveries = s.deliveries := rfl
@[simp] theorem State.holdActs_colls : (s.holdActs).colls = s.colls := rfl
@[simp] theorem State.holdActs_homes : (s.holdActs).homes = s.homes := rfl
@[simp] theorem State.holdActs_homeFwd : (s.holdActs).homeFwd = s.homeFwd := rfl
@[simp] theorem State.holdActs_fw : (s.holdActs).fw = s.fw := rfl
@[simp] theorem State.holdActs_life : (s.holdActs).life = s.life := rfl
@[simp] theorem State.holdActs_pwrLimit : (s.holdActs).pwrLimit = s.pwrLimit := rfl
@[simp] theorem State.holdActs_fclk : (s.holdActs).fclk = s.fclk := rfl
@[simp] theorem State.holdActs_pwrSt : (s.holdActs).pwrSt = s.pwrSt := rfl
@[simp] theorem State.holdActs_fns : (s.holdActs).fns = s.fns := rfl
@[simp] theorem State.holdActs_ats : (s.holdActs).ats = s.ats := rfl
@[simp] theorem State.holdActs_atsPending : (s.holdActs).atsPending = s.atsPending := rfl
@[simp] theorem State.holdActs_cappedClk : (s.holdActs).cappedClk = s.cappedClk := rfl
@[simp] theorem State.holdActs_links : (s.holdActs).links = s.links := rfl
@[simp] theorem State.holdActs_linkUse : (s.holdActs).linkUse = s.linkUse := rfl
@[simp] theorem State.holdActs_answers : (s.holdActs).answers = s.answers := rfl
@[simp] theorem State.holdActs_commands : (s.holdActs).commands = s.commands := rfl
@[simp] theorem State.holdActs_replies : (s.holdActs).replies = s.replies := rfl
@[simp] theorem State.holdActs_msix : (s.holdActs).msix = s.msix := rfl
@[simp] theorem State.holdActs_fjRing : (s.holdActs).fjRing = s.fjRing := rfl
@[simp] theorem State.holdActs_scanout : (s.holdActs).scanout = s.scanout := rfl
@[simp] theorem State.holdActs_constOld : (s.holdActs).constOld = s.constOld := rfl
@[simp] theorem State.holdActs_ctrHeld : (s.holdActs).ctrHeld = s.ctrHeld := rfl
@[simp] theorem State.holdActs_transReqs : (s.holdActs).transReqs = s.transReqs := rfl
@[simp] theorem State.holdActs_pageReqs : (s.holdActs).pageReqs = s.pageReqs := rfl

end

/-! ### A workgroup changed -/

section

variable (s : State) (n : Nat) (g : Wg → Wg)

@[simp] theorem State.updWg_cur : (s.updWg n g).cur = s.cur := rfl
@[simp] theorem State.updWg_agenda : (s.updWg n g).agenda = s.agenda := rfl
@[simp] theorem State.updWg_ticks : (s.updWg n g).ticks = s.ticks := rfl
@[simp] theorem State.updWg_fv : (s.updWg n g).fv = s.fv := rfl
@[simp] theorem State.updWg_clks : (s.updWg n g).clks = s.clks := rfl
@[simp] theorem State.updWg_us : (s.updWg n g).us = s.us := rfl
@[simp] theorem State.updWg_nextId : (s.updWg n g).nextId = s.nextId := rfl
@[simp] theorem State.updWg_acts : (s.updWg n g).acts = s.acts := rfl
@[simp] theorem State.updWg_frozen : (s.updWg n g).frozen = s.frozen := rfl
@[simp] theorem State.updWg_waves : (s.updWg n g).waves = s.waves := rfl
@[simp] theorem State.updWg_groups : (s.updWg n g).groups = s.groups := rfl
@[simp] theorem State.updWg_saved : (s.updWg n g).saved = s.saved := rfl
@[simp] theorem State.updWg_ended : (s.updWg n g).ended = s.ended := rfl
@[simp] theorem State.updWg_regions : (s.updWg n g).regions = s.regions := rfl
@[simp] theorem State.updWg_cores : (s.updWg n g).cores = s.cores := rfl
@[simp] theorem State.updWg_clusters : (s.updWg n g).clusters = s.clusters := rfl
@[simp] theorem State.updWg_dies : (s.updWg n g).dies = s.dies := rfl
@[simp] theorem State.updWg_mem : (s.updWg n g).mem = s.mem := rfl
@[simp] theorem State.updWg_l2 : (s.updWg n g).l2 = s.l2 := rfl
@[simp] theorem State.updWg_poison : (s.updWg n g).poison = s.poison := rfl
@[simp] theorem State.updWg_versions : (s.updWg n g).versions = s.versions := rfl
@[simp] theorem State.updWg_sets : (s.updWg n g).sets = s.sets := rfl
@[simp] theorem State.updWg_prisms : (s.updWg n g).prisms = s.prisms := rfl
@[simp] theorem State.updWg_presents : (s.updWg n g).presents = s.presents := rfl
@[simp] theorem State.updWg_presEn : (s.updWg n g).presEn = s.presEn := rfl
@[simp] theorem State.updWg_presGuard : (s.updWg n g).presGuard = s.presGuard := rfl
@[simp] theorem State.updWg_readouts : (s.updWg n g).readouts = s.readouts := rfl
@[simp] theorem State.updWg_copies : (s.updWg n g).copies = s.copies := rfl
@[simp] theorem State.updWg_watches : (s.updWg n g).watches = s.watches := rfl
@[simp] theorem State.updWg_deliveries : (s.updWg n g).deliveries = s.deliveries := rfl
@[simp] theorem State.updWg_colls : (s.updWg n g).colls = s.colls := rfl
@[simp] theorem State.updWg_homes : (s.updWg n g).homes = s.homes := rfl
@[simp] theorem State.updWg_homeFwd : (s.updWg n g).homeFwd = s.homeFwd := rfl
@[simp] theorem State.updWg_fw : (s.updWg n g).fw = s.fw := rfl
@[simp] theorem State.updWg_life : (s.updWg n g).life = s.life := rfl
@[simp] theorem State.updWg_pwrLimit : (s.updWg n g).pwrLimit = s.pwrLimit := rfl
@[simp] theorem State.updWg_fclk : (s.updWg n g).fclk = s.fclk := rfl
@[simp] theorem State.updWg_pwrSt : (s.updWg n g).pwrSt = s.pwrSt := rfl
@[simp] theorem State.updWg_fns : (s.updWg n g).fns = s.fns := rfl
@[simp] theorem State.updWg_ats : (s.updWg n g).ats = s.ats := rfl
@[simp] theorem State.updWg_atsPending : (s.updWg n g).atsPending = s.atsPending := rfl
@[simp] theorem State.updWg_cappedClk : (s.updWg n g).cappedClk = s.cappedClk := rfl
@[simp] theorem State.updWg_links : (s.updWg n g).links = s.links := rfl
@[simp] theorem State.updWg_linkUse : (s.updWg n g).linkUse = s.linkUse := rfl
@[simp] theorem State.updWg_answers : (s.updWg n g).answers = s.answers := rfl
@[simp] theorem State.updWg_commands : (s.updWg n g).commands = s.commands := rfl
@[simp] theorem State.updWg_replies : (s.updWg n g).replies = s.replies := rfl
@[simp] theorem State.updWg_msix : (s.updWg n g).msix = s.msix := rfl
@[simp] theorem State.updWg_fjRing : (s.updWg n g).fjRing = s.fjRing := rfl
@[simp] theorem State.updWg_scanout : (s.updWg n g).scanout = s.scanout := rfl
@[simp] theorem State.updWg_constOld : (s.updWg n g).constOld = s.constOld := rfl
@[simp] theorem State.updWg_ctrHeld : (s.updWg n g).ctrHeld = s.ctrHeld := rfl
@[simp] theorem State.updWg_transReqs : (s.updWg n g).transReqs = s.transReqs := rfl
@[simp] theorem State.updWg_pageReqs : (s.updWg n g).pageReqs = s.pageReqs := rfl

end

/-! ### The turn put right -/

section

variable (s : State) (w : Nat)

@[simp] theorem State.fixTurn_cur : (s.fixTurn w).cur = s.cur := rfl
@[simp] theorem State.fixTurn_agenda : (s.fixTurn w).agenda = s.agenda := rfl
@[simp] theorem State.fixTurn_ticks : (s.fixTurn w).ticks = s.ticks := rfl
@[simp] theorem State.fixTurn_fv : (s.fixTurn w).fv = s.fv := rfl
@[simp] theorem State.fixTurn_clks : (s.fixTurn w).clks = s.clks := rfl
@[simp] theorem State.fixTurn_us : (s.fixTurn w).us = s.us := rfl
@[simp] theorem State.fixTurn_nextId : (s.fixTurn w).nextId = s.nextId := rfl
@[simp] theorem State.fixTurn_acts : (s.fixTurn w).acts = s.acts := rfl
@[simp] theorem State.fixTurn_frozen : (s.fixTurn w).frozen = s.frozen := rfl
@[simp] theorem State.fixTurn_wgs : (s.fixTurn w).wgs = s.wgs := rfl
@[simp] theorem State.fixTurn_groups : (s.fixTurn w).groups = s.groups := rfl
@[simp] theorem State.fixTurn_saved : (s.fixTurn w).saved = s.saved := rfl
@[simp] theorem State.fixTurn_ended : (s.fixTurn w).ended = s.ended := rfl
@[simp] theorem State.fixTurn_endedWgs : (s.fixTurn w).endedWgs = s.endedWgs := rfl
@[simp] theorem State.fixTurn_regions : (s.fixTurn w).regions = s.regions := rfl
@[simp] theorem State.fixTurn_cores : (s.fixTurn w).cores = s.cores := rfl
@[simp] theorem State.fixTurn_clusters : (s.fixTurn w).clusters = s.clusters := rfl
@[simp] theorem State.fixTurn_dies : (s.fixTurn w).dies = s.dies := rfl
@[simp] theorem State.fixTurn_mem : (s.fixTurn w).mem = s.mem := rfl
@[simp] theorem State.fixTurn_l2 : (s.fixTurn w).l2 = s.l2 := rfl
@[simp] theorem State.fixTurn_poison : (s.fixTurn w).poison = s.poison := rfl
@[simp] theorem State.fixTurn_versions : (s.fixTurn w).versions = s.versions := rfl
@[simp] theorem State.fixTurn_sets : (s.fixTurn w).sets = s.sets := rfl
@[simp] theorem State.fixTurn_prisms : (s.fixTurn w).prisms = s.prisms := rfl
@[simp] theorem State.fixTurn_presents : (s.fixTurn w).presents = s.presents := rfl
@[simp] theorem State.fixTurn_presEn : (s.fixTurn w).presEn = s.presEn := rfl
@[simp] theorem State.fixTurn_presGuard : (s.fixTurn w).presGuard = s.presGuard := rfl
@[simp] theorem State.fixTurn_readouts : (s.fixTurn w).readouts = s.readouts := rfl
@[simp] theorem State.fixTurn_copies : (s.fixTurn w).copies = s.copies := rfl
@[simp] theorem State.fixTurn_watches : (s.fixTurn w).watches = s.watches := rfl
@[simp] theorem State.fixTurn_deliveries : (s.fixTurn w).deliveries = s.deliveries := rfl
@[simp] theorem State.fixTurn_colls : (s.fixTurn w).colls = s.colls := rfl
@[simp] theorem State.fixTurn_homes : (s.fixTurn w).homes = s.homes := rfl
@[simp] theorem State.fixTurn_homeFwd : (s.fixTurn w).homeFwd = s.homeFwd := rfl
@[simp] theorem State.fixTurn_fw : (s.fixTurn w).fw = s.fw := rfl
@[simp] theorem State.fixTurn_life : (s.fixTurn w).life = s.life := rfl
@[simp] theorem State.fixTurn_pwrLimit : (s.fixTurn w).pwrLimit = s.pwrLimit := rfl
@[simp] theorem State.fixTurn_fclk : (s.fixTurn w).fclk = s.fclk := rfl
@[simp] theorem State.fixTurn_pwrSt : (s.fixTurn w).pwrSt = s.pwrSt := rfl
@[simp] theorem State.fixTurn_fns : (s.fixTurn w).fns = s.fns := rfl
@[simp] theorem State.fixTurn_ats : (s.fixTurn w).ats = s.ats := rfl
@[simp] theorem State.fixTurn_atsPending : (s.fixTurn w).atsPending = s.atsPending := rfl
@[simp] theorem State.fixTurn_cappedClk : (s.fixTurn w).cappedClk = s.cappedClk := rfl
@[simp] theorem State.fixTurn_links : (s.fixTurn w).links = s.links := rfl
@[simp] theorem State.fixTurn_linkUse : (s.fixTurn w).linkUse = s.linkUse := rfl
@[simp] theorem State.fixTurn_answers : (s.fixTurn w).answers = s.answers := rfl
@[simp] theorem State.fixTurn_commands : (s.fixTurn w).commands = s.commands := rfl
@[simp] theorem State.fixTurn_replies : (s.fixTurn w).replies = s.replies := rfl
@[simp] theorem State.fixTurn_msix : (s.fixTurn w).msix = s.msix := rfl
@[simp] theorem State.fixTurn_fjRing : (s.fixTurn w).fjRing = s.fjRing := rfl
@[simp] theorem State.fixTurn_scanout : (s.fixTurn w).scanout = s.scanout := rfl
@[simp] theorem State.fixTurn_constOld : (s.fixTurn w).constOld = s.constOld := rfl
@[simp] theorem State.fixTurn_ctrHeld : (s.fixTurn w).ctrHeld = s.ctrHeld := rfl
@[simp] theorem State.fixTurn_transReqs : (s.fixTurn w).transReqs = s.transReqs := rfl
@[simp] theorem State.fixTurn_pageReqs : (s.fixTurn w).pageReqs = s.pageReqs := rfl

end

/-! ### A result written -/

section

variable (s : State) (w l : Nat) (o : Operand) (ws : List Word)

@[simp] theorem State.putDst_cur : (s.putDst w l o ws).cur = s.cur := rfl
@[simp] theorem State.putDst_agenda : (s.putDst w l o ws).agenda = s.agenda := rfl
@[simp] theorem State.putDst_ticks : (s.putDst w l o ws).ticks = s.ticks := rfl
@[simp] theorem State.putDst_fv : (s.putDst w l o ws).fv = s.fv := rfl
@[simp] theorem State.putDst_clks : (s.putDst w l o ws).clks = s.clks := rfl
@[simp] theorem State.putDst_us : (s.putDst w l o ws).us = s.us := rfl
@[simp] theorem State.putDst_nextId : (s.putDst w l o ws).nextId = s.nextId := rfl
@[simp] theorem State.putDst_acts : (s.putDst w l o ws).acts = s.acts := rfl
@[simp] theorem State.putDst_frozen : (s.putDst w l o ws).frozen = s.frozen := rfl
@[simp] theorem State.putDst_wgs : (s.putDst w l o ws).wgs = s.wgs := rfl
@[simp] theorem State.putDst_groups : (s.putDst w l o ws).groups = s.groups := rfl
@[simp] theorem State.putDst_saved : (s.putDst w l o ws).saved = s.saved := rfl
@[simp] theorem State.putDst_ended : (s.putDst w l o ws).ended = s.ended := rfl
@[simp] theorem State.putDst_endedWgs : (s.putDst w l o ws).endedWgs = s.endedWgs := rfl
@[simp] theorem State.putDst_regions : (s.putDst w l o ws).regions = s.regions := rfl
@[simp] theorem State.putDst_cores : (s.putDst w l o ws).cores = s.cores := rfl
@[simp] theorem State.putDst_clusters : (s.putDst w l o ws).clusters = s.clusters := rfl
@[simp] theorem State.putDst_dies : (s.putDst w l o ws).dies = s.dies := rfl
@[simp] theorem State.putDst_mem : (s.putDst w l o ws).mem = s.mem := rfl
@[simp] theorem State.putDst_l2 : (s.putDst w l o ws).l2 = s.l2 := rfl
@[simp] theorem State.putDst_poison : (s.putDst w l o ws).poison = s.poison := rfl
@[simp] theorem State.putDst_versions : (s.putDst w l o ws).versions = s.versions := rfl
@[simp] theorem State.putDst_sets : (s.putDst w l o ws).sets = s.sets := rfl
@[simp] theorem State.putDst_prisms : (s.putDst w l o ws).prisms = s.prisms := rfl
@[simp] theorem State.putDst_presents : (s.putDst w l o ws).presents = s.presents := rfl
@[simp] theorem State.putDst_presEn : (s.putDst w l o ws).presEn = s.presEn := rfl
@[simp] theorem State.putDst_presGuard : (s.putDst w l o ws).presGuard = s.presGuard := rfl
@[simp] theorem State.putDst_readouts : (s.putDst w l o ws).readouts = s.readouts := rfl
@[simp] theorem State.putDst_copies : (s.putDst w l o ws).copies = s.copies := rfl
@[simp] theorem State.putDst_watches : (s.putDst w l o ws).watches = s.watches := rfl
@[simp] theorem State.putDst_deliveries : (s.putDst w l o ws).deliveries = s.deliveries := rfl
@[simp] theorem State.putDst_colls : (s.putDst w l o ws).colls = s.colls := rfl
@[simp] theorem State.putDst_homes : (s.putDst w l o ws).homes = s.homes := rfl
@[simp] theorem State.putDst_homeFwd : (s.putDst w l o ws).homeFwd = s.homeFwd := rfl
@[simp] theorem State.putDst_fw : (s.putDst w l o ws).fw = s.fw := rfl
@[simp] theorem State.putDst_life : (s.putDst w l o ws).life = s.life := rfl
@[simp] theorem State.putDst_pwrLimit : (s.putDst w l o ws).pwrLimit = s.pwrLimit := rfl
@[simp] theorem State.putDst_fclk : (s.putDst w l o ws).fclk = s.fclk := rfl
@[simp] theorem State.putDst_pwrSt : (s.putDst w l o ws).pwrSt = s.pwrSt := rfl
@[simp] theorem State.putDst_fns : (s.putDst w l o ws).fns = s.fns := rfl
@[simp] theorem State.putDst_ats : (s.putDst w l o ws).ats = s.ats := rfl
@[simp] theorem State.putDst_atsPending : (s.putDst w l o ws).atsPending = s.atsPending := rfl
@[simp] theorem State.putDst_cappedClk : (s.putDst w l o ws).cappedClk = s.cappedClk := rfl
@[simp] theorem State.putDst_links : (s.putDst w l o ws).links = s.links := rfl
@[simp] theorem State.putDst_linkUse : (s.putDst w l o ws).linkUse = s.linkUse := rfl
@[simp] theorem State.putDst_answers : (s.putDst w l o ws).answers = s.answers := rfl
@[simp] theorem State.putDst_commands : (s.putDst w l o ws).commands = s.commands := rfl
@[simp] theorem State.putDst_replies : (s.putDst w l o ws).replies = s.replies := rfl
@[simp] theorem State.putDst_msix : (s.putDst w l o ws).msix = s.msix := rfl
@[simp] theorem State.putDst_fjRing : (s.putDst w l o ws).fjRing = s.fjRing := rfl
@[simp] theorem State.putDst_scanout : (s.putDst w l o ws).scanout = s.scanout := rfl
@[simp] theorem State.putDst_constOld : (s.putDst w l o ws).constOld = s.constOld := rfl
@[simp] theorem State.putDst_ctrHeld : (s.putDst w l o ws).ctrHeld = s.ctrHeld := rfl
@[simp] theorem State.putDst_transReqs : (s.putDst w l o ws).transReqs = s.transReqs := rfl
@[simp] theorem State.putDst_pageReqs : (s.putDst w l o ws).pageReqs = s.pageReqs := rfl

end

/-! ### Reservations cleared -/

section

variable (s : State) (pt : ResvAt) (n : Nat) (b : Option (Nat × Nat))

@[simp] theorem State.clearResv_cur : (s.clearResv pt n b).cur = s.cur := rfl
@[simp] theorem State.clearResv_agenda : (s.clearResv pt n b).agenda = s.agenda := rfl
@[simp] theorem State.clearResv_ticks : (s.clearResv pt n b).ticks = s.ticks := rfl
@[simp] theorem State.clearResv_fv : (s.clearResv pt n b).fv = s.fv := rfl
@[simp] theorem State.clearResv_clks : (s.clearResv pt n b).clks = s.clks := rfl
@[simp] theorem State.clearResv_us : (s.clearResv pt n b).us = s.us := rfl
@[simp] theorem State.clearResv_nextId : (s.clearResv pt n b).nextId = s.nextId := rfl
@[simp] theorem State.clearResv_acts : (s.clearResv pt n b).acts = s.acts := rfl
@[simp] theorem State.clearResv_frozen : (s.clearResv pt n b).frozen = s.frozen := rfl
@[simp] theorem State.clearResv_wgs : (s.clearResv pt n b).wgs = s.wgs := rfl
@[simp] theorem State.clearResv_groups : (s.clearResv pt n b).groups = s.groups := rfl
@[simp] theorem State.clearResv_saved : (s.clearResv pt n b).saved = s.saved := rfl
@[simp] theorem State.clearResv_ended : (s.clearResv pt n b).ended = s.ended := rfl
@[simp] theorem State.clearResv_endedWgs : (s.clearResv pt n b).endedWgs = s.endedWgs := rfl
@[simp] theorem State.clearResv_regions : (s.clearResv pt n b).regions = s.regions := rfl
@[simp] theorem State.clearResv_cores : (s.clearResv pt n b).cores = s.cores := rfl
@[simp] theorem State.clearResv_clusters : (s.clearResv pt n b).clusters = s.clusters := rfl
@[simp] theorem State.clearResv_dies : (s.clearResv pt n b).dies = s.dies := rfl
@[simp] theorem State.clearResv_mem : (s.clearResv pt n b).mem = s.mem := rfl
@[simp] theorem State.clearResv_l2 : (s.clearResv pt n b).l2 = s.l2 := rfl
@[simp] theorem State.clearResv_poison : (s.clearResv pt n b).poison = s.poison := rfl
@[simp] theorem State.clearResv_versions : (s.clearResv pt n b).versions = s.versions := rfl
@[simp] theorem State.clearResv_sets : (s.clearResv pt n b).sets = s.sets := rfl
@[simp] theorem State.clearResv_prisms : (s.clearResv pt n b).prisms = s.prisms := rfl
@[simp] theorem State.clearResv_presents : (s.clearResv pt n b).presents = s.presents := rfl
@[simp] theorem State.clearResv_presEn : (s.clearResv pt n b).presEn = s.presEn := rfl
@[simp] theorem State.clearResv_presGuard : (s.clearResv pt n b).presGuard = s.presGuard := rfl
@[simp] theorem State.clearResv_readouts : (s.clearResv pt n b).readouts = s.readouts := rfl
@[simp] theorem State.clearResv_copies : (s.clearResv pt n b).copies = s.copies := rfl
@[simp] theorem State.clearResv_watches : (s.clearResv pt n b).watches = s.watches := rfl
@[simp] theorem State.clearResv_deliveries : (s.clearResv pt n b).deliveries = s.deliveries := rfl
@[simp] theorem State.clearResv_colls : (s.clearResv pt n b).colls = s.colls := rfl
@[simp] theorem State.clearResv_homes : (s.clearResv pt n b).homes = s.homes := rfl
@[simp] theorem State.clearResv_homeFwd : (s.clearResv pt n b).homeFwd = s.homeFwd := rfl
@[simp] theorem State.clearResv_fw : (s.clearResv pt n b).fw = s.fw := rfl
@[simp] theorem State.clearResv_life : (s.clearResv pt n b).life = s.life := rfl
@[simp] theorem State.clearResv_pwrLimit : (s.clearResv pt n b).pwrLimit = s.pwrLimit := rfl
@[simp] theorem State.clearResv_fclk : (s.clearResv pt n b).fclk = s.fclk := rfl
@[simp] theorem State.clearResv_pwrSt : (s.clearResv pt n b).pwrSt = s.pwrSt := rfl
@[simp] theorem State.clearResv_fns : (s.clearResv pt n b).fns = s.fns := rfl
@[simp] theorem State.clearResv_ats : (s.clearResv pt n b).ats = s.ats := rfl
@[simp] theorem State.clearResv_atsPending : (s.clearResv pt n b).atsPending = s.atsPending := rfl
@[simp] theorem State.clearResv_cappedClk : (s.clearResv pt n b).cappedClk = s.cappedClk := rfl
@[simp] theorem State.clearResv_links : (s.clearResv pt n b).links = s.links := rfl
@[simp] theorem State.clearResv_linkUse : (s.clearResv pt n b).linkUse = s.linkUse := rfl
@[simp] theorem State.clearResv_answers : (s.clearResv pt n b).answers = s.answers := rfl
@[simp] theorem State.clearResv_commands : (s.clearResv pt n b).commands = s.commands := rfl
@[simp] theorem State.clearResv_replies : (s.clearResv pt n b).replies = s.replies := rfl
@[simp] theorem State.clearResv_msix : (s.clearResv pt n b).msix = s.msix := rfl
@[simp] theorem State.clearResv_fjRing : (s.clearResv pt n b).fjRing = s.fjRing := rfl
@[simp] theorem State.clearResv_scanout : (s.clearResv pt n b).scanout = s.scanout := rfl
@[simp] theorem State.clearResv_constOld : (s.clearResv pt n b).constOld = s.constOld := rfl
@[simp] theorem State.clearResv_ctrHeld : (s.clearResv pt n b).ctrHeld = s.ctrHeld := rfl
@[simp] theorem State.clearResv_transReqs : (s.clearResv pt n b).transReqs = s.transReqs := rfl
@[simp] theorem State.clearResv_pageReqs : (s.clearResv pt n b).pageReqs = s.pageReqs := rfl

end

/-! ### Poison cleared -/

section

variable (s : State) (key n : Nat)

@[simp] theorem State.healed_cur : (s.healed key n).cur = s.cur := rfl
@[simp] theorem State.healed_agenda : (s.healed key n).agenda = s.agenda := rfl
@[simp] theorem State.healed_ticks : (s.healed key n).ticks = s.ticks := rfl
@[simp] theorem State.healed_fv : (s.healed key n).fv = s.fv := rfl
@[simp] theorem State.healed_clks : (s.healed key n).clks = s.clks := rfl
@[simp] theorem State.healed_us : (s.healed key n).us = s.us := rfl
@[simp] theorem State.healed_nextId : (s.healed key n).nextId = s.nextId := rfl
@[simp] theorem State.healed_acts : (s.healed key n).acts = s.acts := rfl
@[simp] theorem State.healed_frozen : (s.healed key n).frozen = s.frozen := rfl
@[simp] theorem State.healed_waves : (s.healed key n).waves = s.waves := rfl
@[simp] theorem State.healed_wgs : (s.healed key n).wgs = s.wgs := rfl
@[simp] theorem State.healed_groups : (s.healed key n).groups = s.groups := rfl
@[simp] theorem State.healed_saved : (s.healed key n).saved = s.saved := rfl
@[simp] theorem State.healed_ended : (s.healed key n).ended = s.ended := rfl
@[simp] theorem State.healed_endedWgs : (s.healed key n).endedWgs = s.endedWgs := rfl
@[simp] theorem State.healed_regions : (s.healed key n).regions = s.regions := rfl
@[simp] theorem State.healed_cores : (s.healed key n).cores = s.cores := rfl
@[simp] theorem State.healed_clusters : (s.healed key n).clusters = s.clusters := rfl
@[simp] theorem State.healed_dies : (s.healed key n).dies = s.dies := rfl
@[simp] theorem State.healed_mem : (s.healed key n).mem = s.mem := rfl
@[simp] theorem State.healed_l2 : (s.healed key n).l2 = s.l2 := rfl
@[simp] theorem State.healed_versions : (s.healed key n).versions = s.versions := rfl
@[simp] theorem State.healed_sets : (s.healed key n).sets = s.sets := rfl
@[simp] theorem State.healed_prisms : (s.healed key n).prisms = s.prisms := rfl
@[simp] theorem State.healed_presents : (s.healed key n).presents = s.presents := rfl
@[simp] theorem State.healed_presEn : (s.healed key n).presEn = s.presEn := rfl
@[simp] theorem State.healed_presGuard : (s.healed key n).presGuard = s.presGuard := rfl
@[simp] theorem State.healed_readouts : (s.healed key n).readouts = s.readouts := rfl
@[simp] theorem State.healed_copies : (s.healed key n).copies = s.copies := rfl
@[simp] theorem State.healed_watches : (s.healed key n).watches = s.watches := rfl
@[simp] theorem State.healed_deliveries : (s.healed key n).deliveries = s.deliveries := rfl
@[simp] theorem State.healed_colls : (s.healed key n).colls = s.colls := rfl
@[simp] theorem State.healed_homes : (s.healed key n).homes = s.homes := rfl
@[simp] theorem State.healed_homeFwd : (s.healed key n).homeFwd = s.homeFwd := rfl
@[simp] theorem State.healed_fw : (s.healed key n).fw = s.fw := rfl
@[simp] theorem State.healed_life : (s.healed key n).life = s.life := rfl
@[simp] theorem State.healed_pwrLimit : (s.healed key n).pwrLimit = s.pwrLimit := rfl
@[simp] theorem State.healed_fclk : (s.healed key n).fclk = s.fclk := rfl
@[simp] theorem State.healed_pwrSt : (s.healed key n).pwrSt = s.pwrSt := rfl
@[simp] theorem State.healed_fns : (s.healed key n).fns = s.fns := rfl
@[simp] theorem State.healed_ats : (s.healed key n).ats = s.ats := rfl
@[simp] theorem State.healed_atsPending : (s.healed key n).atsPending = s.atsPending := rfl
@[simp] theorem State.healed_cappedClk : (s.healed key n).cappedClk = s.cappedClk := rfl
@[simp] theorem State.healed_links : (s.healed key n).links = s.links := rfl
@[simp] theorem State.healed_linkUse : (s.healed key n).linkUse = s.linkUse := rfl
@[simp] theorem State.healed_answers : (s.healed key n).answers = s.answers := rfl
@[simp] theorem State.healed_commands : (s.healed key n).commands = s.commands := rfl
@[simp] theorem State.healed_replies : (s.healed key n).replies = s.replies := rfl
@[simp] theorem State.healed_msix : (s.healed key n).msix = s.msix := rfl
@[simp] theorem State.healed_fjRing : (s.healed key n).fjRing = s.fjRing := rfl
@[simp] theorem State.healed_scanout : (s.healed key n).scanout = s.scanout := rfl
@[simp] theorem State.healed_constOld : (s.healed key n).constOld = s.constOld := rfl
@[simp] theorem State.healed_ctrHeld : (s.healed key n).ctrHeld = s.ctrHeld := rfl
@[simp] theorem State.healed_transReqs : (s.healed key n).transReqs = s.transReqs := rfl
@[simp] theorem State.healed_pageReqs : (s.healed key n).pageReqs = s.pageReqs := rfl

end

/-! ### A region changed -/

section

variable (s : State) (r : Nat) (g : Region → Region)

@[simp] theorem State.updRegion_cur : (s.updRegion r g).cur = s.cur := rfl
@[simp] theorem State.updRegion_agenda : (s.updRegion r g).agenda = s.agenda := rfl
@[simp] theorem State.updRegion_ticks : (s.updRegion r g).ticks = s.ticks := rfl
@[simp] theorem State.updRegion_fv : (s.updRegion r g).fv = s.fv := rfl
@[simp] theorem State.updRegion_clks : (s.updRegion r g).clks = s.clks := rfl
@[simp] theorem State.updRegion_us : (s.updRegion r g).us = s.us := rfl
@[simp] theorem State.updRegion_nextId : (s.updRegion r g).nextId = s.nextId := rfl
@[simp] theorem State.updRegion_acts : (s.updRegion r g).acts = s.acts := rfl
@[simp] theorem State.updRegion_frozen : (s.updRegion r g).frozen = s.frozen := rfl
@[simp] theorem State.updRegion_waves : (s.updRegion r g).waves = s.waves := rfl
@[simp] theorem State.updRegion_wgs : (s.updRegion r g).wgs = s.wgs := rfl
@[simp] theorem State.updRegion_groups : (s.updRegion r g).groups = s.groups := rfl
@[simp] theorem State.updRegion_saved : (s.updRegion r g).saved = s.saved := rfl
@[simp] theorem State.updRegion_ended : (s.updRegion r g).ended = s.ended := rfl
@[simp] theorem State.updRegion_endedWgs : (s.updRegion r g).endedWgs = s.endedWgs := rfl
@[simp] theorem State.updRegion_cores : (s.updRegion r g).cores = s.cores := rfl
@[simp] theorem State.updRegion_clusters : (s.updRegion r g).clusters = s.clusters := rfl
@[simp] theorem State.updRegion_dies : (s.updRegion r g).dies = s.dies := rfl
@[simp] theorem State.updRegion_mem : (s.updRegion r g).mem = s.mem := rfl
@[simp] theorem State.updRegion_l2 : (s.updRegion r g).l2 = s.l2 := rfl
@[simp] theorem State.updRegion_poison : (s.updRegion r g).poison = s.poison := rfl
@[simp] theorem State.updRegion_versions : (s.updRegion r g).versions = s.versions := rfl
@[simp] theorem State.updRegion_sets : (s.updRegion r g).sets = s.sets := rfl
@[simp] theorem State.updRegion_prisms : (s.updRegion r g).prisms = s.prisms := rfl
@[simp] theorem State.updRegion_presents : (s.updRegion r g).presents = s.presents := rfl
@[simp] theorem State.updRegion_presEn : (s.updRegion r g).presEn = s.presEn := rfl
@[simp] theorem State.updRegion_presGuard : (s.updRegion r g).presGuard = s.presGuard := rfl
@[simp] theorem State.updRegion_readouts : (s.updRegion r g).readouts = s.readouts := rfl
@[simp] theorem State.updRegion_copies : (s.updRegion r g).copies = s.copies := rfl
@[simp] theorem State.updRegion_watches : (s.updRegion r g).watches = s.watches := rfl
@[simp] theorem State.updRegion_deliveries : (s.updRegion r g).deliveries = s.deliveries := rfl
@[simp] theorem State.updRegion_colls : (s.updRegion r g).colls = s.colls := rfl
@[simp] theorem State.updRegion_homes : (s.updRegion r g).homes = s.homes := rfl
@[simp] theorem State.updRegion_homeFwd : (s.updRegion r g).homeFwd = s.homeFwd := rfl
@[simp] theorem State.updRegion_fw : (s.updRegion r g).fw = s.fw := rfl
@[simp] theorem State.updRegion_life : (s.updRegion r g).life = s.life := rfl
@[simp] theorem State.updRegion_pwrLimit : (s.updRegion r g).pwrLimit = s.pwrLimit := rfl
@[simp] theorem State.updRegion_fclk : (s.updRegion r g).fclk = s.fclk := rfl
@[simp] theorem State.updRegion_pwrSt : (s.updRegion r g).pwrSt = s.pwrSt := rfl
@[simp] theorem State.updRegion_fns : (s.updRegion r g).fns = s.fns := rfl
@[simp] theorem State.updRegion_ats : (s.updRegion r g).ats = s.ats := rfl
@[simp] theorem State.updRegion_atsPending : (s.updRegion r g).atsPending = s.atsPending := rfl
@[simp] theorem State.updRegion_cappedClk : (s.updRegion r g).cappedClk = s.cappedClk := rfl
@[simp] theorem State.updRegion_links : (s.updRegion r g).links = s.links := rfl
@[simp] theorem State.updRegion_linkUse : (s.updRegion r g).linkUse = s.linkUse := rfl
@[simp] theorem State.updRegion_answers : (s.updRegion r g).answers = s.answers := rfl
@[simp] theorem State.updRegion_commands : (s.updRegion r g).commands = s.commands := rfl
@[simp] theorem State.updRegion_replies : (s.updRegion r g).replies = s.replies := rfl
@[simp] theorem State.updRegion_msix : (s.updRegion r g).msix = s.msix := rfl
@[simp] theorem State.updRegion_fjRing : (s.updRegion r g).fjRing = s.fjRing := rfl
@[simp] theorem State.updRegion_scanout : (s.updRegion r g).scanout = s.scanout := rfl
@[simp] theorem State.updRegion_constOld : (s.updRegion r g).constOld = s.constOld := rfl
@[simp] theorem State.updRegion_ctrHeld : (s.updRegion r g).ctrHeld = s.ctrHeld := rfl
@[simp] theorem State.updRegion_transReqs : (s.updRegion r g).transReqs = s.transReqs := rfl
@[simp] theorem State.updRegion_pageReqs : (s.updRegion r g).pageReqs = s.pageReqs := rfl

end

/-! ### A facet set changed -/

section

variable (s : State) (i : Nat) (g : FSet → FSet)

@[simp] theorem State.updSet_cur : (s.updSet i g).cur = s.cur := rfl
@[simp] theorem State.updSet_agenda : (s.updSet i g).agenda = s.agenda := rfl
@[simp] theorem State.updSet_ticks : (s.updSet i g).ticks = s.ticks := rfl
@[simp] theorem State.updSet_fv : (s.updSet i g).fv = s.fv := rfl
@[simp] theorem State.updSet_clks : (s.updSet i g).clks = s.clks := rfl
@[simp] theorem State.updSet_us : (s.updSet i g).us = s.us := rfl
@[simp] theorem State.updSet_nextId : (s.updSet i g).nextId = s.nextId := rfl
@[simp] theorem State.updSet_acts : (s.updSet i g).acts = s.acts := rfl
@[simp] theorem State.updSet_frozen : (s.updSet i g).frozen = s.frozen := rfl
@[simp] theorem State.updSet_waves : (s.updSet i g).waves = s.waves := rfl
@[simp] theorem State.updSet_wgs : (s.updSet i g).wgs = s.wgs := rfl
@[simp] theorem State.updSet_groups : (s.updSet i g).groups = s.groups := rfl
@[simp] theorem State.updSet_saved : (s.updSet i g).saved = s.saved := rfl
@[simp] theorem State.updSet_ended : (s.updSet i g).ended = s.ended := rfl
@[simp] theorem State.updSet_endedWgs : (s.updSet i g).endedWgs = s.endedWgs := rfl
@[simp] theorem State.updSet_regions : (s.updSet i g).regions = s.regions := rfl
@[simp] theorem State.updSet_cores : (s.updSet i g).cores = s.cores := rfl
@[simp] theorem State.updSet_clusters : (s.updSet i g).clusters = s.clusters := rfl
@[simp] theorem State.updSet_dies : (s.updSet i g).dies = s.dies := rfl
@[simp] theorem State.updSet_mem : (s.updSet i g).mem = s.mem := rfl
@[simp] theorem State.updSet_l2 : (s.updSet i g).l2 = s.l2 := rfl
@[simp] theorem State.updSet_poison : (s.updSet i g).poison = s.poison := rfl
@[simp] theorem State.updSet_versions : (s.updSet i g).versions = s.versions := rfl
@[simp] theorem State.updSet_prisms : (s.updSet i g).prisms = s.prisms := rfl
@[simp] theorem State.updSet_presents : (s.updSet i g).presents = s.presents := rfl
@[simp] theorem State.updSet_presEn : (s.updSet i g).presEn = s.presEn := rfl
@[simp] theorem State.updSet_presGuard : (s.updSet i g).presGuard = s.presGuard := rfl
@[simp] theorem State.updSet_readouts : (s.updSet i g).readouts = s.readouts := rfl
@[simp] theorem State.updSet_copies : (s.updSet i g).copies = s.copies := rfl
@[simp] theorem State.updSet_watches : (s.updSet i g).watches = s.watches := rfl
@[simp] theorem State.updSet_deliveries : (s.updSet i g).deliveries = s.deliveries := rfl
@[simp] theorem State.updSet_colls : (s.updSet i g).colls = s.colls := rfl
@[simp] theorem State.updSet_homes : (s.updSet i g).homes = s.homes := rfl
@[simp] theorem State.updSet_homeFwd : (s.updSet i g).homeFwd = s.homeFwd := rfl
@[simp] theorem State.updSet_fw : (s.updSet i g).fw = s.fw := rfl
@[simp] theorem State.updSet_life : (s.updSet i g).life = s.life := rfl
@[simp] theorem State.updSet_pwrLimit : (s.updSet i g).pwrLimit = s.pwrLimit := rfl
@[simp] theorem State.updSet_fclk : (s.updSet i g).fclk = s.fclk := rfl
@[simp] theorem State.updSet_pwrSt : (s.updSet i g).pwrSt = s.pwrSt := rfl
@[simp] theorem State.updSet_fns : (s.updSet i g).fns = s.fns := rfl
@[simp] theorem State.updSet_ats : (s.updSet i g).ats = s.ats := rfl
@[simp] theorem State.updSet_atsPending : (s.updSet i g).atsPending = s.atsPending := rfl
@[simp] theorem State.updSet_cappedClk : (s.updSet i g).cappedClk = s.cappedClk := rfl
@[simp] theorem State.updSet_links : (s.updSet i g).links = s.links := rfl
@[simp] theorem State.updSet_linkUse : (s.updSet i g).linkUse = s.linkUse := rfl
@[simp] theorem State.updSet_answers : (s.updSet i g).answers = s.answers := rfl
@[simp] theorem State.updSet_commands : (s.updSet i g).commands = s.commands := rfl
@[simp] theorem State.updSet_replies : (s.updSet i g).replies = s.replies := rfl
@[simp] theorem State.updSet_msix : (s.updSet i g).msix = s.msix := rfl
@[simp] theorem State.updSet_fjRing : (s.updSet i g).fjRing = s.fjRing := rfl
@[simp] theorem State.updSet_scanout : (s.updSet i g).scanout = s.scanout := rfl
@[simp] theorem State.updSet_constOld : (s.updSet i g).constOld = s.constOld := rfl
@[simp] theorem State.updSet_ctrHeld : (s.updSet i g).ctrHeld = s.ctrHeld := rfl
@[simp] theorem State.updSet_transReqs : (s.updSet i g).transReqs = s.transReqs := rfl
@[simp] theorem State.updSet_pageReqs : (s.updSet i g).pageReqs = s.pageReqs := rfl

end

/-! ### A barrier written -/

section

variable (s : State) (r : BarRef) (b : Bar)

@[simp] theorem State.putBar_cur : (s.putBar r b).cur = s.cur := rfl
@[simp] theorem State.putBar_agenda : (s.putBar r b).agenda = s.agenda := rfl
@[simp] theorem State.putBar_ticks : (s.putBar r b).ticks = s.ticks := rfl
@[simp] theorem State.putBar_fv : (s.putBar r b).fv = s.fv := rfl
@[simp] theorem State.putBar_clks : (s.putBar r b).clks = s.clks := rfl
@[simp] theorem State.putBar_us : (s.putBar r b).us = s.us := rfl
@[simp] theorem State.putBar_nextId : (s.putBar r b).nextId = s.nextId := rfl
@[simp] theorem State.putBar_acts : (s.putBar r b).acts = s.acts := rfl
@[simp] theorem State.putBar_frozen : (s.putBar r b).frozen = s.frozen := rfl
@[simp] theorem State.putBar_waves : (s.putBar r b).waves = s.waves := rfl
@[simp] theorem State.putBar_groups : (s.putBar r b).groups = s.groups := rfl
@[simp] theorem State.putBar_saved : (s.putBar r b).saved = s.saved := rfl
@[simp] theorem State.putBar_ended : (s.putBar r b).ended = s.ended := rfl
@[simp] theorem State.putBar_regions : (s.putBar r b).regions = s.regions := rfl
@[simp] theorem State.putBar_cores : (s.putBar r b).cores = s.cores := rfl
@[simp] theorem State.putBar_clusters : (s.putBar r b).clusters = s.clusters := rfl
@[simp] theorem State.putBar_dies : (s.putBar r b).dies = s.dies := rfl
@[simp] theorem State.putBar_mem : (s.putBar r b).mem = s.mem := rfl
@[simp] theorem State.putBar_l2 : (s.putBar r b).l2 = s.l2 := rfl
@[simp] theorem State.putBar_poison : (s.putBar r b).poison = s.poison := rfl
@[simp] theorem State.putBar_versions : (s.putBar r b).versions = s.versions := rfl
@[simp] theorem State.putBar_sets : (s.putBar r b).sets = s.sets := rfl
@[simp] theorem State.putBar_prisms : (s.putBar r b).prisms = s.prisms := rfl
@[simp] theorem State.putBar_presents : (s.putBar r b).presents = s.presents := rfl
@[simp] theorem State.putBar_presEn : (s.putBar r b).presEn = s.presEn := rfl
@[simp] theorem State.putBar_presGuard : (s.putBar r b).presGuard = s.presGuard := rfl
@[simp] theorem State.putBar_readouts : (s.putBar r b).readouts = s.readouts := rfl
@[simp] theorem State.putBar_copies : (s.putBar r b).copies = s.copies := rfl
@[simp] theorem State.putBar_watches : (s.putBar r b).watches = s.watches := rfl
@[simp] theorem State.putBar_deliveries : (s.putBar r b).deliveries = s.deliveries := rfl
@[simp] theorem State.putBar_colls : (s.putBar r b).colls = s.colls := rfl
@[simp] theorem State.putBar_homes : (s.putBar r b).homes = s.homes := rfl
@[simp] theorem State.putBar_homeFwd : (s.putBar r b).homeFwd = s.homeFwd := rfl
@[simp] theorem State.putBar_fw : (s.putBar r b).fw = s.fw := rfl
@[simp] theorem State.putBar_life : (s.putBar r b).life = s.life := rfl
@[simp] theorem State.putBar_pwrLimit : (s.putBar r b).pwrLimit = s.pwrLimit := rfl
@[simp] theorem State.putBar_fclk : (s.putBar r b).fclk = s.fclk := rfl
@[simp] theorem State.putBar_pwrSt : (s.putBar r b).pwrSt = s.pwrSt := rfl
@[simp] theorem State.putBar_fns : (s.putBar r b).fns = s.fns := rfl
@[simp] theorem State.putBar_ats : (s.putBar r b).ats = s.ats := rfl
@[simp] theorem State.putBar_atsPending : (s.putBar r b).atsPending = s.atsPending := rfl
@[simp] theorem State.putBar_cappedClk : (s.putBar r b).cappedClk = s.cappedClk := rfl
@[simp] theorem State.putBar_links : (s.putBar r b).links = s.links := rfl
@[simp] theorem State.putBar_linkUse : (s.putBar r b).linkUse = s.linkUse := rfl
@[simp] theorem State.putBar_answers : (s.putBar r b).answers = s.answers := rfl
@[simp] theorem State.putBar_commands : (s.putBar r b).commands = s.commands := rfl
@[simp] theorem State.putBar_replies : (s.putBar r b).replies = s.replies := rfl
@[simp] theorem State.putBar_msix : (s.putBar r b).msix = s.msix := rfl
@[simp] theorem State.putBar_fjRing : (s.putBar r b).fjRing = s.fjRing := rfl
@[simp] theorem State.putBar_scanout : (s.putBar r b).scanout = s.scanout := rfl
@[simp] theorem State.putBar_constOld : (s.putBar r b).constOld = s.constOld := rfl
@[simp] theorem State.putBar_ctrHeld : (s.putBar r b).ctrHeld = s.ctrHeld := rfl
@[simp] theorem State.putBar_transReqs : (s.putBar r b).transReqs = s.transReqs := rfl
@[simp] theorem State.putBar_pageReqs : (s.putBar r b).pageReqs = s.pageReqs := rfl

end

/-! ### A gathering queue replaced -/

section

variable (s : State) (k n : Nat) (q : GQueue)

@[simp] theorem State.setQueue_cur : (s.setQueue k n q).cur = s.cur := rfl
@[simp] theorem State.setQueue_agenda : (s.setQueue k n q).agenda = s.agenda := rfl
@[simp] theorem State.setQueue_ticks : (s.setQueue k n q).ticks = s.ticks := rfl
@[simp] theorem State.setQueue_fv : (s.setQueue k n q).fv = s.fv := rfl
@[simp] theorem State.setQueue_clks : (s.setQueue k n q).clks = s.clks := rfl
@[simp] theorem State.setQueue_us : (s.setQueue k n q).us = s.us := rfl
@[simp] theorem State.setQueue_nextId : (s.setQueue k n q).nextId = s.nextId := rfl
@[simp] theorem State.setQueue_acts : (s.setQueue k n q).acts = s.acts := rfl
@[simp] theorem State.setQueue_frozen : (s.setQueue k n q).frozen = s.frozen := rfl
@[simp] theorem State.setQueue_waves : (s.setQueue k n q).waves = s.waves := rfl
@[simp] theorem State.setQueue_wgs : (s.setQueue k n q).wgs = s.wgs := rfl
@[simp] theorem State.setQueue_groups : (s.setQueue k n q).groups = s.groups := rfl
@[simp] theorem State.setQueue_saved : (s.setQueue k n q).saved = s.saved := rfl
@[simp] theorem State.setQueue_ended : (s.setQueue k n q).ended = s.ended := rfl
@[simp] theorem State.setQueue_endedWgs : (s.setQueue k n q).endedWgs = s.endedWgs := rfl
@[simp] theorem State.setQueue_regions : (s.setQueue k n q).regions = s.regions := rfl
@[simp] theorem State.setQueue_cores : (s.setQueue k n q).cores = s.cores := rfl
@[simp] theorem State.setQueue_dies : (s.setQueue k n q).dies = s.dies := rfl
@[simp] theorem State.setQueue_mem : (s.setQueue k n q).mem = s.mem := rfl
@[simp] theorem State.setQueue_l2 : (s.setQueue k n q).l2 = s.l2 := rfl
@[simp] theorem State.setQueue_poison : (s.setQueue k n q).poison = s.poison := rfl
@[simp] theorem State.setQueue_versions : (s.setQueue k n q).versions = s.versions := rfl
@[simp] theorem State.setQueue_sets : (s.setQueue k n q).sets = s.sets := rfl
@[simp] theorem State.setQueue_prisms : (s.setQueue k n q).prisms = s.prisms := rfl
@[simp] theorem State.setQueue_presents : (s.setQueue k n q).presents = s.presents := rfl
@[simp] theorem State.setQueue_presEn : (s.setQueue k n q).presEn = s.presEn := rfl
@[simp] theorem State.setQueue_presGuard : (s.setQueue k n q).presGuard = s.presGuard := rfl
@[simp] theorem State.setQueue_readouts : (s.setQueue k n q).readouts = s.readouts := rfl
@[simp] theorem State.setQueue_copies : (s.setQueue k n q).copies = s.copies := rfl
@[simp] theorem State.setQueue_watches : (s.setQueue k n q).watches = s.watches := rfl
@[simp] theorem State.setQueue_deliveries : (s.setQueue k n q).deliveries = s.deliveries := rfl
@[simp] theorem State.setQueue_colls : (s.setQueue k n q).colls = s.colls := rfl
@[simp] theorem State.setQueue_homes : (s.setQueue k n q).homes = s.homes := rfl
@[simp] theorem State.setQueue_homeFwd : (s.setQueue k n q).homeFwd = s.homeFwd := rfl
@[simp] theorem State.setQueue_fw : (s.setQueue k n q).fw = s.fw := rfl
@[simp] theorem State.setQueue_life : (s.setQueue k n q).life = s.life := rfl
@[simp] theorem State.setQueue_pwrLimit : (s.setQueue k n q).pwrLimit = s.pwrLimit := rfl
@[simp] theorem State.setQueue_fclk : (s.setQueue k n q).fclk = s.fclk := rfl
@[simp] theorem State.setQueue_pwrSt : (s.setQueue k n q).pwrSt = s.pwrSt := rfl
@[simp] theorem State.setQueue_fns : (s.setQueue k n q).fns = s.fns := rfl
@[simp] theorem State.setQueue_ats : (s.setQueue k n q).ats = s.ats := rfl
@[simp] theorem State.setQueue_atsPending : (s.setQueue k n q).atsPending = s.atsPending := rfl
@[simp] theorem State.setQueue_cappedClk : (s.setQueue k n q).cappedClk = s.cappedClk := rfl
@[simp] theorem State.setQueue_links : (s.setQueue k n q).links = s.links := rfl
@[simp] theorem State.setQueue_linkUse : (s.setQueue k n q).linkUse = s.linkUse := rfl
@[simp] theorem State.setQueue_answers : (s.setQueue k n q).answers = s.answers := rfl
@[simp] theorem State.setQueue_commands : (s.setQueue k n q).commands = s.commands := rfl
@[simp] theorem State.setQueue_replies : (s.setQueue k n q).replies = s.replies := rfl
@[simp] theorem State.setQueue_msix : (s.setQueue k n q).msix = s.msix := rfl
@[simp] theorem State.setQueue_fjRing : (s.setQueue k n q).fjRing = s.fjRing := rfl
@[simp] theorem State.setQueue_scanout : (s.setQueue k n q).scanout = s.scanout := rfl
@[simp] theorem State.setQueue_constOld : (s.setQueue k n q).constOld = s.constOld := rfl
@[simp] theorem State.setQueue_ctrHeld : (s.setQueue k n q).ctrHeld = s.ctrHeld := rfl
@[simp] theorem State.setQueue_transReqs : (s.setQueue k n q).transReqs = s.transReqs := rfl
@[simp] theorem State.setQueue_pageReqs : (s.setQueue k n q).pageReqs = s.pageReqs := rfl

end

/-! ### An event counted -/

section

variable (s : State) (r : Nat)

@[simp] theorem State.countLife_cur : (s.countLife r).cur = s.cur := rfl
@[simp] theorem State.countLife_agenda : (s.countLife r).agenda = s.agenda := rfl
@[simp] theorem State.countLife_ticks : (s.countLife r).ticks = s.ticks := rfl
@[simp] theorem State.countLife_fv : (s.countLife r).fv = s.fv := rfl
@[simp] theorem State.countLife_clks : (s.countLife r).clks = s.clks := rfl
@[simp] theorem State.countLife_us : (s.countLife r).us = s.us := rfl
@[simp] theorem State.countLife_nextId : (s.countLife r).nextId = s.nextId := rfl
@[simp] theorem State.countLife_acts : (s.countLife r).acts = s.acts := rfl
@[simp] theorem State.countLife_frozen : (s.countLife r).frozen = s.frozen := rfl
@[simp] theorem State.countLife_waves : (s.countLife r).waves = s.waves := rfl
@[simp] theorem State.countLife_wgs : (s.countLife r).wgs = s.wgs := rfl
@[simp] theorem State.countLife_groups : (s.countLife r).groups = s.groups := rfl
@[simp] theorem State.countLife_saved : (s.countLife r).saved = s.saved := rfl
@[simp] theorem State.countLife_ended : (s.countLife r).ended = s.ended := rfl
@[simp] theorem State.countLife_endedWgs : (s.countLife r).endedWgs = s.endedWgs := rfl
@[simp] theorem State.countLife_regions : (s.countLife r).regions = s.regions := rfl
@[simp] theorem State.countLife_cores : (s.countLife r).cores = s.cores := rfl
@[simp] theorem State.countLife_clusters : (s.countLife r).clusters = s.clusters := rfl
@[simp] theorem State.countLife_dies : (s.countLife r).dies = s.dies := rfl
@[simp] theorem State.countLife_mem : (s.countLife r).mem = s.mem := rfl
@[simp] theorem State.countLife_l2 : (s.countLife r).l2 = s.l2 := rfl
@[simp] theorem State.countLife_poison : (s.countLife r).poison = s.poison := rfl
@[simp] theorem State.countLife_versions : (s.countLife r).versions = s.versions := rfl
@[simp] theorem State.countLife_sets : (s.countLife r).sets = s.sets := rfl
@[simp] theorem State.countLife_prisms : (s.countLife r).prisms = s.prisms := rfl
@[simp] theorem State.countLife_presents : (s.countLife r).presents = s.presents := rfl
@[simp] theorem State.countLife_presEn : (s.countLife r).presEn = s.presEn := rfl
@[simp] theorem State.countLife_presGuard : (s.countLife r).presGuard = s.presGuard := rfl
@[simp] theorem State.countLife_readouts : (s.countLife r).readouts = s.readouts := rfl
@[simp] theorem State.countLife_copies : (s.countLife r).copies = s.copies := rfl
@[simp] theorem State.countLife_watches : (s.countLife r).watches = s.watches := rfl
@[simp] theorem State.countLife_deliveries : (s.countLife r).deliveries = s.deliveries := rfl
@[simp] theorem State.countLife_colls : (s.countLife r).colls = s.colls := rfl
@[simp] theorem State.countLife_homes : (s.countLife r).homes = s.homes := rfl
@[simp] theorem State.countLife_homeFwd : (s.countLife r).homeFwd = s.homeFwd := rfl
@[simp] theorem State.countLife_fw : (s.countLife r).fw = s.fw := rfl
@[simp] theorem State.countLife_pwrLimit : (s.countLife r).pwrLimit = s.pwrLimit := rfl
@[simp] theorem State.countLife_fclk : (s.countLife r).fclk = s.fclk := rfl
@[simp] theorem State.countLife_pwrSt : (s.countLife r).pwrSt = s.pwrSt := rfl
@[simp] theorem State.countLife_fns : (s.countLife r).fns = s.fns := rfl
@[simp] theorem State.countLife_ats : (s.countLife r).ats = s.ats := rfl
@[simp] theorem State.countLife_atsPending : (s.countLife r).atsPending = s.atsPending := rfl
@[simp] theorem State.countLife_cappedClk : (s.countLife r).cappedClk = s.cappedClk := rfl
@[simp] theorem State.countLife_links : (s.countLife r).links = s.links := rfl
@[simp] theorem State.countLife_linkUse : (s.countLife r).linkUse = s.linkUse := rfl
@[simp] theorem State.countLife_answers : (s.countLife r).answers = s.answers := rfl
@[simp] theorem State.countLife_commands : (s.countLife r).commands = s.commands := rfl
@[simp] theorem State.countLife_replies : (s.countLife r).replies = s.replies := rfl
@[simp] theorem State.countLife_msix : (s.countLife r).msix = s.msix := rfl
@[simp] theorem State.countLife_fjRing : (s.countLife r).fjRing = s.fjRing := rfl
@[simp] theorem State.countLife_scanout : (s.countLife r).scanout = s.scanout := rfl
@[simp] theorem State.countLife_constOld : (s.countLife r).constOld = s.constOld := rfl
@[simp] theorem State.countLife_ctrHeld : (s.countLife r).ctrHeld = s.ctrHeld := rfl
@[simp] theorem State.countLife_transReqs : (s.countLife r).transReqs = s.transReqs := rfl
@[simp] theorem State.countLife_pageReqs : (s.countLife r).pageReqs = s.pageReqs := rfl

end

/-! ### A signal sent -/

section

variable (s : State) (n v : Nat)

@[simp] theorem State.signal_cur : (s.signal n v).cur = s.cur := rfl
@[simp] theorem State.signal_agenda : (s.signal n v).agenda = s.agenda := rfl
@[simp] theorem State.signal_ticks : (s.signal n v).ticks = s.ticks := rfl
@[simp] theorem State.signal_fv : (s.signal n v).fv = s.fv := rfl
@[simp] theorem State.signal_clks : (s.signal n v).clks = s.clks := rfl
@[simp] theorem State.signal_us : (s.signal n v).us = s.us := rfl
@[simp] theorem State.signal_nextId : (s.signal n v).nextId = s.nextId := rfl
@[simp] theorem State.signal_acts : (s.signal n v).acts = s.acts := rfl
@[simp] theorem State.signal_frozen : (s.signal n v).frozen = s.frozen := rfl
@[simp] theorem State.signal_waves : (s.signal n v).waves = s.waves := rfl
@[simp] theorem State.signal_wgs : (s.signal n v).wgs = s.wgs := rfl
@[simp] theorem State.signal_groups : (s.signal n v).groups = s.groups := rfl
@[simp] theorem State.signal_saved : (s.signal n v).saved = s.saved := rfl
@[simp] theorem State.signal_ended : (s.signal n v).ended = s.ended := rfl
@[simp] theorem State.signal_endedWgs : (s.signal n v).endedWgs = s.endedWgs := rfl
@[simp] theorem State.signal_regions : (s.signal n v).regions = s.regions := rfl
@[simp] theorem State.signal_cores : (s.signal n v).cores = s.cores := rfl
@[simp] theorem State.signal_clusters : (s.signal n v).clusters = s.clusters := rfl
@[simp] theorem State.signal_dies : (s.signal n v).dies = s.dies := rfl
@[simp] theorem State.signal_mem : (s.signal n v).mem = s.mem := rfl
@[simp] theorem State.signal_l2 : (s.signal n v).l2 = s.l2 := rfl
@[simp] theorem State.signal_poison : (s.signal n v).poison = s.poison := rfl
@[simp] theorem State.signal_versions : (s.signal n v).versions = s.versions := rfl
@[simp] theorem State.signal_sets : (s.signal n v).sets = s.sets := rfl
@[simp] theorem State.signal_prisms : (s.signal n v).prisms = s.prisms := rfl
@[simp] theorem State.signal_presents : (s.signal n v).presents = s.presents := rfl
@[simp] theorem State.signal_presEn : (s.signal n v).presEn = s.presEn := rfl
@[simp] theorem State.signal_presGuard : (s.signal n v).presGuard = s.presGuard := rfl
@[simp] theorem State.signal_readouts : (s.signal n v).readouts = s.readouts := rfl
@[simp] theorem State.signal_copies : (s.signal n v).copies = s.copies := rfl
@[simp] theorem State.signal_watches : (s.signal n v).watches = s.watches := rfl
@[simp] theorem State.signal_deliveries : (s.signal n v).deliveries = s.deliveries := rfl
@[simp] theorem State.signal_colls : (s.signal n v).colls = s.colls := rfl
@[simp] theorem State.signal_homes : (s.signal n v).homes = s.homes := rfl
@[simp] theorem State.signal_homeFwd : (s.signal n v).homeFwd = s.homeFwd := rfl
@[simp] theorem State.signal_fw : (s.signal n v).fw = s.fw := rfl
@[simp] theorem State.signal_life : (s.signal n v).life = s.life := rfl
@[simp] theorem State.signal_pwrLimit : (s.signal n v).pwrLimit = s.pwrLimit := rfl
@[simp] theorem State.signal_fclk : (s.signal n v).fclk = s.fclk := rfl
@[simp] theorem State.signal_pwrSt : (s.signal n v).pwrSt = s.pwrSt := rfl
@[simp] theorem State.signal_fns : (s.signal n v).fns = s.fns := rfl
@[simp] theorem State.signal_ats : (s.signal n v).ats = s.ats := rfl
@[simp] theorem State.signal_atsPending : (s.signal n v).atsPending = s.atsPending := rfl
@[simp] theorem State.signal_cappedClk : (s.signal n v).cappedClk = s.cappedClk := rfl
@[simp] theorem State.signal_links : (s.signal n v).links = s.links := rfl
@[simp] theorem State.signal_linkUse : (s.signal n v).linkUse = s.linkUse := rfl
@[simp] theorem State.signal_answers : (s.signal n v).answers = s.answers := rfl
@[simp] theorem State.signal_commands : (s.signal n v).commands = s.commands := rfl
@[simp] theorem State.signal_replies : (s.signal n v).replies = s.replies := rfl
@[simp] theorem State.signal_fjRing : (s.signal n v).fjRing = s.fjRing := rfl
@[simp] theorem State.signal_scanout : (s.signal n v).scanout = s.scanout := rfl
@[simp] theorem State.signal_constOld : (s.signal n v).constOld = s.constOld := rfl
@[simp] theorem State.signal_ctrHeld : (s.signal n v).ctrHeld = s.ctrHeld := rfl
@[simp] theorem State.signal_transReqs : (s.signal n v).transReqs = s.transReqs := rfl
@[simp] theorem State.signal_pageReqs : (s.signal n v).pageReqs = s.pageReqs := rfl

end

/-! ### A thread parked -/

section

variable (t : Thread) (pc : DWord) (f : Flt) (n : Nat)

@[simp] theorem Thread.park_v : (t.park pc f n).v = t.v := rfl
@[simp] theorem Thread.park_preds : (t.park pc f n).preds = t.preds := rfl
@[simp] theorem Thread.park_stack : (t.park pc f n).stack = t.stack := rfl
@[simp] theorem Thread.park_spillb : (t.park pc f n).spillb = t.spillb := rfl
@[simp] theorem Thread.park_spilll : (t.park pc f n).spilll = t.spilll := rfl
@[simp] theorem Thread.park_spillp : (t.park pc f n).spillp = t.spillp := rfl
@[simp] theorem Thread.park_spl : (t.park pc f n).spl = t.spl := rfl
@[simp] theorem Thread.park_lav : (t.park pc f n).lav = t.lav := rfl
@[simp] theorem Thread.park_sdep : (t.park pc f n).sdep = t.sdep := rfl
@[simp] theorem Thread.park_fac : (t.park pc f n).fac = t.fac := rfl
@[simp] theorem Thread.park_epc : (t.park pc f n).epc = t.epc := rfl
@[simp] theorem Thread.park_ecause : (t.park pc f n).ecause = t.ecause := rfl
@[simp] theorem Thread.park_mark : (t.park pc f n).mark = t.mark := rfl
@[simp] theorem Thread.park_cychi : (t.park pc f n).cychi = t.cychi := rfl
@[simp] theorem Thread.park_accs : (t.park pc f n).accs = t.accs := rfl
@[simp] theorem Thread.park_elem : (t.park pc f n).elem = t.elem := rfl
@[simp] theorem Thread.park_clsAt : (t.park pc f n).clsAt = t.clsAt := rfl
@[simp] theorem Thread.park_popped : (t.park pc f n).popped = t.popped := rfl
@[simp] theorem Thread.park_fenced : (t.park pc f n).fenced = t.fenced := rfl

end

/-! ### A thread delivered -/

section

variable (t : Thread) (e : DWord) (a b : BitVec 8)

@[simp] theorem Thread.deliver_v : (t.deliver e a b).v = t.v := rfl
@[simp] theorem Thread.deliver_preds : (t.deliver e a b).preds = t.preds := rfl
@[simp] theorem Thread.deliver_stack : (t.deliver e a b).stack = t.stack := rfl
@[simp] theorem Thread.deliver_spillb : (t.deliver e a b).spillb = t.spillb := rfl
@[simp] theorem Thread.deliver_spilll : (t.deliver e a b).spilll = t.spilll := rfl
@[simp] theorem Thread.deliver_spillp : (t.deliver e a b).spillp = t.spillp := rfl
@[simp] theorem Thread.deliver_spl : (t.deliver e a b).spl = t.spl := rfl
@[simp] theorem Thread.deliver_lav : (t.deliver e a b).lav = t.lav := rfl
@[simp] theorem Thread.deliver_sdep : (t.deliver e a b).sdep = t.sdep := rfl
@[simp] theorem Thread.deliver_fac : (t.deliver e a b).fac = t.fac := rfl
@[simp] theorem Thread.deliver_cychi : (t.deliver e a b).cychi = t.cychi := rfl
@[simp] theorem Thread.deliver_resv : (t.deliver e a b).resv = t.resv := rfl
@[simp] theorem Thread.deliver_accs : (t.deliver e a b).accs = t.accs := rfl
@[simp] theorem Thread.deliver_elem : (t.deliver e a b).elem = t.elem := rfl
@[simp] theorem Thread.deliver_clsAt : (t.deliver e a b).clsAt = t.clsAt := rfl
@[simp] theorem Thread.deliver_popped : (t.deliver e a b).popped = t.popped := rfl
@[simp] theorem Thread.deliver_fenced : (t.deliver e a b).fenced = t.fenced := rfl

end

/-! ### A return from a handler -/

section

variable (t : Thread) 

@[simp] theorem Thread.eret_st : (t.eret).st = t.st := rfl
@[simp] theorem Thread.eret_v : (t.eret).v = t.v := rfl
@[simp] theorem Thread.eret_preds : (t.eret).preds = t.preds := rfl
@[simp] theorem Thread.eret_stack : (t.eret).stack = t.stack := rfl
@[simp] theorem Thread.eret_spillb : (t.eret).spillb = t.spillb := rfl
@[simp] theorem Thread.eret_spilll : (t.eret).spilll = t.spilll := rfl
@[simp] theorem Thread.eret_spillp : (t.eret).spillp = t.spillp := rfl
@[simp] theorem Thread.eret_spl : (t.eret).spl = t.spl := rfl
@[simp] theorem Thread.eret_lav : (t.eret).lav = t.lav := rfl
@[simp] theorem Thread.eret_sdep : (t.eret).sdep = t.sdep := rfl
@[simp] theorem Thread.eret_fac : (t.eret).fac = t.fac := rfl
@[simp] theorem Thread.eret_epc : (t.eret).epc = t.epc := rfl
@[simp] theorem Thread.eret_ecause : (t.eret).ecause = t.ecause := rfl
@[simp] theorem Thread.eret_cychi : (t.eret).cychi = t.cychi := rfl
@[simp] theorem Thread.eret_resv : (t.eret).resv = t.resv := rfl
@[simp] theorem Thread.eret_accs : (t.eret).accs = t.accs := rfl
@[simp] theorem Thread.eret_elem : (t.eret).elem = t.elem := rfl
@[simp] theorem Thread.eret_clsAt : (t.eret).clsAt = t.clsAt := rfl
@[simp] theorem Thread.eret_popped : (t.eret).popped = t.popped := rfl
@[simp] theorem Thread.eret_fenced : (t.eret).fenced = t.fenced := rfl

end

/-! ### A thread that goes on -/

section

variable (t : Thread) (pc : DWord)

@[simp] theorem Thread.advance_v : (t.advance pc).v = t.v := rfl
@[simp] theorem Thread.advance_preds : (t.advance pc).preds = t.preds := rfl
@[simp] theorem Thread.advance_stack : (t.advance pc).stack = t.stack := rfl
@[simp] theorem Thread.advance_spillb : (t.advance pc).spillb = t.spillb := rfl
@[simp] theorem Thread.advance_spilll : (t.advance pc).spilll = t.spilll := rfl
@[simp] theorem Thread.advance_spillp : (t.advance pc).spillp = t.spillp := rfl
@[simp] theorem Thread.advance_spl : (t.advance pc).spl = t.spl := rfl
@[simp] theorem Thread.advance_lav : (t.advance pc).lav = t.lav := rfl
@[simp] theorem Thread.advance_sdep : (t.advance pc).sdep = t.sdep := rfl
@[simp] theorem Thread.advance_fac : (t.advance pc).fac = t.fac := rfl
@[simp] theorem Thread.advance_epc : (t.advance pc).epc = t.epc := rfl
@[simp] theorem Thread.advance_ecause : (t.advance pc).ecause = t.ecause := rfl
@[simp] theorem Thread.advance_mark : (t.advance pc).mark = t.mark := rfl
@[simp] theorem Thread.advance_cychi : (t.advance pc).cychi = t.cychi := rfl
@[simp] theorem Thread.advance_resv : (t.advance pc).resv = t.resv := rfl
@[simp] theorem Thread.advance_elem : (t.advance pc).elem = t.elem := rfl
@[simp] theorem Thread.advance_clsAt : (t.advance pc).clsAt = t.clsAt := rfl
@[simp] theorem Thread.advance_fenced : (t.advance pc).fenced = t.fenced := rfl

end

/-! ### A thread that stands again -/

section

variable (t : Thread) (pc : DWord) (n : Nat)

@[simp] theorem Thread.undo_st : (t.undo pc n).st = t.st := rfl
@[simp] theorem Thread.undo_v : (t.undo pc n).v = t.v := rfl
@[simp] theorem Thread.undo_preds : (t.undo pc n).preds = t.preds := rfl
@[simp] theorem Thread.undo_stack : (t.undo pc n).stack = t.stack := rfl
@[simp] theorem Thread.undo_spillb : (t.undo pc n).spillb = t.spillb := rfl
@[simp] theorem Thread.undo_spilll : (t.undo pc n).spilll = t.spilll := rfl
@[simp] theorem Thread.undo_spillp : (t.undo pc n).spillp = t.spillp := rfl
@[simp] theorem Thread.undo_spl : (t.undo pc n).spl = t.spl := rfl
@[simp] theorem Thread.undo_lav : (t.undo pc n).lav = t.lav := rfl
@[simp] theorem Thread.undo_sdep : (t.undo pc n).sdep = t.sdep := rfl
@[simp] theorem Thread.undo_fac : (t.undo pc n).fac = t.fac := rfl
@[simp] theorem Thread.undo_epc : (t.undo pc n).epc = t.epc := rfl
@[simp] theorem Thread.undo_ecause : (t.undo pc n).ecause = t.ecause := rfl
@[simp] theorem Thread.undo_mark : (t.undo pc n).mark = t.mark := rfl
@[simp] theorem Thread.undo_cychi : (t.undo pc n).cychi = t.cychi := rfl
@[simp] theorem Thread.undo_resv : (t.undo pc n).resv = t.resv := rfl
@[simp] theorem Thread.undo_elem : (t.undo pc n).elem = t.elem := rfl
@[simp] theorem Thread.undo_clsAt : (t.undo pc n).clsAt = t.clsAt := rfl
@[simp] theorem Thread.undo_popped : (t.undo pc n).popped = t.popped := rfl
@[simp] theorem Thread.undo_fenced : (t.undo pc n).fenced = t.fenced := rfl

end

/-! ### A pending access changed -/

section

variable (t : Thread) (n : Nat) (g : Acc → Option Acc)

@[simp] theorem Thread.setAcc_st : (t.setAcc n g).st = t.st := rfl
@[simp] theorem Thread.setAcc_pc : (t.setAcc n g).pc = t.pc := rfl
@[simp] theorem Thread.setAcc_v : (t.setAcc n g).v = t.v := rfl
@[simp] theorem Thread.setAcc_preds : (t.setAcc n g).preds = t.preds := rfl
@[simp] theorem Thread.setAcc_stack : (t.setAcc n g).stack = t.stack := rfl
@[simp] theorem Thread.setAcc_spillb : (t.setAcc n g).spillb = t.spillb := rfl
@[simp] theorem Thread.setAcc_spilll : (t.setAcc n g).spilll = t.spilll := rfl
@[simp] theorem Thread.setAcc_spillp : (t.setAcc n g).spillp = t.spillp := rfl
@[simp] theorem Thread.setAcc_spl : (t.setAcc n g).spl = t.spl := rfl
@[simp] theorem Thread.setAcc_lav : (t.setAcc n g).lav = t.lav := rfl
@[simp] theorem Thread.setAcc_sdep : (t.setAcc n g).sdep = t.sdep := rfl
@[simp] theorem Thread.setAcc_fac : (t.setAcc n g).fac = t.fac := rfl
@[simp] theorem Thread.setAcc_epc : (t.setAcc n g).epc = t.epc := rfl
@[simp] theorem Thread.setAcc_ecause : (t.setAcc n g).ecause = t.ecause := rfl
@[simp] theorem Thread.setAcc_mark : (t.setAcc n g).mark = t.mark := rfl
@[simp] theorem Thread.setAcc_cychi : (t.setAcc n g).cychi = t.cychi := rfl
@[simp] theorem Thread.setAcc_resv : (t.setAcc n g).resv = t.resv := rfl
@[simp] theorem Thread.setAcc_elem : (t.setAcc n g).elem = t.elem := rfl
@[simp] theorem Thread.setAcc_clsAt : (t.setAcc n g).clsAt = t.clsAt := rfl
@[simp] theorem Thread.setAcc_popped : (t.setAcc n g).popped = t.popped := rfl
@[simp] theorem Thread.setAcc_fenced : (t.setAcc n g).fenced = t.fenced := rfl

end

/-! ### One thread of a wave changed -/

section

variable (x : Wave) (l : Nat) (g : Thread → Thread)

@[simp] theorem Wave.updThread_rgn : (x.updThread l g).rgn = x.rgn := rfl
@[simp] theorem Wave.updThread_wg : (x.updThread l g).wg = x.wg := rfl
@[simp] theorem Wave.updThread_wave : (x.updThread l g).wave = x.wave := rfl
@[simp] theorem Wave.updThread_kind : (x.updThread l g).kind = x.kind := rfl
@[simp] theorem Wave.updThread_entry : (x.updThread l g).entry = x.entry := rfl
@[simp] theorem Wave.updThread_alloc : (x.updThread l g).alloc = x.alloc := rfl
@[simp] theorem Wave.updThread_row : (x.updThread l g).row = x.row := rfl
@[simp] theorem Wave.updThread_s : (x.updThread l g).s = x.s := rfl
@[simp] theorem Wave.updThread_k : (x.updThread l g).k = x.k := rfl
@[simp] theorem Wave.updThread_turn : (x.updThread l g).turn = x.turn := rfl
@[simp] theorem Wave.updThread_fair : (x.updThread l g).fair = x.fair := rfl
@[simp] theorem Wave.updThread_fairt : (x.updThread l g).fairt = x.fairt := rfl
@[simp] theorem Wave.updThread_limit : (x.updThread l g).limit = x.limit := rfl
@[simp] theorem Wave.updThread_retain : (x.updThread l g).retain = x.retain := rfl
@[simp] theorem Wave.updThread_joins : (x.updThread l g).joins = x.joins := rfl
@[simp] theorem Wave.updThread_syncs : (x.updThread l g).syncs = x.syncs := rfl
@[simp] theorem Wave.updThread_arrs : (x.updThread l g).arrs = x.arrs := rfl
@[simp] theorem Wave.updThread_feedp : (x.updThread l g).feedp = x.feedp := rfl
@[simp] theorem Wave.updThread_dqPos : (x.updThread l g).dqPos = x.dqPos := rfl
@[simp] theorem Wave.updThread_tile : (x.updThread l g).tile = x.tile := rfl
@[simp] theorem Wave.updThread_src : (x.updThread l g).src = x.src := rfl
@[simp] theorem Wave.updThread_charged : (x.updThread l g).charged = x.charged := rfl
@[simp] theorem Wave.updThread_fetched : (x.updThread l g).fetched = x.fetched := rfl

end

/-! ### Reads after writes -/

@[simp] theorem State.core_setCore (s : State) (g : Nat) (c : Core) : (s.setCore g c).core g = c :=
  NMap.get_ins_same _ _ _ _

theorem State.core_setCore_ne (s : State) {g j : Nat} (c : Core) (h : j ≠ g) : (s.setCore g c).core j = s.core j :=
  NMap.get_ins_ne _ _ _ h

@[simp] theorem State.cluster_setCluster (s : State) (k : Nat) (c : Cluster) : (s.setCluster k c).cluster k = c :=
  NMap.get_ins_same _ _ _ _

theorem State.cluster_setCluster_ne (s : State) {k j : Nat} (c : Cluster) (h : j ≠ k) :
    (s.setCluster k c).cluster j = s.cluster j :=
  NMap.get_ins_ne _ _ _ h

@[simp] theorem State.setWave_find (s : State) (w : Nat) (x : Wave) : (s.setWave w x).waves.find w = some x :=
  NMap.find_ins_same _ _ _

theorem State.setWave_find_ne (s : State) {w j : Nat} (x : Wave) (h : j ≠ w) :
    (s.setWave w x).waves.find j = s.waves.find j :=
  NMap.find_ins_ne _ _ h

@[simp] theorem State.updThread_find (s : State) (w l : Nat) (g : Thread → Thread) :
    (s.updThread w l g).waves.find w = (s.waves.find w).map fun x => x.updThread l g :=
  NMap.find_upd_same _ _ _

theorem State.updThread_find_ne (s : State) {w j : Nat} (l : Nat) (g : Thread → Thread) (h : j ≠ w) :
    (s.updThread w l g).waves.find j = s.waves.find j :=
  NMap.find_upd_ne _ _ h

@[simp] theorem State.putDst_find (s : State) (w l : Nat) (o : Operand) (ws : List Word) :
    (s.putDst w l o ws).waves.find w = (s.waves.find w).map fun x => x.putDst l o ws :=
  NMap.find_upd_same _ _ _

theorem State.putDst_find_ne (s : State) {w j : Nat} (l : Nat) (o : Operand) (ws : List Word) (h : j ≠ w) :
    (s.putDst w l o ws).waves.find j = s.waves.find j :=
  NMap.find_upd_ne _ _ h

/-- The end of an instruction in which no fault was taken: the turn is settled, and the fault domains act at once again. -/
theorem State.settleTurn_calm {s : State} (c : Ctx) (h : s.acts = some []) :
    s.settleTurn c = { s with waves := s.waves.upd c.w fun x => x.settleTurn c.path, acts := none } := by
  simp [State.settleTurn, State.actAll, h]

theorem State.settleTurn_find {s : State} (c : Ctx) (h : s.acts = some []) :
    (s.settleTurn c).waves.find c.w = (s.waves.find c.w).map fun x => x.settleTurn c.path := by
  rw [State.settleTurn_calm c h]
  exact NMap.find_upd_same _ _ _

theorem State.settleTurn_find_ne {s : State} (c : Ctx) {j : Nat} (h : s.acts = some []) (hj : j ≠ c.w) :
    (s.settleTurn c).waves.find j = s.waves.find j := by
  rw [State.settleTurn_calm c h]
  exact NMap.find_upd_ne _ _ hj

@[simp] theorem State.updRegion_find (s : State) (r : Nat) (g : Region → Region) :
    (s.updRegion r g).regions.find r = (s.regions.find r).map g :=
  NMap.find_upd_same _ _ _

theorem State.updRegion_find_ne (s : State) {r j : Nat} (g : Region → Region) (h : j ≠ r) :
    (s.updRegion r g).regions.find j = s.regions.find j :=
  NMap.find_upd_ne _ _ h

@[simp] theorem State.region?_setWave (s : State) (w : Nat) (x : Wave) (r : Nat) :
    (s.setWave w x).region? r = s.region? r := rfl

@[simp] theorem State.region?_updThread (s : State) (w l : Nat) (g : Thread → Thread) (r : Nat) :
    (s.updThread w l g).region? r = s.region? r := rfl

@[simp] theorem State.core_updThread (s : State) (w l : Nat) (g : Thread → Thread) (n : Nat) :
    (s.updThread w l g).core n = s.core n := rfl

@[simp] theorem State.core_setWave (s : State) (w : Nat) (x : Wave) (n : Nat) : (s.setWave w x).core n = s.core n := rfl

/-- The thread changed, as it is read back. -/
@[simp] theorem State.thread?_updThread (s : State) (w l : Nat) (g : Thread → Thread) :
    (s.updThread w l g).thread? w l = (s.thread? w l).map g := by
  unfold State.thread?
  rw [State.updThread_find]
  cases s.waves.find w with
  | none => rfl
  | some x => simp [Wave.updThread]

/-- Other lanes of the wave are as they were. -/
theorem State.thread?_updThread_lane (s : State) (w : Nat) {l j : Nat} (g : Thread → Thread) (h : j ≠ l) :
    (s.updThread w l g).thread? w j = s.thread? w j := by
  unfold State.thread?
  rw [State.updThread_find]
  cases s.waves.find w with
  | none => rfl
  | some x => simp [Wave.updThread, Ne.symm h]

theorem State.thread?_updThread_wave (s : State) {w v : Nat} (l j : Nat) (g : Thread → Thread) (h : v ≠ w) :
    (s.updThread w l g).thread? v j = s.thread? v j := by
  unfold State.thread?
  rw [State.updThread_find_ne s l g h]

end Sys2Proof.Machine
end

