-- ==== Sys2Proof/Laws/Memory.lean ====
section
/-! SUPPORT. Physical memory: a read after a write, and that every memory operation keeps the canonical form. -/

namespace Sys2Proof.Machine

open Sys2Proof

/-! ### Bytes -/

/-- The bytes just written are read back, and every other byte is as it was. -/
theorem putBytes_get (bs : List Byte) (m : List Host.Cell) (key j : Nat) :
    NMap.get 0 (putBytes m key bs) j =
      if key ≤ j ∧ j < key + bs.length then bs.getD (j - key) 0 else NMap.get 0 m j := by
  induction bs generalizing m key with
  | nil => simp [putBytes]
  | cons b bs ih =>
    rw [putBytes, ih, NMap.get_put]
    simp only [List.length_cons]
    by_cases h1 : key + 1 ≤ j ∧ j < key + 1 + bs.length
    · rw [if_pos h1, if_pos (by omega)]
      obtain ⟨i, rfl⟩ : ∃ i, j = key + 1 + i := ⟨j - key - 1, by omega⟩
      have e1 : key + 1 + i - (key + 1) = i := by omega
      have e2 : key + 1 + i - key = i + 1 := by omega
      rw [e1, e2]; rfl
    · rw [if_neg h1]
      by_cases h2 : j = key
      · subst h2
        rw [if_pos rfl, if_pos (by omega)]
        simp
      · rw [if_neg h2, if_neg (by omega)]

theorem putBytes_outside (bs : List Byte) (m : List Host.Cell) (key j : Nat) (h : j < key ∨ key + bs.length ≤ j) :
    NMap.get 0 (putBytes m key bs) j = NMap.get 0 m j := by
  rw [putBytes_get, if_neg (by omega)]

theorem putBytes_inside (bs : List Byte) (m : List Host.Cell) (key i : Nat) (h : i < bs.length) :
    NMap.get 0 (putBytes m key bs) (key + i) = bs.getD i 0 := by
  rw [putBytes_get, if_pos (by omega), Nat.add_sub_cancel_left]

/-- The same of a window. -/
theorem winPut_eq_putBytes (m : NMap Byte) (off : Nat) (bs : List Byte) : winPut m off bs = putBytes m off bs := by
  induction bs generalizing m off with
  | nil => rfl
  | cons b bs ih => exact ih _ _

theorem winPut_outside (bs : List Byte) (m : NMap Byte) (off j : Nat) (h : j < off ∨ off + bs.length ≤ j) :
    NMap.get 0 (winPut m off bs) j = NMap.get 0 m j := by
  rw [winPut_eq_putBytes, putBytes_outside bs m off j h]

theorem winPut_inside (bs : List Byte) (m : NMap Byte) (off i : Nat) (h : i < bs.length) :
    NMap.get 0 (winPut m off bs) (off + i) = bs.getD i 0 := by
  rw [winPut_eq_putBytes, putBytes_inside bs m off i h]

theorem winBytes_winPut (bs : List Byte) (m : NMap Byte) (off : Nat) :
    winBytes (winPut m off bs) off bs.length = bs := by
  apply List.ext_getElem
  · simp [winBytes]
  · intro i h1 h2
    simp only [winBytes, List.getElem_map, List.getElem_range]
    rw [winPut_inside bs m off i h2]
    simp [h2]

/-! ### The canonical form -/

theorem putBytes_wf (bs : List Byte) {m : List Host.Cell} (key : Nat) (h : Memory.wf m = true) :
    Memory.wf (putBytes m key bs) = true := by
  induction bs generalizing m key with
  | nil => exact h
  | cons b bs ih => exact ih _ (NMap.canonical_put key b h)

/-- What a fold keeps, where each of its steps keeps it. -/
theorem foldl_keeps {α σ : Type} (P : σ → Prop) (f : σ → α → σ) (hf : ∀ s a, P s → P (f s a)) (l : List α) {s : σ}
    (h : P s) : P (l.foldl f s) := by
  induction l generalizing s with
  | nil => exact h
  | cons a l ih => exact ih (hf s a h)

/-- What does not change through a fold, where no step changes it. -/
theorem foldl_same {α σ τ : Type} (p : σ → τ) (f : σ → α → σ) (hf : ∀ s a, p (f s a) = p s) (l : List α) (s : σ) :
    p (l.foldl f s) = p s := by
  induction l generalizing s with
  | nil => rfl
  | cons a l ih => rw [List.foldl_cons, ih, hf]

@[simp] theorem State.clearResvs_mem (s : State) (pt : ResvAt) (key n : Nat) (b : Option (Nat × Nat)) :
    (s.clearResvs pt key n b).mem = s.mem :=
  foldl_same State.mem (fun (s : State) g => s.clearResv pt g b) (fun _ _ => rfl) _ s

@[simp] theorem State.fresh_mem (s : State) : s.fresh.2.mem = s.mem := rfl
@[simp] theorem State.dropCopy_mem (s : State) (g sec : Nat) : (s.dropCopy g sec).mem = s.mem := rfl

@[simp] theorem State.addPoison_mem (s : State) (key : Nat) : (s.addPoison key).mem = s.mem := by
  unfold State.addPoison
  split
  · rfl
  · dsimp only; split <;> rfl

theorem State.makeWay_mem {s t : State} {line : Nat} (h : s.makeWay line = some t) : t.mem = s.mem := by
  unfold State.makeWay at h
  dsimp only at h
  split at h
  · cases h; rfl
  · split at h
    · cases h
    · cases h; rfl

/-- A sector is read or written in L2: what memory holds of it is as it was. -/
@[simp] theorem State.touch_mem (s : State) (sec : Nat) (wr : Bool) : (s.touch sec wr).mem = s.mem := by
  unfold State.touch
  split
  · rfl
  · split
    · rfl
    · split
      · rename_i s1 h; exact (State.makeWay_mem h : s1.mem = s.mem)
      · rfl

theorem State.promote_wf {s : State} (key : Nat) (h : Memory.wf s.mem = true) :
    Memory.wf (s.promote key).mem = true := by
  unfold State.promote
  split
  · split
    · exact foldl_keeps (fun s : State => Memory.wf s.mem = true) _ (fun s v hs => by rw [State.touch_mem]; exact putBytes_wf _ _ hs) _ h
    · exact h
  · exact h

theorem State.atHome_wf {s : State} (key n : Nat) (h : Memory.wf s.mem = true) : Memory.wf (s.atHome key n).mem = true :=
  foldl_keeps (fun s : State => Memory.wf s.mem = true) _ (fun s i hs => by
    rw [State.touch_mem]; exact State.promote_wf _ hs) _ h

theorem State.makeVersion_mem {s t : State} {i f sec : Nat} (h : s.makeVersion i f sec = some t) : t.mem = s.mem := by
  unfold State.makeVersion at h
  split at h
  · cases h; rfl
  · dsimp only at h
    split at h
    · split at h
      · rename_i s1 h1
        cases h
        have h2 : s1.mem = s.mem := by
          split at h1
          · cases h1; rfl
          · exact State.makeWay_mem h1
        exact (State.touch_mem s1 _ _).trans h2
      · split at h
        · cases h; rfl
        · cases h
    · split at h
      · cases h; rfl
      · cases h

@[simp] theorem State.noteConst_mem (s : State) (key n : Nat) (b : Option (Nat × Nat)) : (s.noteConst key n b).mem = s.mem := by
  unfold State.noteConst
  dsimp only
  split <;> rfl

theorem State.homeWrite1_wf {s t : State} {tag : Option (BitVec 5)} {b : Option (Nat × Nat)} {key : Nat}
    {bs : List Byte} (h : s.homeWrite1 tag b key bs = some t) (hw : Memory.wf s.mem = true) :
    Memory.wf t.mem = true := by
  unfold State.homeWrite1 at h
  split at h
  · rw [Option.map_eq_some_iff] at h
    obtain ⟨s1, h1, rfl⟩ := h
    rw [State.clearResvs_mem]
    exact State.makeVersion_mem h1 ▸ hw
  · cases h
    rw [State.clearResvs_mem, State.healed_mem]
    refine putBytes_wf bs key ?_
    rw [State.touch_mem]
    exact State.promote_wf key (by rw [State.noteConst_mem]; exact hw)

/-- The memory of the state a write of several pieces left. -/
def exceptState : Except (Nat × State) State → State
  | .ok s => s
  | .error e => e.2

theorem State.homeWrite_keeps (s : State) (tag : Option (BitVec 5)) (b : Option (Nat × Nat)) (key : Nat)
    (bs : List Byte) (hw : Memory.wf s.mem = true) :
    Memory.wf (exceptState (s.homeWrite tag b key bs)).mem = true := by
  unfold State.homeWrite
  refine foldl_keeps (fun r => Memory.wf (exceptState r).mem = true) _ ?_ _ hw
  intro r p hr
  cases r with
  | error e => exact hr
  | ok s1 =>
    dsimp only
    cases h1 : s1.homeWrite1 tag b p.1 ((bs.drop (p.1 - key)).take p.2) with
    | none => exact hr
    | some t => exact State.homeWrite1_wf h1 hr

/-- A write at the home keeps the canonical form. -/
theorem State.homeWrite_ok_wf {s t : State} {tag : Option (BitVec 5)} {b : Option (Nat × Nat)} {key : Nat}
    {bs : List Byte} (h : s.homeWrite tag b key bs = .ok t) (hw : Memory.wf s.mem = true) :
    Memory.wf t.mem = true := by
  have := s.homeWrite_keeps tag b key bs hw
  rwa [h] at this

/-- So do the pieces below the one that found no room. -/
theorem State.homeWrite_error_wf {s : State} {e : Nat × State} {tag : Option (BitVec 5)} {b : Option (Nat × Nat)}
    {key : Nat} {bs : List Byte} (h : s.homeWrite tag b key bs = .error e) (hw : Memory.wf s.mem = true) :
    Memory.wf e.2.mem = true := by
  have := s.homeWrite_keeps tag b key bs hw
  rwa [h] at this

theorem State.baseWrite_wf {s : State} (key : Nat) (bs : List Byte) (hw : Memory.wf s.mem = true) :
    Memory.wf (s.baseWrite key bs).mem = true := by
  have := s.homeWrite_keeps none none key bs hw
  unfold State.baseWrite
  cases h : s.homeWrite none none key bs <;> rw [h] at this <;> exact this

theorem State.putNum_wf {s : State} (key n v : Nat) (hw : Memory.wf s.mem = true) :
    Memory.wf (s.putNum key n v).mem = true := State.baseWrite_wf _ _ hw

/-! ### The cores' copies -/

theorem State.writeBack_wf {s : State} (g sec : Nat) (hw : Memory.wf s.mem = true) :
    Memory.wf (s.writeBack g sec).mem = true := by
  unfold State.writeBack
  dsimp only
  split
  · split
    · exact State.baseWrite_wf _ _ hw
    · exact hw
  · exact hw

theorem State.writeBackAll_wf {s : State} (g : Nat) (hw : Memory.wf s.mem = true) :
    Memory.wf (s.writeBackAll g).mem = true :=
  foldl_keeps (fun s : State => Memory.wf s.mem = true) _ (fun _ e hs => State.writeBack_wf g e.1 hs) _ hw

theorem State.writeBackSvc_wf {s : State} (g : Nat) (hw : Memory.wf s.mem = true) :
    Memory.wf (s.writeBackSvc g).mem = true :=
  foldl_keeps (fun s : State => Memory.wf s.mem = true) _ (fun _ e hs => by
    split
    · exact State.writeBack_wf g e.1 hs
    · exact hs) _ hw

@[simp] theorem State.dropClean_mem (s : State) (g : Nat) : (s.dropClean g).mem = s.mem :=
  foldl_same State.mem _ (fun s e => by split <;> rfl) _ s

theorem State.dropWhere_wf {s : State} (g : Nat) (cond : Nat → Bool) (hw : Memory.wf s.mem = true) :
    Memory.wf (s.dropWhere g cond).mem = true :=
  foldl_keeps (fun s : State => Memory.wf s.mem = true) _ (fun s e hs => by
    split
    · exact State.writeBack_wf g e.1 hs
    · exact hs) _ hw

theorem State.evict_wf {s : State} (g sec : Nat) (hw : Memory.wf s.mem = true) :
    Memory.wf (s.evict g sec).mem = true := State.writeBack_wf g sec hw

theorem State.makeRoom_wf {s : State} (g : Nat) (hw : Memory.wf s.mem = true) :
    Memory.wf (s.makeRoom g).mem = true := by
  unfold State.makeRoom
  dsimp only
  split
  · exact hw
  · split
    · exact State.evict_wf g _ (s := s.fresh.2) hw
    · exact hw

theorem State.fill_wf {s : State} (g sec : Nat) (cls : PgCls) (hw : Memory.wf s.mem = true) :
    Memory.wf (s.fill g sec cls).mem = true := by
  unfold State.fill
  dsimp only
  split
  · exact hw
  · exact State.atHome_wf _ _ (State.makeRoom_wf g hw)

theorem State.coreRead_wf {s : State} (g key n : Nat) (cls : PgCls) (hw : Memory.wf s.mem = true) :
    Memory.wf (s.coreRead g key n cls).1.mem = true :=
  foldl_keeps (fun s : State => Memory.wf s.mem = true) _ (fun _ sec hs => State.fill_wf g sec cls hs) _ hw

theorem State.coreWrite_wf {s : State} (g key : Nat) (bs : List Byte) (svc : Bool) (b : Option (Nat × Nat))
    (hw : Memory.wf s.mem = true) : Memory.wf (s.coreWrite g key bs svc b).mem = true := by
  unfold State.coreWrite
  rw [State.clearResvs_mem]
  refine foldl_keeps (fun s : State => Memory.wf s.mem = true) _ (fun s p hs => ?_) _ hw
  dsimp only
  split
  · exact State.fill_wf g _ .p hs
  · exact State.fill_wf g _ .p hs

end Sys2Proof.Machine
end

