-- ==== Sys2Proof/Laws/Ops.lean ====
section
/-! SUPPORT. The shared operations, once each: what an issue begins with, where a result goes, what a fault does to its
thread, and that posting a record and waking threads keep memory in its canonical form. -/

namespace Sys2Proof.Machine

open Sys2Proof

/-! ### Registers -/

/-- Words written to consecutive registers are read back; every other register is as it was. -/
theorem putWords_get (ws : List Word) (m : NMap Word) (n j : Nat) :
    NMap.get 0 (putWords m n ws) j = if n ≤ j ∧ j < n + ws.length then ws.getD (j - n) 0 else NMap.get 0 m j := by
  induction ws generalizing m n with
  | nil => simp [putWords]
  | cons b ws ih =>
    rw [putWords, ih, NMap.get_put]
    simp only [List.length_cons]
    by_cases h1 : n + 1 ≤ j ∧ j < n + 1 + ws.length
    · rw [if_pos h1, if_pos (by omega)]
      obtain ⟨i, rfl⟩ : ∃ i, j = n + 1 + i := ⟨j - n - 1, by omega⟩
      have e1 : n + 1 + i - (n + 1) = i := by omega
      have e2 : n + 1 + i - n = i + 1 := by omega
      rw [e1, e2]; rfl
    · rw [if_neg h1]
      by_cases h2 : j = n
      · subst h2
        rw [if_pos rfl, if_pos (by omega)]
        simp
      · rw [if_neg h2, if_neg (by omega)]

/-- A predicate written is read back, and p7 keeps reading true (R16). -/
theorem Thread.pred_putPred (t : Thread) (n m : BitVec 3) (v : Bool) :
    (t.putPred n v).pred m = if m = 7 then true else if m = n then v else t.pred m := by
  unfold Thread.putPred Thread.pred
  by_cases hm : m = 7
  · simp [hm]
  · have hb : (m == 7#3) = false := by simpa using hm
    rw [if_neg hm]
    by_cases hn : n = 7
    · subst hn
      rw [if_pos rfl, if_neg hm]
    · rw [if_neg hn]
      have hm8 : m.toNat < 8 := m.isLt
      have hn8 : n.toNat < 8 := n.isLt
      have bit : (1#8 <<< n.toNat).getLsbD m.toNat = decide (m = n) := by
        by_cases h : m = n
        · subst h
          simp [hm8]
        · have : m.toNat ≠ n.toNat := fun h' => h (BitVec.eq_of_toNat_eq h')
          simp [BitVec.getLsbD_shiftLeft, h]
          omega
      simp only [show (m == 7) = false from hb, Bool.false_or]
      cases v with
      | true =>
        rw [if_pos rfl, BitVec.getLsbD_or, bit]
        by_cases h : m = n <;> simp [h]
      | false =>
        rw [if_neg (by decide), BitVec.getLsbD_and, BitVec.getLsbD_not, bit]
        by_cases h : m = n <;> simp [h, hm8]

/-- A write to p7 is discarded (R16). -/
@[simp] theorem Thread.putPred_seven (t : Thread) (v : Bool) : t.putPred 7 v = t := rfl

/-- The zero literal, a special register or a reserved operand takes no result. -/
@[simp] theorem Thread.putDst_lit (u : Unit2) (n : BitVec 7) (ws : List Word) (t : Thread) :
    Thread.putDst u (.lit n) ws t = t := rfl

@[simp] theorem Thread.putDst_v (u : Unit2) (n : BitVec 10) (ws : List Word) (t : Thread) :
    Thread.putDst u (.v n) ws t = { t with v := putWords t.v (u.idx n.toNat) (u.regWords ws) } := rfl

@[simp] theorem Thread.putDst_p (u : Unit2) (n : BitVec 3) (ws : List Word) (t : Thread) :
    Thread.putDst u (.p n) ws t = t.putPred n ((ws.headD 0).getLsbD 0) := rfl

/-! ### Issue -/

/-- The first issue after a wake changes the core's `wakerc` and its mark alone (R190). -/
theorem State.noteIssue_eq (s : State) (w : Nat) : s.noteIssue w = { s with cores := (s.noteIssue w).cores } := by
  unfold State.noteIssue
  cases coreOfWave w with
  | none => rfl
  | some g => dsimp only; split <;> rfl

theorem State.noteIssue_cores {s t : State} (w : Nat) (h : s.cores = t.cores) :
    (s.noteIssue w).cores = (t.noteIssue w).cores := by
  unfold State.noteIssue
  cases coreOfWave w with
  | none => exact h
  | some g =>
    have hc : s.core g = t.core g := by unfold State.core; rw [h]
    dsimp only
    rw [hc]
    split
    · unfold State.setCore; dsimp only; rw [h]
    · exact h

/-- The begin of a group's effect changes the waves, the core's `wakerc` and the number of the next instruction, and holds the
fault domains back. -/
theorem State.begin_eq (s : State) (c : Ctx) :
    s.begin c =
      { s with waves := s.waves.upd c.w c.issued, nextId := s.nextId + 1, cores := (s.noteIssue c.w).cores
               acts := some (s.acts.getD []) } := by
  have h := State.noteIssue_cores
    (s := ({ s with waves := s.waves.upd c.w c.issued, nextId := s.nextId + 1 } : State).holdActs) (t := s) c.w rfl
  refine (State.noteIssue_eq _ c.w).trans ?_
  rw [h]
  rfl

/-- While no fault has been taken, none waits for the group that begins. -/
theorem State.begin_acts {s : State} (c : Ctx) (h : s.acts = none) : (s.begin c).acts = some [] := by
  rw [State.begin_eq, h]; rfl

@[simp] theorem State.begin_mem (s : State) (c : Ctx) : (s.begin c).mem = s.mem := by rw [State.begin_eq]
@[simp] theorem State.begin_wgs (s : State) (c : Ctx) : (s.begin c).wgs = s.wgs := by rw [State.begin_eq]
@[simp] theorem State.begin_regions (s : State) (c : Ctx) : (s.begin c).regions = s.regions := by rw [State.begin_eq]
@[simp] theorem State.begin_waves (s : State) (c : Ctx) : (s.begin c).waves = s.waves.upd c.w c.issued := by
  rw [State.begin_eq]

/-- A unit none of whose threads has an instruction pending waits for nothing (R34). -/
theorem State.settle_idle {s : State} {w : Nat} {x : Wave} (hw : s.waves.find w = some x)
    (hx : ∀ t ∈ x.threads, t.accs = []) (u : Unit2) (ops : List (Operand × Nat)) (lanes : List Nat) :
    s.settle w u ops lanes = some s := by
  unfold State.settle
  rw [hw]
  have : (x.threads.all fun t => t.accs.isEmpty) = true := by
    rw [List.all_eq_true]
    intro t ht
    rw [hx t ht]; rfl
  simp [this]

/-- An instruction that names no queue register pops and pushes nothing. -/
theorem State.queueAccess_none (s : State) {c : Ctx} (hs : c.e.queueSrcs = []) (hd : c.e.queueDst = none) :
    s.queueAccess c = some (s, []) := by
  unfold State.queueAccess
  rw [hs, hd]
  dsimp only
  split <;> rfl

theorem Desc.queueBad_none {e : Desc} (hs : e.queueSrcs = []) (hd : e.queueDst = none) : e.queueBad = false := by
  unfold Desc.queueBad
  rw [hs, hd]
  rfl

/-- All that the issue of an instruction does before its group acts: the interlocks, the checks, the queue accesses. -/
theorem State.start_go {s : State} {i : Instr} {e : Desc} {fits : Ctx → State → Bool} {c : Ctx} {s1 : State}
    (h : s.start i e fits = .go c s1) :
    ∃ (c0 c1 c2 : Ctx) (r0 r1 r2 r3 : State) (pops : List (Nat × Nat × Word)),
      s.ctxOf s.cur e = some c0 ∧ s.settle c0.w c0.u [(.p e.f.gp, 1)] c0.path = some r0 ∧
      r0.ctxOf s.cur e = some c1 ∧ r0.settle c1.w c1.u (touches e i) c1.group = some r1 ∧
      r1.ctxOf s.cur e = some c2 ∧ e.rangeFault c2.u c2.x.bound = none ∧
      (e.queueBad && !c2.group.isEmpty) = false ∧ fits c2 r1 = true ∧ r1.queueAccess c2 = some (r2, pops) ∧
      r2.popAcquire c2 = some r3 ∧ c = { c2 with pops := pops } ∧ s1 = r3.begin c := by
  unfold State.start at h
  split at h
  · cases h
  · rename_i c0 h0
    split at h
    · cases h
    · rename_i r0 hr0
      split at h
      · cases h
      · rename_i c1 h1
        split at h
        · cases h
        · rename_i r1 hr1
          split at h
          · cases h
          · rename_i c2 h2
            split at h
            · cases h
            · rename_i hrf
              split at h
              · cases h
              · rename_i hq
                split at h
                · cases h
                · rename_i hf
                  split at h
                  · cases h
                  · rename_i r2 pops hqa
                    split at h
                    · cases h
                    · rename_i r3 hpa
                      cases h
                      exact ⟨c0, c1, c2, r0, r1, r2, r3, pops, h0, hr0, h1, hr1, h2, hrf, by simpa using hq,
                        by simpa using hf, hqa, hpa, rfl, rfl⟩

/-! ### Results -/

/-- A group that faults in no lane takes no fault. -/
@[simp] theorem State.faultLanes_nil (s : State) (c : Ctx) : s.faultLanes c [] = s := rfl

/-- One lane that faults stands at the instruction again and takes its fault. -/
theorem State.faultLanes_one (s : State) (c : Ctx) (l : Nat) (f : Flt) :
    s.faultLanes c [(l, f)] = s.holdActs.faultLane c l f := rfl

/-- An instruction that pops nothing acquires nothing. -/
theorem State.popAcquire_none (s : State) {c : Ctx} (h : c.e.queueSrcs = []) : s.popAcquire c = some s := by
  unfold State.popAcquire
  rw [if_pos h]

/-- Results that go to no queue register change the wave alone. -/
theorem State.writeAll_eq (s : State) (c : Ctx) (outs : List (Nat × Out)) (h : ∀ q, c.e.f.d ≠ .q q) :
    s.writeAll c outs = { s with waves := s.waves.upd c.w fun x => x.takeAll c.u c.e.f.d outs } := by
  unfold State.writeAll
  split
  · rename_i n hn; exact absurd hn (h n)
  · rfl

theorem State.writeAll_mem (s : State) (c : Ctx) (outs : List (Nat × Out)) (h : ∀ q, c.e.f.d ≠ .q q) :
    (s.writeAll c outs).mem = s.mem := by rw [State.writeAll_eq s c outs h]

/-- What waits to be written changes the wave alone. -/
theorem State.pendAll_eq (s : State) (c : Ctx) (outs : List (Nat × Out)) (h : ∀ q, c.e.f.d ≠ .q q) :
    ∃ m, s.pendAll c outs = { s with waves := m } := by
  unfold State.pendAll
  split
  · rename_i n hn; exact absurd hn (h n)
  · exact ⟨_, rfl⟩

section
variable (c : Ctx) (l : Nat) (led : Bool) (s : State)

/-- A lane that writes nothing leaves the state its effect made. -/
theorem State.laneOut_ok_nil (h1 : ∀ q, c.e.f.d ≠ .q q) (h2 : ∀ n, c.e.f.d ≠ .s n) (h3 : ∀ n, c.e.f.d ≠ .k n) :
    State.laneOut c l led (.ok s []) = (s, led) := by
  unfold State.laneOut
  cases h : c.e.f.d <;> simp_all

@[simp] theorem State.laneOut_block (y : Why) : State.laneOut c l led (.block s y) =
    (s.updThread c.w l fun t => { c.back l t with st := .blocked (c.waits l led y).1 }, (c.waits l led y).2) := rfl

@[simp] theorem State.laneOut_stay :
    State.laneOut c l led (.stay s) = (s.updThread c.w l (c.back l), led) := rfl

@[simp] theorem State.laneOut_gone : State.laneOut c l led (.gone s) = (s, led) := rfl

@[simp] theorem State.laneOut_fault (f : Flt) :
    State.laneOut c l led (.fault s f) = (s.faultLanes c [(l, f)], led) := rfl

end

/-! ### Faults -/

/-- A fault of a lane that is no thread does nothing. -/
theorem State.takeFault_none {s : State} {w l : Nat} (h : s.waves.find w = none) (pc : DWord) (f : Flt) :
    s.takeFault w l pc f = s := by
  unfold State.takeFault
  rw [h]

/-- A fault posts its record, parks the thread at the instruction, and lets the domain act (R49, R163, R166); one that
met no bad table entry reports no data error. -/
theorem State.takeFault_eq {s : State} {w l : Nat} {x : Wave} {t : Thread} (hw : s.waves.find w = some x)
    (ht : s.thread? w l = some t) (pc : DWord) (f : Flt) (hf : f.bad = none) :
    s.takeFault w l pc f =
      (((s.post (s.ringOf x.rgn f) (s.threadRec w l pc.toNat f)).1.updThread w l fun t =>
        t.park pc f (s.post (s.ringOf x.rgn f) (s.threadRec w l pc.toNat f)).2).fixTurn w).act
          (.act w l x.rgn f.code f.sub t.mark) := by
  unfold State.takeFault
  rw [hw, ht]
  dsimp only
  unfold State.walkError
  rw [hf]

/-- What delivery leaves in a thread (R166). -/
theorem Thread.deliver_spec (t : Thread) (trape : DWord) (code sub : BitVec 8) :
    (t.deliver trape code sub).pc = trape ∧ (t.deliver trape code sub).epc = t.pc &&& ~~~3 ∧
    (t.deliver trape code sub).ecause = 0#16 ++ sub ++ code ∧ (t.deliver trape code sub).mark = true ∧
    (t.deliver trape code sub).st = .running := ⟨rfl, rfl, rfl, rfl, rfl⟩

/-- What a return from a handler leaves (R169). -/
theorem Thread.eret_spec (t : Thread) : t.eret.pc = t.epc ∧ t.eret.mark = false := ⟨rfl, rfl⟩

/-! ### Memory through the shared operations -/

@[simp] theorem State.wakeCore_mem (s : State) (g : Option Nat) (b : WakeBit) : (s.wakeCore g b).mem = s.mem := by
  unfold State.wakeCore
  split
  · dsimp only; split <;> rfl
  · rfl

@[simp] theorem State.wakeWhere_mem (s : State) (w : Nat) (b : WakeBit) (f : Why → Bool) :
    (s.wakeWhere w b f).mem = s.mem := by
  unfold State.wakeWhere
  split
  · rfl
  · dsimp only
    split
    · rfl
    · rw [State.wakeCore_mem, State.setWave_mem]

@[simp] theorem State.wakeAll_mem (s : State) (b : WakeBit) (f : Why → Bool) : (s.wakeAll b f).mem = s.mem :=
  foldl_same State.mem (fun (s : State) w => s.wakeWhere w b f) (fun s w => State.wakeWhere_mem s w b f) _ s

@[simp] theorem State.returnWaits_mem (s : State) (r : BarRef) (b : Bar) : (s.returnWaits r b).mem = s.mem := by
  unfold State.returnWaits
  refine foldl_same State.mem _ (fun s w => ?_) _ s
  split
  · dsimp only
    split
    · rfl
    · rw [State.wakeCore_mem, State.setWave_mem]
  · rfl

@[simp] theorem State.barStep_mem (s : State) (r : BarRef) (b : Bar) : (s.barStep r b).mem = s.mem := by
  unfold State.barStep
  split
  · dsimp only; rw [State.returnWaits_mem]; rfl
  · rfl

@[simp] theorem State.deliverThread_mem (s : State) (w l r : Nat) (a b : BitVec 8) :
    (s.deliverThread w l r a b).mem = s.mem := by
  unfold State.deliverThread
  dsimp only
  rw [State.wakeCore_mem]; rfl

@[simp] theorem State.replayThread_mem (s : State) (w l : Nat) : (s.replayThread w l).mem = s.mem := by
  unfold State.replayThread
  rw [State.wakeCore_mem]; rfl

theorem State.writeState_wf {s : State} (r : Nat) (h : Memory.wf s.mem = true) :
    Memory.wf (s.writeState r).mem = true := by
  unfold State.writeState
  split
  · exact State.putNum_wf _ _ _ h
  · exact h

theorem State.post_wf {s : State} (dom : Nat) (r : Rec) (h : Memory.wf s.mem = true) :
    Memory.wf (s.post dom r).1.mem = true := by
  unfold State.post
  split
  · exact h
  · dsimp only
    have key : ∀ t : State, Memory.wf t.mem = true → ∀ (b : Bool) (fn v : Nat),
        Memory.wf (if b = true then (t.writeState dom).signal fn v else t.writeState dom).mem = true := by
      intro t ht b fn v
      cases b
      · exact State.writeState_wf dom ht
      · exact State.writeState_wf dom ht
    rename_i d _
    by_cases hd : d.root = dom
    · rw [if_pos hd]
      refine State.writeState_wf (s := _) dom ?_
      split
      · exact State.baseWrite_wf _ _ h
      · exact h
    · rw [if_neg hd]
      refine State.writeState_wf (s := _) dom ?_
      split
      · exact State.baseWrite_wf _ _ h
      · exact h

theorem State.postEng_wf {s : State} (r : Nat) (g : Option Nat) (k pc : Nat) (f : Flt) (h : Memory.wf s.mem = true) :
    Memory.wf (s.postEng r g k pc f).mem = true := State.post_wf (s := s.fresh.2) _ _ h

theorem State.postEvent_wf {s : State} (d r : Nat) (f : Flt) (h : Memory.wf s.mem = true) :
    Memory.wf (s.postEvent d r f).mem = true := by
  unfold State.postEvent State.engRec
  exact State.post_wf _ _ h

theorem State.pushRegion_wf {s : State} (r : Nat) (h : Memory.wf s.mem = true) :
    Memory.wf (s.pushRegion r).mem = true := by
  unfold State.pushRegion
  split
  · exact h
  · exact foldl_keeps (fun s : State => Memory.wf s.mem = true) _
      (fun _ g hs => State.writeBackSvc_wf _ (State.writeBackAll_wf g hs)) _ h

theorem State.raiseDone_wf {s : State} (r : Nat) (h : Memory.wf s.mem = true) :
    Memory.wf (s.raiseDone r).mem = true := by
  unfold State.raiseDone
  split
  · exact h
  · split
    · exact h
    · dsimp only
      split
      · split
        · exact State.putNum_wf _ _ _ h
        · exact h
      · split
        · exact State.putNum_wf _ _ _ h
        · exact h

/-! ### A program loaded -/

/-- The word placed for the next step keeps the canonical form. -/
theorem State.withFetchWord_wf {s : State} (n w : Nat) (h : Memory.wf s.mem = true) :
    Memory.wf (s.withFetchWord n w).mem = true := by
  have load : ∀ bs, Memory.wf (s.loadWord bs).mem = true := fun bs => putBytes_wf bs loadPc h
  unfold State.withFetchWord
  dsimp only
  split
  · split
    · exact putBytes_wf _ _ h
    · exact load _
  · exact load _

end Sys2Proof.Machine
end

