-- ==== Sys2Proof/Laws/Package.lean ====
section
/-! SUPPORT. What the shared operations of the package and the fabric do: a command, its arguments, a reply, and the translations of
the host. -/

namespace Sys2Proof.Machine

open Sys2Proof

/-- An argument is read back from the arguments as one number. -/
theorem argsNat_get : ∀ (l : List DWord) (i : Nat) (x : DWord), l[i]? = some x →
    argsNat l / 2 ^ (64 * i) % 2 ^ 64 = x.toNat
  | [], _, _, h => by simp at h
  | a :: l, 0, x, h => by
    obtain rfl : a = x := by simpa using h
    simp [argsNat]; omega
  | a :: l, i + 1, x, h => by
    rw [← argsNat_get l i x (by simpa using h), argsNat, show 64 * (i + 1) = 64 + 64 * i by ring, pow_add,
      ← Nat.div_div_eq_div_mul]
    congr 2; omega

/-- A command of a function that may give it is carried out, with the command noted as given. -/
theorem State.command_run (s : State) {fn : Nat} (tag : BitVec 16) (cmd : BitVec 512) {pf : Bool} (act : State → State)
    (hfn : fn < 32) (hup : s.links.getD 8 true = true) (hb : s.bound fn = true) (hpf : pf = true → fn = 0) :
    s.command fn tag cmd pf act = .next (act { s with commands := s.commands ++ [⟨fn, cmd⟩] }) := by
  have h : ({ s with commands := s.commands ++ [⟨fn, cmd⟩] } : State).bound fn = true := hb
  have h32 : ¬ 32 ≤ fn := by omega
  cases pf <;> simp_all [State.command]

/-- A command of a function that may not give it is refused with status 0x20. -/
theorem State.command_refused (s : State) {fn : Nat} (tag : BitVec 16) (cmd : BitVec 512) {pf : Bool} (act : State → State)
    (hfn : fn < 32) (hup : s.links.getD 8 true = true) (h : s.bound fn = false ∨ (pf = true ∧ fn ≠ 0)) :
    s.command fn tag cmd pf act =
      .next (({ s with commands := s.commands ++ [⟨fn, cmd⟩] } : State).reply fn tag 0x20 []) := by
  have h32 : ¬ 32 ≤ fn := by omega
  have hb : ({ s with commands := s.commands ++ [⟨fn, cmd⟩] } : State).bound fn = s.bound fn := rfl
  rcases h with h | ⟨h, h'⟩ <;> simp_all [State.command]

/-- A page that is not in host memory keeps its own number. -/
theorem State.hostKey_of_local {s : State} {fn key : Nat} (h : locOf key ≠ 1) : s.hostKey fn key = key := by
  simp [State.hostKey, h]

/-- A page of host memory stands where the host has translated it to for the function (R417). -/
theorem State.hostKey_of_some {s : State} {fn key : Nat} {t : Leaf} (hl : locOf key = 1) (h : s.atsOf fn key = some t) :
    s.hostKey fn key = t.key + (key - t.va) := by
  simp [State.hostKey, hl, h]

/-- Without translations of the host no page has one. -/
@[simp] theorem State.atsFor_nil {s : State} (asr key : Nat) (h : s.ats = []) : s.atsFor asr key = none := by
  simp [State.atsFor, h]

/-- A pending Invalidate Request changes the pending requests and the core clock alone (R407). -/
@[simp] theorem State.setPending_ats (s : State) (l : List AtsInval) : (s.setPending l).ats = s.ats := rfl
@[simp] theorem State.setPending_atsPending (s : State) (l : List AtsInval) : (s.setPending l).atsPending = l := rfl
@[simp] theorem State.setPending_mem (s : State) (l : List AtsInval) : (s.setPending l).mem = s.mem := rfl
@[simp] theorem State.setPending_waves (s : State) (l : List AtsInval) : (s.setPending l).waves = s.waves := rfl
@[simp] theorem State.setPending_copies (s : State) (l : List AtsInval) : (s.setPending l).copies = s.copies := rfl
@[simp] theorem State.setPending_answers (s : State) (l : List AtsInval) : (s.setPending l).answers = s.answers := rfl

end Sys2Proof.Machine
end

