-- ==== Sys2Proof/Tests/Slice0.lean ====
section
/-! SUPPORT. Tests: each coded instruction decodes from a word written out from the fields of R30 and R31, the checks of
R41 refuse ill-formed terms, single steps give what the spec's own examples and tables say, and the hypotheses of the
statements are met by concrete states. Every expected value is taken from the spec or worked out by hand from its rules. -/

namespace Sys2Proof.Tests

set_option Elab.async false

open Sys2Proof Sys2Proof.Machine

/-! ### Small machines -/

/-- A frame by its fields: form, GP, GS, LA, RET, D, A, B, C, X, I. -/
def tf (form : Form) (gp : BitVec 3) (gs : Bool) (la : BitVec 4) (ret : BitVec 2) (d a b c : Operand) (x : BitVec 21)
    (i : BitVec 32) : Frame := ⟨form, gp, gs, la, ret, d, a, b, c, x, i⟩

/-- An unguarded S-form frame. -/
def fs (d a b : Operand) : Frame := tf .s 7 false 0 0 d a b (.v 0) 0 0

/-- An unguarded M-form frame. -/
def fm (d a b c : Operand) (x : BitVec 21) : Frame := tf .m 7 false 0 0 d a b c x 0

/-- A wave on core 1 of one region, with one thread in lane 0 at 0x1000 and one decision in its queue; the first GiB is
mapped with class H. -/
def demo : State :=
  let s := State.reset.loadWord []
  { s with wgs := s.wgs.upd 0 fun y => { y with dq := [3] } }

/-- The same with registers of lane 0. -/
def demoV (v : NMap Word) : State := demo.updThread 128 0 fun t => { t with v := v }

/-- A Caller stream of cluster 0 beside a partner workgroup on core 1. -/
def demoC : State :=
  { demo with cur := callerKey, waves := demo.waves.ins callerKey (.loaded .caller 0 (BitVec.ofNat 64 loadPc)) }

/-- The instruction issues and its group is not empty. -/
def begins (s : State) (i : Instr) (fits : Ctx → State → Bool := fun _ _ => true) : Bool :=
  match s.startOf i fits with
  | .go c _ => !c.group.isEmpty
  | .stop _ => false

/-- The state after one instruction. -/
def after (s : State) (i : Instr) : State :=
  match exec i s with
  | .next t => t
  | _ => s

/-- A register of lane 0 of the wave that issued. -/
def regAfter (s : State) (i : Instr) (n : Nat) : Word :=
  match (after s i).thread? s.cur 0 with
  | some t => t.reg n
  | none => 0

/-- The words are read as the instructions beside them, and the encoder gives the words back. -/
def reads (u : Unit2) (l : List (Nat × Nat × Instr)) : Bool :=
  l.all fun e => decide (decodeTableWord e.1 e.2.1 = some e.2.2) && decide (encode u e.2.2 = some (BitVec.ofNat 128 e.2.1))

/-! ### Decoding: words written field by field from R30, R31 and the families' layouts

The fields of a literal stand in the order I, X, C, MINOR, MOD, B, A, D, RET, LA, GS, GP, OP, LEN. -/

/-- Words and what they stand for, part 1. -/
def wordsInteger : List (Nat × Nat × Instr) := [
  (64, 0b0000_0001000_10001111111_00000000101_00000001100_00_0000_0_111_00000000_00,
    .iadd (tf .s 7 false 0 0 (.v 12) (.v 5) (.lit 127) (.v 0) 0 0) .s32 true),
  (128, 0b11111111111111111111111111111111_000000000000000000000_00000000000_0001_0010000_00000000000_10011111111_01111111111_00_0000_0_111_00000000_10,
    .isub (tf .l 7 false 0 0 (.v 1023) (.s 127) (.v 0) (.v 0) 0 4294967295) .z32 false),
  (96, 0b000000000000000000000_11000000001_0010_0010011_00000000110_00000000100_00000001010_00_0000_0_111_00000000_01,
    .iaddc (tf .m 7 false 0 0 (.v 10) (.v 4) (.v 6) (.p 1) 0 0) 3),
  (64, 0b0011_0010111_00000000110_00000000100_00000001010_00_0000_1_010_00000000_00,
    .isubb (tf .s 2 true 0 0 (.v 10) (.v 4) (.v 6) (.v 0) 0 0) 7),
  (64, 0b0100_1001000_10010000110_00000000100_00000001010_00_0000_0_111_00000000_00,
    .iadd64 (tf .s 7 false 0 0 (.v 10) (.v 4) (.s 6) (.v 0) 0 0) .z64 true),
  (96, 0b000000000000000000000_00000000000_0000_0100000_11000010010_00000000100_10010000011_00_0000_0_111_00000001_01,
    .imul (tf .m 7 false 0 0 (.s 3) (.v 4) (.k 2) (.v 0) 0 0) .b32 false),
  (64, 0b0001_0000000_10110000001_00000000100_00000000011_00_0000_0_111_00000001_00,
    .imulhi (tf .s 7 false 0 0 (.v 3) (.v 4) (.sr 1) (.v 0) 0 0) .s32),
  (96, 0b000000000000000000000_00000000110_0010_0001000_00000000101_00000000100_00000000011_11_0000_0_111_00000001_01,
    .imad (tf .m 7 false 0 3 (.v 3) (.v 4) (.v 5) (.v 6) 0 0) .s32 true),
  (96, 0b000000000000000000000_00000000110_0011_0010000_00000000101_00000000100_00000000010_00_0000_0_111_00000001_01,
    .imadw (tf .m 7 false 0 0 (.v 2) (.v 4) (.v 5) (.v 6) 0 0) .z32),
  (64, 0b0000_0001000_00000000101_00000000100_00000000010_00_1111_0_111_00000010_00,
    .idiv (tf .s 7 false 15 0 (.v 2) (.v 4) (.v 5) (.v 0) 0 0) .s32 true)]

theorem test_decode_integer : reads .w wordsInteger = true := by decide +kernel

theorem test_begins_integer : wordsInteger.all (fun e => begins demo e.2.2) = true := by decide +kernel

/-- Words and what they stand for, part 2. -/
def wordsArithmetic : List (Nat × Nat × Instr) := [
  (128, 0b00000000000000000000000000000111_000000000000000000000_00000000000_0001_0010000_00000000000_00000000100_00000000010_00_0001_0_111_00000010_10,
    .irem (tf .l 7 false 1 0 (.v 2) (.v 4) (.v 0) (.v 0) 0 7) .z32),
  (64, 0b0000_0000000_11000000011_00000000100_00000000010_00_0000_0_111_00000011_00,
    .imin (tf .s 7 false 0 0 (.v 2) (.v 4) (.p 3) (.v 0) 0 0) .s32),
  (64, 0b0001_0010000_00000001001_00000000100_00000000010_10_0000_0_111_00000011_00,
    .imax (tf .s 7 false 0 2 (.v 2) (.v 4) (.v 9) (.v 0) 0 0) .z32),
  (64, 0b0010_0001000_00000000000_00000000100_00000000010_00_0000_0_111_00000011_00,
    .iabs (tf .s 7 false 0 0 (.v 2) (.v 4) (.v 0) (.v 0) 0 0) true),
  (64, 0b0011_0000000_00000000000_00000000100_00000000010_00_0000_0_111_00000011_00,
    .ineg (tf .s 7 false 0 0 (.v 2) (.v 4) (.v 0) (.v 0) 0 0) false),
  (64, 0b0000_1010000_00000000110_00000000100_00000000010_00_0000_0_111_00000100_00,
    .and (tf .s 7 false 0 0 (.v 2) (.v 4) (.v 6) (.v 0) 0 0) .b64),
  (64, 0b0001_0100000_00000000110_00000000100_11000000010_00_0000_0_111_00000100_00,
    .or (tf .s 7 false 0 0 (.p 2) (.v 4) (.v 6) (.v 0) 0 0) .b32),
  (128, 0b10000000000000000000000000000001_000000000000000000000_00000000000_0010_0100000_00000000000_00000000100_11000010010_00_0000_0_111_00000100_10,
    .xor (tf .l 7 false 0 0 (.k 2) (.v 4) (.v 0) (.v 0) 0 2147483649) .b32),
  (64, 0b0011_0100000_00000000110_10100000000_00000000010_00_0000_0_111_00000100_00,
    .andn (tf .s 7 false 0 0 (.v 2) (.q 0) (.v 6) (.v 0) 0 0) .b32),
  (64, 0b0100_1010000_00000000000_00000000100_00000000010_00_0000_0_111_00000100_00,
    .not (tf .s 7 false 0 0 (.v 2) (.v 4) (.v 0) (.v 0) 0 0) .b64)]

theorem test_decode_arithmetic : reads .w wordsArithmetic = true := by decide +kernel

theorem test_begins_arithmetic : wordsArithmetic.all (fun e => begins demo e.2.2) = true := by decide +kernel

/-- Words and what they stand for, part 3. -/
def wordsShifts : List (Nat × Nat × Instr) := [
  (64, 0b0000_0100000_10000011111_00000000100_00000000010_00_0000_0_111_00000101_00,
    .shl (tf .s 7 false 0 0 (.v 2) (.v 4) (.lit 31) (.v 0) 0 0)),
  (64, 0b0001_0100000_10000011111_00000000100_00000000010_00_0000_0_111_00000101_00,
    .shr (tf .s 7 false 0 0 (.v 2) (.v 4) (.lit 31) (.v 0) 0 0)),
  (64, 0b0010_0000000_10000011111_00000000100_00000000010_00_0000_0_111_00000101_00,
    .sar (tf .s 7 false 0 0 (.v 2) (.v 4) (.lit 31) (.v 0) 0 0)),
  (64, 0b0011_0100000_10000011111_00000000100_00000000010_00_0000_0_111_00000101_00,
    .rol (tf .s 7 false 0 0 (.v 2) (.v 4) (.lit 31) (.v 0) 0 0)),
  (64, 0b0100_1010000_10000111111_00000000100_00000000010_00_0000_0_111_00000101_00,
    .shl64 (tf .s 7 false 0 0 (.v 2) (.v 4) (.lit 63) (.v 0) 0 0)),
  (96, 0b000000000000000000000_00000000000_0101_0110000_10000111111_00000000100_00000000010_00_0000_0_111_00000101_01,
    .shr64 (tf .m 7 false 0 0 (.v 2) (.v 4) (.lit 63) (.v 0) 0 0) .s64),
  (64, 0b0000_1010000_00000000000_00000000100_00000000010_00_0000_0_111_00000110_00,
    .popc (tf .s 7 false 0 0 (.v 2) (.v 4) (.v 0) (.v 0) 0 0) .b64),
  (64, 0b0001_0100000_00000000000_00000000100_00000000010_00_0000_0_111_00000110_00,
    .clz (tf .s 7 false 0 0 (.v 2) (.v 4) (.v 0) (.v 0) 0 0) .b32),
  (64, 0b0010_1010000_00000000000_00000000100_00000000010_00_0000_0_111_00000110_00,
    .ctz (tf .s 7 false 0 0 (.v 2) (.v 4) (.v 0) (.v 0) 0 0) .b64),
  (64, 0b0011_1010000_00000000000_00000000100_00000000010_00_0000_0_111_00000110_00,
    .brev (tf .s 7 false 0 0 (.v 2) (.v 4) (.v 0) (.v 0) 0 0) .b64)]

theorem test_decode_shifts : reads .w wordsShifts = true := by decide +kernel

theorem test_begins_shifts : wordsShifts.all (fun e => begins demo e.2.2) = true := by decide +kernel

/-- Words and what they stand for, part 4. -/
def wordsBitFields : List (Nat × Nat × Instr) := [
  (96, 0b000001111111111111111_00000000000_0000_0000100_00000000000_00000000100_00000000010_00_0000_0_111_00000111_01,
    .bfe (tf .m 7 false 0 0 (.v 2) (.v 4) (.v 0) (.v 0) 65535 0) .s32 true),
  (96, 0b000000000000000000000_00000000110_0001_0100000_00000000101_00000000100_00000000010_00_0000_0_111_00000111_01,
    .bfi (tf .m 7 false 0 0 (.v 2) (.v 4) (.v 5) (.v 6) 0 0) false),
  (96, 0b000001111011101000001_00000000000_0010_0100100_00000000101_00000000100_00000000010_00_0000_0_111_00000111_01,
    .perm (tf .m 7 false 0 0 (.v 2) (.v 4) (.v 5) (.v 0) 63297 0) true),
  (64, 0b0000_1011110_00000000110_00000000100_00000000010_00_0000_0_111_00001000_00,
    .sel (tf .s 7 false 0 0 (.v 2) (.v 4) (.v 6) (.v 0) 0 0) .b64 true 6),
  (64, 0b0001_1000101_00000000110_00000000100_11000000001_00_0000_0_111_00001000_00,
    .icmp (tf .s 7 false 0 0 (.p 1) (.v 4) (.v 6) (.v 0) 0 0) .z64 .ge),
  (64, 0b0000_0100000_00000000000_10110001001_00000000010_00_0000_0_111_00001001_00,
    .mov (tf .s 7 false 0 0 (.v 2) (.sr 9) (.v 0) (.v 0) 0 0) .b32),
  (96, 0b111111111111111111111_00000000000_0001_1010000_00000000000_00000000000_00000000010_00_0000_0_111_00001001_01,
    .movi (tf .m 7 false 0 0 (.v 2) (.v 0) (.v 0) (.v 0) 2097151 0) .b64),
  (96, 0b000000000000001000000_00000000000_0010_0010011_00000001001_00000000110_00000010100_00_0000_0_111_00001001_01,
    .lea (tf .m 7 false 0 0 (.v 20) (.v 6) (.v 9) (.v 0) 64 0) .z32 .x8),
  (96, 0b000000000000000000000_00000000110_0000_0001100_00000000101_00000000100_00000000010_00_0000_0_111_00001010_01,
    .dp4 (tf .m 7 false 0 0 (.v 2) (.v 4) (.v 5) (.v 6) 0 0) .s32 true true false),
  (64, 0b0000_0100110_10000010000_00000000100_00000000010_00_0000_0_111_00001011_00,
    .shfl (tf .s 7 false 0 0 (.v 2) (.v 4) (.lit 16) (.v 0) 0 0) .b32 .xor)]

theorem test_decode_bit_fields : reads .w wordsBitFields = true := by decide +kernel

theorem test_begins_bit_fields : wordsBitFields.all (fun e => begins demo e.2.2) = true := by decide +kernel

/-- Words and what they stand for, part 5. -/
def wordsWaveWideAndFloat : List (Nat × Nat × Instr) := [
  (64, 0b0001_0100011_00000000000_00000000100_11000010001_00_0000_0_111_00001011_00,
    .vote (tf .s 7 false 0 0 (.k 1) (.v 4) (.v 0) (.v 0) 0 0) .bal),
  (96, 0b000000000000000000011_00000000000_0010_1101010_00000000000_00000000100_00000000010_00_0000_0_111_00001011_01,
    .redux (tf .m 7 false 0 0 (.v 2) (.v 4) (.v 0) (.v 0) 0 0) .f32 true .max .rup),
  (64, 0b0000_0001011_00000000101_00000000100_00000000010_00_0000_0_111_00100000_00,
    .fadd (tf .s 7 false 0 0 (.v 2) (.v 4) (.v 5) (.v 0) 0 0) .f32 .rtz true true),
  (64, 0b0001_0110001_00000000101_00000000100_00000000010_00_0000_0_111_00100000_00,
    .fsub (tf .s 7 false 0 0 (.v 2) (.v 4) (.v 5) (.v 0) 0 0) .f16 .rdn false true),
  (128, 0b00111111100000000000000000000000_000000000000000000000_00000000000_0010_1011010_00000000000_00000000100_00000000010_00_0000_0_111_00100000_10,
    .fmul (tf .l 7 false 0 0 (.v 2) (.v 4) (.v 0) (.v 0) 0 1065353216) .bf16 .rup true false),
  (96, 0b000000000000000000000_00000001001_0011_0000000_00000001000_00000000111_00000001100_00_0000_0_111_00100000_01,
    .ffma (tf .m 7 false 0 0 (.v 12) (.v 7) (.v 8) (.v 9) 0 0) .f32 .rne false false),
  (64, 0b0000_0100001_00000000101_00000000100_00000000010_00_0000_0_111_00100001_00,
    .fmin (tf .s 7 false 0 0 (.v 2) (.v 4) (.v 5) (.v 0) 0 0) .f16 true),
  (64, 0b0001_1000000_00000000101_00000000100_00000000010_00_0000_0_111_00100001_00,
    .fmax (tf .s 7 false 0 0 (.v 2) (.v 4) (.v 5) (.v 0) 0 0) .bf16 false),
  (64, 0b0000_0011101_00000000101_00000000100_11000000010_00_0000_0_111_00100010_00,
    .fcmp (tf .s 7 false 0 0 (.p 2) (.v 4) (.v 5) (.v 0) 0 0) .f32 .nan true),
  (64, 0b0001_0000001_10001111111_00000000100_11000000010_00_0000_0_111_00100010_00,
    .fclass (tf .s 7 false 0 0 (.p 2) (.v 4) (.lit 127) (.v 0) 0 0) .f32 true)]

theorem test_decode_wave_wide_and_float : reads .w wordsWaveWideAndFloat = true := by decide +kernel

theorem test_begins_wave_wide_and_float : wordsWaveWideAndFloat.all (fun e => begins demo e.2.2) = true := by decide +kernel

/-- Words and what they stand for, part 6. -/
def wordsFloat : List (Nat × Nat × Instr) := [
  (64, 0b0000_0010001_00000000000_00000000100_00000000010_00_0000_0_111_00100011_00,
    .frnd (tf .s 7 false 0 0 (.v 2) (.v 4) (.v 0) (.v 0) 0 0) .f32 .rdn true),
  (64, 0b0001_0001010_00000000101_00000000100_00000000010_00_0000_0_111_00100011_00,
    .fldexp (tf .s 7 false 0 0 (.v 2) (.v 4) (.v 5) (.v 0) 0 0) .f32 .rtz true false),
  (64, 0b0000_0001010_00000000000_00000000100_00000000010_00_0011_0_111_00100100_00,
    .frcp (tf .s 7 false 3 0 (.v 2) (.v 4) (.v 0) (.v 0) 0 0) .f32 .rtz true false),
  (64, 0b0001_0000001_00000000000_00000000100_00000000010_00_1111_0_111_00100100_00,
    .frsq (tf .s 7 false 15 0 (.v 2) (.v 4) (.v 0) (.v 0) 0 0) .f32 .rne false true),
  (64, 0b0010_0100000_00000000000_00000000100_00000000010_00_0000_0_111_00100100_00,
    .fsqrt (tf .s 7 false 0 0 (.v 2) (.v 4) (.v 0) (.v 0) 0 0) .f16 .rne false false),
  (64, 0b0011_0011000_00000000101_00000000100_00000000010_00_0010_0_111_00100100_00,
    .fdiv (tf .s 7 false 2 0 (.v 2) (.v 4) (.v 5) (.v 0) 0 0) .f32 .rup false false),
  (64, 0b0000_0000000_00000000000_00000000100_00000000010_00_0000_0_111_00100101_00,
    .fexp2 (tf .s 7 false 0 0 (.v 2) (.v 4) (.v 0) (.v 0) 0 0) .f32 .rne false false),
  (64, 0b0001_0000010_00000000000_00000000100_00000000010_00_0000_0_111_00100101_00,
    .flog2 (tf .s 7 false 0 0 (.v 2) (.v 4) (.v 0) (.v 0) 0 0) .f32 .rne true false),
  (64, 0b0010_1000000_00000000000_00000000100_00000000010_00_0000_0_111_00100101_00,
    .fsin (tf .s 7 false 0 0 (.v 2) (.v 4) (.v 0) (.v 0) 0 0) .bf16 .rne false false),
  (64, 0b0011_0110000_00000000000_00000000100_00000000010_00_0000_0_111_00100101_00,
    .fcos (tf .s 7 false 0 0 (.v 2) (.v 4) (.v 0) (.v 0) 0 0) .f16 .rdn false false)]

theorem test_decode_float : reads .w wordsFloat = true := by decide +kernel

theorem test_begins_float : wordsFloat.all (fun e => begins demo e.2.2) = true := by decide +kernel

/-- Words and what they stand for, part 7. -/
def wordsFunctions : List (Nat × Nat × Instr) := [
  (64, 0b0000_0100001_00000000101_00000000100_00000000010_00_0000_0_111_00100110_00,
    .hadd2 (tf .s 7 false 0 0 (.v 2) (.v 4) (.v 5) (.v 0) 0 0) .f16 .rne false true),
  (64, 0b0001_1001010_00000000101_00000000100_00000000010_00_0000_0_111_00100110_00,
    .hmul2 (tf .s 7 false 0 0 (.v 2) (.v 4) (.v 5) (.v 0) 0 0) .bf16 .rtz true false),
  (96, 0b000000000000000000000_00000000110_0010_0111000_00000000101_00000000100_00000000010_00_0000_0_111_00100110_01,
    .hfma2 (tf .m 7 false 0 0 (.v 2) (.v 4) (.v 5) (.v 6) 0 0) .f16 .rup false false),
  (96, 0b000000000000000000000_00000000110_0011_1000100_00000000101_00000000100_00000000010_00_0000_0_111_00100110_01,
    .hdot2 (tf .m 7 false 0 0 (.v 2) (.v 4) (.v 5) (.v 6) 0 0) .bf16 true .rne false false),
  (96, 0b000000000000110000001_00000000000_0000_1011111_00000000000_00000000100_00000000010_00_0000_0_111_00100111_01,
    .cvt (tf .m 7 false 0 0 (.v 2) (.v 4) (.v 0) (.v 0) 0 0) .s64 .f16 .rup true true 1 0),
  (64, 0b0000_1010000_00000000000_00000000100_00000000010_00_0000_0_111_00101000_00,
    .qpack (tf .s 7 false 0 0 (.v 2) (.v 4) (.v 0) (.v 0) 0 0) 5),
  (96, 0b000000000000000000000_00000000110_0001_1100100_00000000101_00000000100_00000000010_00_0000_0_111_00101000_01,
    .qunpk (tf .m 7 false 0 0 (.v 2) (.v 4) (.v 5) (.v 6) 0 0) 6 .f16),
  (96, 0b111111111111111110000_00000000000_0000_0000000_00000000000_00000000000_00000000000_00_0000_0_111_01000000_01,
    .bra (tf .m 7 false 0 0 (.v 0) (.v 0) (.v 0) (.v 0) 2097136 0)),
  (96, 0b000000000000000001000_00000000000_0001_0000000_00000000000_00000000100_00000000000_00_0000_0_111_01000000_01,
    .brx (tf .m 7 false 0 0 (.v 0) (.v 4) (.v 0) (.v 0) 8 0)),
  (64, 0b0000_0000000_00000000000_10000000100_00000000000_00_0000_0_111_01000001_00,
    .call (tf .s 7 false 0 0 (.v 0) (.lit 4) (.v 0) (.v 0) 0 0))]

theorem test_decode_functions : reads .w wordsFunctions = true := by decide +kernel

theorem test_begins_functions : wordsFunctions.all (fun e => begins demo e.2.2) = true := by decide +kernel

/-- Words and what they stand for, part 8. -/
def wordsControl : List (Nat × Nat × Instr) := [
  (64, 0b0001_0000000_00000000000_10010000100_00000000000_00_0000_0_111_01000001_00,
    .callx (tf .s 7 false 0 0 (.v 0) (.s 4) (.v 0) (.v 0) 0 0)),
  (64, 0b0010_0000000_00000000000_00000000000_00000000000_00_0000_0_111_01000001_00,
    .ret (tf .s 7 false 0 0 (.v 0) (.v 0) (.v 0) (.v 0) 0 0)),
  (64, 0b0000_0000001_00000000000_00000000000_11000010010_00_0000_0_111_01000010_00,
    .kset (tf .s 7 false 0 0 (.k 2) (.v 0) (.v 0) (.v 0) 0 0) true),
  (64, 0b0001_0000001_00000000000_00000000100_11000011111_00_0000_0_111_01000010_00,
    .kclr (tf .s 7 false 0 0 (.k 15) (.v 4) (.v 0) (.v 0) 0 0) true),
  (64, 0b0010_0000000_00000000000_11000010010_00000000000_00_0000_0_111_01000010_00,
    .join (tf .s 7 false 0 0 (.v 0) (.k 2) (.v 0) (.v 0) 0 0)),
  (64, 0b0011_0000000_00000000000_10010000100_00000000000_00_0000_0_111_01000010_00,
    .wsync (tf .s 7 false 0 0 (.v 0) (.s 4) (.v 0) (.v 0) 0 0)),
  (64, 0b0000_0000000_00000000000_00000000000_00000000000_00_0000_0_111_01000011_00,
    .exit (tf .s 7 false 0 0 (.v 0) (.v 0) (.v 0) (.v 0) 0 0)),
  (64, 0b0001_0000000_00000000000_00000000000_00000000000_00_0000_1_010_01000011_00,
    .yield (tf .s 2 true 0 0 (.v 0) (.v 0) (.v 0) (.v 0) 0 0)),
  (64, 0b0010_0000000_00000000000_00000000000_00000000000_00_0000_1_010_01000011_00,
    .nop (tf .s 2 true 0 0 (.v 0) (.v 0) (.v 0) (.v 0) 0 0)),
  (96, 0b100000000000000000000_00000000000_0000_0000001_00000000000_00000001001_11000000001_00_0000_0_111_01000100_01,
    .spawn (tf .m 7 false 0 0 (.p 1) (.v 9) (.v 0) (.v 0) 1048576 0) true)]

theorem test_decode_control : reads .w wordsControl = true := by decide +kernel

theorem test_begins_control : wordsControl.all (fun e => begins demo e.2.2) = true := by decide +kernel

/-- Words and what they stand for, part 9. -/
def wordsMemory : List (Nat × Nat × Instr) := [
  (96, 0b111111111111111111111_10011000000_0000_1011001_00000001001_00000000100_00000000010_00_0010_0_111_01010000_01,
    .ld (tf .m 7 false 2 0 (.v 2) (.v 4) (.v 9) (.v 0) 2097151 0) ⟨.b64, .acq, true, ⟨.sys, .x16⟩⟩),
  (96, 0b000000000000000000000_00100000000_0001_1100110_10000000000_00000000100_00000001000_00_0000_0_111_01010000_01,
    .ldS (tf .m 7 false 0 0 (.v 8) (.v 4) (.lit 0) (.v 0) 0 0) ⟨.b128, .rlx, false, ⟨.cor, .x1⟩⟩ true),
  (64, 0b0010_0110000_10000000000_10001000000_00000001000_00_0000_0_111_01010000_00,
    .ldC (tf .s 7 false 0 0 (.v 8) (.lit 64) (.lit 0) (.v 0) 0 0) ⟨.s16, .plain, false, ⟨.thr, .x1⟩⟩),
  (64, 0b0011_1001000_00000000000_00000000100_00000001000_00_0000_0_111_01010000_00,
    .ldr (tf .s 7 false 0 0 (.v 8) (.v 4) (.v 0) (.v 0) 0 0) ⟨.b32, .acq, false, ⟨.dev, .x1⟩⟩),
  (96, 0b100000000000000000000_01010010000_0000_0001101_00000001001_10010000100_00000001000_00_0000_0_111_01010001_01,
    .st (tf .m 7 false 0 0 (.v 8) (.s 4) (.v 9) (.v 0) 1048576 0) ⟨.z8, .rel, true, ⟨.die, .x2⟩⟩),
  (64, 0b0001_0100110_10000000000_00000000100_10000000101_00_0000_0_111_01010001_00,
    .stS (tf .s 7 false 0 0 (.lit 5) (.v 4) (.lit 0) (.v 0) 0 0) ⟨.z16, .rlx, false, ⟨.cor, .x1⟩⟩ true),
  (64, 0b0010_1011100_00000000110_00000000100_11000000001_00_0001_0_111_01010001_00,
    .stc (tf .s 7 false 1 0 (.p 1) (.v 4) (.v 6) (.v 0) 0 0) ⟨.b64, .rel, false, ⟨.dev, .x1⟩⟩),
  (96, 0b000000000000000000100_00000100000_0000_0000001_00000001001_00000000100_00000000000_00_0000_0_111_01010010_01,
    .pf (tf .m 7 false 0 0 (.v 0) (.v 4) (.v 9) (.v 0) 4 0) ⟨.z8, .plain, true, ⟨.thr, .x4⟩⟩),
  (96, 0b111111111111101101000_00000000000_0000_1101011_00000000110_00000000100_00000000010_00_0001_0_111_01100000_01,
    .atom (tf .m 7 false 1 0 (.v 2) (.v 4) (.v 6) (.v 0) 0 0) .exch .b64 true ⟨0x1FFF, .dev, .acq⟩),
  (64, 0b0001_0100001_00000000110_00000000100_00000000010_00_0000_0_111_01100000_00,
    .atomS (tf .s 7 false 0 0 (.v 2) (.v 4) (.v 6) (.v 0) 0 0) .max .s32 true ⟨0, .cor, .rlx⟩)]

theorem test_decode_memory : reads .w wordsMemory = true := by decide +kernel

theorem test_begins_memory : wordsMemory.all (fun e => begins demo e.2.2) = true := by decide +kernel

/-- Words and what they stand for, part 10. -/
def wordsAtomics : List (Nat × Nat × Instr) := [
  (96, 0b100000000000010010000_00000000111_0000_0000100_00000000110_00000000100_00000000010_00_0000_0_111_01100001_01,
    .cas (tf .m 7 false 0 0 (.v 2) (.v 4) (.v 6) (.v 7) 0 0) .b32 false ⟨0x1000, .sys, .ar⟩),
  (64, 0b0000_0001100_00000000110_00000000100_00000000000_00_0000_0_111_01100010_00,
    .red (tf .s 7 false 0 0 (.v 0) (.v 4) (.v 6) (.v 0) 0 0) .add .f32 false ⟨0, .dev, .rlx⟩),
  (96, 0b000000100000001101100_00000000000_0000_0101110_00000010000_00000000100_00000000000_00_0000_0_111_01100011_01,
    .mred (tf .m 7 false 0 0 (.v 0) (.v 4) (.v 16) (.v 0) 0 0) .max .bf16 false ⟨64, .dev, .rel⟩),
  (96, 0b000000000000001100100_00000010000_0001_0000001_00000001100_00000000100_00000001000_00_0000_0_111_01100011_01,
    .mcas (tf .m 7 false 0 0 (.v 8) (.v 4) (.v 12) (.v 16) 0 0) true ⟨0, .dev, .rlx⟩),
  (96, 0b000000000000001101100_00000000110_0010_1101100_00000010000_00000000100_00000000000_00_0000_0_111_01100011_01,
    .mscale (tf .m 7 false 0 0 (.v 0) (.v 4) (.v 16) (.v 6) 0 0) .rup .f32 false ⟨0, .dev, .rel⟩),
  (64, 0b0000_0000000_10000100000_00000000110_00000000000_00_0000_0_111_01110000_00,
    .barInit (tf .s 7 false 0 0 (.v 0) (.v 6) (.lit 32) (.v 0) 0 0) false),
  (96, 0b000000000000000100000_00000000000_0001_0110111_00000000111_00000000110_00000000010_00_0000_0_111_01110000_01,
    .arrive (tf .m 7 false 0 0 (.v 2) (.v 6) (.v 7) (.v 0) 32 0) .rel .dev true),
  (64, 0b0010_0000001_00000000111_00000000110_00000000000_00_0000_0_111_01110000_00,
    .expect (tf .s 7 false 0 0 (.v 0) (.v 6) (.v 7) (.v 0) 0 0) true),
  (64, 0b0011_0010100_00000000111_00000000110_11000000001_00_0000_0_111_01110000_00,
    .wait (tf .s 7 false 0 0 (.p 1) (.v 6) (.v 7) (.v 0) 0 0) .acq .cor false),
  (96, 0b111111111111111100000_00000001010_0100_0000000_00000001000_00000000110_11000000001_00_0000_0_111_01110000_01,
    .cwatch (tf .m 7 false 0 0 (.p 1) (.v 6) (.v 8) (.v 10) 2097120 0) false)]

theorem test_decode_atomics : reads .w wordsAtomics = true := by decide +kernel

theorem test_begins_atomics : wordsAtomics.all (fun e => begins demo e.2.2) = true := by decide +kernel

/-- Words and what they stand for, part 11. -/
def wordsBarriers : List (Nat × Nat × Instr) := [
  (64, 0b0000_1001100_00000000000_00000000000_00000000000_00_0000_0_111_01110001_00,
    .fence (tf .s 7 false 0 0 (.v 0) (.v 0) (.v 0) (.v 0) 0 0) .acq .sys),
  (128, 0b00000000000000000000000001000000_000000000000001000000_00000001000_0000_0000011_00000000110_00000000100_00000000000_00_0000_0_111_10000000_10,
    .copy (tf .l 7 false 0 0 (.v 0) (.v 4) (.v 6) (.v 8) 64 64) true true),
  (96, 0b000000000000000100000_00000000111_0000_0000000_00000000110_00000000100_00000000000_00_0000_0_111_10000001_01,
    .halo (tf .m 7 false 0 0 (.v 0) (.v 4) (.v 6) (.v 7) 32 0)),
  (64, 0b0000_0000001_00000001000_00000000100_11000000001_00_0001_0_111_10000010_00,
    .gqEnq (tf .s 7 false 1 0 (.p 1) (.v 4) (.v 8) (.v 0) 0 0) true),
  (64, 0b0001_0000000_00000000000_00000000100_00000000010_00_0001_0_111_10000010_00,
    .gqResv (tf .s 7 false 1 0 (.v 2) (.v 4) (.v 0) (.v 0) 0 0) false),
  (64, 0b0010_0000000_00000000101_00000000100_00000001000_00_0000_0_111_10000010_00,
    .gqPub (tf .s 7 false 0 0 (.v 8) (.v 4) (.v 5) (.v 0) 0 0)),
  (96, 0b000000000000001000000_00000000000_0011_0000000_00000000110_00000000100_00000000000_00_0000_0_111_10000010_01,
    .gqCfgConfigure (tf .m 7 false 0 0 (.v 0) (.v 4) (.v 6) (.v 0) 64 0)),
  (64, 0b0011_0000001_00000000000_00000000100_00000000000_00_0000_0_111_10000010_00,
    .gqCfgDisable (tf .s 7 false 0 0 (.v 0) (.v 4) (.v 0) (.v 0) 0 0)),
  (64, 0b0011_0000010_00000000110_00000000100_00000000000_00_0000_0_111_10000010_00,
    .gqCfgRelease (tf .s 7 false 0 0 (.v 0) (.v 4) (.v 6) (.v 0) 0 0)),
  (64, 0b0011_0000011_00000000000_00000000100_00000000010_00_0000_0_111_10000010_00,
    .gqCfgQuery (tf .s 7 false 0 0 (.v 2) (.v 4) (.v 0) (.v 0) 0 0))]

theorem test_decode_barriers : reads .w wordsBarriers = true := by decide +kernel

theorem test_begins_barriers : wordsBarriers.all (fun e => begins demo e.2.2) = true := by decide +kernel

/-- Words and what they stand for, part 12. -/
def wordsQueues : List (Nat × Nat × Instr) := [
  (96, 0b000000000001000000000_00000000000_0000_0000000_00000000000_00000000100_11000000001_00_0000_0_111_10000011_01,
    .rlaunch (tf .m 7 false 0 0 (.p 1) (.v 4) (.v 0) (.v 0) 512 0)),
  (64, 0b0000_0000001_00000000000_00000000100_11000000001_00_0000_0_111_10000011_00,
    .rlaunchPrism (tf .s 7 false 0 0 (.p 1) (.v 4) (.v 0) (.v 0) 0 0)),
  (64, 0b0000_0000010_00000000000_00000000100_11000000001_00_0000_0_111_10000011_00,
    .rlaunchSusp (tf .s 7 false 0 0 (.p 1) (.v 4) (.v 0) (.v 0) 0 0)),
  (64, 0b0000_0000011_00000000000_00000000100_11000000001_00_0000_0_111_10000011_00,
    .rlaunchRes (tf .s 7 false 0 0 (.p 1) (.v 4) (.v 0) (.v 0) 0 0)),
  (64, 0b0000_0000100_00000000000_00000000100_11000000001_00_0000_0_111_10000011_00,
    .rlaunchKill (tf .s 7 false 0 0 (.p 1) (.v 4) (.v 0) (.v 0) 0 0)),
  (64, 0b0000_0000101_00000000110_00000000100_11000000001_00_0000_0_111_10000011_00,
    .rlaunchRepl (tf .s 7 false 0 0 (.p 1) (.v 4) (.v 6) (.v 0) 0 0)),
  (64, 0b0001_0000000_10010000100_00000000110_00000000000_00_0000_0_111_10000011_00,
    .wdq (tf .s 7 false 0 0 (.v 0) (.v 6) (.s 4) (.v 0) 0 0)),
  (96, 0b000000000000001000000_00000001000_0000_0000000_00000000110_00000000100_11000000001_00_0000_0_111_10000100_01,
    .sweep (tf .m 7 false 0 0 (.p 1) (.v 4) (.v 6) (.v 8) 64 0)),
  (64, 0b0001_0000000_00000000000_10000010001_00000000000_00_0000_0_111_10000100_00,
    .ctxSet (tf .s 7 false 0 0 (.v 0) (.lit 17) (.v 0) (.v 0) 0 0)),
  (64, 0b0010_0000000_00000000110_00000000100_00000000000_00_0000_0_111_10000100_00,
    .ctxWake (tf .s 7 false 0 0 (.v 0) (.v 4) (.v 6) (.v 0) 0 0))]

theorem test_decode_queues : reads .w wordsQueues = true := by decide +kernel

theorem test_begins_queues : wordsQueues.all (fun e => begins demo e.2.2) = true := by decide +kernel

/-- Words and what they stand for, part 13. -/
def wordsRegions : List (Nat × Nat × Instr) := [
  (96, 0b000000000000001000000_00000000000_0000_1001000_00000000110_00000000100_11000000001_00_0000_0_111_10000101_01,
    .coll (tf .m 7 false 0 0 (.p 1) (.v 4) (.v 6) (.v 0) 64 0) .redsc .max),
  (64, 0b0000_0000000_10000000010_00000000100_11000000001_00_0000_0_111_10100000_00,
    .commit (tf .s 7 false 0 0 (.p 1) (.v 4) (.lit 2) (.v 0) 0 0)),
  (96, 0b000000000000011111110_00000000000_0001_0000000_10000000000_00000000100_11000000001_00_0000_0_111_10100000_01,
    .squash (tf .m 7 false 0 0 (.p 1) (.v 4) (.lit 0) (.v 0) 254 0)),
  (64, 0b0000_1000000_10000000000_00000000100_00000000010_00_0010_0_111_10100001_00,
    .ldBase (tf .s 7 false 2 0 (.v 2) (.v 4) (.lit 0) (.v 0) 0 0) ⟨.b32, .plain, false, ⟨.thr, .x1⟩⟩),
  (64, 0b0001_1000000_10000000000_00000000100_00000000010_00_0000_0_111_10100001_00,
    .stBase (tf .s 7 false 0 0 (.v 2) (.v 4) (.lit 0) (.v 0) 0 0) ⟨.b32, .plain, false, ⟨.thr, .x1⟩⟩),
  (96, 0b000000000000001000000_00000000000_0000_0000000_00000000100_10000000011_11000000001_00_0000_0_111_10100010_01,
    .present (tf .m 7 false 0 0 (.p 1) (.lit 3) (.v 4) (.v 0) 64 0)),
  (64, 0b0000_0000000_10010000010_00000000100_00000001000_00_0010_0_111_10110000_00,
    .tex (tf .s 7 false 2 0 (.v 8) (.v 4) (.s 2) (.v 0) 0 0)),
  (96, 0b000000000000000000000_00000000110_0001_0000000_10010000010_00000000100_00000001000_00_0010_0_111_10110000_01,
    .texF (tf .m 7 false 2 0 (.v 8) (.v 4) (.s 2) (.v 6) 0 0)),
  (96, 0b000000000000000000000_00000001100_0010_0000000_10010000010_00000000100_00000001000_00_0000_0_111_10110000_01,
    .texG (tf .m 7 false 0 0 (.v 8) (.v 4) (.s 2) (.v 12) 0 0)),
  (64, 0b0011_0000000_10010000010_00000000000_00000001000_00_0000_0_111_10110000_00,
    .texQ (tf .s 7 false 0 0 (.v 8) (.v 0) (.s 2) (.v 0) 0 0))]

theorem test_decode_regions : reads .w wordsRegions = true := by decide +kernel

theorem test_begins_regions : wordsRegions.all (fun e => begins demo e.2.2) = true := by decide +kernel

/-- Words and what they stand for, part 14. -/
def wordsFacetsAndTextures : List (Nat × Nat × Instr) := [
  (96, 0b000000000000001000000_00000000000_0000_0000000_00000000100_00000010000_00000001000_00_0100_0_111_10110001_01,
    .trace (tf .m 7 false 4 0 (.v 8) (.v 16) (.v 4) (.v 0) 64 0)),
  (64, 0b0000_0000000_00000001100_10010000100_00000010100_00_0000_0_111_10110010_00,
    .binPut (tf .s 7 false 0 0 (.v 20) (.s 4) (.v 12) (.v 0) 0 0)),
  (96, 0b000000000000001000000_00000000000_0000_0000001_00000000000_10010000100_10000000000_00_0000_0_111_10110010_01,
    .binPutEnd (tf .m 7 false 0 0 (.lit 0) (.s 4) (.v 0) (.v 0) 64 0)),
  (64, 0b0000_0000000_00000000011_00000000010_00000000000_00_0000_0_111_10110011_00,
    .pxlock (tf .s 7 false 0 0 (.v 0) (.v 2) (.v 3) (.v 0) 0 0)),
  (64, 0b0001_0000001_00000000011_00000000000_00000000000_00_0000_0_111_10110011_00,
    .pxunlock (tf .s 7 false 0 0 (.v 0) (.v 0) (.v 3) (.v 0) 0 0) true),
  (96, 0b000000000000000100000_00000000000_0000_0000000_00000000000_00000000000_00000000010_00_0000_0_111_11000000_01,
    .csrr (tf .m 7 false 0 0 (.v 2) (.v 0) (.v 0) (.v 0) 32 0)),
  (96, 0b000000000000000100000_00000000000_0001_0000000_00000000000_00000000100_00000000000_00_0000_0_111_11000000_01,
    .csrw (tf .m 7 false 0 0 (.v 0) (.v 4) (.v 0) (.v 0) 32 0)),
  (96, 0b000000000000000010000_00000000000_0001_0000000_00000000000_00000000100_00000000000_00_0000_0_111_11000000_01,
    .spillbWrite (tf .m 7 false 0 0 (.v 0) (.v 4) (.v 0) (.v 0) 16 0)),
  (96, 0b000000000000000010001_00000000000_0001_0000000_00000000000_00000000100_00000000000_00_0000_0_111_11000000_01,
    .spilllWrite (tf .m 7 false 0 0 (.v 0) (.v 4) (.v 0) (.v 0) 17 0)),
  (96, 0b000000000000100000000_00000000000_0001_0000000_00000000000_00000000101_00000000000_00_0000_0_111_11000000_01,
    .fairtWrite (tf .m 7 false 0 0 (.v 0) (.v 5) (.v 0) (.v 0) 256 0))]

theorem test_decode_facets_and_textures : reads .w wordsFacetsAndTextures = true := by decide +kernel

theorem test_begins_facets_and_textures : wordsFacetsAndTextures.all (fun e => begins demo e.2.2) = true := by decide +kernel

/-- Words and what they stand for, part 15. -/
def wordsSystem : List (Nat × Nat × Instr) := [
  (96, 0b000000000010000000001_00000000000_0001_0000000_00000000000_10000000001_00000000000_00_0000_0_111_11000000_01,
    .mestatHaltResume (tf .m 7 false 0 0 (.v 0) (.lit 1) (.v 0) (.v 0) 1025 0)),
  (96, 0b000000000010000000011_00000000000_0001_0000000_00000000000_10000000010_00000000000_00_0000_0_111_11000000_01,
    .mestatDiscard (tf .m 7 false 0 0 (.v 0) (.lit 2) (.v 0) (.v 0) 1027 0)),
  (64, 0b0000_0000000_00000000000_10000000101_00000000000_00_0000_0_111_11000001_00,
    .trap (tf .s 7 false 0 0 (.v 0) (.lit 5) (.v 0) (.v 0) 0 0)),
  (64, 0b0001_0000000_00000000000_00000000000_00000000000_00_0000_0_111_11000001_00,
    .bkpt (tf .s 7 false 0 0 (.v 0) (.v 0) (.v 0) (.v 0) 0 0)),
  (64, 0b0010_0000000_00000000000_00000000000_00000000000_00_0000_0_111_11000001_00,
    .eret (tf .s 7 false 0 0 (.v 0) (.v 0) (.v 0) (.v 0) 0 0)),
  (96, 0b000000000000000100000_00000000000_0000_0000000_00000000110_00000000100_00000000000_00_0000_0_111_11000010_01,
    .icinv (tf .m 7 false 0 0 (.v 0) (.v 4) (.v 6) (.v 0) 32 0)),
  (64, 0b0001_0000001_00000000000_00000000000_00000000000_00_0000_0_111_11000010_00,
    .tlbinv (tf .s 7 false 0 0 (.v 0) (.v 0) (.v 0) (.v 0) 0 0) true)]

theorem test_decode_system : reads .w wordsSystem = true := by decide +kernel

theorem test_begins_system : wordsSystem.all (fun e => begins demo e.2.2) = true := by decide +kernel

/-- Words and what they stand for, part 16. -/
def wordsCaller : List (Nat × Nat × Instr) := [
  (96, 0b010000101000000000000_00000000000_0000_0010100_00000000011_00000000010_00000000000_00_0000_0_111_10010000_01,
    .mma (tf .m 7 false 0 0 (.v 0) (.v 2) (.v 3) (.v 0) 544768 0) 1 2 false),
  (96, 0b111111111111100000000_00000000000_0001_0110001_10000000000_00000000010_00000000000_00_0000_0_111_10010000_01,
    .mmaZ (tf .m 7 false 0 0 (.v 0) (.v 2) (.lit 0) (.v 0) 2096896 0) 3 0 true),
  (96, 0b000000000010000000000_00000000000_0000_0101000_00000000011_00000000010_00000000000_00_0000_0_111_10010001_01,
    .tfetch (tf .m 7 false 0 0 (.v 0) (.v 2) (.v 3) (.v 0) 1024 0) 2 true),
  (96, 0b000000000010000000000_00000000000_0001_0000000_00000000000_00000000000_00000000000_00_0000_0_111_10010001_01,
    .trel (tf .m 7 false 0 0 (.v 0) (.v 0) (.v 0) (.v 0) 1024 0)),
  (96, 0b000000011000001000000_00000000110_0000_0100000_00000000101_00000000100_00000000000_00_0000_0_111_10010010_01,
    .drain (tf .m 7 false 0 0 (.v 0) (.v 4) (.v 5) (.v 6) 12352 0) 2),
  (96, 0b100000001000000000000_00000000000_0001_0000000_00000000000_00000000000_00000000000_00_0000_0_111_10010010_01,
    .azero (tf .m 7 false 0 0 (.v 0) (.v 0) (.v 0) (.v 0) 1052672 0)),
  (64, 0b0000_0000000_10000000011_00000000010_00000000000_00_0000_0_111_10010011_00,
    .dqPut (tf .s 7 false 0 0 (.v 0) (.v 2) (.lit 3) (.v 0) 0 0) false),
  (64, 0b0001_0000001_00000000000_00000000000_00000000010_00_0001_0_111_10010011_00,
    .gqTake (tf .s 7 false 1 0 (.v 2) (.v 0) (.v 0) (.v 0) 0 0) true),
  (64, 0b0010_0000000_00000000000_10000001111_11000000001_00_0000_0_111_10010011_00,
    .mwait (tf .s 7 false 0 0 (.p 1) (.lit 15) (.v 0) (.v 0) 0 0))]

theorem test_decode_caller : reads .c wordsCaller = true := by decide +kernel

theorem test_begins_caller : wordsCaller.all (fun e => begins demoC e.2.2) = true := by decide +kernel


/-! ### Ill-formed terms and words: each check of R41 refuses what it should -/

/-- The unit refuses the bits with the subcode of R42. -/
def refuses (u : Unit2) (w : Nat) (sub : BitVec 8) : Bool :=
  match decode u (toLe 16 w) with
  | .error e => e == sub
  | .ok _ => false

/-- R42, 0x01 to 0x05: an unassigned major (0x0D), an unassigned minor (5 of 0x00), a modifier bit set that `iadd` lacks
(bit 53), an unused field (B of `iabs`), a filler with another bit, and an instruction longer than what is left. -/
theorem test_refused_codes :
    (refuses .w 0b0000_0001000_10001111111_00000000101_00000001100_00_0000_0_111_00001101_00 1 &&
     refuses .w 0b1111_0001000_10001111111_00000000101_00000001100_00_0000_0_111_00000000_00 2 &&
     refuses .w 0b0000_0001001_10001111111_00000000101_00000001100_00_0000_0_111_00000000_00 3 &&
     refuses .w 0b0010_0001000_00000000001_00000000100_00000000010_00_0000_0_111_00000011_00 3 &&
     refuses .w 0x7 5 && refuses .w 0x3 5) = true ∧
    decode .w (toLe 7 0) = .error 4 ∧ decode .w (toLe 12 2) = .error 4 := by decide +kernel

/-- R42, 0x06 to 0x09: a reserved class (111), special register 14, queue register 5, lookahead on `iadd`, a retained
literal, and a literal as destination. -/
theorem test_refused_operands :
    (refuses .w 0b0000_0001000_11100000001_00000000101_00000001100_00_0000_0_111_00000000_00 6 &&
     refuses .w 0b0000_0001000_10110001110_00000000101_00000001100_00_0000_0_111_00000000_00 6 &&
     refuses .w 0b0000_0001000_10100000101_00000000101_00000001100_00_0000_0_111_00000000_00 6 &&
     refuses .w 0b0000_0001000_10001111111_00000000101_00000001100_00_0001_0_111_00000000_00 7 &&
     refuses .w 0b0000_0001000_10001111111_00000000101_00000001100_10_0000_0_111_00000000_00 8 &&
     refuses .w 0b0000_0001000_10001111111_00000000101_10000001100_00_0000_0_111_00000000_00 9) = true := by
  decide +kernel

/-- R40: a uniform register is no operand of the Caller; R52: a wave's instruction is none of its own. -/
theorem test_refused_units :
    refuses .c 0b0000_0001000_10010000001_00000000101_00000001100_00_0000_0_111_00000000_00 6 = true ∧
    Instr.wf .c (.iadd (fs (.v 1) (.v 2) (.s 3)) .s32 false) = false ∧
    Instr.wf .w (.iadd (fs (.v 1) (.v 2) (.s 3)) .s32 false) = true ∧
    Instr.wf .w (.mwait (fs (.v 1) (.lit 1) (.v 0))) = false ∧
    Instr.wf .c (.shfl (fs (.v 1) (.v 2) (.v 3)) .b32 .idx) = false := by decide +kernel

/-- Terms no unit may run: a 64-bit type for `irem`, a signed `and`, an immediate in the S form, B beside I, an unused
operand, X where the form lacks it, a value of no class, and lookahead on `fadd`. -/
theorem test_ill_formed_terms :
    ([Instr.irem (fs (.v 1) (.v 2) (.v 3)) .z64, .and (fs (.v 1) (.v 2) (.v 3)) .s32,
      .iadd (tf .s 7 false 0 0 (.v 1) (.v 2) (.v 3) (.v 0) 0 5) .s32 false,
      .iadd (tf .l 7 false 0 0 (.v 1) (.v 2) (.v 3) (.v 0) 0 5) .s32 false,
      .nop (fs (.v 1) (.v 0) (.v 0)), .bkpt (tf .s 7 false 0 0 (.v 0) (.v 0) (.v 0) (.v 0) 1 0),
      .mov (fs (.v 1) (.bad 0x700) (.v 0)) .b32,
      .fadd (tf .s 7 false 1 0 (.v 1) (.v 2) (.v 3) (.v 0) 0 0) .f32 .rne false false,
      .ld (fs (.v 3) (.v 2) (.v 0)) ⟨.b32, .plain, false, ⟨.dev, .x1⟩⟩,
      .iadd (tf .s 7 false 0 1 (.v 1) (.lit 2) (.v 3) (.v 0) 0 0) .s32 false].all fun i => !i.wf .w) = true := by
  decide +kernel

/-- R13, R14: register v32 of an allocation of 32, an odd pair, a pair that ends beyond the allocation. -/
theorem test_register_ranges :
    ((descOf .w (.iadd (fs (.v 32) (.v 1) (.v 2)) .s32 false)).bind fun e => e.rangeFault .w 32) = some 1 ∧
    ((descOf .w (.iadd (fs (.v 31) (.v 1) (.v 2)) .s32 false)).bind fun e => e.rangeFault .w 32) = none ∧
    ((descOf .w (.iadd64 (fs (.v 5) (.v 2) (.v 4)) .s64 false)).bind fun e => e.rangeFault .w 32) = some 2 ∧
    ((descOf .w (.ld (fs (.v 28) (.v 2) (.v 0)) ⟨.b128, .plain, false, ⟨.thr, .x1⟩⟩)).bind
      fun e => e.rangeFault .w 30) = some 1 := by decide +kernel

/-! ### Results of single steps, from the spec's worked examples -/

/-- The words that wait to be written to lane 0 after an LL instruction. -/
def pendAfter (s : State) (i : Instr) : Option (List Word) :=
  ((after s i).thread? s.cur 0).bind fun t => t.accs.getLast?.bind fun a => a.val

/-- v2 and v3 hold the two numbers. -/
def two (a b : Word) : State := demoV [(2, a), (3, b)]

/-- The run of R95: the low sum of 0xFFFFFFF0 + 0x20 is 0x10 and its carry joins 1 + 2 in the next. -/
theorem test_iaddc :
    regAfter (two 0xFFFFFFF0 0x20) (.iaddc (fm (.v 10) (.v 2) (.v 3) (.lit 0) 0) 1) 10 = 0x10 ∧
    ((after (two 0xFFFFFFF0 0x20) (.iaddc (fm (.v 10) (.v 2) (.v 3) (.lit 0) 0) 1)).thread? 128 0).map (·.pred 1) =
      some true := by decide +kernel

/-- R92, R96: a wrap, and the clamp of a signed sum. -/
theorem test_iadd_sat :
    regAfter (two 0x7FFFFFFF 1) (.iadd (fs (.v 4) (.v 2) (.v 3)) .s32 false) 4 = 0x80000000 ∧
    regAfter (two 0x7FFFFFFF 1) (.iadd (fs (.v 4) (.v 2) (.v 3)) .s32 true) 4 = 0x7FFFFFFF := by decide +kernel

/-- R98: −7 / 2 is −3 and leaves −1; −2^31 / −1 is −2^31. -/
theorem test_idiv :
    pendAfter (two 0xFFFFFFF9 2) (.idiv (fs (.v 4) (.v 2) (.v 3)) .s32 false) = some [0xFFFFFFFD] ∧
    pendAfter (two 0xFFFFFFF9 2) (.irem (fs (.v 4) (.v 2) (.v 3)) .s32) = some [0xFFFFFFFF] ∧
    pendAfter (two 0x80000000 0xFFFFFFFF) (.idiv (fs (.v 4) (.v 2) (.v 3)) .s32 false) = some [0x80000000] ∧
    pendAfter (two 9 0) (.idiv (fs (.v 4) (.v 2) (.v 3)) .z32 false) = some [0xFFFFFFFF] := by decide +kernel

/-- The example of R104: bytes 1, 4, 7 and the sign of 7. -/
theorem test_perm :
    regAfter (demoV [(2, 0x44332211), (3, 0x88776655), (5, 0xF741)]) (.perm (fm (.v 4) (.v 2) (.v 3) (.v 5) 0) false) 4 =
      0xFF885522 := by decide +kernel

/-- The example of R108: a base of 2^32, 3 × 8 and 64. -/
theorem test_lea :
    let s := demoV [(7, 1), (9, 3)]
    let i := Instr.lea (fm (.v 20) (.v 6) (.v 9) (.v 0) 64) .z32 .x8
    (regAfter s i 20, regAfter s i 21) = (0x58, 1) := by decide +kernel

/-- R101: a shift by the width or more. -/
theorem test_shifts :
    regAfter (two 0x80000001 40) (.sar (fs (.v 4) (.v 2) (.v 3))) 4 = 0xFFFFFFFF ∧
    regAfter (two 0x80000001 40) (.shr (fs (.v 4) (.v 2) (.v 3))) 4 = 0 ∧
    regAfter (two 0x80000001 36) (.rol (fs (.v 4) (.v 2) (.v 3))) 4 = 0x18 := by decide +kernel

/-- R89: a register of the wave-wide sum of one lane is that lane's value. -/
theorem test_redux :
    regAfter (two 0x40000000 0) (.redux (fs (.v 4) (.v 2) (.v 0)) .f32 false .add .rne) 4 = 0x40000000 := by
  decide +kernel

/-- IEEE 754 by hand: 1 / 3, the root of 2, and 2^24 + 1 tied to even. -/
theorem test_float :
    pendAfter (two 0x3F800000 0x40400000) (.fdiv (fs (.v 4) (.v 2) (.v 3)) .f32 .rne false false) = some [0x3EAAAAAB] ∧
    pendAfter (two 0x40000000 0) (.fsqrt (fs (.v 4) (.v 2) (.v 0)) .f32 .rne false false) = some [0x3FB504F3] ∧
    regAfter (two 0x4B800000 0x3F800000) (.fadd (fs (.v 4) (.v 2) (.v 3)) .f32 .rne false false) 4 = 0x4B800000 ∧
    regAfter (two 0x4B800000 0x3F800000) (.fadd (fs (.v 4) (.v 2) (.v 3)) .f32 .rup false false) 4 = 0x4B800001 := by
  decide +kernel

/-- The worked conversions of the number formats: ties, the top of E4M3, a subnormal target, saturation. -/
theorem test_cvt :
    let c := fun (w : Word) dt rnd sat => regAfter (two w 0) (.cvt (fs (.v 4) (.v 2) (.v 0)) dt .f32 rnd sat false 0 0) 4
    c 0x3F8CCCCD .e4m3 .rne false = 0x39 ∧ c 0x3F8CCCCD .e4m3 .rtz false = 0x38 ∧ c 0x43E60000 .e4m3 .rne false = 0x7E ∧
    c 0x43E80000 .e4m3 .rne false = 0x7E ∧ c 0x43FA0000 .e4m3 .rne false = 0x7F ∧ c 0x43FA0000 .e4m3 .rne true = 0x7E ∧
    c 0x7F800000 .e5m2 .rne false = 0x7C ∧ c 0x37400000 .e5m2 .rne false = 0x01 ∧ c 0x37400000 .e5m2 .rtz false = 0 ∧
    c 0x3F808000 .bf16 .rne false = 0x3F80 ∧ c 0x3F808000 .bf16 .rup false = 0x3F81 ∧
    c 0xC302B333 .s8 .rne true = 0x80 ∧ c 0xC302B333 .s8 .rne false = 0x7D := by decide +kernel

/-- R125: `cvt.s8.s32` of 300 is 0x2C, and 0x7F under SAT. -/
theorem test_cvt_integer :
    let c := fun sat => regAfter (two 300 0) (.cvt (fm (.v 4) (.v 2) (.v 0) (.v 0) 0) .s8 .s32 .rne sat false 0 0) 4
    c false = 0x2C ∧ c true = 0x7F := by decide +kernel

/-- R11: the group of 16 products of 0.5 onto 2^24 gives 16,777,224. -/
theorem test_mma_group :
    mmaElem 0x4B800000 (List.replicate 16 (fval 0x3F800000 .f32 false)) (List.replicate 16 (fval 0x3F000000 .f32 false)) =
      0x4B800004 := by decide +kernel

/-- The region of `demo` with fault actions and a trap handler. -/
def demoAct (act : DWord) : State :=
  { demo with regions := demo.regions.map fun e =>
      (e.1, { e.2 with rcb := { e.2.rcb with act := act, trape := 0x2000 } }) }

/-- Lane 0 after one instruction. -/
def lane0 (s : State) (i : Instr) : Thread := ((after s i).thread? s.cur 0).getD .empty

/-- R165, R166: `bkpt` where ACT delivers (01 at bits 45:44) goes on at the handler, with `epc` at the breakpoint and the
handler mark; where it holds (10), the thread is parked there; where it kills (00), the wave is gone. -/
theorem test_bkpt :
    let i := Instr.bkpt (fs (.v 0) (.v 0) (.v 0))
    let t := lane0 (demoAct 0x100000000000) i
    (t.st, t.pc, t.epc, t.ecause, t.mark) = (.running, 0x2000, 0x1000, 0x0016, true) ∧
    ((lane0 (demoAct 0x200000000000) i).st, (lane0 (demoAct 0x200000000000) i).pc) = (.parked 0x16 0 0, 0x1000) ∧
    (after (demoAct 0) i).waves = [] := by decide +kernel

/-- R166: `eret` in a handler resumes at `epc`; R169: outside one it faults, with 0x05 and subcode 0x06. -/
theorem test_eret :
    let s := demo.updThread 128 0 fun t => { t with mark := true, epc := 0x3000 }
    let i := Instr.eret (fs (.v 0) (.v 0) (.v 0))
    ((lane0 s i).pc, (lane0 s i).mark) = (0x3000, false) ∧ (lane0 demo i).st = .parked 5 6 0 := by decide +kernel

/-- R16: p7 takes no value, and an instruction guarded by its negation does nothing. -/
theorem test_p7 :
    ((after (two 5 5) (.icmp (fs (.p 7) (.v 2) (.v 3)) .s32 .ne)).thread? 128 0).map (·.pred 7) = some true ∧
    regAfter (two 5 5) (.iadd (tf .s 7 true 0 0 (.v 4) (.v 2) (.v 3) (.v 0) 0 0) .s32 false) 4 = 0 := by decide +kernel

/-- R252, R254: the value an atomic leaves, by hand. -/
theorem test_atomic_values :
    AccKind.newVal (.rmw .min .s32 0xFFFFFFFF) 5 = 0xFFFFFFFF ∧ AccKind.newVal (.rmw .min .z32 0xFFFFFFFF) 5 = 5 ∧
    AccKind.newVal (.rmw .add .f32 0x3F800000) 0x40000000 = 0x40400000 ∧
    AccKind.newVal (.cas .z32 7 9) 7 = 9 ∧ AccKind.newVal (.cas .z32 7 9) 8 = 8 := by decide +kernel

/-- R153, R155: a load of a byte extends its sign and waits; R31: an address that is not a multiple of 4 faults a word. -/
theorem test_load :
    let s := { demoV [(4, 0x2000)] with mem := putBytes demo.mem 0x2000 [0x80, 0x12, 0x34, 0x56] }
    let i := Instr.ld (fm (.v 10) (.v 4) (.lit 0) (.v 0) 0) ⟨.s8, .plain, false, ⟨.thr, .x1⟩⟩
    let j := Instr.ld (fm (.v 10) (.v 4) (.lit 0) (.v 0) 2) ⟨.b32, .plain, false, ⟨.thr, .x1⟩⟩
    ((after s i).accOf 128 0 s.nextId).map (fun a => a.parts.map fun p => (p.key, p.size)) = some [(0x2000, 1)] ∧
    (match exec (.llResultReturn 128 0 s.nextId false) (after s i) with
      | .next t => (t.thread? 128 0).map (·.reg 10)
      | _ => none) = some 0xFFFFFF80 ∧
    (lane0 s j).st = .parked 2 1 0 := by decide +kernel

/-- R155: a store is performed grain by grain, its bytes little-endian (R7). -/
theorem test_store :
    let s := demoV [(4, 0x2000), (6, 0x04030201)]
    let i := Instr.st (fm (.v 6) (.v 4) (.lit 0) (.v 0) 8) ⟨.b32, .plain, false, ⟨.thr, .x1⟩⟩
    (match exec (.storePerform 128 0 s.nextId false) (after s i) with
      | .next t => (List.range 6).map fun n => t.byte (0x2007 + n)
      | _ => []) = [0, 1, 2, 3, 4, 0] := by decide +kernel

/-- R135 and the encoding of a call 64 bytes back: the return address is pushed and the target reached. -/
theorem test_call :
    ((lane0 demo (.call (fm (.v 0) (.v 0) (.v 0) (.v 0) 0x1FFFF0))).pc,
     (lane0 demo (.call (fm (.v 0) (.v 0) (.v 0) (.v 0) 0x1FFFF0))).stack) = (0xFC0, [0x100C]) ∧
    (lane0 demo (.ret (fs (.v 0) (.v 0) (.v 0)))).st = .parked 6 2 0 := by decide +kernel

/-- R138 to R140: `kset` of a wave of one thread writes its lane; a `join` of that mask passes at once, and one of an empty
mask faults with 0x19 and subcode 0x02. -/
theorem test_join :
    ((after demo (.kset (fs (.k 2) (.v 0) (.v 0)) false)).waves.find 128).map (·.k) = some [(2, 1)] ∧
    ((lane0 { demo with waves := demo.waves.upd 128 fun x => { x with k := [(2, 1)] } }
      (.join (fs (.v 0) (.k 2) (.v 0)))).st,
     (lane0 { demo with waves := demo.waves.upd 128 fun x => { x with k := [(2, 1)] } }
      (.join (fs (.v 0) (.k 2) (.v 0)))).pc) = (.running, 0x1008) ∧
    (lane0 demo (.join (fs (.v 0) (.k 2) (.v 0)))).st = .parked 0x19 2 0 := by decide +kernel

/-- R200, R203, R204: an object for two arrivals completes its phase at the second, and GEN advances to 1. -/
theorem test_barrier :
    let s := after (demoV [(6, 0x40)]) (.barInit (fs (.v 0) (.v 6) (.lit 2)) false)
    s.bar ⟨0, 0x40⟩ = ⟨0, false, false, 0, 2, 2, 0, 0, 0⟩ ∧
    (s.barStep ⟨0, 0x40⟩ { s.bar ⟨0, 0x40⟩ with pend := 1 }).bar ⟨0, 0x40⟩ = ⟨0, false, false, 0, 2, 1, 0, 0, 0⟩ ∧
    (s.barStep ⟨0, 0x40⟩ { s.bar ⟨0, 0x40⟩ with pend := 0 }).bar ⟨0, 0x40⟩ = ⟨1, false, false, 0, 2, 2, 0, 0, 0⟩ := by
  decide +kernel

/-- R21, R42: a CSR number without a CSR, from a register, faults with 0x01 and subcode 0x06; `epc` keeps bits 63:2. -/
theorem test_csr :
    (lane0 (demoV [(4, 0xFFF)]) (.csrr (fs (.v 2) (.v 4) (.v 0)))).st = .parked 1 6 0 ∧
    (lane0 (demoV [(4, 0x1007)]) (.csrw (fm (.v 0) (.v 4) (.v 0) (.v 0) 0x020))).epc = 0x1004 := by decide +kernel

/-! ### Witnesses: concrete states and operands that meet the hypotheses of the statements, clause by clause -/

/-- The instruction issues in a context and a state with these properties. -/
def good (s : State) (i : Instr) (p : Ctx → State → Bool) (fits : Ctx → State → Bool := fun _ _ => true) : Bool :=
  match s.startOf i fits with
  | .go c r => p c r
  | .stop _ => false

/-- The outcome of a computation that answers a value. -/
def isOk {ε α : Type} (e : Except ε α) (p : α → Bool := fun _ => true) : Bool :=
  match e with
  | .ok x => p x
  | .error _ => false

/-- The parts an access reaches. -/
def reached (t : Trans2) (p : State → List Part → Bool := fun _ _ => true) : Bool :=
  match t with
  | .ok s ps => p s ps
  | _ => false

/-- The step goes on. -/
def goesOn (o : Host.Outcome State Fault Refusal) : Bool :=
  match o with
  | .next _ => true
  | _ => false

/-- Two threads on one path, in lanes 0 and 1; lane 1 has p0 set. -/
def demo2 : State :=
  { demo with waves := demo.waves.upd 128 fun x => { x with
      threads := x.threads.set 1 { x.threads.getD 0 .empty with preds := 1 } } }

/-- `ResetInv` has no hypothesis; the invariants of `StepKeepsMemory` hold at reset and of `demo`. -/
theorem reset_inv : Memory.wf State.reset.mem = true ∧ Memory.wf demo.mem = true ∧
    goesOn (step { demo with frozen := true }) = true ∧ goesOn (step demo) = true := by decide +kernel

/-- `StepRunsDecoded`: a wave whose block stands in memory, and one whose block is fetched; the agenda's two forms. -/
theorem witness_step_runs_decoded :
    let s := State.reset.withFetchWord 64 0x2000000000001D0C
    let s2 := { s with waves := s.waves.upd 128 fun x => { x with fetched := some (0x1000, toLe 32 0x2000000000001D0C) } }
    let ok := fun (s : State) (fetched : Bool) => match s.tick.waves.find s.cur with
      | some x => x.turn = some 0 && s.tick.mayIssue s.cur x && !(x.pathOf 0).isEmpty && x.fetched.isSome == fetched &&
          (match s.tick.translate (x.agent s.cur) (x.threads.getD 0 .empty).pc.toNat .ex (fun _ => none) with
          | .ok s1 leaf =>
            let blk := (s1.fetchBlock s.cur x.rgn (s1.hostKey (s1.fnOf x.rgn) (leaf.key + ((x.threads.getD 0 .empty).pc.toNat / 32 * 32 - leaf.va)))).2
            (match decode x.unit (if fetched then (x.fetched.getD (0, [])).2 else blk) with
             | .ok (i, _) => i == .nop (fs (.v 0) (.v 0) (.v 0))
             | .error _ => false)
          | _ => false)
      | none => false
    ok s false = true ∧ ok s2 true = true ∧ s.frozen = false ∧ s.agenda = [] ∧
    (∃ w rest, ({ s with agenda := [.issue 5] } : State).agenda = .issue w :: rest) ∧
    (∃ rest, ({ s with agenda := [.event .freezePin] } : State).agenda = .event .freezePin :: rest ∧
      descOf .w .freezePin = none) := by
  refine ⟨by decide +kernel, by decide +kernel, by decide +kernel, by decide +kernel, ⟨_, _, rfl⟩, ⟨_, rfl, rfl⟩⟩

/-- `FetchReadsMemory`: a block of local memory that no cache holds. -/
theorem witness_fetch_reads_memory :
    0x1000 % 32 = 0 ∧ demo.windowOf 0x1000 = none ∧ demo.cutOff 0x1000 = false ∧ demo.poisoned 0x1000 32 = false ∧
    (demo.core 1).icache.find (0x1000 / 32) = none := by
  decide +kernel

/-- `IssueBegins`: the last register of the allocation, and a pair at its end. -/
theorem witness_issue_begins :
    let ok := fun i => match demo.waves.find demo.cur, descOf .w i with
      | some x, some e => x.turn == some 0 && !(x.pathOf 0).isEmpty && x.threads.all (fun t => t.accs.isEmpty) &&
          e.rangeFault x.unit x.bound == none && e.queueSrcs.isEmpty && e.queueDst == none
      | _, _ => false
    ok (.iadd (fs (.v 1023) (.v 5) (.lit 127)) .s32 false) = true ∧
    ok (.iadd64 (fs (.v 1022) (.v 4) (.s 6)) .z64 true) = true := by decide +kernel

/-- `RegisterRangeFaults`: one register beyond an allocation of 32, and an odd pair. -/
theorem witness_register_range_faults :
    let s := { demo with waves := demo.waves.upd 128 fun x => { x with alloc := 32 } }
    let ok := fun i sub => match s.waves.find s.cur, descOf .w i with
      | some x, some e => x.turn == some 0 && !(x.pathOf 0).isEmpty && x.threads.all (fun t => t.accs.isEmpty) &&
          e.rangeFault x.unit x.bound == some sub
      | _, _ => false
    ok (.iadd (fs (.v 32) (.v 5) (.lit 127)) .s32 false) 1 = true ∧
    ok (.iadd64 (fs (.v 31) (.v 4) (.s 6)) .z64 true) 2 = true := by decide +kernel

/-- `SourceOperands`, `DestinationsTakeResults`, `LanesActInOrder`: contexts of a wave with each class of destination, a lane
outside the group, and no queue register popped. -/
theorem witness_contexts :
    good demo2 (.iadd (tf .s 0 false 0 0 (.v 4) (.v 2) (.v 3) (.v 0) 0 0) .s32 false)
      (fun c r => c.u == .w && c.pops.isEmpty && c.group == [1] && c.path == [0, 1] && (r.waves.find c.w).isSome &&
        (r.thread? c.w 1).isSome) = true ∧
    good demo2 (.iadd (fs (.s 4) (.v 2) (.v 3)) .s32 false) (fun c r => c.group == [0, 1] && (r.waves.find c.w).isSome) =
      true ∧
    good demo2 (.iadd (fs (.k 4) (.v 2) (.v 3)) .s32 false) (fun c r => c.group == [0, 1] && (r.waves.find c.w).isSome) =
      true ∧
    good demo2 (.iadd (fs (.p 6) (.v 2) (.v 3)) .s32 false) (fun c r => c.group == [0, 1] && (r.waves.find c.w).isSome) =
      true := by decide +kernel

/-- `LogicShiftBits`: fields at both ends of the word. -/
theorem witness_bit_fields : (bitExtract 0xFFFFFFFF (31 + 256) false).testBit 0 = true ∧
    (bitInsert 1 (31 + 256) 0).testBit 31 = true ∧ bytePermute 0 0xFF000000 0xF000 / 256 ^ 3 % 256 = 255 := by
  decide +kernel

/-- `IntegerDivision`, `IntegerArithmetic` and the other statements of results: `test_begins_…` above meet `Begins` of each
instruction; here the divisions' corners issue. -/
theorem witness_division :
    good (two 0x80000000 0xFFFFFFFF) (.idiv (fs (.v 4) (.v 2) (.v 3)) .s32 true)
      (fun c _ => intOf (c.a 0) .s32 == -(2 ^ 31) && intOf (c.b 0) .s32 == -1) = true ∧
    good (two 1 0) (.irem (fs (.v 4) (.v 2) (.v 3)) .z32) (fun c _ => c.b 0 == 0) = true := by decide +kernel

/-- A region whose slot 1 holds a record. -/
def demoSlot (r : BitVec 128) : State :=
  { demo with regions := demo.regions.map fun e => (e.1, { e.2 with rcb := { e.2.rcb with slots := [0, r] } }) }

/-- `Conversions`: a slot that is unbound faults with subcode 1 of R86, and a usable Q4 slot does not. -/
theorem witness_conversions :
    let q : BitVec 128 := 7 + BitVec.ofNat 128 (32 * 2 ^ 24)
    good demo (.cvt (fs (.v 4) (.v 2) (.v 0)) .e4m3 .f32 .rne false false 0 0)
      (fun c r => cvtFault (r.slot c.x.rgn 0) .e4m3 .f32 0 0 c.e.f.a == none) = true ∧
    good demo (.cvt (fm (.v 4) (.v 2) (.v 0) (.v 0) 0) .slot .f32 .rne false false 0 1)
      (fun c r => (cvtFault (r.slot c.x.rgn 1) .slot .f32 0 1 c.e.f.a).isSome) = true ∧
    good demo (.qpack (fs (.v 4) (.v 2) (.v 0)) 1) (fun c r => ((r.slot c.x.rgn 1).checkIn (fun n => n == 7)).isSome) =
      true ∧
    good (demoSlot q) (.qpack (fs (.v 4) (.v 2) (.v 0)) 1)
      (fun c r => (r.slot c.x.rgn 1).checkIn (fun n => n == 7) == none) = true ∧
    good (demoSlot q) (.qunpk (fs (.v 4) (.v 2) (.v 3)) 1 .f32)
      (fun c r => (r.slot c.x.rgn 1).checkIn (fun n => n == 7) == none && c.group.all fun l => c.b l % 64 != 63) = true := by
  decide +kernel

/-- `Branches` and `CallsAndReturns`: aligned and misaligned targets; a stack of less than 4, a full one at its spill
limit and below it, one with an entry, an empty one. -/
theorem witness_calls :
    let st := fun (l : List DWord) (p : DWord) => demo.updThread 128 0 fun t => { t with stack := l, spillp := p, spilll := 8 }
    let i := Instr.call (fm (.v 0) (.v 0) (.v 0) (.v 0) 4)
    good (st [8, 8, 8] 0) i (fun c _ => decide ((c.thread 0).stack.length < 4)) = true ∧
    good (st [8, 8, 8, 8] 8) i (fun c _ => (c.thread 0).stack.length == 4 && (c.thread 0).spillp == (c.thread 0).spilll) =
      true ∧
    good (st [8] 0) (.ret (fs (.v 0) (.v 0) (.v 0)))
      (fun c _ => ((c.thread 0).stack.getLast?).any fun a => a.toNat % 4 == 0) = true ∧
    good (st [] 0) (.ret (fs (.v 0) (.v 0) (.v 0)))
      (fun c _ => (c.thread 0).stack.isEmpty && decide ((c.thread 0).spillp.toNat ≤ (c.thread 0).spillb.toNat)) = true ∧
    good demo (.brx (fm (.v 0) (.v 4) (.v 0) (.v 0) 2)) (fun c _ => (c.a 0 2 + 2) % 4 == 2) = true := by decide +kernel

/-- `MasksYieldNop`: a group, and one without a lane. -/
theorem witness_masks :
    let g := fun gs f => (tf .s 7 gs 0 0 f (.v 0) (.v 0) (.v 0) 0 0)
    good demo (.kset (g false (.k 1)) true) (fun c _ => c.group == [0]) = true ∧
    good demo (.kset (g true (.k 1)) true) (fun c _ => c.group.isEmpty) = true ∧
    good demo (.kclr (g false (.k 1)) false) (fun c _ => c.group == [0]) = true ∧
    good demo (.kclr (g true (.k 1)) false) (fun c _ => c.group.isEmpty) = true ∧
    good demo (.yield (g true (.v 0))) (fun c _ => c.group.isEmpty) = true ∧
    good demo2 (.yield (g false (.v 0))) (fun c _ => !c.group.isEmpty) = true ∧
    (demo.waves.find 128).isSome = true := by decide +kernel

/-- `JoinWsyncExit`: a mask with and without the lane, no instance, one that agrees, one of another mask, one at another
instruction; an instance that is complete and one that is not. -/
theorem witness_joins :
    let s := fun (j : NMap JoinInst) => { demo2 with waves := demo2.waves.upd 128 fun x => { x with k := [(2, 3)], joins := j } }
    let i := Instr.join (fs (.v 0) (.k 2) (.v 0))
    let ok := fun j p => good (s j) i fun c r => match r.waves.find c.w with
      | some x => NMap.get 0 c.x.k 2 == 3 && p c x && (r.drain c.w 0).isSome
      | none => false
    ok [] (fun _ x => x.joins.find 2 == none) = true ∧
    ok [(2, ⟨3, 0x1000, 2⟩)] (fun c x => (x.joins.find 2).any fun j => j.mask == 3 && j.pc == c.pc) = true ∧
    ok [(2, ⟨7, 0x1000, 4⟩)] (fun _ x => (x.joins.find 2).any fun j => j.mask != 3) = true ∧
    ok [(2, ⟨3, 0x2000, 2⟩)] (fun c x => (x.joins.find 2).any fun j => j.mask == 3 && j.pc != c.pc) = true ∧
    (maskHas 3 0, maskHas 3 1, maskHas 3 2) = (true, true, false) ∧
    ok [(2, ⟨3, 0x1000, 3⟩)] (fun _ x => x.allIn 3 3) = true ∧ ok [(2, ⟨3, 0x1000, 2⟩)] (fun _ x => !x.allIn 3 2) = true ∧
    good demo2 (.wsync (fs (.v 0) (.lit 3) (.v 0))) (fun c r => match r.waves.find c.w with
      | some x => (x.syncs.find? fun j => j.mask &&& 3 != 0 && j.mask != 3) == none && (r.drain c.w 0).isSome
      | none => false) = true := by decide +kernel

/-- `JoinWsyncExit`: a lane with nothing pending whose wave has another, and a wave whose threads are done. -/
theorem witness_exits :
    good demo2 (.exit (fs (.v 0) (.v 0) (.v 0))) (fun c r => (r.returnAll c.w 0).isSome && (match r.waves.find c.w with
      | some x => x.arrs.isEmpty && x.tile == none && (x.threads[0]?).isSome && (x.threads[1]?).any fun t => !t.done
      | none => false)) = true ∧
    ((demo.waves.upd 128 fun x => { x with threads := x.threads.map fun _ => .empty }).find 128).any
      (fun x => x.threads.all Thread.done) = true := by decide +kernel

/-- `Spawns`: an aligned and a misaligned entry, depth 8, a release, a bin that takes the record, and no bin left. -/
theorem witness_spawns :
    let i := Instr.spawn (fm (.p 1) (.v 4) (.v 0) (.v 0) 4) false
    let deep := demo.updThread 128 0 fun t => { t with sdep := 8 }
    let bin : SpawnBin := { rgn := 1, entry := 0x1010, tag := none, sdep := 1, recs := [], faultHeld := false, unwritten := false }
    let full := demo.setCluster 0 { demo.cluster 0 with bins := (List.range 64).map fun n => (n, { bin with sdep := 3 }) }
    let one := demo.setCluster 0 { demo.cluster 0 with bins := [(5, bin)] }
    let app := fun (s : State) (p : Except (BitVec 8) State → Bool) => good s i fun c r =>
      match r.releaseAt c.w 0 .cls with
      | some r1 => p (r1.spawnAppend (clusterOfWave c.w) c.x.rgn (c.spawnEntry 0) (r1.tagOf c.x.rgn)
          ((c.thread 0).sdep + 1) (BitVec.ofNat 128 (c.a 0 4)))
      | none => false
    app demo (fun e => isOk e) = true ∧ app full (fun e => !isOk e) = true ∧
    good deep i (fun c _ => (c.thread 0).sdep == 8 && (c.spawnEntry 0).toNat % 4 == 0) = true ∧
    good (demoV [(6, 2)]) (.spawn (fs (.p 1) (.v 4) (.v 6)) false) (fun c _ => (c.spawnEntry 0).toNat % 4 == 2) = true ∧
    good one i (fun c r => (r.cluster 0).bins.any (fun e => e.2.hasKey c.x.rgn (c.spawnEntry 0) (r.tagOf c.x.rgn)
      ((c.thread 0).sdep + 1) && e.2.recs.isEmpty) && decide ((r.cluster 0).poolUsed < 4096)) = true := by decide +kernel

/-- A plain word access. -/
def mWord : MemMod := ⟨.b32, .plain, false, ⟨.thr, .x1⟩⟩

/-- A word access with an ordering at `.dev`. -/
def mOrd (o : Ord) : MemMod := ⟨.b32, o, false, ⟨.dev, .x1⟩⟩

/-- The first GiB mapped with another class, in the TLBs and nowhere else. -/
def demoCls (cls : PgCls) (rd wr : Bool) : State :=
  let leaf : Leaf := { Leaf.loaded with cls := cls, rd := rd, wr := wr }
  (demo.setCore 1 { demo.core 1 with tlb := [leaf] }).setCluster 0 { demo.cluster 0 with tlb := [leaf] }

/-- Registers for the memory instructions: v4 and v5 hold an address. -/
def demoAt (va : Word) : State := demoV [(4, va)]

/-- `TranslationHit`: the last byte of a page in local memory, readable and writable; and a page without the permission. -/
theorem witness_translation_hit :
    let ok := fun (s : State) (p : Leaf → Bool) => match s.waves.find 128 with
      | some x => coreOfWave 128 == some 1 && (match tlbFind (s.core 1).tlb (s.asrOf x.rgn) 0x2FFF with
        | some leaf => locOf leaf.key == 0 && s.atsFor (s.asrOf x.rgn) (leaf.key + (0x2FFF - leaf.va)) == none && p leaf &&
            s.inPartition (clusterOfWave 128) (leaf.key + (0x2FFF - leaf.va)) &&
            s.windowBad x.rgn .tagged (leaf.key + (0x2FFF - leaf.va)) == none
        | none => false)
      | none => false
    0x2FFF % 4096 + 1 ≤ 4096 ∧ ok demo (fun l => l.rd && l.wr && clsAny l.cls == none && clsStore l.cls == none) = true ∧
    ok (demoCls .h false false) (fun l => !l.rd) = true := by decide +kernel

/-- `LoadsIssue`: an aligned and a misaligned address, one that is reached; the last word of a window and the first beyond
it; the last word of the constant space and the first beyond it. -/
theorem witness_loads :
    let f := fs (.v 10) (.v 4) (.v 0)
    let rd := fun cls c (r : State) va size => reached (r.reach (Wave.agent c.x c.w) .rd cls .tagged va size)
    good (demoAt 0x2FFC) (.ld f mWord) (fun c r => c.a 0 2 % 4 == 0 && rd clsAny c r (c.a 0 2) 4) = true ∧
    good (demoAt 0x2FFD) (.ld f mWord) (fun c _ => c.a 0 2 % 4 != 0) = true ∧
    good (demoAt 0x2FFC) (.ldBase f mWord) (fun c r => reached (r.reach (c.x.agent c.w) .rd clsAny .base (c.a 0 2) 4)) = true ∧
    good (demoAt 0x2FFC) (.ldr f (mOrd .acq)) (fun c r => c.a 0 2 % 4 == 0 && rd clsResv c r (c.a 0 2) 4) = true ∧
    good (demoAt 0x2FFE) (.ldr f (mOrd .acq)) (fun c _ => c.a 0 2 % 4 != 0) = true ∧
    good (demoAt 65532) (.ldS f mWord false) (fun c r => decide (c.a 0 + 4 ≤ r.scrSize c.x.wg)) = true ∧
    good (demoAt 65536) (.ldS f mWord false) (fun c r => decide (¬ c.a 0 + 4 ≤ r.scrSize c.x.wg)) = true ∧
    good (demoAt 131068) (.ldS f mWord true) (fun c r => decide (c.a 0 + 4 ≤ r.tobSize c.x.wg)) = true ∧
    good (demoAt 65532) (.ldC f mWord) (fun c r => match r.region? c.x.rgn with
      | some y => decide (c.a 0 + 4 ≤ y.rcb.constsz) && reached (r.reach (c.x.agent c.w) .rd clsAny .base
          ((y.rcb.constb.toNat + c.a 0) % 2 ^ 64) 4)
      | none => false) = true ∧
    good (demoAt 65536) (.ldC f mWord) (fun c r => (r.region? c.x.rgn).any fun y => decide (y.rcb.constsz < c.a 0 + 4)) =
      true := by decide +kernel

/-- `demoAt` with its region as facet 1 of set 2, whose window has no frames. -/
def facetDemo (va : Nat) : State :=
  let s := demoAt va
  ({ s with sets := s.sets.set 2 { FSet.fresh with st := .opened, facets := [1] } } : State).updRegion 1 fun r =>
    { r with tag := some 17 }

/-- `StoresIssue`: the same for stores; and a prefetch on a page of class P that its TLB holds, and where none holds it. -/
theorem witness_stores :
    let f := fs (.v 10) (.v 4) (.v 0)
    let wr := fun cls mode c (r : State) va size => reached (r.reach (Wave.agent c.x c.w) .wr cls mode va size)
    let pf := Instr.pf (fs (.v 0) (.v 4) (.v 0)) ⟨.z8, .plain, false, ⟨.thr, .x1⟩⟩
    let cold := (demoAt 0x2000).setCluster 0 { demo.cluster 0 with tlb := [] }
    good (demoAt 0x2FFC) (.st f mWord) (fun c r => c.a 0 2 % 4 == 0 && wr clsStore .tagged c r (c.a 0 2) 4) = true ∧
    good (demoAt 0x2FFE) (.st f mWord) (fun c _ => c.a 0 2 % 4 != 0) = true ∧
    good (demoAt 0x2FFC) (.stBase f mWord) (fun c r => wr clsStore .tagged c r (c.a 0 2) 4 &&
      (facetOf (r.liveTag c.x.rgn)).isNone) = true ∧
    good (facetDemo 0x2FFC) (.stBase f mWord) (fun c r => wr clsStore .base c r (c.a 0 2) 4 &&
      (facetOf (r.liveTag c.x.rgn)).isSome) = true ∧
    good (demoAt 65532) (.stS f mWord false) (fun c r => decide (c.a 0 + 4 ≤ r.scrSize c.x.wg)) = true ∧
    good (demoAt 65536) (.stS f mWord false) (fun c r => decide (¬ c.a 0 + 4 ≤ r.scrSize c.x.wg)) = true ∧
    good (demoAt 0x2FFC) (.stc (fs (.p 1) (.v 4) (.v 6)) (mOrd .rel)) (fun c r => wr clsResv .tagged c r (c.a 0 2) 4) =
      true ∧
    good ((demoCls .p true true).updThread 128 0 fun t => { t with v := [(4, 0x2000)] }) pf (fun c r =>
      match tlbFind (r.core 1).tlb (r.asrOf c.x.rgn) (c.a 0 2) with
      | some leaf => leaf.cls != .h && r.checkLeaf (c.x.agent c.w) leaf (c.a 0 2) .rd clsAny == none && (r.core 1).caches &&
          locOf (leaf.key + (c.a 0 2 - leaf.va)) == 0 && r.atsFor (r.asrOf c.x.rgn) (leaf.key + (c.a 0 2 - leaf.va)) == none
      | none => false) = true ∧
    good (cold.setCore 1 { demo.core 1 with tlb := [] }) pf (fun c r =>
      tlbFind (r.core 1).tlb (r.asrOf c.x.rgn) (c.a 0 2) == none &&
      tlbFind (r.cluster 0).tlb (r.asrOf c.x.rgn) (c.a 0 2) == none) = true := by decide +kernel

/-- `AtomicsIssue`: aligned and misaligned, reached, at the home and by the service wave. -/
theorem witness_atomics :
    let ctl : AtomCtl := ⟨0, .dev, .ar⟩
    let req := fun c l => Ctx.atomReq c l ctl false 4 false (.rmw .add .s32 (c.b l 1)) (some 1)
    let i := Instr.atom (fs (.v 2) (.v 4) (.v 6)) .add .s32 false ctl
    let cls : AtomCtl := ⟨0, .cls, .ar⟩
    let reqc := fun c l => Ctx.atomReq c l cls false 4 false (.rmw .add .s32 (c.b l 1)) (some 1)
    let via := fun c a => match a with
      | .pend _ a => viaService (Ctx.w c) a
      | _ => false
    good (demoAt 0x2FFC) i (fun c r => c.a 0 2 % 4 == 0 && reached (r.reach (c.x.agent c.w) .wr (clsAtom .dev) .tagged
      (c.a 0 2) 4) && !via c (r.issueGlob c 0 (req c 0))) (fun c r => r.svcFits c req) = true ∧
    good (demoAt 0x2FFD) i (fun c _ => c.a 0 2 % 4 != 0) (fun c r => r.svcFits c req) = true ∧
    good ((demoCls .p true true).updThread 128 0 fun t => { t with v := [(4, 0x2FFC)] })
      (.atom (fm (.v 2) (.v 4) (.v 6) (.v 0) 0) .add .s32 false cls)
      (fun c r => c.a 0 2 % 4 == 0 && via c (r.issueGlob c 0 (reqc c 0))) (fun c r => r.svcFits c reqc) = true ∧
    good (demoAt 0x2FC0) (.mred (fm (.v 0) (.v 4) (.v 16) (.v 0) 0) .max .s32 false ⟨0, .dev, .rel⟩)
      (fun c r => c.a 0 2 % 64 == 0 && reached (r.reach (c.x.agent c.w) .wr clsHome .tagged (c.a 0 2) 64))
      (fun c r => r.svcFits c fun c l => c.atomReq l ⟨0, .dev, .rel⟩ false 64 true (.mred .max .s32 (c.b l 16)) none) = true ∧
    good (demoAt 65532) (.atomS (fs (.v 2) (.v 4) (.v 6)) .max .s32 false ⟨0, .cor, .rlx⟩)
      (fun c r => c.a 0 % 4 == 0 && decide (c.a 0 + 4 ≤ r.scrSize c.x.wg)) = true := by decide +kernel

/-- An access of one part at the home. -/
def accAt (kind : AccKind) (key size : Nat) : Acc :=
  probe 1 kind .glob [⟨key, key, size, .h⟩]

/-- `AccessesPerform`, `Reservations`: a part at the end of a grain, outside every window, without errors. -/
theorem witness_accesses_perform :
    demo.cutOff 0x2FFC = false ∧ demo.poisoned 0x2FFC 4 = false ∧
    ((List.range 4).all fun k => demo.windowOf (0x2FFC + k) == none) = true ∧ 0x2FFC % 32 + 4 ≤ 32 ∧
    (AccKind.rmw .add .s32 1).isRmw = true ∧ (toLe 4 7).length = 4 ∧ (demo.thread? 128 0).isSome = true ∧
    ((demo.updThread 128 0 fun t => { t with resv := some ⟨.home, 0x2FFC / 32⟩ }).thread? 128 0).map (·.resv) =
      some (some ⟨.home, 0x2FFC / 32⟩) ∧ (demo.thread? 128 0).map (·.resv) = some none := by decide +kernel

/-- `demo` with accesses pending on lane 0, none on class P. -/
def demoAccs (l : List Acc) : State := demo.updThread 128 0 fun t => { t with accs := l }

/-- `IssuedAccessesComplete`: a result that is known; a store of one grain and of two; a fence; an atomic of the home; a
request of the service wave with and without a result. -/
theorem witness_issued_accesses :
    let done : Acc := { accAt .calc 0 0 with parts := [], dst := some ⟨.v 9, 1, true⟩, val := some [5] }
    let st : Acc := accAt (.store [1, 2, 3, 4]) 0x2FFC 4
    let st2 : Acc := accAt (.store (List.replicate 16 7)) 0x2FF8 16
    let rmw : Acc := accAt (.rmw .add .s32 1) 0x2FFC 4
    let svc := fun (d : Option Dst) =>
      let s := demoAccs [{ rmw with dst := d }]
      s.setCluster 0 { s.cluster 0 with svc := [⟨128, 0, 1⟩] }
    (((demoAccs [done]).performUpTo 128 0 1).any fun t => (t.accOf 128 0 1).any fun b => b.dst.isSome && b.val.isSome) =
      true ∧
    done.queue? = none ∧ ((demoAccs [done]).waves.find 128).isSome = true ∧
    (st.splitGrain [1, 2, 3, 4]).2 = none ∧ ((demoAccs [st]).performUpTo 128 0 1).isSome = true ∧
    (st2.splitGrain (List.replicate 16 7)).2.isSome = true ∧ (demoAccs [st2]).chainIds 128 0 1 = [(128, 0, 1)] ∧
    (((demoAccs [st2]).perform 128 0 (st2.splitGrain (List.replicate 16 7)).1).any fun p => p.full == none) = true ∧
    ((demoAccs [accAt .fence 0 0]).performUpTo 128 0 1).isSome = true ∧
    ((demoAccs [rmw]).performUpTo 128 0 1).isSome = true ∧ (demoAccs [rmw]).chainIds 128 0 1 = [(128, 0, 1)] ∧
    ((demoAccs [rmw]).cluster (clusterOfWave 128)).svc.contains ⟨128, 0, 1⟩ = false ∧
    (((svc none).serveOne 0 ⟨128, 0, 1⟩).any fun t => t.accOf 128 0 1 == none) = true ∧
    (((svc (some ⟨.v 9, 1, true⟩)).serveOne 0 ⟨128, 0, 1⟩).any fun t => (t.accOf 128 0 1).isSome && (t.returnOne 128 0 1).isSome) =
      true := by decide +kernel

/-- Bytes placed at addresses, eight at a time. -/
def mem64 (m : NMap Byte) (l : List (Nat × Nat)) : NMap Byte := l.foldl (fun m e => putBytes m e.1 (toLe 8 e.2)) m

/-- Tables at 0 and 0x20000 that map the first GiB of the address space 0 to the first of local memory, class H (R279). -/
def tables : List (Nat × Nat) := [(0, 0x20001), (0x20000, 31 + 2 ^ 53)]

/-- A descriptor from fields (high bit, low bit, value). -/
def mkDesc (l : List (Nat × Nat × Nat)) : BitVec 512 := l.foldl (fun d e => dput d e.1 e.2.1 e.2.2) 0

/-- `demo` with 64 bytes of a descriptor at 0x4000 in memory and at offset 0x400 of the scratch window; v4 and v5 name it,
v6 a counter at 0x5000, v8 the window offset 0x800. -/
def demoDesc (d : BitVec 512) (v : NMap Word := [(4, 0x4000), (6, 0x5000), (8, 0x800)]) : State :=
  let s := demoV v
  { s with
    mem := putBytes s.mem 0x4000 (toLe 64 d.toNat)
    wgs := s.wgs.upd 0 fun y => { y with scr := winPut y.scr 0x400 (toLe 64 d.toNat) } }

/-- A barrier object in the window of `demo` at 0x800. -/
def demoBar (b : Bar) (v : NMap Word) : State := (demoV v).putBar ⟨0, 0x800⟩ b

/-- `BarrierInstructions`: the last object of the window and the first offset beyond it; a misaligned operand; a reserved
field; an object with a watch and without; the largest count; a complete phase and an open one; a lane's mask. -/
theorem witness_barriers :
    let on := fun (s : State) i p => good s i fun c r => match r.barIssue c.w 0 c.id with
      | some r1 => isOk (r1.winPlace c.x false (c.barAddr 0)) fun b =>
          (match r1.settleOwn c.w 0 c.id (.scr b.wg) b.off 32 with
           | some r2 => isOk (r2.winPlace c.x false (c.barAddr 0)) fun b2 => b2 == b && p c r2 b
           | none => false)
      | none => false
    let ini := Instr.barInit (fs (.v 0) (.v 6) (.v 7)) false
    on (demoV [(6, 65504), (7, 16777215)]) ini (fun c r b => decide (¬ r.scrSize b.wg < b.off + 32) && !barBad (r.barRaw b) &&
      (r.bar b).wch == 0 && decide (0 < c.b 0) && decide (c.b 0 < 2 ^ 24) && c.barAddr 0 % 32 == 0) = true ∧
    on (demoV [(6, 65536)]) ini (fun _ r b => decide (r.scrSize b.wg < b.off + 32)) = true ∧
    on (demoV [(6, 65505)]) ini (fun c _ _ => c.barAddr 0 % 32 != 0) = true ∧
    on (demoBar ⟨0, false, false, 255, 1, 1, 0, 0, 0⟩ [(6, 0x800), (7, 1)]) ini
      (fun c r b => (r.bar b).wch != 0 && decide (0 < c.b 0)) = true ∧
    on { demoV [(6, 0x800)] with wgs := demo.wgs.upd 0 fun y => { y with scr := winPut y.scr 0x81F [1] } } ini
      (fun _ r b => barBad (r.barRaw b)) = true ∧
    on (demoBar ⟨5, false, false, 0, 1, 1, 0xFFFFFFFF, 0, 0⟩ [(6, 0x800), (7, 0)]) (.expect (fs (.v 0) (.v 6) (.v 7)) false)
      (fun c r b => decide ((r.bar b).btgt + c.b 0 < 2 ^ 32)) = true ∧
    on (demoBar ⟨5, false, false, 0, 1, 1, 0, 0, 0⟩ [(6, 0x800), (7, 4)]) (.wait (fs (.p 1) (.v 6) (.v 7)) .acq .cor false)
      (fun c r b => (r.bar b).pend != 0 && phaseDone (r.bar b).gen (c.b 0) && (r.acquireAt c.w 0 .cor).isSome) = true ∧
    on (demoBar ⟨5, false, false, 0, 1, 1, 0, 0, 0⟩ [(6, 0x800), (7, 5)]) (.wait (fs (.p 1) (.v 6) (.v 7)) .none .cor false)
      (fun c r b => (r.bar b).pend != 0 && !phaseDone (r.bar b).gen (c.b 0)) = true ∧
    on (demoBar ⟨5, false, false, 0, 1, 0, 0, 0, 0⟩ [(6, 0x800), (7, 5)]) (.wait (fs (.p 1) (.v 6) (.v 7)) .none .cor false)
      (fun c r b => (r.bar b).pend == 0 && !phaseDone (r.bar b).gen (c.b 0) &&
        phaseDone ((r.barStep b (r.bar b)).bar b).gen (c.b 0)) = true := by decide +kernel

/-- `BarrierInstructions`: arrivals of a lane in and outside its mask, with a thread that has yet to arrive; a watch of a
counter that is reached; the arrival of a watch. -/
theorem witness_arrivals :
    let s := { demo2 with waves := demo2.waves.upd 128 fun x => { x with threads := x.threads.map fun t =>
      { t with v := [(6, 0x800), (7, 3), (8, 0x5000)] } } }
    good s (.arrive (fs (.v 2) (.v 6) (.v 7)) .none .cor false) (fun c r => match r.waves.find c.w with
      | some x => x.kind != .caller && ((r.thread? c.w 0).bind fun t => t.fenced) == none && maskHas (BitVec.ofNat 32 (c.b 0)) 0 && x.arrs.isEmpty &&
          !x.allIn (BitVec.ofNat 32 (c.b 0)) (maskOf [0])
      | none => false) = true ∧
    good s (.arrive (fs (.v 2) (.v 6) (.lit 2)) .none .cor false)
      (fun c _ => !maskHas (BitVec.ofNat 32 (c.b 0)) 0) = true ∧
    good s (.cwatch (fm (.p 1) (.v 6) (.v 8) (.lit 1) 0) false) (fun c r => c.b 0 2 % 8 == 0 &&
      reached (r.reach (c.x.agent c.w) .rd clsHome .base (c.b 0 2) 8) fun _ ps => ps.length == 1) = true ∧
    (let w : Watch := ⟨9, 0x5000, 0, some ⟨0, 0x800⟩, none, 1, none, none⟩
     let t := { demo with watches := [w] }
     (t.watches.find? fun y => y.id == 9) = some w ∧ w.target.toNat ≤ leBytes (t.homeBytes none w.key 8)) := by
  decide +kernel

/-- `BarrierPhases`: an object of the greatest fields, one that is complete, one that is not, one with nothing pending. -/
theorem witness_phases :
    (demo.wgs.find 0).isSome = true ∧ phaseDone 0 0xFFFFFFFF = true ∧ phaseDone 0x7FFFFFFE 0xFFFFFFFF = true ∧
    ((demoBar ⟨0xFFFFFFFF, false, false, 255, 7, 0, 3, 3, 0⟩ []).bar ⟨0, 0x800⟩).pend = 0 := by decide +kernel

/-- `CopiesIssue`: a well-formed descriptor whose range ends with its window, one byte too long, and an ill-formed one. -/
theorem witness_copies_issue :
    let d := fun (l dim : Nat) => mkDesc [(63, 0, 0x6000), (95, 64, l), (143, 128, dim), (175, 160, 1), (191, 176, 1)]
    let i := Instr.copy (fm (.v 0) (.v 4) (.v 8) (.lit 0) 0) true false
    let ok := fun d p => good (demoDesc d) i (fun c r => match r.readDesc c 0 (addrSum (c.a 0 2) 0 1 c.immX 64) 64 with
        | .ok r1 d => p c r1 d
        | .stop _ => false) (fun c r => r.slotsFit c)
    ok (d 65528 8) (fun c r d => !copyBad d && copyFits d 65528 (r.scrSize 0) && isOk (r.winPlace c.x false 0) &&
      isOk (r.doneOf c 0 false) fun e => decide (e.1.slotsUsed (e.1.slotCore c 0) < 256)) = true ∧
    ok (d 65532 8) (fun _ r d => !copyBad d && !copyFits d 65532 (r.scrSize 0)) = true ∧
    ok (d 65528 6) (fun _ _ d => copyBad d) = true ∧
    (let h := mkDesc [(1, 0, 1), (95, 64, 0), (127, 96, 65532), (143, 128, 4), (159, 144, 1), (255, 224, 2 ^ 30 + 0x800)]
     good (demoDesc h [(4, 0x400), (6, 0x800)]) (.halo (fm (.v 0) (.v 4) (.v 6) (.lit 0) 0)) (fun c r =>
      match r.winDesc c 0 (addrSum (c.a 0) 0 1 c.immX 32) 32 with
      | .ok r1 d => !haloBad d && decide (dfield d 127 96 + dfield d 143 128 ≤ r1.scrSize c.x.wg) &&
          (r1.partnerOf c.x (dfield d 1 0)).isSome && isOk (r1.barAt c.x true (dfield d 255 224)) &&
          isOk (r1.barAt c.x false (c.b 0))
      | .stop _ => false) (fun c r => r.slotsFit c) = true) ∧
    (let h := mkDesc [(143, 128, 6), (159, 144, 1)]
     good (demoDesc h [(4, 0x400), (6, 0x800)]) (.halo (fm (.v 0) (.v 4) (.v 6) (.lit 0) 0)) (fun c r =>
      match r.winDesc c 0 (addrSum (c.a 0) 0 1 c.immX 32) 32 with
      | .ok _ d => haloBad d
      | .stop _ => false) (fun c r => r.slotsFit c) = true) := by decide +kernel

/-- An operation of `demo`'s wave, to its barrier. -/
def copyOf (kind : CopyKind) (d : BitVec 512) (started : Bool) : CopyOp :=
  ⟨7, kind, 1, 1, none, 0, 0, 128, 0, 0, d, 0, 0, 8, 0, .bar ⟨0, 0x800⟩, some (⟨0, 0x800⟩, 0), started, false, 0x1000, none, 0⟩

/-- `CopiesMove`: a part from memory that is reached and read, one whose page is not there, one from scratch to the TOB, a
halo, and a halo that may start. -/
theorem witness_copies_move :
    let from_ := fun g => copyOf .copy (mkDesc [(63, 0, g), (95, 64, 0x900), (143, 128, 8), (175, 160, 1), (191, 176, 1)]) true
    let with_ := fun (o : CopyOp) => { demoBar ⟨0, false, false, 0, 1, 1, 8, 0, 0⟩ [] with copies := [o] }
    let at_ := fun (o : CopyOp) => (with_ o).setOp 7 fun o => some { o with started := true }
    ((with_ (from_ 0x6000)).copies.find? fun p => p.id == 7) = some (from_ 0x6000) ∧
    (match (at_ (from_ 0x6000)).engParts (from_ 0x6000).eng .rd clsAny 0x6000 8 with
      | .ok s1 ps => (match ((s1.copyOwnParts (from_ 0x6000) ps).copyOwn (from_ 0x6000) (.scr 0) 0x900 8).engFetch
          (from_ 0x6000).eng ps with
        | .ok _ bs => bs.length == 8
        | _ => false)
      | .stop _ => false) = true ∧
    (match (at_ (from_ 0x40000000)).engParts (from_ 0x40000000).eng .rd clsAny 0x40000000 8 with
      | .stop (.fault _ f) => f.code == 4
      | _ => false) = true ∧
    (let h := copyOf .halo (mkDesc [(95, 64, 65528), (127, 96, 0), (143, 128, 8), (159, 144, 1)]) true
     dfield h.desc 95 64 + 8 ≤ (with_ h).scrSize h.src) ∧
    (let h := copyOf .halo 0 false
     let s := { demoBar ⟨1, false, false, 0, 1, 1, 0, 0, 0⟩ [] with copies := [h] }
     phaseDone (s.bar ⟨0, 0x800⟩).gen 0 = true ∧ (s.wgs.find 0).map (fun y => (y.saving, y.saved)) = some (false, false) ∧
       (s.force (.engine (some (.thread h.w h.lane)) [h.core] []) .cls).isSome = true) := by
  decide +kernel

/-- `demo` whose region is granted queue 3, configured so. -/
def demoQ (q : GQueue) (v : NMap Word) : State :=
  ({ demoV v with regions := demo.regions.map fun e =>
      (e.1, { e.2 with rcb := { e.2.rcb with qlo := 3, qn := 1, dpool := 2 } }) } : State).setQueue 0 3 q

/-- A queue to a bin. -/
def binQueue : GQueue := { GQueue.fresh with enabled := true, cons := 1, fill := 1, bmax := 1, entry := 0x1000, cfgRgn := some 1 }

/-- `GatherInstructions`: an enabled queue with room; a disabled one; an identifier beyond 15 bits; a reserved slot that is
published; a queue that can be configured, with a good and a bad descriptor; entries to free, and too many. -/
theorem witness_gather_instructions :
    let slot : GSlot := ⟨4, none, 0, 1, none, none⟩
    let enq := Instr.gqEnq (fs (.p 1) (.v 4) (.v 8)) false
    good (demoQ binQueue [(4, 3)]) enq (fun c r => isOk (r.queueFor c.x.rgn (c.a 0)) fun e => e == (0, 3) &&
      (r.releaseAt c.w 0 .dev).any fun r1 => (r1.queue 0 3).enabled && r1.roomFor 0 3 == some none) = true ∧
    good (demoQ { binQueue with enabled := false } [(4, 3)]) (.gqResv (fs (.v 2) (.v 4) (.v 0)) false)
      (fun c r => isOk (r.queueFor c.x.rgn (c.a 0)) && !(r.queue 0 3).enabled) = true ∧
    good (demoQ binQueue [(4, 32768)]) enq (fun c _ => decide (2 ^ 15 ≤ c.a 0)) = true ∧
    good (demoQ { binQueue with slots := [slot] } [(4, 3), (5, 4)]) (.gqPub (fs (.v 8) (.v 4) (.v 5))) (fun c r =>
      (r.releaseAt c.w 0 .dev).any fun r1 => ((r1.queue 0 3).slots.find? fun t =>
        t.ticket == c.b 0 && t.data.isNone && t.rgn == c.x.rgn) == some slot) = true ∧
    (let d := mkDesc [(319, 256, 0x1000), (239, 232, 1), (231, 224, 32), (209, 208, 1)]
     let s := fun d => { demoQ .fresh [(4, 3), (6, 0x4000)] with mem := putBytes demo.mem 0x4000 (toLe 64 (BitVec.toNat (w := 512) d)) }
     let ok := fun d bad => good (s d) (.gqCfgConfigure (fs (.v 0) (.v 4) (.v 6))) fun c r =>
      isOk (r.queueCfg c.x.rgn (c.a 0)) && (r.queue 0 3).slots.isEmpty && !(r.queue 0 3).enabled &&
      (match r.readDesc c 0 (addrSum (c.b 0 2) 0 1 c.offX 64) 64 with
       | .ok _ e => queueDescBad e == bad && dfield e 511 448 == 0 && dfield e 447 384 == 0
       | .stop _ => false)
     ok d false = true ∧ ok 0 true = true) ∧
    good (demoQ binQueue [(4, 3)]) (.gqCfgConfigure (fs (.v 0) (.v 4) (.v 6))) (fun c r =>
      isOk (r.queueCfg c.x.rgn (c.a 0)) && (r.queue 0 3).enabled) = true ∧
    good (demoQ { binQueue with unfreed := [(5, 0), (2, 1)] } [(4, 3), (6, 7)]) (.gqCfgRelease (fs (.v 0) (.v 4) (.v 6)))
      (fun c r => decide (c.b 0 ≤ ((r.queue 0 3).unfreed.map Prod.fst).sum)) = true ∧
    good (demoQ { binQueue with unfreed := [(5, 0), (2, 1)] } [(4, 3), (6, 8)]) (.gqCfgRelease (fs (.v 0) (.v 4) (.v 6)))
      (fun c r => decide (((r.queue 0 3).unfreed.map Prod.fst).sum < c.b 0)) = true := by decide +kernel

/-- `GatherEvents`: a queue and a spawn bin that fire first, a reservation of 65,536 clocks, a queue that holds, and a
delivery that finds a core. -/
theorem witness_gather_events :
    let full : GSlot := ⟨0, some 9, 0, 1, none, none⟩
    let q := demoQ { binQueue with slots := [full] } []
    (match q.firable 0 with | x :: _ => !x.bin && (q.fireQueue 0 x.num).2 | [] => false) = true ∧ q.mayFire 0 1 = true ∧
    (let b : SpawnBin := { rgn := 1, entry := 0x1010, tag := none, sdep := 1, recs := List.replicate 32 ⟨0, 0, none⟩,
                           faultHeld := false, unwritten := false }
     let s0 := demoQ .fresh []
     let s := s0.setCluster 0 { s0.cluster 0 with bins := [(5, b)] }
     (match s.firable 0 with | x :: _ => x.bin && (s.fireSpawn 0 x.num).2 | [] => false) = true) ∧
    (0 : Nat) + 65536 ≤ ({ q with clks := q.clks.set 192 65536 } : State).clusterClk 0 ∧
    q.clusterClk 0 < ({ q.cluster 0 with firedAt := 4 } : Cluster).firedAt ∧ q.mayFire 0 2 = false ∧
    (let held := fun (va : Nat) =>
       { demoQ { binQueue with faultHeld := true, hold := some (false, va) } [] with mem := mem64 demo.mem tables }
     let ok := fun (s : State) (va : Nat) => match s.gathTry 1 0 false va (s.queue 0 3).faultHeld with
       | (t, none) => !(t.queue 0 3).unwritten
       | (_, some _) => false
     ok (held 0x4000) 0x4000 = true ∧ ok (held 0x40000000) 0x40000000 = false) ∧
    (let t := q.queue 0 3
     t.cfgRgn = some 1 ∧ t.hold = none ∧ t.unwritten = false ∧ ((t.pre.take t.bmax).all fun u => u.spill.isNone) = true ∧
       (q.fireBin 0 3 t 1 (t.pre.take t.bmax)).2 = true) ∧
    ((demoQ { binQueue with slots := [{ full with data := none }] } []).queue 0 3).slots = [⟨0, none, 0, 1, none, none⟩] ∧
    (let s := (q.fireBin 0 3 (q.queue 0 3) 1 [full]).1
     (match s.deliveries, s.region? 1 with
      | [d], some x => x.st == .running && s.mayDeliver d.rgn && !s.heldBack 0 d.rgn && (s.deliveryCores d).contains 2 &&
          s.tileFits d.kind 2 && (s.plan d.rgn 2 x.rcb x.rcb.wave1).isSome && (lowestFree x.pool x.rcb.dpool).isSome
      | _, _ => false) = true) := by decide +kernel

/-- A control block at 0x8200 below the region of `demo`, whose own stands at 0x8000: 32 registers, one workgroup of one
thread, save records of 0x3000 bytes. -/
def demoRcb (l : List (Nat × Nat) := []) : State :=
  { demoV [(4, 0x8200)] with
    regions := demo.regions.map fun e => (e.1, { e.2 with rcbVa := 0x8000, rcbKey := 0x8000 })
    mem := mem64 demo.mem (tables ++ [(0x8200, 0x8000), (0x8228, 32), (0x8230, 2 ^ 32 + 1), (0x8260, 0x3000 * 2 ^ 32),
      (0x82B0, 0x10000)] ++ l) }

/-- A child of `demo`'s region, launched. -/
def demoChild : State := ((demoRcb []).launch ((demoRcb []).issuerOf 1) 0x8200).1

/-- `RegionLaunches`: an accepted block, one that is refused, a misaligned one; a request that is answered; a region that is
named, one that is not, and the states the controls need. -/
theorem witness_region_launches :
    let i := Instr.rlaunch (fs (.p 1) (.v 4) (.v 0))
    good (demoRcb []) i (fun c r => (r.releaseAt c.w 0 .dev).any fun r1 =>
      let o := r1.launch (r1.issuerOf c.x.rgn) 0x8200
      o.2 == 0 && (o.1.thread? c.w 0).isSome && (o.1.region? c.x.rgn).any fun y => y.st != .suspended) = true ∧
    isOk ((demoRcb []).readRegion ((demoRcb []).issuerOf 1) 0x8200)
      (fun x => x.rcb.depn == 0 && !((demoRcb []).accept x).heldByPrism (demoRcb []).nextId) = true ∧
    isOk ((demoRcb [(0x8230, 0)]).readRegion ((demoRcb []).issuerOf 1) 0x8200) = false ∧
    good (demoV [(4, 0x8100)]) i (fun c _ => addrSum (c.a 0 2) 0 1 c.offX 64 % 512 != 0) = true ∧
    (demoChild.regionNamed 1 0x8200).any (fun e => e.2.st != .suspended && e.2.st != .ended && e.2.st != .killed) = true ∧
    demoChild.regionNamed 1 0x8400 = none ∧
    (demoChild.regionNamed 1 0x8200).any (fun e =>
      !(demoChild.anyThread (fun d => d == e.1) fun t => t.heldWith 5 false)) = true := by decide +kernel

/-- `WorkItems`: an answer at the end of the window, a misaligned one; a request of a region with an item left, and without. -/
theorem witness_work_items :
    let i := Instr.wdq (fs (.v 0) (.v 6) (.v 7))
    good (demoV [(6, 65532), (7, 0x800)]) i (fun c r => addrSum (c.a 0) 0 1 c.offX 32 % 4 == 0 && c.b 0 % 32 == 0 &&
      isOk (r.winPlace c.x false 65532) (fun e => decide (e.off + 4 ≤ r.scrSize e.wg)) &&
      isOk (r.barAt c.x false (c.b 0)) fun b => b.wg == 0) (fun c r => r.slotsFit c) = true ∧
    good (demoV [(6, 65533), (7, 0x800)]) i (fun c _ => addrSum (c.a 0) 0 1 c.offX 32 % 4 != 0) (fun c r => r.slotsFit c) =
      true ∧
    (demo.region? 1).any (fun x => decide (x.rcb.witems ≤ x.nextItem)) = true ∧
    (let s : State := { demo with regions := demo.regions.map fun e =>
       (e.1, { e.2 with rcb := { e.2.rcb with witems := 1 } }), copies := [copyOf .wdq 0 true] }
     s.copies.map (fun o => o.idx) = [none] ∧
     (s.region? 1).any (fun x => decide (x.nextItem < x.rcb.witems)) = true) := by decide +kernel

/-- A region 2 of `demo` with a block of one wave, in a state, whose control block is anywhere. -/
def demoR (st : RSt) (b : Rcb) : State :=
  { demo with regions := demo.regions.ins 2 { Region.loaded with rcb := b, st := st, nextWg := 0, root := 1, link := 5 } }

/-- One workgroup of one thread with 32 registers, nothing in scratch, TOB or accumulators. -/
def smallRcb : Rcb := { Rcb.zero with regs := 32, scrn := 0, tobn := 0, scr := 0, tob := 0, acc := 0, troot := false }

/-- `SchedulerEvents`: a dependence that is met; a region that becomes ready; one that is offered and fits; one that has
been passed over for 2^20 scheduler clocks; one whose work is done; a core with time owed. -/
theorem witness_scheduler_events :
    let w : Watch := ⟨9, 0x5000, 0, none, some (2, 0), 2, none, none⟩
    let s := { demoR .waiting { smallRcb with depn := 1 } with watches := [w] }
    let r := demoR .ready smallRcb
    (s.watches.find? fun y => decide (y.dep = some (2, 0))) = some w ∧ w.target.toNat ≤ leBytes (s.homeBytes none w.key 8) ∧
    (demoR .waiting smallRcb).heldByPrism 2 = false ∧
    (r.region? 2).any (fun x => r.unplaced 2 x && !r.heldBack 0 2 && r.offers 0 2 && (r.nextFor 2 x).any fun m =>
      !m.saved && (r.plansFor 2 x m 2).isSome) = true ∧
    (let t := { demoR .ready { smallRcb with scr := 2 ^ 31, scrn := 31 } with clks := demo.clks.set 240 (2 ^ 20) }
     (t.linked 0).contains 2 = true ∧ (t.region? 2).any (fun x => !t.fitsOn 2 x 0) = true ∧ (t.die 0).hold = none ∧
     0 + 2 ^ 20 ≤ t.schedClk 0 ∧ ¬ 1 + 2 ^ 20 ≤ t.schedClk 0 ∧ (r.region? 2).any (fun x => r.fitsOn 2 x 0) = true) ∧
    (let t := demoR .running { smallRcb with nwg := 0 }
     (t.region? 2).any (fun x => t.regionDone 2 x) = true) ∧
    (let t := demo.setCore 9 { demo.core 9 with owed := [(1, 5)] }
     (t.core 9).owed = [(1, 5)] ∧ (t.waves.all fun e => coreOfWave e.1 != some 9) = true ∧
     (t.regions.all fun e => e.2.rcb.timeq == 0) = true ∧ t.ancestors 1 = [1]) := by decide +kernel

/-- `SchedulerEvents`: a region of the deadline class that fits nowhere beside the one workgroup on the one core that is
available; a workgroup that is to be saved; one that comes back. -/
theorem witness_preemption :
    let x : Region := { Region.loaded with rcb := { smallRcb with dl := true, scrn := 1, scr := 131072, tobn := 1 }
                                           st := .ready, nextWg := 0, link := 5 }
    let s : State := { demo with
      waves := [], regions := demo.regions.ins 2 x
      cores := (List.range 192).map fun g => (g, { demo.core g with available := g == 1 }) }
    (s.region? 2 = some x ∧ x.urgent = true ∧ s.unplaced 2 x = true ∧ s.fitsOn 2 x 0 = false ∧ s.fitsOn 2 x 1 = false) ∧
    ((s.nextFor 2 x).any fun m => (([0, 1].flatMap fun d => if (s.clustersFor 2 d).isEmpty then [] else
        (List.range 96).map fun c => 96 * d + c).flatMap fun g =>
          ((s.without s.beingSaved).placedAhead 2 24576).choicesAt 2 x m g).map Choice.wgs == [[0]]) = true ∧
    (let s := { demo with waves := [], wgs := demo.wgs.upd 0 fun y => { y with saving := true, group := none } }
     (s.wgs.find 0).any (fun y => y.saving && !y.saved && y.group.isNone && ((s.markSaving [0]).saveGroup 0 y false).isSome) = true) ∧
    (let s := demoR .running { smallRcb with nwg := 0 }
     let t := { s with saved := [(7, ⟨7, [], none, [], 0, 0, false⟩)], wgs := s.wgs.ins 7 { Wg.loaded with
       rgn := 2, saved := true, group := none, core := 2, scrSize := 0, tobBanks := 0, accN := 0 } }
     (t.region? 2).any (fun x => t.unplaced 2 x && !t.heldBack 0 2 && t.offers 0 2 && (t.nextFor 2 x).any fun m =>
       m.saved && m.members == [(0, 7)] && m.group.isNone && (t.plansFor 2 x m 3).any fun ps => ps.length == 1) = true) := by
  decide +kernel

/-- A tensor of so many contexts of 8 bytes at 0x7000, skip bits at 0x7800. -/
def tensor (n : Nat) : BitVec 512 :=
  mkDesc [(255, 224, n), (383, 320, 0x7000), (12, 0, 4), (511, 448, 0x7800), (319, 256, 0x7400)]

/-- A sweep of that tensor, on no engine yet. -/
def sweepOf (n : Nat) (flying : Bool) : Sweep :=
  ⟨3, 1, none, 0x4000, tensor n, 0, 0x5000, 0, flying, false, [], [], 0x1000, 0⟩

/-- `Sweeps`, the instructions: a descriptor in order, a counter, room in the queue and none; a thread with a context and
without one, a good and a bad KIND; a context that is written; an index at the end of the tensor. -/
theorem witness_sweep_instructions :
    let i := Instr.sweep (fs (.p 1) (.v 4) (.v 6))
    let ok := fun (s : State) (p : State → Bool) => good s i fun c r => match r.sweepDesc c 0 (c.tensor 0) with
      | .ok r1 _ => (match r1.reach (c.x.agent c.w) .wr clsHome .tagged (c.b 0 2) 8 with
        | .ok r2 ps => c.b 0 2 % 8 == 0 && ps.length == 1 && (r2.releaseAt c.w 0 .dev).any p
        | _ => false)
      | .stop _ => false
    let full := (demoDesc (tensor 65)).setDie 0 { (demoDesc 0).die 0 with sweepQ := List.replicate 64 (sweepOf 65 false) }
    let el := fun v => (demoV [(4, v)]).updThread 128 0 fun t => { t with elem := some ⟨0, 0x7000, 0, 0, 0⟩ }
    ok (demoDesc (tensor 65)) (fun r => decide ((r.die 0).sweepQ.length < 64)) = true ∧
    ok full (fun r => decide (64 ≤ (r.die 0).sweepQ.length)) = true ∧
    good demo (.ctxSet (fs (.v 0) (.v 4) (.v 0))) (fun c _ => (c.thread 0).elem == none) = true ∧
    good (el 6) (.ctxSet (fs (.v 0) (.v 4) (.v 0))) (fun c _ => (c.thread 0).elem.isSome && decide (6 ≤ c.a 0 % 16)) = true ∧
    good (el 5) (.ctxSet (fs (.v 0) (.v 4) (.v 0))) (fun c r => (c.thread 0).elem.isSome && decide (c.a 0 % 16 < 6) &&
      (r.releaseAt c.w 0 .dev).any fun r1 => reached (r1.reach (c.x.agent c.w) .wr clsHome .tagged 0x7000 2) fun r2 ps =>
        ps.all (fun p => !r2.heldPart (r2.liveTag c.x.rgn) c.id p.key && !r2.cutOff p.key &&
          isOk (r2.homeWrite (r2.liveTag c.x.rgn) (some (c.w, 0)) p.key (toLe 2 5)))) = true ∧
    good (demoDesc (tensor 65) [(4, 0x4000), (6, 64)]) (.ctxWake (fs (.v 0) (.v 4) (.v 6))) (fun c r =>
      match r.sweepDesc c 0 (c.tensor 0) with
      | .ok r1 d => decide (c.b 0 < swCount d) && (r1.releaseAt c.w 0 .dev).any fun r2 => r2.dies.all fun x => x.engines.isEmpty
      | .stop _ => false) = true ∧
    good (demoDesc (tensor 65) [(4, 0x4000), (6, 65)]) (.ctxWake (fs (.v 0) (.v 4) (.v 6))) (fun c r =>
      match r.sweepDesc c 0 (c.tensor 0) with
      | .ok _ d => decide (swCount d ≤ c.b 0)
      | .stop _ => false) = true := by decide +kernel

/-- `Sweeps`, the events: a queued sweep and a free engine; a chunk with its skip bit clear and set; one whose waves are
gone; the first and the last chunk. -/
theorem witness_sweep_events :
    let on := fun (x : Sweep) (skip : Nat) =>
      ({ demo with mem := mem64 demo.mem [(0x7800, skip)] } : State).setDie 0 { demo.die 0 with engines := [(0, x)] }
    let skip := fun (s : State) x => match s.sweepRead (s.sweepEng 0 x) (swSkip x.desc x.cursor) 1 with
      | .ok s1 bs => some (leBytes bs, s.quotaWait x.rgn, s1.quotaWait x.rgn)
      | _ => none
    skip (on (sweepOf 65 false) 0) (sweepOf 65 false) = some (0, false, false) ∧
    skip (on (sweepOf 65 false) 1) (sweepOf 65 false) = some (1, false, false) ∧
    (match (on (sweepOf 2 false) 0).ctxScan ((on (sweepOf 2 false) 0).sweepEng 0 (sweepOf 2 false)) (sweepOf 2 false) [0, 1] with
     | .ok _ l => l.length == 2
     | .stop _ => false) = true ∧
    (on (sweepOf 2 true) 0).stepBusy (sweepOf 2 true) = false ∧
    (match (on (sweepOf 2 true) 0).allQuiet ((on (sweepOf 2 true) 0).sweepEng 0 (sweepOf 2 true)) (sweepOf 2 true) [0, 1] with
     | .ok _ _ => true
     | .stop _ => false) = true ∧
    (let x := sweepOf 2 true
     (match (on x 0).allQuiet ((on x 0).sweepEng 0 x) x [0, 1], (on x 0).engParts ((on x 0).sweepEng 0 x) .wr clsHome x.ctr 8 with
      | .ok _ q, .ok _ ps => !q && ps.length == 1
      | _, _ => false) = true ∧
     ((on x 0).setSkip ((on x 0).sweepEng 0 x) x).2 = false ∧
     ((on x 0).applyWakes 0 0 x [0]).2 = []) ∧
    (sweepOf 65 false).cursor + 1 < swChunks (tensor 65) ∧ swChunks (tensor 64) ≤ (sweepOf 64 false).cursor + 1 ∧
    (let s := demo.setDie 0 { demo.die 0 with sweepQ := [sweepOf 65 false] }
     (s.die 0).engines.find 0 = none ∧ (s.dies.all fun d => d.engines.isEmpty && d.sweepQ.all fun z => decide (3 ≤ z.id)) =
       true) := by decide +kernel

/-- `Collectives`: a descriptor in order and one that is ill-formed; room, and none; a collective whose link is up or down. -/
theorem witness_collectives :
    let d := mkDesc [(511, 448, 0x6000), (447, 384, 0x6400), (383, 352, 16), (319, 312, 1), (311, 308, 1), (303, 301, 0)]
    let i := Instr.coll (fm (.p 1) (.v 4) (.v 6) (.v 0) 0) .allred .add
    let ok := fun (s : State) p => good s i fun c r => c.b 0 2 % 8 == 0 && c.a 0 2 % 64 == 0 &&
      (match r.reach (c.x.agent c.w) .wr clsHome .tagged (c.b 0 2) 8 with
       | .ok r1 ps => ps.length == 1 && (match r1.readDesc c 0 (addrSum (c.a 0 2) 0 1 c.immX 64) 64 with
         | .ok r2 d => p r2 d && (facetOf (r2.liveTag c.x.rgn)).isNone
         | .stop _ => false)
       | _ => false)
    let o : CollOp := ⟨3, 0, 1, .allred, .add, d, 16, 0x5000, 0x1000, 0, 0x5000⟩
    ok (demoDesc d) (fun r d => !collBad d (dfield d 383 352) && decide ((r.collsOf 0).length < 18)) = true ∧
    ok (demoDesc 0) (fun _ d => collBad d (dfield d 383 352)) = true ∧
    ok { demoDesc d with colls := List.replicate 18 o } (fun r d => !collBad d (dfield d 383 352) &&
      decide (18 ≤ (r.collsOf 0).length)) = true ∧
    (let s := { demo with colls := [o] }
     (s.colls.find? fun p => p.id == 3) = some o ∧ s.quotaWait 1 = false ∧ ((s.collsOf 0).take 2).contains o = true ∧
     collLinks d = [0] ∧ s.links.getD 0 true = true ∧
     ({ s with links := s.links.set 0 false } : State).links.getD 0 true = false) := by decide +kernel

/-- `demoC` with registers of the Caller. -/
def demoCV (v : NMap Word) : State := demoC.updThread callerKey 0 fun t => { t with v := v }

/-- `MatrixIssue`: operands that the partner on core 1 holds (c2 and c3 are 2^30, the start of its TOB), the last tile and
the first beyond it; a handle that is bound, and not; a command queue with room; decisions and batches. -/
theorem witness_matrix_issue :
    let room := fun c (r : State) => r.engineRoom c
    let a : NMap Word := [(4, 0x40000000), (6, 0x40000000), (8, 0x40000000)]
    let mcw := fun tile => BitVec.ofNat 21 (2 ^ 19 + 4096 * tile)
    let mm := fun (s : State) i p => good s i (fun c r => match r.enginePartner c 1 with
      | some (_, y) => mcwEng (c.mcw 0) == 1 && (r.engineIssue c.w 0 c.id).isSome && p c r y
      | none => false) room
    mm (demoCV a) (.mma (fm (.v 0) (.v 2) (.v 3) (.v 0) (mcw 0)) 1 2 false) (fun c _ y =>
      mcwBad (c.mcw 0) true true false false == none && tobBad (y.tobBanks * 131072) 1 [c.a 0, c.b 0] == none &&
      decide (mcwTile (c.mcw 0) < y.accN)) = true ∧
    mm (demoCV a) (.mma (fm (.v 0) (.v 2) (.v 3) (.v 0) (mcw 1)) 1 2 false) (fun c _ y =>
      mcwBad (c.mcw 0) true true false false == none && tobBad (y.tobBanks * 131072) 1 [c.a 0, c.b 0] == none &&
      decide (y.accN ≤ mcwTile (c.mcw 0))) = true ∧
    (let h : Handle := ⟨3, true, false, 0x6000, 128, 0, false, [], [], 0x1000⟩
     let s := fun b => { demoCV a with groups := (demoCV a).groups.upd 0 fun g => { g with handles := [(0, { h with bound := b })] } }
     let ok := fun b => mm (s b) (.mma (fm (.v 0) (.v 2) (.lit 0) (.v 0) (mcw 0)) 1 2 true) (fun c r y =>
      mcwBad (c.mcw 0) true true true false == none && tobBad (y.tobBanks * 131072) 1 [c.a 0] == none &&
      decide (mcwTile (c.mcw 0) < y.accN) && (r.callerGroup c).any fun g => (g.2.handle 0).any fun h => h.bound == b)
     ok true = true ∧ ok false = true) ∧
    mm (demoCV a) (.azero (fm (.v 0) (.v 0) (.v 0) (.v 0) (mcw 0))) (fun c _ y =>
      mcwBad (c.mcw 0) true true false false == none && decide (mcwTile (c.mcw 0) < y.accN)) = true ∧
    good (demoCV (a ++ [(12, BitVec.ofNat 32 (2 ^ 19 + 64))])) (.drain (fs (.v 6) (.v 4) (.lit 0)) 1) (fun c r =>
      (match r.enginePartner c 1 with
       | some (_, y) => mcwBad (c.mcw 0) true true false true == none && mcwOpt (c.mcw 0) == 64 && c.e.f.isS && c.e.f.a != .zeroLit && c.e.f.b == .zeroLit &&
           decide (mcwTile (c.mcw 0) < y.accN) && drainBad y 1 1 (c.a 0 2) none == none
       | none => false)) room = true ∧
    good (demoCV [(4, 0x6000), (6, 128)]) (.tfetch (fm (.v 0) (.v 2) (.v 3) (.v 0) 0x400) 1 false) (fun c r =>
      mcwBad (c.mcw 0) false false true false == none && c.a 0 2 % 128 == 0 && c.b 0 == 128 &&
      (r.engineIssue c.w 0 c.id).isSome && (r.callerGroup c).any fun g => g.2.handle (mcwHnd (c.mcw 0)) == none) = true ∧
    good (demoCV [(4, 0x6001), (6, 128)]) (.tfetch (fm (.v 0) (.v 2) (.v 3) (.v 0) 0x400) 1 false) (fun c _ =>
      c.a 0 2 % 128 != 0) = true ∧
    good (demoCV []) (.mwait (fs (.p 1) (.lit 2) (.v 0))) (fun c r => (r.enginePartner c 1).isSome &&
      (r.core 1).engine.queue.isEmpty && (r.acquireAt c.w 0 .cls).isSome) = true ∧
    good (demoCV [(4, 9)]) (.dqPut (fs (.v 0) (.v 2) (.lit 1)) false) (fun c r => decide (c.b 0 < 4) &&
      (r.releaseAt c.w 0 .cls).isSome && (r.callerGroup c).any fun g => (g.2.members.find 1).any fun wg =>
        (r.wgs.find wg).any fun y => decide (y.dq.length < 64)) = true ∧
    good { demoCV [(4, 9)] with wgs := demo.wgs.upd 0 fun y => { y with dq := List.replicate 64 0 } }
      (.dqPut (fs (.v 0) (.v 2) (.lit 1)) false) (fun _ r => (r.wgs.find 0).any fun y => decide (64 ≤ y.dq.length)) = true ∧
    good ((demoCV []).setCluster 0 { (demoCV []).cluster 0 with take := [⟨5, 3, none⟩] }) (.gqTake (fs (.v 2) (.v 0) (.v 0)) true)
      (fun c r => !(r.cluster 0).take.isEmpty && ((r.setCluster 0 { r.cluster 0 with take := [] }).acquireAt c.w 0 .cls).isSome) =
      true ∧
    good (demoCV []) (.gqTake (fs (.v 2) (.v 0) (.v 0)) true) (fun _ r => (r.cluster 0).take.isEmpty) = true := by
  decide +kernel

/-- An engine of core 1 with one command, in the group of `demo`, whose slot 1 holds a record. -/
def demoEng (r : BitVec 128) (cmd : ECmd) (row : Nat) : State :=
  let s := demoSlot r
  let c := s.core 1
  s.setCore 1 { c with engine := { c.engine with queue := [⟨cmd, 1, 0x1000, 5⟩], issued := 1, row := row } }

/-- `MatrixEngines`: an `mma` reads operands of the TOB whatever the free choice of this step, and may read all that is
left. -/
theorem witness_mma_reads (s : State) (x : AtWork) (y : Wg) (r : SlotRec) :
    (s.mmaRead x y r r (.tob 0) (.tob 0)).map (fun p => p.2.2) = some none := by
  simp only [State.mmaRead]
  generalize hk : List.flatMap _ _ = keys
  obtain rfl : keys = [] := by
    rw [← hk, List.flatMap_eq_nil_iff]
    intro i _
    simp only [ite_self]
  rfl

/-- `MatrixEngines`: slots of a format and of none, tiles in order, rows at the start, in the middle and at the end of a
drain. -/
theorem witness_matrix_engines :
    let mma := ECmd.mma true 1 1 none 0 0 0
    let at_ := fun (s : State) (p : AtWork → Wg → Bool) => match s.atWork 1 with
      | some x => (s.wgs.find x.wg).any (p x)
      | none => false
    at_ (demoEng 5 mma 0) (fun x y => x.q.cmd == mma && ((demoEng 5 mma 0).slot x.rgn 1).checkIn mmaAccepts == none &&
      !(y.scaleBeyond 0 ((demoEng 5 mma 0).slot x.rgn 1)) && !(y.tile 0).invalid &&
      (demoEng 5 mma 0).operandB x y none 0 ((demoEng 5 mma 0).slot x.rgn 1) == .ok (.tob 0)) = true ∧
    at_ (demoEng 0 mma 0) (fun x _ => ((demoEng 0 mma 0).slot x.rgn 1).checkIn mmaAccepts == some 1) = true ∧
    at_ (demoEng 5 (.azero 0) 0) (fun x _ => x.q.cmd == .azero 0) = true ∧
    ([0, 1, 126, 127].all fun row => at_ (demoEng 5 (.drain 1 1 0 0 0 128 none none) row) fun x y =>
      ((demoEng 5 mma 0).slot x.rgn 1).checkIn (fun n => decide (1 ≤ n) && decide (n ≤ 7)) == none &&
      !(y.tile 0).invalid && !(drainBeyond 5 ⟨1, 1, 0, 0, 0, 128, none, none⟩ (y.tobBanks * 131072)) &&
      !(drainPieces 5 ⟨1, 1, 0, 0, 0, 128, none, none⟩ row (packRow 5 ((y.tile 0).row row)).1
        (packRow 5 ((y.tile 0).row row)).2).isEmpty) = true ∧
    (let h : Handle := ⟨5, true, false, 0x6000, 128, 0, false, [], [], 0x1000⟩
     let s := { demoCV [] with groups := demo.groups.upd 0 fun g => { g with handles := [(2, h)] } }
     (s.engineGroup 0).any (fun e => (e.2.handle 2).any fun h => h.bound && (h.rows.find 127).isNone) = true ∧
     (match s.fetchAt ⟨1, none, 0, 0x1000, 5⟩ (0x6000 + 127 * 128) 128 0 with
      | .got s1 keys => !keys.isEmpty && s1.pinRoom ((keys.take 1).map Prod.snd) && !s.quotaWait 1
      | _ => false) = true) := by decide +kernel

/-- `demo` with a facet set of its region: number 2, generation 1, two facets. -/
def demoSet (st : FSt) (v : NMap Word) : State :=
  let x : FSet := { FSet.fresh with st := st, gen := 1, used := true, root := 1, preRgn := 1, facets := [5, 6], winner := 1 }
  { demoV v with sets := demo.sets.set 2 x }

/-- `FacetSets`: handles of an open set, a stale one, one of another root; facets inside and beyond the set; masks; a commit
that begins; a publication that is not held back; a free set, a prefix whose work is done, a set that retires. -/
theorem witness_facet_sets :
    let i := Instr.commit (fs (.p 1) (.v 4) (.lit 1))
    let ok := fun (s : State) i p => good s i fun c r => match r.handleCheck c.x.rgn (c.a 0) with
      | .ok n x => p c r n x
      | _ => false
    ok (demoSet .opened [(4, 0x10002)]) i (fun c r n x => c.facetArg 0 == 1 && !x.isSquashed 1 &&
      ((r.beginCommit n 1 x).thread? c.w 0).isSome) = true ∧
    ok (demoSet .opened [(4, 0x10002)]) (.commit (fs (.p 1) (.v 4) (.lit 3))) (fun c _ _ x =>
      decide (x.facets.length < c.facetArg 0) && decide (c.facetArg 0 ≤ 7)) = true ∧
    ok (demoSet .opened [(4, 0x10002)]) (.commit (fs (.p 1) (.v 4) (.lit 8))) (fun c _ _ _ => decide (7 < c.facetArg 0)) =
      true ∧
    good (demoSet .opened [(4, 0x20002)]) i (fun c r => match r.handleCheck c.x.rgn (c.a 0) with
      | .closed => true
      | _ => false) = true ∧
    ok (demoSet .opened [(4, 0x10002)]) (.squash (fs (.p 1) (.v 4) (.lit 6))) (fun c r n x => c.facetArg 0 % 2 == 0 &&
      decide (c.facetArg 0 < 2 ^ (x.facets.length + 1)) && ((r.squashFacets n 6).thread? c.w 0).isSome) = true ∧
    ok (demoSet .opened [(4, 0x10002)]) (.squash (fs (.p 1) (.v 4) (.lit 8))) (fun c _ _ x =>
      decide (2 ^ (x.facets.length + 1) ≤ c.facetArg 0)) = true ∧
    (let s := demoSet .opened []
     (s.sets.getD (0x10002 % 4) .fresh).used = true ∧ s.rootOf 9 ≠ (s.sets.getD (0x10002 % 4) .fresh).root) ∧
    ((demoSet .resolving []).sets[2]?).any (fun x => x.st == .resolving && ((demoSet .resolving []).drainWinner x).any fun r =>
      (r.sets[2]?).map FSet.st == some .resolving && !r.commitBusy x) = true ∧
    (let p : PrismReq := ⟨2, [3], [(0, 0x5000, 0x2000)], 0, 0, 0, 0, 0⟩
     let s : State := { demo with prisms := [p], mem := mem64 demo.mem tables }
     s.prisms[0]? = some p ∧ (s.sets.all fun y => y.st == .free) = true ∧ s.winFrames (s.fnOf p.preRgn) p.wins = [5, 6] ∧
     (s.dropFrames (s.winFrames (s.fnOf p.preRgn) p.wins)).any (fun r => r.prisms == s.prisms) = true) ∧
    ((demoSet .prefixing []).sets[2]?).any (fun x => x.st == .prefixing &&
      ((demoSet .prefixing []).region? x.preRgn).isSome) = true ∧
    ((demoSet .retiring []).sets[2]?).any (fun x => x.st == .retiring) = true ∧
    (demo.sets[0]?).any (fun x => x.st == .free) = true := by decide +kernel

/-- `demo` whose region is granted every present queue. -/
def demoP (d : BitVec 512) (v : NMap Word) : State :=
  { demoDesc d v with regions := demo.regions.map fun e => (e.1, { e.2 with rcb := { e.2.rcb with pq := 15 } }) }

/-- A frame of one pixel: PFMT 1, a pitch of 64 bytes, its surface at 0x6000. -/
def frameDesc : BitVec 512 := mkDesc [(135, 128, 1), (127, 112, 1), (111, 96, 1), (95, 64, 64), (63, 0, 0x6000)]

/-- `Presents`: a queue that is granted, and queue 4; a frame in order and one that is ill-formed; a queue with room and a
full one; heads that flip; guards; a counter that is raised. -/
theorem witness_presents :
    let i := fun n => Instr.present (fs (.p 1) (.lit n) (.v 4))
    let e : PEntry := ⟨frameDesc, 1, none, true⟩
    let ok := fun (s : State) p => good s (i 3) fun c r => r.granted c.x.rgn 3 &&
      (match r.readDesc c 0 (addrSum (c.b 0 2) 0 1 c.offX 64) 64 with
       | .ok r1 d => p c r1 d
       | .stop _ => false)
    ok (demoP frameDesc [(4, 0x4000)]) (fun c r d => !frameBad d && isOk (r.doneCheck c d) fun r2 =>
      decide ((r2.presents.getD 3 .fresh).entries.length < 16) && (r2.releaseAt c.w 0 .dev).isSome) = true ∧
    ok { demoP frameDesc [(4, 0x4000)] with presents := demo.presents.set 3 { PQueue.fresh with entries := List.replicate 16 e } }
      (fun c r d => !frameBad d && isOk (r.doneCheck c d) fun r2 =>
        decide (16 ≤ (r2.presents.getD 3 .fresh).entries.length)) = true ∧
    ok (demoP 0 [(4, 0x4000)]) (fun _ _ d => frameBad d) = true ∧
    good (demoP frameDesc [(4, 0x4000)]) (i 4) (fun c r => !r.granted c.x.rgn (c.a 0)) = true ∧
    (let s := { demoP frameDesc [] with
        mem := mem64 demo.mem tables, presents := demo.presents.set 3 { PQueue.fresh with entries := [e] } }
     (s.presents[3]?).any (fun (p : PQueue) => p.entries == [e] && p.slot == 0) = true ∧ s.presEn.getLsbD 3 = false ∧
     (match s.surface 1 frameDesc with
      | .ok _ bs => bs.length == 4
      | .bad _ _ _ => false) = true ∧ (s.sets.all fun x => x.st != .retiring) = true ∧ (s.region? 1).any (fun x => x.st == .running && x.rcb.pq.getLsbD 3) = true) ∧
    (let s := { demo with presEn := 15 }
     (s.presents[3]?).any (fun (p : PQueue) => p.entries.isEmpty && decide (p.slot ≤ s.us) && decide (p.slot ≤ s.us + s.presGuard)) = true) ∧
    ((mem64 demo.mem tables != []) && (({ demo with mem := mem64 demo.mem tables } : State).place 0 0 0x5000).any
      fun e => e.2.wr && e.2.cls == .h) = true ∧
    (let x : FSet := { FSet.fresh with st := .opened, root := 1, frames := [5] }
     (({ demo with sets := demo.sets.set 2 x } : State).windowBad 1 .tagged 0x5000).isSome = true) ∧
    demo.windowBad 1 .tagged 0x5000 = none ∧ demo.cutOff 0x5000 = false ∧
    isOk (demo.homeWrite (demo.liveTag 1) none 0x5000 (toLe 8 1)) = true := by decide +kernel

/-- A linear texture of 4 × 4 texels of one FP32 channel at 0x6000. -/
def texDesc : BitVec 512 := mkDesc [(139, 136, 1), (135, 128, 1), (127, 112, 4), (111, 96, 4), (95, 64, 64), (63, 0, 0x6000)]

/-- `TexturesAndRays`: an aligned and a misaligned descriptor, one in order and one that is ill-formed, a level and texels
inside and outside, a finite and an undefined coordinate; rays with and without a direction. -/
theorem witness_textures :
    let f := Instr.texF (fs (.v 8) (.v 4) (.v 6))
    let asked := fun (c : Ctx) => (⟨c.w, 0, c.id, c.x.agent c.w, c.unitOp .texF (c.a 0 2) (c.b 0 2) (c.texLevel 0)⟩ : Asked)
    let ok := fun (s : State) p => good s f fun c r => c.b 0 2 % 64 == 0 && (match r.unitRead (asked c) (c.b 0 2) 64 with
      | .ok r1 bs => p (asked c) r1 (descOfBytes bs)
      | _ => false)
    let at_ := fun (x y : Word) => demoDesc texDesc [(4, x), (5, y), (6, 0x4000)]
    ok (at_ 3 3) (fun q r d => !texBad d && decide (0 < (Tex.ofDesc d).levels) && (Tex.ofDesc d).dims 0 == (4, 4) &&
      (match r.unitRead q ((Tex.ofDesc d).addr 0 3 3) (Tex.ofDesc d).size with
       | .ok _ _ => true
       | _ => false)) = true ∧
    ok (demoDesc 0 [(6, 0x4000)]) (fun _ _ d => texBad d) = true ∧
    good (demoDesc texDesc [(6, 0x4020)]) f (fun c _ => c.b 0 2 % 64 != 0) = true ∧
    (Tex.ofDesc texDesc).levels ≤ 1 ∧ XQ.ofBits 0x3F000000 .f32 ≠ .nan ∧ XQ.ofBits 0x7FC00000 .f32 = .nan ∧
    good (demoV [(16, 0x7FC00000), (4, 0x4000)]) (.trace (fm (.v 8) (.v 16) (.v 4) (.v 0) 64))
      (fun c _ => addrSum (c.b 0 2) 0 1 c.offX 64 % 64 == 0 && fpAt (c.a 0 8) 0 .f32 == .nan) = true ∧
    good (demoV [(19, 0x3F800000), (4, 0x4000)]) (.trace (fm (.v 8) (.v 16) (.v 4) (.v 0) 64))
      (fun c _ => (List.range 8).all (fun i => fpAt (c.a 0 8) i .f32 != .nan) && (v3At (c.a 0 8) 0 .f32).isSome &&
        (v3At (c.a 0 8) 3 .f32).isSome && !(fpAt (c.a 0 8) 3 .f32).isZero) = true := by decide +kernel

/-- `demo`'s wave as a tile wave of tile (0, 0) with the entries 1 and 2, holding some pixels. -/
def demoTile (held clear : List PxRef) (px seq : Word) : State :=
  { demo with waves := demo.waves.upd 128 fun x => { x with
      tile := some ⟨0, 0, [1, 2], held, clear, [], []⟩
      threads := x.threads.set 0 { x.threads.getD 0 .empty with v := [(2, px), (3, seq)] } } }

/-- `Rendering`: a descriptor in order and one that is ill-formed; a primitive inside and outside the screen; pixels of the
tile and outside, entries it holds and not, a pixel held, granted and waited for; a flush whose tile waves are gone. -/
theorem witness_rendering :
    let d := mkDesc [(127, 112, 1), (111, 96, 1), (95, 64, 16), (63, 0, 0x9000)]
    let put := Instr.binPut (fs (.v 20) (.v 4) (.v 12))
    let s := fun d => { demoDesc d [(4, 0x4000)] with
      mem := mem64 (demoDesc d []).mem tables }
    let ok := fun d p => good (s d) put fun c r => match r.readDesc c 0 (addrSum (c.a 0 2) 0 1 c.offX 64) 64 clsHome with
      | .ok r1 e => p c r1 e
      | .stop _ => false
    ok d (fun c r e => !r.binBad (r.fnOf c.x.rgn) (r.asrOf c.x.rgn) e && (r.releaseAt c.w 0 .dev).any fun r2 =>
      ((r2.settleBins 0).binOpen c 0 0x4000 e).any fun b => ((b.2.clip 0 (31 + 2 ^ 16 * 31 + 2 ^ 32 * 40 + 2 ^ 48 * 40)).any fun p =>
        !b.2.overflows p) && b.2.clip 0 32 == none) = true ∧
    ok 0 (fun c r e => r.binBad (r.fnOf c.x.rgn) (r.asrOf c.x.rgn) e) = true ∧
    (let lock := Instr.pxlock (fs (.v 0) (.v 2) (.v 3))
     let px := fun (s : State) p => good s lock fun c r => match r.waves.find c.w with
       | some x => (match x.tile with
         | some t => p x t (BitVec.ofNat 32 (c.a 0)) (BitVec.ofNat 32 (c.b 0))
         | none => false)
       | none => false
     px (demoTile [] [] 0x001F001F 1) (fun x t p q => !t.outside p && t.seqs.contains q && !t.held.contains ⟨p, q⟩ &&
       !x.pxClear t p q && x.pxGrant t p q) = true ∧
     good (demoTile [] [] 0x001F001F 1) lock (fun c r => (r.acquireAt c.w 0 .dev).isSome) = true ∧
     px (demoTile [] [] 0x001F001F 2) (fun x t p q => !t.outside p && t.seqs.contains q && !t.held.contains ⟨p, q⟩ &&
       !x.pxClear t p q && !x.pxGrant t p q) = true ∧
     px (demoTile [⟨5, 1⟩] [] 5 1) (fun _ t p q => t.held.contains ⟨p, q⟩) = true ∧
     px (demoTile [] [] 32 1) (fun _ t p _ => t.outside p) = true ∧
     px (demoTile [] [] 5 3) (fun _ t p q => !t.outside p && !t.seqs.contains q) = true ∧
     good demo lock (fun c r => (r.waves.find c.w).any fun x => x.tile == none) = true ∧
     good (demoTile [⟨5, 1⟩] [] 5 1) (.pxunlock (fs (.v 0) (.v 2) (.v 3)) true) (fun c r => (r.releaseAt c.w 0 .dev).isSome) =
       true) ∧
    (let b : BinDesc := { BinDesc.open_ 3 0x4000 1 none 0 0x1000 with flushing := true }
     let t := demo.setDie 0 { demo.die 0 with bins := [b] }
     ((t.die 0).bins.find? fun y => y.id == 3) = some b ∧ t.tileBusy b = false ∧ ((t.die 0).bins.all fun y => y.writes.isEmpty) = true) := by decide +kernel

/-! ### CSRs, faults, translation control, and the events of waves and of the package -/

/-- `demo` whose region is a system region. -/
def demoSys (s : State) : State :=
  { s with regions := s.regions.map fun e => (e.1, { e.2 with rcb := { e.2.rcb with sys := true } }) }

/-- `CsrAccess`: a number no CSR has; a CSR read and one refused, written and refused, of each level by a wave and by a
Caller, in a system region and outside; an empty and a used spill area; a halted engine and one that runs. -/
theorem witness_csr_access :
    let rd := fun (n : BitVec 21) => Instr.csrr (fm (.v 10) (.v 0) (.v 0) (.v 0) n)
    let wr := fun (n : BitVec 21) => Instr.csrw (fm (.v 0) (.v 10) (.v 0) (.v 0) n)
    let okR := fun (s : State) n p => good s (rd n) fun c r => isOk (c.csrCheck (csrX c.e.f) c.e.f.d) fun k =>
      (r.settlePair c 0 k c.e.f.d).any fun r1 => p (r1.csrRead c 0 (csrX c.e.f))
    let okW := fun (s : State) n p => good s (wr n) fun c r => isOk (c.csrCheck (csrX c.e.f) c.e.f.a) fun k =>
      (r.settlePair c 0 k c.e.f.a).any fun r1 => (r1.waves.find c.w).any fun _ => p (r1.csrWrite c 0 (csrX c.e.f) 0)
    csrWords 0xFFF = none ∧ good (demoV [(4, 0xFFF)]) (.csrr (fs (.v 10) (.v 4) (.v 0))) (fun c _ => c.a 0 == 0xFFF) = true ∧
    good (demoV [(4, 0xFFF)]) (.csrw (fs (.v 0) (.v 10) (.v 4))) (fun c _ => c.b 0 == 0xFFF) = true ∧
    okR demo 0x000 (fun e => isOk e) = true ∧ okR demo 0x100 (fun e => isOk e) = true ∧
    okR demo 0x203 (fun e => isOk e) = true ∧ okR demo 0x400 (fun e => !isOk e) = true ∧
    okR demo 0x600 (fun e => !isOk e) = true ∧ okR (demoSys demo) 0x600 (fun e => isOk e) = true ∧
    okR demoC 0x100 (fun e => !isOk e) = true ∧ okR demoC 0x403 (fun e => isOk e) = true ∧
    okW demo 0x010 (fun e => isOk e) = true ∧ okW demo 0x100 (fun e => isOk e) = true ∧
    okW demo 0x600 (fun e => !isOk e) = true ∧ okW demo 0x202 (fun e => !isOk e) = true ∧
    (demo.thread? 128 0).any (fun t => t.spillp == t.spillb) = true ∧
    ((demo.updThread 128 0 fun t => { t with spillp := 8 }).thread? 128 0).any (fun t => t.spillp != t.spillb) = true ∧
    (demo.core 1).engine.mestat.getLsbD 0 = false ∧
    (let g := { demo.core 1 with engine := { (demo.core 1).engine with mestat := 1 } }
     ((demo.setCore 1 g).core 1).engine.mestat.getLsbD 0 = true) := by decide +kernel

/-- `TrapsAndReturns`: no queue element is popped by the instructions. -/
theorem witness_traps :
    good (demoV [(4, 0x1FF)]) (.trap (fs (.v 0) (.v 4) (.v 0))) (fun c _ => c.pops.isEmpty && c.a 0 == 0x1FF) = true ∧
    good demo (.bkpt (fs (.v 0) (.v 0) (.v 0))) (fun c _ => c.pops.isEmpty) = true ∧
    good demo (.eret (fs (.v 0) (.v 0) (.v 0))) (fun c _ => c.pops.isEmpty && !(c.thread 0).mark) = true ∧
    (demo.releaseAt 128 0 .dev).isSome = true := by decide +kernel

/-- `FaultsTaken`: a code whose action is to deliver, to hold and to kill; a fault ring with room, one that is full, and no
window; a thread that is parked. -/
theorem witness_faults :
    let act := fun (s : State) (code : Nat) => (s.region? 1).any fun y =>
      field y.rcb.act.toNat (2 * code + 1) (2 * code) == 1 && y.st == .running
    let ring := fun (ridx : Nat) => ({ demo with
      mem := mem64 demo.mem (tables ++ [(0x80E8, ridx)])
      regions := demo.regions.map fun e =>
        (e.1, { e.2 with rcbKey := 0x8000, rcb := { e.2.rcb with fdr := 0x9000, fdn := 2 } }) } : State)
    act (demoAct 0x100000000000) 0x16 = true ∧ (demoAct 0).actionOf 1 0x16 = 0 ∧ demo.actionOf 1 0x16 = 2 ∧
    (demo.thread? 128 0).any (fun t => !t.mark) = true ∧
    ((ring 0).placeWr 0 0 0x9000 = some 0x9000 ∧ (ring 0).num 0x80E8 3 = 0 ∧ (ring 1).num 0x80E8 3 = 1) ∧
    ((ring 0).region? 1).any (fun d => d.widx == 0 && d.rcb.fdn == 2) = true ∧
    (∀ q, (ring 0).windowOf q = none) ∧ demo.acts = none ∧ ({ demo with acts := some [] } : State).acts = some [] ∧
    (lane0 demo (.bkpt (fs (.v 0) (.v 0) (.v 0)))).st = .parked 0x16 0 0 := by
  refine ⟨by decide +kernel, by decide +kernel, by decide +kernel, by decide +kernel, by decide +kernel, by decide +kernel,
    fun _ => rfl, rfl, rfl, by decide +kernel⟩

/-- `InvalidationAndHomes`: an invalidation that may go on, in a system region and outside; a place in the range of one; a
walk that finds a leaf with room, one over its quota, and one that faults; a home that moves, with nothing in flight, and a
request to forward. -/
theorem witness_invalidation_and_homes :
    let t := fun all => Instr.tlbinv (fs (.v 0) (.v 4) (.lit 64)) all
    let s : State := { demo with mem := mem64 demo.mem tables }
    let q : WalkReq := ⟨1, 0x5000⟩
    good demo (.icinv (fs (.v 0) (.v 4) (.lit 64))) (fun c r => (r.releaseAt c.w 0 .dev).isSome) = true ∧
    good demo (t true) (fun c r => !r.isSys c.x.rgn) = true ∧
    good (demoSys demo) (t false) (fun c r => r.isSys c.x.rgn &&
      (r.dropTranslations (r.asrOf c.x.rgn) false (addrSum (c.a 0 2) 0 1 c.offX 64) (c.b 0)).isSome) = true ∧
    (let b := blockSpan 0x5004 8
     framePieces b.1 b.2 = [(0x5000, 32)] ∧ (s.placesOf 0 0x5000).contains 0x5000 = true ∧ 0x5000 < 32 * 0x280 + 32 ∧
       32 * 0x280 < 0x5000 + 32) ∧
    ((s.setCluster 0 { s.cluster 0 with walks := [q] }).cluster 0).walks = [q] ∧
    (let go := fun (s : State) => match (s.setCluster 0 { s.cluster 0 with walks := [] }).walkBy 0 (s.asrOf 1) 0x5000 with
      | (t, .leaf leaf) => (t.checkLeaf ⟨1, 0, none⟩ leaf 0x5000 .rd clsAny == none, match t.charge 1 leaf with
        | .ok _ => 1
        | .beyond _ => 2)
      | (_, .fault _ _) => (false, 0)
     let poor : State := { s with
       mem := mem64 demo.mem [(0, 0x20001), (0x20000, 0x21001), (0x21000, 0x22001), (0x22028, 0x501F + 2 ^ 53)]
       regions := s.regions.map fun e =>
         (e.1, { e.2 with memu := 1, rcb := { e.2.rcb with memq := 1, ownb := true, chgb := 0x5000 } }) }
     let dark : State := { s with mem := mem64 demo.mem [(0, 0x20001), (0x20000, 29 + 2 ^ 53)] }
     go s = (true, 1) ∧ go poor = (true, 2) ∧ (go dark).1 = false ∧ go demo = (false, 0)) ∧
    demo.frameRequests 9 = [] ∧ (demo.l2.all fun e => e.1 / 16 != 9) = true ∧
    (1 ≠ demo.hashHome 9 ∨ 2 ≠ demo.hashHome 9) ∧
    ((demoAccs [accAt (.store [1]) 0x9000 1]).performUpTo 128 0 1).isSome = true := by decide +kernel

/-- `demo` with so many TOB banks, where lane 0 has pushed 5 to feed stream 2. -/
def demoTob (n : Nat) : State :=
  let s := { demo with wgs := demo.wgs.map fun (e : Nat × Wg) => (e.1, { e.2 with tobBanks := n }) }
  match s.pushElem 128 0 999 0x1000 2 5 with
  | .ok t => t
  | .error _ => s

/-- R211: an element is written to the TOB window at the pointer by its event, and the pointer advances by 4. -/
theorem test_feed_element :
    ((demoTob 1).waves.find 128).map (fun x => x.feedp) = some [0, 0, 4, 0] ∧
    (match exec (.feedElementWrite 128 2) (demoTob 1) with
     | .next t => (t.wgs.find 0).map fun y => y.tob
     | _ => none) = some [(0, 5)] := by decide +kernel

/-- `WaveEvents`: a turn at its limit; a path that meets a reserved code; a queue that threads wait in; an element of a feed
stream; a core that may gate, and one that a wake event reaches. -/
theorem witness_wave_events :
    let x : Wave := { Wave.loaded .launch 0 0x1000 with
      fair := 0x800, threads := [{ Thread.empty with st := .running, pc := 0x1000 }, { Thread.empty with st := .running, pc := 8 }] }
    x.turn = some 0 ∧ x.limit ≤ x.fair ∧ 2 ≤ x.heads.length ∧
    (demo.waves.find demo.cur).any (fun y => y.turn == some 0) = true ∧ coreOfWave 128 = some 1 ∧ (demo.core 1).gated = false ∧
    ((demo.updThread 128 0 fun t => { t with st := .blocked (.queue [2]) }).thread? 128 0).any
      (fun t => t.st == .blocked (.queue [2])) = true ∧
    (let y : Wave := { x with fair := 0x7FE }
     y.fair + 1 < y.limit ∧ y.fair + 2 = y.limit ∧ 0 < ({ y with fair := y.limit } : Wave).expire.limit) ∧
    (demoTob 1).tobSize 0 = 131072 ∧ (demoTob 0).tobSize 0 < 4 ∧
    (match (demoTob 1).waves.find 128 with
     | some y =>
       y.wg == 0 && match y.pending.filter fun f => f.2.feed == some 2 with
         | [e] => match (demoTob 1).performUpTo 128 e.1 e.2.id with
           | some t => (t.waves.find 128).isSome
           | none => false
         | _ => false
     | none => false) = true ∧
    (demo.core 5).gated = false ∧ demo.mayGate 5 = true ∧
    (let c := { demo.core 5 with gated := true, wake := 1 }
     ((demo.setCore 5 c).core 5).gated = true ∧ ((demo.setCore 5 c).core 5).wake ≠ 0) := by decide +kernel

/-- `demo` with VF 1 bound to its region, whose control block stands at 0x8200. -/
def demoVf : State :=
  let put : FnBind → FnBind := fun b => { b with root := some 1 }
  { demo with
    regions := demo.regions.map fun e => (e.1, { e.2 with rcbVa := 0x8200, rcbKey := 0x8200 })
    fns := demo.fns.modify 1 put }

/-- FIPS 202: the first 32 bytes of SHAKE256 of the empty message. -/
theorem test_shake256 : beNum (shake256 []) = 0x46b9dd2b0ba88d13233b3feb743eeb243fcd52ea62b81b82b50c27646ed5762f := by
  decide +kernel

/-- `FirmwareCommands`: the PF, a VF that is bound, with regions to name, and one that is not; a tenant root; a frame that
may move; a mode in order and one that is not, and a device that is idle; a slot to write and to boot; a code without a command and
one with; arguments in their ranges and not. -/
theorem witness_firmware :
    let slot : FwSlot := ⟨2 ^ 32, [], []⟩
    demoVf.links.getD 8 true = true ∧ demoVf.bound 0 = true ∧ demoVf.bound 1 = true ∧ demoVf.bound 2 = false ∧
    (demoVf.fns.getD 1 .fresh).root = some 1 ∧
    (demoVf.regionNamed 1 0x8200).any (fun e => (demoVf.region? e.2.root).isSome) = true ∧
    (demoVf.tenantRoot 0x8200).isSome = true ∧ demo.mayMove 9 3 = true ∧
    modeOk (modesOf 0x8000000080) [Die.fresh.l2part, Die.fresh.l2part] = true ∧ modeOk [0, 0] [] = false ∧
    State.reset.idleForMode = true ∧
    ((0 : BitVec 8) = 0 ∧ 0x10 ≤ (0x10 : BitVec 8).toNat ∧ ¬ ((9 : BitVec 8) = 0 ∨ 0x10 ≤ (9 : BitVec 8).toNat)) ∧
    (31 : BitVec 8).toNat < 32 ∧ 32 ≤ (32 : BitVec 8).toNat ∧ 16 ≤ (16 : BitVec 48).toNat ∧ (15 : BitVec 48).toNat < 16 ∧
    ([] : List Byte).length = (0 : Word).toNat ∧ (List.replicate 2500 (0 : Byte)).length = 2500 ∧
    ([] : List Byte).length + ([] : List Byte).length ≠ (0 : Word).toNat + 2500 ∧
    (let f : Firmware := { demo.fw with slots := [slot, slot], counter := 1, running := some 0 }
     f.idle = 1 ∧ f.slots[1]? = some slot) := by decide +kernel

/-- `PackageAndFabric`: a segment that is not fenced; a device that is frozen; local memory without poison, a window over a
frame and none; requests, translations and links in order. -/
theorem witness_package_and_fabric :
    (demo.core 1).fenced.contains (segNumber false 3 7) = false ∧ (demo.core 1).fenced.contains (segNumber true 0 3) = false ∧
    ({ demo with frozen := true } : State).frozen = true ∧ demo.agenda = [] ∧
    demo.links.getD 8 true = true ∧ demo.links.getD 0 true = true ∧ demo.poisoned 0x5000 8 = false ∧
    demo.windowHit 0x5000 8 = none ∧
    (let x : FSet := { FSet.fresh with st := .opened, root := 1, frames := [5] }
     (({ demo with sets := demo.sets.set 2 x } : State).windowHit 0x5000 8).isSome) = true ∧
    (let s : State := { demo with
       ats := [⟨0, 2 ^ 52 + 0x5000, 4096, 2 ^ 52 + 0x9000, .h, true, true, true⟩]
       copies := [{ copyOf .copy 0 false with done := .ctr (2 ^ 52 + 0x9000) 0x9000 }] }
     s.atsCounter (s.ats.filter fun l => l.inRange ⟨⟨0, 0x5000⟩, 4096⟩) = true) ∧
    demo.ats = [] ∧ demo.atsPending = [] ∧ demo.copies = [] ∧ ({ demo with waves := [] } : State).waves = [] := by decide +kernel

/-- A thread with nothing pending that waits for nothing. -/
theorem aligned_of_idle (t : Thread) (h : t.pc.toNat % 4 = 0 ∧ t.epc.toNat % 4 = 0 ∧ t.accs = [] ∧
    (t.st = .running ∨ t.st = .exited ∨ t.st = .placed)) : t.aligned := by
  obtain ⟨h1, h2, h3, h4⟩ := h
  refine ⟨h1, h2, by simp [h3], ?_⟩
  rcases h4 with h | h | h <;> simp [h]

/-- `StepKeepsPcs`: both invariants hold of `demo`, and a step leaves it. -/
theorem witness_step_keeps_pcs : PcInv demo ∧ EntryInv demo ∧ goesOn (step demo) = true := by
  refine ⟨?_, ⟨fun e he t ht => aligned_of_idle t ?_, ?_, ?_, ?_, ?_, ?_⟩, by decide +kernel⟩
  · unfold PcInv; decide +kernel
  · revert e t
    decide +kernel
  · intro e he
    exact absurd he (by rw [show demo.saved = [] by decide +kernel]; exact List.not_mem_nil)
  all_goals decide +kernel

/-- `FetchReadsMemory`: a block that the L0 cache of one quadrant holds and its instruction cache does not. -/
theorem witness_fetch_reads_cache :
    let s := demo.setCore 1 { demo.core 1 with l0 := [(0, [(0x80, [1])])], icache := [] }
    NMap.find (NMap.get [] (s.core (fetchCore 128)).l0 (fetchQuad 128)) (0x1000 / 32) = some [1] ∧
    (s.core (fetchCore 128)).icache.find (0x1000 / 32) = none ∧ fetchQuad 128 = 0 := by decide +kernel

/-- `IssueBegins`: a thread with one result pending, with a window and without, and an instruction that names its register and
one that does not. -/
theorem witness_issue_waits :
    let a := fun win => { accAt .calc 0 0 with parts := [], dst := some ⟨.v 9, 1, true⟩, val := some [5], win := win }
    let ok := fun win i p => match (demoAccs [a win]).waves.find 128, descOf .w i with
      | some x, some e => x.turn == some 0 && (x.pathOf 0).contains 0 && (x.threads[0]?).any (fun t => t.guard e.f &&
          t.accs == [a win]) && ((x.threads.drop 1).all fun u => u.accs.isEmpty) &&
          !Operand.meets x.unit (.p e.f.gp) 1 (.v 9) 1 && ((touches e i).any fun o => o.1.meets x.unit o.2 (.v 9) 1) == p &&
          e.rangeFault x.unit x.bound == none && e.queueSrcs.isEmpty && e.queueDst == none
      | _, _ => false
    ok 0 (.iadd (fs (.v 4) (.v 5) (.v 6)) .s32 false) false = true ∧ ok 3 (.iadd (fs (.v 4) (.v 9) (.v 6)) .s32 false) true = true ∧
    ok 3 (.iadd64 (fs (.v 8) (.v 4) (.v 6)) .s64 false) true = true ∧
    ok 3 (.iadd (fs (.v 10) (.v 8) (.v 6)) .s32 false) false = true ∧
    (demoAccs [a 3]).cur = 128 ∧ ((demoAccs [a 3]).cluster (clusterOfWave 128)).svc.contains ⟨128, 0, 1⟩ = false := by
  decide +kernel

/-- `SourceOperands`: the Caller's context; a popped element; a thread of a facet; a thread with an element of a sweep. -/
theorem witness_sources :
    let i := Instr.iadd (fs (.v 4) (.v 2) (.v 3)) .s32 false
    good demoC i (fun c _ => c.u == .c && decide (c.w ≥ callerKey)) = true ∧
    good (facetDemo 0x2FFC) i (fun c _ => c.tag == some 17 && c.u == .w) = true ∧
    good demo i (fun c _ => c.tag == none && decide (c.w < callerKey)) = true ∧
    good (demo.updThread 128 0 fun t => { t with elem := some ⟨3, 0x4000, 64, 0, 0⟩ }) i
      (fun c _ => (c.thread 0).elem == some ⟨3, 0x4000, 64, 0, 0⟩) = true ∧
    good demo (.iadd (fs (.v 4) (.q 0) (.v 3)) .s32 false)
      (fun c _ => c.pops.find? (fun e => e.1 == 0 && e.2.1 == 0) == some (0, 0, 3)) = true ∧
    good demo (.iadd (fs (.v 4) (.sr 9) (.v 3)) .s32 false)
      (fun c _ => (c.e.operands.any fun o => o.2 == .sr 9) && c.path.contains 0 && c.group.contains 0) = true ∧
    (((descOf .w i).bind fun e => demo.ctxOf 128 e).any fun c => (demo.wgs.find c.x.wg).isSome) = true := by decide +kernel

/-- `CallsAndReturns`: a push onto a full stack whose spill page is there and is not; a pop from the spill area, aligned and not, and
one whose page is not there; misaligned targets and newest entries. -/
theorem witness_spills :
    let st := fun (l : List DWord) (p : DWord) => (demo.updThread 128 0 fun t =>
      { t with stack := l, spillb := 0x4000, spillp := p, spilll := 0x80000100, v := [(4, 0x1002)] })
    let i := Instr.call (fm (.v 0) (.v 0) (.v 0) (.v 0) 4)
    let ret := Instr.ret (fs (.v 0) (.v 0) (.v 0))
    let spill := fun acc c (r : State) (p : DWord) => r.reach (Wave.agent (Ctx.x c) (Ctx.w c)) acc
      (if acc = .wr then clsStore else clsAny) .spill p.toNat 8
    good (st [8, 8, 8, 8] 0x4000) i (fun c r => reached (spill .wr c r 0x4000) fun r1 ps => ps.length == 1 &&
      (r1.thread? c.w 0).map Thread.stack == some [8, 8, 8, 8]) = true ∧
    good (st [8, 8, 8, 8] 0x80000000) i (fun c r => match spill .wr c r 0x80000000 with
      | .fault _ ps _ => ps.isEmpty
      | _ => false) = true ∧
    good (st [] 0x4008) ret (fun c r => (c.thread 0).stack.isEmpty && decide ((c.thread 0).spillb.toNat < (c.thread 0).spillp.toNat) &&
      reached (spill .rd c r 0x4000) fun r1 ps => match ps with
      | [p] => p.cls == .h && p.size == 8 && locOf p.key == 0 && !r1.poisoned p.key 8 && r1.homeFwd.isEmpty &&
          ((List.range 8).all fun k => r1.windowOf (p.key + k) == none) && (r1.thread? c.w 0).any (fun u => u.accs.isEmpty) &&
          !(r1.cluster (clusterOfWave c.w)).svc.contains ⟨c.w, 0, c.id⟩
      | _ => false) = true ∧
    good (st [] 0x80000008) ret (fun c r => match spill .rd c r 0x80000000 with
      | .fault _ _ _ => true
      | _ => false) = true ∧
    (BitVec.ofNat 64 (({ demo with mem := mem64 demo.mem [(0x4000, 0x1002)] } : State).num 0x4000 8)).toNat % 4 = 2 ∧
    good (st [8, 0x1002] 0x4000) ret (fun c _ => ((c.thread 0).stack.getLast?).any fun a => a.toNat % 4 == 2) = true ∧
    good (st [] 0) (.callx (fm (.v 0) (.v 4) (.v 0) (.v 0) 0)) (fun c _ => c.a 0 2 % 4 == 2) = true := by decide +kernel

/-- `JoinWsyncExit`: masks of `wsync` that overlap and that agree; instances that are complete and that are not; a lane that exits as
the last of the mask of an arrival, with something pending and with nothing. -/
theorem witness_last_arrivals :
    let sync := fun l => { demo2 with waves := demo2.waves.upd 128 fun x => { x with syncs := l } }
    let i := Instr.wsync (fs (.v 0) (.lit 3) (.v 0))
    let ok := fun l p => good (sync l) i fun c r => match r.waves.find c.w with
      | some x => maskHas 3 0 && p (x.syncs.find? fun j => j.mask &&& 3 != 0 && j.mask != 3)
      | none => false
    ok [⟨6, 4⟩] Option.isSome = true ∧ ok [⟨3, 2⟩] Option.isNone = true ∧
    (((sync [⟨3, 3⟩]).waves.find 128).any fun x => (x.syncs.all fun e => x.allIn e.mask e.arrived) &&
      decide (x.threads.length ≤ 32)) = true ∧
    (((sync [⟨3, 2⟩]).waves.find 128).any fun x => x.syncs.all fun e => !x.allIn e.mask e.arrived) = true ∧
    (let bar := fun (b : Bar) => ({ demo2 with waves := demo2.waves.upd 128 fun x => { x with arrs := [⟨⟨0, 0x800⟩, 3, 2⟩] } } :
       State).putBar ⟨0, 0x800⟩ b
     let last := fun b p => good (bar b) (.exit (fs (.v 0) (.v 0) (.v 0))) fun c r => (r.returnAll c.w 0).isSome &&
       match r.waves.find c.w with
       | some x => x.tile == none && (x.threads[1]?).any (fun t => !t.done) && p (r.bar ⟨0, 0x800⟩) &&
           (x.arrs.all fun a => (x.updThread 0 fun t => { t with st := .exited }).allIn a.mask a.arrived)
       | none => false
     last ⟨0, false, false, 0, 2, 2, 0, 0, 0⟩ (fun b => b.pend != 0 && b.pend != 1) = true ∧
     last ⟨0, false, false, 0, 2, 0, 8, 0, 0⟩ (fun b => b.pend == 0 && b.blnd != b.btgt) = true) := by decide +kernel

/-- `Reservations`: another lane and another thread that hold the grain, at the home and at the core, whose caches are on. -/
theorem witness_reservations :
    let s := { demo2 with waves := demo2.waves.upd 128 fun x => { x with
      threads := x.threads.mapIdx fun (n : Nat) (t : Thread) => if n = 1 then { t with resv := some ⟨.home, 0x2FFC / 32⟩ } else t } }
    (s.thread? 128 1).map (·.resv) = some (some ⟨.home, 0x2FFC / 32⟩) ∧ (s.thread? 128 0).isSome = true ∧
    s.windowOf 0x2FFC = none ∧ s.poisonedFor none 0x2FFC 4 = false ∧ s.cutOff 0x2FFC = false ∧
    coreOfWave 128 = some 1 ∧ (s.core 1).caches = true := by decide +kernel

/-- `IssuedAccessesComplete`: pairs of accesses of one thread in each of the orders the statement names: of one byte, after an
acquire, before a release, before a fence, and after a `fence.rel`. -/
theorem witness_orders :
    let st : Acc := accAt (.store [1, 2, 3, 4]) 0x2FFC 4
    let ld : Acc := accAt (.load .b32 false) 0x2FFC 4
    let far : Acc := accAt (.load .b32 false) 0x3000 4
    let ok := fun (e a : Acc) => match (demoAccs [e, { a with id := 2 }]).thread? 128 0 with
      | some t => t.accs == [e, { a with id := 2 }] && e.id == 1
      | none => false
    ok st ld = true ∧ ok { far with ord := .acq } ld = true ∧ ok far { st with ord := .rel } = true ∧
    ok far { accAt .fence 0 0 with ord := .rel } = true ∧ ok { accAt .fence 0 0 with ord := .rel } st = true := by decide +kernel

/-- `BarrierInstructions`: arrivals with another mask, as a seventeenth instance, with nothing pending, and as the last of one;
a watch that can be taken and one that cannot; fences of a thread with a load and without; the arrival of a watch. -/
theorem witness_arrival_faults :
    let obj : Bar := ⟨0, false, false, 0, 2, 2, 0, 0, 0⟩
    let s := fun (b : Bar) (l : List ArrInst) => (({ demo2 with waves := demo2.waves.upd 128 fun x => { x with
      arrs := l
      threads := x.threads.map fun (t : Thread) => { t with v := [(6, 0x800), (7, 3), (8, 0x5000)] } } } : State).putBar ⟨0, 0x800⟩ b)
    let i := fun o => Instr.arrive (fs (.v 2) (.v 6) (.v 7)) o .cls false
    let ok := fun b l o (p : Ctx → State → Wave → Option ArrInst → Bool) => good (s b l) (i o) fun c r => match r.waves.find c.w with
      | some x => maskHas (BitVec.ofNat 32 (c.b 0)) 0 && x.kind != .caller && p c r x (x.arrs.find? fun a => decide (a.bar = ⟨0, 0x800⟩))
      | none => false
    ok obj [⟨⟨0, 0x800⟩, 7, 2⟩] .none (fun _ _ _ h => h.any fun a => a.mask != 3) = true ∧
    ok obj ((List.range 16).map fun n => ⟨⟨0, 32 * n⟩, 3, 2⟩) .none (fun _ _ x h => h.isNone && decide (16 ≤ x.arrs.length)) = true ∧
    ok obj [⟨⟨0, 0x800⟩, 3, 2⟩] .none (fun c r x h => h.any (fun a => a.mask == 3 && x.allIn 3 (a.arrived ||| maskOf [0])) &&
      (r.fencedRelease c.w 0).any fun r1 =>
        (r1.waves.find c.w).any (fun y => y.arrs == x.arrs) && (r1.bar ⟨0, 0x800⟩).pend == 2) = true ∧
    ok { obj with pend := 0, btgt := 4 } [⟨⟨0, 0x800⟩, 3, 2⟩] .none (fun c r x _ => (r.fencedRelease c.w 0).any fun r1 =>
        (r1.waves.find c.w).any (fun y => y.arrs == x.arrs && y.allIn 3 3) && (r1.bar ⟨0, 0x800⟩).pend == 0) = true ∧
    good (s obj []) (.cwatch (fm (.p 1) (.v 6) (.v 8) (.lit 1) 0) false) (fun c r => match r.reach (c.x.agent c.w) .rd clsHome .base (c.b 0 2) 8 with
      | .ok r1 [p] => decide (r1.watchesAt p.key < 512) && (r1.engineIssue c.w 0 c.id).isSome
      | _ => false) = true ∧
    ((s { obj with wch := 255 } []).bar ⟨0, 0x800⟩).wch = 255 ∧
    (let ld : Acc := accAt (.load .b32 false) 0x2FFC 4
     ((demoAccs [ld]).thread? 128 0).any (fun t => t.accs == [ld] && ld.kind.reads && ld.ord == .plain) = true ∧
     (demo.thread? 128 0).any (fun t => t.accs.isEmpty && t.fenced.isNone) = true) ∧
    (let w : Watch := ⟨9, 0x5000, 0, some ⟨0, 0x800⟩, none, 1, none, some (128, 0)⟩
     (({ s obj [] with watches := [w] } : State).force (.engine (w.by_.map fun t => .thread t.1 t.2) [] []) .dev).isSome = true) ∧
    ((s obj []).barIssue 128 0 7).isSome = true := by decide +kernel

/-- `GatherInstructions`: a queue that is full, one that spills, and a disable of one that holds a reservation beside a record. -/
theorem witness_gather_full :
    let rec_ : GSlot := ⟨0, some 9, 0, 1, none, none⟩
    let full : GQueue := { binQueue with fill := 256, bmax := 256, slots := List.replicate 256 rec_ }
    let resv := Instr.gqResv (fs (.v 2) (.v 4) (.v 0)) false
    let pool := fun (q : GQueue) (n : Nat) => let s := demoQ q [(4, 3)]
      s.setCluster 0 { s.cluster 0 with queues := (s.cluster 0).queues ++ (List.range n).map fun k =>
        (40 + k, { binQueue with slots := List.replicate 256 rec_ }) }
    let ok := fun (s : State) (p : Option (Option Nat) → Bool) => good s resv fun c r => match r.queueFor c.x.rgn (c.a 0) with
      | .ok (k, n) => (r.queue k n).enabled && (r.releaseAt c.w 0 .dev).isSome && p ((r.unspillQueue k n).roomFor k n)
      | .error _ => false
    ok (pool full 15) (fun r => r == none) = true ∧
    ok (pool { full with sbase := 0x6000, ssize := 8, sOff := 3 } 15) (fun r => r == some (some 3)) = true ∧
    good (demoQ { binQueue with slots := [rec_, { rec_ with ticket := 1, data := none }] } [(4, 3)]) (.gqCfgDisable (fs (.v 0) (.v 4) (.v 0)))
      (fun c r => match r.queueCfg c.x.rgn (c.a 0) with
        | .ok (k, n) => ((r.queue k n).slots.filter fun t => t.data.isNone).length == 1
        | .error _ => false) = true := by decide +kernel

/-- `SchedulerEvents`: a dependence whose increments are all made; a saved workgroup of one wave that nobody has changed, and a plan
for it; a workgroup that is quiet, and a core that forwards 16; a region with budgets of its own. -/
theorem witness_save_restore :
    let w : Watch := ⟨9, 0x5000, 0, none, some (2, 0), 2, none, some (128, 0)⟩
    (demo.force (.engine (w.by_.map fun b => .thread b.1 b.2) [] []) .dev).isSome = true ∧
    (let x := (demo.waves.find 128).getD (.loaded .launch 0 0)
     let z : Saved := ⟨7, [(131, x)], none, [], 0, 0, false⟩
     let s := { demo with saved := [(7, z)], wgs := demo.wgs.ins 7 { Wg.loaded with rgn := 1, saved := true, group := none } }
     s.saved.find 7 = some z ∧ (s.wgs.find 7).isSome = true ∧ s.recordBad 7 z = false ∧
     ((s.waves ++ z.waves).all fun e => e.2.threads.all fun t => t.accs.all fun a => a.due.isEmpty) = true ∧
     (z.waves.all fun e => e.2.threads.all fun t => t.resv.isNone) = true) ∧
    (let s := { demo with wgs := demo.wgs.upd 0 fun y => { y with saving := true, group := none } }
     (s.wgs.find 0).any (fun y => decide (((s.core y.core).fwd.filter fun f => f.wg != 0).length < 16)) = true ∧
     (s.waves.all fun e => e.2.threads.all fun t => t.accs.isEmpty) = true ∧
     16 ≤ ((List.replicate 16 (⟨3, 1, true⟩ : FwdWg)).filter fun f => f.wg != 0).length) ∧
    ((demoR .running { smallRcb with ownb := true }).region? 2).any (fun x => x.rcb.ownb) = true ∧
    (demo.thread? 128 0).any (fun t => match t.st with | .blocked _ => false | _ => true) = true := by decide +kernel

/-- `Sweeps`: a context that a chunk under way evaluates, one that none does, and the two places a wake writes. -/
theorem witness_wakes :
    let wake := Instr.ctxWake (fs (.v 0) (.v 4) (.v 6))
    let s := demoDesc (tensor 65) [(4, 0x4000), (6, 64)]
    let on := fun (x : Sweep) => s.setDie 0 { s.die 0 with engines := [(0, x)] }
    let mine := fun (x : Sweep) => good (on x) wake fun c r => r.dies.any fun d => d.engines.any fun e =>
      r.sameSweep (r.asrOf c.x.rgn) (r.liveTag c.x.rgn) (BitVec.ofNat 64 (c.tensor 0)) e.2 && e.2.flying && e.2.cursor == c.b 0 / 64
    mine { sweepOf 65 true with cursor := 1 } = true ∧ mine (sweepOf 65 true) = false ∧
    good s wake (fun c r => match r.sweepDesc c 0 (c.tensor 0) with
      | .ok r1 d => (match r1.reachHome c (swCtx d 64) 1 with
        | .ok (r2, key) => (match r2.reachHome c (swSkip d 1) 1 with
          | .ok (r3, key2) => !r3.poisonedFor (r3.liveTag c.x.rgn) key 1 && !r3.cutOff key && key != key2 &&
              (match r3.editHome c 0 (swCtx d 64) key wokenByte with | .ok _ _ => true | _ => false)
          | _ => false)
        | _ => false)
      | .stop _ => false) = true := by decide +kernel

/-- `Presents`: a counter's rise that a commit holds, one at a poisoned grain, and one on a page that may not be written. -/
theorem witness_counters :
    let x : FSet := { FSet.fresh with st := .resolving, root := 1, frames := [5], winner := 1, facets := [1], bound := 3 }
    let s := ({ demo with sets := demo.sets.set 2 x } : State).updRegion 1 fun r => { r with tag := some 17 }
    let ro := { demo with mem := mem64 demo.mem [(0, 0x20001), (0x20000, 27 + 2 ^ 53)] }
    s.cutOff 0x5000 = false ∧ s.windowBad 1 .tagged 0x5000 = none ∧ s.heldPart (s.liveTag 1) 3 0x5000 = true ∧
    s.heldPart (s.liveTag 1) 2 0x5000 = false ∧
    ({ demo with poison := [0x5000 / 32] } : State).poisonedFor none 0x5000 8 = true ∧
    (ro.place 0 0 0x5000).any (fun e => !e.2.wr) = true := by decide +kernel

/-- `TexturesAndRays`: an operation whose unit answers and one whose unit stops, a texel with an error, and a result that may be
read anew. -/
theorem witness_units :
    let f := fun s p => good s (.texQ (fs (.v 8) (.v 4) (.v 6))) fun c r =>
      p (r.unitRun ⟨c.w, 0, c.id, c.x.agent c.w, c.unitOp .texQ 0 (c.b 0 2) 0⟩)
    let bad := { demoDesc texDesc [(6, 0x4000)] with poison := [0x6000 / 32] }
    f (demoDesc texDesc [(6, 0x4000)]) (fun o => match o with | .ok _ ws => ws.length == 4 | .stop _ => false) = true ∧
    f (demoDesc texDesc [(6, 0x4020)]) (fun o => match o with | .ok _ _ => false | .stop _ => true) = true ∧
    good bad (.texF (fs (.v 8) (.v 4) (.v 6))) (fun c r =>
      match r.unitRead ⟨c.w, 0, c.id, c.x.agent c.w, c.unitOp .texF 0 (c.b 0 2) 0⟩ 0x6000 4 with
      | .poison _ => true
      | _ => false) = true ∧
    ({ accAt .calc 0 0 with redo := some ⟨.texQ, 0, 0x4000, 0, true⟩ } : Acc).redo.isSome = true ∧
    (accAt .calc 0 0).redo = none := by decide +kernel

/-- `Rendering`: `pxunlock` of one pixel by a tile wave. -/
theorem witness_unlock :
    good (demoTile [⟨5, 1⟩] [] 5 1) (.pxunlock (fs (.v 0) (.v 2) (.v 3)) false) (fun c r => (r.releaseAt c.w 0 .dev).isSome &&
      (r.waves.find c.w).any fun x => x.tile.any fun t => t.held.contains ⟨5, 1⟩) = true := by decide +kernel

/-- `CsrAccess`: a Caller and a wave, and the numbers at the ends of the levels; `spilll` below and above `spillb`. -/
theorem witness_csr_levels :
    let wr := fun (n : BitVec 21) => Instr.csrw (fm (.v 0) (.v 10) (.v 0) (.v 0) n)
    let ok := fun s n p => good s (wr n) fun c r => (r.waves.find c.w).any fun x => (x.threads[0]?).any fun t => p c t
    let low := demo.updThread 128 0 fun t => { t with spilll := 0x100 }
    ok demo 0x000 (fun c t => decide (c.w < callerKey) && t.spillp == t.spillb) = true ∧
    ok demo 0x113 (fun c _ => decide (c.w < callerKey)) = true ∧ ok demoC 0x404 (fun c _ => decide (callerKey ≤ c.w)) = true ∧
    ok low 0x010 (fun _ t => t.spilll == 0x100 && t.spillp == t.spillb) = true ∧
    ok (demo.updThread 128 0 fun t => { t with spillp := 8 }) 0x011 (fun _ t => t.spillp != t.spillb) = true := by decide +kernel

/-- `FaultsTaken`: a handler whose access faults with code 4 in a domain that delivers it. -/
theorem witness_handler_faults :
    let s := (demoAct 0x100).updThread 128 0 fun t => { t with mark := true }
    (s.region? 1).any (fun y => field y.rcb.act.toNat 9 8 == 1) = true ∧ (s.thread? 128 0).any (fun t => t.mark) = true ∧
    s.acts = none := by decide +kernel

/-- `PackageAndFabric`: requests that wait for nothing, and requests for translations and pages that an answer covers and does not. -/
theorem witness_outside :
    (demo.force (.outside .host) .sys).isSome = true ∧ (demo.force (.outside .peer) .sys).isSome = true ∧
    demo.dueFor (.outside .host) .sys = [] ∧
    ({ demo with transReqs := [⟨0, 0x5000⟩, ⟨1, 0x5000⟩], pageReqs := [⟨0, 0x9000⟩] } : State).transReqs.length = 2 ∧
    ({ demo with frozen := true, agenda := [.event .freezePin, .event .deviceReset] } : State).agenda ≠ [] := by decide +kernel

end Sys2Proof.Tests
end

section
/-! PROOFS. Accesses at the home of places outside every facet window (R252 to R256, R325): what reading and writing there
does to memory, and what performing a load, a store or a read-modify-write comes to. -/

namespace Sys2Proof.Machine

open Sys2Proof

/-! ### Places outside every window -/

/-- No window of an open set holds a byte of the n from a place on. -/
def State.noWindow (s : State) (key n : Nat) : Prop := ∀ k, key ≤ k → k < key + n → s.windowOf k = none

theorem State.windowOf_congr {s t : State} (h : t.sets = s.sets) (key : Nat) : t.windowOf key = s.windowOf key := by
  unfold State.windowOf; rw [h]

/-- A window holds frames whole. -/
theorem State.windowOf_frame (s : State) {j k : Nat} (h : j / 4096 = k / 4096) : s.windowOf j = s.windowOf k := by
  unfold State.windowOf; rw [h]

theorem State.noWindow.congr {s t : State} {key n : Nat} (h : s.noWindow key n) (hs : t.sets = s.sets) :
    t.noWindow key n := fun k h1 h2 => (State.windowOf_congr hs k).trans (h k h1 h2)

theorem State.versionTag_none {s : State} {key : Nat} (h : s.windowOf key = none) (tag : Option (BitVec 5)) :
    s.versionTag tag key = none := by
  unfold State.versionTag; rw [h]

theorem State.heldPart_none {s : State} {key : Nat} (h : s.windowOf key = none) (tag : Option (BitVec 5)) (id : Nat) :
    s.heldPart tag id key = false := by
  unfold State.heldPart; rw [h]

theorem State.promote_none {s : State} {key : Nat} (h : s.windowOf key = none) : s.promote key = s := by
  unfold State.promote; rw [h]

theorem State.homeByte_none {s : State} {key : Nat} (h : s.windowOf key = none) (tag : Option (BitVec 5)) :
    s.homeByte tag key = s.byte key := by
  unfold State.homeByte State.retired
  rw [State.versionTag_none h, h]

/-- Outside every window an access reads base, whatever its tag. -/
theorem State.homeBytes_none {s : State} {key n : Nat} (h : s.noWindow key n) (tag : Option (BitVec 5)) :
    s.homeBytes tag key n = s.bytes key n := by
  refine List.map_congr_left fun i hi => State.homeByte_none (h _ (by omega) ?_) tag
  have := List.mem_range.mp hi
  omega

@[simp] theorem State.bytes_length (s : State) (key n : Nat) : (s.bytes key n).length = n := by simp [State.bytes]

theorem State.byte_congr {s t : State} (h : t.mem = s.mem) (key : Nat) : t.byte key = s.byte key := by
  unfold State.byte; rw [h]

theorem State.bytes_congr {s t : State} (h : t.mem = s.mem) (key n : Nat) : t.bytes key n = s.bytes key n := by
  unfold State.bytes State.byte; rw [h]

/-! ### Sectors -/

/-- A sector that a range touches holds a byte of it. -/
theorem mem_sectorsOf {key n i : Nat} (h : i ∈ sectorsOf key n) : key < 64 * i + 64 ∧ 64 * i < key + n := by
  unfold sectorsOf at h
  obtain ⟨j, hj, rfl⟩ := List.mem_map.mp h
  have := List.mem_range.mp hj
  omega

/-- No window holds the start of a sector that such a range touches: it lies in the frame of a byte of the range. -/
theorem State.noWindow.sector {s : State} {key n i : Nat} (h : s.noWindow key n) (hn : 0 < n) (hi : i ∈ sectorsOf key n) :
    s.windowOf (64 * i) = none := by
  have hb := mem_sectorsOf hi
  rw [State.windowOf_frame s (j := 64 * i) (k := max key (64 * i)) (by omega)]
  exact h _ (by omega) (by omega)

/-- The pieces of a range lie in it. -/
theorem mem_sectorPieces_within {key n : Nat} {p : Nat × Nat} (hn : 0 < n) (hp : p ∈ sectorPieces key n) :
    key ≤ p.1 ∧ 0 < p.2 ∧ p.1 + p.2 ≤ key + n := by
  obtain ⟨i, hi, rfl⟩ := List.mem_map.mp hp
  have := mem_sectorsOf hi
  dsimp only
  omega

/-- The pieces of a range cover it. -/
theorem exists_sectorPiece {key n k : Nat} (h1 : key ≤ k) (h2 : k < key + n) :
    ∃ p ∈ sectorPieces key n, p.1 ≤ k ∧ k < p.1 + p.2 := by
  refine ⟨_, List.mem_map.mpr ⟨k / 64, List.mem_map.mpr ⟨k / 64 - key / 64, List.mem_range.mpr ?_, ?_⟩, rfl⟩, ?_⟩
  · omega
  · omega
  · dsimp only
    omega

/-! ### Reading at the home -/

/-- The two states differ in the lines that L2 holds, and in the free values used, alone. -/
def State.sameButL2 (s t : State) : Prop := t = { s with l2 := t.l2, fv := t.fv }

section

variable {s t u : State}

theorem State.sameButL2.refl (s : State) : s.sameButL2 s := rfl

theorem State.sameButL2.trans (h : s.sameButL2 t) (k : t.sameButL2 u) : s.sameButL2 u := by
  unfold State.sameButL2 at h k ⊢; rw [k, h]

theorem State.sameButL2.mem (h : s.sameButL2 t) : t.mem = s.mem := by rw [h]
theorem State.sameButL2.sets (h : s.sameButL2 t) : t.sets = s.sets := by rw [h]
theorem State.sameButL2.waves (h : s.sameButL2 t) : t.waves = s.waves := by rw [h]
theorem State.sameButL2.cores (h : s.sameButL2 t) : t.cores = s.cores := by rw [h]

end

/-- A way made in a set of L2 uses a free value at most, beside the line that goes. -/
theorem State.makeWay_sameButL2 {s t : State} {line : Nat} (h : s.makeWay line = some t) : s.sameButL2 t := by
  unfold State.makeWay at h
  dsimp only at h
  split at h
  · cases h; rfl
  · split at h
    · cases h
    · cases h; rfl

theorem State.touch_sameButL2 (s : State) (sec : Nat) (wr : Bool) : s.sameButL2 (s.touch sec wr) := by
  unfold State.touch
  split
  · rfl
  · split
    · rfl
    · split
      · rename_i s1 h; exact (State.makeWay_sameButL2 h).trans rfl
      · rfl

/-- Bytes read at the home outside every window change what L2 holds alone. -/
theorem State.atHome_noWindow {s : State} {key n : Nat} (h : s.noWindow key n) (hn : 0 < n) :
    s.sameButL2 (s.atHome key n) := by
  have fold : ∀ (is : List Nat), (∀ i ∈ is, s.windowOf (64 * i) = none) → ∀ t, s.sameButL2 t →
      s.sameButL2 (is.foldl (fun s i => (s.promote (64 * i)).touch i false) t) := by
    intro is
    induction is with
    | nil => exact fun _ t ht => ht
    | cons i is ih =>
      intro hi t ht
      have hw : t.windowOf (64 * i) = none := (State.windowOf_congr ht.sets _).trans (hi i List.mem_cons_self)
      rw [List.foldl_cons, State.promote_none hw]
      exact ih (fun j hj => hi j (List.mem_cons_of_mem _ hj)) _ (ht.trans (t.touch_sameButL2 i false))
  exact fold _ (fun i hi => h.sector hn hi) s (.refl s)

/-! ### Writing at the home -/

theorem State.noteConst_sets (s : State) (key n : Nat) (b : Option (Nat × Nat)) :
    (s.noteConst key n b).sets = s.sets := by
  unfold State.noteConst
  dsimp only
  split <;> rfl

theorem State.clearResvs_sets (s : State) (pt : ResvAt) (key n : Nat) (b : Option (Nat × Nat)) :
    (s.clearResvs pt key n b).sets = s.sets :=
  foldl_same State.sets (fun (s : State) g => s.clearResv pt g b) (fun _ _ => rfl) _ s

/-- Bytes within a sector written outside every window go to base; the windows are as they were. -/
theorem State.homeWrite1_none {s : State} {key : Nat} (h : s.windowOf key = none) (tag : Option (BitVec 5))
    (b : Option (Nat × Nat)) (bs : List Byte) :
    ∃ t, s.homeWrite1 tag b key bs = some t ∧ t.sets = s.sets ∧ t.mem = putBytes s.mem key bs := by
  have hp : (s.noteConst key bs.length b).promote key = s.noteConst key bs.length b :=
    State.promote_none ((State.windowOf_congr (s.noteConst_sets key bs.length b) key).trans h)
  unfold State.homeWrite1
  rw [State.versionTag_none h]
  refine ⟨_, rfl, ?_, ?_⟩
  · rw [State.clearResvs_sets, hp]
    exact (State.touch_sameButL2 _ _ _).sets.trans (s.noteConst_sets ..)
  · rw [State.clearResvs_mem, hp, State.healed_mem]
    dsimp only
    rw [State.touch_mem, State.noteConst_mem]

/-- A byte of a piece of a range is the range's byte at that place. -/
theorem getD_piece {bs : List Byte} {key lo n k : Nat} (h1 : key ≤ lo) (h2 : lo ≤ k) (h3 : k < lo + n) :
    ((bs.drop (lo - key)).take n).getD (k - lo) 0 = bs.getD (k - key) 0 := by
  have e : lo - key + (k - lo) = k - key := by omega
  simp only [List.getD_eq_getElem?_getD, List.getElem?_take, List.getElem?_drop, e]
  rw [if_pos (by omega)]

/-- One piece of a write at the home (R324, R326). -/
def State.homeWriteStep (tag : Option (BitVec 5)) (b : Option (Nat × Nat)) (key : Nat) (bs : List Byte)
    (r : Except (Nat × State) State) (p : Nat × Nat) : Except (Nat × State) State :=
  match r with
  | .error e => .error e
  | .ok s =>
    match s.homeWrite1 tag b p.1 ((bs.drop (p.1 - key)).take p.2) with
    | some s1 => .ok s1
    | none => .error (p.1 / 64 * 64, s)

theorem State.homeWrite_eq_foldl (s : State) (tag : Option (BitVec 5)) (b : Option (Nat × Nat)) (key : Nat)
    (bs : List Byte) :
    s.homeWrite tag b key bs = (sectorPieces key bs.length).foldl (State.homeWriteStep tag b key bs) (.ok s) := rfl

/-- A piece written outside every window leaves its bytes, every other byte as it was, and the windows. -/
theorem State.homeWriteStep_none {s : State} {key : Nat} {bs : List Byte} {p : Nat × Nat} (h : s.windowOf p.1 = none)
    (h1 : key ≤ p.1) (h2 : p.1 + p.2 ≤ key + bs.length) (tag : Option (BitVec 5)) (b : Option (Nat × Nat)) :
    ∃ t, State.homeWriteStep tag b key bs (.ok s) p = .ok t ∧ t.sets = s.sets ∧
      ∀ k, t.byte k = if p.1 ≤ k ∧ k < p.1 + p.2 then bs.getD (k - key) 0 else s.byte k := by
  obtain ⟨t, ht, hs, hm⟩ := State.homeWrite1_none h tag b ((bs.drop (p.1 - key)).take p.2)
  have hl : ((bs.drop (p.1 - key)).take p.2).length = p.2 := by simp; omega
  refine ⟨t, by simp only [State.homeWriteStep, ht], hs, fun k => ?_⟩
  unfold State.byte
  rw [hm, putBytes_get, hl]
  split
  · rename_i hk; exact getD_piece h1 hk.1 hk.2
  · rfl

/-- Pieces within a range outside every window, written one after another: a byte of one of them is the range's, every other byte
is as it was. -/
theorem State.homeWriteSteps_noWindow {key : Nat} {bs : List Byte} (tag : Option (BitVec 5)) (b : Option (Nat × Nat))
    (ps : List (Nat × Nat)) (hps : ∀ p ∈ ps, key ≤ p.1 ∧ 0 < p.2 ∧ p.1 + p.2 ≤ key + bs.length) {s : State}
    (h : s.noWindow key bs.length) :
    ∃ t, ps.foldl (State.homeWriteStep tag b key bs) (.ok s) = .ok t ∧
      ∀ k, t.byte k = if ∃ p ∈ ps, p.1 ≤ k ∧ k < p.1 + p.2 then bs.getD (k - key) 0 else s.byte k := by
  induction ps generalizing s with
  | nil => exact ⟨s, rfl, by simp⟩
  | cons p ps ih =>
    obtain ⟨hlo, hpos, hhi⟩ := hps p List.mem_cons_self
    obtain ⟨s1, h1, hs1, hb1⟩ := State.homeWriteStep_none (h p.1 hlo (by omega)) hlo hhi tag b
    obtain ⟨t, ht, hb⟩ := ih (fun q hq => hps q (List.mem_cons_of_mem _ hq)) (h.congr hs1)
    refine ⟨t, by rw [List.foldl_cons, h1, ht], fun k => ?_⟩
    rw [hb, hb1]
    by_cases hk : p.1 ≤ k ∧ k < p.1 + p.2
    · simp [hk]
    · simp only [List.exists_mem_cons_iff, hk, false_or, if_false]

/-- A write at the home outside every window finds its room; it leaves its bytes, and every other byte as it was. -/
theorem State.homeWrite_noWindow {s : State} {key : Nat} {bs : List Byte} (h : s.noWindow key bs.length)
    (hn : 0 < bs.length) (tag : Option (BitVec 5)) (b : Option (Nat × Nat)) :
    ∃ t, s.homeWrite tag b key bs = .ok t ∧
      ∀ k, t.byte k = if key ≤ k ∧ k < key + bs.length then bs.getD (k - key) 0 else s.byte k := by
  have within := fun p (hp : p ∈ sectorPieces key bs.length) => mem_sectorPieces_within hn hp
  obtain ⟨t, ht, hb⟩ := State.homeWriteSteps_noWindow tag b _ within h
  refine ⟨t, ht, fun k => (hb k).trans (if_congr ⟨?_, fun hk => exists_sectorPiece hk.1 hk.2⟩ rfl rfl)⟩
  rintro ⟨p, hp, h1, h2⟩
  obtain ⟨hlo, -, hhi⟩ := within p hp
  omega

/-! ### An access to one page of class H -/

/-- An access that orders nothing, to one part of a page of class H, over a link that is up, without a data error, and
outside every window. -/
structure HomeAccess (s : State) (a : Acc) (p : Part) : Prop where
  space : a.space = .glob
  parts : a.parts = [p]
  cls : p.cls = .h
  ord : a.ord = .plain ∨ a.ord = .rlx
  size : 0 < p.size
  up : s.cutOff p.key = false
  sound : s.poisonedFor a.tag p.key p.size = false
  base : s.noWindow p.key p.size

section

variable {s : State} {a : Acc} {p : Part} (h : HomeAccess s a p)
include h

theorem HomeAccess.releases : a.ord.releases = false := by
  rcases h.ord with ho | ho <;> rw [ho] <;> rfl

theorem HomeAccess.acquires : a.ord.acquires = false := by
  rcases h.ord with ho | ho <;> rw [ho] <;> rfl

theorem HomeAccess.pointOf (r : State) (w : Nat) : r.pointOf w a p.cls = .home := by
  unfold State.pointOf
  rw [h.space, h.cls]

theorem HomeAccess.notHeld : (a.parts.any fun p => s.heldPart a.tag a.id p.key) = false := by
  have hw := h.base p.key (Nat.le_refl _) (Nat.lt_add_of_pos_right h.size)
  rw [h.parts]
  simp [State.heldPart_none hw]

theorem HomeAccess.cutPart : s.cutPart a p = false := by
  unfold State.cutPart
  rw [h.up, Bool.and_false]

theorem HomeAccess.notCut : a.parts.any (s.cutPart a) = false := by
  rw [h.parts]
  simp [h.cutPart]

/-- What L2 holds is not looked at. -/
theorem HomeAccess.congr {t : State} (ht : s.sameButL2 t) : HomeAccess t a p :=
  ⟨h.space, h.parts, h.cls, h.ord, h.size, by rw [ht]; exact h.up, by rw [ht]; exact h.sound, h.base.congr ht.sets⟩

/-- The part is read as it stands in memory. -/
theorem HomeAccess.readParts (w : Nat) :
    ∃ t, s.readParts w a a.parts = (t, s.bytes p.key p.size, none) ∧ s.sameButL2 t := by
  have ht := State.atHome_noWindow h.base h.size
  refine ⟨_, ?_, ht⟩
  have hb : (s.atHome p.key p.size).homeBytes a.tag p.key p.size = s.bytes p.key p.size :=
    (State.homeBytes_none (h.base.congr ht.sets) a.tag).trans (State.bytes_congr ht.mem _ _)
  rw [h.parts]
  simp only [State.readParts, h.pointOf, State.readAt, h.sound, hb, List.append_nil, Bool.false_eq_true, if_false]

/-- The part is written whole, and no other byte. -/
theorem HomeAccess.writeParts (w lane : Nat) {bs : List Byte} (hl : bs.length = p.size) :
    ∃ t, s.writeParts w lane a a.parts bs = .ok t ∧
      ∀ k, t.byte k = if p.key ≤ k ∧ k < p.key + p.size then bs.getD (k - p.key) 0 else s.byte k := by
  obtain ⟨t, ht, hb⟩ := State.homeWrite_noWindow (hl ▸ h.base) (hl ▸ h.size) a.tag (some (w, lane))
  refine ⟨t, ?_, hl ▸ hb⟩
  rw [h.parts]
  simp only [State.writeParts, h.cutPart, h.pointOf, State.writeAt, ← hl, List.take_length, ht, Bool.false_eq_true,
    if_false]

/-- A load answers the bytes of its part, extended to its registers; L2 alone may change. -/
theorem HomeAccess.perform_load (w lane : Nat) {wid : Wid} (hk : a.kind = .load wid false) (hg : a.got = [])
    (he : a.early = none) :
    ∃ t, s.perform w lane a = some ⟨t, some (loadWords wid (s.num p.key p.size)), none, none⟩ ∧ s.sameButL2 t := by
  obtain ⟨t, hr, ht⟩ := h.readParts w
  refine ⟨t, ?_, ht⟩
  unfold State.perform
  simp only [h.notHeld, h.releases, h.acquires, h.notCut, hk, he, hg, hr, List.nil_append, Bool.false_eq_true, if_false]
  rfl

/-- A store answers nothing and leaves its bytes. -/
theorem HomeAccess.perform_store (w lane : Nat) {bs : List Byte} (hk : a.kind = .store bs) (hl : bs.length = p.size) :
    ∃ t, s.perform w lane a = some ⟨t, none, none, none⟩ ∧
      ∀ k, t.byte k = if p.key ≤ k ∧ k < p.key + p.size then bs.getD (k - p.key) 0 else s.byte k := by
  obtain ⟨t, ht, hb⟩ := h.writeParts w lane hl
  refine ⟨t, ?_, hb⟩
  unfold State.perform
  simp only [h.notHeld, h.releases, h.acquires, hk, ht, Bool.false_eq_true, if_false]

/-- A read-modify-write reads its part, and then writes the new value there; nothing is written back, as its page is not of
class P. -/
theorem HomeAccess.perform_isRmw (w lane : Nat) (hk : a.kind.isRmw = true) {r t : State}
    (hr : s.readParts w a a.parts = (r, s.bytes p.key p.size, none))
    (ht : r.writeParts w lane a a.parts (toLe p.size (a.kind.newVal (s.num p.key p.size))) = .ok t) :
    s.perform w lane a = some ⟨t, some (wordsOf a.words (s.num p.key p.size)), none, none⟩ := by
  have hc : (p.cls == PgCls.p) = false := by rw [h.cls]; rfl
  unfold State.num at ht ⊢
  unfold State.perform
  simp only [h.notHeld, h.releases, h.acquires, h.notCut, Bool.false_eq_true, if_false]
  rw [h.parts] at hr ht ⊢
  cases hkind : a.kind <;> rw [hkind] at hk ht
  case rmw | cas | mcas | mred | mscale =>
    cases coreOfWave w <;>
      simp only [h.space, hc, Bool.false_and, Bool.false_eq_true, if_false, hr, State.bytes_length, ht]
  all_goals cases hk

/-- A read-modify-write answers the old value and leaves the new one. -/
theorem HomeAccess.perform_rmw (w lane : Nat) (hk : a.kind.isRmw = true) :
    ∃ t, s.perform w lane a = some ⟨t, some (wordsOf a.words (s.num p.key p.size)), none, none⟩ ∧
      ∀ k, t.byte k = if p.key ≤ k ∧ k < p.key + p.size
        then (toLe p.size (a.kind.newVal (s.num p.key p.size))).getD (k - p.key) 0 else s.byte k := by
  obtain ⟨r, hr, hsame⟩ := h.readParts w
  obtain ⟨t, ht, hb⟩ := (h.congr hsame).writeParts w lane (toLe_length p.size (a.kind.newVal (s.num p.key p.size)))
  exact ⟨t, h.perform_isRmw w lane hk hr ht, fun k => by rw [hb k, State.byte_congr hsame.mem]⟩

end

/-- Settles O33: each of the three kinds of access, performed at the home of one part outside every window. -/
theorem accessesPerform : Obligations.AccessesPerform := by
  intro s w lane a p hspace hparts hcls hord hsize hup hsound hbase
  have h : HomeAccess s a p := ⟨hspace, hparts, hcls, hord, hsize, hup, hsound, hbase⟩
  refine ⟨fun wid hk hg he => ?_, fun bs hk hl => ?_, fun hk => ?_⟩
  · obtain ⟨t, ht, hsame⟩ := h.perform_load w lane hk hg he
    exact ⟨_, ht, rfl, rfl, rfl, hsame.mem, hsame.waves, hsame.cores⟩
  · obtain ⟨t, ht, hb⟩ := h.perform_store w lane hk hl
    exact ⟨_, ht, rfl, rfl, rfl, hb⟩
  · obtain ⟨t, ht, hb⟩ := h.perform_rmw w lane hk
    exact ⟨_, ht, rfl, rfl, rfl, hb⟩

end Sys2Proof.Machine
end

section
/-! PROOFS. The CSR instructions (R167, R168): what a lane does with the number it names, what each level's CSRs read as, and
what a write of one changes. -/

namespace Sys2Proof.Machine

open Sys2Proof

/-! ### The lanes of a group -/

/-- An instruction whose lanes act one after another leaves the state after they have acted. -/
theorem perLane_lanes {i : Instr} {s s1 : State} {g : Ctx → State → Nat → Lane} {c : Ctx} (h : Begins i s c s1) :
    perLane i s g = .next (s1.lanes c (g c)) := perLane_go h

/-! ### One lane of `csrr` and of `csrw` -/

section

variable (s : State) (c : Ctx) (lane : Nat)

theorem Ctx.csrCheck_none {n : Nat} (h : csrWords n = none) (o : Operand) :
    c.csrCheck n o = .error { code := 1, sub := 6 } := by
  unfold Ctx.csrCheck; rw [h]

/-- A number no CSR has (R167). -/
theorem State.csrrLane_none (h : csrWords (c.csrNum (c.a lane)) = none) :
    s.csrrLane c lane = .fault s { code := 1, sub := 6 } := by
  unfold State.csrrLane
  simp only [c.csrCheck_none h]

theorem State.csrwLane_none (h : csrWords (c.csrNum (c.b lane)) = none) :
    s.csrwLane c lane = .fault s { code := 1, sub := 6 } := by
  unfold State.csrwLane
  simp only [c.csrCheck_none h]

variable {s c lane} {k : Nat} {s1 : State}

/-- A CSR of k registers, once what waits for the destination is settled, is read to it, or faults by its level. -/
theorem State.csrrLane_checked (hk : c.csrCheck (c.csrNum (c.a lane)) c.e.f.d = .ok k)
    (hs : s.settlePair c lane k c.e.f.d = some s1) :
    (∀ v, s1.csrRead c lane (c.csrNum (c.a lane)) = .ok v → s.csrrLane c lane = .ok s1 (wordsOf k v)) ∧
    ∀ e, s1.csrRead c lane (c.csrNum (c.a lane)) = .error e → s.csrrLane c lane = .fault s1 e := by
  unfold State.csrrLane
  constructor
  · intro v hv; simp only [hk, hs, hv]
  · intro e he; simp only [hk, hs, he]

/-- A CSR of k registers, once what waits for A is settled, takes A as it then stands, or faults. -/
theorem State.csrwLane_checked {x : Wave} (hk : c.csrCheck (c.csrNum (c.b lane)) c.e.f.a = .ok k)
    (hs : s.settlePair c lane k c.e.f.a = some s1) (hx : s1.waves.find c.w = some x) :
    (∀ t, s1.csrWrite c lane (c.csrNum (c.b lane)) (Ctx.a { c with x := x } lane k) = .ok t →
      s.csrwLane c lane = .ok t []) ∧
    ∀ e, s1.csrWrite c lane (c.csrNum (c.b lane)) (Ctx.a { c with x := x } lane k) = .error e →
      s.csrwLane c lane = .fault s1 e := by
  unfold State.csrwLane
  constructor
  · intro t ht; simp only [hk, hs, hx, ht]
  · intro e he; simp only [hk, hs, hx, he]

end

/-! ### The levels of CSRs (R168, R225) -/

theorem coreOfWave_wave {w : Nat} (h : w < callerKey) : coreOfWave w = some (w / 128) := if_pos h

theorem coreOfWave_caller {w : Nat} (h : callerKey ≤ w) : coreOfWave w = none := if_neg (Nat.not_lt.mpr h)

section

variable {s : State} {c : Ctx} {lane n : Nat} {x : Wave}

theorem State.csrRead_thread {t : Thread} (hx : s.waves.find c.w = some x) (ht : x.threads[lane]? = some t)
    (h : n < 0x100) : s.csrRead c lane n = .ok (t.csr n) := by
  unfold State.csrRead
  simp only [hx, if_pos h, List.getD_eq_getElem?_getD, ht, Option.getD_some]

theorem State.csrRead_wave (hx : s.waves.find c.w = some x) (h1 : 0x100 ≤ n) (h2 : n < 0x200) (hw : c.w < callerKey) :
    s.csrRead c lane n = .ok (x.csr n) := by
  unfold State.csrRead
  simp only [hx, coreOfWave_wave hw, if_neg (show ¬ n < 0x100 by omega), if_pos (show n < 0x400 by omega), if_pos h2]

theorem State.csrRead_core (hx : s.waves.find c.w = some x) (h1 : 0x200 ≤ n) (h2 : n < 0x400) (hw : c.w < callerKey) :
    s.csrRead c lane n = .ok (s.coreCsr (c.w / 128) n) := by
  unfold State.csrRead
  simp only [hx, coreOfWave_wave hw, if_neg (show ¬ n < 0x100 by omega), if_pos h2, if_neg (show ¬ n < 0x200 by omega)]

/-- A Caller reads no CSR of a wave or a core. -/
theorem State.csrRead_waveByCaller (hx : s.waves.find c.w = some x) (h1 : 0x100 ≤ n) (h2 : n < 0x400)
    (hw : callerKey ≤ c.w) : s.csrRead c lane n = .error csrRefused := by
  unfold State.csrRead
  simp only [hx, coreOfWave_caller hw, if_neg (show ¬ n < 0x100 by omega), if_pos h2]

theorem State.csrRead_cluster (hx : s.waves.find c.w = some x) (h1 : 0x400 ≤ n) (h2 : n < 0x600)
    (hw : callerKey ≤ c.w) : s.csrRead c lane n = .ok (s.clusterCsr (clusterOfWave c.w) n) := by
  unfold State.csrRead
  simp only [hx, coreOfWave_caller hw, if_neg (show ¬ n < 0x100 by omega), if_neg (show ¬ n < 0x400 by omega), if_pos h2]

/-- A wave reads no CSR of a cluster. -/
theorem State.csrRead_clusterByWave (hx : s.waves.find c.w = some x) (h1 : 0x400 ≤ n) (h2 : n < 0x600)
    (hw : c.w < callerKey) : s.csrRead c lane n = .error csrRefused := by
  unfold State.csrRead
  simp only [hx, coreOfWave_wave hw, if_neg (show ¬ n < 0x100 by omega), if_neg (show ¬ n < 0x400 by omega), if_pos h2]

/-- A CSR of a die or of the device is read in a system region alone. -/
theorem State.csrRead_device (hx : s.waves.find c.w = some x) (h : 0x600 ≤ n) :
    s.csrRead c lane n =
      if s.isSys x.rgn then .ok (s.deviceCsr (clusterOfWave c.w / 24) n) else .error csrRefused := by
  unfold State.csrRead
  simp only [hx, if_neg (show ¬ n < 0x100 by omega), if_neg (show ¬ n < 0x400 by omega), if_neg (show ¬ n < 0x600 by omega)]

end

/-! ### What each level's CSRs read as -/

theorem Wave.csr_feedp (x : Wave) (i : Nat) : x.csr (0x110 + i) = (x.feedp.getD i 0).toNat := by
  unfold Wave.csr
  rw [if_neg (by omega), Nat.add_sub_cancel_left]

/-- The CSRs of the engine of core i of a cluster (R226, R227). -/
theorem State.clusterCsr_mestat (s : State) (k : Nat) {i : Nat} (h : i < 4) :
    s.clusterCsr k (0x400 + i) = (s.core (4 * k + i)).engine.mestat.toNat := by
  unfold State.clusterCsr
  dsimp only
  rw [if_pos (by omega), show (0x400 + i) % 4 = i by omega]

theorem State.clusterCsr_counts (s : State) (k : Nat) {i : Nat} (h : i < 4) :
    s.clusterCsr k (0x404 + i) =
      (s.core (4 * k + i)).engine.done.toNat + 2 ^ 32 * (s.core (4 * k + i)).engine.issued.toNat := by
  unfold State.clusterCsr
  dsimp only
  rw [if_neg (by omega), show (0x404 + i) % 4 = i by omega]

theorem State.deviceCsr_l2part (s : State) (die : Nat) {i : Nat} (h : i < 8) :
    s.deviceCsr die (0x601 + i) = ((s.die die).l2part.getD i 0).toNat := by
  unfold State.deviceCsr
  split
  · omega
  · omega
  · omega
  · rw [if_pos (by omega), Nat.add_sub_cancel_left]

theorem State.deviceCsr_presq (s : State) (die : Nat) {i : Nat} (h : i < 4) :
    s.deviceCsr die (0x801 + i) = s.presq i := by
  unfold State.deviceCsr
  split
  · omega
  · omega
  · omega
  · rw [if_neg (by omega), Nat.add_sub_cancel_left]

theorem State.presq_eq {s : State} {q : Nat} {p : PQueue} (h : s.presents[q]? = some p) :
    s.presq q = p.interval + 2 ^ 32 * (if s.presEn.getLsbD q then (p.slot - s.us) % 2 ^ 20 else 0) +
      2 ^ 52 * p.entries.length := by
  unfold State.presq
  simp only [List.getD_eq_getElem?_getD, h, Option.getD_some]

theorem PwrSt.code_eq (p : PwrSt) : p.code = if p = .active then 0 else 1 := by cases p <;> rfl

/-! ### What a write of a CSR does -/

section

variable {s : State} {c : Ctx} {lane n v : Nat}

/-- The CSRs of a core, of a die and of the device are not written. -/
theorem State.csrWrite_readOnly (h : 0x600 ≤ n ∨ 0x200 ≤ n ∧ n < 0x400) :
    s.csrWrite c lane n v = .error csrRefused := by
  unfold State.csrWrite
  rw [if_neg (show ¬ n < 0x100 by omega), if_neg (show ¬ n < 0x200 by omega)]
  rcases h with h | ⟨-, h⟩
  · rw [if_neg (show ¬ n < 0x400 by omega), if_neg (show ¬ n < 0x600 by omega)]
  · rw [if_pos h]

theorem State.csrWrite_wave (h1 : 0x100 ≤ n) (h2 : n < 0x200) (hw : c.w < callerKey) :
    s.csrWrite c lane n v = .ok { s with waves := s.waves.upd c.w fun x => x.putCsr n v } := by
  unfold State.csrWrite
  simp only [coreOfWave_wave hw, if_neg (show ¬ n < 0x100 by omega), if_pos h2]

/-- A Caller writes no CSR of a wave. -/
theorem State.csrWrite_waveByCaller (h1 : 0x100 ≤ n) (h2 : n < 0x200) (hw : callerKey ≤ c.w) :
    s.csrWrite c lane n v = .error csrRefused := by
  unfold State.csrWrite
  simp only [coreOfWave_caller hw, if_neg (show ¬ n < 0x100 by omega), if_pos h2]

/-- The `mestat` of an engine takes a write; the counts beside it ignore one. -/
theorem State.csrWrite_cluster (h1 : 0x400 ≤ n) (h2 : n < 0x600) (hw : callerKey ≤ c.w) :
    s.csrWrite c lane n v = .ok (if n < 0x404 then s.writeMestat (4 * clusterOfWave c.w + n % 4) v else s) := by
  unfold State.csrWrite
  simp only [coreOfWave_caller hw, if_neg (show ¬ n < 0x100 by omega), if_neg (show ¬ n < 0x200 by omega),
    if_neg (show ¬ n < 0x400 by omega), if_pos h2]

/-- A wave writes no CSR of a cluster. -/
theorem State.csrWrite_clusterByWave (h1 : 0x400 ≤ n) (h2 : n < 0x600) (hw : c.w < callerKey) :
    s.csrWrite c lane n v = .error csrRefused := by
  unfold State.csrWrite
  simp only [coreOfWave_wave hw, if_neg (show ¬ n < 0x100 by omega), if_neg (show ¬ n < 0x200 by omega),
    if_neg (show ¬ n < 0x400 by omega), if_pos h2]

/-- A CSR of the thread takes a write. -/
theorem State.csrWrite_thread {t u : Thread} (ht : s.thread? c.w lane = some t) (h : n < 0x100)
    (hu : t.putCsr n v = .ok u) : s.csrWrite c lane n v = .ok (s.updThread c.w lane fun _ => u) := by
  unfold State.csrWrite
  simp only [if_pos h, ht, hu]

/-- A CSR of the thread refuses a write. -/
theorem State.csrWrite_threadRefused {t : Thread} {e : Flt} (ht : s.thread? c.w lane = some t) (h : n < 0x100)
    (he : t.putCsr n v = .error e) : s.csrWrite c lane n v = .error e := by
  unfold State.csrWrite
  simp only [if_pos h, ht, he]

end

theorem State.thread?_eq {s : State} {w lane : Nat} {x : Wave} {t : Thread} (hx : s.waves.find w = some x)
    (ht : x.threads[lane]? = some t) : s.thread? w lane = some t := by
  unfold State.thread?
  rw [hx]
  exact ht

/-- A field of a wave's CSR `feedp` (R211). -/
theorem Wave.putCsr_feedp (x : Wave) (i v : Nat) :
    x.putCsr (0x110 + i) v = { x with feedp := x.feedp.set i (BitVec.ofNat 32 (v % 2 ^ 22 / 4 * 4)) } := by
  unfold Wave.putCsr
  rw [if_neg (by omega), Nat.add_sub_cancel_left]

/-! ### The spill area (R23) -/

section

variable {t : Thread} (v : Nat)

/-- Neither bound of a spill area that holds an address is written. -/
theorem Thread.putSpill_held (h : t.spillp ≠ t.spillb) :
    t.putSpillb v = .error { code := 5, sub := 2 } ∧ t.putSpilll v = .error { code := 5, sub := 2 } :=
  ⟨if_pos h, if_pos h⟩

theorem Thread.putSpillb_empty (h : t.spillp = t.spillb) :
    t.putSpillb v =
      if t.spilll.toNat < (BitVec.ofNat 64 (v / 8 * 8)).toNat then .error { code := 5, sub := 3 }
      else .ok { t with spillb := BitVec.ofNat 64 (v / 8 * 8), spillp := BitVec.ofNat 64 (v / 8 * 8) } :=
  if_neg (not_not_intro h)

theorem Thread.putSpilll_empty (h : t.spillp = t.spillb) :
    t.putSpilll v =
      if (BitVec.ofNat 64 (v / 8 * 8)).toNat < t.spillb.toNat then .error { code := 5, sub := 3 }
      else .ok { t with spilll := BitVec.ofNat 64 (v / 8 * 8) } :=
  if_neg (not_not_intro h)

end

/-! ### `mestat` (R226, R243) -/

theorem State.writeMestat_running {s : State} {g : Nat} (h : (s.core g).engine.mestat.getLsbD 0 = false) (v : Nat) :
    s.writeMestat g v = s := by
  unfold State.writeMestat
  simp only [h, Bool.not_false, if_true]

/-- HALT written without DISC lets the engine go on. -/
theorem State.writeMestat_resume {s : State} {g v : Nat} (h : (s.core g).engine.mestat.getLsbD 0 = true)
    (h0 : v.testBit 0 = true) (h1 : v.testBit 1 = false) :
    s.writeMestat g v = s.setCore g
      { s.core g with engine := { (s.core g).engine with mestat := (s.core g).engine.mestat &&& ~~~1 } } := by
  unfold State.writeMestat
  simp only [h, h0, h1, Bool.not_true, Bool.false_eq_true, if_false, Bool.or_false, if_true]

/-- DISC empties the queue before the engine goes on. -/
theorem State.writeMestat_discard {s : State} {g v : Nat} (h : (s.core g).engine.mestat.getLsbD 0 = true)
    (h1 : v.testBit 1 = true) :
    s.writeMestat g v = (s.discardAll g).setCore g { (s.discardAll g).core g with
      engine := { ((s.discardAll g).core g).engine with mestat := ((s.discardAll g).core g).engine.mestat &&& ~~~1 } } := by
  unfold State.writeMestat
  simp only [h, h1, Bool.not_true, Bool.false_eq_true, if_false, Bool.or_true, if_true]

/-- What is discarded is counted in DONE (R243). -/
theorem State.discardAll_engine (s : State) (g : Nat) :
    ((s.discardAll g).core g).engine.queue = [] ∧
      ((s.discardAll g).core g).engine.done = ((s.discardAll g).core g).engine.issued := by
  unfold State.discardAll
  simp only [State.core_setCore, and_self]

/-- Settles O54: the instructions act lane by lane; what a lane does follows the number's level, and each level's CSRs read and
take what their equations say. -/
theorem csrAccess : Obligations.CsrAccess := by
  intro f s s1 c
  refine ⟨perLane_lanes, perLane_lanes, perLane_lanes, perLane_lanes, perLane_lanes, perLane_lanes, perLane_lanes,
    ?lane, ?levels, ?mestat⟩
  case lane =>
    intro r r1 r2 l v k x e
    refine ⟨r.csrrLane_none c l, r.csrwLane_none c l, fun hk hs => ?_, fun hk hs hx => ?_⟩
    · exact ⟨(State.csrrLane_checked hk hs).1 v, (State.csrrLane_checked hk hs).2 e⟩
    · exact ⟨(State.csrwLane_checked hk hs hx).1 r2, (State.csrwLane_checked hk hs hx).2 e⟩
  case levels =>
    intro r l n v x t hx ht
    have hth := State.thread?_eq hx ht
    refine ⟨State.csrRead_thread hx ht, State.csrRead_waveByCaller hx, State.csrRead_wave hx, State.csrRead_core hx,
      State.csrRead_clusterByWave hx, State.csrRead_cluster hx, ?_, ?_, rfl, ⟨rfl, rfl, rfl, rfl, rfl⟩,
      ⟨rfl, fun i _ => x.csr_feedp i⟩, fun g => ⟨rfl, rfl, rfl, rfl⟩,
      fun k i hi => ⟨r.clusterCsr_mestat k hi, r.clusterCsr_counts k hi⟩, ?_, State.csrWrite_readOnly,
      State.csrWrite_waveByCaller, State.csrWrite_clusterByWave, ?_, ?_,
      State.csrWrite_thread hth (by decide) rfl, ?_, ?_, ?_, State.csrWrite_thread hth (by decide) rfl, ?_, ?_⟩
    · intro h hsys; rw [State.csrRead_device hx h, hsys]; rfl
    · intro h hsys; rw [State.csrRead_device hx h, hsys]; rfl
    · refine fun die => ⟨rfl, fun i hi => r.deviceCsr_l2part die hi, rfl, fun i p hp hi => ?_, ?_⟩
      · rw [r.deviceCsr_presq die hi, State.presq_eq hp]
      · rw [← PwrSt.code_eq]; rfl
    · intro h1 h2 hw; rw [State.csrWrite_cluster h1 (by omega) hw, if_pos h2]
    · intro h1 h2 hw; rw [State.csrWrite_cluster (by omega) h2 hw, if_neg (by omega)]
    · rintro (rfl | rfl) <;> exact State.csrWrite_thread hth (by decide) rfl
    · intro i hi hw
      simp only [State.csrWrite_wave (n := 0x110 + i) (by omega) (by omega) hw, Wave.putCsr_feedp]
    · exact fun hw => State.csrWrite_wave (by decide) (by decide) hw
    · intro h
      exact ⟨State.csrWrite_threadRefused hth (by decide) (t.putSpill_held v h).1,
        State.csrWrite_threadRefused hth (by decide) (t.putSpill_held v h).2⟩
    · intro h
      refine ⟨fun hb => ?_, fun hb => ?_, fun hb => ?_, fun hb => ?_⟩
      · exact State.csrWrite_thread hth (by decide) ((t.putSpillb_empty v h).trans (if_neg (Nat.not_lt.mpr hb)))
      · exact State.csrWrite_threadRefused hth (by decide) ((t.putSpillb_empty v h).trans (if_pos hb))
      · exact State.csrWrite_thread hth (by decide) ((t.putSpilll_empty v h).trans (if_neg (Nat.not_lt.mpr hb)))
      · exact State.csrWrite_threadRefused hth (by decide) ((t.putSpilll_empty v h).trans (if_pos hb))
  case mestat =>
    intro r g v
    refine ⟨fun h => State.writeMestat_running h v, fun h hv => ?_, fun h hv => ?_⟩
    · exact State.writeMestat_resume h (by simp [Nat.testBit]; omega) (by simp [Nat.testBit]; omega)
    · obtain ⟨hq, hd⟩ := r.discardAll_engine g
      rw [State.writeMestat_discard h hv, State.core_setCore]
      exact ⟨hq, by simp, hd⟩

end Sys2Proof.Machine
end

section
/-! PROOFS. Branches, calls and returns (R135 to R137): where each lane goes, and what it pushes and pops. -/

namespace Sys2Proof.Machine

open Sys2Proof

/-! ### The group of an instruction that sends its lanes to targets -/

/-- The context of an instruction that begins holds the frame that the instruction's description gives. -/
theorem frame_of_begins {i : Instr} {s s1 : State} {c : Ctx} {f : Frame} (h : Begins i s c s1)
    (hf : ∀ u e, descOf u i = some e → e.f = f) : c.e.f = f := by
  obtain ⟨e, he, hce, -, -⟩ := State.startOf_go h
  exact hce ▸ hf _ e he

theorem branching_go {i : Instr} {s s1 : State} {c : Ctx} {g : Ctx → State → Nat → Lane} (h : Begins i s c s1) :
    branching i s g = .next (((s1.eachLane c (g c)).noteBackward c).settleTurn c) := run_go h

theorem Ctx.dispTarget_eq {c : Ctx} {f : Frame} (h : c.e.f = f) (l : Nat) :
    c.dispTarget l = c.pc + BitVec.ofInt 64 (4 * (if f.isS then intOf (c.a l) .s32 else f.x.toInt)) := by
  subst h; rfl

theorem Ctx.regTarget_eq {c : Ctx} {f : Frame} (h : c.e.f = f) (l : Nat) :
    c.regTarget l = BitVec.ofNat 64 (c.a l 2) + BitVec.ofInt 64 (if f.isS then 0 else f.x.toInt) := by
  subst h; rfl

/-! ### One lane -/

theorem targetBad_of_aligned {tgt : DWord} (h : tgt.toNat % 4 = 0) : targetBad tgt = none := if_pos h

theorem targetBad_of_misaligned {tgt : DWord} (h : tgt.toNat % 4 ≠ 0) :
    targetBad tgt = some { code := 2, sub := 8, addr := some tgt.toNat } := if_neg h

theorem State.branchLane_eq (s : State) (c : Ctx) (l : Nat) (tgt : DWord) :
    s.branchLane c l tgt =
      if tgt.toNat % 4 = 0 then .ok (s.updThread c.w l fun t => { t with pc := tgt }) []
      else .fault s { code := 2, sub := 8, addr := some tgt.toNat } := by
  unfold State.branchLane
  split_ifs with h
  · rw [targetBad_of_aligned h]; rfl
  · rw [targetBad_of_misaligned h]

/-- Settles O24: the lanes of the group go where their own targets say, one after another, and a target that is not
aligned faults instead. -/
theorem branches : Obligations.Branches := by
  intro f s s1 c near far
  refine ⟨fun h => ?_, fun h => ?_, fun r l tgt => r.branchLane_eq c l tgt⟩
  · have hf := frame_of_begins (f := f) h fun u e he => by cases he; rfl
    have hnear : c.dispTarget = near := funext fun l => Ctx.dispTarget_eq hf l
    rw [← hnear]
    exact branching_go h
  · have hf := frame_of_begins (f := f) h fun u e he => by cases he; rfl
    have hfar : c.regTarget = far := funext fun l => Ctx.regTarget_eq hf l
    rw [← hfar]
    exact branching_go h


/-! ### The pending accesses of a thread that has none but one -/

theorem mem_insertAcc {e x : Nat × Acc} {l : List (Nat × Acc)} : x ∈ insertAcc e l ↔ x = e ∨ x ∈ l := by
  induction l with
  | nil => simp [insertAcc]
  | cons f l ih =>
    unfold insertAcc
    split
    · simp
    · simp only [List.mem_cons, ih]
      tauto

theorem mem_insertPend {e x : Pend} {l : List Pend} : x ∈ insertPend e l ↔ x = e ∨ x ∈ l := by
  induction l with
  | nil => simp [insertPend]
  | cons f l ih =>
    unfold insertPend
    split
    · simp only [List.mem_cons, ih]
      tauto
    · simp

theorem mem_foldl_insertAcc {x : Nat × Acc} (es l : List (Nat × Acc)) :
    x ∈ es.foldl (fun l e => insertAcc e l) l ↔ x ∈ es ∨ x ∈ l := by
  induction es generalizing l with
  | nil => simp
  | cons e es ih => simp only [List.foldl_cons, ih, mem_insertAcc, List.mem_cons]; tauto

theorem mem_foldl_insertPend {x : Pend} (es l : List Pend) :
    x ∈ es.foldl (fun l e => insertPend e l) l ↔ x ∈ es ∨ x ∈ l := by
  induction es generalizing l with
  | nil => simp
  | cons e es ih => simp only [List.foldl_cons, ih, mem_insertPend, List.mem_cons]; tauto

/-- The pending accesses of a wave are those of its threads. -/
theorem Wave.mem_pending {x : Wave} {l : Nat} {a : Acc} :
    (l, a) ∈ x.pending ↔ ∃ t, x.threads[l]? = some t ∧ a ∈ t.accs := by
  unfold Wave.pending
  rw [mem_foldl_insertAcc]
  simp only [List.not_mem_nil, or_false, List.mem_flatten, List.mem_mapIdx]
  constructor
  · rintro ⟨_, ⟨i, hi, rfl⟩, h⟩
    obtain ⟨b, hb, heq⟩ := List.mem_map.mp h
    cases heq
    exact ⟨_, List.getElem?_eq_getElem hi, hb⟩
  · rintro ⟨t, ht, ha⟩
    obtain ⟨hi, rfl⟩ := List.getElem?_eq_some_iff.mp ht
    exact ⟨_, ⟨l, hi, rfl⟩, List.mem_map.mpr ⟨a, ha, rfl⟩⟩

theorem foldl_pendingWith_mem {p : Pend} (ws : List (Nat × Wave)) (l : List Pend)
    (h : p ∈ ws.foldl (fun l e => (e.2.pending.map fun q => (⟨e.1, q.1, q.2⟩ : Pend)).foldl (fun l p => insertPend p l) l) l) :
    p ∈ l ∨ ∃ e ∈ ws, e.1 = p.w := by
  induction ws generalizing l with
  | nil => exact .inl h
  | cons e ws ih =>
    rcases ih _ h with h | ⟨f, hf, hw⟩
    · rcases (mem_foldl_insertPend _ _).mp h with h | h
      · obtain ⟨q, -, rfl⟩ := List.mem_map.mp h
        exact .inr ⟨e, List.mem_cons_self, rfl⟩
      · exact .inl h
    · exact .inr ⟨f, List.mem_cons_of_mem _ hf, hw⟩

theorem foldl_pendingWith_keeps {p : Pend} (ws : List (Nat × Wave)) (l : List Pend) (h : p ∈ l) :
    p ∈ ws.foldl (fun l e => (e.2.pending.map fun q => (⟨e.1, q.1, q.2⟩ : Pend)).foldl (fun l p => insertPend p l) l) l := by
  induction ws generalizing l with
  | nil => exact h
  | cons e ws ih => exact ih _ ((mem_foldl_insertPend _ _).mpr (.inr h))

/-- Of its own wave, `pendingWith` lists the pending accesses and nothing else. -/
theorem State.mem_pendingWith {s : State} {w l : Nat} {x : Wave} {a : Acc} :
    (⟨w, l, a⟩ : Pend) ∈ s.pendingWith w x ↔ ∃ t, x.threads[l]? = some t ∧ a ∈ t.accs := by
  rw [← Wave.mem_pending]
  unfold State.pendingWith
  constructor
  · intro h
    rcases foldl_pendingWith_mem _ _ h with h | ⟨e, he, hw⟩
    · obtain ⟨q, hq, heq⟩ := List.mem_map.mp h
      cases heq; exact hq
    · simp only [List.mem_filter, Bool.and_eq_true] at he
      exact absurd hw (by simpa using he.2.1.1)
  · intro h
    exact foldl_pendingWith_keeps _ _ (List.mem_map.mpr ⟨(l, a), h, rfl⟩)

theorem State.needed_lone {s : State} {f : Pend} {l : List Pend} (h : ∀ e ∈ l, s.before e f = false) :
    s.needed l [f] = [f] := by
  induction l with
  | nil => rfl
  | cons e l ih =>
    unfold State.needed
    simp only [List.any_cons, h e List.mem_cons_self, List.any_nil, Bool.or_self, Bool.false_eq_true, if_false]
    exact ih fun e he => h e (List.mem_cons_of_mem _ he)

/-- An access that no other must be performed before: a plain access that goes over no link and writes nothing, the only one of its
thread; no element of another lane comes before it, and no frame it goes to has moved. -/
structure Lone (s : State) (w lane : Nat) (a : Acc) : Prop where
  only : ∃ t, s.thread? w lane = some t ∧ t.accs = [a]
  links : a.links = []
  reads : a.kind.writes = false
  ord : a.ord = .plain
  feed : a.feed = none ∨
    ∀ x n t, s.waves.find w = some x → n ≠ lane → x.threads[n]? = some t → t.accs = []
  still : s.homeFwd = [] ∨ a.parts = []

section

variable {s : State} {w lane : Nat} {a : Acc} (h : Lone s w lane a)
include h

theorem Lone.mem_pendingWith {x : Wave} (hx : s.waves.find w = some x) {b : Acc} :
    (⟨w, lane, b⟩ : Pend) ∈ s.pendingWith w x ↔ b = a := by
  obtain ⟨t, ht, ha⟩ := h.only
  unfold State.thread? at ht
  rw [hx] at ht
  rw [State.mem_pendingWith]
  constructor
  · rintro ⟨u, hu, hb⟩
    cases Option.some.inj (ht.symm.trans hu)
    simpa [ha] using hb
  · rintro rfl
    exact ⟨t, ht, by simp [ha]⟩

theorem Lone.pushedBefore {x : Wave} (hx : s.waves.find w = some x) {n : Nat} {b : Acc}
    (hb : (⟨w, n, b⟩ : Pend) ∈ s.pendingWith w x) : pushedBefore (n, b) (lane, a) = false := by
  unfold Sys2Proof.Machine.pushedBefore
  rcases h.feed with hf | hf
  · rw [hf]
    cases b.feed <;> simp
  · by_cases hn : n = lane
    · subst hn
      rw [(h.mem_pendingWith hx).mp hb]
      simp
    · obtain ⟨t, ht, hbt⟩ := State.mem_pendingWith.mp hb
      rw [hf x n t hx hn ht] at hbt
      simp at hbt

theorem Lone.before {x : Wave} (hx : s.waves.find w = some x) {e : Pend} (he : e ∈ s.pendingWith w x) :
    s.before e ⟨w, lane, a⟩ = false := by
  have hl : e.acc.sameLink a = false := by simp [Acc.sameLink, h.links]
  have hf : s.forwardedFirst e ⟨w, lane, a⟩ = false := by
    rcases h.still with hs | hs <;> simp [State.forwardedFirst, hs]
  have hr : a.isRelease = false := by simp [Acc.isRelease, h.ord, Ord.releases]
  unfold State.before
  split
  · simp [hl, hf]
  · rename_i hw
    obtain ⟨v, n, b⟩ := e
    obtain rfl : v = w := not_not.mp hw
    have hp := h.pushedBefore hx he
    split
    · rename_i hn
      obtain rfl : n = lane := hn
      rw [(h.mem_pendingWith hx).mp he] at hp ⊢
      simp [hp, (h.mem_pendingWith hx).mp he ▸ hf]
    · simp [hp, hf, hr, hl, h.reads]

theorem Lone.chain : s.chain w lane a.id = [⟨w, lane, a⟩] := by
  obtain ⟨x, hx⟩ : ∃ x, s.waves.find w = some x := by
    obtain ⟨t, ht, -⟩ := h.only
    unfold State.thread? at ht
    cases hx : s.waves.find w with
    | none => simp [hx] at ht
    | some x => exact ⟨x, rfl⟩
  unfold State.chain
  simp only [hx]
  have hfind : (s.pendingWith w x).find? (fun e => e.w == w && e.lane == lane && e.acc.id == a.id) = some ⟨w, lane, a⟩ := by
    cases hc : (s.pendingWith w x).find? fun e => e.w == w && e.lane == lane && e.acc.id == a.id with
    | none => simpa using List.find?_eq_none.mp hc _ ((h.mem_pendingWith hx).mpr rfl)
    | some e =>
      have hm := List.mem_of_find?_eq_some hc
      have hp := List.find?_some hc
      obtain ⟨w', l', b⟩ := e
      simp only [Bool.and_eq_true, beq_iff_eq] at hp
      obtain ⟨⟨rfl, rfl⟩, -⟩ := hp
      rw [(h.mem_pendingWith hx).mp hm]
  rw [hfind]
  refine State.needed_lone fun e he => h.before hx ?_
  simp only [List.mem_reverse, List.mem_filter] at he
  exact he.1

end


/-! ### A load of one part of class H performed at once -/

theorem Wave.updThread_updThread (x : Wave) (l : Nat) (g h : Thread → Thread) :
    (x.updThread l g).updThread l h = x.updThread l (h ∘ g) := by
  simp [Wave.updThread, List.modify_modify_eq]

/-- A change that leaves the thread of the lane as it is leaves the wave as it is. -/
theorem Wave.updThread_same {x : Wave} {l : Nat} {g : Thread → Thread} (h : ∀ t, x.threads[l]? = some t → g t = t) :
    x.updThread l g = x := by
  unfold Wave.updThread
  have : x.threads.modify l g = x.threads := by
    apply List.ext_getElem?
    intro i
    rw [List.getElem?_modify]
    split
    · rename_i hi
      subst hi
      cases ht : x.threads[l]? with
      | none => rfl
      | some t => simp [h t ht]
    · simp
  rw [this]

/-- Two changes that do the same to the thread of the lane make the same state. -/
theorem State.updThread_congr {s : State} {w l : Nat} {g h : Thread → Thread}
    (heq : ∀ t, s.thread? w l = some t → g t = h t) : s.updThread w l g = s.updThread w l h := by
  unfold State.updThread NMap.upd
  cases hx : s.waves.find w with
  | none => rfl
  | some x =>
    have : x.updThread l g = x.updThread l h := by
      unfold Wave.updThread
      congr 1
      apply List.ext_getElem?
      intro i
      rw [List.getElem?_modify, List.getElem?_modify]
      split
      · rename_i hi
        subst hi
        cases ht : x.threads[l]? with
        | none => rfl
        | some t => simp [heq t (State.thread?_eq hx ht)]
      · rfl
    simp only [this]

/-- An access outside every window meets the errors that one without a tag meets. -/
theorem State.poisonedFor_noWindow {s : State} {key n : Nat} (h : s.noWindow key n) (hn : 0 < n) (tag : Option (BitVec 5)) :
    s.poisonedFor tag key n = s.poisoned key n := by
  unfold State.poisoned State.poisonedFor
  rw [Bool.eq_iff_iff]
  simp only [List.any_eq_true]
  refine exists_congr fun g => and_congr_right fun hg => ?_
  have hw : s.windowOf (32 * g) = none := by
    obtain ⟨i, hi, rfl⟩ := List.mem_map.mp hg
    rw [List.mem_range] at hi
    by_cases h0 : i = 0
    · rw [← h key (Nat.le_refl _) (by omega)]
      exact s.windowOf_frame (by omega)
    · exact h _ (by omega) (by omega)
  unfold State.grainPoisoned
  rw [State.versionTag_none hw, State.versionTag_none hw]

/-- A plain load of one part of class H that orders nothing, alone in its thread, is performed at once: its value stands in it, and
nothing else of the waves and of memory changes. -/
theorem Lone.performUpTo {s : State} {w lane : Nat} {a : Acc} {p : Part} {wid : Wid} (h : Lone s w lane a)
    (ha : HomeAccess s a p) (hk : a.kind = .load wid false) (hg : a.got = []) (he : a.early = none) (hf : a.feed = none)
    (hs : (s.cluster (clusterOfWave w)).svc.contains ⟨w, lane, a.id⟩ = false) :
    ∃ t, s.sameButL2 t ∧ s.performUpTo w lane a.id = some (t.updThread w lane fun u =>
      (u.setAcc a.id (Acc.performed (some (loadWords wid (s.num p.key p.size))))).markDue a) := by
  obtain ⟨t, hp, ht⟩ := ha.perform_load w lane hk hg he
  refine ⟨t, ht, ?_⟩
  obtain ⟨u, hu, hacc⟩ := h.only
  have hof : s.accOf w lane a.id = some a := by simp [State.accOf, hu, hacc]
  have hraw : s.performRaw w lane a = some (t.updThread w lane fun u =>
      (u.setAcc a.id (Acc.performed (some (loadWords wid (s.num p.key p.size))))).markDue a) := by
    have hq : a.isAcquire = false := by simp [Acc.isAcquire, h.ord, Ord.acquires]
    unfold State.performRaw
    simp only [hk, hu, hq, hp, Bool.false_and, Bool.false_eq_true, if_false, Option.map_some, Option.isSome_none,
      State.feedWake, hf, AccKind.writes, AccKind.isRmw]
  unfold State.performUpTo State.chainIds
  simp only [h.chain, List.map_cons, List.map_nil, List.foldl_cons, List.foldl_nil, Option.bind_some, State.performElem, hs,
    Bool.false_eq_true, if_false, State.performList, hof, State.performOne, h.ord, if_true, hraw]

theorem ofWords_wordsOf_two (v : Nat) : BitVec.ofNat 64 (ofWords (wordsOf 2 v)) = BitVec.ofNat 64 v := by
  apply BitVec.eq_of_toNat_eq
  simp only [wordsOf, ofWords, List.range_succ, List.range_zero, List.nil_append, List.map_cons, List.map_nil,
    List.cons_append, BitVec.toNat_ofNat]
  omega

/-- The access with which a thread reads at once. -/
def State.accNow (s : State) (c : Ctx) (q : Req) (parts : List Part) : Acc :=
  { c.acc { q with words := some 1 } .glob parts (s.accTag c.x.rgn q.mode) with dst := some ⟨.zeroLit, q.size / 4, true⟩ }

/-- The same access, once it is performed with the value `v`. -/
def Acc.answered (a : Acc) (v : List Word) : Acc :=
  { a with kind := .calc, val := some v, parts := [], ord := .plain, early := none }

/-- A read of one part of class H that a thread with nothing pending waits for answers the bytes as they stand in memory, and leaves
memory and the waves as they are. -/
theorem State.readNow_home {s : State} {c : Ctx} {lane : Nat} {q : Req} {p : Part} {u : Thread} {wid : Wid}
    (hk : q.kind = .load wid false) (hord : q.ord = .plain) (hcls : p.cls = .h) (hsize : 0 < p.size) (hloc : locOf p.key = 0)
    (hpois : s.poisoned p.key p.size = false) (hwin : s.noWindow p.key p.size) (hfwd : s.homeFwd = [])
    (hu : s.thread? c.w lane = some u) (hacc : u.accs = [])
    (hsvc : (s.cluster (clusterOfWave c.w)).svc.contains ⟨c.w, lane, c.id⟩ = false) :
    ∃ t, s.readNow c lane q [p] = some (t, loadWords wid (s.num p.key p.size)) ∧ t.mem = s.mem ∧
      ∀ v, t.waves.find v = s.waves.find v := by
  let a := s.accNow c q [p]
  let b := a.answered (loadWords wid (s.num p.key p.size))
  let s1 := s.updThread c.w lane fun t => { t with accs := t.accs ++ [a] }
  have hth : s1.thread? c.w lane = some { u with accs := [a] } := by
    simp [s1, State.thread?_updThread, hu, hacc]
  have hlone : Lone s1 c.w lane a :=
    { only := ⟨_, hth, rfl⟩
      links := by simp [Acc.links, a, State.accNow, Ctx.acc, hloc]
      reads := by simp [a, State.accNow, Ctx.acc, hk, AccKind.writes, AccKind.isRmw]
      ord := hord
      feed := .inl rfl
      still := .inl hfwd }
  have hhome : HomeAccess s1 a p :=
    { space := rfl
      parts := rfl
      cls := hcls
      ord := .inl hord
      size := hsize
      up := by simp [State.cutOff, linkOf, hloc]
      sound := (State.poisonedFor_noWindow (s := s1) hwin hsize _).trans hpois
      base := hwin }
  have hnum : s1.num p.key p.size = s.num p.key p.size := rfl
  obtain ⟨t, ht, hperf⟩ := hlone.performUpTo hhome hk rfl rfl rfl hsvc
  obtain ⟨hmem, hwaves⟩ : t.mem = s1.mem ∧ t.waves = s1.waves := ⟨ht.mem, ht.waves⟩
  have htt : t.thread? c.w lane = some { u with accs := [a] } := by
    unfold State.thread? at hth ⊢
    rw [hwaves]; exact hth
  have hperf' : ∀ u' : Thread, t.thread? c.w lane = some u' →
      (u'.setAcc a.id (Acc.performed (some (loadWords wid (s.num p.key p.size))))).markDue a = { u with accs := [b] } := by
    intro u' hu'
    cases hu'.symm.trans htt
    simp [Thread.setAcc, Acc.performed, Thread.markDue, a, b, State.accNow, Acc.answered]
  refine ⟨(t.updThread c.w lane fun _ => { u with accs := [b] }).updThread c.w lane fun t => t.setAcc c.id fun _ => none,
    ?_, hmem, fun v => ?_⟩
  · have hof : (t.updThread c.w lane fun _ => { u with accs := [b] }).accOf c.w lane c.id = some b := by
      simp [State.accOf, State.thread?_updThread, htt, a, b, State.accNow, Acc.answered, Ctx.acc]
    unfold State.readNow
    change (s1.performUpTo c.w lane a.id).map _ = _
    rw [hperf, hnum, State.updThread_congr hperf', Option.map_some]
    simp only [hof]
    rfl
  · by_cases hv : v = c.w
    · subst hv
      have hux : ∀ x, s.waves.find c.w = some x → ∀ t', x.threads[lane]? = some t' → t' = u := by
        intro x hx t' ht'
        exact Option.some.inj ((State.thread?_eq hx ht').symm.trans hu)
      simp only [State.updThread_find, hwaves, s1, Option.map_map]
      cases hx : s.waves.find c.w with
      | none => rfl
      | some x =>
        simp only [Option.map_some, Function.comp_apply, Wave.updThread_updThread, Option.some.injEq]
        refine Wave.updThread_same fun t' ht' => ?_
        cases hux x hx t' ht'
        cases u
        simp only at hacc
        subst hacc
        simp [Thread.setAcc, b, a, State.accNow, Acc.answered, Ctx.acc]
    · simp only [State.updThread_find_ne _ _ _ hv, hwaves, s1]


/-! ### One lane of a call and of a return -/

section

variable (s : State) (c : Ctx) (l : Nat)

theorem State.issueGlob_ok {q : Req} {s1 : State} {parts : List Part}
    (h : s.reach (c.x.agent c.w) q.need q.cls q.mode q.va q.size = .ok s1 parts) :
    s.issueGlob c l q = .pend s1 (c.acc q .glob parts (s1.accTag c.x.rgn q.mode)) := by
  unfold State.issueGlob; rw [h]

theorem State.issueGlob_fault {q : Req} {s1 : State} {below : List Part} {fl : Flt}
    (h : s.reach (c.x.agent c.w) q.need q.cls q.mode q.va q.size = .fault s1 below fl) :
    s.issueGlob c l q = .fault (s1.partial_ c l q below) fl := by
  unfold State.issueGlob; rw [h]

/-- A return address pushed where the stack has room. -/
theorem State.callLane_room {tgt : DWord} (h : tgt.toNat % 4 = 0) (hlen : (c.thread l).stack.length < 4)
    (hs : (s.thread? c.w l).map Thread.stack = some (c.thread l).stack) :
    s.callLane c l tgt = .ok ((s.updThread c.w l fun t => { t with stack := t.stack ++ [c.npc] }).updThread c.w l fun t =>
      { t with pc := tgt }) [] := by
  have hpush : ∀ t, s.thread? c.w l = some t → t.push c.npc = { t with stack := t.stack ++ [c.npc] } := by
    intro t ht
    rw [ht] at hs
    have : t.stack.length ≠ 4 := by rw [Option.some.inj hs]; omega
    exact if_neg this
  rw [← State.updThread_congr hpush]
  unfold State.callLane
  rw [targetBad_of_aligned h]
  exact if_pos hlen

/-- A full stack whose oldest entry has no room in the spill area. -/
theorem State.callLane_limit {tgt : DWord} (h : tgt.toNat % 4 = 0) (hlen : (c.thread l).stack.length = 4)
    (hp : (c.thread l).spillp = (c.thread l).spilll) :
    s.callLane c l tgt = .fault s { code := 6, sub := 1, addr := some (c.thread l).spillp.toNat } := by
  unfold State.callLane
  simp [targetBad_of_aligned h, hlen, hp]

/-- A full stack whose oldest entry is spilled. -/
theorem State.callLane_spill {tgt : DWord} {s1 : State} {parts : List Part} (h : tgt.toNat % 4 = 0)
    (hlen : (c.thread l).stack.length = 4) (hp : (c.thread l).spillp ≠ (c.thread l).spilll)
    (hs : (s1.thread? c.w l).map Thread.stack = some (c.thread l).stack)
    (hr : s.reach (c.x.agent c.w) .wr clsStore .spill (c.thread l).spillp.toNat 8 = .ok s1 parts) :
    s.callLane c l tgt = .pend
      ((s1.updThread c.w l fun t => { t with stack := t.stack.drop 1 ++ [c.npc], spillp := t.spillp + 8, spl := true }).updThread
        c.w l fun t => { t with pc := tgt })
      ⟨c.id, .store (toLe 8 ((c.thread l).stack.headD 0).toNat), .glob, parts, .plain, .thr, s1.accTag c.x.rgn .spill, none,
        c.e.f.la.toNat, none, c.pc, none, [], [], none, none, 0⟩ := by
  have hpush : ∀ t, s1.thread? c.w l = some t →
      t.push c.npc = { t with stack := t.stack.drop 1 ++ [c.npc], spillp := t.spillp + 8, spl := true } := by
    intro t ht
    rw [ht] at hs
    exact if_pos (by rw [Option.some.inj hs]; exact hlen)
  rw [← State.updThread_congr hpush]
  unfold State.callLane
  rw [targetBad_of_aligned h]
  refine (if_neg (by omega)).trans ((if_neg hp).trans ?_)
  rw [State.issueGlob_ok _ c l hr]
  rfl

/-- A full stack whose oldest entry cannot be stored. -/
theorem State.callLane_fault {tgt : DWord} {s1 : State} {fl : Flt} (h : tgt.toNat % 4 = 0)
    (hlen : (c.thread l).stack.length = 4) (hp : (c.thread l).spillp ≠ (c.thread l).spilll)
    (hr : s.reach (c.x.agent c.w) .wr clsStore .spill (c.thread l).spillp.toNat 8 = .fault s1 [] fl) :
    s.callLane c l tgt = .fault s1 fl := by
  unfold State.callLane
  rw [targetBad_of_aligned h]
  refine (if_neg (by omega)).trans ((if_neg hp).trans ?_)
  rw [State.issueGlob_fault _ c l hr]
  rfl

theorem State.callLane_misaligned {tgt : DWord} (h : tgt.toNat % 4 ≠ 0) :
    s.callLane c l tgt = .fault s { code := 2, sub := 8, addr := some tgt.toNat } := by
  unfold State.callLane
  simp only [targetBad_of_misaligned h]

/-- A return to the newest entry of the stack. -/
theorem State.retLane_pop {ra : DWord} (h : (c.thread l).stack.getLast? = some ra) (ha : ra.toNat % 4 = 0) :
    s.retLane c l = .ok ((s.updThread c.w l fun t => { t with stack := t.stack.dropLast }).updThread c.w l fun t =>
      { t with pc := ra }) [] := by
  unfold State.retLane
  simp only [h, targetBad_of_aligned ha, State.goTo]

theorem State.retLane_misaligned {ra : DWord} (h : (c.thread l).stack.getLast? = some ra) (ha : ra.toNat % 4 ≠ 0) :
    s.retLane c l = .fault s { code := 2, sub := 8, addr := some ra.toNat } := by
  unfold State.retLane
  simp only [h, targetBad_of_misaligned ha]

/-- A return with nothing on the stack and nothing in the spill area. -/
theorem State.retLane_empty (h : (c.thread l).stack = []) (hp : (c.thread l).spillp.toNat ≤ (c.thread l).spillb.toNat) :
    s.retLane c l = .fault s { code := 6, sub := 2 } := by
  unfold State.retLane
  simp [h, hp]

/-- A return whose spilled entry cannot be read. -/
theorem State.retLane_fault {s1 : State} {below : List Part} {fl : Flt} (h : (c.thread l).stack = [])
    (hp : (c.thread l).spillb.toNat < (c.thread l).spillp.toNat)
    (hr : s.reach (c.x.agent c.w) .rd clsAny .spill ((c.thread l).spillp.toNat - 8) 8 = .fault s1 below fl) :
    s.retLane c l = .fault s1 fl := by
  unfold State.retLane
  extract_lets t q
  rw [show t.stack.getLast? = none from List.getLast?_eq_none_iff.mpr h]
  rw [if_neg (Nat.not_le.mpr hp)]
  rw [show s.reach (c.x.agent c.w) .rd clsAny .spill q.va 8 = _ from hr]

/-- The request for the entry below the spill pointer. -/
def Thread.unspill (t : Thread) : Req :=
  { va := t.spillp.toNat - 8, size := 8, kind := .load .b64 false, need := .rd, cls := clsAny, ord := .plain, scope := .thr
    mode := .spill, words := some 2 }

/-- A return to an entry that is read from the spill area. -/
theorem State.retLane_spilled {s1 s2 : State} {parts : List Part} {ws : List Word} (h : (c.thread l).stack = [])
    (hp : (c.thread l).spillb.toNat < (c.thread l).spillp.toNat)
    (hr : s.reach (c.x.agent c.w) .rd clsAny .spill ((c.thread l).spillp.toNat - 8) 8 = .ok s1 parts)
    (hn : s1.readNow c l (c.thread l).unspill parts = some (s2, ws)) :
    s.retLane c l = if (BitVec.ofNat 64 (ofWords ws)).toNat % 4 = 0
      then .ok ((s2.updThread c.w l fun t => { t with spillp := t.spillp - 8 }).updThread c.w l fun t =>
        { t with pc := BitVec.ofNat 64 (ofWords ws) }) []
      else .fault s2 { code := 2, sub := 8, addr := some (BitVec.ofNat 64 (ofWords ws)).toNat } := by
  unfold State.retLane
  extract_lets t q
  rw [show t.stack.getLast? = none from List.getLast?_eq_none_iff.mpr h]
  rw [if_neg (Nat.not_le.mpr hp)]
  rw [show s.reach (c.x.agent c.w) .rd clsAny .spill q.va 8 = _ from hr]
  dsimp only
  rw [show s1.readNow c l q parts = some (s2, ws) from hn]
  dsimp only
  split_ifs with ha
  · rw [targetBad_of_aligned ha]; rfl
  · rw [targetBad_of_misaligned ha]

end

/-- Settles O25: each lane of a call or a return does what its stack and its spill area allow; the entry that a return reads back is
read as memory holds it. The choices of logs 19 and 53 (no address in the fault of a return with nothing left) are the model's. -/
theorem callsAndReturns : Obligations.CallsAndReturns := by
  intro f s s1 c near far
  refine ⟨fun h => ?_, fun h => ?_, fun h => branching_go h, fun r r1 l => ?_⟩
  · have hf := frame_of_begins (f := f) h fun u e he => by cases he; rfl
    have hnear : c.dispTarget = near := funext fun l => Ctx.dispTarget_eq hf l
    rw [← hnear]
    exact branching_go h
  · have hf := frame_of_begins (f := f) h fun u e he => by cases he; rfl
    have hfar : c.regTarget = far := funext fun l => Ctx.regTarget_eq hf l
    rw [← hfar]
    exact branching_go h
  · intro t goes
    refine ⟨fun _ => r.callLane_misaligned c l, fun _ => r.callLane_room c l, fun _ => r.callLane_limit c l,
      fun _ _ => r.callLane_spill c l, fun _ _ => r.callLane_fault c l, fun _ => r.retLane_misaligned c l,
      fun _ => r.retLane_pop c l, r.retLane_empty c l, fun _ _ => r.retLane_fault c l, ?_⟩
    intro p u hstack hsp hreach hcls hsize hloc hpois hwin hfwd hu hacc hsvc
    obtain ⟨r2, hnow, hmem, hwaves⟩ := State.readNow_home (q := t.unspill) (wid := .b64) rfl rfl hcls (by omega) hloc
      (hsize ▸ hpois) (hsize ▸ hwin) hfwd hu hacc hsvc
    refine ⟨r2, hmem, hwaves, ?_⟩
    intro ra
    have hra : BitVec.ofNat 64 (ofWords (loadWords .b64 (r1.num p.key p.size))) = ra := by
      rw [hsize]; exact ofWords_wordsOf_two _
    rw [r.retLane_spilled c l hstack hsp hreach hnow, hra]

end Sys2Proof.Machine
end

section
/-! PROOFS. What source operands read (R16 to R19, R37, R39, R40, R208, R224), and where results go (R38). -/

namespace Sys2Proof.Machine

open Sys2Proof

/-! ### Source operands -/

theorem regsVal_one (m : NMap Word) (n : Nat) : regsVal m n 1 = (NMap.get 0 m n).toNat := by simp [regsVal]

theorem regsVal_two (m : NMap Word) (n : Nat) :
    regsVal m n 2 = (NMap.get 0 m n).toNat + 2 ^ 32 * (NMap.get 0 m (n + 1)).toNat := by simp [regsVal]

section

variable (c : Ctx) (l : Nat)

theorem Ctx.src_v_wave (h : c.u = .w) (n : BitVec 10) (k : Nat) :
    c.src l (.v n) k = regsVal (c.thread l).v n.toNat k := by
  unfold Ctx.src; rw [h]; rfl

theorem Ctx.src_v_caller (h : c.u = .c) (n : BitVec 10) (k : Nat) :
    c.src l (.v n) k = regsVal (c.thread l).v (2 * n.toNat) k := by
  unfold Ctx.src; rw [h]; rfl

theorem Ctx.src_p (n : BitVec 3) (h : n ≠ 7) :
    c.src l (.p n) 1 = if (c.thread l).preds.getLsbD n.toNat then 1 else 0 := by
  have hp : (c.thread l).pred n = (c.thread l).preds.getLsbD n.toNat := by
    unfold Thread.pred
    rw [beq_false_of_ne h, Bool.false_or]
  change b2n _ = _
  rw [hp]
  rfl

theorem Ctx.src_q {n : BitVec 5} {v : Word}
    (h : c.pops.find? (fun e => e.1 == n.toNat && e.2.1 == l) = some (n.toNat, l, v)) : c.src l (.q n) 1 = v.toNat := by
  change c.popped l n.toNat 1 = _
  unfold Ctx.popped
  rw [h]
  rfl

/-- A wave's core and cluster, as its lanes read them. -/
theorem clusterOfWave_wave {w : Nat} (h : w < callerKey) : clusterOfWave w = w / 512 :=
  if_pos h

/-- What the issue of an instruction makes of a lane's thread: in the path it goes on, and the lanes of the group of an instruction that
reads `$cyclo` latch the high half of the clock (R19). -/
def Ctx.goesOn (t : Thread) : Thread :=
  if l ∈ c.path then
    { t.advance c.npc with
      cychi := if (c.e.operands.any fun o => o.2 == .sr 9) = true ∧ l ∈ c.group then BitVec.ofNat 32 (c.clk / 2 ^ 32) else t.cychi }
  else t

theorem Ctx.issued_thread (x : Wave) : (c.issued x).threads[l]? = (x.threads[l]?).map (c.goesOn l) := by
  unfold Ctx.issued Ctx.goesOn
  rw [List.getElem?_mapIdx]
  refine congrArg (Option.map · _) (funext fun t => ?_)
  simp only [List.contains_iff_mem, Bool.and_eq_true]
  split_ifs <;> rfl

theorem Ctx.goesOn_cychi (t : Thread) : (c.goesOn l t).cychi =
    if l ∈ c.path ∧ l ∈ c.group ∧ (c.e.operands.any fun o => o.2 == .sr 9) = true
    then BitVec.ofNat 32 (c.clk / 2 ^ 32) else t.cychi := by
  unfold Ctx.goesOn
  by_cases hp : l ∈ c.path
  · simp only [hp, if_true, true_and, and_comm]
  · simp only [hp, if_false, false_and]

end

theorem State.ctxOf_fields {s : State} {w : Nat} {e : Desc} {c : Ctx} (h : s.ctxOf w e = some c) :
    c.clk = s.clkOf (fetchCore w) ∧ c.tag = s.tagOf c.x.rgn ∧ ∀ y, s.wgs.find c.x.wg = some y → c.wgi = y.index.toNat := by
  unfold State.ctxOf at h
  split at h
  · cases h
  · split at h
    · cases h
    · dsimp only at h
      split at h
      · cases h
      · cases h
        exact ⟨rfl, rfl, fun y hy => by simp [State.wgIndex, hy]⟩

/-- Settles O11: the classes of a wave, those of the Caller, and those of both; what the context of a group holds is what its issue
finds. -/
theorem sourceOperands : Obligations.SourceOperands := by
  refine ⟨fun c l hu => ?wave, fun c l hu => ?caller, fun c l => ?both, fun s w e c h => State.ctxOf_fields h⟩
  case wave =>
    refine ⟨fun n => ?_, fun n => ?_, fun n k => rfl, ?_, ?_, ?_, ?_, fun hw => ?_, ?_⟩
    · rw [c.src_v_wave l hu, regsVal_one]; rfl
    · rw [c.src_v_wave l hu, regsVal_two]; rfl
    case refine_7 => exact congrArg (· % 24) (clusterOfWave_wave hw)
    all_goals simp [Ctx.src, Ctx.special, hu]
  case caller =>
    refine ⟨fun n => ?_, fun n => ?_, ?_, ?_, ?_, ?_, ?_⟩
    · rw [c.src_v_caller l hu, regsVal_one]; rfl
    · rw [c.src_v_caller l hu, regsVal_two]; rfl
    all_goals simp [Ctx.src, Ctx.special, hu]
  case both =>
    refine ⟨fun n k => rfl, fun n => regsVal_one _ _, fun n => regsVal_two _ _, fun n v h => c.src_q l h,
      fun n h => c.src_p l n h, rfl, rfl, rfl, rfl, ?_, ?_, rfl, rfl, ?_, ?_, ?_⟩
    · intro g hg
      simp [Ctx.src, Ctx.special, hg, tagFacet, tagSet]
    · intro hg
      simp [Ctx.src, Ctx.special, hg]
    · intro e he
      simp [Ctx.src, Ctx.special, he]
    · intro he
      simp [Ctx.src, Ctx.special, he]
    · intro x t ht
      rw [c.issued_thread l, ht, Option.map_some, Option.map_some, c.goesOn_cychi]
      exact apply_ite some _ _ _


/-! ### Destinations -/

@[simp] theorem length_wordsOf (n v : Nat) : (wordsOf n v).length = n := by simp [wordsOf]

theorem wordsOf_getD {n k : Nat} (h : k < n) (v : Nat) : (wordsOf n v).getD k 0 = BitVec.ofNat 32 (v / 2 ^ (32 * k)) := by
  simp [wordsOf, List.getD, h]

theorem wordsOf_headD {n : Nat} (h : 0 < n) (v : Nat) : (wordsOf n v).headD 0 = BitVec.ofNat 32 v := by
  obtain ⟨m, rfl⟩ := Nat.exists_eq_succ_of_ne_zero (by omega : n ≠ 0)
  simp [wordsOf, List.range_succ_eq_map]

/-- The value of each lane stands in the group's results. -/
theorem Ctx.results_find (c : Ctx) (words : Nat) (v : Nat → Nat) (l : Nat) :
    (c.results words v).find? (fun e => e.1 == l) =
      if l ∈ c.group then some (l, { d := wordsOf words (v l) }) else none := by
  unfold Ctx.results
  rw [List.find?_map]
  have hf : ((fun e : Nat × Out => e.1 == l) ∘ fun n => (n, ({ d := wordsOf words (v n) } : Out))) = fun n => n == l := rfl
  rw [hf]
  cases hc : c.group.find? fun n => n == l with
  | none => rw [if_neg fun h => List.find?_eq_none.mp hc l h (beq_self_eq_true l)]; rfl
  | some n =>
    have hn : n = l := beq_iff_eq.mp (List.find?_some (p := fun n => n == l) hc)
    rw [hn] at hc
    rw [hn, if_pos (List.mem_of_find?_eq_some hc)]
    rfl

section

variable (x : Wave) (c : Ctx) (words : Nat) (v : Nat → Nat)

/-- Each lane that has a result takes it. -/
theorem Wave.takeAll_threads (u : Unit2) (o : Operand) (outs : List (Nat × Out)) : (x.takeAll u o outs).threads =
    x.threads.mapIdx fun l t => (outs.find? fun e => e.1 == l).elim t fun e => t.take u o e.2 := by
  have hput : (fun (l : Nat) (t : Thread) => (outs.find? fun e => e.1 == l).elim t fun e => t.take u o e.2) = fun l t =>
      match outs.find? fun e => e.1 == l with
      | some e => t.take u o e.2
      | none => t := by
    funext l t
    cases outs.find? fun e => e.1 == l <;> rfl
  rw [hput]
  unfold Wave.takeAll
  split <;> rfl

/-- Each lane of the group takes its own value. -/
theorem Wave.takeAll_thread (l : Nat) :
    (x.takeAll c.u c.e.f.d (c.results words v)).threads[l]? = (x.threads[l]?).map fun t =>
      if l ∈ c.group then t.putDst c.u c.e.f.d (wordsOf words (v l)) else t := by
  rw [Wave.takeAll_threads, List.getElem?_mapIdx, c.results_find]
  refine congrArg (Option.map · _) (funext fun t => ?_)
  split_ifs <;> rfl

/-- The results of a group that has a lane begin with those of its lowest lane. -/
theorem Ctx.results_eq_cons (h : c.group ≠ []) :
    ∃ rest, c.results words v = (c.lead, { d := wordsOf words (v c.lead) }) :: rest := by
  unfold Ctx.results Ctx.lead
  cases hg : c.group with
  | nil => exact absurd hg h
  | cons l ls => exact ⟨_, rfl⟩

theorem Wave.takeAll_s {n : BitVec 7} (h : c.e.f.d = .s n) (hg : c.group ≠ []) :
    (x.takeAll c.u c.e.f.d (c.results words v)).s = putWords x.s n.toNat (wordsOf words (v c.lead)) ∧
      (x.takeAll c.u c.e.f.d (c.results words v)).k = x.k := by
  obtain ⟨rest, hr⟩ := c.results_eq_cons words v hg
  rw [hr, h]
  exact ⟨rfl, rfl⟩

theorem Wave.takeAll_k {n : BitVec 4} (h : c.e.f.d = .k n) (hg : c.group ≠ []) :
    (x.takeAll c.u c.e.f.d (c.results words v)).s = x.s ∧
      (x.takeAll c.u c.e.f.d (c.results words v)).k = NMap.put 0 x.k n.toNat ((wordsOf words (v c.lead)).headD 0) := by
  obtain ⟨rest, hr⟩ := c.results_eq_cons words v hg
  rw [hr, h]
  exact ⟨rfl, rfl⟩

/-- Other destinations leave the wave's registers alone. -/
theorem Wave.takeAll_other (hs : ∀ n, c.e.f.d ≠ .s n) (hk : ∀ n, c.e.f.d ≠ .k n) :
    (x.takeAll c.u c.e.f.d (c.results words v)).s = x.s ∧ (x.takeAll c.u c.e.f.d (c.results words v)).k = x.k := by
  unfold Wave.takeAll
  split
  · rename_i h _; exact absurd h (hs _)
  · rename_i h _; exact absurd h (hk _)
  · exact ⟨rfl, rfl⟩

/-- Of a wave the threads and the registers change alone. -/
theorem Wave.takeAll_eq (u : Unit2) (o : Operand) (outs : List (Nat × Out)) :
    x.takeAll u o outs = { x with
      threads := (x.takeAll u o outs).threads, s := (x.takeAll u o outs).s, k := (x.takeAll u o outs).k } ∧
      (x.takeAll u o outs).threads.length = x.threads.length := by
  unfold Wave.takeAll
  split <;> exact ⟨rfl, List.length_mapIdx⟩

end

section

variable (t : Thread) (n : BitVec 10) (words v : Nat)

/-- A v register of a wave takes the words as they are. -/
theorem Thread.reg_putDst_wave (r : Nat) : (t.putDst .w (.v n) (wordsOf words v)).reg r =
    if n.toNat ≤ r ∧ r < n.toNat + words then BitVec.ofNat 32 (v / 2 ^ (32 * (r - n.toNat))) else t.reg r := by
  change NMap.get 0 (putWords t.v n.toNat (wordsOf words v)) r = _
  rw [putWords_get, length_wordsOf]
  split_ifs with h
  · exact wordsOf_getD (by omega) v
  · rfl

/-- A Caller register takes one word zero-extended (R40). -/
theorem Thread.reg_putDst_caller_one (r : Nat) : (t.putDst .c (.v n) (wordsOf 1 v)).reg r =
    if r = 2 * n.toNat then BitVec.ofNat 32 v else if r = 2 * n.toNat + 1 then 0 else t.reg r := by
  have hw : wordsOf 1 v = [BitVec.ofNat 32 v] := by simp [wordsOf]
  change NMap.get 0 (putWords t.v (2 * n.toNat) (Unit2.regWords .c (wordsOf 1 v))) r = _
  rw [hw, putWords_get]
  split_ifs with h h0 h1 h0 h1
  · subst h0; simp [Unit2.regWords]
  · subst h1; simp [Unit2.regWords]
  · simp only [Unit2.regWords, List.length_cons, List.length_nil] at h; omega
  · simp only [Unit2.regWords, List.length_cons, List.length_nil] at h; omega
  · simp only [Unit2.regWords, List.length_cons, List.length_nil] at h; omega
  · rfl

theorem Unit2.regWords_caller {ws : List Word} (h : ws.length ≠ 1) : Unit2.regWords .c ws = ws := by
  unfold Unit2.regWords
  split
  · exact absurd rfl h
  · rfl

/-- Caller registers take more words than one as they are. -/
theorem Thread.reg_putDst_caller (h : words ≠ 1) (r : Nat) : (t.putDst .c (.v n) (wordsOf words v)).reg r =
    if 2 * n.toNat ≤ r ∧ r < 2 * n.toNat + words then BitVec.ofNat 32 (v / 2 ^ (32 * (r - 2 * n.toNat))) else t.reg r := by
  change NMap.get 0 (putWords t.v (2 * n.toNat) (Unit2.regWords .c (wordsOf words v))) r = _
  rw [Unit2.regWords_caller (by simpa using h), putWords_get, length_wordsOf]
  split_ifs with hr
  · exact wordsOf_getD (by omega) v
  · rfl

end

theorem Thread.putPred_v (t : Thread) (n : BitVec 3) (b : Bool) :
    t.putPred n b = { t with preds := (t.putPred n b).preds } := by
  unfold Thread.putPred
  split <;> rfl

/-- A result changes a thread's registers and predicates alone. -/
theorem Thread.putDst_eq (u : Unit2) (o : Operand) (ws : List Word) (t : Thread) :
    t.putDst u o ws = { t with v := (t.putDst u o ws).v, preds := (t.putDst u o ws).preds } := by
  unfold Thread.putDst
  split
  · rfl
  · rw [Thread.putPred_v]
  · rfl

/-- What is neither a v register nor a predicate takes no result of a thread. -/
theorem Thread.putDst_other {o : Operand} (hv : ∀ n, o ≠ .v n) (hp : ∀ n, o ≠ .p n) (u : Unit2) (ws : List Word) (t : Thread) :
    t.putDst u o ws = t := by
  unfold Thread.putDst
  split
  · exact absurd rfl (hv _)
  · exact absurd rfl (hp _)
  · rfl

/-- What one lane of the group takes, by the class of its destination. -/
theorem Thread.putDst_spec (u : Unit2) (o : Operand) (words v : Nat) (t : Thread) :
    let t1 := t.putDst u o (wordsOf words v)
    (∀ n, o = .v n → t1.preds = t.preds ∧
      (u = .w →
        (∀ k, k < words → t1.reg (n.toNat + k) = BitVec.ofNat 32 (v / 2 ^ (32 * k))) ∧
        (∀ r, r < n.toNat ∨ n.toNat + words ≤ r → t1.reg r = t.reg r)) ∧
      (u = .c →
        (words = 1 → t1.reg (2 * n.toNat) = BitVec.ofNat 32 v ∧ t1.reg (2 * n.toNat + 1) = 0) ∧
        (words ≠ 1 → ∀ k, k < words → t1.reg (2 * n.toNat + k) = BitVec.ofNat 32 (v / 2 ^ (32 * k))) ∧
        (∀ r, r < 2 * n.toNat ∨ 2 * n.toNat + max words 2 ≤ r → t1.reg r = t.reg r))) ∧
    (∀ n, o = .p n → 0 < words → t1.v = t.v ∧
      ∀ m : BitVec 3, m ≠ 7 → t1.pred m = if m = n then v.testBit 0 else t.pred m) ∧
    ((∀ n, o ≠ .v n) → (∀ n, o ≠ .p n) → t1 = t) := by
  refine ⟨?_, ?_, fun hv hp => Thread.putDst_other hv hp _ _ _⟩
  · rintro n rfl
    refine ⟨rfl, ?_, ?_⟩
    · rintro rfl
      constructor
      · intro k hk
        rw [Thread.reg_putDst_wave, if_pos (by omega), Nat.add_sub_cancel_left]
      · intro r hr
        rw [Thread.reg_putDst_wave, if_neg (by omega)]
    · rintro rfl
      refine ⟨?_, fun h k hk => ?_, fun r hr => ?_⟩
      · rintro rfl
        rw [Thread.reg_putDst_caller_one, Thread.reg_putDst_caller_one, if_pos rfl, if_neg (by omega), if_pos rfl]
        exact ⟨rfl, rfl⟩
      · rw [Thread.reg_putDst_caller _ _ _ _ h, if_pos (by omega), Nat.add_sub_cancel_left]
      · by_cases h : words = 1
        · subst h
          rw [Thread.reg_putDst_caller_one, if_neg (by omega), if_neg (by omega)]
        · rw [Thread.reg_putDst_caller _ _ _ _ h, if_neg (by omega)]
  · rintro n rfl hw
    rw [Thread.putDst_p, wordsOf_headD hw]
    refine ⟨by rw [Thread.putPred_v], fun m hm => ?_⟩
    rw [Thread.pred_putPred, if_neg hm, BitVec.getLsbD_ofNat]
    simp

/-- Settles O12: the group's results go to its wave alone; each thread takes what `Thread.putDst_spec` says, and the wave's own
registers those of the lowest lane. -/
theorem destinationsTakeResults : Obligations.DestinationsTakeResults := by
  intro s c x words v hx hq
  have heq := s.writeAll_eq c (c.results words v) hq
  obtain ⟨hrest, hlen⟩ := x.takeAll_eq c.u c.e.f.d (c.results words v)
  refine ⟨x.takeAll c.u c.e.f.d (c.results words v), ?_, ?_, ?_, hrest, hlen, ?_, ?_, ?_, x.takeAll_other c words v⟩
  · rw [heq]
    exact (NMap.find_upd_same _ _ _).trans (congrArg _ hx)
  · rw [heq]; rfl
  · intro w hw
    rw [heq]
    exact NMap.find_upd_ne _ _ hw
  · intro l t ht
    have hthread := x.takeAll_thread c words v l
    rw [ht, Option.map_some] at hthread
    refine ⟨_, hthread, ?_, fun hl => if_neg hl, fun hl => ?_⟩
    · split_ifs
      · exact Thread.putDst_eq _ _ _ _
      · rfl
    · rw [if_pos hl]
      exact Thread.putDst_spec c.u c.e.f.d words (v l) t
  · intro n hn hg
    obtain ⟨hs, hk⟩ := x.takeAll_s c words v hn hg
    refine ⟨hk, fun k hk => ?_, fun r hr => ?_⟩
    · rw [hs, putWords_get, length_wordsOf, if_pos (by omega), Nat.add_sub_cancel_left, wordsOf_getD hk]
    · rw [hs, putWords_get, length_wordsOf, if_neg (by omega)]
  · intro n hn hg hw
    obtain ⟨hs, hk⟩ := x.takeAll_k c words v hn hg
    refine ⟨hs, fun r => ?_⟩
    rw [hk, NMap.get_put, wordsOf_headD hw]

end Sys2Proof.Machine
end

section
/-! PROOFS. How an instruction issues (R33, R34, R36, R132): its group, what issuing changes, and what one pending result has it do. -/

namespace Sys2Proof.Machine

open Sys2Proof

/-! ### The context of the path that holds the turn -/

theorem Wave.mem_readyLanes {x : Wave} {l : Nat} {pc : DWord} :
    (l, pc) ∈ x.readyLanes ↔ ∃ t, x.threads[l]? = some t ∧ t.ready = true ∧ t.pc = pc := by
  unfold Wave.readyLanes
  simp only [List.mem_filterMap, List.mem_mapIdx, id_eq, exists_eq_right]
  constructor
  · rintro ⟨i, hi, h⟩
    split at h
    · rename_i hr
      cases h
      exact ⟨_, List.getElem?_eq_getElem hi, hr, rfl⟩
    · cases h
  · rintro ⟨t, ht, hr, rfl⟩
    obtain ⟨hi, rfl⟩ := List.getElem?_eq_some_iff.mp ht
    exact ⟨l, hi, if_pos hr⟩

/-- The lanes of a path stand at the PC of the lane that names it. -/
theorem Wave.mem_pathOf {x : Wave} {l n : Nat} :
    n ∈ x.pathOf l ↔ ∃ t u, x.threads[l]? = some t ∧ t.ready = true ∧ x.threads[n]? = some u ∧ u.ready = true ∧ u.pc = t.pc := by
  unfold Wave.pathOf
  cases ht : x.threads[l]? with
  | none => simp
  | some t =>
    dsimp only
    split_ifs with hr
    · simp only [List.mem_map, List.mem_filter, Prod.exists, exists_and_right, exists_eq_right, beq_iff_eq,
        Wave.mem_readyLanes]
      constructor
      · rintro ⟨u, hu, hur, hpc⟩
        exact ⟨t, u, rfl, hr, hu, hur, hpc⟩
      · rintro ⟨t', u, ht', -, hu, hur, hpc⟩
        cases ht'
        exact ⟨u, hu, hur, hpc⟩
    · simp only [List.not_mem_nil, false_iff]
      rintro ⟨t', u, ht', hr', -⟩
      cases ht'
      exact hr hr'

/-- The paths follow from where the threads stand and which may issue. -/
theorem Wave.pathOf_congr {x y : Wave}
    (h : ∀ n : Nat, (y.threads[n]?).map (fun t => (t.ready, t.pc)) = (x.threads[n]?).map fun t => (t.ready, t.pc))
    (l : Nat) : y.pathOf l = x.pathOf l := by
  have hlanes : ∀ z : Wave, z.readyLanes = ((z.threads.map fun t => (t.ready, t.pc)).mapIdx fun l p =>
      if p.1 = true then some (l, p.2) else none).filterMap id := by
    intro z
    unfold Wave.readyLanes
    congr 1
    apply List.ext_getElem?
    intro n
    simp only [List.getElem?_mapIdx, List.getElem?_map, Option.map_map]
    rfl
  have hmap : (y.threads.map fun t => (t.ready, t.pc)) = x.threads.map fun t => (t.ready, t.pc) := by
    apply List.ext_getElem?
    intro n
    rw [List.getElem?_map, List.getElem?_map, h n]
  have hl := h l
  unfold Wave.pathOf
  rw [hlanes y, hlanes x, hmap]
  cases hy : y.threads[l]? with
  | none =>
    rw [hy, Option.map_none] at hl
    rw [Option.map_eq_none_iff.mp hl.symm]
  | some u =>
    rw [hy, Option.map_some] at hl
    obtain ⟨t, ht, heq⟩ := Option.map_eq_some_iff.mp hl.symm
    obtain ⟨hr, hpc⟩ := Prod.ext_iff.mp heq
    dsimp only at hr hpc
    rw [ht]
    dsimp only
    rw [hr, hpc]

/-- What the path that holds the turn issues with. -/
def State.ctxFor (s : State) (w : Nat) (x : Wave) (l : Nat) (e : Desc) : Ctx :=
  { w := w, x := x, u := x.unit, e := e, pc := (x.threads.getD l .empty).pc, path := x.pathOf l
    group := (x.pathOf l).filter fun n => (x.threads.getD n .empty).guard e.f
    id := s.nextId, wgi := s.wgIndex x, clk := s.clkOf (fetchCore w), tag := s.tagOf x.rgn, pops := [] }

theorem State.ctxOf_some {s : State} {w l : Nat} {x : Wave} (hx : s.waves.find w = some x) (ht : x.turn = some l)
    (hp : x.pathOf l ≠ []) (e : Desc) : s.ctxOf w e = some (s.ctxFor w x l e) := by
  unfold State.ctxOf
  simp only [hx, ht]
  cases h : x.pathOf l with
  | nil => exact absurd h hp
  | cons a as => simp [State.ctxFor, h]

/-! ### Issue once the interlocks are settled -/

section

variable {s : State} {i : Instr} {e : Desc} {c0 c1 : Ctx} {r0 r1 : State}

/-- Issue goes on from the state that the interlocks leave. -/
theorem State.start_settled {fits : Ctx → State → Bool} (h0 : s.ctxOf s.cur e = some c0)
    (hs0 : s.settle c0.w c0.u [(.p e.f.gp, 1)] c0.path = some r0)
    (h1 : r0.ctxOf s.cur e = some c1) (hs1 : r0.settle c1.w c1.u (touches e i) c1.group = some r1)
    (hcur : r1.cur = s.cur) {d0 : Ctx} (k0 : r1.ctxOf s.cur e = some d0)
    (ks0 : r1.settle d0.w d0.u [(.p e.f.gp, 1)] d0.path = some r1)
    (ks1 : r1.settle d0.w d0.u (touches e i) d0.group = some r1) :
    s.start i e fits = r1.start i e fits := by
  unfold State.start
  rw [hcur, h0, k0]
  dsimp only
  rw [hs0, ks0]
  dsimp only
  rw [h1, k0]
  dsimp only
  rw [hs1, ks1]

/-- An instruction whose interlocks hold nothing back, and whose operands are in order and no queue registers, issues. -/
theorem State.start_begins {c : Ctx} (h0 : s.ctxOf s.cur e = some c) (hp : c.pops = [])
    (hs0 : s.settle c.w c.u [(.p e.f.gp, 1)] c.path = some s) (hs1 : s.settle c.w c.u (touches e i) c.group = some s)
    (hr : e.rangeFault c.u c.x.bound = none) (hq : e.queueSrcs = []) (hd : e.queueDst = none) :
    s.start i e (fun _ _ => true) = .go c (s.begin c) := by
  have hce : c.e = e := (State.ctxOf_eq h0).1
  have hc : { c with pops := [] } = c := by rw [← hp]
  unfold State.start
  simp only [h0, hs0, hs1, hr, Desc.queueBad_none hq hd, Bool.false_and, Bool.false_eq_true, if_false, Bool.not_true,
    s.queueAccess_none (c := c) (hce ▸ hq) (hce ▸ hd), s.popAcquire_none (c := c) (hce ▸ hq), hc]

end

theorem State.curUnit_of_find {s : State} {x : Wave} (hx : s.waves.find s.cur = some x) : s.curUnit = x.unit := by
  unfold State.curUnit
  rw [hx]

/-! ### What the interlocks hold back -/

theorem flatten_lone {α : Type} {p : α} : ∀ {L : List (List α)} {l : Nat},
    (∀ n u, n ≠ l → L[n]? = some u → u = []) → L[l]? = some [p] → L.flatten = [p]
  | [], _, _, h => by simp at h
  | u :: L, 0, h0, h => by
    have hu : u = [p] := by simpa using h
    have hL : L.flatten = [] := List.flatten_eq_nil_iff.mpr fun v hv => by
      obtain ⟨n, hn⟩ := List.getElem?_of_mem hv
      exact h0 (n + 1) v (by omega) (by simpa using hn)
    rw [List.flatten_cons, hu, hL]
    rfl
  | u :: L, l + 1, h0, h => by
    have hu : u = [] := h0 0 u l.succ_ne_zero.symm rfl
    rw [List.flatten_cons, hu, List.nil_append]
    exact flatten_lone (l := l) (fun n v hn hv => h0 (n + 1) v (by omega) (by simpa using hv)) (by simpa using h)

/-- The wave has one access pending, that of a lane. -/
def Wave.pendsOnly (x : Wave) (l : Nat) (a : Acc) : Prop :=
  (∃ t, x.threads[l]? = some t ∧ t.accs = [a]) ∧ ∀ n u, n ≠ l → x.threads[n]? = some u → u.accs = []

section

variable {x : Wave} {l : Nat} {a : Acc} (h : x.pendsOnly l a)
include h

theorem Wave.pendsOnly.pending : x.pending = [(l, a)] := by
  obtain ⟨⟨t, ht, ha⟩, hn⟩ := h
  have hflat : ((x.threads.mapIdx fun l t => t.accs.map fun a => (l, a)).flatten) = [(l, a)] := by
    refine flatten_lone (l := l) (fun n u hnl hu => ?_) ?_
    · rw [List.getElem?_mapIdx] at hu
      obtain ⟨v, hv, rfl⟩ := Option.map_eq_some_iff.mp hu
      rw [hn n v hnl hv]
      rfl
    · rw [List.getElem?_mapIdx, ht, Option.map_some, ha]
      rfl
  unfold Wave.pending
  rw [hflat]
  rfl

/-- What holds a lane back is the one pending result, if anything: of the lane's own, one whose window is over or that the operands
touch; of another lane's, one in a register of the wave that they touch (R34). -/
theorem Wave.pendsOnly.holders {d : Dst} (hd : a.dst = some d) (u : Unit2) (m : Nat) (ops : List (Operand × Nat)) :
    x.holders u m ops =
      if l = m then
        (if a.win = 0 then [(l, a.id, false)]
         else if (ops.any fun o => o.1.meets u o.2 d.op d.words) = true then [(l, a.id, true)] else [])
      else if (ops.any fun o => o.1.meets u o.2 d.op d.words) = true ∧ d.op.shared = true then [(l, a.id, false)] else [] := by
  unfold Wave.holders
  rw [h.pending]
  simp only [List.filterMap_cons, hd, List.filterMap_nil, Bool.and_eq_true]
  split_ifs <;> rfl

end

theorem Wave.holders_idle {x : Wave} (h : ∀ t ∈ x.threads, t.accs = []) (u : Unit2) (m : Nat) (ops : List (Operand × Nat)) :
    x.holders u m ops = [] := by
  have : x.pending = [] := List.eq_nil_iff_forall_not_mem.mpr fun p hp => by
    obtain ⟨t, ht, ha⟩ := Wave.mem_pending.mp (show (p.1, p.2) ∈ x.pending from hp)
    rw [h t (List.mem_of_getElem? ht)] at ha
    simp at ha
  unfold Wave.holders
  rw [this]
  rfl

/-- One lane waits for what holds it back. -/
def State.settleLane (w : Nat) (u : Unit2) (ops : List (Operand × Nat)) (r : Option State) (lane : Nat) : Option State :=
  r.bind fun s2 =>
    match s2.waves.find w with
    | none => some s2
    | some y => (y.holders u lane ops).foldl (fun r h => r.bind fun s3 => s3.returnAcc w h.1 h.2.1) (some s2)

section

variable {s : State} {w : Nat} {x : Wave} (hx : s.waves.find w = some x) (u : Unit2) (ops : List (Operand × Nat))
include hx

theorem State.settleLane_some (m : Nat) : State.settleLane w u ops (some s) m =
    (x.holders u m ops).foldl (fun r h => r.bind fun s3 => s3.returnAcc w h.1 h.2.1) (some s) := by
  unfold State.settleLane
  simp only [Option.bind_some, hx]

/-- Lanes that nothing holds back wait for nothing. -/
theorem State.settleLanes_free {lanes : List Nat} (h : ∀ m ∈ lanes, x.holders u m ops = []) :
    lanes.foldl (State.settleLane w u ops) (some s) = some s := by
  induction lanes with
  | nil => rfl
  | cons m lanes ih =>
    rw [List.foldl_cons, State.settleLane_some hx, h m List.mem_cons_self]
    exact ih fun n hn => h n (List.mem_cons_of_mem _ hn)

/-- Lanes that one result holds back, once it is returned, wait for nothing more. -/
theorem State.settleLanes_return {l id : Nat} {r : State} {y : Wave} (hret : s.returnAcc w l id = some r)
    (hy : r.waves.find w = some y) (hidle : ∀ t ∈ y.threads, t.accs = []) {lanes : List Nat}
    (h : ∀ m ∈ lanes, x.holders u m ops = [] ∨ ∃ b, x.holders u m ops = [(l, id, b)])
    (hl : ∃ m ∈ lanes, x.holders u m ops ≠ []) :
    lanes.foldl (State.settleLane w u ops) (some s) = some r := by
  induction lanes with
  | nil => simp at hl
  | cons m lanes ih =>
    rw [List.foldl_cons, State.settleLane_some hx]
    rcases h m List.mem_cons_self with hm | ⟨b, hm⟩
    · rw [hm]
      refine ih (fun n hn => h n (List.mem_cons_of_mem _ hn)) ?_
      obtain ⟨n, hn, hne⟩ := hl
      rcases List.mem_cons.mp hn with rfl | hn
      · exact absurd hm hne
      · exact ⟨n, hn, hne⟩
    · rw [hm]
      simp only [List.foldl_cons, List.foldl_nil, Option.bind_some, hret]
      exact State.settleLanes_free hy u ops fun n _ => Wave.holders_idle hidle u n ops

end

/-- The lanes note that they wait within their windows, then each waits. -/
theorem State.settle_eq {s : State} {w : Nat} {x : Wave} (hx : s.waves.find w = some x)
    (hb : ∃ t ∈ x.threads, t.accs ≠ []) (u : Unit2) (ops : List (Operand × Nat)) (lanes : List Nat) :
    s.settle w u ops lanes = lanes.foldl (State.settleLane w u ops)
      (some ((lanes.filter fun lane => (x.holders u lane ops).any fun h => h.2.2).foldl
        (fun s lane => s.updThread w lane fun t => { t with lav := true }) s)) := by
  have hbusy : ¬ (x.threads.all fun t => t.accs.isEmpty) = true := by
    obtain ⟨t, ht, hne⟩ := hb
    intro hall
    exact hne (List.isEmpty_iff.mp (List.all_eq_true.mp hall t ht))
  unfold State.settle
  rw [hx]
  exact if_neg hbusy

/-! ### One pending result -/

theorem NMap.ins_ins {β : Type} (m : NMap β) (n : Nat) (y z : β) : (m.ins n y).ins n z = m.ins n z := by
  induction m with
  | nil => simp [NMap.ins]
  | cons e m ih =>
    obtain ⟨k, x⟩ := e
    by_cases h1 : n = k
    · simp [NMap.ins, h1]
    · by_cases h2 : n < k <;> simp [NMap.ins, h1, h2, ih]

theorem NMap.upd_upd {β : Type} (m : NMap β) (n : Nat) (g h : β → β) : (m.upd n g).upd n h = m.upd n (h ∘ g) := by
  unfold NMap.upd
  cases hm : m.find n with
  | none => simp only [hm]
  | some x => simp only [NMap.find_ins_same, NMap.ins_ins, Function.comp_apply]

theorem State.updThread_updThread (s : State) (w l : Nat) (g h : Thread → Thread) :
    (s.updThread w l g).updThread w l h = s.updThread w l (h ∘ g) := by
  unfold State.updThread
  simp only [NMap.upd_upd]
  congr 2
  funext x
  exact x.updThread_updThread l g h

/-- A change made once or more often, by each of a list of lanes that are all the same. -/
theorem State.foldl_updThread {s : State} {w l : Nat} {g : Thread → Thread} (hg : g ∘ g = g) {lanes : List Nat}
    (hne : lanes ≠ []) (h : ∀ m ∈ lanes, m = l) :
    lanes.foldl (fun s m => s.updThread w m g) s = s.updThread w l g := by
  induction lanes generalizing s with
  | nil => exact absurd rfl hne
  | cons m lanes ih =>
    obtain rfl := h m List.mem_cons_self
    rw [List.foldl_cons]
    cases lanes with
    | nil => rfl
    | cons n lanes =>
      rw [ih (List.cons_ne_nil _ _) fun k hk => h k (List.mem_cons_of_mem _ hk), State.updThread_updThread, hg]

theorem Wave.updThread_thread (x : Wave) (l n : Nat) (g : Thread → Thread) :
    (x.updThread l g).threads[n]? = (x.threads[n]?).map fun t => if l = n then g t else t :=
  List.getElem?_modify _ _ _ _

/-- What a result changes of a wave's threads. -/
theorem Wave.putDst_thread (x : Wave) (l n : Nat) (o : Operand) (ws : List Word) :
    (x.putDst l o ws).threads[n]? = (x.threads[n]?).map fun t => if l = n then t.putDst x.unit o ws else t := by
  have hshared : (∀ k, o ≠ .v k) → (∀ k, o ≠ .p k) → (x.threads[n]?).map
      (fun t => if l = n then Thread.putDst x.unit o ws t else t) = x.threads[n]? := by
    intro hv hp
    have : (fun t => if l = n then Thread.putDst x.unit o ws t else t) = id := by
      funext t
      rw [Thread.putDst_other hv hp, ite_self, id]
    rw [this, Option.map_id, id]
  unfold Wave.putDst
  split
  · exact (hshared (by simp) (by simp)).symm
  · exact (hshared (by simp) (by simp)).symm
  · exact x.updThread_thread _ _ _

@[simp] theorem Wave.putDst_unit (x : Wave) (l : Nat) (o : Operand) (ws : List Word) : (x.putDst l o ws).unit = x.unit := by
  unfold Wave.putDst
  split <;> rfl

@[simp] theorem Wave.putDst_turn (x : Wave) (l : Nat) (o : Operand) (ws : List Word) : (x.putDst l o ws).turn = x.turn := by
  unfold Wave.putDst
  split <;> rfl

@[simp] theorem Thread.putDst_accs (u : Unit2) (o : Operand) (ws : List Word) (t : Thread) :
    (t.putDst u o ws).accs = t.accs := by rw [Thread.putDst_eq]

@[simp] theorem Thread.putDst_pc (u : Unit2) (o : Operand) (ws : List Word) (t : Thread) :
    (t.putDst u o ws).pc = t.pc := by rw [Thread.putDst_eq]

@[simp] theorem Thread.putDst_st (u : Unit2) (o : Operand) (ws : List Word) (t : Thread) :
    (t.putDst u o ws).st = t.st := by rw [Thread.putDst_eq]

theorem Thread.ready_congr {t u : Thread} (h : t.st = u.st) : t.ready = u.ready := by
  unfold Thread.ready
  rw [h]

/-- The state in which the pending result of a lane stands in its destination. -/
def State.returned (s : State) (w l : Nat) (a : Acc) (d : Dst) (v : List Word) : State :=
  (s.updThread w l fun t => t.setAcc a.id fun _ => none).putDst w l d.op v

/-- The wave in which it stands there. -/
def Wave.returned (x : Wave) (l : Nat) (a : Acc) (d : Dst) (v : List Word) : Wave :=
  (x.updThread l fun t => t.setAcc a.id fun _ => none).putDst l d.op v

theorem State.returned_find {s : State} {w : Nat} {x : Wave} (hx : s.waves.find w = some x) (l : Nat) (a : Acc) (d : Dst)
    (v : List Word) : (s.returned w l a d v).waves.find w = some (x.returned l a d v) := by
  unfold State.returned
  rw [State.putDst_find, State.updThread_find, hx]
  rfl

section

variable {x : Wave} {l : Nat} {a : Acc} (d : Dst) (v : List Word)

theorem Wave.returned_thread (n : Nat) : (x.returned l a d v).threads[n]? = (x.threads[n]?).map fun t =>
    if l = n then (t.setAcc a.id fun _ => none).putDst x.unit d.op v else t := by
  unfold Wave.returned
  rw [Wave.putDst_thread]
  rw [Wave.updThread_thread, Option.map_map]
  refine congrArg (Option.map · _) (funext fun t => ?_)
  by_cases h : l = n <;> simp [h, Wave.unit]

/-- With its one result returned the wave has nothing pending. -/
theorem Wave.returned_idle (h : x.pendsOnly l a) : ∀ t ∈ (x.returned l a d v).threads, t.accs = [] := by
  intro t ht
  obtain ⟨⟨u, hu, ha⟩, hn⟩ := h
  obtain ⟨n, hn'⟩ := List.getElem?_of_mem ht
  rw [Wave.returned_thread] at hn'
  obtain ⟨w, hw, rfl⟩ := Option.map_eq_some_iff.mp hn'
  split_ifs with hl
  · subst hl
    cases hw.symm.trans hu
    simp [Thread.setAcc, ha]
  · exact hn n w (Ne.symm hl) hw

/-- The result leaves the paths as they are. -/
theorem Wave.returned_pathOf (m : Nat) : (x.returned l a d v).pathOf m = x.pathOf m := by
  refine Wave.pathOf_congr (fun n => ?_) m
  rw [Wave.returned_thread, Option.map_map]
  refine congrArg (Option.map · _) (funext fun t => ?_)
  by_cases h : l = n
  · simp only [Function.comp_apply, if_pos h, Thread.putDst_pc]
    exact Prod.ext (Thread.ready_congr (Thread.putDst_st _ _ _ _)) rfl
  · simp only [Function.comp_apply, if_neg h]

@[simp] theorem Wave.returned_unit : (x.returned l a d v).unit = x.unit := by
  unfold Wave.returned
  rw [Wave.putDst_unit]
  rfl

@[simp] theorem Wave.returned_turn : (x.returned l a d v).turn = x.turn := by
  unfold Wave.returned
  rw [Wave.putDst_turn]
  rfl

end


/-! ### The interlocks where one result is pending -/

/-- A result that is computed and waits in one lane, for a destination that is no queue register. -/
structure Waits (s : State) (w : Nat) (x : Wave) (l : Nat) (a : Acc) (d : Dst) (v : List Word) : Prop where
  wave : s.waves.find w = some x
  only : x.pendsOnly l a
  kind : a.kind = .calc
  parts : a.parts = []
  ord : a.ord = .plain
  dst : a.dst = some d
  wr : d.wr = true
  val : a.val = some v
  noQueue : ∀ q, d.op ≠ .q q
  unserved : (s.cluster (clusterOfWave w)).svc.contains ⟨w, l, a.id⟩ = false

section

variable {s : State} {w : Nat} {x : Wave} {l : Nat} {a : Acc} {d : Dst} {v : List Word} (h : Waits s w x l a d v)
include h

theorem Waits.lone : Lone s w l a where
  only := by
    obtain ⟨t, ht, ha⟩ := h.only.1
    exact ⟨t, State.thread?_eq h.wave ht, ha⟩
  links := by simp [Acc.links, h.parts]
  reads := by rw [h.kind]; rfl
  ord := h.ord
  feed := .inr fun y n t hy hn ht => by
    cases hy.symm.trans h.wave
    exact h.only.2 n t hn ht
  still := .inr h.parts

theorem Waits.accOf : s.accOf w l a.id = some a := by
  obtain ⟨t, ht, ha⟩ := h.only.1
  unfold State.accOf
  rw [State.thread?_eq h.wave ht]
  simp [ha]

/-- A computed result is nothing to perform. -/
theorem Waits.performUpTo : s.performUpTo w l a.id = some s := by
  have hraw : s.performRaw w l a = some s := by
    unfold State.performRaw
    rw [h.kind]
  unfold State.performUpTo State.chainIds
  simp only [h.lone.chain, List.map_cons, List.map_nil, List.foldl_cons, List.foldl_nil, Option.bind_some, State.performElem,
    h.unserved, Bool.false_eq_true, if_false, State.performList, h.accOf, State.performOne, h.ord, if_true, hraw]

/-- The result is written once the lane waits for it. -/
theorem Waits.returnAcc : s.returnAcc w l a.id = some (s.returned w l a d v) := by
  have hone : s.returnOne w l a.id = some (s.returned w l a d v) := by
    unfold State.returnOne
    simp only [h.performUpTo, Option.bind_some, h.accOf, h.dst, h.val]
    split
    · rename_i n hq; exact absurd hq (h.noQueue n)
    · rw [if_pos h.wr]; rfl
  have hqueue : a.queue? = none := by
    unfold Acc.queue?
    rw [h.dst]
    split
    · rename_i n _ _ hq
      cases hq
      exact absurd rfl (h.noQueue n)
    · rfl
  unfold State.returnAcc
  simp only [h.wave, h.accOf, hqueue, hone]

theorem Waits.busy : ∃ t ∈ x.threads, t.accs ≠ [] := by
  obtain ⟨t, ht, ha⟩ := h.only.1
  exact ⟨t, List.mem_of_getElem? ht, by simp [ha]⟩

/-- An interlock that the result does not concern holds nothing back. -/
theorem Waits.settle_free (hwin : a.win ≠ 0) (u : Unit2) {ops : List (Operand × Nat)}
    (hops : (ops.any fun o => o.1.meets u o.2 d.op d.words) = false) (lanes : List Nat) : s.settle w u ops lanes = some s := by
  have hnone : ∀ m, x.holders u m ops = [] := by
    intro m
    rw [h.only.holders h.dst]
    simp [hops, hwin]
  rw [State.settle_eq h.wave h.busy]
  simp only [hnone, List.any_nil, List.filter_false, List.foldl_nil]
  exact State.settleLanes_free h.wave u ops fun m _ => hnone m

/-- A result whose window is over is waited for, whatever the instruction names. -/
theorem Waits.settle_late (hwin : a.win = 0) (u : Unit2) {ops : List (Operand × Nat)}
    (hops : (ops.any fun o => o.1.meets u o.2 d.op d.words) = false) {lanes : List Nat} (hl : l ∈ lanes) :
    s.settle w u ops lanes = some (s.returned w l a d v) := by
  have hold : ∀ m, x.holders u m ops = if l = m then [(l, a.id, false)] else [] := by
    intro m
    rw [h.only.holders h.dst]
    simp [hops, hwin]
  have hlate : (lanes.filter fun lane => (x.holders u lane ops).any fun h => h.2.2) = [] := by
    refine List.filter_eq_nil_iff.mpr fun m _ => ?_
    rw [hold]
    split_ifs <;> simp
  rw [State.settle_eq h.wave h.busy, hlate]
  refine State.settleLanes_return h.wave u ops h.returnAcc (State.returned_find h.wave l a d v)
    (Wave.returned_idle d v h.only) (fun m _ => ?_) ⟨l, hl, ?_⟩
  · rw [hold]
    split_ifs
    · exact .inr ⟨false, rfl⟩
    · exact .inl rfl
  · rw [hold, if_pos rfl]
    exact List.cons_ne_nil _ _

/-- The wait noted in the lane changes nothing of what waits. -/
theorem Waits.noted : Waits (s.updThread w l fun t => { t with lav := true }) w (x.updThread l fun t => { t with lav := true })
    l a d v where
  wave := by rw [State.updThread_find, h.wave]; rfl
  only := by
    obtain ⟨⟨t, ht, ha⟩, hn⟩ := h.only
    refine ⟨⟨{ t with lav := true }, ?_, ha⟩, fun n u hnl hu => ?_⟩
    · rw [Wave.updThread_thread, ht, Option.map_some, if_pos rfl]
    · rw [Wave.updThread_thread] at hu
      simp only [Ne.symm hnl, if_false, Option.map_id'] at hu
      exact hn n u hnl hu
  kind := h.kind
  parts := h.parts
  ord := h.ord
  dst := h.dst
  wr := h.wr
  val := h.val
  noQueue := h.noQueue
  unserved := h.unserved

/-- A result within its window that the instruction names is waited for, and the wait is noted (LAV). -/
theorem Waits.settle_named (hwin : a.win ≠ 0) (u : Unit2) {ops : List (Operand × Nat)}
    (hops : (ops.any fun o => o.1.meets u o.2 d.op d.words) = true) {lanes : List Nat} (hl : l ∈ lanes) :
    s.settle w u ops lanes = some ((s.updThread w l fun t => { t with lav := true }).returned w l a d v) := by
  have hold : ∀ {y : Wave}, y.pendsOnly l a → ∀ m, y.holders u m ops =
      if l = m then [(l, a.id, true)] else if d.op.shared = true then [(l, a.id, false)] else [] := by
    intro y hy m
    rw [hy.holders h.dst]
    simp [hops, hwin]
  have hlate : ∀ m, m ∈ (lanes.filter fun lane => (x.holders u lane ops).any fun h => h.2.2) ↔ m ∈ lanes ∧ m = l := by
    intro m
    rw [List.mem_filter, hold h.only]
    refine and_congr_right fun _ => ?_
    split_ifs with h1 h2
    · simp [h1]
    · simp [Ne.symm h1]
    · simp [Ne.symm h1]
  have hnote : (lanes.filter fun lane => (x.holders u lane ops).any fun h => h.2.2).foldl
      (fun s lane => s.updThread w lane fun t => { t with lav := true }) s = s.updThread w l fun t => { t with lav := true } :=
    State.foldl_updThread rfl (List.ne_nil_of_mem ((hlate l).mpr ⟨hl, rfl⟩)) fun m hm => ((hlate m).mp hm).2
  rw [State.settle_eq h.wave h.busy, hnote]
  refine State.settleLanes_return h.noted.wave u ops h.noted.returnAcc (State.returned_find h.noted.wave l a d v)
    (Wave.returned_idle d v h.noted.only) (fun m _ => ?_) ⟨l, hl, ?_⟩
  · rw [hold h.noted.only]
    split_ifs
    · exact .inr ⟨true, rfl⟩
    · exact .inr ⟨false, rfl⟩
    · exact .inl rfl
  · rw [hold h.noted.only, if_pos rfl]
    exact List.cons_ne_nil _ _

end

/-! ### Issue -/

section

variable {s : State} {i : Instr} {e : Desc} {x : Wave} {l : Nat}

theorem State.startOf_eq (hx : s.waves.find s.cur = some x) (he : descOf x.unit i = some e) :
    s.startOf i = s.start i e fun _ _ => true := by
  unfold State.startOf
  rw [State.curUnit_of_find hx, he]

/-- The interlocks hold nothing back in a wave with nothing pending: issue from a state that they lead to is issue from there. -/
theorem State.startOf_settled {r : State} {y : Wave} {c0 c1 : Ctx} {r0 : State} (hx : s.waves.find s.cur = some x)
    (he : descOf x.unit i = some e) (hcur : r.cur = s.cur) (hy : r.waves.find s.cur = some y) (hunit : y.unit = x.unit)
    (hturn : y.turn = some l) (hpath : y.pathOf l ≠ []) (hidle : ∀ t ∈ y.threads, t.accs = [])
    (h0 : s.ctxOf s.cur e = some c0) (hs0 : s.settle c0.w c0.u [(.p e.f.gp, 1)] c0.path = some r0)
    (h1 : r0.ctxOf s.cur e = some c1) (hs1 : r0.settle c1.w c1.u (touches e i) c1.group = some r) :
    s.startOf i = r.startOf i := by
  have hy' : r.waves.find r.cur = some y := hcur ▸ hy
  have hctx := State.ctxOf_some hy hturn hpath e
  rw [State.startOf_eq hx he, State.startOf_eq hy' (hunit ▸ he)]
  exact State.start_settled h0 hs0 h1 hs1 hcur hctx (State.settle_idle hy hidle _ _ _) (State.settle_idle hy hidle _ _ _)

end

/-- What the issue of an instruction changes of the wave: its threads, and the operand buffer (R36). -/
theorem Ctx.issued_fields (c : Ctx) (x : Wave) : (c.issued x).s = x.s ∧ (c.issued x).k = x.k ∧ (c.issued x).wg = x.wg ∧
    (c.issued x).turn = x.turn ∧ (c.issued x).threads.length = x.threads.length :=
  ⟨rfl, rfl, rfl, rfl, List.length_mapIdx⟩

/-- A thread of the path goes on with its registers, and with its results' windows counted. -/
theorem Ctx.goesOn_spec (c : Ctx) (n : Nat) (t : Thread) : (c.goesOn n t).v = t.v ∧ (c.goesOn n t).preds = t.preds ∧
    (c.goesOn n t).stack = t.stack ∧ (c.goesOn n t).epc = t.epc ∧ (c.goesOn n t).mark = t.mark ∧
    (c.goesOn n t).lav = t.lav ∧ (t.accs = [] → (c.goesOn n t).accs = []) ∧
    (n ∈ c.path → (c.goesOn n t).pc = c.npc ∧ (c.goesOn n t).st = .running ∧ (c.goesOn n t).popped = [] ∧
      (c.goesOn n t).accs = t.countWindow.accs) ∧ (n ∉ c.path → c.goesOn n t = t) := by
  by_cases hn : n ∈ c.path
  · have h : c.goesOn n t = _ := if_pos hn
    rw [h]
    exact ⟨rfl, rfl, rfl, rfl, rfl, rfl, fun ha => by simp [Thread.advance, Thread.countWindow, ha],
      fun _ => ⟨rfl, rfl, rfl, rfl⟩, absurd hn⟩
  · have h : c.goesOn n t = t := if_neg hn
    rw [h]
    exact ⟨rfl, rfl, rfl, rfl, rfl, rfl, fun ha => ha, fun h => absurd h hn, fun _ => rfl⟩

theorem State.begin_find {s : State} {c : Ctx} {x : Wave} (hx : s.waves.find c.w = some x) :
    (s.begin c).waves.find c.w = some (c.issued x) := by
  rw [State.begin_waves, NMap.find_upd_same, hx]
  rfl

/-- Issuing changes nothing of a core but `wakerc` and its mark. -/
theorem State.begin_core (s : State) (c : Ctx) (g : Nat) : ((s.begin c).core g).tlb = (s.core g).tlb ∧
    ((s.begin c).core g).copies = (s.core g).copies ∧ ((s.begin c).core g).engine = (s.core g).engine := by
  have hcores : (s.begin c).core g = (s.noteIssue c.w).core g := by
    unfold State.core
    rw [State.begin_eq]
  rw [hcores]
  unfold State.noteIssue
  cases coreOfWave c.w with
  | none => exact ⟨rfl, rfl, rfl⟩
  | some j =>
    dsimp only
    split
    · by_cases hg : g = j
      · subst hg
        rw [State.core_setCore]
        exact ⟨rfl, rfl, rfl⟩
      · rw [State.core_setCore_ne s _ hg]
        exact ⟨rfl, rfl, rfl⟩
    · exact ⟨rfl, rfl, rfl⟩

/-- Settles O9: with nothing pending the interlocks hold nothing back; with one result pending they leave the state in which it is
written, or as it is while its window lasts. -/
theorem issueBegins : Obligations.IssueBegins := by
  refine ⟨?idle, ?pending⟩
  case idle =>
    intro s i e x l hx hturn hpath haccs he hr hq hd
    have hctx := State.ctxOf_some hx hturn hpath e
    let c := s.ctxFor s.cur x l e
    have hgo : s.startOf i = .go c (s.begin c) := by
      rw [State.startOf_eq hx he]
      exact State.start_begins hctx rfl (State.settle_idle hx haccs _ _ _) (State.settle_idle hx haccs _ _ _) hr hq hd
    refine ⟨c, s.begin c, hgo, hctx, rfl, rfl, rfl, rfl, rfl, rfl, rfl, ⟨c.issued x, State.begin_find hx, rfl, rfl, rfl, rfl,
      (c.issued_fields x).2.2.2.2, fun n t ht => ?_⟩, fun w hw => ?_, ?_, s.begin_core c⟩
    · refine ⟨c.goesOn n t, (c.issued_thread n x).trans (congrArg _ ht), ?_⟩
      obtain ⟨hv, hp, hst, hepc, hm, -, ha, hin, hout⟩ := c.goesOn_spec n t
      refine ⟨hv, hp, hst, hepc, hm, ha (haccs t (List.mem_of_getElem? ht)), fun hn => ?_, hout⟩
      obtain ⟨hpc, hrun, hpop, -⟩ := hin hn
      obtain ⟨t0, u, ht0, -, hu, -, hpcs⟩ := Wave.mem_pathOf.mp hn
      cases hu.symm.trans ht
      refine ⟨?_, hrun, hpop⟩
      rw [hpc, hpcs]
      have : x.threads.getD l .empty = t0 := by simp [List.getD, ht0]
      change (x.threads.getD l .empty).pc + _ = _
      rw [this]
      rfl
    · rw [State.begin_waves]
      exact NMap.find_upd_ne _ _ hw
    · rw [State.begin_eq]
  case pending =>
    intro s i e x h l t a d v hx hturn he hl ht hguard hacc hothers hkind hparts hord hdst hwr hval hnq hgp hsvc named written
    have hw : Waits s s.cur x l a d v :=
      ⟨hx, ⟨⟨t, ht, hacc⟩, hothers⟩, hkind, hparts, hord, hdst, hwr, hval, hnq, hsvc⟩
    have hpath : x.pathOf h ≠ [] := List.ne_nil_of_mem hl
    have hctx := State.ctxOf_some hx hturn hpath e
    have hgp' : ([(.p e.f.gp, 1)].any fun o : Operand × Nat => o.1.meets x.unit o.2 d.op d.words) = false := by
      simpa using hgp
    have hgroup : l ∈ (s.ctxFor s.cur x h e).group := by
      refine List.mem_filter.mpr ⟨hl, ?_⟩
      have : x.threads.getD l .empty = t := by simp [List.getD, ht]
      rw [this, hguard]
    have hpath' : ∀ {y : Wave}, y.pathOf h = x.pathOf h → (y.returned l a d v).pathOf h ≠ [] := fun hy => by
      rw [Wave.returned_pathOf, hy]; exact hpath
    refine ⟨fun hwin => ?_, fun hwin hnamed => ?_, fun hwin hnamed hr hq hd => ?_⟩
    · have hfind := State.returned_find hx l a d v
      have hidle := Wave.returned_idle d v hw.only
      have hturn' : (x.returned l a d v).turn = some h := (Wave.returned_turn d v).trans hturn
      exact State.startOf_settled hx he rfl hfind (Wave.returned_unit d v) hturn' (hpath' rfl) hidle hctx
        (hw.settle_late hwin _ hgp' hl) (State.ctxOf_some hfind hturn' (hpath' rfl) e)
        (State.settle_idle hfind hidle _ _ _)
    · have hnote := hw.noted
      have hlav : (x.updThread l fun t => { t with lav := true }).pathOf h = x.pathOf h := by
        refine Wave.pathOf_congr (fun n => ?_) h
        rw [Wave.updThread_thread, Option.map_map]
        refine congrArg (Option.map · _) (funext fun u => ?_)
        by_cases hn : l = n <;> simp [hn, Thread.ready]
      exact State.startOf_settled hx he rfl (State.returned_find hnote.wave l a d v) (Wave.returned_unit d v)
        ((Wave.returned_turn d v).trans hturn) (hpath' hlav) (Wave.returned_idle d v hnote.only) hctx
        (hw.settle_free hwin _ hgp' _) hctx (hw.settle_named hwin _ hnamed hgroup)
    · refine ⟨_, hctx, ?_, ?_⟩
      · change s.startOf i = _
        rw [State.startOf_eq hx he]
        exact State.start_begins hctx rfl (hw.settle_free hwin _ hgp' _) (hw.settle_free hwin _ hnamed _) hr hq hd
      · let c := s.ctxFor s.cur x h e
        obtain ⟨-, -, -, -, -, hlav, -, hin, -⟩ := c.goesOn_spec l t
        refine ⟨c.goesOn l t, State.thread?_eq (State.begin_find (c := c) hx) ((c.issued_thread l x).trans (congrArg _ ht)), ?_,
          hlav⟩
        rw [(hin hl).2.2.2]
        simp [Thread.countWindow, hacc, hdst]

end Sys2Proof.Machine
end

section
/-! PROOFS. Arrival at `join` and `wsync`, the completion of their instances, and `exit` (O27). -/

namespace Sys2Proof.Machine

open Sys2Proof

/-! ### Masks of lanes -/

theorem maskOf_foldl_getLsbD (ls : List Nat) (a n : Nat) (hls : ls.Nodup) (hlt : ∀ l ∈ ls, l < 32)
    (ha : ∀ l ∈ ls, (BitVec.ofNat 32 a).getLsbD l = false) :
    (BitVec.ofNat 32 (ls.foldl (fun a l => a + 2 ^ (l % 32)) a)).getLsbD n =
      ((BitVec.ofNat 32 a).getLsbD n || decide (n ∈ ls)) := by
  induction ls generalizing a with
  | nil => simp
  | cons l ls ih =>
    obtain ⟨hnot, hnd⟩ := List.nodup_cons.mp hls
    have hl : l % 32 = l := Nat.mod_eq_of_lt (hlt l (by simp))
    have hl32 : l < 32 := hlt l (by simp)
    have hstep : BitVec.ofNat 32 (a + 2 ^ l) = BitVec.ofNat 32 a ||| BitVec.twoPow 32 l := by
      rw [BitVec.ofNat_add, show BitVec.ofNat 32 (2 ^ l) = BitVec.twoPow 32 l from
        BitVec.eq_of_toNat_eq (by rw [BitVec.toNat_ofNat, BitVec.toNat_twoPow])]
      refine BitVec.add_eq_or_of_and_eq_zero _ _ (BitVec.eq_of_getLsbD_eq fun i hi => ?_)
      by_cases hil : i = l
      · simp [hil, ha l]
      · simp [BitVec.getLsbD_twoPow, Ne.symm hil]
    have hbit : ∀ m, (BitVec.ofNat 32 (a + 2 ^ l)).getLsbD m = ((BitVec.ofNat 32 a).getLsbD m || decide (m = l)) := by
      intro m
      rw [hstep, BitVec.getLsbD_or, BitVec.getLsbD_twoPow]
      by_cases hm : m = l
      · simp [hm, hl32]
      · simp [hm, Ne.symm hm]
    have hrest : ∀ m ∈ ls, (BitVec.ofNat 32 (a + 2 ^ l)).getLsbD m = false := by
      intro m hm
      have hne : m ≠ l := fun he => hnot (he ▸ hm)
      rw [hbit, ha m (List.mem_cons_of_mem _ hm), decide_eq_false hne, Bool.or_false]
    rw [List.foldl_cons, hl, ih _ hnd (fun m hm => hlt m (List.mem_cons_of_mem _ hm)) hrest, hbit]
    simp [List.mem_cons, Bool.or_assoc]

/-- The mask of a list of lanes names those of the list. -/
theorem maskHas_maskOf {ls : List Nat} (hls : ls.Nodup) (hlt : ∀ l ∈ ls, l < 32) (n : Nat) :
    maskHas (maskOf ls) n = decide (n ∈ ls) := by
  unfold maskHas maskOf
  rw [maskOf_foldl_getLsbD ls 0 n hls hlt (by simp)]
  simp

/-- The lanes of a list of threads for which a test holds, in ascending order. -/
theorem mem_filterMap_mapIdx {α : Type} (p : α → Bool) (ts : List α) (n : Nat) :
    n ∈ (ts.mapIdx fun l t => if p t then some l else none).filterMap id ↔ ∃ t, ts[n]? = some t ∧ p t = true := by
  rw [List.mem_filterMap]
  constructor
  · rintro ⟨o, ho, hn⟩
    obtain ⟨i, hi⟩ := List.mem_iff_getElem?.mp ho
    rw [List.getElem?_mapIdx] at hi
    obtain ⟨t, ht, hto⟩ := Option.map_eq_some_iff.mp hi
    by_cases hp : p t = true
    · rw [if_pos hp] at hto
      rw [← hto] at hn
      cases hn
      exact ⟨t, ht, hp⟩
    · rw [if_neg hp] at hto
      rw [← hto] at hn
      cases hn
  · rintro ⟨t, ht, hp⟩
    refine ⟨some n, List.mem_iff_getElem?.mpr ⟨n, ?_⟩, rfl⟩
    rw [List.getElem?_mapIdx, ht, Option.map_some, if_pos hp]

theorem nodup_filterMap_mapIdx {α : Type} (p : α → Bool) (ts : List α) :
    ((ts.mapIdx fun l t => if p t then some l else none).filterMap id).Nodup := by
  suffices h : ∀ (ts : List α) (k : Nat),
      ((ts.mapIdx fun l t => if p t then some (l + k) else none).filterMap id).Nodup ∧
      ∀ n ∈ (ts.mapIdx fun l t => if p t then some (l + k) else none).filterMap id, k ≤ n from (h ts 0).1
  intro ts
  induction ts with
  | nil => simp
  | cons t ts ih =>
    intro k
    obtain ⟨hnd, hge⟩ := ih (k + 1)
    simp only [List.mapIdx_cons, Nat.zero_add, Nat.add_assoc, Nat.add_comm 1 k]
    by_cases hp : p t = true
    · rw [if_pos hp]
      refine ⟨List.nodup_cons.mpr ⟨fun hk => ?_, hnd⟩, fun n hn => ?_⟩
      · exact absurd (hge k hk) (by omega)
      · rcases List.mem_cons.mp hn with he | hn
        · exact he ▸ Nat.le_refl k
        · exact Nat.le_of_succ_le (hge n hn)
    · rw [if_neg hp]
      exact ⟨hnd, fun n hn => Nat.le_of_succ_le (hge n hn)⟩

/-- A lane is in the mask of the exited lanes where its thread has exited. -/
theorem Wave.maskHas_exitedMask {x : Wave} (hx : x.threads.length ≤ 32) (n : Nat) :
    maskHas x.exitedMask n = true ↔ ∃ t, x.threads[n]? = some t ∧ t.st = .exited := by
  have hmem := mem_filterMap_mapIdx Thread.done x.threads
  unfold Wave.exitedMask
  rw [maskHas_maskOf (nodup_filterMap_mapIdx _ _), decide_eq_true_iff, hmem]
  · simp [Thread.done]
  · intro l hl
    obtain ⟨t, ht, -⟩ := (hmem l).mp hl
    exact lt_of_lt_of_le (List.getElem?_eq_some_iff.mp ht).1 hx

/-- Every lane of a mask has arrived or exited. -/
theorem Wave.allIn_iff {x : Wave} (hx : x.threads.length ≤ 32) (m a : Word) :
    x.allIn m a = true ↔ ∀ n, n < 32 → maskHas m n = true → maskHas a n = true ∨
      ∃ t, x.threads[n]? = some t ∧ t.st = .exited := by
  unfold Wave.allIn
  rw [beq_iff_eq]
  constructor
  · intro h n hn hm
    have hbit := congrArg (fun b : Word => b.getLsbD n) h
    rw [← Wave.maskHas_exitedMask hx]
    unfold maskHas at hm ⊢
    rw [BitVec.getLsbD_and, BitVec.getLsbD_not, BitVec.getLsbD_or, hm, decide_eq_true hn] at hbit
    simpa [Bool.or_eq_true, Decidable.or_iff_not_imp_left] using hbit
  · intro h
    refine BitVec.eq_of_getLsbD_eq fun n hn => ?_
    have hbit := h n hn
    rw [← Wave.maskHas_exitedMask hx] at hbit
    unfold maskHas at hbit
    cases hm : m.getLsbD n with
    | false => simp [hm]
    | true => rcases hbit hm with ha | he <;> simp [*]


/-! ### The turn leaves the threads and the instances -/

section

variable (x : Wave)

/-- A turn given changes the turn, its count, its limit and the retained operands. -/
theorem Wave.fixTurn_eq : x.fixTurn = { x with
    turn := x.fixTurn.turn, fair := x.fixTurn.fair, limit := x.fixTurn.limit, retain := x.fixTurn.retain } := by
  unfold Wave.fixTurn
  split
  · rfl
  · split <;> rfl

@[simp] theorem Wave.fixTurn_threads : x.fixTurn.threads = x.threads := by rw [Wave.fixTurn_eq]

@[simp] theorem Wave.fixTurn_joins : x.fixTurn.joins = x.joins := by rw [Wave.fixTurn_eq]

@[simp] theorem Wave.fixTurn_syncs : x.fixTurn.syncs = x.syncs := by rw [Wave.fixTurn_eq]

@[simp] theorem Wave.fixTurn_arrs : x.fixTurn.arrs = x.arrs := by rw [Wave.fixTurn_eq]

@[simp] theorem Wave.fixTurn_tile : x.fixTurn.tile = x.tile := by rw [Wave.fixTurn_eq]

end

/-! ### A thread that completed instances resume -/

/-- A thread after the completion of one of the instances it waits in: it goes on after its instruction. -/
def Thread.resumed (t : Thread) : Thread :=
  match t.st with
  | .blocked (.join _) | .blocked (.wsync _) => { t.countWindow with st := .running, pc := t.pc + 8, popped := [] }
  | _ => t

section

variable (t : Thread)

theorem Thread.resumed_cases : t.resumed = t ∨
    t.resumed = { t.countWindow with st := .running, pc := t.pc + 8, popped := [] } ∧ ∃ y, t.st = .blocked y := by
  unfold Thread.resumed
  split
  · exact .inr ⟨rfl, _, ‹_›⟩
  · exact .inr ⟨rfl, _, ‹_›⟩
  · exact .inl rfl

theorem Thread.resumed_join {k : Nat} (h : t.st = .blocked (.join k)) :
    t.resumed = { t.countWindow with st := .running, pc := t.pc + 8, popped := [] } := by
  unfold Thread.resumed
  rw [h]

theorem Thread.resumed_wsync {m : Word} (h : t.st = .blocked (.wsync m)) :
    t.resumed = { t.countWindow with st := .running, pc := t.pc + 8, popped := [] } := by
  unfold Thread.resumed
  rw [h]

@[simp] theorem Thread.resumed_done : t.resumed.done = t.done := by
  rcases t.resumed_cases with h | ⟨h, y, hy⟩
  · rw [h]
  · rw [h]
    simp [Thread.done, hy]

@[simp] theorem Thread.resumed_resumed : t.resumed.resumed = t.resumed := by
  rcases t.resumed_cases with h | ⟨h, -⟩
  · rw [h, h]
  · rw [h]
    rfl

theorem Thread.resumed_of_done (h : t.done = true) : t.resumed = t := by
  rcases t.resumed_cases with hr | ⟨-, y, hy⟩
  · exact hr
  · simp [Thread.done, hy] at h

end

/-- The second wave is the first with the threads resumed that some of the masks name, and with instances freed. -/
structure Wave.Resumes (x y : Wave) (done : List Word) : Prop where
  threads : ∀ l, y.threads[l]? = (x.threads[l]?).map fun t => if done.any (maskHas · l) then t.resumed else t
  arrs : y.arrs = x.arrs
  tile : y.tile = x.tile

theorem Wave.resume_thread (x : Wave) (a : Word) (l : Nat) :
    (x.resume a).threads[l]? = (x.threads[l]?).map fun t => if maskHas a l then t.resumed else t := by
  unfold Wave.resume
  rw [Wave.fixTurn_threads, List.getElem?_mapIdx]
  rfl

@[simp] theorem Wave.resume_joins (x : Wave) (a : Word) : (x.resume a).joins = x.joins := Wave.fixTurn_joins _

@[simp] theorem Wave.resume_syncs (x : Wave) (a : Word) : (x.resume a).syncs = x.syncs := Wave.fixTurn_syncs _

@[simp] theorem Wave.resume_arrs (x : Wave) (a : Word) : (x.resume a).arrs = x.arrs := Wave.fixTurn_arrs _

@[simp] theorem Wave.resume_tile (x : Wave) (a : Word) : (x.resume a).tile = x.tile := Wave.fixTurn_tile _

/-- Which lanes have arrived or exited depends on the threads by whether each has exited. -/
theorem Wave.allIn_congr {x y : Wave} (h : ∀ l : Nat, (y.threads[l]?).map Thread.done = (x.threads[l]?).map Thread.done)
    (m a : Word) : y.allIn m a = x.allIn m a := by
  have hmask : ∀ z : Wave, z.exitedMask =
      maskOf (((z.threads.map Thread.done).mapIdx fun l b => if b then some l else none).filterMap id) := by
    intro z
    unfold Wave.exitedMask
    refine congrArg (fun l => maskOf (List.filterMap id l)) (List.ext_getElem? fun i => ?_)
    simp only [List.getElem?_mapIdx, List.getElem?_map, Option.map_map, Function.comp_def]
  have hmap : y.threads.map Thread.done = x.threads.map Thread.done :=
    List.ext_getElem? fun l => by rw [List.getElem?_map, List.getElem?_map, h l]
  unfold Wave.allIn
  rw [hmask x, hmask y, hmap]

namespace Wave.Resumes

variable {x y : Wave} {done : List Word}

theorem refl (x : Wave) : x.Resumes x [] where
  threads l := by simp
  arrs := rfl
  tile := rfl

theorem trans {z : Wave} {more : List Word} (h : x.Resumes y done) (h2 : y.Resumes z more) :
    x.Resumes z (done ++ more) where
  threads l := by
    rw [h2.threads, h.threads, Option.map_map]
    refine congrArg (Option.map · _) (funext fun t => ?_)
    rw [List.any_append, Function.comp_apply]
    cases done.any (maskHas · l) <;> cases more.any (maskHas · l) <;> simp
  arrs := h2.arrs.trans h.arrs
  tile := h2.tile.trans h.tile

theorem allIn (h : x.Resumes y done) (m a : Word) : y.allIn m a = x.allIn m a := by
  refine Wave.allIn_congr (fun l => ?_) m a
  rw [h.threads, Option.map_map]
  refine congrArg (Option.map · _) (funext fun t => ?_)
  rw [Function.comp_apply]
  split
  · exact t.resumed_done
  · rfl

theorem of_resume {y : Wave} (a : Word) (hthreads : y.threads = x.threads) (harrs : y.arrs = x.arrs)
    (htile : y.tile = x.tile) : x.Resumes (y.resume a) [a] where
  threads l := by
    rw [Wave.resume_thread, hthreads]
    simp
  arrs := by rw [Wave.resume_arrs, harrs]
  tile := by rw [Wave.resume_tile, htile]

/-- A thread that no mask names is as it was. -/
theorem same (h : x.Resumes y done) {l : Nat} {t : Thread} (ht : x.threads[l]? = some t)
    (hl : ∀ a ∈ done, maskHas a l = false) : y.threads[l]? = some t := by
  rw [h.threads, ht, Option.map_some, if_neg]
  simpa using hl

/-- A thread that a mask names is resumed. -/
theorem named (h : x.Resumes y done) {l : Nat} {t : Thread} (ht : x.threads[l]? = some t) {a : Word}
    (ha : a ∈ done) (hl : maskHas a l = true) : y.threads[l]? = some t.resumed := by
  rw [h.threads, ht, Option.map_some, if_pos (List.any_eq_true.mpr ⟨a, ha, hl⟩)]

/-- Whether a thread has exited does not change, and one that has is as it was. -/
theorem find (h : x.Resumes y done) {l : Nat} {t : Thread} (ht : x.threads[l]? = some t) :
    ∃ u, y.threads[l]? = some u ∧ u.done = t.done ∧ (t.done = true → u = t) := by
  rw [h.threads, ht]
  refine ⟨_, rfl, ?_⟩
  split
  · exact ⟨t.resumed_done, t.resumed_of_done⟩
  · exact ⟨rfl, fun _ => rfl⟩

end Wave.Resumes

/-! ### The instances that are complete are freed -/

section

variable {ι : Type} (mask arrived : ι → Word) (free : ι → Wave → Wave)

/-- The instances of a list that are complete are freed one after another, and their threads resume. -/
def Wave.freeAll (es : List ι) (x : Wave) : Wave :=
  es.foldl (fun y e => if y.allIn (mask e) (arrived e) then (free e y).resume (arrived e) else y) x

variable {mask arrived free}

theorem Wave.freeAll_resumes (hfree : ∀ e y, (free e y).threads = y.threads ∧ (free e y).arrs = y.arrs ∧
    (free e y).tile = y.tile) (es : List ι) (x : Wave) :
    x.Resumes (x.freeAll mask arrived free es) ((es.filter fun e => x.allIn (mask e) (arrived e)).map arrived) := by
  unfold Wave.freeAll
  induction es generalizing x with
  | nil => exact .refl x
  | cons e es ih =>
    obtain ⟨hthreads, harrs, htile⟩ := hfree e x
    rw [List.foldl_cons]
    by_cases hfull : x.allIn (mask e) (arrived e) = true
    · have hone := Wave.Resumes.of_resume (arrived e) hthreads harrs htile
      have hrest := hone.trans (ih ((free e x).resume (arrived e)))
      simp only [hone.allIn] at hrest
      rw [if_pos hfull, List.filter_cons_of_pos (p := fun e => x.allIn (mask e) (arrived e)) hfull, List.map_cons]
      exact hrest
    · rw [if_neg hfull, List.filter_cons_of_neg (p := fun e => x.allIn (mask e) (arrived e)) hfull]
      exact ih x

/-- What is left of a list of instances, of which each that is freed drops some. -/
theorem Wave.freeAll_left {β : Type} {get : Wave → List β} {keep : ι → β → Bool}
    (hfree : ∀ e y, (free e y).threads = y.threads ∧ (free e y).arrs = y.arrs ∧ (free e y).tile = y.tile)
    (hget : ∀ e y, get (free e y) = (get y).filter (keep e)) (hres : ∀ y a, get (y.resume a) = get y)
    (es : List ι) (x : Wave) : get (x.freeAll mask arrived free es) =
      (get x).filter fun b => es.all fun e => !x.allIn (mask e) (arrived e) || keep e b := by
  unfold Wave.freeAll
  induction es generalizing x with
  | nil => exact (List.filter_eq_self.mpr fun _ _ => rfl).symm
  | cons e es ih =>
    obtain ⟨hthreads, harrs, htile⟩ := hfree e x
    rw [List.foldl_cons]
    by_cases hfull : x.allIn (mask e) (arrived e) = true
    · have hone := Wave.Resumes.of_resume (arrived e) hthreads harrs htile
      rw [if_pos hfull, ih, hres, hget, List.filter_filter]
      simp only [hone.allIn, List.all_cons, hfull, Bool.not_true, Bool.false_or, Bool.and_comm]
    · rw [if_neg hfull, ih]
      simp only [List.all_cons, hfull, Bool.not_false, Bool.true_or, Bool.true_and]

end

/-- The arrivals at a mask register freed. -/
def Wave.freeJoin (e : Nat × JoinInst) (y : Wave) : Wave := { y with joins := y.joins.del e.1 }

/-- The arrivals at a `wsync` freed. -/
def Wave.freeSync (e : SyncInst) (y : Wave) : Wave := { y with syncs := y.syncs.filter fun z => !decide (z = e) }

section

variable (x : Wave)

theorem Wave.joinsDone_eq : x.joinsDone = x.freeAll (fun e => e.2.mask) (fun e => e.2.arrived)
    Wave.freeJoin x.joins := rfl

theorem Wave.syncsDone_eq : x.syncsDone = x.freeAll (fun e => e.mask) (fun e => e.arrived)
    Wave.freeSync x.syncs := rfl

theorem Wave.joinsDone_resumes : x.Resumes x.joinsDone
    ((x.joins.filter fun e => x.allIn e.2.mask e.2.arrived).map fun e => e.2.arrived) :=
  Wave.freeAll_resumes (free := Wave.freeJoin) (fun _ _ => ⟨rfl, rfl, rfl⟩) x.joins x

theorem Wave.syncsDone_resumes : x.Resumes x.syncsDone
    ((x.syncs.filter fun e => x.allIn e.mask e.arrived).map fun e => e.arrived) :=
  Wave.freeAll_resumes (free := Wave.freeSync) (fun _ _ => ⟨rfl, rfl, rfl⟩) x.syncs x

theorem Wave.joinsDone_syncs : x.joinsDone.syncs = x.syncs := by
  rw [Wave.joinsDone_eq, Wave.freeAll_left (free := Wave.freeJoin) (get := Wave.syncs) (keep := fun _ _ => true) (fun _ _ => ⟨rfl, rfl, rfl⟩)
    (fun _ _ => (List.filter_eq_self.mpr fun _ _ => rfl).symm) Wave.resume_syncs]
  simp

theorem Wave.syncsDone_joins : x.syncsDone.joins = x.joins := by
  rw [Wave.syncsDone_eq, Wave.freeAll_left (free := Wave.freeSync) (get := Wave.joins) (keep := fun _ _ => true) (fun _ _ => ⟨rfl, rfl, rfl⟩)
    (fun _ _ => (List.filter_eq_self.mpr fun _ _ => rfl).symm) Wave.resume_joins]
  simp

/-- The instances of `join` that stay are those that are not complete: each has a mask register of its own. -/
theorem Wave.joinsDone_joins (h : x.joins.Pairwise fun e f => e.1 ≠ f.1) :
    x.joinsDone.joins = x.joins.filter fun e => !x.allIn e.2.mask e.2.arrived := by
  rw [Wave.joinsDone_eq, Wave.freeAll_left (free := Wave.freeJoin) (get := Wave.joins) (keep := fun e b => b.1 != e.1)
    (fun _ _ => ⟨rfl, rfl, rfl⟩) (fun _ _ => rfl) Wave.resume_joins]
  refine List.filter_congr fun b hb => ?_
  have hsymm : Std.Symm fun e f : Nat × JoinInst => e.1 ≠ f.1 := ⟨fun _ _ => Ne.symm⟩
  have hsame : ∀ e ∈ x.joins, e.1 = b.1 → e = b := fun e he heq => by
    by_contra hne
    exact h.forall he hb hne heq
  rw [Bool.eq_iff_iff, List.all_eq_true]
  constructor
  · intro hall
    simpa using hall b hb
  · intro hb' e he
    by_cases heq : e.1 = b.1
    · rw [hsame e he heq, hb', Bool.true_or]
    · simp [Ne.symm heq]

/-- The instances of `wsync` that stay are those that are not complete. -/
theorem Wave.syncsDone_syncs : x.syncsDone.syncs = x.syncs.filter fun e => !x.allIn e.mask e.arrived := by
  rw [Wave.syncsDone_eq, Wave.freeAll_left (free := Wave.freeSync) (get := Wave.syncs) (keep := fun e b => !decide (b = e))
    (fun _ _ => ⟨rfl, rfl, rfl⟩) (fun _ _ => rfl) Wave.resume_syncs]
  refine List.filter_congr fun b hb => ?_
  rw [Bool.eq_iff_iff, List.all_eq_true]
  constructor
  · intro hall
    simpa using hall b hb
  · intro hb' e he
    by_cases heq : b = e
    · rw [← heq, hb', Bool.true_or]
    · simp [heq]

end


/-! ### Arrival -/

section

variable {r r1 : State} {c : Ctx} {x : Wave} {l k : Nat} {V : Word}

theorem State.thread?_of_find {w : Nat} (hx : r.waves.find w = some x) : r.thread? w l = x.threads[l]? := by
  unfold State.thread?
  rw [hx, Option.bind_some]

/-- A thread that has issued nothing has nothing to perform. -/
theorem State.drain_idle {w : Nat} {u : Thread} (h : r.thread? w l = some u) (hu : u.accs = []) :
    r.drain w l = some r := by
  unfold State.drain State.drainIf
  rw [h]
  simp only [hu, List.filter_nil, List.foldl_nil]

theorem State.returnAll_idle {w : Nat} {u : Thread} (h : r.thread? w l = some u) (hu : u.accs = []) :
    r.returnAll w l = some r := by
  unfold State.returnAll
  rw [h]
  simp only [hu, List.foldl_nil, Option.bind_some]
  exact State.drain_idle h hu

theorem State.exitLane_gone (h : r.returnAll c.w l = some r1) : r.exitLane c l = .gone (r1.exitThread c.w l) := by
  unfold State.exitLane
  rw [h]

/-- A mask that does not name the lane faults at both. -/
theorem State.joinLane_outside (h : maskHas V l = false) : r.joinLane c l k V = .fault r (maskFault 2 V) ∧
    r.syncLane c l V = .fault r (maskFault 2 V) := by
  unfold State.joinLane State.syncLane
  simp [h]

theorem State.joinLane_mask (hx : r.waves.find c.w = some x) (hl : maskHas V l = true) {j : JoinInst}
    (hj : x.joins.find k = some j) (hm : j.mask ≠ V) : r.joinLane c l k V = .fault r (maskFault 1 j.mask) := by
  unfold State.joinLane
  simp [hl, hx, hj, hm]

theorem State.joinLane_pc (hx : r.waves.find c.w = some x) (hl : maskHas V l = true) {j : JoinInst}
    (hj : x.joins.find k = some j) (hm : j.mask = V) (hpc : j.pc ≠ c.pc) :
    r.joinLane c l k V = .fault r (maskFault 3 j.mask) := by
  unfold State.joinLane
  simp [hl, hx, hj, hm, hpc]

theorem State.joinLane_first (hx : r.waves.find c.w = some x) (hl : maskHas V l = true)
    (hj : x.joins.find k = none) (hd : r.drain c.w l = some r1) :
    r.joinLane c l k V = .block { r1 with waves := r1.waves.upd c.w fun x =>
      { x with joins := x.joins.ins k ⟨V, c.pc, 0 ||| maskOf [l]⟩ } } (.join k) := by
  unfold State.joinLane
  simp [hl, hx, hj, hd]

theorem State.joinLane_again (hx : r.waves.find c.w = some x) (hl : maskHas V l = true) {j : JoinInst}
    (hj : x.joins.find k = some j) (hm : j.mask = V) (hpc : j.pc = c.pc) (hd : r.drain c.w l = some r1) :
    r.joinLane c l k V = .block { r1 with waves := r1.waves.upd c.w fun x =>
      { x with joins := x.joins.ins k { j with arrived := j.arrived ||| maskOf [l] } } } (.join k) := by
  unfold State.joinLane
  simp [hl, hx, hj, hm, hpc, hd]

theorem State.syncLane_overlap (hx : r.waves.find c.w = some x) (hl : maskHas V l = true) {j : SyncInst}
    (hj : (x.syncs.find? fun j => j.mask &&& V != 0 && j.mask != V) = some j) :
    r.syncLane c l V = .fault r (maskFault 1 j.mask) := by
  unfold State.syncLane
  rw [hx, if_neg (by simp [hl])]
  simp only [hj]

theorem State.syncLane_arrives (hx : r.waves.find c.w = some x) (hl : maskHas V l = true)
    (hj : (x.syncs.find? fun j => j.mask &&& V != 0 && j.mask != V) = none) (hd : r.drain c.w l = some r1) :
    r.syncLane c l V = .block { r1 with waves := r1.waves.upd c.w fun x => x.arriveSync V l } (.wsync V) := by
  unfold State.syncLane
  rw [hx, if_neg (by simp [hl])]
  simp only [hj, hd]
  rfl

end

/-! ### Completion -/

/-- A thread that goes on after the instruction at which it waited. -/
def Thread.goesOnFrom (t u : Thread) : Prop :=
  u.st = .running ∧ u.pc = t.pc + 8 ∧ u.v = t.v ∧ u.preds = t.preds ∧ u.stack = t.stack

theorem Thread.goesOnFrom_join {t : Thread} {k : Nat} (h : t.st = .blocked (.join k)) : t.goesOnFrom t.resumed := by
  rw [t.resumed_join h]
  exact ⟨rfl, rfl, rfl, rfl, rfl⟩

theorem Thread.goesOnFrom_wsync {t : Thread} {m : Word} (h : t.st = .blocked (.wsync m)) : t.goesOnFrom t.resumed := by
  rw [t.resumed_wsync h]
  exact ⟨rfl, rfl, rfl, rfl, rfl⟩

/-- What a completion does to a thread: it goes on where one of the complete instances it has arrived at holds it, and is as it was where
none does. -/
theorem Wave.Resumes.thread {ι : Type} {full : ι → Bool} {arrived : ι → Word} {es : List ι} {x y : Wave}
    (h : x.Resumes y ((es.filter full).map arrived)) {l : Nat} {t : Thread} (ht : x.threads[l]? = some t) :
    ∃ u, y.threads[l]? = some u ∧ ((∃ e ∈ es, full e = true ∧ maskHas (arrived e) l = true) → u = t.resumed) ∧
      ((∀ e ∈ es, full e = true → maskHas (arrived e) l = false) → u = t) := by
  by_cases hex : ∃ e ∈ es, full e = true ∧ maskHas (arrived e) l = true
  · obtain ⟨e, he, hfull, hl⟩ := hex
    refine ⟨_, h.named ht (List.mem_map_of_mem (List.mem_filter.mpr ⟨he, hfull⟩)) hl, fun _ => rfl, fun hall => ?_⟩
    rw [hall e he hfull] at hl
    cases hl
  · refine ⟨_, h.same ht fun a ha => ?_, fun hex' => absurd hex' hex, fun _ => rfl⟩
    obtain ⟨e, he, rfl⟩ := List.mem_map.mp ha
    obtain ⟨hmem, hfull⟩ := List.mem_filter.mp he
    exact Bool.eq_false_iff.mpr fun hl => hex ⟨e, hmem, hfull, hl⟩

/-! ### The exit of a thread -/

/-- A thread that has exited: its reservation, its return addresses, its spill pointer and what it has issued are discarded. -/
def Thread.gone (t : Thread) : Thread :=
  { t with st := .exited, resv := none, stack := [], spillp := t.spillb, accs := [] }

/-- A wave of which one lane exits, with the `join`s and `wsync`s that this completes. -/
def Wave.exitLane (x : Wave) (l : Nat) : Wave := (x.updThread l Thread.gone).joinsDone.syncsDone.fixTurn

section

variable {x : Wave} {l : Nat}

theorem Wave.exitLane_resumes : ∃ done, (x.updThread l Thread.gone).Resumes (x.exitLane l) done := by
  have h := (x.updThread l Thread.gone).joinsDone_resumes.trans (Wave.syncsDone_resumes _)
  exact ⟨_, fun n => (congrArg (fun ts : List Thread => ts[n]?) (Wave.fixTurn_threads _)).trans (h.threads n),
    (Wave.fixTurn_arrs _).trans h.arrs, (Wave.fixTurn_tile _).trans h.tile⟩

theorem Wave.exitLane_arrs : (x.exitLane l).arrs = x.arrs := by
  obtain ⟨_, h⟩ := x.exitLane_resumes (l := l)
  exact h.arrs

theorem Wave.exitLane_tile : (x.exitLane l).tile = x.tile := by
  obtain ⟨_, h⟩ := x.exitLane_resumes (l := l)
  exact h.tile

/-- The lane itself is Exited. -/
theorem Wave.exitLane_same {t : Thread} (ht : x.threads[l]? = some t) : (x.exitLane l).threads[l]? = some t.gone := by
  obtain ⟨_, h⟩ := x.exitLane_resumes (l := l)
  have hgone : (x.updThread l Thread.gone).threads[l]? = some t.gone := by
    rw [Wave.updThread_thread, ht, Option.map_some, if_pos rfl]
  obtain ⟨u, hu, -, hsame⟩ := h.find hgone
  rw [hu, hsame rfl]

/-- Another lane has exited if it had before. -/
theorem Wave.exitLane_other {n : Nat} {t : Thread} (hn : n ≠ l) (ht : x.threads[n]? = some t) :
    ∃ u, (x.exitLane l).threads[n]? = some u ∧ u.done = t.done := by
  obtain ⟨_, h⟩ := x.exitLane_resumes (l := l)
  have hsame : (x.updThread l Thread.gone).threads[n]? = some t := by
    rw [Wave.updThread_thread, ht, Option.map_some, if_neg hn.symm]
  obtain ⟨u, hu, hdone, -⟩ := h.find hsame
  exact ⟨u, hu, hdone⟩

theorem Wave.exitLane_lives (h : ∃ n t, n ≠ l ∧ x.threads[n]? = some t ∧ t.done = false) :
    (x.exitLane l).threads.all Thread.done = false := by
  obtain ⟨n, t, hn, ht, hdone⟩ := h
  obtain ⟨u, hu, hud⟩ := Wave.exitLane_other hn ht
  exact List.all_eq_false.mpr ⟨u, List.mem_of_getElem? hu, by rw [hud, hdone]; exact Bool.false_ne_true⟩

end

section

variable {r : State} {w l : Nat} {x : Wave}

theorem State.exitThread_eq (hx : r.waves.find w = some x) : r.exitThread w l =
    ((({ r with waves := r.waves.ins w (x.exitLane l) } : State).arrsByExit w).pxWake w).waveEnd w := by
  unfold State.exitThread NMap.upd
  rw [hx]
  rfl

/-- A wave of no tile wakes nothing at its pixel locks. -/
theorem State.pxWake_noTile (hx : r.waves.find w = some x) (ht : x.tile = none) : r.pxWake w = r := by
  unfold State.pxWake
  rw [hx]
  simp only [ht]

/-- A wave of which a thread lives stays resident. -/
theorem State.waveEnd_lives (hx : r.waves.find w = some x) (ht : x.threads.all Thread.done = false) : r.waveEnd w = r := by
  unfold State.waveEnd
  rw [hx]
  simp only [ht, Bool.false_eq_true, if_false]

/-- The exit ends where the arrivals that it completes leave the wave, of which another thread lives. -/
theorem State.exitThread_of_arrs {r1 : State} {y : Wave} (hx : r.waves.find w = some x) (htile : x.tile = none)
    (hlive : ∃ n t, n ≠ l ∧ x.threads[n]? = some t ∧ t.done = false)
    (ha : ({ r with waves := r.waves.ins w (x.exitLane l) } : State).arrsByExit w = r1)
    (hy : r1.waves.find w = some y) (hyt : y.threads = (x.exitLane l).threads) (hytile : y.tile = (x.exitLane l).tile) :
    r.exitThread w l = r1 := by
  rw [State.exitThread_eq hx, ha, State.pxWake_noTile hy (by rw [hytile, Wave.exitLane_tile, htile]),
    State.waveEnd_lives hy (by rw [hyt, Wave.exitLane_lives hlive])]

theorem State.arrsByExit_none {y : Wave} (h : ∀ a ∈ y.arrs, y.allIn a.mask a.arrived = false) :
    ({ r with waves := r.waves.ins w y } : State).arrsByExit w = { r with waves := r.waves.ins w y } := by
  have hpart : y.arrs.partition (fun a => y.allIn a.mask a.arrived) = ([], y.arrs) := by
    rw [List.partition_eq_filter_filter, List.filter_eq_nil_iff.mpr fun a ha => Bool.eq_false_iff.mp (h a ha),
      List.filter_eq_self.mpr fun a ha => by rw [Function.comp_apply, h a ha]; rfl]
  unfold State.arrsByExit
  rw [NMap.find_ins_same]
  simp only [hpart, List.foldl_nil]
  unfold State.setWave
  rw [NMap.ins_ins]

theorem State.arrsByExit_one {y : Wave} {a : ArrInst} (ha : y.arrs = [a]) (h : y.allIn a.mask a.arrived = true) :
    ({ r with waves := r.waves.ins w y } : State).arrsByExit w =
      ({ r with waves := r.waves.ins w { y with arrs := [] } } : State).barArriveOrDrop a.bar := by
  have hpart : y.arrs.partition (fun a => y.allIn a.mask a.arrived) = ([a], []) := by
    rw [ha, List.partition_eq_filter_filter]
    simp [h]
  unfold State.arrsByExit
  rw [NMap.find_ins_same]
  simp only [hpart, List.foldl_cons, List.foldl_nil]
  unfold State.setWave
  rw [NMap.ins_ins]

/-- An arrival with nothing pending is dropped. -/
theorem State.barArriveOrDrop_drops {b : BarRef} (hp : (r.bar b).pend = 0) (hl : (r.bar b).blnd ≠ (r.bar b).btgt) :
    r.barArriveOrDrop b = r.putBar b { r.bar b with fltc := true } := by
  unfold State.barArriveOrDrop State.barArrive
  simp only [hp, if_true]
  unfold State.barStep
  exact if_neg fun h => hl h.2

/-- An arrival that does not complete the phase. -/
theorem State.barArriveOrDrop_arrives {b : BarRef} (hp : (r.bar b).pend ≠ 0)
    (hl : (r.bar b).pend ≠ 1 ∨ (r.bar b).blnd ≠ (r.bar b).btgt) :
    r.barArriveOrDrop b = r.putBar b { r.bar b with pend := (r.bar b).pend - 1 } := by
  unfold State.barArriveOrDrop State.barArrive
  simp only [hp, if_false]
  unfold State.barStep
  refine if_neg fun h => ?_
  obtain ⟨h0, h1⟩ := h
  rcases hl with hl | hl
  · exact hl (by have : (r.bar b).pend - 1 = 0 := h0; omega)
  · exact hl h1

end

/-! ### The end of a wave -/

/-- A wave is not resident, and stands among those that have ended. -/
def State.hasEnded (s : State) (w : Nat) (x : Wave) : Prop := s.waves.find w = none ∧ s.ended.find w = some x

namespace State.hasEnded

variable {s : State} {w : Nat} {x : Wave}

theorem wakeCore (h : s.hasEnded w x) (g : Option Nat) (b : WakeBit) : (s.wakeCore g b).hasEnded w x := by
  unfold State.wakeCore
  split
  · extract_lets c
    split <;> exact h
  · exact h

theorem wakeWhere (h : s.hasEnded w x) (v : Nat) (b : WakeBit) (cond : Why → Bool) : (s.wakeWhere v b cond).hasEnded w x := by
  unfold State.wakeWhere
  split
  · exact h
  · rename_i y hy
    have hv : w ≠ v := by
      rintro rfl
      rw [h.1] at hy
      cases hy
    extract_lets lanes
    split
    · exact h
    · refine wakeCore (s := s.setWave v _) ⟨?_, h.2⟩ _ _
      exact (NMap.find_ins_ne _ _ hv).trans h.1

theorem freeDecisions (h : s.hasEnded w x) (wg : Nat) : (s.freeDecisions wg).hasEnded w x :=
  foldl_keeps (fun s : State => s.hasEnded w x) _ (fun _ v hs => hs.wakeWhere v _ _) _ h

theorem wgGone (h : s.hasEnded w x) (wg : Nat) : (s.wgGone wg).hasEnded w x := by
  unfold State.wgGone
  split
  · exact h
  · extract_lets gone
    split <;> exact h

theorem wgEnd (h : s.hasEnded w x) (wg : Nat) : (s.wgEnd wg).hasEnded w x := by
  unfold State.wgEnd State.groupEnd
  split
  · exact h
  · split
    · split
      · exact h
      · split
        · exact h
        · exact foldl_keeps (fun s : State => s.hasEnded w x) _ (fun _ m hs => hs.wgGone m.2) _ h
    · exact h.wgGone wg

end State.hasEnded

/-- A wave whose threads have all exited is no longer resident, and stands among those that have ended. -/
theorem State.waveEnd_done {r : State} {w : Nat} {x : Wave} (hx : r.waves.find w = some x)
    (hd : x.threads.all Thread.done = true) : (r.waveEnd w).hasEnded w x := by
  unfold State.waveEnd
  rw [hx]
  dsimp only
  rw [if_pos hd]
  have hwave : ((r.owe w).waves.del w).find w = none := by rw [NMap.find_del, if_pos rfl]
  have hended : ((r.owe w).ended.ins w x).find w = some x := NMap.find_ins_same ..
  split
  · split
    · exact State.hasEnded.wgEnd ⟨hwave, hended⟩ x.wg
    · exact ⟨hwave, hended⟩
  · split
    · exact State.hasEnded.freeDecisions ⟨hwave, hended⟩ x.wg
    · exact State.hasEnded.wgEnd ⟨hwave, hended⟩ x.wg

/-- Settles O27: arrival case by case, completion by the fold that frees the complete instances, and exit by the wave it leaves. -/
theorem joinWsyncExit : Obligations.JoinWsyncExit := by
  unfold Obligations.JoinWsyncExit
  refine ⟨fun f s s1 c => ⟨fun n hn hb => ?_, fun hb => run_go hb, fun hb => perLane_lanes hb, fun r r1 l => State.exitLane_gone,
    fun r l u hu he => State.exitLane_gone (State.returnAll_idle hu he), fun r r1 x l k V hx =>
      ⟨State.joinLane_outside, fun hl => ⟨fun j => State.joinLane_mask hx hl, fun j => State.joinLane_pc hx hl,
        State.joinLane_first hx hl, fun j => State.joinLane_again hx hl, fun j => State.syncLane_overlap hx hl,
        State.syncLane_arrives hx hl⟩, fun u => State.drain_idle⟩⟩,
    fun x m a hx => Wave.allIn_iff hx m a, fun x hx => ?_, fun x => ?_, fun r w l x t hx ht htile hlive => ?_,
    fun r w x => State.waveEnd_done⟩
  · refine (run_go hb).trans ?_
    simp only [hn, Ctx.mask]
  · refine ⟨x.joinsDone_joins hx, x.joinsDone_syncs, x.joinsDone_resumes.arrs, fun l t ht => ?_⟩
    obtain ⟨u, hu, hnamed, hsame⟩ := x.joinsDone_resumes.thread ht
    exact ⟨u, hu, fun k hk hex => by rw [hnamed hex]; exact Thread.goesOnFrom_join hk, hsame⟩
  · refine ⟨x.syncsDone_syncs, x.syncsDone_joins, x.syncsDone_resumes.arrs, fun l t ht => ?_⟩
    obtain ⟨u, hu, hnamed, hsame⟩ := x.syncsDone_resumes.thread ht
    exact ⟨u, hu, fun m hm hex => by rw [hnamed hex]; exact Thread.goesOnFrom_wsync hm, hsame⟩
  · refine ⟨⟨_, Wave.exitLane_same ht, rfl, rfl, rfl, rfl, rfl, rfl⟩, fun hnone => ?_, fun a ha hfull => ⟨fun hp hl => ?_, fun hp hl => ?_⟩⟩
    · have hx1 : ∀ a ∈ (x.exitLane l).arrs, (x.exitLane l).allIn a.mask a.arrived = false := by
        rw [Wave.exitLane_arrs]
        exact hnone
      rw [State.exitThread_of_arrs hx htile hlive (State.arrsByExit_none hx1) (NMap.find_ins_same ..) rfl rfl]
      exact ⟨NMap.find_ins_same .., rfl, rfl, fun v hv => NMap.find_ins_ne _ _ hv⟩
    · have hx1 : (x.exitLane l).arrs = [a] := x.exitLane_arrs.trans ha
      exact State.exitThread_of_arrs hx htile hlive
        ((State.arrsByExit_one hx1 hfull).trans (State.barArriveOrDrop_drops hp hl)) (NMap.find_ins_same ..) rfl rfl
    · have hx1 : (x.exitLane l).arrs = [a] := x.exitLane_arrs.trans ha
      exact State.exitThread_of_arrs hx htile hlive
        ((State.arrsByExit_one hx1 hfull).trans (State.barArriveOrDrop_arrives hp hl)) (NMap.find_ins_same ..) rfl rfl

end Sys2Proof.Machine
end

section
/-! PROOFS. A workgroup brought back while its region is killed asks for none of its pages (O45). -/

namespace Sys2Proof.Machine

open Sys2Proof

/-! ### A state in which bringing a workgroup back kills its region

A wave of the region has a load due before what another thread does, of a place that is poisoned. The first wave that comes back to its
slot has the load performed first; the region's fault domain kills for the error, and the workgroup is gone before its pages are
asked for. -/

/-- A running region whose domain kills, with one workgroup of one wave, and one page listed for it. -/
def killingRegion : Region :=
  { Region.loaded with
    rcbKey := 0x30000
    rcb := { Rcb.zero with asr := 0x1000, wgsz := 32, nwg := 1, regs := 32, act := 0, hln := 1, hlb := 0x10000 } }

/-- Its workgroup, saved from core 0. -/
def awayWg : Wg := { Wg.loaded with core := 0, scrSize := 0, tobBanks := 0, accN := 0, group := none, saved := true }

/-- The record of the workgroup. -/
def awayRecord : Saved :=
  { wg := 1, waves := [(0, Wave.loaded .launch 1 0)], caller := none, engines := [], order := 1, image := 0, migrate := false }

/-- A load, due before what another thread does, of a place that is poisoned. -/
def poisonedLoad : Acc :=
  { id := 1, kind := .load .b32 false, space := .glob, parts := [⟨0x20000, 0x20000, 4, .h⟩], ord := .plain, scope := .dev
    tag := none, dst := none, win := 0, val := none, pc := 0, due := [.dev] }

/-- The wave that has issued the load. -/
def loadingWave : Wave :=
  { Wave.loaded .launch 2 0 with threads := [{ Thread.empty with st := .running, accs := [poisonedLoad] }] }

/-- The machine that holds them, with a table that maps the first GiB. -/
def killingState : State :=
  { State.reset with
    waves := [(256, loadingWave)]
    wgs := [(1, awayWg)]
    saved := [(1, awayRecord)]
    regions := [(1, killingRegion)]
    mem := [(0x1000, 0x01), (0x1001, 0x20), (0x2000, 0x17), (0x2006, 0x20)]
    poison := [0x1000] }

/-- What is placed next: the saved workgroup. -/
def awayNext : Next :=
  { saved := true, members := [(0, 1)], foot := ⟨1, 32, 65536, 1, 1⟩, kind := .launch, caller := false, group := none }

/-- Where core 1 has room for it. -/
def awayPlan : Plan :=
  { scrn := 1, tobn := 1, scrBase := 0, scrSize := 65536, tobBank := 0, accBase := 0, spots := [⟨0, 0, 32⟩] }

/-- The machine once the workgroup's waves have come back. -/
def killedState : State := killingState.restoreOne 1 1 awayPlan

theorem killingState_next : killingState.nextFor 1 killingRegion = some awayNext := by decide +kernel

theorem killingState_plans : killingState.plansFor 1 killingRegion awayNext 1 = some [(0, 1, 1, awayPlan)] := by decide +kernel

theorem killingState_offers : killingState.unplaced 1 killingRegion = true ∧ killingState.heldBack (1 / 96) 1 = false ∧
    killingState.offers (1 / 96) 1 = true := by decide +kernel

/-- The page listed for the workgroup would be moved, were it asked for. -/
theorem killedState_asks : (killedState.askHomes killingRegion awayWg 1).homeFwd ≠ [] := by decide +kernel

/-- The moves of pages that are under way after a step. -/
def movesAfter : Host.Outcome State Fault Refusal → List HomeFwd
  | .next s => s.homeFwd
  | _ => []

/-- The workgroup comes back, and no page is asked for: the workgroup is gone. -/
theorem killingState_restores : movesAfter (exec (.workgroupRestore 1 1) killingState) = [] := by decide +kernel

/-! ### What comes after the homes have been asked for -/

theorem State.countFwd_homeFwd (s : State) : s.countFwd.homeFwd = s.homeFwd := by
  unfold State.countFwd
  extract_lets keep
  split <;> rfl

/-- The last steps of bringing a workgroup back leave the moves of pages as they are. -/
theorem State.restored_homeFwd (s : State) (die r : Nat) :
    ((((s.placedFor r).noteOffer die r).linkRegion r).countFwd).homeFwd = s.homeFwd := by
  rw [State.countFwd_homeFwd]
  rfl

/-- Refutes O45: a restore that kills its own region asks for none of the workgroup's pages, though it comes to another core. -/
theorem not_schedulerEvents : ¬ Obligations.SchedulerEvents := by
  unfold Obligations.SchedulerEvents
  intro h
  obtain ⟨-, -, -, -, -, -, -, -, -, -, -, hrestore, -⟩ := h killingState killingState 1 1 1 killingRegion rfl
  obtain ⟨hu, hb, ho⟩ := killingState_offers
  have hasked := hrestore awayWg awayNext awayPlan 0 awayRecord rfl rfl rfl killingState_next rfl rfl rfl hu hb ho killingState_plans
  dsimp only at hasked
  rw [if_pos (.inr (by decide))] at hasked
  have hmoves := (congrArg movesAfter hasked).symm.trans killingState_restores
  exact killedState_asks ((State.restored_homeFwd ..).symm.trans hmoves)

end Sys2Proof.Machine
end

section
/-! PROOFS. No step misaligns an address at which a thread goes on or is placed (O3): what is aligned, and what the
operations of lists, maps and options keep. -/

namespace Sys2Proof

open Sys2Proof.Machine

/-! ### Properties of what is in a container -/

/-- Every element of a list has a property. -/
def ListAll {α : Type} (P : α → Prop) (l : List α) : Prop := ∀ x ∈ l, P x

/-- What an option holds has a property. -/
def OptAll {α : Type} (P : α → Prop) (o : Option α) : Prop := ∀ x, o = some x → P x

/-- The first component has a property. -/
def FstAll {α β : Type} (P : α → Prop) (p : α × β) : Prop := P p.1

/-- The second component has a property. -/
def SndAll {α β : Type} (P : β → Prop) (p : α × β) : Prop := P p.2

/-- Both components have properties. -/
def BothAll {α β : Type} (P : α → Prop) (Q : β → Prop) (p : α × β) : Prop := P p.1 ∧ Q p.2

/-- A success or a failure has its property. -/
def ExcAll {ε α : Type} (Q : ε → Prop) (P : α → Prop) : Except ε α → Prop
  | .ok x => P x
  | .error e => Q e

/-- A success has a property. -/
def OkAll {ε α : Type} (P : α → Prop) : Except ε α → Prop
  | .ok x => P x
  | .error _ => True

/-- A property passes along an equation. -/
theorem of_eq {α : Sort _} {P : α → Prop} {a b : α} (h : P a) (e : a = b) : P b := e ▸ h

theorem FstAll.of_eq {α β : Type} {P : α → Prop} {p : α × β} {a : α} {b : β} (h : FstAll P p) (e : p = (a, b)) : P a := by
  rw [e] at h
  exact h

theorem SndAll.of_eq {α β : Type} {P : β → Prop} {p : α × β} {a : α} {b : β} (h : SndAll P p) (e : p = (a, b)) : P b := by
  rw [e] at h
  exact h

theorem BothAll.of_eq {α β : Type} {P : α → Prop} {Q : β → Prop} {p : α × β} {a : α} {b : β} (h : BothAll P Q p)
    (e : p = (a, b)) : P a ∧ Q b := by
  rw [e] at h
  exact h

theorem FstAll.intro {α β : Type} {P : α → Prop} {a : α} {b : β} (h : P a) : FstAll P (a, b) := h

theorem SndAll.intro {α β : Type} {P : β → Prop} {a : α} {b : β} (h : P b) : SndAll P (a, b) := h

theorem FstAll.fst {α β : Type} {P : α → Prop} {p : α × β} (h : FstAll P p) : P p.1 := h

theorem SndAll.snd {α β : Type} {P : β → Prop} {p : α × β} (h : SndAll P p) : P p.2 := h

theorem BothAll.fst {α β : Type} {P : α → Prop} {Q : β → Prop} {p : α × β} (h : BothAll P Q p) : P p.1 := h.1

theorem BothAll.snd {α β : Type} {P : α → Prop} {Q : β → Prop} {p : α × β} (h : BothAll P Q p) : Q p.2 := h.2

theorem ite_inv {α : Sort _} {P : α → Prop} {c : Prop} [Decidable c] {a b : α} (ha : P a) (hb : P b) :
    P (if c then a else b) := by
  split
  · exact ha
  · exact hb

/-- What each step keeps holds after all of them. -/
theorem foldl_inv {α σ : Type} {P : σ → Prop} {f : σ → α → σ} {l : List α} {s : σ} (h : P s)
    (hf : ∀ s a, P s → P (f s a)) : P (l.foldl f s) := foldl_keeps P f hf l h

/-- What each step for an element of a kind keeps. -/
theorem foldl_invMem {α σ : Type} {P : σ → Prop} {Q : α → Prop} {f : σ → α → σ} {l : List α} {s : σ} (hl : ListAll Q l)
    (h : P s) (hf : ∀ s a, P s → Q a → P (f s a)) : P (l.foldl f s) := by
  induction l generalizing s with
  | nil => exact h
  | cons a l ih => exact ih (fun x hx => hl x (List.mem_cons_of_mem _ hx)) (hf s a h (hl a List.mem_cons_self))

namespace OptAll

variable {α β : Type} {P : α → Prop} {Q : β → Prop} {o : Option α}

theorem none : OptAll P none := nofun

theorem some {x : α} (h : P x) : OptAll P (some x) := fun _ hx => Option.some.inj hx ▸ h

theorem map {f : α → β} (h : OptAll P o) (hf : ∀ x, P x → Q (f x)) : OptAll Q (o.map f) := by
  intro y hy
  obtain ⟨x, hx, rfl⟩ := Option.map_eq_some_iff.mp hy
  exact hf x (h x hx)

theorem mapOf {f : α → β} (hf : ∀ x, Q (f x)) : OptAll Q (o.map f) := by
  intro y hy
  obtain ⟨x, -, rfl⟩ := Option.map_eq_some_iff.mp hy
  exact hf x

theorem bind {f : α → Option β} (h : OptAll P o) (hf : ∀ x, P x → OptAll Q (f x)) : OptAll Q (o.bind f) := by
  intro y hy
  obtain ⟨x, hx, hxy⟩ := Option.bind_eq_some_iff.mp hy
  exact hf x (h x hx) y hxy

theorem bindOf {f : α → Option β} (hf : ∀ x, OptAll Q (f x)) : OptAll Q (o.bind f) := by
  intro y hy
  obtain ⟨x, -, hxy⟩ := Option.bind_eq_some_iff.mp hy
  exact hf x y hxy

theorem getD {d : α} (h : OptAll P o) (hd : P d) : P (o.getD d) := by
  cases ho : o with
  | none => exact hd
  | some x => exact h x ho

end OptAll

namespace ListAll

variable {α β : Type} {P : α → Prop} {Q : β → Prop} {l m : List α}

theorem nil : ListAll P [] := nofun

theorem cons {x : α} (hx : P x) (hl : ListAll P l) : ListAll P (x :: l) := by
  intro y hy
  rcases List.mem_cons.mp hy with rfl | hy
  · exact hx
  · exact hl y hy

theorem of_cons {x : α} (h : ListAll P (x :: l)) : P x ∧ ListAll P l :=
  ⟨h x List.mem_cons_self, fun y hy => h y (List.mem_cons_of_mem _ hy)⟩

theorem append (hl : ListAll P l) (hm : ListAll P m) : ListAll P (l ++ m) := by
  intro x hx
  rcases List.mem_append.mp hx with hx | hx
  · exact hl x hx
  · exact hm x hx

theorem filter {p : α → Bool} (h : ListAll P l) : ListAll P (l.filter p) := fun x hx => h x (List.mem_filter.mp hx).1

theorem drop {n : Nat} (h : ListAll P l) : ListAll P (l.drop n) := fun x hx => h x (List.mem_of_mem_drop hx)

theorem take {n : Nat} (h : ListAll P l) : ListAll P (l.take n) := fun x hx => h x (List.mem_of_mem_take hx)

theorem reverse (h : ListAll P l) : ListAll P l.reverse := fun x hx => h x (List.mem_reverse.mp hx)

theorem map {f : α → β} (h : ListAll P l) (hf : ∀ x, P x → Q (f x)) : ListAll Q (l.map f) := by
  intro y hy
  obtain ⟨x, hx, rfl⟩ := List.mem_map.mp hy
  exact hf x (h x hx)

theorem mapOf {f : α → β} (hf : ∀ x, Q (f x)) : ListAll Q (l.map f) := by
  intro y hy
  obtain ⟨x, -, rfl⟩ := List.mem_map.mp hy
  exact hf x

theorem mapIdx {f : Nat → α → β} (h : ListAll P l) (hf : ∀ i x, P x → Q (f i x)) : ListAll Q (l.mapIdx f) := by
  intro y hy
  obtain ⟨i, hi, rfl⟩ := List.mem_mapIdx.mp hy
  exact hf i _ (h _ (List.getElem_mem hi))

theorem filterMap {f : α → Option β} (h : ListAll P l) (hf : ∀ x, P x → OptAll Q (f x)) : ListAll Q (l.filterMap f) := by
  intro y hy
  obtain ⟨x, hx, hxy⟩ := List.mem_filterMap.mp hy
  exact hf x (h x hx) y hxy

theorem flatMap {f : α → List β} (h : ListAll P l) (hf : ∀ x, P x → ListAll Q (f x)) : ListAll Q (l.flatMap f) := by
  intro y hy
  obtain ⟨x, hx, hxy⟩ := List.mem_flatMap.mp hy
  exact hf x (h x hx) y hxy

theorem modify {f : α → α} {n : Nat} (h : ListAll P l) (hf : ∀ x, P x → P (f x)) : ListAll P (l.modify n f) := by
  intro y hy
  obtain ⟨i, hi⟩ := List.mem_iff_getElem?.mp hy
  rw [List.getElem?_modify] at hi
  obtain ⟨x, hx, rfl⟩ := Option.map_eq_some_iff.mp hi
  have hxl := h x (List.mem_of_getElem? hx)
  split
  · exact hf x hxl
  · exact hxl

theorem set {n : Nat} {x : α} (h : ListAll P l) (hx : P x) : ListAll P (l.set n x) := by
  intro y hy
  rcases List.mem_or_eq_of_mem_set hy with hy | rfl
  · exact h y hy
  · exact hx

theorem getElem? {n : Nat} (h : ListAll P l) : OptAll P l[n]? := fun x hx => h x (List.mem_of_getElem? hx)

theorem find? {p : α → Bool} (h : ListAll P l) : OptAll P (l.find? p) := fun x hx => h x (List.mem_of_find?_eq_some hx)

theorem getLast? (h : ListAll P l) : OptAll P l.getLast? := fun x hx => h x (List.mem_of_mem_getLast? hx)

theorem getD {n : Nat} {d : α} (h : ListAll P l) (hd : P d) : P (l.getD n d) := by
  rw [List.getD_eq_getElem?_getD]
  exact h.getElem?.getD hd

theorem findSomeOf {f : α → Option β} (hf : ∀ x, OptAll Q (f x)) : OptAll Q (l.findSome? f) := by
  intro y hy
  obtain ⟨x, _, hx⟩ := List.exists_of_findSome?_eq_some hy
  exact hf x y hx

theorem zip {m : List β} (h : ListAll P l) : ListAll (FstAll P) (l.zip m) :=
  fun _ he => h _ (List.of_mem_zip he).1

theorem flatten {ls : List (List α)} (h : ListAll (ListAll P) ls) : ListAll P ls.flatten := by
  intro x hx
  obtain ⟨l, hl, hxl⟩ := List.mem_flatten.mp hx
  exact h l hl x hxl

end ListAll

/-! ### Maps -/

section

variable {β : Type} {P : β → Prop} {m : NMap β}

theorem ListAll.find (h : ListAll (SndAll P) m) (n : Nat) : OptAll P (NMap.find m n) := by
  intro x hx
  induction m with
  | nil => cases hx
  | cons e m ih =>
    obtain ⟨k, y⟩ := e
    rw [NMap.find_cons] at hx
    split at hx
    · cases hx
      exact (ListAll.of_cons h).1
    · exact ih (ListAll.of_cons h).2 hx

theorem ListAll.ins {n : Nat} {y : β} (h : ListAll (SndAll P) m) (hy : P y) : ListAll (SndAll P) (NMap.ins m n y) := by
  intro e he
  rcases NMap.mem_ins he with rfl | he
  · exact hy
  · exact h e he

theorem ListAll.del {n : Nat} (h : ListAll (SndAll P) m) : ListAll (SndAll P) (NMap.del m n) := ListAll.filter h

theorem ListAll.upd {n : Nat} {g : β → β} (h : ListAll (SndAll P) m) (hg : ∀ x, P x → P (g x)) :
    ListAll (SndAll P) (NMap.upd m n g) := by
  unfold NMap.upd
  split
  · rename_i x hx
    exact h.ins (hg x (h.find n x hx))
  · exact h

theorem ListAll.get {n : Nat} {d : β} (h : ListAll (SndAll P) m) (hd : P d) : P (NMap.get d m n) := by
  exact (h.find n).getD hd

end

/-! ### What is aligned -/

/-- The address is 4-aligned. -/
def PcOk (pc : DWord) : Prop := pc.toNat % 4 = 0

namespace PcOk

variable {pc : DWord}

theorem zero : PcOk 0 := rfl

theorem add {n : DWord} (h : PcOk pc) (hn : PcOk n) : PcOk (pc + n) := by
  have hsum := BitVec.toNat_add pc n
  unfold PcOk at h hn ⊢
  omega

theorem clear : PcOk (pc &&& ~~~3) := by
  have hlow : (pc &&& ~~~3).toNat % 4 = ((pc &&& ~~~3).setWidth 2).toNat := by rw [BitVec.toNat_setWidth]
  have hmask : BitVec.setWidth 2 (~~~3 : DWord) = 0#2 := by decide
  unfold PcOk
  rw [hlow, BitVec.setWidth_and, hmask, BitVec.and_zero]
  rfl

theorem ofNat {n : Nat} (h : n % 4 = 0) : PcOk (BitVec.ofNat 64 n) := by
  unfold PcOk
  rw [BitVec.toNat_ofNat]
  omega

theorem ofNatMul {n : Nat} : PcOk (BitVec.ofNat 64 (n / 4 * 4)) := ofNat (by omega)

/-- A target that faults not is aligned. -/
theorem of_targetBad (h : targetBad pc = none) : PcOk pc := by
  unfold targetBad at h
  split at h
  · assumption
  · cases h

end PcOk

namespace Machine

def Acc.aligned (a : Acc) : Prop := PcOk a.pc

def Why.aligned : Why → Prop
  | .phase _ _ _ _ _ _ pc npc => PcOk pc ∧ PcOk npc
  | .commit _ _ npc => PcOk npc
  | _ => True

def TSt.aligned : TSt → Prop
  | .blocked y => y.aligned
  | _ => True

theorem Thread.aligned_iff {t : Thread} :
    t.aligned ↔ PcOk t.pc ∧ PcOk t.epc ∧ ListAll Acc.aligned t.accs ∧ t.st.aligned := by
  unfold Thread.aligned
  refine and_congr Iff.rfl (and_congr Iff.rfl (and_congr Iff.rfl ?_))
  cases t.st with
  | blocked y => cases y <;> exact Iff.rfl
  | _ => exact Iff.rfl

def Wave.aligned (x : Wave) : Prop := ListAll Thread.aligned x.threads

def Saved.aligned (z : Saved) : Prop := ListAll (SndAll Wave.aligned) z.waves ∧ OptAll Wave.aligned z.caller

def Rcb.aligned (r : Rcb) : Prop := PcOk r.entry ∧ PcOk r.centry ∧ PcOk r.trape

def Region.aligned (x : Region) : Prop := x.rcb.aligned

def GQueue.aligned (q : GQueue) : Prop := PcOk q.entry

def SpawnBin.aligned (b : SpawnBin) : Prop := PcOk b.entry

def Cluster.aligned (c : Cluster) : Prop :=
  ListAll (SndAll GQueue.aligned) c.queues ∧ ListAll (SndAll SpawnBin.aligned) c.bins

def BinDesc.aligned (b : BinDesc) : Prop := PcOk b.entry

def Sweep.aligned (x : Sweep) : Prop := dfield x.desc 447 384 % 4 = 0

def Die.aligned (d : Die) : Prop :=
  ListAll BinDesc.aligned d.bins ∧ ListAll Sweep.aligned d.sweepQ ∧ ListAll (SndAll Sweep.aligned) d.engines

def Delivery.aligned (d : Delivery) : Prop := PcOk d.entry

def Pend.aligned (e : Pend) : Prop := e.acc.aligned

/-- An instruction's context: its PC, and its wave as it stood. -/
def Ctx.aligned (c : Ctx) : Prop := PcOk c.pc ∧ c.x.aligned

def Perf.aligned (p : Perf) : Prop := EntryInv p.s

def PartsRes.aligned (p : PartsRes) : Prop := EntryInv p.s

def Start.aligned : Start → Prop
  | .stop s => EntryInv s
  | .go c s => c.aligned ∧ EntryInv s

def TransRes.aligned : TransRes → Prop
  | .ok s _ | .fault s _ | .quota s _ | .wait s => EntryInv s

def Trans2.aligned : Trans2 → Prop
  | .ok s _ | .fault s _ _ | .quota s _ | .wait s => EntryInv s

def ChargeRes.aligned : ChargeRes → Prop
  | .ok s => EntryInv s
  | .beyond _ => True

def EngRes.aligned : EngRes → Prop
  | .ok s _ | .fault s _ | .poison s _ _ | .full s _ | .quota s _ | .wait s => EntryInv s

def EngParts.aligned : EngParts → Prop
  | .ok s _ => EntryInv s
  | .stop r => r.aligned

def SwRes.aligned {β : Type} : SwRes β → Prop
  | .ok s _ => EntryInv s
  | .stop r => r.aligned

def FetchRes.aligned : FetchRes → Prop
  | .got s _ | .bad s | .wait s => EntryInv s

def Lane.aligned : Lane → Prop
  | .ok s _ | .fault s _ | .quota s _ | .stay s | .gone s => EntryInv s
  | .pend s a => EntryInv s ∧ a.aligned
  | .block s y => EntryInv s ∧ y.aligned

def DescRes.aligned : DescRes → Prop
  | .ok s _ => EntryInv s
  | .stop r => r.aligned

def URes.aligned : URes → Prop
  | .ok s _ | .poison s => EntryInv s
  | .stop r => r.aligned

def URun.aligned : URun → Prop
  | .ok s _ => EntryInv s
  | .stop r => r.aligned

def Surface.aligned : Surface → Prop
  | .ok s _ | .bad s _ _ => EntryInv s

def Fetched.aligned : Fetched → Prop
  | .instr s _ | .filler s | .bad s _ | .fault s _ | .quota s _ | .wait s => EntryInv s
  | .idle => True

end Machine

/-- What a step answers keeps the addresses aligned. -/
def OutAll : Host.Outcome State Fault Refusal → Prop
  | .next s => EntryInv s
  | _ => True

/-! ### The parts of the state -/

namespace EntryInv

variable {s t : State}

theorem intro (hw : ListAll (SndAll Wave.aligned) s.waves) (hs : ListAll (SndAll Saved.aligned) s.saved)
    (hr : ListAll (SndAll Region.aligned) s.regions) (hc : ListAll (SndAll Cluster.aligned) s.clusters)
    (hd : ListAll Die.aligned s.dies) (hq : ListAll Delivery.aligned s.deliveries) : EntryInv s :=
  ⟨hw, hs, hr, hc, hd, hq⟩

theorem waves (h : EntryInv s) : ListAll (SndAll Wave.aligned) s.waves := h.1
theorem saved (h : EntryInv s) : ListAll (SndAll Saved.aligned) s.saved := h.2.1
theorem regions (h : EntryInv s) : ListAll (SndAll Region.aligned) s.regions := h.2.2.1
theorem clusters (h : EntryInv s) : ListAll (SndAll Cluster.aligned) s.clusters := h.2.2.2.1
theorem dies (h : EntryInv s) : ListAll Die.aligned s.dies := h.2.2.2.2.1
theorem deliveries (h : EntryInv s) : ListAll Delivery.aligned s.deliveries := h.2.2.2.2.2

theorem withWaves {ws : NMap Wave} (h : EntryInv s) (hw : ListAll (SndAll Wave.aligned) ws) :
    EntryInv { s with waves := ws } := intro hw h.saved h.regions h.clusters h.dies h.deliveries

theorem withSaved {zs : NMap Saved} (h : EntryInv s) (hz : ListAll (SndAll Saved.aligned) zs) :
    EntryInv { s with saved := zs } := intro h.waves hz h.regions h.clusters h.dies h.deliveries

theorem withRegions {rs : NMap Region} (h : EntryInv s) (hr : ListAll (SndAll Region.aligned) rs) :
    EntryInv { s with regions := rs } := intro h.waves h.saved hr h.clusters h.dies h.deliveries

theorem withClusters {cs : NMap Cluster} (h : EntryInv s) (hc : ListAll (SndAll Cluster.aligned) cs) :
    EntryInv { s with clusters := cs } := intro h.waves h.saved h.regions hc h.dies h.deliveries

theorem withDies {ds : List Die} (h : EntryInv s) (hd : ListAll Die.aligned ds) :
    EntryInv { s with dies := ds } := intro h.waves h.saved h.regions h.clusters hd h.deliveries

theorem withDeliveries {qs : List Delivery} (h : EntryInv s) (hq : ListAll Delivery.aligned qs) :
    EntryInv { s with deliveries := qs } := intro h.waves h.saved h.regions h.clusters h.dies hq

end EntryInv

/-! ### Threads, and what holds them -/

namespace Machine

namespace Thread.aligned

variable {t : Thread}

theorem intro (hpc : PcOk t.pc) (hepc : PcOk t.epc) (haccs : ListAll Acc.aligned t.accs) (hst : t.st.aligned) : t.aligned :=
  Thread.aligned_iff.mpr ⟨hpc, hepc, haccs, hst⟩

theorem pc (h : t.aligned) : PcOk t.pc := (Thread.aligned_iff.mp h).1
theorem epc (h : t.aligned) : PcOk t.epc := (Thread.aligned_iff.mp h).2.1
theorem accs (h : t.aligned) : ListAll Acc.aligned t.accs := (Thread.aligned_iff.mp h).2.2.1
theorem st (h : t.aligned) : t.st.aligned := (Thread.aligned_iff.mp h).2.2.2

end Thread.aligned

theorem Wave.aligned.intro {x : Wave} (h : ListAll Thread.aligned x.threads) : x.aligned := h
theorem Wave.aligned.threads {x : Wave} (h : x.aligned) : ListAll Thread.aligned x.threads := h
theorem Acc.aligned.intro {a : Acc} (h : PcOk a.pc) : a.aligned := h
theorem Acc.aligned.pc {a : Acc} (h : a.aligned) : PcOk a.pc := h
theorem Pend.aligned.intro {a : Pend} (h : a.acc.aligned) : a.aligned := h
theorem Saved.aligned.intro {z : Saved} (hw : ListAll (SndAll Wave.aligned) z.waves) (hc : OptAll Wave.aligned z.caller) :
    z.aligned := ⟨hw, hc⟩
theorem Saved.aligned.waves {z : Saved} (h : z.aligned) : ListAll (SndAll Wave.aligned) z.waves := h.1
theorem Saved.aligned.caller {z : Saved} (h : z.aligned) : OptAll Wave.aligned z.caller := h.2
theorem Rcb.aligned.intro {r : Rcb} (he : PcOk r.entry) (hc : PcOk r.centry) (ht : PcOk r.trape) : r.aligned := ⟨he, hc, ht⟩
theorem Rcb.aligned.entry {r : Rcb} (h : r.aligned) : PcOk r.entry := h.1
theorem Rcb.aligned.centry {r : Rcb} (h : r.aligned) : PcOk r.centry := h.2.1
theorem Rcb.aligned.trape {r : Rcb} (h : r.aligned) : PcOk r.trape := h.2.2
theorem Region.aligned.intro {x : Region} (h : x.rcb.aligned) : x.aligned := h
theorem Region.aligned.rcb {x : Region} (h : x.aligned) : x.rcb.aligned := h
theorem GQueue.aligned.intro {q : GQueue} (h : PcOk q.entry) : q.aligned := h
theorem GQueue.aligned.entry {q : GQueue} (h : q.aligned) : PcOk q.entry := h
theorem SpawnBin.aligned.intro {b : SpawnBin} (h : PcOk b.entry) : b.aligned := h
theorem SpawnBin.aligned.entry {b : SpawnBin} (h : b.aligned) : PcOk b.entry := h
theorem BinDesc.aligned.intro {b : BinDesc} (h : PcOk b.entry) : b.aligned := h
theorem BinDesc.aligned.entry {b : BinDesc} (h : b.aligned) : PcOk b.entry := h
/-- The entry of a sweep's waves, as its descriptor has it. -/
theorem Sweep.aligned.entry {x : Sweep} (h : x.aligned) : PcOk (BitVec.ofNat 64 (dfield x.desc 447 384)) := PcOk.ofNat h

theorem Delivery.aligned.intro {d : Delivery} (h : PcOk d.entry) : d.aligned := h
theorem Delivery.aligned.entry {d : Delivery} (h : d.aligned) : PcOk d.entry := h
theorem Cluster.aligned.intro {c : Cluster} (hq : ListAll (SndAll GQueue.aligned) c.queues)
    (hb : ListAll (SndAll SpawnBin.aligned) c.bins) : c.aligned := ⟨hq, hb⟩
theorem Cluster.aligned.queues {c : Cluster} (h : c.aligned) : ListAll (SndAll GQueue.aligned) c.queues := h.1
theorem Cluster.aligned.bins {c : Cluster} (h : c.aligned) : ListAll (SndAll SpawnBin.aligned) c.bins := h.2
theorem Die.aligned.intro {d : Die} (hb : ListAll BinDesc.aligned d.bins) (hs : ListAll Sweep.aligned d.sweepQ)
    (he : ListAll (SndAll Sweep.aligned) d.engines) : d.aligned := ⟨hb, hs, he⟩
theorem Die.aligned.bins {d : Die} (h : d.aligned) : ListAll BinDesc.aligned d.bins := h.1
theorem Die.aligned.sweepQ {d : Die} (h : d.aligned) : ListAll Sweep.aligned d.sweepQ := h.2.1
theorem Die.aligned.engines {d : Die} (h : d.aligned) : ListAll (SndAll Sweep.aligned) d.engines := h.2.2
theorem Ctx.aligned.intro {c : Ctx} (hpc : PcOk c.pc) (hx : c.x.aligned) : c.aligned := ⟨hpc, hx⟩
theorem Ctx.aligned.pc {c : Ctx} (h : c.aligned) : PcOk c.pc := h.1

/-- An instruction is of 8, 12 or 16 bytes, so the next one is aligned too. -/
theorem Ctx.aligned.npc {c : Ctx} (h : c.aligned) : PcOk c.npc := by
  unfold Ctx.npc Ctx.len
  refine h.pc.add ?_
  cases c.e.f.form <;> rfl

theorem Ctx.aligned.x {c : Ctx} (h : c.aligned) : c.x.aligned := h.2
theorem Perf.aligned.intro {p : Perf} (h : EntryInv p.s) : p.aligned := h
theorem Perf.aligned.s {p : Perf} (h : p.aligned) : EntryInv p.s := h
theorem PartsRes.aligned.intro {p : PartsRes} (h : EntryInv p.s) : p.aligned := h
theorem PartsRes.aligned.s {p : PartsRes} (h : p.aligned) : EntryInv p.s := h

end Machine

/-! ### What follows an operation's answer

The kernel evaluates the subject of a match where it compares two matches. The proofs that use these rules give the subject a
name of its own before they do. -/

/-- What follows the reach of a home. -/
theorem Machine.reachedThen_aligned {r : Except Lane (State × Nat)} {f : State → Nat → Lane}
    (hr : ExcAll Lane.aligned (FstAll EntryInv) r) (hf : ∀ s1 key, EntryInv s1 → (f s1 key).aligned) :
    (match (generalizing := false) r with | .error x => x | .ok (s1, key) => f s1 key : Lane).aligned := by
  cases r with
  | error x => exact hr
  | ok p => exact hf _ _ hr

/-- What follows a release, which may have to wait. -/
theorem Machine.releasedThen_aligned {o : Option State} {t : State} {f : State → Lane} (ho : OptAll EntryInv o)
    (ht : EntryInv t) (hf : ∀ s1, EntryInv s1 → (f s1).aligned) :
    (match (generalizing := false) o with | none => .stay t | some s1 => f s1 : Lane).aligned := by
  cases o with
  | none => exact ht
  | some s1 => exact hf _ (ho _ rfl)

/-- A lane that has done one thing and goes on to another. -/
theorem Machine.Lane.aligned.andThen {r : Lane} {f : State → List Word → Lane} (hr : r.aligned)
    (hf : ∀ s1 ws, EntryInv s1 → (f s1 ws).aligned) :
    (match (generalizing := false) r with | .ok s1 ws => f s1 ws | x => x : Lane).aligned := by
  cases r with
  | ok s1 ws => exact hf s1 ws hr
  | _ => exact hr

/-- What follows a translation: the lane faults, asks for room or waits, or goes on. -/
theorem Machine.Trans2.aligned.andThen {r : Trans2} {f : State → List Machine.Part → Lane} (hr : r.aligned)
    (hf : ∀ s1 ps, EntryInv s1 → (f s1 ps).aligned) :
    (match (generalizing := false) r with
      | .fault s1 _ e => .fault s1 e
      | .quota s1 n => .quota s1 n
      | .wait s1 => .stay s1
      | .ok s1 ps => f s1 ps : Lane).aligned := by
  cases r with
  | ok s1 ps => exact hf s1 ps hr
  | _ => exact hr

/-- What follows a descriptor read. -/
theorem Machine.DescRes.aligned.andThen {r : DescRes} {f : State → BitVec 512 → Lane} (hr : r.aligned)
    (hf : ∀ s1 d, r = .ok s1 d → EntryInv s1 → (f s1 d).aligned) :
    (match (generalizing := false) r with | .stop x => x | .ok s1 d => f s1 d : Lane).aligned := by
  cases r with
  | ok s1 d => exact hf s1 d rfl hr
  | stop x => exact hr

/-- What follows the check of an address. -/
theorem Machine.unlessFault_aligned {o : Option Flt} {f : Flt → Lane} {x : Lane} (hf : ∀ e, (f e).aligned)
    (hx : x.aligned) : (match (generalizing := false) o with | some e => f e | none => x : Lane).aligned := by
  cases o with
  | some e => exact hf e
  | none => exact hx

/-- What follows the check of two addresses. -/
theorem Machine.unlessMisaligned_aligned {o p : Option Flt} {f g : Flt → Lane} {x : Lane}
    (hf : ∀ e, (f e).aligned) (hg : ∀ e, (g e).aligned) (hx : x.aligned) :
    (match (generalizing := false) o, p with | some e, _ => f e | none, some e => g e | none, none => x : Lane).aligned := by
  cases o with
  | some e => exact hf e
  | none =>
    cases p with
    | some e => exact hg e
    | none => exact hx

/-- What follows an engine's access: it goes on where the access is done, and otherwise its outcome says how. -/
theorem Machine.EngRes.aligned.andThen {α : Type} {P : α → Prop} {r : EngRes} {f : State → List Byte → α} {g : EngRes → α}
    (hr : r.aligned) (hf : ∀ s1 bs, EntryInv s1 → P (f s1 bs)) (hg : ∀ x, x.aligned → P (g x)) :
    P (match (generalizing := false) r with | .ok s1 bs => f s1 bs | x => g x) := by
  cases r with
  | ok s1 bs => exact hf s1 bs hr
  | _ => exact hg _ hr

end Sys2Proof
end

section
/-! PROOFS. No step misaligns an address at which a thread goes on or is placed (O3):
what the state, memory, translation and accesses keep. -/

namespace Sys2Proof

open Sys2Proof.Machine

/-! ### The state -/

theorem Machine.Cluster.fresh_aligned :
    Cluster.fresh.aligned := by
  unfold Cluster.fresh
  exact Cluster.aligned.intro ListAll.nil ListAll.nil

theorem Machine.Die.fresh_aligned :
    Die.fresh.aligned := by
  unfold Die.fresh
  exact Die.aligned.intro ListAll.nil ListAll.nil ListAll.nil

theorem Machine.State.reset_aligned :
    EntryInv State.reset := by
  unfold State.reset
  exact EntryInv.intro ListAll.nil ListAll.nil ListAll.nil ListAll.nil (ListAll.cons Die.fresh_aligned
      (ListAll.cons Die.fresh_aligned ListAll.nil)) ListAll.nil

/-! ### Physical memory -/

theorem EntryInv.setCore {s : State} {g : Nat} {c : Core} (h : EntryInv s) :
    EntryInv (s.setCore g c) := by
  unfold State.setCore
  exact h

theorem EntryInv.cluster {s : State} {k : Nat} (h : EntryInv s) :
    (s.cluster k).aligned := by
  unfold State.cluster
  exact h.clusters.get Cluster.fresh_aligned

theorem EntryInv.setCluster {s : State} {k : Nat} {c : Cluster} (h : EntryInv s) (hc : c.aligned) :
    EntryInv (s.setCluster k c) := by
  unfold State.setCluster
  exact h.withClusters (h.clusters.ins hc)

theorem EntryInv.die {s : State} {d : Nat} (h : EntryInv s) :
    (s.die d).aligned := by
  unfold State.die
  exact h.dies.getD Die.fresh_aligned

theorem EntryInv.setDie {s : State} {d : Nat} {x : Die} (h : EntryInv s) (hx : x.aligned) :
    EntryInv (s.setDie d x) := by
  unfold State.setDie
  exact h.withDies (h.dies.set hx)

theorem EntryInv.setWave {s : State} {w : Nat} {x : Wave} (h : EntryInv s) (hx : x.aligned) :
    EntryInv (s.setWave w x) := by
  unfold State.setWave
  exact h.withWaves (h.waves.ins hx)

theorem Machine.Wave.aligned.updThread {x : Wave} {lane : Nat} {g : Thread → Thread} (hx : x.aligned) (hg : ∀
    (t : Thread), t.aligned → (g t).aligned) :
    (x.updThread lane g).aligned := by
  unfold Wave.updThread
  exact Wave.aligned.intro (hx.threads.modify (fun t ht => hg _ ht))

theorem EntryInv.updThread {s : State} {w lane : Nat} {g : Thread → Thread} (h : EntryInv s) (hg : ∀
    (t : Thread), t.aligned → (g t).aligned) :
    EntryInv (s.updThread w lane g) := by
  unfold State.updThread
  exact h.withWaves (h.waves.upd (fun x hx => hx.updThread (fun t ht => hg _ ht)))

theorem EntryInv.updWg {s : State} {wg : Nat} {g : Wg → Wg} (h : EntryInv s) :
    EntryInv (s.updWg wg g) := by
  unfold State.updWg
  exact h

theorem EntryInv.thread? {s : State} {w lane : Nat} (h : EntryInv s) :
    OptAll Thread.aligned (s.thread? w lane) := by
  unfold State.thread?
  exact (h.waves.find _).bind (fun x hx => hx.threads.getElem?)

theorem EntryInv.fresh {s : State} (h : EntryInv s) :
    SndAll EntryInv s.fresh := by
  unfold State.fresh
  exact h

theorem Machine.Thread.aligned.dropResv {t : Thread} {pt : ResvAt} {grain : Nat} (ht : t.aligned) :
    (t.dropResv pt grain).aligned := by
  unfold Thread.dropResv
  split
  · exact ite_inv ht ht
  · exact ht

theorem EntryInv.clearResv {s : State} {pt : ResvAt} {grain : Nat} {by_ : Option (Nat × Nat)} (h : EntryInv s) :
    EntryInv (s.clearResv pt grain by_) := by
  unfold State.clearResv
  refine EntryInv.withWaves h ?_
  refine ListAll.map (P := SndAll Wave.aligned) h.waves ?_
  intro _ he
  split
  exact Wave.aligned.intro (ListAll.mapIdx (Wave.aligned.threads he) (fun i t ht => ite_inv ht ht.dropResv))

theorem EntryInv.clearResvs {s : State} {pt : ResvAt} {key n : Nat} {by_ : Option (Nat × Nat)} (h : EntryInv s) :
    EntryInv (s.clearResvs pt key n by_) := by
  unfold State.clearResvs
  exact foldl_inv h (fun s2 a hs2 => hs2.clearResv)

theorem EntryInv.healed {s : State} {key n : Nat} (h : EntryInv s) :
    EntryInv (s.healed key n) := by
  unfold State.healed
  exact h

theorem EntryInv.countLife {s : State} {record : Nat} (h : EntryInv s) :
    EntryInv (s.countLife record) := by
  unfold State.countLife
  exact h

theorem EntryInv.countCorrected {s : State} (h : EntryInv s) :
    EntryInv s.countCorrected := by
  unfold State.countCorrected
  extract_lets real
  exact h

theorem EntryInv.addPoison {s : State} {key : Nat} (h : EntryInv s) :
    EntryInv (s.addPoison key) := by
  unfold State.addPoison
  split
  · exact h
  · extract_lets s1
    have hs1 : EntryInv s1 := h
    exact ite_inv hs1.countLife hs1

theorem EntryInv.makeWay {s : State} {line : Nat} (h : EntryInv s) :
    OptAll EntryInv (s.makeWay line) := by
  unfold State.makeWay
  extract_lets here
  split
  · exact OptAll.some h
  · split
    · exact OptAll.none
    · split
      rename_i s1 heq3
      have hs1 : EntryInv s1 := h.fresh.of_eq heq3
      exact OptAll.some hs1

theorem EntryInv.touch {s : State} {sector : Nat} {wr : Bool} (h : EntryInv s) :
    EntryInv (s.touch sector wr) := by
  unfold State.touch
  split
  · exact h
  · split
    · exact h
    · split
      · rename_i s1 heq3
        have hs1 : EntryInv s1 := h.makeWay _ heq3
        exact hs1
      · exact h

theorem EntryInv.setPoison {s : State} {sector : Nat} {p : BitVec 2} (h : EntryInv s) :
    EntryInv (s.setPoison sector p) := by
  unfold State.setPoison
  exact h

theorem EntryInv.strikeGrain {s : State} {tag : Option (BitVec 5)} {key : Nat} (h : EntryInv s) :
    EntryInv (s.strikeGrain tag key) := by
  unfold State.strikeGrain
  split
  · split
    · extract_lets hit
      exact EntryInv.countLife h
    · exact h.addPoison
  · exact h.addPoison

theorem EntryInv.promote {s : State} {key : Nat} (h : EntryInv s) :
    EntryInv (s.promote key) := by
  unfold State.promote
  split
  · split
    · extract_lets line mine s1
      exact foldl_inv h (fun s2 _ hs2 => EntryInv.touch (EntryInv.setPoison hs2))
    · exact h
  · exact h

theorem EntryInv.atHome {s : State} {key n : Nat} (h : EntryInv s) :
    EntryInv (s.atHome key n) := by
  unfold State.atHome
  exact foldl_inv h (fun s2 _ hs2 => hs2.promote.touch)

theorem EntryInv.makeVersion {s : State} {set facet sector : Nat} (h : EntryInv s) :
    OptAll EntryInv (s.makeVersion set facet sector) := by
  unfold State.makeVersion
  split
  · exact OptAll.some h
  · rename_i y _
    extract_lets here ovf new beside
    have hnew : ∀ (s : State) (y : Bool), EntryInv s → EntryInv (new s y) := by
      intro _ _ hs2
      unfold new
      exact hs2
    have hbeside : OptAll EntryInv beside := ite_inv (OptAll.some (hnew _ _ h)) OptAll.none
    split
    · split
      · rename_i s1 heq3
        have hs1 : EntryInv s1 := (ite_inv (OptAll.some h) h.makeWay) _ heq3
        exact OptAll.some (hnew _ _ hs1.touch)
      · exact hbeside
    · exact hbeside

theorem EntryInv.noteConst {s : State} {key n : Nat} {by_ : Option (Nat × Nat)} (h : EntryInv s) :
    EntryInv (s.noteConst key n by_) := by
  unfold State.noteConst
  extract_lets live old
  exact ite_inv h h

theorem EntryInv.homeWrite1 {s : State} {tag : Option (BitVec 5)} {by_ : Option (Nat × Nat)} {key : Nat}
    {bs : List Byte} (h : EntryInv s) :
    OptAll EntryInv (s.homeWrite1 tag by_ key bs) := by
  unfold State.homeWrite1
  split
  · exact h.makeVersion.map (fun s1 hs1 => EntryInv.clearResvs hs1)
  · extract_lets s1
    have hs1 : EntryInv s1 := h.noteConst.promote.touch
    exact OptAll.some (EntryInv.clearResvs (EntryInv.healed hs1))

theorem EntryInv.homeWrite {s : State} {tag : Option (BitVec 5)} {by_ : Option (Nat × Nat)} {key : Nat}
    {bs : List Byte} (h : EntryInv s) :
    ExcAll (SndAll EntryInv) EntryInv (s.homeWrite tag by_ key bs) := by
  unfold State.homeWrite
  refine foldl_inv h ?_
  intro _ _ hs2
  split
  · exact hs2
  · split
    · rename_i s1 heq
      exact (EntryInv.homeWrite1 hs2) _ heq
    · exact hs2

theorem EntryInv.baseWrite {s : State} {key : Nat} {bs : List Byte} (h : EntryInv s) :
    EntryInv (s.baseWrite key bs) := by
  unfold State.baseWrite
  split
  · rename_i s1 heq
    exact of_eq (P := ExcAll (SndAll EntryInv) EntryInv) h.homeWrite heq
  · rename_i e heq
    have he : SndAll EntryInv e := of_eq (P := ExcAll (SndAll EntryInv) EntryInv) h.homeWrite heq
    exact he.snd

theorem EntryInv.putNum {s : State} {key n v : Nat} (h : EntryInv s) :
    EntryInv (s.putNum key n v) := by
  unfold State.putNum
  exact h.baseWrite

theorem EntryInv.dropCopy {s : State} {g sector : Nat} (h : EntryInv s) :
    EntryInv (s.dropCopy g sector) := by
  unfold State.dropCopy
  extract_lets c
  exact h.setCore.clearResv.clearResv

theorem EntryInv.spread {s : State} {sector : Nat} {x : Copy} (h : EntryInv s) :
    EntryInv (s.spread sector x) := by
  unfold State.spread
  extract_lets new
  exact h

theorem EntryInv.writeBack {s : State} {g sector : Nat} (h : EntryInv s) :
    EntryInv (s.writeBack g sector) := by
  unfold State.writeBack
  extract_lets c
  split
  · exact ite_inv h.setCore.baseWrite.spread h
  · exact h

theorem EntryInv.writeBackAll {s : State} {g : Nat} (h : EntryInv s) :
    EntryInv (s.writeBackAll g) := by
  unfold State.writeBackAll
  exact foldl_inv h (fun s2 a hs2 => hs2.writeBack)

theorem EntryInv.writeBackSvc {s : State} {g : Nat} (h : EntryInv s) :
    EntryInv (s.writeBackSvc g) := by
  unfold State.writeBackSvc
  exact foldl_inv h (fun s2 a hs2 => ite_inv hs2.writeBack hs2)

theorem EntryInv.dropClean {s : State} {g : Nat} (h : EntryInv s) :
    EntryInv (s.dropClean g) := by
  unfold State.dropClean
  exact foldl_inv h (fun s2 _ hs2 => ite_inv hs2.dropCopy hs2)

theorem EntryInv.dropWhere {s : State} {g : Nat} {cond : Nat → Bool} (h : EntryInv s) :
    EntryInv (s.dropWhere g cond) := by
  unfold State.dropWhere
  exact foldl_inv h (fun s2 a hs2 => ite_inv hs2.writeBack.dropCopy hs2)

theorem EntryInv.evict {s : State} {g sector : Nat} (h : EntryInv s) :
    EntryInv (s.evict g sector) := by
  unfold State.evict
  exact h.writeBack.dropCopy

theorem EntryInv.makeRoom {s : State} {g : Nat} (h : EntryInv s) :
    EntryInv (s.makeRoom g) := by
  unfold State.makeRoom
  extract_lets l
  split
  rename_i s1 heq
  have hs1 : EntryInv s1 := h.fresh.of_eq heq
  split
  · clear_value l
    split
    · exact h
    · exact hs1.evict
  · clear_value l
    split
    · exact h
    · exact hs1

theorem EntryInv.fill {s : State} {g sector : Nat} {cls : PgCls} (h : EntryInv s) :
    EntryInv (s.fill g sector cls) := by
  unfold State.fill
  split
  · exact h
  · extract_lets s1 c d
    have hs1 : EntryInv s1 := h.makeRoom.atHome
    exact hs1.setCore

theorem EntryInv.coreRead {s : State} {g key n : Nat} {cls : PgCls} (h : EntryInv s) :
    FstAll EntryInv (s.coreRead g key n cls) := by
  unfold State.coreRead
  extract_lets s1
  exact foldl_inv h (fun s2 _ hs2 => hs2.fill)

theorem EntryInv.coreWrite {s : State} {g key : Nat} {bs : List Byte} {svc : Bool} {by_ : Option (Nat × Nat)}
    (h : EntryInv s) :
    EntryInv (s.coreWrite g key bs svc by_) := by
  unfold State.coreWrite
  extract_lets s1
  have hs1 : EntryInv s1 := by
    unfold s1
    refine foldl_inv h ?_
    intro _ _ hs2
    extract_lets s2_2 c
    have hs2_2 : EntryInv s2_2 := hs2.fill
    split
    · extract_lets data y_2
      exact hs2_2.setCore
    · exact hs2_2
  exact hs1.clearResvs

/-! ### Translation -/

theorem EntryInv.region? {s : State} {r : Nat} (h : EntryInv s) :
    OptAll Region.aligned (s.region? r) := by
  unfold State.region?
  exact h.regions.find _

theorem EntryInv.updRegion {s : State} {r : Nat} {g : Region → Region} (h : EntryInv s) (hg : ∀
    (y : Region), y.aligned → (g y).aligned) :
    EntryInv (s.updRegion r g) := by
  unfold State.updRegion
  exact h.withRegions (h.regions.upd (fun y hy => hg _ hy))

theorem EntryInv.walkBy {s : State} {die asr va : Nat} (h : EntryInv s) :
    FstAll EntryInv (s.walkBy die asr va) := by
  unfold State.walkBy
  split
  · exact h
  · extract_lets d put
    have hd : d.aligned := h.die
    split
    extract_lets new
    exact ite_inv h (h.setDie hd)

theorem EntryInv.install {s : State} {a : Agent} {l : Leaf} (h : EntryInv s) :
    EntryInv (s.install a l) := by
  unfold State.install
  extract_lets c s1
  have hc : c.aligned := h.cluster
  have hs1 : EntryInv s1 := h.setCluster hc
  split
  · exact hs1
  · extract_lets c_2
    exact hs1.setCore

theorem EntryInv.uninstall {s : State} {a : Agent} {l : Leaf} (h : EntryInv s) :
    EntryInv (s.uninstall a l) := by
  unfold State.uninstall
  extract_lets c s1
  have hc : c.aligned := h.cluster
  have hs1 : EntryInv s1 := h.setCluster hc
  split
  · exact hs1
  · extract_lets c_2
    exact hs1.setCore

theorem EntryInv.askHost {s : State} {fn key : Nat} (h : EntryInv s) :
    EntryInv (s.askHost fn key) := by
  unfold State.askHost
  extract_lets q
  exact ite_inv h h

theorem EntryInv.askPage {s : State} {fn key : Nat} (h : EntryInv s) :
    EntryInv (s.askPage fn key) := by
  unfold State.askPage
  extract_lets q
  exact ite_inv h h

theorem EntryInv.charge {s : State} {rgn : Nat} {l : Leaf} (h : EntryInv s) :
    (s.charge rgn l).aligned := by
  unfold State.charge
  split
  · exact h
  · split
    · exact h
    · extract_lets new ups hit s1
      have hs1 : EntryInv s1 := foldl_inv h (fun s2 _ hs2 => hs2.putNum)
      clear_value hit
      split
      · exact trivial
      · show EntryInv _
        refine foldl_inv hs1 ?_
        intro _ _ hs2
        extract_lets s2_2
        have hs2_2 : EntryInv s2_2 := hs2.updRegion (fun y6 hy6 => hy6)
        split
        · exact hs2_2.putNum
        · exact hs2_2

theorem EntryInv.lookup {s : State} {a : Agent} {va : Nat} (h : EntryInv s) :
    (s.lookup a va).aligned := by
  unfold State.lookup
  extract_lets asr own
  split
  · clear_value own
    split
    · exact h
    · exact h.install
  · split
    · rename_i s1 _ _ heq2
      have hs1 : EntryInv s1 := h.walkBy.of_eq heq2
      clear_value own
      split
      · exact h
      · exact hs1
    · rename_i s1 l heq2
      have hs1 : EntryInv s1 := h.walkBy.of_eq heq2
      split
      · clear_value own
        split
        · exact h
        · exact hs1
      · rename_i s2 heq3
        have hs2 : EntryInv s2 := of_eq (P := ChargeRes.aligned) hs1.charge heq3
        clear_value own
        split
        · exact h
        · exact hs2.install

theorem EntryInv.noteLink {s : State} {rgn key : Nat} (h : EntryInv s) :
    EntryInv (s.noteLink rgn key) := by
  unfold State.noteLink
  split
  · exact ite_inv h h
  · exact h

theorem EntryInv.translate {s : State} {a : Agent} {va : Nat} {need : Need} {clsOk : PgCls → Option (BitVec 8)}
    (h : EntryInv s) :
    (s.translate a va need clsOk).aligned := by
  unfold State.translate
  split
  · rename_i s1 l heq
    have hs1 : EntryInv s1 := of_eq (P := TransRes.aligned) h.lookup heq
    split
    · exact ite_inv hs1.uninstall hs1
    · extract_lets s2
      have hs2 : EntryInv s2 := hs1.noteLink
      split
      · split
        · exact hs2.askHost
        · exact ite_inv hs2.askPage hs2
      · exact hs2
  · rename_i s1 _ heq
    have hs1 : EntryInv s1 := of_eq (P := TransRes.aligned) h.lookup heq
    exact hs1
  · exact h.lookup

theorem EntryInv.translateParts {s : State} {a : Agent} {need : Need} {clsOk : PgCls → Option (BitVec 8)} {l : List
    (Nat × Nat)} (h : EntryInv s) :
    (s.translateParts a need clsOk l).aligned := by
  induction l generalizing s with
  | nil =>
    rw [State.translateParts]
    exact PartsRes.aligned.intro h
  | cons e l ih =>
    rw [State.translateParts]
    split
    · rename_i s1 _ heq
      have hs1 : EntryInv s1 := of_eq (P := TransRes.aligned) h.translate heq
      exact PartsRes.aligned.intro hs1
    · rename_i s1 r heq
      have hs1 : EntryInv s1 := of_eq (P := TransRes.aligned) h.translate heq
      exact PartsRes.aligned.intro hs1
    · rename_i s1 heq
      have hs1 : EntryInv s1 := of_eq (P := TransRes.aligned) h.translate heq
      exact PartsRes.aligned.intro hs1
    · rename_i s1 _ heq
      have hs1 : EntryInv s1 := of_eq (P := TransRes.aligned) h.translate heq
      extract_lets key r
      exact ih hs1

/-! ### Accesses -/

theorem EntryInv.readAt {s : State} {pt : Point} {tag : Option (BitVec 5)} {p : Machine.Part} (h : EntryInv s) :
    FstAll EntryInv (s.readAt pt tag p) := by
  unfold State.readAt
  split
  · exact h
  · exact h
  · exact h.coreRead
  · extract_lets s1
    exact h.atHome

theorem EntryInv.writeAt {s : State} {pt : Point} {tag : Option (BitVec 5)} {by_ : Option (Nat × Nat)}
    {p : Machine.Part} {bs : List Byte} (h : EntryInv s) :
    ExcAll (SndAll EntryInv) EntryInv (s.writeAt pt tag by_ p bs) := by
  unfold State.writeAt
  split
  · exact h.updWg
  · exact h.updWg
  · exact h.coreWrite
  · exact h.homeWrite

theorem EntryInv.readParts {s : State} {w : Nat} {a : Machine.Acc} {l : List Machine.Part} (h : EntryInv s) :
    FstAll EntryInv (s.readParts w a l) := by
  induction l generalizing s with
  | nil =>
    rw [State.readParts]
    exact h
  | cons y l ih =>
    rw [State.readParts]
    split
    rename_i s1 _ heq
    have hs1 : EntryInv s1 := h.readAt.of_eq heq
    extract_lets bad
    split
    rename_i s2 _ _ heq2
    exact (ih hs1).of_eq heq2

theorem EntryInv.constGrain {s : State} {g rgn w lane grain : Nat} (h : EntryInv s) :
    FstAll EntryInv (s.constGrain g rgn w lane grain) := by
  unfold State.constGrain
  extract_lets s1 now all held put
  have hs1 : EntryInv s1 := h.atHome
  have hput : ∀ (s : State) (y : List Byte), EntryInv s → EntryInv (put s y) := by
    intro _ _ hs2
    unfold put
    extract_lets c
    exact hs2.setCore
  split
  · exact hput _ _ hs1
  · exact hput _ _ hs1
  · split
    rename_i s12 heq3
    have hs12 : EntryInv s12 := hs1.fresh.of_eq heq3
    extract_lets bs
    exact hput _ _ hs12

theorem EntryInv.constRead {s : State} {g rgn w lane key n : Nat} (h : EntryInv s) :
    FstAll EntryInv (s.constRead g rgn w lane key n) := by
  unfold State.constRead
  extract_lets r
  have hr : FstAll EntryInv r := by
    unfold r
    refine foldl_inv h ?_
    intro _ _ hs2
    split
    rename_i s1 _ _ heq
    exact hs2.fst.constGrain.of_eq heq
  exact hr.fst

theorem EntryInv.constParts {s : State} {g rgn w lane : Nat} {l : List Machine.Part} (h : EntryInv s) :
    FstAll EntryInv (s.constParts g rgn w lane l) := by
  induction l generalizing s with
  | nil =>
    rw [State.constParts]
    exact h
  | cons y l ih =>
    rw [State.constParts]
    split
    rename_i s1 _ _ heq
    have hs1 : EntryInv s1 := h.constRead.of_eq heq
    split
    rename_i s2 _ _ heq2
    exact (ih hs1).of_eq heq2

theorem EntryInv.writeParts {s : State} {w lane : Nat} {a : Machine.Acc} {l : List Machine.Part} {l2 : List Byte}
    (h : EntryInv s) :
    ExcAll (SndAll EntryInv) EntryInv (s.writeParts w lane a l l2) := by
  induction l generalizing s l2 with
  | nil =>
    rw [State.writeParts]
    exact h
  | cons y l ih =>
    rw [State.writeParts]
    split
    · exact ih h
    · split
      · rename_i e heq2
        exact of_eq (P := ExcAll (SndAll EntryInv) EntryInv) h.writeAt heq2
      · rename_i s2 heq2
        have hs2 : EntryInv s2 := of_eq (P := ExcAll (SndAll EntryInv) EntryInv) h.writeAt heq2
        exact ih hs2

theorem EntryInv.pushFor {s : State} {w : Nat} {scope : Scope} {clsAt : Bool} (h : EntryInv s) :
    EntryInv (s.pushFor w scope clsAt) := by
  unfold State.pushFor
  extract_lets s1
  have hs1 : EntryInv s1 := by
    unfold s1
    split
    · exact ite_inv h.writeBackAll h
    · exact h
  exact ite_inv hs1.writeBackSvc hs1

theorem EntryInv.pullFor {s : State} {w : Nat} {scope : Scope} (h : EntryInv s) :
    EntryInv (s.pullFor w scope) := by
  unfold State.pullFor
  split
  · exact ite_inv h.dropClean h
  · exact h

theorem EntryInv.perform {s : State} {w lane : Nat} {a : Machine.Acc} (h : EntryInv s) :
    OptAll Perf.aligned (s.perform w lane a) := by
  unfold State.perform
  split
  · exact OptAll.none
  · extract_lets clsAt s0 cut done rgn clear wide
    have hs0 : EntryInv s0 := ite_inv h.pushFor h
    have hdone : ∀ (s : State) (y : Option (List Word)), EntryInv s → (done s y).aligned := by
      intro _ _ hs2
      unfold done
      exact Perf.aligned.intro (ite_inv hs2.pullFor hs2)
    have hclear : ∀ (s : State), EntryInv s → EntryInv (clear s) := by
      intro _ hs2
      unfold clear
      exact hs2.updThread (fun t ht => ht)
    have hwide : EntryInv wide := by
      unfold wide
      split
      · exact ite_inv hs0.writeBack.dropCopy hs0
      · exact hs0
    split
    · exact OptAll.some (Perf.aligned.intro h)
    · exact OptAll.some (hdone _ _ hs0)
    · split
      · exact OptAll.some (hdone _ _ hs0)
      · extract_lets reserve
        have hreserve : ∀ (s : State), EntryInv s → EntryInv (reserve s) := by
          intro _ hs2
          unfold reserve
          split
          · split
            · exact hs2.updThread (fun t ht => ht)
            · exact hs2
          · exact hs2
        split
        · exact OptAll.some (hdone _ _ (hreserve _ hs0))
        · split
          rename_i s2 l _ heq5
          have hs2 : EntryInv s2 := hs0.readParts.of_eq heq5
          split
          · refine OptAll.some ?_
            extract_lets y_2
            have hy_2 : y_2.aligned := hdone _ _ (hreserve _ hs2)
            exact hy_2
          · exact OptAll.some (hdone _ _ (hreserve _ hs2))
    · split
      · exact OptAll.some (hdone _ _ hs0)
      · split
        rename_i s2 l _ heq4
        have hs2 : EntryInv s2 := hs0.constParts.of_eq heq4
        split
        · refine OptAll.some ?_
          extract_lets y_2
          have hy_2 : y_2.aligned := hdone _ _ hs2
          exact hy_2
        · exact OptAll.some (hdone _ _ hs2)
    · split
      · rename_i s1 heq3
        have hs1 : EntryInv s1 := of_eq (P := ExcAll (SndAll EntryInv) EntryInv) hs0.writeParts heq3
        exact OptAll.some (hdone _ _ hs1)
      · rename_i s1 heq3
        have hs1 : EntryInv s1 := of_eq (P := ExcAll (SndAll EntryInv) EntryInv) hs0.writeParts heq3
        exact OptAll.some (Perf.aligned.intro hs1)
    · split
      · split
        · split
          · exact OptAll.some (hdone _ _ (hclear _ hs0))
          · split
            · rename_i s1 heq7
              have hs1 : EntryInv s1 := of_eq (P := ExcAll (SndAll EntryInv) EntryInv) hs0.writeParts heq7
              exact OptAll.some (hdone _ _ (hclear _ hs1))
            · rename_i s1 heq7
              have hs1 : EntryInv s1 := of_eq (P := ExcAll (SndAll EntryInv) EntryInv) hs0.writeParts heq7
              exact OptAll.some (Perf.aligned.intro (hclear _ hs1))
        · exact OptAll.some (hdone _ _ (hclear _ hs0))
      · exact OptAll.some (hdone _ _ hs0)
    · split
      · exact OptAll.some (hdone _ _ hs0)
      · split
        rename_i s2 l _ heq9
        have hs2 : EntryInv s2 := hwide.readParts.of_eq heq9
        split
        · refine OptAll.some ?_
          extract_lets y_2
          have hy_2 : y_2.aligned := hdone _ _ hs2
          exact hy_2
        · extract_lets old
          split
          · rename_i s1 heq10
            have hs1 : EntryInv s1 := of_eq (P := ExcAll (SndAll EntryInv) EntryInv) hs2.writeParts heq10
            exact OptAll.some (hdone _ _ hs1)
          · rename_i s1 heq10
            have hs1 : EntryInv s1 := of_eq (P := ExcAll (SndAll EntryInv) EntryInv) hs2.writeParts heq10
            exact OptAll.some (Perf.aligned.intro hs1)

theorem Machine.Pend.aligned.insertPend {e : Pend} {l : List Pend} (he : e.aligned) (hl : ListAll Pend.aligned l) :
    ListAll Pend.aligned (insertPend e l) := by
  induction l with
  | nil =>
    rw [Machine.insertPend]
    exact ListAll.cons he hl
  | cons y l ih =>
    rw [Machine.insertPend]
    exact ite_inv (ListAll.cons hl.of_cons.1 (ih hl.of_cons.2)) (ListAll.cons he hl)

theorem Machine.insertAcc_aligned {e : Nat × Machine.Acc} {l : List (Nat × Machine.Acc)} (he : SndAll Acc.aligned e)
    (hl : ListAll (SndAll Acc.aligned) l) :
    ListAll (SndAll Acc.aligned) (insertAcc e l) := by
  induction l with
  | nil =>
    rw [Machine.insertAcc]
    exact ListAll.cons he hl
  | cons e2 l ih =>
    rw [Machine.insertAcc]
    exact ite_inv (ListAll.cons he hl) (ListAll.cons hl.of_cons.1 (ih hl.of_cons.2))

theorem Machine.Wave.aligned.pending {x : Wave} (hx : x.aligned) :
    ListAll (SndAll Acc.aligned) x.pending := by
  unfold Wave.pending
  exact foldl_invMem (ListAll.flatten (hx.threads.mapIdx (fun _ t ht => ht.accs.map (fun a ha => ha)))) ListAll.nil
      (fun s a hs ha => insertAcc_aligned ha hs)

theorem ListAll.needed {s : State} {l l2 : List Pend} (hl : ListAll Pend.aligned l) (hl2 : ListAll Pend.aligned l2) :
    ListAll Pend.aligned (s.needed l l2) := by
  induction l generalizing l2 with
  | nil =>
    rw [State.needed]
    exact hl2
  | cons y l ih =>
    rw [State.needed]
    exact ih hl.of_cons.2 (ite_inv (ListAll.cons hl.of_cons.1 hl2) hl2)

theorem EntryInv.pendingWith {s : State} {w : Nat} {x : Wave} (h : EntryInv s) (hx : x.aligned) :
    ListAll Pend.aligned (s.pendingWith w x) := by
  unfold State.pendingWith
  extract_lets own
  have hown : ∀ (n : Nat) (x : Wave), x.aligned → ListAll Pend.aligned (own n x) := by
    intro _ _ hx2
    unfold own
    exact hx2.pending.map (fun e he => Pend.aligned.intro he.snd)
  exact foldl_invMem h.waves.filter (hown _ _ hx) (fun s2 a hs2 ha => foldl_invMem (hown _ _ ha.snd) hs2
      (fun s3 a2 hs3 ha2 => ha2.insertPend hs3))

theorem EntryInv.chain {s : State} {w lane id : Nat} (h : EntryInv s) :
    ListAll Pend.aligned (s.chain w lane id) := by
  unfold State.chain
  split
  · exact ListAll.nil
  · rename_i x heq
    have hx : x.aligned := (h.waves.find _) _ heq
    extract_lets all
    have hall : ListAll Pend.aligned all := h.pendingWith hx
    split
    · exact ListAll.nil
    · rename_i e heq2
      have he : e.aligned := hall.find? _ heq2
      exact hall.filter.reverse.needed (ListAll.cons he ListAll.nil)

theorem EntryInv.passOver {before after : State} {y : Party} {b : Machine.Acc} (hafter : EntryInv after) :
    EntryInv (before.passOver after y b) := by
  unfold State.passOver
  split
  · exact hafter
  · extract_lets fix
    have hfix : ∀ (n n2 : Nat) (t : Thread) (a : Machine.Acc), t.aligned → a.aligned → (fix n n2 t a).aligned := by
      intro _ _ _ _ _ ha
      unfold fix
      split
      · exact ha
      · split
        · exact ha
        · extract_lets quiet
          exact ite_inv ha ha
    refine EntryInv.withWaves hafter ?_
    refine ListAll.map (P := SndAll Wave.aligned) hafter.waves ?_
    intro _ he
    refine SndAll.intro ?_
    extract_lets y_2
    have hy_2 : y_2.aligned := he.snd
    exact Wave.aligned.intro (hy_2.threads.mapIdx (fun i t ht => Thread.aligned.intro ht.pc ht.epc (ht.accs.map
        (fun a ha => hfix _ _ _ _ ht ha)) ht.st))

theorem Machine.Thread.aligned.checkEarly {t : Thread} {id : Nat} {now : List Byte} (ht : t.aligned) :
    (t.checkEarly id now).aligned := by
  unfold Thread.checkEarly
  extract_lets fix
  have hfix : ∀ (a : Machine.Acc), a.aligned → (fix a).aligned := by
    intro _ ha
    unfold fix
    split
    · exact ite_inv ha ha
    · exact ha
  exact Thread.aligned.intro ht.pc ht.epc (ht.accs.map (fun a ha => hfix _ ha)) ht.st

/-! ### Paths, turns and waking -/

theorem Machine.Wave.aligned.giveTurn {x : Wave} {next : Option Nat} (hx : x.aligned) :
    (x.giveTurn next).aligned := by
  unfold Wave.giveTurn
  exact hx

theorem Machine.Wave.aligned.settleTurn {x : Wave} {path : List Nat} (hx : x.aligned) :
    (x.settleTurn path).aligned := by
  unfold Wave.settleTurn
  split
  · exact hx
  · exact hx.giveTurn

theorem Machine.Wave.aligned.fixTurn {x : Wave} (hx : x.aligned) :
    x.fixTurn.aligned := by
  unfold Wave.fixTurn
  split
  · exact hx
  · split
    · exact hx
    · exact hx.giveTurn

theorem Machine.Thread.aligned.countWindow {t : Thread} (ht : t.aligned) :
    t.countWindow.aligned := by
  unfold Thread.countWindow
  exact Thread.aligned.intro ht.pc ht.epc (ht.accs.map (fun a ha => ite_inv ha ha)) ht.st

theorem EntryInv.wakeCore {s : State} {g : Option Nat} {b : WakeBit} (h : EntryInv s) :
    EntryInv (s.wakeCore g b) := by
  unfold State.wakeCore
  split
  · extract_lets c
    exact ite_inv h.setCore h
  · exact h

theorem Machine.Wave.aligned.unblock {x : Wave} {lane : Nat} (hx : x.aligned) :
    (x.unblock lane).aligned := by
  unfold Wave.unblock
  refine Wave.aligned.fixTurn ?_
  refine Wave.aligned.updThread hx ?_
  intro _ ht
  split
  · exact Thread.aligned.intro ht.pc ht.epc ht.accs trivial
  · exact ht

theorem EntryInv.wakeWhere {s : State} {w : Nat} {b : WakeBit} {cond : Why → Bool} (h : EntryInv s) :
    EntryInv (s.wakeWhere w b cond) := by
  unfold State.wakeWhere
  split
  · exact h
  · rename_i x heq
    have hx : x.aligned := (h.waves.find _) _ heq
    extract_lets lanes
    exact ite_inv h (h.setWave (foldl_inv hx (fun s2 _ hs2 => hs2.unblock))).wakeCore

theorem EntryInv.wakeAll {s : State} {b : WakeBit} {cond : Why → Bool} (h : EntryInv s) :
    EntryInv (s.wakeAll b cond) := by
  unfold State.wakeAll
  exact foldl_inv h (fun s2 a hs2 => hs2.wakeWhere)

theorem EntryInv.putBar {s : State} {r : BarRef} {b : Bar} (h : EntryInv s) :
    EntryInv (s.putBar r b) := by
  unfold State.putBar
  exact h.updWg

theorem Machine.Thread.aligned.returnWait {t : Thread} {r : BarRef} {b : Bar} (ht : t.aligned) :
    (t.returnWait r b).aligned := by
  unfold Thread.returnWait
  split
  · rename_i y _ _ _ _ _ _ pc npc heq
    obtain ⟨hpc, hnpc⟩ : PcOk pc ∧ PcOk npc := of_eq (P := TSt.aligned) ht.st heq
    split
    · extract_lets a fence y_2
      have ha : a.aligned := Acc.aligned.intro hpc
      have hfence : ∀ (y : Scope), (fence y).aligned := by
        intro _
        unfold fence
        exact ha
      have hy_2 : y_2.aligned := ht.countWindow
      refine Thread.aligned.intro hnpc hy_2.epc ?_ trivial
      refine ListAll.append hy_2.accs ?_
      refine ListAll.cons ha ?_
      split
      · exact ListAll.cons (hfence _) ListAll.nil
      · exact ListAll.nil
    · exact ht
  · exact ht

theorem Machine.Wave.aligned.returnWaits {x : Wave} {r : BarRef} {b : Bar} (hx : x.aligned) :
    (x.returnWaits r b).aligned := by
  unfold Wave.returnWaits
  exact Wave.aligned.fixTurn (Wave.aligned.intro (hx.threads.map (fun t ht => ht.returnWait)))

theorem EntryInv.returnWaits {s : State} {r : BarRef} {b : Bar} (h : EntryInv s) :
    EntryInv (s.returnWaits r b) := by
  unfold State.returnWaits
  extract_lets s1
  have hs1 : EntryInv s1 := by
    unfold s1
    refine foldl_inv h ?_
    intro _ _ hs2
    split
    · rename_i x heq
      have hx : x.aligned := (hs2.waves.find _) _ heq
      extract_lets y_2
      have hy_2 : y_2.aligned := hx.returnWaits
      exact ite_inv hs2 (hs2.setWave hy_2).wakeCore
    · exact hs2
  refine EntryInv.withSaved hs1 ?_
  refine ListAll.map (P := SndAll Saved.aligned) hs1.saved ?_
  intro _ he
  refine SndAll.intro ?_
  extract_lets y
  have hy : y.aligned := he.snd
  exact Saved.aligned.intro (hy.waves.map (fun e2 he2 => he2.snd.returnWaits)) hy.caller

theorem EntryInv.freeDecisions {s : State} {wg : Nat} (h : EntryInv s) :
    EntryInv (s.freeDecisions wg) := by
  unfold State.freeDecisions
  extract_lets mine drop
  exact EntryInv.wakeAll h

theorem EntryInv.barStep {s : State} {r : BarRef} {b : Bar} (h : EntryInv s) :
    EntryInv (s.barStep r b) := by
  unfold State.barStep
  split
  · extract_lets b1
    exact h.putBar.returnWaits
  · exact h.putBar

theorem EntryInv.barSettle {s : State} {r : BarRef} (h : EntryInv s) :
    EntryInv (s.barSettle r) := by
  unfold State.barSettle
  extract_lets b
  exact ite_inv h.barStep h

theorem EntryInv.barArrive {s : State} {r : BarRef} (h : EntryInv s) :
    OptAll EntryInv (s.barArrive r) := by
  unfold State.barArrive
  extract_lets b
  exact ite_inv OptAll.none (OptAll.some h.barStep)

theorem EntryInv.barArriveOrDrop {s : State} {r : BarRef} (h : EntryInv s) :
    EntryInv (s.barArriveOrDrop r) := by
  unfold State.barArriveOrDrop
  split
  · rename_i s1 heq
    exact h.barArrive _ heq
  · exact h.barStep

theorem EntryInv.barLand {s : State} {r : BarRef} {n : Nat} {flt : Bool} (h : EntryInv s) :
    EntryInv (s.barLand r n flt) := by
  unfold State.barLand
  extract_lets b
  exact h.barStep

theorem EntryInv.land {s : State} {d : Done} {n : Nat} {flt : Bool} (h : EntryInv s) :
    EntryInv (s.land d n flt) := by
  unfold State.land
  split
  · exact h.barLand
  · exact h

/-! ### Fault domains and the end of work -/

theorem EntryInv.writeState {s : State} {r : Nat} (h : EntryInv s) :
    EntryInv (s.writeState r) := by
  unfold State.writeState
  split
  · exact h.putNum
  · exact h

theorem EntryInv.signal {s : State} {fn vector : Nat} (h : EntryInv s) :
    EntryInv (s.signal fn vector) := by
  unfold State.signal
  exact h

theorem EntryInv.post {s : State} {dom : Nat} {r : Rec} (h : EntryInv s) :
    FstAll EntryInv (s.post dom r) := by
  unfold State.post
  split
  · exact h
  · extract_lets key next full s1 s2
    have hs1 : EntryInv s1 := by
      unfold s1
      clear_value key full next
      split
      · exact h.baseWrite.updRegion (fun y4 hy4 => hy4)
      · exact h.updRegion (fun y4 hy4 => hy4)
    have hs2 : EntryInv s2 := hs1.writeState
    exact ite_inv hs2.signal hs2

theorem EntryInv.engRec {s : State} {rgn : Nat} {core : Option Nat} {cluster pc : Nat} {eng : Bool} {f : Flt}
    (h : EntryInv s) :
    FstAll EntryInv (s.engRec rgn core cluster pc eng f) := by
  unfold State.engRec
  split
  rename_i s1 heq
  exact h.fresh.of_eq heq

theorem EntryInv.postEng {s : State} {rgn : Nat} {core : Option Nat} {cluster pc : Nat} {f : Flt} (h : EntryInv s) :
    EntryInv (s.postEng rgn core cluster pc f) := by
  unfold State.postEng
  split
  rename_i s1 _ heq
  have hs1 : EntryInv s1 := h.engRec.of_eq heq
  exact hs1.post.fst

theorem EntryInv.postEvent {s : State} {dom rgn : Nat} {f : Flt} (h : EntryInv s) :
    EntryInv (s.postEvent dom rgn f) := by
  unfold State.postEvent
  split
  rename_i s1 heq
  have hs1 : EntryInv s1 := h.fresh.of_eq heq
  split
  rename_i s12 _ heq2
  have hs12 : EntryInv s12 := hs1.engRec.of_eq heq2
  exact hs12.post.fst

theorem EntryInv.postFjoub {s : State} {code sub : BitVec 8} {addr : Nat} {det : Word} (h : EntryInv s) :
    EntryInv (s.postFjoub code sub addr det) := by
  unfold State.postFjoub
  exact h

theorem EntryInv.pushRegion {s : State} {r : Nat} (h : EntryInv s) :
    EntryInv (s.pushRegion r) := by
  unfold State.pushRegion
  split
  · exact h
  · exact foldl_inv h (fun s2 a hs2 => hs2.writeBackAll.writeBackSvc)

theorem EntryInv.raiseDone {s : State} {r : Nat} (h : EntryInv s) :
    EntryInv (s.raiseDone r) := by
  unfold State.raiseDone
  split
  · exact h
  · split
    · exact h
    · extract_lets s1
      have hs1 : EntryInv s1 := by
        unfold s1
        split
        · exact h.putNum
        · exact h
      exact ite_inv hs1.signal hs1

theorem Machine.Wave.aligned.resume {x : Wave} {arrived : Word} (hx : x.aligned) :
    (x.resume arrived).aligned := by
  unfold Wave.resume
  refine Wave.aligned.fixTurn ?_
  refine Wave.aligned.intro ?_
  refine ListAll.mapIdx (P := Thread.aligned) hx.threads ?_
  intro _ _ ht
  split
  · split
    · extract_lets y_2
      have hy_2 : y_2.aligned := ht.countWindow
      exact Thread.aligned.intro (ht.pc.add rfl) hy_2.epc hy_2.accs trivial
    · extract_lets y_2
      have hy_2 : y_2.aligned := ht.countWindow
      exact Thread.aligned.intro (ht.pc.add rfl) hy_2.epc hy_2.accs trivial
    · exact ht
  · exact ht

theorem Machine.Wave.aligned.joinsDone {x : Wave} (hx : x.aligned) :
    x.joinsDone.aligned := by
  unfold Wave.joinsDone
  exact foldl_inv hx (fun s a hs => ite_inv (Wave.aligned.resume hs) hs)

theorem Machine.Wave.aligned.syncsDone {x : Wave} (hx : x.aligned) :
    x.syncsDone.aligned := by
  unfold Wave.syncsDone
  exact foldl_inv hx (fun s a hs => ite_inv (Wave.aligned.resume hs) hs)

theorem EntryInv.arrsByExit {s : State} {w : Nat} (h : EntryInv s) :
    EntryInv (s.arrsByExit w) := by
  unfold State.arrsByExit
  split
  · exact h
  · rename_i x heq
    have hx : x.aligned := (h.waves.find _) _ heq
    split
    exact foldl_inv (h.setWave hx) (fun s2 a hs2 => hs2.barArriveOrDrop)

theorem EntryInv.pxWake {s : State} {w : Nat} (h : EntryInv s) :
    EntryInv (s.pxWake w) := by
  unfold State.pxWake
  split
  · split
    · exact h.wakeWhere
    · exact h
  · exact h

theorem EntryInv.wgGone {s : State} {wg : Nat} (h : EntryInv s) :
    EntryInv (s.wgGone wg) := by
  unfold State.wgGone
  split
  · exact h
  · extract_lets gone
    have hgone : EntryInv gone := h.withSaved h.saved.del
    split
    · exact hgone.updRegion (fun y4 hy4 => hy4)
    · exact hgone.updRegion (fun y4 hy4 => hy4)

theorem EntryInv.groupEnd {s : State} {q : Nat} (h : EntryInv s) :
    EntryInv (s.groupEnd q) := by
  unfold State.groupEnd
  split
  · exact h
  · exact ite_inv h (foldl_inv h (fun s2 _ hs2 => hs2.wgGone))

theorem EntryInv.wgEnd {s : State} {wg : Nat} (h : EntryInv s) :
    EntryInv (s.wgEnd wg) := by
  unfold State.wgEnd
  split
  · exact h
  · split
    · exact h.groupEnd
    · exact h.wgGone

theorem EntryInv.owe {s : State} {w : Nat} (h : EntryInv s) :
    EntryInv (s.owe w) := by
  unfold State.owe
  split
  · rename_i x _ heq _
    have hx : x.aligned := (h.waves.find _) _ heq
    extract_lets c n y_2
    have hy_2 : EntryInv y_2 := h.setCore
    exact hy_2.withWaves (h.waves.ins hx)
  · exact h

theorem EntryInv.waveEnd {s : State} {w : Nat} (h : EntryInv s) :
    EntryInv (s.waveEnd w) := by
  unfold State.waveEnd
  split
  · exact h
  · split
    · extract_lets s0 s1
      have hs0 : EntryInv s0 := h.owe
      have hs1 : EntryInv s1 := hs0.withWaves hs0.waves.del
      split
      · split
        · exact EntryInv.wgEnd hs1
        · exact hs1
      · exact ite_inv hs1.freeDecisions hs1.wgEnd
    · exact h

theorem EntryInv.exitThread {s : State} {w lane : Nat} (h : EntryInv s) :
    EntryInv (s.exitThread w lane) := by
  unfold State.exitThread
  extract_lets s1
  have hs1 : EntryInv s1 := h.withWaves (h.waves.upd (fun x hx => Wave.aligned.fixTurn (Wave.aligned.syncsDone
      (Wave.aligned.joinsDone (hx.updThread (fun t ht => Thread.aligned.intro ht.pc ht.epc ListAll.nil trivial))))))
  exact hs1.arrsByExit.pxWake.waveEnd

theorem Machine.Acc.aligned.performed {val : Option (List Word)} {a : Machine.Acc} (ha : a.aligned) :
    OptAll Acc.aligned (Acc.performed val a) := by
  unfold Acc.performed
  split
  · exact OptAll.some ha
  · exact OptAll.none

theorem Machine.Thread.aligned.setAcc {t : Thread} {id : Nat} {g : Machine.Acc → Option Machine.Acc} (ht : t.aligned)
    (hg : ∀ (a : Machine.Acc), a.aligned → OptAll Acc.aligned (g a)) :
    (t.setAcc id g).aligned := by
  unfold Thread.setAcc
  exact Thread.aligned.intro ht.pc ht.epc (ht.accs.filterMap (fun a ha => ite_inv (hg _ ha) (OptAll.some ha))) ht.st

theorem EntryInv.performKept {s : State} {e : Pend} (h : EntryInv s) :
    EntryInv (s.performKept e) := by
  unfold State.performKept
  split
  · rename_i p heq
    have hp : p.aligned := h.perform _ heq
    exact hp.s.updThread (fun t ht => ht.setAcc (fun a ha => Machine.Acc.aligned.performed ha))
  · exact h

theorem EntryInv.flushWave {s : State} {w : Nat} {x : Wave} (h : EntryInv s) (hx : x.aligned) :
    EntryInv (s.flushWave w x) := by
  unfold State.flushWave
  refine foldl_invMem hx.pending h ?_
  intro _ _ hs2 _
  split
  · split
    · exact hs2
    · exact foldl_inv hs2 (fun s3 _ hs3 => hs3.performKept)
  · exact hs2

theorem Machine.GQueue.fresh_aligned :
    GQueue.fresh.aligned := by
  unfold GQueue.fresh
  exact GQueue.aligned.intro PcOk.zero

theorem Machine.GQueue.aligned.rest {q : GQueue} (hq : q.aligned) :
    q.rest.aligned := by
  unfold GQueue.rest
  exact ite_inv hq hq

theorem Machine.Cluster.aligned.discard {c : Cluster} {rs : List Nat} (hc : c.aligned) :
    (c.discard rs).aligned := by
  unfold Cluster.discard
  extract_lets mine goneQ keep
  have hkeep : ∀ (y : Nat × GQueue), SndAll GQueue.aligned y → SndAll GQueue.aligned (keep y) := by
    intro _ hy
    unfold keep
    split
    · exact GQueue.fresh_aligned
    · refine SndAll.intro ?_
      refine GQueue.aligned.rest ?_
      extract_lets y_2
      exact hy.snd
  exact Cluster.aligned.intro (hc.queues.map (fun e he => hkeep _ he)) hc.bins.filter

theorem Machine.Die.aligned.discard {d : Die} {rs : List Nat} (hd : d.aligned) :
    (d.discard rs).aligned := by
  unfold Die.discard
  exact Die.aligned.intro hd.bins.filter hd.sweepQ.filter hd.engines.filter

theorem EntryInv.clearEngines {s : State} {cluster : Nat} {members : List Nat} (h : EntryInv s) :
    EntryInv (s.clearEngines cluster members) := by
  unfold State.clearEngines
  refine foldl_inv h ?_
  intro _ _ hs2
  extract_lets g c none_ y e
  exact hs2.setCore

theorem EntryInv.spoilBin {s : State} {b : BinDesc} (h : EntryInv s) :
    EntryInv (s.spoilBin b) := by
  unfold State.spoilBin
  refine foldl_inv h ?_
  intro _ _ hs2
  split
  · split
    rename_i s1 heq2
    have hs1 : EntryInv s1 := hs2.fresh.of_eq heq2
    exact hs1.baseWrite
  · exact hs2

theorem EntryInv.countFwd {s : State} (h : EntryInv s) :
    EntryInv s.countFwd := by
  unfold State.countFwd
  extract_lets keep
  exact ite_inv h h

theorem Machine.Delivery.aligned.without {d : Delivery} {rs : List Nat} (hd : d.aligned) :
    OptAll Delivery.aligned (d.without rs) := by
  unfold Delivery.without
  extract_lets recs
  exact ite_inv OptAll.none (OptAll.some hd)

theorem EntryInv.discardWork {s : State} {rs : List Nat} (h : EntryInv s) :
    EntryInv (s.discardWork rs) := by
  unfold State.discardWork
  extract_lets mine dead s1 s2 s2b s3 cluster
  have hdead : ListAll (SndAll Wave.aligned) dead := h.waves.filter
  have hs1 : EntryInv s1 := foldl_invMem hdead h (fun s4 a hs4 ha => (hs4.flushWave ha.snd).owe)
  have hs2 : EntryInv s2 := foldl_inv hs1 (fun s4 a hs4 => hs4.wakeCore)
  have hs2b : EntryInv s2b := foldl_inv hs2 (fun s4 _ hs4 => hs4.spoilBin)
  have hs3 : EntryInv s3 := foldl_inv hs2b (fun s4 a hs4 => hs4.clearEngines)
  have hcluster : ∀ (y : Cluster), y.aligned → (cluster y).aligned := by
    intro _ hy
    unfold cluster
    extract_lets c1 svc
    exact hy.discard
  exact EntryInv.countFwd (EntryInv.intro hs3.waves.filter hs3.saved.filter hs3.regions (hs3.clusters.map
      (fun e he => hcluster _ he.snd)) (hs3.dies.map (fun y hy => hy.discard)) (hs3.deliveries.filter.filterMap
      (fun y hy => hy.without)))

theorem EntryInv.updSet {s : State} {i : Nat} {g : FSet → FSet} (h : EntryInv s) :
    EntryInv (s.updSet i g) := by
  unfold State.updSet
  exact h

theorem EntryInv.raiseResc {s : State} {i : Nat} (h : EntryInv s) :
    EntryInv (s.raiseResc i) := by
  unfold State.raiseResc
  extract_lets key
  exact h.putNum

theorem EntryInv.clearWindow {s : State} {i : Nat} (h : EntryInv s) :
    EntryInv (s.clearWindow i) := by
  unfold State.clearWindow
  extract_lets fs drop
  have hdrop : ∀ (t : Thread), t.aligned → (drop t).aligned := by
    intro _ ht
    unfold drop
    split
    · exact ite_inv ht ht
    · exact ht
  refine EntryInv.withWaves h ?_
  refine ListAll.map (P := SndAll Wave.aligned) h.waves ?_
  intro _ he
  refine SndAll.intro ?_
  extract_lets y
  have hy : y.aligned := he.snd
  exact Wave.aligned.intro (hy.threads.map (fun t ht => hdrop _ ht))

theorem EntryInv.resolveNone {s : State} {i : Nat} (h : EntryInv s) :
    EntryInv (s.resolveNone i) := by
  unfold State.resolveNone
  extract_lets x live s1
  have hs1 : EntryInv s1 := h.updSet
  exact ite_inv (EntryInv.wakeAll (EntryInv.raiseResc (EntryInv.clearWindow hs1))) h

theorem EntryInv.stopRegions {s : State} {rs : List Nat} (h : EntryInv s) :
    EntryInv (s.stopRegions rs) := by
  unfold State.stopRegions
  exact foldl_inv h (fun s2 _ hs2 => hs2.updRegion (fun y hy => hy))

theorem EntryInv.squashFacets {s : State} {i mask : Nat} (h : EntryInv s) :
    EntryInv (s.squashFacets i mask) := by
  unfold State.squashFacets
  extract_lets x fs rs s1 s2 s3
  have hs1 : EntryInv s1 := h.discardWork
  have hs2 : EntryInv s2 := hs1.updSet
  have hs3 : EntryInv s3 := hs2
  exact hs3.stopRegions.resolveNone

theorem EntryInv.squashWaiting {s : State} {rs : List Nat} (h : EntryInv s) :
    EntryInv (s.squashWaiting rs) := by
  unfold State.squashWaiting
  extract_lets hit mark
  exact EntryInv.stopRegions h

theorem EntryInv.squashKilled {s : State} {rs : List Nat} (h : EntryInv s) :
    EntryInv (s.squashKilled rs) := by
  unfold State.squashKilled
  refine foldl_inv h.squashWaiting ?_
  intro _ _ hs2
  extract_lets x live fs
  exact ite_inv (ite_inv hs2.squashFacets (ite_inv hs2 hs2.squashFacets)) hs2

theorem EntryInv.killRegion {s : State} {r : Nat} (h : EntryInv s) :
    EntryInv (s.killRegion r) := by
  unfold State.killRegion
  extract_lets rs s1
  have hs1 : EntryInv s1 := h.squashKilled.discardWork
  exact foldl_inv hs1 (fun s2 a hs2 => EntryInv.writeState (EntryInv.raiseDone (hs2.pushRegion.updRegion (fun y hy => hy))))

theorem EntryInv.suspendRegion {s : State} {r : Nat} {quota : Bool} (h : EntryInv s) :
    EntryInv (s.suspendRegion r quota) := by
  unfold State.suspendRegion
  extract_lets rs s1 mark s2
  have hs1 : EntryInv s1 := foldl_inv h (fun s3 a hs3 => EntryInv.writeState (hs3.updRegion (fun y hy => hy)))
  have hs2 : EntryInv s2 := hs1
  exact foldl_inv hs2 (fun s3 a hs3 => hs3.wakeCore)

theorem EntryInv.quotaEvent {s : State} {r : Nat} {sub : BitVec 8} (h : EntryInv s) :
    EntryInv (s.quotaEvent r sub) := by
  unfold State.quotaEvent
  exact h.suspendRegion.postEvent

theorem EntryInv.overflowAction {s : State} {rgn : Nat} (h : EntryInv s) :
    EntryInv (s.overflowAction rgn) := by
  unfold State.overflowAction
  split
  · exact h
  · exact ite_inv h.squashFacets h.squashFacets

/-! ### Operations that instructions share -/

theorem Machine.Thread.aligned.park {t : Thread} {pc : DWord} {f : Flt} {seq : Nat} (ht : t.aligned) (hpc : PcOk pc) :
    (t.park pc f seq).aligned := by
  unfold Thread.park
  exact Thread.aligned.intro hpc ht.epc ht.accs trivial

theorem Machine.Thread.aligned.deliver {t : Thread} {trape : DWord} {code sub : BitVec 8} (ht : t.aligned)
    (htrape : PcOk trape) :
    (t.deliver trape code sub).aligned := by
  unfold Thread.deliver
  exact Thread.aligned.intro htrape PcOk.clear ht.accs trivial

theorem Machine.Thread.aligned.replay {t : Thread} (ht : t.aligned) :
    t.replay.aligned := by
  unfold Thread.replay
  split
  · exact Thread.aligned.intro ht.pc ht.epc ht.accs trivial
  · exact ht

theorem Machine.Thread.aligned.eret {t : Thread} (ht : t.aligned) :
    t.eret.aligned := by
  unfold Thread.eret
  exact Thread.aligned.intro ht.epc ht.epc ht.accs ht.st

theorem EntryInv.fixTurn {s : State} {w : Nat} (h : EntryInv s) :
    EntryInv (s.fixTurn w) := by
  unfold State.fixTurn
  exact h.withWaves (h.waves.upd (fun x hx => hx.fixTurn))

theorem EntryInv.deliverThread {s : State} {w lane rgn : Nat} {code sub : BitVec 8} (h : EntryInv s) :
    EntryInv (s.deliverThread w lane rgn code sub) := by
  unfold State.deliverThread
  extract_lets trape
  refine EntryInv.wakeCore ?_
  refine EntryInv.fixTurn ?_
  refine EntryInv.updThread h ?_
  intro _ ht
  refine Thread.aligned.deliver ht ?_
  unfold trape
  split
  · rename_i y2 heq
    have hy2 : y2.aligned := h.region? _ heq
    exact hy2.rcb.trape
  · exact PcOk.zero

theorem EntryInv.replayThread {s : State} {w lane : Nat} (h : EntryInv s) :
    EntryInv (s.replayThread w lane) := by
  unfold State.replayThread
  exact (h.updThread (fun t ht => ht.replay)).fixTurn.wakeCore

theorem EntryInv.domainAct {s : State} {w lane rgn : Nat} {code sub : BitVec 8} {marked : Bool} (h : EntryInv s) :
    EntryInv (s.domainAct w lane rgn code sub marked) := by
  unfold State.domainAct
  split
  · exact h.overflowAction
  · split
    · exact ite_inv h.deliverThread (ite_inv h.replayThread h.killRegion)
    · exact h
    · exact h.killRegion

theorem EntryInv.doAct {s : State} {y : DomAct} (h : EntryInv s) :
    EntryInv (s.doAct y) := by
  unfold State.doAct
  split
  · exact h.domainAct
  · exact h.killRegion

theorem EntryInv.act {s : State} {a : DomAct} (h : EntryInv s) :
    EntryInv (s.act a) := by
  unfold State.act
  split
  · exact h
  · exact h.doAct

theorem EntryInv.holdActs {s : State} (h : EntryInv s) :
    EntryInv s.holdActs := by
  unfold State.holdActs
  exact h

theorem EntryInv.actAll {s : State} (h : EntryInv s) :
    EntryInv s.actAll := by
  unfold State.actAll
  split
  · exact foldl_inv h (fun s2 _ hs2 => hs2.doAct)
  · exact h

theorem EntryInv.dataError {s : State} {rgn key : Nat} (h : EntryInv s) :
    EntryInv (s.dataError rgn key) := by
  unfold State.dataError
  extract_lets s1
  have hs1 : EntryInv s1 := h.postEvent
  split
  · exact hs1
  · exact hs1
  · exact hs1.act

theorem EntryInv.walkError {s : State} {rgn : Nat} {f : Flt} (h : EntryInv s) :
    EntryInv (s.walkError rgn f) := by
  unfold State.walkError
  split
  · exact h.dataError
  · exact h

theorem EntryInv.takeFault {s : State} {w lane : Nat} {pc : DWord} {f : Flt} (h : EntryInv s) (hpc : PcOk pc) :
    EntryInv (s.takeFault w lane pc f) := by
  unfold State.takeFault
  split
  · split
    rename_i s1 _ heq3
    have hs1 : EntryInv s1 := h.post.of_eq heq3
    extract_lets s2
    have hs2 : EntryInv s2 := (hs1.updThread (fun t2 ht2 => ht2.park hpc)).fixTurn.act
    exact hs2.walkError
  · exact h

theorem EntryInv.takeQuota {s : State} {w lane : Nat} {pc : DWord} {ov : Nat} {det1 : Nat} (h : EntryInv s) (hpc : PcOk pc) :
    EntryInv (s.takeQuota w lane pc ov det1) := by
  unfold State.takeQuota
  split
  · extract_lets f
    split
    rename_i s1 _ heq2
    have hs1 : EntryInv s1 := h.post.of_eq heq2
    exact (hs1.updThread (fun t ht => ht.park hpc)).fixTurn.suspendRegion
  · exact h

theorem EntryInv.accOf {s : State} {w lane id : Nat} (h : EntryInv s) :
    OptAll Acc.aligned (s.accOf w lane id) := by
  unfold State.accOf
  exact h.thread?.bind (fun t ht => ht.accs.find?)

theorem Machine.Thread.aligned.markDue {t : Thread} {a : Machine.Acc} (ht : t.aligned) :
    (t.markDue a).aligned := by
  unfold Thread.markDue
  exact Thread.aligned.intro ht.pc ht.epc (ht.accs.map (fun a2 ha2 => ite_inv ha2 ha2)) ht.st

theorem EntryInv.feedWake {s : State} {w : Nat} {a : Machine.Acc} (h : EntryInv s) :
    EntryInv (s.feedWake w a) := by
  unfold State.feedWake
  split
  · exact h
  · exact h.wakeWhere

theorem EntryInv.releaseLast {s : State} {w lane id : Nat} (h : EntryInv s) :
    EntryInv (s.releaseLast w lane id) := by
  unfold State.releaseLast
  extract_lets s1
  have hs1 : EntryInv s1 := by
    unfold s1
    split
    · exact h
    · exact foldl_inv h (fun s2 _ hs2 => foldl_inv hs2 (fun s3 _ hs3 => hs3.performKept))
  exact hs1.pushFor

theorem EntryInv.performRaw {s : State} {w lane : Nat} {a : Machine.Acc} (h : EntryInv s) (ha : a.aligned) :
    OptAll EntryInv (s.performRaw w lane a) := by
  unfold State.performRaw
  split
  · exact OptAll.some h
  · extract_lets ahead s0 rgn
    have hs0 : EntryInv s0 := ite_inv (h.updThread (fun t ht => ht.checkEarly)) h
    refine OptAll.map (P := Perf.aligned) hs0.perform ?_
    intro _ hy2
    extract_lets done s1 s2 s3
    have hdone : ∀ (a : Machine.Acc), a.aligned → OptAll Acc.aligned (done a) := by
      intro _ ha2
      unfold done
      split
      · exact OptAll.none
      · exact Machine.Acc.aligned.performed ha2
    have hs1 : EntryInv s1 := (hy2.s.updThread (fun t ht => (ht.setAcc (fun a2 ha2 => hdone _ ha2)).markDue)).feedWake
    have hs2 : EntryInv s2 := ite_inv hs1.passOver hs1
    have hs3 : EntryInv s3 := by
      unfold s3
      split
      · exact hs2.dataError
      · exact hs2
    split
    · exact hs3.releaseLast.takeFault ha.pc
    · exact hs3

theorem EntryInv.dueFor {s : State} {y : Party} {scope : Scope} (h : EntryInv s) :
    ListAll Pend.aligned (s.dueFor y scope) := by
  unfold State.dueFor
  exact h.waves.flatMap (fun e he => ListAll.flatten (he.snd.threads.mapIdx (fun i t ht => ht.accs.filter.map
      (fun a ha => Pend.aligned.intro ha))))

theorem EntryInv.forceIn {s : State} {y : Party} {scope : Scope} {n : Nat} (h : EntryInv s) :
    OptAll EntryInv (s.forceIn y scope n) := by
  induction n generalizing s y scope with
  | zero =>
    rw [State.forceIn]
    exact OptAll.some h
  | succ n ih =>
    rw [State.forceIn]
    refine foldl_invMem h.dueFor (OptAll.some h) ?_
    intro _ _ hs2 _
    refine OptAll.bind (P := EntryInv) hs2 ?_
    intro _ hs1
    refine OptAll.map (P := EntryInv) ?_ (fun s12 hs12 => foldl_inv hs12 (fun s3 _ hs3 => hs3.pushFor))
    refine foldl_invMem hs1.chain (OptAll.some hs1) ?_
    intro _ _ hs3 _
    refine OptAll.bind (P := EntryInv) hs3 ?_
    intro _ hs12
    beta_reduce
    split
    · exact OptAll.some hs12
    · rename_i a3 heq
      have ha3 : a3.aligned := hs12.accOf _ heq
      exact (ite_inv (OptAll.some hs12) (ih hs12)).bind (fun s13 hs13 => hs13.performRaw ha3)

theorem EntryInv.force {s : State} {y : Party} {scope : Scope} (h : EntryInv s) :
    OptAll EntryInv (s.force y scope) := by
  unfold State.force
  exact h.forceIn

theorem EntryInv.acquireAt {s : State} {w lane : Nat} {scope : Scope} (h : EntryInv s) :
    OptAll EntryInv (s.acquireAt w lane scope) := by
  unfold State.acquireAt
  exact h.force.map (fun s1 hs1 => hs1.pullFor)

theorem EntryInv.performOne {s : State} {w lane : Nat} {a : Machine.Acc} (h : EntryInv s) (ha : a.aligned) :
    OptAll EntryInv (s.performOne w lane a) := by
  unfold State.performOne
  exact ite_inv (h.performRaw ha) (h.force.bind (fun s1 hs1 => hs1.performRaw ha))

theorem EntryInv.performList {s : State} {l : List (Nat × Nat × Nat)} (h : EntryInv s) :
    OptAll EntryInv (s.performList l) := by
  induction l generalizing s with
  | nil =>
    rw [State.performList]
    exact OptAll.some h
  | cons e l ih =>
    rw [State.performList]
    split
    · exact ih h
    · rename_i a heq
      have ha : a.aligned := h.accOf _ heq
      exact (h.performOne ha).bind (fun s1 hs1 => ih hs1)

theorem EntryInv.serveOne {s : State} {k : Nat} {q : SvcReq} (h : EntryInv s) :
    OptAll EntryInv (s.serveOne k q) := by
  unfold State.serveOne
  refine OptAll.map (P := EntryInv) h.performList ?_
  intro _ hs1
  extract_lets c
  have hc : c.aligned := hs1.cluster
  exact hs1.setCluster hc

theorem EntryInv.performElem {s : State} {e : Nat × Nat × Nat} (h : EntryInv s) :
    OptAll EntryInv (s.performElem e) := by
  unfold State.performElem
  extract_lets k q
  exact ite_inv (foldl_inv (OptAll.some h) (fun s2 _ hs2 => hs2.bind (fun s1 hs1 => hs1.serveOne))) h.performList

theorem EntryInv.performUpTo {s : State} {w lane id : Nat} (h : EntryInv s) :
    OptAll EntryInv (s.performUpTo w lane id) := by
  unfold State.performUpTo
  exact foldl_inv (OptAll.some h) (fun s2 _ hs2 => hs2.bind (fun s1 hs1 => hs1.performElem))

theorem EntryInv.drainIf {s : State} {w lane : Nat} {p : Machine.Acc → Bool} (h : EntryInv s) :
    OptAll EntryInv (s.drainIf w lane p) := by
  unfold State.drainIf
  split
  · exact OptAll.some h
  · exact foldl_inv (OptAll.some h) (fun s2 _ hs2 => hs2.bind (fun s1 hs1 => hs1.performUpTo))

theorem EntryInv.drain {s : State} {w lane : Nat} (h : EntryInv s) :
    OptAll EntryInv (s.drain w lane) := by
  unfold State.drain
  exact h.drainIf

theorem EntryInv.drainSvc {s : State} {w : Nat} (h : EntryInv s) :
    OptAll EntryInv (s.drainSvc w) := by
  unfold State.drainSvc
  extract_lets k
  exact foldl_inv (OptAll.some h) (fun s2 _ hs2 => hs2.bind (fun s1 hs1 => hs1.performUpTo))

theorem EntryInv.releaseIf {s : State} {w lane : Nat} {scope : Scope} {p : Machine.Acc → Bool} (h : EntryInv s) :
    OptAll EntryInv (s.releaseIf w lane scope p) := by
  unfold State.releaseIf
  exact (h.drainIf.bind (fun s1 hs1 => ite_inv hs1.drainSvc (OptAll.some hs1))).map (fun s1 hs1 => hs1.pushFor)

theorem EntryInv.releaseAt {s : State} {w lane : Nat} {scope : Scope} (h : EntryInv s) :
    OptAll EntryInv (s.releaseAt w lane scope) := by
  unfold State.releaseAt
  exact h.releaseIf

theorem EntryInv.releaseLag {s : State} {w lane : Nat} {scope : Scope} {id : Nat} (h : EntryInv s) :
    OptAll EntryInv (s.releaseLag w lane scope id) := by
  unfold State.releaseLag
  exact ite_inv (h.releaseIf.map (fun s1 hs1 => hs1.updThread (fun t ht => Thread.aligned.intro ht.pc ht.epc
      (ht.accs.map (fun a ha => ite_inv ha ha)) ht.st))) h.releaseAt

theorem EntryInv.raise? {s : State} {w lane : Nat} {pc : DWord} {f : Flt} (h : EntryInv s) (hpc : PcOk pc) :
    OptAll EntryInv (s.raise? w lane pc f) := by
  unfold State.raise?
  exact h.releaseAt.map (fun s1 hs1 => hs1.takeFault hpc)

theorem EntryInv.raise {s : State} {w lane : Nat} {pc : DWord} {f : Flt} (h : EntryInv s) (hpc : PcOk pc) :
    EntryInv (s.raise w lane pc f) := by
  unfold State.raise
  exact (h.raise? hpc).getD h

theorem EntryInv.raiseQuota? {s : State} {w lane : Nat} {pc : DWord} {ov : Nat} {det1 : Nat} (h : EntryInv s)
    (hpc : PcOk pc) :
    OptAll EntryInv (s.raiseQuota? w lane pc ov det1) := by
  unfold State.raiseQuota?
  exact h.releaseAt.map (fun s1 hs1 => hs1.takeQuota hpc)

theorem EntryInv.settleFor {s : State} {w lane : Nat} {y : Machine.Acc} (h : EntryInv s) :
    OptAll EntryInv (s.settleFor w lane y) := by
  unfold State.settleFor
  exact h.drainIf

theorem EntryInv.barIssue {s : State} {w lane id : Nat} (h : EntryInv s) :
    OptAll EntryInv (s.barIssue w lane id) := by
  unfold State.barIssue
  exact h.settleFor.bind (fun s1 hs1 => hs1.drainIf)

theorem EntryInv.fencedRelease {s : State} {w lane : Nat} (h : EntryInv s) :
    OptAll EntryInv (s.fencedRelease w lane) := by
  unfold State.fencedRelease
  split
  · exact h.releaseAt.map (fun s1 hs1 => hs1.updThread (fun t ht => ht))
  · exact OptAll.some h

theorem EntryInv.engineIssue {s : State} {w lane id : Nat} (h : EntryInv s) :
    OptAll EntryInv (s.engineIssue w lane id) := by
  unfold State.engineIssue
  exact h.barIssue.bind (fun s1 hs1 => hs1.fencedRelease)

theorem EntryInv.settleOwn {s : State} {w lane id : Nat} {space : Space} {key size : Nat} (h : EntryInv s) :
    OptAll EntryInv (s.settleOwn w lane id space key size) := by
  unfold State.settleOwn
  exact h.settleFor

theorem Machine.Thread.aligned.putPred {t : Thread} {n : BitVec 3} {v : Bool} (ht : t.aligned) :
    (t.putPred n v).aligned := by
  unfold Thread.putPred
  split
  · exact ht
  · extract_lets m
    exact ht

theorem Machine.Thread.aligned.putDst {u : Unit2} {o : Operand} {ws : List Word} {t : Thread} (ht : t.aligned) :
    (Thread.putDst u o ws t).aligned := by
  unfold Thread.putDst
  split
  · exact ht
  · exact ht.putPred
  · exact ht

theorem Machine.Acc.aligned.fencedBy {a : Machine.Acc} {f : Option Scope} (ha : a.aligned) :
    (a.fencedBy f).aligned := by
  unfold Acc.fencedBy
  split
  · exact ite_inv ha ha
  · exact ha

theorem PcOk.feedElem {x : Wave} {id : Nat} {pc : DWord} {n : Nat} {v : Word} (hpc : PcOk pc) :
    (x.feedElem id pc n v).aligned := by
  unfold Wave.feedElem
  extract_lets off y
  exact Acc.aligned.intro hpc

theorem Machine.Wave.aligned.pushFeed {x : Wave} {lane id : Nat} {pc : DWord} {n : Nat} {v : Word} (hx : x.aligned)
    (hpc : PcOk pc) :
    (x.pushFeed lane id pc n v).aligned := by
  unfold Wave.pushFeed
  extract_lets a y
  have ha : a.aligned := hpc.feedElem
  exact hx.updThread (fun t ht => Thread.aligned.intro ht.pc ht.epc (ht.accs.append (ListAll.cons
      (Machine.Acc.aligned.fencedBy ha) ListAll.nil)) ht.st)

theorem EntryInv.pushElem {s : State} {w lane id : Nat} {pc : DWord} {n : Nat} {v : Word} (h : EntryInv s) (hpc : PcOk pc) :
    OkAll EntryInv (s.pushElem w lane id pc n v) := by
  unfold State.pushElem
  split
  · exact h
  · rename_i x heq
    have hx : x.aligned := (h.waves.find _) _ heq
    extract_lets off
    exact ite_inv (h.withWaves (h.waves.ins (hx.pushFeed hpc))) trivial

theorem Machine.Wave.aligned.putDst {x : Wave} {lane : Nat} {o : Operand} {ws : List Word} (hx : x.aligned) :
    (x.putDst lane o ws).aligned := by
  unfold Wave.putDst
  split
  · exact hx
  · exact hx
  · exact hx.updThread (fun t ht => ht.putDst)

theorem EntryInv.putDst {s : State} {w lane : Nat} {o : Operand} {ws : List Word} (h : EntryInv s) :
    EntryInv (s.putDst w lane o ws) := by
  unfold State.putDst
  exact h.withWaves (h.waves.upd (fun x hx => hx.putDst))

theorem EntryInv.returnOne {s : State} {w lane id : Nat} (h : EntryInv s) :
    OptAll EntryInv (s.returnOne w lane id) := by
  unfold State.returnOne
  refine OptAll.bind (P := EntryInv) h.performUpTo ?_
  intro _ hs1
  split
  · rename_i a heq
    have ha : a.aligned := hs1.accOf _ heq
    split
    · extract_lets s2
      have hs2 : EntryInv s2 := hs1.updThread (fun t ht => ht.setAcc (fun _ _ => OptAll.none))
      split
      · split
        · rename_i s3 heq5
          have hs3 : EntryInv s3 := of_eq (P := OkAll EntryInv) (hs2.pushElem ha.pc) heq5
          exact OptAll.some hs3
        · exact hs2.raise? ha.pc
      · exact OptAll.some (ite_inv hs2.putDst hs2)
    · exact OptAll.some hs1
  · exact OptAll.some hs1

theorem EntryInv.returnAcc {s : State} {w lane id : Nat} (h : EntryInv s) :
    OptAll EntryInv (s.returnAcc w lane id) := by
  unfold State.returnAcc
  split
  · split
    · exact h.returnOne
    · extract_lets first
      exact foldl_inv (OptAll.some h) (fun s2 _ hs2 => hs2.bind (fun s1 hs1 => hs1.returnOne))
  · exact OptAll.some h

theorem EntryInv.returnAll {s : State} {w lane : Nat} (h : EntryInv s) :
    OptAll EntryInv (s.returnAll w lane) := by
  unfold State.returnAll
  split
  · exact OptAll.some h
  · exact (foldl_inv (OptAll.some h) (fun s2 _ hs2 => hs2.bind (fun s1 hs1 => ite_inv hs1.returnAcc
        (OptAll.some hs1)))).bind (fun s1 hs1 => hs1.drain)

/-! ### Operands and issue -/

theorem Machine.Thread.empty_aligned :
    Thread.empty.aligned := by
  unfold Thread.empty
  exact Thread.aligned.intro PcOk.zero PcOk.zero ListAll.nil trivial

theorem EntryInv.settle {s : State} {w : Nat} {u : Unit2} {ops : List (Operand × Nat)} {lanes : List Nat} (h : EntryInv s) :
    OptAll EntryInv (s.settle w u ops lanes) := by
  unfold State.settle
  split
  · exact OptAll.some h
  · split
    · exact OptAll.some h
    · extract_lets late s1
      have hs1 : EntryInv s1 := foldl_inv h (fun s2 a hs2 => hs2.updThread (fun t ht => ht))
      refine foldl_inv (OptAll.some hs1) ?_
      intro _ _ hs2
      refine OptAll.bind (P := EntryInv) hs2 ?_
      intro _ hs12
      split
      · exact OptAll.some hs12
      · exact foldl_inv (OptAll.some hs12) (fun s3 _ hs3 => hs3.bind (fun s13 hs13 => hs13.returnAcc))

theorem EntryInv.popQueue {s : State} {w : Nat} {x : Wave} {q n : Nat} (h : EntryInv s) :
    EntryInv (s.popQueue w x q n) := by
  unfold State.popQueue
  split
  · exact EntryInv.freeDecisions (h.withWaves (h.waves.upd (fun x2 hx2 => hx2)))
  · split
    · extract_lets c e l e1
      exact h.setCore
    · exact h

theorem EntryInv.queueAccess {s : State} {c : Ctx} (h : EntryInv s) :
    OptAll (FstAll EntryInv) (s.queueAccess c) := by
  unfold State.queueAccess
  extract_lets n room
  split
  · exact OptAll.some h
  · split
    · exact OptAll.none
    · refine foldl_inv (OptAll.some h) ?_
      intro _ _ hs2
      refine OptAll.bind (P := FstAll EntryInv) hs2 ?_
      intro _ he
      split
      extract_lets held need
      exact ite_inv (OptAll.some he) (OptAll.mapOf (fun _ => EntryInv.popQueue he))

theorem EntryInv.popAcquire {s : State} {c : Ctx} (h : EntryInv s) :
    OptAll EntryInv (s.popAcquire c) := by
  unfold State.popAcquire
  exact ite_inv (OptAll.some h) (foldl_inv (OptAll.some h) (fun s2 a hs2 => hs2.bind (fun s1 hs1 => hs1.acquireAt)))

theorem Machine.Thread.aligned.advance {t : Thread} {npc : DWord} (ht : t.aligned) (hnpc : PcOk npc) :
    (t.advance npc).aligned := by
  unfold Thread.advance
  extract_lets y
  have hy : y.aligned := ht.countWindow
  exact Thread.aligned.intro hnpc hy.epc hy.accs trivial

theorem Machine.Thread.aligned.undo {t : Thread} {pc : DWord} {id : Nat} (ht : t.aligned) (hpc : PcOk pc) :
    (t.undo pc id).aligned := by
  unfold Thread.undo
  exact Thread.aligned.intro hpc ht.epc (ht.accs.map (fun a ha => ite_inv ha ha)) ht.st

theorem Machine.Ctx.aligned.issued {c : Ctx} {x : Wave} (hc : c.aligned) (hx : x.aligned) :
    (c.issued x).aligned := by
  unfold Ctx.issued
  extract_lets latch
  refine Wave.aligned.intro ?_
  refine ListAll.mapIdx (P := Thread.aligned) hx.threads ?_
  intro _ _ ht
  split
  · extract_lets t1
    have ht1 : t1.aligned := ht.advance hc.npc
    exact ite_inv ht1 ht1
  · exact ht

theorem EntryInv.noteIssue {s : State} {w : Nat} (h : EntryInv s) :
    EntryInv (s.noteIssue w) := by
  unfold State.noteIssue
  split
  · extract_lets c
    exact ite_inv h.setCore h
  · exact h

theorem EntryInv.ctxOf {s : State} {w : Nat} {e : Desc} (h : EntryInv s) :
    OptAll Ctx.aligned (s.ctxOf w e) := by
  unfold State.ctxOf
  split
  · exact OptAll.none
  · rename_i x heq
    have hx : x.aligned := (h.waves.find _) _ heq
    split
    · exact OptAll.none
    · extract_lets path
      clear_value path
      split
      · exact OptAll.none
      · exact OptAll.some (Ctx.aligned.intro (hx.threads.getD Thread.empty_aligned).pc hx)

theorem Machine.Ctx.aligned.back {c : Ctx} {lane : Nat} {t : Thread} (hc : c.aligned) (ht : t.aligned) :
    (c.back lane t).aligned := by
  unfold Ctx.back
  extract_lets y
  exact ht.undo hc.pc

theorem EntryInv.faultLane {s : State} {c : Ctx} {lane : Nat} {f : Flt} (h : EntryInv s) (hc : c.aligned) :
    EntryInv (s.faultLane c lane f) := by
  unfold State.faultLane
  exact ((h.updThread (fun t ht => ht.undo hc.pc)).raise? hc.pc).getD (h.updThread (fun t ht => hc.back ht))

theorem EntryInv.faultLanes {s : State} {c : Ctx} {lanes : List (Nat × Flt)} (h : EntryInv s) (hc : c.aligned) :
    EntryInv (s.faultLanes c lanes) := by
  unfold State.faultLanes
  exact ite_inv h (foldl_inv h.holdActs (fun s2 a hs2 => hs2.faultLane hc))

theorem EntryInv.settleTurn {s : State} {c : Ctx} (h : EntryInv s) :
    EntryInv (s.settleTurn c) := by
  unfold State.settleTurn
  exact EntryInv.actAll (h.withWaves (h.waves.upd (fun x hx => hx.settleTurn)))

theorem EntryInv.blockGroup {s : State} {c : Ctx} (h : EntryInv s) (hc : c.aligned) :
    EntryInv (s.blockGroup c) := by
  unfold State.blockGroup
  extract_lets hold
  have hhold : ∀ (x : Wave), x.aligned → (hold x).aligned := by
    intro _ hx
    unfold hold
    exact Wave.aligned.intro (hx.threads.mapIdx (fun i t ht => ite_inv
        (Thread.aligned.intro ht.pc ht.epc ht.accs trivial) (ite_inv (ht.advance hc.npc) ht)))
  exact EntryInv.settleTurn (h.withWaves (h.waves.upd (fun x hx => hhold _ hx)))

theorem EntryInv.begin {s : State} {c : Ctx} (h : EntryInv s) (hc : c.aligned) :
    EntryInv (s.begin c) := by
  unfold State.begin
  extract_lets s1
  have hs1 : EntryInv s1 := h.withWaves (h.waves.upd (fun x hx => hc.issued hx))
  exact hs1.holdActs.noteIssue

theorem EntryInv.start {s : State} {i : Instr} {e : Desc} {fits : Ctx → State → Bool} (h : EntryInv s) :
    (s.start i e fits).aligned := by
  unfold State.start
  split
  · exact h
  · split
    · exact h
    · rename_i s4 heq2
      have hs4 : EntryInv s4 := h.settle _ heq2
      split
      · exact hs4
      · split
        · exact hs4
        · rename_i s42 heq4
          have hs42 : EntryInv s42 := hs4.settle _ heq4
          split
          · exact hs42
          · rename_i c3 heq5
            have hc3 : c3.aligned := hs42.ctxOf _ heq5
            split
            · exact (foldl_inv hs42.holdActs (fun s2 a hs2 => hs2.raise hc3.pc)).settleTurn
            · split
              · exact ((hs42.begin hc3).faultLanes hc3).settleTurn
              · split
                · exact hs42
                · split
                  · exact hs42.blockGroup hc3
                  · rename_i s3 _ heq9
                    have hs3 : EntryInv s3 := hs42.queueAccess _ heq9
                    split
                    · exact hs42
                    · rename_i s43 heq10
                      have hs43 : EntryInv s43 := hs3.popAcquire _ heq10
                      extract_lets c1
                      have hc1 : c1.aligned := hc3
                      exact ⟨hc1, hs43.begin hc1⟩

theorem EntryInv.startOf {s : State} {i : Instr} {fits : Ctx → State → Bool} (h : EntryInv s) :
    (s.startOf i fits).aligned := by
  unfold State.startOf
  split
  · exact h.start
  · exact h

theorem EntryInv.issue {i : Instr} {s : State} {fits : Ctx → State → Bool} {turn body : Ctx → State → State}
    (h : EntryInv s) (hturn : ∀ (c : Ctx) (s : State), c.aligned → EntryInv s → EntryInv (turn c s)) (hbody : ∀
    (c : Ctx) (s : State), c.aligned → EntryInv s → EntryInv (body c s)) :
    OutAll (issue i s fits turn body) := by
  unfold Machine.issue
  split
  · rename_i a heq
    exact of_eq (P := Start.aligned) h.startOf heq
  · rename_i a a2 heq
    obtain ⟨ha, ha2⟩ : a.aligned ∧ EntryInv a2 := of_eq (P := Start.aligned) h.startOf heq
    exact hturn _ _ ha (hbody _ _ ha ha2)

theorem EntryInv.run {i : Instr} {s : State} {body : Ctx → State → State} (h : EntryInv s) (hbody : ∀ (c : Ctx)
    (s : State), c.aligned → EntryInv s → EntryInv (body c s)) :
    OutAll (run i s body) := by
  unfold Machine.run
  exact h.issue (fun _ s2 _ hs2 => hs2.settleTurn) (fun c s2 hc hs2 => hbody _ _ hc hs2)

theorem Machine.Thread.aligned.take {u : Unit2} {o : Operand} {r : Out} {t : Thread} (ht : t.aligned) :
    (Thread.take u o r t).aligned := by
  unfold Thread.take
  extract_lets t1
  have ht1 : t1.aligned := ht.putDst
  split
  · exact ht1.putPred
  · exact ht1

theorem Machine.Wave.aligned.takeAll {x : Wave} {u : Unit2} {o : Operand} {outs : List (Nat × Out)} (hx : x.aligned) :
    (x.takeAll u o outs).aligned := by
  unfold Wave.takeAll
  extract_lets put x1
  have hput : ∀ (n : Nat) (t : Thread), t.aligned → (put n t).aligned := by
    intro _ _ ht
    unfold put
    split
    · exact ht.take
    · exact ht
  have hx1 : x1.aligned := Wave.aligned.intro (hx.threads.mapIdx (fun _ t ht => hput _ _ ht))
  split
  · exact hx1.putDst
  · exact hx1.putDst
  · exact hx1

theorem EntryInv.pushAll {s : State} {c : Ctx} {q : Nat} {outs : List (Nat × Out)} (h : EntryInv s) (hc : c.aligned) :
    EntryInv (s.pushAll c q outs) := by
  unfold State.pushAll
  refine foldl_inv h ?_
  intro _ _ hs2
  extract_lets s1
  have hs1 : EntryInv s1 := by
    unfold s1
    split
    · exact hs2.updThread (fun t ht => ht.putPred)
    · exact hs2
  split
  · rename_i s3 heq
    exact of_eq (P := OkAll EntryInv) (hs1.pushElem hc.pc) heq
  · exact hs2.faultLanes hc

theorem EntryInv.writeAll {s : State} {c : Ctx} {outs : List (Nat × Out)} (h : EntryInv s) (hc : c.aligned) :
    EntryInv (s.writeAll c outs) := by
  unfold State.writeAll
  split
  · exact h.pushAll hc
  · exact h.withWaves (h.waves.upd (fun x hx => hx.takeAll))

theorem Machine.Ctx.aligned.calc {c : Ctx} {lane lead : Nat} {ws : List Word} (hc : c.aligned) :
    (c.calc lane lead ws).aligned := by
  unfold Ctx.calc
  exact Acc.aligned.intro hc.pc

theorem EntryInv.pendAll {s : State} {c : Ctx} {outs : List (Nat × Out)} (h : EntryInv s) (hc : c.aligned) :
    EntryInv (s.pendAll c outs) := by
  unfold State.pendAll
  split
  · exact h.pushAll hc
  · extract_lets lead put
    have hput : ∀ (n : Nat) (t : Thread), t.aligned → (put n t).aligned := by
      intro _ _ ht
      unfold put
      split
      · exact Thread.aligned.intro ht.pc ht.epc (ht.accs.append (ListAll.cons hc.calc ListAll.nil)) ht.st
      · exact ht
    exact h.withWaves (h.waves.upd (fun x hx => Wave.aligned.intro (hx.threads.mapIdx (fun _ t ht => hput _ _ ht))))

theorem EntryInv.compute {s : State} {c : Ctx} {g : Nat → Except Flt Out} (h : EntryInv s) (hc : c.aligned) :
    EntryInv (s.compute c g) := by
  unfold State.compute
  extract_lets rs s1
  have hs1 : EntryInv s1 := ite_inv (h.pendAll hc) (h.writeAll hc)
  exact hs1.faultLanes hc

theorem EntryInv.alu {i : Instr} {s : State} {words : Nat} {g : Ctx → Nat → Nat} (h : EntryInv s) :
    OutAll (alu i s words g) := by
  unfold Machine.alu
  exact h.run (fun c s2 hc hs2 => hs2.compute hc)

theorem EntryInv.pendAcc {s : State} {c : Ctx} {lane : Nat} {a : Machine.Acc} (h : EntryInv s) (hc : c.aligned)
    (ha : a.aligned) :
    EntryInv (s.pendAcc c lane a) := by
  unfold State.pendAcc
  extract_lets s1
  have hs1 : EntryInv s1 := h.updThread (fun t ht => Thread.aligned.intro ht.pc ht.epc (ht.accs.append
      (ListAll.cons ha ListAll.nil)) ht.st)
  split
  · split
    · rename_i s12 heq2
      exact hs1.performUpTo _ heq2
    · exact h.updThread (fun t ht => hc.back ht)
  · exact hs1

theorem Machine.Why.aligned.waits {c : Ctx} {lane : Nat} {led : Bool} {y : Why} (hy : y.aligned) :
    FstAll Why.aligned (c.waits lane led y) := by
  unfold Ctx.waits
  split
  · exact ⟨hy.1, hy.2⟩
  · exact hy

theorem Machine.Ctx.aligned.laneOut {c : Ctx} {lane : Nat} {led : Bool} {y : Lane} (hc : c.aligned) (hy : y.aligned) :
    FstAll EntryInv (State.laneOut c lane led y) := by
  unfold State.laneOut
  split
  · refine FstAll.intro ?_
    split
    · exact ite_inv hy (EntryInv.putDst hy)
    · exact ite_inv hy (EntryInv.putDst hy)
    · exact EntryInv.pushAll hy hc
    · exact ite_inv hy (EntryInv.putDst hy)
  · extract_lets f y_2 a0 s0 a1
    have hy_2 : y_2.aligned := Machine.Acc.aligned.fencedBy hy.2
    have ha0 : a0.aligned := hy_2
    have hs0 : EntryInv s0 := ite_inv (hy.1.updThread (fun t ht => ht)) hy.1
    have ha1 : a1.aligned := by
      unfold a1
      split
      · exact ha0
      · exact ha0
    refine FstAll.intro ?_
    split
    · exact hs0.faultLanes hc
    · exact hs0.pendAcc hc ha1
  · exact EntryInv.faultLanes hy hc
  · exact OptAll.getD (EntryInv.raiseQuota? (EntryInv.updThread hy (fun t ht => ht.undo hc.pc)) hc.pc)
        (EntryInv.updThread hy (fun t ht => hc.back ht))
  · extract_lets r
    have hr : FstAll Why.aligned r := hy.2.waits
    refine FstAll.intro ?_
    refine EntryInv.updThread hy.1 ?_
    intro t ht
    extract_lets y_2
    have hy_2 : y_2.aligned := hc.back ht
    exact Thread.aligned.intro hy_2.pc hy_2.epc hy_2.accs hr.fst
  · exact EntryInv.updThread hy (fun t ht => hc.back ht)
  · exact hy

theorem Machine.Ctx.aligned.laneStep {c : Ctx} {g : State → Nat → Lane} {r : State × Bool × Bool} {l : Nat}
    (hc : c.aligned) (hg : ∀ (s : State) (n : Nat), EntryInv s → (g s n).aligned) (hr : FstAll EntryInv r) :
    FstAll EntryInv (State.laneStep c g r l) := by
  unfold State.laneStep
  split
  · extract_lets o p
    have ho : o.aligned := ite_inv hr.fst (hg _ _ hr.fst)
    have hp : FstAll EntryInv p := hc.laneOut ho
    exact hp.fst
  · exact hr

theorem EntryInv.eachLane {s : State} {c : Ctx} {g : State → Nat → Lane} (h : EntryInv s) (hc : c.aligned) (hg : ∀
    (s : State) (n : Nat), EntryInv s → (g s n).aligned) :
    EntryInv (s.eachLane c g) := by
  unfold State.eachLane
  exact FstAll.fst (foldl_inv h (fun s2 a hs2 => hc.laneStep (fun s3 _ hs3 => hg _ _ hs3) hs2))

theorem EntryInv.perLaneIf {i : Instr} {s : State} {fits : Ctx → State → Bool} {g : Ctx → State → Nat → Lane}
    (h : EntryInv s) (hg : ∀ (c : Ctx) (s : State) (n : Nat), c.aligned → EntryInv s → (g c s n).aligned) :
    OutAll (perLaneIf i s fits g) := by
  unfold Machine.perLaneIf
  exact h.issue (fun _ s2 _ hs2 => hs2.settleTurn) (fun c s2 hc hs2 => hs2.eachLane hc (fun s3 _ hs3 => hg _ _ _ hc hs3))

theorem EntryInv.perLane {i : Instr} {s : State} {g : Ctx → State → Nat → Lane} (h : EntryInv s) (hg : ∀ (c : Ctx)
    (s : State) (n : Nat), c.aligned → EntryInv s → (g c s n).aligned) :
    OutAll (perLane i s g) := by
  unfold Machine.perLane
  exact h.perLaneIf (fun c s2 _ hc hs2 => hg _ _ _ hc hs2)

/-! ### Issuing an access -/

theorem EntryInv.reach {s : State} {a : Agent} {need : Need} {clsOk : PgCls → Option (BitVec 8)} {m : Tagging}
    {va n : Nat} (h : EntryInv s) :
    (s.reach a need clsOk m va n).aligned := by
  unfold State.reach
  extract_lets r refused
  have hr : r.aligned := h.translateParts
  split
  · exact hr.s
  · exact hr.s
  · exact hr.s
  · exact hr.s
  · exact hr.s

theorem Machine.Ctx.aligned.acc {c : Ctx} {q : Req} {space : Space} {parts : List Machine.Part} {tag : Option
    (BitVec 5)} (hc : c.aligned) :
    (c.acc q space parts tag).aligned := by
  unfold Ctx.acc
  exact Acc.aligned.intro hc.pc

theorem EntryInv.partial_ {s : State} {c : Ctx} {lane : Nat} {q : Req} {below : List Machine.Part} (h : EntryInv s)
    (hc : c.aligned) :
    EntryInv (s.partial_ c lane q below) := by
  unfold State.partial_
  split
  · extract_lets n a
    have ha : a.aligned := hc.acc
    exact h.updThread (fun t ht => Thread.aligned.intro ht.pc ht.epc (ht.accs.append (ListAll.cons ha ListAll.nil)) ht.st)
  · exact h

theorem EntryInv.issueGlob {s : State} {c : Ctx} {lane : Nat} {q : Req} (h : EntryInv s) (hc : c.aligned) :
    (s.issueGlob c lane q).aligned := by
  unfold State.issueGlob
  split
  · rename_i a _ heq
    have ha : EntryInv a := of_eq (P := Trans2.aligned) h.reach heq
    exact ⟨ha, hc.acc⟩
  · rename_i a _ _ heq
    have ha : EntryInv a := of_eq (P := Trans2.aligned) h.reach heq
    exact ha.partial_ hc
  · rename_i a _ heq
    exact of_eq (P := Trans2.aligned) h.reach heq
  · rename_i a heq
    exact of_eq (P := Trans2.aligned) h.reach heq

theorem EntryInv.issueWin {s : State} {c : Ctx} {q : Req} {tob : Bool} (h : EntryInv s) (hc : c.aligned) :
    (s.issueWin c q tob).aligned := by
  unfold State.issueWin
  extract_lets size space
  exact ite_inv h ⟨h, hc.acc⟩

theorem EntryInv.readNow {s : State} {c : Ctx} {lane : Nat} {q : Req} {parts : List Machine.Part} (h : EntryInv s)
    (hc : c.aligned) :
    OptAll (FstAll EntryInv) (s.readNow c lane q parts) := by
  unfold State.readNow
  extract_lets y a s1
  have hy : y.aligned := hc.acc
  have ha : a.aligned := hy
  have hs1 : EntryInv s1 := h.updThread (fun t ht => Thread.aligned.intro ht.pc ht.epc (ht.accs.append
      (ListAll.cons ha ListAll.nil)) ht.st)
  refine OptAll.map (P := EntryInv) hs1.performUpTo ?_
  intro _ hs12
  extract_lets v
  exact hs12.updThread (fun t ht => ht.setAcc (fun _ _ => OptAll.none))

end Sys2Proof
end

section
/-! PROOFS. No step misaligns an address at which a thread goes on or is placed (O3):
atomics, barriers, copies, fetching and control. -/

namespace Sys2Proof

open Sys2Proof.Machine

/-! ### Atomics -/

theorem EntryInv.atomLane {s : State} {c : Ctx} {lane : Nat} {q : Req} (h : EntryInv s) (hc : c.aligned) :
    (s.atomLane c lane q).aligned := by
  unfold State.atomLane
  split
  · exact h
  · split
    · rename_i s1 a heq2
      obtain ⟨hs1, ha⟩ : EntryInv s1 ∧ a.aligned := of_eq (P := Lane.aligned) (h.issueGlob hc) heq2
      split
      · extract_lets k x s2
        have hx : x.aligned := hs1.cluster
        have hs2 : EntryInv s2 := hs1.setCluster hx
        exact ⟨hs2.updThread (fun t ht => ht), ha⟩
      · exact ⟨hs1, ha⟩
    · exact h.issueGlob hc

theorem EntryInv.atomic {i : Instr} {s : State} {req : Ctx → Nat → Req} (h : EntryInv s) :
    OutAll (atomic i s req) := by
  unfold Machine.atomic
  exact h.perLaneIf (fun c s2 n hc hs2 => hs2.atomLane hc)

theorem EntryInv.execAtom {f : Frame} {op : AtomOp} {ty : AtomTy} {base : Bool} {ctl : AtomCtl} {s : State} (h : EntryInv s) :
    OutAll (execAtom f op ty base ctl s) := by
  unfold Machine.execAtom
  exact h.atomic

theorem EntryInv.execAtomS {f : Frame} {op : AtomOp} {ty : AtomTy} {win : Bool} {ctl : AtomCtl} {s : State} (h : EntryInv s) :
    OutAll (execAtomS f op ty win ctl s) := by
  unfold Machine.execAtomS
  refine EntryInv.perLane h ?_
  intro _ _ _ hc hs2
  extract_lets va
  split
  · exact hs2
  · exact hs2.issueWin hc

theorem EntryInv.execCas {f : Frame} {ty : AtomTy} {base : Bool} {ctl : AtomCtl} {s : State} (h : EntryInv s) :
    OutAll (execCas f ty base ctl s) := by
  unfold Machine.execCas
  exact h.atomic

theorem EntryInv.execRed {f : Frame} {op : AtomOp} {ty : AtomTy} {base : Bool} {ctl : AtomCtl} {s : State} (h : EntryInv s) :
    OutAll (execRed f op ty base ctl s) := by
  unfold Machine.execRed
  exact h.atomic

theorem EntryInv.execMred {f : Frame} {op : AtomOp} {ty : AtomTy} {base : Bool} {ctl : AtomCtl} {s : State} (h : EntryInv s) :
    OutAll (execMred f op ty base ctl s) := by
  unfold Machine.execMred
  exact h.atomic

theorem EntryInv.execMcas {f : Frame} {base : Bool} {ctl : AtomCtl} {s : State} (h : EntryInv s) :
    OutAll (execMcas f base ctl s) := by
  unfold Machine.execMcas
  exact h.atomic

theorem EntryInv.execMscale {f : Frame} {rnd : Rnd} {ty : AtomTy} {base : Bool} {ctl : AtomCtl} {s : State} (h : EntryInv s) :
    OutAll (execMscale f rnd ty base ctl s) := by
  unfold Machine.execMscale
  exact h.atomic

/-! ### What engine operations share -/

theorem EntryInv.engParts {s : State} {e : EngOf} {need : Need} {clsOk : PgCls → Option (BitVec 8)} {va n : Nat}
    (h : EntryInv s) :
    (s.engParts e need clsOk va n).aligned := by
  unfold State.engParts
  split
  · rename_i s1 _ _ heq
    have hs1 : EntryInv s1 := of_eq (P := Trans2.aligned) h.reach heq
    exact hs1.walkError
  · rename_i s1 _ heq
    exact of_eq (P := Trans2.aligned) h.reach heq
  · rename_i s1 heq
    exact of_eq (P := Trans2.aligned) h.reach heq
  · rename_i s1 _ heq
    have hs1 : EntryInv s1 := of_eq (P := Trans2.aligned) h.reach heq
    exact ite_inv hs1 hs1

theorem EntryInv.engFetch {s : State} {e : EngOf} {parts : List Machine.Part} (h : EntryInv s) :
    (s.engFetch e parts).aligned := by
  unfold State.engFetch
  split
  · exact h
  · extract_lets tag s_2
    exact foldl_inv h (fun s2 a hs2 => ite_inv hs2 hs2.atHome)

theorem EntryInv.engStore {s : State} {e : EngOf} {l : List Machine.Part} {l2 : List Byte} (h : EntryInv s) :
    (s.engStore e l l2).aligned := by
  induction l generalizing s l2 with
  | nil =>
    rw [State.engStore]
    exact h
  | cons y l ih =>
    rw [State.engStore]
    split
    · exact ih h
    · split
      · rename_i s1 heq2
        have hs1 : EntryInv s1 := of_eq (P := ExcAll (SndAll EntryInv) EntryInv) h.homeWrite heq2
        exact ih hs1
      · rename_i s1 heq2
        exact of_eq (P := ExcAll (SndAll EntryInv) EntryInv) h.homeWrite heq2

theorem EntryInv.engRecord {s : State} {e : EngOf} {f : Flt} (h : EntryInv s) :
    EntryInv (s.engRecord e f) := by
  unfold State.engRecord
  exact h.postEng

theorem EntryInv.engFull {s : State} {e : EngOf} {va : Nat} (h : EntryInv s) :
    EntryInv (s.engFull e va) := by
  unfold State.engFull
  exact h.engRecord.overflowAction

theorem EntryInv.engQuota {s : State} {e : EngOf} {ov : Nat} (h : EntryInv s) :
    EntryInv (s.engQuota e ov) := by
  unfold State.engQuota
  split
  rename_i s1 _ heq
  have hs1 : EntryInv s1 := h.engRec.of_eq heq
  exact hs1.post.fst.suspendRegion

theorem EntryInv.raiseCtr {s : State} {e : EngOf} {key : Nat} {va : Option Nat} {refused : Option Flt} (h : EntryInv s) :
    EntryInv (s.raiseCtr e key va refused) := by
  unfold State.raiseCtr
  extract_lets tag
  split
  · exact h
  · split
    · exact h.engRecord
    · split
      · exact h
      · split
        · exact h.dataError
        · split
          · rename_i s1 heq5
            exact of_eq (P := ExcAll (SndAll EntryInv) EntryInv) h.homeWrite heq5
          · rename_i s1 heq5
            have hs1 : EntryInv s1 := of_eq (P := ExcAll (SndAll EntryInv) EntryInv) h.homeWrite heq5
            exact hs1.engFull

theorem EntryInv.ctrFlush {s : State} {rs : List Nat} (h : EntryInv s) :
    EntryInv (s.ctrFlush rs) := by
  unfold State.ctrFlush
  exact foldl_inv h (fun s2 a hs2 => hs2.raiseCtr)

theorem EntryInv.gathFault {s : State} {rgn k va : Nat} {wr posted : Bool} (h : EntryInv s) :
    EntryInv (s.gathFault rgn k va wr posted) := by
  unfold State.gathFault
  exact ite_inv h h.engRecord

theorem EntryInv.gathPut {s : State} {rgn k va : Nat} {data : BitVec 128} {posted : Bool} (h : EntryInv s) :
    FstAll EntryInv (s.gathPut rgn k va data posted) := by
  unfold State.gathPut
  extract_lets e
  split
  · exact h
  · split
    · rename_i s1 bs heq2
      have hr : (EngRes.ok s1 bs).aligned := by
        rw [← heq2]
        split
        · rename_i r heq3
          exact of_eq (P := EngParts.aligned) h.engParts heq3
        · rename_i s12 _ heq3
          have hs12 : EntryInv s12 := of_eq (P := EngParts.aligned) h.engParts heq3
          exact hs12.engStore
      exact hr
    · rename_i s1 va2 key heq2
      have hr : (EngRes.poison s1 va2 key).aligned := by
        rw [← heq2]
        split
        · rename_i r heq3
          exact of_eq (P := EngParts.aligned) h.engParts heq3
        · rename_i s12 _ heq3
          have hs12 : EntryInv s12 := of_eq (P := EngParts.aligned) h.engParts heq3
          exact hs12.engStore
      exact hr
    · rename_i s1 f heq2
      have hr : (EngRes.fault s1 f).aligned := by
        rw [← heq2]
        split
        · rename_i r heq3
          exact of_eq (P := EngParts.aligned) h.engParts heq3
        · rename_i s12 _ heq3
          have hs12 : EntryInv s12 := of_eq (P := EngParts.aligned) h.engParts heq3
          exact hs12.engStore
      exact ite_inv (EntryInv.engRecord hr) (EntryInv.gathFault hr)
    · rename_i s1 v heq2
      have hr : (EngRes.full s1 v).aligned := by
        rw [← heq2]
        split
        · rename_i r heq3
          exact of_eq (P := EngParts.aligned) h.engParts heq3
        · rename_i s12 _ heq3
          have hs12 : EntryInv s12 := of_eq (P := EngParts.aligned) h.engParts heq3
          exact hs12.engStore
      exact EntryInv.engFull hr
    · rename_i s1 r heq2
      have hr : (EngRes.quota s1 r).aligned := by
        rw [← heq2]
        split
        · rename_i r2 heq3
          exact of_eq (P := EngParts.aligned) h.engParts heq3
        · rename_i s12 _ heq3
          have hs12 : EntryInv s12 := of_eq (P := EngParts.aligned) h.engParts heq3
          exact hs12.engStore
      exact EntryInv.engQuota hr
    · rename_i s1 heq2
      have hr : (EngRes.wait s1).aligned := by
        rw [← heq2]
        split
        · rename_i r heq3
          exact of_eq (P := EngParts.aligned) h.engParts heq3
        · rename_i s12 _ heq3
          have hs12 : EntryInv s12 := of_eq (P := EngParts.aligned) h.engParts heq3
          exact hs12.engStore
      exact hr

theorem EntryInv.gathTry {s : State} {rgn k : Nat} {wr : Bool} {va : Nat} {posted : Bool} (h : EntryInv s) :
    FstAll EntryInv (s.gathTry rgn k wr va posted) := by
  unfold State.gathTry
  extract_lets e
  split
  · exact h
  · split
    · rename_i s1 _ heq2
      exact of_eq (P := EngParts.aligned) h.engParts heq2
    · rename_i s1 _ heq2
      have hs1 : EntryInv s1 := of_eq (P := EngParts.aligned) h.engParts heq2
      exact ite_inv hs1 hs1.gathFault
    · rename_i s1 _ heq2
      have hs1 : EntryInv s1 := of_eq (P := EngParts.aligned) h.engParts heq2
      exact hs1.engQuota
    · rename_i s1 heq2
      exact of_eq (P := EngParts.aligned) h.engParts heq2
    · exact h

theorem EntryInv.gathReads {s : State} {rgn k : Nat} {posted : Bool} {l : List Nat} (h : EntryInv s) :
    FstAll EntryInv (s.gathReads rgn k posted l) := by
  induction l generalizing s posted with
  | nil =>
    rw [State.gathReads]
    exact h
  | cons n l ih =>
    rw [State.gathReads]
    split
    · rename_i s1 heq
      have hs1 : EntryInv s1 := h.gathTry.of_eq heq
      exact ih hs1
    · rename_i s1 _ heq
      exact h.gathTry.of_eq heq

theorem EntryInv.readDesc {s : State} {c : Ctx} {lane va n : Nat} {cls : PgCls → Option (BitVec 8)}
    (h : EntryInv s) (_hc : c.aligned) :
    (s.readDesc c lane va n cls).aligned := by
  unfold State.readDesc
  split
  · exact h
  · extract_lets q
    split
    · rename_i s1 _ _ heq2
      exact of_eq (P := Trans2.aligned) h.reach heq2
    · rename_i s1 _ heq2
      exact of_eq (P := Trans2.aligned) h.reach heq2
    · rename_i s1 heq2
      exact of_eq (P := Trans2.aligned) h.reach heq2
    · rename_i s1 _ heq2
      have hs1 : EntryInv s1 := of_eq (P := Trans2.aligned) h.reach heq2
      split
      · exact h
      · rename_i s4 heq3
        have hs4 : EntryInv s4 := hs1.engineIssue _ heq3
        extract_lets a
        split
        · exact h
        · rename_i s42 heq4
          have hs42 : EntryInv s42 := hs4.settleFor _ heq4
          split
          rename_i s2 _ _ heq5
          have hs2 : EntryInv s2 := hs42.readParts.of_eq heq5
          split
          · exact hs42
          · split
            · exact hs2.dataError
            · exact hs2

/-! ### Barriers, watches and fences -/

theorem EntryInv.onBar {s : State} {c : Ctx} {lane : Nat} {rmt : Bool} {g : State → BarRef → Lane} (h : EntryInv s)
    (hg : ∀ (s : State) (y : BarRef), EntryInv s → (g s y).aligned) :
    (s.onBar c lane rmt g).aligned := by
  unfold State.onBar
  split
  · exact h
  · rename_i s4 heq
    have hs4 : EntryInv s4 := h.barIssue _ heq
    extract_lets addr
    split
    · rename_i heq2
      have hr : OptAll EntryInv none := by
        rw [← heq2]
        split
        · exact hs4.settleOwn
        · exact OptAll.some hs4
      exact h
    · rename_i s42 heq2
      have hr : OptAll EntryInv (some s42) := by
        rw [← heq2]
        split
        · exact hs4.settleOwn
        · exact OptAll.some hs4
      split
      · exact (hr _ rfl)
      · exact hg _ _ (hr _ rfl)

theorem EntryInv.barInitLane {s : State} {r : BarRef} {n : Nat} (h : EntryInv s) :
    (s.barInitLane r n).aligned := by
  unfold State.barInitLane
  exact ite_inv h (ite_inv h h.barStep)

theorem EntryInv.execBarInit {f : Frame} {rmt : Bool} {s : State} (h : EntryInv s) :
    OutAll (execBarInit f rmt s) := by
  unfold Machine.execBarInit
  exact h.perLane (fun _ s2 n _ hs2 => hs2.onBar (fun s3 _ hs3 => hs3.barInitLane))

theorem Machine.Wave.aligned.arriveAt {x : Wave} {lane : Nat} {r : BarRef} {m : Word} (hx : x.aligned) :
    (x.arriveAt lane r m).aligned := by
  unfold Wave.arriveAt
  exact ite_inv hx hx

theorem EntryInv.arriveLane {s : State} {c : Ctx} {lane : Nat} {ord : SyncOrd} {scope : Scope} {r : BarRef}
    (h : EntryInv s) (hc : c.aligned) :
    (s.arriveLane c lane ord scope r).aligned := by
  unfold State.arriveLane
  extract_lets m x
  have hx : x.aligned := (h.waves.find _).getD hc.x
  split
  · exact h
  · split
    · exact h
    · rename_i s4 heq2
      have hs4 : EntryInv s4 := ((ite_inv h.releaseLag (OptAll.some h)).bind (fun s1 hs1 => hs1.fencedRelease)) _ heq2
      extract_lets gen x1
      have hx1 : x1.aligned := ((hs4.waves.find _).getD hx).arriveAt
      split
      · exact hs4
      · split
        · split
          · exact hs4
          · rename_i s42 heq5
            have hs42 : EntryInv s42 := hs4.barArrive _ heq5
            extract_lets y_2
            have hy_2 : y_2.aligned := (hs42.waves.find _).getD hx1
            exact hs42.setWave hy_2
        · exact (hs4.setWave hx1).barSettle

theorem EntryInv.execArrive {f : Frame} {ord : SyncOrd} {scope : Scope} {rmt : Bool} {s : State} (h : EntryInv s) :
    OutAll (execArrive f ord scope rmt s) := by
  unfold Machine.execArrive
  exact h.perLane (fun c s2 n hc hs2 => hs2.onBar (fun s3 _ hs3 => hs3.arriveLane hc))

theorem EntryInv.expectLane {s : State} {r : BarRef} {n : Nat} (h : EntryInv s) :
    (s.expectLane r n).aligned := by
  unfold State.expectLane
  extract_lets b
  exact ite_inv h h.barStep

theorem EntryInv.execExpect {f : Frame} {rmt : Bool} {s : State} (h : EntryInv s) :
    OutAll (execExpect f rmt s) := by
  unfold Machine.execExpect
  exact h.perLane (fun c s2 n _ hs2 => hs2.onBar (fun s3 _ hs3 => hs3.expectLane))

theorem EntryInv.waitLane {s : State} {c : Ctx} {lane : Nat} {ord : SyncOrd} {scope : Scope} {r : BarRef}
    (h : EntryInv s) (hc : c.aligned) :
    (s.waitLane c lane ord scope r).aligned := by
  unfold State.waitLane
  extract_lets g back s1
  have hback : ∀ (s : State) (y : Bar), EntryInv s → (back s y).aligned := by
    intro _ _ hs2
    unfold back
    split
    · rename_i s12 heq
      exact (ite_inv hs2.acquireAt (OptAll.some hs2)) _ heq
    · exact hs2
  have hs1 : EntryInv s1 := h.barSettle
  exact ite_inv (hback _ _ hs1) (ite_inv (hback _ _ hs1) ⟨hs1, hc.pc, hc.npc⟩)

theorem EntryInv.execWait {f : Frame} {ord : SyncOrd} {scope : Scope} {rmt : Bool} {s : State} (h : EntryInv s) :
    OutAll (execWait f ord scope rmt s) := by
  unfold Machine.execWait
  exact h.perLane (fun c s2 n hc hs2 => hs2.onBar (fun s3 _ hs3 => hs3.waitLane hc))

theorem EntryInv.cwatchLane {s : State} {c : Ctx} {lane : Nat} {r : BarRef} (h : EntryInv s) :
    (s.cwatchLane c lane r).aligned := by
  unfold State.cwatchLane
  extract_lets va target
  cases misaligned va 8 with
  | some f => exact h
  | none =>
    cases heq : s.reach (c.x.agent c.w) .rd clsHome .base va 8 with
    | fault s1 below f => exact of_eq (P := Trans2.aligned) h.reach heq
    | quota s1 rgn => exact of_eq (P := Trans2.aligned) h.reach heq
    | wait s1 => exact of_eq (P := Trans2.aligned) h.reach heq
    | ok s1 parts =>
      have hs1 : EntryInv s1 := of_eq (P := Trans2.aligned) h.reach heq
      refine ite_inv hs1 ?_
      cases hissue : s1.engineIssue c.w lane c.id with
      | none => exact hs1
      | some s2 =>
        have hs2 : EntryInv s2 := hs1.engineIssue _ hissue
        exact EntryInv.barStep hs2

theorem EntryInv.execCwatch {f : Frame} {rmt : Bool} {s : State} (h : EntryInv s) :
    OutAll (execCwatch f rmt s) := by
  unfold Machine.execCwatch
  exact h.perLane (fun c s2 n _ hs2 => hs2.onBar (fun s3 _ hs3 => hs3.cwatchLane))

theorem Machine.Acc.aligned.acquire {a : Machine.Acc} {scope : Scope} (ha : a.aligned) :
    (a.acquire scope).aligned := by
  unfold Acc.acquire
  exact ha

theorem Machine.Thread.aligned.fence {t : Thread} {ord : Ord} {scope : Scope} (ht : t.aligned) :
    (t.fence ord scope).aligned := by
  unfold Thread.fence
  extract_lets t1
  have ht1 : t1.aligned := ite_inv ht ht
  split
  · split
    · exact ht1.setAcc (fun a ha => OptAll.some ha.acquire)
    · exact ht1
  · exact ht1

theorem EntryInv.execFence {f : Frame} {ord : SyncOrd} {scope : Scope} {s : State} (h : EntryInv s) :
    OutAll (execFence f ord scope s) := by
  unfold Machine.execFence
  refine EntryInv.perLane h ?_
  intro c _ _ hc hs2
  constructor
  · exact hs2.updThread (fun t ht => ht.fence)
  · extract_lets y
    exact Acc.aligned.intro hc.pc

theorem EntryInv.execCwatchArrival {watch : Nat} {s : State} (h : EntryInv s) :
    OutAll (execCwatchArrival watch s) := by
  unfold Machine.execCwatchArrival
  split
  · exact h
  · split
    · exact h
    · split
      · exact h
      · split
        · exact h
        · rename_i s4 heq4
          have hs4 : EntryInv s4 := h.force _ heq4
          extract_lets s1 b b1
          have hs1 : EntryInv s1 := hs4
          exact hs1.barStep

/-! ### The copy engine -/

theorem EntryInv.doneOf {s : State} {c : Ctx} {lane : Nat} {ck : Bool} (h : EntryInv s) :
    ExcAll Lane.aligned (FstAll EntryInv) (s.doneOf c lane ck) := by
  unfold State.doneOf
  split
  · extract_lets va
    cases misaligned va 8 with
    | some f => exact h
    | none =>
      cases heq : s.reach (c.x.agent c.w) Need.wr clsHome Tagging.tagged va 8 with
      | ok s1 parts => exact of_eq (P := Trans2.aligned) h.reach heq
      | fault s1 below f => exact of_eq (P := Trans2.aligned) h.reach heq
      | quota s1 r => exact of_eq (P := Trans2.aligned) h.reach heq
      | wait s1 => exact of_eq (P := Trans2.aligned) h.reach heq
  · split
    · exact h
    · exact h

theorem EntryInv.winDesc {s : State} {c : Ctx} {lane off n : Nat} (h : EntryInv s) :
    (s.winDesc c lane off n).aligned := by
  unfold State.winDesc
  split
  · exact h
  · split
    · exact h
    · split
      · exact h
      · rename_i s4 heq3
        exact (h.engineIssue.bind (fun s1 hs1 => hs1.settleOwn)) _ heq3

theorem EntryInv.putOp {s : State} {o : CopyOp} (h : EntryInv s) :
    (s.putOp o).aligned := by
  unfold State.putOp
  exact ite_inv h h

theorem EntryInv.copyStart {s : State} {c : Ctx} {lane : Nat} {ck : Bool} {d : BitVec 512} (h : EntryInv s) :
    (s.copyStart c lane ck d).aligned := by
  unfold State.copyStart
  split
  · exact h
  · extract_lets dir tob
    split
    · exact h
    · exact h
    · extract_lets size d' d''
      split
      · exact h
      · split
        · exact h
        · split
          · rename_i r2 heq6
            exact of_eq (P := ExcAll Lane.aligned (FstAll EntryInv)) h.doneOf heq6
          · rename_i s1 _ heq6
            have hs1 : EntryInv s1 := of_eq (P := ExcAll Lane.aligned (FstAll EntryInv)) h.doneOf heq6
            split
            exact hs1.putOp

theorem EntryInv.copyLane {s : State} {c : Ctx} {lane : Nat} {dg ck : Bool} (h : EntryInv s) (hc : c.aligned) :
    (s.copyLane c lane dg ck).aligned := by
  unfold State.copyLane
  extract_lets got
  have hgot : got.aligned := ite_inv (h.readDesc hc) h.winDesc
  clear_value got
  split
  · exact hgot
  · extract_lets d1
    exact EntryInv.copyStart hgot

theorem EntryInv.slotted {i : Instr} {s : State} {g : Ctx → State → Nat → Lane} (h : EntryInv s) (hg : ∀ (c : Ctx)
    (s : State) (n : Nat), c.aligned → EntryInv s → (g c s n).aligned) :
    OutAll (slotted i s g) := by
  unfold Machine.slotted
  exact h.perLaneIf (fun c s2 _ hc hs2 => hg _ _ _ hc hs2)

theorem EntryInv.execCopy {f : Frame} {dg ck : Bool} {s : State} (h : EntryInv s) :
    OutAll (execCopy f dg ck s) := by
  unfold Machine.execCopy
  exact h.slotted (fun c s2 n hc hs2 => hs2.copyLane hc)

theorem EntryInv.haloLane {s : State} {c : Ctx} {lane : Nat} (h : EntryInv s) : (s.haloLane c lane).aligned := by
  unfold State.haloLane
  split
  · rename_i heq
    exact of_eq (P := DescRes.aligned) h.winDesc heq
  · rename_i s1 d0 heq
    have hs1 : EntryInv s1 := of_eq (P := DescRes.aligned) h.winDesc heq
    extract_lets d doff rows width
    refine ite_inv hs1 (ite_inv hs1 ?_)
    cases s1.partnerOf c.x (dfield d 1 0) with
    | none => exact hs1
    | some src =>
      cases s1.barAt c.x true (dfield d 255 224) with
      | error f => exact hs1
      | ok cbar =>
        cases s1.barAt c.x false (c.b lane) with
        | error f => exact hs1
        | ok r => exact hs1.putOp

theorem EntryInv.execHalo {f : Frame} {s : State} (h : EntryInv s) :
    OutAll (execHalo f s) := by
  unfold Machine.execHalo
  exact h.slotted (fun _ s2 n _ hs2 => hs2.haloLane)

theorem EntryInv.setOp {s : State} {id : Nat} {g : CopyOp → Option CopyOp} (h : EntryInv s) :
    EntryInv (s.setOp id g) := by
  unfold State.setOp
  exact EntryInv.countFwd h

theorem EntryInv.finish {s : State} {o : CopyOp} (h : EntryInv s) :
    EntryInv (s.finish o) := by
  unfold State.finish
  split
  · exact h
  · exact h.raiseCtr

theorem EntryInv.copyFault {s : State} {o : CopyOp} {sub : BitVec 8} {addr : Nat} {wr : Bool} (h : EntryInv s) :
    EntryInv (s.copyFault o sub addr wr) := by
  unfold State.copyFault
  extract_lets s1
  have hs1 : EntryInv s1 := h.setOp.land
  exact hs1.finish.engRecord

theorem Machine.EngRes.aligned.copyRes {o : CopyOp} {wr : Bool} {r : EngRes} {k : State → List Byte → State}
    (hr : r.aligned) (hk : ∀ (s : State) (y : List Byte), EntryInv s → EntryInv (k s y)) :
    EntryInv (copyRes o wr r k) := by
  unfold Machine.copyRes
  split
  · exact hk _ _ hr
  · exact EntryInv.copyFault hr
  · exact EntryInv.dataError (EntryInv.copyFault hr)
  · exact EntryInv.engFull (EntryInv.setOp hr)
  · exact EntryInv.engQuota (EntryInv.setOp hr)
  · exact hr

theorem EntryInv.copyOwn {s : State} {o : CopyOp} {sp : Space} {key n : Nat} (h : EntryInv s) :
    EntryInv (s.copyOwn o sp key n) := by
  unfold State.copyOwn
  exact h.settleOwn.getD h

theorem EntryInv.copyOwnParts {s : State} {o : CopyOp} {parts : List Machine.Part} (h : EntryInv s) :
    EntryInv (s.copyOwnParts o parts) := by
  unfold State.copyOwnParts
  exact foldl_inv h (fun s2 _ hs2 => hs2.copyOwn)

theorem EntryInv.copyPut {s : State} {wg : Nat} {tob : Bool} {off : Nat} {bs : List Byte} (h : EntryInv s) :
    EntryInv (s.copyPut wg tob off bs) := by
  unfold State.copyPut
  exact h.updWg

theorem EntryInv.copyLanded {s : State} {o : CopyOp} {n run : Nat} (h : EntryInv s) :
    EntryInv (s.copyLanded o n run) := by
  unfold State.copyLanded
  extract_lets s1 move
  have hs1 : EntryInv s1 := h.land
  exact ite_inv hs1.setOp.finish hs1.setOp

theorem EntryInv.copyPart {s : State} {o : CopyOp} {g l : Nat} (h : EntryInv s) :
    EntryInv (s.copyPart o g l) := by
  unfold State.copyPart
  split
  extract_lets dir n_2 s0 s0_2 sp
  have hs0 : EntryInv s0 := h.copyOwn
  have hs0_2 : EntryInv s0_2 := h.copyOwn.copyOwn
  split
  · split
    · rename_i r heq3
      have hr : r.aligned := of_eq (P := EngParts.aligned) hs0.engParts heq3
      exact hr.copyRes (fun s2 _ hs2 => hs2)
    · rename_i s1 _ heq3
      have hs1 : EntryInv s1 := of_eq (P := EngParts.aligned) hs0.engParts heq3
      exact hs1.copyOwnParts.engStore.copyRes (fun s2 _ hs2 => hs2.copyLanded)
  · split
    · exact hs0_2.copyPut.copyLanded
    · split
      · rename_i r heq4
        have hr : r.aligned := of_eq (P := EngParts.aligned) h.engParts heq4
        exact hr.copyRes (fun s2 _ hs2 => hs2)
      · rename_i s1 _ heq4
        have hs1 : EntryInv s1 := of_eq (P := EngParts.aligned) h.engParts heq4
        exact hs1.copyOwnParts.copyOwn.engFetch.copyRes (fun s2 _ hs2 => hs2.copyPut.copyLanded)

theorem EntryInv.copyNext {s : State} {o : CopyOp} (h : EntryInv s) : EntryInv (s.copyNext o) := by
  unfold State.copyNext
  split
  extract_lets i j l base pitch at_
  refine ite_inv h.copyPart ?_
  cases o.idx with
  | some v => exact h.copyPart
  | none =>
    cases heq : s.engParts o.eng .rd clsAny ((dfield o.desc 383 320 + 4 * i) % 2 ^ 64) 4 with
    | stop r => exact EngRes.aligned.copyRes (of_eq (P := EngParts.aligned) h.engParts heq) (fun _ _ hs2 => hs2)
    | ok s1 ps =>
      have hs1 : EntryInv s1 := of_eq (P := EngParts.aligned) h.engParts heq
      exact hs1.copyOwnParts.engFetch.copyRes fun _ _ hs2 => hs2.setOp.copyPart

theorem EntryInv.haloNext {s : State} {o : CopyOp} (h : EntryInv s) :
    EntryInv (s.haloNext o) := by
  unfold State.haloNext
  extract_lets width src dst n s0
  have hs0 : EntryInv s0 := h.copyOwn
  exact ite_inv h.copyFault hs0.copyPut.copyLanded

theorem EntryInv.execCopyTransfer {op : Nat} {s : State} (h : EntryInv s) :
    OutAll (execCopyTransfer op s) := by
  unfold Machine.execCopyTransfer
  split
  · exact h
  · split
    · exact h
    · exact ite_inv h.haloNext h
    · exact ite_inv h (ite_inv h.setOp.copyNext h)

theorem EntryInv.execHaloStart {op : Nat} {s : State} (h : EntryInv s) :
    OutAll (execHaloStart op s) := by
  unfold Machine.execHaloStart
  split
  · exact h
  · split
    · exact h
    · split
      · split
        · exact h
        · split
          · rename_i s1 heq5
            have hs1 : EntryInv s1 := h.force _ heq5
            exact hs1.pullFor.setOp
          · exact h
      · split
        · exact h
        · split
          · rename_i s1 heq5
            have hs1 : EntryInv s1 := h.force _ heq5
            exact hs1.pullFor.setOp
          · exact h

/-! ### Fetching an instruction -/

theorem EntryInv.blockBytes {s : State} {key : Nat} (h : EntryInv s) :
    FstAll EntryInv (s.blockBytes key) := by
  unfold State.blockBytes
  split
  · exact h
  · extract_lets s1
    exact h.atHome

theorem EntryInv.cacheBlock {s : State} {cap : Nat} {m : NMap (List Byte)} {blk : Nat} {bs : List Byte} (h : EntryInv s) :
    FstAll EntryInv (s.cacheBlock cap m blk bs) := by
  unfold State.cacheBlock
  split
  · exact h
  · split
    rename_i s1 heq2
    exact h.fresh.of_eq heq2

theorem EntryInv.fillL0 {s : State} {w blk : Nat} {bs : List Byte} (h : EntryInv s) :
    EntryInv (s.fillL0 w blk bs) := by
  unfold State.fillL0
  extract_lets g
  split
  rename_i s1 _ heq
  have hs1 : EntryInv s1 := h.cacheBlock.of_eq heq
  extract_lets c
  exact hs1.setCore

theorem EntryInv.fillCore {s : State} {w blk : Nat} {bs : List Byte} (h : EntryInv s) :
    EntryInv (s.fillCore w blk bs) := by
  unfold State.fillCore
  extract_lets g
  split
  rename_i s1 _ heq
  have hs1 : EntryInv s1 := h.cacheBlock.of_eq heq
  extract_lets c
  exact hs1.setCore

theorem EntryInv.fetchBlock {s : State} {w rgn key : Nat} (h : EntryInv s) :
    FstAll EntryInv (s.fetchBlock w rgn key) := by
  unfold State.fetchBlock
  extract_lets blk c l0
  split
  rename_i s1 _ heq
  have hs1 : EntryInv s1 := h.blockBytes.of_eq heq
  extract_lets bad both home
  have hboth : ∀ (s : State), EntryInv s → EntryInv (both s) := by
    intro _ hs2
    unfold both
    exact hs2.fillCore.fillL0
  have hhome : ∀ (s : State), EntryInv s → FstAll EntryInv (home s) := by
    intro _ hs2
    unfold home
    split
    · split
      rename_i s12 heq3
      have hs12 : EntryInv s12 := hs2.fresh.of_eq heq3
      exact hs12.dataError
    · exact hboth _ hs2
  split
  · exact hhome _ hs1
  · split
    · exact hs1
    · split
      rename_i s12 heq5
      have hs12 : EntryInv s12 := hs1.fresh.of_eq heq5
      exact ite_inv hs12 (hhome _ hs12)
  · split
    · exact hs1.fillL0
    · split
      rename_i s12 heq5
      have hs12 : EntryInv s12 := hs1.fresh.of_eq heq5
      exact ite_inv hs12.fillL0 (hhome _ hs12)
  · split
    · exact hs1
    · split
      rename_i s12 heq5
      have hs12 : EntryInv s12 := hs1.fresh.of_eq heq5
      exact ite_inv hs12 (ite_inv hs12.fillL0 (hhome _ hs12))

theorem EntryInv.fetchedOf {s : State} {u : Unit2} {bs : List Byte} (h : EntryInv s) :
    (fetchedOf s u bs).aligned := by
  unfold Machine.fetchedOf
  split
  · exact h
  · split
    · exact h
    · split
      · exact h
      · split
        · exact h
        · exact h

theorem EntryInv.fetch {s : State} {w : Nat} (h : EntryInv s) :
    (s.fetch w).aligned := by
  unfold State.fetch
  split
  · exact trivial
  · split
    · exact trivial
    · split
      · exact trivial
      · extract_lets pc blk
        split
        · rename_i s1 _ heq4
          exact of_eq (P := TransRes.aligned) h.translate heq4
        · rename_i s1 _ heq4
          exact of_eq (P := TransRes.aligned) h.translate heq4
        · rename_i s1 heq4
          exact of_eq (P := TransRes.aligned) h.translate heq4
        · rename_i s1 _ heq4
          have hs1 : EntryInv s1 := of_eq (P := TransRes.aligned) h.translate heq4
          split
          · exact hs1.fetchedOf
          · split
            rename_i s12 _ heq6
            have hs12 : EntryInv s12 := hs1.fetchBlock.of_eq heq6
            exact EntryInv.fetchedOf (hs12.withWaves (hs12.waves.upd (fun x2 hx2 => hx2)))

theorem EntryInv.settlePath {s : State} {w : Nat} {lanes : List Nat} (h : EntryInv s) :
    EntryInv (s.settlePath w lanes) := by
  unfold State.settlePath
  exact h.withWaves (h.waves.upd (fun x hx => hx.settleTurn))

/-- The path that holds the turn stands at an aligned address. -/
theorem EntryInv.turnPath {s : State} {w : Nat} (h : EntryInv s) : SndAll PcOk (s.turnPath w) := by
  unfold State.turnPath
  split
  · rename_i hx
    split
    · exact SndAll.intro ((h.waves.find _ _ hx).threads.getD Thread.empty_aligned).pc
    · exact SndAll.intro PcOk.zero
  · exact SndAll.intro PcOk.zero

theorem EntryInv.faultPath {s : State} {w : Nat} {f : Flt} (h : EntryInv s) : EntryInv (s.faultPath w f) := by
  unfold State.faultPath
  split
  rename_i pc heq
  have hpc : PcOk pc := h.turnPath.of_eq heq
  extract_lets rgn s1
  have hs1 : EntryInv s1 := foldl_inv h.holdActs fun _ _ hs2 => hs2.raise hpc
  exact (ite_inv hs1 hs1.walkError).settlePath.actAll

theorem EntryInv.quotaPath {s : State} {w rgn : Nat} (h : EntryInv s) : EntryInv (s.quotaPath w rgn) := by
  unfold State.quotaPath
  split
  rename_i pc heq
  have hpc : PcOk pc := h.turnPath.of_eq heq
  exact (foldl_inv h.holdActs fun _ _ hs2 => (hs2.raiseQuota? hpc).getD hs2).settlePath.actAll

theorem EntryInv.skipFiller {s : State} {w : Nat} (h : EntryInv s) : EntryInv (s.skipFiller w) := by
  unfold State.skipFiller
  split
  rename_i pc heq
  have hpc : PcOk (pc + 4) := (h.turnPath.of_eq heq : PcOk pc).add rfl
  refine h.withWaves (h.waves.upd fun x hx => Wave.aligned.intro (hx.threads.mapIdx fun l t ht => ?_))
  exact ite_inv (Thread.aligned.intro hpc ht.epc ht.accs trivial) ht

theorem Machine.Wave.aligned.expire {x : Wave} (hx : x.aligned) :
    x.expire.aligned := by
  unfold Wave.expire
  split
  · exact ite_inv hx.giveTurn hx
  · exact hx

theorem Machine.Wave.aligned.count {x : Wave} {n n2 : Nat} (hx : x.aligned) :
    (x.count n n2).aligned := by
  induction n generalizing x n2 with
  | zero =>
    rw [Wave.count]
    exact hx
  | succ n ih =>
    rw [Wave.count]
    exact ite_inv hx (ih (Wave.aligned.expire hx))

theorem Machine.Wave.aligned.age {x : Wave} {n : Nat} (hx : x.aligned) :
    (x.age n).aligned := by
  unfold Wave.age
  exact ite_inv hx.count hx

theorem EntryInv.tick {s : State} (h : EntryInv s) :
    EntryInv s.tick := by
  unfold State.tick
  extract_lets y
  have hy : EntryInv y := h.countCorrected
  exact hy.withWaves (h.waves.map (fun e he => he.snd.age))

/-! ### Branches, joins, exits and spawning -/

theorem EntryInv.noteBackward {s : State} {c : Ctx} (h : EntryInv s) :
    EntryInv (s.noteBackward c) := by
  unfold State.noteBackward
  extract_lets back s1 q
  have hs1 : EntryInv s1 := h.withWaves (h.waves.upd (fun x hx => hx))
  split
  · clear_value back
    split
    · exact h
    · exact hs1
  · clear_value back
    split
    · exact h
    · extract_lets k b
      exact hs1.setCore

theorem EntryInv.goTo {s : State} {c : Ctx} {lane : Nat} {tgt : DWord} (h : EntryInv s) (htgt : PcOk tgt) :
    EntryInv (s.goTo c lane tgt) := by
  unfold State.goTo
  exact h.updThread (fun t ht => Thread.aligned.intro htgt ht.epc ht.accs ht.st)

theorem EntryInv.branchLane {s : State} {c : Ctx} {lane : Nat} {tgt : DWord} (h : EntryInv s) :
    (s.branchLane c lane tgt).aligned := by
  unfold State.branchLane
  split
  · exact h
  · rename_i heq
    exact h.goTo (PcOk.of_targetBad heq)

theorem Machine.Thread.aligned.push {t : Thread} {ra : DWord} (ht : t.aligned) :
    (t.push ra).aligned := by
  unfold Thread.push
  exact ite_inv ht ht

theorem EntryInv.callLane {s : State} {c : Ctx} {lane : Nat} {tgt : DWord} (h : EntryInv s) (hc : c.aligned) :
    (s.callLane c lane tgt).aligned := by
  unfold State.callLane
  extract_lets t go
  split
  · exact h
  · rename_i heq
    split
    · show EntryInv _
      unfold go
      exact (h.updThread (fun t2 ht2 => ht2.push)).goTo (PcOk.of_targetBad heq)
    · split
      · exact h
      · split
        · rename_i s1 a heq4
          obtain ⟨hs1, ha⟩ : EntryInv s1 ∧ a.aligned := of_eq (P := Lane.aligned) (h.issueGlob hc) heq4
          constructor
          · unfold go
            exact (hs1.updThread (fun t2 ht2 => ht2.push)).goTo (PcOk.of_targetBad heq)
          · exact ha
        · exact h.issueGlob hc

theorem EntryInv.retLane {s : State} {c : Ctx} {lane : Nat} (h : EntryInv s) (hc : c.aligned) :
    (s.retLane c lane).aligned := by
  unfold State.retLane
  extract_lets t q
  split
  · split
    · exact h
    · rename_i heq2
      exact EntryInv.goTo (h.updThread (fun t2 ht2 => ht2)) (PcOk.of_targetBad heq2)
  · split
    · exact h
    · split
      · rename_i s1 _ _ heq3
        exact of_eq (P := Trans2.aligned) h.reach heq3
      · rename_i s1 _ heq3
        exact of_eq (P := Trans2.aligned) h.reach heq3
      · rename_i s1 heq3
        exact of_eq (P := Trans2.aligned) h.reach heq3
      · rename_i s1 _ heq3
        have hs1 : EntryInv s1 := of_eq (P := Trans2.aligned) h.reach heq3
        split
        · exact h
        · rename_i s2 _ heq4
          have hs2 : EntryInv s2 := (hs1.readNow hc) _ heq4
          extract_lets ra
          split
          · exact hs2
          · rename_i heq5
            exact EntryInv.goTo (hs2.updThread (fun t2 ht2 => ht2)) (PcOk.of_targetBad heq5)

theorem EntryInv.branching {i : Instr} {s : State} {g : Ctx → State → Nat → Lane} (h : EntryInv s) (hg : ∀ (c : Ctx)
    (s : State) (n : Nat), c.aligned → EntryInv s → (g c s n).aligned) :
    OutAll (branching i s g) := by
  unfold Machine.branching
  exact h.run (fun c s2 hc hs2 => (hs2.eachLane hc (fun s3 _ hs3 => hg _ _ _ hc hs3)).noteBackward)

theorem EntryInv.execBra {f : Frame} {s : State} (h : EntryInv s) :
    OutAll (execBra f s) := by
  unfold Machine.execBra
  exact h.branching (fun c s2 n _ hs2 => hs2.branchLane)

theorem EntryInv.execBrx {f : Frame} {s : State} (h : EntryInv s) :
    OutAll (execBrx f s) := by
  unfold Machine.execBrx
  exact h.branching (fun c s2 n _ hs2 => hs2.branchLane)

theorem EntryInv.execCall {f : Frame} {s : State} (h : EntryInv s) :
    OutAll (execCall f s) := by
  unfold Machine.execCall
  exact h.branching (fun c s2 n hc hs2 => hs2.callLane hc)

theorem EntryInv.execCallx {f : Frame} {s : State} (h : EntryInv s) :
    OutAll (execCallx f s) := by
  unfold Machine.execCallx
  exact h.branching (fun c s2 n hc hs2 => hs2.callLane hc)

theorem EntryInv.execRet {f : Frame} {s : State} (h : EntryInv s) :
    OutAll (execRet f s) := by
  unfold Machine.execRet
  exact h.branching (fun c s2 n hc hs2 => hs2.retLane hc)

theorem EntryInv.putMask {s : State} {c : Ctx} {m : Word} (h : EntryInv s) :
    EntryInv (s.putMask c m) := by
  unfold State.putMask
  exact ite_inv h h.putDst

theorem EntryInv.execKset {f : Frame} {or : Bool} {s : State} (h : EntryInv s) :
    OutAll (execKset f or s) := by
  unfold Machine.execKset
  exact h.run (fun _ s2 _ hs2 => hs2.putMask)

theorem EntryInv.execKclr {f : Frame} {sel : Bool} {s : State} (h : EntryInv s) :
    OutAll (execKclr f sel s) := by
  unfold Machine.execKclr
  exact h.run (fun _ s2 _ hs2 => hs2.putMask)

theorem EntryInv.joinLane {s : State} {c : Ctx} {lane k : Nat} {v : Word} (h : EntryInv s) :
    (s.joinLane c lane k v).aligned := by
  unfold State.joinLane
  split
  · exact h
  · extract_lets inst bad j j1
    split
    · clear_value bad
      split
      · exact h
      · exact h
    · rename_i s4 heq2
      have hs4 : EntryInv s4 := h.drain _ heq2
      clear_value bad
      split
      · exact h
      · exact ⟨hs4.withWaves (hs4.waves.upd (fun x hx => hx)), trivial⟩

theorem EntryInv.execJoin {f : Frame} {s : State} (h : EntryInv s) :
    OutAll (execJoin f s) := by
  unfold Machine.execJoin
  refine EntryInv.run h ?_
  intro _ _ hc hs2
  extract_lets k s2_2
  have hs2_2 : EntryInv s2_2 := hs2.eachLane hc (fun s3 n hs3 => hs3.joinLane)
  exact hs2_2.withWaves (hs2_2.waves.upd (fun x hx => hx.joinsDone))

theorem EntryInv.syncLane {s : State} {c : Ctx} {lane : Nat} {v : Word} (h : EntryInv s) :
    (s.syncLane c lane v).aligned := by
  unfold State.syncLane
  split
  · exact h
  · extract_lets insts arrive
    have harrive : ∀ (x : Wave), x.aligned → (arrive x).aligned := by
      intro _ hx
      unfold arrive
      exact ite_inv hx hx
    split
    · exact h
    · split
      · exact h
      · rename_i s4 heq3
        have hs4 : EntryInv s4 := h.drain _ heq3
        exact ⟨hs4.withWaves (hs4.waves.upd (fun x hx => harrive _ hx)), trivial⟩

theorem EntryInv.execWsync {f : Frame} {s : State} (h : EntryInv s) :
    OutAll (execWsync f s) := by
  unfold Machine.execWsync
  refine EntryInv.run h ?_
  intro _ _ hc hs2
  extract_lets s2_2
  have hs2_2 : EntryInv s2_2 := hs2.eachLane hc (fun s3 n hs3 => hs3.syncLane)
  exact hs2_2.withWaves (hs2_2.waves.upd (fun x hx => hx.syncsDone))

theorem EntryInv.exitLane {s : State} {c : Ctx} {lane : Nat} (h : EntryInv s) :
    (s.exitLane c lane).aligned := by
  unfold State.exitLane
  split
  · exact h
  · rename_i s4 heq
    have hs4 : EntryInv s4 := h.returnAll _ heq
    exact hs4.exitThread

theorem EntryInv.execExit {f : Frame} {s : State} (h : EntryInv s) :
    OutAll (execExit f s) := by
  unfold Machine.execExit
  exact h.perLane (fun _ s2 n _ hs2 => hs2.exitLane)

theorem Machine.Wave.aligned.yieldTurn {x : Wave} {path : List Nat} (hx : x.aligned) :
    (x.yieldTurn path).aligned := by
  unfold Wave.yieldTurn
  extract_lets l
  exact ite_inv hx.giveTurn hx.settleTurn

theorem EntryInv.execYield {f : Frame} {s : State} (h : EntryInv s) :
    OutAll (execYield f s) := by
  unfold Machine.execYield
  extract_lets turn
  have hturn : ∀ (c : Ctx) (s : State), c.aligned → EntryInv s → EntryInv (turn c s) := by
    intro _ _ _ hs2
    unfold turn
    exact ite_inv hs2.settleTurn (EntryInv.actAll (hs2.withWaves (hs2.waves.upd (fun x hx => hx.yieldTurn))))
  exact h.issue (fun c s2 hc hs2 => hturn _ _ hc hs2) (fun _ s2 _ hs2 => hs2)

theorem EntryInv.execNop {f : Frame} {s : State} (h : EntryInv s) :
    OutAll (execNop f s) := by
  unfold Machine.execNop
  exact h.run (fun _ s2 _ hs2 => hs2)

theorem EntryInv.updBin {s : State} {k i : Nat} {g : SpawnBin → SpawnBin} (h : EntryInv s) (hg : ∀
    (y : SpawnBin), y.aligned → (g y).aligned) :
    EntryInv (s.updBin k i g) := by
  unfold State.updBin
  extract_lets c
  have hc : c.aligned := h.cluster
  exact h.setCluster (Cluster.aligned.intro hc.queues (hc.bins.upd (fun y hy => hg _ hy)))

theorem EntryInv.newChunk {s : State} {rgn : Nat} {x : Region} (h : EntryInv s) :
    OptAll (FstAll EntryInv) (State.spawnChunk.newChunk s rgn x) := by
  unfold State.spawnChunk.newChunk
  exact ite_inv OptAll.none (OptAll.mapOf (fun n => h.updRegion (fun y hy => hy)))

theorem EntryInv.spawnChunk {s : State} {rgn : Nat} {b : SpawnBin} (h : EntryInv s) :
    OptAll (FstAll EntryInv) (s.spawnChunk rgn b) := by
  unfold State.spawnChunk
  split
  · exact OptAll.none
  · split
    · exact ite_inv (OptAll.some h) h.newChunk
    · exact h.newChunk

theorem EntryInv.putRec {s : State} {k i : Nat} {r : BinRec} (h : EntryInv s) :
    EntryInv (s.putRec k i r) := by
  unfold State.putRec
  split
  · split
    rename_i s1 _ heq3
    have hs1 : EntryInv s1 := h.gathPut.of_eq heq3
    refine EntryInv.updBin hs1 ?_
    intro _ hy4
    split
    · exact hy4
    · exact hy4
  · exact h

theorem EntryInv.binTry {s : State} {k i : Nat} {b : SpawnBin} {recs : List BinRec} (h : EntryInv s) :
    FstAll EntryInv (s.binTry k i b recs) := by
  unfold State.binTry
  split
  · rename_i s1 _ y heq
    have hs1 : EntryInv s1 := h.gathReads.of_eq heq
    exact hs1.updBin (fun y2 hy2 => hy2)
  · rename_i s1 heq
    have hs1 : EntryInv s1 := h.gathReads.of_eq heq
    exact ite_inv hs1 (hs1.updBin (fun y hy => hy))

theorem EntryInv.binRetry {s : State} {k i : Nat} (h : EntryInv s) :
    FstAll EntryInv (s.binRetry k i) := by
  unfold State.binRetry
  split
  · exact h
  · split
    · exact h
    · split
      · rename_i s1 heq3
        have hs1 : EntryInv s1 := h.gathTry.of_eq heq3
        exact hs1.updBin (fun y3 hy3 => hy3)
      · rename_i s1 _ heq3
        have hs1 : EntryInv s1 := h.gathTry.of_eq heq3
        exact hs1.updBin (fun y3 hy3 => hy3)

theorem EntryInv.freeChunks {s : State} {rgn : Nat} (h : EntryInv s) :
    EntryInv (s.freeChunks rgn) := by
  unfold State.freeChunks
  extract_lets held
  exact h.updRegion (fun y hy => hy)

theorem EntryInv.unspillBin {s : State} {k i : Nat} (h : EntryInv s) :
    EntryInv (s.unspillBin k i) := by
  unfold State.unspillBin
  extract_lets c room
  have hc : c.aligned := h.cluster
  split
  · exact h
  · split
    · exact EntryInv.freeChunks (h.setCluster (Cluster.aligned.intro hc.queues hc.bins.del))
    · extract_lets first
      split
      · exact h.freeChunks
      · split
        rename_i s1 _ heq4
        have hs1 : EntryInv s1 := h.binTry.of_eq heq4
        exact EntryInv.freeChunks (ite_inv (hs1.updBin (fun y2 hy2 => hy2)) hs1)

theorem Machine.Cluster.aligned.binFor {c : Cluster} {rgn : Nat} {entry : DWord} {tag : Option (BitVec 5)}
    {sdep : Nat} (hc : c.aligned) (hentry : PcOk entry) :
    OptAll (SndAll SpawnBin.aligned) (c.binFor rgn entry tag sdep) := by
  unfold Cluster.binFor
  split
  · rename_i e heq
    have he : SndAll SpawnBin.aligned e := hc.bins.find? _ heq
    exact OptAll.some he
  · exact OptAll.mapOf (fun n => SpawnBin.aligned.intro hentry)

theorem EntryInv.spawnPut {s : State} {k rgn i : Nat} {b : SpawnBin} {data : BitVec 128} (h : EntryInv s) (hb : b.aligned) :
    OkAll EntryInv (s.spawnPut k rgn i b data) := by
  unfold State.spawnPut
  extract_lets put
  have hput : ∀ (s : State) (y : BinRec), EntryInv s → EntryInv (put s y) := by
    intro _ _ hs2
    unfold put
    extract_lets c
    have hc : c.aligned := hs2.cluster
    exact hs2.setCluster (Cluster.aligned.intro hc.queues (hc.bins.ins hb))
  split
  · exact hput _ _ h
  · split
    · exact trivial
    · rename_i s1 _ heq2
      have hs1 : EntryInv s1 := h.spawnChunk _ heq2
      extract_lets r
      exact (hput _ _ hs1).putRec

theorem EntryInv.spawnAppend {s : State} {k rgn : Nat} {entry : DWord} {tag : Option (BitVec 5)} {sdep : Nat}
    {data : BitVec 128} (h : EntryInv s) (hentry : PcOk entry) :
    OkAll EntryInv (s.spawnAppend k rgn entry tag sdep data) := by
  unfold State.spawnAppend
  split
  · exact trivial
  · rename_i b heq
    have hb : b.aligned := (h.cluster.binFor hentry) _ heq
    split
    · exact h.spawnPut hb
    · extract_lets s1
      have hs1 : EntryInv s1 := h.unspillBin
      exact hs1.spawnPut ((hs1.cluster.bins.find _).getD hb)

theorem EntryInv.spawnLane {s : State} {c : Ctx} {lane : Nat} {flt : Bool} (h : EntryInv s) :
    (s.spawnLane c lane flt).aligned := by
  unfold State.spawnLane
  extract_lets entry t data
  split
  · exact h
  · rename_i heq
    split
    · exact h
    · split
      · exact h
      · rename_i s4 heq3
        have hs4 : EntryInv s4 := h.releaseAt _ heq3
        split
        · rename_i s2 heq4
          exact of_eq (P := OkAll EntryInv) (hs4.spawnAppend (PcOk.of_targetBad heq)) heq4
        · exact ite_inv hs4 hs4

theorem EntryInv.execSpawn {f : Frame} {flt : Bool} {s : State} (h : EntryInv s) :
    OutAll (execSpawn f flt s) := by
  unfold Machine.execSpawn
  exact h.perLane (fun c s2 n _ hs2 => hs2.spawnLane)

end Sys2Proof
end

section
/-! PROOFS. No step misaligns an address at which a thread goes on or is placed (O3):
placement, gathering, sweeps and collectives. -/

namespace Sys2Proof

open Sys2Proof.Machine

/-! ### Waves as they start -/

theorem EntryInv.setRoles {s : State} {g scrn tobn : Nat} (h : EntryInv s) :
    EntryInv (s.setRoles g scrn tobn) := by
  unfold State.setRoles
  extract_lets c s1 y
  have hs1 : EntryInv s1 := h.dropWhere
  exact ite_inv h hs1.setCore

theorem EntryInv.beginMove {s : State} {frame slice : Nat} (h : EntryInv s) :
    FstAll EntryInv (s.beginMove frame slice) := by
  unfold State.beginMove
  exact ite_inv h h

theorem EntryInv.askHome {s : State} {frame slice : Nat} (h : EntryInv s) :
    EntryInv (s.askHome frame slice) := by
  unfold State.askHome
  exact h.beginMove.fst

theorem EntryInv.placedFor {s : State} {r : Nat} (h : EntryInv s) :
    EntryInv (s.placedFor r) := by
  unfold State.placedFor
  extract_lets free
  have hfree : ∀ (y : Die), y.aligned → (free y).aligned := by
    intro _ hy
    unfold free
    exact ite_inv hy hy
  exact EntryInv.updRegion (h.withDies (h.dies.map (fun y hy => hfree _ hy))) (fun y hy => hy)

theorem PcOk.start {r : Rcb} {tag : Option (BitVec 5)} {pc : DWord} {lin sdep : Nat} {v : NMap Word}
    {elem : Option Elem} (hpc : PcOk pc) :
    (Thread.start r tag pc lin sdep v elem).aligned := by
  unfold Thread.start
  extract_lets base y
  have hy : y.aligned := Thread.empty_aligned
  exact Thread.aligned.intro hpc hy.epc hy.accs trivial

theorem ListAll.start {rgn wg wave : Nat} {kind : WKind} {entry : Option Nat} {p : Spot} {threads : List Thread}
    {args : NMap Word} {clk : Nat} (hthreads : ListAll Thread.aligned threads) :
    (Wave.start rgn wg wave kind entry p threads args clk).aligned := by
  unfold Wave.start
  exact Wave.aligned.fixTurn (Wave.aligned.intro hthreads)

theorem EntryInv.noteCore {s : State} {g : Nat} {x : Wave} (h : EntryInv s) :
    EntryInv (s.noteCore g x) := by
  unfold State.noteCore
  extract_lets put swp bin die y
  have hswp : ∀ (y : Sweep), y.aligned → (swp y).aligned := by
    intro _ hy2
    unfold swp
    exact ite_inv hy2 hy2
  have hbin : ∀ (y : BinDesc), y.aligned → (bin y).aligned := by
    intro _ hy2
    unfold bin
    exact ite_inv hy2 hy2
  have hdie : ∀ (y : Die), y.aligned → (die y).aligned := by
    intro _ hy2
    unfold die
    exact Die.aligned.intro (hy2.bins.map (fun y3 hy3 => hbin _ hy3)) hy2.sweepQ (hy2.engines.map (fun e he => hswp _ he.snd))
  have hy : EntryInv y := h.updRegion (fun y2 hy2 => hy2)
  exact hy.withDies (h.dies.map (fun y2 hy2 => hdie _ hy2))

theorem EntryInv.seat {s : State} {g slot : Nat} {x : Wave} (h : EntryInv s) (hx : x.aligned) :
    EntryInv (s.seat g slot x) := by
  unfold State.seat
  extract_lets w s1 y
  have hs1 : EntryInv s1 := h.force.getD h
  have hy : EntryInv y := hs1.dropClean.noteCore.setWave hx
  exact EntryInv.wakeCore hy

theorem EntryInv.takePlace {s : State} {g : Nat} {y : Wg} (h : EntryInv s) :
    EntryInv (s.takePlace g y) := by
  unfold State.takePlace
  extract_lets meet keep
  exact h

theorem EntryInv.seatWg {s : State} {rgn : Nat} {x : Region} {index g : Nat} {p : Plan} {group : Option Nat}
    {member : Nat} (h : EntryInv s) (hx : x.aligned) :
    EntryInv (s.seatWg rgn x index g p group member) := by
  unfold State.seatWg
  extract_lets wid r s2 lane
  have hr : r.aligned := hx.rcb
  have hs2 : EntryInv s2 := h.setRoles.takePlace
  have hlane : ∀ (n n2 : Nat), (lane n n2).aligned := by
    intro _ _
    unfold lane
    extract_lets tid
    exact ite_inv hr.entry.start Thread.empty_aligned
  exact foldl_inv hs2 (fun s3 a hs3 => hs3.seat (ListAll.mapOf (fun n => hlane _ _)).start)

theorem Machine.Wave.aligned.withTile {x : Wave} {tile : Option TileSt} {src : Nat} (h : x.aligned) :
    ({ x with tile := tile, src := src } : Wave).aligned := Wave.aligned.intro h.threads

theorem EntryInv.seatDelivered {s : State} {d : Delivery} {x : Region} {g entry : Nat} {p : Plan} (h : EntryInv s)
    (hd : d.aligned) : EntryInv (s.seatDelivered d x g entry p) := by
  unfold State.seatDelivered
  extract_lets wid r index s2 lane s3
  have hs3 : EntryInv s3 := h.setRoles.takePlace.updRegion fun _ hy => hy
  have hlane : ∀ l, (lane l).aligned := by
    intro l
    unfold lane
    split
    · exact hd.entry.start
    · exact Thread.empty_aligned
  exact foldl_inv hs3 fun _ e hs => hs.seat (Wave.aligned.withTile (ListAll.mapOf fun _ => hlane _).start)

theorem EntryInv.seatCaller {s : State} {rgn : Nat} {x : Region} {cluster q wg h : Nat} (hs : EntryInv s) (hx : x.aligned) :
    EntryInv (s.seatCaller rgn x cluster q wg h) := by
  unfold State.seatCaller
  extract_lets r regs t y s1
  have hr : r.aligned := hx.rcb
  have ht : t.aligned := hr.centry.start
  have hy : y.aligned := (ListAll.cons ht ListAll.nil).start
  have hs1 : EntryInv s1 := foldl_inv hs (fun s2 _ hs2 => hs2.setCore)
  exact hs1.withWaves (hs1.waves.ins hy)

/-! ### Gathering queues and spawn bins -/

theorem EntryInv.queue {s : State} {k n : Nat} (h : EntryInv s) :
    (s.queue k n).aligned := by
  unfold State.queue
  exact (h.cluster.queues.find _).getD GQueue.fresh_aligned

theorem EntryInv.setQueue {s : State} {k n : Nat} {q : GQueue} (h : EntryInv s) (hq : q.aligned) :
    EntryInv (s.setQueue k n q) := by
  unfold State.setQueue
  extract_lets c
  have hc : c.aligned := h.cluster
  exact h.setCluster (Cluster.aligned.intro (hc.queues.ins hq) hc.bins)

theorem EntryInv.queueTry {s : State} {k n rgn : Nat} {vas : List Nat} (h : EntryInv s) :
    FstAll EntryInv (s.queueTry k n rgn vas) := by
  unfold State.queueTry
  split
  · rename_i s1 _ y heq
    have hs1 : EntryInv s1 := h.gathReads.of_eq heq
    refine FstAll.intro ?_
    refine EntryInv.setQueue hs1 ?_
    extract_lets y_2
    exact hs1.queue
  · rename_i s1 heq
    have hs1 : EntryInv s1 := h.gathReads.of_eq heq
    refine FstAll.intro ?_
    split
    · exact hs1
    · refine EntryInv.setQueue hs1 ?_
      extract_lets y
      exact hs1.queue

theorem EntryInv.queueRetry {s : State} {k n : Nat} (h : EntryInv s) :
    FstAll EntryInv (s.queueRetry k n) := by
  unfold State.queueRetry
  extract_lets q
  split
  · exact h
  · exact h
  · split
    · rename_i s1 heq3
      have hs1 : EntryInv s1 := h.gathTry.of_eq heq3
      refine FstAll.intro ?_
      refine EntryInv.setQueue hs1 ?_
      extract_lets y_2
      exact hs1.queue
    · rename_i s1 _ heq3
      have hs1 : EntryInv s1 := h.gathTry.of_eq heq3
      refine FstAll.intro ?_
      refine EntryInv.setQueue hs1 ?_
      extract_lets y_2
      exact hs1.queue

theorem EntryInv.unspillQueue {s : State} {k n : Nat} (h : EntryInv s) :
    EntryInv (s.unspillQueue k n) := by
  unfold State.unspillQueue
  extract_lets q room first
  split
  · exact h
  · split
    · exact h
    · split
      rename_i s1 _ heq3
      have hs1 : EntryInv s1 := h.queueTry.of_eq heq3
      extract_lets q1
      have hq1 : q1.aligned := hs1.queue
      exact ite_inv (hs1.setQueue hq1) hs1

theorem EntryInv.spillPut {s : State} {k n pos : Nat} {data : BitVec 128} (h : EntryInv s) :
    EntryInv (s.spillPut k n pos data) := by
  unfold State.spillPut
  extract_lets q
  split
  · exact h
  · split
    rename_i s1 _ heq2
    have hs1 : EntryInv s1 := h.gathPut.of_eq heq2
    extract_lets q1
    have hq1 : q1.aligned := hs1.queue
    refine EntryInv.setQueue hs1 ?_
    split
    · exact hq1
    · exact hq1

theorem EntryInv.rewriteQueue {s : State} {k n : Nat} (h : EntryInv s) :
    FstAll EntryInv (s.rewriteQueue k n) := by
  unfold State.rewriteQueue
  extract_lets q put s1
  have hq : q.aligned := h.queue
  have hput : ∀ (s : State) (y : GSlot), EntryInv s → EntryInv (put s y) := by
    intro _ _ hs2
    unfold put
    split
    · exact ite_inv hs2 hs2.spillPut
    · exact hs2
  have hs1 : EntryInv s1 := foldl_inv (h.setQueue hq) (fun s2 _ hs2 => hput _ _ hs2)
  exact ite_inv h hs1

theorem EntryInv.addSlot {s : State} {k n rgn : Nat} {tag : Option (BitVec 5)} {data : Option (BitVec 128)}
    {spill : Option Nat} (h : EntryInv s) :
    EntryInv (s.addSlot k n rgn tag data spill) := by
  unfold State.addSlot
  extract_lets q t s1
  have hq : q.aligned := h.queue
  have hs1 : EntryInv s1 := h.setQueue hq
  split
  · exact hs1.spillPut
  · exact hs1

theorem EntryInv.produceLane {s : State} {c : Ctx} {lane : Nat} {flt enq : Bool} (h : EntryInv s) (hc : c.aligned) :
    (s.produceLane c lane flt enq).aligned := by
  unfold State.produceLane
  extract_lets id data
  split
  · exact h
  · split
    · exact h
    · rename_i s4 heq2
      have hs4 : EntryInv s4 := (ite_inv h.releaseAt (OptAll.some h)) _ heq2
      extract_lets on s2 q
      have hs2 : EntryInv s2 := ite_inv hs4.unspillQueue hs4
      split
      · exact ite_inv hs2 ⟨hs2, hc.calc⟩
      · exact ⟨hs2.addSlot, hc.calc⟩

theorem EntryInv.execGqEnq {f : Frame} {flt : Bool} {s : State} (h : EntryInv s) :
    OutAll (execGqEnq f flt s) := by
  unfold Machine.execGqEnq
  exact h.perLane (fun c s2 n hc hs2 => hs2.produceLane hc)

theorem EntryInv.execGqResv {f : Frame} {flt : Bool} {s : State} (h : EntryInv s) :
    OutAll (execGqResv f flt s) := by
  unfold Machine.execGqResv
  exact h.perLane (fun c s2 n hc hs2 => hs2.produceLane hc)

theorem EntryInv.publishLane {s : State} {c : Ctx} {lane : Nat} (h : EntryInv s) :
    (s.publishLane c lane).aligned := by
  unfold State.publishLane
  split
  · exact h
  · split
    · exact h
    · rename_i s4 heq2
      have hs4 : EntryInv s4 := h.releaseAt _ heq2
      extract_lets q ticket mine data put s2
      have hq : q.aligned := hs4.queue
      have hs2 : EntryInv s2 := hs4.setQueue hq
      split
      · exact hs4
      · show EntryInv _
        split
        · exact hs2.spillPut
        · exact hs2

theorem EntryInv.execGqPub {f : Frame} {s : State} (h : EntryInv s) :
    OutAll (execGqPub f s) := by
  unfold Machine.execGqPub
  exact h.perLane (fun _ s2 n _ hs2 => hs2.publishLane)

/-- A well-formed queue descriptor names an aligned entry. -/
theorem Machine.queueOfDesc_aligned {d : BitVec 512} {rgn : Nat} (hd : queueDescBad d = false) :
    (queueOfDesc d rgn).aligned := by
  refine GQueue.aligned.intro (PcOk.ofNat ?_)
  unfold queueDescBad at hd
  simp only [Bool.or_eq_false_iff, bne_eq_false_iff_eq] at hd
  tauto

theorem EntryInv.configLane {s : State} {c : Ctx} {lane : Nat} (h : EntryInv s) (hc : c.aligned) :
    (s.configLane c lane).aligned := by
  unfold State.configLane
  split
  · exact h
  · extract_lets q
    split
    · exact h
    · split
      · rename_i heq
        exact of_eq (P := DescRes.aligned) (h.readDesc hc) heq
      · rename_i s1 d heq
        have hs1 : EntryInv s1 := of_eq (P := DescRes.aligned) (h.readDesc hc) heq
        split
        · exact hs1
        · rename_i hd
          have hq : (queueOfDesc d c.x.rgn).aligned := queueOfDesc_aligned (Bool.not_eq_true _ ▸ hd)
          extract_lets bad
          exact ite_inv hs1 (ite_inv hs1 (hs1.setQueue hq))

theorem EntryInv.execGqCfgConfigure {f : Frame} {s : State} (h : EntryInv s) :
    OutAll (execGqCfgConfigure f s) := by
  unfold Machine.execGqCfgConfigure
  exact h.perLane (fun c s2 n hc hs2 => hs2.configLane hc)

theorem EntryInv.voidRecord {s : State} {k n : Nat} {t : GSlot} (h : EntryInv s) :
    EntryInv (s.voidRecord k n t) := by
  unfold State.voidRecord
  exact h.engRecord

theorem EntryInv.disableLane {s : State} {c : Ctx} {lane : Nat} (h : EntryInv s) :
    (s.disableLane c lane).aligned := by
  unfold State.disableLane
  split
  · exact h
  · extract_lets q s1
    have hq : q.aligned := h.queue
    have hs1 : EntryInv s1 := h.setQueue (GQueue.aligned.rest hq)
    exact foldl_inv hs1 (fun s2 _ hs2 => hs2.voidRecord)

theorem EntryInv.execGqCfgDisable {f : Frame} {s : State} (h : EntryInv s) :
    OutAll (execGqCfgDisable f s) := by
  unfold Machine.execGqCfgDisable
  exact h.perLane (fun _ s2 n _ hs2 => hs2.disableLane)

theorem EntryInv.ackLane {s : State} {c : Ctx} {lane : Nat} (h : EntryInv s) :
    (s.ackLane c lane).aligned := by
  unfold State.ackLane
  split
  · exact h
  · extract_lets q b
    have hq : q.aligned := h.queue
    exact ite_inv h (h.setQueue hq)

theorem EntryInv.execGqCfgRelease {f : Frame} {s : State} (h : EntryInv s) :
    OutAll (execGqCfgRelease f s) := by
  unfold Machine.execGqCfgRelease
  exact h.perLane (fun c s2 n _ hs2 => hs2.ackLane)

theorem EntryInv.queryLane {s : State} {c : Ctx} {lane : Nat} (h : EntryInv s) :
    (s.queryLane c lane).aligned := by
  unfold State.queryLane
  split
  · exact h
  · exact h

theorem EntryInv.execGqCfgQuery {f : Frame} {s : State} (h : EntryInv s) :
    OutAll (execGqCfgQuery f s) := by
  unfold Machine.execGqCfgQuery
  exact h.perLane (fun _ s2 n _ hs2 => hs2.queryLane)

theorem EntryInv.rewriteBin {s : State} {k i : Nat} (h : EntryInv s) :
    FstAll EntryInv (s.rewriteBin k i) := by
  unfold State.rewriteBin
  split
  · exact h
  · split
    · exact h
    · extract_lets left s1
      exact foldl_inv (h.updBin (fun y2 hy2 => hy2)) (fun s2 _ hs2 => ite_inv hs2 hs2.putRec)

theorem PcOk.deliveryOf {id rgn k : Nat} {kind : WKind} {entry : DWord} {tag : Option (BitVec 5)} {sdep src : Nat}
    {recs : List (BitVec 128 × Nat)} (hentry : PcOk entry) :
    (deliveryOf id rgn k kind entry tag sdep src recs).aligned := by
  unfold Machine.deliveryOf
  exact Delivery.aligned.intro hentry

theorem EntryInv.fireBin {s : State} {k n : Nat} {q : GQueue} {rgn : Nat} {batch : List GSlot} (h : EntryInv s)
    (hq : q.aligned) :
    FstAll EntryInv (s.fireBin k n q rgn batch) := by
  unfold State.fireBin
  split
  · exact h
  · extract_lets recs d
    have hd : d.aligned := hq.entry.deliveryOf
    exact h.withDeliveries (h.deliveries.append (ListAll.cons hd ListAll.nil))

theorem EntryInv.putBatch {s : State} {k n rgn : Nat} {q : GQueue} {off : Nat} {l : List GSlot} (h : EntryInv s) :
    FstAll EntryInv (s.putBatch k n rgn q off l) := by
  induction l generalizing s off with
  | nil =>
    rw [State.putBatch]
    exact h
  | cons y l ih =>
    rw [State.putBatch]
    split
    rename_i s1 _ heq
    have hs1 : EntryInv s1 := h.gathPut.of_eq heq
    split
    · exact ih hs1
    · refine FstAll.intro ?_
      refine EntryInv.setQueue hs1 ?_
      extract_lets y_2
      exact hs1.queue

theorem EntryInv.fireCaller {s : State} {k n : Nat} {q : GQueue} {rgn : Nat} {batch : List GSlot} (h : EntryInv s) :
    FstAll EntryInv (s.fireCaller k n q rgn batch) := by
  unfold State.fireCaller
  split
  · exact h
  · split
    rename_i s1 _ heq2
    have hs1 : EntryInv s1 := h.putBatch.of_eq heq2
    extract_lets q1 len s2 c word
    have hq1 : q1.aligned := hs1.queue
    have hs2 : EntryInv s2 := hs1.setQueue hq1
    have hc : c.aligned := hs2.cluster
    exact ite_inv hs1 (EntryInv.wakeWhere (hs2.setCluster hc))

theorem EntryInv.queueReady {s : State} {k n : Nat} (h : EntryInv s) :
    FstAll EntryInv (s.queueReady k n) := by
  unfold State.queueReady
  split
  · rename_i s1 heq
    have hs1 : EntryInv s1 := h.queueRetry.of_eq heq
    exact hs1.rewriteQueue
  · exact h.queueRetry

theorem EntryInv.binReady {s : State} {k i : Nat} (h : EntryInv s) :
    FstAll EntryInv (s.binReady k i) := by
  unfold State.binReady
  split
  · rename_i s1 heq
    have hs1 : EntryInv s1 := h.binRetry.of_eq heq
    exact hs1.rewriteBin
  · exact h.binRetry

theorem EntryInv.fireQueue {s : State} {k n : Nat} (h : EntryInv s) :
    FstAll EntryInv (s.fireQueue k n) := by
  unfold State.fireQueue
  split
  · exact h
  · rename_i s2 _ heq2
    exact h.queueReady.of_eq heq2
  · rename_i s2 _ heq2
    have hs2 : EntryInv s2 := h.queueReady.of_eq heq2
    extract_lets q batch
    have hq : q.aligned := hs2.queue
    split
    · rename_i s22 heq3
      exact hs2.queueTry.of_eq heq3
    · rename_i s22 heq3
      have hs22 : EntryInv s22 := hs2.queueTry.of_eq heq3
      split
      · rename_i s23 heq4
        exact (ite_inv hs22.fireCaller (hs22.fireBin hq)).of_eq heq4
      · rename_i s23 heq4
        have hs23 : EntryInv s23 := (ite_inv hs22.fireCaller (hs22.fireBin hq)).of_eq heq4
        extract_lets q2
        have hq2 : q2.aligned := hs23.queue
        exact EntryInv.unspillQueue (hs23.setQueue (GQueue.aligned.rest hq2))

theorem EntryInv.fireSpawn {s : State} {k i : Nat} (h : EntryInv s) :
    FstAll EntryInv (s.fireSpawn k i) := by
  unfold State.fireSpawn
  split
  · rename_i s2 heq
    exact h.binReady.of_eq heq
  · rename_i s2 heq
    have hs2 : EntryInv s2 := h.binReady.of_eq heq
    split
    · exact hs2
    · rename_i b heq2
      have hb : b.aligned := (hs2.cluster.bins.find _) _ heq2
      extract_lets batch
      split
      · rename_i s22 heq3
        exact hs2.binTry.of_eq heq3
      · rename_i s22 heq3
        have hs22 : EntryInv s22 := hs2.binTry.of_eq heq3
        split
        · exact hs22
        · extract_lets d y_2 s2_2
          have hd : d.aligned := hb.entry.deliveryOf
          have hy_2 : EntryInv y_2 := hs22.updBin (fun y2 hy2 => hy2)
          have hs2_2 : EntryInv s2_2 := hy_2.withDeliveries (hs22.deliveries.append (ListAll.cons hd ListAll.nil))
          exact hs2_2.unspillBin

theorem EntryInv.fireFirst {s : State} {k : Nat} {l : List Fire} (h : EntryInv s) :
    FstAll EntryInv (s.fireFirst k l) := by
  induction l generalizing s with
  | nil =>
    rw [State.fireFirst]
    exact h
  | cons y l ih =>
    rw [State.fireFirst]
    exact ite_inv (ite_inv h.fireSpawn h.fireQueue) (ih (ite_inv h.fireSpawn h.fireQueue).fst)

theorem EntryInv.execGatherFiring {cluster : Nat} {s : State} (h : EntryInv s) :
    OutAll (execGatherFiring cluster s) := by
  unfold Machine.execGatherFiring
  split
  · exact h
  · extract_lets r c
    have hr : FstAll EntryInv r := h.fireFirst
    have hc : c.aligned := hr.fst.cluster
    exact ite_inv (hr.fst.setCluster hc) hr.fst

theorem EntryInv.execReservationVoid {cluster queue ticket : Nat} {s : State} (h : EntryInv s) :
    OutAll (execReservationVoid cluster queue ticket s) := by
  unfold Machine.execReservationVoid
  extract_lets q due
  have hq : q.aligned := h.queue
  split
  · exact h
  · exact EntryInv.voidRecord (h.setQueue (GQueue.aligned.rest hq))

theorem EntryInv.execGatherFaultRetry {cluster queue : Nat} {s : State} (h : EntryInv s) :
    OutAll (execGatherFaultRetry cluster queue s) := by
  unfold Machine.execGatherFaultRetry
  split
  · split
    · rename_i s1 heq2
      have hs1 : EntryInv s1 := h.queueReady.of_eq heq2
      exact hs1.unspillQueue
    · rename_i s1 heq2
      exact h.queueReady.of_eq heq2
  · split
    · rename_i s1 heq2
      have hs1 : EntryInv s1 := h.binReady.of_eq heq2
      exact hs1.unspillBin
    · rename_i s1 heq2
      exact h.binReady.of_eq heq2

theorem EntryInv.execDeliveredWavePlace {delivery core : Nat} {s : State} (h : EntryInv s) :
    OutAll (execDeliveredWavePlace delivery core s) := by
  unfold Machine.execDeliveredWavePlace
  split
  · exact h
  · rename_i d heq
    have hd : d.aligned := h.deliveries.find? _ heq
    split
    · exact h
    · split
      · exact h
      · split
        · extract_lets s1 s2
          have hs1 : EntryInv s1 := h.withDeliveries h.deliveries.filter
          have hs2 : EntryInv s2 := hs1.seatDelivered hd
          show EntryInv _
          exact ite_inv (EntryInv.writeState (hs2.updRegion (fun y6 hy6 => hy6))) hs2
        · exact h

/-! ### Context tensors and sweeps -/

theorem EntryInv.sweepDesc {s : State} {c : Ctx} {lane va : Nat} (h : EntryInv s) (hc : c.aligned) :
    (s.sweepDesc c lane va).aligned := by
  unfold State.sweepDesc
  split
  · rename_i r heq
    exact of_eq (P := DescRes.aligned) (h.readDesc hc) heq
  · rename_i s1 _ heq
    have hs1 : EntryInv s1 := of_eq (P := DescRes.aligned) (h.readDesc hc) heq
    split
    · exact hs1
    · exact hs1

/-- A descriptor that a sweep takes names an aligned entry. -/
theorem Machine.swBad_entry {d : BitVec 512} (h : swBad d = none) : dfield d 447 384 % 4 = 0 := by
  unfold swBad at h
  extract_lets n esz at h
  split at h
  · cases h
  · split at h
    · cases h
    · omega

theorem Machine.State.sweepDesc_entry {s s1 : State} {c : Ctx} {lane va : Nat} {d : BitVec 512}
    (heq : s.sweepDesc c lane va = .ok s1 d) : dfield d 447 384 % 4 = 0 := by
  unfold State.sweepDesc at heq
  split at heq
  · cases heq
  · split at heq
    · cases heq
    · rename_i hok
      cases heq
      exact swBad_entry hok

theorem EntryInv.sweepLane {s : State} {c : Ctx} {lane : Nat} (h : EntryInv s) (hc : c.aligned) :
    (s.sweepLane c lane).aligned := by
  unfold State.sweepLane
  simp only []
  obtain ⟨r, hr⟩ : ∃ r, s.sweepDesc c lane (c.tensor lane) = r := ⟨_, rfl⟩
  rw [hr]
  refine DescRes.aligned.andThen (hr ▸ h.sweepDesc hc) fun s1 d heq hs1 => ?_
  obtain ⟨o, ho⟩ : ∃ o, misaligned (c.b lane 2) 8 = o := ⟨_, rfl⟩
  rw [ho]
  refine unlessFault_aligned (fun _ => hs1) ?_
  obtain ⟨r1, hr1⟩ : ∃ r, s1.reach (c.x.agent c.w) .wr clsHome .tagged (c.b lane 2) 8 = r := ⟨_, rfl⟩
  rw [hr1]
  refine Trans2.aligned.andThen (hr1 ▸ hs1.reach) fun s2 _ hs2 => ?_
  obtain ⟨o2, ho2⟩ : ∃ o, s2.releaseAt c.w lane .dev = o := ⟨_, rfl⟩
  rw [ho2]
  refine releasedThen_aligned (ho2 ▸ hs2.releaseAt) h fun s3 hs3 => ?_
  have hy : ∀ y : Sweep, y.desc = d → y.aligned := by
    rintro y rfl
    exact State.sweepDesc_entry (hr.trans heq)
  have hs4 : EntryInv { s3 with nextId := s3.nextId + 1 } := hs3
  have hdie : (s3.die (clusterOfWave c.w / 24)).aligned := hs3.die
  exact ite_inv hs3 (hs4.setDie (Die.aligned.intro hdie.bins
    (hdie.sweepQ.append (ListAll.cons (hy _ rfl) ListAll.nil)) hdie.engines))

theorem EntryInv.execSweep {f : Frame} {s : State} (h : EntryInv s) :
    OutAll (execSweep f s) := by
  unfold Machine.execSweep
  exact h.perLane (fun c s2 n hc hs2 => hs2.sweepLane hc)

theorem EntryInv.reachHome {s : State} {c : Ctx} {va n : Nat} (h : EntryInv s) :
    ExcAll Lane.aligned (FstAll EntryInv) (s.reachHome c va n) := by
  unfold State.reachHome
  split
  · rename_i s1 _ _ heq
    exact of_eq (P := Trans2.aligned) h.reach heq
  · rename_i s1 _ heq
    exact of_eq (P := Trans2.aligned) h.reach heq
  · rename_i s1 heq
    exact of_eq (P := Trans2.aligned) h.reach heq
  · rename_i s1 _ heq
    have hs1 : EntryInv s1 := of_eq (P := Trans2.aligned) h.reach heq
    extract_lets key
    exact ite_inv hs1 hs1

theorem EntryInv.putHome {s : State} {c : Ctx} {lane va key : Nat} {bs : List Byte} (h : EntryInv s) :
    (s.putHome c lane va key bs).aligned := by
  unfold State.putHome
  split
  · exact h
  · split
    · rename_i s1 heq2
      exact of_eq (P := ExcAll (SndAll EntryInv) EntryInv) h.homeWrite heq2
    · rename_i s1 heq2
      exact of_eq (P := ExcAll (SndAll EntryInv) EntryInv) h.homeWrite heq2

theorem EntryInv.editHome {s : State} {c : Ctx} {lane va key : Nat} {g : Byte → Byte} (h : EntryInv s) :
    (s.editHome c lane va key g).aligned := by
  unfold State.editHome
  extract_lets tag
  exact ite_inv h.dataError h.putHome

theorem EntryInv.ctxSetLane {s : State} {c : Ctx} {lane : Nat} (h : EntryInv s) : (s.ctxSetLane c lane).aligned := by
  unfold State.ctxSetLane
  split
  · exact h
  · rename_i e _
    extract_lets v
    refine ite_inv h ?_
    obtain ⟨o, ho⟩ : ∃ o, s.releaseAt c.w lane .dev = o := ⟨_, rfl⟩
    rw [ho]
    refine releasedThen_aligned (ho ▸ h.releaseAt) h fun s1 hs1 => ?_
    obtain ⟨r, hr⟩ : ∃ r, s1.reachHome c e.ctxVa.toNat 2 = r := ⟨_, rfl⟩
    rw [hr]
    exact reachedThen_aligned (hr ▸ hs1.reachHome) fun _ _ hs2 => hs2.putHome

theorem EntryInv.execCtxSet {f : Frame} {s : State} (h : EntryInv s) :
    OutAll (execCtxSet f s) := by
  unfold Machine.execCtxSet
  exact h.perLane (fun c s2 n _ hs2 => hs2.ctxSetLane)

theorem EntryInv.wakeNow {s : State} {c : Ctx} {lane k : Nat} {d : BitVec 512} (h : EntryInv s) :
    (s.wakeNow c lane k d).aligned := by
  rw [State.wakeNow]
  obtain ⟨r, hr⟩ : ∃ r, s.reachHome c (swCtx d k) 1 = r := ⟨_, rfl⟩
  rw [hr]
  refine reachedThen_aligned (hr ▸ h.reachHome) fun s1 ctx hs1 => ?_
  obtain ⟨r1, hr1⟩ : ∃ r, s1.reachHome c (swSkip d (k / 64)) 1 = r := ⟨_, rfl⟩
  rw [hr1]
  refine reachedThen_aligned (hr1 ▸ hs1.reachHome) fun s2 skip hs2 => ?_
  obtain ⟨r2, hr2⟩ : ∃ r, s2.editHome c lane (swCtx d k) ctx wokenByte = r := ⟨_, rfl⟩
  rw [hr2]
  exact Lane.aligned.andThen (hr2 ▸ hs2.editHome) fun _ _ hs3 => hs3.editHome

theorem Machine.Sweep.aligned.hold {x : Sweep} {k : Nat} (hx : x.aligned) :
    (x.hold k).aligned := by
  unfold Sweep.hold
  exact hx

theorem EntryInv.ctxWakeLane {s : State} {c : Ctx} {lane : Nat} (h : EntryInv s) (hc : c.aligned) :
    (s.ctxWakeLane c lane).aligned := by
  unfold State.ctxWakeLane
  extract_lets va k
  split
  · rename_i r heq
    exact of_eq (P := DescRes.aligned) (h.sweepDesc hc) heq
  · rename_i s1 _ heq
    have hs1 : EntryInv s1 := of_eq (P := DescRes.aligned) (h.sweepDesc hc) heq
    split
    · exact hs1
    · split
      · exact h
      · rename_i y s4 heq3
        have hs4 : EntryInv s4 := hs1.releaseAt _ heq3
        extract_lets mine note
        have hnote : ∀ (y : Die), y.aligned → (note y).aligned := by
          intro _ hy2
          unfold note
          exact Die.aligned.intro hy2.bins hy2.sweepQ (hy2.engines.map (fun e he => ite_inv he.snd.hold he.snd))
        exact ite_inv (hs4.withDies (hs4.dies.map (fun y2 hy2 => hnote _ hy2))) hs4.wakeNow

theorem EntryInv.execCtxWake {f : Frame} {s : State} (h : EntryInv s) :
    OutAll (execCtxWake f s) := by
  unfold Machine.execCtxWake
  exact h.perLane (fun c s2 n hc hs2 => hs2.ctxWakeLane hc)

theorem EntryInv.execSweepStart {die : Nat} {s : State} (h : EntryInv s) :
    OutAll (execSweepStart die s) := by
  unfold Machine.execSweepStart
  extract_lets x
  have hx : x.aligned := h.die
  split
  · rename_i y2 l2 _ heq _
    have hr : ListAll Sweep.aligned (y2 :: l2) := of_eq (P := ListAll Sweep.aligned) hx.sweepQ heq
    extract_lets same
    exact ite_inv h (h.setDie (Die.aligned.intro hx.bins hr.of_cons.2 (hx.engines.ins hr.of_cons.1)))
  · exact h

theorem EntryInv.sweepParts {s : State} {e : EngOf} {need : Need} {va n : Nat} (h : EntryInv s) :
    (s.sweepParts e need va n).aligned := by
  unfold State.sweepParts
  split
  · rename_i r heq
    exact of_eq (P := EngParts.aligned) h.engParts heq
  · rename_i s1 _ heq
    have hs1 : EntryInv s1 := of_eq (P := EngParts.aligned) h.engParts heq
    split
    · exact hs1
    · exact hs1

theorem EntryInv.sweepRead {s : State} {e : EngOf} {va n : Nat} (h : EntryInv s) :
    (s.sweepRead e va n).aligned := by
  unfold State.sweepRead
  split
  · rename_i r heq
    exact of_eq (P := EngParts.aligned) h.sweepParts heq
  · rename_i s1 _ heq
    have hs1 : EntryInv s1 := of_eq (P := EngParts.aligned) h.sweepParts heq
    exact hs1.engFetch

theorem EntryInv.counterRead {s : State} {e : EngOf} {va : Nat} (h : EntryInv s) :
    (s.counterRead e va).aligned := by
  rw [State.counterRead]
  split
  · rename_i r heq
    exact of_eq (P := EngParts.aligned) h.engParts heq
  · rename_i s1 _ heq
    have hs1 : EntryInv s1 := of_eq (P := EngParts.aligned) h.engParts heq
    exact hs1.engFetch

theorem EntryInv.sweepEdit {s : State} {e : EngOf} {va : Nat} {g : Byte → Byte} (h : EntryInv s) :
    (s.sweepEdit e va g).aligned := by
  rw [State.sweepEdit]
  split
  · rename_i r heq
    exact of_eq (P := EngParts.aligned) h.sweepParts heq
  · rename_i s1 _ heq
    have hs1 : EntryInv s1 := of_eq (P := EngParts.aligned) h.sweepParts heq
    split
    · rename_i s2 _ heq2
      have hs2 : EntryInv s2 := of_eq (P := EngRes.aligned) hs1.engFetch heq2
      exact hs2.engStore
    · exact hs1.engFetch

theorem EntryInv.ctxEval {s : State} {e : EngOf} {x : Sweep} {k : Nat} {bs : List Byte} (h : EntryInv s) :
    (s.ctxEval e x k bs).aligned := by
  unfold State.ctxEval
  extract_lets w0 w1 is va n
  have his : ∀ (s : State) (y : Bool), EntryInv s → (is s y).aligned := by
    intro _ _ hs2
    unfold is
    exact hs2
  split
  · exact h
  · exact h
  · exact h
  · split
    · exact h
    · split
      · rename_i s2 _ heq3
        have hs2 : EntryInv s2 := of_eq (P := EngRes.aligned) h.counterRead heq3
        exact his _ _ hs2
      · exact h.counterRead
  · split
    · exact his _ _ h
    · split
      · rename_i s2 _ heq3
        have hs2 : EntryInv s2 := of_eq (P := EngRes.aligned) h.sweepRead heq3
        exact his _ _ hs2
      · exact h.sweepRead
  · exact his _ _ h
  · exact h

theorem EntryInv.ctxScan {s : State} {e : EngOf} {x : Sweep} {l : List Nat} (h : EntryInv s) :
    (s.ctxScan e x l).aligned := by
  induction l generalizing s with
  | nil =>
    rw [State.ctxScan]
    exact h
  | cons n l ih =>
    rw [State.ctxScan]
    split
    · rename_i s2 _ heq
      have hs2 : EntryInv s2 := of_eq (P := EngRes.aligned) h.sweepRead heq
      split
      · rename_i r heq2
        have hr : r.aligned := of_eq (P := SwRes.aligned) hs2.ctxEval heq2
        exact hr
      · rename_i s22 _ heq2
        have hs22 : EntryInv s22 := of_eq (P := SwRes.aligned) hs2.ctxEval heq2
        split
        · rename_i r heq3
          have hr : r.aligned := of_eq (P := SwRes.aligned) (ih hs22) heq3
          exact hr
        · rename_i s3 _ heq3
          have hs3 : EntryInv s3 := of_eq (P := SwRes.aligned) (ih hs22) heq3
          exact hs3
    · exact h.sweepRead

theorem EntryInv.sweepEdits {s : State} {e : EngOf} {g : Byte → Byte} {l : List Nat} (h : EntryInv s) :
    BothAll EntryInv (OptAll EngRes.aligned) (s.sweepEdits e g l) := by
  induction l generalizing s with
  | nil =>
    rw [State.sweepEdits]
    exact ⟨h, OptAll.none⟩
  | cons n l ih =>
    rw [State.sweepEdits]
    split
    · rename_i s2 _ heq
      have hs2 : EntryInv s2 := of_eq (P := EngRes.aligned) h.sweepEdit heq
      exact ih hs2
    · exact ⟨h, OptAll.some h.sweepEdit⟩

theorem Machine.EngRes.aligned.sweepFail {e : EngOf} {r : EngRes} (hr : r.aligned) :
    EntryInv (sweepFail e r) := by
  unfold Machine.sweepFail
  split
  · exact hr
  · exact EntryInv.engRecord hr
  · exact EntryInv.dataError (EntryInv.engRecord hr)
  · exact EntryInv.engFull hr
  · exact EntryInv.engQuota hr
  · exact hr

theorem EntryInv.setSweep {s : State} {die n : Nat} {y : Option Sweep} (h : EntryInv s) (hy : OptAll Sweep.aligned y) :
    EntryInv (s.setSweep die n y) := by
  unfold State.setSweep
  extract_lets x
  have hx : x.aligned := h.die
  refine EntryInv.setDie h ?_
  refine Die.aligned.intro hx.bins hx.sweepQ ?_
  split
  · exact hx.engines.ins (hy _ rfl)
  · exact hx.engines.del

theorem EntryInv.keepSweep {s : State} {die n : Nat} {y : Sweep} (h : EntryInv s) (hy : y.aligned) :
    EntryInv (s.keepSweep die n y) := by
  unfold State.keepSweep
  exact ite_inv (h.setSweep (OptAll.some hy)) h

theorem EntryInv.sweepEnd {s : State} {die n : Nat} {x : Sweep} (h : EntryInv s) (hx : x.aligned) :
    EntryInv (s.sweepEnd die n x) := by
  rw [State.sweepEnd]
  split
  · rename_i a _ heq
    have ha : EntryInv a := of_eq (P := EngParts.aligned) h.engParts heq
    exact (ha.setSweep OptAll.none).raiseCtr
  · rename_i a heq
    have ha : a.aligned := of_eq (P := EngParts.aligned) h.engParts heq
    exact ite_inv (ha.sweepFail.keepSweep hx) (ha.sweepFail.setSweep OptAll.none)

theorem EntryInv.nextChunk {s : State} {die n : Nat} {x : Sweep} (h : EntryInv s) (hx : x.aligned) :
    EntryInv (s.nextChunk die n x) := by
  unfold State.nextChunk
  split
  · exact h
  · exact ite_inv (h.setSweep (OptAll.some hx)) (h.sweepEnd hx)

theorem EntryInv.setSkip {s : State} {e : EngOf} {x : Sweep} (h : EntryInv s) :
    FstAll EntryInv (s.setSkip e x) := by
  rw [State.setSkip]
  split
  · rename_i s2 _ heq
    exact of_eq (P := EngRes.aligned) h.sweepEdit heq
  · exact h.sweepEdit.sweepFail

theorem EntryInv.askStep {s : State} {die n : Nat} {x : Sweep} {ready : List CtxSeen} {h : Nat} (hs : EntryInv s)
    (hx : x.aligned) :
    EntryInv (s.askStep die n x ready h) := by
  unfold State.askStep
  extract_lets mine el d
  have hd : d.aligned := Delivery.aligned.intro hx.entry
  clear_value mine
  split
  · exact hs
  · exact hs.withDeliveries (hs.deliveries.append (ListAll.cons hd ListAll.nil))

theorem EntryInv.elemPages {s : State} {e : EngOf} {d : BitVec 512} {l : List CtxSeen} (h : EntryInv s) :
    BothAll EntryInv (OptAll EngRes.aligned) (s.elemPages e d l) := by
  induction l generalizing s with
  | nil =>
    rw [State.elemPages]
    exact ⟨h, OptAll.none⟩
  | cons y l ih =>
    rw [State.elemPages]
    split
    · rename_i a _ heq
      have ha : EntryInv a := of_eq (P := EngParts.aligned) h.engParts heq
      exact ih ha
    · rename_i a heq
      have ha : a.aligned := of_eq (P := EngParts.aligned) h.engParts heq
      exact ⟨h, OptAll.some ha⟩

theorem EntryInv.ctxRecords {s : State} {e : EngOf} {x : Sweep} {l : List CtxSeen} (h : EntryInv s) :
    EntryInv (s.ctxRecords e x l) := by
  unfold State.ctxRecords
  exact foldl_inv h (fun s2 _ hs2 => hs2.engRecord)

theorem EntryInv.chunkTry {s : State} {die n : Nat} {x : Sweep} {l : List CtxSeen} (h : EntryInv s) (hx : x.aligned) :
    FstAll EntryInv (s.chunkTry die n x l) := by
  unfold State.chunkTry
  extract_lets e turned stop ready
  have hstop : ∀ (y : EngRes), y.aligned → FstAll EntryInv (stop y) := by
    intro _ hy
    unfold stop
    extract_lets s1
    have hs1 : EntryInv s1 := hy.sweepFail
    exact ite_inv hs1 (hs1.nextChunk hx)
  split
  · rename_i fst r heq
    obtain ⟨-, hr⟩ : EntryInv fst ∧ OptAll EngRes.aligned (some r) := h.sweepEdits.of_eq heq
    exact hstop _ (hr _ rfl)
  · rename_i s3 heq
    obtain ⟨hs3, -⟩ : EntryInv s3 ∧ OptAll EngRes.aligned none := h.sweepEdits.of_eq heq
    split
    · rename_i s1 heq2
      have hr2 : FstAll EntryInv (s1, true) := by
        rw [← heq2]
        exact ite_inv hs3.setSkip hs3
      split
      · rename_i fst r heq3
        obtain ⟨-, hr3⟩ : EntryInv fst ∧ OptAll EngRes.aligned (some r) := hs3.elemPages.of_eq heq3
        clear_value ready
        split
        · exact hr2
        · exact hstop _ (hr3 _ rfl)
      · rename_i s32 heq3
        obtain ⟨hs32, hr3⟩ : EntryInv s32 ∧ OptAll EngRes.aligned none := hs3.elemPages.of_eq heq3
        clear_value ready
        split
        · exact hr2
        · extract_lets s4
          have hs4 : EntryInv s4 := hs32.keepSweep hx
          exact (hs4.askStep hx).askStep hx
    · rename_i s1 heq2
      have hr2 : FstAll EntryInv (s1, false) := by
        rw [← heq2]
        exact ite_inv hs3.setSkip hs3
      split
      · rename_i fst r heq3
        obtain ⟨-, hr3⟩ : EntryInv fst ∧ OptAll EngRes.aligned (some r) := hs3.elemPages.of_eq heq3
        clear_value ready
        split
        · exact EntryInv.nextChunk hr2 hx
        · exact hstop _ (hr3 _ rfl)
      · rename_i s32 heq3
        obtain ⟨hs32, -⟩ : EntryInv s32 ∧ OptAll EngRes.aligned none := hs3.elemPages.of_eq heq3
        clear_value ready
        split
        · exact EntryInv.nextChunk hr2 hx
        · extract_lets s4
          have hs4 : EntryInv s4 := hs32.keepSweep hx
          exact (hs4.askStep hx).askStep hx

theorem EntryInv.chunkSeen {s : State} {die n : Nat} {x : Sweep} {l : List CtxSeen} (h : EntryInv s) (hx : x.aligned) :
    EntryInv (s.chunkSeen die n x l) := by
  unfold State.chunkSeen
  split
  · rename_i s1 heq
    exact (h.chunkTry hx).of_eq heq
  · exact (h.ctxRecords.chunkTry hx).fst

theorem EntryInv.execSweepChunk {die engine : Nat} {s : State} (h : EntryInv s) :
    OutAll (execSweepChunk die engine s) := by
  unfold Machine.execSweepChunk
  split
  · exact h
  · rename_i y val heq
    have hval : val.aligned := (h.die.engines.find _) _ heq
    extract_lets e fail
    have hfail : ∀ (y : EngRes), y.aligned → OutAll (fail y) := by
      intro _ hy2
      unfold fail
      exact ite_inv hy2.sweepFail (hy2.sweepFail.nextChunk hval)
    split
    · exact h
    · split
      · exact h.sweepEnd hval
      · split
        · rename_i s2 _ heq4
          have hs2 : EntryInv s2 := of_eq (P := EngRes.aligned) h.sweepRead heq4
          split
          · exact hs2.nextChunk hval
          · split
            · rename_i s22 _ heq6
              have hs22 : EntryInv s22 := of_eq (P := SwRes.aligned) hs2.ctxScan heq6
              exact hs22.chunkSeen hval
            · rename_i r heq6
              have hr : r.aligned := of_eq (P := SwRes.aligned) hs2.ctxScan heq6
              exact hfail _ hr
        · exact hfail _ h.sweepRead

theorem EntryInv.applyWake {s : State} {e : EngOf} {x : Sweep} {k : Word} (h : EntryInv s) :
    FstAll EntryInv (s.applyWake e x k) := by
  rw [State.applyWake]
  have hfail : ∀ y : EngRes, y.aligned → FstAll EntryInv (sweepFail e y, y.again) := fun _ hy => hy.sweepFail
  obtain ⟨r, hr⟩ : ∃ r, s.sweepEdit e (swCtx x.desc k.toNat) wokenByte = r := ⟨_, rfl⟩
  rw [hr]
  refine EngRes.aligned.andThen (hr ▸ h.sweepEdit) (fun s1 _ hs1 => ?_) hfail
  obtain ⟨r1, hr1⟩ : ∃ r, s1.sweepEdit e (swSkip x.desc x.cursor) (fun b => b &&& ~~~(1#8 <<< (x.cursor % 8))) = r := ⟨_, rfl⟩
  rw [hr1]
  exact EngRes.aligned.andThen (hr1 ▸ hs1.sweepEdit) (fun _ _ hs2 => hs2) hfail

theorem EntryInv.applyWakes {s : State} {die n : Nat} {x : Sweep} {l : List Word} (h : EntryInv s) :
    FstAll EntryInv (s.applyWakes die n x l) := by
  induction l generalizing s with
  | nil =>
    rw [State.applyWakes]
    exact h
  | cons y l ih =>
    rw [State.applyWakes]
    split
    · exact h
    · split
      · rename_i s1 heq2
        exact h.applyWake.of_eq heq2
      · rename_i s1 heq2
        have hs1 : EntryInv s1 := h.applyWake.of_eq heq2
        exact ih hs1

theorem EntryInv.wakesThenNext {s : State} {die n : Nat} {x : Sweep} (h : EntryInv s) (hx : x.aligned) :
    EntryInv (s.wakesThenNext die n x) := by
  unfold State.wakesThenNext
  have hw : FstAll EntryInv (s.applyWakes die n x x.held) := h.applyWakes
  have hx1 : Sweep.aligned { x with cores := [] } := hx
  split
  · rename_i heq
    exact EntryInv.nextChunk (hw.of_eq heq) hx1
  · rename_i left _ heq
    have hx2 : Sweep.aligned { x with cores := [], noSkip := true, held := left } := hx
    exact EntryInv.keepSweep (hw.of_eq heq) hx2

theorem EntryInv.allQuiet {s : State} {e : EngOf} {x : Sweep} {l : List Nat} (h : EntryInv s) :
    (s.allQuiet e x l).aligned := by
  induction l generalizing s with
  | nil =>
    rw [State.allQuiet]
    exact h
  | cons n l ih =>
    rw [State.allQuiet]
    split
    · rename_i s2 _ heq
      have hs2 : EntryInv s2 := of_eq (P := EngRes.aligned) h.sweepRead heq
      extract_lets kind
      exact ite_inv (ih hs2) hs2
    · exact h.sweepRead

theorem EntryInv.execChunkStepComplete {die engine : Nat} {s : State} (h : EntryInv s) :
    OutAll (execChunkStepComplete die engine s) := by
  unfold Machine.execChunkStepComplete
  split
  · exact h
  · rename_i x heq
    have hx : x.aligned := (h.die.engines.find _) _ heq
    split
    · exact h
    · extract_lets e s1
      have hs1 : EntryInv s1 := foldl_inv h fun _ _ hs => hs.writeBackAll.writeBackSvc
      have hquiet : ∀ {c : Bool} {elems : List Nat}, SwRes.aligned (if c then .ok s1 false else s1.allQuiet e x elems) :=
        ite_inv (P := SwRes.aligned) hs1 hs1.allQuiet
      split
      · rename_i s2 quiet heq2
        have hs2 : EntryInv s2 := of_eq (P := SwRes.aligned) hquiet heq2
        have hskip : FstAll EntryInv (if quiet then s2.setSkip e x else (s2, false)) :=
          ite_inv (P := FstAll EntryInv) hs2.setSkip hs2
        split
        · rename_i heq3
          exact hskip.of_eq heq3
        · rename_i heq3
          exact EntryInv.wakesThenNext (hskip.of_eq heq3) hx
      · rename_i r heq2
        have hr : r.aligned := of_eq (P := SwRes.aligned) hquiet heq2
        exact ite_inv (P := OutAll) hr.sweepFail (EntryInv.wakesThenNext hr.sweepFail hx)

/-! ### Collectives -/

theorem EntryInv.collLane {s : State} {c : Ctx} {lane : Nat} {kind : CollKind} {red : CollRed} (h : EntryInv s)
    (hc : c.aligned) : (s.collLane c lane kind red).aligned := by
  unfold State.collLane
  simp only []
  obtain ⟨o, ho⟩ : ∃ o, misaligned (addrSum (c.a lane 2) 0 1 c.immX 64) 64 = o := ⟨_, rfl⟩
  obtain ⟨p, hp⟩ : ∃ p, misaligned (c.b lane 2) 8 = p := ⟨_, rfl⟩
  rw [ho, hp]
  refine unlessMisaligned_aligned (fun _ => h) (fun _ => h) ?_
  obtain ⟨r, hr⟩ : ∃ r, s.reach (c.x.agent c.w) .wr clsHome .tagged (c.b lane 2) 8 = r := ⟨_, rfl⟩
  rw [hr]
  refine Trans2.aligned.andThen (hr ▸ h.reach) fun s1 ps hs1 => ?_
  obtain ⟨r1, hr1⟩ : ∃ r, s1.readDesc c lane (addrSum (c.a lane 2) 0 1 c.immX 64) 64 = r := ⟨_, rfl⟩
  rw [hr1]
  refine DescRes.aligned.andThen (hr1 ▸ hs1.readDesc hc) fun s2 d _ hs2 => ?_
  have hgo : EntryInv ((collLinks d).foldl (fun s l => s.noteLink c.x.rgn (placeOf 2 l 0)) s2) :=
    foldl_inv hs2 fun _ _ hs3 => hs3.noteLink
  exact ite_inv hs2 (ite_inv hs2 (ite_inv hs2 hgo))

theorem EntryInv.execColl {f : Frame} {kind : CollKind} {red : CollRed} {s : State} (h : EntryInv s) :
    OutAll (execColl f kind red s) := by
  unfold Machine.execColl
  exact h.perLane (fun c s2 n hc hs2 => hs2.collLane hc)

theorem EntryInv.collEnd {s : State} {o : CollOp} (h : EntryInv s) :
    EntryInv (s.collEnd o) := by
  unfold State.collEnd
  exact EntryInv.raiseCtr h

theorem EntryInv.collFail {s : State} {o : CollOp} {f : Flt} (h : EntryInv s) :
    EntryInv (s.collFail o f) := by
  unfold State.collFail
  exact h.engRecord.collEnd

theorem EntryInv.collParts {s : State} {e : EngOf} {need : Need} {va n : Nat} (h : EntryInv s) :
    (s.collParts e need va n).aligned := by
  unfold State.collParts
  split
  · rename_i r heq
    exact of_eq (P := EngParts.aligned) h.engParts heq
  · rename_i s1 _ heq
    have hs1 : EntryInv s1 := of_eq (P := EngParts.aligned) h.engParts heq
    split
    · exact hs1
    · exact hs1

theorem EntryInv.collSpoil {s : State} {o : CollOp} {n : Nat} (h : EntryInv s) :
    EntryInv (s.collSpoil o n) := by
  unfold State.collSpoil
  extract_lets e
  refine foldl_inv h ?_
  intro _ _ hs2
  split
  · exact hs2
  · rename_i s1 _ heq
    have hs1 : EntryInv s1 := of_eq (P := EngParts.aligned) hs2.collParts heq
    split
    rename_i s12 heq2
    have hs12 : EntryInv s12 := hs1.fresh.of_eq heq2
    split
    · rename_i s22 _ heq3
      exact of_eq (P := EngRes.aligned) hs12.engStore heq3
    · exact hs12

theorem Machine.EngRes.aligned.collStop {o : CollOp} {n : Nat} {r : EngRes} (hr : r.aligned) :
    EntryInv (collStop o n r) := by
  unfold Machine.collStop
  extract_lets fail
  have hfail : ∀ (s : State) (y : BitVec 8) (n : Nat) (y2 : Bool), EntryInv s → EntryInv (fail s y n y2) := by
    intro _ _ _ _ hs
    unfold fail
    exact hs.collSpoil.collFail
  split
  · exact hr
  · exact hfail _ _ _ _ hr
  · exact EntryInv.dataError (hfail _ _ _ _ hr)
  · exact hfail _ _ _ _ hr
  · exact EntryInv.engQuota hr
  · exact hr

theorem EntryInv.collRun {s : State} {o : CollOp} {others : List (Nat × List Word)} (h : EntryInv s) :
    EntryInv (s.collRun o others) := by
  unfold State.collRun
  extract_lets ty w inLen e
  split
  · rename_i r heq
    have hr : r.aligned := of_eq (P := EngParts.aligned) h.collParts heq
    exact hr.collStop
  · rename_i s1 _ heq
    have hs1 : EntryInv s1 := of_eq (P := EngParts.aligned) h.collParts heq
    split
    · rename_i s2 _ heq2
      have hs2 : EntryInv s2 := of_eq (P := EngRes.aligned) hs1.engFetch heq2
      split
      · exact h
      · extract_lets out
        split
        · rename_i r heq4
          have hr : r.aligned := of_eq (P := EngParts.aligned) hs2.collParts heq4
          exact hr.collStop
        · rename_i s12 _ heq4
          have hs12 : EntryInv s12 := of_eq (P := EngParts.aligned) hs2.collParts heq4
          split
          · rename_i s22 _ heq5
            have hs22 : EntryInv s22 := of_eq (P := EngRes.aligned) hs12.engStore heq5
            exact hs22.collEnd
          · exact hs12.engStore.collStop
    · exact hs1.engFetch.collStop

theorem EntryInv.execCollExecute {op : Nat} {agree failed : Bool} {others : List (Nat × List Word)} {s : State}
    (h : EntryInv s) :
    OutAll (execCollExecute op agree failed others s) := by
  unfold Machine.execCollExecute
  split
  · exact h
  · exact ite_inv h (ite_inv h.collSpoil.collFail (ite_inv h.collFail (ite_inv h.collSpoil.collFail h.collRun)))

end Sys2Proof
end

section
/-! PROOFS. No step misaligns an address at which a thread goes on or is placed (O3):
regions, the fabric, the scheduler and facet sets. -/

namespace Sys2Proof

open Sys2Proof.Machine

/-! ### Regions -/

/-- What a region inherits is aligned where its own block has it aligned, or leaves it to the parent. -/
theorem Machine.Rcb.inherit_aligned {r p : Rcb} {ovr : Nat} (he : PcOk r.entry) (hc : PcOk r.centry)
    (ht : ovr.testBit 1 = true → PcOk r.trape) (hp : p.aligned) : (r.inherit p ovr).aligned := by
  unfold Rcb.inherit
  extract_lets r0 r1 r2 r3 r4 r5 r6
  have hr0 : PcOk r0.entry := ite_inv hp.entry he
  have hr1 : PcOk r1.entry ∧ PcOk r1.centry ∧ (ovr.testBit 1 = true → PcOk r1.trape) :=
    ite_inv (P := fun r : Rcb => PcOk r.entry ∧ PcOk r.centry ∧ (ovr.testBit 1 = true → PcOk r.trape))
      ⟨hr0, hc, ht⟩ ⟨hr0, hc, ht⟩
  obtain ⟨he1, hc1, ht1⟩ := hr1
  have hr2 : r2.aligned := by
    unfold r2
    split
    · rename_i hbit
      exact Rcb.aligned.intro he1 hc1 (ht1 hbit)
    · exact Rcb.aligned.intro he1 hc1 hp.trape
  have hr3 : r3.aligned := ite_inv hr2 hr2
  have hr4 : r4.aligned := ite_inv hr3 hr3
  have hr5 : r5.aligned := ite_inv hr4 hr4
  have hr6 : r6.aligned := ite_inv hr5 hr5
  exact ite_inv hr6 hr6

theorem EntryInv.regionNamed {s : State} {top va : Nat} (h : EntryInv s) :
    OptAll (SndAll Region.aligned) (s.regionNamed top va) := by
  unfold State.regionNamed
  exact h.regions.filter.getLast?

theorem EntryInv.parentFor {s : State} {by_ : Issuer} {troot : Bool} {va : Nat} (h : EntryInv s) :
    OkAll (OptAll (SndAll Region.aligned)) (s.parentFor by_ troot va) := by
  unfold State.parentFor
  split
  · split
    · rename_i y3 heq2
      have hy3 : y3.aligned := h.region? _ heq2
      exact ite_inv (ite_inv OptAll.none (OptAll.some hy3)) trivial
    · exact trivial
  · split
    · exact OptAll.none
    · split
      · rename_i y3 heq3
        have hy3 : y3.aligned := (OptAll.bindOf (fun n => h.regionNamed)) _ heq3
        exact ite_inv (ite_inv OptAll.none (OptAll.some hy3)) trivial
      · exact trivial

/-- A well-formed block names aligned entries, and an aligned trap handler unless it inherits it (R347, R349). -/
theorem Machine.Rcb.aligned_of_wellFormed {r : Rcb} {d : Nat → Nat} {ovr : Nat} (h : ¬ r.illFormed d ovr = true) :
    PcOk r.entry ∧ PcOk r.centry ∧ (ovr.testBit 1 = true → PcOk r.trape) := by
  rw [Bool.not_eq_true] at h
  unfold Rcb.illFormed at h
  simp only [Bool.or_eq_false_iff, Bool.and_eq_false_imp, bne_eq_false_iff_eq] at h
  unfold PcOk
  tauto

/-- Only a tenant's top region has no parent. -/
theorem Machine.State.parentFor_none {s : State} {by_ : Issuer} {troot : Bool} {va : Nat}
    (h : s.parentFor by_ troot va = .ok none) : troot = true := by
  unfold State.parentFor at h
  cases troot with
  | true => rfl
  | false =>
    split at h
    · split at h
      · split at h
        · cases h
        · cases h
      · cases h
    · split at h
      · rename_i hb
        cases hb
      · split at h
        · split at h
          · cases h
          · cases h
        · cases h

theorem EntryInv.readRegion {s : State} {by_ : Issuer} {va : Nat} (h : EntryInv s) :
    OkAll Region.aligned (s.readRegion by_ va) := by
  unfold State.readRegion
  split
  · exact trivial
  · split
    · exact trivial
    · extract_lets d own ovr facet
      split
      · exact trivial
      · rename_i hwell
        obtain ⟨he, hc, ht⟩ := Rcb.aligned_of_wellFormed hwell
        split
        · exact trivial
        · rename_i p hp
          have hpar : OptAll (SndAll Region.aligned) p := of_eq (P := OkAll (OptAll (SndAll Region.aligned))) h.parentFor hp
          extract_lets r sysUp depBad tooMuch
          have hr : r.aligned := by
            unfold r
            split
            · exact Rcb.inherit_aligned he hc ht (hpar _ rfl).rcb
            · have htop : ovr.testBit 1 = true := by
                unfold ovr
                rw [if_pos (State.parentFor_none hp)]
                rfl
              exact Rcb.aligned.intro he hc (ht htop)
          have hok : ∀ x : Region, x.rcb = r → x.aligned := by
            rintro x hx
            exact Region.aligned.intro (hx ▸ hr)
          exact ite_inv trivial (ite_inv trivial (ite_inv trivial (ite_inv trivial (ite_inv trivial (ite_inv trivial
            (hok _ rfl))))))

theorem EntryInv.linkRegion {s : State} {r : Nat} (h : EntryInv s) :
    EntryInv (s.linkRegion r) := by
  unfold State.linkRegion
  extract_lets y
  exact h.updRegion (fun y2 hy2 => hy2)

theorem EntryInv.becomeReady {s : State} {r : Nat} (h : EntryInv s) :
    EntryInv (s.becomeReady r) := by
  unfold State.becomeReady
  exact h.updRegion (fun y hy => hy)

theorem EntryInv.tryReady {s : State} {r : Nat} (h : EntryInv s) :
    EntryInv (s.tryReady r) := by
  unfold State.tryReady
  split
  · exact h
  · split
    · exact h
    · split
      · exact EntryInv.writeState (EntryInv.linkRegion (h.becomeReady.updRegion (fun y5 hy5 => hy5)))
      · exact h.becomeReady.updRegion (fun y5 hy5 => hy5)
      · exact h

theorem EntryInv.armDep {s : State} {r : Nat} {x : Region} {i : Nat} (h : EntryInv s) :
    EntryInv (s.armDep r x i) := by
  rw [State.armDep]
  split
  · exact h.postEng
  · extract_lets va
    split
    · split
      · extract_lets y_2
        exact h
      · exact h.postEng
    · exact h.postEng

theorem EntryInv.accept {s : State} {x : Region} (h : EntryInv s) (hx : x.aligned) :
    EntryInv (s.accept x) := by
  unfold State.accept
  extract_lets r y s1 s2
  have hy : y.aligned := hx
  have hs1 : EntryInv s1 := h.withRegions (h.regions.ins hy)
  have hs2 : EntryInv s2 := hs1.writeState.putNum.putNum
  exact foldl_inv hs2 (fun s3 a hs3 => hs3.armDep)

theorem EntryInv.launch {s : State} {by_ : Issuer} {va : Nat} (h : EntryInv s) :
    FstAll EntryInv (s.launch by_ va) := by
  unfold State.launch
  split
  · exact h
  · rename_i y2 heq
    have hy2 : y2.aligned := of_eq (P := OkAll Region.aligned) h.readRegion heq
    exact (h.accept hy2).tryReady

theorem EntryInv.execDependenceMet {rgn index : Nat} {s : State} (h : EntryInv s) :
    OutAll (execDependenceMet rgn index s) := by
  unfold Machine.execDependenceMet
  split
  · exact h
  · split
    · exact h
    · split
      · exact h
      · rename_i s4 heq3
        have hs4 : EntryInv s4 := h.force _ heq3
        extract_lets s1
        have hs1 : EntryInv s1 := hs4
        exact EntryInv.tryReady (hs1.updRegion (fun y4 hy4 => hy4))

theorem EntryInv.readAll {s : State} {by_ : Issuer} {l : List Nat} (h : EntryInv s) :
    OkAll (ListAll Region.aligned) (s.readAll by_ l) := by
  induction l with
  | nil =>
    rw [State.readAll]
    exact ListAll.nil
  | cons n l ih =>
    rw [State.readAll]
    split
    · exact trivial
    · rename_i y2 heq
      have hy2 : y2.aligned := of_eq (P := OkAll Region.aligned) h.readRegion heq
      split
      · exact trivial
      · rename_i l2 heq2
        have hl2 : ListAll Region.aligned l2 := of_eq (P := OkAll (ListAll Region.aligned)) ih heq2
        exact ListAll.cons hy2 hl2

theorem Machine.Region.aligned.withInput {x : Region} {inrec insz : Nat} (hx : x.aligned) :
    (x.withInput inrec insz).aligned := by
  unfold Region.withInput
  exact Region.aligned.intro (Rcb.aligned.intro hx.rcb.entry hx.rcb.centry hx.rcb.trape)

theorem EntryInv.launchPrism {s : State} {by_ : Issuer} {va : Nat} (h : EntryInv s) :
    FstAll EntryInv (s.launchPrism by_ va) := by
  unfold State.launchPrism
  split
  · exact h
  · split
    split
    · exact h
    · split
      · exact h
      · split
        · exact h
        · rename_i l heq5
          have hl : ListAll Region.aligned l := of_eq (P := OkAll (ListAll Region.aligned)) h.readAll heq5
          extract_lets asr wins frames own key taken facets all
          have hfacets : ListAll Region.aligned facets := hl.drop.zip.map (fun e2 he2 => he2.fst.withInput)
          have hall : ListAll Region.aligned all := hl.take.append hfacets
          split
          · exact h
          · split
            · exact h
            · split
              · exact h
              · split
                · exact h
                · split
                  rename_i s1 ids heq10
                  have hr : FstAll EntryInv (s1, ids) := by
                    rw [← heq10]
                    exact foldl_invMem hall h (fun s2 a hs2 ha => hs2.fst.accept ha)
                  extract_lets q
                  exact hr

theorem EntryInv.dropFrames {s : State} {frames : List Nat} (h : EntryInv s) :
    OptAll EntryInv (s.dropFrames frames) := by
  unfold State.dropFrames
  extract_lets keep mine served
  split
  · exact OptAll.none
  · refine OptAll.map (P := EntryInv) (foldl_inv (OptAll.some h) (fun s2 _ hs2 => hs2.bind
        (fun s1 hs1 => hs1.performUpTo))) ?_
    intro _ hs1
    extract_lets s2
    have hs2 : EntryInv s2 := by
      unfold s2
      refine EntryInv.withClusters hs1 ?_
      refine ListAll.map (P := SndAll Cluster.aligned) hs1.clusters ?_
      intro _ he
      refine SndAll.intro ?_
      extract_lets y
      exact he.snd
    exact foldl_inv hs2 (fun s3 _ hs3 => hs3.dropWhere)

theorem EntryInv.bindFacet {s : State} {r tag : Nat} (h : EntryInv s) :
    EntryInv (s.bindFacet r tag) := by
  unfold State.bindFacet
  exact EntryInv.writeState (h.updRegion (fun y hy => hy))

theorem EntryInv.execSetOpen {req set : Nat} {s : State} (h : EntryInv s) :
    OutAll (execSetOpen req set s) := by
  unfold Machine.execSetOpen
  split
  · extract_lets frames taken gen
    split
    · exact h
    · rename_i s4 heq3
      have hs4 : EntryInv s4 := (ite_inv OptAll.none h.dropFrames) _ heq3
      extract_lets gone y_2 s1 s2 s3
      have hs1 : EntryInv s1 := hs4
      have hs2 : EntryInv s2 := hs1.putNum
      have hs3 : EntryInv s3 := foldl_inv hs2.bindFacet (fun s5 a hs5 => hs5.bindFacet)
      exact hs3.tryReady.resolveNone
  · exact h

theorem EntryInv.execRegionEnd {rgn : Nat} {s : State} (h : EntryInv s) :
    OutAll (execRegionEnd rgn s) := by
  unfold Machine.execRegionEnd
  split
  · exact h
  · exact ite_inv (EntryInv.writeState (EntryInv.raiseDone (h.pushRegion.updRegion (fun y3 hy3 => hy3)))) h

theorem EntryInv.execPrefixEnd {set : Nat} {s : State} (h : EntryInv s) :
    OutAll (execPrefixEnd set s) := by
  unfold Machine.execPrefixEnd
  split
  · exact h
  · split
    · exact h
    · exact ite_inv (foldl_inv h.pushRegion.updSet (fun s2 a hs2 => hs2.tryReady)) h

theorem Machine.Wave.aligned.replayIf {x : Wave} {cond : Thread → Bool} (hx : x.aligned) :
    (x.replayIf cond).aligned := by
  unfold Wave.replayIf
  exact Wave.aligned.fixTurn (Wave.aligned.intro (hx.threads.map (fun t ht => ite_inv ht.replay ht)))

theorem Machine.Saved.aligned.mapWaves {y : Saved} {g : Wave → Wave} (hy : y.aligned) (hg : ∀ (x : Wave), x.aligned →
    (g x).aligned) :
    (y.mapWaves g).aligned := by
  unfold Saved.mapWaves
  exact Saved.aligned.intro (hy.waves.map (fun e he => hg _ he.snd)) (hy.caller.map (fun x hx => hg _ hx))

theorem EntryInv.replayAll {s : State} {mine : Nat → Bool} {cond : Thread → Bool} (h : EntryInv s) :
    EntryInv (s.replayAll mine cond) := by
  unfold State.replayAll
  extract_lets hit fix s1
  have hfix : ∀ (x : Wave), x.aligned → (fix x).aligned := by
    intro _ hx
    unfold fix
    exact ite_inv hx.replayIf hx
  have hs1 : EntryInv s1 := foldl_inv h (fun s2 a hs2 => hs2.wakeCore)
  exact EntryInv.intro (hs1.waves.map (fun e he => hfix _ he.snd)) (hs1.saved.map (fun e he => he.snd.mapWaves
      (fun x hx => hfix _ hx))) hs1.regions hs1.clusters hs1.dies hs1.deliveries

theorem EntryInv.resumeRegion {s : State} {r : Nat} (h : EntryInv s) :
    EntryInv (s.resumeRegion r) := by
  unfold State.resumeRegion
  extract_lets rs mine s1 go free s2
  have hs1 : EntryInv s1 := foldl_inv h (fun s3 a hs3 => EntryInv.tryReady (EntryInv.writeState (EntryInv.linkRegion
      (hs3.updRegion (fun y hy => hy)))))
  have hs2 : EntryInv s2 := hs1
  exact hs2.replayAll

theorem EntryInv.control {s : State} {r : Nat} {x : Region} {y : RegionOp} (h : EntryInv s) :
    FstAll EntryInv (s.control r x y) := by
  unfold State.control
  split
  · exact h.suspendRegion
  · extract_lets above
    exact ite_inv h h.resumeRegion
  · exact h.killRegion
  · extract_lets mine
    exact ite_inv h.replayAll h

theorem EntryInv.controlNamed {s : State} {top va : Nat} {op : RegionOp} (h : EntryInv s) :
    FstAll EntryInv (s.controlNamed top va op) := by
  unfold State.controlNamed
  split
  · exact h
  · split
    · exact h
    · exact h.control

theorem EntryInv.rlaunchLane {s : State} {c : Ctx} {lane : Nat} {aligned : Bool} {act : State → Nat → State × Nat}
    (h : EntryInv s) (hact : ∀ (s : State) (n : Nat), EntryInv s → FstAll EntryInv (act s n)) :
    (s.rlaunchLane c lane aligned act).aligned := by
  unfold State.rlaunchLane
  extract_lets va
  split
  · exact h
  · split
    · exact h
    · rename_i s4 heq2
      have hs4 : EntryInv s4 := h.releaseAt _ heq2
      split
      rename_i s1 _ heq3
      have hs1 : EntryInv s1 := (hact _ _ hs4).of_eq heq3
      split
      · exact hs1
      · exact hs1

theorem EntryInv.execRlaunch {f : Frame} {s : State} (h : EntryInv s) :
    OutAll (execRlaunch f s) := by
  unfold Machine.execRlaunch
  exact h.perLane (fun c s2 n _ hs2 => hs2.rlaunchLane (fun s3 _ hs3 => hs3.launch))

theorem EntryInv.execRlaunchPrism {f : Frame} {s : State} (h : EntryInv s) :
    OutAll (execRlaunchPrism f s) := by
  unfold Machine.execRlaunchPrism
  exact h.perLane (fun c s2 n _ hs2 => hs2.rlaunchLane (fun s3 _ hs3 => hs3.launchPrism))

theorem EntryInv.execRlaunchSusp {f : Frame} {s : State} (h : EntryInv s) :
    OutAll (execRlaunchSusp f s) := by
  unfold Machine.execRlaunchSusp
  exact h.perLane (fun c s2 n _ hs2 => hs2.rlaunchLane (fun s3 _ hs3 => hs3.controlNamed))

theorem EntryInv.execRlaunchRes {f : Frame} {s : State} (h : EntryInv s) :
    OutAll (execRlaunchRes f s) := by
  unfold Machine.execRlaunchRes
  exact h.perLane (fun c s2 n _ hs2 => hs2.rlaunchLane (fun s3 _ hs3 => hs3.controlNamed))

theorem EntryInv.execRlaunchKill {f : Frame} {s : State} (h : EntryInv s) :
    OutAll (execRlaunchKill f s) := by
  unfold Machine.execRlaunchKill
  exact h.perLane (fun c s2 n _ hs2 => hs2.rlaunchLane (fun s3 _ hs3 => hs3.controlNamed))

theorem EntryInv.execRlaunchRepl {f : Frame} {s : State} (h : EntryInv s) :
    OutAll (execRlaunchRepl f s) := by
  unfold Machine.execRlaunchRepl
  exact h.perLane (fun c s2 n _ hs2 => hs2.rlaunchLane (fun s3 _ hs3 => hs3.controlNamed))

theorem EntryInv.wdqLane {s : State} {c : Ctx} {lane : Nat} (h : EntryInv s) :
    (s.wdqLane c lane).aligned := by
  unfold State.wdqLane
  extract_lets ans b
  split
  · exact h
  · split
    · exact h
    · split
      · exact h
      · split
        · exact h
        · split
          · exact h
          · exact ite_inv h h.putOp

theorem EntryInv.execWdq {f : Frame} {s : State} (h : EntryInv s) :
    OutAll (execWdq f s) := by
  unfold Machine.execWdq
  exact h.slotted (fun _ s2 n _ hs2 => hs2.wdqLane)

theorem EntryInv.execWdqServe {op : Nat} {s : State} (h : EntryInv s) :
    OutAll (execWdqServe op s) := by
  unfold Machine.execWdqServe
  split
  · exact h
  · extract_lets earlier
    split
    · exact h.copyPut.setOp.land
    · exact h
    · split
      · exact h
      · extract_lets more s1
        have hs1 : EntryInv s1 := ite_inv (h.updRegion (fun y5 hy5 => hy5)) h
        exact hs1.setOp

/-! ### The fabric -/

theorem EntryInv.linkEvent {s : State} {link : Nat} {sub : BitVec 8} {roots : List Nat} (h : EntryInv s) :
    EntryInv (s.linkEvent link sub roots) := by
  unfold State.linkEvent
  extract_lets s1
  have hs1 : EntryInv s1 := by
    unfold s1
    refine foldl_inv h ?_
    intro _ _ hs2
    extract_lets s2_2
    have hs2_2 : EntryInv s2_2 := hs2.postEvent
    split
    · exact hs2_2.signal
    · exact hs2_2
  exact hs1.postFjoub

theorem EntryInv.execLinkRetrain {link : Nat} {s : State} (h : EntryInv s) :
    OutAll (execLinkRetrain link s) := by
  unfold Machine.execLinkRetrain
  exact ite_inv h.countLife.linkEvent h

theorem EntryInv.execLinkDown {link : Nat} {s : State} (h : EntryInv s) :
    OutAll (execLinkDown link s) := by
  unfold Machine.execLinkDown
  exact ite_inv (EntryInv.linkEvent h) h

theorem EntryInv.answer {s : State} {link fn : Nat} {abort : Bool} {data : List Byte} (h : EntryInv s) :
    EntryInv (s.answer link fn abort data) := by
  unfold State.answer
  extract_lets a
  exact h

theorem EntryInv.refuseWrite {s : State} {link fn : Nat} {x : FSet} (h : EntryInv s) :
    EntryInv (s.refuseWrite link fn x) := by
  unfold State.refuseWrite
  exact h.linkEvent.answer

theorem EntryInv.outsideError {s : State} {key : Nat} (h : EntryInv s) :
    EntryInv (s.outsideError key) := by
  unfold State.outsideError
  exact h.postFjoub

theorem EntryInv.execHostRequest {fn : Nat} {wr : Bool} {key : Nat} {data : List Byte} {size : Nat} {s : State}
    (h : EntryInv s) :
    OutAll (execHostRequest fn wr key data size s) := by
  unfold Machine.execHostRequest
  extract_lets n
  split
  · exact h
  · rename_i s4 heq
    have hs4 : EntryInv s4 := (ite_inv OptAll.none h.force) _ heq
    split
    · split
      · exact hs4.refuseWrite
      · exact hs4.baseWrite.answer
    · split
      · split
        rename_i s1 heq4
        have hs1 : EntryInv s1 := hs4.fresh.of_eq heq4
        exact hs1.outsideError.answer
      · extract_lets s1
        have hs1 : EntryInv s1 := hs4.atHome
        exact hs1.answer

theorem EntryInv.execPeerRequest {link : Nat} {op : PeerOp} {key : Nat} {data : List Byte} {size : Nat} {s : State}
    (h : EntryInv s) :
    OutAll (execPeerRequest link op key data size s) := by
  unfold Machine.execPeerRequest
  split
  split
  · exact h
  · rename_i s4 heq2
    have hs4 : EntryInv s4 := (ite_inv OptAll.none h.force) _ heq2
    split
    · exact hs4.refuseWrite
    · split
      · exact hs4.baseWrite.answer
      · split
        · exact hs4.outsideError.answer
        · extract_lets s1 old s2
          have hs1 : EntryInv s1 := hs4.atHome
          have hs2 : EntryInv s2 := ite_inv hs1 hs1.baseWrite
          exact hs2.answer

theorem EntryInv.execAtsTranslationResponse {va : HostAddr} {key size : Nat} {rd wr : Bool} {s : State} (h : EntryInv s) :
    OutAll (execAtsTranslationResponse va key size rd wr s) := by
  unfold Machine.execAtsTranslationResponse
  split
  · exact h
  · extract_lets l apart left
    exact ite_inv h h

theorem EntryInv.setPending {s : State} {l : List AtsInval} (h : EntryInv s) :
    EntryInv (s.setPending l) := by
  unfold State.setPending
  exact h

theorem EntryInv.invalidate {s : State} {r : AtsInval} (h : EntryInv s) :
    OptAll EntryInv (s.invalidate r) := by
  unfold State.invalidate
  extract_lets gone inFrame
  split
  · exact OptAll.none
  · refine OptAll.map (P := EntryInv) (foldl_inv (OptAll.some h) (fun s2 _ hs2 => hs2.bind
        (fun s1 hs1 => hs1.performUpTo))) ?_
    intro _ hs1
    extract_lets s2
    have hs2 : EntryInv s2 := EntryInv.setPending hs1
    exact (foldl_inv hs2 (fun s3 _ hs3 => hs3.dropWhere)).answer

theorem EntryInv.execAtsInvalidateRequest {va : HostAddr} {size : Nat} {s : State} (h : EntryInv s) :
    OutAll (execAtsInvalidateRequest va size s) := by
  unfold Machine.execAtsInvalidateRequest
  extract_lets r s1
  have hs1 : EntryInv s1 := ite_inv h h.setPending
  exact ite_inv h (hs1.invalidate.getD hs1)

/-! ### Placement, saving and restoration -/

theorem EntryInv.noteOffer {s : State} {die r : Nat} (h : EntryInv s) :
    EntryInv (s.noteOffer die r) := by
  unfold State.noteOffer
  extract_lets d pass more
  have hd : d.aligned := h.die
  exact h.setDie hd

theorem EntryInv.placeNew {s : State} {r : Nat} {x : Region} {n : Next} {ps : List (Nat × Nat × Nat × Plan)}
    (h : EntryInv s) (hx : x.aligned) :
    EntryInv (s.placeNew r x n ps) := by
  unfold State.placeNew
  extract_lets q k grouped first s1 s2 s3
  have hs1 : EntryInv s1 := ite_inv h h
  have hs2 : EntryInv s2 := foldl_inv hs1 (fun s4 a hs4 => hs4.seatWg hx)
  have hs3 : EntryInv s3 := hs2.updRegion (fun y hy => hy)
  exact ite_inv (hs3.seatCaller hx) hs3

theorem EntryInv.execWorkgroupPlace {rgn core : Nat} {s : State} (h : EntryInv s) :
    OutAll (execWorkgroupPlace rgn core s) := by
  unfold Machine.execWorkgroupPlace
  split
  · exact h
  · rename_i y2 heq
    have hy2 : y2.aligned := h.region? _ heq
    extract_lets die
    split
    · exact h
    · split
      · exact h
      · split
        · exact h
        · split
          · exact h
          · extract_lets s1
            have hs1 : EntryInv s1 := (h.placeNew hy2).placedFor.noteOffer
            show EntryInv _
            exact ite_inv (EntryInv.writeState (hs1.updRegion (fun y5 hy5 => hy5))) hs1

theorem EntryInv.execPlacementStarvationHold {die rgn : Nat} {s : State} (h : EntryInv s) :
    OutAll (execPlacementStarvationHold die rgn s) := by
  unfold Machine.execPlacementStarvationHold
  split
  · exact h
  · rename_i y _ _
    extract_lets earlier since y_2
    have hsince : ∀ (y : Option Nat), EntryInv (since y) := by
      intro _
      unfold since
      exact h.updRegion (fun y4 hy4 => hy4)
    have hy_2 : y_2.aligned := h.die
    split
    · exact hsince _
    · split
      · exact hsince _
      · exact ite_inv h (h.setDie hy_2)

theorem EntryInv.settleWave {s : State} {w : Nat} (h : EntryInv s) :
    OptAll EntryInv (s.settleWave w) := by
  unfold State.settleWave
  split
  · exact OptAll.some h
  · exact foldl_inv (OptAll.some h) (fun s2 _ hs2 => hs2.bind (fun s1 hs1 => hs1.returnAll))

theorem Machine.Wave.aligned.forSave {x : Wave} (hx : x.aligned) :
    x.forSave.aligned := by
  unfold Wave.forSave
  extract_lets undo
  have hundo : ∀ (t : Thread), t.aligned → (undo t).aligned := by
    intro _ ht
    unfold undo
    split
    · exact ite_inv (Thread.aligned.intro ht.pc ht.epc ht.accs trivial) ht
    · exact ht
  refine Wave.aligned.fixTurn ?_
  refine Wave.aligned.intro ?_
  refine ListAll.map (P := Thread.aligned) hx.threads ?_
  intro _ ht
  extract_lets y
  exact hundo _ ht

theorem EntryInv.writeRecord {s : State} {x : Region} {y : Wg} {image : Nat} (h : EntryInv s) :
    EntryInv (s.writeRecord x y image) := by
  unfold State.writeRecord
  exact foldl_inv h (fun s2 a hs2 => hs2.baseWrite)

theorem EntryInv.saveOne {s : State} {wid : Nat} {y : Wg} {caller : Option Wave} {engines : List (Nat × Engine)}
    {migrate : Bool} (h : EntryInv s) (hcaller : OptAll Wave.aligned caller) :
    EntryInv (s.saveOne wid y caller engines migrate) := by
  unfold State.saveOne
  extract_lets mine
  have hmine : ListAll (SndAll Wave.aligned) mine := h.waves.filter
  split
  rename_i s1 heq
  have hs1 : EntryInv s1 := (foldl_inv h.writeBackAll (fun s2 _ hs2 => hs2.owe)).fresh.of_eq heq
  extract_lets rec_ c entry s1_2 s2
  have hrec_ : rec_.aligned := Saved.aligned.intro (hmine.map (fun e2 he2 => he2.snd.forSave)) (hcaller.map
      (fun x hx => hx.forSave))
  have hs1_2 : EntryInv s1_2 := hs1.setCore
  have hs2 : EntryInv s2 := EntryInv.intro hs1_2.waves.filter (hs1_2.saved.ins hrec_)
      hs1_2.regions hs1_2.clusters hs1_2.dies hs1_2.deliveries
  split
  · exact hs2.writeRecord
  · exact hs2

theorem EntryInv.markSaving {s : State} {ws : List Nat} (h : EntryInv s) :
    EntryInv (s.markSaving ws) := by
  unfold State.markSaving
  extract_lets mark new s1
  have hs1 : EntryInv s1 := h
  exact foldl_inv hs1 (fun s2 a hs2 => hs2.wakeCore)

theorem EntryInv.saveGroup {s : State} {wid : Nat} {y : Wg} {migrate : Bool} (h : EntryInv s) :
    OptAll EntryInv (s.saveGroup wid y migrate) := by
  unfold State.saveGroup
  extract_lets ms mine full gr busy
  split
  · exact OptAll.none
  · refine OptAll.map (P := EntryInv) (foldl_inv (OptAll.some h) (fun s2 a hs2 => hs2.bind (fun s1 hs1 => hs1.settleWave))) ?_
    intro _ hs1
    extract_lets caller engines s2
    have hcaller : OptAll Wave.aligned caller := OptAll.bindOf (fun e => ite_inv (hs1.waves.find _) OptAll.none)
    have hs2 : EntryInv s2 := by
      unfold s2
      refine foldl_inv hs1 ?_
      intro _ _ hs3
      split
      · exact hs3.saveOne (ite_inv hcaller OptAll.none)
      · exact hs3
    clear_value gr
    split
    · exact hs2
    · extract_lets s3
      have hs3 : EntryInv s3 := ite_inv hs2.clearEngines hs2
      exact hs3.withWaves (ite_inv hs3.waves.del hs3.waves)

theorem EntryInv.execWorkgroupSave {wg : Nat} {migrate : Bool} {s : State} (h : EntryInv s) :
    OutAll (execWorkgroupSave wg migrate s) := by
  unfold Machine.execWorkgroupSave
  split
  · exact h
  · extract_lets npre ms s1
    have hs1 : EntryInv s1 := h.markSaving
    exact ite_inv h (hs1.saveGroup.getD hs1)

theorem Machine.Thread.aligned.recheck {s : State} {t : Thread} (ht : t.aligned) : (s.recheck t).aligned := by
  have hrun : Thread.aligned { t with st := .running } := Thread.aligned.intro ht.pc ht.epc ht.accs trivial
  unfold State.recheck
  generalize t.st = st
  cases st with
  | blocked y =>
    cases y with
    | commit i d npc => exact ite_inv ht hrun
    | queue _ | pixel _ _ | engines | decision | take => exact hrun
    | _ => exact ht
  | _ => exact ht

theorem EntryInv.reseat {s : State} {g old : Nat} {x : Wave} {p : Spot} (h : EntryInv s) (hx : x.aligned) :
    EntryInv (s.reseat g old x p) := by
  unfold State.reseat
  extract_lets w y s1
  have hy : y.aligned := Wave.aligned.fixTurn (Wave.aligned.intro (hx.threads.map (fun t ht => ht.recheck)))
  exact h.seat hy

theorem Machine.Thread.aligned.undef {t : Thread} {n v : Nat} (ht : t.aligned) : (t.undef n v).aligned := by
  unfold Thread.undef
  refine Thread.aligned.intro PcOk.clear PcOk.clear ht.accs ?_
  split
  · exact ht.st
  · exact trivial
  · exact trivial

theorem EntryInv.undefWave {s : State} {x : Wave} (h : EntryInv s) (hx : x.aligned) :
    BothAll EntryInv Wave.aligned (s.undefWave x) := by
  unfold State.undefWave
  split
  rename_i s1 heq
  have hs1 : EntryInv s1 := h.fresh.of_eq heq
  split
  rename_i s12 heq2
  have hs12 : EntryInv s12 := hs1.fresh.of_eq heq2
  extract_lets n mask some_
  exact ⟨hs12, Wave.aligned.intro (hx.threads.mapIdx (fun _ t ht => ht.undef))⟩

theorem EntryInv.undefWg {s : State} {wid : Nat} (h : EntryInv s) :
    EntryInv (s.undefWg wid) := by
  unfold State.undefWg
  split
  · exact h
  · split
    rename_i s1 heq2
    have hs1 : EntryInv s1 := h.fresh.of_eq heq2
    split
    rename_i s12 heq3
    have hs12 : EntryInv s12 := hs1.fresh.of_eq heq3
    extract_lets bytes tile
    exact hs12

theorem EntryInv.readRecord {s : State} {wid : Nat} {z : Saved} (h : EntryInv s) (hz : z.aligned) :
    BothAll EntryInv (ListAll (SndAll Wave.aligned)) (s.readRecord wid z) := by
  unfold State.readRecord
  split
  · refine foldl_invMem hz.waves ⟨h.undefWg, ListAll.nil⟩ ?_
    intro _ _ hs2 ha
    split
    rename_i s1 w heq2
    obtain ⟨hs1, hw⟩ : EntryInv s1 ∧ w.aligned := (hs2.fst.undefWave ha.snd).of_eq heq2
    exact ⟨hs1, hs2.snd.append (ListAll.cons hw ListAll.nil)⟩
  · exact ⟨h, hz.waves⟩

theorem EntryInv.restoreOne {s : State} {wid g : Nat} {p : Plan} (h : EntryInv s) :
    EntryInv (s.restoreOne wid g p) := by
  unfold State.restoreOne
  split
  · exact h
  · rename_i z heq
    have hz : z.aligned := (h.saved.find _) _ heq
    split
    rename_i sr l heq2
    obtain ⟨hsr, hl⟩ : EntryInv sr ∧ ListAll (SndAll Wave.aligned) l := (h.readRecord hz).of_eq heq2
    extract_lets s0 put tell s1
    have hs0 : EntryInv s0 := hsr.setRoles
    have hs1 : EntryInv s1 := hs0.withSaved hs0.saved.del
    exact foldl_invMem hl.zip hs1 (fun s2 a hs2 ha => hs2.reseat ha.fst.snd)

theorem EntryInv.undefGroup {s : State} {q : Nat} {z : Saved} (h : EntryInv s) (hz : z.aligned) :
    BothAll EntryInv Saved.aligned (s.undefGroup q z) := by
  unfold State.undefGroup
  split
  rename_i s1 heq
  have hs1 : EntryInv s1 := h.fresh.of_eq heq
  split
  rename_i s2 y heq2
  have hr : BothAll EntryInv (OptAll Wave.aligned) (s2, y) := by
    rw [← heq2]
    split
    · rename_i x heq3
      have hx : x.aligned := hz.caller _ heq3
      split
      rename_i s12 w heq4
      obtain ⟨hs12, hw⟩ : EntryInv s12 ∧ w.aligned := (hs1.undefWave hx).of_eq heq4
      exact ⟨hs12, OptAll.some hw⟩
    · exact ⟨hs1, OptAll.none⟩
  extract_lets handles
  exact ⟨hr.1, Saved.aligned.intro hz.waves hr.2⟩

theorem EntryInv.restoreCaller {s : State} {q k : Nat} {z : Option Saved} {bad : Bool} (h : EntryInv s)
    (hz : OptAll Saved.aligned z) :
    EntryInv (s.restoreCaller q k z bad) := by
  unfold State.restoreCaller
  extract_lets s0
  have hs0 : EntryInv s0 := h
  split
  · exact hs0
  · split
    rename_i s1 y2 heq
    obtain ⟨hs1, hy2⟩ : EntryInv s1 ∧ y2.aligned := of_eq (P := BothAll EntryInv Saved.aligned) (ite_inv
        (hs0.undefGroup (hz _ rfl)) ⟨hs0, (hz _ rfl)⟩) heq
    extract_lets s2
    have hs2 : EntryInv s2 := foldl_inv hs1 (fun s3 _ hs3 => hs3.setCore)
    split
    · rename_i x heq2
      have hx : x.aligned := hy2.caller _ heq2
      exact hs2.withWaves (hs2.waves.ins (Wave.aligned.intro (hx.threads.map (fun t ht => ht.recheck))))
    · exact hs2

theorem EntryInv.askHomes {s : State} {x : Region} {y : Wg} {g : Nat} (h : EntryInv s) :
    EntryInv (s.askHomes x y g) := by
  unfold State.askHomes
  refine foldl_inv h ?_
  intro _ _ hs2
  split
  · exact hs2
  · split
    · exact hs2.askHome
    · exact hs2

theorem EntryInv.execWorkgroupRestore {wg core : Nat} {s : State} (h : EntryInv s) :
    OutAll (execWorkgroupRestore wg core s) := by
  unfold Machine.execWorkgroupRestore
  split
  · exact h
  · split
    · exact h
    · extract_lets die
      split
      · exact h
      · split
        · exact h
        · split
          · exact h
          · extract_lets z bad s1 s2 moved s3
            have hz : OptAll Saved.aligned z := ListAll.findSomeOf (fun e => (h.saved.find _).bind
                (fun y7 hy7 => ite_inv OptAll.none (OptAll.some hy7)))
            have hs1 : EntryInv s1 := foldl_inv h (fun s4 _ hs4 => hs4.restoreOne)
            have hs2 : EntryInv s2 := by
              unfold s2
              split
              · exact hs1.restoreCaller hz
              · exact hs1
            have hs3 : EntryInv s3 := by
              unfold s3
              refine foldl_inv hs2 ?_
              intro _ _ hs4
              split
              · exact hs4.askHomes
              · exact hs4
            exact hs3.placedFor.noteOffer.linkRegion.countFwd

theorem EntryInv.execMigrationForward {wg : Nat} {s : State} (h : EntryInv s) :
    OutAll (execMigrationForward wg s) := by
  unfold Machine.execMigrationForward
  exact ite_inv h h.countFwd

theorem EntryInv.execPreemptDecision {rgn : Nat} {s : State} (h : EntryInv s) :
    OutAll (execPreemptDecision rgn s) := by
  unfold Machine.execPreemptDecision
  split
  · exact h
  · extract_lets after cores
    split
    · exact h
    · split
      · exact h
      · extract_lets best
        clear_value best
        split
        · exact h
        · exact EntryInv.markSaving (h.updRegion (fun y6 hy6 => hy6))

theorem EntryInv.addTime {s : State} {r n : Nat} (h : EntryInv s) :
    EntryInv (s.addTime r n) := by
  unfold State.addTime
  refine foldl_inv h ?_
  intro _ _ hs2
  extract_lets s1
  have hs1 : EntryInv s1 := hs2.updRegion (fun y hy => hy)
  split
  · exact hs1.putNum
  · exact hs1

theorem EntryInv.execTimeQuotaCharge {core : Nat} {s : State} (h : EntryInv s) :
    OutAll (execTimeQuotaCharge core s) := by
  unfold Machine.execTimeQuotaCharge
  extract_lets s1 c s2 due
  have hs1 : EntryInv s1 := foldl_inv h (fun s3 _ hs3 => hs3.owe)
  have hs2 : EntryInv s2 := foldl_inv hs1.setCore (fun s3 a hs3 => hs3.addTime)
  exact foldl_inv hs2 (fun s3 a hs3 => hs3.quotaEvent)

/-! ### Facet sets and the present unit -/

theorem EntryInv.beginCommit {s : State} {i w : Nat} {x : FSet} (h : EntryInv s) :
    EntryInv (s.beginCommit i w x) := by
  unfold State.beginCommit
  exact h.updSet.squashFacets

theorem EntryInv.commitLane {s : State} {c : Ctx} {lane : Nat} (h : EntryInv s) (hc : c.aligned) :
    (s.commitLane c lane).aligned := by
  unfold State.commitLane
  extract_lets w
  split
  · exact h
  · exact h
  · split
    · exact h
    · split
      · exact h
      · extract_lets s1
        have hs1 : EntryInv s1 := h.beginCommit
        split
        · exact ⟨hs1, hc.npc⟩
        · exact hs1

theorem EntryInv.execCommit {f : Frame} {s : State} (h : EntryInv s) :
    OutAll (execCommit f s) := by
  unfold Machine.execCommit
  exact h.perLane (fun c s2 n hc hs2 => hs2.commitLane hc)

theorem EntryInv.squashLane {s : State} {c : Ctx} {lane : Nat} (h : EntryInv s) :
    (s.squashLane c lane).aligned := by
  unfold State.squashLane
  extract_lets m
  split
  · exact h
  · exact h
  · split
    · exact h
    · extract_lets s1
      have hs1 : EntryInv s1 := h.squashFacets
      split
      · exact hs1
      · exact hs1

theorem EntryInv.execSquash {f : Frame} {s : State} (h : EntryInv s) :
    OutAll (execSquash f s) := by
  unfold Machine.execSquash
  exact h.perLane (fun _ s2 n _ hs2 => hs2.squashLane)

theorem EntryInv.drainWinner {s : State} {x : FSet} (h : EntryInv s) :
    OptAll EntryInv (s.drainWinner x) := by
  unfold State.drainWinner
  extract_lets rs todo
  exact foldl_inv (OptAll.some h) (fun s2 _ hs2 => hs2.bind (fun s1 hs1 => hs1.performUpTo))

theorem Machine.Thread.aligned.committed {i : Nat} {t : Thread} (ht : t.aligned) :
    OptAll (SndAll Thread.aligned) (Thread.committed i t) := by
  unfold Thread.committed
  split
  · rename_i npc heq
    have hnpc : PcOk npc := of_eq (P := TSt.aligned) ht.st heq
    split
    · refine OptAll.some ?_
      refine SndAll.intro ?_
      extract_lets y_2
      have hy_2 : y_2.aligned := ht.countWindow
      exact Thread.aligned.intro hnpc hy_2.epc hy_2.accs trivial
    · exact OptAll.none
  · exact OptAll.none

theorem Machine.Wave.aligned.committed {x : Wave} {i : Nat} (hx : x.aligned) :
    (x.committed i).aligned := by
  unfold Wave.committed
  extract_lets step
  have hstep : ∀ (x : Wave) (n : Nat), x.aligned → (step x n).aligned := by
    intro _ _ hx2
    unfold step
    split
    · rename_i t heq
      have ht : t.aligned := (hx2.threads.getElem?.bind (fun t2 ht2 => ht2.committed)) _ heq
      exact Wave.aligned.putDst (Wave.aligned.intro (hx2.threads.set ht))
    · exact hx2
  exact (foldl_inv hx (fun s _ hs => hstep _ _ hs)).fixTurn

theorem EntryInv.releasePresents {s : State} {rs : List Nat} (h : EntryInv s) :
    EntryInv (s.releasePresents rs) := by
  unfold State.releasePresents
  extract_lets go
  exact h

theorem EntryInv.execCommitPublish {set : Nat} {s : State} (h : EntryInv s) :
    OutAll (execCommitPublish set s) := by
  unfold Machine.execCommitPublish
  split
  · exact h
  · split
    · exact h
    · rename_i s4 heq2
      have hs4 : EntryInv s4 := h.drainWinner _ heq2
      split
      · exact hs4
      · extract_lets rs won old s1 s2 woken s3
        have hold : EntryInv old := foldl_inv (foldl_inv hs4 (fun s5 _ hs5 => hs5.pushRegion)) (fun s5 _ hs5 => hs5.noteConst)
        have hs1 : EntryInv s1 := hold.updSet.clearWindow
        have hs2 : EntryInv s2 := hs1.ctrFlush.releasePresents.raiseResc
        have hs3 : EntryInv s3 := EntryInv.intro (hs2.waves.map (fun e he => ite_inv he.snd.committed he.snd))
            (hs2.saved.map (fun e he => he.snd.mapWaves (fun x hx => ite_inv hx.committed hx)))
            hs2.regions hs2.clusters hs2.dies hs2.deliveries
        exact foldl_inv hs3 (fun s5 a hs5 => hs5.wakeCore)

theorem EntryInv.untag {s : State} {i : Nat} (h : EntryInv s) :
    EntryInv (s.untag i) := by
  unfold State.untag
  extract_lets thread sweep die queue cluster
  have hthread : ∀ (t : Thread), t.aligned → (thread t).aligned := by
    intro _ ht
    unfold thread
    exact Thread.aligned.intro ht.pc ht.epc (ht.accs.map (fun a ha => ha)) ht.st
  have hsweep : ∀ (y : Sweep), y.aligned → (sweep y).aligned := by
    intro _ hy
    unfold sweep
    exact hy
  have hdie : ∀ (y : Die), y.aligned → (die y).aligned := by
    intro _ hy
    unfold die
    exact Die.aligned.intro (hy.bins.map (fun y2 hy2 => hy2)) (hy.sweepQ.map (fun y2 hy2 => hsweep _ hy2))
        (hy.engines.map (fun e he => hsweep _ he.snd))
  have hqueue : ∀ (y : GQueue), y.aligned → (queue y).aligned := by
    intro _ hy
    unfold queue
    exact hy
  have hcluster : ∀ (y : Cluster), y.aligned → (cluster y).aligned := by
    intro _ hy
    unfold cluster
    exact Cluster.aligned.intro (hy.queues.map (fun e he => hqueue _ he.snd)) hy.bins
  refine EntryInv.intro ?_ h.saved h.regions (h.clusters.map (fun e he => hcluster _ he.snd)) (h.dies.map
      (fun y hy => hdie _ hy)) (h.deliveries.map (fun y hy => hy))
  refine ListAll.map (P := SndAll Wave.aligned) h.waves ?_
  intro _ he
  refine SndAll.intro ?_
  extract_lets y
  have hy : y.aligned := he.snd
  exact Wave.aligned.intro (hy.threads.map (fun t ht => hthread _ ht))

theorem EntryInv.execRetireWalk {set : Nat} {s : State} (h : EntryInv s) :
    OutAll (execRetireWalk set s) := by
  unfold Machine.execRetireWalk
  split
  · exact h
  · split
    · exact h
    · extract_lets mine s1 s2
      have hs1 : EntryInv s1 := foldl_inv h (fun s3 _ hs3 => EntryInv.touch (EntryInv.setPoison hs3))
      have hs2 : EntryInv s2 := hs1.updSet
      exact EntryInv.untag hs2

theorem EntryInv.doneCheck {s : State} {c : Ctx} {d : BitVec 512} (h : EntryInv s) :
    ExcAll Lane.aligned EntryInv (s.doneCheck c d) := by
  unfold State.doneCheck
  extract_lets va
  split
  · exact h
  · split
    · rename_i a _ heq2
      exact of_eq (P := TransRes.aligned) h.translate heq2
    · rename_i a _ heq2
      exact of_eq (P := TransRes.aligned) h.translate heq2
    · rename_i a _ heq2
      exact of_eq (P := TransRes.aligned) h.translate heq2
    · rename_i a heq2
      exact of_eq (P := TransRes.aligned) h.translate heq2

theorem EntryInv.presentLane {s : State} {c : Ctx} {lane : Nat} (h : EntryInv s) (hc : c.aligned) :
    (s.presentLane c lane).aligned := by
  unfold State.presentLane
  extract_lets q va
  split
  · exact h
  · split
    · rename_i r heq2
      exact of_eq (P := DescRes.aligned) (h.readDesc hc) heq2
    · rename_i s1 _ heq2
      have hs1 : EntryInv s1 := of_eq (P := DescRes.aligned) (h.readDesc hc) heq2
      split
      · exact hs1
      · split
        · rename_i r heq4
          exact of_eq (P := ExcAll Lane.aligned EntryInv) hs1.doneCheck heq4
        · rename_i s2 heq4
          have hs2 : EntryInv s2 := of_eq (P := ExcAll Lane.aligned EntryInv) hs1.doneCheck heq4
          split
          · exact hs2
          · split
            · exact h
            · rename_i s4 heq6
              have hs4 : EntryInv s4 := hs2.releaseAt _ heq6
              extract_lets e put
              exact hs4

theorem EntryInv.execPresent {f : Frame} {s : State} (h : EntryInv s) :
    OutAll (execPresent f s) := by
  unfold Machine.execPresent
  exact h.perLane (fun c s2 n hc hs2 => hs2.presentLane hc)

theorem EntryInv.presentPlace {s : State} {rgn va : Nat} (h : EntryInv s) :
    FstAll EntryInv (s.presentPlace rgn va) := by
  unfold State.presentPlace
  split
  · refine FstAll.intro ?_
    split
    · exact h.dataError
    · exact h
  · exact h

theorem EntryInv.surfacePieces {s : State} {rgn : Nat} {acc : List Byte} {l : List (Nat × Nat)} (h : EntryInv s) :
    (s.surfacePieces rgn acc l).aligned := by
  induction l generalizing s acc with
  | nil =>
    rw [State.surfacePieces]
    exact h
  | cons e l ih =>
    rw [State.surfacePieces]
    split
    · rename_i s2 heq
      exact h.presentPlace.of_eq heq
    · rename_i s2 _ _ heq
      have hs2 : EntryInv s2 := h.presentPlace.of_eq heq
      split
      · exact hs2
      · split
        · exact hs2.dataError
        · extract_lets s1
          have hs1 : EntryInv s1 := ite_inv hs2 hs2.atHome
          exact ih hs1

theorem EntryInv.surface {s : State} {rgn : Nat} {d : BitVec 512} (h : EntryInv s) :
    (s.surface rgn d).aligned := by
  unfold State.surface
  extract_lets n
  exact h.surfacePieces

theorem EntryInv.again {s : State} {q : Nat} (h : EntryInv s) :
    EntryInv (s.again q) := by
  unfold State.again
  extract_lets out
  have hout : ∀ (s : State) (y : OutFrame), EntryInv s → EntryInv (out s y) := by
    intro _ _ hs2
    unfold out
    exact hs2
  split
  · split
    · rename_i a _ heq2
      have ha : EntryInv a := of_eq (P := Surface.aligned) h.surface heq2
      exact hout _ _ ha
    · rename_i a _ _ heq2
      have ha : EntryInv a := of_eq (P := Surface.aligned) h.surface heq2
      exact hout _ _ ha
  · exact hout _ _ h

theorem EntryInv.flipHead {s : State} {q : Nat} {e : PEntry} (h : EntryInv s) :
    EntryInv (s.flipHead q e) := by
  unfold State.flipHead
  extract_lets drop keep
  split
  · rename_i s1 sub va heq
    have hr : (Surface.bad s1 sub va).aligned := by
      rw [← heq]
      exact EntryInv.surface h
    exact EntryInv.again (EntryInv.postEng hr)
  · rename_i s1 bs heq
    have hr : (Surface.ok s1 bs).aligned := by
      rw [← heq]
      exact EntryInv.surface h
    exact hr

theorem EntryInv.raiseFor {s : State} {q : Nat} {up : Bool} (h : EntryInv s) :
    EntryInv (s.raiseFor q up) := by
  unfold State.raiseFor
  extract_lets bit go
  have hgo : ∀ (y : Region), y.aligned → (go y).aligned := by
    intro _ hy
    unfold go
    exact ite_inv hy (ite_inv hy hy)
  exact h.withRegions (h.regions.map (fun e he => hgo _ he.snd))

theorem EntryInv.missedSlot {s : State} {q : Nat} (h : EntryInv s) :
    EntryInv (s.missedSlot q) := by
  unfold State.missedSlot
  refine EntryInv.again ?_
  split
  · exact h.postEvent
  · exact h.postFjoub

theorem EntryInv.execPresentFlip {queue : Nat} {s : State} (h : EntryInv s) :
    OutAll (execPresentFlip queue s) := by
  unfold Machine.execPresentFlip
  split
  · exact h
  · extract_lets head load s1
    have hs1 : EntryInv s1 := EntryInv.raiseFor h
    split
    · split
      · exact h
      · show EntryInv _
        clear_value head
        split
        · exact hs1.flipHead
        · exact hs1.missedSlot
    · clear_value head
      split
      · exact h.flipHead
      · exact h

theorem EntryInv.execPresentGuard {queue : Nat} {s : State} (h : EntryInv s) :
    OutAll (execPresentGuard queue s) := by
  unfold Machine.execPresentGuard
  split
  · exact h
  · extract_lets ready
    exact ite_inv h.raiseFor h

theorem EntryInv.execPresentReadoutDone {index : Nat} {s : State} (h : EntryInv s) :
    OutAll (execPresentReadoutDone index s) := by
  unfold Machine.execPresentReadoutDone
  split
  · exact h
  · extract_lets s1 va
    have hs1 : EntryInv s1 := h
    split
    · exact hs1
    · split
      · rename_i s2 heq3
        have hs2 : EntryInv s2 := hs1.presentPlace.of_eq heq3
        exact hs2.postEng
      · rename_i s2 _ _ heq3
        have hs2 : EntryInv s2 := hs1.presentPlace.of_eq heq3
        exact ite_inv hs2.raiseCtr hs2.postEng

end Sys2Proof
end

section
/-! PROOFS. No step misaligns an address at which a thread goes on or is placed (O3):
calculations, loads, stores, textures and their events. -/

namespace Sys2Proof

open Sys2Proof.Machine

/-! ### Floating point -/

theorem EntryInv.fpu {i : Instr} {s : State} {ty : FTy} {rnd : Rnd} {sat ftz : Bool} {e : Ctx → Nat → XR} (h : EntryInv s) :
    OutAll (fpu i s ty rnd sat ftz e) := by
  unfold Machine.fpu
  exact h.alu

theorem EntryInv.execFadd {f : Frame} {ty : FTy} {rnd : Rnd} {sat ftz : Bool} {s : State} (h : EntryInv s) :
    OutAll (execFadd f ty rnd sat ftz s) := by
  unfold Machine.execFadd
  exact h.fpu

theorem EntryInv.execFsub {f : Frame} {ty : FTy} {rnd : Rnd} {sat ftz : Bool} {s : State} (h : EntryInv s) :
    OutAll (execFsub f ty rnd sat ftz s) := by
  unfold Machine.execFsub
  exact h.fpu

theorem EntryInv.execFmul {f : Frame} {ty : FTy} {rnd : Rnd} {sat ftz : Bool} {s : State} (h : EntryInv s) :
    OutAll (execFmul f ty rnd sat ftz s) := by
  unfold Machine.execFmul
  exact h.fpu

theorem EntryInv.execFfma {f : Frame} {ty : FTy} {rnd : Rnd} {sat ftz : Bool} {s : State} (h : EntryInv s) :
    OutAll (execFfma f ty rnd sat ftz s) := by
  unfold Machine.execFfma
  exact h.fpu

theorem EntryInv.execFmin {f : Frame} {ty : FTy} {ftz : Bool} {s : State} (h : EntryInv s) :
    OutAll (execFmin f ty ftz s) := by
  unfold Machine.execFmin
  exact h.fpu

theorem EntryInv.execFmax {f : Frame} {ty : FTy} {ftz : Bool} {s : State} (h : EntryInv s) :
    OutAll (execFmax f ty ftz s) := by
  unfold Machine.execFmax
  exact h.fpu

theorem EntryInv.execFcmp {f : Frame} {ty : FTy} {cc : FCond} {ftz : Bool} {s : State} (h : EntryInv s) :
    OutAll (execFcmp f ty cc ftz s) := by
  unfold Machine.execFcmp
  exact h.alu

theorem EntryInv.execFclass {f : Frame} {ty : FTy} {ftz : Bool} {s : State} (h : EntryInv s) :
    OutAll (execFclass f ty ftz s) := by
  unfold Machine.execFclass
  exact h.alu

theorem EntryInv.execFrnd {f : Frame} {ty : FTy} {rnd : Rnd} {ftz : Bool} {s : State} (h : EntryInv s) :
    OutAll (execFrnd f ty rnd ftz s) := by
  unfold Machine.execFrnd
  exact h.fpu

theorem EntryInv.execFldexp {f : Frame} {ty : FTy} {rnd : Rnd} {sat ftz : Bool} {s : State} (h : EntryInv s) :
    OutAll (execFldexp f ty rnd sat ftz s) := by
  unfold Machine.execFldexp
  exact h.fpu

theorem EntryInv.execFrcp {f : Frame} {ty : FTy} {rnd : Rnd} {sat ftz : Bool} {s : State} (h : EntryInv s) :
    OutAll (execFrcp f ty rnd sat ftz s) := by
  unfold Machine.execFrcp
  exact h.fpu

theorem EntryInv.execFrsq {f : Frame} {ty : FTy} {rnd : Rnd} {sat ftz : Bool} {s : State} (h : EntryInv s) :
    OutAll (execFrsq f ty rnd sat ftz s) := by
  unfold Machine.execFrsq
  exact h.fpu

theorem EntryInv.execFsqrt {f : Frame} {ty : FTy} {rnd : Rnd} {sat ftz : Bool} {s : State} (h : EntryInv s) :
    OutAll (execFsqrt f ty rnd sat ftz s) := by
  unfold Machine.execFsqrt
  exact h.fpu

theorem EntryInv.execFdiv {f : Frame} {ty : FTy} {rnd : Rnd} {sat ftz : Bool} {s : State} (h : EntryInv s) :
    OutAll (execFdiv f ty rnd sat ftz s) := by
  unfold Machine.execFdiv
  exact h.fpu

theorem EntryInv.execFexp2 {f : Frame} {ty : FTy} {rnd : Rnd} {sat ftz : Bool} {s : State} (h : EntryInv s) :
    OutAll (execFexp2 f ty rnd sat ftz s) := by
  unfold Machine.execFexp2
  exact h.alu

theorem EntryInv.execFlog2 {f : Frame} {ty : FTy} {rnd : Rnd} {sat ftz : Bool} {s : State} (h : EntryInv s) :
    OutAll (execFlog2 f ty rnd sat ftz s) := by
  unfold Machine.execFlog2
  exact h.alu

theorem EntryInv.execFsin {f : Frame} {ty : FTy} {rnd : Rnd} {sat ftz : Bool} {s : State} (h : EntryInv s) :
    OutAll (execFsin f ty rnd sat ftz s) := by
  unfold Machine.execFsin
  exact h.alu

theorem EntryInv.execFcos {f : Frame} {ty : FTy} {rnd : Rnd} {sat ftz : Bool} {s : State} (h : EntryInv s) :
    OutAll (execFcos f ty rnd sat ftz s) := by
  unfold Machine.execFcos
  exact h.alu

theorem EntryInv.pairwise {i : Instr} {s : State} {ty : FTy} {rnd : Rnd} {sat ftz : Bool}
    {e : Ctx → XR → XR → XR → XR} (h : EntryInv s) :
    OutAll (pairwise i s ty rnd sat ftz e) := by
  unfold Machine.pairwise
  exact h.alu

theorem EntryInv.execHadd2 {f : Frame} {ty : FTy} {rnd : Rnd} {sat ftz : Bool} {s : State} (h : EntryInv s) :
    OutAll (execHadd2 f ty rnd sat ftz s) := by
  unfold Machine.execHadd2
  exact h.pairwise

theorem EntryInv.execHmul2 {f : Frame} {ty : FTy} {rnd : Rnd} {sat ftz : Bool} {s : State} (h : EntryInv s) :
    OutAll (execHmul2 f ty rnd sat ftz s) := by
  unfold Machine.execHmul2
  exact h.pairwise

theorem EntryInv.execHfma2 {f : Frame} {ty : FTy} {rnd : Rnd} {sat ftz : Bool} {s : State} (h : EntryInv s) :
    OutAll (execHfma2 f ty rnd sat ftz s) := by
  unfold Machine.execHfma2
  exact h.pairwise

theorem EntryInv.execHdot2 {f : Frame} {ty : FTy} {dt : Bool} {rnd : Rnd} {sat ftz : Bool} {s : State} (h : EntryInv s) :
    OutAll (execHdot2 f ty dt rnd sat ftz s) := by
  unfold Machine.execHdot2
  extract_lets df el
  exact h.alu

theorem EntryInv.execCvt {f : Frame} {dt st : CvtTy} {rnd : Rnd} {sat ftz : Bool} {sel : BitVec 2} {slot : BitVec 3}
    {s : State} (h : EntryInv s) :
    OutAll (execCvt f dt st rnd sat ftz sel slot s) := by
  unfold Machine.execCvt
  refine EntryInv.run h ?_
  intro _ _ hc hs2
  extract_lets r named d
  exact hs2.compute hc

theorem EntryInv.execQpack {f : Frame} {slot : BitVec 3} {s : State} (h : EntryInv s) :
    OutAll (execQpack f slot s) := by
  unfold Machine.execQpack
  refine EntryInv.run h ?_
  intro _ _ hc hs2
  extract_lets r ty e
  exact hs2.compute hc

theorem EntryInv.execQunpk {f : Frame} {slot : BitVec 3} {ty : FTy} {s : State} (h : EntryInv s) :
    OutAll (execQunpk f slot ty s) := by
  unfold Machine.execQunpk
  refine EntryInv.run h ?_
  intro _ _ hc hs2
  extract_lets r
  exact hs2.compute hc

/-! ### Integers, logic and addresses -/

theorem EntryInv.arith {i : Instr} {s : State} {ty : IntTy} {sat : Bool} {e : Ctx → Nat → ℤ} (h : EntryInv s) :
    OutAll (arith i s ty sat e) := by
  unfold Machine.arith
  exact h.alu

theorem EntryInv.execIadd {f : Frame} {ty : IntTy} {sat : Bool} {s : State} (h : EntryInv s) :
    OutAll (execIadd f ty sat s) := by
  unfold Machine.execIadd
  exact h.arith

theorem EntryInv.execIsub {f : Frame} {ty : IntTy} {sat : Bool} {s : State} (h : EntryInv s) :
    OutAll (execIsub f ty sat s) := by
  unfold Machine.execIsub
  exact h.arith

theorem EntryInv.execIaddc {f : Frame} {pd : BitVec 3} {s : State} (h : EntryInv s) :
    OutAll (execIaddc f pd s) := by
  unfold Machine.execIaddc
  exact h.run (fun c s2 hc hs2 => hs2.compute hc)

theorem EntryInv.execIsubb {f : Frame} {pd : BitVec 3} {s : State} (h : EntryInv s) :
    OutAll (execIsubb f pd s) := by
  unfold Machine.execIsubb
  exact h.run (fun c s2 hc hs2 => hs2.compute hc)

theorem EntryInv.execIadd64 {f : Frame} {ty : IntTy} {sat : Bool} {s : State} (h : EntryInv s) :
    OutAll (execIadd64 f ty sat s) := by
  unfold Machine.execIadd64
  exact h.arith

theorem EntryInv.execImul {f : Frame} {ty : IntTy} {sat : Bool} {s : State} (h : EntryInv s) :
    OutAll (execImul f ty sat s) := by
  unfold Machine.execImul
  exact h.arith

theorem EntryInv.execImulhi {f : Frame} {ty : IntTy} {s : State} (h : EntryInv s) :
    OutAll (execImulhi f ty s) := by
  unfold Machine.execImulhi
  exact h.arith

theorem EntryInv.execImad {f : Frame} {ty : IntTy} {sat : Bool} {s : State} (h : EntryInv s) :
    OutAll (execImad f ty sat s) := by
  unfold Machine.execImad
  exact h.arith

theorem EntryInv.execImadw {f : Frame} {ty : IntTy} {s : State} (h : EntryInv s) :
    OutAll (execImadw f ty s) := by
  unfold Machine.execImadw
  exact h.arith

theorem EntryInv.execIdiv {f : Frame} {ty : IntTy} {sat : Bool} {s : State} (h : EntryInv s) :
    OutAll (execIdiv f ty sat s) := by
  unfold Machine.execIdiv
  exact h.alu

theorem EntryInv.execIrem {f : Frame} {ty : IntTy} {s : State} (h : EntryInv s) :
    OutAll (execIrem f ty s) := by
  unfold Machine.execIrem
  exact h.alu

theorem EntryInv.execImin {f : Frame} {ty : IntTy} {s : State} (h : EntryInv s) :
    OutAll (execImin f ty s) := by
  unfold Machine.execImin
  exact h.arith

theorem EntryInv.execImax {f : Frame} {ty : IntTy} {s : State} (h : EntryInv s) :
    OutAll (execImax f ty s) := by
  unfold Machine.execImax
  exact h.arith

theorem EntryInv.execIabs {f : Frame} {sat : Bool} {s : State} (h : EntryInv s) :
    OutAll (execIabs f sat s) := by
  unfold Machine.execIabs
  exact h.arith

theorem EntryInv.execIneg {f : Frame} {sat : Bool} {s : State} (h : EntryInv s) :
    OutAll (execIneg f sat s) := by
  unfold Machine.execIneg
  exact h.arith

theorem EntryInv.execDp4 {f : Frame} {ty : IntTy} {sat sa sb : Bool} {s : State} (h : EntryInv s) :
    OutAll (execDp4 f ty sat sa sb s) := by
  unfold Machine.execDp4
  exact h.arith

theorem EntryInv.execAnd {f : Frame} {ty : IntTy} {s : State} (h : EntryInv s) :
    OutAll (execAnd f ty s) := by
  unfold Machine.execAnd
  exact h.alu

theorem EntryInv.execOr {f : Frame} {ty : IntTy} {s : State} (h : EntryInv s) :
    OutAll (execOr f ty s) := by
  unfold Machine.execOr
  exact h.alu

theorem EntryInv.execXor {f : Frame} {ty : IntTy} {s : State} (h : EntryInv s) :
    OutAll (execXor f ty s) := by
  unfold Machine.execXor
  exact h.alu

theorem EntryInv.execAndn {f : Frame} {ty : IntTy} {s : State} (h : EntryInv s) :
    OutAll (execAndn f ty s) := by
  unfold Machine.execAndn
  exact h.alu

theorem EntryInv.execNot {f : Frame} {ty : IntTy} {s : State} (h : EntryInv s) :
    OutAll (execNot f ty s) := by
  unfold Machine.execNot
  exact h.alu

theorem EntryInv.execShl {f : Frame} {s : State} (h : EntryInv s) :
    OutAll (execShl f s) := by
  unfold Machine.execShl
  exact h.alu

theorem EntryInv.execShr {f : Frame} {s : State} (h : EntryInv s) :
    OutAll (execShr f s) := by
  unfold Machine.execShr
  exact h.alu

theorem EntryInv.execSar {f : Frame} {s : State} (h : EntryInv s) :
    OutAll (execSar f s) := by
  unfold Machine.execSar
  exact h.alu

theorem EntryInv.execRol {f : Frame} {s : State} (h : EntryInv s) :
    OutAll (execRol f s) := by
  unfold Machine.execRol
  exact h.alu

theorem EntryInv.execShl64 {f : Frame} {s : State} (h : EntryInv s) :
    OutAll (execShl64 f s) := by
  unfold Machine.execShl64
  exact h.alu

theorem EntryInv.execShr64 {f : Frame} {ty : IntTy} {s : State} (h : EntryInv s) :
    OutAll (execShr64 f ty s) := by
  unfold Machine.execShr64
  exact h.alu

theorem EntryInv.execPopc {f : Frame} {ty : IntTy} {s : State} (h : EntryInv s) :
    OutAll (execPopc f ty s) := by
  unfold Machine.execPopc
  exact h.alu

theorem EntryInv.execClz {f : Frame} {ty : IntTy} {s : State} (h : EntryInv s) :
    OutAll (execClz f ty s) := by
  unfold Machine.execClz
  exact h.alu

theorem EntryInv.execCtz {f : Frame} {ty : IntTy} {s : State} (h : EntryInv s) :
    OutAll (execCtz f ty s) := by
  unfold Machine.execCtz
  exact h.alu

theorem EntryInv.execBrev {f : Frame} {ty : IntTy} {s : State} (h : EntryInv s) :
    OutAll (execBrev f ty s) := by
  unfold Machine.execBrev
  exact h.alu

theorem EntryInv.execBfe {f : Frame} {ty : IntTy} {imm : Bool} {s : State} (h : EntryInv s) :
    OutAll (execBfe f ty imm s) := by
  unfold Machine.execBfe
  exact h.alu

theorem EntryInv.execBfi {f : Frame} {imm : Bool} {s : State} (h : EntryInv s) :
    OutAll (execBfi f imm s) := by
  unfold Machine.execBfi
  exact h.alu

theorem EntryInv.execPerm {f : Frame} {imm : Bool} {s : State} (h : EntryInv s) :
    OutAll (execPerm f imm s) := by
  unfold Machine.execPerm
  exact h.alu

theorem EntryInv.execSel {f : Frame} {ty : IntTy} {neg : Bool} {ps : BitVec 3} {s : State} (h : EntryInv s) :
    OutAll (execSel f ty neg ps s) := by
  unfold Machine.execSel
  exact h.alu

theorem EntryInv.execIcmp {f : Frame} {ty : IntTy} {cc : ICond} {s : State} (h : EntryInv s) :
    OutAll (execIcmp f ty cc s) := by
  unfold Machine.execIcmp
  exact h.alu

theorem EntryInv.execMov {f : Frame} {ty : IntTy} {s : State} (h : EntryInv s) :
    OutAll (execMov f ty s) := by
  unfold Machine.execMov
  exact h.alu

theorem EntryInv.execMovi {f : Frame} {ty : IntTy} {s : State} (h : EntryInv s) :
    OutAll (execMovi f ty s) := by
  unfold Machine.execMovi
  exact h.alu

theorem EntryInv.execLea {f : Frame} {ty : IntTy} {sc : Scale} {s : State} (h : EntryInv s) :
    OutAll (execLea f ty sc s) := by
  unfold Machine.execLea
  exact h.alu

theorem EntryInv.execShfl {f : Frame} {ty : IntTy} {mode : ShflMode} {s : State} (h : EntryInv s) :
    OutAll (execShfl f ty mode s) := by
  unfold Machine.execShfl
  exact h.alu

theorem EntryInv.execVote {f : Frame} {mode : VoteMode} {s : State} (h : EntryInv s) :
    OutAll (execVote f mode s) := by
  unfold Machine.execVote
  exact h.alu

theorem EntryInv.execRedux {f : Frame} {ty : IntTy} {ftz : Bool} {op : ReduxOp} {rnd : Rnd} {s : State} (h : EntryInv s) :
    OutAll (execRedux f ty ftz op rnd s) := by
  unfold Machine.execRedux
  exact h.alu

/-! ### The Caller's instructions and the matrix engines -/

theorem EntryInv.setTile {s : State} {wg n : Nat} {t : Tile} (h : EntryInv s) :
    EntryInv (s.setTile wg n t) := by
  unfold State.setTile
  exact h

theorem EntryInv.spoil {s : State} {wg n : Nat} (h : EntryInv s) :
    EntryInv (s.spoil wg n) := by
  unfold State.spoil
  exact h

theorem EntryInv.putCmd {s : State} {c : Ctx} {eng : Nat} {cmd : ECmd} (h : EntryInv s) :
    EntryInv (s.putCmd c eng cmd) := by
  unfold State.putCmd
  extract_lets g k n y
  exact h.setCore

theorem EntryInv.engineCmd {i : Instr} {s : State} {g : Ctx → State → Nat → Lane} (h : EntryInv s) (hg : ∀ (c : Ctx)
    (s : State) (n : Nat), c.aligned → EntryInv s → (g c s n).aligned) :
    OutAll (engineCmd i s g) := by
  unfold Machine.engineCmd
  exact h.perLaneIf (fun c s2 _ hc hs2 => hg _ _ _ hc hs2)

theorem EntryInv.engineGo {s : State} {c : Ctx} {lane eng : Nat} {cmd : ECmd} (h : EntryInv s) :
    (s.engineGo c lane eng cmd).aligned := by
  unfold State.engineGo
  split
  · exact h
  · rename_i s4 heq
    have hs4 : EntryInv s4 := h.engineIssue _ heq
    exact hs4.putCmd

theorem EntryInv.mmaLane {s : State} {c : Ctx} {lane : Nat} {z : Bool} {sa sb : BitVec 3} {bh : Bool} (h : EntryInv s) :
    (s.mmaLane c lane z sa sb bh).aligned := by
  unfold State.mmaLane
  extract_lets m eng a b off
  split
  · exact h
  · exact h
  · split
    · exact h
    · split
      · exact h
      · split
        · exact h.engineGo
        · split
          · exact ite_inv h.engineGo h
          · exact h

theorem EntryInv.execMma {f : Frame} {sa sb : BitVec 3} {bh : Bool} {s : State} (h : EntryInv s) :
    OutAll (execMma f sa sb bh s) := by
  unfold Machine.execMma
  exact h.engineCmd (fun _ s2 n _ hs2 => hs2.mmaLane)

theorem EntryInv.execMmaZ {f : Frame} {sa sb : BitVec 3} {bh : Bool} {s : State} (h : EntryInv s) :
    OutAll (execMmaZ f sa sb bh s) := by
  unfold Machine.execMmaZ
  exact h.engineCmd (fun _ s2 n _ hs2 => hs2.mmaLane)

theorem EntryInv.azeroLane {s : State} {c : Ctx} {lane : Nat} (h : EntryInv s) :
    (s.azeroLane c lane).aligned := by
  unfold State.azeroLane
  extract_lets m
  split
  · exact h
  · exact h
  · exact ite_inv h h.engineGo

theorem EntryInv.execAzero {f : Frame} {s : State} (h : EntryInv s) :
    OutAll (execAzero f s) := by
  unfold Machine.execAzero
  exact h.engineCmd (fun _ s2 n _ hs2 => hs2.azeroLane)

theorem EntryInv.bindHandle {s : State} {c : Ctx} {lane n hnd base pitch : Nat} {slot : BitVec 3} {q : Bool}
    (h : EntryInv s) :
    (s.bindHandle c lane n hnd base pitch slot q).aligned := by
  unfold State.bindHandle
  split
  · exact h
  · split
    · exact h
    · rename_i s4 heq2
      have hs4 : EntryInv s4 := h.engineIssue _ heq2
      extract_lets h_2
      exact hs4

theorem EntryInv.tfetchLane {s : State} {c : Ctx} {lane : Nat} {fs : BitVec 3} {q : Bool} (h : EntryInv s) :
    (s.tfetchLane c lane fs q).aligned := by
  unfold State.tfetchLane
  extract_lets m base pitch hnd
  split
  · exact h
  · exact h
  · split
    · exact h
    · split
      · exact ite_inv h (ite_inv h h.bindHandle)
      · exact h.bindHandle

theorem EntryInv.execTfetch {f : Frame} {fs : BitVec 3} {q : Bool} {s : State} (h : EntryInv s) :
    OutAll (execTfetch f fs q s) := by
  unfold Machine.execTfetch
  exact h.perLane (fun c s2 n _ hs2 => hs2.tfetchLane)

theorem EntryInv.trelLane {s : State} {c : Ctx} {lane : Nat} (h : EntryInv s) :
    (s.trelLane c lane).aligned := by
  unfold State.trelLane
  extract_lets m free
  split
  · exact h
  · exact h
  · exact h

theorem EntryInv.execTrel {f : Frame} {s : State} (h : EntryInv s) :
    OutAll (execTrel f s) := by
  unfold Machine.execTrel
  exact h.perLane (fun _ s2 n _ hs2 => hs2.trelLane)

theorem EntryInv.fetchAt {s : State} {e : EngOf} {va n i : Nat} (h : EntryInv s) :
    (s.fetchAt e va n i).aligned := by
  unfold State.fetchAt
  split
  · rename_i s1 _ heq
    have hs1 : EntryInv s1 := of_eq (P := EngParts.aligned) h.engParts heq
    exact hs1.engRecord
  · rename_i s1 _ heq
    have hs1 : EntryInv s1 := of_eq (P := EngParts.aligned) h.engParts heq
    exact hs1.engQuota
  · rename_i s1 heq
    exact of_eq (P := EngParts.aligned) h.engParts heq
  · exact h
  · rename_i s1 _ heq
    have hs1 : EntryInv s1 := of_eq (P := EngParts.aligned) h.engParts heq
    split
    · rename_i s2 _ _ heq2
      have hs2 : EntryInv s2 := of_eq (P := EngRes.aligned) hs1.engFetch heq2
      exact hs2.engRecord.dataError
    · rename_i s2 _ heq2
      exact of_eq (P := EngRes.aligned) hs1.engFetch heq2
    · exact hs1

theorem EntryInv.fetchRow {s : State} {e : EngOf} {y : Handle} {row : Nat} (h : EntryInv s) :
    (s.fetchRow e y row).aligned := by
  rw [State.fetchRow]
  have hfetch : ∀ s1 va n skip, EntryInv s1 → (State.fetchAt s1 e va n skip).aligned := fun _ _ _ _ hs1 => hs1.fetchAt
  generalize State.fetchAt = fetch at hfetch ⊢
  split
  · rename_i s1 keys heq
    have hs1 : EntryInv s1 := of_eq (P := FetchRes.aligned) (hfetch _ _ _ _ h) heq
    refine ite_inv hs1 ?_
    extract_lets off va
    split
    · rename_i s2 ks heq2
      have hs2 : EntryInv s2 := of_eq (P := FetchRes.aligned) (hfetch _ _ _ _ hs1) heq2
      exact hs2
    · exact hfetch _ _ _ _ hs1
  · exact hfetch _ _ _ _ h

theorem EntryInv.execTfetchRowFetch {cluster handle row : Nat} {s : State} (h : EntryInv s) :
    OutAll (execTfetchRowFetch cluster handle row s) := by
  unfold Machine.execTfetchRowFetch
  split
  · exact h
  · split
    · exact h
    · rename_i y _ _
      split
      · exact h
      · extract_lets put
        have hput : ∀ (s : State) (y : Handle → Handle), EntryInv s → EntryInv (put s y) := by
          intro _ _ hs2
          unfold put
          exact hs2
        split
        · rename_i s1 heq4
          have hs1 : EntryInv s1 := of_eq (P := FetchRes.aligned) h.fetchRow heq4
          exact hput _ _ hs1
        · rename_i s1 heq4
          exact of_eq (P := FetchRes.aligned) h.fetchRow heq4
        · rename_i s1 _ heq4
          have hs1 : EntryInv s1 := of_eq (P := FetchRes.aligned) h.fetchRow heq4
          exact ite_inv h (hput _ _ hs1)

theorem EntryInv.absmaxBad {s : State} {c : Ctx} {va : Nat} (h : EntryInv s) :
    ExcAll Lane.aligned EntryInv (s.absmaxBad c va) := by
  unfold State.absmaxBad
  split
  · exact h
  · split
    · rename_i a _ heq2
      exact of_eq (P := TransRes.aligned) h.translate heq2
    · rename_i a _ heq2
      exact of_eq (P := TransRes.aligned) h.translate heq2
    · rename_i a _ heq2
      exact of_eq (P := TransRes.aligned) h.translate heq2
    · rename_i a heq2
      exact of_eq (P := TransRes.aligned) h.translate heq2

theorem EntryInv.drainLane {s : State} {c : Ctx} {lane : Nat} {fs : BitVec 3} (h : EntryInv s) :
    (s.drainLane c lane fs).aligned := by
  unfold State.drainLane
  extract_lets m opt dst str eng bar form bad clsBad merge a
  split
  · exact h
  · exact h
  · split
    · exact h
    · split
      · exact h
      · split
        · exact h
        · split
          · rename_i r heq6
            have hr : ExcAll Lane.aligned EntryInv (Except.error r) := by
              rw [← heq6]
              exact ite_inv h.absmaxBad h
            exact hr
          · rename_i s2 heq6
            have hr : ExcAll Lane.aligned EntryInv (Except.ok s2) := by
              rw [← heq6]
              exact ite_inv h.absmaxBad h
            exact EntryInv.engineGo hr

theorem EntryInv.execDrain {f : Frame} {fs : BitVec 3} {s : State} (h : EntryInv s) :
    OutAll (execDrain f fs s) := by
  unfold Machine.execDrain
  exact h.engineCmd (fun _ s2 n _ hs2 => hs2.drainLane)

theorem EntryInv.cmdDone {s : State} {x : AtWork} (h : EntryInv s) :
    EntryInv (s.cmdDone x) := by
  unfold State.cmdDone
  extract_lets c y e
  exact h.setCore.wakeWhere.groupEnd

theorem EntryInv.engineHalt {s : State} {x : AtWork} {tile cause : Nat} {sub : BitVec 8} {slot : Nat} (h : EntryInv s) :
    EntryInv (s.engineHalt x tile cause sub slot) := by
  unfold State.engineHalt
  extract_lets s1 c word y
  have hs1 : EntryInv s1 := h.spoil
  exact hs1.setCore.cmdDone

theorem EntryInv.handlePoison {s : State} {x : AtWork} {bh : Option (Nat × Nat)} {key : Nat} (h : EntryInv s) :
    EntryInv (s.handlePoison x bh key) := by
  unfold State.handlePoison
  extract_lets n s1
  have hs1 : EntryInv s1 := h
  exact hs1.engRecord.dataError

theorem EntryInv.mmaRead {s : State} {x : AtWork} {y : Wg} {ra rb : SlotRec} {sa sb : Source} (h : EntryInv s) :
    OptAll (FstAll EntryInv) (s.mmaRead x y ra rb sa sb) := by
  unfold State.mmaRead
  extract_lets tag todo at_
  split
  rename_i s1 heq
  have hs1 : EntryInv s1 := h.fresh.of_eq heq
  split
  rename_i s12 heq2
  have hs12 : EntryInv s12 := hs1.fresh.of_eq heq2
  extract_lets now keys s3
  have hs3 : EntryInv s3 := foldl_inv hs12 (fun s2 a hs2 => ite_inv hs2 hs2.atHome)
  exact ite_inv OptAll.none (OptAll.some hs3)

theorem EntryInv.mmaFinish {s : State} {x : AtWork} {y : Wg} {z : Bool} {ra rb : SlotRec} {sa nb tile : Nat}
    {rows : OperandRows} (h : EntryInv s) :
    EntryInv (s.mmaFinish x y z ra rb sa nb tile rows) := by
  unfold State.mmaFinish
  extract_lets rowsA rowsB vals
  exact ite_inv h.engineHalt (ite_inv h.engineHalt h.setTile.cmdDone)

theorem EntryInv.runMma {s : State} {x : AtWork} {y : Wg} {z : Bool} {sa sb : Nat} {bh : Option (Nat × Nat)}
    {tile a b : Nat} (h : EntryInv s) :
    EntryInv (s.runMma x y z sa sb bh tile a b) := by
  unfold State.runMma
  extract_lets nb ra rb
  split
  · exact h.engineHalt
  · exact h.engineHalt
  · split
    · exact h.engineHalt
    · split
      · exact h
      · exact h.engineHalt
      · exact h.engineHalt
      · exact h.engineHalt
      · split
        · exact h.cmdDone
        · split
          · exact h
          · rename_i s1 _ _ heq7
            have hs1 : EntryInv s1 := h.mmaRead _ heq7
            exact hs1.handlePoison.engineHalt
          · rename_i s1 _ heq7
            have hs1 : EntryInv s1 := h.mmaRead _ heq7
            extract_lets e read y_2
            exact ite_inv hs1.setCore hs1.mmaFinish

theorem EntryInv.execEngineMmaExecute {core : Nat} {s : State} (h : EntryInv s) :
    OutAll (execEngineMmaExecute core s) := by
  unfold Machine.execEngineMmaExecute
  split
  · exact h
  · split
    · exact h.runMma
    · exact h

theorem EntryInv.execEngineAzeroExecute {core : Nat} {s : State} (h : EntryInv s) :
    OutAll (execEngineAzeroExecute core s) := by
  unfold Machine.execEngineAzeroExecute
  split
  · exact h
  · split
    · exact h.setTile.cmdDone
    · exact h

theorem EntryInv.drainLand {s : State} {d : DrainOf} {n : Nat} {flt : Bool} (h : EntryInv s) :
    EntryInv (s.drainLand d n flt) := by
  unfold State.drainLand
  split
  · exact h.barLand
  · exact h

theorem EntryInv.drainPush {s : State} {g str : Nat} {ws : List Word} (h : EntryInv s) :
    EntryInv (s.drainPush g str ws) := by
  unfold State.drainPush
  extract_lets c e e1 s1
  have hs1 : EntryInv s1 := h.setCore
  exact foldl_inv hs1 (fun s2 a hs2 => hs2.wakeWhere)

theorem EntryInv.drainVoid {s : State} {x : AtWork} {d : DrainOf} (h : EntryInv s) :
    EntryInv (s.drainVoid x d) := by
  unfold State.drainVoid
  split
  exact ite_inv h.drainPush h.drainLand

theorem EntryInv.setRow {s : State} {g n : Nat} {piece : Nat} (h : EntryInv s) :
    EntryInv (s.setRow g n piece) := by
  unfold State.setRow
  extract_lets c y
  exact h.setCore

theorem EntryInv.mergeMax {s : State} {x : AtWork} {va m : Nat} (h : EntryInv s) :
    FstAll EntryInv (s.mergeMax x va m) := by
  unfold State.mergeMax
  split
  · exact h
  · split
    · rename_i s1 _ heq2
      have hs1 : EntryInv s1 := of_eq (P := EngParts.aligned) h.engParts heq2
      exact hs1.engRecord
    · rename_i s1 _ heq2
      have hs1 : EntryInv s1 := of_eq (P := EngParts.aligned) h.engParts heq2
      exact hs1.engQuota
    · rename_i s1 heq2
      exact of_eq (P := EngParts.aligned) h.engParts heq2
    · exact h
    · rename_i s1 l heq2
      have hs1 : EntryInv s1 := of_eq (P := EngParts.aligned) h.engParts heq2
      split
      · rename_i s2 _ heq3
        have hs2 : EntryInv s2 := of_eq (P := EngRes.aligned) hs1.engFetch heq3
        split
        · rename_i s3 _ heq4
          exact of_eq (P := EngRes.aligned) hs2.engStore heq4
        · rename_i s3 _ heq4
          have hs3 : EntryInv s3 := of_eq (P := EngRes.aligned) hs2.engStore heq4
          exact hs3.engFull
        · exact hs2
      · rename_i s2 _ _ heq3
        have hs2 : EntryInv s2 := of_eq (P := EngRes.aligned) hs1.engFetch heq3
        exact hs2.dataError
      · exact hs1

theorem EntryInv.drainMerge {s : State} {x : AtWork} {d : DrainOf} {t : Tile} (h : EntryInv s) :
    FstAll EntryInv (s.drainMerge x d t) := by
  unfold State.drainMerge
  split
  · exact h
  · exact h.mergeMax

theorem EntryInv.drainNext {s : State} {x : AtWork} {r piece left : Nat} (h : EntryInv s) :
    EntryInv (s.drainNext x r piece left) := by
  unfold State.drainNext
  exact ite_inv h.setRow (ite_inv h.cmdDone h.setRow)

theorem EntryInv.drainRow {s : State} {x : AtWork} {d : DrainOf} {y : Wg} {slot : SlotRec} {r piece : Nat} (h : EntryInv s) :
    EntryInv (s.drainRow x d y slot r piece) := by
  unfold State.drainRow
  extract_lets t
  split
  split
  · exact h.setRow.drainPush
  · split
    · exact h.drainNext
    · split
      · rename_i s2 heq4
        have hr : FstAll EntryInv (s2, false) := by
          rw [← heq4]
          exact ite_inv h.drainMerge h
        exact hr
      · rename_i s2 heq4
        have hr : FstAll EntryInv (s2, true) := by
          rw [← heq4]
          exact ite_inv h.drainMerge h
        exact ite_inv hr (EntryInv.drainNext (EntryInv.drainLand (EntryInv.copyPut hr)))

theorem EntryInv.drainStart {s : State} {x : AtWork} {d : DrainOf} {y : Wg} {slot : SlotRec} (h : EntryInv s) :
    EntryInv (s.drainStart x d y slot) := by
  unfold State.drainStart
  extract_lets ok sub void
  have hvoid : ∀ (y : Flt), EntryInv (void y) := by
    intro _
    unfold void
    extract_lets s1
    have hs1 : EntryInv s1 := h.engRecord.drainVoid
    exact ite_inv hs1.setRow hs1.cmdDone
  clear_value sub
  split
  · exact h.engineHalt
  · exact ite_inv (hvoid _) (ite_inv (hvoid _) h.drainRow)

theorem EntryInv.runDrain {s : State} {x : AtWork} {d : DrainOf} {y : Wg} (h : EntryInv s) :
    EntryInv (s.runDrain x d y) := by
  unfold State.runDrain
  extract_lets slot e pushed
  split
  · exact h.drainStart
  · split
    · exact h.drainRow
    · split
      · exact h
      · split
        · split
          · rename_i s1 heq5
            have hs1 : EntryInv s1 := h.drainMerge.of_eq heq5
            exact ite_inv hs1.cmdDone hs1
          · rename_i s1 heq5
            exact h.drainMerge.of_eq heq5
        · exact h.cmdDone

theorem EntryInv.execEngineDrainExecute {core : Nat} {s : State} (h : EntryInv s) :
    OutAll (execEngineDrainExecute core s) := by
  unfold Machine.execEngineDrainExecute
  split
  · exact h
  · split
    · exact h.runDrain
    · exact h

theorem EntryInv.mwaitLane {s : State} {c : Ctx} {lane : Nat} (h : EntryInv s) :
    (s.mwaitLane c lane).aligned := by
  unfold State.mwaitLane
  extract_lets mask engs e
  split
  · exact h
  · split
    · split
      · exact h
      · rename_i s4 heq3
        exact h.acquireAt _ heq3
    · exact ⟨h, trivial⟩

theorem EntryInv.execMwait {f : Frame} {s : State} (h : EntryInv s) :
    OutAll (execMwait f s) := by
  unfold Machine.execMwait
  exact h.perLane (fun _ s2 n _ hs2 => hs2.mwaitLane)

theorem EntryInv.putDecision {s : State} {wg : Nat} {v : Word} (h : EntryInv s) :
    EntryInv (s.putDecision wg v) := by
  unfold State.putDecision
  extract_lets s1
  have hs1 : EntryInv s1 := h
  exact foldl_inv hs1 (fun s2 a hs2 => hs2.wakeWhere)

theorem EntryInv.dqPutLane {s : State} {c : Ctx} {lane : Nat} {all : Bool} (h : EntryInv s) :
    (s.dqPutLane c lane all).aligned := by
  unfold State.dqPutLane
  extract_lets b targets
  split
  · exact h
  · split
    · exact ⟨h, trivial⟩
    · split
      · exact h
      · rename_i s4 heq3
        have hs4 : EntryInv s4 := h.releaseAt _ heq3
        exact foldl_inv hs4 (fun s2 _ hs2 => hs2.putDecision)

theorem EntryInv.execDqPut {f : Frame} {all : Bool} {s : State} (h : EntryInv s) :
    OutAll (execDqPut f all s) := by
  unfold Machine.execDqPut
  exact h.perLane (fun _ s2 n _ hs2 => hs2.dqPutLane)

theorem EntryInv.takeLane {s : State} {c : Ctx} {lane : Nat} {nb : Bool} (h : EntryInv s) (hc : c.aligned) :
    (s.takeLane c lane nb).aligned := by
  unfold State.takeLane
  extract_lets k y
  have hy : y.aligned := h.cluster
  split
  · split
    · exact h
    · rename_i s4 heq2
      have hr : OptAll EntryInv (some s4) := by
        rw [← heq2]
        exact EntryInv.acquireAt (h.setCluster hy)
      exact ⟨(hr _ rfl), hc.calc⟩
  · exact ite_inv ⟨h, hc.calc⟩ ⟨h, trivial⟩

theorem EntryInv.execGqTake {f : Frame} {nb : Bool} {s : State} (h : EntryInv s) :
    OutAll (execGqTake f nb s) := by
  unfold Machine.execGqTake
  exact h.perLane (fun c s2 n hc hs2 => hs2.takeLane hc)

theorem EntryInv.discardCmd {s : State} {x : AtWork} (h : EntryInv s) :
    EntryInv (s.discardCmd x) := by
  unfold State.discardCmd
  split
  · exact h.spoil
  · exact h.spoil
  · exact h.drainVoid

theorem EntryInv.discardAll {s : State} {g : Nat} (h : EntryInv s) :
    EntryInv (s.discardAll g) := by
  unfold State.discardAll
  extract_lets e s1 c y
  have hs1 : EntryInv s1 := by
    unfold s1
    split
    · split
      · exact foldl_inv h (fun s2 a hs2 => hs2.discardCmd)
      · exact h
    · exact h
  exact hs1.setCore

theorem EntryInv.writeMestat {s : State} {g v : Nat} (h : EntryInv s) :
    EntryInv (s.writeMestat g v) := by
  unfold State.writeMestat
  extract_lets halted s1 c y
  have hs1 : EntryInv s1 := ite_inv h.discardAll h
  exact ite_inv h (ite_inv hs1.setCore hs1)

/-! ### Loads and stores -/

theorem EntryInv.loadLane {s : State} {c : Ctx} {lane : Nat} {m : MemMod} {tagging : Tagging} (h : EntryInv s)
    (hc : c.aligned) :
    (s.loadLane c lane m tagging).aligned := by
  unfold State.loadLane
  extract_lets va
  split
  · exact h
  · exact h.issueGlob hc

theorem EntryInv.storeLane {s : State} {c : Ctx} {lane : Nat} {m : MemMod} {tagging : Tagging} (h : EntryInv s)
    (hc : c.aligned) :
    (s.storeLane c lane m tagging).aligned := by
  unfold State.storeLane
  extract_lets va
  split
  · exact h
  · exact h.issueGlob hc

theorem EntryInv.loadWinLane {s : State} {c : Ctx} {lane : Nat} {m : MemMod} {tob : Bool} (h : EntryInv s) (hc : c.aligned) :
    (s.loadWinLane c lane m tob).aligned := by
  unfold State.loadWinLane
  extract_lets va
  split
  · exact h
  · exact h.issueWin hc

theorem EntryInv.storeWinLane {s : State} {c : Ctx} {lane : Nat} {m : MemMod} {tob : Bool} (h : EntryInv s) (hc : c.aligned) :
    (s.storeWinLane c lane m tob).aligned := by
  unfold State.storeWinLane
  extract_lets va
  split
  · exact h
  · exact h.issueWin hc

theorem EntryInv.loadConstLane {s : State} {c : Ctx} {lane : Nat} {m : MemMod} (h : EntryInv s) (hc : c.aligned) :
    (s.loadConstLane c lane m).aligned := by
  unfold State.loadConstLane
  extract_lets va
  split
  · exact h
  · split
    exact ite_inv h (h.issueGlob hc)

theorem EntryInv.ldrLane {s : State} {c : Ctx} {lane : Nat} {m : MemMod} (h : EntryInv s) (hc : c.aligned) :
    (s.ldrLane c lane m).aligned := by
  unfold State.ldrLane
  extract_lets va
  split
  · exact h
  · exact h.issueGlob hc

theorem EntryInv.stcLane {s : State} {c : Ctx} {lane : Nat} {m : MemMod} (h : EntryInv s) (hc : c.aligned) :
    (s.stcLane c lane m).aligned := by
  unfold State.stcLane
  extract_lets va
  split
  · exact h
  · exact h.issueGlob hc

theorem EntryInv.askWalk {s : State} {rgn k va : Nat} (h : EntryInv s) :
    EntryInv (s.askWalk rgn k va) := by
  unfold State.askWalk
  extract_lets c here
  have hc : c.aligned := h.cluster
  exact ite_inv h (h.setCluster hc)

theorem EntryInv.pfLane {s : State} {c : Ctx} {lane : Nat} {m : MemMod} (h : EntryInv s) :
    EntryInv (s.pfLane c lane m) := by
  unfold State.pfLane
  extract_lets va asr k own
  split
  · exact h.askWalk
  · extract_lets key
    split
    · exact h
    · split
      · exact h.atHome
      · split
        · exact h
        · exact ite_inv (foldl_inv h (fun s2 _ hs2 => hs2.fill)) h

theorem EntryInv.execLd {f : Frame} {m : MemMod} {s : State} (h : EntryInv s) :
    OutAll (execLd f m s) := by
  unfold Machine.execLd
  exact h.perLane (fun c s2 n hc hs2 => hs2.loadLane hc)

theorem EntryInv.execLdS {f : Frame} {m : MemMod} {win : Bool} {s : State} (h : EntryInv s) :
    OutAll (execLdS f m win s) := by
  unfold Machine.execLdS
  exact h.perLane (fun c s2 n hc hs2 => hs2.loadWinLane hc)

theorem EntryInv.execLdC {f : Frame} {m : MemMod} {s : State} (h : EntryInv s) :
    OutAll (execLdC f m s) := by
  unfold Machine.execLdC
  exact h.perLane (fun c s2 n hc hs2 => hs2.loadConstLane hc)

theorem EntryInv.execLdr {f : Frame} {m : MemMod} {s : State} (h : EntryInv s) :
    OutAll (execLdr f m s) := by
  unfold Machine.execLdr
  exact h.perLane (fun c s2 n hc hs2 => hs2.ldrLane hc)

theorem EntryInv.execSt {f : Frame} {m : MemMod} {s : State} (h : EntryInv s) :
    OutAll (execSt f m s) := by
  unfold Machine.execSt
  exact h.perLane (fun c s2 n hc hs2 => hs2.storeLane hc)

theorem EntryInv.execStS {f : Frame} {m : MemMod} {win : Bool} {s : State} (h : EntryInv s) :
    OutAll (execStS f m win s) := by
  unfold Machine.execStS
  exact h.perLane (fun c s2 n hc hs2 => hs2.storeWinLane hc)

theorem EntryInv.execStc {f : Frame} {m : MemMod} {s : State} (h : EntryInv s) :
    OutAll (execStc f m s) := by
  unfold Machine.execStc
  exact h.perLane (fun c s2 n hc hs2 => hs2.stcLane hc)

theorem EntryInv.execPf {f : Frame} {m : MemMod} {s : State} (h : EntryInv s) :
    OutAll (execPf f m s) := by
  unfold Machine.execPf
  exact h.perLane (fun _ s2 n _ hs2 => hs2.pfLane)

theorem EntryInv.execLdBase {f : Frame} {m : MemMod} {s : State} (h : EntryInv s) :
    OutAll (execLdBase f m s) := by
  unfold Machine.execLdBase
  exact h.perLane (fun c s2 n hc hs2 => hs2.loadLane hc)

theorem EntryInv.execStBase {f : Frame} {m : MemMod} {s : State} (h : EntryInv s) :
    OutAll (execStBase f m s) := by
  unfold Machine.execStBase
  exact h.perLane (fun c s2 n hc hs2 => hs2.storeLane hc)

/-! ### Textures and rays -/

theorem EntryInv.unitRead {s : State} {q : Asked} {va n : Nat} (h : EntryInv s) :
    (s.unitRead q va n).aligned := by
  unfold State.unitRead
  split
  · rename_i s1 _ _ heq
    exact of_eq (P := Trans2.aligned) h.reach heq
  · rename_i s1 _ heq
    exact of_eq (P := Trans2.aligned) h.reach heq
  · rename_i s1 heq
    exact of_eq (P := Trans2.aligned) h.reach heq
  · rename_i s1 _ heq
    have hs1 : EntryInv s1 := of_eq (P := Trans2.aligned) h.reach heq
    extract_lets tag
    split
    · exact hs1
    · split
      · exact h
      · rename_i s4 heq3
        have hs4 : EntryInv s4 := (hs1.engineIssue.bind (fun s12 hs12 => hs12.settleFor)) _ heq3
        extract_lets s3 bad
        have hs3 : EntryInv s3 := foldl_inv hs4 (fun s2 a hs2 => ite_inv hs2 hs2.atHome)
        exact ite_inv hs3 (foldl_inv hs3 (fun s2 a hs2 => hs2.dataError))

theorem Machine.URes.aligned.go {r : URes} {k : State → List Byte → URun} (hr : r.aligned) (hk : ∀ (s : State)
    (y : List Byte), EntryInv s → (k s y).aligned) :
    (r.go k).aligned := by
  unfold URes.go
  split
  · exact hk _ _ hr
  · exact hr
  · exact hr

theorem EntryInv.sampleTaps {s : State} {q : Asked} {t : Tex} {l : List Tap} {y : Option (List XQ)} (h : EntryInv s) :
    (s.sampleTaps q t l y).aligned := by
  induction l generalizing s y with
  | nil =>
    unfold State.sampleTaps
    exact h
  | cons y2 l ih =>
    rw [State.sampleTaps]
    split
    split
    · rename_i a _ heq2
      have ha : EntryInv a := of_eq (P := URes.aligned) h.unitRead heq2
      exact ih ha
    · rename_i a heq2
      have ha : EntryInv a := of_eq (P := URes.aligned) h.unitRead heq2
      exact ih ha
    · rename_i a heq2
      exact of_eq (P := URes.aligned) h.unitRead heq2

theorem EntryInv.texDesc {s : State} {q : Asked} {k : State → Tex → URun} (h : EntryInv s) (hk : ∀ (s : State)
    (y : Tex), EntryInv s → (k s y).aligned) :
    (s.texDesc q k).aligned := by
  unfold State.texDesc
  extract_lets va
  split
  · exact h
  · refine URes.aligned.go h.unitRead ?_
    intro _ _ hs2
    extract_lets d
    exact ite_inv hs2 (hk _ _ hs2)

theorem EntryInv.sample {s : State} {q : Asked} {lod : Nat → Nat} (h : EntryInv s) :
    (s.sample q lod).aligned := by
  unfold State.sample
  refine EntryInv.texDesc h ?_
  intro _ _ hs2
  split
  · exact hs2.sampleTaps
  · exact hs2

theorem EntryInv.texFetch {s : State} {q : Asked} (h : EntryInv s) :
    (s.texFetch q).aligned := by
  unfold State.texFetch
  refine EntryInv.texDesc h ?_
  intro _ _ hs2
  extract_lets l x y_2
  split
  exact ite_inv hs2 (hs2.unitRead.go (fun s3 _ hs3 => hs3))

theorem EntryInv.texQuery {s : State} {q : Asked} (h : EntryInv s) :
    (s.texQuery q).aligned := by
  unfold State.texQuery
  refine EntryInv.texDesc h ?_
  intro _ _ hs2
  extract_lets l
  split
  exact hs2

theorem EntryInv.traverse {q : Asked} {r : Ray} {fuel : Nat} {l : List (Nat × Bool)} {best : Option Hit} {s : State}
    (h : EntryInv s) : (State.traverse q r fuel l best s).aligned := by
  induction fuel generalizing l best s with
  | zero =>
    cases l with
    | nil => exact h
    | cons e rest => exact h
  | succ n ih =>
    cases l with
    | nil => exact h
    | cons e rest =>
      obtain ⟨va, leaf⟩ := e
      rw [State.traverse]
      split
      · rename_i heq
        exact of_eq (P := URes.aligned) h.unitRead heq
      · rename_i heq
        exact of_eq (P := URes.aligned) h.unitRead heq
      · rename_i heq
        exact of_eq (P := URes.aligned) h.unitRead heq
      · rename_i s1 bs heq
        have hs1 : EntryInv s1 := of_eq (P := URes.aligned) h.unitRead heq
        extract_lets v
        exact ite_inv hs1 (ite_inv (ih hs1) (ih hs1))

theorem EntryInv.traceRay {s : State} {q : Asked} (h : EntryInv s) :
    (s.traceRay q).aligned := by
  unfold State.traceRay
  split
  · exact h
  · extract_lets v miss
    split
    · exact h
    · split
      · exact h
      · split
        · exact h.traverse
        · split
          rename_i s1 heq5
          exact h.fresh.of_eq heq5

theorem EntryInv.unitRun {s : State} {q : Asked} (h : EntryInv s) :
    (s.unitRun q).aligned := by
  unfold State.unitRun
  split
  · exact h.sample
  · exact h.sample
  · exact h.texFetch
  · exact h.texQuery
  · exact h.traceRay

theorem EntryInv.unitLane {s : State} {c : Ctx} {lane : Nat} {op : UnitOp} (h : EntryInv s) (hc : c.aligned) :
    (s.unitLane c lane op).aligned := by
  unfold State.unitLane
  split
  · rename_i a _ heq
    have ha : EntryInv a := of_eq (P := URun.aligned) h.unitRun heq
    constructor
    · exact ha
    · extract_lets y_2
      have hy_2 : y_2.aligned := hc.calc
      exact hy_2
  · rename_i a heq
    have ha : a.aligned := of_eq (P := URun.aligned) h.unitRun heq
    exact ha

theorem EntryInv.unitAgain {s : State} {w lane : Nat} {a : Machine.Acc} (h : EntryInv s) :
    EntryInv (s.unitAgain w lane a) := by
  unfold State.unitAgain
  split
  · split
    rename_i s1 heq3
    have hs1 : EntryInv s1 := h.fresh.of_eq heq3
    split
    · exact hs1
    · split
      · rename_i a2 _ heq5
        have ha2 : EntryInv a2 := of_eq (P := URun.aligned) hs1.unitRun heq5
        exact ha2.updThread (fun t ht => ht.setAcc (fun a4 ha4 => OptAll.some ha4))
      · exact hs1
  · exact h

theorem EntryInv.execTex {f : Frame} {s : State} (h : EntryInv s) :
    OutAll (execTex f s) := by
  unfold Machine.execTex
  exact h.perLane (fun c s2 n hc hs2 => hs2.unitLane hc)

theorem EntryInv.execTexG {f : Frame} {s : State} (h : EntryInv s) :
    OutAll (execTexG f s) := by
  unfold Machine.execTexG
  exact h.perLane (fun c s2 n hc hs2 => hs2.unitLane hc)

theorem EntryInv.execTexF {f : Frame} {s : State} (h : EntryInv s) :
    OutAll (execTexF f s) := by
  unfold Machine.execTexF
  exact h.perLane (fun c s2 n hc hs2 => hs2.unitLane hc)

theorem EntryInv.execTexQ {f : Frame} {s : State} (h : EntryInv s) :
    OutAll (execTexQ f s) := by
  unfold Machine.execTexQ
  exact h.perLane (fun c s2 n hc hs2 => hs2.unitLane hc)

theorem EntryInv.execTrace {f : Frame} {s : State} (h : EntryInv s) :
    OutAll (execTrace f s) := by
  unfold Machine.execTrace
  exact h.perLane (fun c s2 n hc hs2 => hs2.unitLane hc)

/-! ### Events of waves, memory and homes -/

theorem EntryInv.execFairnessExpiry {w : Nat} {s : State} (h : EntryInv s) :
    OutAll (execFairnessExpiry w s) := by
  unfold Machine.execFairnessExpiry
  exact h.withWaves (h.waves.upd (fun x hx => hx.expire))

theorem EntryInv.execReservedOpcode {sub : BitVec 8} {s : State} (h : EntryInv s) :
    OutAll (execReservedOpcode sub s) := by
  unfold Machine.execReservedOpcode
  exact h.faultPath

theorem EntryInv.strike {s : State} {w : Nat} {a : Machine.Acc} {err : Bool} (h : EntryInv s) :
    EntryInv (s.strike w a err) := by
  unfold State.strike
  split
  · exact h.strikeGrain
  · exact h

theorem EntryInv.execLlResultReturn {w lane acc : Nat} {err : Bool} {s : State} (h : EntryInv s) :
    OutAll (execLlResultReturn w lane acc err s) := by
  unfold Machine.execLlResultReturn
  split
  · exact h
  · split
    · exact h
    · split
      · rename_i s1 heq3
        exact h.strike.unitAgain.returnAcc _ heq3
      · exact h

theorem Machine.Acc.aligned.splitGrain {a : Machine.Acc} {bs : List Byte} (ha : a.aligned) :
    BothAll Acc.aligned (OptAll Acc.aligned) (a.splitGrain bs) := by
  unfold Acc.splitGrain
  split
  · exact ⟨ha, OptAll.none⟩
  · extract_lets n rest
    exact ite_inv ⟨ha, OptAll.none⟩ ⟨ha, OptAll.some ha⟩

theorem Machine.Acc.aligned.loadGrain {a : Machine.Acc} (ha : a.aligned) :
    OptAll (BothAll Acc.aligned Acc.aligned) a.loadGrain := by
  unfold Acc.loadGrain
  split
  · exact OptAll.none
  · extract_lets n rest
    exact ite_inv OptAll.none (OptAll.some ⟨ha, ha⟩)

theorem EntryInv.clearFor {s : State} {w lane : Nat} {a : Machine.Acc} (h : EntryInv s) :
    OptAll EntryInv (s.clearFor w lane a) := by
  unfold State.clearFor
  exact (foldl_inv (OptAll.some h) (fun s2 _ hs2 => hs2.bind (fun s1 hs1 => hs1.performElem))).bind
      (fun s1 hs1 => ite_inv (OptAll.some hs1) hs1.force)

theorem EntryInv.storeGrain {s : State} {w lane : Nat} {a b rest : Machine.Acc} (h : EntryInv s) (ha : a.aligned)
    (hrest : rest.aligned) :
    OptAll EntryInv (s.storeGrain w lane a b rest) := by
  unfold State.storeGrain
  refine OptAll.map (P := Perf.aligned) h.perform ?_
  intro _ hy
  split
  · exact (hy.s.updThread (fun t ht => ht.setAcc (fun _ _ => OptAll.none))).releaseLast.takeFault ha.pc
  · exact (hy.s.updThread (fun t ht => (ht.setAcc (fun _ _ => OptAll.some hrest)).markDue)).passOver

theorem EntryInv.peek {s : State} {w : Nat} {a : Machine.Acc} (h : EntryInv s) :
    OptAll (FstAll EntryInv) (s.peek w a) := by
  unfold State.peek
  split
  rename_i s2 l _ heq
  have hs2 : EntryInv s2 := h.readParts.of_eq heq
  exact ite_inv OptAll.none (OptAll.some hs2)

theorem EntryInv.loadEarly {s : State} {w lane : Nat} {a acq : Machine.Acc} {wid : Wid} (h : EntryInv s) :
    OptAll EntryInv (s.loadEarly w lane a acq wid) := by
  unfold State.loadEarly
  refine OptAll.bind (P := EntryInv) h.force ?_
  intro _ hs1
  refine OptAll.map (P := FstAll EntryInv) hs1.peek ?_
  intro _ he
  extract_lets e_2
  exact he.fst.updThread (fun t ht => ht.setAcc (fun a2 ha2 => OptAll.some ha2))

theorem EntryInv.storePart {s : State} {w lane : Nat} {a : Machine.Acc} (h : EntryInv s) (ha : a.aligned) :
    OptAll EntryInv (s.storePart w lane a) := by
  unfold State.storePart
  split
  · split
    · rename_i fst heq2
      obtain ⟨-, hr⟩ : fst.aligned ∧ OptAll Acc.aligned none := ha.splitGrain.of_eq heq2
      exact h.performUpTo
    · rename_i b a2 heq2
      obtain ⟨-, hr⟩ : b.aligned ∧ OptAll Acc.aligned (some a2) := ha.splitGrain.of_eq heq2
      exact h.clearFor.bind (fun s1 hs1 => ite_inv (OptAll.some hs1) (hs1.storeGrain ha (hr _ rfl)))
  · extract_lets ahead
    split
    · exact h.loadEarly
    · exact h.performUpTo
    · rename_i b a2 _ heq3
      obtain ⟨-, ha2⟩ : b.aligned ∧ a2.aligned := ha.loadGrain _ heq3
      split
      · exact h.performUpTo
      · refine OptAll.bind (P := EntryInv) h.clearFor ?_
        intro _ hs1
        split
        · exact OptAll.some hs1
        · split
          · exact hs1.performUpTo
          · rename_i s2 _ heq6
            have hs2 : EntryInv s2 := hs1.peek _ heq6
            exact OptAll.some (hs2.updThread (fun t ht => ht.setAcc (fun _ _ => OptAll.some ha2)))
  · exact h.performUpTo

theorem EntryInv.execStorePerform {w lane acc : Nat} {err : Bool} {s : State} (h : EntryInv s) :
    OutAll (execStorePerform w lane acc err s) := by
  unfold Machine.execStorePerform
  split
  · exact h
  · rename_i a heq
    have ha : a.aligned := h.accOf _ heq
    split
    · split
      · rename_i s1 heq3
        exact (h.storePart ha) _ heq3
      · exact h
    · extract_lets s1
      have hs1 : EntryInv s1 := by
        unfold s1
        split
        · exact h.strikeGrain.dataError
        · exact h
      split
      · exact hs1
      · split
        · rename_i s12 heq4
          exact (hs1.storePart ha) _ heq4
        · exact h
    · extract_lets s1
      have hs1 : EntryInv s1 := by
        unfold s1
        split
        · exact h.strikeGrain.dataError
        · exact h
      split
      · exact hs1
      · split
        · rename_i s12 heq4
          exact (hs1.storePart ha) _ heq4
        · exact h
    · exact h

theorem EntryInv.execHomeAtomicPerform {w lane acc : Nat} {err : Bool} {s : State} (h : EntryInv s) :
    OutAll (execHomeAtomicPerform w lane acc err s) := by
  unfold Machine.execHomeAtomicPerform
  split
  · exact h
  · split
    · exact h
    · split
      · rename_i s1 heq3
        exact h.strike.performUpTo _ heq3
      · exact h

theorem EntryInv.execServiceWaveRequest {cluster : Nat} {s : State} (h : EntryInv s) :
    OutAll (execServiceWaveRequest cluster s) := by
  unfold Machine.execServiceWaveRequest
  split
  · exact h
  · split
    · exact h
    · rename_i s4 heq2
      have hs4 : EntryInv s4 := h.serveOne _ heq2
      split
      · exact hs4
      · split
        · rename_i s1 heq4
          exact hs4.returnOne _ heq4
        · exact hs4

theorem EntryInv.execQueueAccessComplete {w : Nat} {s : State} (h : EntryInv s) :
    OutAll (execQueueAccessComplete w s) := by
  unfold Machine.execQueueAccessComplete
  exact ite_inv h h.wakeWhere

theorem EntryInv.execFeedElementWrite {w stream : Nat} {s : State} (h : EntryInv s) :
    OutAll (execFeedElementWrite w stream s) := by
  unfold Machine.execFeedElementWrite
  split
  · exact h
  · extract_lets held
    split
    · exact h
    · split
      · rename_i s1 heq3
        exact h.performUpTo _ heq3
      · exact h

theorem EntryInv.execCoreGate {core : Nat} {s : State} (h : EntryInv s) :
    OutAll (execCoreGate core s) := by
  unfold Machine.execCoreGate
  extract_lets c
  exact ite_inv h h.setCore

theorem EntryInv.execCoreWake {core : Nat} {s : State} (h : EntryInv s) :
    OutAll (execCoreWake core s) := by
  unfold Machine.execCoreWake
  extract_lets c
  split
  · exact h
  · split
    rename_i s1 heq2
    have hs1 : EntryInv s1 := h.fresh.of_eq heq2
    exact hs1.setCore

theorem EntryInv.execPageWalk {cluster : Nat} {s : State} (h : EntryInv s) :
    OutAll (execPageWalk cluster s) := by
  unfold Machine.execPageWalk
  extract_lets c
  have hc : c.aligned := h.cluster
  split
  · exact h
  · split
    · rename_i s1 f bad heq2
      have hr : FstAll EntryInv (s1, WalkRes.fault f bad) := by
        rw [← heq2]
        exact EntryInv.walkBy (h.setCluster hc)
      show EntryInv _
      split
      · exact EntryInv.dataError hr
      · exact hr
    · rename_i s1 l3 heq2
      have hr : FstAll EntryInv (s1, WalkRes.leaf l3) := by
        rw [← heq2]
        exact EntryInv.walkBy (h.setCluster hc)
      extract_lets served y s2
      have hy : y.aligned := EntryInv.cluster hr
      have hs2 : EntryInv s2 := EntryInv.setCluster hr hy
      split
      · exact hs2
      · split
        · exact hs2.quotaEvent
        · rename_i s22 heq4
          have hs22 : EntryInv s22 := of_eq (P := ChargeRes.aligned) hs2.charge heq4
          exact hs22.install

theorem EntryInv.moveLines {s : State} {frame : Nat} {homes : NMap Nat} (h : EntryInv s) :
    EntryInv (s.moveLines frame homes) := by
  unfold State.moveLines
  extract_lets here
  refine foldl_inv h ?_
  intro _ _ hs2
  extract_lets s1
  exact hs2.makeWay.getD hs2

theorem Machine.Thread.aligned.dropFrame {frame : Nat} {t : Thread} (ht : t.aligned) :
    (Thread.dropFrame frame t).aligned := by
  unfold Thread.dropFrame
  split
  · exact ite_inv ht ht
  · exact ht

theorem EntryInv.execHomeMove {frame slice : Nat} {s : State} (h : EntryInv s) :
    OutAll (execHomeMove frame slice s) := by
  unfold Machine.execHomeMove
  split
  · exact h
  · extract_lets reqs put clean s1
    have hclean : ∀ (x : Wave), x.aligned → (clean x).aligned := by
      intro _ hx
      unfold clean
      exact Wave.aligned.intro (hx.threads.map (fun t ht => ht.dropFrame))
    have hs1 : EntryInv s1 := h.moveLines
    exact hs1.withWaves (hs1.waves.map (fun e he => hclean _ he.snd))

theorem EntryInv.execHomeForward {frame : Nat} {s : State} (h : EntryInv s) :
    OutAll (execHomeForward frame s) := by
  unfold Machine.execHomeForward
  split
  · exact h
  · split
    · exact h
    · split
      · exact h
      · rename_i s4 heq3
        have hs4 : EntryInv s4 := h.performUpTo _ heq3
        extract_lets put
        exact hs4

end Sys2Proof
end

section
/-! PROOFS. No step misaligns an address at which a thread goes on or is placed (O3):
the package, bins, CSRs, and the step. -/

namespace Sys2Proof

open Sys2Proof.Machine

/-! ### The package -/

theorem EntryInv.fenceSegment {s : State} {core : Nat} {acc : Bool} {quad seg : Nat} (h : EntryInv s) :
    EntryInv (s.fenceSegment core acc quad seg) := by
  unfold State.fenceSegment
  extract_lets n c s1 y s2 s3
  have hs1 : EntryInv s1 := h.setCore
  have hy : y.aligned := hs1.cluster
  have hs2 : EntryInv s2 := ite_inv (hs1.setCluster hy) hs1
  have hs3 : EntryInv s3 := hs2.markSaving
  exact hs3.countLife.postFjoub

theorem EntryInv.execSegmentTest {core : Nat} {acc : Bool} {quad seg : Nat} {fail : Bool} {s : State} (h : EntryInv s) :
    OutAll (execSegmentTest core acc quad seg fail s) := by
  unfold Machine.execSegmentTest
  extract_lets valid s1
  have hs1 : EntryInv s1 := h.countLife
  exact ite_inv h (ite_inv hs1.fenceSegment hs1)

theorem EntryInv.execPowerCapStep {above : Bool} {s : State} (h : EntryInv s) :
    OutAll (execPowerCapStep above s) := by
  unfold Machine.execPowerCapStep
  extract_lets capped
  exact h

theorem EntryInv.reply {s : State} {fn : Nat} {tag : BitVec 16} {status : Nat} {data : List Byte} (h : EntryInv s) :
    EntryInv (s.reply fn tag status data) := by
  unfold State.reply
  extract_lets r
  exact EntryInv.signal h

theorem EntryInv.refuse {s : State} {fn : Nat} {tag : BitVec 16} (h : EntryInv s) :
    EntryInv (s.refuse fn tag) := by
  unfold State.refuse
  split
  rename_i s1 heq
  have hs1 : EntryInv s1 := h.fresh.of_eq heq
  exact hs1.reply

theorem EntryInv.command {s : State} {fn : Nat} {tag : BitVec 16} {cmd : BitVec 512} {pf : Bool} {act : State → State}
    (h : EntryInv s) (hact : ∀ (s : State), EntryInv s → EntryInv (act s)) :
    OutAll (s.command fn tag cmd pf act) := by
  unfold State.command
  split
  · exact h
  · extract_lets s1
    have hs1 : EntryInv s1 := h
    exact ite_inv hs1.reply (hact _ hs1)

theorem Machine.replyWith_aligned {fn : Nat} {tag : BitVec 16} {r : State × Nat} (hr : FstAll EntryInv r) :
    EntryInv (replyWith fn tag r) := by
  unfold Machine.replyWith
  exact hr.fst.reply

theorem EntryInv.bindPf {s : State} {fn r : Nat} (h : EntryInv s) :
    EntryInv (s.bindPf fn r) := by
  unfold State.bindPf
  split
  · split
    · extract_lets put
      exact h
    · exact h
  · exact h

theorem EntryInv.execFwLaunch {fn : Nat} {tag : BitVec 16} {rcb : DWord} {s : State} (h : EntryInv s) :
    OutAll (execFwLaunch fn tag rcb s) := by
  unfold Machine.execFwLaunch
  refine EntryInv.command h ?_
  intro _ hs2
  split
  rename_i s1 _ heq
  have hs1 : EntryInv s1 := hs2.launch.of_eq heq
  exact replyWith_aligned (ite_inv hs1.bindPf hs1)

theorem EntryInv.execFwPrismLaunch {fn : Nat} {tag : BitVec 16} {prism : DWord} {s : State} (h : EntryInv s) :
    OutAll (execFwPrismLaunch fn tag prism s) := by
  unfold Machine.execFwPrismLaunch
  exact h.command (fun s2 hs2 => replyWith_aligned hs2.launchPrism)

theorem EntryInv.fwControl {s : State} {fn : Nat} {tag : BitVec 16} {rcb : DWord} {op : RegionOp} (h : EntryInv s) :
    EntryInv (s.fwControl fn tag rcb op) := by
  unfold State.fwControl
  split
  · exact replyWith_aligned h.controlNamed
  · exact h.reply

theorem EntryInv.execFwSuspend {fn : Nat} {tag : BitVec 16} {rcb : DWord} {s : State} (h : EntryInv s) :
    OutAll (execFwSuspend fn tag rcb s) := by
  unfold Machine.execFwSuspend
  exact h.command (fun s2 hs2 => hs2.fwControl)

theorem EntryInv.execFwResume {fn : Nat} {tag : BitVec 16} {rcb : DWord} {s : State} (h : EntryInv s) :
    OutAll (execFwResume fn tag rcb s) := by
  unfold Machine.execFwResume
  exact h.command (fun s2 hs2 => hs2.fwControl)

theorem EntryInv.execFwKill {fn : Nat} {tag : BitVec 16} {rcb : DWord} {s : State} (h : EntryInv s) :
    OutAll (execFwKill fn tag rcb s) := by
  unfold Machine.execFwKill
  exact h.command (fun s2 hs2 => hs2.fwControl)

theorem EntryInv.execFwReplay {fn : Nat} {tag : BitVec 16} {rcb : DWord} {seq : BitVec 16} {all : Bool} {s : State}
    (h : EntryInv s) :
    OutAll (execFwReplay fn tag rcb seq all s) := by
  unfold Machine.execFwReplay
  exact h.command (fun s2 hs2 => hs2.fwControl)

theorem EntryInv.freeFrames {s : State} {r : Nat} {root : Region} {frame count : Nat} (h : EntryInv s) :
    EntryInv (s.freeFrames r root frame count) := by
  unfold State.freeFrames
  extract_lets fs s1
  have hs1 : EntryInv s1 := foldl_inv h (fun s2 _ hs2 => hs2.putNum)
  refine foldl_inv hs1 ?_
  intro _ _ hs2
  split
  · exact EntryInv.putNum (hs2.updRegion (fun y3 hy3 => hy3))
  · exact hs2

theorem EntryInv.execFwFreeFrames {fn : Nat} {tag : BitVec 16} {rcb frame count : DWord} {s : State} (h : EntryInv s) :
    OutAll (execFwFreeFrames fn tag rcb frame count s) := by
  unfold Machine.execFwFreeFrames
  refine EntryInv.command h ?_
  intro _ hs2
  split
  · exact hs2.reply
  · split
    · exact hs2.reply
    · split
      · exact hs2.freeFrames.reply
      · exact hs2.reply

theorem EntryInv.bindVf {s : State} {vf r : Nat} {b : FnBind} {q : Rcb → Rcb} (h : EntryInv s) (hq : ∀
    (y : Rcb), y.aligned → (q y).aligned) :
    EntryInv (s.bindVf vf r b q) := by
  unfold State.bindVf
  extract_lets mine set put
  have hset : ∀ (y : Nat × Region), SndAll Region.aligned y → SndAll Region.aligned (set y) := by
    intro _ hy
    unfold set
    split
    · refine SndAll.intro ?_
      extract_lets y_2
      exact hy.snd
    · exact hy
  exact EntryInv.updRegion (h.withRegions (h.regions.map (fun e he => hset _ he))) (fun y hy => Region.aligned.intro
      (hq _ hy.rcb))

theorem Machine.Rcb.aligned.quotaOf {pq : BitVec 4} {memq timeq : DWord} {regq scrq : Word} {accq : DWord} {x : Rcb}
    (hx : x.aligned) :
    (quotaOf pq memq timeq regq scrq accq x).aligned := by
  unfold Machine.quotaOf
  exact hx

theorem EntryInv.execFwSetQuota {fn : Nat} {tag : BitVec 16} {vf : BitVec 8} {rcb : DWord} {pasid : BitVec 20}
    {partition : BitVec 8} {pq : BitVec 4} {memq timeq : DWord} {regq scrq : Word} {accq : DWord} {s : State}
    (h : EntryInv s) :
    OutAll (execFwSetQuota fn tag vf rcb pasid partition pq memq timeq regq scrq accq s) := by
  unfold Machine.execFwSetQuota
  extract_lets names args good
  refine EntryInv.command h ?_
  intro _ hs2
  split
  · extract_lets b
    exact (hs2.bindVf (fun y3 hy3 => hy3.quotaOf)).reply
  · exact hs2.reply

theorem EntryInv.execFwSetPresent {fn : Nat} {tag : BitVec 16} {en : BitVec 48} {guard : BitVec 16}
    {intervals : List Word} {s : State} (h : EntryInv s) :
    OutAll (execFwSetPresent fn tag en guard intervals s) := by
  unfold Machine.execFwSetPresent
  extract_lets iv
  refine EntryInv.command h ?_
  intro _ hs2
  split
  · extract_lets go
    exact EntryInv.reply hs2
  · exact hs2.reply

theorem EntryInv.execFwHomeMove {fn : Nat} {tag : BitVec 16} {frame slice : DWord} {s : State} (h : EntryInv s) :
    OutAll (execFwHomeMove fn tag frame slice s) := by
  unfold Machine.execFwHomeMove
  refine EntryInv.command h ?_
  intro _ hs2
  split
  · rename_i s1 heq
    have hs1 : EntryInv s1 := hs2.beginMove.of_eq heq
    exact hs1.reply
  · rename_i s1 heq
    have hs1 : EntryInv s1 := hs2.beginMove.of_eq heq
    exact hs1.refuse

theorem EntryInv.changeMode {s : State} {modes : List Word} {parts : List (List DWord)} (h : EntryInv s) :
    EntryInv (s.changeMode modes parts) := by
  unfold State.changeMode
  extract_lets s1 die
  have hs1 : EntryInv s1 := foldl_inv h (fun s2 _ hs2 => hs2.dropWhere)
  have hdie : ∀ (n : Nat) (y : Die), y.aligned → (die n y).aligned := by
    intro _ _ hy
    unfold die
    exact hy
  refine EntryInv.intro hs1.waves hs1.saved hs1.regions ?_ (hs1.dies.mapIdx (fun i y hy => hdie _ _ hy)) hs1.deliveries
  refine ListAll.map (P := SndAll Cluster.aligned) hs1.clusters ?_
  intro _ he
  refine SndAll.intro ?_
  extract_lets y
  exact he.snd

theorem EntryInv.execFwSetL2Mode {fn : Nat} {tag : BitVec 16} {modes : DWord} {data : List Byte} {s : State}
    (h : EntryInv s) :
    OutAll (execFwSetL2Mode fn tag modes data s) := by
  unfold Machine.execFwSetL2Mode
  exact h.command (fun s2 hs2 => ite_inv hs2.reply (ite_inv hs2.refuse hs2.changeMode.reply))

theorem EntryInv.execFwSetPower {fn : Nat} {tag : BitVec 16} {limit : DWord} {s : State} (h : EntryInv s) :
    OutAll (execFwSetPower fn tag limit s) := by
  unfold Machine.execFwSetPower
  exact h.command (fun s2 hs2 => ite_inv (EntryInv.reply hs2) hs2.reply)

theorem EntryInv.execFwAttest {fn : Nat} {tag : BitVec 16} {nonce : BitVec 256} {s : State} (h : EntryInv s) :
    OutAll (execFwAttest fn tag nonce s) := by
  unfold Machine.execFwAttest
  exact h.command (fun s2 hs2 => ite_inv hs2.reply (EntryInv.reply hs2))

theorem EntryInv.execFwWriteSlot {fn : Nat} {tag : BitVec 16} {version rollback length : Word} {image sig : List Byte}
    {s : State} (h : EntryInv s) :
    OutAll (execFwWriteSlot fn tag version rollback length image sig s) := by
  unfold Machine.execFwWriteSlot
  extract_lets header
  refine EntryInv.command h ?_
  intro _ hs2
  split
  · exact hs2.reply
  · extract_lets n y_2
    exact EntryInv.reply hs2

theorem EntryInv.execFwConfirm {fn : Nat} {tag : BitVec 16} {s : State} (h : EntryInv s) :
    OutAll (execFwConfirm fn tag s) := by
  unfold Machine.execFwConfirm
  exact h.command (fun s2 hs2 => EntryInv.reply hs2)

theorem EntryInv.execFwRollBack {fn : Nat} {tag : BitVec 16} {slot : DWord} {nonce : BitVec 256} {sig : List Byte}
    {s : State} (h : EntryInv s) :
    OutAll (execFwRollBack fn tag slot nonce sig s) := by
  unfold Machine.execFwRollBack
  refine EntryInv.command h ?_
  intro _ hs2
  split
  · split
    rename_i s1 heq2
    have hs1 : EntryInv s1 := hs2.fresh.of_eq heq2
    exact EntryInv.reply hs1
  · exact hs2.reply

theorem EntryInv.execFwReadCounters {fn : Nat} {tag : BitVec 16} {s : State} (h : EntryInv s) :
    OutAll (execFwReadCounters fn tag s) := by
  unfold Machine.execFwReadCounters
  exact h.command (fun s2 hs2 => hs2.reply)

theorem EntryInv.execLifetimeCounterFlush {s : State} (h : EntryInv s) :
    OutAll (execLifetimeCounterFlush s) := by
  unfold Machine.execLifetimeCounterFlush
  exact h

theorem EntryInv.execFwFreeze {fn : Nat} {tag : BitVec 16} {s : State} (h : EntryInv s) :
    OutAll (execFwFreeze fn tag s) := by
  unfold Machine.execFwFreeze
  exact h.command (fun s2 hs2 => hs2)

theorem EntryInv.execFwInvalidCode {fn : Nat} {tag : BitVec 16} {code : BitVec 8} {s : State} (h : EntryInv s) :
    OutAll (execFwInvalidCode fn tag code s) := by
  unfold Machine.execFwInvalidCode
  exact ite_inv h (h.command (fun s2 hs2 => hs2.reply))

theorem EntryInv.execFreezePin {s : State} (h : EntryInv s) :
    OutAll (execFreezePin s) := by
  unfold Machine.execFreezePin
  exact h

theorem EntryInv.restart {s : State} {mem : List Host.Cell} {poison : List Nat} {fw : Firmware} {life : Lifetime}
    (_h : EntryInv s) :
    EntryInv (s.restart mem poison fw life) := by
  unfold State.restart
  split
  extract_lets y
  exact State.reset_aligned

theorem EntryInv.execDeviceReset {s : State} (h : EntryInv s) :
    OutAll (execDeviceReset s) := by
  unfold Machine.execDeviceReset
  exact h.restart

theorem EntryInv.execPowerLoss {s : State} (h : EntryInv s) :
    OutAll (execPowerLoss s) := by
  unfold Machine.execPowerLoss
  split
  rename_i s1 heq
  have hs1 : EntryInv s1 := h.fresh.of_eq heq
  extract_lets fw y
  exact hs1.restart

/-! ### Bins and pixel locks -/

theorem EntryInv.binFind {s : State} {die asr va : Nat} {tag : Option (BitVec 5)} (h : EntryInv s) :
    FstAll (OptAll BinDesc.aligned) (s.binFind die asr va tag) := by
  unfold State.binFind
  extract_lets same
  have hsame : ListAll BinDesc.aligned same := h.die.bins.filter
  exact hsame.find?

theorem Machine.BinDesc.open_aligned {id va rgn : Nat} {tag : Option (BitVec 5)} {d : BitVec 512} {pc : DWord}
    (hd : dfield d 191 128 % 4 = 0) : (BinDesc.open_ id va rgn tag d pc).aligned :=
  BinDesc.aligned.intro (PcOk.ofNat hd)

/-- A bin descriptor that is taken names an aligned entry. -/
theorem Machine.State.binBad_entry {s : State} {fn asr : Nat} {d : BitVec 512} (h : ¬ s.binBad fn asr d = true) :
    dfield d 191 128 % 4 = 0 := by
  rw [Bool.not_eq_true] at h
  unfold State.binBad at h
  simp only [Bool.or_eq_false_iff, bne_eq_false_iff_eq] at h
  tauto

theorem EntryInv.setBin {s : State} {die : Nat} {b : BinDesc} (h : EntryInv s) (hb : b.aligned) :
    EntryInv (s.setBin die b) := by
  unfold State.setBin
  extract_lets x bins
  have hx : x.aligned := h.die
  have hbins : ListAll BinDesc.aligned bins := ite_inv (hx.bins.map (fun y hy => ite_inv hb hy)) (hx.bins.append
      (ListAll.cons hb ListAll.nil))
  exact h.setDie (Die.aligned.intro hbins hx.sweepQ hx.engines)

theorem EntryInv.binWrite {s : State} {die : Nat} {b : BinDesc} {va : Nat} {bs : List Byte} (h : EntryInv s) :
    FstAll EntryInv (s.binWrite die b va bs) := by
  unfold State.binWrite
  extract_lets k e
  split
  · rename_i a _ heq
    have ha : EntryInv a := of_eq (P := Trans2.aligned) h.reach heq
    refine FstAll.intro ?_
    exact FstAll.fst (foldl_inv ha (fun s2 _ hs2 => ite_inv hs2.fst hs2.fst.baseWrite))
  · rename_i a _ _ heq
    have ha : EntryInv a := of_eq (P := Trans2.aligned) h.reach heq
    exact ha.engRecord
  · rename_i a _ heq
    have ha : EntryInv a := of_eq (P := Trans2.aligned) h.reach heq
    exact ha.engQuota
  · rename_i a heq
    exact of_eq (P := Trans2.aligned) h.reach heq

theorem EntryInv.binWrites {s : State} {die : Nat} {b : BinDesc} {l : List (Nat × List Byte)} (h : EntryInv s) :
    FstAll EntryInv (s.binWrites die b l) := by
  induction l generalizing s with
  | nil =>
    rw [State.binWrites]
    exact h
  | cons e l ih =>
    rw [State.binWrites]
    split
    · rename_i s1 heq
      have hr : FstAll EntryInv (s1, true) := by
        rw [← heq]
        exact ite_inv h h.binWrite
      exact ih hr
    · rename_i s1 heq
      have hr : FstAll EntryInv (s1, false) := by
        rw [← heq]
        exact ite_inv h h.binWrite
      exact hr

theorem EntryInv.binSettle {s : State} {die : Nat} {b : BinDesc} (h : EntryInv s) (hb : b.aligned) :
    BothAll EntryInv BinDesc.aligned (s.binSettle die b) := by
  unfold State.binSettle
  split
  rename_i s1 _ heq
  have hs1 : EntryInv s1 := h.binWrites.of_eq heq
  exact ⟨hs1, hb⟩

theorem EntryInv.binAppend {s : State} {die : Nat} {b : BinDesc} {tile : Nat} {seq : Word} {payload : BitVec 64}
    (h : EntryInv s) (hb : b.aligned) :
    BothAll EntryInv BinDesc.aligned (s.binAppend die b tile seq payload) := by
  unfold State.binAppend
  extract_lets l pos
  split
  rename_i s1 l2 l3 heq
  have hr : FstAll EntryInv (s1, l2, l3) := by
    rw [← heq]
    split
    · split
      rename_i s12 heq3
      have hs12 : EntryInv s12 := h.fresh.of_eq heq3
      extract_lets c link
      exact hs12
    · exact h
  extract_lets at_
  exact EntryInv.binSettle hr hb

theorem EntryInv.binAdd {s : State} {die : Nat} {b : BinDesc} {p : Prim} (h : EntryInv s) (hb : b.aligned) :
    BothAll EntryInv BinDesc.aligned (s.binAdd die b p) := by
  unfold State.binAdd
  exact foldl_inv ⟨h, hb⟩ (fun s2 _ hs2 => hs2.fst.binAppend hs2.snd)

theorem EntryInv.askTile {s : State} {die : Nat} {b : BinDesc} {tile : Nat} {l : TileList} (h : EntryInv s) (hb : b.aligned) :
    EntryInv (s.askTile die b tile l) := by
  unfold State.askTile
  extract_lets tx ty rec_ d
  have hd : d.aligned := Delivery.aligned.intro hb.entry
  exact h.withDeliveries (h.deliveries.append (ListAll.cons hd ListAll.nil))

theorem EntryInv.binFlush {s : State} {die : Nat} {b : BinDesc} (h : EntryInv s) (hb : b.aligned) :
    EntryInv (s.binFlush die b) := by
  unfold State.binFlush
  extract_lets b1
  have hb1 : b1.aligned := hb
  exact foldl_inv (h.setBin hb1) (fun s2 a hs2 => ite_inv hs2 (hs2.askTile hb1))

theorem EntryInv.binOverflow {s : State} {die : Nat} {b : BinDesc} {p : Prim} (h : EntryInv s) (hb : b.aligned) :
    EntryInv (s.binOverflow die b p) := by
  unfold State.binOverflow
  exact EntryInv.postEvent (h.binFlush hb)

theorem EntryInv.binAlone {s : State} {die : Nat} {old b : BinDesc} {p : Prim} (h : EntryInv s) (hold : old.aligned)
    (hb : b.aligned) :
    EntryInv (s.binAlone die old b p) := by
  unfold State.binAlone
  split
  · exact h.setBin hb
  · split
    rename_i s1 b1 heq2
    obtain ⟨hs1, hb1⟩ : EntryInv s1 ∧ b1.aligned := (h.binAppend hb).of_eq heq2
    split
    · extract_lets one
      exact hs1.binFlush hb1
    · exact hs1.setBin hold

theorem EntryInv.settleBins {s : State} {die : Nat} (h : EntryInv s) :
    EntryInv (s.settleBins die) := by
  unfold State.settleBins
  refine foldl_invMem h.die.bins.filter h ?_
  intro _ _ hs2 ha
  split
  rename_i s1 b1 heq
  obtain ⟨hs1, hb1⟩ : EntryInv s1 ∧ b1.aligned := (hs2.binSettle ha).of_eq heq
  exact hs1.setBin hb1

theorem EntryInv.binOpen {s : State} {c : Ctx} {die va : Nat} {d : BitVec 512} (h : EntryInv s)
    (hd : dfield d 191 128 % 4 = 0) : OptAll (BothAll EntryInv BinDesc.aligned) (s.binOpen c die va d) := by
  unfold State.binOpen
  extract_lets x tag b
  have hb : b.aligned := BinDesc.open_aligned hd
  split
  · exact OptAll.none
  · split
    · rename_i b' _ heq
      have hb' : b'.aligned := h.binFind.of_eq heq _ rfl
      exact ite_inv OptAll.none (OptAll.some ⟨h, hb'⟩)
    · have hs1 : EntryInv { s with nextId := s.nextId + 1 } := h
      exact ite_inv OptAll.none (OptAll.some ⟨hs1.setBin hb, hb⟩)

theorem EntryInv.binGo {s : State} {c : Ctx} {lane : Nat} {k : State → Nat → BinDesc → Lane} (h : EntryInv s)
    (hc : c.aligned) (hk : ∀ s1 n b, EntryInv s1 → b.aligned → (k s1 n b).aligned) : (s.binGo c lane k).aligned := by
  unfold State.binGo
  extract_lets va die
  split
  · rename_i heq
    exact of_eq (P := DescRes.aligned) (h.readDesc hc) heq
  · rename_i s1 d heq
    have hs1 : EntryInv s1 := of_eq (P := DescRes.aligned) (h.readDesc hc) heq
    split
    · exact hs1
    · rename_i hbad
      split
      · exact h
      · rename_i s2 heq2
        have hs2 : EntryInv s2 := hs1.releaseAt _ heq2
        extract_lets s3
        have hs3 : EntryInv s3 := hs2.settleBins
        split
        · exact hs3
        · rename_i s4 b heq3
          obtain ⟨hs4, hb⟩ : EntryInv s4 ∧ b.aligned := hs3.binOpen (State.binBad_entry hbad) _ heq3
          exact hk _ _ _ hs4 hb

theorem EntryInv.binRecord {s : State} {die : Nat} {b : BinDesc} {r : Nat} (h : EntryInv s) (hb : b.aligned) :
    (s.binRecord die b r).aligned := by
  unfold State.binRecord
  extract_lets b1
  have hb1 : b1.aligned := hb
  split
  · exact h.setBin hb1
  · split
    · exact h.binOverflow hb1
    · split
      rename_i s1 b12 heq3
      obtain ⟨hs1, hb12⟩ : EntryInv s1 ∧ b12.aligned := (h.binAdd hb1).of_eq heq3
      exact hs1.setBin hb12

theorem EntryInv.execBinPut {f : Frame} {s : State} (h : EntryInv s) :
    OutAll (execBinPut f s) := by
  unfold Machine.execBinPut
  exact h.perLane (fun c s2 n hc hs2 => hs2.binGo hc (fun s1 _ b hs1 hb => hs1.binRecord hb))

theorem EntryInv.execBinPutEnd {f : Frame} {s : State} (h : EntryInv s) :
    OutAll (execBinPutEnd f s) := by
  unfold Machine.execBinPutEnd
  exact h.perLane (fun c s2 n hc hs2 => hs2.binGo hc (fun s1 _ b hs1 hb => hs1.binFlush hb))

theorem EntryInv.binClose {s : State} {die : Nat} {b : BinDesc} (h : EntryInv s) :
    EntryInv (s.binClose die b) := by
  unfold State.binClose
  extract_lets x s1
  have hx : x.aligned := h.die
  have hs1 : EntryInv s1 := h.setDie (Die.aligned.intro hx.bins.filter hx.sweepQ hx.engines)
  split
  · exact hs1
  · split
    · exact hs1.raiseCtr
    · exact hs1.engRecord

theorem EntryInv.execFlushComplete {die desc : Nat} {s : State} (h : EntryInv s) :
    OutAll (execFlushComplete die desc s) := by
  unfold Machine.execFlushComplete
  split
  · exact h
  · rename_i b heq
    have hb : b.aligned := h.settleBins.die.bins.find? _ heq
    extract_lets s0 s1 b1
    have hs0 : EntryInv s0 := h.settleBins
    have hs1 : EntryInv s1 := foldl_inv hs0 (fun s2 a hs2 => hs2.writeBackAll.writeBackSvc)
    have hb1 : b1.aligned := hb
    split
    · exact hs0
    · split
      · split
        · exact hs1.binAlone hb hb1
        · split
          rename_i s12 b12 heq5
          obtain ⟨hs12, hb12⟩ : EntryInv s12 ∧ b12.aligned := (hs1.binAdd hb1).of_eq heq5
          exact hs12.setBin hb12
      · exact ite_inv hs1.binClose (hs1.setBin hb1)

theorem EntryInv.updTile {s : State} {w : Nat} {g : TileSt → TileSt} (h : EntryInv s) :
    EntryInv (s.updTile w g) := by
  unfold State.updTile
  exact h.withWaves (h.waves.upd (fun x hx => hx))

theorem EntryInv.pxlockLane {s : State} {c : Ctx} {lane : Nat} (h : EntryInv s) :
    (s.pxlockLane c lane).aligned := by
  unfold State.pxlockLane
  extract_lets px seq s1
  have hs1 : EntryInv s1 := h.updTile
  split
  · exact h
  · split
    · exact h
    · split
      · exact h
      · split
        · exact h
        · extract_lets free
          split
          · exact hs1
          · split
            · split
              · rename_i s12 heq7
                exact hs1.updTile.acquireAt _ heq7
              · exact h
            · exact ⟨hs1, trivial⟩

theorem EntryInv.execPxlock {f : Frame} {s : State} (h : EntryInv s) :
    OutAll (execPxlock f s) := by
  unfold Machine.execPxlock
  exact h.perLane (fun c s2 n _ hs2 => hs2.pxlockLane)

theorem EntryInv.pxunlockLane {s : State} {c : Ctx} {lane : Nat} {all : Bool} (h : EntryInv s) :
    (s.pxunlockLane c lane all).aligned := by
  unfold State.pxunlockLane
  extract_lets px seq clear
  split
  · split
    · exact h
    · rename_i s4 heq2
      have hs4 : EntryInv s4 := h.releaseAt _ heq2
      exact hs4.updTile.pxWake
  · exact h

theorem EntryInv.execPxunlock {f : Frame} {all : Bool} {s : State} (h : EntryInv s) :
    OutAll (execPxunlock f all s) := by
  unfold Machine.execPxunlock
  exact h.perLane (fun c s2 n _ hs2 => hs2.pxunlockLane)

/-! ### CSRs, traps and caches -/

theorem Machine.Thread.aligned.putSpillb {t : Thread} {v : Nat} (ht : t.aligned) :
    OkAll Thread.aligned (t.putSpillb v) := by
  unfold Thread.putSpillb
  extract_lets base
  exact ite_inv trivial (ite_inv trivial ht)

theorem Machine.Thread.aligned.putSpilll {t : Thread} {v : Nat} (ht : t.aligned) :
    OkAll Thread.aligned (t.putSpilll v) := by
  unfold Thread.putSpilll
  extract_lets limit
  exact ite_inv trivial (ite_inv trivial ht)

theorem Machine.Thread.aligned.putCsr {t : Thread} {n v : Nat} (ht : t.aligned) :
    OkAll Thread.aligned (t.putCsr n v) := by
  unfold Thread.putCsr
  split
  · exact ht
  · exact ht.putSpillb
  · exact ht.putSpilll
  · exact Thread.aligned.intro ht.pc PcOk.ofNatMul ht.accs ht.st
  · exact ht

theorem Machine.Wave.aligned.putCsr {x : Wave} {n v : Nat} (hx : x.aligned) :
    (x.putCsr n v).aligned := by
  unfold Wave.putCsr
  exact ite_inv hx hx

theorem EntryInv.csrWrite {s : State} {c : Ctx} {lane n v : Nat} (h : EntryInv s) :
    OkAll EntryInv (s.csrWrite c lane n v) := by
  unfold State.csrWrite
  split
  · split
    · exact h
    · rename_i t heq2
      have ht : t.aligned := h.thread? _ heq2
      split
      · rename_i t1 heq3
        have ht1 : t1.aligned := of_eq (P := OkAll Thread.aligned) ht.putCsr heq3
        exact h.updThread (fun _ _ => ht1)
      · exact trivial
  · split
    · split
      · exact h.withWaves (h.waves.upd (fun x hx => hx.putCsr))
      · exact trivial
    · split
      · exact trivial
      · split
        · split
          · exact trivial
          · exact ite_inv h.writeMestat h
        · exact trivial

theorem EntryInv.settlePair {s : State} {c : Ctx} {lane words : Nat} {o : Operand} (h : EntryInv s) :
    OptAll EntryInv (s.settlePair c lane words o) := by
  unfold State.settlePair
  extract_lets hs s1
  have hs1 : EntryInv s1 := ite_inv (h.updThread (fun t ht => ht)) h
  exact foldl_inv (OptAll.some hs1) (fun s2 _ hs2 => hs2.bind (fun s12 hs12 => hs12.returnAcc))

theorem EntryInv.csrrLane {s : State} {c : Ctx} {lane : Nat} (h : EntryInv s) :
    (s.csrrLane c lane).aligned := by
  unfold State.csrrLane
  extract_lets n
  split
  · exact h
  · split
    · exact h
    · rename_i s4 heq2
      have hs4 : EntryInv s4 := h.settlePair _ heq2
      split
      · exact hs4
      · exact hs4

theorem EntryInv.csrwLane {s : State} {c : Ctx} {lane : Nat} (h : EntryInv s) :
    (s.csrwLane c lane).aligned := by
  unfold State.csrwLane
  extract_lets n
  split
  · exact h
  · split
    · exact h
    · rename_i s4 heq2
      have hs4 : EntryInv s4 := h.settlePair _ heq2
      extract_lets x
      split
      · exact hs4
      · rename_i s2 heq3
        exact of_eq (P := OkAll EntryInv) hs4.csrWrite heq3

theorem EntryInv.execCsrr {f : Frame} {s : State} (h : EntryInv s) :
    OutAll (execCsrr f s) := by
  unfold Machine.execCsrr
  exact h.perLane (fun c s2 n _ hs2 => hs2.csrrLane)

theorem EntryInv.execCsrw {f : Frame} {s : State} (h : EntryInv s) :
    OutAll (execCsrw f s) := by
  unfold Machine.execCsrw
  exact h.perLane (fun c s2 n _ hs2 => hs2.csrwLane)

theorem EntryInv.execSpillbWrite {f : Frame} {s : State} (h : EntryInv s) :
    OutAll (execSpillbWrite f s) := by
  unfold Machine.execSpillbWrite
  exact h.perLane (fun c s2 n _ hs2 => hs2.csrwLane)

theorem EntryInv.execSpilllWrite {f : Frame} {s : State} (h : EntryInv s) :
    OutAll (execSpilllWrite f s) := by
  unfold Machine.execSpilllWrite
  exact h.perLane (fun c s2 n _ hs2 => hs2.csrwLane)

theorem EntryInv.execFairtWrite {f : Frame} {s : State} (h : EntryInv s) :
    OutAll (execFairtWrite f s) := by
  unfold Machine.execFairtWrite
  exact h.perLane (fun c s2 n _ hs2 => hs2.csrwLane)

theorem EntryInv.execMestatHaltResume {f : Frame} {s : State} (h : EntryInv s) :
    OutAll (execMestatHaltResume f s) := by
  unfold Machine.execMestatHaltResume
  exact h.perLane (fun c s2 n _ hs2 => hs2.csrwLane)

theorem EntryInv.execMestatDiscard {f : Frame} {s : State} (h : EntryInv s) :
    OutAll (execMestatDiscard f s) := by
  unfold Machine.execMestatDiscard
  exact h.perLane (fun c s2 n _ hs2 => hs2.csrwLane)

theorem EntryInv.execTrap {f : Frame} {s : State} (h : EntryInv s) :
    OutAll (execTrap f s) := by
  unfold Machine.execTrap
  exact h.perLane (fun _ s2 _ _ hs2 => hs2)

theorem EntryInv.execBkpt {f : Frame} {s : State} (h : EntryInv s) :
    OutAll (execBkpt f s) := by
  unfold Machine.execBkpt
  exact h.perLane (fun _ s2 _ _ hs2 => hs2)

theorem EntryInv.execEret {f : Frame} {s : State} (h : EntryInv s) :
    OutAll (execEret f s) := by
  unfold Machine.execEret
  exact h.perLane (fun _ s2 n _ hs2 => ite_inv (hs2.updThread (fun t ht => ht.eret)) hs2)

theorem EntryInv.dropBlocks {s : State} {asr base size : Nat} (h : EntryInv s) :
    EntryInv (s.dropBlocks asr base size) := by
  unfold State.dropBlocks
  extract_lets span pieces hit loop core
  exact h

theorem EntryInv.icinvLane {s : State} {c : Ctx} {lane : Nat} (h : EntryInv s) :
    (s.icinvLane c lane).aligned := by
  unfold State.icinvLane
  extract_lets r
  split
  · exact h
  · rename_i s4 heq
    have hs4 : EntryInv s4 := h.releaseAt _ heq
    exact hs4.dropBlocks

theorem EntryInv.execIcinv {f : Frame} {s : State} (h : EntryInv s) :
    OutAll (execIcinv f s) := by
  unfold Machine.execIcinv
  exact h.perLane (fun c s2 n _ hs2 => hs2.icinvLane)

theorem EntryInv.dropTranslations {s : State} {asr : Nat} {all : Bool} {base size : Nat} (h : EntryInv s) :
    OptAll EntryInv (s.dropTranslations asr all base size) := by
  unfold State.dropTranslations
  extract_lets goes gone left served tidy
  split
  · exact OptAll.none
  · refine OptAll.map (P := EntryInv) (foldl_inv (OptAll.some h) (fun s2 _ hs2 => hs2.bind
        (fun s1 hs1 => hs1.performUpTo))) ?_
    intro _ hs1
    extract_lets s2 held drops
    have hs2 : EntryInv s2 := by
      unfold s2
      refine EntryInv.intro hs1.waves hs1.saved hs1.regions ?_ (hs1.dies.map (fun y hy => hy)) hs1.deliveries
      refine ListAll.map (P := SndAll Cluster.aligned) hs1.clusters ?_
      intro _ he
      refine SndAll.intro ?_
      extract_lets y
      exact he.snd
    exact foldl_inv hs2 (fun s3 _ hs3 => hs3.dropWhere)

theorem EntryInv.tlbinvLane {s : State} {c : Ctx} {lane : Nat} {all : Bool} (h : EntryInv s) :
    (s.tlbinvLane c lane all).aligned := by
  unfold State.tlbinvLane
  extract_lets r
  split
  · exact h
  · split
    · exact h
    · rename_i s4 heq2
      exact h.dropTranslations _ heq2

theorem EntryInv.execTlbinv {f : Frame} {all : Bool} {s : State} (h : EntryInv s) :
    OutAll (execTlbinv f all s) := by
  unfold Machine.execTlbinv
  exact h.perLane (fun _ s2 n _ hs2 => hs2.tlbinvLane)

/-! ### Every instruction and event -/

theorem EntryInv.exec {i : Instr} {s : State} (h : EntryInv s) :
    OutAll (exec i s) := by
  unfold Machine.exec
  split
  · exact h.execIadd
  · exact h.execIsub
  · exact h.execIaddc
  · exact h.execIsubb
  · exact h.execIadd64
  · exact h.execImul
  · exact h.execImulhi
  · exact h.execImad
  · exact h.execImadw
  · exact h.execIdiv
  · exact h.execIrem
  · exact h.execImin
  · exact h.execImax
  · exact h.execIabs
  · exact h.execIneg
  · exact h.execAnd
  · exact h.execOr
  · exact h.execXor
  · exact h.execAndn
  · exact h.execNot
  · exact h.execShl
  · exact h.execShr
  · exact h.execSar
  · exact h.execRol
  · exact h.execShl64
  · exact h.execShr64
  · exact h.execPopc
  · exact h.execClz
  · exact h.execCtz
  · exact h.execBrev
  · exact h.execBfe
  · exact h.execBfi
  · exact h.execPerm
  · exact h.execSel
  · exact h.execIcmp
  · exact h.execMov
  · exact h.execMovi
  · exact h.execLea
  · exact h.execDp4
  · exact h.execShfl
  · exact h.execVote
  · exact h.execRedux
  · exact h.execFadd
  · exact h.execFsub
  · exact h.execFmul
  · exact h.execFfma
  · exact h.execFmin
  · exact h.execFmax
  · exact h.execFcmp
  · exact h.execFclass
  · exact h.execFrnd
  · exact h.execFldexp
  · exact h.execFrcp
  · exact h.execFrsq
  · exact h.execFsqrt
  · exact h.execFdiv
  · exact h.execFexp2
  · exact h.execFlog2
  · exact h.execFsin
  · exact h.execFcos
  · exact h.execHadd2
  · exact h.execHmul2
  · exact h.execHfma2
  · exact h.execHdot2
  · exact h.execCvt
  · exact h.execQpack
  · exact h.execQunpk
  · exact h.execBra
  · exact h.execBrx
  · exact h.execCall
  · exact h.execCallx
  · exact h.execRet
  · exact h.execKset
  · exact h.execKclr
  · exact h.execJoin
  · exact h.execWsync
  · exact h.execExit
  · exact h.execYield
  · exact h.execNop
  · exact h.execSpawn
  · exact h.execLd
  · exact h.execLdS
  · exact h.execLdC
  · exact h.execLdr
  · exact h.execSt
  · exact h.execStS
  · exact h.execStc
  · exact h.execPf
  · exact h.execAtom
  · exact h.execAtomS
  · exact h.execCas
  · exact h.execRed
  · exact h.execMred
  · exact h.execMcas
  · exact h.execMscale
  · exact h.execBarInit
  · exact h.execArrive
  · exact h.execExpect
  · exact h.execWait
  · exact h.execCwatch
  · exact h.execFence
  · exact h.execCopy
  · exact h.execHalo
  · exact h.execGqEnq
  · exact h.execGqResv
  · exact h.execGqPub
  · exact h.execGqCfgConfigure
  · exact h.execGqCfgDisable
  · exact h.execGqCfgRelease
  · exact h.execGqCfgQuery
  · exact h.execRlaunch
  · exact h.execRlaunchPrism
  · exact h.execRlaunchSusp
  · exact h.execRlaunchRes
  · exact h.execRlaunchKill
  · exact h.execRlaunchRepl
  · exact h.execWdq
  · exact h.execSweep
  · exact h.execCtxSet
  · exact h.execCtxWake
  · exact h.execColl
  · exact h.execMma
  · exact h.execMmaZ
  · exact h.execTfetch
  · exact h.execTrel
  · exact h.execDrain
  · exact h.execAzero
  · exact h.execDqPut
  · exact h.execGqTake
  · exact h.execMwait
  · exact h.execCommit
  · exact h.execSquash
  · exact h.execLdBase
  · exact h.execStBase
  · exact h.execPresent
  · exact h.execTex
  · exact h.execTexF
  · exact h.execTexG
  · exact h.execTexQ
  · exact h.execTrace
  · exact h.execBinPut
  · exact h.execBinPutEnd
  · exact h.execPxlock
  · exact h.execPxunlock
  · exact h.execCsrr
  · exact h.execCsrw
  · exact h.execSpillbWrite
  · exact h.execSpilllWrite
  · exact h.execFairtWrite
  · exact h.execMestatHaltResume
  · exact h.execMestatDiscard
  · exact h.execTrap
  · exact h.execBkpt
  · exact h.execEret
  · exact h.execIcinv
  · exact h.execTlbinv
  · exact h.execFairnessExpiry
  · exact h.execLlResultReturn
  · exact h.execStorePerform
  · exact h.execHomeAtomicPerform
  · exact h.execServiceWaveRequest
  · exact h.execCwatchArrival
  · exact h.execQueueAccessComplete
  · exact h.execFeedElementWrite
  · exact h.execCopyTransfer
  · exact h.execHaloStart
  · exact h.execReservedOpcode
  · exact h.execCoreGate
  · exact h.execCoreWake
  · exact h.execPageWalk
  · exact h.execGatherFiring
  · exact h.execReservationVoid
  · exact h.execGatherFaultRetry
  · exact h.execDeliveredWavePlace
  · exact h.execWdqServe
  · exact h.execSweepStart
  · exact h.execSweepChunk
  · exact h.execChunkStepComplete
  · exact h.execCollExecute
  · exact h.execTfetchRowFetch
  · exact h.execEngineMmaExecute
  · exact h.execEngineDrainExecute
  · exact h.execEngineAzeroExecute
  · exact h.execCommitPublish
  · exact h.execSetOpen
  · exact h.execPrefixEnd
  · exact h.execRetireWalk
  · exact h.execPresentFlip
  · exact h.execPresentGuard
  · exact h.execPresentReadoutDone
  · exact h.execFlushComplete
  · exact h.execHomeMove
  · exact h.execHomeForward
  · exact h.execDependenceMet
  · exact h.execWorkgroupPlace
  · exact h.execPlacementStarvationHold
  · exact h.execPreemptDecision
  · exact h.execWorkgroupSave
  · exact h.execWorkgroupRestore
  · exact h.execMigrationForward
  · exact h.execRegionEnd
  · exact h.execTimeQuotaCharge
  · exact h.execSegmentTest
  · exact h.execPowerCapStep
  · exact h.execFwLaunch
  · exact h.execFwPrismLaunch
  · exact h.execFwSuspend
  · exact h.execFwResume
  · exact h.execFwKill
  · exact h.execFwReplay
  · exact h.execFwFreeFrames
  · exact h.execFwSetQuota
  · exact h.execFwSetPresent
  · exact h.execFwHomeMove
  · exact h.execFwSetL2Mode
  · exact h.execFwSetPower
  · exact h.execFwAttest
  · exact h.execFwWriteSlot
  · exact h.execFwConfirm
  · exact h.execFwRollBack
  · exact h.execFwReadCounters
  · exact h.execFwFreeze
  · exact h.execFwInvalidCode
  · exact h.execFreezePin
  · exact h.execDeviceReset
  · exact h.execLifetimeCounterFlush
  · exact h.execHostRequest
  · exact h.execPeerRequest
  · exact h.execAtsTranslationResponse
  · exact h.execAtsInvalidateRequest
  · exact h.execLinkRetrain
  · exact h.execLinkDown
  · exact h.execPowerLoss

/-! ### A step -/

theorem EntryInv.carryOut {s : State} {w : Nat} {y : Fetched} (h : EntryInv s) (hy : y.aligned) :
    OutAll (Machine.carryOut s w y) := by
  unfold Machine.carryOut
  split
  · exact EntryInv.exec hy
  · exact EntryInv.skipFiller hy
  · exact EntryInv.exec hy
  · exact EntryInv.faultPath hy
  · exact EntryInv.quotaPath hy
  · exact hy
  · exact h

theorem EntryInv.issueNext {s : State} (h : EntryInv s) :
    OutAll (issueNext s) := by
  unfold Machine.issueNext
  exact h.carryOut h.fetch

theorem EntryInv.step {s : State} (h : EntryInv s) :
    OutAll (step s) := by
  unfold Machine.step
  split
  · split
    · exact EntryInv.exec h
    · exact h
    · exact h
  · extract_lets s1
    have hs1 : EntryInv s1 := h.tick
    split
    · exact ite_inv (EntryInv.exec hs1) hs1
    · exact EntryInv.issueNext hs1
    · exact hs1.issueNext

/-- Settles O3: each instruction and each event keeps every address at which a thread goes on or may be placed aligned
(`EntryInv.step`), and the PCs of the resident threads are among these. -/
theorem stepKeepsPcs : Obligations.StepKeepsPcs := by
  unfold Obligations.StepKeepsPcs
  intro s t _ hentry hstep
  have hout : OutAll (step s) := hentry.step
  rw [hstep] at hout
  have ht : EntryInv t := hout
  exact ⟨fun _ he _ hx => Thread.aligned.pc (ht.waves _ he _ hx), ht⟩

end Sys2Proof
end

section
/-! PROOFS. The encoding as a whole (O4): one constructor of `Instr` after another. -/

namespace Sys2Proof

/-- Settles O4: each coded instruction is read back by its own law, and an event has no bytes. -/
theorem decodeEncode : Obligations.DecodeEncode := by
  unfold Obligations.DecodeEncode
  intro i
  cases i with
  | iadd => apply Laws.Encoding.iadd
  | isub => apply Laws.Encoding.isub
  | iaddc => apply Laws.Encoding.iaddc
  | isubb => apply Laws.Encoding.isubb
  | iadd64 => apply Laws.Encoding.iadd64
  | imul => apply Laws.Encoding.imul
  | imulhi => apply Laws.Encoding.imulhi
  | imad => apply Laws.Encoding.imad
  | imadw => apply Laws.Encoding.imadw
  | idiv => apply Laws.Encoding.idiv
  | irem => apply Laws.Encoding.irem
  | imin => apply Laws.Encoding.imin
  | imax => apply Laws.Encoding.imax
  | iabs => apply Laws.Encoding.iabs
  | ineg => apply Laws.Encoding.ineg
  | and => apply Laws.Encoding.and
  | or => apply Laws.Encoding.or
  | xor => apply Laws.Encoding.xor
  | andn => apply Laws.Encoding.andn
  | not => apply Laws.Encoding.not
  | shl => apply Laws.Encoding.shl
  | shr => apply Laws.Encoding.shr
  | sar => apply Laws.Encoding.sar
  | rol => apply Laws.Encoding.rol
  | shl64 => apply Laws.Encoding.shl64
  | shr64 => apply Laws.Encoding.shr64
  | popc => apply Laws.Encoding.popc
  | clz => apply Laws.Encoding.clz
  | ctz => apply Laws.Encoding.ctz
  | brev => apply Laws.Encoding.brev
  | bfe => apply Laws.Encoding.bfe
  | bfi => apply Laws.Encoding.bfi
  | perm => apply Laws.Encoding.perm
  | sel => apply Laws.Encoding.sel
  | icmp => apply Laws.Encoding.icmp
  | mov => apply Laws.Encoding.mov
  | movi => apply Laws.Encoding.movi
  | lea => apply Laws.Encoding.lea
  | dp4 => apply Laws.Encoding.dp4
  | shfl => apply Laws.Encoding.shfl
  | vote => apply Laws.Encoding.vote
  | redux => apply Laws.Encoding.redux
  | fadd => apply Laws.Encoding.fadd
  | fsub => apply Laws.Encoding.fsub
  | fmul => apply Laws.Encoding.fmul
  | ffma => apply Laws.Encoding.ffma
  | fmin => apply Laws.Encoding.fmin
  | fmax => apply Laws.Encoding.fmax
  | fcmp => apply Laws.Encoding.fcmp
  | fclass => apply Laws.Encoding.fclass
  | frnd => apply Laws.Encoding.frnd
  | fldexp => apply Laws.Encoding.fldexp
  | frcp => apply Laws.Encoding.frcp
  | frsq => apply Laws.Encoding.frsq
  | fsqrt => apply Laws.Encoding.fsqrt
  | fdiv => apply Laws.Encoding.fdiv
  | fexp2 => apply Laws.Encoding.fexp2
  | flog2 => apply Laws.Encoding.flog2
  | fsin => apply Laws.Encoding.fsin
  | fcos => apply Laws.Encoding.fcos
  | hadd2 => apply Laws.Encoding.hadd2
  | hmul2 => apply Laws.Encoding.hmul2
  | hfma2 => apply Laws.Encoding.hfma2
  | hdot2 => apply Laws.Encoding.hdot2
  | cvt => apply Laws.Encoding.cvt
  | qpack => apply Laws.Encoding.qpack
  | qunpk => apply Laws.Encoding.qunpk
  | bra => apply Laws.Encoding.bra
  | brx => apply Laws.Encoding.brx
  | call => apply Laws.Encoding.call
  | callx => apply Laws.Encoding.callx
  | ret => apply Laws.Encoding.ret
  | kset => apply Laws.Encoding.kset
  | kclr => apply Laws.Encoding.kclr
  | join => apply Laws.Encoding.join
  | wsync => apply Laws.Encoding.wsync
  | exit => apply Laws.Encoding.exit
  | yield => apply Laws.Encoding.yield
  | nop => apply Laws.Encoding.nop
  | spawn => apply Laws.Encoding.spawn
  | ld => apply Laws.Encoding.ld
  | ldS => apply Laws.Encoding.ldS
  | ldC => apply Laws.Encoding.ldC
  | ldr => apply Laws.Encoding.ldr
  | st => apply Laws.Encoding.st
  | stS => apply Laws.Encoding.stS
  | stc => apply Laws.Encoding.stc
  | pf => apply Laws.Encoding.pf
  | atom => apply Laws.Encoding.atom
  | atomS => apply Laws.Encoding.atomS
  | cas => apply Laws.Encoding.cas
  | red => apply Laws.Encoding.red
  | mred => apply Laws.Encoding.mred
  | mcas => apply Laws.Encoding.mcas
  | mscale => apply Laws.Encoding.mscale
  | barInit => apply Laws.Encoding.barInit
  | arrive => apply Laws.Encoding.arrive
  | expect => apply Laws.Encoding.expect
  | wait => apply Laws.Encoding.wait
  | cwatch => apply Laws.Encoding.cwatch
  | fence => apply Laws.Encoding.fence
  | copy => apply Laws.Encoding.copy
  | halo => apply Laws.Encoding.halo
  | gqEnq => apply Laws.Encoding.gqEnq
  | gqResv => apply Laws.Encoding.gqResv
  | gqPub => apply Laws.Encoding.gqPub
  | gqCfgConfigure => apply Laws.Encoding.gqCfgConfigure
  | gqCfgDisable => apply Laws.Encoding.gqCfgDisable
  | gqCfgRelease => apply Laws.Encoding.gqCfgRelease
  | gqCfgQuery => apply Laws.Encoding.gqCfgQuery
  | rlaunch => apply Laws.Encoding.rlaunch
  | rlaunchPrism => apply Laws.Encoding.rlaunchPrism
  | rlaunchSusp => apply Laws.Encoding.rlaunchSusp
  | rlaunchRes => apply Laws.Encoding.rlaunchRes
  | rlaunchKill => apply Laws.Encoding.rlaunchKill
  | rlaunchRepl => apply Laws.Encoding.rlaunchRepl
  | wdq => apply Laws.Encoding.wdq
  | sweep => apply Laws.Encoding.sweep
  | ctxSet => apply Laws.Encoding.ctxSet
  | ctxWake => apply Laws.Encoding.ctxWake
  | coll => apply Laws.Encoding.coll
  | mma => apply Laws.Encoding.mma
  | mmaZ => apply Laws.Encoding.mmaZ
  | tfetch => apply Laws.Encoding.tfetch
  | trel => apply Laws.Encoding.trel
  | drain => apply Laws.Encoding.drain
  | azero => apply Laws.Encoding.azero
  | dqPut => apply Laws.Encoding.dqPut
  | gqTake => apply Laws.Encoding.gqTake
  | mwait => apply Laws.Encoding.mwait
  | commit => apply Laws.Encoding.commit
  | squash => apply Laws.Encoding.squash
  | ldBase => apply Laws.Encoding.ldBase
  | stBase => apply Laws.Encoding.stBase
  | present => apply Laws.Encoding.present
  | tex => apply Laws.Encoding.tex
  | texF => apply Laws.Encoding.texF
  | texG => apply Laws.Encoding.texG
  | texQ => apply Laws.Encoding.texQ
  | trace => apply Laws.Encoding.trace
  | binPut => apply Laws.Encoding.binPut
  | binPutEnd => apply Laws.Encoding.binPutEnd
  | pxlock => apply Laws.Encoding.pxlock
  | pxunlock => apply Laws.Encoding.pxunlock
  | csrr => apply Laws.Encoding.csrr
  | csrw => apply Laws.Encoding.csrw
  | spillbWrite => apply Laws.Encoding.spillbWrite
  | spilllWrite => apply Laws.Encoding.spilllWrite
  | fairtWrite => apply Laws.Encoding.fairtWrite
  | mestatHaltResume => apply Laws.Encoding.mestatHaltResume
  | mestatDiscard => apply Laws.Encoding.mestatDiscard
  | trap => apply Laws.Encoding.trap
  | bkpt => apply Laws.Encoding.bkpt
  | eret => apply Laws.Encoding.eret
  | icinv => apply Laws.Encoding.icinv
  | tlbinv => apply Laws.Encoding.tlbinv
  | fairnessExpiry => apply Laws.Encoding.fairnessExpiry
  | llResultReturn => apply Laws.Encoding.llResultReturn
  | storePerform => apply Laws.Encoding.storePerform
  | homeAtomicPerform => apply Laws.Encoding.homeAtomicPerform
  | serviceWaveRequest => apply Laws.Encoding.serviceWaveRequest
  | cwatchArrival => apply Laws.Encoding.cwatchArrival
  | queueAccessComplete => apply Laws.Encoding.queueAccessComplete
  | feedElementWrite => apply Laws.Encoding.feedElementWrite
  | copyTransfer => apply Laws.Encoding.copyTransfer
  | haloStart => apply Laws.Encoding.haloStart
  | reservedOpcode => apply Laws.Encoding.reservedOpcode
  | coreGate => apply Laws.Encoding.coreGate
  | coreWake => apply Laws.Encoding.coreWake
  | pageWalk => apply Laws.Encoding.pageWalk
  | gatherFiring => apply Laws.Encoding.gatherFiring
  | reservationVoid => apply Laws.Encoding.reservationVoid
  | gatherFaultRetry => apply Laws.Encoding.gatherFaultRetry
  | deliveredWavePlace => apply Laws.Encoding.deliveredWavePlace
  | wdqServe => apply Laws.Encoding.wdqServe
  | sweepStart => apply Laws.Encoding.sweepStart
  | sweepChunk => apply Laws.Encoding.sweepChunk
  | chunkStepComplete => apply Laws.Encoding.chunkStepComplete
  | collExecute => apply Laws.Encoding.collExecute
  | tfetchRowFetch => apply Laws.Encoding.tfetchRowFetch
  | engineMmaExecute => apply Laws.Encoding.engineMmaExecute
  | engineDrainExecute => apply Laws.Encoding.engineDrainExecute
  | engineAzeroExecute => apply Laws.Encoding.engineAzeroExecute
  | commitPublish => apply Laws.Encoding.commitPublish
  | setOpen => apply Laws.Encoding.setOpen
  | prefixEnd => apply Laws.Encoding.prefixEnd
  | retireWalk => apply Laws.Encoding.retireWalk
  | presentFlip => apply Laws.Encoding.presentFlip
  | presentGuard => apply Laws.Encoding.presentGuard
  | presentReadoutDone => apply Laws.Encoding.presentReadoutDone
  | flushComplete => apply Laws.Encoding.flushComplete
  | homeMove => apply Laws.Encoding.homeMove
  | homeForward => apply Laws.Encoding.homeForward
  | dependenceMet => apply Laws.Encoding.dependenceMet
  | workgroupPlace => apply Laws.Encoding.workgroupPlace
  | placementStarvationHold => apply Laws.Encoding.placementStarvationHold
  | preemptDecision => apply Laws.Encoding.preemptDecision
  | workgroupSave => apply Laws.Encoding.workgroupSave
  | workgroupRestore => apply Laws.Encoding.workgroupRestore
  | migrationForward => apply Laws.Encoding.migrationForward
  | regionEnd => apply Laws.Encoding.regionEnd
  | timeQuotaCharge => apply Laws.Encoding.timeQuotaCharge
  | segmentTest => apply Laws.Encoding.segmentTest
  | powerCapStep => apply Laws.Encoding.powerCapStep
  | fwLaunch => apply Laws.Encoding.fwLaunch
  | fwPrismLaunch => apply Laws.Encoding.fwPrismLaunch
  | fwSuspend => apply Laws.Encoding.fwSuspend
  | fwResume => apply Laws.Encoding.fwResume
  | fwKill => apply Laws.Encoding.fwKill
  | fwReplay => apply Laws.Encoding.fwReplay
  | fwFreeFrames => apply Laws.Encoding.fwFreeFrames
  | fwSetQuota => apply Laws.Encoding.fwSetQuota
  | fwSetPresent => apply Laws.Encoding.fwSetPresent
  | fwHomeMove => apply Laws.Encoding.fwHomeMove
  | fwSetL2Mode => apply Laws.Encoding.fwSetL2Mode
  | fwSetPower => apply Laws.Encoding.fwSetPower
  | fwAttest => apply Laws.Encoding.fwAttest
  | fwWriteSlot => apply Laws.Encoding.fwWriteSlot
  | fwConfirm => apply Laws.Encoding.fwConfirm
  | fwRollBack => apply Laws.Encoding.fwRollBack
  | fwReadCounters => apply Laws.Encoding.fwReadCounters
  | fwFreeze => apply Laws.Encoding.fwFreeze
  | fwInvalidCode => apply Laws.Encoding.fwInvalidCode
  | freezePin => apply Laws.Encoding.freezePin
  | deviceReset => apply Laws.Encoding.deviceReset
  | lifetimeCounterFlush => apply Laws.Encoding.lifetimeCounterFlush
  | hostRequest => apply Laws.Encoding.hostRequest
  | peerRequest => apply Laws.Encoding.peerRequest
  | atsTranslationResponse => apply Laws.Encoding.atsTranslationResponse
  | atsInvalidateRequest => apply Laws.Encoding.atsInvalidateRequest
  | linkRetrain => apply Laws.Encoding.linkRetrain
  | linkDown => apply Laws.Encoding.linkDown
  | powerLoss => apply Laws.Encoding.powerLoss

end Sys2Proof
end
section
/-! PROOFS. The floating instructions of the LL classes (R34, R53, R123): what each lane computes, and that it waits to be written. -/

namespace Sys2Proof.Machine

open Sys2Proof

/-- The context of an instruction whose code is LL holds an LL code. -/
theorem isLL_of_begins {i : Instr} {s s1 : State} {c : Ctx} (h : Begins i s c s1)
    (hl : ∀ u e, descOf u i = some e → isLL e.op e.minor = true) : isLL c.e.op c.e.minor = true := by
  obtain ⟨e, he, hce, -, -⟩ := State.startOf_go h
  exact hce ▸ hl _ e he

/-- An LL instruction that computes a value in each lane leaves the values waiting. -/
theorem alu_pended {i : Instr} {s s1 : State} {c : Ctx} {words : Nat} {g : Ctx → Nat → Nat} (h : Begins i s c s1)
    (hl : ∀ u e, descOf u i = some e → isLL e.op e.minor = true) : alu i s words g = .next (s1.pended c words (g c)) :=
  alu_go_ll h (isLL_of_begins h hl)

/-- The codes of R123 are LL. -/
theorem isLL_float : ∀ op ∈ [0x24, 0x25], ∀ minor < 4, isLL op minor = true := by decide

/-- An instruction of R123 has an LL code. -/
theorem isLL_descFp1 {f : Frame} {op minor : Nat} {mod : BitVec 7} {e : Desc} (hop : op ∈ [0x24, 0x25]) (hm : minor < 4)
    (he : some (descFp1 f op minor mod) = some e) : isLL e.op e.minor = true :=
  Option.some.inj he ▸ isLL_float op hop minor hm

/-- Settles O21: each of the eight is an LL instruction that computes one value a lane. -/
theorem floatFunctions : Obligations.FloatFunctions := by
  unfold Obligations.FloatFunctions
  intro f ty rnd sat ftz s s1 c X res fn
  refine ⟨fun h => ?rcp, fun h => ?rsq, fun h => ?sqrt, fun h => ?div, fun h => ?exp2, fun h => ?log2, fun h => ?sin,
    fun h => ?cos⟩
  case div =>
    refine alu_pended h fun u e he => ?_
    cases he
    exact isLL_float 0x24 (by decide) 3 (by decide)
  all_goals exact alu_pended h fun u e he => isLL_descFp1 (by decide) (by decide) he

end Sys2Proof.Machine
end
section
/-! PROOFS. The events that complete what a thread has issued (R34, R155, R246, R247), and which of a thread's accesses one access
waits for (R298, R300, R302, R304). -/

namespace Sys2Proof.Machine

open Sys2Proof

/-! ### A result returned -/

theorem State.unitAgain_none {s : State} {w lane : Nat} {a : Acc} (h : a.redo = none) : s.unitAgain w lane a = s := by
  unfold State.unitAgain
  rw [h]

theorem State.strike_false (s : State) (w : Nat) (a : Acc) : s.strike w a false = s := rfl

/-- A result that goes to no queue register is written where its lane writes it (R17), and is pending no more. -/
theorem State.returnOne_value {s s1 : State} {w lane id : Nat} {b : Acc} {d : Dst} {v : List Word}
    (hup : s.performUpTo w lane id = some s1) (hb : s1.accOf w lane id = some b) (hd : b.dst = some d)
    (hv : b.val = some v) (hq : b.queue? = none) :
    s.returnOne w lane id = some (if d.wr then (s1.updThread w lane fun t => t.setAcc id fun _ => none).putDst w lane d.op v
      else s1.updThread w lane fun t => t.setAcc id fun _ => none) := by
  obtain ⟨op, words, wr⟩ := d
  simp only [State.returnOne, hup, Option.bind_some, hb, hd, hv]
  cases op with
  | q n => simp [Acc.queue?, hd] at hq
  | _ => rfl

/-- A pending result that goes to no queue register is returned alone. -/
theorem State.returnAcc_value {s : State} {w lane id : Nat} {a : Acc} (hw : (s.waves.find w).isSome = true)
    (ha : s.accOf w lane id = some a) (hq : a.queue? = none) : s.returnAcc w lane id = s.returnOne w lane id := by
  obtain ⟨x, hx⟩ := Option.isSome_iff_exists.mp hw
  simp only [State.returnAcc, hx, ha, hq]

theorem execLlResultReturn_of_returnAcc {s t : State} {w lane id : Nat} {a : Acc} (ha : s.accOf w lane id = some a)
    (hdst : a.dst.isSome = true) (hredo : a.redo = none) (h : s.returnAcc w lane id = some t) :
    execLlResultReturn w lane id false s = .next t := by
  have hdst' : a.dst.isNone = false := by simpa using hdst
  simp only [execLlResultReturn, ha, hdst', Bool.false_eq_true, if_false, State.strike_false, State.unitAgain_none hredo, h]

/-! ### A store or a fence performed -/

/-- Without an error the event performs the next part of the access. -/
theorem execStorePerform_of_storePart {s t : State} {w lane id : Nat} {a : Acc} (ha : s.accOf w lane id = some a)
    (hfeed : a.feed = none) (hkind : a.kind = .fence ∨ ∃ bs, a.kind = .store bs) (h : s.storePart w lane a = some t) :
    execStorePerform w lane id false s = .next t := by
  rcases hkind with hk | ⟨bs, hk⟩ <;>
    simp only [execStorePerform, ha, hfeed, Option.isSome_none, Bool.false_eq_true, if_false, hk, h]

/-- The last grain of a store is the store. -/
theorem State.storePart_last {s : State} {w lane : Nat} {a : Acc} {bs : List Byte} (hk : a.kind = .store bs)
    (hs : (a.splitGrain bs).2 = none) : s.storePart w lane a = s.performUpTo w lane a.id := by
  obtain ⟨b, hb⟩ : ∃ b, a.splitGrain bs = (b, none) := ⟨_, Prod.ext rfl hs⟩
  simp only [State.storePart, hk, hb]

theorem State.storePart_fence {s : State} {w lane : Nat} {a : Acc} (hk : a.kind = .fence) :
    s.storePart w lane a = s.performUpTo w lane a.id := by
  simp only [State.storePart, hk]

/-- Nothing is left to perform before a plain access that waits for no other. -/
theorem State.clearFor_plain {s : State} {w lane : Nat} {a : Acc} (hord : a.ord = .plain)
    (hc : s.chainIds w lane a.id = [(w, lane, a.id)]) : s.clearFor w lane a = some s := by
  simp [State.clearFor, hc, hord]

/-- The first grain of a plain store that waits for nothing is performed, and the rest of the store waits on (R297). -/
theorem State.storePart_grain {s : State} {w lane : Nat} {a b rest : Acc} {bs : List Byte} {p : Perf}
    (ha : s.accOf w lane a.id = some a) (hk : a.kind = .store bs) (hord : a.ord = .plain)
    (hs : a.splitGrain bs = (b, some rest)) (hc : s.chainIds w lane a.id = [(w, lane, a.id)])
    (hp : s.perform w lane b = some p) (hfull : p.full = none) :
    s.storePart w lane a = some (State.passOver s
      (p.s.updThread w lane fun t => (t.setAcc a.id fun _ => some rest).markDue a) (.thread w lane) b) := by
  simp only [State.storePart, hk, hs, State.clearFor_plain hord hc, Option.bind_some, ha, Option.isNone_some,
    Bool.false_eq_true, if_false, State.storeGrain, hp, Option.map_some, hfull]

/-! ### A read-modify-write performed -/

theorem execHomeAtomicPerform_of_performUpTo {s t : State} {w lane id : Nat} {a : Acc} (ha : s.accOf w lane id = some a)
    (hk : a.kind.isRmw = true) (hsvc : (s.cluster (clusterOfWave w)).svc.contains ⟨w, lane, id⟩ = false)
    (h : s.performUpTo w lane id = some t) : execHomeAtomicPerform w lane id false s = .next t := by
  simp only [execHomeAtomicPerform, ha, hk, hsvc, Bool.not_true, Bool.or_self, Bool.false_eq_true, if_false,
    State.strike_false, h]

section

variable {s s1 : State} {k : Nat} {q : SvcReq} {rest : List SvcReq} (hq : (s.cluster k).svc = q :: rest)
  (hs : s.serveOne k q = some s1)
include hq hs

/-- A request whose access leaves no result is done once it is performed. -/
theorem execServiceWaveRequest_gone (hb : s1.accOf q.wave q.lane q.acc = none) :
    execServiceWaveRequest k s = .next s1 := by
  simp only [execServiceWaveRequest, hq, hs, hb]

/-- The result of a request is returned. -/
theorem execServiceWaveRequest_result {s2 : State} {b : Acc} (hb : s1.accOf q.wave q.lane q.acc = some b)
    (hr : s1.returnOne q.wave q.lane q.acc = some s2) : execServiceWaveRequest k s = .next s2 := by
  simp only [execServiceWaveRequest, hq, hs, hb, hr]

end

/-! ### An access that waits for no other -/

/-- An access that waits for no other, and is no request of a service wave, is performed alone. -/
theorem State.performUpTo_alone {s : State} {w lane id : Nat} {a : Acc} (ha : s.accOf w lane id = some a)
    (hc : s.chainIds w lane id = [(w, lane, id)])
    (hsvc : (s.cluster (clusterOfWave w)).svc.contains ⟨w, lane, id⟩ = false) :
    s.performUpTo w lane id = s.performOne w lane a := by
  simp only [State.performUpTo, hc, List.foldl_cons, List.foldl_nil, Option.bind_some, State.performElem, hsvc,
    Bool.false_eq_true, if_false, State.performList, ha, Option.bind_fun_some]

/-! ### Which accesses one waits for -/

/-- The accesses needed are in front of those they are needed for. -/
theorem State.needed_append (s : State) (l need : List Pend) : ∃ front, s.needed l need = front ++ need := by
  induction l generalizing need with
  | nil => exact ⟨[], rfl⟩
  | cons e l ih =>
    unfold State.needed
    obtain ⟨front, hf⟩ := ih (if need.any fun f => s.before e f then e :: need else need)
    split at hf
    · exact ⟨front ++ [e], by simp [*]⟩
    · exact ⟨front, by simp [*]⟩

/-- An access of the list that must be performed before one that is needed is needed. -/
theorem State.mem_needed {s : State} {e f : Pend} {l need : List Pend} (he : e ∈ l) (hf : f ∈ need)
    (hb : s.before e f = true) : e ∈ s.needed l need := by
  induction l generalizing need with
  | nil => cases he
  | cons g l ih =>
    unfold State.needed
    rcases List.mem_cons.mp he with rfl | he
    · have hany : (need.any fun f => s.before e f) = true := List.any_eq_true.mpr ⟨f, hf, hb⟩
      obtain ⟨front, hfront⟩ := s.needed_append l (e :: need)
      rw [if_pos hany, hfront]
      simp
    · refine ih he ?_
      split
      · exact List.mem_cons_of_mem _ hf
      · exact hf

section

variable {s : State} {w lane : Nat} {t : Thread} {a : Acc} (ht : s.thread? w lane = some t) (ha : a ∈ t.accs)
  (huniq : ∀ x ∈ t.accs, x.id = a.id → x = a)
include ht ha huniq

/-- The accesses that one of a thread waits for are found among those before it in the order of issue. -/
theorem State.chain_eq : ∃ x, s.waves.find w = some x ∧
    s.chain w lane a.id = s.needed ((s.pendingWith w x).filter fun f => f.precedes ⟨w, lane, a⟩).reverse [⟨w, lane, a⟩] := by
  unfold State.thread? at ht
  obtain ⟨x, hx, hxt⟩ := Option.bind_eq_some_iff.mp ht
  refine ⟨x, hx, ?_⟩
  have hmem : (⟨w, lane, a⟩ : Pend) ∈ s.pendingWith w x := State.mem_pendingWith.mpr ⟨t, hxt, ha⟩
  have hfind : (s.pendingWith w x).find? (fun e => e.w == w && e.lane == lane && e.acc.id == a.id) = some ⟨w, lane, a⟩ := by
    cases hf : (s.pendingWith w x).find? (fun e => e.w == w && e.lane == lane && e.acc.id == a.id) with
    | none => simpa using List.find?_eq_none.mp hf _ hmem
    | some e =>
      obtain ⟨v, n, b⟩ := e
      have hkey := List.find?_some hf
      simp only [Bool.and_eq_true, beq_iff_eq] at hkey
      obtain ⟨⟨rfl, rfl⟩, hid⟩ := hkey
      obtain ⟨u, hu, hb⟩ := State.mem_pendingWith.mp (List.mem_of_find?_eq_some hf)
      rw [Option.some.inj (hu.symm.trans hxt)] at hb
      rw [huniq b hb hid]
  simp only [State.chain, hx, hfind]

/-- The access itself is the last. -/
theorem State.chainIds_getLast? : (s.chainIds w lane a.id).getLast? = some (w, lane, a.id) := by
  obtain ⟨x, -, hc⟩ := State.chain_eq ht ha huniq
  obtain ⟨front, hf⟩ := s.needed_append ((s.pendingWith w x).filter fun f => f.precedes ⟨w, lane, a⟩).reverse [⟨w, lane, a⟩]
  simp [State.chainIds, hc, hf]

/-- An earlier access of the thread that must be performed before it is among them. -/
theorem State.mem_chainIds {e : Acc} (he : e ∈ t.accs) (hid : e.id < a.id)
    (hb : s.before ⟨w, lane, e⟩ ⟨w, lane, a⟩ = true) : (w, lane, e.id) ∈ s.chainIds w lane a.id := by
  obtain ⟨x, hx, hc⟩ := State.chain_eq ht ha huniq
  have hxt : x.threads[lane]? = some t := by
    unfold State.thread? at ht
    rwa [hx] at ht
  refine List.mem_map.mpr ⟨⟨w, lane, e⟩, ?_, rfl⟩
  rw [hc]
  refine State.mem_needed (List.mem_reverse.mpr (List.mem_filter.mpr ⟨State.mem_pendingWith.mpr ⟨t, hxt, he⟩, ?_⟩))
    List.mem_cons_self hb
  simp [Pend.precedes, hid]

end

/-! ### The order within a thread (R300, R302, R304) -/

theorem AccKind.reads_iff (k : AccKind) : k.reads = true ↔ (∃ wid r, k = .load wid r) ∨ k.isRmw = true := by
  cases k <;> simp [AccKind.reads, AccKind.isRmw]

theorem AccKind.writes_iff (k : AccKind) :
    k.writes = true ↔ (∃ bs, k = .store bs ∨ k = .stc bs) ∨ k.isRmw = true := by
  cases k <;> simp [AccKind.writes, AccKind.isRmw]

theorem AccKind.isConst_iff (k : AccKind) : k.isConst = true ↔ ∃ wid, k = .constant wid := by
  cases k <;> simp [AccKind.isConst]

theorem AccKind.touches_iff (k : AccKind) : k.touches = true ↔
    ((∃ wid r, k = .load wid r) ∨ k.isRmw = true) ∨ ((∃ bs, k = .store bs ∨ k = .stc bs) ∨ k.isRmw = true) ∨
      ∃ wid, k = .constant wid := by
  simp only [AccKind.touches, Bool.or_eq_true, k.reads_iff, k.writes_iff, k.isConst_iff, or_assoc]

theorem Acc.overlaps_iff (x y : Acc) : x.overlaps y = true ↔
    x.space = y.space ∧ ∃ p ∈ x.parts, ∃ q ∈ y.parts, p.key < q.key + q.size ∧ q.key < p.key + p.size := by
  simp [Acc.overlaps]

theorem Acc.isAcquire_iff (x : Acc) :
    x.isAcquire = true ↔ (x.ord = .acq ∨ x.ord = .ar) ∧ (x.kind.reads = true ∨ x.kind = .fence) := by
  simp [Acc.isAcquire, Ord.acquires]

theorem Acc.isRelease_iff (x : Acc) :
    x.isRelease = true ↔ (x.ord = .rel ∨ x.ord = .ar) ∧ (x.kind.writes = true ∨ x.kind = .fence) := by
  simp [Acc.isRelease, Ord.releases]

theorem Acc.mayLag_iff (x : Acc) :
    x.mayLag = true ↔ x.feed = none ∧ (x.ord = .plain ∨ x.ord = .rlx) ∧ ∃ bs, x.kind = .store bs := by
  unfold Acc.mayLag
  cases x.kind <;> simp [and_comm]

/-- An earlier access of a thread that R300 orders before another, but for what a release may be performed ahead of, is performed before
it. -/
theorem State.before_of_thread {s : State} {w lane : Nat} {x y : Acc} (hid : x.id < y.id)
    (h : s.orderedPlain w x y = true ∨ (y.isRelease = true ∧ x.kind.isConst = false ∧ ¬ (Config.late y.id = true ∧ x.mayLag = true))) :
    s.before ⟨w, lane, x⟩ ⟨w, lane, y⟩ = true := by
  have key : (s.orderedPlain w x y || (s.ordered w x y && !lags x y)) = true := by
    rcases h with h | ⟨hrel, hconst, hlag⟩
    · simp [h]
    · have : lags x y = false := by
        rw [Bool.eq_false_iff]
        intro hl
        simp only [lags, Bool.and_eq_true] at hl
        exact hlag ⟨hl.2, hl.1.1⟩
      simp [State.ordered, hrel, hconst, this]
  simp [State.before, hid, key]

/-- Settles O36: each event is run on the access that it names; what an access waits for is read off the list in the order of issue. -/
theorem issuedAccessesComplete : Obligations.IssuedAccessesComplete := by
  unfold Obligations.IssuedAccessesComplete
  intro s s1 s2 w lane id k a b
  refine ⟨?result, ?lastGrain, ?grain, ?fence, ?rmw, ?service, fun ha hc hsvc => State.performUpTo_alone ha hc hsvc, rfl, ?order⟩
  case result =>
    intro d v ha hdst hqueue hredo hw hup hb hd hv hbq
    exact execLlResultReturn_of_returnAcc ha hdst hredo
      ((State.returnAcc_value hw ha hqueue).trans (State.returnOne_value hup hb hd hv hbq))
  case lastGrain =>
    rintro bs ha rfl hfeed hk hs hup
    exact execStorePerform_of_storePart ha hfeed (.inr ⟨bs, hk⟩) ((State.storePart_last hk hs).trans hup)
  case grain =>
    rintro bs rest p ha rfl hfeed hk hord hs hc hp hfull
    exact execStorePerform_of_storePart ha hfeed (.inr ⟨bs, hk⟩) (State.storePart_grain ha hk hord hs hc hp hfull)
  case fence =>
    rintro ha rfl hfeed hk hup
    exact execStorePerform_of_storePart ha hfeed (.inl hk) ((State.storePart_fence hk).trans hup)
  case rmw =>
    exact fun ha hk hsvc hup => execHomeAtomicPerform_of_performUpTo ha hk hsvc hup
  case service =>
    exact fun q rest hq hs => ⟨execServiceWaveRequest_gone hq hs, execServiceWaveRequest_result hq hs⟩
  case order =>
    rintro t e ht ha rfl huniq
    refine ⟨State.chainIds_getLast? ht ha huniq, ?_⟩
    intro reads writes const touches late he hid h
    refine State.mem_chainIds ht ha huniq he hid (State.before_of_thread hid ?_)
    rcases h with ⟨hte, hta, hspace, hparts⟩ | ⟨hord, hre⟩ | ⟨hord, hwr, hconst, hlate⟩ | ⟨hf, hre⟩ | ⟨hf, hord, hwr⟩
    · have hb : s.orderedBytes w e a = true := by
        simp [State.orderedBytes, (e.overlaps_iff a).mpr ⟨hspace, hparts⟩, e.kind.touches_iff.mpr hte, a.kind.touches_iff.mpr hta]
      simp [State.orderedPlain, hb]
    · have hacq : e.isAcquire = true := e.isAcquire_iff.mpr ⟨hord, hre.imp_left e.kind.reads_iff.mpr⟩
      simp [State.orderedPlain, hacq]
    · refine .inr ⟨a.isRelease_iff.mpr ⟨hord, hwr.imp_left a.kind.writes_iff.mpr⟩, ?_, fun hl => hlate ⟨hl.1, e.mayLag_iff.mp hl.2⟩⟩
      exact Bool.eq_false_iff.mpr fun hc => hconst (e.kind.isConst_iff.mp hc)
    · have hb : s.orderedBytes w e a = true := by simp [State.orderedBytes, hf, e.kind.reads_iff.mpr hre]
      simp [State.orderedPlain, hb]
    · have hb : s.orderedBytes w e a = true := by simp [State.orderedBytes, hf, hord, a.kind.writes_iff.mpr hwr]
      simp [State.orderedPlain, hb]

end Sys2Proof.Machine
end
section
/-! PROOFS. What encodings stand for, and the exact sum and order of extended reals (R45, R72, R117, R119). -/

namespace Sys2Proof.Machine
open Sys2Proof

-- The bits of an encoding.

theorem two_pow_width_pred (f : Fmt) : f.width - 1 = f.expo + f.frac := by
  cases f <;> rfl

theorem withSign_eq (f : Fmt) (neg : Bool) (p : Nat) :
    withSign f neg p = if neg then 2 ^ (f.expo + f.frac) + p else p := by
  rw [withSign, two_pow_width_pred]

/-- The magnitude of an encoding falls into its exponent and its fraction. -/
theorem mag_parts (f : Fmt) (b : Nat) :
    b % 2 ^ (f.width - 1) / 2 ^ f.frac = b / 2 ^ f.frac % 2 ^ f.expo ∧
      b % 2 ^ (f.width - 1) % 2 ^ f.frac = b % 2 ^ f.frac := by
  rw [two_pow_width_pred, Nat.add_comm, Nat.pow_add]
  exact ⟨Nat.mod_mul_right_div_self .., Nat.mod_mul_right_mod ..⟩

/-- `fval`, by the exponent and the fraction (R72, R75). -/
theorem fval_eq (b : Nat) (f : Fmt) (ftz : Bool) :
    fval b f ftz =
      let neg := b.testBit (f.expo + f.frac)
      let E := b / 2 ^ f.frac % 2 ^ f.expo
      let M := b % 2 ^ f.frac
      if E = 2 ^ f.expo - 1 ∧ (if f = .e4m3 then M = 7 else M ≠ 0) then .nan
      else if E = 2 ^ f.expo - 1 ∧ f ≠ .e4m3 then .inf neg
      else if E = 0 then
        if ftz && (f == .f32 || f == .f16 || f == .bf16) then .zero neg else .fin neg M f.qmin false
      else .fin neg (2 ^ f.frac + M) (f.qmin + E - 1) false := by
  obtain ⟨hE, hM⟩ := mag_parts f b
  have hmag := Nat.div_add_mod (b % 2 ^ (f.width - 1)) (2 ^ f.frac)
  have hM' : b % 2 ^ f.frac < 2 ^ f.frac := Nat.mod_lt _ (by positivity)
  have hE' : b / 2 ^ f.frac % 2 ^ f.expo < 2 ^ f.expo := Nat.mod_lt _ (by positivity)
  simp only [fval, two_pow_width_pred] at *
  rw [hE, hM] at hmag ⊢
  generalize b % 2 ^ (f.expo + f.frac) = mag at *
  generalize b / 2 ^ f.frac % 2 ^ f.expo = E at *
  generalize b % 2 ^ f.frac = M at *
  cases f <;> simp only [Fmt.frac, Fmt.expo, Fmt.infBits, Fmt.nanBits] at * <;> grind

theorem zpow_shift (n : ℚ) (k : Int) (c : Nat) : n * 2 ^ (k - c) = n / 2 ^ c * 2 ^ k := by
  rw [zpow_sub₀ two_ne_zero, zpow_natCast]; ring

/-- A finite encoding stands for the number that R72 gives it. -/
theorem fval_finite (b : Nat) (f : Fmt) (ftz : Bool)
    (h : b / 2 ^ f.frac % 2 ^ f.expo ≠ 2 ^ f.expo - 1 ∨ (f = .e4m3 ∧ b % 2 ^ f.frac ≠ 7)) :
    ∃ (m : Nat) (e : Int), fval b f ftz = .fin (b.testBit (f.expo + f.frac)) m e false ∧
      (m : ℚ) * 2 ^ e =
        if b / 2 ^ f.frac % 2 ^ f.expo = 0 then
          (if ftz && (f == .f32 || f == .f16 || f == .bf16) then 0
            else ((b % 2 ^ f.frac : Nat) : ℚ) / 2 ^ f.frac * 2 ^ (1 - f.bias))
        else (1 + ((b % 2 ^ f.frac : Nat) : ℚ) / 2 ^ f.frac) * 2 ^ (((b / 2 ^ f.frac % 2 ^ f.expo : Nat) : Int) - f.bias) := by
  rw [fval_eq]
  generalize b / 2 ^ f.frac % 2 ^ f.expo = E at *
  generalize b % 2 ^ f.frac = M at *
  simp only []
  rw [if_neg (by grind), if_neg (by grind)]
  split
  · split
    · exact ⟨0, 0, rfl, by simp⟩
    · exact ⟨M, _, rfl, zpow_shift ..⟩
  · refine ⟨_, _, rfl, ?_⟩
    rw [show f.qmin + (E : Int) - 1 = ((E : Int) - f.bias) - f.frac by unfold Fmt.qmin; ring, zpow_shift]
    push_cast
    field_simp

/-- `.ftz` reads a result's subnormal as the zero of its sign (R75). -/
theorem fres_ftz (x : XR) (f : Fmt) (mode : Rnd) (sat : Bool) :
    fres x f mode sat true =
      if (f = .f32 ∨ f = .f16 ∨ f = .bf16) ∧ roundF x f mode sat % 2 ^ (f.expo + f.frac) ≠ 0 ∧
          roundF x f mode sat % 2 ^ (f.expo + f.frac) < 2 ^ f.frac
      then roundF x f mode sat - roundF x f mode sat % 2 ^ (f.expo + f.frac) else roundF x f mode sat := by
  have hb := Nat.div_add_mod' (roundF x f mode sat) (2 ^ (f.expo + f.frac))
  simp only [fres, isSubnormal, two_pow_width_pred, Bool.true_and, Bool.and_eq_true, Bool.or_eq_true, beq_iff_eq, bne_iff_ne,
    decide_eq_true_eq, or_assoc]
  split
  · omega
  · rfl

end Sys2Proof.Machine
end
section
/-! PROOFS. The exact sum of two extended reals and their order (R90, R117, R119, R120), and the tree of a reduction (R89, R112). -/

namespace Sys2Proof.Machine
open Sys2Proof

/-- The number that ±m × 2^e stands for. -/
def signedVal (neg : Bool) (m : Nat) (e : Int) : ℚ := if neg then -((m : ℚ) * 2 ^ e) else m * 2 ^ e

@[simp] theorem signedVal_zero (neg : Bool) (e : Int) : signedVal neg 0 e = 0 := by
  cases neg <;> simp [signedVal]

/-- A numerator over a smaller power stands for the same number. -/
theorem scaled_mul_zpow (neg : Bool) (m : Nat) (e low : Int) (h : low ≤ e) :
    (XR.scaled neg m e low : ℚ) * 2 ^ low = signedVal neg m e := by
  have hpow : (2 : ℚ) ^ (e - low).toNat * 2 ^ low = 2 ^ e := by
    rw [← zpow_natCast, ← zpow_add₀ two_ne_zero, Int.toNat_of_nonneg (by omega)]
    ring_nf
  cases neg <;> simp [XR.scaled, signedVal, mul_assoc, hpow]

theorem scaled_lt_iff (a b : Bool) (m n : Nat) (e d : Int) :
    XR.scaled a m e (min e d) < XR.scaled b n d (min e d) ↔ signedVal a m e < signedVal b n d := by
  rw [← scaled_mul_zpow a m e (min e d) (min_le_left ..), ← scaled_mul_zpow b n d (min e d) (min_le_right ..),
    mul_lt_mul_iff_left₀ (by positivity), Int.cast_lt]

theorem XR.lt_fin (a b : Bool) (m n : Nat) (e d : Int) :
    (XR.fin a m e false).lt (.fin b n d false) = decide (signedVal a m e < signedVal b n d) := by
  simp only [XR.lt, scaled_lt_iff]

theorem XR.eq_fin (a b : Bool) (m n : Nat) (e d : Int) :
    (XR.fin a m e false).eq (.fin b n d false) = decide (signedVal a m e = signedVal b n d) := by
  have := lt_trichotomy (signedVal a m e) (signedVal b n d)
  simp only [XR.eq, XR.lt_fin]
  grind

/-- x lies below y: as a number, or as −0 below +0 (R119). -/
def Below (a b : Bool) (m n : Nat) (e d : Int) : Prop :=
  signedVal a m e < signedVal b n d ∨ (m = 0 ∧ n = 0 ∧ a = true ∧ b = false)

/-- Of two numbers the lower is the smaller and the other is the larger, in both orders of the arguments. -/
theorem minMax_of_below (a b : Bool) (m n : Nat) (e d : Int) (h : Below a b m n e d) :
    minMax false (.fin a m e false) (.fin b n d false) = .fin a m e false ∧
    minMax true (.fin a m e false) (.fin b n d false) = .fin b n d false ∧
    minMax false (.fin b n d false) (.fin a m e false) = .fin a m e false ∧
    minMax true (.fin b n d false) (.fin a m e false) = .fin b n d false := by
  simp only [minMax, XR.lt_fin, XR.eq_fin]
  obtain h | ⟨rfl, rfl, rfl, rfl⟩ := h
  · simp [h, h.not_gt, h.ne, h.ne']
  · simp

theorem minMax_nan (hi : Bool) (x : XR) : minMax hi .nan x = x ∧ minMax hi x .nan = x := by
  cases x <;> exact ⟨rfl, rfl⟩

/-- The exponent over which a sum of two terms is taken. -/
def sumLow (m n : Nat) (e d : Int) : Int :=
  let l := if m = 0 then 0 else min 0 e
  if n = 0 then l else min l d

theorem sumLow_le_left (m n : Nat) (e d : Int) (h : m ≠ 0) : sumLow m n e d ≤ e := by
  simp only [sumLow, h, if_false]; split <;> omega

theorem sumLow_le_right (m n : Nat) (e d : Int) (h : n ≠ 0) : sumLow m n e d ≤ d := by
  simp only [sumLow, h, if_false]; omega

/-- The numerator of a term, none for a zero. -/
def termOver (neg : Bool) (m : Nat) (e low : Int) : Int := if m = 0 then 0 else XR.scaled neg m e low

theorem termOver_mul_zpow (neg : Bool) (m : Nat) (e low : Int) (h : m ≠ 0 → low ≤ e) :
    (termOver neg m e low : ℚ) * 2 ^ low = signedVal neg m e := by
  by_cases hm : m = 0
  · simp [termOver, hm]
  · simpa [termOver, hm] using scaled_mul_zpow neg m e low (h hm)

theorem XR.add_fin (mode : Rnd) (a b : Bool) (m n : Nat) (e d : Int) :
    XR.add mode (.fin a m e false) (.fin b n d false) =
      let t := termOver a m e (sumLow m n e d) + termOver b n d (sumLow m n e d)
      if t = 0 then .zero (if m = 0 ∧ n = 0 ∧ a = b then a else mode == .rdn)
      else .fin (decide (t < 0)) t.natAbs (sumLow m n e d) false := by
  have hsum : XR.add mode (.fin a m e false) (.fin b n d false) = 
      let t := termOver a m e (sumLow m n e d) + termOver b n d (sumLow m n e d)
      if t = 0 then
        if (m == 0 && a == true) && (n == 0 && b == true) then .zero true
        else if (m == 0 && a == false) && (n == 0 && b == false) then .zero false
        else .zero (mode == .rdn)
      else .fin (decide (t < 0)) t.natAbs (sumLow m n e d) false := by
    by_cases hm : m = 0 <;> by_cases hn : n = 0 <;> simp [XR.add, XR.sum, sumLow, termOver, hm, hn]
  rw [hsum]
  cases a <;> cases b <;> by_cases hm : m = 0 <;> by_cases hn : n = 0 <;> simp [hm, hn]

theorem signedVal_natAbs (t : Int) (l : Int) : signedVal (decide (t < 0)) t.natAbs l = (t : ℚ) * 2 ^ l := by
  by_cases h : t < 0
  · simp [signedVal, h, abs_of_neg]
  · simp [signedVal, h, abs_of_nonneg (not_lt.1 h)]

/-- The sum of two numbers is exact, and an exact zero has the sign that R90 gives it. -/
theorem XR.add_exact (mode : Rnd) (a b : Bool) (m n : Nat) (e d : Int) :
    ∃ s k l, XR.add mode (.fin a m e false) (.fin b n d false) = .fin s k l false ∧
      signedVal s k l = signedVal a m e + signedVal b n d ∧
      (k = 0 → s = if m = 0 ∧ n = 0 ∧ a = b then a else mode == .rdn) := by
  have hval : ((termOver a m e (sumLow m n e d) + termOver b n d (sumLow m n e d) : Int) : ℚ) * 2 ^ sumLow m n e d =
      signedVal a m e + signedVal b n d := by
    rw [Int.cast_add, add_mul, termOver_mul_zpow _ _ _ _ (sumLow_le_left m n e d),
      termOver_mul_zpow _ _ _ _ (sumLow_le_right m n e d)]
  rw [XR.add_fin]
  generalize termOver a m e (sumLow m n e d) + termOver b n d (sumLow m n e d) = t at *
  by_cases ht : t = 0
  · refine ⟨_, _, _, if_pos ht, ?_, fun _ => rfl⟩
    rw [← hval, ht]
    simp
  · refine ⟨_, _, _, if_neg ht, ?_, fun h => absurd (Int.natAbs_eq_zero.1 h) ht⟩
    rw [signedVal_natAbs, hval]

/-- A node of the tree of R89, by its level and its place. -/
def treeNode (g : Nat → Nat → Nat) (leaf : Nat → Option Nat) : Nat → Nat → Option Nat
  | 0, i => leaf i
  | k + 1, i => match treeNode g leaf k (2 * i), treeNode g leaf k (2 * i + 1) with
    | some x, some y => some (g x y)
    | some x, none => some x
    | none, y => y

/-- A level of the tree over the nodes of one level is the nodes of the next. -/
theorem treeLevel_treeNode (g : Nat → Nat → Nat) (leaf : Nat → Option Nat) (k n i : Nat) :
    treeLevel g ((List.range' (2 * i) (2 * n)).map (treeNode g leaf k)) =
      (List.range' i n).map (treeNode g leaf (k + 1)) := by
  induction n generalizing i with
  | zero => rfl
  | succ n ih =>
    rw [show 2 * (n + 1) = 2 * n + 1 + 1 by ring, List.range'_succ, List.range'_succ, List.range'_succ]
    exact congrArg₂ List.cons rfl (ih (i + 1))

theorem tree32_range (g : Nat → Nat → Nat) (leaf : Nat → Option Nat) :
    tree32 g ((List.range 32).map leaf) = (treeNode g leaf 5 0).getD 0 := by
  have h0 : (List.range 32).map leaf = (List.range' (2 * 0) (2 * 16)).map (treeNode g leaf 0) := by
    rw [List.range_eq_range']; rfl
  rw [tree32, h0, treeLevel_treeNode g leaf 0 16 0, treeLevel_treeNode g leaf 1 8 0, treeLevel_treeNode g leaf 2 4 0,
    treeLevel_treeNode g leaf 3 2 0, treeLevel_treeNode g leaf 4 1 0]
  rfl

end Sys2Proof.Machine
end
section
/-! PROOFS. The rounding of an exact number (R45), and the settling of `Rounding`. -/

namespace Sys2Proof.Machine
open Sys2Proof

-- The numbers of the encodings, continued upwards without a bound.

/-- The number of magnitude p (R72), whatever its exponent. -/
def Fmt.val (f : Fmt) (p : Nat) : ℚ :=
  if p / 2 ^ f.frac = 0 then (p : ℚ) / 2 ^ f.frac * 2 ^ (1 - f.bias)
  else (1 + ((p % 2 ^ f.frac : Nat) : ℚ) / 2 ^ f.frac) * 2 ^ (((p / 2 ^ f.frac : Nat) : Int) - f.bias)

/-- n multiples of the spacing of the k-th binade, up to the first of the next one, stand at magnitude k × 2^frac + n. -/
theorem Fmt.val_eq (f : Fmt) (k n : Nat) (hn : n ≤ 2 ^ (f.frac + 1)) (hk : k = 0 ∨ 2 ^ f.frac ≤ n) :
    Fmt.val f (k * 2 ^ f.frac + n) = n * 2 ^ (f.qmin + k) := by
  have hP : 0 < 2 ^ f.frac := by positivity
  have hdiv : (k * 2 ^ f.frac + n) / 2 ^ f.frac = k + n / 2 ^ f.frac := by
    rw [Nat.add_comm, Nat.add_mul_div_right _ _ hP, Nat.add_comm]
  have hmod : (k * 2 ^ f.frac + n) % 2 ^ f.frac = n % 2 ^ f.frac := by
    rw [Nat.add_comm, Nat.add_mul_mod_self_right]
  have hq : f.qmin + k = (k + 1 - f.bias) - f.frac := by unfold Fmt.qmin; ring
  have hPQ : (2 : ℚ) ^ f.frac ≠ 0 := by positivity
  rw [Fmt.val, hdiv, hmod, hq, zpow_shift]
  rcases lt_or_ge n (2 ^ f.frac) with hlt | hge
  · obtain rfl : k = 0 := hk.resolve_right (by omega)
    simp [Nat.div_eq_of_lt hlt]
  obtain ⟨r, rfl⟩ := Nat.exists_eq_add_of_le hge
  rw [Nat.pow_succ] at hn
  rw [Nat.add_div_left _ hP, Nat.add_mod_left, if_neg (show k + (r / 2 ^ f.frac + 1) ≠ 0 from Nat.succ_ne_zero _)]
  rcases lt_or_ge r (2 ^ f.frac) with hlt | hge
  · rw [Nat.div_eq_of_lt hlt, Nat.mod_eq_of_lt hlt]
    push_cast
    field_simp
  · obtain rfl : r = 2 ^ f.frac := by omega
    have h2 : ((k + (1 + 1) : Nat) : Int) - f.bias = (k + 1 - f.bias) + 1 := by push_cast; ring
    rw [Nat.div_self hP, Nat.mod_self, h2, zpow_add_one₀ two_ne_zero]
    push_cast
    field_simp
    ring

/-- Every magnitude is some number of the spacings of its binade. -/
theorem Fmt.exists_binade (f : Fmt) (p : Nat) :
    ∃ k n, p = k * 2 ^ f.frac + n ∧ n < 2 ^ (f.frac + 1) ∧ (k = 0 ∨ 2 ^ f.frac ≤ n) := by
  have hp := Nat.div_add_mod' p (2 ^ f.frac)
  have hr : p % 2 ^ f.frac < 2 ^ f.frac := Nat.mod_lt _ (by positivity)
  rw [Nat.pow_succ]
  cases hk : p / 2 ^ f.frac with
  | zero => exact ⟨0, p % 2 ^ f.frac, by simp_all, by omega, .inl rfl⟩
  | succ k =>
    rw [hk] at hp
    exact ⟨k, 2 ^ f.frac + p % 2 ^ f.frac, by linarith, by omega, .inr (by omega)⟩

theorem Fmt.val_strictMono (f : Fmt) : StrictMono (Fmt.val f) := by
  refine strictMono_nat_of_lt_succ fun p => ?_
  obtain ⟨k, n, rfl, hn, hk⟩ := Fmt.exists_binade f p
  rw [Nat.add_assoc, Fmt.val_eq f k n hn.le hk, Fmt.val_eq f k (n + 1) hn (hk.imp_right (by omega))]
  have : (0 : ℚ) < 2 ^ (f.qmin + k) := by positivity
  push_cast
  linarith

-- What a mode asks for, and the multiple that it picks.

/-- p is the magnitude to which the mode takes X (R45): the nearest with the even one of a tie, or the one on the mode's side. -/
def Rounded (val : Nat → ℚ) (mode : Rnd) (neg : Bool) (X : ℚ) (p : Nat) : Prop :=
  match mode with
  | .rne => (∀ q, |X - val p| ≤ |X - val q|) ∧ ∀ q, q ≠ p → |X - val q| = |X - val p| → p % 2 = 0
  | .rtz => val p ≤ X ∧ X < val (p + 1)
  | .rdn => if neg then X ≤ val p ∧ ∀ q, q < p → val q < X else val p ≤ X ∧ X < val (p + 1)
  | .rup => if neg then val p ≤ X ∧ X < val (p + 1) else X ≤ val p ∧ ∀ q, q < p → val q < X

/-- `half` says on which side of the middle of lo and hi the number X lies. -/
def Halves (X lo hi : ℚ) (half : Ordering) : Prop :=
  match half with
  | .lt => X - lo < hi - X
  | .eq => X - lo = hi - X
  | .gt => hi - X < X - lo

section
variable {val : Nat → ℚ} (hval : StrictMono val) {X : ℚ} {p : Nat} (hlo : val p ≤ X) (hhi : X < val (p + 1))
include hval hlo hhi

/-- The least magnitude not below X. -/
theorem least_above (exact : Bool) (hex : exact = true ↔ X = val p) :
    X ≤ val (p + if (!exact) = true then 1 else 0) ∧ ∀ q, q < (p + if (!exact) = true then 1 else 0) → val q < X := by
  cases exact with
  | true => exact ⟨(hex.1 rfl).le, fun q hq => (hval hq).trans_le hlo⟩
  | false =>
    have hlt : val p < X := lt_of_le_of_ne hlo fun h => by simpa using hex.2 h.symm
    exact ⟨hhi.le, fun q hq => (hval.monotone (Nat.le_of_lt_succ hq)).trans_lt hlt⟩

/-- The nearest magnitude, and the even one where X lies in the middle of two. -/
theorem nearest_rounded (odd : Bool) (half : Ordering) (hodd : odd = true ↔ p % 2 = 1)
    (hhalf : Halves X (val p) (val (p + 1)) half) (neg : Bool) :
    Rounded val .rne neg X (p + if (half == .gt || (half == .eq && odd)) = true then 1 else 0) := by
  have habs_lo : |X - val p| = X - val p := abs_of_nonneg (by linarith)
  have habs_hi : |X - val (p + 1)| = val (p + 1) - X := by rw [abs_sub_comm]; exact abs_of_nonneg (by linarith)
  have hbelow : ∀ q, q < p → X - val p < |X - val q| := fun q hq => by
    have := hval hq
    exact lt_of_lt_of_le (by linarith) (le_abs_self _)
  have habove : ∀ q, p + 1 < q → val (p + 1) - X < |X - val q| := fun q hq => by
    have := hval hq
    exact lt_of_lt_of_le (by linarith) (neg_le_abs _)
  have hcases : ∀ q, q < p ∨ q = p ∨ q = p + 1 ∨ p + 1 < q := fun q => by omega
  have down (h : X - val p ≤ val (p + 1) - X) (htie : X - val p = val (p + 1) - X → p % 2 = 0) :
      Rounded val .rne neg X p := by
    refine ⟨fun q => ?_, fun q hq heq => ?_⟩
    · obtain h1 | rfl | rfl | h1 := hcases q
      · linarith [hbelow q h1]
      · rfl
      · linarith
      · linarith [habove q h1]
    · obtain h1 | rfl | rfl | h1 := hcases q
      · linarith [hbelow q h1]
      · exact absurd rfl hq
      · exact htie (by linarith)
      · linarith [habove q h1]
  have up (h : val (p + 1) - X ≤ X - val p) (htie : X - val p = val (p + 1) - X → p % 2 = 1) :
      Rounded val .rne neg X (p + 1) := by
    refine ⟨fun q => ?_, fun q hq heq => ?_⟩
    · obtain h1 | rfl | rfl | h1 := hcases q
      · linarith [hbelow q h1]
      · linarith
      · rfl
      · linarith [habove q h1]
    · obtain h1 | rfl | rfl | h1 := hcases q
      · linarith [hbelow q h1]
      · have := htie (by linarith); omega
      · exact absurd rfl hq
      · linarith [habove q h1]
  cases half with
  | lt => exact down (le_of_lt hhalf) fun h => absurd h (ne_of_lt hhalf)
  | gt => exact up (le_of_lt hhalf) fun h => absurd h.symm (ne_of_lt hhalf)
  | eq =>
    cases odd with
    | true => exact up hhalf.ge fun _ => hodd.1 rfl
    | false => exact down hhalf.le fun _ => by simpa using hodd

/-- The rounding of a number between two neighbouring magnitudes is the one that the mode picks. -/
theorem rounded_roundsUp (mode : Rnd) (neg odd exact : Bool) (half : Ordering) (hodd : odd = true ↔ p % 2 = 1)
    (hhalf : Halves X (val p) (val (p + 1)) half) (hex : exact = true ↔ X = val p) :
    Rounded val mode neg X (p + if roundsUp mode neg odd half exact then 1 else 0) := by
  cases mode with
  | rne => exact nearest_rounded hval hlo hhi odd half hodd hhalf neg
  | rtz => exact ⟨hlo, hhi⟩
  | rdn =>
    cases neg with
    | true => exact least_above hval hlo hhi exact hex
    | false => exact ⟨hlo, hhi⟩
  | rup =>
    cases neg with
    | true => exact ⟨hlo, hhi⟩
    | false => exact least_above hval hlo hhi exact hex

end

-- The multiple of 2^q that `roundAt` computes.

/-- X is (m + t) × 2^e, where t is 0, or some number strictly between 0 and 1 when `more` is set. -/
def Tailed (m : Nat) (e : Int) (more : Bool) (X : ℚ) : Prop :=
  (more = false → X = m * 2 ^ e) ∧ (more = true → (m : ℚ) * 2 ^ e < X ∧ X < (m + 1 : ℚ) * 2 ^ e)

/-- What `roundAt` computes: the multiples of 2^q below X and above it, with the side of their middle. -/
structure Brackets (X : ℚ) (q : Int) (n : Nat) (half : Ordering) (exact : Bool) : Prop where
  lower : (n : ℚ) * 2 ^ q ≤ X
  upper : X < ((n : ℚ) + 1) * 2 ^ q
  middle : Halves X (n * 2 ^ q) (((n : ℚ) + 1) * 2 ^ q) half
  exact_iff : exact = true ↔ X = n * 2 ^ q

/-- n units of 2^s and a rest, of which 2^(s − 1) makes the half of a unit. -/
theorem brackets_of_parts {X t : ℚ} {q e : Int} {s n r : Nat} (hs : q = e + (s + 1 : Nat)) (hr : r < 2 ^ (s + 1))
    (hX : X = ((n * 2 ^ (s + 1) + r : Nat) + t) * 2 ^ e) (ht : 0 ≤ t) (ht1 : t < 1) (more : Bool) (hmore : more = true ↔ t ≠ 0) :
    Brackets X q n (if r < 2 ^ s then .lt else if (r = 2 ^ s && !more) = true then .eq else .gt) (r == 0 && !more) := by
  have hE : (0 : ℚ) < 2 ^ e := by positivity
  have hq : (2 : ℚ) ^ q = 2 * 2 ^ s * 2 ^ e := by rw [hs, zpow_add₀ two_ne_zero, zpow_natCast]; ring
  have hlow : X - n * 2 ^ q = (r + t) * 2 ^ e := by rw [hX, hq]; push_cast; ring
  have hhigh : (n + 1 : ℚ) * 2 ^ q - X = (2 * 2 ^ s - (r + t)) * 2 ^ e := by rw [hX, hq]; push_cast; ring
  have hr0 : (0 : ℚ) ≤ r := by positivity
  have hrt : (r : ℚ) + t < 2 * 2 ^ s := by
    have : ((r + 1 : Nat) : ℚ) ≤ (2 ^ (s + 1) : Nat) := by exact_mod_cast hr
    push_cast [pow_succ] at this
    linarith
  refine ⟨?_, ?_, ?_, ?_⟩
  · have : 0 ≤ (r + t) * (2 : ℚ) ^ e := by positivity
    linarith
  · have : 0 < (2 * 2 ^ s - (r + t)) * (2 : ℚ) ^ e := mul_pos (by linarith) hE
    linarith
  · simp only [Halves, hlow, hhigh, mul_lt_mul_iff_left₀ hE, mul_left_inj' hE.ne']
    obtain h | h | h := lt_trichotomy r (2 ^ s)
    · have : ((r + 1 : Nat) : ℚ) ≤ (2 ^ s : Nat) := by exact_mod_cast h
      push_cast at this
      simp only [h, if_true]
      linarith
    · subst h
      push_cast
      cases more with
      | true =>
        have : 0 < t := lt_of_le_of_ne ht (Ne.symm (hmore.1 rfl))
        simp only [lt_irrefl, if_false, Bool.not_true, Bool.and_false, Bool.false_eq_true]
        linarith
      | false =>
        have : t = 0 := by simpa using hmore
        simp only [lt_irrefl, if_false, Bool.not_false, Bool.and_true, decide_true, if_true, this]
        ring
    · have : ((2 ^ s + 1 : Nat) : ℚ) ≤ (r : Nat) := by exact_mod_cast h
      push_cast at this
      simp only [h.not_gt, h.ne', if_false, decide_false, Bool.false_and, Bool.false_eq_true]
      linarith
  · rw [← sub_eq_zero (a := X), hlow]
    have : ((r : ℚ) + t = 0) ↔ r = 0 ∧ t = 0 := by
      rw [add_eq_zero_iff_of_nonneg hr0 ht, Nat.cast_eq_zero]
    cases more <;> simp_all [hE.ne']

theorem exists_tail {X : ℚ} {m : Nat} {e : Int} {more : Bool} (hX : Tailed m e more X) :
    ∃ t : ℚ, 0 ≤ t ∧ t < 1 ∧ (more = true ↔ t ≠ 0) ∧ X = (m + t) * 2 ^ e := by
  have hE : (0 : ℚ) < 2 ^ e := by positivity
  obtain ⟨hfalse, htrue⟩ := hX
  cases more with
  | false => exact ⟨0, le_rfl, one_pos, by simp, by rw [hfalse rfl, add_zero]⟩
  | true =>
    obtain ⟨hlo, hhi⟩ := htrue rfl
    have hlo' : (m : ℚ) < X / 2 ^ e := (lt_div_iff₀ hE).2 hlo
    have hhi' : X / 2 ^ e < m + 1 := (div_lt_iff₀ hE).2 hhi
    refine ⟨X / 2 ^ e - m, by linarith, by linarith, by simp; linarith, ?_⟩
    rw [add_sub_cancel, div_mul_cancel₀ _ hE.ne']

/-- `roundAt` takes the multiple below X, or the next where its mode goes up (R45). -/
theorem roundAt_eq {X : ℚ} {m : Nat} {e : Int} {more : Bool} (hX : Tailed m e more X) (mode : Rnd) (neg : Bool) (q : Int)
    (hq : more = true → e < q) :
    ∃ n half exact, Brackets X q n half exact ∧
      roundAt mode neg m e more q = n + if roundsUp mode neg (n % 2 == 1) half exact then 1 else 0 := by
  obtain ⟨t, ht, ht1, hmore, hXt⟩ := exists_tail hX
  rcases le_or_gt q e with hqe | hqe
  · have hQ : (0 : ℚ) < 2 ^ q := by positivity
    obtain rfl : more = false := by
      cases more with
      | false => rfl
      | true => exact absurd (hq rfl) (not_lt.2 hqe)
    have ht0 : t = 0 := by simpa using hmore
    have hpow : (2 : ℚ) ^ (e - q).toNat * 2 ^ q = 2 ^ e := by
      rw [← zpow_natCast, ← zpow_add₀ two_ne_zero, Int.toNat_of_nonneg (by omega)]
      ring_nf
    have hXn : X = (m * 2 ^ (e - q).toNat : Nat) * 2 ^ q := by
      rw [hXt, ht0]; push_cast; rw [mul_assoc, hpow, add_zero]
    refine ⟨m * 2 ^ (e - q).toNat, .lt, true, ⟨?_, ?_, ?_, ?_⟩, by simp [roundAt, hqe]⟩
    · exact hXn.ge
    · rw [hXn]; linarith
    · simp only [Halves, hXn]; linarith
    · simp [hXn]
  · obtain ⟨s, hs⟩ : ∃ s : Nat, q = e + (s + 1 : Nat) := ⟨(q - e - 1).toNat, by omega⟩
    have hsub : (q - e).toNat = s + 1 := by omega
    have hparts := brackets_of_parts (X := X) (n := m / 2 ^ (s + 1)) (r := m % 2 ^ (s + 1)) hs (Nat.mod_lt _ (by positivity))
      (by rw [Nat.div_add_mod']; exact hXt) ht ht1 more hmore
    refine ⟨_, _, _, hparts, ?_⟩
    simp only [roundAt, not_le.2 hqe, if_false, hsub]
    split
    case isTrue hlog =>
      have hm : m < 2 ^ s := lt_of_lt_of_le (Nat.lt_log2_self) (Nat.pow_le_pow_right (by omega) (by omega))
      have hm' : m < 2 ^ (s + 1) := hm.trans_le (Nat.pow_le_pow_right (by omega) (by omega))
      simp [Nat.div_eq_of_lt hm', Nat.mod_eq_of_lt hm', hm]
    case isFalse => rfl

/-- A number with m at its digits lies in the binade of m. -/
theorem Tailed.bounds {X : ℚ} {m : Nat} {e : Int} {more : Bool} (hX : Tailed m e more X) :
    (m : ℚ) * 2 ^ e ≤ X ∧ X < (m + 1 : ℚ) * 2 ^ e := by
  have hE : (0 : ℚ) < 2 ^ e := by positivity
  cases more with
  | false => rw [hX.1 rfl]; exact ⟨le_rfl, by linarith⟩
  | true => exact ⟨(hX.2 rfl).1.le, (hX.2 rfl).2⟩

/-- The exponent of the spacing at which a magnitude is rounded. -/
def spacing (f : Fmt) (m : Nat) (e : Int) : Int := if m = 0 then f.qmin else max (e + m.log2 - f.frac) f.qmin

theorem magBits_eq (f : Fmt) (mode : Rnd) (neg : Bool) (m : Nat) (e : Int) (more : Bool) :
    magBits f mode neg m e more =
      (spacing f m e - f.qmin).toNat * 2 ^ f.frac + roundAt mode neg m e more (spacing f m e) := rfl

theorem qmin_le_spacing (f : Fmt) (m : Nat) (e : Int) : f.qmin ≤ spacing f m e := by
  unfold spacing
  split
  · exact le_rfl
  · exact le_max_right ..

/-- A number of one digit more than the format holds is rounded at a coarser spacing than its own. -/
theorem lt_spacing {f : Fmt} {m : Nat} (h : 2 ^ (f.frac + 1) ≤ m) (e : Int) : e < spacing f m e := by
  have hm : m ≠ 0 := fun h0 => absurd h (by simp [h0])
  have hlog : f.frac + 1 ≤ m.log2 := (Nat.le_log2 hm).2 h
  have hmax : e + m.log2 - f.frac ≤ spacing f m e := by rw [spacing, if_neg hm]; exact le_max_left ..
  omega

theorem even_two_pow_frac (f : Fmt) (k n : Nat) : (k * 2 ^ f.frac + n) % 2 = n % 2 := by
  cases f <;> simp only [Fmt.frac] <;> omega

/-- The multiple below a number, at its spacing, is one of the binade that the spacing belongs to. -/
theorem spacing_binade {f : Fmt} {X : ℚ} {m : Nat} {e : Int} {more : Bool} (hX : Tailed m e more X)
    (hmore : more = true → 2 ^ (f.frac + 1) ≤ m) {n : Nat} (hlo : (n : ℚ) * 2 ^ spacing f m e ≤ X)
    (hhi : X < ((n : ℚ) + 1) * 2 ^ spacing f m e) :
    n < 2 ^ (f.frac + 1) ∧ ((spacing f m e - f.qmin).toNat = 0 ∨ 2 ^ f.frac ≤ n) := by
  obtain ⟨hXlo, hXhi⟩ := hX.bounds
  have hQ : (0 : ℚ) < 2 ^ spacing f m e := by positivity
  by_cases hm : m = 0
  · subst hm
    have hX0 : X = 0 := by
      cases more with
      | false => simpa using hX.1 rfl
      | true => exact absurd (hmore rfl) (by simp)
    have hn : ¬ 0 < (n : ℚ) := fun h => absurd (mul_pos h hQ) (by linarith)
    obtain rfl : n = 0 := by simpa using hn
    exact ⟨by positivity, .inl (by simp [spacing])⟩
  have hlow : ((2 ^ m.log2 : Nat) : ℚ) ≤ m := by exact_mod_cast Nat.log2_self_le hm
  have hhigh : ((m + 1 : Nat) : ℚ) ≤ (2 ^ (m.log2 + 1) : Nat) := by exact_mod_cast Nat.lt_log2_self
  push_cast at hlow hhigh
  have hsp : spacing f m e = max (e + m.log2 - f.frac) f.qmin := if_neg hm
  have htop : (2 : ℚ) ^ f.frac * 2 ^ (e + m.log2 - f.frac) = 2 ^ m.log2 * 2 ^ e := by
    rw [← zpow_natCast, ← zpow_add₀ two_ne_zero, ← zpow_natCast, ← zpow_add₀ two_ne_zero]
    ring_nf
  have hE : (0 : ℚ) < 2 ^ e := by positivity
  constructor
  · have hle : (2 : ℚ) ^ (e + m.log2 - f.frac) ≤ 2 ^ spacing f m e := zpow_le_zpow_right₀ one_le_two (by omega)
    have : (n : ℚ) * 2 ^ spacing f m e < 2 ^ (f.frac + 1) * 2 ^ spacing f m e := by
      calc (n : ℚ) * 2 ^ spacing f m e ≤ X := hlo
        _ < (m + 1) * 2 ^ e := hXhi
        _ ≤ 2 ^ (m.log2 + 1) * 2 ^ e := by gcongr
        _ = 2 ^ (f.frac + 1) * 2 ^ (e + m.log2 - f.frac) := by rw [pow_succ, pow_succ]; linarith
        _ ≤ 2 ^ (f.frac + 1) * 2 ^ spacing f m e := by gcongr
    exact_mod_cast lt_of_mul_lt_mul_right this hQ.le
  · by_cases hk : (spacing f m e - f.qmin).toNat = 0
    · exact .inl hk
    refine .inr (Nat.le_of_lt_succ ?_)
    have heq : spacing f m e = e + m.log2 - f.frac := by omega
    have : (2 : ℚ) ^ f.frac * 2 ^ spacing f m e < (n + 1) * 2 ^ spacing f m e := by
      calc (2 : ℚ) ^ f.frac * 2 ^ spacing f m e = 2 ^ m.log2 * 2 ^ e := by rw [heq, htop]
        _ ≤ m * 2 ^ e := by gcongr
        _ ≤ X := hXlo
        _ < (n + 1) * 2 ^ spacing f m e := hhi
    exact_mod_cast lt_of_mul_lt_mul_right this hQ.le

/-- The encoding of a magnitude is the magnitude to which its mode takes the number (R45). -/
theorem magBits_rounded {f : Fmt} {X : ℚ} {m : Nat} {e : Int} {more : Bool} (hX : Tailed m e more X)
    (hmore : more = true → 2 ^ (f.frac + 1) ≤ m) (mode : Rnd) (neg : Bool) :
    Rounded (Fmt.val f) mode neg X (magBits f mode neg m e more) := by
  obtain ⟨n, half, exact, hb, hround⟩ := roundAt_eq hX mode neg (spacing f m e) fun h => lt_spacing (hmore h) e
  obtain ⟨hlo, hhi, hmid, hex⟩ := hb
  obtain ⟨hn, hk⟩ := spacing_binade hX hmore hlo hhi
  rw [magBits_eq, hround, ← Nat.add_assoc]
  have hq : spacing f m e = f.qmin + (spacing f m e - f.qmin).toNat := by
    have := qmin_le_spacing f m e
    omega
  generalize (spacing f m e - f.qmin).toNat = k at *
  have hval := Fmt.val_eq f k n hn.le hk
  have hval1 := Fmt.val_eq f k (n + 1) hn (hk.imp_right Nat.le_succ_of_le)
  rw [← hq] at hval hval1
  rw [Nat.cast_add_one, ← Nat.add_assoc] at hval1
  rw [← hval] at hlo hmid hex
  rw [← hval1] at hhi hmid
  have hodd : (n % 2 == 1) = true ↔ (k * 2 ^ f.frac + n) % 2 = 1 := by rw [even_two_pow_frac, beq_iff_eq]
  exact rounded_roundsUp (Fmt.val_strictMono f) hlo hhi mode neg _ _ _ hodd hmid hex

/-- `round` puts the sign on the rounded magnitude, and gives the mode's result beyond the largest finite one (R45). -/
theorem roundF_fin (neg : Bool) (m : Nat) (e : Int) (more : Bool) (f : Fmt) (mode : Rnd) (sat : Bool) :
    roundF (.fin neg m e more) f mode sat =
      if magBits f mode neg m e more ≤ f.maxBits then withSign f neg (magBits f mode neg m e more)
      else if sat then withSign f neg f.maxBits
      else match f.infBits with
        | none => 0x7F
        | some i => withSign f neg (if mode = .rtz ∨ (mode = .rdn ∧ neg = false) ∨ (mode = .rup ∧ neg = true)
            then f.maxBits else i) := by
  have hover : overflowBits f mode sat neg =
      if sat then withSign f neg f.maxBits
      else match f.infBits with
        | none => 0x7F
        | some i => withSign f neg (if mode = .rtz ∨ (mode = .rdn ∧ neg = false) ∨ (mode = .rup ∧ neg = true)
            then f.maxBits else i) := by
    unfold overflowBits
    cases f <;> cases mode <;> cases neg <;> rfl
  rw [← hover]
  simp only [roundF, ← not_lt, ite_not]

/-- Settles O19: the encodings by their exponent and fraction, the rounding by the two magnitudes that enclose the number, the
sum by its numerator over the smaller exponent, and the tree level by level. -/
theorem rounding : Obligations.Rounding := by
  unfold Obligations.Rounding
  refine ⟨fun f => by cases f <;> rfl, fun f ftz b _ => ⟨fun hf htop => ?_, fun hf htop hM => ?_, fun h => ?_⟩,
    fun f mode sat => ⟨rfl, fun neg => ?_, fun neg m e more X hexact hmore => ?_⟩,
    fun x f mode sat => ⟨by simp [fres], fres_ftz x f mode sat⟩,
    fun a b m n d e mode => ⟨rfl, ?_⟩, minMax_nan,
    fun g leaf => ⟨treeNode g leaf, fun _ => rfl, fun _ _ => rfl, tree32_range g leaf⟩,
    fun ty ftz op rnd x y => ⟨fun h => ?_, fun h => ?_⟩⟩
  · have htop := of_decide_eq_true htop
    rw [fval_eq]
    simp only [htop, hf, true_and, if_false, ne_eq, not_false_eq_true, if_true, ite_not]
  · have htop := of_decide_eq_true htop
    rw [fval_eq]
    exact if_pos ⟨htop, by rwa [if_pos hf]⟩
  · exact fval_finite b f ftz (h.imp_left of_decide_eq_false)
  · cases f <;> cases sat <;> rfl
  · obtain hX : Tailed m e more X := ⟨hexact, fun h => (hmore h).2⟩
    refine ⟨magBits f mode neg m e more, magBits_rounded hX (fun h => (hmore h).1) mode neg, ?_⟩
    rw [roundF_fin]
    simp only [withSign_eq] <;> rfl
  · obtain ⟨s, k, l, hadd, hval, hsign⟩ := XR.add_exact mode a b m n e d
    refine ⟨s, k, l, hadd, hval, hsign, fun h => ?_, fun h => ?_⟩
    · obtain ⟨hmin, hmax, -, -⟩ := minMax_of_below a b m n e d h
      exact ⟨hmin, hmax⟩
    · have h' : Below b a n m d e := h.imp_right fun ⟨hm, hn, hb, ha⟩ => ⟨hn, hm, hb, ha⟩
      obtain ⟨-, -, hmin, hmax⟩ := minMax_of_below b a n m d e h'
      exact ⟨hmin, hmax⟩
  · cases op <;> simp only [reduxNode, h, if_true]
  · cases op <;> simp only [reduxNode, h, if_false] <;> rfl

end Sys2Proof.Machine
end
section
/-! PROOFS. What memory leaves alone: the operations of physical memory, of the cores' copies and of the parts of an access
change no region, no facet set, no thread but for its reservation, and not what the fault domains have to do. -/

namespace Sys2Proof.Machine
open Sys2Proof

/-- A thread but for its reservation. -/
def Thread.bare (t : Thread) : Thread := { t with resv := none }

/-- A wave but for the reservations of its threads. -/
def Wave.bare (x : Wave) : Wave := { x with threads := x.threads.map Thread.bare }

/-- What memory leaves alone: the actions that wait, the regions, the facet sets, and the waves but for reservations. -/
def State.bystanders (s : State) : Option (List DomAct) × NMap Region × List FSet × NMap Wave :=
  (s.acts, s.regions, s.sets, s.waves.map fun e => (e.1, e.2.bare))

section

variable {s t : State} (h : t.bystanders = s.bystanders)
include h

theorem State.acts_of_bystanders : t.acts = s.acts := congrArg (·.1) h
theorem State.regions_of_bystanders : t.regions = s.regions := congrArg (·.2.1) h
theorem State.sets_of_bystanders : t.sets = s.sets := congrArg (·.2.2.1) h
theorem State.waves_of_bystanders : (t.waves.map fun e => (e.1, e.2.bare)) = s.waves.map fun e => (e.1, e.2.bare) :=
  congrArg (·.2.2.2) h

end

/-! ### Reservations -/

theorem Thread.dropResv_bare (t : Thread) (pt : ResvAt) (grain : Nat) : (t.dropResv pt grain).bare = t.bare := by
  unfold Thread.dropResv
  split
  · split <;> rfl
  · rfl

theorem Wave.bare_mapIdx (x : Wave) (g : Nat → Thread → Thread) (hg : ∀ l t, (g l t).bare = t.bare) :
    ({ x with threads := x.threads.mapIdx g } : Wave).bare = x.bare := by
  have : (x.threads.mapIdx g).map Thread.bare = x.threads.map Thread.bare := by
    apply List.ext_getElem <;> simp [hg]
  simp only [Wave.bare, this]

@[simp] theorem State.clearResv_bystanders (s : State) (pt : ResvAt) (grain : Nat) (b : Option (Nat × Nat)) :
    (s.clearResv pt grain b).bystanders = s.bystanders := by
  have hbare (e : Nat × Wave) := e.2.bare_mapIdx
    (fun l t => if b = some (e.1, l) then t else t.dropResv pt grain)
    (fun l t => by split; exacts [rfl, t.dropResv_bare pt grain])
  simp only [State.bystanders, State.clearResv, List.map_map, Function.comp_def, hbare]

@[simp] theorem State.clearResvs_bystanders (s : State) (pt : ResvAt) (key n : Nat) (b : Option (Nat × Nat)) :
    (s.clearResvs pt key n b).bystanders = s.bystanders :=
  foldl_same State.bystanders (fun (s : State) g => s.clearResv pt g b) (fun s _ => s.clearResv_bystanders ..) _ s

/-! ### Physical memory -/

@[simp] theorem State.fresh_bystanders (s : State) : s.fresh.2.bystanders = s.bystanders := rfl
@[simp] theorem State.healed_bystanders (s : State) (key n : Nat) : (s.healed key n).bystanders = s.bystanders := rfl
@[simp] theorem State.setPoison_bystanders (s : State) (i : Nat) (p : BitVec 2) : (s.setPoison i p).bystanders = s.bystanders := rfl
@[simp] theorem State.setCore_bystanders (s : State) (g : Nat) (c : Core) : (s.setCore g c).bystanders = s.bystanders := rfl
@[simp] theorem State.signal_bystanders (s : State) (n v : Nat) : (s.signal n v).bystanders = s.bystanders := rfl

theorem State.sameButL2.bystanders {s t : State} (h : s.sameButL2 t) : t.bystanders = s.bystanders := by
  rw [h]
  rfl

@[simp] theorem State.touch_bystanders (s : State) (i : Nat) (wr : Bool) : (s.touch i wr).bystanders = s.bystanders :=
  (s.touch_sameButL2 i wr).bystanders

@[simp] theorem State.promote_bystanders (s : State) (key : Nat) : (s.promote key).bystanders = s.bystanders := by
  unfold State.promote
  split
  · split
    · exact foldl_same State.bystanders _ (fun s v => by rw [State.touch_bystanders, State.setPoison_bystanders]; rfl) _ s
    · rfl
  · rfl

@[simp] theorem State.atHome_bystanders (s : State) (key n : Nat) : (s.atHome key n).bystanders = s.bystanders :=
  foldl_same State.bystanders _ (fun s i => by rw [State.touch_bystanders, State.promote_bystanders]) _ s

theorem State.makeVersion_bystanders {s t : State} {i f sec : Nat} (h : s.makeVersion i f sec = some t) :
    t.bystanders = s.bystanders := by
  unfold State.makeVersion at h
  extract_lets here ovf new beside at h
  have hnew (s : State) (o : Bool) : (new s o).bystanders = s.bystanders := rfl
  have hbeside (hb : beside = some t) : t.bystanders = s.bystanders := by
    unfold beside at hb
    split at hb <;> cases hb
    exact hnew s true
  split at h
  · cases h; rfl
  · split at h
    · split at h
      · rename_i s1 heq
        cases h
        rw [hnew, State.touch_bystanders]
        split at heq
        · cases heq; rfl
        · exact (State.makeWay_sameButL2 heq).bystanders
      · exact hbeside h
    · exact hbeside h

@[simp] theorem State.noteConst_bystanders (s : State) (key n : Nat) (b : Option (Nat × Nat)) :
    (s.noteConst key n b).bystanders = s.bystanders := by
  unfold State.noteConst
  extract_lets live old
  split <;> rfl

theorem State.homeWrite1_bystanders {s t : State} {tag : Option (BitVec 5)} {b : Option (Nat × Nat)} {key : Nat} {bs : List Byte}
    (h : s.homeWrite1 tag b key bs = some t) : t.bystanders = s.bystanders := by
  unfold State.homeWrite1 at h
  split at h
  · obtain ⟨s1, hs1, rfl⟩ := Option.map_eq_some_iff.1 h
    rw [State.clearResvs_bystanders]
    exact (State.makeVersion_bystanders hs1 : s1.bystanders = s.bystanders)
  · cases h
    rw [State.clearResvs_bystanders, State.healed_bystanders]
    exact ((State.touch_bystanders ..).trans (State.promote_bystanders ..)).trans (State.noteConst_bystanders ..)

/-- The state that a write leaves, be it done or without room. -/
def Written.state : Except (Nat × State) State → State
  | .ok s => s
  | .error e => e.2

theorem State.homeWriteStep_bystanders (tag : Option (BitVec 5)) (b : Option (Nat × Nat)) (key : Nat) (bs : List Byte)
    (r : Except (Nat × State) State) (p : Nat × Nat) :
    (Written.state (State.homeWriteStep tag b key bs r p)).bystanders = (Written.state r).bystanders := by
  unfold State.homeWriteStep
  split
  · rfl
  · split
    · rename_i s1 hs1
      exact State.homeWrite1_bystanders hs1
    · rfl

@[simp] theorem State.homeWrite_bystanders (s : State) (tag : Option (BitVec 5)) (b : Option (Nat × Nat)) (key : Nat)
    (bs : List Byte) : (Written.state (s.homeWrite tag b key bs)).bystanders = s.bystanders := by
  rw [State.homeWrite_eq_foldl]
  exact foldl_same (fun r => (Written.state r).bystanders) _ (State.homeWriteStep_bystanders tag b key bs) _ (.ok s)

@[simp] theorem State.baseWrite_bystanders (s : State) (key : Nat) (bs : List Byte) :
    (s.baseWrite key bs).bystanders = s.bystanders := by
  rw [← State.homeWrite_bystanders s none none key bs]
  unfold State.baseWrite
  split <;> rename_i heq <;> rw [heq] <;> rfl

@[simp] theorem State.putNum_bystanders (s : State) (key n v : Nat) : (s.putNum key n v).bystanders = s.bystanders :=
  State.baseWrite_bystanders ..

@[simp] theorem State.writeState_bystanders (s : State) (r : Nat) : (s.writeState r).bystanders = s.bystanders := by
  unfold State.writeState
  split
  · exact State.putNum_bystanders ..
  · rfl

@[simp] theorem State.raiseResc_bystanders (s : State) (i : Nat) : (s.raiseResc i).bystanders = s.bystanders :=
  State.putNum_bystanders ..

@[simp] theorem State.raiseDone_bystanders (s : State) (r : Nat) : (s.raiseDone r).bystanders = s.bystanders := by
  unfold State.raiseDone
  split
  · rfl
  · rename_i x _
    split
    · rfl
    · extract_lets s1
      have hs1 : s1.bystanders = s.bystanders := by
        unfold s1
        split
        · exact State.putNum_bystanders ..
        · rfl
      split
      · exact hs1
      · exact hs1

/-! ### The cores' copies -/

@[simp] theorem State.dropCopy_bystanders (s : State) (g i : Nat) : (s.dropCopy g i).bystanders = s.bystanders := by
  simp only [State.dropCopy, State.clearResv_bystanders, State.setCore_bystanders]

@[simp] theorem State.spread_bystanders (s : State) (i : Nat) (x : Copy) : (s.spread i x).bystanders = s.bystanders := rfl

@[simp] theorem State.writeBack_bystanders (s : State) (g i : Nat) : (s.writeBack g i).bystanders = s.bystanders := by
  unfold State.writeBack
  dsimp only
  split
  · split
    · simp only [State.spread_bystanders, State.baseWrite_bystanders, State.setCore_bystanders]
    · rfl
  · rfl

@[simp] theorem State.writeBackAll_bystanders (s : State) (g : Nat) : (s.writeBackAll g).bystanders = s.bystanders :=
  foldl_same State.bystanders _ (fun s _ => s.writeBack_bystanders ..) _ s

@[simp] theorem State.writeBackSvc_bystanders (s : State) (g : Nat) : (s.writeBackSvc g).bystanders = s.bystanders :=
  foldl_same State.bystanders _ (fun s e => by split; exacts [s.writeBack_bystanders .., rfl]) _ s

@[simp] theorem State.dropClean_bystanders (s : State) (g : Nat) : (s.dropClean g).bystanders = s.bystanders :=
  foldl_same State.bystanders _ (fun s e => by split; exacts [s.dropCopy_bystanders .., rfl]) _ s

@[simp] theorem State.pushRegion_bystanders (s : State) (r : Nat) : (s.pushRegion r).bystanders = s.bystanders := by
  unfold State.pushRegion
  split
  · rfl
  · exact foldl_same State.bystanders _ (fun s g => by rw [State.writeBackSvc_bystanders, State.writeBackAll_bystanders]) _ s

@[simp] theorem State.makeRoom_bystanders (s : State) (g : Nat) : (s.makeRoom g).bystanders = s.bystanders := by
  unfold State.makeRoom
  dsimp only
  split
  · rfl
  · split
    · rw [State.evict, State.dropCopy_bystanders, State.writeBack_bystanders, State.fresh_bystanders]
    · exact s.fresh_bystanders

@[simp] theorem State.fill_bystanders (s : State) (g i : Nat) (cls : PgCls) : (s.fill g i cls).bystanders = s.bystanders := by
  unfold State.fill
  split
  · rfl
  · simp only [State.setCore_bystanders, State.atHome_bystanders, State.makeRoom_bystanders]

@[simp] theorem State.coreRead_bystanders (s : State) (g key n : Nat) (cls : PgCls) :
    (s.coreRead g key n cls).1.bystanders = s.bystanders :=
  foldl_same State.bystanders _ (fun s _ => s.fill_bystanders ..) _ s

@[simp] theorem State.coreWrite_bystanders (s : State) (g key : Nat) (bs : List Byte) (svc : Bool) (b : Option (Nat × Nat)) :
    (s.coreWrite g key bs svc b).bystanders = s.bystanders := by
  unfold State.coreWrite
  rw [State.clearResvs_bystanders]
  refine foldl_same State.bystanders _ (fun s p => ?_) _ s
  dsimp only
  split
  · rw [State.setCore_bystanders, State.fill_bystanders]
  · exact State.fill_bystanders ..

@[simp] theorem State.wakeCore_bystanders (s : State) (g : Option Nat) (b : WakeBit) :
    (s.wakeCore g b).bystanders = s.bystanders := by
  unfold State.wakeCore
  split
  · dsimp only; split <;> rfl
  · rfl

end Sys2Proof.Machine
end
section
/-! PROOFS. Taking a fault: the record, the parked thread and the domain's action (R49, R162 to R166, R366), and the settling of
`FaultsTaken`. -/

namespace Sys2Proof.Machine
open Sys2Proof

/-! ### What stands beside a write is read as before -/

theorem NMap.find_mapVal {β γ : Type} (g : β → γ) (m : NMap β) (n : Nat) :
    NMap.find (m.map fun e => (e.1, g e.2)) n = (m.find n).map g := by
  induction m with
  | nil => rfl
  | cons e m ih =>
    simp only [List.map_cons, NMap.find, ih]
    split <;> rfl

theorem NMap.mem_keys_of_find {β : Type} {m : NMap β} {n : Nat} {x : β} (h : m.find n = some x) : n ∈ m.map Prod.fst := by
  induction m with
  | nil => cases h
  | cons e m ih =>
    unfold NMap.find at h
    split at h
    · exact List.mem_cons.2 (.inl ‹_›)
    · exact List.mem_cons_of_mem _ (ih h)

/-- A thread stands as it did, but for its reservation. -/
theorem State.thread?_of_bystanders {s t : State} (h : t.bystanders = s.bystanders) {w l : Nat} {u : Thread}
    (hu : s.thread? w l = some u) : ∃ v, t.thread? w l = some v ∧ v.bare = u.bare := by
  have hfind := congrArg (fun m => NMap.find m w) (State.waves_of_bystanders h)
  simp only [NMap.find_mapVal] at hfind
  obtain ⟨x, hx, hxu⟩ := Option.bind_eq_some_iff.1 hu
  rw [hx, Option.map_some] at hfind
  obtain ⟨y, hy, hyx⟩ := Option.map_eq_some_iff.1 hfind
  have hlane : (y.threads.map Thread.bare)[l]? = (x.threads.map Thread.bare)[l]? := by
    rw [show y.threads.map Thread.bare = x.threads.map Thread.bare from congrArg Wave.threads hyx]
  rw [List.getElem?_map, List.getElem?_map, hxu, Option.map_some] at hlane
  obtain ⟨v, hv, hvu⟩ := Option.map_eq_some_iff.1 hlane
  exact ⟨v, (State.thread?_of_find hy).trans hv, hvu⟩

theorem Thread.fields_of_bare {u t : Thread} (h : u.bare = t.bare) :
    u.v = t.v ∧ u.preds = t.preds ∧ u.stack = t.stack ∧ u.epc = t.epc ∧ u.mark = t.mark := by
  unfold Thread.bare at h
  injections
  exact ⟨‹_›, ‹_›, ‹_›, ‹_›, ‹_›⟩

/-- No wave is of a region. -/
def State.Vacated (r : Nat) (s : State) : Prop := ∀ e ∈ s.waves, e.2.rgn ≠ r

theorem State.Vacated.of_bystanders {r : Nat} {s t : State} (h : t.bystanders = s.bystanders) (hs : s.Vacated r) :
    t.Vacated r := by
  intro e he
  have hmem : (e.1, e.2.bare) ∈ s.waves.map fun e => (e.1, e.2.bare) := by
    rw [← State.waves_of_bystanders h]
    exact List.mem_map_of_mem he
  obtain ⟨e', he', heq⟩ := List.mem_map.1 hmem
  have hrgn : e'.2.bare.rgn = e.2.bare.rgn := congrArg Wave.rgn (congrArg Prod.snd heq)
  exact fun h => hs e' he' (hrgn.trans h)

/-! ### The record -/

/-- A region that changes in what the records of its domain count alone. -/
def Region.Counts (g : Region → Region) : Prop :=
  ∀ d, (g d).rcb = d.rcb ∧ (g d).st = d.st ∧ (g d).rcbKey = d.rcbKey

theorem State.updRegion_bystanders {s t : State} (h : t.bystanders = s.bystanders) (r : Nat) (g : Region → Region) :
    (t.updRegion r g).bystanders = (s.updRegion r g).bystanders := by
  have hr := State.regions_of_bystanders h
  have hw := State.waves_of_bystanders h
  have ha := State.acts_of_bystanders h
  have hs := State.sets_of_bystanders h
  simp only [State.bystanders, State.updRegion, ha, hs, hw, hr]

/-- A record posted changes, beside memory, what its domain counts (R348, R366). -/
theorem State.post_bystanders (s : State) (dom : Nat) (r : Rec) :
    ∃ g, Region.Counts g ∧ (s.post dom r).1.bystanders = (s.updRegion dom g).bystanders := by
  unfold State.post
  split
  · rename_i hnone
    refine ⟨id, fun _ => ⟨rfl, rfl, rfl⟩, ?_⟩
    have : s.regions.upd dom id = s.regions := by
      rw [NMap.upd, show s.regions.find dom = none from hnone]
    simp only [State.bystanders, State.updRegion, this]
  · dsimp only
    have hlast (s1 : State) (d : Region) :
        (if d.root = dom then (s1.writeState dom).signal d.fn 0 else s1.writeState dom).bystanders = s1.bystanders := by
      split
      · rw [State.signal_bystanders, State.writeState_bystanders]
      · exact State.writeState_bystanders ..
    simp only [hlast]
    split
    · refine ⟨_, ?_, State.updRegion_bystanders (State.baseWrite_bystanders ..) ..⟩
      exact fun _ => ⟨rfl, rfl, rfl⟩
    · refine ⟨_, ?_, rfl⟩
      exact fun _ => ⟨rfl, rfl, rfl⟩

theorem State.post_acts (s : State) (dom : Nat) (r : Rec) : (s.post dom r).1.acts = s.acts := by
  obtain ⟨g, -, h⟩ := s.post_bystanders dom r
  exact (State.acts_of_bystanders h).trans rfl

/-- Every region keeps its control block and its state through a record posted. -/
theorem State.post_region? (s : State) (dom : Nat) (r : Rec) {n : Nat} {y : Region} (hy : s.region? n = some y) :
    ∃ z, (s.post dom r).1.region? n = some z ∧ z.rcb = y.rcb ∧ z.st = y.st := by
  obtain ⟨g, hg, h⟩ := s.post_bystanders dom r
  unfold State.region? at hy ⊢
  rw [State.regions_of_bystanders h]
  obtain ⟨hrcb, hst, -⟩ := hg y
  by_cases hn : n = dom
  · subst hn
    exact ⟨g y, by rw [State.updRegion_find, hy]; rfl, hrcb, hst⟩
  · exact ⟨y, by rw [State.updRegion_find_ne _ _ hn, hy], rfl, rfl⟩

theorem State.post_thread? (s : State) (dom : Nat) (r : Rec) {w l : Nat} {t : Thread} (ht : s.thread? w l = some t) :
    ∃ u, (s.post dom r).1.thread? w l = some u ∧ u.bare = t.bare := by
  obtain ⟨g, -, h⟩ := s.post_bystanders dom r
  exact State.thread?_of_bystanders h ht

/-! ### The parked thread -/

theorem State.thread?_fixTurn (s : State) (w l : Nat) : (s.fixTurn w).thread? w l = s.thread? w l := by
  unfold State.thread? State.fixTurn
  rw [NMap.find_upd_same]
  cases s.waves.find w with
  | none => rfl
  | some x => simp

theorem State.thread?_wakeCore (s : State) (g : Option Nat) (b : WakeBit) (w l : Nat) :
    (s.wakeCore g b).thread? w l = s.thread? w l := by
  have : (s.wakeCore g b).waves = s.waves := by
    unfold State.wakeCore
    split
    · dsimp only; split <;> rfl
    · rfl
  unfold State.thread?
  rw [this]

/-- The state once the record of a fault of a thread of a region is posted and the thread parked, before the domain acts. -/
def State.posted (s : State) (w l rgn : Nat) (pc : DWord) (f : Flt) : State :=
  ((s.post (s.ringOf rgn f) (s.threadRec w l pc.toNat f)).1.updThread w l fun t =>
    t.park pc f (s.post (s.ringOf rgn f) (s.threadRec w l pc.toNat f)).2).fixTurn w

theorem State.posted_acts (s : State) (w l rgn : Nat) (pc : DWord) (f : Flt) : (s.posted w l rgn pc f).acts = s.acts :=
  State.post_acts ..

theorem State.posted_region? {s : State} {n : Nat} {y : Region} (hy : s.region? n = some y) (w l rgn : Nat) (pc : DWord) (f : Flt) :
    ∃ z, (s.posted w l rgn pc f).region? n = some z ∧ z.rcb = y.rcb ∧ z.st = y.st :=
  State.post_region? _ _ _ hy

theorem State.posted_thread? {s : State} {w l : Nat} {t : Thread} (ht : s.thread? w l = some t) (rgn : Nat) (pc : DWord) (f : Flt) :
    ∃ (u : Thread) (seq : Nat), (s.posted w l rgn pc f).thread? w l = some (u.park pc f seq) ∧ u.bare = t.bare := by
  obtain ⟨u, hu, hbare⟩ := State.post_thread? s (s.ringOf rgn f) (s.threadRec w l pc.toNat f) ht
  exact ⟨u, _, by rw [State.posted, State.thread?_fixTurn, State.thread?_updThread, hu]; rfl, hbare⟩

theorem State.posted_actionOf {s : State} {rgn : Nat} {y : Region} (hy : s.region? rgn = some y) (w l : Nat) (pc : DWord) (f : Flt)
    (code : BitVec 8) : (s.posted w l rgn pc f).actionOf rgn code =
      field y.rcb.act.toNat (2 * (code.toNat % 32) + 1) (2 * (code.toNat % 32)) := by
  obtain ⟨z, hz, hrcb, -⟩ := State.posted_region? hy w l rgn pc f
  simp only [State.actionOf, hz, hrcb]

/-! ### The actions of a domain -/

/-- A code's action where it is not that of an overflow: deliver, make again, hold or kill (R166, R366). -/
theorem State.domainAct_eq (s : State) (w l rgn : Nat) {code : BitVec 8} (sub : BitVec 8) (marked : Bool) (h : code ≠ 0x0D) :
    s.domainAct w l rgn code sub marked =
      if s.actionOf rgn code = 1 then
        if marked = false then s.deliverThread w l rgn code sub
        else if code = 4 then s.replayThread w l else s.killRegion rgn
      else if s.actionOf rgn code = 2 then s else s.killRegion rgn := by
  unfold State.domainAct
  rw [if_neg h]
  split <;> simp_all

theorem State.deliverThread_thread? {s : State} {w l rgn : Nat} {t : Thread} {y : Region} (ht : s.thread? w l = some t)
    (hy : s.region? rgn = some y) (code sub : BitVec 8) :
    (s.deliverThread w l rgn code sub).thread? w l = some (t.deliver y.rcb.trape code sub) := by
  simp only [State.deliverThread, hy, State.thread?_wakeCore, State.thread?_fixTurn, State.thread?_updThread, ht, Option.map_some]

theorem State.replayThread_thread? {s : State} {w l : Nat} {t : Thread} (ht : s.thread? w l = some t) :
    (s.replayThread w l).thread? w l = some t.replay := by
  simp only [State.replayThread, State.thread?_wakeCore, State.thread?_fixTurn, State.thread?_updThread, ht, Option.map_some]

theorem State.mem_subtree_self {s : State} {r : Nat} {y : Region} (hy : s.region? r = some y) : r ∈ s.subtree r := by
  have hkey : r ∈ s.regions.map Prod.fst := NMap.mem_keys_of_find hy
  obtain ⟨n, hn⟩ : ∃ n, s.regions.length = n + 1 := by
    rw [List.mem_map] at hkey
    obtain ⟨e, he, -⟩ := hkey
    exact Nat.exists_eq_succ_of_ne_zero (List.length_pos_of_mem he).ne'
  have hanc : r ∈ s.ancestors r := by
    unfold State.ancestors
    rw [hn, ancestorsFrom, show s.regions.find r = some y from hy]
    dsimp only
    split <;> exact List.mem_cons_self
  exact List.mem_filter.2 ⟨hkey, by simpa [State.under] using hanc⟩

theorem State.countFwd_waves (s : State) : s.countFwd.waves = s.waves := by
  unfold State.countFwd
  extract_lets keep
  split <;> rfl

/-- What regions have in flight, once it is discarded, holds no wave of theirs (R352). -/
theorem State.discardWork_vacated (s : State) {rs : List Nat} {r : Nat} (h : r ∈ rs) : (s.discardWork rs).Vacated r := by
  intro e he
  unfold State.discardWork at he
  rw [State.countFwd_waves] at he
  obtain ⟨-, hrgn⟩ := List.mem_filter.1 he
  rintro rfl
  simp [h] at hrgn

/-- A region that is killed has no wave left (R352). -/
theorem State.killRegion_vacated {s : State} {r : Nat} {y : Region} (hy : s.region? r = some y) (hended : y.st ≠ .ended)
    (hkilled : y.st ≠ .killed) : (s.killRegion r).Vacated r := by
  unfold State.killRegion
  extract_lets rs s1
  have hr : r ∈ rs := List.mem_filter.2 ⟨State.mem_subtree_self hy, by simp [hy, hended, hkilled]⟩
  have hs1 : s1.Vacated r := State.discardWork_vacated _ hr
  refine foldl_keeps (State.Vacated r) _ (fun s d h => ?_) rs hs1
  have hpush := h.of_bystanders (s.pushRegion_bystanders d)
  have hupd : ((s.pushRegion d).updRegion d fun x => { x with st := .killed }).Vacated r := hpush
  exact (hupd.of_bystanders (State.raiseDone_bystanders ..)).of_bystanders (State.writeState_bystanders ..)

/-! ### The ring of a domain -/

theorem State.baseWrite_noWindow {s : State} {key : Nat} {bs : List Byte} (h : ∀ q, s.windowOf q = none) (hn : 0 < bs.length) :
    ∀ k, (s.baseWrite key bs).byte k = if key ≤ k ∧ k < key + bs.length then bs.getD (k - key) 0 else s.byte k := by
  obtain ⟨t, ht, hb⟩ := State.homeWrite_noWindow (s := s) (fun k _ _ => h k) hn none none
  unfold State.baseWrite
  rw [ht]
  exact hb

theorem State.writeState_byte {s : State} (h : ∀ q, s.windowOf q = none) {dom k : Nat} {d : Region} (hd : s.region? dom = some d)
    (hk : k < d.rcbKey + 0xE0 ∨ d.rcbKey + 0xE8 ≤ k) : (s.writeState dom).byte k = s.byte k := by
  unfold State.writeState
  rw [hd]
  dsimp only [State.putNum]
  rw [State.baseWrite_noWindow h (by rw [toLe_length]; decide), toLe_length, if_neg (by omega)]

/-- The domain's STATE is stored, and the root's function is signalled (R348, R366). -/
def State.notify (s : State) (dom : Nat) (d : Region) : State :=
  if d.root = dom then (s.writeState dom).signal d.fn 0 else s.writeState dom

/-- The state with a record in the ring of its domain. -/
def State.filed (s : State) (dom k : Nat) (d : Region) (r : Rec) : State :=
  (s.baseWrite k (toLe 64 (r.bits d.seq))).updRegion dom fun e =>
    { e with widx := (d.widx + 1) % d.rcb.fdn, seq := (e.seq + 1) % 65536 }

/-- A region with one more record lost. -/
def Region.lose (d : Region) : Region := { d with lost := min 255 (d.lost + 1), seq := (d.seq + 1) % 65536 }

section

variable {s : State} {dom k : Nat} {r : Rec} {d : Region} (hd : s.region? dom = some d) (hn : d.rcb.fdn ≠ 0)
  (hk : s.placeWr d.fn d.rcb.asr (d.rcb.fdr.toNat + 64 * d.widx) = some k)
include hd hn hk

theorem State.post_of_room (h : (d.widx + 1) % d.rcb.fdn ≠ s.num (d.rcbKey + 0xE8) 3) :
    s.post dom r = ((s.filed dom k d r).notify dom d, d.seq) := by
  have hfull : ((d.widx + 1) % d.rcb.fdn == s.num (d.rcbKey + 0xE8) 3 || d.rcb.fdn == 0) = false := by simp [h, hn]
  unfold State.post
  rw [hd]
  dsimp only
  rw [if_neg hn, hk, hfull]
  rfl

theorem State.post_of_full (h : (d.widx + 1) % d.rcb.fdn = s.num (d.rcbKey + 0xE8) 3) :
    s.post dom r = ((s.updRegion dom Region.lose).notify dom d, d.seq) := by
  have hfull : ((d.widx + 1) % d.rcb.fdn == s.num (d.rcbKey + 0xE8) 3 || d.rcb.fdn == 0) = true := by simp [h]
  unfold State.post
  rw [hd]
  dsimp only
  rw [if_neg hn, hk, hfull]
  rfl

end

theorem State.notify_bystanders (s : State) (dom : Nat) (d : Region) : (s.notify dom d).bystanders = s.bystanders := by
  unfold State.notify
  split
  · rw [State.signal_bystanders, State.writeState_bystanders]
  · exact State.writeState_bystanders ..

theorem State.notify_region? (s : State) (dom n : Nat) (d : Region) : (s.notify dom d).region? n = s.region? n := by
  unfold State.region?
  rw [State.regions_of_bystanders (s.notify_bystanders dom d)]

theorem State.notify_byte {s : State} (h : ∀ q, s.windowOf q = none) {dom q : Nat} {e : Region} (he : s.region? dom = some e)
    (hq : q < e.rcbKey + 0xE0 ∨ e.rcbKey + 0xE8 ≤ q) (d : Region) : (s.notify dom d).byte q = s.byte q := by
  unfold State.notify
  split
  · exact State.writeState_byte h he hq
  · exact State.writeState_byte h he hq

theorem State.filed_region? {s : State} {dom : Nat} {d : Region} (hd : s.region? dom = some d) (k : Nat) (r : Rec) :
    (s.filed dom k d r).region? dom =
      some { d with widx := (d.widx + 1) % d.rcb.fdn, seq := (d.seq + 1) % 65536 } := by
  unfold State.filed State.region?
  rw [State.updRegion_find, State.regions_of_bystanders (State.baseWrite_bystanders ..), show s.regions.find dom = some d from hd,
    Option.map_some]

/-- The record stands in the ring, at the place that its domain's STATE gives it. -/
theorem State.filed_byte {s : State} (h : ∀ q, s.windowOf q = none) (dom k : Nat) (d : Region) (r : Rec) {i : Nat} (hi : i < 64) :
    (s.filed dom k d r).byte (k + i) = (toLe 64 (r.bits d.seq)).getD i 0 := by
  have hlen : (toLe 64 (r.bits d.seq)).length = 64 := toLe_length ..
  have hb := State.baseWrite_noWindow (key := k) (bs := toLe 64 (r.bits d.seq)) h (by omega) (k + i)
  rw [if_pos (by omega), Nat.add_sub_cancel_left] at hb
  exact hb

/-- A fault's record is posted, the thread parked, and the domain acts (R49, R163). -/
theorem State.takeFault_eq_act {s : State} {w l : Nat} {x : Wave} {t : Thread} (hx : s.waves.find w = some x)
    (ht : x.threads[l]? = some t) (pc : DWord) {f : Flt} (hbad : f.bad = none) :
    s.takeFault w l pc f = (s.posted w l x.rgn pc f).act (.act w l x.rgn f.code f.sub t.mark) :=
  State.takeFault_eq hx ((State.thread?_of_find hx).trans ht) pc f hbad

/-- Where no group holds the actions back, the domain acts at once. -/
theorem State.takeFault_eq_domainAct {s : State} {w l : Nat} {x : Wave} {t : Thread} (hacts : s.acts = none)
    (hx : s.waves.find w = some x) (ht : x.threads[l]? = some t) (pc : DWord) {f : Flt} (hbad : f.bad = none) :
    s.takeFault w l pc f = (s.posted w l x.rgn pc f).domainAct w l x.rgn f.code f.sub t.mark := by
  rw [State.takeFault_eq_act hx ht pc hbad, State.act, State.posted_acts, hacts]
  rfl

/-- Settles O56: the post of the record leaves the thread and the regions as they were, the domain acts on the parked thread, and
a kill ends with the region's waves gone. -/
theorem faultsTaken : Obligations.FaultsTaken := by
  unfold Obligations.FaultsTaken
  refine ⟨fun s w l pc f x t y hacts hx ht hy hcode hbad => ?_, fun s w l pc f x t as hacts hx ht hbad => ?_, fun s as hacts => ?_,
    fun s dom k r d hd hn hk hwin => ⟨fun hroom => ?_, fun hfull => ?_⟩, fun t code sub seq ht => ?_⟩
  · obtain ⟨u, seq, hu, hbare⟩ := State.posted_thread? ((State.thread?_of_find hx).trans ht) x.rgn pc f
    obtain ⟨z, hz, hrcb, hst⟩ := State.posted_region? hy w l x.rgn pc f
    obtain ⟨hv, hpreds, hstack, hepc, hmark⟩ := Thread.fields_of_bare hbare
    rw [State.takeFault_eq_domainAct hacts hx ht pc hbad, State.domainAct_eq _ _ _ _ _ _ hcode,
      State.posted_actionOf hy w l pc f f.code]
    refine ⟨fun hact hm => ?_, fun hact => ?_, fun hact hm hc => ?_, fun hact hact1 hended hkilled => ?_⟩
    · rw [if_pos hact, if_pos hm]
      exact ⟨_, State.deliverThread_thread? hu hz f.code f.sub, rfl, congrArg Rcb.trape hrcb, rfl, rfl, rfl, rfl, hv, hpreds, hstack⟩
    · rw [if_neg (by omega), if_pos hact]
      exact ⟨_, seq, hu, rfl, rfl, rfl, hv, hpreds, hepc, hmark⟩
    · rw [if_pos hact, if_neg (by simp [hm]), if_pos hc]
      exact ⟨_, State.replayThread_thread? hu, rfl, rfl, hmark.trans hm⟩
    · have hgone := State.killRegion_vacated hz (hst ▸ hended) (hst ▸ hkilled)
      rw [if_neg hact]
      split
      case isTrue h1 =>
        obtain ⟨hm, hc⟩ := hact1 h1
        rwa [if_neg (by simp [hm]), if_neg hc]
      case isFalse => exact hgone
  · obtain ⟨u, seq, hu, -⟩ := State.posted_thread? ((State.thread?_of_find hx).trans ht) x.rgn pc f
    rw [State.takeFault_eq_act hx ht pc hbad, State.act, State.posted_acts, hacts]
    exact ⟨rfl, _, seq, hu, rfl, rfl, rfl⟩
  · simp only [State.actAll, hacts]
  · have hfiled := State.filed_region? hd k r
    have hwin' : ∀ q, (s.filed dom k d r).windowOf q = none := fun q =>
      (State.windowOf_congr (State.sets_of_bystanders (State.baseWrite_bystanders ..)) q).trans (hwin q)
    rw [State.post_of_room hd hn hk hroom, State.notify_region?]
    refine ⟨rfl, ⟨_, hfiled, rfl, rfl, rfl⟩, fun hapart i hi => ?_⟩
    exact (State.notify_byte hwin' hfiled (by dsimp only; omega) d).trans (State.filed_byte hwin dom k d r hi)
  · rw [State.post_of_full hd hn hk hfull, State.notify_region?]
    refine ⟨rfl, d.lose, ?_, rfl, rfl⟩
    unfold State.region? at hd ⊢
    rw [State.updRegion_find, hd, Option.map_some]
  · simp only [Thread.replay, ht]

end Sys2Proof.Machine
end
section
/-! PROOFS. What the fault domains have to do stays as it is: memory, the accesses of threads, the work of regions and the
actions themselves. -/

namespace Sys2Proof.Machine
open Sys2Proof

/-- The fault domains have this to do, once the group is done (R163). -/
def State.Acts (as : Option (List DomAct)) (s : State) : Prop := s.acts = as

namespace State.Acts

variable {as : Option (List DomAct)} {s : State}

theorem of_bystanders {t : State} (h : s.Acts as) (ht : t.bystanders = s.bystanders) : t.Acts as :=
  (State.acts_of_bystanders ht).trans h

/-! ### The parts of an access -/

theorem readAt (h : s.Acts as) (pt : Point) (tag : Option (BitVec 5)) (p : Part) : FstAll (State.Acts as) (s.readAt pt tag p) := by
  cases pt with
  | scr wg => exact h
  | tob wg => exact h
  | copy g svc => exact h.of_bystanders (s.coreRead_bystanders ..)
  | home => exact h.of_bystanders (s.atHome_bystanders ..)

theorem homeWrite (h : s.Acts as) (tag : Option (BitVec 5)) (b : Option (Nat × Nat)) (key : Nat) (bs : List Byte) :
    ExcAll (SndAll (State.Acts as)) (State.Acts as) (s.homeWrite tag b key bs) := by
  have hw := h.of_bystanders (s.homeWrite_bystanders tag b key bs)
  cases hr : s.homeWrite tag b key bs <;> rw [hr] at hw <;> exact hw

theorem writeAt (h : s.Acts as) (pt : Point) (tag : Option (BitVec 5)) (b : Option (Nat × Nat)) (p : Part) (bs : List Byte) :
    ExcAll (SndAll (State.Acts as)) (State.Acts as) (s.writeAt pt tag b p bs) := by
  cases pt with
  | scr wg => exact h
  | tob wg => exact h
  | copy g svc => exact h.of_bystanders (s.coreWrite_bystanders ..)
  | home => exact h.homeWrite ..

theorem readParts (h : s.Acts as) (w : Nat) (a : Acc) (ps : List Part) : FstAll (State.Acts as) (s.readParts w a ps) := by
  induction ps generalizing s with
  | nil => exact h
  | cons p ps ih => exact ih (h.readAt _ _ p)

theorem writeParts (h : s.Acts as) (w l : Nat) (a : Acc) (ps : List Part) (bs : List Byte) :
    ExcAll (SndAll (State.Acts as)) (State.Acts as) (s.writeParts w l a ps bs) := by
  induction ps generalizing s bs with
  | nil => exact h
  | cons p ps ih =>
    rw [State.writeParts]
    split
    · exact ih h _
    · have hw := h.writeAt (s.pointOf w a p.cls) a.tag (some (w, l)) p (bs.take p.size)
      split <;> rename_i heq <;> rw [heq] at hw
      · exact hw
      · exact ih hw _

theorem constGrain (h : s.Acts as) (g rgn w l grain : Nat) : FstAll (State.Acts as) (s.constGrain g rgn w l grain) := by
  have h1 := h.of_bystanders (s.atHome_bystanders (32 * grain) 32)
  unfold State.constGrain
  extract_lets s1 now all held put
  split
  · exact h1
  · exact h1
  · exact h1

theorem constRead (h : s.Acts as) (g rgn w l key n : Nat) : FstAll (State.Acts as) (s.constRead g rgn w l key n) := by
  unfold State.constRead
  exact foldl_inv (P := FstAll (State.Acts as)) h fun r i hr => FstAll.intro (constGrain hr g rgn w l i)

theorem constParts (h : s.Acts as) (g rgn w l : Nat) (ps : List Part) : FstAll (State.Acts as) (s.constParts g rgn w l ps) := by
  induction ps generalizing s with
  | nil => exact h
  | cons p ps ih => exact ih (h.constRead g rgn w l p.key p.size)

theorem pushFor (h : s.Acts as) (w : Nat) (scope : Scope) (clsAt : Bool) : (s.pushFor w scope clsAt).Acts as := by
  unfold State.pushFor
  extract_lets s1
  have h1 : s1.Acts as := by
    unfold s1
    split
    · exact ite_inv (h.of_bystanders (s.writeBackAll_bystanders _)) h
    · exact h
  exact ite_inv (h1.of_bystanders (s1.writeBackSvc_bystanders _)) h1

theorem pullFor (h : s.Acts as) (w : Nat) (scope : Scope) : (s.pullFor w scope).Acts as := by
  unfold State.pullFor
  split
  · exact ite_inv (h.of_bystanders (s.dropClean_bystanders _)) h
  · exact h

end State.Acts

/-- The outcome of an access leaves the fault domains this to do. -/
def Perf.Acts (as : Option (List DomAct)) (p : Perf) : Prop := p.s.Acts as

namespace State.Acts

variable {as : Option (List DomAct)} {s : State}

/-- An access performed at its points (R155, R245). -/
theorem perform (h : s.Acts as) (w l : Nat) (a : Acc) : OptAll (Perf.Acts as) (s.perform w l a) := by
  unfold State.perform
  split
  · exact .none
  extract_lets clsAt s0 cut done rgn clear wide
  have h0 : s0.Acts as := ite_inv (h.pushFor ..) h
  have hdone (s : State) (v : Option (List Word)) (hs : s.Acts as) : (done s v).Acts as :=
    ite_inv (P := State.Acts as) (hs.pullFor ..) hs
  have hwide : wide.Acts as := by
    unfold wide
    split
    · exact ite_inv ((h0.of_bystanders (s0.writeBack_bystanders ..)).of_bystanders (State.dropCopy_bystanders ..)) h0
    · exact h0
  have hwritten (s : State) (hs : s.Acts as) (bs : List Byte) (g : State → State) (hg : ∀ s, s.Acts as → (g s).Acts as)
      (v v' : Option (List Word)) : OptAll (Perf.Acts as) (match s.writeParts w l a a.parts bs with
        | .ok s1 => some (done (g s1) v)
        | .error (k, s1) => some ⟨g s1, v', none, some k⟩) := by
    have hw := hs.writeParts w l a a.parts bs
    split <;> rename_i heq <;> rw [heq] at hw
    · exact .some (hdone _ _ (hg _ hw))
    · exact .some (hg _ hw)
  split
  case h_1 => exact .some h
  case h_2 => exact .some (hdone _ _ h0)
  case h_3 =>
    split
    · exact .some (hdone _ _ h0)
    extract_lets reserve
    have hreserve (s : State) (hs : s.Acts as) : (reserve s).Acts as := by
      unfold reserve
      split
      · split <;> exact hs
      · exact hs
    split
    · exact .some (hdone _ _ (hreserve _ h0))
    split
    rename_i s1 bs bad heq
    have h1 := hreserve s1 ((h0.readParts w a a.parts).of_eq heq)
    split
    · exact .some (hdone _ (some (onesWords a.words)) h1)
    · exact .some (hdone _ _ h1)
  case h_4 =>
    split
    · exact .some (hdone _ _ h0)
    split
    rename_i s1 bs bad heq
    have h1 : s1.Acts as := (h0.constParts (fetchCore w) rgn w l a.parts).of_eq heq
    split
    · exact .some (hdone _ (some (onesWords a.words)) h1)
    · exact .some (hdone _ _ h1)
  case h_5 => exact hwritten _ h0 _ id (fun _ hs => hs) none none
  case h_6 =>
    split
    · split
      · split
        · exact .some (hdone _ _ h0)
        · exact hwritten _ h0 _ clear (fun _ hs => hs) _ _
      · exact .some (hdone _ _ h0)
    · exact .some (hdone _ _ h0)
  case h_7 =>
    split
    · exact .some (hdone _ _ h0)
    split
    rename_i s1 bs bad heq
    have h1 : s1.Acts as := (hwide.readParts w a a.parts).of_eq heq
    split
    · exact .some (hdone _ (some (onesWords a.words)) h1)
    · exact hwritten _ h1 _ id (fun _ hs => hs) _ _

end State.Acts

end Sys2Proof.Machine
end
section
/-! PROOFS. What the fault domains have to do stays as it is through the end of a region's work and through their own actions; and
where they have nothing to do, an issued access that is performed, or that faults, gives them nothing. -/

namespace Sys2Proof.Machine
open Sys2Proof

namespace State.Acts

variable {as : Option (List DomAct)} {s : State}

/-! ### The work of regions -/

theorem performKept (h : s.Acts as) (e : Pend) : (s.performKept e).Acts as := by
  unfold State.performKept
  split
  · rename_i p heq
    exact h.perform e.w e.lane e.acc p heq
  · exact h

theorem flushWave (h : s.Acts as) (w : Nat) (x : Wave) : (s.flushWave w x).Acts as := by
  unfold State.flushWave
  refine foldl_inv h fun s e hs => ?_
  split
  · split
    · exact hs
    · exact foldl_inv hs fun s f hs => hs.performKept f
  · exact hs

theorem owe (h : s.Acts as) (w : Nat) : (s.owe w).Acts as := by
  unfold State.owe
  split <;> exact h

theorem wakeCore (h : s.Acts as) (g : Option Nat) (b : WakeBit) : (s.wakeCore g b).Acts as :=
  h.of_bystanders (s.wakeCore_bystanders g b)

theorem wakeWhere (h : s.Acts as) (w : Nat) (b : WakeBit) (cond : Why → Bool) : (s.wakeWhere w b cond).Acts as := by
  unfold State.wakeWhere
  split
  · exact h
  · rename_i x _
    extract_lets lanes
    have hset : (s.setWave w (lanes.foldl (fun x l => x.unblock l) x)).Acts as := h
    exact ite_inv h (hset.wakeCore _ b)

theorem wakeAll (h : s.Acts as) (b : WakeBit) (cond : Why → Bool) : (s.wakeAll b cond).Acts as := by
  unfold State.wakeAll
  exact foldl_inv h fun s w hs => hs.wakeWhere w b cond

theorem spoilBin (h : s.Acts as) (b : BinDesc) : (s.spoilBin b).Acts as := by
  unfold State.spoilBin
  refine foldl_inv h fun s i hs => ?_
  split
  · exact of_bystanders (s := s.fresh.2) hs (State.baseWrite_bystanders ..)
  · exact hs

theorem clearEngines (h : s.Acts as) (cluster : Nat) (members : List Nat) : (s.clearEngines cluster members).Acts as := by
  unfold State.clearEngines
  exact foldl_inv h fun s m hs => hs

theorem countFwd (h : s.Acts as) : s.countFwd.Acts as := by
  unfold State.countFwd
  extract_lets keep
  exact ite_inv h h

theorem discardWork (h : s.Acts as) (rs : List Nat) : (s.discardWork rs).Acts as := by
  unfold State.discardWork
  extract_lets mine dead s1 s2 s2b s3 cluster
  have h1 : s1.Acts as := foldl_inv h fun s e hs => (hs.flushWave e.1 e.2).owe e.1
  have h2 : s2.Acts as := foldl_inv h1 fun s e hs => hs.wakeCore _ .rgn
  have h2b : s2b.Acts as := foldl_inv h2 fun s b hs => hs.spoilBin b
  have h3 : s3.Acts as := foldl_inv h2b fun s e hs => hs.clearEngines _ _
  exact countFwd h3

theorem stopRegions (h : s.Acts as) (rs : List Nat) : (s.stopRegions rs).Acts as := by
  unfold State.stopRegions
  exact foldl_inv h fun s r hs => hs

theorem resolveNone (h : s.Acts as) (i : Nat) : (s.resolveNone i).Acts as := by
  unfold State.resolveNone
  extract_lets x live s1
  split
  · have h1 : (({ s1 with versions := s1.versions.filter fun v => v.set != i } : State).clearWindow i).Acts as := h
    exact (h1.of_bystanders (State.raiseResc_bystanders _ i)).wakeAll _ _
  · exact h

theorem squashFacets (h : s.Acts as) (i mask : Nat) : (s.squashFacets i mask).Acts as := by
  unfold State.squashFacets
  extract_lets x fs rs s1 s2 s3
  have h1 : s1.Acts as := h.discardWork rs
  have h2 : s2.Acts as := h1
  have h3 : s3.Acts as := h2
  exact (h3.stopRegions rs).resolveNone i

theorem squashWaiting (h : s.Acts as) (rs : List Nat) : (s.squashWaiting rs).Acts as := by
  unfold State.squashWaiting
  extract_lets hit mark
  have hmark : ({ s with prisms := s.prisms.map mark } : State).Acts as := h
  exact hmark.stopRegions _

theorem squashKilled (h : s.Acts as) (rs : List Nat) : (s.squashKilled rs).Acts as := by
  unfold State.squashKilled
  refine foldl_inv (h.squashWaiting rs) fun s i hs => ?_
  extract_lets x live fs
  exact ite_inv (ite_inv (hs.squashFacets ..) (ite_inv hs (hs.squashFacets ..))) hs

theorem killRegion (h : s.Acts as) (r : Nat) : (s.killRegion r).Acts as := by
  unfold State.killRegion
  extract_lets rs s1
  have h1 : s1.Acts as := (h.squashKilled _).discardWork rs
  refine foldl_inv h1 fun s d hs => ?_
  have hpush : ((s.pushRegion d).updRegion d fun x => { x with st := .killed }).Acts as :=
    (hs.of_bystanders (s.pushRegion_bystanders d) : (s.pushRegion d).Acts as)
  exact (hpush.of_bystanders (State.raiseDone_bystanders ..)).of_bystanders (State.writeState_bystanders ..)

/-! ### The actions of fault domains -/

theorem overflowAction (h : s.Acts as) (rgn : Nat) : (s.overflowAction rgn).Acts as := by
  unfold State.overflowAction
  split
  · exact h
  · exact ite_inv (h.squashFacets ..) (h.squashFacets ..)

theorem deliverThread (h : s.Acts as) (w l rgn : Nat) (code sub : BitVec 8) : (s.deliverThread w l rgn code sub).Acts as := by
  unfold State.deliverThread
  extract_lets trape
  have hthread : ((s.updThread w l fun t => t.deliver trape code sub).fixTurn w).Acts as := h
  exact hthread.wakeCore _ _

theorem replayThread (h : s.Acts as) (w l : Nat) : (s.replayThread w l).Acts as := by
  have hthread : ((s.updThread w l Thread.replay).fixTurn w).Acts as := h
  exact hthread.wakeCore _ _

theorem domainAct (h : s.Acts as) (w l rgn : Nat) (code sub : BitVec 8) (marked : Bool) :
    (s.domainAct w l rgn code sub marked).Acts as := by
  unfold State.domainAct
  split
  · exact h.overflowAction rgn
  · split
    · exact ite_inv (h.deliverThread ..) (ite_inv (h.replayThread ..) (h.killRegion rgn))
    · exact h
    · exact h.killRegion rgn

theorem doAct (h : s.Acts as) (a : DomAct) : (s.doAct a).Acts as := by
  cases a with
  | act w l rgn code sub marked => exact h.domainAct ..
  | kill rgn => exact h.killRegion rgn

theorem post (h : s.Acts as) (dom : Nat) (r : Rec) : (s.post dom r).1.Acts as := (s.post_acts dom r).trans h

theorem postEvent (h : s.Acts as) (dom rgn : Nat) (f : Flt) : (s.postEvent dom rgn f).Acts as := by
  have hrec : (s.fresh.2.engRec rgn none (s.fresh.1 % 48) (s.fresh.1 / 48 % 2 ^ 64) false f).1.Acts as := h
  exact hrec.post ..

end State.Acts

/-! ### Faults, where the domains act at once -/

/-- The fault domains have nothing to do, and act at once (R163). -/
def State.Idle (s : State) : Prop := s.Acts none

namespace State.Idle

variable {s : State}

theorem act (h : s.Idle) (a : DomAct) : (s.act a).Idle := by
  unfold State.act
  rw [show s.acts = none from h]
  exact State.Acts.doAct h a

theorem dataError (h : s.Idle) (rgn key : Nat) : (s.dataError rgn key).Idle := by
  unfold State.dataError
  extract_lets s1
  have h1 : s1.Idle := State.Acts.postEvent h ..
  split
  · exact h1
  · exact h1
  · exact h1.act _

theorem walkError (h : s.Idle) (rgn : Nat) (f : Flt) : (s.walkError rgn f).Idle := by
  unfold State.walkError
  split
  · exact h.dataError ..
  · exact h

theorem takeFault (h : s.Idle) (w l : Nat) (pc : DWord) (f : Flt) : (s.takeFault w l pc f).Idle := by
  unfold State.takeFault
  split
  · rename_i x t _ _
    have hposted : (s.posted w l x.rgn pc f).Idle := (s.posted_acts w l x.rgn pc f).trans h
    exact (hposted.act _).walkError ..
  · exact h

/-! ### What a thread has issued -/

theorem pushFor (h : s.Idle) (w : Nat) (scope : Scope) (clsAt : Bool) : (s.pushFor w scope clsAt).Idle := State.Acts.pushFor h ..

theorem feedWake (h : s.Idle) (w : Nat) (a : Acc) : (s.feedWake w a).Idle := by
  unfold State.feedWake
  split
  · exact h
  · exact State.Acts.wakeWhere h ..

theorem passOver {after : State} (h : after.Idle) (before : State) (y : Party) (a : Acc) : (before.passOver after y a).Idle := by
  unfold State.passOver
  split
  · exact h
  · exact h

theorem releaseLast (h : s.Idle) (w l id : Nat) : (s.releaseLast w l id).Idle := by
  unfold State.releaseLast
  extract_lets s1
  have h1 : s1.Idle := by
    unfold s1
    split
    · exact h
    · exact foldl_inv h fun s a hs => foldl_inv hs fun s e hs => State.Acts.performKept hs e
  exact h1.pushFor ..

theorem performRaw (h : s.Idle) (w l : Nat) (a : Acc) : OptAll State.Idle (s.performRaw w l a) := by
  unfold State.performRaw
  split
  · exact .some h
  · extract_lets ahead s0 rgn
    have h0 : s0.Idle := ite_inv (P := State.Idle) h h
    refine OptAll.map (P := Perf.Acts none) (State.Acts.perform h0 w l a) fun p hp => ?_
    extract_lets done s1 s2 s3
    have hset : (p.s.updThread w l fun t => (t.setAcc a.id done).markDue a).Idle := hp
    have h1 : s1.Idle := hset.feedWake w a
    have h2 : s2.Idle := ite_inv (h1.passOver ..) h1
    have h3 : s3.Idle := by
      unfold s3
      split
      · exact h2.dataError ..
      · exact h2
    split
    · exact (h3.releaseLast ..).takeFault ..
    · exact h3

/-- A chain of partial steps, each of which keeps the domains idle. -/
theorem foldl_bind {α : Type} {f : State → α → Option State} (hf : ∀ s a, s.Idle → OptAll State.Idle (f s a)) (h : s.Idle)
    (l : List α) : OptAll State.Idle (l.foldl (fun r a => r.bind fun s1 => f s1 a) (some s)) :=
  foldl_inv (P := OptAll State.Idle) (.some h) fun _ a hr => hr.bind fun s1 h1 => hf s1 a h1

theorem forceIn (h : s.Idle) (y : Party) (scope : Scope) (n : Nat) : OptAll State.Idle (s.forceIn y scope n) := by
  induction n generalizing s y scope with
  | zero => exact .some h
  | succ n ih =>
    rw [State.forceIn]
    refine foldl_bind (fun s e hs => ?_) h _
    refine OptAll.map (P := State.Idle) (foldl_bind (fun s f hs => ?_) hs _) fun s2 h2 => foldl_inv h2 fun s sc hs => hs.pushFor _ _ _
    split
    · exact .some hs
    · exact (ite_inv (.some hs) (ih hs _ _)).bind fun s1 h1 => h1.performRaw _ _ _

theorem performOne (h : s.Idle) (w l : Nat) (a : Acc) : OptAll State.Idle (s.performOne w l a) :=
  ite_inv (P := OptAll State.Idle) (h.performRaw w l a) ((h.forceIn _ _ _).bind fun _ h1 => h1.performRaw w l a)

theorem performList (h : s.Idle) (es : List (Nat × Nat × Nat)) : OptAll State.Idle (s.performList es) := by
  induction es generalizing s with
  | nil => exact .some h
  | cons e es ih =>
    rw [State.performList]
    split
    · exact ih h
    · exact (h.performOne _ _ _).bind fun s1 h1 => ih h1

theorem serveOne (h : s.Idle) (k : Nat) (q : SvcReq) : OptAll State.Idle (s.serveOne k q) :=
  (h.performList _).map fun _ h1 => h1

theorem performElem (h : s.Idle) (e : Nat × Nat × Nat) : OptAll State.Idle (s.performElem e) :=
  ite_inv (P := OptAll State.Idle) (foldl_bind (fun _ q hs => hs.serveOne _ q) h _) (h.performList _)

theorem performUpTo (h : s.Idle) (w l id : Nat) : OptAll State.Idle (s.performUpTo w l id) :=
  foldl_bind (fun _ e hs => hs.performElem e) h _

theorem drainIf (h : s.Idle) (w l : Nat) (p : Acc → Bool) : OptAll State.Idle (s.drainIf w l p) := by
  unfold State.drainIf
  split
  · exact .some h
  · exact foldl_bind (fun _ a hs => hs.performUpTo w l a.id) h _

theorem drainSvc (h : s.Idle) (w : Nat) : OptAll State.Idle (s.drainSvc w) :=
  foldl_bind (fun _ (q : SvcReq) hs => hs.performUpTo q.wave q.lane q.acc) h _

theorem releaseAt (h : s.Idle) (w l : Nat) (scope : Scope) : OptAll State.Idle (s.releaseAt w l scope) :=
  ((h.drainIf w l _).bind fun _ h1 => ite_inv (h1.drainSvc w) (.some h1)).map fun _ h1 => h1.pushFor ..

theorem raise? (h : s.Idle) (w l : Nat) (pc : DWord) (f : Flt) : OptAll State.Idle (s.raise? w l pc f) :=
  (h.releaseAt w l .dev).map fun _ h1 => h1.takeFault ..

theorem pushElem (h : s.Idle) (w l id : Nat) (pc : DWord) (n : Nat) (v : Word) : OkAll State.Idle (s.pushElem w l id pc n v) := by
  unfold State.pushElem
  split
  · exact h
  · extract_lets off
    split
    · exact h
    · trivial

/-! ### Results written, and what an instruction waits for -/

theorem returnOne (h : s.Idle) (w l id : Nat) : OptAll State.Idle (s.returnOne w l id) := by
  unfold State.returnOne
  refine (h.performUpTo w l id).bind fun s1 h1 => ?_
  split
  · split
    · extract_lets s2
      have h2 : s2.Idle := h1
      split
      · split
        · rename_i s3 heq
          exact .some (of_eq (P := OkAll State.Idle) (h2.pushElem ..) heq)
        · exact h2.raise? _ _ _ _
      · exact .some (ite_inv (P := State.Idle) h2 h2)
    · exact .some h1
  · exact .some h1

theorem returnAcc (h : s.Idle) (w l id : Nat) : OptAll State.Idle (s.returnAcc w l id) := by
  unfold State.returnAcc
  split
  · split
    · exact h.returnOne w l id
    · exact foldl_bind (fun _ (e : Nat × Acc) hs => hs.returnOne w e.1 e.2.id) h _
  · exact .some h

theorem settle (h : s.Idle) (w : Nat) (u : Unit2) (ops : List (Operand × Nat)) (lanes : List Nat) :
    OptAll State.Idle (s.settle w u ops lanes) := by
  unfold State.settle
  split
  · exact .some h
  · split
    · exact .some h
    · extract_lets late s1
      have h1 : s1.Idle := foldl_inv (P := State.Idle) h fun s l hs => hs
      refine foldl_bind (fun s l hs => ?_) h1 _
      split
      · exact .some hs
      · exact foldl_bind (fun _ (e : Nat × Nat × Bool) hs => hs.returnAcc w e.1 e.2.1) hs _

end State.Idle

end Sys2Proof.Machine
end
section
/-! PROOFS. An instruction that starts finds the fault domains idle, and holds their actions until it is done (R163); the settling of
`MasksYieldNop`. -/

namespace Sys2Proof.Machine
open Sys2Proof

namespace State.Idle

variable {s : State}

theorem freeDecisions (h : s.Idle) (wg : Nat) : (s.freeDecisions wg).Idle := by
  unfold State.freeDecisions
  extract_lets mine drop
  have hdrop : ({ s with wgs := s.wgs.upd wg drop } : State).Idle := h
  exact State.Acts.wakeAll hdrop ..

theorem popQueue (h : s.Idle) (w : Nat) (x : Wave) (q n : Nat) : (s.popQueue w x q n).Idle := by
  unfold State.popQueue
  split
  · have hpos : ({ s with waves := s.waves.upd w fun x => { x with dqPos := x.dqPos + 1 } } : State).Idle := h
    exact hpos.freeDecisions x.wg
  · split
    · exact h
    · exact h

theorem queueAccess (h : s.Idle) (c : Ctx) : OptAll (FstAll State.Idle) (s.queueAccess c) := by
  unfold State.queueAccess
  extract_lets n room
  split
  · exact .some h
  · split
    · exact .none
    · refine foldl_inv (P := OptAll (FstAll State.Idle)) (.some h) fun r q hr => hr.bind fun p hp => ?_
      split
      extract_lets held need
      exact ite_inv (.some hp) (.mapOf fun _ => popQueue hp ..)

theorem popAcquire (h : s.Idle) (c : Ctx) : OptAll State.Idle (s.popAcquire c) := by
  unfold State.popAcquire
  refine ite_inv (.some h) (foldl_bind (fun s l hs => ?_) h _)
  exact (hs.forceIn _ _ _).map fun _ h1 => State.Acts.pullFor h1 ..

end State.Idle

/-- An instruction that begins with the fault domains idle has them wait for its group, with nothing to do yet (R163). -/
theorem acts_of_begins {i : Instr} {s s1 : State} {c : Ctx} (h : Begins i s c s1) (hs : s.acts = none) : s1.acts = some [] := by
  rw [Begins, State.startOf] at h
  split at h
  · obtain ⟨c0, c1, c2, r0, r1, r2, r3, pops, -, hr0, -, hr1, -, -, -, -, hq, hp, rfl, rfl⟩ := State.start_go h
    have h0 : r0.Idle := State.Idle.settle hs _ _ _ _ r0 hr0
    have h1 : r1.Idle := h0.settle _ _ _ _ r1 hr1
    have h2 : r2.Idle := h1.queueAccess c2 _ hq
    exact State.begin_acts _ (h2.popAcquire c2 r3 hp)
  · cases h

/-- The mask that an instruction writes, where a lane executes it (R139). -/
theorem State.putMask_of_group (s : State) {c : Ctx} {f : Frame} (hf : c.e.f = f) (hg : c.group ≠ []) (m : Word) :
    s.putMask c m = s.putDst c.w (c.group.headD 0) f.d [m] := by
  rw [State.putMask, if_neg (by simpa using hg), hf]
  rfl

theorem State.putMask_of_none (s : State) {c : Ctx} (hg : c.group = []) (m : Word) : s.putMask c m = s := by
  rw [State.putMask, if_pos (by simp [hg])]

/-- A mask written is the wave's mask of that number, and nothing else changes (R17, R38). -/
theorem State.putDst_mask {s : State} {w : Nat} {x : Wave} (hx : s.waves.find w = some x) (l : Nat) (n : BitVec 4) (m : Word) :
    (s.putDst w l (.k n) [m]).waves.find w = some { x with k := NMap.put 0 x.k n.toNat m } := by
  unfold State.putDst
  rw [NMap.find_upd_same, hx]
  rfl

/-- `yield` gives the turn itself, and then the domains act (R33, R144). -/
theorem exec_yield_of_begins {f : Frame} {s s1 : State} {c : Ctx} (h : Begins (.yield f) s c s1) :
    exec (.yield f) s = .next (if c.group.isEmpty then s1.settleTurn c
      else ({ s1 with waves := s1.waves.upd c.w fun x => x.yieldTurn c.path } : State).actAll) := by
  have hexec : exec (.yield f) s = execYield f s := rfl
  rw [hexec, execYield]
  exact issue_go h

/-- Settles O26: each instruction is its body over the state in which it begins; `yield` gives the turn itself, with the fault domains idle. -/
theorem masksYieldNop : Obligations.MasksYieldNop := by
  unfold Obligations.MasksYieldNop
  refine fun f s s1 c => ⟨fun or h hg => ?_, fun sel h hg => ?_, fun or h hg => ?_, fun sel h hg => ?_, fun h => ?_, fun h hacts => ?_,
    fun s w l n m x hx => ?_⟩
  · have hf := frame_of_begins (f := f) h fun u e he => by cases he; rfl
    refine (run_go h).trans ?_
    rw [State.putMask_of_group s1 hf hg]
  · have hf := frame_of_begins (f := f) h fun u e he => by cases he; rfl
    refine (run_go h).trans ?_
    rw [State.putMask_of_group s1 hf hg]
    rfl
  · exact (run_go h).trans (by rw [State.putMask_of_none s1 hg])
  · exact (run_go h).trans (by rw [State.putMask_of_none s1 hg])
  · exact run_go h
  · rw [exec_yield_of_begins h]
    by_cases hg : c.group = []
    · rw [if_pos hg, if_pos (by simp [hg])]
    · rw [if_neg hg, if_neg (by simpa using hg), State.actAll, show _ = some [] from acts_of_begins h hacts]
      rfl
  · exact ⟨_, State.putDst_mask hx l n m, rfl, fun r => NMap.get_put .., rfl, fun v hv => NMap.find_upd_ne _ _ hv⟩

end Sys2Proof.Machine
end
section
/-! PROOFS. The worked encodings of the spec (R54, R56, R97, R126, R144, R232): each word holds the bytes of the instruction that it stands
for, and so decodes to it. -/

namespace Sys2Proof

/-- A word whose first bytes are those of an instruction of the wave stands for it. -/
theorem decodeTableWord_of_wave {i : Instr} {nbits w : Nat} (rest : List Byte) (hwf : i.wf .w = true)
    (hbytes : (encodeBytes .w i).map (· ++ rest) = some (toLe 16 (w % 2 ^ nbits))) : decodeTableWord nbits w = some i := by
  obtain ⟨bs, hbs, hword⟩ := Option.map_eq_some_iff.mp hbytes
  have hread := decodeEncode i .w hwf
  rw [hbs] at hread
  rw [decodeTableWord, ← hword, hread rest]

/-- A word that the wave does not decode, and whose first bytes are those of an instruction of the Caller, stands for it. -/
theorem decodeTableWord_of_caller {i : Instr} {nbits w : Nat} {sub : BitVec 8} (rest : List Byte)
    (hwave : decode .w (toLe 16 (w % 2 ^ nbits)) = .error sub) (hwf : i.wf .c = true)
    (hbytes : (encodeBytes .c i).map (· ++ rest) = some (toLe 16 (w % 2 ^ nbits))) : decodeTableWord nbits w = some i := by
  obtain ⟨bs, hbs, hword⟩ := Option.map_eq_some_iff.mp hbytes
  have hread := decodeEncode i .c hwf
  rw [hbs] at hread
  rw [decodeTableWord, hwave, ← hword, hread rest]

/-- Settles O8: each word is that of its instruction, followed by the bytes that a form shorter than 16 leaves; only the Caller decodes `mma`. -/
theorem workedWords : Obligations.WorkedWords := by
  unfold Obligations.WorkedWords
  refine ⟨decodeTableWord_of_wave (.replicate 8 0) ?_ ?_, decodeTableWord_of_wave (.replicate 8 0) ?_ ?_,
    decodeTableWord_of_wave (.replicate 8 0) ?_ ?_, decodeTableWord_of_wave (.replicate 8 0) ?_ ?_,
    decodeTableWord_of_wave (.replicate 4 0) ?_ ?_, decodeTableWord_of_caller (sub := 2) (.replicate 4 0) ?_ ?_ ?_⟩
  all_goals decide +kernel

end Sys2Proof
end
section
/-! PROOFS. The events of waves and cores (R55, R132, R187, R188, R190, R208, R211): the turn at the fairness limit, a reserved code, threads
that wait in a queue register, feed streams, and the gating of cores. -/

namespace Sys2Proof.Machine
open Sys2Proof

/-! ### The turn at the fairness limit -/

namespace Wave

variable {x : Wave} {l k : Nat}

theorem expire_eq (h : x.turn = some l) : x.expire =
    if x.limit ≤ x.fair ∧ 2 ≤ x.heads.length then x.giveTurn (x.nextPath ((x.pathOf l).headD l)) else x := by
  rw [expire, h]

/-- A turn at its limit, while another path is ready, passes with the count at 0. -/
theorem expire_fair (hturn : x.turn.isSome = true) (hlimit : x.limit ≤ x.fair) (hheads : 2 ≤ x.heads.length) :
    x.expire.fair = 0 := by
  obtain ⟨l, hl⟩ := Option.isSome_iff_exists.mp hturn
  rw [expire_eq hl, if_pos ⟨hlimit, hheads⟩]
  rfl

theorem count_below (fuel : Nat) (h : x.fair + k < x.limit) : x.count (fuel + 1) k = { x with fair := x.fair + k } := by
  rw [count, if_pos h]

theorem count_reaches (fuel : Nat) (h : x.fair + k = x.limit) :
    x.count (fuel + 1) k = ({ x with fair := x.limit } : Wave).expire.count fuel 0 := by
  rw [count, if_neg (by omega), show k - (x.limit - x.fair) = 0 by omega]

theorem age_of_contended (hturn : x.turn.isSome = true) (hheads : 2 ≤ x.heads.length) : x.age k = x.count (k + 1) k := by
  rw [age, if_pos ⟨hturn, hheads⟩]

/-- Clocks that reach the limit exactly pass the turn once, and count no further. -/
theorem age_reaches (hturn : x.turn.isSome = true) (hheads : 2 ≤ x.heads.length) (hbelow : x.fair < x.limit)
    (hk : x.fair + k = x.limit) (hlimit : 0 < ({ x with fair := x.limit } : Wave).expire.limit) :
    x.age k = ({ x with fair := x.limit } : Wave).expire := by
  obtain ⟨fuel, rfl⟩ := Nat.exists_eq_succ_of_ne_zero (show k ≠ 0 by omega)
  have hfair : ({ x with fair := x.limit } : Wave).expire.fair = 0 := expire_fair hturn le_rfl hheads
  rw [age_of_contended hturn hheads, count_reaches _ hk, count_below fuel (by omega)]
  rfl

end Wave

/-! ### A fault of a path -/

theorem State.turnPath_eq {s : State} {w l : Nat} {x : Wave} (hx : s.waves.find w = some x) (hl : x.turn = some l) :
    s.turnPath w = (x.pathOf l, (x.threads.getD l .empty).pc) := by
  simp only [State.turnPath, hx, hl]

/-- A fault that no table entry's error stands behind is each lane's own, and the turn is settled (R41). -/
theorem State.faultPath_eq {s : State} {w l : Nat} {x : Wave} {f : Flt} (hx : s.waves.find w = some x) (hl : x.turn = some l)
    (hf : f.bad = none) : s.faultPath w f =
      (((x.pathOf l).foldl (fun r n => r.raise w n (x.threads.getD l .empty).pc f) s.holdActs).settlePath w
        (x.pathOf l)).actAll := by
  have hbare : { f with bad := none } = f := by rw [← hf]
  have hwalk : ∀ (r : State) rgn, r.walkError rgn f = r := fun r rgn => by rw [State.walkError, hf]
  simp only [State.faultPath, State.turnPath_eq hx hl, hbare, hwalk, ite_self]

/-! ### Threads that wait in a queue register -/

/-- A thread that waited makes its instruction again (R25). -/
def Thread.unblocked (t : Thread) : Thread :=
  match t.st with
  | .blocked _ => { t with st := .running }
  | _ => t

theorem Thread.unblocked_st {t : Thread} {y : Why} (h : t.st = .blocked y) : t.unblocked.st = .running := by
  rw [Thread.unblocked, h]

theorem Thread.unblocked_running {t : Thread} (h : t.st = .running) : t.unblocked = t := by
  rw [Thread.unblocked, h]

theorem Wave.unblock_thread (x : Wave) (k l : Nat) :
    (x.unblock k).threads[l]? = (x.threads[l]?).map fun t => if k = l then t.unblocked else t := by
  rw [Wave.unblock, Wave.fixTurn_threads, Wave.updThread, List.getElem?_modify]
  rfl

/-- A thread that runs is as it was, whichever lanes wake. -/
theorem Wave.unblockAll_running {lanes : List Nat} {x : Wave} {l : Nat} {t : Thread} (ht : x.threads[l]? = some t)
    (hrun : t.st = .running) : (lanes.foldl (fun y k => y.unblock k) x).threads[l]? = some t := by
  induction lanes generalizing x with
  | nil => exact ht
  | cons k lanes ih =>
    refine ih ?_
    rw [Wave.unblock_thread, ht, Option.map_some, Thread.unblocked_running hrun, ite_self]

theorem Wave.unblockAll_blocked {lanes : List Nat} {x : Wave} {l : Nat} {t : Thread} {y : Why} (ht : x.threads[l]? = some t)
    (hst : t.st = .blocked y) (hl : l ∈ lanes) :
    (lanes.foldl (fun y k => y.unblock k) x).threads[l]? = some t.unblocked := by
  induction lanes generalizing x with
  | nil => cases hl
  | cons k lanes ih =>
    have hstep : (x.unblock k).threads[l]? = some (if k = l then t.unblocked else t) := by
      rw [Wave.unblock_thread, ht, Option.map_some]
    by_cases hk : k = l
    · rw [if_pos hk] at hstep
      exact Wave.unblockAll_running (x := x.unblock k) hstep (Thread.unblocked_st hst)
    · rw [if_neg hk] at hstep
      exact ih (x := x.unblock k) hstep ((List.mem_cons.mp hl).resolve_left (Ne.symm hk))

/-- A thread whose wait satisfies the condition runs again. -/
theorem State.wakeWhere_thread? {s : State} {w l : Nat} {t : Thread} {y : Why} (b : WakeBit) {cond : Why → Bool}
    (ht : s.thread? w l = some t) (hst : t.st = .blocked y) (hy : cond y = true) :
    (s.wakeWhere w b cond).thread? w l = some t.unblocked := by
  obtain ⟨x, hx, hxl⟩ := Option.bind_eq_some_iff.mp ht
  unfold State.wakeWhere
  simp -zeta only [hx]
  extract_lets lanes
  have hmem : l ∈ lanes := by
    refine List.mem_filterMap.mpr ⟨some l, List.mem_of_getElem? (i := l) ?_, rfl⟩
    rw [List.getElem?_mapIdx, hxl, Option.map_some, hst]
    simp only [hy, if_true]
  have hne : lanes.isEmpty = false := by
    cases hl : lanes with
    | nil => rw [hl] at hmem; cases hmem
    | cons => rfl
  simp only [hne, Bool.false_eq_true, if_false]
  rw [State.thread?_wakeCore, State.thread?, State.setWave_find]
  exact Wave.unblockAll_blocked hxl hst hmem

theorem execQueueAccessComplete_of_ungated {s : State} {w : Nat} (h : ∀ g, coreOfWave w = some g → (s.core g).gated = false) :
    execQueueAccessComplete w s = .next (s.wakeWhere w .qdec atQueue) := by
  rw [execQueueAccessComplete, if_neg]
  rw [Option.any_eq_true]
  rintro ⟨g, hg, hgated⟩
  exact Bool.false_ne_true ((h g hg).symm.trans hgated)

/-! ### Feed streams -/

/-- An element is a store of its word to the TOB window, which nothing holds back (R211). -/
theorem Wave.feedElem_performed (s : State) (w l : Nat) (x : Wave) (id : Nat) (pc : DWord) (n : Nat) (v : Word) :
    s.perform w l (x.feedElem id pc n v) = some ⟨s.updWg x.wg fun y =>
      { y with tob := winPut y.tob (x.feedp.getD n 0).toNat (toLe 4 v.toNat) }, none, none, none⟩ := by
  have hheld : ∀ id key, s.heldPart none id key = false := fun id key => by
    unfold State.heldPart
    cases s.windowOf key <;> rfl
  have hword : (toLe 4 v.toNat).take 4 = toLe 4 v.toNat := List.take_of_length_le (toLe_length 4 _).le
  simp [State.perform, Wave.feedElem, probe, hheld, Ord.releases, Ord.acquires, State.writeParts, State.cutPart, State.pointOf,
    State.writeAt, hword]

/-- A stream that holds one element writes that. -/
theorem execFeedElementWrite_of_one {s t : State} {w n : Nat} {x : Wave} {e : Nat × Acc} (hx : s.waves.find w = some x)
    (he : (x.pending.filter fun f => f.2.feed == some n) = [e]) (ht : s.performUpTo w e.1 e.2.id = some t) :
    execFeedElementWrite w n s = .next t := by
  have hself : pushedBefore e e = false := by simp [pushedBefore]
  simp only [execFeedElementWrite, hx, he, List.any_cons, List.any_nil, Bool.or_false, List.find?_cons, hself, Bool.not_false, ht]

/-! ### Gated cores -/

theorem execCoreGate_of_mayGate {s : State} {g : Nat} (hgated : (s.core g).gated = false) (hmay : s.mayGate g = true) :
    execCoreGate g s = .next (s.setCore g { s.core g with gated := true, gatedAt := s.clkOf g, wake := 0 }) := by
  rw [execCoreGate, if_neg (by simp [hgated, hmay])]

/-- The reason bits of `wakerc` lie below its latency field (R190). -/
theorem wakeReasons_latency (b : BitVec 9) (n : Nat) : (b.setWidth 32 ||| BitVec.ofNat 32 (2 ^ 10 * n)).setWidth 9 = b := by
  have hlow : (BitVec.ofNat 32 (2 ^ 10 * n)).setWidth 9 = 0#9 := by
    apply BitVec.eq_of_toNat_eq
    simp only [BitVec.toNat_setWidth, BitVec.toNat_ofNat]
    omega
  rw [BitVec.setWidth_or, hlow, BitVec.or_zero, BitVec.setWidth_setWidth_of_le b (by decide), BitVec.setWidth_eq]

/-- A core that has gated and met a wake event, as it runs on: woken, with the clocks it was gated counted (R187, R190). -/
def State.wokenCore (s : State) (g : Nat) : Core :=
  let c := s.core g
  { c with gated := false, woken := true, wake := 0
           gatec := c.gatec + BitVec.ofNat 64 (s.clkOf g - c.gatedAt)
           wakerc := c.wake.setWidth 32 ||| BitVec.ofNat 32 (2 ^ 10 * (s.fresh.1 % 41)) }

theorem execCoreWake_of_wake {s : State} {g : Nat} (hgated : (s.core g).gated = true) (hwake : (s.core g).wake ≠ 0) :
    execCoreWake g s = .next (s.fresh.2.setCore g (s.wokenCore g)) := by
  rw [execCoreWake, if_neg (by simpa [hgated] using hwake)]
  rfl

/-- Settles O58: each event by its own lemma, in the order of the statement. -/
theorem waveEvents : Obligations.WaveEvents := by
  unfold Obligations.WaveEvents
  refine fun s w n => ⟨rfl, fun x l hl => Wave.expire_eq hl, fun x k hturn hheads hbelow => ⟨fun hk => ?_, fun hk hlimit => ?_⟩,
    fun sub x l hx hl => ?_, fun hungated => ?_, fun x l id pc v hx => ⟨fun hfits => ?_, fun hover => ?_, rfl, ?_⟩,
    fun x e t hx he ht => execFeedElementWrite_of_one hx he ht, execCoreGate_of_mayGate, fun hgated hwake => ?_⟩
  · rw [Wave.age_of_contended hturn hheads, Wave.count_below k hk]
  · exact Wave.age_reaches hturn hheads hbelow hk hlimit
  · exact congrArg Host.Outcome.next (State.faultPath_eq hx hl rfl)
  · refine ⟨_, execQueueAccessComplete_of_ungated hungated, State.wakeWhere_mem .., fun x l u qs hx hu hst => ?_⟩
    have hthread : s.thread? w l = some u := by rw [State.thread?, hx]; exact hu
    rw [State.wakeWhere_thread? .qdec hthread hst rfl, Option.map_some, Thread.unblocked_st hst]
  · simp only [State.pushElem, hx, if_pos hfits]
  · simp only [State.pushElem, hx, if_neg (not_le.mpr hover)]
  · exact Wave.feedElem_performed ..
  · refine ⟨_, execCoreWake_of_wake hgated hwake, ?_⟩
    rw [State.core_setCore]
    exact ⟨rfl, rfl, wakeReasons_latency _ _, rfl, rfl, rfl⟩

end Sys2Proof.Machine
end
section
/-! PROOFS. The matrix engines at work (R91, R227, R233, R235, R238, R239, R243): an element of `mma`, the end of a command and the halt of
its engine, the reads of an operand, the pieces of a drained row, and a row of a tile fetch. -/

namespace Sys2Proof.Machine
open Sys2Proof

/-! ### An element of `mma` (R91) -/

/-- Sixteen products are one group: one exact sum, and one rounding. -/
theorem mmaElem_of_sixteen (acc : Nat) {a b : List XR} (ha : a.length = 16) (hb : b.length = 16) : mmaElem acc a b =
    BitVec.ofNat 32 (fres (XR.sum .rne (fval acc .f32 false :: (a.zip b).map fun e => e.1.mul e.2)) .f32 .rne false
      false) := by
  have hgroup : ((a.zip b).map fun e => e.1.mul e.2).take 16 = (a.zip b).map fun e => e.1.mul e.2 :=
    List.take_of_length_le (by simp [ha, hb])
  rw [mmaElem, ha, dotGroups, hgroup, dotGroups]

/-! ### The end of a command, and the halt of an engine (R227, R243) -/

/-- A Caller that wakes is on no core: the cores stay as they are. -/
theorem State.wakeWhere_caller_cores (s : State) {w : Nat} (h : callerKey ≤ w) (b : WakeBit) (cond : Why → Bool) :
    (s.wakeWhere w b cond).cores = s.cores := by
  unfold State.wakeWhere
  split
  · rfl
  · dsimp only
    split
    · rfl
    · rw [coreOfWave_caller h]
      rfl

theorem State.wgGone_cores (s : State) (wg : Nat) : (s.wgGone wg).cores = s.cores := by
  unfold State.wgGone
  split
  · rfl
  · dsimp only
    split <;> rfl

theorem State.groupEnd_cores (s : State) (q : Nat) : (s.groupEnd q).cores = s.cores := by
  unfold State.groupEnd
  split
  · rfl
  · split
    · rfl
    · exact foldl_same State.cores (fun s (m : Nat × Nat) => s.wgGone m.2) (fun s m => s.wgGone_cores m.2) _ _

/-- A complete command leaves the queue and is counted. -/
theorem State.cmdDone_engine (s : State) (x : AtWork) : ((s.cmdDone x).core x.core).engine =
    { (s.core x.core).engine with
      queue := (s.core x.core).engine.queue.drop 1, done := (s.core x.core).engine.done + 1, row := 0,
      piece := 0, read := [] } := by
  rw [State.cmdDone, State.core, State.groupEnd_cores, State.wakeWhere_caller_cores _ (Nat.le_add_right ..)]
  exact congrArg Core.engine (State.core_setCore ..)

/-- The end of the command keeps the word that the halt has written. -/
theorem State.engineHalt_mestat (s : State) (x : AtWork) (tile cause slot : Nat) (sub : BitVec 8) :
    ((s.engineHalt x tile cause sub slot).core x.core).engine.mestat =
      BitVec.ofNat 64 (2 ^ 48 * (x.q.seq.toNat % 65536) + 2 ^ 32 * (tile % 128) + 2 ^ 16 * cause + 2 ^ 8 * sub.toNat +
        2 ^ 5 * slot + 1) := by
  rw [State.engineHalt, State.cmdDone_engine, State.core_setCore]

/-! ### Bytes cut by grains (R297) -/

theorem cutGrains_flatMap (n off : Nat) {bs : List Byte} (h : bs.length ≤ n) : (cutGrains n off bs).flatMap Prod.snd = bs := by
  induction n generalizing off bs with
  | zero => rw [List.length_eq_zero_iff.mp (Nat.le_zero.mp h)]; rfl
  | succ n ih =>
    rw [cutGrains]
    split
    · next hempty => rw [List.isEmpty_iff.mp hempty]; rfl
    · have hrest : (bs.drop (32 - off % 32)).length ≤ n := by
        rw [List.length_drop]
        omega
      rw [List.flatMap_cons, ih _ hrest, List.take_append_drop]

theorem cutGrains_within {n off : Nat} {bs : List Byte} {p : Nat × List Byte} (h : p ∈ cutGrains n off bs) :
    p.1 % 32 + p.2.length ≤ 32 := by
  induction n generalizing off bs with
  | zero => exact absurd h List.not_mem_nil
  | succ n ih =>
    rw [cutGrains] at h
    split at h
    · exact absurd h List.not_mem_nil
    · obtain rfl | hrest := List.mem_cons.mp h
      · have hlen := List.length_take_le (32 - off % 32) bs
        dsimp only
        omega
      · exact ih hrest

/-! ### The reads of an `mma` (R233, R235) -/

theorem Engine.mem_todo {e : Engine} {i : Nat} : i ∈ e.todo ↔ i < 1280 ∧ e.read.find i = none := by
  rw [Engine.todo, List.mem_filter, List.mem_range, Option.isNone_iff_eq_none]

/-- The pieces that an `mma` has with those that it reads now. -/
def Engine.readWith (e : Engine) (new : List (Nat × List Byte)) : NMap (List Byte) :=
  if e.read = [] then new else new.foldl (fun m i => m.ins i.1 i.2) e.read

theorem Engine.readWith_eq (e : Engine) (new : List (Nat × List Byte)) :
    e.readWith new = if e.read.isEmpty then new else new.foldl (fun m i => NMap.ins m i.1 i.2) e.read := by
  cases h : e.read <;> simp [Engine.readWith, h]

/-- Operands in the TOB are read of what is left to read, with two free values used and nothing else changed; no read waits or meets an
uncorrectable error. -/
theorem State.mmaRead_tob (s : State) (x : AtWork) (y : Wg) (ra rb : SlotRec) (a b : Nat) :
    ∃ now : List Nat, (∀ i ∈ now, i ∈ (s.core x.core).engine.todo) ∧
      s.mmaRead x y ra rb (.tob a) (.tob b) = some (s.fresh.2.fresh.2, now.map fun i =>
        (i, s.fresh.2.fresh.2.readPiece (s.liveTag x.rgn) y (.tob (if i < 640 then a else b)) (if i < 640 then ra else rb)
          s.fresh.2.fresh.1 (i / 5 % 128) (i % 5)), none) := by
  let todo := (s.core x.core).engine.todo
  refine ⟨if s.fresh.1 % 2 = 0 then todo else todo.filter fun i => s.fresh.1.testBit (i + 1), fun i hi => ?_, ?_⟩
  · split at hi
    · exact hi
    · exact (List.mem_filter.mp hi).1
  · simp only [State.mmaRead]
    generalize hkeys : List.flatMap _ _ = keys
    obtain rfl : keys = [] := by
      rw [← hkeys, List.flatMap_eq_nil_iff]
      intro i _
      by_cases hi : i < 640 <;> simp only [hi, if_true, if_false]
    refine congrArg some (Prod.ext rfl (Prod.ext (List.map_congr_left fun i _ => ?_) rfl))
    split <;> rfl

/-! ### `mma` and `azero` at work (R233, R239) -/

section
variable {s : State} {g : Nat} {x : AtWork} {y : Wg}

theorem exec_engineMmaExecute {z : Bool} {sa sb tile a b : Nat} {bh : Option (Nat × Nat)} (hx : s.atWork g = some x)
    (hy : s.wgs.find x.wg = some y) (hcmd : x.q.cmd = .mma z sa sb bh tile a b) :
    exec (.engineMmaExecute g) s = .next (s.runMma x y z sa sb bh tile a b) := by
  rw [show exec (.engineMmaExecute g) s = execEngineMmaExecute g s from rfl, execEngineMmaExecute, hx]
  dsimp only
  rw [hcmd, hy]

theorem exec_engineAzeroExecute {tile : Nat} (hx : s.atWork g = some x) (hcmd : x.q.cmd = .azero tile) :
    exec (.engineAzeroExecute g) s = .next ((s.setTile x.wg tile .zero).cmdDone x) := by
  rw [show exec (.engineAzeroExecute g) s = execEngineAzeroExecute g s from rfl, execEngineAzeroExecute, hx]
  dsimp only
  rw [hcmd]

/-- The slot of A is the first that is checked. -/
theorem State.runMma_of_badSlot {z : Bool} {sa sb tile a b : Nat} {bh : Option (Nat × Nat)} {sub : BitVec 8}
    (h : (s.slot x.rgn (BitVec.ofNat 3 sa)).checkIn mmaAccepts = some sub) :
    s.runMma x y z sa sb bh tile a b = s.engineHalt x tile 1 sub sa := by
  simp only [State.runMma, h]

/-- The slots and the operands of an `mma` are in order, and B is read from a source (R231 to R233). -/
structure State.MmaInOrder (s : State) (x : AtWork) (y : Wg) (z : Bool) (bh : Option (Nat × Nat)) (tile a b : Nat)
    (ra rb : SlotRec) (src : Source) : Prop where
  slotA : ra.checkIn mmaAccepts = none
  slotB : rb.checkIn mmaAccepts = none
  widths : fmtBits ra.fmt = fmtBits rb.fmt
  scalesA : y.scaleBeyond a ra = false
  source : s.operandB x y bh b rb = .ok src
  valid : (y.tile tile).invalid = false ∨ z = true

/-- An `mma` in order keeps the pieces it has read, and acts on its tile once it has them all. -/
theorem State.runMma_of_inOrder {z : Bool} {sa sb tile a b : Nat} {bh : Option (Nat × Nat)} {src : Source} {s1 : State}
    {new : List (Nat × List Byte)} {ra rb : SlotRec} {read : NMap (List Byte)}
    (hra : s.slot x.rgn (BitVec.ofNat 3 sa) = ra) (hrb : s.slot x.rgn (BitVec.ofNat 3 (s.slotB x bh sb)) = rb)
    (h : s.MmaInOrder x y z bh tile a b ra rb src) (hnew : s.mmaRead x y ra rb (.tob a) src = some (s1, new, none))
    (hread : (s1.core x.core).engine.readWith new = read) : s.runMma x y z sa sb bh tile a b =
      if read.length < 1280 then
        s1.setCore x.core { s1.core x.core with engine := { (s1.core x.core).engine with read := read } }
      else s1.mmaFinish x y z ra rb sa (s.slotB x bh sb) tile (rowsOf (read.map Prod.snd)) := by
  have hgo : ((y.tile tile).invalid && !z) = false := by
    obtain hvalid | hz := h.valid
    · rw [hvalid, Bool.false_and]
    · rw [hz, Bool.not_true, Bool.and_false]
  rw [Engine.readWith_eq] at hread
  simp only [State.runMma, hra, hrb, h.slotA, h.slotB, h.widths, ne_eq, not_true_eq_false, if_false, h.source, h.scalesA, hgo,
    hnew, hread, Bool.false_eq_true]

theorem State.mmaFinish_of_codes {z : Bool} {sa nb tile : Nat} {ra rb : SlotRec} {rows : OperandRows}
    (ha : q4Bad ra.fmt (rows.take 128) = false) (hb : q4Bad rb.fmt (rows.drop 128) = false) :
    s.mmaFinish x y z ra rb sa nb tile rows = (s.setTile x.wg tile (mmaTile z (y.tile tile)
      ((rows.take 128).map fun r => rowVals ra.fmt r.1 r.2) ((rows.drop 128).map fun r => rowVals rb.fmt r.1 r.2))).cmdDone
        x := by
  simp only [State.mmaFinish, ha, hb, Bool.false_eq_true, if_false]

end

/-! ### `drain` at work (R238) -/

section
variable {s : State} {x : AtWork} {d : DrainOf} {y : Wg} {slot : SlotRec}

/-- A drain to a window whose slot, tile and addresses are in order starts with its first piece. -/
theorem State.drainStart_of_inOrder (hdst : d.dst = 1)
    (hslot : slot.checkIn (fun n => decide (1 ≤ n) && decide (n ≤ 7)) = none) (hpitch : slot.fmt = 7 → d.pitch % 16 = 0)
    (hvalid : (y.tile d.tile).invalid = false) (hfits : drainBeyond slot d (y.tobBanks * 131072) = false) :
    s.drainStart x d y slot = s.drainRow x d y slot 0 0 := by
  have hq4 : ¬(slot.fmt = 7 ∧ d.pitch % 16 ≠ 0) := fun h => h.2 (hpitch h.1)
  simp only [State.drainStart, hdst, OfNat.one_ne_ofNat, if_false, if_true, hslot, hq4, hvalid, hfits, Bool.false_eq_true]

/-- A piece of a row stands in the TOB window, where the drain merges no maximum and lands in no barrier. -/
theorem State.drainRow_of_piece {r piece off : Nat} {p : List Byte} {rest : List (Nat × List Byte)} (hdst : d.dst = 1)
    (hmax : d.absmax = none) (hbar : d.bar = none) (hwork : s.atWork x.core = some x)
    (hpiece : (drainPieces slot d r (packRow slot ((y.tile d.tile).row r)).1
      (packRow slot ((y.tile d.tile).row r)).2).drop piece = (off, p) :: rest) :
    s.drainRow x d y slot r piece = (s.copyPut x.wg true off p).drainNext x r piece rest.length := by
  have hmerge : s.drainMerge x d (y.tile d.tile) = (s, true) := by rw [State.drainMerge, hmax]
  simp only [State.drainRow, hdst, OfNat.one_ne_ofNat, if_false, hpiece, hmerge, ite_self, hwork, ne_eq, not_true_eq_false,
    decide_true, State.drainLand, hbar]

theorem State.drainNext_eq (s : State) (x : AtWork) (r piece : Nat) (rest : List (Nat × List Byte)) :
    s.drainNext x r piece rest.length =
      if rest ≠ [] then s.setRow x.core r (piece + 1) else if r = 127 then s.cmdDone x else s.setRow x.core (r + 1) := by
  simp only [State.drainNext, List.length_pos_iff]

/-- A drain at a row of its tile, whose start has been checked or is in order, goes on with that row. -/
theorem State.runDrain_of_row (hslot : s.slot x.rgn (BitVec.ofNat 3 d.fs) = slot) (hrow : (s.core x.core).engine.row < 128)
    (hstart : (s.core x.core).engine.row = 0 → (s.core x.core).engine.piece = 0 →
      s.drainStart x d y slot = s.drainRow x d y slot 0 0) :
    s.runDrain x d y = s.drainRow x d y slot (s.core x.core).engine.row (s.core x.core).engine.piece := by
  simp only [State.runDrain, hslot, hrow, if_true]
  split
  · next h => rw [hstart h.1 h.2, h.1, h.2]
  · rfl

theorem exec_engineDrainExecute {g : Nat} (hx : s.atWork g = some x) (hy : s.wgs.find x.wg = some y)
    (hcmd : x.q.cmd = .drain d.fs d.dst d.str d.tile d.addr d.pitch d.absmax d.bar) :
    exec (.engineDrainExecute g) s = .next (s.runDrain x d y) := by
  rw [show exec (.engineDrainExecute g) s = execEngineDrainExecute g s from rfl, execEngineDrainExecute, hx]
  dsimp only
  rw [hcmd, hy]

theorem State.atWork_core {g : Nat} (h : s.atWork g = some x) : x.core = g := by
  unfold State.atWork at h
  dsimp only at h
  split at h
  · split at h
    · exact absurd h nofun
    · obtain ⟨wg, -, rfl⟩ := Option.map_eq_some_iff.mp h
      rfl
  · exact absurd h nofun

end

/-! ### Rows of a tile fetch (R235) -/

/-- Without Q a fetch of a row asks for the row alone. -/
theorem State.fetchRow_of_plain {s s1 : State} {e : EngOf} {h : Handle} {row : Nat} {keys : List (Nat × Nat)} (hq : h.q = false)
    (hgot : s.fetchAt e ((h.base.toNat + row * h.pitch) % 2 ^ 64) 128 0 = .got s1 keys) :
    s.fetchRow e h row = .got s1 (keys.take 1) := by
  rw [State.fetchRow, hgot]
  dsimp only
  rw [hq]
  rfl

/-- A handle with a row fetched, and with the scale bytes that came with it. -/
def Handle.withFetched (h : Handle) (row : Nat) (keys : List (Nat × Nat)) : Handle :=
  { h with rows := h.rows.ins row (keys.headD (0, 0)).2
           scales := (keys.drop 1).foldl (fun m k => m.ins k.1 k.2) h.scales }

theorem Handle.withFetched_take_one (h : Handle) (row : Nat) (keys : List (Nat × Nat)) :
    h.withFetched row (keys.take 1) = { h with rows := h.rows.ins row (keys.headD (0, 0)).2 } := by
  cases keys <;> rfl

/-- A bound tile asks for a row that it has not, unless its fetch has faulted or its region stands still. -/
theorem State.fetch_open {s : State} {g : Group} {h : Handle} {n row : Nat} (hrow : row < 128) (hfault : h.faulted = false)
    (hbound : h.bound = true) (hnew : h.rows.find row = none) (hquota : s.quotaWait g.rgn = false) :
    ¬(128 ≤ row ∨ h.faulted = true ∨ (!s.pinned g n h) = true ∨ (h.rows.find row).isSome = true ∨
      s.quotaWait g.rgn = true) := by
  have hpinned : s.pinned g n h = true := by rw [State.pinned, hbound, Bool.true_or]
  simp [hrow, hfault, hpinned, hnew, hquota]

/-- A row that is translated, and for whose lines there is room, is in its handle. -/
theorem exec_tfetchRowFetch_of_got {s s1 : State} {k n row id : Nat} {g : Group} {h : Handle} {keys : List (Nat × Nat)}
    (hgroup : s.engineGroup k = some (id, g)) (hhandle : g.handle n = some h)
    (hopen : ¬(128 ≤ row ∨ h.faulted = true ∨ (!s.pinned g n h) = true ∨ (h.rows.find row).isSome = true ∨
      s.quotaWait g.rgn = true))
    (hgot : s.fetchRow (fetchOf g.rgn k h) h row = .got s1 keys) (hroom : s1.pinRoom (keys.map Prod.snd) = true) :
    exec (.tfetchRowFetch k n row) s = .next { s1 with groups := s1.groups.upd id fun g =>
      { g with handles := g.handles.upd n fun h => h.withFetched row keys } } := by
  rw [show exec (.tfetchRowFetch k n row) s = execTfetchRowFetch k n row s from rfl, execTfetchRowFetch, hgroup]
  simp only [hhandle, hopen, if_false, hgot, hroom, Bool.not_true, Bool.false_eq_true, Handle.withFetched]

/-- Settles O49: each part by its own lemma; a step of an `mma` or a `drain` is the run of the command at the head of the queue. -/
theorem matrixEngines : Obligations.MatrixEngines := by
  unfold Obligations.MatrixEngines
  refine ⟨fun acc a b => mmaElem_of_sixteen acc, State.cmdDone_engine,
    fun n off bs h => ⟨cutGrains_flatMap n off h, fun p => cutGrains_within⟩, fun s g x y hx hy =>
      ⟨fun z sa sb bh tile a b src s1 new hcmd => ?_, fun ra rb a b => ?_, fun z sa sb bh tile a b sub hcmd hbad => ?_,
        fun tile => exec_engineAzeroExecute hx, fun fs tile addr pitch hcmd => ?_⟩,
    State.engineHalt_mestat, fun s s1 k n row id g h keys hgroup hhandle hrow hfault hq hbound hnew hquota hgot hroom => ?_⟩
  · intro nb ra rb ha hb hbits hscale hsrc hvalid hread e read rows
    have hrun := State.runMma_of_inOrder rfl rfl ⟨ha, hb, hbits, hscale, hsrc, hvalid⟩ hread (read := read) rfl
    refine ⟨fun hsome => ?_, fun hall hqa hqb => ?_⟩
    · rw [exec_engineMmaExecute hx hy hcmd, hrun, if_pos hsome]
    · rw [exec_engineMmaExecute hx hy hcmd, hrun, if_neg (Nat.not_lt.mpr hall), State.mmaFinish_of_codes hqa hqb]
  · obtain ⟨now, htodo, hread⟩ := s.mmaRead_tob x y ra rb a b
    refine ⟨_, _, hread, rfl, rfl, rfl, fun i hi => ?_⟩
    obtain ⟨j, hj, rfl⟩ := List.mem_map.mp hi
    obtain ⟨hlt, hnone⟩ := Engine.mem_todo.mp (htodo j hj)
    exact ⟨hlt, hnone, rfl⟩
  · rw [exec_engineMmaExecute hx hy hcmd, State.runMma_of_badSlot hbad]
  · intro slot e d bytes hrow hstart off p rest hpiece t
    have hcore : x.core = g := State.atWork_core hx
    rw [exec_engineDrainExecute (d := d) hx hy hcmd, State.runDrain_of_row rfl hrow fun hr hp => ?_,
      State.drainRow_of_piece rfl rfl rfl (hcore ▸ hx) hpiece, State.drainNext_eq]
    obtain ⟨hslot, hpitch, hvalid, hfits⟩ := hstart hr hp
    exact State.drainStart_of_inOrder rfl hslot hpitch hvalid hfits
  · have hopen := State.fetch_open (n := n) hrow hfault hbound hnew hquota
    rw [exec_tfetchRowFetch_of_got hgroup hhandle hopen (State.fetchRow_of_plain hq hgot) hroom]
    simp only [Handle.withFetched_take_one]

end Sys2Proof.Machine
end
section
/-! PROOFS. The integer, address and wave-wide instructions (R92 to R99, R105 to R112): what each lane computes, and whether it is
written at once or waits to be written (R34, R98). -/

namespace Sys2Proof.Machine

open Sys2Proof

/-! ### Written at once, or left to wait -/

/-- Of the majors of R94 the division alone has LL codes (R98). -/
theorem codeTable_integer_ll : ∀ r ∈ codeTable, r.op < 0x0C → r.op ≠ 0x02 → r.ll = false := by decide +kernel

theorem isLL_integer {op minor : Nat} (hop : op < 0x0C) (hdiv : op ≠ 0x02) : isLL op minor = false := by
  unfold isLL
  cases hr : codeOf op minor with
  | none => rfl
  | some r =>
    have hcode := List.find?_some hr
    simp only [Bool.and_eq_true, beq_iff_eq] at hcode
    obtain ⟨rfl, -⟩ := hcode
    exact codeTable_integer_ll r (List.mem_of_find?_eq_some hr) hop hdiv

section

variable {i : Instr} {s s1 : State} {c : Ctx} (op : Nat) (h : Begins i s c s1)
  (hop : ∀ u, (descOf u i).map Desc.op = some op := by exact fun _ => rfl)
  (hint : op < 0x0C ∧ op ≠ 0x02 := by decide)
include h hop hint

/-- The context of an instruction of R94 other than a division holds no LL code. -/
theorem not_isLL_of_begins : isLL c.e.op c.e.minor = false := by
  obtain ⟨e, he, hce, -, -⟩ := State.startOf_go h
  have hope : c.e.op = op := by
    have h1 := hop s.curUnit
    rw [he] at h1
    exact hce ▸ Option.some.inj h1
  exact hope ▸ isLL_integer hint.1 hint.2

/-- An instruction of R94 other than a division that computes the value `v` in each lane writes it. -/
theorem alu_written {words : Nat} {g : Ctx → Nat → Nat} {v : Nat → Nat} (hv : ∀ l, g c l = v l := by exact fun _ => rfl) :
    alu i s words g = .next (s1.written c words v) := by
  rw [alu_go h (not_isLL_of_begins op h hop hint), funext hv]
  rfl

/-- An instruction of R94 other than a division that computes results in each lane writes them. -/
theorem run_compute_written {r : Ctx → Nat → Out} : (run i s fun c s1 => s1.compute c fun l => .ok (r c l)) =
    .next ((s1.writeAll c (c.group.map fun l => (l, r c l))).settleTurn c) := by
  rw [run_go h, State.compute_ok, not_isLL_of_begins op h hop hint]
  rfl

end

/-! ### Arithmetic (R96, R97, R99) -/

theorem wideTy_words (ty : IntTy) : (wideTy ty).words = 2 := by cases ty <;> rfl

theorem wideTy_width (ty : IntTy) : (wideTy ty).width = 64 := by cases ty <;> rfl

/-- The 64-bit result of `imadw` takes two words, whichever type its sum is read in. -/
theorem arith_wideTy (i : Instr) (s : State) (ty : IntTy) (e : Ctx → Nat → Int) :
    arith i s (wideTy ty) false e = alu i s 2 fun c l => lowBits (e c l) 64 := by
  simp only [arith, intResult, wideTy_words, wideTy_width, Bool.false_eq_true, if_false]

theorem natAbs_eq_ite (x : Int) : (x.natAbs : Int) = if 0 ≤ x then x else -x := by
  split <;> omega

theorem borrowOut_eq (x y k : Nat) : borrowOut x y k = decide ((x : Int) - y - k < 0) :=
  decide_eq_decide.mpr (by omega)

/-- Settles O14: each instruction computes its exact result in each lane and writes it at once. -/
theorem integerArithmetic : Obligations.IntegerArithmetic := by
  unfold Obligations.IntegerArithmetic
  intro f ty sat s s1 c A B C res
  refine ⟨fun h => alu_written 0x00 h, fun h => alu_written 0x00 h, fun h => alu_written 0x00 h,
    fun h => alu_written 0x01 h, fun h => alu_written 0x01 h, fun sa sb h => alu_written 0x0A h,
    fun h => alu_written 0x01 h, fun h => alu_written 0x03 h, fun h => alu_written 0x03 h,
    fun h => ?imadw, fun hty h => ?iabs, fun hty h => ?ineg, fun pd h => run_compute_written 0x00 h, fun pd h => ?isubb⟩
  case imadw => exact (arith_wideTy ..).trans (alu_written 0x01 h)
  case iabs =>
    subst hty
    exact alu_written 0x03 h (hv := fun l => congrArg (intResult · .s32 sat) (natAbs_eq_ite (A l)))
  case ineg =>
    subst hty
    exact alu_written 0x03 h
  case isubb =>
    simp only [← borrowOut_eq]
    exact run_compute_written 0x00 h

/-! ### Division (R98) -/

theorem divResult_eq (x y : Int) (ty : IntTy) (sat : Bool) : divResult x y ty sat =
    if y = 0 then 0xFFFFFFFF
    else if ty.signed ∧ x = -(2 ^ 31) ∧ y = -1 then (if sat then 0x7FFFFFFF else 0x80000000)
    else lowBits (x.tdiv y) 32 := by
  simp only [divResult, Bool.and_eq_true, beq_iff_eq, and_assoc]

theorem remResult_eq (x y : Int) (ty : IntTy) : remResult x y ty =
    if y = 0 then lowBits x 32
    else if ty.signed ∧ x = -(2 ^ 31) ∧ y = -1 then 0
    else lowBits (x.tmod y) 32 := by
  simp only [remResult, Bool.and_eq_true, beq_iff_eq, and_assoc]

theorem isLL_division : ∀ minor < 2, isLL 0x02 minor = true := by decide

/-- Settles O15: a division is an LL instruction that computes one value a lane. -/
theorem integerDivision : Obligations.IntegerDivision := by
  unfold Obligations.IntegerDivision
  intro f ty s s1 c A B
  simp only [← divResult_eq, ← remResult_eq]
  refine ⟨fun sat h => ?idiv, fun h => ?irem⟩
  case idiv =>
    refine alu_pended h fun u e he => ?_
    cases he
    exact isLL_division 0 (by decide)
  case irem =>
    refine alu_pended h fun u e he => ?_
    cases he
    exact isLL_division 1 (by decide)

/-! ### Selection, comparison, moves and addresses (R105 to R108) -/

/-- Settles O17: each instruction computes one value a lane and writes it at once. -/
theorem selectMoveAddress : Obligations.SelectMoveAddress := by
  unfold Obligations.SelectMoveAddress
  intro f ty s s1 c A B
  refine ⟨fun neg ps h => alu_written 0x08 h, fun cc h => alu_written 0x08 h, fun h => alu_written 0x09 h,
    fun h => ?movi, fun sc h => ?lea⟩
  all_goals
    obtain rfl : c.e.f = f := frame_of_begins h (by rintro _ _ ⟨⟩; rfl)
    exact alu_written 0x09 h

/-! ### Wave-wide instructions (R109 to R112) -/

/-- The lane that `shfl` names, whether or not there is such a lane (R110). -/
def shflIndex (mode : ShflMode) (lane b : Nat) : Int :=
  match mode with
  | .idx => b
  | .up => (lane : Int) - b
  | .down => (lane : Int) + b
  | .xor => (lane ^^^ b : Nat)

theorem shflLane_eq (mode : ShflMode) (lane b : Nat) : shflLane mode lane b =
    if 0 ≤ shflIndex mode lane b ∧ shflIndex mode lane b ≤ 31 then some (shflIndex mode lane b).toNat else none := by
  cases mode <;> rfl

/-- What `shfl` takes of the values of a group: that of the lane it names, or the lane's own (R110). -/
theorem shfl_value (mode : ShflMode) (lane b : Nat) (group : List Nat) (v : Nat → Nat) :
    (match shflLane mode lane b with
      | some j => if group.contains j then v j else v lane
      | none => v lane) =
    if 0 ≤ shflIndex mode lane b ∧ shflIndex mode lane b ≤ 31 ∧ (shflIndex mode lane b).toNat ∈ group
    then v (shflIndex mode lane b).toNat else v lane := by
  rw [shflLane_eq]
  by_cases hj : 0 ≤ shflIndex mode lane b ∧ shflIndex mode lane b ≤ 31
  · simp only [hj, and_self, true_and, if_true, List.contains_iff_mem]
  · rw [if_neg hj, if_neg fun hin => hj ⟨hin.1, hin.2.1⟩]

/-- The sources of `redux` as the tree takes them (R112). -/
theorem redux_leaf (c : Ctx) (ty : IntTy) (ftz : Bool) (l : Nat) :
    (if c.group.contains l then some (reduxLeaf ty ftz (if ty = .f32 then c.fsrc32 l else c.a l)) else none) =
    if l ∈ c.group then
      some (if ty = .f32 then fres (fval (c.fsrc l c.e.f.a .f32) .f32 ftz) .f32 .rne false ftz else c.a l)
    else none := by
  simp only [List.contains_iff_mem, reduxLeaf]
  by_cases hty : ty = .f32 <;> simp only [hty, if_true, if_false, Ctx.fsrc32]

/-- Settles O18: each instruction computes one value a lane from the lanes of the group and writes it at once. -/
theorem waveWide : Obligations.WaveWide := by
  unfold Obligations.WaveWide
  intro f s s1 c
  refine ⟨fun ty mode h => ?shfl, fun mode h => ?vote, fun ty ftz op rnd h => ?redux⟩
  case shfl =>
    exact alu_written 0x0B h (hv := fun l => shfl_value mode l (c.b l) c.group fun j => c.a j ty.words)
  case vote => exact alu_written 0x0B h
  case redux =>
    obtain rfl : c.e.f = f := frame_of_begins h (by rintro _ _ ⟨⟩; rfl)
    refine alu_written 0x0B h (hv := fun _ => ?_)
    simp only [redux_leaf]

end Sys2Proof.Machine
end
section
/-! PROOFS. The bits that counts, reversal, bit fields and byte permutation read and write (R102 to R104). -/

namespace Sys2Proof

/-! ### Counts and reversal (R102) -/

theorem popCount_eq_length (x w : Nat) : popCount x w = ((List.range w).filter fun i => x.testBit i).length := by
  induction w with
  | zero => rfl
  | succ w ih =>
    rw [popCount, ih, List.range_succ, List.filter_append, List.length_append, Nat.add_comm]
    cases hw : x.testBit w <;> simp [hw, b2n]

/-- The count of leading zeros ends at the highest 1 bit. -/
theorem leadZeros_spec (x w : Nat) : leadZeros x w ≤ w ∧
    (∀ i, i < w → w ≤ leadZeros x w + i → x.testBit i = false) ∧
    (leadZeros x w < w → x.testBit (w - 1 - leadZeros x w) = true) := by
  induction w with
  | zero => exact ⟨le_rfl, fun i hi => absurd hi (Nat.not_lt_zero i), fun h => absurd h (Nat.lt_irrefl 0)⟩
  | succ w ih =>
    obtain ⟨hle, hzero, hone⟩ := ih
    cases hw : x.testBit w with
    | true =>
      rw [leadZeros, if_pos hw]
      exact ⟨by omega, fun i hi hl => by omega, fun _ => hw⟩
    | false =>
      rw [leadZeros, if_neg (by simp [hw])]
      refine ⟨by omega, fun i hi hl => ?_, fun hlt => ?_⟩
      · rcases Nat.lt_succ_iff_lt_or_eq.mp hi with hi | rfl
        · exact hzero i hi (by omega)
        · exact hw
      · rw [show w + 1 - 1 - (1 + leadZeros x w) = w - 1 - leadZeros x w by omega]
        exact hone (by omega)

/-- The count of trailing zeros from bit i upwards ends at the lowest 1 bit there. -/
theorem trailZeros_spec (x i fuel : Nat) : trailZeros x i fuel ≤ fuel ∧
    (∀ j, i ≤ j → j < i + trailZeros x i fuel → x.testBit j = false) ∧
    (trailZeros x i fuel < fuel → x.testBit (i + trailZeros x i fuel) = true) := by
  induction fuel generalizing i with
  | zero => exact ⟨le_rfl, fun j hi hj => absurd hj (Nat.not_lt.mpr hi), fun h => absurd h (Nat.lt_irrefl 0)⟩
  | succ fuel ih =>
    obtain ⟨hle, hzero, hone⟩ := ih (i + 1)
    cases hi : x.testBit i with
    | true =>
      rw [trailZeros, if_pos hi]
      exact ⟨by omega, fun j hij hj => by omega, fun _ => hi⟩
    | false =>
      rw [trailZeros, if_neg (by simp [hi]), ← Nat.add_assoc]
      refine ⟨by omega, fun j hij hj => ?_, fun hlt => hone (by omega)⟩
      rcases Nat.eq_or_lt_of_le hij with rfl | hij
      · exact hi
      · exact hzero j hij hj

/-- One more bit of width moves what stands already one place up. -/
theorem bitRev_width_succ (x : Nat) {w k : Nat} (hk : k ≤ w) : bitRev x (w + 1) k = 2 * bitRev x w k := by
  induction k with
  | zero => rfl
  | succ k ih =>
    rw [bitRev, bitRev, ih (by omega), Nat.mul_add, show w + 1 - 1 - k = w - 1 - k + 1 by omega, Nat.pow_succ']
    split <;> rfl

/-- A reversal puts the highest bit last. -/
theorem bitRev_succ (x w : Nat) : bitRev x (w + 1) (w + 1) = Nat.bit (x.testBit w) (bitRev x w w) := by
  rw [bitRev, bitRev_width_succ x le_rfl, Nat.bit_val, Nat.add_sub_cancel, Nat.sub_self]
  cases x.testBit w <;> rfl

theorem bitRev_spec (x w : Nat) : bitRev x w w < 2 ^ w ∧
    ∀ i, i < w → (bitRev x w w).testBit i = x.testBit (w - 1 - i) := by
  induction w with
  | zero => exact ⟨Nat.one_pos, fun i hi => absurd hi (Nat.not_lt_zero i)⟩
  | succ w ih =>
    obtain ⟨hlt, hbit⟩ := ih
    rw [bitRev_succ]
    refine ⟨Nat.bit_lt_two_pow_succ_iff.mpr hlt, fun i hi => ?_⟩
    cases i with
    | zero => exact Nat.testBit_bit_zero ..
    | succ i =>
      rw [Nat.testBit_bit_succ, hbit i (by omega), show w + 1 - 1 - (i + 1) = w - 1 - i by omega]

/-! ### Bit fields (R103) -/

/-- The bits of a field of n bits from bit pos up. -/
theorem testBit_field (a pos n i : Nat) : (a / 2 ^ pos % 2 ^ n).testBit i = (decide (i < n) && a.testBit (pos + i)) := by
  rw [Nat.testBit_mod_two_pow, Nat.testBit_div_two_pow, Nat.add_comm]

theorem lowBits_sub_of_lt {f p : Nat} (hf : f < p) (hp : p ≤ 2 ^ 32) : lowBits ((f : Int) - p) 32 = 2 ^ 32 - p + f := by
  unfold lowBits
  omega

/-- A negative field of n bits has 1 bits above it. -/
theorem testBit_lowBits_sub_two_pow {f n i : Nat} (hf : f < 2 ^ n) (hn : n ≤ 32) (hi : i < 32) :
    (lowBits ((f : Int) - 2 ^ n) 32).testBit i = if i < n then f.testBit i else true := by
  have hones : 2 ^ 32 - 2 ^ n = 2 ^ n * (2 ^ (32 - n) - 1) := by
    rw [Nat.mul_sub, ← Nat.pow_add, Nat.add_sub_cancel' hn, Nat.mul_one]
  have hval := lowBits_sub_of_lt hf (Nat.pow_le_pow_right (by decide) hn)
  rw [hones, Nat.cast_pow, Nat.cast_ofNat] at hval
  rw [hval, Nat.testBit_two_pow_mul_add _ hf, Nat.testBit_two_pow_sub_one]
  split
  · rfl
  · exact decide_eq_true (by omega)

section

variable {ctl : Nat}

theorem bitExtract_of_empty (a : Nat) (signed : Bool) (h : 32 ≤ ctl % 256 ∨ ctl / 256 % 256 = 0) :
    bitExtract a ctl signed = 0 := by
  rw [bitExtract, if_pos (by simpa using h)]

theorem bitInsert_of_empty (a base : Nat) (h : 32 ≤ ctl % 256 ∨ ctl / 256 % 256 = 0) : bitInsert a ctl base = base := by
  rw [bitInsert, if_pos (by simpa using h)]

variable (h : ¬(32 ≤ ctl % 256 ∨ ctl / 256 % 256 = 0))
include h

theorem bitExtract_of_field (a : Nat) (signed : Bool) :
    let n := min (ctl / 256 % 256) (32 - ctl % 256)
    let f := a / 2 ^ (ctl % 256) % 2 ^ n
    bitExtract a ctl signed = if signed && f.testBit (n - 1) then lowBits ((f : Int) - 2 ^ n) 32 else f := by
  rw [bitExtract, if_neg (by simpa using h)]

theorem bitInsert_of_field (a base : Nat) :
    let n := min (ctl / 256 % 256) (32 - ctl % 256)
    bitInsert a ctl base =
      2 ^ (ctl % 256) * (2 ^ n * (base / 2 ^ (ctl % 256 + n)) + a % 2 ^ n) + base % 2 ^ (ctl % 256) := by
  rw [bitInsert, if_neg (by simpa using h)]
  ring

end

/-- A field read as unsigned has 0 bits above it. -/
theorem testBit_bitExtract_unsigned (a ctl i : Nat) : (bitExtract a ctl false).testBit i =
    decide (ctl % 256 + i < 32 ∧ i < ctl / 256 % 256 ∧ a.testBit (ctl % 256 + i)) := by
  by_cases h : 32 ≤ ctl % 256 ∨ ctl / 256 % 256 = 0
  · rw [bitExtract_of_empty a false h, Nat.zero_testBit, eq_comm, decide_eq_false_iff_not]
    omega
  · rw [bitExtract_of_field h, Bool.false_and, if_neg Bool.false_ne_true, testBit_field, Bool.eq_iff_iff]
    simp only [Bool.and_eq_true, decide_eq_true_eq, ← and_assoc]
    exact and_congr_left fun _ => by omega

/-- A field read as signed repeats its top bit above it. -/
theorem testBit_bitExtract_signed (a ctl : Nat) {i : Nat} (hi : i < 32) : (bitExtract a ctl true).testBit i =
    decide (ctl % 256 < 32 ∧ ctl / 256 % 256 ≠ 0 ∧
      a.testBit (ctl % 256 + min i (min (ctl / 256 % 256) (32 - ctl % 256) - 1))) := by
  by_cases h : 32 ≤ ctl % 256 ∨ ctl / 256 % 256 = 0
  · rw [bitExtract_of_empty a true h, Nat.zero_testBit, eq_comm, decide_eq_false_iff_not]
    omega
  · rw [bitExtract_of_field h, Bool.true_and]
    obtain ⟨hpos, hlen⟩ := not_or.mp h
    simp only [Nat.not_le.mp hpos, hlen, ne_eq, not_false_eq_true, true_and, Bool.decide_eq_true]
    generalize hn : min (ctl / 256 % 256) (32 - ctl % 256) = n
    have hfield : a / 2 ^ (ctl % 256) % 2 ^ n < 2 ^ n := Nat.mod_lt _ (Nat.two_pow_pos n)
    have htop : (a / 2 ^ (ctl % 256) % 2 ^ n).testBit (n - 1) = a.testBit (ctl % 256 + (n - 1)) := by
      rw [testBit_field, decide_eq_true (by omega), Bool.true_and]
    have hbits : (if i < n then a.testBit (ctl % 256 + i) else a.testBit (ctl % 256 + (n - 1))) =
        a.testBit (ctl % 256 + min i (n - 1)) := by
      split
      · rw [Nat.min_eq_left (by omega)]
      · rw [Nat.min_eq_right (by omega)]
    rw [htop, ← hbits]
    cases hsign : a.testBit (ctl % 256 + (n - 1)) with
    | true =>
      rw [if_pos rfl, testBit_lowBits_sub_two_pow hfield (by omega) hi, testBit_field]
      by_cases hin : i < n <;> simp [hin]
    | false =>
      rw [if_neg Bool.false_ne_true, testBit_field]
      by_cases hin : i < n <;> simp [hin]

/-- A field replaces the bits of the base that it covers. -/
theorem testBit_bitInsert (a ctl base : Nat) {i : Nat} (hi : i < 32) : (bitInsert a ctl base).testBit i =
    if ctl % 256 ≤ i ∧ i < ctl % 256 + ctl / 256 % 256 then a.testBit (i - ctl % 256) else base.testBit i := by
  by_cases h : 32 ≤ ctl % 256 ∨ ctl / 256 % 256 = 0
  · rw [bitInsert_of_empty a base h, if_neg (by omega)]
  · rw [bitInsert_of_field h, Nat.testBit_two_pow_mul_add _ (Nat.mod_lt _ (Nat.two_pow_pos _)),
      Nat.testBit_two_pow_mul_add _ (Nat.mod_lt _ (Nat.two_pow_pos _)), Nat.testBit_mod_two_pow, Nat.testBit_mod_two_pow,
      Nat.testBit_div_two_pow]
    rcases Nat.lt_or_ge i (ctl % 256) with hbelow | hpos
    · simp [hbelow, Nat.not_le.mpr hbelow]
    · by_cases hin : i < ctl % 256 + ctl / 256 % 256
      · have hlt : i - ctl % 256 < min (ctl / 256 % 256) (32 - ctl % 256) := by omega
        simp [hpos, hin, hlt, Nat.not_lt.mpr hpos]
      · have hge : ¬ i - ctl % 256 < min (ctl / 256 % 256) (32 - ctl % 256) := by omega
        rw [if_neg (Nat.not_lt.mpr hpos), if_neg hge, if_neg (fun hc => hin hc.2)]
        congr 1
        omega

/-! ### Byte permutation (R104) -/

/-- The byte i of the result of `perm` (R104). -/
def permByte (a b sel i : Nat) : Nat :=
  let v := (a + b * 2 ^ 32) / 256 ^ (sel / 16 ^ i % 16 % 8) % 256
  if 8 ≤ sel / 16 ^ i % 16 then (if 128 ≤ v then 255 else 0) else v

theorem bytePermute_eq (a b sel : Nat) : bytePermute a b sel =
    permByte a b sel 0 + permByte a b sel 1 * 256 + permByte a b sel 2 * 65536 + permByte a b sel 3 * 16777216 := rfl

theorem permByte_lt (a b sel i : Nat) : permByte a b sel i < 256 := by
  unfold permByte
  dsimp only
  split
  · split <;> decide
  · exact Nat.mod_lt _ (by decide)

theorem bytePermute_byte (a b sel : Nat) {i : Nat} (hi : i < 4) :
    bytePermute a b sel / 256 ^ i % 256 = permByte a b sel i := by
  have h0 := permByte_lt a b sel 0
  have h1 := permByte_lt a b sel 1
  have h2 := permByte_lt a b sel 2
  have h3 := permByte_lt a b sel 3
  rw [bytePermute_eq]
  interval_cases i <;> omega

/-- The bytes of B stand above those of A. -/
theorem byte_of_pair (a b : Nat) {m : Nat} (ha : a < 2 ^ 32) (hm : m < 8) : (a + b * 2 ^ 32) / 256 ^ m % 256 =
    (if m < 4 then a / 256 ^ m else b / 256 ^ (m - 4)) % 256 := by
  rcases Nat.lt_or_ge m 4 with hlow | hhigh
  · rw [if_pos hlow]
    interval_cases m <;> omega
  · rw [if_neg (Nat.not_lt.mpr hhigh)]
    interval_cases m <;> omega

theorem permByte_spec (a b sel i : Nat) (ha : a < 2 ^ 32) :
    let k := sel / 16 ^ i % 16
    let v := (if k % 8 < 4 then a / 256 ^ (k % 8) else b / 256 ^ (k % 8 - 4)) % 256
    permByte a b sel i = if k < 8 then v else if 128 ≤ v then 255 else 0 := by
  intro k v
  rw [permByte, byte_of_pair a b ha (Nat.mod_lt k (by decide))]
  rcases Nat.lt_or_ge k 8 with hk | hk
  · rw [if_pos hk]
    exact if_neg (Nat.not_le.mpr hk)
  · rw [if_neg (Nat.not_lt.mpr hk)]
    exact if_pos hk

end Sys2Proof
end
section
/-! PROOFS. Logic, shifts and bits (R100 to R104): what each lane computes and writes. -/

namespace Sys2Proof.Machine

open Sys2Proof

/-- Settles O16: each instruction computes one value a lane and writes it at once; the bits of the values are those of the lemmas
about counts, fields and bytes. -/
theorem logicShiftBits : Obligations.LogicShiftBits := by
  unfold Obligations.LogicShiftBits
  refine ⟨?lanes,
    fun x w => ⟨leadZeros_spec x w, ?ctz, bitRev_spec x w⟩,
    fun a ctl i _ hi => ⟨testBit_bitExtract_unsigned a ctl i, testBit_bitExtract_signed a ctl hi⟩,
    fun a ctl base i _ hi => testBit_bitInsert a ctl base hi,
    fun a b sel i ha _ hi => (bytePermute_byte a b sel hi).trans (permByte_spec a b sel i ha)⟩
  case ctz =>
    obtain ⟨hle, hzero, hone⟩ := trailZeros_spec x 0 w
    simp only [Nat.zero_add] at hzero hone
    exact ⟨hle, fun i => hzero i (Nat.zero_le i), hone⟩
  case lanes =>
    intro f ty s s1 c A B ones
    refine ⟨fun h => alu_written 0x04 h, fun h => alu_written 0x04 h, fun h => alu_written 0x04 h,
      fun h => alu_written 0x04 h, fun h => alu_written 0x04 h, fun h => alu_written 0x05 h,
      fun h => alu_written 0x05 h, fun h => alu_written 0x05 h, fun h => alu_written 0x05 h,
      fun h => alu_written 0x05 h, fun h => alu_written 0x05 h,
      fun h => alu_written 0x06 h (hv := fun l => popCount_eq_length (A l) ty.width), fun h => alu_written 0x06 h,
      fun h => alu_written 0x06 h, fun h => alu_written 0x06 h, fun imm h => ?bfe, fun imm h => ?bfi, fun imm h => ?perm⟩
    all_goals
      obtain rfl : c.e.f = f := frame_of_begins h (by rintro _ _ ⟨⟩; rfl)
      exact alu_written 0x07 h

end Sys2Proof.Machine
end
section
/-! PROOFS. The floating instructions that round once and are written at once (R114 to R122, R124): arithmetic, selection,
comparison, classification and the packed halves. -/

namespace Sys2Proof.Machine

open Sys2Proof

/-- The majors of R115 whose instructions are written at once: those of R118 to R122 and R124, without those of R123. -/
def floatWrittenOps : List Nat := [0x20, 0x21, 0x22, 0x23, 0x26]

theorem codeTable_floatWritten_ll : ∀ r ∈ codeTable, r.op ∈ floatWrittenOps → r.ll = false := by decide +kernel

theorem isLL_floatWritten {op minor : Nat} (hop : op ∈ floatWrittenOps) : isLL op minor = false := by
  unfold isLL
  cases hr : codeOf op minor with
  | none => rfl
  | some r =>
    have hcode := List.find?_some hr
    simp only [Bool.and_eq_true, beq_iff_eq] at hcode
    obtain ⟨rfl, -⟩ := hcode
    exact codeTable_floatWritten_ll r (List.mem_of_find?_eq_some hr) hop

section

variable {i : Instr} {s s1 : State} {c : Ctx}

/-- The context of an instruction that begins holds the major that the instruction's description gives. -/
theorem op_of_begins {op : Nat} (h : Begins i s c s1) (hop : ∀ u, (descOf u i).map Desc.op = some op) : c.e.op = op := by
  obtain ⟨e, he, hce, -, -⟩ := State.startOf_go h
  have hdesc := hop s.curUnit
  rw [he] at hdesc
  exact hce ▸ Option.some.inj hdesc

/-- A floating instruction outside R123 that computes the value `v` in each lane writes it. -/
theorem alu_floatWritten (op : Nat) (h : Begins i s c s1) {words : Nat} {g : Ctx → Nat → Nat} {v : Nat → Nat}
    (hop : ∀ u, (descOf u i).map Desc.op = some op := by exact fun _ => rfl)
    (hmem : op ∈ floatWrittenOps := by decide) (hv : ∀ l, g c l = v l := by exact fun _ => rfl) :
    alu i s words g = .next (s1.written c words v) := by
  have hll : isLL c.e.op c.e.minor = false := op_of_begins h hop ▸ isLL_floatWritten hmem
  rw [alu_go h hll, funext hv]
  rfl

end

/-- Settles O20: each instruction computes one value a lane, rounded once where it is a number, and writes it at once. -/
theorem floatArithmetic : Obligations.FloatArithmetic := by
  unfold Obligations.FloatArithmetic
  intro f ty rnd sat ftz s s1 c X Y Z res
  refine ⟨fun h => alu_floatWritten 0x20 h, fun h => alu_floatWritten 0x20 h, fun h => alu_floatWritten 0x20 h,
    fun h => ?ffma, fun h => ?fldexp, fun h => alu_floatWritten 0x23 h, fun h => alu_floatWritten 0x21 h,
    fun h => alu_floatWritten 0x21 h, fun cc h => alu_floatWritten 0x22 h, fun h => ?fclass⟩
  all_goals obtain rfl : c.e.f = f := frame_of_begins h (by rintro _ _ ⟨⟩; rfl)
  case ffma => exact alu_floatWritten 0x20 h
  case fldexp => exact alu_floatWritten 0x23 h
  case fclass => exact alu_floatWritten 0x22 h

/-- Settles O22: each instruction computes one value a lane, of its two halves or of the sum of both products and C, and writes
it at once. -/
theorem packedFloat : Obligations.PackedFloat := by
  unfold Obligations.PackedFloat
  intro f ty rnd sat ftz s s1 c el A B C half
  refine ⟨fun h => alu_floatWritten 0x26 h, fun h => alu_floatWritten 0x26 h, fun h => ?hfma2, fun dt h => ?hdot2⟩
  all_goals
    obtain rfl : c.e.f = f := frame_of_begins h (by rintro _ _ ⟨⟩; rfl)
    exact alu_floatWritten 0x26 h

end Sys2Proof.Machine
end
section
/-! PROOFS. The lanes of a group act one after another (R149, R163), and what becomes of the outcome of each. -/

namespace Sys2Proof.Machine

open Sys2Proof

/-! ### The lanes one after another -/

section

variable (s : State) (c : Ctx) (g : State → Nat → Lane) (pre : List Nat) (l : Nat)

theorem State.lanesUpTo_append_one :
    s.lanesUpTo c g (pre ++ [l]) = State.laneStep c g (s.lanesUpTo c g pre) l := by
  simp only [State.lanesUpTo, List.foldl_append, List.foldl_cons, List.foldl_nil]

variable {c g l} {r : State × Bool × Bool}

/-- A lane above which none stands at the instruction still acts. -/
theorem State.laneStep_acts (hl : (r.1.thread? c.w l).isSome) (hr : r.2.2 = false) :
    State.laneStep c g r l =
      ((State.laneOut c l r.2.1 (g r.1 l)).1, (State.laneOut c l r.2.1 (g r.1 l)).2, (g r.1 l).stays) := by
  unfold State.laneStep
  rw [if_pos hl, hr]
  rfl

/-- A lane above one that stands at the instruction still stands there too (R149). -/
theorem State.laneStep_stands (hl : (r.1.thread? c.w l).isSome) (hr : r.2.2 = true) :
    State.laneStep c g r l = (r.1.updThread c.w l (c.back l), r.2.1, true) := by
  unfold State.laneStep
  rw [if_pos hl, hr]
  rfl

end

/-! ### The outcome of one lane -/

/-- A `fence.rel` before an access changes its order and its scope alone (R304). -/
theorem Acc.fencedBy_dst (a : Acc) (f : Option Scope) : (a.fencedBy f).dst = a.dst := by
  unfold Acc.fencedBy
  cases f with
  | none => rfl
  | some sc => dsimp only; split <;> rfl

/-- A plain store after a `fence.rel` is a release at the scope of the fence (R304). -/
theorem Acc.fencedBy_plain_store {a : Acc} (hw : a.kind.writes = true) (ho : a.ord = .plain) (sc : Scope) :
    a.fencedBy (some sc) = { a with ord := .rel, scope := sc } := by
  simp [Acc.fencedBy, hw, ho, Ord.acquires, Ord.releases]

theorem Acc.queue?_of_dst_none {a : Acc} (h : a.dst = none) : a.queue? = none := by
  unfold Acc.queue?
  rw [h]

theorem Acc.queue?_of_dst {a : Acc} {d : Dst} (h : a.dst = some d) (hq : ∀ q, d.op ≠ .q q) : a.queue? = none := by
  obtain ⟨op, words, wr⟩ := d
  unfold Acc.queue?
  rw [h]
  cases op with
  | q n => exact absurd rfl (hq n)
  | _ => rfl

/-- An access whose result goes to no register needs no version before its window (R324, R326). -/
theorem State.needsVersion_of_dst_none (s : State) (w : Nat) {a : Acc} (h : a.dst = none) : s.needsVersion w a = false := by
  unfold State.needsVersion
  rw [h]
  rfl

/-- A result that goes to no feed stream is no element beyond the TOB window (R211). -/
theorem State.feedPast_none (s : State) (c : Ctx) {a : Acc} (h : a.queue? = none) : s.feedPast c a = none := by
  unfold State.feedPast
  rw [h]

/-- An access that needs no version waits behind what its thread has issued. -/
theorem State.pendAcc_append {s : State} {c : Ctx} {a : Acc} (l : Nat) (h : s.needsVersion c.w a = false) :
    s.pendAcc c l a = s.updThread c.w l fun t => { t with accs := t.accs ++ [a] } := by
  unfold State.pendAcc
  rw [if_neg (by simp [h])]

/-- A pending access whose result goes where `Ctx.dstOf` sends that of its lane (R17). -/
def Ctx.aim (c : Ctx) (l : Nat) (led : Bool) (a : Acc) : Acc :=
  match a.dst with
  | some d => { a with dst := some (c.dstOf l (if led then l + 1 else l) d.words) }
  | none => a

theorem Ctx.aim_own {c : Ctx} {l : Nat} {led : Bool} {a : Acc}
    (h : ∀ d, a.dst = some d → c.dstOf l (if led then l + 1 else l) d.words = d) : c.aim l led a = a := by
  unfold Ctx.aim
  split
  case h_1 d hd => rw [h d hd, ← hd]
  case h_2 => rfl

theorem Ctx.detail_none {c : Ctx} {l : Nat} (h : c.elemOf l = none) (f : Flt) : c.detail l f = f := by
  unfold Ctx.detail
  rw [h]

theorem Ctx.detail_some {c : Ctx} {l : Nat} {v : Word} (h : c.elemOf l = some v) (f : Flt) :
    c.detail l f = { f with det1 := v.toNat } := by
  unfold Ctx.detail
  rw [h]

theorem Ctx.back_of_no_pops {c : Ctx} (h : c.pops = []) (l : Nat) (t : Thread) :
    c.back l t = { t.undo c.pc c.id with popped := [] } := by
  unfold Ctx.back
  rw [h]
  rfl

theorem Ctx.waits_of_no_phase (c : Ctx) (l : Nat) (led : Bool) {y : Why}
    (h : ∀ wg off g d acq id pc npc, y ≠ .phase wg off g d acq id pc npc) : c.waits l led y = (y, led) := by
  unfold Ctx.waits
  split
  · exact (h _ _ _ _ _ _ _ _ rfl).elim
  · rfl

section

variable {c : Ctx} {l : Nat} {led : Bool} {r : State} {a : Acc}

/-- A pending access that goes to no feed stream, and whose destination is its lane's own, waits as the thread's fence has it. -/
theorem State.laneOut_pend {f : Option Scope} (hf : ((r.thread? c.w l).bind fun t => t.fenced) = f) (hq : a.queue? = none)
    (hdst : ∀ d, a.dst = some d → c.dstOf l (if led then l + 1 else l) d.words = d) :
    (State.laneOut c l led (.pend r a)).1 =
      (if f.isSome && a.kind.writes then r.updThread c.w l fun t => { t with fenced := none } else r).pendAcc c l
        { a.fencedBy f with popped := (c.elemOf l).getD 0 } := by
  subst hf
  set f := (r.thread? c.w l).bind fun t => t.fenced
  set s0 := if f.isSome && a.kind.writes then r.updThread c.w l fun t => { t with fenced := none } else r
  set b : Acc := { a.fencedBy f with popped := (c.elemOf l).getD 0 }
  have hbdst : b.dst = a.dst := a.fencedBy_dst f
  have haim : c.aim l led b = b := Ctx.aim_own (hbdst ▸ hdst)
  have hq' : b.queue? = none := by rw [Acc.queue?, hbdst]; exact hq
  change (match s0.feedPast c (c.aim l led b) with
    | some off => s0.faultLanes c [(l, feedFault off)]
    | none => s0.pendAcc c l (c.aim l led b)) = s0.pendAcc c l b
  rw [haim, s0.feedPast_none c hq']

/-- A fault raised at the instruction once what the thread has done is released (R49, R366). -/
theorem State.laneOut_fault_released {f : Flt} {r1 : State}
    (h : (r.holdActs.updThread c.w l fun t => t.undo c.pc c.id).releaseAt c.w l .dev = some r1) :
    (State.laneOut c l led (.fault r f)).1 = r1.takeFault c.w l c.pc (c.detail l f) := by
  rw [State.laneOut_fault, State.faultLanes_one]
  unfold State.faultLane State.raise?
  rw [h]
  rfl

/-- While the release is held, the lane stands at the instruction again (R366). -/
theorem State.laneOut_fault_held {f : Flt}
    (h : (r.holdActs.updThread c.w l fun t => t.undo c.pc c.id).releaseAt c.w l .dev = none) :
    (State.laneOut c l led (.fault r f)).1 = r.holdActs.updThread c.w l (c.back l) := by
  rw [State.laneOut_fault, State.faultLanes_one]
  unfold State.faultLane State.raise?
  rw [h]
  rfl

section

variable (hs : ∀ n, c.e.f.d ≠ .s n) (hk : ∀ n, c.e.f.d ≠ .k n)
include hs hk

/-- Where the destination belongs to the thread, each lane takes its own result (R17). -/
theorem Ctx.dstOf_own (lead words : Nat) : c.dstOf l lead words = ⟨c.e.f.d, words, true⟩ := by
  unfold Ctx.dstOf
  split
  · exact absurd ‹_› (hs _)
  · exact absurd ‹_› (hk _)
  · rfl

theorem State.laneOut_ok_cons (hq : ∀ q, c.e.f.d ≠ .q q) (w : Word) (ws : List Word) :
    (State.laneOut c l led (.ok r (w :: ws))).1 = r.putDst c.w l c.e.f.d (w :: ws) := by
  unfold State.laneOut
  dsimp only
  split
  · exact absurd ‹_› (hs _)
  · exact absurd ‹_› (hk _)
  · exact absurd ‹_› (hq _)
  · rfl

end

variable {t : Thread} (ht : r.thread? c.w l = some t)
include ht

theorem State.laneOut_pend_unfenced (hf : t.fenced = none) (hq : a.queue? = none)
    (hdst : ∀ d, a.dst = some d → c.dstOf l (if led then l + 1 else l) d.words = d) (hv : r.needsVersion c.w a = false) :
    (State.laneOut c l led (.pend r a)).1 =
      r.updThread c.w l fun t => { t with accs := t.accs ++ [{ a with popped := (c.elemOf l).getD 0 }] } := by
  rw [State.laneOut_pend (f := none) (by rw [ht]; exact hf) hq hdst]
  exact State.pendAcc_append l hv

/-- A store after `fence.rel` is a release, and the fence is done with (R304). -/
theorem State.laneOut_pend_fenced {sc : Scope} (hf : t.fenced = some sc) (hd : a.dst = none) (hw : a.kind.writes = true)
    (ho : a.ord = .plain) :
    (State.laneOut c l led (.pend r a)).1 =
      r.updThread c.w l fun t => { t with
        fenced := none, accs := t.accs ++ [{ a with ord := .rel, scope := sc, popped := (c.elemOf l).getD 0 }] } := by
  rw [State.laneOut_pend (f := some sc) (by rw [ht]; exact hf) (Acc.queue?_of_dst_none hd) (by simp [hd]),
    Acc.fencedBy_plain_store hw ho, if_pos (by simp [hw])]
  refine (State.pendAcc_append l ?_).trans (State.updThread_updThread ..)
  exact State.needsVersion_of_dst_none _ _ hd

end

/-- Settles O13: one more lane at the end of a list takes one more `laneStep`; each outcome by the lemma about it. -/
theorem lanesActInOrder : Obligations.LanesActInOrder := by
  unfold Obligations.LanesActInOrder
  refine ⟨fun _ _ _ => rfl, fun s c g pre l hl => ⟨fun hr => ?acts, fun hr => ?stands⟩, fun c l led r hq hs hk => ?outcomes⟩
  case acts => rw [State.lanesUpTo_append_one, State.laneStep_acts hl hr]
  case stands => rw [State.lanesUpTo_append_one, State.laneStep_stands hl hr]
  case outcomes =>
    refine ⟨?nothing, fun w ws => State.laneOut_ok_cons hs hk hq w ws, fun a t ht hf hd => ?access, fun a t n ht hf hd hv => ?result,
      fun a t sc ht hf hd hw ho => State.laneOut_pend_fenced ht hf hd hw ho, fun f r1 hp hr => ?fault,
      fun f r1 n v hp hr => ?faultPopped, fun f hr => State.laneOut_fault_held hr, fun y => rfl, rfl, rfl,
      fun hp t => Ctx.back_of_no_pops hp l t, fun y hy => c.waits_of_no_phase l led hy⟩
    case nothing => rw [State.laneOut_ok_nil c l led r hq hs hk]
    case access =>
      exact State.laneOut_pend_unfenced ht hf (Acc.queue?_of_dst_none hd) (by simp [hd]) (State.needsVersion_of_dst_none _ _ hd)
    case result =>
      refine State.laneOut_pend_unfenced ht hf (Acc.queue?_of_dst hd hq) (fun d hd' => ?_) hv
      obtain rfl := Option.some.inj (hd.symm.trans hd')
      exact Ctx.dstOf_own hs hk _ n
    case fault =>
      rw [State.laneOut_fault_released hr, Ctx.detail_none (by simp [Ctx.elemOf, hp])]
    case faultPopped =>
      rw [State.laneOut_fault_released hr, Ctx.detail_some (v := v) (by simp [Ctx.elemOf, hp])]

end Sys2Proof.Machine
end
section
/-! PROOFS. The lanes of `spawn` (R145, R146): what faults, and what the bin of a key answers. -/

namespace Sys2Proof.Machine

open Sys2Proof

theorem Ctx.spawnEntry_eq {c : Ctx} {f : Frame} (h : c.e.f = f) (l : Nat) :
    c.spawnEntry l = if f.isS then BitVec.ofNat 64 (c.b l 2) else c.pc + BitVec.ofInt 64 (4 * f.x.toInt) := by
  subst h; rfl

section

variable (r : State) {c : Ctx} {l : Nat} (flt : Bool)

theorem State.spawnLane_misaligned (h : (c.spawnEntry l).toNat % 4 ≠ 0) :
    r.spawnLane c l flt = .fault r { code := 2, sub := 8, addr := some (c.spawnEntry l).toNat } := by
  simp only [State.spawnLane, targetBad_of_misaligned h]

variable {r} (hal : (c.spawnEntry l).toNat % 4 = 0)
include hal

theorem State.spawnLane_deep (hd : (c.thread l).sdep = 8) :
    r.spawnLane c l flt = .fault r { code := 0x18, sub := 0, addr := some (c.spawnEntry l).toNat } := by
  simp only [State.spawnLane, targetBad_of_aligned hal, if_pos hd]

variable {r1 : State} (hd : (c.thread l).sdep ≠ 8) (hr : r.releaseAt c.w l .cls = some r1)
include hd hr

theorem State.spawnLane_appended {r2 : State}
    (h : r1.spawnAppend (clusterOfWave c.w) c.x.rgn (c.spawnEntry l) (r1.tagOf c.x.rgn) ((c.thread l).sdep + 1)
      (BitVec.ofNat 128 (c.a l 4)) = .ok r2) :
    r.spawnLane c l flt = .ok r2 [1] := by
  simp only [State.spawnLane, targetBad_of_aligned hal, if_neg hd, hr, h]

theorem State.spawnLane_refused {sub : BitVec 8}
    (h : r1.spawnAppend (clusterOfWave c.w) c.x.rgn (c.spawnEntry l) (r1.tagOf c.x.rgn) ((c.thread l).sdep + 1)
      (BitVec.ofNat 128 (c.a l 4)) = .error sub) :
    r.spawnLane c l flt = if flt then .fault r1 { code := 9, sub := sub } else .ok r1 [0] := by
  simp only [State.spawnLane, targetBad_of_aligned hal, if_neg hd, hr, h]

end

/-- A bin that is open for the key, all of whose records are on chip, takes another while the pool has room (R146, R147). -/
theorem State.spawnAppend_on_chip {r : State} {k rgn : Nat} {entry : DWord} {tag : Option (BitVec 5)} {sdep i : Nat}
    {b : SpawnBin} (hb : ((r.cluster k).bins.find? fun e => e.2.hasKey rgn entry tag sdep) = some (i, b))
    (hroom : (r.cluster k).poolUsed < 4096) (hchip : (b.recs.all fun e => e.chunk.isNone) = true) (data : BitVec 128) :
    r.spawnAppend k rgn entry tag sdep data = .ok (r.setCluster k { r.cluster k with
      bins := (r.cluster k).bins.ins i { b with recs := b.recs ++ [⟨data, r.clusterClk k, none⟩] } }) := by
  have hbin : (r.cluster k).binFor rgn entry tag sdep = some (i, b) := by
    unfold Cluster.binFor
    rw [hb]
  unfold State.spawnAppend
  simp only [hbin]
  rw [if_pos hchip]
  exact if_pos ⟨hroom, hchip⟩

/-- Settles O28: the lanes spawn one after another; each by its entry, its depth, and what the bin of its key answers. -/
theorem spawns : Obligations.Spawns := by
  unfold Obligations.Spawns
  intro f flt s s1 c h entry
  have hf : c.e.f = f := frame_of_begins h (by rintro _ _ ⟨⟩; rfl)
  have hentry : c.spawnEntry = entry := funext fun l => Ctx.spawnEntry_eq hf l
  clear_value entry
  subst hentry
  refine ⟨perLane_lanes h, fun r r1 r2 l sub => ⟨State.spawnLane_misaligned r flt, State.spawnLane_deep flt,
    fun hal hd hr => ⟨State.spawnLane_appended flt hal hd hr, State.spawnLane_refused flt hal hd hr⟩,
    fun i b => State.spawnAppend_on_chip⟩⟩

end Sys2Proof.Machine
end
section
/-! PROOFS. The events of the gathering unit (R146 to R148, R259, R261 to R263, R424): what fires, what is voided, what is tried
again, and where a delivered wave is placed. -/

namespace Sys2Proof.Machine

open Sys2Proof

/-! ### A queue of a cluster -/

@[simp] theorem State.queue_setQueue (s : State) (k n : Nat) (q : GQueue) : (s.setQueue k n q).queue k n = q := by
  simp [State.queue, State.setQueue]

/-- A queue that holds no entry and takes none is no longer consumed. -/
theorem GQueue.rest_eq (q : GQueue) :
    q.rest = { q with cons := if q.enabled = true ∨ q.slots ≠ [] then q.cons else 0 } := by
  unfold GQueue.rest
  split
  case isTrue h =>
    obtain ⟨he, hs⟩ : q.enabled = false ∧ q.slots = [] := by simpa using h
    rw [if_neg (by simp [he, hs])]
  case isFalse h =>
    rw [if_pos (by simpa [Decidable.or_iff_not_imp_left] using h)]

/-! ### What a queue holds for -/

section

variable {s s1 : State} {k n rgn : Nat}

/-- A queue that holds for nothing waits for no access. -/
theorem State.queueRetry_of_hold_none (hr : (s.queue k n).cfgRgn = some rgn) (hh : (s.queue k n).hold = none) :
    s.queueRetry k n = (s, true) := by
  unfold State.queueRetry
  simp only [hr, hh]

/-- A queue all of whose published entries stand in memory writes none again. -/
theorem State.rewriteQueue_of_written (h : (s.queue k n).unwritten = false) : s.rewriteQueue k n = (s, true) := by
  unfold State.rewriteQueue
  simp [h]

theorem State.queueReady_of_retry (hr : s.queueRetry k n = (s1, true)) (hu : (s1.queue k n).unwritten = false) :
    s.queueReady k n = (s1, true) := by
  unfold State.queueReady
  simp only [hr, State.rewriteQueue_of_written hu]

theorem State.queueReady_of_held (hr : s.queueRetry k n = (s1, false)) : s.queueReady k n = (s1, false) := by
  unfold State.queueReady
  simp only [hr]

/-- No spill place is read where none is named. -/
@[simp] theorem State.queueTry_nil (s : State) (k n rgn : Nat) : s.queueTry k n rgn [] = (s, true) := rfl

section

variable {wr : Bool} {va : Nat} (hr : (s.queue k n).cfgRgn = some rgn) (hh : (s.queue k n).hold = some (wr, va))
include hr hh

theorem State.queueRetry_of_success (h : s.gathTry rgn k wr va (s.queue k n).faultHeld = (s1, none)) :
    s.queueRetry k n = (s1.setQueue k n { s1.queue k n with faultHeld := false, hold := none }, true) := by
  unfold State.queueRetry
  simp only [hr, hh, h]

theorem State.queueRetry_of_failure {posted : Bool}
    (h : s.gathTry rgn k wr va (s.queue k n).faultHeld = (s1, some posted)) :
    s.queueRetry k n = (s1.setQueue k n { s1.queue k n with faultHeld := posted }, false) := by
  unfold State.queueRetry
  simp only [hr, hh, h]

end

/-- A queue whose access succeeds at last holds no longer, and what is in spill moves back (R424). -/
theorem execGatherFaultRetry_of_ready (hn : n < 512) (h : s.queueReady k n = (s1, true)) :
    exec (.gatherFaultRetry k n) s = .next (s1.unspillQueue k n) := by
  change execGatherFaultRetry k n s = _
  unfold execGatherFaultRetry
  rw [if_pos hn, h]

theorem execGatherFaultRetry_of_held (hn : n < 512) (h : s.queueReady k n = (s1, false)) :
    exec (.gatherFaultRetry k n) s = .next s1 := by
  change execGatherFaultRetry k n s = _
  unfold execGatherFaultRetry
  rw [if_pos hn, h]

/-! ### Firing -/

/-- The first firable queue or bin, where its batch can be delivered, fires, and the cluster fires no more for 4 clocks (R261). -/
theorem execGatherFiring_of_head {x : Fire} {l : List Fire} (hat : (s.cluster k).firedAt ≤ s.clusterClk k)
    (hx : s.firable k = x :: l) (h : (if x.bin then s.fireSpawn k x.num else s.fireQueue k x.num) = (s1, true)) :
    exec (.gatherFiring k) s = .next (s1.setCluster k { s1.cluster k with firedAt := s.clusterClk k + 4 }) := by
  have hfirst : s.fireFirst k (s.firable k) = (s1, true) := by
    rw [hx, State.fireFirst, h]
    rfl
  change execGatherFiring k s = _
  unfold execGatherFiring
  rw [if_neg (Nat.not_lt.mpr hat), hfirst]
  rfl

theorem execGatherFiring_early (h : s.clusterClk k < (s.cluster k).firedAt) : exec (.gatherFiring k) s = .next s := if_pos h

/-- A batch for a bin becomes a wave that waits to be placed (R262). -/
theorem State.fireBin_of_mayFire (n : Nat) (q : GQueue) (batch : List GSlot) (h : s.mayFire k rgn = true) :
    s.fireBin k n q rgn batch = ({ s with
      nextId := s.nextId + 1
      deliveries := s.deliveries ++ [deliveryOf s.nextId rgn k .gather q.entry (s.tagOf rgn) 0 n
        (batch.filterMap fun t => t.data.map fun d => (d, t.rgn))] }, true) := by
  unfold State.fireBin
  rw [if_neg (by simp [h])]

/-- The batch of a queue that holds for nothing, with no entry of the batch in spill, is delivered and leaves the queue. -/
theorem State.fireQueue_of_delivery {t : State} {q : GQueue} {batch : List GSlot} (hq : s.queue k n = q)
    (hbatch : q.pre.take q.bmax = batch) (hr : q.cfgRgn = some rgn) (hh : q.hold = none) (hu : q.unwritten = false)
    (hb : ∀ u ∈ batch, u.spill = none)
    (h : (if q.cons = 2 then s.fireCaller k n q rgn batch else s.fireBin k n q rgn batch) = (t, true)) :
    s.fireQueue k n = ((t.setQueue k n
      ({ t.queue k n with slots := (t.queue k n).slots.drop batch.length } : GQueue).rest).unspillQueue k n, true) := by
  subst hq hbatch
  have hready : s.queueReady k n = (s, true) := State.queueReady_of_retry (State.queueRetry_of_hold_none hr hh) hu
  have hvas : (((s.queue k n).pre.take (s.queue k n).bmax).filterMap fun u => u.spill.map (s.queue k n).spillVa) = [] :=
    List.filterMap_eq_nil_iff.mpr fun u hu => by rw [hb u hu]; rfl
  unfold State.fireQueue
  simp only [hr, hready, hvas, State.queueTry_nil, h]

end

/-! ### Voiding and placement -/

/-- The one slot of a queue, reserved for 65,536 clocks, is voided; nothing is left in the queue (R259). -/
theorem execReservationVoid_of_due {s : State} {k n : Nat} {t : GSlot} (hs : (s.queue k n).slots = [t]) (hd : t.data = none)
    (hc : t.clk + 65536 ≤ s.clusterClk k) :
    exec (.reservationVoid k n t.ticket) s =
      .next ((s.setQueue k n ({ s.queue k n with slots := [] } : GQueue).rest).voidRecord k n t) := by
  change execReservationVoid k n t.ticket s = _
  simp [execReservationVoid, hs, hd, hc]

/-- A delivery of a running region takes the lowest free pool entry and the core offered, where its wave fits (R148, R262). -/
theorem execDeliveredWavePlace_of_fits {s : State} {n g e : Nat} {d : Delivery} {x : Region} {p : Plan}
    (hd : (s.deliveries.find? fun y => y.id == n) = some d) (hx : s.region? d.rgn = some x) (hst : x.st = .running)
    (hmay : s.mayDeliver d.rgn = true) (hback : s.heldBack (g / 96) d.rgn = false)
    (hcore : (s.deliveryCores d).contains g = true) (htile : s.tileFits d.kind g = true)
    (hp : s.plan d.rgn g x.rcb x.rcb.wave1 = some p) (he : lowestFree x.pool x.rcb.dpool = some e) :
    exec (.deliveredWavePlace n g) s =
      .next (({ s with deliveries := s.deliveries.filter fun y => y.id != n } : State).seatDelivered d x g e p) := by
  change execDeliveredWavePlace n g s = _
  have hrun : x.st ≠ .ready := by simp [hst]
  unfold execDeliveredWavePlace
  simp only [hd, hx, hmay, hback, hcore, htile, hp, he, Bool.not_true, Bool.or_self, Bool.false_eq_true, if_false,
    if_neg hrun]

/-- Settles O42: each event by its own lemma, in the order of the statement. -/
theorem gatherEvents : Obligations.GatherEvents := by
  unfold Obligations.GatherEvents
  intro s s1 k n
  refine ⟨fun x l hat hx hbin hfire => execGatherFiring_of_head hat hx (by rw [hbin]; exact hfire),
    fun x l hat hx hbin hfire => execGatherFiring_of_head hat hx (by rw [hbin]; exact hfire), execGatherFiring_early,
    fun rgn t => ?batch, fun q rgn batch hmay => ?kept, fun q rgn batch hmay => ?delivered, fun t hs hd hc => ?void,
    fun rgn wr va hn hr hh => ⟨fun htry hu => ?success, fun posted htry => ?failure⟩,
    fun d x p e g => execDeliveredWavePlace_of_fits⟩
  case batch =>
    intro q batch hr hh hu hb h q2 left
    rw [State.fireQueue_of_delivery rfl rfl hr hh hu hb h, GQueue.rest_eq]
  case kept =>
    unfold State.fireBin
    rw [if_pos (by rw [hmay]; rfl)]
  case delivered =>
    exact ⟨_, State.fireBin_of_mayFire n q batch hmay, rfl, rfl, rfl, rfl⟩
  case void =>
    rw [execReservationVoid_of_due hs hd hc, GQueue.rest_eq]
    simp only [ne_eq, not_true_eq_false, or_false]
    rfl
  case success =>
    refine execGatherFaultRetry_of_ready hn (State.queueReady_of_retry (State.queueRetry_of_success hr hh htry) ?_)
    rw [State.queue_setQueue]
    exact hu
  case failure =>
    exact execGatherFaultRetry_of_held hn (State.queueReady_of_held (State.queueRetry_of_failure hr hh htry))

end Sys2Proof.Machine
end
section
/-! PROOFS. Every instruction, every event and every step answers a next state (O5). -/

namespace Sys2Proof.Machine

open Sys2Proof

/-- A command is refused or done, or comes from no function. -/
theorem State.command_next (s : State) (fn : Nat) (tag : BitVec 16) (cmd : BitVec 512) (pf : Bool) (act : State → State) :
    ∃ t, s.command fn tag cmd pf act = .next t := by
  unfold State.command
  dsimp only
  split
  · exact ⟨_, rfl⟩
  · split <;> exact ⟨_, rfl⟩

/-- What a sweep reads may stop it; it goes on with the next chunk then. -/
theorem execSweepChunk_next (die engine : Nat) (s : State) : ∃ t, execSweepChunk die engine s = .next t := by
  unfold execSweepChunk
  split
  · exact ⟨_, rfl⟩
  · extract_lets e fail
    have hfail (r : EngRes) : ∃ t, fail r = .next t := by unfold fail; split <;> exact ⟨_, rfl⟩
    split
    · exact ⟨_, rfl⟩
    · split
      · exact ⟨_, rfl⟩
      · split
        · split
          · exact ⟨_, rfl⟩
          · split
            · exact ⟨_, rfl⟩
            · exact hfail _
        · exact hfail _

theorem execTfetchRowFetch_next (cluster handle row : Nat) (s : State) :
    ∃ t, execTfetchRowFetch cluster handle row s = .next t := by
  unfold execTfetchRowFetch
  split
  · exact ⟨_, rfl⟩
  · split
    · exact ⟨_, rfl⟩
    · split
      · exact ⟨_, rfl⟩
      · extract_lets put
        split
        · exact ⟨_, rfl⟩
        · exact ⟨_, rfl⟩
        · split <;> exact ⟨_, rfl⟩

/-- A coded instruction issues, a command is answered, and each branch of another event names the state that follows. -/
theorem exec_next (i : Instr) (s : State) : ∃ t, exec i s = .next t := by
  cases i with
  | iadd | isub | iaddc | isubb | iadd64 | imul | imulhi | imad | imadw | idiv | irem | imin | imax | iabs | ineg | and | or
  | xor | andn | not | shl | shr | sar | rol | shl64 | shr64 | popc | clz | ctz | brev | bfe | bfi | perm | sel | icmp | mov
  | movi | lea | dp4 | shfl | vote | redux | fadd | fsub | fmul | ffma | fmin | fmax | fcmp | fclass | frnd | fldexp | frcp
  | frsq | fsqrt | fdiv | fexp2 | flog2 | fsin | fcos | hadd2 | hmul2 | hfma2 | cvt | qpack | qunpk | bra | brx | call | callx
  | ret | kset | kclr | join | wsync | exit | nop | spawn | ld | ldS | ldC | ldr | st | stS | stc | pf | atom | atomS | cas
  | red | mred | mcas | mscale | barInit | arrive | expect | wait | cwatch | fence | copy | halo | gqEnq | gqResv | gqPub
  | gqCfgConfigure | gqCfgDisable | gqCfgRelease | gqCfgQuery | rlaunch | rlaunchPrism | rlaunchSusp | rlaunchRes | rlaunchKill
  | rlaunchRepl | wdq | sweep | ctxSet | ctxWake | coll | mma | mmaZ | tfetch | trel | drain | azero | dqPut | gqTake | mwait
  | commit | squash | ldBase | stBase | present | tex | texF | texG | texQ | trace | binPut | binPutEnd | pxlock | pxunlock
  | csrr | csrw | spillbWrite | spilllWrite | fairtWrite | mestatHaltResume | mestatDiscard | trap | bkpt | eret | icinv
  | tlbinv | hdot2 => exact issue_next ..
  | yield =>
    simp only [exec, execYield]
    exact issue_next ..
  | fwLaunch | fwPrismLaunch | fwSuspend | fwResume | fwKill | fwReplay | fwFreeFrames | fwSetQuota | fwSetPresent | fwHomeMove
  | fwSetL2Mode | fwSetPower | fwAttest | fwWriteSlot | fwConfirm | fwRollBack | fwReadCounters | fwFreeze =>
    simp only [exec, execFwLaunch, execFwPrismLaunch, execFwSuspend, execFwResume, execFwKill, execFwReplay,
      execFwFreeFrames, execFwSetQuota,
      execFwSetPresent, execFwHomeMove, execFwSetL2Mode, execFwSetPower, execFwAttest, execFwWriteSlot, execFwConfirm,
      execFwRollBack, execFwReadCounters, execFwFreeze]
    exact State.command_next ..
  | fwInvalidCode =>
    simp only [exec, execFwInvalidCode]
    split
    · exact ⟨_, rfl⟩
    · exact State.command_next ..
  | fairnessExpiry | reservedOpcode | freezePin | deviceReset | lifetimeCounterFlush => exact ⟨_, rfl⟩
  | sweepChunk die engine => exact execSweepChunk_next die engine s
  | tfetchRowFetch cluster handle row => exact execTfetchRowFetch_next cluster handle row s
  | llResultReturn | storePerform | homeAtomicPerform | serviceWaveRequest | cwatchArrival | queueAccessComplete
  | feedElementWrite | copyTransfer | haloStart | coreGate | coreWake | pageWalk | gatherFiring | reservationVoid
  | gatherFaultRetry | deliveredWavePlace | wdqServe | sweepStart | chunkStepComplete | collExecute | engineMmaExecute
  | engineDrainExecute | engineAzeroExecute | commitPublish | setOpen | prefixEnd | retireWalk | presentFlip | presentGuard
  | presentReadoutDone | flushComplete | homeMove | homeForward | dependenceMet | workgroupPlace | placementStarvationHold
  | preemptDecision | workgroupSave | workgroupRestore | migrationForward | regionEnd | timeQuotaCharge | segmentTest
  | powerCapStep | hostRequest | peerRequest | atsTranslationResponse | atsInvalidateRequest | linkRetrain | linkDown
  | powerLoss =>
    simp only [exec, execLlResultReturn, execStorePerform, execHomeAtomicPerform, execServiceWaveRequest, execCwatchArrival,
      execQueueAccessComplete, execFeedElementWrite, execCopyTransfer, execHaloStart, execCoreGate, execCoreWake, execPageWalk,
      execGatherFiring, execReservationVoid, execGatherFaultRetry, execDeliveredWavePlace, execWdqServe, execSweepStart,
      execChunkStepComplete, execCollExecute, execEngineMmaExecute, execEngineDrainExecute, execEngineAzeroExecute,
      execCommitPublish, execSetOpen, execPrefixEnd, execRetireWalk, execPresentFlip, execPresentGuard, execPresentReadoutDone,
      execFlushComplete, execHomeMove, execHomeForward, execDependenceMet, execWorkgroupPlace, execPlacementStarvationHold,
      execPreemptDecision, execWorkgroupSave, execWorkgroupRestore, execMigrationForward, execRegionEnd, execTimeQuotaCharge,
      execSegmentTest, execPowerCapStep, execHostRequest, execPeerRequest, execAtsTranslationResponse,
      execAtsInvalidateRequest, execLinkRetrain, execLinkDown, execPowerLoss]
    repeat' split
    all_goals exact ⟨_, rfl⟩

theorem carryOut_next (s : State) (w : Nat) (y : Fetched) : ∃ t, carryOut s w y = .next t := by
  cases y with
  | instr s1 i => exact exec_next i s1
  | bad s1 sub => exact exec_next (.reservedOpcode sub) s1
  | filler | fault | quota | wait | idle => exact ⟨_, rfl⟩

theorem issueNext_next (s : State) : ∃ t, issueNext s = .next t := carryOut_next ..

theorem step_next (s : State) : StepsOn s := by
  unfold StepsOn step
  split
  · split
    · exact exec_next ..
    · exact ⟨_, rfl⟩
    · exact ⟨_, rfl⟩
  · dsimp only
    split
    · split
      · exact exec_next ..
      · exact ⟨_, rfl⟩
    · exact issueNext_next _
    · exact issueNext_next _

/-- Settles O5: `exec` by its arms, a step by what it executes. -/
theorem everyStepGoesOn : Obligations.EveryStepGoesOn := ⟨exec_next, step_next⟩

end Sys2Proof.Machine
end
section
/-! PROOFS. Traps and returns from handlers (R166, R169): what each lane does, and how a fault is raised (O55). -/

namespace Sys2Proof.Machine

open Sys2Proof

/-- A fault raised once what the thread has issued is released is taken. -/
theorem State.raise_released {s s1 : State} {w l : Nat} (h : s.releaseAt w l .dev = some s1) (pc : DWord) (f : Flt) :
    s.raise w l pc f = s1.takeFault w l pc f := by
  unfold State.raise State.raise?
  rw [h]
  rfl

/-- A lane that pops nothing takes its fault as it is, and leaves an s or k destination to the lanes after it. -/
theorem State.laneOut_fault_no_pops {c : Ctx} {l : Nat} {r r1 : State} (led : Bool) (f : Flt) (hp : c.pops = [])
    (h : (r.holdActs.updThread c.w l fun t => t.undo c.pc c.id).releaseAt c.w l .dev = some r1) :
    State.laneOut c l led (.fault r f) = (r1.takeFault c.w l c.pc f, led) := by
  have hstate : (State.laneOut c l led (.fault r f)).1 = r1.takeFault c.w l c.pc f := by
    rw [State.laneOut_fault_released h, Ctx.detail_none (by simp [Ctx.elemOf, hp])]
  exact Prod.ext hstate rfl

/-- Settles O55: the lanes by their definitions, the faults by the release that comes before them. -/
theorem trapsAndReturns : Obligations.TrapsAndReturns := by
  unfold Obligations.TrapsAndReturns
  intro f s s1 c
  exact ⟨perLane_lanes, perLane_lanes, perLane_lanes, fun _ _ _ led fl hp h => State.laneOut_fault_no_pops led fl hp h,
    fun _ _ _ _ pc fl h => State.raise_released h pc fl⟩

end Sys2Proof.Machine
end
section
/-! PROOFS. The lanes of loads and stores (R150 to R155, R160, R161, R197, R331): the address, the checks, and the access that waits
(O30, O31). -/

namespace Sys2Proof.Machine

open Sys2Proof

/-! ### Addresses, alignment, scopes and tags -/

/-- `ldr` and `stc` add an offset to their base alone (R160). -/
theorem Ctx.resvAddr_eq (c : Ctx) (l : Nat) : c.resvAddr l = lowBits (c.a l 2 + c.offX) 64 := by
  simp [Ctx.resvAddr, addrSum]

theorem misaligned_of_dvd {va n : Nat} (h : va % n = 0) : misaligned va n = none := if_pos h

theorem misaligned_of_not_dvd {va n : Nat} (h : va % n ≠ 0) : misaligned va n = some { code := 2, sub := 1, addr := some va } :=
  if_neg h

/-- A plain access needs the alignment of a word at most, any other its own (R154). -/
theorem MemMod.align_false (m : MemMod) :
    MemMod.align m false = if m.ord = .plain then min 4 m.wid.size else m.wid.size := by
  unfold MemMod.align
  by_cases h : m.ord = .plain <;> simp [h]

theorem MemMod.scope_eq (m : MemMod) : m.scope = if m.ord = .plain then .thr else m.ctl.scope := by
  unfold MemMod.scope
  by_cases h : m.ord = .plain <;> simp [h]

/-- A lane's access as it waits to be performed, with the ordering and the scope of its instruction (R155). -/
def Ctx.waiting (c : Ctx) (m : MemMod) (k : AccKind) (sp : Space) (ps : List Part) (tag : Option (BitVec 5)) (d : Option Dst) :
    Acc :=
  ⟨c.id, k, sp, ps, m.ord, m.scope, tag, d, c.e.f.la.toNat, none, c.pc, none, [], [], none, none, 0⟩

section

variable {r r1 : State} {c : Ctx} {l : Nat} {m : MemMod} {parts : List Part}

/-! ### Loads -/

theorem State.loadLane_reached {t : Tagging} (ha : c.globAddr l m % MemMod.align m false = 0)
    (hr : r.reach (c.x.agent c.w) .rd clsAny t (c.globAddr l m) m.wid.size = .ok r1 parts) :
    r.loadLane c l m t = .pend r1 (c.waiting m (.load m.wid false) .glob parts (r1.accTag c.x.rgn t)
      (some ⟨c.e.f.d, m.wid.words, true⟩)) := by
  unfold State.loadLane
  simp only [misaligned_of_dvd ha]
  exact State.issueGlob_ok _ _ _ hr

theorem State.loadLane_misaligned {t : Tagging} (ha : c.globAddr l m % MemMod.align m false ≠ 0) :
    r.loadLane c l m t = .fault r { code := 2, sub := 1, addr := some (c.globAddr l m) } := by
  unfold State.loadLane
  simp only [misaligned_of_not_dvd ha]

theorem State.ldrLane_reached (ha : c.resvAddr l % m.wid.size = 0)
    (hr : r.reach (c.x.agent c.w) .rd clsResv .tagged (c.resvAddr l) m.wid.size = .ok r1 parts) :
    r.ldrLane c l m = .pend r1 (c.waiting m (.load m.wid true) .glob parts (r1.liveTag c.x.rgn)
      (some ⟨c.e.f.d, m.wid.words, true⟩)) := by
  have ha' : misaligned (c.resvAddr l) (MemMod.align m true) = none := misaligned_of_dvd ha
  unfold State.ldrLane
  simp only [ha']
  exact State.issueGlob_ok _ _ _ hr

theorem State.ldrLane_misaligned (ha : c.resvAddr l % m.wid.size ≠ 0) :
    r.ldrLane c l m = .fault r { code := 2, sub := 1, addr := some (c.resvAddr l) } := by
  have ha' : misaligned (c.resvAddr l) (MemMod.align m true) = _ := misaligned_of_not_dvd ha
  unfold State.ldrLane
  simp only [ha']

/-- A window access lies in the window whole, or faults (R197). -/
theorem State.loadWinLane_aligned (tob : Bool) (ha : c.winAddr l m % MemMod.align m false = 0) :
    r.loadWinLane c l m tob =
      if c.winAddr l m + m.wid.size ≤ (if tob then r.tobSize c.x.wg else r.scrSize c.x.wg) then
        .pend r (c.waiting m (.load m.wid false) (if tob then .tob c.x.wg else .scr c.x.wg)
          [⟨c.winAddr l m, c.winAddr l m, m.wid.size, .h⟩] none (some ⟨c.e.f.d, m.wid.words, true⟩))
      else .fault r { code := 7, sub := if tob then 1 else 0, addr := some (c.winAddr l m) } := by
  unfold State.loadWinLane
  simp only [misaligned_of_dvd ha, State.issueWin, ← not_le, ite_not]
  rfl

theorem State.loadConstLane_reached {y : Region} (hy : r.region? c.x.rgn = some y) (ho : m.ord = .plain)
    (ha : c.winAddr l m % MemMod.align m false = 0) (hn : c.winAddr l m + m.wid.size ≤ y.rcb.constsz)
    (hr : r.reach (c.x.agent c.w) .rd clsAny .base ((y.rcb.constb.toNat + c.winAddr l m) % 2 ^ 64) m.wid.size = .ok r1 parts) :
    r.loadConstLane c l m = .pend r1 (c.waiting m (.constant m.wid) .glob parts none (some ⟨c.e.f.d, m.wid.words, true⟩)) := by
  unfold State.loadConstLane
  simp only [misaligned_of_dvd ha, hy, if_neg (Nat.not_lt.mpr hn)]
  rw [State.issueGlob_ok _ _ _ hr]
  simp only [Ctx.waiting, Ctx.acc, MemMod.scope_eq, ho, if_true]
  rfl

theorem State.loadConstLane_beyond {y : Region} (hy : r.region? c.x.rgn = some y)
    (ha : c.winAddr l m % MemMod.align m false = 0) (hn : y.rcb.constsz < c.winAddr l m + m.wid.size) :
    r.loadConstLane c l m = .fault r { code := 5, sub := 4, addr := some (c.winAddr l m) } := by
  unfold State.loadConstLane
  simp only [misaligned_of_dvd ha, hy, if_pos hn]

/-! ### Stores -/

theorem State.storeLane_reached {t : Tagging} (ha : c.globAddr l m % MemMod.align m false = 0)
    (hr : r.reach (c.x.agent c.w) .wr clsStore t (c.globAddr l m) m.wid.size = .ok r1 parts) :
    r.storeLane c l m t = .pend r1 (c.waiting m (.store (toLe m.wid.size (c.d l m.wid.words))) .glob parts
      (r1.accTag c.x.rgn t) none) := by
  unfold State.storeLane
  simp only [misaligned_of_dvd ha]
  exact State.issueGlob_ok _ _ _ hr

theorem State.storeLane_misaligned {t : Tagging} (ha : c.globAddr l m % MemMod.align m false ≠ 0) :
    r.storeLane c l m t = .fault r { code := 2, sub := 1, addr := some (c.globAddr l m), wr := true } := by
  unfold State.storeLane
  simp only [misaligned_of_not_dvd ha]

theorem State.storeWinLane_aligned (tob : Bool) (ha : c.winAddr l m % MemMod.align m false = 0) :
    r.storeWinLane c l m tob =
      if c.winAddr l m + m.wid.size ≤ (if tob then r.tobSize c.x.wg else r.scrSize c.x.wg) then
        .pend r (c.waiting m (.store (toLe m.wid.size (c.d l m.wid.words))) (if tob then .tob c.x.wg else .scr c.x.wg)
          [⟨c.winAddr l m, c.winAddr l m, m.wid.size, .h⟩] none none)
      else .fault r { code := 7, sub := if tob then 1 else 0, addr := some (c.winAddr l m), wr := true } := by
  unfold State.storeWinLane
  simp only [misaligned_of_dvd ha, State.issueWin, ← not_le, ite_not]
  rfl

theorem State.stcLane_reached (ha : c.resvAddr l % m.wid.size = 0)
    (hr : r.reach (c.x.agent c.w) .wr clsResv .tagged (c.resvAddr l) m.wid.size = .ok r1 parts) :
    r.stcLane c l m = .pend r1 (c.waiting m (.stc (toLe m.wid.size (c.b l m.wid.words))) .glob parts (r1.liveTag c.x.rgn)
      (some ⟨c.e.f.d, 1, true⟩)) := by
  have ha' : misaligned (c.resvAddr l) (MemMod.align m true) = none := misaligned_of_dvd ha
  unfold State.stcLane
  simp only [ha']
  exact State.issueGlob_ok _ _ _ hr

end

/-! ### Loads settled -/

/-- Settles O30: the lanes by the lemmas about each, with the frame that the instruction's description holds. -/
theorem loadsIssue : Obligations.LoadsIssue := by
  unfold Obligations.LoadsIssue
  intro f m s s1 c index off glob win resv scope ok acc
  have hscope : m.scope = scope := MemMod.scope_eq m
  have hok (va : Nat) : ok va ↔ va % MemMod.align m false = 0 := by rw [MemMod.align_false]
  have hacc (hf : c.e.f = f) (k : AccKind) (sp : Space) (ps : List Part) (tag : Option (BitVec 5)) :
      c.waiting m k sp ps tag (some ⟨c.e.f.d, m.wid.words, true⟩) = acc k sp ps tag := by
    rw [hf, Ctx.waiting, hf, hscope]
  have hglob (hf : c.e.f = f) (l : Nat) : c.globAddr l m = glob l := by subst hf; rfl
  have hwin (hf : c.e.f = f) (l : Nat) : c.winAddr l m = win l := by subst hf; rfl
  have hresv (hf : c.e.f = f) (l : Nat) : c.resvAddr l = resv l := by subst hf; exact c.resvAddr_eq l
  refine ⟨fun h => ⟨perLane_lanes h, ?_⟩, fun h => ⟨perLane_lanes h, ?_⟩, fun h => ⟨perLane_lanes h, ?_⟩,
    fun tob h => ⟨perLane_lanes h, ?_⟩, fun h => ⟨perLane_lanes h, ?_⟩⟩
  all_goals have hf : c.e.f = f := frame_of_begins h (by rintro _ _ ⟨⟩; rfl)
  · intro r r1 l parts
    rw [hok, ← hglob hf, ← hacc hf]
    exact ⟨State.loadLane_reached, State.loadLane_misaligned⟩
  · intro r r1 l parts
    rw [hok, ← hglob hf, ← hacc hf]
    exact State.loadLane_reached
  · intro r r1 l parts
    rw [← hresv hf, ← hacc hf]
    exact ⟨State.ldrLane_reached, State.ldrLane_misaligned⟩
  · intro r l ha
    rw [hok, ← hwin hf] at ha
    rw [← hwin hf, ← hacc hf]
    exact State.loadWinLane_aligned tob ha
  · intro r r1 l parts y hy ho ha
    rw [hok, ← hwin hf] at ha
    rw [← hwin hf, ← hacc hf]
    exact ⟨State.loadConstLane_reached hy ho ha, State.loadConstLane_beyond hy ha⟩

/-! ### Prefetches (R158) -/

/-- Nothing of local memory lies behind a link (R423). -/
theorem State.cutOff_of_local {s : State} {key : Nat} (h : locOf key = 0) : s.cutOff key = false := by
  simp [State.cutOff, linkOf, h]

section

variable {r : State} {c : Ctx} {l g : Nat} {m : MemMod} (hg : coreOfWave c.w = some g)
include hg

/-- A prefetch of a local page that the core's TLB holds, and that the thread may read, takes the line of 256 bytes into the home's
slice or into the core's cache. -/
theorem State.pfLane_hit {leaf : Leaf} (hl : tlbFind (r.core g).tlb (r.asrOf c.x.rgn) (c.globAddr l m) = some leaf)
    (hc : r.checkLeaf (c.x.agent c.w) leaf (c.globAddr l m) .rd clsAny = none)
    (hloc : locOf (leaf.key + (c.globAddr l m - leaf.va)) = 0) :
    r.pfLane c l m =
      let line := (leaf.key + (c.globAddr l m - leaf.va)) / 256
      if leaf.cls = .h then r.atHome (256 * line) 256
      else if (r.core g).caches then [0, 1, 2, 3].foldl (fun s i => s.fill g (4 * line + i) leaf.cls) r else r := by
  have hkey : r.hostKey (r.fnOf c.x.rgn) (leaf.key + (c.globAddr l m - leaf.va)) = leaf.key + (c.globAddr l m - leaf.va) :=
    State.hostKey_of_local (by omega)
  unfold State.pfLane
  simp only [hg, hl, hc, hkey, State.cutOff_of_local hloc, Option.isSome_none, Bool.or_self, Bool.false_eq_true, if_false,
    Nat.mul_comm _ 256]

/-- One of a page that no TLB it asks holds asks for a walk, and that is all (assumption 18). -/
theorem State.pfLane_miss (hown : tlbFind (r.core g).tlb (r.asrOf c.x.rgn) (c.globAddr l m) = none)
    (hcls : tlbFind (r.cluster (clusterOfWave c.w)).tlb (r.asrOf c.x.rgn) (c.globAddr l m) = none) :
    r.pfLane c l m = r.askWalk c.x.rgn (clusterOfWave c.w) (c.globAddr l m) := by
  unfold State.pfLane
  simp only [hg, hown, hcls]

end

/-! ### Stores and prefetches settled -/

/-- Settles O31: the lanes by the lemmas about each, with the frame that the instruction's description holds. -/
theorem storesIssue : Obligations.StoresIssue := by
  unfold Obligations.StoresIssue
  intro f m s s1 c index off glob win resv scope ok data acc mode
  have hscope : m.scope = scope := MemMod.scope_eq m
  have hok (va : Nat) : ok va ↔ va % MemMod.align m false = 0 := by rw [MemMod.align_false]
  have hacc (hf : c.e.f = f) (k : AccKind) (sp : Space) (ps : List Part) (tag : Option (BitVec 5)) (d : Option Dst) :
      c.waiting m k sp ps tag d = acc k sp ps tag d := by
    rw [Ctx.waiting, hf, hscope]
  have hglob (hf : c.e.f = f) (l : Nat) : c.globAddr l m = glob l := by subst hf; rfl
  have hwin (hf : c.e.f = f) (l : Nat) : c.winAddr l m = win l := by subst hf; rfl
  have hresv (hf : c.e.f = f) (l : Nat) : c.resvAddr l = resv l := by subst hf; exact c.resvAddr_eq l
  have htag (r : State) (t : Tagging) (ht : t ≠ .spill) :
      r.accTag c.x.rgn t = if t = .base then none else r.liveTag c.x.rgn := by
    cases t with
    | tagged | base => rfl
    | spill => exact absurd rfl ht
  refine ⟨fun h => ⟨perLane_lanes h, ?_⟩, fun h => ⟨perLane_lanes h, ?_⟩, fun tob h => ⟨perLane_lanes h, ?_⟩,
    fun h => ⟨perLane_lanes h, ?_⟩, fun h => ⟨perLane_lanes h, ?_⟩⟩
  all_goals have hf : c.e.f = f := frame_of_begins h (by rintro _ _ ⟨⟩; rfl)
  · intro r r1 l parts
    rw [hok, ← hglob hf, ← hacc hf]
    exact ⟨State.storeLane_reached, State.storeLane_misaligned⟩
  · intro r r1 l parts
    rw [hok, ← hglob hf, ← hacc hf, ← htag r1 (mode r) (by unfold mode; split <;> simp)]
    exact State.storeLane_reached
  · intro r l ha
    rw [hok, ← hwin hf] at ha
    simp only [← hwin hf, ← hacc hf]
    exact State.storeWinLane_aligned tob ha
  · intro r r1 l parts
    rw [← hresv hf, ← hacc hf, ← hf]
    exact State.stcLane_reached
  · intro r l g hg
    rw [← hglob hf]
    refine ⟨fun leaf hl hc hloc => ?_, State.pfLane_miss hg⟩
    rw [State.pfLane_hit hg hl hc hloc]
    exact ⟨fun h => if_pos h, fun h hcaches => (if_neg h).trans (if_pos hcaches)⟩

end Sys2Proof.Machine
end
section
/-! PROOFS. What memory leaves alone in units and caches, and which reservations a write at the home, or a core that gives up a copy,
clears (R162, R273 to R278). -/

namespace Sys2Proof.Machine

open Sys2Proof

/-! ### Waves, cores and clusters -/

/-- The waves, the cores and the clusters: what the home and L2 have no part in. -/
def State.units (s : State) : NMap Wave × NMap Core × NMap Cluster := (s.waves, s.cores, s.clusters)

section

variable {s t : State} (h : t.units = s.units)
include h

theorem State.waves_of_units : t.waves = s.waves := congrArg (·.1) h
theorem State.cores_of_units : t.cores = s.cores := congrArg (·.2.1) h
theorem State.clusters_of_units : t.clusters = s.clusters := congrArg (·.2.2) h

end

@[simp] theorem State.touch_units (s : State) (i : Nat) (wr : Bool) : (s.touch i wr).units = s.units := by
  rw [s.touch_sameButL2 i wr]
  rfl

@[simp] theorem State.promote_units (s : State) (key : Nat) : (s.promote key).units = s.units := by
  unfold State.promote
  split
  · split
    · exact foldl_same State.units _ (fun s v => by rw [State.touch_units]; rfl) _ s
    · rfl
  · rfl

@[simp] theorem State.atHome_units (s : State) (key n : Nat) : (s.atHome key n).units = s.units :=
  foldl_same State.units _ (fun s i => by rw [State.touch_units, State.promote_units]) _ s

@[simp] theorem State.noteConst_units (s : State) (key n : Nat) (b : Option (Nat × Nat)) :
    (s.noteConst key n b).units = s.units := by
  unfold State.noteConst
  extract_lets live old
  split <;> rfl

theorem State.clearResvs_cores (s : State) (pt : ResvAt) (key n : Nat) (b : Option (Nat × Nat)) :
    (s.clearResvs pt key n b).cores = s.cores :=
  foldl_same State.cores (fun (s : State) g => s.clearResv pt g b) (fun _ _ => rfl) _ s

theorem State.clearResvs_clusters (s : State) (pt : ResvAt) (key n : Nat) (b : Option (Nat × Nat)) :
    (s.clearResvs pt key n b).clusters = s.clusters :=
  foldl_same State.clusters (fun (s : State) g => s.clearResv pt g b) (fun _ _ => rfl) _ s

/-! ### A write at the home within one sector -/

/-- Bytes of base written within a sector clear the reservations on their grains, and nothing else of the units. -/
theorem State.homeWrite1_untagged {s : State} {tag : Option (BitVec 5)} {key : Nat} (h : s.versionTag tag key = none)
    (b : Option (Nat × Nat)) (bs : List Byte) :
    ∃ t : State, t.units = s.units ∧ s.homeWrite1 tag b key bs = some (t.clearResvs .home key bs.length b) := by
  unfold State.homeWrite1
  rw [h]
  refine ⟨_, ?_, rfl⟩
  exact ((State.touch_units ..).trans (State.promote_units ..)).trans (State.noteConst_units ..)

/-- A range within a sector is one piece. -/
theorem sectorPieces_one {key n : Nat} (hn : 0 < n) (h : key % 64 + n ≤ 64) : sectorPieces key n = [(key, n)] := by
  have hcount : (key + n + 63) / 64 - key / 64 = 1 := by omega
  unfold sectorPieces sectorsOf
  rw [hcount]
  simp only [List.range_one, List.map_cons, List.map_nil, List.cons.injEq, Prod.mk.injEq, and_true]
  omega

theorem State.homeWrite_untagged {s : State} {tag : Option (BitVec 5)} {key : Nat} {bs : List Byte}
    (h : s.versionTag tag key = none) (hn : 0 < bs.length) (hk : key % 64 + bs.length ≤ 64) (b : Option (Nat × Nat)) :
    ∃ t : State, t.units = s.units ∧ s.homeWrite tag b key bs = .ok (t.clearResvs .home key bs.length b) := by
  obtain ⟨t, ht, hw⟩ := State.homeWrite1_untagged h b bs
  refine ⟨t, ht, ?_⟩
  rw [State.homeWrite_eq_foldl, sectorPieces_one hn hk, List.foldl_cons, List.foldl_nil]
  simp only [State.homeWriteStep, Nat.sub_self, List.drop_zero, List.take_length, hw]

theorem sectorBytes_length (d : BitVec 512) : (sectorBytes d).length = 64 := by simp [sectorBytes]

/-- A sector of base written whole. -/
theorem State.baseWrite_sector (s : State) (i : Nat) (d : BitVec 512) :
    ∃ t : State, t.units = s.units ∧ s.baseWrite (64 * i) (sectorBytes d) = t.clearResvs .home (64 * i) 64 none := by
  have htag : s.versionTag none (64 * i) = none := by unfold State.versionTag; split <;> simp_all
  have hl := sectorBytes_length d
  obtain ⟨t, ht, hw⟩ := State.homeWrite_untagged htag (b := none) (bs := sectorBytes d) (by omega) (by omega)
  refine ⟨t, ht, ?_⟩
  unfold State.baseWrite
  rw [hw, hl]

/-- A write-back changes the copy in the core, and clears the reservations at the home on the sector's grains. -/
theorem State.writeBack_cases (s : State) (g i : Nat) :
    s.writeBack g i = s ∨ ∃ (m : NMap Copy) (t : State), t.units = (s.setCore g { s.core g with copies := m }).units ∧
      (s.writeBack g i).units = (t.clearResvs .home (64 * i) 64 none).units := by
  unfold State.writeBack
  dsimp only
  split
  · rename_i x hx
    split
    · obtain ⟨t, ht, hw⟩ := State.baseWrite_sector
        (s.setCore g { s.core g with copies := (s.core g).copies.ins i { x with dirty := false, svc := false } }) i x.data
      refine .inr ⟨_, t, ht, ?_⟩
      rw [hw]
      rfl
    · exact .inl rfl
  · exact .inl rfl

end Sys2Proof.Machine
end
section
/-! PROOFS. Reservations (R160 to R162): what a write at the home or in a core's copy does to those of every thread, and the settling of
`Reservations`. -/

namespace Sys2Proof.Machine

open Sys2Proof

theorem NMap.not_mem_keys_of_find {β : Type} {m : NMap β} {n : Nat} (h : m.find n = none) : n ∉ m.map Prod.fst := by
  induction m with
  | nil => exact List.not_mem_nil
  | cons e m ih =>
    rw [NMap.find_cons] at h
    split at h
    · cases h
    · rw [List.map_cons, List.mem_cons]
      exact not_or.2 ⟨‹_›, ih h⟩

/-! ### The reservation of one thread -/

theorem State.thread?_congr {s t : State} (h : t.waves = s.waves) (v n : Nat) : t.thread? v n = s.thread? v n := by
  unfold State.thread?
  rw [h]

/-- A write clears a thread's reservation on its grain, at its point (R162). -/
theorem Thread.dropResv_resv (t : Thread) (pt : ResvAt) (grain : Nat) :
    (t.dropResv pt grain).resv = if t.resv = some ⟨pt, grain⟩ then none else t.resv := by
  unfold Thread.dropResv
  cases hr : t.resv with
  | none => simp [hr]
  | some r =>
    obtain ⟨rp, rg⟩ := r
    by_cases h : rp = pt ∧ rg = grain <;> simp [h, hr]

theorem State.thread?_clearResv (s : State) (pt : ResvAt) (grain : Nat) (b : Option (Nat × Nat)) (v n : Nat) :
    (s.clearResv pt grain b).thread? v n =
      (s.thread? v n).map fun t => if b = some (v, n) then t else t.dropResv pt grain := by
  have hmap : (s.clearResv pt grain b).waves = s.waves.map fun e => (e.1, { e.2 with
      threads := e.2.threads.mapIdx fun l t => if b = some (e.1, l) then t else t.dropResv pt grain }) := rfl
  unfold State.thread?
  rw [hmap]
  generalize s.waves = m
  induction m with
  | nil => rfl
  | cons e m ih =>
    rw [List.map_cons, NMap.find_cons, NMap.find_cons]
    split
    · rename_i hv
      subst hv
      simp
    · exact ih

/-- The grains of a range within one. -/
theorem grainsOf_one {key n : Nat} (hn : 0 < n) (h : key % 32 + n ≤ 32) : grainsOf key n = [key / 32] := by
  have hcount : (key + n + 31) / 32 - key / 32 = 1 := by omega
  unfold grainsOf
  rw [hcount]
  rfl

theorem grainsOf_sector (i : Nat) : grainsOf (64 * i) 64 = [2 * i, 2 * i + 1] := by
  have hcount : (64 * i + 64 + 31) / 32 - 64 * i / 32 = 2 := by omega
  have hfirst : 64 * i / 32 = 2 * i := by omega
  unfold grainsOf
  rw [hcount, hfirst]
  rfl

/-- A write by a thread within one grain clears the reservations that others hold there on it. -/
theorem State.clearResvs_one (s : State) (pt : ResvAt) {key n : Nat} (hn : 0 < n) (h : key % 32 + n ≤ 32)
    (b : Option (Nat × Nat)) : s.clearResvs pt key n b = s.clearResv pt (key / 32) b := by
  unfold State.clearResvs
  rw [grainsOf_one hn h]
  rfl

/-- What a write by the thread (w, lane) leaves of the reservations: those that another thread holds on the grain at the point are
cleared, every other thread's and its own are as they were. -/
structure State.Swept (s t : State) (w lane : Nat) (here : Resv) : Prop where
  own : t.thread? w lane = s.thread? w lane
  other : ∀ v n u, (v, n) ≠ (w, lane) → s.thread? v n = some u →
    (t.thread? v n).map (·.resv) = some (if u.resv = some here then none else u.resv)

theorem State.Swept.clearResv {s r : State} (hr : r.waves = s.waves) (w lane : Nat) (pt : ResvAt) (grain : Nat) :
    s.Swept (r.clearResv pt grain (some (w, lane))) w lane ⟨pt, grain⟩ := by
  constructor
  · rw [State.thread?_clearResv, State.thread?_congr hr]
    simp
  · intro v n u hne hu
    have hby : ¬ (some (w, lane) = some (v, n)) := fun h => hne (Option.some.inj h).symm
    rw [State.thread?_clearResv, State.thread?_congr hr, hu, Option.map_some, if_neg hby, Option.map_some, u.dropResv_resv]

/-! ### Accesses at the home -/

section

variable {s t : State} {a : Acc} {p : Part} (h : HomeAccess s a p)
include h

/-- The write of a part within one grain. -/
theorem HomeAccess.writeParts_swept (hg : p.key % 32 + p.size ≤ 32) {w lane : Nat} {bs : List Byte} (hl : bs.length = p.size)
    (ht : s.writeParts w lane a a.parts bs = .ok t) : s.Swept t w lane ⟨.home, p.key / 32⟩ := by
  have hpos := h.size
  have hbase := h.base p.key (Nat.le_refl _) (Nat.lt_add_of_pos_right hpos)
  obtain ⟨r, hr, hw⟩ := State.homeWrite_untagged (State.versionTag_none hbase a.tag) (bs := bs) (by omega) (by omega)
    (some (w, lane))
  rw [h.parts] at ht
  simp only [State.writeParts, h.cutPart, h.pointOf, State.writeAt, ← hl, List.take_length, hw, Bool.false_eq_true,
    if_false, Except.ok.injEq] at ht
  rw [← ht, State.clearResvs_one r .home (by omega) (by omega)]
  exact .clearResv (State.waves_of_units hr) w lane ..

theorem HomeAccess.perform_store_of (w lane : Nat) {bs : List Byte} (hk : a.kind = .store bs)
    (ht : s.writeParts w lane a a.parts bs = .ok t) : s.perform w lane a = some ⟨t, none, none, none⟩ := by
  unfold State.perform
  simp only [h.notHeld, h.releases, h.acquires, hk, ht, Bool.false_eq_true, if_false]

/-- A load-reserve answers the bytes of its part, and holds its grain for the thread. -/
theorem HomeAccess.perform_ldr (w lane : Nat) {wid : Wid} (hk : a.kind = .load wid true) (hg : a.got = [])
    (he : a.early = none) :
    ∃ r, s.sameButL2 r ∧ s.perform w lane a =
      some ⟨r.updThread w lane fun t => { t with resv := some ⟨.home, p.key / 32⟩ },
        some (loadWords wid (s.num p.key p.size)), none, none⟩ := by
  obtain ⟨r, hr, hsame⟩ := h.readParts w
  refine ⟨r, hsame, ?_⟩
  have hpt : r.pointOf w a p.cls = .home := h.pointOf r w
  unfold State.perform
  simp only [h.notHeld, h.releases, h.acquires, h.notCut, hk, he, hg, hr, List.nil_append, Bool.false_eq_true, if_false, if_true]
  simp only [h.parts, hpt]
  rfl

/-- The thread holds the grain of the part at the home. -/
theorem HomeAccess.holds_iff (w : Nat) (u : Thread) :
    u.holds (s.pointOf w a p.cls) p.key = true ↔ u.resv = some ⟨.home, p.key / 32⟩ := by
  rw [h.pointOf, Thread.holds]
  cases hr : u.resv with
  | none => simp
  | some r =>
    obtain ⟨pt, grain⟩ := r
    cases pt <;> simp

variable {w lane : Nat} {u : Thread} {bs : List Byte} (hk : a.kind = .stc bs) (hu : s.thread? w lane = some u)
include hk hu

/-- A store-conditional whose thread holds the reservation writes, answers 0 and gives the reservation up (R161). -/
theorem HomeAccess.perform_stc_held (hr : u.resv = some ⟨.home, p.key / 32⟩)
    (ht : s.writeParts w lane a a.parts bs = .ok t) :
    s.perform w lane a = some ⟨t.updThread w lane fun t => { t with resv := none }, some [0], none, none⟩ := by
  have hholds := (h.holds_iff w u).2 hr
  unfold State.perform
  simp only [h.notHeld, h.releases, h.acquires, h.notCut, hk, hu, ht, Bool.false_eq_true, if_false]
  simp only [h.parts, hholds, if_true]

/-- Any other stores nothing, answers 1 and gives up what reservation its thread has. -/
theorem HomeAccess.perform_stc_lost (hr : u.resv ≠ some ⟨.home, p.key / 32⟩) :
    s.perform w lane a = some ⟨s.updThread w lane fun t => { t with resv := none }, some [1], none, none⟩ := by
  have hholds : u.holds (s.pointOf w a p.cls) p.key = false := by
    rw [← Bool.not_eq_true, h.holds_iff w u]
    exact hr
  unfold State.perform
  simp only [h.notHeld, h.releases, h.acquires, h.notCut, hk, hu, Bool.false_eq_true, if_false]
  simp only [h.parts, hholds, Bool.false_eq_true, if_false]

end

/-! ### Stores in a core's copy -/

/-- A thread of the state holds a reservation. -/
def State.HoldsResv (v n : Nat) (r : Resv) (s : State) : Prop := (s.thread? v n).map (·.resv) = some (some r)

namespace State.HoldsResv

variable {v n : Nat} {r : Resv} {s t : State}

theorem of_waves (h : s.HoldsResv v n r) (ht : t.waves = s.waves) : t.HoldsResv v n r := by
  unfold State.HoldsResv
  rw [State.thread?_congr ht]
  exact h

theorem of_units (h : s.HoldsResv v n r) (ht : t.units = s.units) : t.HoldsResv v n r := h.of_waves (State.waves_of_units ht)

theorem clearResv (h : s.HoldsResv v n r) {pt : ResvAt} {grain : Nat} (hne : r.pt = pt → r.grain ≠ grain)
    (b : Option (Nat × Nat)) : (s.clearResv pt grain b).HoldsResv v n r := by
  obtain ⟨u, hu, hr⟩ := Option.map_eq_some_iff.1 h
  have hother : u.resv ≠ some ⟨pt, grain⟩ := by
    rw [hr]
    rintro ⟨⟩
    exact hne rfl rfl
  unfold State.HoldsResv
  rw [State.thread?_clearResv, hu, Option.map_some, Option.map_some]
  split
  · rw [hr]
  · rw [u.dropResv_resv, if_neg hother, hr]

/-- The write-back of another sector. -/
theorem writeBack (h : s.HoldsResv v n r) {i : Nat} (hi : r.grain / 2 ≠ i) (g : Nat) : (s.writeBack g i).HoldsResv v n r := by
  rcases s.writeBack_cases g i with heq | ⟨m, u, hu, hw⟩
  · rw [heq]
    exact h
  · refine of_units ?_ hw
    unfold State.clearResvs
    rw [grainsOf_sector]
    have h1 : u.HoldsResv v n r := h.of_waves ((State.waves_of_units hu).trans rfl)
    exact (h1.clearResv (fun _ => by omega) none).clearResv (fun _ => by omega) none

/-- The eviction of another sector. -/
theorem evict (h : s.HoldsResv v n r) {i : Nat} (hi : r.grain / 2 ≠ i) (g : Nat) : (s.evict g i).HoldsResv v n r := by
  have h1 := h.writeBack hi g
  have h2 : ((s.writeBack g i).setCore g { (s.writeBack g i).core g with
      copies := ((s.writeBack g i).core g).copies.del i }).HoldsResv v n r := h1.of_waves rfl
  exact (h2.clearResv (fun _ => by omega) none).clearResv (fun _ => by omega) none

/-- Room made for a sector that the core does not hold: what goes is another. -/
theorem makeRoom (h : s.HoldsResv v n r) {g : Nat} (hi : (s.core g).copies.find (r.grain / 2) = none) :
    (s.makeRoom g).HoldsResv v n r := by
  have hfresh : s.fresh.2.HoldsResv v n r := h
  unfold State.makeRoom
  dsimp only
  split
  · exact h
  · split
    · rename_i j hj
      have hne : r.grain / 2 ≠ j := by
        rintro rfl
        exact NMap.not_mem_keys_of_find hi (List.mem_of_getElem? hj)
      exact hfresh.evict hne g
    · exact hfresh

/-- The copy of the reserved grain's own sector is taken: nothing that is evicted for it touches the reservation. -/
theorem fill (h : s.HoldsResv v n r) (g : Nat) (cls : PgCls) : (s.fill g (r.grain / 2) cls).HoldsResv v n r := by
  unfold State.fill
  split
  · exact h
  · rename_i hi
    exact ((h.makeRoom hi).of_units (State.atHome_units ..)).of_waves rfl

end State.HoldsResv

/-- Bytes within one grain written in a core's copy: the sector is taken first, and the reservations that others hold at the core
on the grain are cleared last (R162, R277). -/
theorem State.coreWrite_one (s : State) (g : Nat) {key : Nat} {bs : List Byte} (hn : 0 < bs.length)
    (hk : key % 32 + bs.length ≤ 32) (svc : Bool) (b : Option (Nat × Nat)) :
    ∃ r : State, r.waves = (s.fill g (key / 64) .p).waves ∧ s.coreWrite g key bs svc b = r.clearResv (.core g) (key / 32) b := by
  unfold State.coreWrite
  rw [sectorPieces_one hn (by omega), List.foldl_cons, List.foldl_nil]
  dsimp only
  rw [State.clearResvs_one _ _ hn hk]
  refine ⟨_, ?_, rfl⟩
  split <;> rfl

/-- An access that orders nothing, to one part of a page of class P, over a link that is up and outside every window, by a wave whose
core has cache-role banks. -/
structure CopyAccess (s : State) (w g : Nat) (a : Acc) (p : Part) : Prop where
  space : a.space = .glob
  parts : a.parts = [p]
  cls : p.cls = .p
  ord : a.ord = .plain ∨ a.ord = .rlx
  up : s.cutOff p.key = false
  base : s.windowOf p.key = none
  core : coreOfWave w = some g
  caches : (s.core g).caches = true

section

variable {s : State} {w g : Nat} {a : Acc} {p : Part} (h : CopyAccess s w g a p)
include h

theorem CopyAccess.releases : a.ord.releases = false := by
  rcases h.ord with ho | ho <;> rw [ho] <;> rfl

theorem CopyAccess.acquires : a.ord.acquires = false := by
  rcases h.ord with ho | ho <;> rw [ho] <;> rfl

/-- A store goes to the copy of its wave's core (R277). -/
theorem CopyAccess.perform_store (lane : Nat) {bs : List Byte} (hk : a.kind = .store bs) (hl : bs.length = p.size) :
    s.perform w lane a = some ⟨s.coreWrite g p.key bs false (some (w, lane)), none, none, none⟩ := by
  have hpt : s.pointOf w a p.cls = .copy g false := by
    unfold State.pointOf
    simp only [h.space, h.cls, hk, AccKind.isRmw, h.core, h.caches, Bool.false_eq_true, if_false, if_true]
  have hcut : s.cutPart a p = false := by
    unfold State.cutPart
    rw [h.up, Bool.and_false]
  have hheld : (a.parts.any fun p => s.heldPart a.tag a.id p.key) = false := by
    rw [h.parts]
    simp [State.heldPart_none h.base]
  have hwrite : s.writeParts w lane a a.parts bs = .ok (s.coreWrite g p.key bs false (some (w, lane))) := by
    rw [h.parts]
    simp only [State.writeParts, hcut, hpt, State.writeAt, ← hl, List.take_length, Bool.false_eq_true, if_false]
  unfold State.perform
  simp only [hheld, h.releases, h.acquires, hk, hwrite, Bool.false_eq_true, if_false]

end

/-! ### The statement -/

/-- A range within a grain outside every window lies outside every window. -/
theorem State.noWindow_of_grain {s : State} {key n : Nat} (h : s.windowOf key = none) (hn : key % 32 + n ≤ 32) :
    s.noWindow key n := fun k _ _ => (State.windowOf_frame s (by omega)).trans h

/-- What becomes of the writer's own reservation after its write takes no other thread's. -/
theorem State.Swept.other_updThread {s t : State} {w lane : Nat} {here : Resv} (h : s.Swept t w lane here) (g : Thread → Thread)
    {v n : Nat} {u : Thread} (hne : (v, n) ≠ (w, lane)) (hu : s.thread? v n = some u) :
    ((t.updThread w lane g).thread? v n).map (·.resv) = some (if u.resv = some here then none else u.resv) := by
  rw [← h.other v n u hne hu]
  by_cases hv : v = w
  · subst hv
    rw [State.thread?_updThread_lane _ _ _ fun hn => hne (by rw [hn])]
  · rw [State.thread?_updThread_wave _ _ _ _ hv]

/-- Settles O35: at the home, what `perform` comes to by the kind of access, and what its write sweeps; in a core's copy, what the
fill and then the write do to each reservation. -/
theorem reservations : Obligations.Reservations := by
  unfold Obligations.Reservations
  intro s w lane a p t hspace hparts hord ht hup hsound hbase hgrain hsize here swept stored
  refine ⟨fun hcls => ?home, fun g bs hcls hcore hcaches hk hl => ?copy⟩
  case home =>
    have h : HomeAccess s a p :=
      ⟨hspace, hparts, hcls, hord, hsize, hup, hsound, State.noWindow_of_grain hbase hgrain⟩
    refine ⟨fun wid hk hg he => ?reserve, fun bs hk hl hr => ?held, fun bs hk hr => h.perform_stc_lost hk ht hr,
      fun bs hk hl => ?store, fun hk => ?rmw⟩
    case reserve =>
      obtain ⟨r, hsame, hq⟩ := h.perform_ldr w lane hk hg he
      refine ⟨_, hq, rfl, rfl, rfl, hsame.mem, ?_⟩
      unfold State.updThread
      rw [hsame.waves]
    case held =>
      obtain ⟨r, hr1, hb⟩ := h.writeParts w lane hl
      have hsw := h.writeParts_swept hgrain hl hr1
      refine ⟨_, h.perform_stc_held hk ht hr hr1, rfl, ⟨rfl, rfl, hb⟩, fun v n u hne hu => hsw.other_updThread _ hne hu, ?_⟩
      rw [State.thread?_updThread, hsw.own, ht]
      rfl
    case store =>
      obtain ⟨r, hr1, hb⟩ := h.writeParts w lane hl
      have hsw := h.writeParts_swept hgrain hl hr1
      exact ⟨_, h.perform_store_of w lane hk hr1, rfl, ⟨rfl, rfl, hb⟩, hsw.other, by rw [hsw.own, ht]; rfl⟩
    case rmw =>
      obtain ⟨r, hr1, hsame⟩ := h.readParts w
      have hnew := toLe_length p.size (a.kind.newVal (s.num p.key p.size))
      obtain ⟨q, hq, hb⟩ := (h.congr hsame).writeParts w lane hnew
      have hsw := (h.congr hsame).writeParts_swept hgrain hnew hq
      have hthread := State.thread?_congr hsame.waves
      refine ⟨_, h.perform_isRmw w lane hk hr1 hq, ⟨rfl, rfl, fun k => ?_⟩, fun v n u hne hu => ?_, ?_⟩
      · rw [← State.byte_congr hsame.mem]
        exact hb k
      · exact hsw.other v n u hne ((hthread v n).trans hu)
      · rw [hsw.own, hthread, ht]
        rfl
  case copy =>
    have h : CopyAccess s w g a p := ⟨hspace, hparts, hcls, hord, hup, hbase, hcore, hcaches⟩
    obtain ⟨r, hr, hw⟩ := s.coreWrite_one g (key := p.key) (bs := bs) (by omega) (by omega) false (some (w, lane))
    have hfilled {v n : Nat} {x : Resv} (hx : s.HoldsResv v n x) (hg : x.grain = p.key / 32) : r.HoldsResv v n x := by
      have hsec : x.grain / 2 = p.key / 64 := by omega
      exact (hsec ▸ hx.fill g .p).of_waves hr
    have hsw : r.Swept (r.clearResv (.core g) (p.key / 32) (some (w, lane))) w lane ⟨.core g, p.key / 32⟩ := .clearResv rfl ..
    have hholds {v n : Nat} {u : Thread} {x : Resv} (hu : s.thread? v n = some u) (hx : u.resv = some x) : s.HoldsResv v n x := by
      unfold State.HoldsResv
      rw [hu, Option.map_some, hx]
    refine ⟨_, h.perform_store lane hk hl, fun hresv => ?_, fun v n u hne hu => ⟨fun hresv => ?_, fun x hresv hpt hg => ?_⟩⟩
    all_goals rw [hw]
    · rw [hsw.own, hresv]
      exact hfilled (hholds ht hresv) rfl
    · obtain ⟨u', hu', hr'⟩ := Option.map_eq_some_iff.1 (hfilled (hholds hu hresv) rfl)
      rw [hsw.other v n u' hne hu', if_pos hr']
    · obtain ⟨u', hu', hr'⟩ := Option.map_eq_some_iff.1 (hfilled (hholds hu hresv) hg)
      have hother : u'.resv ≠ some ⟨.core g, p.key / 32⟩ := by
        rw [hr']
        rintro ⟨⟩
        exact hpt rfl
      rw [hsw.other v n u' hne hu', if_neg hother, hr']

end Sys2Proof.Machine
end
section
/-! PROOFS. `icinv`, `tlbinv`, the walks that wait and the moves of homes (R170, R171, R281 to R284), and the settling of
`InvalidationAndHomes`. -/

namespace Sys2Proof.Machine

open Sys2Proof

/-! ### One lane of `icinv` and of `tlbinv` -/

section

variable {r r1 : State} {c : Ctx} {l : Nat}

theorem State.icinvLane_released (h : r.releaseAt c.w l .dev = some r1) :
    r.icinvLane c l = .ok (r1.dropBlocks (r1.asrOf c.x.rgn) (addrSum (c.a l 2) 0 1 c.offX 64) (c.b l)) [] := by
  unfold State.icinvLane
  simp only [h]
  rfl

theorem State.tlbinvLane_refused (all : Bool) (h : r.isSys c.x.rgn = false) :
    r.tlbinvLane c l all = .fault r { code := 5, sub := 8 } := by
  unfold State.tlbinvLane
  simp [h]

theorem State.tlbinvLane_range (h : r.isSys c.x.rgn = true)
    (hd : r.dropTranslations (r.asrOf c.x.rgn) false (addrSum (c.a l 2) 0 1 c.offX 64) (c.b l) = some r1) :
    r.tlbinvLane c l false = .ok r1 [] := by
  have hd' : r.dropTranslations (r.asrOf c.x.rgn) false (c.invRange l).1 (c.invRange l).2 = some r1 := hd
  unfold State.tlbinvLane
  simp [h, hd']

end

/-! ### The fetch blocks that `icinv` drops (R170) -/

/-- The keys that a filter refuses are found no more. -/
theorem NMap.find_filter_of_not {β : Type} {m : NMap β} {p : Nat → Bool} {n : Nat} (h : p n = false) :
    NMap.find (m.filter fun e => p e.1) n = none := by
  cases hf : NMap.find (m.filter fun e => p e.1) n with
  | none => rfl
  | some x =>
    obtain ⟨e, he, rfl⟩ := List.mem_map.1 (NMap.mem_keys_of_find hf)
    rw [(List.mem_filter.1 he).2] at h
    cases h

/-- A fetch block has a byte at a place that the range may stand for. -/
def State.blockHit (s : State) (asr base size blk : Nat) : Bool :=
  ((framePieces (blockSpan base size).1 (blockSpan base size).2).flatMap fun p =>
    (s.placesOf asr p.1).map fun key => (key, p.2)).any fun p =>
      decide (p.1 < 32 * blk + 32) && decide (32 * blk < p.1 + p.2)

theorem State.blockHit_of_piece {s : State} {asr base size key blk : Nat} {p : Nat × Nat}
    (hp : p ∈ framePieces (blockSpan base size).1 (blockSpan base size).2) (hk : key ∈ s.placesOf asr p.1)
    (h1 : key < 32 * blk + 32) (h2 : 32 * blk < key + p.2) : s.blockHit asr base size blk = true :=
  List.any_eq_true.2 ⟨(key, p.2), List.mem_flatMap.2 ⟨p, hp, List.mem_map_of_mem hk⟩, by simp [h1, h2]⟩

/-- Each core keeps the fetch blocks that the range does not meet. -/
theorem State.dropBlocks_core (s : State) (asr base size g : Nat) :
    ((s.dropBlocks asr base size).core g).icache =
      (s.core g).icache.filter (fun e => !s.blockHit asr base size e.1) ∧
    ((s.dropBlocks asr base size).core g).l0 =
      (s.core g).l0.map fun q => (q.1, q.2.filter fun e => !s.blockHit asr base size e.1) := by
  unfold State.dropBlocks State.core NMap.get
  extract_lets span pieces hit loop core
  rw [NMap.find_mapVal core]
  cases s.cores.find g with
  | none => exact ⟨rfl, rfl⟩
  | some x => exact ⟨rfl, rfl⟩

theorem State.dropBlocks_find {s : State} {asr base size blk : Nat} (h : s.blockHit asr base size blk = true) (g : Nat) :
    ((s.dropBlocks asr base size).core g).icache.find blk = none ∧
      ∀ e ∈ ((s.dropBlocks asr base size).core g).l0, e.2.find blk = none := by
  have hfind (m : NMap (List Byte)) : NMap.find (m.filter fun e => !s.blockHit asr base size e.1) blk = none :=
    NMap.find_filter_of_not (p := fun n => !s.blockHit asr base size n) (by rw [h]; rfl)
  obtain ⟨hi, hl⟩ := s.dropBlocks_core asr base size g
  rw [hi, hl]
  refine ⟨hfind _, fun e he => ?_⟩
  obtain ⟨q, -, rfl⟩ := List.mem_map.1 he
  exact hfind _

/-! ### The translations that every TLB holds (R171, R281) -/

/-- Every leaf that a TLB of the device holds has a property. -/
def State.TlbAll (P : Leaf → Prop) (s : State) : Prop :=
  ListAll (SndAll fun c : Core => ListAll P c.tlb) s.cores ∧ ListAll (SndAll fun c : Cluster => ListAll P c.tlb) s.clusters

namespace State.TlbAll

variable {P : Leaf → Prop} {s t : State}

theorem heldLeaves (h : s.TlbAll P) (asr : Nat) : ListAll P (s.heldLeaves asr) :=
  ((h.1.flatMap fun _ hc => hc).append (h.2.flatMap fun _ hc => hc)).filter

theorem of_units (h : s.TlbAll P) (ht : t.units = s.units) : t.TlbAll P := by
  unfold State.TlbAll
  rw [State.cores_of_units ht, State.clusters_of_units ht]
  exact h

theorem core (h : s.TlbAll P) (g : Nat) : ListAll P (s.core g).tlb :=
  h.1.get (P := fun c : Core => ListAll P c.tlb) .nil

/-- The copies that a core holds have no part in its TLB. -/
theorem setCopies (h : s.TlbAll P) (g : Nat) (m : NMap Copy) : (s.setCore g { s.core g with copies := m }).TlbAll P :=
  ⟨h.1.ins (h.core g), h.2⟩

theorem clearResvs (h : s.TlbAll P) (pt : ResvAt) (key n : Nat) (b : Option (Nat × Nat)) :
    (s.clearResvs pt key n b).TlbAll P := by
  unfold State.TlbAll
  rw [State.clearResvs_cores, State.clearResvs_clusters]
  exact h

theorem writeBack (h : s.TlbAll P) (g i : Nat) : (s.writeBack g i).TlbAll P := by
  rcases s.writeBack_cases g i with heq | ⟨m, u, hu, hw⟩
  · rw [heq]
    exact h
  · exact (((h.setCopies g m).of_units hu).clearResvs ..).of_units hw

theorem dropCopy (h : s.TlbAll P) (g i : Nat) : (s.dropCopy g i).TlbAll P := h.setCopies g _

theorem dropWhere (h : s.TlbAll P) (g : Nat) (cond : Nat → Bool) : (s.dropWhere g cond).TlbAll P :=
  foldl_inv h fun _ _ hs => ite_inv ((hs.writeBack ..).dropCopy ..) hs

end State.TlbAll

/-- Once the translations of a range are dropped, no TLB holds one of them: writing back and dropping the copies of what they mapped
brings none in. -/
theorem State.dropTranslations_tlbs (s : State) (asr : Nat) (all : Bool) (base size : Nat) :
    OptAll (State.TlbAll fun l => (l.asr == asr && (all || vaMeets base size l.va l.size)) = false)
      (s.dropTranslations asr all base size) := by
  unfold State.dropTranslations
  extract_lets goes gone left served tidy
  split
  · exact .none
  · refine OptAll.mapOf fun s1 => ?_
    extract_lets s2 held drops
    have htidy (t : List Leaf) : ListAll (fun l => goes l = false) (tidy t) := fun l hl => by
      simpa using (List.mem_filter.1 hl).2
    have h2 : s2.TlbAll fun l => goes l = false :=
      ⟨ListAll.mapOf fun e => htidy e.2.tlb, ListAll.mapOf fun e => htidy e.2.tlb⟩
    exact foldl_inv h2 fun _ _ hs => hs.dropWhere ..

theorem State.heldLeaves_asr {s : State} {asr : Nat} {l : Leaf} (h : l ∈ s.heldLeaves asr) : l.asr = asr := by
  simpa using (List.mem_filter.1 h).2

/-! ### Walks that wait (R281, R282, R364) -/

section

variable {s : State} {k : Nat} {q : WalkReq} {rest : List WalkReq} (hw : (s.cluster k).walks = q :: rest)
include hw

theorem exec_pageWalk_fault (r : State) (fl : Flt) (b : Option Nat) :
    (s.setCluster k { s.cluster k with walks := rest }).walkBy (k / 24) (s.asrOf q.rgn) q.va = (r, .fault fl b) →
      exec (.pageWalk k) s = .next (match b with | some key => r.dataError q.rgn key | none => r) := by
  intro h
  cases b <;> simp only [exec, execPageWalk, hw, h]

variable {r t : State} {leaf : Leaf}
  (h : (s.setCluster k { s.cluster k with walks := rest }).walkBy (k / 24) (s.asrOf q.rgn) q.va = (r, .leaf leaf))
  (ht : t = r.setCluster k
    { r.cluster k with walks := rest.filter fun p => !(r.asrOf p.rgn == leaf.asr && leaf.maps leaf.asr p.va) })
include h ht

/-- A leaf found serves every walk that waits for it; one that the thread may not read goes nowhere. -/
theorem exec_pageWalk_unreadable (hc : t.checkLeaf ⟨q.rgn, k, none⟩ leaf q.va .rd clsAny ≠ none) :
    exec (.pageWalk k) s = .next t := by
  subst ht
  simp only [exec, execPageWalk, hw, h, Option.isSome_iff_ne_none.2 hc, if_true]

variable (hc : t.checkLeaf ⟨q.rgn, k, none⟩ leaf q.va .rd clsAny = none)
include hc

theorem exec_pageWalk_charged {r1 : State} (hr : t.charge q.rgn leaf = .ok r1) :
    exec (.pageWalk k) s = .next (r1.install ⟨q.rgn, k, none⟩ leaf) := by
  subst ht
  simp only [exec, execPageWalk, hw, h, hc, hr, Option.isSome_none, Bool.false_eq_true, if_false]

/-- A leaf that would pass a quota gives an event (R364). -/
theorem exec_pageWalk_beyond {n : Nat} (hn : t.charge q.rgn leaf = .beyond n) :
    exec (.pageWalk k) s = .next (t.quotaEvent n 1) := by
  subst ht
  simp only [exec, execPageWalk, hw, h, hc, hn, Option.isSome_none, Bool.false_eq_true, if_false]

end

/-! ### Moves of homes (R284) -/

/-- Where L2 holds no line of the frame, none moves. -/
theorem State.moveLines_none {s : State} {frame : Nat} (h : ∀ e ∈ s.l2, e.1 / 16 ≠ frame) (homes : NMap Nat) :
    s.moveLines frame homes = { s with homes := homes } := by
  have hnone : s.l2.filter (fun e => e.1 / 16 == frame) = [] := List.filter_eq_nil_iff.2 fun e he => by simpa using h e he
  have hall : s.l2.filter (fun e => e.1 / 16 != frame) = s.l2 := List.filter_eq_self.2 fun e he => by simpa using h e he
  unfold State.moveLines
  simp only [hnone, hall, List.foldl_nil]

theorem exec_homeMove {s : State} {frame old slice : Nat} (hf : s.homeFwd = [⟨frame, old, slice, [], false⟩])
    (hs : slice ≠ s.hashHome frame) (hl : ∀ e ∈ s.l2, e.1 / 16 ≠ frame) :
    exec (.homeMove frame slice) s = .next { s with
      homeFwd := [⟨frame, old, slice, s.frameRequests frame, true⟩], homes := s.homes.ins frame slice
      waves := s.waves.map fun e => (e.1, { e.2 with threads := e.2.threads.map (Thread.dropFrame frame) }) } := by
  have hfind : s.homeFwd.find? (fun f => f.frame == frame && f.new == slice && !f.moved) = some ⟨frame, old, slice, [], false⟩ := by
    rw [hf]
    simp
  simp only [exec, execHomeMove, hfind, State.moveLines_none hl, if_neg hs.symm]
  simp only [hf, List.map_cons, List.map_nil, if_true]

/-- The entry of a frame whose requests have all been forwarded goes. -/
theorem exec_homeForward_done {s : State} {frame old slice : Nat} (hf : s.homeFwd = [⟨frame, old, slice, [], true⟩]) :
    exec (.homeForward frame) s = .next { s with homeFwd := [] } := by
  have hfind : s.homeFwd.find? (fun f => f.frame == frame && f.moved) = some ⟨frame, old, slice, [], true⟩ := by
    rw [hf]
    simp
  simp only [exec, execHomeForward, hfind]
  simp [hf]

theorem exec_homeForward_first {s r : State} {frame old slice w l id : Nat} {rest : List (Nat × Nat × Nat)}
    (hf : s.homeFwd = [⟨frame, old, slice, (w, l, id) :: rest, true⟩]) (hr : s.performUpTo w l id = some r) :
    exec (.homeForward frame) s = .next { r with
      homeFwd := r.homeFwd.map fun g => if g.frame = frame ∧ g.moved = true then { g with reqs := rest } else g } := by
  have hfind : s.homeFwd.find? (fun f => f.frame == frame && f.moved) =
      some ⟨frame, old, slice, (w, l, id) :: rest, true⟩ := by
    rw [hf]
    simp
  simp only [exec, execHomeForward, hfind, hr]

/-! ### The statement -/

/-- Settles O57: the lanes of `icinv` and `tlbinv`, what they leave in the caches and TLBs, and the three events by their cases. -/
theorem invalidationAndHomes : Obligations.InvalidationAndHomes := by
  unfold Obligations.InvalidationAndHomes
  intro f all s s1 c
  refine ⟨perLane_lanes, perLane_lanes, fun r r1 l => ⟨State.icinvLane_released, State.tlbinvLane_refused all, ?range⟩,
    fun r asr base size p key g blk hp hk h1 h2 => State.dropBlocks_find (State.blockHit_of_piece hp hk h1 h2) g,
    fun r t asr base size h leaf hl => ?dropped, fun k q rest hw => ⟨exec_pageWalk_fault hw, ?leaf⟩,
    fun frame old slice hf hs hl => exec_homeMove hf hs hl, fun frame old slice reqs hf => ⟨?done, ?forwarded⟩⟩
  case range =>
    rintro h rfl
    exact State.tlbinvLane_range h
  case dropped =>
    have hgone := (r.dropTranslations_tlbs asr all base size t h).heldLeaves asr leaf hl
    simpa [State.heldLeaves_asr hl] using hgone
  case leaf =>
    intro r leaf h left t
    exact ⟨exec_pageWalk_unreadable hw h rfl, fun hc => ⟨fun _ => exec_pageWalk_charged hw h rfl hc,
      fun _ => exec_pageWalk_beyond hw h rfl hc⟩⟩
  case done =>
    rintro rfl
    exact exec_homeForward_done hf
  case forwarded =>
    rintro w l id rest r rfl hr
    exact exec_homeForward_first hf hr

end Sys2Proof.Machine
end
section
/-! PROOFS. The bytes that a fetch takes, from L2 or from the instruction caches (R175, R185), and the settling of
`FetchReadsMemory`. -/

namespace Sys2Proof.Machine

open Sys2Proof

/-! ### What filling the instruction caches changes -/

/-- The two states differ in what the caches hold, L2 and those of the cores, and in the free values used, alone. -/
def State.sameButCaches (s t : State) : Prop := t = { s with l2 := t.l2, cores := t.cores, fv := t.fv }

section

variable {s t : State}

theorem State.sameButCaches.mem (h : s.sameButCaches t) : t.mem = s.mem := by rw [h]
theorem State.sameButCaches.waves (h : s.sameButCaches t) : t.waves = s.waves := by rw [h]

theorem State.sameButL2.sameButCaches (h : s.sameButL2 t) : s.sameButCaches t := by
  unfold State.sameButL2 at h
  unfold State.sameButCaches
  rw [h]

theorem State.sameButL2.poisoned (h : s.sameButL2 t) (key n : Nat) : t.poisoned key n = s.poisoned key n := by
  rw [h]
  rfl

theorem State.sameButCaches.fresh (h : s.sameButCaches t) : s.sameButCaches t.fresh.2 := by
  unfold State.sameButCaches at h ⊢
  rw [h]
  rfl

theorem State.sameButCaches.setCore (h : s.sameButCaches t) (g : Nat) (c : Core) : s.sameButCaches (t.setCore g c) := by
  unfold State.sameButCaches at h ⊢
  rw [h]
  rfl

theorem State.sameButCaches.cacheBlock (h : s.sameButCaches t) (cap : Nat) (m : NMap (List Byte)) (blk : Nat) (bs : List Byte) :
    s.sameButCaches (t.cacheBlock cap m blk bs).1 := by
  unfold State.cacheBlock
  split
  · exact h
  · exact h.fresh

theorem State.sameButCaches.fillL0 (h : s.sameButCaches t) (w blk : Nat) (bs : List Byte) :
    s.sameButCaches (t.fillL0 w blk bs) :=
  (h.cacheBlock ..).setCore ..

theorem State.sameButCaches.fillCore (h : s.sameButCaches t) (w blk : Nat) (bs : List Byte) :
    s.sameButCaches (t.fillCore w blk bs) :=
  (h.cacheBlock ..).setCore ..

end

/-! ### Where the bytes come from -/

/-- A fetch of a block that the L0 cache, the core's instruction cache and the home answer so: its bytes are one of the three
answers, and it changes what the caches hold alone. -/
structure State.Supplied (s : State) (l0 shared : Option (List Byte)) (home : List Byte) (r : State × List Byte) : Prop where
  frame : s.sameButCaches r.1
  bytes : r.2 = home ∨ l0 = some r.2 ∨ shared = some r.2

section

variable {s : State} {key : Nat}

theorem State.blockBytes_home (hwin : s.noWindow key 32) (hup : s.cutOff key = false) :
    s.blockBytes key = (s.atHome key 32, s.homeBytes none key 32) := by
  have hsame := State.atHome_noWindow hwin (by decide)
  have hbytes : (s.atHome key 32).homeBytes none key 32 = s.homeBytes none key 32 := by
    rw [State.homeBytes_none (hwin.congr hsame.sets), State.homeBytes_none hwin, State.bytes_congr hsame.mem]
  simp only [State.blockBytes, hup, hbytes, Bool.false_eq_true, if_false]

/-- What a fetch takes where the block meets no error: by which caches hold it, and by the free value where their bytes differ from the
home's. -/
theorem State.fetchBlock_supplied (w rgn : Nat) (hwin : s.noWindow key 32) (hup : s.cutOff key = false)
    (hsound : s.poisoned key 32 = false) :
    s.Supplied (NMap.find (NMap.get [] (s.core (fetchCore w)).l0 (fetchQuad w)) (key / 32))
      ((s.core (fetchCore w)).icache.find (key / 32)) (s.homeBytes none key 32) (s.fetchBlock w rgn key) := by
  have hsame := State.atHome_noWindow hwin (by decide)
  have hread := hsame.sameButCaches
  have hgood : (s.atHome key 32).poisoned key 32 = false := (hsame.poisoned key 32).trans hsound
  unfold State.fetchBlock
  simp only [State.blockBytes_home hwin hup, hgood, Bool.false_eq_true, if_false]
  split
  case h_1 => exact ⟨(hread.fillCore ..).fillL0 .., .inl rfl⟩
  case h_2 hl0 _ =>
    split
    · exact ⟨hread, .inl rfl⟩
    · split
      · exact ⟨hread.fresh, .inr (.inl hl0)⟩
      · exact ⟨(hread.fresh.fillCore ..).fillL0 .., .inl rfl⟩
  case h_3 _ hshared =>
    split
    · exact ⟨hread.fillL0 .., .inl rfl⟩
    · split
      · exact ⟨hread.fresh.fillL0 .., .inr (.inr hshared)⟩
      · exact ⟨(hread.fresh.fillCore ..).fillL0 .., .inl rfl⟩
  case h_4 hl0 hshared =>
    split
    · exact ⟨hread, .inl rfl⟩
    · split
      · exact ⟨hread.fresh, .inr (.inl hl0)⟩
      · split
        · exact ⟨hread.fresh.fillL0 .., .inr (.inr hshared)⟩
        · exact ⟨(hread.fresh.fillCore ..).fillL0 .., .inl rfl⟩

end

/-! ### The statement -/

/-- Settles O7: a fetch is supplied by a cache or by the home, and a cache that holds no other bytes than the home supplies the
home's. -/
theorem fetchReadsMemory : Obligations.FetchReadsMemory := by
  unfold Obligations.FetchReadsMemory
  intro s w rgn key halign hup hsound hwin l0 shared
  have hwin := State.noWindow_of_grain (n := 32) hwin (by omega)
  obtain ⟨hframe, hfrom⟩ := State.fetchBlock_supplied w rgn hwin hup hsound
  refine ⟨hfrom, fun hl0 hshared => ?_, hframe.mem, hframe.waves⟩
  rcases hfrom with hhome | hin | hin
  · exact hhome
  · exact hl0 _ hin
  · exact hshared _ hin

end Sys2Proof.Machine
end
section
/-! PROOFS. Barrier objects (R198, R199, R204): the fields read back from the bytes of an object, what completes a phase, and the
threads that return from their `wait` (O38). -/

namespace Sys2Proof.Machine

open Sys2Proof

/-! ### Fields and bytes -/

theorem b2n_le_one (x : Bool) : b2n x ≤ 1 := by cases x <;> decide

theorem b2n_beq_one (x : Bool) : (b2n x == 1) = x := by cases x <;> rfl

/-- Each field lies in its bits of the 32 bytes, and `rsv` in the reserved ones (R198). -/
structure Bar.Fits (b : Bar) : Prop where
  gen : b.gen < 2 ^ 32
  wch : b.wch < 2 ^ 8
  expa : b.expa < 2 ^ 32
  pend : b.pend < 2 ^ 32
  btgt : b.btgt < 2 ^ 32
  blnd : b.blnd < 2 ^ 32
  rsv : ∃ i j k, b.rsv = 2 ^ 34 * i + 2 ^ 48 * j + 2 ^ 192 * k ∧ i < 2 ^ 6 ∧ j < 2 ^ 16 ∧ k < 2 ^ 64

theorem Bar.Fits.toRaw_lt {b : Bar} (h : b.Fits) : b.toRaw < 256 ^ 32 := by
  obtain ⟨hgen, hwch, hexpa, hpend, hbtgt, hblnd, i, j, k, hrsv, hi, hj, hk⟩ := h
  have hc := b2n_le_one b.fltc
  have hp := b2n_le_one b.fltp
  unfold Bar.toRaw
  omega

theorem Bar.Fits.ofRaw_toRaw {b : Bar} (h : b.Fits) : Bar.ofRaw b.toRaw = b := by
  obtain ⟨hgen, hwch, hexpa, hpend, hbtgt, hblnd, i, j, k, hrsv, hi, hj, hk⟩ := h
  have hc := b2n_le_one b.fltc
  have hp := b2n_le_one b.fltp
  have hfltc : field b.toRaw 32 32 = b2n b.fltc := by unfold Bar.toRaw field; omega
  have hfltp : field b.toRaw 33 33 = b2n b.fltp := by unfold Bar.toRaw field; omega
  unfold Bar.ofRaw
  rw [hfltc, hfltp, b2n_beq_one, b2n_beq_one]
  obtain ⟨gen, fltc, fltp, wch, expa, pend, btgt, blnd, rsv⟩ := b
  dsimp only at hgen hwch hexpa hpend hbtgt hblnd hrsv hc hp
  simp only [Bar.toRaw, field, Bar.mk.injEq, true_and]
  and_intros <;> omega

/-- An object whose reserved bits are 0 passes the check of R207. -/
theorem Bar.Fits.barBad_toRaw {b : Bar} (h : b.Fits) (hrsv : b.rsv = 0) : barBad b.toRaw = false := by
  have hlt := h.toRaw_lt
  obtain ⟨hgen, hwch, hexpa, hpend, hbtgt, hblnd, -⟩ := h
  have hc := b2n_le_one b.fltc
  have hp := b2n_le_one b.fltp
  have hhigh : field b.toRaw 255 192 = 0 := by unfold Bar.toRaw field; omega
  have hmid : field b.toRaw 63 48 = 0 := by unfold Bar.toRaw field; omega
  have hlow : field b.toRaw 39 34 = 0 := by unfold Bar.toRaw field; omega
  simp [barBad, hhigh, hmid, hlow]

/-! ### An object of a window -/

section

variable {s : State} {r : BarRef}

/-- The 32 bytes that stand at an object just written (R198). -/
theorem State.barRaw_putBar (hw : (s.wgs.find r.wg).isSome = true) {b : Bar} (h : b.Fits) :
    (s.putBar r b).barRaw r = b.toRaw := by
  obtain ⟨y, hy⟩ := Option.isSome_iff_exists.mp hw
  have hbytes : winBytes (winPut y.scr r.off (toLe 32 b.toRaw)) r.off 32 = toLe 32 b.toRaw := by
    simpa [toLe_length] using winBytes_winPut (toLe 32 b.toRaw) y.scr r.off
  simp only [State.barRaw, State.wgAt, State.putBar, State.updWg, NMap.find_upd_same, hy, Option.map_some, hbytes]
  rw [leBytes_toLe, Nat.mod_eq_of_lt h.toRaw_lt]

theorem State.bar_putBar (hw : (s.wgs.find r.wg).isSome = true) {b : Bar} (h : b.Fits) : (s.putBar r b).bar r = b := by
  rw [State.bar, State.barRaw_putBar hw h, h.ofRaw_toRaw]

/-- The bytes of the window around an object stand as they were. -/
theorem State.putBar_scr_outside {b : Bar} {y z : Wg} (hy : s.wgs.find r.wg = some y) (hz : (s.putBar r b).wgs.find r.wg = some z)
    {off : Nat} (ho : off < r.off ∨ r.off + 32 ≤ off) : NMap.get 0 z.scr off = NMap.get 0 y.scr off := by
  simp only [State.putBar, State.updWg, NMap.find_upd_same, hy, Option.map_some, Option.some.injEq] at hz
  subst hz
  exact winPut_outside _ _ _ _ (by rwa [toLe_length])

end

/-! ### A step on an object (R199) -/

/-- What the windows of the resident and the ended workgroups are read from. -/
def State.windows (s : State) : NMap Wg × NMap Wg := (s.wgs, s.endedWgs)

theorem State.bar_congr {s t : State} (h : t.windows = s.windows) (r : BarRef) : t.bar r = s.bar r := by
  obtain ⟨hw, he⟩ := Prod.mk.inj h
  simp only [State.bar, State.barRaw, State.wgAt, hw, he]

theorem State.wakeCore_windows (s : State) (g : Option Nat) (b : WakeBit) : (s.wakeCore g b).windows = s.windows := by
  unfold State.wakeCore
  split
  · dsimp only
    split <;> rfl
  · rfl

/-- The return of the waiters changes waves and cores alone. -/
theorem State.returnWaits_windows (s : State) (r : BarRef) (b : Bar) : (s.returnWaits r b).windows = s.windows := by
  unfold State.returnWaits
  refine foldl_same State.windows _ (fun s w => ?_) _ s
  split
  · dsimp only
    split
    · rfl
    · exact State.wakeCore_windows ..
  · rfl

section

variable {s : State} {r : BarRef} {b : Bar}

theorem State.barStep_of_open (h : b.pend ≠ 0 ∨ b.blnd ≠ b.btgt) : s.barStep r b = s.putBar r b :=
  if_neg fun hd => h.elim (· hd.1) (· hd.2)

theorem State.barStep_of_complete (hp : b.pend = 0) (hl : b.blnd = b.btgt) :
    s.barStep r b = (s.putBar r b.complete).returnWaits r b.complete := if_pos ⟨hp, hl⟩

/-- A phase that completes leaves the object as it stands at the start of the next. -/
theorem State.bar_barStep_of_complete (hw : (s.wgs.find r.wg).isSome = true) (hp : b.pend = 0) (hl : b.blnd = b.btgt)
    (h : b.complete.Fits) : (s.barStep r b).bar r = b.complete := by
  rw [State.barStep_of_complete hp hl, State.bar_congr (State.returnWaits_windows ..), State.bar_putBar hw h]

theorem State.barArrive_of_nothing_pending (h : (s.bar r).pend = 0) : s.barArrive r = none := if_pos h

end

/-! ### Phases and their waiters (R199, R204) -/

/-- A phase is complete once the generation has gone on from it, by less than half of its range. -/
theorem phaseDone_iff (gen g : Nat) :
    phaseDone gen g = true ↔ 1 ≤ (gen + 2 ^ 32 - g) % 2 ^ 32 ∧ (gen + 2 ^ 32 - g) % 2 ^ 32 < 2 ^ 31 := by
  simp [phaseDone]

theorem phaseDone_later {g n : Nat} (h1 : 1 ≤ n) (h2 : n < 2 ^ 31) (hg : g < 2 ^ 32) :
    phaseDone ((g + n) % 2 ^ 32) g = true := by
  rw [phaseDone_iff]
  omega

theorem phaseDone_self (g : Nat) : phaseDone g g = false := by
  rw [Bool.eq_false_iff, ne_eq, phaseDone_iff]
  omega

theorem Bar.status_eq (b : Bar) (g : Nat) : b.status g = if b.gen = (g + 1) % 2 ^ 32 ∧ b.fltp = false then 0 else 1 := by
  simp [Bar.status]

section

variable {t : Thread} {r : BarRef} {b : Bar}

/-- The result of the `wait` of a thread: the status of its phase, which waits to be written. -/
def waitResult (id : Nat) (d : Dst) (st : Word) (pc : DWord) : Acc :=
  { id := id, kind := .calc, space := .glob, parts := [], ord := .plain, scope := .thr, tag := none
    dst := some d, win := 0, val := some [st], pc := pc }

theorem Thread.returnWait_of_done {g : Word} {d : Dst} {id : Nat} {pc npc : DWord}
    (hst : t.st = .blocked (.phase r.wg r.off g d none id pc npc)) (hdone : phaseDone b.gen g.toNat = true) :
    t.returnWait r b = { t.countWindow with
      st := .running, pc := npc, popped := [], accs := t.countWindow.accs ++ [waitResult id d (b.status g.toNat) pc] } := by
  simp only [Thread.returnWait, hst, hdone, and_self, if_true]
  rfl

theorem Thread.returnWait_of_open
    (h : ∀ g d acq id pc npc, t.st = .blocked (.phase r.wg r.off g d acq id pc npc) → phaseDone b.gen g.toNat = false) :
    t.returnWait r b = t := by
  unfold Thread.returnWait
  split
  case h_1 wg off g d acq id pc npc hst =>
    refine if_neg ?_
    rintro ⟨rfl, rfl, hdone⟩
    exact Bool.eq_false_iff.mp (h g d acq id pc npc hst) hdone
  case h_2 => rfl

end

/-! ### The statement -/

/-- Settles O38: the object by its fields, which its bytes hold, and by what a step on it leaves; the waiters by the phase they
wait for. -/
theorem barrierPhases : Obligations.BarrierPhases := by
  unfold Obligations.BarrierPhases
  refine ⟨fun s r b hw hgen hwch hexpa hpend hbtgt hblnd =>
      ⟨?read, ?sound, fun y z hy hz off => State.putBar_scr_outside hy hz⟩,
    fun s r b => State.barStep_of_open, ?complete, ?returns, fun t r b => Thread.returnWait_of_open,
    fun s r => State.barArrive_of_nothing_pending, fun g n => phaseDone_later, fun g _ => phaseDone_self g⟩
  case read =>
    intro i j k hrsv hi hj hk
    exact State.bar_putBar hw ⟨hgen, hwch, hexpa, hpend, hbtgt, hblnd, i, j, k, hrsv, hi, hj, hk⟩
  case sound =>
    intro hrsv
    have hfits : b.Fits := ⟨hgen, hwch, hexpa, hpend, hbtgt, hblnd, 0, 0, 0, hrsv, by decide⟩
    rw [State.barRaw_putBar hw hfits, hfits.barBad_toRaw hrsv]
  case complete =>
    intro s r b hw hp hl hgen hwch hexpa hrsv
    have hfits : b.complete.Fits :=
      ⟨Nat.mod_lt _ (by decide), hwch, hexpa, hexpa, Nat.two_pow_pos 32, Nat.two_pow_pos 32, 0, 0, 0, hrsv, by decide⟩
    refine ⟨?_, State.barStep_mem s r b⟩
    rw [State.bar_barStep_of_complete hw hp hl hfits, Bar.complete, hrsv]
  case returns =>
    intro t r b g d id pc npc hst hdone
    rw [Thread.returnWait_of_done hst hdone, Bar.status_eq]
    exact ⟨rfl, rfl, rfl, _, rfl, rfl, rfl, rfl⟩

end Sys2Proof.Machine
end
section
/-! PROOFS. Copies and halos that are in flight (R214 to R216): how one part of each is transferred, what its landing leaves, and
the start of a halo (O40). -/

namespace Sys2Proof.Machine

open Sys2Proof

/-! ### An operation changed -/

@[simp] theorem State.countFwd_mem (s : State) : s.countFwd.mem = s.mem := by
  unfold State.countFwd
  extract_lets keep
  split <;> rfl

@[simp] theorem State.setOp_mem (s : State) (id : Nat) (g : CopyOp → Option CopyOp) : (s.setOp id g).mem = s.mem :=
  State.countFwd_mem _

@[simp] theorem State.barLand_mem (s : State) (r : BarRef) (n : Nat) (flt : Bool) : (s.barLand r n flt).mem = s.mem :=
  State.barStep_mem ..

/-! ### A part lands (R214) -/

section

variable {t : State} {o : CopyOp} {b : BarRef} {n : Nat} (run : Nat) (hb : o.done = .bar b)
include hb

theorem State.copyLanded_mem_of_more (h : n < o.left) : (t.copyLanded o n run).mem = t.mem := by
  unfold State.copyLanded
  simp only [hb, State.land]
  rw [if_neg (Nat.not_le.mpr h), State.setOp_mem, State.barLand_mem]

/-- The last part of an operation that completes to a barrier ends it. -/
theorem State.copyLanded_last (h : o.left ≤ n) : t.copyLanded o n run = (t.barLand b n false).setOp o.id fun _ => none := by
  unfold State.copyLanded State.finish
  simp only [hb, State.land]
  exact if_pos h

end

/-! ### One part of a copy -/

/-- The global address of the next part of a copy without an index (R214). -/
def CopyOp.globalAt (o : CopyOp) : Nat :=
  lowBits ((dfield o.desc 63 0 : Int) + (o.run % dfield o.desc 175 160 : Nat) * dsigned o.desc 223 192 +
    (o.run / dfield o.desc 175 160 : Nat) * dsigned o.desc 255 224 + o.off) 64

/-- Its local address. -/
def CopyOp.localAt (o : CopyOp) : Nat :=
  dfield o.desc 95 64 + o.run % dfield o.desc 175 160 * dfield o.desc 287 256 +
    o.run / dfield o.desc 175 160 * dfield o.desc 319 288 + o.off

section

variable {s s1 s2 : State} {o : CopyOp} {g l : Nat} {parts : List Part}

theorem State.copyNext_of_plain (h : dfield o.desc 103 102 = 0) : s.copyNext o = s.copyPart o o.globalAt o.localAt := by
  unfold State.copyNext
  exact if_pos h

section

variable {n : Nat} (hn : grainPart l (dfield o.desc 143 128 - o.off) = n)
include hn

theorem State.copyPart_to_scratch (hdir : dfield o.desc 101 99 = 0) (hp : s.engParts o.eng .rd clsAny g n = .ok s1 parts)
    {bs : List Byte} (hf : ((s1.copyOwnParts o parts).copyOwn o (.scr o.wg) l n).engFetch o.eng parts = .ok s2 bs) :
    s.copyPart o g l = (s2.copyPut o.wg false l bs).copyLanded o n (dfield o.desc 143 128) := by
  simp [State.copyPart, copyDims, hdir, hn, hp, hf, copyRes]

theorem State.copyPart_read_fault (hdir : dfield o.desc 101 99 = 0) {fl : Flt}
    (hp : s.engParts o.eng .rd clsAny g n = .stop (.fault s1 fl)) :
    s.copyPart o g l = s1.copyFault o (copySub fl) (fl.addr.getD 0) false := by
  simp [State.copyPart, copyDims, hdir, hn, hp, copyRes]

theorem State.copyPart_to_tob (hdir : dfield o.desc 101 99 = 2) :
    s.copyPart o g l =
      let t := (s.copyOwn o (.scr o.src) g n).copyOwn o (.tob o.wg) l n
      (t.copyPut o.wg true l (t.copyWin o.src g n)).copyLanded o n (dfield o.desc 143 128) := by
  simp [State.copyPart, copyDims, hdir, hn]

end

/-- COPY_TRANSFER of a copy that has started transfers its next part. -/
theorem exec_copyTransfer_started (hfind : (s.copies.find? fun p => p.id == o.id) = some o) (hk : o.kind = .copy)
    (hheld : o.held = false) (hst : o.started = true) :
    exec (.copyTransfer o.id) s = .next ((s.setOp o.id fun o => some { o with started := true }).copyNext o) := by
  have hsame : { o with started := true } = o := by rw [← hst]
  change execCopyTransfer o.id s = _
  simp only [execCopyTransfer, hfind, hsame]
  simp [hk, hheld, hst]

/-! ### Halos (R216) -/

theorem exec_copyTransfer_halo (hfind : (s.copies.find? fun p => p.id == o.id) = some o) (hk : o.kind = .halo)
    (hst : o.started = true) : exec (.copyTransfer o.id) s = .next (s.haloNext o) := by
  change execCopyTransfer o.id s = _
  simp [execCopyTransfer, hfind, hk, hst]

/-- A part of a halo that lies in the partner's window is read there and written to the local one. -/
theorem State.haloNext_within {src dst n : Nat} (hsrc : dfield o.desc 95 64 + o.run * dfield o.desc 191 160 + o.off = src)
    (hdst : dfield o.desc 127 96 + o.run * dfield o.desc 223 192 + o.off = dst)
    (hn : grainPart dst (dfield o.desc 143 128 - o.off) = n) (h : src + n ≤ s.scrSize o.src) :
    s.haloNext o =
      let t := s.copyOwn o (.scr o.wg) dst n
      (t.copyPut o.wg false dst (t.copyWin o.src src n)).copyLanded o n (dfield o.desc 143 128) := by
  subst hsrc hdst hn
  exact if_neg (Nat.not_lt.mpr h)

/-- HALO_START of a halo whose cluster barrier's phase is complete, and whose workgroup is not being saved. -/
theorem exec_haloStart_of_done (hfind : (s.copies.find? fun p => p.id == o.id) = some o) {b : BarRef} {ph : Word}
    (hw : o.wait = some (b, ph)) (hst : o.started = false) (hdone : phaseDone (s.bar b).gen ph.toNat = true)
    (hwg : ∀ y, s.wgs.find o.wg = some y → y.saving = false ∧ y.saved = false)
    (hf : s.force (.engine (some (.thread o.w o.lane)) [o.core] []) .cls = some s1) :
    exec (.haloStart o.id) s = .next ((s1.pullFor o.w .cls).setOp o.id fun o => some { o with started := true }) := by
  change execHaloStart o.id s = _
  unfold execHaloStart
  simp only [hfind, hw, hst, hdone, hf]
  cases hy : s.wgs.find o.wg with
  | none => rfl
  | some y =>
    obtain ⟨hsaving, hsaved⟩ := hwg y hy
    simp [hsaving, hsaved]

end

/-! ### The statement -/

/-- Settles O40: a copy by the direction of its part, the landing by what is left, a halo by its own part and its start. -/
theorem copiesMove : Obligations.CopiesMove := by
  unfold Obligations.CopiesMove
  intro s s1 s2 o parts bs fl hfind d0 i j l g n r
  refine ⟨fun hk hheld hst hmode => ?copy,
    fun t b m run hb => ⟨State.copyLanded_mem_of_more run hb, State.copyLanded_last run hb⟩, ?halo,
    fun b ph hw hst hdone hwg hf => exec_haloStart_of_done hfind hw hst hdone hwg hf⟩
  case copy =>
    rw [exec_copyTransfer_started hfind hk hheld hst, State.copyNext_of_plain hmode]
    exact ⟨fun hdir hp hf => congrArg _ (State.copyPart_to_scratch rfl hdir hp hf),
      fun hdir hp => congrArg _ (State.copyPart_read_fault rfl hdir hp),
      fun hdir => congrArg _ (State.copyPart_to_tob rfl hdir)⟩
  case halo =>
    intro hk hst src dst m hfits
    rw [exec_copyTransfer_halo hfind hk hst, State.haloNext_within rfl rfl rfl hfits]
    rfl

end Sys2Proof.Machine
end
section
/-! PROOFS. The barrier instructions (R197, R200 to R206, R304): the object that an operand names, what each of them does to it, the
fence among a thread's accesses, and the arrival of a watch (O37). -/

namespace Sys2Proof.Machine

open Sys2Proof

/-! ### The operand (R197, R207) -/

/-- The checks of R207 on an operand whose place in a window is known. -/
theorem State.barAt_of_place {s : State} {x : Wave} {rmt : Bool} {addr : Nat} {b : BarRef} (h : s.winPlace x rmt addr = .ok b) :
    s.barAt x rmt addr =
      if addr % 32 ≠ 0 then .error { code := 2, sub := 1, addr := some addr }
      else if s.scrSize b.wg < b.off + 32 then .error { code := 7, sub := 0, addr := some addr }
      else if barBad (s.barRaw b) then .error { code := 7, sub := 2, addr := some addr }
      else .ok b := by
  unfold State.barAt
  rw [h]

theorem State.onBar_of_place {r r1 r2 : State} {c : Ctx} {l : Nat} {rmt : Bool} {b : BarRef} (g : State → BarRef → Lane)
    (hi : r.barIssue c.w l c.id = some r1) (h1 : r1.winPlace c.x rmt (c.barAddr l) = .ok b)
    (hs : r1.settleOwn c.w l c.id (.scr b.wg) b.off 32 = some r2) (h2 : r2.winPlace c.x rmt (c.barAddr l) = .ok b) :
    r.onBar c l rmt g =
      if c.barAddr l % 32 ≠ 0 then .fault r2 { code := 2, sub := 1, addr := some (c.barAddr l) }
      else if r2.scrSize b.wg < b.off + 32 then .fault r2 { code := 7, sub := 0, addr := some (c.barAddr l) }
      else if barBad (r2.barRaw b) then .fault r2 { code := 7, sub := 2, addr := some (c.barAddr l) }
      else g r2 b := by
  simp only [State.onBar, hi, h1, hs, State.barAt_of_place h2]
  by_cases hal : c.barAddr l % 32 ≠ 0
  · simp only [if_pos hal]
  by_cases hin : r2.scrSize b.wg < b.off + 32
  · simp only [if_neg hal, if_pos hin]
  by_cases hbad : barBad (r2.barRaw b) = true
  · simp only [if_neg hal, if_neg hin, if_pos hbad]
  · simp only [if_neg hal, if_neg hin, if_neg hbad]

/-! ### Setting an object afresh, and its byte target (R201, R203) -/

section

variable {r : State} {b : BarRef} {n : Nat}

section

variable (hlow : 0 < n) (hhigh : n < 2 ^ 24)
include hlow hhigh

theorem State.barInitLane_unwatched (h : (r.bar b).wch = 0) :
    r.barInitLane b n = .ok (r.putBar b ⟨0, false, false, 0, n, n, 0, 0, 0⟩) [] := by
  unfold State.barInitLane
  rw [if_neg (by omega), if_neg (by omega), State.barStep_of_open (.inl (Nat.pos_iff_ne_zero.mp hlow))]

theorem State.barInitLane_watched (h : (r.bar b).wch ≠ 0) : r.barInitLane b n = .fault r { code := 7, sub := 5 } := by
  unfold State.barInitLane
  rw [if_neg (by omega), if_pos h]

end

theorem State.expectLane_eq (r : State) (b : BarRef) (n : Nat) :
    r.expectLane b n = if (r.bar b).btgt + n < 2 ^ 32 then
      .ok (r.barStep b { r.bar b with btgt := (r.bar b).btgt + n }) [] else .fault r { code := 7, sub := 4 } := by
  simp only [State.expectLane, ← not_lt, ite_not]

theorem State.barSettle_eq (r : State) (b : BarRef) :
    r.barSettle b = if (r.bar b).pend = 0 ∧ (r.bar b).blnd = (r.bar b).btgt then r.barStep b (r.bar b) else r := rfl

theorem State.barSettle_of_open (h : (r.bar b).pend ≠ 0 ∨ (r.bar b).blnd ≠ (r.bar b).btgt) : r.barSettle b = r :=
  if_neg fun hd => h.elim (· hd.1) (· hd.2)

theorem State.barSettle_of_complete (hp : (r.bar b).pend = 0) (hl : (r.bar b).blnd = (r.bar b).btgt) :
    r.barSettle b = r.barStep b (r.bar b) := if_pos ⟨hp, hl⟩

end

/-! ### Waits (R204) -/

section

variable {r : State} {c : Ctx} {l : Nat} {ord : SyncOrd} {scope : Scope} {b : BarRef}

section

variable (ho : (r.bar b).pend ≠ 0 ∨ (r.bar b).blnd ≠ (r.bar b).btgt)
include ho

/-- A wait for a phase that has completed returns once its acquire, if it makes one, is made. -/
theorem State.waitLane_done {r1 : State} (h : phaseDone (r.bar b).gen (c.b l) = true)
    (ha : (if ord = .acq then r.acquireAt c.w l scope else some r) = some r1) :
    r.waitLane c l ord scope b = .ok r1 [(r.bar b).status (c.b l)] := by
  unfold State.waitLane
  simp only [State.barSettle_of_open ho, h, if_true, ha]

theorem State.waitLane_blocks (h : phaseDone (r.bar b).gen (c.b l) = false) :
    r.waitLane c l ord scope b =
      .block { r with nextId := r.nextId + 2 } (.phase b.wg b.off (BitVec.ofNat 32 (c.b l)) (c.dstOf l l 1)
        (if ord = .acq then some scope else none) r.nextId c.pc c.npc) := by
  unfold State.waitLane
  simp only [State.barSettle_of_open ho, h, Bool.false_eq_true, if_false]

end

/-- A wait whose own step completes its phase returns with the status of that phase. -/
theorem State.waitLane_completes (hp : (r.bar b).pend = 0) (hl : (r.bar b).blnd = (r.bar b).btgt)
    (h : phaseDone (r.bar b).gen (c.b l) = false) (hord : ord ≠ .acq)
    (hdone : phaseDone ((r.barStep b (r.bar b)).bar b).gen (c.b l) = true) :
    r.waitLane c l ord scope b = .ok (r.barStep b (r.bar b)) [((r.barStep b (r.bar b)).bar b).status (c.b l)] := by
  unfold State.waitLane
  simp only [State.barSettle_of_complete hp hl, h, hdone, Bool.false_eq_true, if_false, if_true, if_neg hord]

end

/-! ### Arrivals (R202) -/

/-- The arrival that a wave has open on an object. -/
def Wave.instOn (x : Wave) (b : BarRef) : Option ArrInst := x.arrs.find? fun a => decide (a.bar = b)

/-- An open arrival, with a lane joined to it where it is on an object. -/
def ArrInst.join (a : ArrInst) (b : BarRef) (l : Nat) : ArrInst :=
  if a.bar = b then { a with arrived := a.arrived ||| maskOf [l] } else a

@[simp] theorem ArrInst.join_bar (a : ArrInst) (b : BarRef) (l : Nat) : (a.join b l).bar = a.bar := by
  unfold ArrInst.join
  split <;> rfl

/-- The lanes that stand in that arrival once a lane has joined it. -/
def Wave.arrivedWith (x : Wave) (l : Nat) (b : BarRef) : Word :=
  (match x.instOn b with | some a => a.arrived | none => 0) ||| maskOf [l]

theorem Wave.arrivedWith_congr {x y : Wave} (h : y.arrs = x.arrs) (l : Nat) (b : BarRef) :
    y.arrivedWith l b = x.arrivedWith l b := by
  simp only [Wave.arrivedWith, Wave.instOn, h]

/-- The mask of an arrival names its lane, and in a Caller that lane alone. -/
def Wave.MaskFits (x : Wave) (m : Word) (l : Nat) : Prop := (x.kind = .caller → m = 1) ∧ maskHas m l = true

section

variable {x : Wave} {l : Nat} {b : BarRef} {m : Word}

theorem Wave.arriveBad_of_unfit (h : ¬ x.MaskFits m l) :
    x.arriveBad (x.kind = .caller) l b m = some { code := 0x19, sub := 2, det0 := m.toNat } := by
  unfold Wave.arriveBad
  by_cases hc : x.kind = .caller ∧ m ≠ 1
  · exact if_pos (by simpa using hc)
  · have hlane : maskHas m l = false := by
      rw [Bool.eq_false_iff]
      exact fun hl => h ⟨fun hk => by_contra fun hm => hc ⟨hk, hm⟩, hl⟩
    simp [hlane]

section

variable (h : x.MaskFits m l)
include h

/-- Of a mask that fits, the arrival open on the object decides, and where there is none, how many the wave has open. -/
theorem Wave.arriveBad_of_fits :
    x.arriveBad (x.kind = .caller) l b m = (x.instOn b).elim
      (if 16 ≤ x.arrs.length then some { code := 0x19, sub := 4, det0 := m.toNat } else none)
      fun a => if a.mask ≠ m then some { code := 0x19, sub := 1, det0 := a.mask.toNat } else none := by
  obtain ⟨hcaller, hlane⟩ := h
  have hc : (decide (x.kind = .caller) && m != 1) = false := by simpa using hcaller
  simp only [Wave.arriveBad, hc, hlane, Bool.not_true, Bool.false_eq_true, if_false]
  rw [Wave.instOn]
  cases x.arrs.find? fun a => decide (a.bar = b) with
  | none => rfl
  | some a => rfl

theorem Wave.arriveBad_of_other_mask {a : ArrInst} (ha : x.instOn b = some a) (hne : a.mask ≠ m) :
    x.arriveBad (x.kind = .caller) l b m = some { code := 0x19, sub := 1, det0 := a.mask.toNat } := by
  rw [Wave.arriveBad_of_fits h, ha]
  exact if_pos hne

theorem Wave.arriveBad_of_full (hnone : x.instOn b = none) (hfull : 16 ≤ x.arrs.length) :
    x.arriveBad (x.kind = .caller) l b m = some { code := 0x19, sub := 4, det0 := m.toNat } := by
  rw [Wave.arriveBad_of_fits h, hnone]
  exact if_pos hfull

theorem Wave.arriveBad_of_admitted (hm : ∀ a, x.instOn b = some a → a.mask = m)
    (hroom : x.instOn b = none → x.arrs.length < 16) :
    x.arriveBad (x.kind = .caller) l b m = none := by
  rw [Wave.arriveBad_of_fits h]
  cases ha : x.instOn b with
  | none => exact if_neg (Nat.not_le.mpr (hroom ha))
  | some a => exact if_neg (not_not.mpr (hm a ha))

end

theorem Wave.any_on_eq (x : Wave) (b : BarRef) : (x.arrs.any fun a => decide (a.bar = b)) = (x.instOn b).isSome := by
  rw [Bool.eq_iff_iff, Wave.instOn, List.find?_isSome, List.any_eq_true]

theorem Wave.arriveAt_eq (x : Wave) (l : Nat) (b : BarRef) (m : Word) :
    x.arriveAt l b m = { x with
      arrs := if (x.instOn b).isSome then x.arrs.map fun a => a.join b l else x.arrs ++ [⟨b, m, x.arrivedWith l b⟩] } := by
  unfold Wave.arriveAt Wave.arrivedWith
  rw [Wave.any_on_eq]
  cases x.instOn b with
  | none => simp
  | some a => rfl

/-- A lane that joins an arrival of its mask, or opens one, leaves it with the lanes that stand in it. -/
theorem Wave.instOn_arriveAt (hm : ∀ a, x.instOn b = some a → a.mask = m) :
    (x.arriveAt l b m).instOn b = some ⟨b, m, x.arrivedWith l b⟩ := by
  rw [Wave.arriveAt_eq, Wave.arrivedWith, Wave.instOn]
  cases ha : x.instOn b with
  | none =>
    rw [Wave.instOn] at ha
    simp [List.find?_append, ha]
  | some a =>
    have hbar : a.bar = b := by simpa using List.find?_some ha
    have hjoin : a.join b l = ⟨b, m, a.arrived ||| maskOf [l]⟩ := by
      subst hbar
      simp [ArrInst.join, ← hm a ha]
    rw [Wave.instOn] at ha
    simp [List.find?_map, ha, hjoin]

@[simp] theorem Wave.arriveAt_allIn (x : Wave) (l : Nat) (b : BarRef) (m k a : Word) :
    (x.arriveAt l b m).allIn k a = x.allIn k a := by
  rw [Wave.arriveAt_eq]
  rfl

end

section

variable {r : State} {c : Ctx} {l : Nat} {ord : SyncOrd} {scope : Scope} {b : BarRef} {x : Wave}
  (hx : r.waves.find c.w = some x)
include hx

theorem State.arriveLane_refused {f : Flt} (h : x.arriveBad (x.kind = .caller) l b (BitVec.ofNat 32 (c.b l)) = some f) :
    r.arriveLane c l ord scope b = .fault r f := by
  simp only [State.arriveLane, hx, Option.getD_some, h]

variable {r1 : State} {y : Wave} {m arrived : Word} (hm : BitVec.ofNat 32 (c.b l) = m)
  (hok : x.arriveBad (x.kind = .caller) l b m = none)
  (hrel : ((if ord = .rel then r.releaseLag c.w l scope c.id else some r).bind fun r => r.fencedRelease c.w l) = some r1)
  (hy : r1.waves.find c.w = some y) (hin : (y.arriveAt l b m).instOn b = some ⟨b, m, arrived⟩)
include hm hok hrel hy hin

theorem State.arriveLane_joins (h : y.allIn m arrived = false) :
    r.arriveLane c l ord scope b =
      .ok ((r1.setWave c.w (y.arriveAt l b m)).barSettle b) [BitVec.ofNat 32 (r1.bar b).gen] := by
  rw [Wave.instOn] at hin
  simp [State.arriveLane, hx, hm, hok, hrel, hy, hin, h]

theorem State.arriveLane_nothing_pending (h : y.allIn m arrived = true) (hp : (r1.bar b).pend = 0) :
    r.arriveLane c l ord scope b = .fault r1 { code := 7, sub := 3 } := by
  rw [Wave.instOn] at hin
  simp [State.arriveLane, hx, hm, hok, hrel, hy, hin, h, State.barArrive_of_nothing_pending hp]

theorem State.arriveLane_last (h : y.allIn m arrived = true) (hp : (r1.bar b).pend ≠ 0) {z : Wave}
    (hz : (r1.barStep b { r1.bar b with pend := (r1.bar b).pend - 1 }).waves.find c.w = some z) :
    r.arriveLane c l ord scope b =
      .ok ((r1.barStep b { r1.bar b with pend := (r1.bar b).pend - 1 }).setWave c.w
        { z with arrs := z.arrs.filter fun a => !decide (a.bar = b) }) [BitVec.ofNat 32 (r1.bar b).gen] := by
  have harr : r1.barArrive b = some (r1.barStep b { r1.bar b with pend := (r1.bar b).pend - 1 }) := if_neg hp
  rw [Wave.instOn] at hin
  simp [State.arriveLane, hx, hm, hok, hrel, hy, hin, h, harr, hz]

end

/-! ### Watches (R205) -/

section

variable {r r1 r2 : State} {c : Ctx} {p : Part} {l : Nat} {b : BarRef} (hal : c.b l 2 % 8 = 0)
  (hr : r.reach (c.x.agent c.w) .rd clsHome .base (c.b l 2) 8 = .ok r1 [p])
include hal hr

theorem State.cwatchLane_full (h : 512 ≤ r1.watchesAt p.key ∨ (r1.bar b).wch = 255) : r.cwatchLane c l b = .ok r1 [1] := by
  unfold State.cwatchLane
  extract_lets va target
  rw [misaligned_of_dvd hal, hr]
  exact if_pos h

theorem State.cwatchLane_taken (h : ¬(512 ≤ r1.watchesAt p.key ∨ (r1.bar b).wch = 255))
    (he : r1.engineIssue c.w l c.id = some r2) :
    r.cwatchLane c l b =
      .ok (({ r2 with nextId := r2.nextId + 1, watches := r2.watches ++
          [⟨r2.nextId, p.key, BitVec.ofNat 64 (if c.e.f.isS then 0 else c.c l 2), some b, none, c.x.rgn,
            r2.tagOf c.x.rgn, some (c.w, l)⟩] } : State).barStep b { r2.bar b with wch := (r2.bar b).wch + 1 }) [0] := by
  unfold State.cwatchLane
  extract_lets va target
  rw [misaligned_of_dvd hal, hr]
  dsimp only
  rw [if_neg h, he]

end

/-- CWATCH_ARRIVAL of a watch whose counter has reached its target. -/
theorem exec_cwatchArrival_of_reached {s s0 : State} {n : Nat} {x : Watch} {b : BarRef}
    (hfind : (s.watches.find? fun y => y.id == n) = some x) (hb : x.bar = some b)
    (ht : x.target.toNat ≤ leBytes (s.homeBytes none x.key 8)) (hf : s.force x.party .dev = some s0) :
    exec (.cwatchArrival n) s =
      let r := { s0 with watches := s0.watches.filter fun y => y.id != n }
      .next (r.barStep b
        (if (r.bar b).pend = 0 then { r.bar b with wch := (r.bar b).wch - 1, fltc := true }
         else { r.bar b with wch := (r.bar b).wch - 1, pend := (r.bar b).pend - 1 })) := by
  change execCwatchArrival n s = _
  unfold execCwatchArrival
  simp only [hfind, hb, if_neg (Nat.not_lt.mpr ht), hf]

/-! ### Fences (R206, R304) -/

section

variable (scope : Scope) {t : Thread}

theorem Thread.lastLoad_none (h : ∀ a ∈ t.accs, a.kind.reads = false) : t.lastLoad = none := by
  have : (t.accs.filter fun a => a.kind.reads) = [] := List.filter_eq_nil_iff.mpr fun a ha => by simp [h a ha]
  simp [Thread.lastLoad, this]

/-- A fence of a thread that has no load and no release waiting. -/
theorem Thread.fence_idle (h : ∀ a ∈ t.accs, a.kind.reads = false) (hf : t.fenced = none) (ord : Ord) :
    t.fence ord scope = if ord.releases then { t with fenced := some scope } else t := by
  have hrel : ({ t with fenced := some scope } : Thread).lastLoad = none := Thread.lastLoad_none h
  unfold Thread.fence
  cases ord.releases <;> simp [hf, hrel, Thread.lastLoad_none h]

/-- An acquire makes the one load that waits an acquire. -/
theorem Thread.fence_acq_load {a : Acc} (h : t.accs = [a]) (hr : a.kind.reads = true) (ho : a.ord = .plain) :
    t.fence .acq scope = { t with accs := [{ a with ord := .acq, scope := scope }] } := by
  have hacq : a.acquire scope = { a with ord := .acq, scope := scope } := by simp [Acc.acquire, ho, Ord.releases, Ord.acquires]
  simp [Thread.fence, Thread.lastLoad, Thread.setAcc, Ord.releases, Ord.acquires, h, hr, hacq]

end

theorem SyncOrd.fence_eq (ord : SyncOrd) :
    SyncOrd.fence ord = if ord = .acq then .acq else if ord = .rel then .rel else .ar := by
  cases ord <;> rfl

/-! ### The statement -/

/-- Settles O37: each instruction acts lane by lane; what a lane does, by what its object holds. -/
theorem barrierInstructions : Obligations.BarrierInstructions := by
  unfold Obligations.BarrierInstructions
  intro f ord scope rmt s s1 c
  refine ⟨perLane_lanes, perLane_lanes, perLane_lanes, perLane_lanes, perLane_lanes, ?fence, ?idle,
    fun t a => Thread.fence_acq_load scope, fun r r1 r2 l b g => State.onBar_of_place g,
    fun r b n hlow hhigh => ⟨State.barInitLane_unwatched hlow hhigh, State.barInitLane_watched hlow hhigh⟩,
    State.expectLane_eq, ?wait, ?arrive, State.barSettle_eq,
    fun r r1 r2 p l b hal hr => ⟨State.cwatchLane_full hal hr, State.cwatchLane_taken hal hr⟩,
    fun n x b s0 => exec_cwatchArrival_of_reached⟩
  case fence =>
    intro h
    rw [← SyncOrd.fence_eq]
    exact perLane_lanes h
  case idle =>
    intro t hreads hf
    simp only [Thread.fence_idle scope hreads hf]
    exact ⟨rfl, rfl, rfl⟩
  case wait =>
    intro r l b
    refine ⟨fun ho => ⟨fun hdone hord => ?_, fun hdone r1 hord hacq => ?_, State.waitLane_blocks ho⟩,
      fun hp hl h hord => State.waitLane_completes hp hl h hord⟩
    · rw [← Bar.status_eq]
      exact State.waitLane_done ho hdone (if_neg hord)
    · rw [← Bar.status_eq]
      exact State.waitLane_done ho hdone ((if_pos hord).trans hacq)
  case arrive =>
    intro r x l b hx m held fits
    refine ⟨fun h => State.arriveLane_refused hx (Wave.arriveBad_of_unfit h),
      fun h a ha hne => State.arriveLane_refused hx (Wave.arriveBad_of_other_mask h ha hne),
      fun h hnone hfull => State.arriveLane_refused hx (Wave.arriveBad_of_full h hnone hfull), ?_⟩
    intro h hm hroom r1 y hrel hy harrs arrived gen
    have hok := Wave.arriveBad_of_admitted h hm hroom
    have hinst : y.instOn b = held := congrArg (List.find? _) harrs
    have hwith : y.arrivedWith l b = arrived := Wave.arrivedWith_congr harrs l b
    have hin : (y.arriveAt l b m).instOn b = some ⟨b, m, arrived⟩ := by
      rw [← hwith]
      exact Wave.instOn_arriveAt fun a ha => hm a (hinst ▸ ha)
    refine ⟨fun hopen => ?_, State.arriveLane_nothing_pending hx rfl hok hrel hy hin, fun hall hp => ?_⟩
    · rw [State.arriveLane_joins hx rfl hok hrel hy hin hopen, Wave.arriveAt_eq, hinst, hwith, harrs]
      rfl
    · intro r2 z hz
      exact State.arriveLane_last hx rfl hok hrel hy hin hall hp hz

end Sys2Proof.Machine
end
section
/-! PROOFS. The issue of copies and halos (R212, R213, R216): the descriptor, the ranges it names, and the slot of an operation
(O39). -/

namespace Sys2Proof.Machine

open Sys2Proof

/-- An instruction whose requests fit, and whose lanes act one after another, leaves the state after they have acted. -/
theorem perLaneIf_lanes {i : Instr} {s s1 : State} {fits : Ctx → State → Bool} {g : Ctx → State → Nat → Lane} {c : Ctx}
    (h : BeginsIf i s fits c s1) : perLaneIf i s fits g = .next (s1.lanes c (g c)) := perLane_go h

/-! ### Copies (R212, R213) -/

section

variable {r r1 : State} {c : Ctx} {l : Nat} {dg ck : Bool} {d : BitVec 512}

/-- A copy whose descriptor is read goes on with its addresses in it. -/
theorem State.copyLane_of_desc
    (h : (if dg then r.readDesc c l (addrSum (c.a l 2) 0 1 c.immX 64) 64
      else r.winDesc c l (addrSum (c.a l) 0 1 c.immX 32) 64) = .ok r1 d)
    {e : BitVec 512} (he : (if c.e.f.c = .zeroLit then d else dput d 63 0 (c.c l 2)) = e) :
    r.copyLane c l dg ck = r1.copyStart c l ck (dput e 95 64 (c.localPlus (dfield e 95 64))) := by
  unfold State.copyLane
  simp only [h, he]

theorem State.copyStart_ill_formed (h : copyBad d = true) : r.copyStart c l ck d = .fault r { code := 0x0A, sub := 1 } := if_pos h

section

variable {wg off : Nat} (hbad : copyBad d = false) (hdir : dfield d 101 99 ≠ 2)
  (hp : r.winPlace c.x false (dfield d 95 64) = .ok ⟨wg, off⟩) (h0 : r.winPlace c.x false 0 = .ok ⟨wg, 0⟩)
include hbad hdir hp h0

theorem State.copyStart_beyond
    (hfits : copyFits d off (if dfield d 101 99 = 3 then r.tobSize wg else r.scrSize wg) = false) :
    r.copyStart c l ck d = .fault r
      { code := 7, sub := if dfield d 101 99 = 3 then 1 else 0, addr := some (dfield d 95 64), wr := dfield d 101 99 != 1 } := by
  simp [State.copyStart, hbad, hdir, hp, h0, hfits]

theorem State.copyStart_takes_slot {done : Done}
    (hfits : copyFits d off (if dfield d 101 99 = 3 then r.tobSize wg else r.scrSize wg) = true)
    (hdone : r.doneOf c l ck = .ok (r1, done)) :
    r.copyStart c l ck d = r1.putOp (c.op r1 l .copy wg wg (dput d 95 64 off)
      (dfield d 143 128 * dfield d 175 160 * dfield d 191 176) done) := by
  simp [State.copyStart, copyDims, hbad, hdir, hp, h0, hfits, hdone]

end

/-! ### Halos (R216) -/

theorem State.haloLane_ill_formed {d0 : BitVec 512} (hread : r.winDesc c l (addrSum (c.a l) 0 1 c.immX 32) 32 = .ok r1 d0)
    (hd : dput d0 127 96 (c.localPlus (dfield d0 127 96)) = d) (hbad : haloBad d = true) :
    r.haloLane c l = .fault r1 { code := 0x0A, sub := 1 } := by
  unfold State.haloLane
  simp only [hread, hd, if_pos hbad]

theorem State.haloLane_takes_slot {d0 : BitVec 512} {src : Nat} {b e : BarRef}
    (hread : r.winDesc c l (addrSum (c.a l) 0 1 c.immX 32) 32 = .ok r1 d0)
    (hd : dput d0 127 96 (c.localPlus (dfield d0 127 96)) = d) (hbad : haloBad d = false)
    (hin : dfield d 127 96 + (dfield d 159 144 - 1) * dfield d 223 192 + dfield d 143 128 ≤ r1.scrSize c.x.wg)
    (hsrc : r1.partnerOf c.x (dfield d 1 0) = some src) (hb : r1.barAt c.x true (dfield d 255 224) = .ok b)
    (he : r1.barAt c.x false (c.b l) = .ok e) :
    r.haloLane c l = r1.putOp { c.op r1 l .halo c.x.wg src d (dfield d 159 144 * dfield d 143 128) (.bar e) with
      wait := some (b, BitVec.ofNat 32 (c.c l)) } := by
  subst hd
  unfold State.haloLane
  rw [hread]
  refine (if_neg (Bool.eq_false_iff.mp hbad)).trans ((if_neg (Nat.not_lt.mpr hin)).trans ?_)
  rw [hsrc, hb, he]

end

/-! ### The statement -/

/-- Settles O39: the lanes act one after another; a lane goes on with the descriptor that it reads, and its operation takes a slot
where one is free (`State.putOp`). -/
theorem copiesIssue : Obligations.CopiesIssue := by
  unfold Obligations.CopiesIssue
  intro f dg ck s s1 c
  refine ⟨perLaneIf_lanes, perLaneIf_lanes, fun r r1 l d h => State.copyLane_of_desc h rfl,
    fun r r1 l d wg off done => ⟨State.copyStart_ill_formed, ?copy⟩,
    fun r r1 l src d0 b e hread => ⟨State.haloLane_ill_formed hread rfl, ?halo⟩⟩
  case copy =>
    intro hbad hdir hp h0
    exact ⟨State.copyStart_beyond hbad hdir hp h0, State.copyStart_takes_slot hbad hdir hp h0⟩
  case halo =>
    exact State.haloLane_takes_slot hread rfl

end Sys2Proof.Machine
end

section
/-! PROOFS. Every step keeps memory in its canonical form (O2): what it means of the answers of the model's operations. -/

namespace Sys2Proof

open Sys2Proof.Machine

namespace Machine

/-! ### Answers whose states keep memory in order

The two writes of memory are `State.homeWrite` and the promotion of versions; every other operation passes memory on as it is. -/

def Perf.memOk (p : Perf) : Prop := MemInv p.s

def PartsRes.memOk (p : PartsRes) : Prop := MemInv p.s

def Start.memOk : Start → Prop
  | .stop s | .go _ s => MemInv s

def TransRes.memOk : TransRes → Prop
  | .ok s _ | .fault s _ | .quota s _ | .wait s => MemInv s

def Trans2.memOk : Trans2 → Prop
  | .ok s _ | .fault s _ _ | .quota s _ | .wait s => MemInv s

def ChargeRes.memOk : ChargeRes → Prop
  | .ok s => MemInv s
  | .beyond _ => True

def EngRes.memOk : EngRes → Prop
  | .ok s _ | .fault s _ | .poison s _ _ | .full s _ | .quota s _ | .wait s => MemInv s

def EngParts.memOk : EngParts → Prop
  | .ok s _ => MemInv s
  | .stop r => r.memOk

def SwRes.memOk {β : Type} : SwRes β → Prop
  | .ok s _ => MemInv s
  | .stop r => r.memOk

def FetchRes.memOk : FetchRes → Prop
  | .got s _ | .bad s | .wait s => MemInv s

def Lane.memOk : Lane → Prop
  | .ok s _ | .fault s _ | .quota s _ | .stay s | .gone s | .pend s _ | .block s _ => MemInv s

def DescRes.memOk : DescRes → Prop
  | .ok s _ => MemInv s
  | .stop r => r.memOk

def URes.memOk : URes → Prop
  | .ok s _ | .poison s => MemInv s
  | .stop r => r.memOk

def URun.memOk : URun → Prop
  | .ok s _ => MemInv s
  | .stop r => r.memOk

def Surface.memOk : Surface → Prop
  | .ok s _ | .bad s _ _ => MemInv s

def Fetched.memOk : Fetched → Prop
  | .instr s _ | .filler s | .bad s _ | .fault s _ | .quota s _ | .wait s => MemInv s
  | .idle => True

end Machine

/-- What a step answers keeps memory in its canonical form. -/
def OutMemOk : Host.Outcome State Fault Refusal → Prop
  | .next s => MemInv s
  | _ => True

namespace Machine

theorem Perf.memOk.intro {p : Perf} (h : MemInv p.s) : p.memOk := h
theorem Perf.memOk.s {p : Perf} (h : p.memOk) : MemInv p.s := h
theorem PartsRes.memOk.intro {p : PartsRes} (h : MemInv p.s) : p.memOk := h
theorem PartsRes.memOk.s {p : PartsRes} (h : p.memOk) : MemInv p.s := h

end Machine

/-! ### What follows an answer -/

/-- What follows the reach of a home. -/
theorem Machine.reachedThen_memOk {r : Except Lane (State × Nat)} {f : State → Nat → Lane}
    (hr : ExcAll Lane.memOk (FstAll MemInv) r) (hf : ∀ s1 key, MemInv s1 → (f s1 key).memOk) :
    (match (generalizing := false) r with | .error x => x | .ok (s1, key) => f s1 key : Lane).memOk := by
  cases r with
  | error x => exact hr
  | ok p => exact hf _ _ hr

/-- What follows a release, which may have to wait. -/
theorem Machine.releasedThen_memOk {o : Option State} {t : State} {f : State → Lane} (ho : OptAll MemInv o)
    (ht : MemInv t) (hf : ∀ s1, MemInv s1 → (f s1).memOk) :
    (match (generalizing := false) o with | none => .stay t | some s1 => f s1 : Lane).memOk := by
  cases o with
  | none => exact ht
  | some s1 => exact hf _ (ho _ rfl)

/-- A lane that has done one thing and goes on to another. -/
theorem Machine.Lane.memOk.andThen {r : Lane} {f : State → List Word → Lane} (hr : r.memOk)
    (hf : ∀ s1 ws, MemInv s1 → (f s1 ws).memOk) :
    (match (generalizing := false) r with | .ok s1 ws => f s1 ws | x => x : Lane).memOk := by
  cases r with
  | ok s1 ws => exact hf s1 ws hr
  | _ => exact hr

/-- What follows a translation: the lane faults, asks for room or waits, or goes on. -/
theorem Machine.Trans2.memOk.andThen {r : Trans2} {f : State → List Machine.Part → Lane} (hr : r.memOk)
    (hf : ∀ s1 ps, MemInv s1 → (f s1 ps).memOk) :
    (match (generalizing := false) r with
      | .fault s1 _ e => .fault s1 e
      | .quota s1 n => .quota s1 n
      | .wait s1 => .stay s1
      | .ok s1 ps => f s1 ps : Lane).memOk := by
  cases r with
  | ok s1 ps => exact hf s1 ps hr
  | _ => exact hr

/-- What follows a descriptor read. -/
theorem Machine.DescRes.memOk.andThen {r : DescRes} {f : State → BitVec 512 → Lane} (hr : r.memOk)
    (hf : ∀ s1 d, MemInv s1 → (f s1 d).memOk) :
    (match (generalizing := false) r with | .stop x => x | .ok s1 d => f s1 d : Lane).memOk := by
  cases r with
  | ok s1 d => exact hf s1 d hr
  | stop x => exact hr

/-- What follows the check of an address. -/
theorem Machine.unlessFault_memOk {o : Option Flt} {f : Flt → Lane} {x : Lane} (hf : ∀ e, (f e).memOk) (hx : x.memOk) :
    (match (generalizing := false) o with | some e => f e | none => x : Lane).memOk := by
  cases o with
  | some e => exact hf e
  | none => exact hx

/-- What follows the check of two addresses. -/
theorem Machine.unlessMisaligned_memOk {o p : Option Flt} {f g : Flt → Lane} {x : Lane}
    (hf : ∀ e, (f e).memOk) (hg : ∀ e, (g e).memOk) (hx : x.memOk) :
    (match (generalizing := false) o, p with | some e, _ => f e | none, some e => g e | none, none => x : Lane).memOk := by
  cases o with
  | some e => exact hf e
  | none =>
    cases p with
    | some e => exact hg e
    | none => exact hx

/-- What follows an engine's access: it goes on where the access is done, and otherwise its outcome says how. -/
theorem Machine.EngRes.memOk.andThen {α : Type} {P : α → Prop} {r : EngRes} {f : State → List Byte → α} {g : EngRes → α}
    (hr : r.memOk) (hf : ∀ s1 bs, MemInv s1 → P (f s1 bs)) (hg : ∀ x, x.memOk → P (g x)) :
    P (match (generalizing := false) r with | .ok s1 bs => f s1 bs | x => g x) := by
  cases r with
  | ok s1 bs => exact hf s1 bs hr
  | _ => exact hg _ hr

end Sys2Proof
end

section
/-! PROOFS. Every step keeps memory in its canonical form (O2): what the state, memory, translation and accesses keep. -/

namespace Sys2Proof

open Sys2Proof.Machine

/-! ### Physical memory -/

theorem MemInv.setCore {s : State} {g : Nat} {c : Core} (h : MemInv s) : MemInv (s.setCore g c) := h

theorem MemInv.setCluster {s : State} {k : Nat} {c : Cluster} (h : MemInv s) : MemInv (s.setCluster k c) := h

theorem MemInv.setDie {s : State} {d : Nat} {x : Die} (h : MemInv s) : MemInv (s.setDie d x) := h

theorem MemInv.setWave {s : State} {w : Nat} {x : Wave} (h : MemInv s) : MemInv (s.setWave w x) := h

theorem MemInv.updThread {s : State} {w lane : Nat} {g : Thread → Thread} (h : MemInv s) :
    MemInv (s.updThread w lane g) := h

theorem MemInv.updWg {s : State} {wg : Nat} {g : Wg → Wg} (h : MemInv s) : MemInv (s.updWg wg g) := h

theorem MemInv.fresh {s : State} (h : MemInv s) : SndAll MemInv s.fresh := h

theorem MemInv.clearResv {s : State} {pt : ResvAt} {grain : Nat} {by_ : Option (Nat × Nat)} (h : MemInv s) :
    MemInv (s.clearResv pt grain by_) := h

theorem MemInv.clearResvs {s : State} {pt : ResvAt} {key n : Nat} {by_ : Option (Nat × Nat)} (h : MemInv s) :
    MemInv (s.clearResvs pt key n by_) := by
  unfold State.clearResvs
  exact foldl_inv h (fun _ _ hs2 => hs2.clearResv)

theorem MemInv.healed {s : State} {key n : Nat} (h : MemInv s) : MemInv (s.healed key n) := h

theorem MemInv.countLife {s : State} {record : Nat} (h : MemInv s) : MemInv (s.countLife record) := h

theorem MemInv.countCorrected {s : State} (h : MemInv s) : MemInv s.countCorrected := h

theorem MemInv.addPoison {s : State} {key : Nat} (h : MemInv s) : MemInv (s.addPoison key) := by
  unfold State.addPoison
  split
  · exact h
  · extract_lets s1
    have hs1 : MemInv s1 := h
    exact ite_inv hs1.countLife hs1

theorem MemInv.makeWay {s : State} {line : Nat} (h : MemInv s) : OptAll MemInv (s.makeWay line) := by
  unfold State.makeWay
  extract_lets here
  split
  · exact OptAll.some h
  · split
    · exact OptAll.none
    · split
      rename_i s1 heq3
      have hs1 : MemInv s1 := h.fresh.of_eq heq3
      exact OptAll.some hs1

theorem MemInv.touch {s : State} {sector : Nat} {wr : Bool} (h : MemInv s) : MemInv (s.touch sector wr) := by
  unfold State.touch
  split
  · exact h
  · split
    · exact h
    · split
      · rename_i s1 heq3
        have hs1 : MemInv s1 := h.makeWay _ heq3
        exact hs1
      · exact h

theorem MemInv.setPoison {s : State} {sector : Nat} {p : BitVec 2} (h : MemInv s) : MemInv (s.setPoison sector p) := h

theorem MemInv.strikeGrain {s : State} {tag : Option (BitVec 5)} {key : Nat} (h : MemInv s) :
    MemInv (s.strikeGrain tag key) := by
  unfold State.strikeGrain
  split
  · split
    · extract_lets hit
      exact MemInv.countLife h
    · exact h.addPoison
  · exact h.addPoison

theorem MemInv.promote {s : State} {key : Nat} (h : MemInv s) : MemInv (s.promote key) := State.promote_wf key h

theorem MemInv.atHome {s : State} {key n : Nat} (h : MemInv s) : MemInv (s.atHome key n) := State.atHome_wf key n h

theorem MemInv.makeVersion {s : State} {set facet sector : Nat} (h : MemInv s) :
    OptAll MemInv (s.makeVersion set facet sector) := by
  unfold State.makeVersion
  split
  · exact OptAll.some h
  · rename_i y _
    extract_lets here ovf new beside
    have hnew : ∀ (s : State) (y : Bool), MemInv s → MemInv (new s y) := by
      intro _ _ hs2
      unfold new
      exact hs2
    have hbeside : OptAll MemInv beside := ite_inv (OptAll.some (hnew _ _ h)) OptAll.none
    split
    · split
      · rename_i s1 heq3
        have hs1 : MemInv s1 := (ite_inv (OptAll.some h) h.makeWay) _ heq3
        exact OptAll.some (hnew _ _ hs1.touch)
      · exact hbeside
    · exact hbeside

theorem MemInv.noteConst {s : State} {key n : Nat} {by_ : Option (Nat × Nat)} (h : MemInv s) :
    MemInv (s.noteConst key n by_) := by
  unfold State.noteConst
  extract_lets live old
  exact ite_inv h h

theorem MemInv.homeWrite1 {s : State} {tag : Option (BitVec 5)} {by_ : Option (Nat × Nat)} {key : Nat} {bs : List Byte}
    (h : MemInv s) : OptAll MemInv (s.homeWrite1 tag by_ key bs) := fun _ ht => State.homeWrite1_wf ht h

theorem MemInv.homeWrite {s : State} {tag : Option (BitVec 5)} {by_ : Option (Nat × Nat)} {key : Nat} {bs : List Byte}
    (h : MemInv s) : ExcAll (SndAll MemInv) MemInv (s.homeWrite tag by_ key bs) := by
  unfold State.homeWrite
  refine foldl_inv h ?_
  intro _ _ hs2
  split
  · exact hs2
  · split
    · rename_i s1 heq
      exact (MemInv.homeWrite1 hs2) _ heq
    · exact hs2

theorem MemInv.baseWrite {s : State} {key : Nat} {bs : List Byte} (h : MemInv s) : MemInv (s.baseWrite key bs) :=
  State.baseWrite_wf key bs h

theorem MemInv.putNum {s : State} {key n v : Nat} (h : MemInv s) : MemInv (s.putNum key n v) := by
  unfold State.putNum
  exact h.baseWrite

theorem MemInv.dropCopy {s : State} {g sector : Nat} (h : MemInv s) : MemInv (s.dropCopy g sector) := h

theorem MemInv.spread {s : State} {sector : Nat} {x : Copy} (h : MemInv s) : MemInv (s.spread sector x) := h

theorem MemInv.writeBack {s : State} {g sector : Nat} (h : MemInv s) : MemInv (s.writeBack g sector) := by
  unfold State.writeBack
  extract_lets c
  split
  · exact ite_inv h.setCore.baseWrite.spread h
  · exact h

theorem MemInv.writeBackAll {s : State} {g : Nat} (h : MemInv s) : MemInv (s.writeBackAll g) := by
  unfold State.writeBackAll
  exact foldl_inv h (fun _ _ hs2 => hs2.writeBack)

theorem MemInv.writeBackSvc {s : State} {g : Nat} (h : MemInv s) : MemInv (s.writeBackSvc g) := by
  unfold State.writeBackSvc
  exact foldl_inv h (fun _ _ hs2 => ite_inv hs2.writeBack hs2)

theorem MemInv.dropClean {s : State} {g : Nat} (h : MemInv s) : MemInv (s.dropClean g) := by
  unfold State.dropClean
  exact foldl_inv h (fun _ _ hs2 => ite_inv hs2.dropCopy hs2)

theorem MemInv.dropWhere {s : State} {g : Nat} {cond : Nat → Bool} (h : MemInv s) : MemInv (s.dropWhere g cond) := by
  unfold State.dropWhere
  exact foldl_inv h (fun _ _ hs2 => ite_inv hs2.writeBack.dropCopy hs2)

theorem MemInv.evict {s : State} {g sector : Nat} (h : MemInv s) : MemInv (s.evict g sector) := by
  unfold State.evict
  exact h.writeBack.dropCopy

theorem MemInv.makeRoom {s : State} {g : Nat} (h : MemInv s) : MemInv (s.makeRoom g) := by
  unfold State.makeRoom
  extract_lets l
  split
  rename_i s1 heq
  have hs1 : MemInv s1 := h.fresh.of_eq heq
  split
  · clear_value l
    split
    · exact h
    · exact hs1.evict
  · clear_value l
    split
    · exact h
    · exact hs1

theorem MemInv.fill {s : State} {g sector : Nat} {cls : PgCls} (h : MemInv s) : MemInv (s.fill g sector cls) := by
  unfold State.fill
  split
  · exact h
  · extract_lets s1 c d
    have hs1 : MemInv s1 := h.makeRoom.atHome
    exact hs1.setCore

theorem MemInv.coreRead {s : State} {g key n : Nat} {cls : PgCls} (h : MemInv s) :
    FstAll MemInv (s.coreRead g key n cls) := by
  unfold State.coreRead
  extract_lets s1
  exact foldl_inv h (fun _ _ hs2 => hs2.fill)

theorem MemInv.coreWrite {s : State} {g key : Nat} {bs : List Byte} {svc : Bool} {by_ : Option (Nat × Nat)}
    (h : MemInv s) : MemInv (s.coreWrite g key bs svc by_) := by
  unfold State.coreWrite
  extract_lets s1
  have hs1 : MemInv s1 := by
    unfold s1
    refine foldl_inv h ?_
    intro _ _ hs2
    extract_lets s2_2 c
    have hs2_2 : MemInv s2_2 := hs2.fill
    split
    · extract_lets data y_2
      exact hs2_2.setCore
    · exact hs2_2
  exact hs1.clearResvs

/-! ### Translation -/

theorem MemInv.updRegion {s : State} {r : Nat} {g : Region → Region} (h : MemInv s) : MemInv (s.updRegion r g) := h

theorem MemInv.walkBy {s : State} {die asr va : Nat} (h : MemInv s) : FstAll MemInv (s.walkBy die asr va) := by
  unfold State.walkBy
  split
  · exact h
  · extract_lets d put
    split
    extract_lets new
    exact ite_inv h h.setDie

theorem MemInv.install {s : State} {a : Agent} {l : Leaf} (h : MemInv s) : MemInv (s.install a l) := by
  unfold State.install
  extract_lets c s1
  have hs1 : MemInv s1 := h.setCluster
  split
  · exact hs1
  · extract_lets c_2
    exact hs1.setCore

theorem MemInv.uninstall {s : State} {a : Agent} {l : Leaf} (h : MemInv s) : MemInv (s.uninstall a l) := by
  unfold State.uninstall
  extract_lets c s1
  have hs1 : MemInv s1 := h.setCluster
  split
  · exact hs1
  · extract_lets c_2
    exact hs1.setCore

theorem MemInv.askHost {s : State} {fn key : Nat} (h : MemInv s) : MemInv (s.askHost fn key) := by
  unfold State.askHost
  extract_lets q
  exact ite_inv h h

theorem MemInv.askPage {s : State} {fn key : Nat} (h : MemInv s) : MemInv (s.askPage fn key) := by
  unfold State.askPage
  extract_lets q
  exact ite_inv h h

theorem MemInv.charge {s : State} {rgn : Nat} {l : Leaf} (h : MemInv s) : (s.charge rgn l).memOk := by
  unfold State.charge
  split
  · exact h
  · split
    · exact h
    · extract_lets new ups hit s1
      have hs1 : MemInv s1 := foldl_inv h (fun _ _ hs2 => hs2.putNum)
      clear_value hit
      split
      · exact trivial
      · show MemInv _
        refine foldl_inv hs1 ?_
        intro _ _ hs2
        extract_lets s2_2
        have hs2_2 : MemInv s2_2 := hs2.updRegion
        split
        · exact hs2_2.putNum
        · exact hs2_2

theorem MemInv.lookup {s : State} {a : Agent} {va : Nat} (h : MemInv s) : (s.lookup a va).memOk := by
  unfold State.lookup
  extract_lets asr own
  split
  · clear_value own
    split
    · exact h
    · exact h.install
  · split
    · rename_i s1 _ _ heq2
      have hs1 : MemInv s1 := h.walkBy.of_eq heq2
      clear_value own
      split
      · exact h
      · exact hs1
    · rename_i s1 l heq2
      have hs1 : MemInv s1 := h.walkBy.of_eq heq2
      split
      · clear_value own
        split
        · exact h
        · exact hs1
      · rename_i s2 heq3
        have hs2 : MemInv s2 := of_eq (P := ChargeRes.memOk) hs1.charge heq3
        clear_value own
        split
        · exact h
        · exact hs2.install

theorem MemInv.noteLink {s : State} {rgn key : Nat} (h : MemInv s) : MemInv (s.noteLink rgn key) := by
  unfold State.noteLink
  split
  · exact ite_inv h h
  · exact h

theorem MemInv.translate {s : State} {a : Agent} {va : Nat} {need : Need} {clsOk : PgCls → Option (BitVec 8)}
    (h : MemInv s) : (s.translate a va need clsOk).memOk := by
  unfold State.translate
  split
  · rename_i s1 l heq
    have hs1 : MemInv s1 := of_eq (P := TransRes.memOk) h.lookup heq
    split
    · exact ite_inv hs1.uninstall hs1
    · extract_lets s2
      have hs2 : MemInv s2 := hs1.noteLink
      split
      · split
        · exact hs2.askHost
        · exact ite_inv hs2.askPage hs2
      · exact hs2
  · rename_i s1 _ heq
    have hs1 : MemInv s1 := of_eq (P := TransRes.memOk) h.lookup heq
    exact hs1
  · exact h.lookup

theorem MemInv.translateParts {s : State} {a : Agent} {need : Need} {clsOk : PgCls → Option (BitVec 8)}
    {l : List (Nat × Nat)} (h : MemInv s) : (s.translateParts a need clsOk l).memOk := by
  induction l generalizing s with
  | nil =>
    rw [State.translateParts]
    exact PartsRes.memOk.intro h
  | cons e l ih =>
    rw [State.translateParts]
    split
    · rename_i s1 _ heq
      have hs1 : MemInv s1 := of_eq (P := TransRes.memOk) h.translate heq
      exact PartsRes.memOk.intro hs1
    · rename_i s1 r heq
      have hs1 : MemInv s1 := of_eq (P := TransRes.memOk) h.translate heq
      exact PartsRes.memOk.intro hs1
    · rename_i s1 heq
      have hs1 : MemInv s1 := of_eq (P := TransRes.memOk) h.translate heq
      exact PartsRes.memOk.intro hs1
    · rename_i s1 _ heq
      have hs1 : MemInv s1 := of_eq (P := TransRes.memOk) h.translate heq
      extract_lets key r
      exact ih hs1

/-! ### Accesses -/

theorem MemInv.readAt {s : State} {pt : Point} {tag : Option (BitVec 5)} {p : Machine.Part} (h : MemInv s) :
    FstAll MemInv (s.readAt pt tag p) := by
  unfold State.readAt
  split
  · exact h
  · exact h
  · exact h.coreRead
  · extract_lets s1
    exact h.atHome

theorem MemInv.writeAt {s : State} {pt : Point} {tag : Option (BitVec 5)} {by_ : Option (Nat × Nat)} {p : Machine.Part}
    {bs : List Byte} (h : MemInv s) : ExcAll (SndAll MemInv) MemInv (s.writeAt pt tag by_ p bs) := by
  unfold State.writeAt
  split
  · exact h.updWg
  · exact h.updWg
  · exact h.coreWrite
  · exact h.homeWrite

theorem MemInv.readParts {s : State} {w : Nat} {a : Machine.Acc} {l : List Machine.Part} (h : MemInv s) :
    FstAll MemInv (s.readParts w a l) := by
  induction l generalizing s with
  | nil =>
    rw [State.readParts]
    exact h
  | cons y l ih =>
    rw [State.readParts]
    split
    rename_i s1 _ heq
    have hs1 : MemInv s1 := h.readAt.of_eq heq
    extract_lets bad
    split
    rename_i s2 _ _ heq2
    exact (ih hs1).of_eq heq2

theorem MemInv.constGrain {s : State} {g rgn w lane grain : Nat} (h : MemInv s) :
    FstAll MemInv (s.constGrain g rgn w lane grain) := by
  unfold State.constGrain
  extract_lets s1 now all held put
  have hs1 : MemInv s1 := h.atHome
  have hput : ∀ (s : State) (y : List Byte), MemInv s → MemInv (put s y) := by
    intro _ _ hs2
    unfold put
    extract_lets c
    exact hs2.setCore
  split
  · exact hput _ _ hs1
  · exact hput _ _ hs1
  · split
    rename_i s12 heq3
    have hs12 : MemInv s12 := hs1.fresh.of_eq heq3
    extract_lets bs
    exact hput _ _ hs12

theorem MemInv.constRead {s : State} {g rgn w lane key n : Nat} (h : MemInv s) :
    FstAll MemInv (s.constRead g rgn w lane key n) := by
  unfold State.constRead
  extract_lets r
  have hr : FstAll MemInv r := by
    unfold r
    refine foldl_inv h ?_
    intro _ _ hs2
    split
    rename_i s1 _ _ heq
    exact hs2.fst.constGrain.of_eq heq
  exact hr.fst

theorem MemInv.constParts {s : State} {g rgn w lane : Nat} {l : List Machine.Part} (h : MemInv s) :
    FstAll MemInv (s.constParts g rgn w lane l) := by
  induction l generalizing s with
  | nil =>
    rw [State.constParts]
    exact h
  | cons y l ih =>
    rw [State.constParts]
    split
    rename_i s1 _ _ heq
    have hs1 : MemInv s1 := h.constRead.of_eq heq
    split
    rename_i s2 _ _ heq2
    exact (ih hs1).of_eq heq2

theorem MemInv.writeParts {s : State} {w lane : Nat} {a : Machine.Acc} {l : List Machine.Part} {l2 : List Byte}
    (h : MemInv s) : ExcAll (SndAll MemInv) MemInv (s.writeParts w lane a l l2) := by
  induction l generalizing s l2 with
  | nil =>
    rw [State.writeParts]
    exact h
  | cons y l ih =>
    rw [State.writeParts]
    split
    · exact ih h
    · split
      · rename_i e heq2
        exact of_eq (P := ExcAll (SndAll MemInv) MemInv) h.writeAt heq2
      · rename_i s2 heq2
        have hs2 : MemInv s2 := of_eq (P := ExcAll (SndAll MemInv) MemInv) h.writeAt heq2
        exact ih hs2

theorem MemInv.pushFor {s : State} {w : Nat} {scope : Scope} {clsAt : Bool} (h : MemInv s) :
    MemInv (s.pushFor w scope clsAt) := by
  unfold State.pushFor
  extract_lets s1
  have hs1 : MemInv s1 := by
    unfold s1
    split
    · exact ite_inv h.writeBackAll h
    · exact h
  exact ite_inv hs1.writeBackSvc hs1

theorem MemInv.pullFor {s : State} {w : Nat} {scope : Scope} (h : MemInv s) : MemInv (s.pullFor w scope) := by
  unfold State.pullFor
  split
  · exact ite_inv h.dropClean h
  · exact h

theorem MemInv.perform {s : State} {w lane : Nat} {a : Machine.Acc} (h : MemInv s) :
    OptAll Perf.memOk (s.perform w lane a) := by
  unfold State.perform
  split
  · exact OptAll.none
  · extract_lets clsAt s0 cut done rgn clear wide
    have hs0 : MemInv s0 := ite_inv h.pushFor h
    have hdone : ∀ (s : State) (y : Option (List Word)), MemInv s → (done s y).memOk := by
      intro _ _ hs2
      unfold done
      exact Perf.memOk.intro (ite_inv hs2.pullFor hs2)
    have hclear : ∀ (s : State), MemInv s → MemInv (clear s) := by
      intro _ hs2
      unfold clear
      exact hs2.updThread
    have hwide : MemInv wide := by
      unfold wide
      split
      · exact ite_inv hs0.writeBack.dropCopy hs0
      · exact hs0
    split
    · exact OptAll.some (Perf.memOk.intro h)
    · exact OptAll.some (hdone _ _ hs0)
    · split
      · exact OptAll.some (hdone _ _ hs0)
      · extract_lets reserve
        have hreserve : ∀ (s : State), MemInv s → MemInv (reserve s) := by
          intro _ hs2
          unfold reserve
          split
          · split
            · exact hs2.updThread
            · exact hs2
          · exact hs2
        split
        · exact OptAll.some (hdone _ _ (hreserve _ hs0))
        · split
          rename_i s2 l _ heq5
          have hs2 : MemInv s2 := hs0.readParts.of_eq heq5
          split
          · refine OptAll.some ?_
            extract_lets y_2
            have hy_2 : y_2.memOk := hdone _ _ (hreserve _ hs2)
            exact hy_2
          · exact OptAll.some (hdone _ _ (hreserve _ hs2))
    · split
      · exact OptAll.some (hdone _ _ hs0)
      · split
        rename_i s2 l _ heq4
        have hs2 : MemInv s2 := hs0.constParts.of_eq heq4
        split
        · refine OptAll.some ?_
          extract_lets y_2
          have hy_2 : y_2.memOk := hdone _ _ hs2
          exact hy_2
        · exact OptAll.some (hdone _ _ hs2)
    · split
      · rename_i s1 heq3
        have hs1 : MemInv s1 := of_eq (P := ExcAll (SndAll MemInv) MemInv) hs0.writeParts heq3
        exact OptAll.some (hdone _ _ hs1)
      · rename_i s1 heq3
        have hs1 : MemInv s1 := of_eq (P := ExcAll (SndAll MemInv) MemInv) hs0.writeParts heq3
        exact OptAll.some (Perf.memOk.intro hs1)
    · split
      · split
        · split
          · exact OptAll.some (hdone _ _ (hclear _ hs0))
          · split
            · rename_i s1 heq7
              have hs1 : MemInv s1 := of_eq (P := ExcAll (SndAll MemInv) MemInv) hs0.writeParts heq7
              exact OptAll.some (hdone _ _ (hclear _ hs1))
            · rename_i s1 heq7
              have hs1 : MemInv s1 := of_eq (P := ExcAll (SndAll MemInv) MemInv) hs0.writeParts heq7
              exact OptAll.some (Perf.memOk.intro (hclear _ hs1))
        · exact OptAll.some (hdone _ _ (hclear _ hs0))
      · exact OptAll.some (hdone _ _ hs0)
    · split
      · exact OptAll.some (hdone _ _ hs0)
      · split
        rename_i s2 l _ heq9
        have hs2 : MemInv s2 := hwide.readParts.of_eq heq9
        split
        · refine OptAll.some ?_
          extract_lets y_2
          have hy_2 : y_2.memOk := hdone _ _ hs2
          exact hy_2
        · extract_lets old
          split
          · rename_i s1 heq10
            have hs1 : MemInv s1 := of_eq (P := ExcAll (SndAll MemInv) MemInv) hs2.writeParts heq10
            exact OptAll.some (hdone _ _ hs1)
          · rename_i s1 heq10
            have hs1 : MemInv s1 := of_eq (P := ExcAll (SndAll MemInv) MemInv) hs2.writeParts heq10
            exact OptAll.some (Perf.memOk.intro hs1)

theorem MemInv.passOver {before after : State} {y : Party} {b : Machine.Acc} (hafter : MemInv after) :
    MemInv (before.passOver after y b) := by
  unfold State.passOver
  split
  · exact hafter
  · extract_lets fix
    exact hafter

/-! ### Paths, turns and waking -/

theorem MemInv.wakeCore {s : State} {g : Option Nat} {b : WakeBit} (h : MemInv s) : MemInv (s.wakeCore g b) := by
  unfold State.wakeCore
  split
  · extract_lets c
    exact ite_inv h.setCore h
  · exact h

theorem MemInv.wakeWhere {s : State} {w : Nat} {b : WakeBit} {cond : Why → Bool} (h : MemInv s) :
    MemInv (s.wakeWhere w b cond) := by
  unfold State.wakeWhere
  split
  · exact h
  · rename_i x heq
    extract_lets lanes
    exact ite_inv h h.setWave.wakeCore

theorem MemInv.wakeAll {s : State} {b : WakeBit} {cond : Why → Bool} (h : MemInv s) : MemInv (s.wakeAll b cond) := by
  unfold State.wakeAll
  exact foldl_inv h (fun _ _ hs2 => hs2.wakeWhere)

theorem MemInv.putBar {s : State} {r : BarRef} {b : Bar} (h : MemInv s) : MemInv (s.putBar r b) := h

theorem MemInv.returnWaits {s : State} {r : BarRef} {b : Bar} (h : MemInv s) : MemInv (s.returnWaits r b) := by
  unfold State.returnWaits
  extract_lets s1
  have hs1 : MemInv s1 := by
    unfold s1
    refine foldl_inv h ?_
    intro _ _ hs2
    split
    · rename_i x heq
      extract_lets y_2
      exact ite_inv hs2 hs2.setWave.wakeCore
    · exact hs2
  exact hs1

theorem MemInv.freeDecisions {s : State} {wg : Nat} (h : MemInv s) : MemInv (s.freeDecisions wg) := by
  unfold State.freeDecisions
  extract_lets mine drop
  exact MemInv.wakeAll h

theorem MemInv.barStep {s : State} {r : BarRef} {b : Bar} (h : MemInv s) : MemInv (s.barStep r b) := by
  unfold State.barStep
  split
  · extract_lets b1
    exact h.putBar.returnWaits
  · exact h.putBar

theorem MemInv.barSettle {s : State} {r : BarRef} (h : MemInv s) : MemInv (s.barSettle r) := by
  unfold State.barSettle
  extract_lets b
  exact ite_inv h.barStep h

theorem MemInv.barArrive {s : State} {r : BarRef} (h : MemInv s) : OptAll MemInv (s.barArrive r) := by
  unfold State.barArrive
  extract_lets b
  exact ite_inv OptAll.none (OptAll.some h.barStep)

theorem MemInv.barArriveOrDrop {s : State} {r : BarRef} (h : MemInv s) : MemInv (s.barArriveOrDrop r) := by
  unfold State.barArriveOrDrop
  split
  · rename_i s1 heq
    exact h.barArrive _ heq
  · exact h.barStep

theorem MemInv.barLand {s : State} {r : BarRef} {n : Nat} {flt : Bool} (h : MemInv s) : MemInv (s.barLand r n flt) := by
  unfold State.barLand
  extract_lets b
  exact h.barStep

theorem MemInv.land {s : State} {d : Done} {n : Nat} {flt : Bool} (h : MemInv s) : MemInv (s.land d n flt) := by
  unfold State.land
  split
  · exact h.barLand
  · exact h

/-! ### Fault domains and the end of work -/

theorem MemInv.writeState {s : State} {r : Nat} (h : MemInv s) : MemInv (s.writeState r) := by
  unfold State.writeState
  split
  · exact h.putNum
  · exact h

theorem MemInv.signal {s : State} {fn vector : Nat} (h : MemInv s) : MemInv (s.signal fn vector) := h

theorem MemInv.post {s : State} {dom : Nat} {r : Rec} (h : MemInv s) : FstAll MemInv (s.post dom r) := by
  unfold State.post
  split
  · exact h
  · extract_lets key next full s1 s2
    have hs1 : MemInv s1 := by
      unfold s1
      clear_value key full next
      split
      · exact h.baseWrite.updRegion
      · exact h.updRegion
    have hs2 : MemInv s2 := hs1.writeState
    exact ite_inv hs2.signal hs2

theorem MemInv.engRec {s : State} {rgn : Nat} {core : Option Nat} {cluster pc : Nat} {eng : Bool} {f : Flt}
    (h : MemInv s) : FstAll MemInv (s.engRec rgn core cluster pc eng f) := h

theorem MemInv.postEng {s : State} {rgn : Nat} {core : Option Nat} {cluster pc : Nat} {f : Flt} (h : MemInv s) :
    MemInv (s.postEng rgn core cluster pc f) := by
  unfold State.postEng
  split
  rename_i s1 _ heq
  have hs1 : MemInv s1 := h.engRec.of_eq heq
  exact hs1.post.fst

theorem MemInv.postEvent {s : State} {dom rgn : Nat} {f : Flt} (h : MemInv s) : MemInv (s.postEvent dom rgn f) := by
  unfold State.postEvent
  split
  rename_i s1 heq
  have hs1 : MemInv s1 := h.fresh.of_eq heq
  split
  rename_i s12 _ heq2
  have hs12 : MemInv s12 := hs1.engRec.of_eq heq2
  exact hs12.post.fst

theorem MemInv.postFjoub {s : State} {code sub : BitVec 8} {addr : Nat} {det : Word} (h : MemInv s) :
    MemInv (s.postFjoub code sub addr det) := h

theorem MemInv.pushRegion {s : State} {r : Nat} (h : MemInv s) : MemInv (s.pushRegion r) := by
  unfold State.pushRegion
  split
  · exact h
  · exact foldl_inv h (fun _ _ hs2 => hs2.writeBackAll.writeBackSvc)

theorem MemInv.raiseDone {s : State} {r : Nat} (h : MemInv s) : MemInv (s.raiseDone r) := by
  unfold State.raiseDone
  split
  · exact h
  · split
    · exact h
    · extract_lets s1
      have hs1 : MemInv s1 := by
        unfold s1
        split
        · exact h.putNum
        · exact h
      exact ite_inv hs1.signal hs1

theorem MemInv.arrsByExit {s : State} {w : Nat} (h : MemInv s) : MemInv (s.arrsByExit w) := by
  unfold State.arrsByExit
  split
  · exact h
  · rename_i x heq
    split
    exact foldl_inv h.setWave (fun _ _ hs2 => hs2.barArriveOrDrop)

theorem MemInv.pxWake {s : State} {w : Nat} (h : MemInv s) : MemInv (s.pxWake w) := by
  unfold State.pxWake
  split
  · split
    · exact h.wakeWhere
    · exact h
  · exact h

theorem MemInv.wgGone {s : State} {wg : Nat} (h : MemInv s) : MemInv (s.wgGone wg) := by
  unfold State.wgGone
  split
  · exact h
  · extract_lets gone
    have hgone : MemInv gone := h
    split <;> exact hgone.updRegion

theorem MemInv.groupEnd {s : State} {q : Nat} (h : MemInv s) : MemInv (s.groupEnd q) := by
  unfold State.groupEnd
  split
  · exact h
  · exact ite_inv h (foldl_inv h (fun _ _ hs2 => hs2.wgGone))

theorem MemInv.wgEnd {s : State} {wg : Nat} (h : MemInv s) : MemInv (s.wgEnd wg) := by
  unfold State.wgEnd
  split
  · exact h
  · split
    · exact h.groupEnd
    · exact h.wgGone

theorem MemInv.owe {s : State} {w : Nat} (h : MemInv s) : MemInv (s.owe w) := by
  unfold State.owe
  split
  · rename_i x _ heq _
    extract_lets c n y_2
    have hy_2 : MemInv y_2 := h.setCore
    exact hy_2
  · exact h

theorem MemInv.waveEnd {s : State} {w : Nat} (h : MemInv s) : MemInv (s.waveEnd w) := by
  unfold State.waveEnd
  split
  · exact h
  · split
    · extract_lets s0 s1
      have hs0 : MemInv s0 := h.owe
      have hs1 : MemInv s1 := hs0
      split
      · split
        · exact MemInv.wgEnd hs1
        · exact hs1
      · exact ite_inv hs1.freeDecisions hs1.wgEnd
    · exact h

theorem MemInv.exitThread {s : State} {w lane : Nat} (h : MemInv s) : MemInv (s.exitThread w lane) := by
  unfold State.exitThread
  extract_lets s1
  have hs1 : MemInv s1 := h
  exact hs1.arrsByExit.pxWake.waveEnd

theorem MemInv.performKept {s : State} {e : Pend} (h : MemInv s) : MemInv (s.performKept e) := by
  unfold State.performKept
  split
  · rename_i p heq
    have hp : p.memOk := h.perform _ heq
    exact hp.s.updThread
  · exact h

theorem MemInv.flushWave {s : State} {w : Nat} {x : Wave} (h : MemInv s) : MemInv (s.flushWave w x) := by
  unfold State.flushWave
  refine foldl_inv h ?_
  intro _ _ hs2
  split
  · split
    · exact hs2
    · exact foldl_inv hs2 (fun _ _ hs3 => hs3.performKept)
  · exact hs2

theorem MemInv.clearEngines {s : State} {cluster : Nat} {members : List Nat} (h : MemInv s) :
    MemInv (s.clearEngines cluster members) := by
  unfold State.clearEngines
  refine foldl_inv h ?_
  intro _ _ hs2
  extract_lets g c none_ y e
  exact hs2.setCore

theorem MemInv.spoilBin {s : State} {b : BinDesc} (h : MemInv s) : MemInv (s.spoilBin b) := by
  unfold State.spoilBin
  refine foldl_inv h ?_
  intro _ _ hs2
  split
  · split
    rename_i s1 heq2
    have hs1 : MemInv s1 := hs2.fresh.of_eq heq2
    exact hs1.baseWrite
  · exact hs2

theorem MemInv.countFwd {s : State} (h : MemInv s) : MemInv s.countFwd := by
  unfold State.countFwd
  extract_lets keep
  exact ite_inv h h

theorem MemInv.discardWork {s : State} {rs : List Nat} (h : MemInv s) : MemInv (s.discardWork rs) := by
  unfold State.discardWork
  extract_lets mine dead s1 s2 s2b s3 cluster
  have hs1 : MemInv s1 := foldl_inv h (fun _ _ hs4 => hs4.flushWave.owe)
  have hs2 : MemInv s2 := foldl_inv hs1 (fun _ _ hs4 => hs4.wakeCore)
  have hs2b : MemInv s2b := foldl_inv hs2 (fun _ _ hs4 => hs4.spoilBin)
  have hs3 : MemInv s3 := foldl_inv hs2b (fun _ _ hs4 => hs4.clearEngines)
  exact MemInv.countFwd hs3

theorem MemInv.updSet {s : State} {i : Nat} {g : FSet → FSet} (h : MemInv s) : MemInv (s.updSet i g) := h

theorem MemInv.raiseResc {s : State} {i : Nat} (h : MemInv s) : MemInv (s.raiseResc i) := by
  unfold State.raiseResc
  extract_lets key
  exact h.putNum

theorem MemInv.clearWindow {s : State} {i : Nat} (h : MemInv s) : MemInv (s.clearWindow i) := h

theorem MemInv.resolveNone {s : State} {i : Nat} (h : MemInv s) : MemInv (s.resolveNone i) := by
  unfold State.resolveNone
  extract_lets x live s1
  have hs1 : MemInv s1 := h.updSet
  exact ite_inv (MemInv.wakeAll (MemInv.raiseResc (MemInv.clearWindow hs1))) h

theorem MemInv.stopRegions {s : State} {rs : List Nat} (h : MemInv s) : MemInv (s.stopRegions rs) := by
  unfold State.stopRegions
  exact foldl_inv h (fun _ _ hs2 => hs2.updRegion)

theorem MemInv.squashFacets {s : State} {i mask : Nat} (h : MemInv s) : MemInv (s.squashFacets i mask) := by
  unfold State.squashFacets
  extract_lets x fs rs s1 s2 s3
  have hs1 : MemInv s1 := h.discardWork
  have hs2 : MemInv s2 := hs1.updSet
  have hs3 : MemInv s3 := hs2
  exact hs3.stopRegions.resolveNone

theorem MemInv.squashWaiting {s : State} {rs : List Nat} (h : MemInv s) : MemInv (s.squashWaiting rs) := by
  unfold State.squashWaiting
  extract_lets hit mark
  exact MemInv.stopRegions h

theorem MemInv.squashKilled {s : State} {rs : List Nat} (h : MemInv s) : MemInv (s.squashKilled rs) := by
  unfold State.squashKilled
  refine foldl_inv h.squashWaiting ?_
  intro _ _ hs2
  extract_lets x live fs
  exact ite_inv (ite_inv hs2.squashFacets (ite_inv hs2 hs2.squashFacets)) hs2

theorem MemInv.killRegion {s : State} {r : Nat} (h : MemInv s) : MemInv (s.killRegion r) := by
  unfold State.killRegion
  extract_lets rs s1
  have hs1 : MemInv s1 := h.squashKilled.discardWork
  exact foldl_inv hs1 (fun _ _ hs2 => MemInv.writeState (MemInv.raiseDone hs2.pushRegion.updRegion))

theorem MemInv.suspendRegion {s : State} {r : Nat} {quota : Bool} (h : MemInv s) : MemInv (s.suspendRegion r quota) := by
  unfold State.suspendRegion
  extract_lets rs s1 mark s2
  have hs1 : MemInv s1 := foldl_inv h (fun _ _ hs3 => MemInv.writeState hs3.updRegion)
  have hs2 : MemInv s2 := hs1
  exact foldl_inv hs2 (fun _ _ hs3 => hs3.wakeCore)

theorem MemInv.quotaEvent {s : State} {r : Nat} {sub : BitVec 8} (h : MemInv s) : MemInv (s.quotaEvent r sub) := by
  unfold State.quotaEvent
  exact h.suspendRegion.postEvent

theorem MemInv.overflowAction {s : State} {rgn : Nat} (h : MemInv s) : MemInv (s.overflowAction rgn) := by
  unfold State.overflowAction
  split
  · exact h
  · exact ite_inv h.squashFacets h.squashFacets

/-! ### Operations that instructions share -/

theorem MemInv.fixTurn {s : State} {w : Nat} (h : MemInv s) : MemInv (s.fixTurn w) := h

theorem MemInv.deliverThread {s : State} {w lane rgn : Nat} {code sub : BitVec 8} (h : MemInv s) :
    MemInv (s.deliverThread w lane rgn code sub) := by
  unfold State.deliverThread
  exact h.updThread.fixTurn.wakeCore

theorem MemInv.replayThread {s : State} {w lane : Nat} (h : MemInv s) : MemInv (s.replayThread w lane) := by
  unfold State.replayThread
  exact h.updThread.fixTurn.wakeCore

theorem MemInv.domainAct {s : State} {w lane rgn : Nat} {code sub : BitVec 8} {marked : Bool} (h : MemInv s) :
    MemInv (s.domainAct w lane rgn code sub marked) := by
  unfold State.domainAct
  split
  · exact h.overflowAction
  · split
    · exact ite_inv h.deliverThread (ite_inv h.replayThread h.killRegion)
    · exact h
    · exact h.killRegion

theorem MemInv.doAct {s : State} {y : DomAct} (h : MemInv s) : MemInv (s.doAct y) := by
  unfold State.doAct
  split
  · exact h.domainAct
  · exact h.killRegion

theorem MemInv.act {s : State} {a : DomAct} (h : MemInv s) : MemInv (s.act a) := by
  unfold State.act
  split
  · exact h
  · exact h.doAct

theorem MemInv.holdActs {s : State} (h : MemInv s) : MemInv s.holdActs := h

theorem MemInv.actAll {s : State} (h : MemInv s) : MemInv s.actAll := by
  unfold State.actAll
  split
  · exact foldl_inv h (fun _ _ hs2 => hs2.doAct)
  · exact h

theorem MemInv.dataError {s : State} {rgn key : Nat} (h : MemInv s) : MemInv (s.dataError rgn key) := by
  unfold State.dataError
  extract_lets s1
  have hs1 : MemInv s1 := h.postEvent
  split
  · exact hs1
  · exact hs1
  · exact hs1.act

theorem MemInv.walkError {s : State} {rgn : Nat} {f : Flt} (h : MemInv s) : MemInv (s.walkError rgn f) := by
  unfold State.walkError
  split
  · exact h.dataError
  · exact h

theorem MemInv.takeFault {s : State} {w lane : Nat} {pc : DWord} {f : Flt} (h : MemInv s) :
    MemInv (s.takeFault w lane pc f) := by
  unfold State.takeFault
  split
  · split
    rename_i s1 _ heq3
    have hs1 : MemInv s1 := h.post.of_eq heq3
    extract_lets s2
    have hs2 : MemInv s2 := hs1.updThread.fixTurn.act
    exact hs2.walkError
  · exact h

theorem MemInv.takeQuota {s : State} {w lane : Nat} {pc : DWord} {ov : Nat} {det1 : Nat} (h : MemInv s) :
    MemInv (s.takeQuota w lane pc ov det1) := by
  unfold State.takeQuota
  split
  · extract_lets f
    split
    rename_i s1 _ heq2
    have hs1 : MemInv s1 := h.post.of_eq heq2
    exact hs1.updThread.fixTurn.suspendRegion
  · exact h

theorem MemInv.feedWake {s : State} {w : Nat} {a : Machine.Acc} (h : MemInv s) : MemInv (s.feedWake w a) := by
  unfold State.feedWake
  split
  · exact h
  · exact h.wakeWhere

theorem MemInv.releaseLast {s : State} {w lane id : Nat} (h : MemInv s) : MemInv (s.releaseLast w lane id) := by
  unfold State.releaseLast
  extract_lets s1
  have hs1 : MemInv s1 := by
    unfold s1
    split
    · exact h
    · exact foldl_inv h (fun _ _ hs2 => foldl_inv hs2 (fun _ _ hs3 => hs3.performKept))
  exact hs1.pushFor

theorem MemInv.performRaw {s : State} {w lane : Nat} {a : Machine.Acc} (h : MemInv s) :
    OptAll MemInv (s.performRaw w lane a) := by
  unfold State.performRaw
  split
  · exact OptAll.some h
  · extract_lets ahead s0 rgn
    have hs0 : MemInv s0 := ite_inv h.updThread h
    refine OptAll.map (P := Perf.memOk) hs0.perform ?_
    intro _ hp
    extract_lets done s1 s2 s3
    have hs1 : MemInv s1 := hp.s.updThread.feedWake
    have hs2 : MemInv s2 := ite_inv hs1.passOver hs1
    have hs3 : MemInv s3 := by
      unfold s3
      split
      · exact hs2.dataError
      · exact hs2
    split
    · exact hs3.releaseLast.takeFault
    · exact hs3

theorem MemInv.forceIn {s : State} {y : Party} {scope : Scope} {n : Nat} (h : MemInv s) :
    OptAll MemInv (s.forceIn y scope n) := by
  induction n generalizing s y scope with
  | zero =>
    rw [State.forceIn]
    exact OptAll.some h
  | succ n ih =>
    rw [State.forceIn]
    refine foldl_inv (OptAll.some h) ?_
    intro _ _ hs2
    refine OptAll.bind (P := MemInv) hs2 ?_
    intro _ hs1
    refine OptAll.map (P := MemInv) ?_ (fun _ hs12 => foldl_inv hs12 (fun _ _ hs3 => hs3.pushFor))
    refine foldl_inv (OptAll.some hs1) ?_
    intro _ _ hs3
    refine OptAll.bind (P := MemInv) hs3 ?_
    intro _ hs12
    beta_reduce
    split
    · exact OptAll.some hs12
    · rename_i a3 heq
      exact (ite_inv (OptAll.some hs12) (ih hs12)).bind (fun _ hs13 => hs13.performRaw)

theorem MemInv.force {s : State} {y : Party} {scope : Scope} (h : MemInv s) : OptAll MemInv (s.force y scope) := by
  unfold State.force
  exact h.forceIn

theorem MemInv.acquireAt {s : State} {w lane : Nat} {scope : Scope} (h : MemInv s) :
    OptAll MemInv (s.acquireAt w lane scope) := by
  unfold State.acquireAt
  exact h.force.map (fun _ hs1 => hs1.pullFor)

theorem MemInv.performOne {s : State} {w lane : Nat} {a : Machine.Acc} (h : MemInv s) :
    OptAll MemInv (s.performOne w lane a) := by
  unfold State.performOne
  exact ite_inv h.performRaw (h.force.bind (fun _ hs1 => hs1.performRaw))

theorem MemInv.performList {s : State} {l : List (Nat × Nat × Nat)} (h : MemInv s) : OptAll MemInv (s.performList l) := by
  induction l generalizing s with
  | nil =>
    rw [State.performList]
    exact OptAll.some h
  | cons e l ih =>
    rw [State.performList]
    split
    · exact ih h
    · rename_i a heq
      exact h.performOne.bind (fun _ hs1 => ih hs1)

theorem MemInv.serveOne {s : State} {k : Nat} {q : SvcReq} (h : MemInv s) : OptAll MemInv (s.serveOne k q) := by
  unfold State.serveOne
  refine OptAll.map (P := MemInv) h.performList ?_
  intro _ hs1
  extract_lets c
  exact hs1.setCluster

theorem MemInv.performElem {s : State} {e : Nat × Nat × Nat} (h : MemInv s) : OptAll MemInv (s.performElem e) := by
  unfold State.performElem
  extract_lets k q
  exact ite_inv (foldl_inv (OptAll.some h) (fun _ _ hs2 => hs2.bind (fun _ hs1 => hs1.serveOne))) h.performList

theorem MemInv.performUpTo {s : State} {w lane id : Nat} (h : MemInv s) : OptAll MemInv (s.performUpTo w lane id) := by
  unfold State.performUpTo
  exact foldl_inv (OptAll.some h) (fun _ _ hs2 => hs2.bind (fun _ hs1 => hs1.performElem))

theorem MemInv.drainIf {s : State} {w lane : Nat} {p : Machine.Acc → Bool} (h : MemInv s) :
    OptAll MemInv (s.drainIf w lane p) := by
  unfold State.drainIf
  split
  · exact OptAll.some h
  · exact foldl_inv (OptAll.some h) (fun _ _ hs2 => hs2.bind (fun _ hs1 => hs1.performUpTo))

theorem MemInv.drain {s : State} {w lane : Nat} (h : MemInv s) : OptAll MemInv (s.drain w lane) := by
  unfold State.drain
  exact h.drainIf

theorem MemInv.drainSvc {s : State} {w : Nat} (h : MemInv s) : OptAll MemInv (s.drainSvc w) := by
  unfold State.drainSvc
  extract_lets k
  exact foldl_inv (OptAll.some h) (fun _ _ hs2 => hs2.bind (fun _ hs1 => hs1.performUpTo))

theorem MemInv.releaseIf {s : State} {w lane : Nat} {scope : Scope} {p : Machine.Acc → Bool} (h : MemInv s) :
    OptAll MemInv (s.releaseIf w lane scope p) := by
  unfold State.releaseIf
  exact (h.drainIf.bind (fun _ hs1 => ite_inv hs1.drainSvc (OptAll.some hs1))).map (fun _ hs1 => hs1.pushFor)

theorem MemInv.releaseAt {s : State} {w lane : Nat} {scope : Scope} (h : MemInv s) :
    OptAll MemInv (s.releaseAt w lane scope) := by
  unfold State.releaseAt
  exact h.releaseIf

theorem MemInv.releaseLag {s : State} {w lane : Nat} {scope : Scope} {id : Nat} (h : MemInv s) :
    OptAll MemInv (s.releaseLag w lane scope id) := by
  unfold State.releaseLag
  exact ite_inv (h.releaseIf.map (fun _ hs1 => hs1.updThread)) h.releaseAt

theorem MemInv.raise? {s : State} {w lane : Nat} {pc : DWord} {f : Flt} (h : MemInv s) :
    OptAll MemInv (s.raise? w lane pc f) := by
  unfold State.raise?
  exact h.releaseAt.map (fun _ hs1 => hs1.takeFault)

theorem MemInv.raise {s : State} {w lane : Nat} {pc : DWord} {f : Flt} (h : MemInv s) : MemInv (s.raise w lane pc f) := by
  unfold State.raise
  exact h.raise?.getD h

theorem MemInv.raiseQuota? {s : State} {w lane : Nat} {pc : DWord} {ov : Nat} {det1 : Nat} (h : MemInv s) :
    OptAll MemInv (s.raiseQuota? w lane pc ov det1) := by
  unfold State.raiseQuota?
  exact h.releaseAt.map (fun _ hs1 => hs1.takeQuota)

theorem MemInv.settleFor {s : State} {w lane : Nat} {y : Machine.Acc} (h : MemInv s) :
    OptAll MemInv (s.settleFor w lane y) := by
  unfold State.settleFor
  exact h.drainIf

theorem MemInv.barIssue {s : State} {w lane id : Nat} (h : MemInv s) : OptAll MemInv (s.barIssue w lane id) := by
  unfold State.barIssue
  exact h.settleFor.bind (fun _ hs1 => hs1.drainIf)

theorem MemInv.fencedRelease {s : State} {w lane : Nat} (h : MemInv s) : OptAll MemInv (s.fencedRelease w lane) := by
  unfold State.fencedRelease
  split
  · exact h.releaseAt.map (fun _ hs1 => hs1.updThread)
  · exact OptAll.some h

theorem MemInv.engineIssue {s : State} {w lane id : Nat} (h : MemInv s) : OptAll MemInv (s.engineIssue w lane id) := by
  unfold State.engineIssue
  exact h.barIssue.bind (fun _ hs1 => hs1.fencedRelease)

theorem MemInv.settleOwn {s : State} {w lane id : Nat} {space : Space} {key size : Nat} (h : MemInv s) :
    OptAll MemInv (s.settleOwn w lane id space key size) := by
  unfold State.settleOwn
  exact h.settleFor

theorem MemInv.pushElem {s : State} {w lane id : Nat} {pc : DWord} {n : Nat} {v : Word} (h : MemInv s) :
    OkAll MemInv (s.pushElem w lane id pc n v) := by
  unfold State.pushElem
  split
  · exact h
  · rename_i x heq
    extract_lets off
    exact ite_inv h trivial

theorem MemInv.putDst {s : State} {w lane : Nat} {o : Operand} {ws : List Word} (h : MemInv s) :
    MemInv (s.putDst w lane o ws) := h

theorem MemInv.returnOne {s : State} {w lane id : Nat} (h : MemInv s) : OptAll MemInv (s.returnOne w lane id) := by
  unfold State.returnOne
  refine OptAll.bind (P := MemInv) h.performUpTo ?_
  intro _ hs1
  split
  · rename_i a heq
    split
    · extract_lets s2
      have hs2 : MemInv s2 := hs1.updThread
      split
      · split
        · rename_i s3 heq5
          have hs3 : MemInv s3 := of_eq (P := OkAll MemInv) hs2.pushElem heq5
          exact OptAll.some hs3
        · exact hs2.raise?
      · exact OptAll.some (ite_inv hs2.putDst hs2)
    · exact OptAll.some hs1
  · exact OptAll.some hs1

theorem MemInv.returnAcc {s : State} {w lane id : Nat} (h : MemInv s) : OptAll MemInv (s.returnAcc w lane id) := by
  unfold State.returnAcc
  split
  · split
    · exact h.returnOne
    · extract_lets first
      exact foldl_inv (OptAll.some h) (fun _ _ hs2 => hs2.bind (fun _ hs1 => hs1.returnOne))
  · exact OptAll.some h

theorem MemInv.returnAll {s : State} {w lane : Nat} (h : MemInv s) : OptAll MemInv (s.returnAll w lane) := by
  unfold State.returnAll
  split
  · exact OptAll.some h
  · exact (foldl_inv (OptAll.some h) (fun _ _ hs2 => hs2.bind (fun _ hs1 => ite_inv hs1.returnAcc (OptAll.some hs1)))).bind
        (fun _ hs1 => hs1.drain)

/-! ### Operands and issue -/

theorem MemInv.settle {s : State} {w : Nat} {u : Unit2} {ops : List (Operand × Nat)} {lanes : List Nat} (h : MemInv s) :
    OptAll MemInv (s.settle w u ops lanes) := by
  unfold State.settle
  split
  · exact OptAll.some h
  · split
    · exact OptAll.some h
    · extract_lets late s1
      have hs1 : MemInv s1 := foldl_inv h (fun _ _ hs2 => hs2.updThread)
      refine foldl_inv (OptAll.some hs1) ?_
      intro _ _ hs2
      refine OptAll.bind (P := MemInv) hs2 ?_
      intro _ hs12
      split
      · exact OptAll.some hs12
      · exact foldl_inv (OptAll.some hs12) (fun _ _ hs3 => hs3.bind (fun _ hs13 => hs13.returnAcc))

theorem MemInv.popQueue {s : State} {w : Nat} {x : Wave} {q n : Nat} (h : MemInv s) : MemInv (s.popQueue w x q n) := by
  unfold State.popQueue
  split
  · exact MemInv.freeDecisions h
  · split
    · extract_lets c e l e1
      exact h.setCore
    · exact h

theorem MemInv.queueAccess {s : State} {c : Ctx} (h : MemInv s) : OptAll (FstAll MemInv) (s.queueAccess c) := by
  unfold State.queueAccess
  extract_lets n room
  split
  · exact OptAll.some h
  · split
    · exact OptAll.none
    · refine foldl_inv (OptAll.some h) ?_
      intro _ _ hs2
      refine OptAll.bind (P := FstAll MemInv) hs2 ?_
      intro _ he
      split
      extract_lets held need
      exact ite_inv (OptAll.some he) (OptAll.mapOf (fun _ => MemInv.popQueue he))

theorem MemInv.popAcquire {s : State} {c : Ctx} (h : MemInv s) : OptAll MemInv (s.popAcquire c) := by
  unfold State.popAcquire
  exact ite_inv (OptAll.some h) (foldl_inv (OptAll.some h) (fun _ _ hs2 => hs2.bind (fun _ hs1 => hs1.acquireAt)))

theorem MemInv.noteIssue {s : State} {w : Nat} (h : MemInv s) : MemInv (s.noteIssue w) := by
  unfold State.noteIssue
  split
  · extract_lets c
    exact ite_inv h.setCore h
  · exact h

theorem MemInv.faultLane {s : State} {c : Ctx} {lane : Nat} {f : Flt} (h : MemInv s) : MemInv (s.faultLane c lane f) := by
  unfold State.faultLane
  exact h.updThread.raise?.getD h.updThread

theorem MemInv.faultLanes {s : State} {c : Ctx} {lanes : List (Nat × Flt)} (h : MemInv s) :
    MemInv (s.faultLanes c lanes) := by
  unfold State.faultLanes
  exact ite_inv h (foldl_inv h.holdActs (fun _ _ hs2 => hs2.faultLane))

theorem MemInv.settleTurn {s : State} {c : Ctx} (h : MemInv s) : MemInv (s.settleTurn c) := by
  unfold State.settleTurn
  exact MemInv.actAll h

theorem MemInv.blockGroup {s : State} {c : Ctx} (h : MemInv s) : MemInv (s.blockGroup c) := by
  unfold State.blockGroup
  extract_lets hold
  exact MemInv.settleTurn h

theorem MemInv.begin {s : State} {c : Ctx} (h : MemInv s) : MemInv (s.begin c) := by
  unfold State.begin
  extract_lets s1
  have hs1 : MemInv s1 := h
  exact hs1.holdActs.noteIssue

theorem MemInv.start {s : State} {i : Instr} {e : Desc} {fits : Ctx → State → Bool} (h : MemInv s) :
    (s.start i e fits).memOk := by
  unfold State.start
  split
  · exact h
  · split
    · exact h
    · rename_i s4 heq2
      have hs4 : MemInv s4 := h.settle _ heq2
      split
      · exact hs4
      · split
        · exact hs4
        · rename_i s42 heq4
          have hs42 : MemInv s42 := hs4.settle _ heq4
          split
          · exact hs42
          · rename_i c3 heq5
            split
            · exact (foldl_inv hs42.holdActs (fun _ _ hs2 => hs2.raise)).settleTurn
            · split
              · exact hs42.begin.faultLanes.settleTurn
              · split
                · exact hs42
                · split
                  · exact hs42.blockGroup
                  · rename_i s3 _ heq9
                    have hs3 : MemInv s3 := hs42.queueAccess _ heq9
                    split
                    · exact hs42
                    · rename_i s43 heq10
                      have hs43 : MemInv s43 := hs3.popAcquire _ heq10
                      extract_lets c1
                      exact hs43.begin

theorem MemInv.startOf {s : State} {i : Instr} {fits : Ctx → State → Bool} (h : MemInv s) : (s.startOf i fits).memOk := by
  unfold State.startOf
  split
  · exact h.start
  · exact h

theorem MemInv.issue {i : Instr} {s : State} {fits : Ctx → State → Bool} {turn body : Ctx → State → State}
    (h : MemInv s) (hturn : ∀ (c : Ctx) (s : State), MemInv s → MemInv (turn c s))
    (hbody : ∀ (c : Ctx) (s : State), MemInv s → MemInv (body c s)) : OutMemOk (issue i s fits turn body) := by
  unfold Machine.issue
  split
  · rename_i a heq
    exact of_eq (P := Start.memOk) h.startOf heq
  · rename_i a a2 heq
    have ha2 : MemInv a2 := of_eq (P := Start.memOk) h.startOf heq
    exact hturn _ _ (hbody _ _ ha2)

theorem MemInv.run {i : Instr} {s : State} {body : Ctx → State → State} (h : MemInv s)
    (hbody : ∀ (c : Ctx) (s : State), MemInv s → MemInv (body c s)) : OutMemOk (run i s body) := by
  unfold Machine.run
  exact h.issue (fun _ _ hs2 => hs2.settleTurn) (fun _ _ hs2 => hbody _ _ hs2)

theorem MemInv.pushAll {s : State} {c : Ctx} {q : Nat} {outs : List (Nat × Out)} (h : MemInv s) :
    MemInv (s.pushAll c q outs) := by
  unfold State.pushAll
  refine foldl_inv h ?_
  intro _ _ hs2
  extract_lets s1
  have hs1 : MemInv s1 := by
    unfold s1
    split
    · exact hs2.updThread
    · exact hs2
  split
  · rename_i s3 heq
    exact of_eq (P := OkAll MemInv) hs1.pushElem heq
  · exact hs2.faultLanes

theorem MemInv.writeAll {s : State} {c : Ctx} {outs : List (Nat × Out)} (h : MemInv s) : MemInv (s.writeAll c outs) := by
  unfold State.writeAll
  split
  · exact h.pushAll
  · exact h

theorem MemInv.pendAll {s : State} {c : Ctx} {outs : List (Nat × Out)} (h : MemInv s) : MemInv (s.pendAll c outs) := by
  unfold State.pendAll
  split
  · exact h.pushAll
  · extract_lets lead put
    exact h

theorem MemInv.compute {s : State} {c : Ctx} {g : Nat → Except Flt Out} (h : MemInv s) : MemInv (s.compute c g) := by
  unfold State.compute
  extract_lets rs s1
  have hs1 : MemInv s1 := ite_inv h.pendAll h.writeAll
  exact hs1.faultLanes

theorem MemInv.alu {i : Instr} {s : State} {words : Nat} {g : Ctx → Nat → Nat} (h : MemInv s) :
    OutMemOk (alu i s words g) := by
  unfold Machine.alu
  exact h.run (fun _ _ hs2 => hs2.compute)

theorem MemInv.pendAcc {s : State} {c : Ctx} {lane : Nat} {a : Machine.Acc} (h : MemInv s) :
    MemInv (s.pendAcc c lane a) := by
  unfold State.pendAcc
  extract_lets s1
  have hs1 : MemInv s1 := h.updThread
  split
  · split
    · rename_i s12 heq2
      exact hs1.performUpTo _ heq2
    · exact h.updThread
  · exact hs1

theorem Machine.Lane.memOk.laneOut {c : Ctx} {lane : Nat} {led : Bool} {y : Lane} (hy : y.memOk) :
    FstAll MemInv (State.laneOut c lane led y) := by
  unfold State.laneOut
  split
  · refine FstAll.intro ?_
    split
    · exact ite_inv hy (MemInv.putDst hy)
    · exact ite_inv hy (MemInv.putDst hy)
    · exact MemInv.pushAll hy
    · exact ite_inv hy (MemInv.putDst hy)
  · extract_lets f y_2 a0 s0 a1
    have hs0 : MemInv s0 := ite_inv (MemInv.updThread hy) hy
    refine FstAll.intro ?_
    split
    · exact hs0.faultLanes
    · exact hs0.pendAcc
  · exact MemInv.faultLanes hy
  · exact OptAll.getD (MemInv.raiseQuota? (MemInv.updThread hy)) (MemInv.updThread hy)
  · exact MemInv.updThread hy
  · exact MemInv.updThread hy
  · exact hy

theorem MemInv.laneStep {c : Ctx} {g : State → Nat → Lane} {r : State × Bool × Bool} {l : Nat}
    (hg : ∀ (s : State) (n : Nat), MemInv s → (g s n).memOk) (hr : FstAll MemInv r) :
    FstAll MemInv (State.laneStep c g r l) := by
  unfold State.laneStep
  split
  · extract_lets o p
    have ho : o.memOk := ite_inv hr.fst (hg _ _ hr.fst)
    have hp : FstAll MemInv p := Machine.Lane.memOk.laneOut ho
    exact hp.fst
  · exact hr

theorem MemInv.eachLane {s : State} {c : Ctx} {g : State → Nat → Lane} (h : MemInv s)
    (hg : ∀ (s : State) (n : Nat), MemInv s → (g s n).memOk) : MemInv (s.eachLane c g) := by
  unfold State.eachLane
  exact FstAll.fst (foldl_inv h (fun _ _ hs2 => MemInv.laneStep (fun _ _ hs3 => hg _ _ hs3) hs2))

theorem MemInv.perLaneIf {i : Instr} {s : State} {fits : Ctx → State → Bool} {g : Ctx → State → Nat → Lane}
    (h : MemInv s) (hg : ∀ (c : Ctx) (s : State) (n : Nat), MemInv s → (g c s n).memOk) :
    OutMemOk (perLaneIf i s fits g) := by
  unfold Machine.perLaneIf
  exact h.issue (fun _ _ hs2 => hs2.settleTurn) (fun _ _ hs2 => hs2.eachLane (fun _ _ hs3 => hg _ _ _ hs3))

theorem MemInv.perLane {i : Instr} {s : State} {g : Ctx → State → Nat → Lane} (h : MemInv s)
    (hg : ∀ (c : Ctx) (s : State) (n : Nat), MemInv s → (g c s n).memOk) : OutMemOk (perLane i s g) := by
  unfold Machine.perLane
  exact h.perLaneIf (fun _ _ _ hs2 => hg _ _ _ hs2)

/-! ### Issuing an access -/

theorem MemInv.reach {s : State} {a : Agent} {need : Need} {clsOk : PgCls → Option (BitVec 8)} {m : Tagging}
    {va n : Nat} (h : MemInv s) : (s.reach a need clsOk m va n).memOk := by
  unfold State.reach
  extract_lets r refused
  have hr : r.memOk := h.translateParts
  split <;> exact hr.s

theorem MemInv.partial_ {s : State} {c : Ctx} {lane : Nat} {q : Req} {below : List Machine.Part} (h : MemInv s) :
    MemInv (s.partial_ c lane q below) := by
  unfold State.partial_
  split
  · extract_lets n a
    exact h.updThread
  · exact h

theorem MemInv.issueGlob {s : State} {c : Ctx} {lane : Nat} {q : Req} (h : MemInv s) : (s.issueGlob c lane q).memOk := by
  unfold State.issueGlob
  split
  · rename_i a _ heq
    have ha : MemInv a := of_eq (P := Trans2.memOk) h.reach heq
    exact ha
  · rename_i a _ _ heq
    have ha : MemInv a := of_eq (P := Trans2.memOk) h.reach heq
    exact ha.partial_
  · rename_i a _ heq
    exact of_eq (P := Trans2.memOk) h.reach heq
  · rename_i a heq
    exact of_eq (P := Trans2.memOk) h.reach heq

theorem MemInv.issueWin {s : State} {c : Ctx} {q : Req} {tob : Bool} (h : MemInv s) : (s.issueWin c q tob).memOk := by
  unfold State.issueWin
  extract_lets size space
  exact ite_inv h h

theorem MemInv.readNow {s : State} {c : Ctx} {lane : Nat} {q : Req} {parts : List Machine.Part} (h : MemInv s) :
    OptAll (FstAll MemInv) (s.readNow c lane q parts) := by
  unfold State.readNow
  extract_lets y a s1
  have hs1 : MemInv s1 := h.updThread
  refine OptAll.map (P := MemInv) hs1.performUpTo ?_
  intro _ hs12
  extract_lets v
  exact hs12.updThread

end Sys2Proof
end

section
/-! PROOFS. Every step keeps memory in its canonical form (O2): atomics, barriers, copies, fetching and control. -/

namespace Sys2Proof

open Sys2Proof.Machine

/-! ### Atomics -/

theorem MemInv.atomLane {s : State} {c : Ctx} {lane : Nat} {q : Req} (h : MemInv s) : (s.atomLane c lane q).memOk := by
  unfold State.atomLane
  split
  · exact h
  · split
    · rename_i s1 a heq2
      have hs1 : MemInv s1 := of_eq (P := Lane.memOk) h.issueGlob heq2
      split
      · extract_lets k x s2
        have hs2 : MemInv s2 := hs1.setCluster
        exact hs2.updThread
      · exact hs1
    · exact h.issueGlob

theorem MemInv.atomic {i : Instr} {s : State} {req : Ctx → Nat → Req} (h : MemInv s) : OutMemOk (atomic i s req) := by
  unfold Machine.atomic
  exact h.perLaneIf (fun _ _ _ hs2 => hs2.atomLane)

theorem MemInv.execAtomS {f : Frame} {op : AtomOp} {ty : AtomTy} {win : Bool} {ctl : AtomCtl} {s : State}
    (h : MemInv s) : OutMemOk (execAtomS f op ty win ctl s) := by
  unfold Machine.execAtomS
  refine MemInv.perLane h ?_
  intro _ _ _ hs2
  extract_lets va
  split
  · exact hs2
  · exact hs2.issueWin

/-! ### What engine operations share -/

theorem MemInv.engParts {s : State} {e : EngOf} {need : Need} {clsOk : PgCls → Option (BitVec 8)} {va n : Nat}
    (h : MemInv s) : (s.engParts e need clsOk va n).memOk := by
  unfold State.engParts
  split
  · rename_i s1 _ _ heq
    have hs1 : MemInv s1 := of_eq (P := Trans2.memOk) h.reach heq
    exact hs1.walkError
  · rename_i s1 _ heq
    exact of_eq (P := Trans2.memOk) h.reach heq
  · rename_i s1 heq
    exact of_eq (P := Trans2.memOk) h.reach heq
  · rename_i s1 _ heq
    have hs1 : MemInv s1 := of_eq (P := Trans2.memOk) h.reach heq
    exact ite_inv hs1 hs1

theorem MemInv.engFetch {s : State} {e : EngOf} {parts : List Machine.Part} (h : MemInv s) : (s.engFetch e parts).memOk := by
  unfold State.engFetch
  split
  · exact h
  · extract_lets tag s_2
    exact foldl_inv h (fun _ _ hs2 => ite_inv hs2 hs2.atHome)

theorem MemInv.engStore {s : State} {e : EngOf} {l : List Machine.Part} {l2 : List Byte} (h : MemInv s) :
    (s.engStore e l l2).memOk := by
  induction l generalizing s l2 with
  | nil =>
    rw [State.engStore]
    exact h
  | cons y l ih =>
    rw [State.engStore]
    split
    · exact ih h
    · split
      · rename_i s1 heq2
        have hs1 : MemInv s1 := of_eq (P := ExcAll (SndAll MemInv) MemInv) h.homeWrite heq2
        exact ih hs1
      · rename_i s1 heq2
        exact of_eq (P := ExcAll (SndAll MemInv) MemInv) h.homeWrite heq2

theorem MemInv.engRecord {s : State} {e : EngOf} {f : Flt} (h : MemInv s) : MemInv (s.engRecord e f) := by
  unfold State.engRecord
  exact h.postEng

theorem MemInv.engFull {s : State} {e : EngOf} {va : Nat} (h : MemInv s) : MemInv (s.engFull e va) := by
  unfold State.engFull
  exact h.engRecord.overflowAction

theorem MemInv.engQuota {s : State} {e : EngOf} {ov : Nat} (h : MemInv s) : MemInv (s.engQuota e ov) := by
  unfold State.engQuota
  split
  rename_i s1 _ heq
  have hs1 : MemInv s1 := h.engRec.of_eq heq
  exact hs1.post.fst.suspendRegion

theorem MemInv.raiseCtr {s : State} {e : EngOf} {key : Nat} {va : Option Nat} {refused : Option Flt} (h : MemInv s) :
    MemInv (s.raiseCtr e key va refused) := by
  unfold State.raiseCtr
  extract_lets tag
  split
  · exact h
  · split
    · exact h.engRecord
    · split
      · exact h
      · split
        · exact h.dataError
        · split
          · rename_i s1 heq5
            exact of_eq (P := ExcAll (SndAll MemInv) MemInv) h.homeWrite heq5
          · rename_i s1 heq5
            have hs1 : MemInv s1 := of_eq (P := ExcAll (SndAll MemInv) MemInv) h.homeWrite heq5
            exact hs1.engFull

theorem MemInv.ctrFlush {s : State} {rs : List Nat} (h : MemInv s) : MemInv (s.ctrFlush rs) := by
  unfold State.ctrFlush
  exact foldl_inv h (fun _ _ hs2 => hs2.raiseCtr)

theorem MemInv.gathFault {s : State} {rgn k va : Nat} {wr posted : Bool} (h : MemInv s) :
    MemInv (s.gathFault rgn k va wr posted) := by
  unfold State.gathFault
  exact ite_inv h h.engRecord

theorem MemInv.gathPut {s : State} {rgn k va : Nat} {data : BitVec 128} {posted : Bool} (h : MemInv s) :
    FstAll MemInv (s.gathPut rgn k va data posted) := by
  unfold State.gathPut
  extract_lets e
  split
  · exact h
  · split
    · rename_i s1 bs heq2
      have hr : (EngRes.ok s1 bs).memOk := by
        rw [← heq2]
        split
        · rename_i r heq3
          exact of_eq (P := EngParts.memOk) h.engParts heq3
        · rename_i s12 _ heq3
          have hs12 : MemInv s12 := of_eq (P := EngParts.memOk) h.engParts heq3
          exact hs12.engStore
      exact hr
    · rename_i s1 va2 key heq2
      have hr : (EngRes.poison s1 va2 key).memOk := by
        rw [← heq2]
        split
        · rename_i r heq3
          exact of_eq (P := EngParts.memOk) h.engParts heq3
        · rename_i s12 _ heq3
          have hs12 : MemInv s12 := of_eq (P := EngParts.memOk) h.engParts heq3
          exact hs12.engStore
      exact hr
    · rename_i s1 f heq2
      have hr : (EngRes.fault s1 f).memOk := by
        rw [← heq2]
        split
        · rename_i r heq3
          exact of_eq (P := EngParts.memOk) h.engParts heq3
        · rename_i s12 _ heq3
          have hs12 : MemInv s12 := of_eq (P := EngParts.memOk) h.engParts heq3
          exact hs12.engStore
      exact ite_inv (MemInv.engRecord hr) (MemInv.gathFault hr)
    · rename_i s1 v heq2
      have hr : (EngRes.full s1 v).memOk := by
        rw [← heq2]
        split
        · rename_i r heq3
          exact of_eq (P := EngParts.memOk) h.engParts heq3
        · rename_i s12 _ heq3
          have hs12 : MemInv s12 := of_eq (P := EngParts.memOk) h.engParts heq3
          exact hs12.engStore
      exact MemInv.engFull hr
    · rename_i s1 r heq2
      have hr : (EngRes.quota s1 r).memOk := by
        rw [← heq2]
        split
        · rename_i r2 heq3
          exact of_eq (P := EngParts.memOk) h.engParts heq3
        · rename_i s12 _ heq3
          have hs12 : MemInv s12 := of_eq (P := EngParts.memOk) h.engParts heq3
          exact hs12.engStore
      exact MemInv.engQuota hr
    · rename_i s1 heq2
      have hr : (EngRes.wait s1).memOk := by
        rw [← heq2]
        split
        · rename_i r heq3
          exact of_eq (P := EngParts.memOk) h.engParts heq3
        · rename_i s12 _ heq3
          have hs12 : MemInv s12 := of_eq (P := EngParts.memOk) h.engParts heq3
          exact hs12.engStore
      exact hr

theorem MemInv.gathTry {s : State} {rgn k : Nat} {wr : Bool} {va : Nat} {posted : Bool} (h : MemInv s) :
    FstAll MemInv (s.gathTry rgn k wr va posted) := by
  unfold State.gathTry
  extract_lets e
  split
  · exact h
  · split
    · rename_i s1 _ heq2
      exact of_eq (P := EngParts.memOk) h.engParts heq2
    · rename_i s1 _ heq2
      have hs1 : MemInv s1 := of_eq (P := EngParts.memOk) h.engParts heq2
      exact ite_inv hs1 hs1.gathFault
    · rename_i s1 _ heq2
      have hs1 : MemInv s1 := of_eq (P := EngParts.memOk) h.engParts heq2
      exact hs1.engQuota
    · rename_i s1 heq2
      exact of_eq (P := EngParts.memOk) h.engParts heq2
    · exact h

theorem MemInv.gathReads {s : State} {rgn k : Nat} {posted : Bool} {l : List Nat} (h : MemInv s) :
    FstAll MemInv (s.gathReads rgn k posted l) := by
  induction l generalizing s posted with
  | nil =>
    rw [State.gathReads]
    exact h
  | cons n l ih =>
    rw [State.gathReads]
    split
    · rename_i s1 heq
      have hs1 : MemInv s1 := h.gathTry.of_eq heq
      exact ih hs1
    · rename_i s1 _ heq
      exact h.gathTry.of_eq heq

theorem MemInv.readDesc {s : State} {c : Ctx} {lane va n : Nat} {cls : PgCls → Option (BitVec 8)} (h : MemInv s) :
    (s.readDesc c lane va n cls).memOk := by
  unfold State.readDesc
  split
  · exact h
  · extract_lets q
    split
    · rename_i s1 _ _ heq2
      exact of_eq (P := Trans2.memOk) h.reach heq2
    · rename_i s1 _ heq2
      exact of_eq (P := Trans2.memOk) h.reach heq2
    · rename_i s1 heq2
      exact of_eq (P := Trans2.memOk) h.reach heq2
    · rename_i s1 _ heq2
      have hs1 : MemInv s1 := of_eq (P := Trans2.memOk) h.reach heq2
      split
      · exact h
      · rename_i s4 heq3
        have hs4 : MemInv s4 := hs1.engineIssue _ heq3
        extract_lets a
        split
        · exact h
        · rename_i s42 heq4
          have hs42 : MemInv s42 := hs4.settleFor _ heq4
          split
          rename_i s2 _ _ heq5
          have hs2 : MemInv s2 := hs42.readParts.of_eq heq5
          split
          · exact hs42
          · split
            · exact hs2.dataError
            · exact hs2

/-! ### Barriers, watches and fences -/

theorem MemInv.onBar {s : State} {c : Ctx} {lane : Nat} {rmt : Bool} {g : State → BarRef → Lane} (h : MemInv s)
    (hg : ∀ (s : State) (y : BarRef), MemInv s → (g s y).memOk) : (s.onBar c lane rmt g).memOk := by
  unfold State.onBar
  split
  · exact h
  · rename_i s4 heq
    have hs4 : MemInv s4 := h.barIssue _ heq
    extract_lets addr
    split
    · rename_i heq2
      have hr : OptAll MemInv none := by
        rw [← heq2]
        split
        · exact hs4.settleOwn
        · exact OptAll.some hs4
      exact h
    · rename_i s42 heq2
      have hr : OptAll MemInv (some s42) := by
        rw [← heq2]
        split
        · exact hs4.settleOwn
        · exact OptAll.some hs4
      split
      · exact (hr _ rfl)
      · exact hg _ _ (hr _ rfl)

theorem MemInv.barInitLane {s : State} {r : BarRef} {n : Nat} (h : MemInv s) : (s.barInitLane r n).memOk := by
  unfold State.barInitLane
  exact ite_inv h (ite_inv h h.barStep)

theorem MemInv.arriveLane {s : State} {c : Ctx} {lane : Nat} {ord : SyncOrd} {scope : Scope} {r : BarRef}
    (h : MemInv s) : (s.arriveLane c lane ord scope r).memOk := by
  unfold State.arriveLane
  extract_lets m x
  split
  · exact h
  · split
    · exact h
    · rename_i s4 heq2
      have hs4 : MemInv s4 := ((ite_inv h.releaseLag (OptAll.some h)).bind (fun _ hs1 => hs1.fencedRelease)) _ heq2
      extract_lets gen x1
      split
      · exact hs4
      · split
        · split
          · exact hs4
          · rename_i s42 heq5
            have hs42 : MemInv s42 := hs4.barArrive _ heq5
            extract_lets y_2
            exact hs42.setWave
        · exact hs4.setWave.barSettle

theorem MemInv.expectLane {s : State} {r : BarRef} {n : Nat} (h : MemInv s) : (s.expectLane r n).memOk := by
  unfold State.expectLane
  extract_lets b
  exact ite_inv h h.barStep

theorem MemInv.waitLane {s : State} {c : Ctx} {lane : Nat} {ord : SyncOrd} {scope : Scope} {r : BarRef} (h : MemInv s) :
    (s.waitLane c lane ord scope r).memOk := by
  unfold State.waitLane
  extract_lets g back s1
  have hback : ∀ (s : State) (y : Bar), MemInv s → (back s y).memOk := by
    intro _ _ hs2
    unfold back
    split
    · rename_i s12 heq
      exact (ite_inv hs2.acquireAt (OptAll.some hs2)) _ heq
    · exact hs2
  have hs1 : MemInv s1 := h.barSettle
  exact ite_inv (hback _ _ hs1) (ite_inv (hback _ _ hs1) hs1)

theorem MemInv.cwatchLane {s : State} {c : Ctx} {lane : Nat} {r : BarRef} (h : MemInv s) :
    (s.cwatchLane c lane r).memOk := by
  unfold State.cwatchLane
  extract_lets va target
  cases misaligned va 8 with
  | some f => exact h
  | none =>
    cases heq : s.reach (c.x.agent c.w) .rd clsHome .base va 8 with
    | fault s1 below f => exact of_eq (P := Trans2.memOk) h.reach heq
    | quota s1 rgn => exact of_eq (P := Trans2.memOk) h.reach heq
    | wait s1 => exact of_eq (P := Trans2.memOk) h.reach heq
    | ok s1 parts =>
      have hs1 : MemInv s1 := of_eq (P := Trans2.memOk) h.reach heq
      refine ite_inv hs1 ?_
      cases hissue : s1.engineIssue c.w lane c.id with
      | none => exact hs1
      | some s2 =>
        have hs2 : MemInv s2 := hs1.engineIssue _ hissue
        exact MemInv.barStep hs2

theorem MemInv.execFence {f : Frame} {ord : SyncOrd} {scope : Scope} {s : State} (h : MemInv s) :
    OutMemOk (execFence f ord scope s) := by
  unfold Machine.execFence
  exact h.perLane (fun _ _ _ hs2 => hs2.updThread)

theorem MemInv.execCwatchArrival {watch : Nat} {s : State} (h : MemInv s) : OutMemOk (execCwatchArrival watch s) := by
  unfold Machine.execCwatchArrival
  split
  · exact h
  · split
    · exact h
    · split
      · exact h
      · split
        · exact h
        · rename_i s4 heq4
          have hs4 : MemInv s4 := h.force _ heq4
          extract_lets s1 b b1
          have hs1 : MemInv s1 := hs4
          exact hs1.barStep

/-! ### The copy engine -/

theorem MemInv.doneOf {s : State} {c : Ctx} {lane : Nat} {ck : Bool} (h : MemInv s) :
    ExcAll Lane.memOk (FstAll MemInv) (s.doneOf c lane ck) := by
  unfold State.doneOf
  split
  · extract_lets va
    cases misaligned va 8 with
    | some f => exact h
    | none =>
      cases heq : s.reach (c.x.agent c.w) Need.wr clsHome Tagging.tagged va 8 with
      | ok s1 parts => exact of_eq (P := Trans2.memOk) h.reach heq
      | fault s1 below f => exact of_eq (P := Trans2.memOk) h.reach heq
      | quota s1 r => exact of_eq (P := Trans2.memOk) h.reach heq
      | wait s1 => exact of_eq (P := Trans2.memOk) h.reach heq
  · split <;> exact h

theorem MemInv.winDesc {s : State} {c : Ctx} {lane off n : Nat} (h : MemInv s) : (s.winDesc c lane off n).memOk := by
  unfold State.winDesc
  split
  · exact h
  · split
    · exact h
    · split
      · exact h
      · rename_i s4 heq3
        exact (h.engineIssue.bind (fun _ hs1 => hs1.settleOwn)) _ heq3

theorem MemInv.putOp {s : State} {o : CopyOp} (h : MemInv s) : (s.putOp o).memOk := by
  unfold State.putOp
  exact ite_inv h h

theorem MemInv.copyStart {s : State} {c : Ctx} {lane : Nat} {ck : Bool} {d : BitVec 512} (h : MemInv s) :
    (s.copyStart c lane ck d).memOk := by
  unfold State.copyStart
  split
  · exact h
  · extract_lets dir tob
    split
    · exact h
    · exact h
    · extract_lets size d' d''
      split
      · exact h
      · split
        · exact h
        · split
          · rename_i r2 heq6
            exact of_eq (P := ExcAll Lane.memOk (FstAll MemInv)) h.doneOf heq6
          · rename_i s1 _ heq6
            have hs1 : MemInv s1 := of_eq (P := ExcAll Lane.memOk (FstAll MemInv)) h.doneOf heq6
            split
            exact hs1.putOp

theorem MemInv.copyLane {s : State} {c : Ctx} {lane : Nat} {dg ck : Bool} (h : MemInv s) :
    (s.copyLane c lane dg ck).memOk := by
  unfold State.copyLane
  extract_lets got
  have hgot : got.memOk := ite_inv h.readDesc h.winDesc
  clear_value got
  split
  · exact hgot
  · extract_lets d1
    exact MemInv.copyStart hgot

theorem MemInv.slotted {i : Instr} {s : State} {g : Ctx → State → Nat → Lane} (h : MemInv s)
    (hg : ∀ (c : Ctx) (s : State) (n : Nat), MemInv s → (g c s n).memOk) : OutMemOk (slotted i s g) := by
  unfold Machine.slotted
  exact h.perLaneIf (fun _ _ _ hs2 => hg _ _ _ hs2)

theorem MemInv.haloLane {s : State} {c : Ctx} {lane : Nat} (h : MemInv s) : (s.haloLane c lane).memOk := by
  unfold State.haloLane
  split
  · rename_i heq
    exact of_eq (P := DescRes.memOk) h.winDesc heq
  · rename_i s1 d0 heq
    have hs1 : MemInv s1 := of_eq (P := DescRes.memOk) h.winDesc heq
    extract_lets d doff rows width
    refine ite_inv hs1 (ite_inv hs1 ?_)
    cases s1.partnerOf c.x (dfield d 1 0) with
    | none => exact hs1
    | some src =>
      cases s1.barAt c.x true (dfield d 255 224) with
      | error f => exact hs1
      | ok cbar =>
        cases s1.barAt c.x false (c.b lane) with
        | error f => exact hs1
        | ok r => exact hs1.putOp

theorem MemInv.setOp {s : State} {id : Nat} {g : CopyOp → Option CopyOp} (h : MemInv s) : MemInv (s.setOp id g) := by
  unfold State.setOp
  exact MemInv.countFwd h

theorem MemInv.finish {s : State} {o : CopyOp} (h : MemInv s) : MemInv (s.finish o) := by
  unfold State.finish
  split
  · exact h
  · exact h.raiseCtr

theorem MemInv.copyFault {s : State} {o : CopyOp} {sub : BitVec 8} {addr : Nat} {wr : Bool} (h : MemInv s) :
    MemInv (s.copyFault o sub addr wr) := by
  unfold State.copyFault
  extract_lets s1
  have hs1 : MemInv s1 := h.setOp.land
  exact hs1.finish.engRecord

theorem Machine.EngRes.memOk.copyRes {o : CopyOp} {wr : Bool} {r : EngRes} {k : State → List Byte → State}
    (hr : r.memOk) (hk : ∀ (s : State) (y : List Byte), MemInv s → MemInv (k s y)) : MemInv (copyRes o wr r k) := by
  unfold Machine.copyRes
  split
  · exact hk _ _ hr
  · exact MemInv.copyFault hr
  · exact MemInv.dataError (MemInv.copyFault hr)
  · exact MemInv.engFull (MemInv.setOp hr)
  · exact MemInv.engQuota (MemInv.setOp hr)
  · exact hr

theorem MemInv.copyOwn {s : State} {o : CopyOp} {sp : Space} {key n : Nat} (h : MemInv s) :
    MemInv (s.copyOwn o sp key n) := by
  unfold State.copyOwn
  exact h.settleOwn.getD h

theorem MemInv.copyOwnParts {s : State} {o : CopyOp} {parts : List Machine.Part} (h : MemInv s) :
    MemInv (s.copyOwnParts o parts) := by
  unfold State.copyOwnParts
  exact foldl_inv h (fun _ _ hs2 => hs2.copyOwn)

theorem MemInv.copyPut {s : State} {wg : Nat} {tob : Bool} {off : Nat} {bs : List Byte} (h : MemInv s) :
    MemInv (s.copyPut wg tob off bs) := h

theorem MemInv.copyLanded {s : State} {o : CopyOp} {n run : Nat} (h : MemInv s) : MemInv (s.copyLanded o n run) := by
  unfold State.copyLanded
  extract_lets s1 move
  have hs1 : MemInv s1 := h.land
  exact ite_inv hs1.setOp.finish hs1.setOp

theorem MemInv.copyPart {s : State} {o : CopyOp} {g l : Nat} (h : MemInv s) : MemInv (s.copyPart o g l) := by
  unfold State.copyPart
  split
  extract_lets dir n_2 s0 s0_2 sp
  have hs0 : MemInv s0 := h.copyOwn
  have hs0_2 : MemInv s0_2 := h.copyOwn.copyOwn
  split
  · split
    · rename_i r heq3
      have hr : r.memOk := of_eq (P := EngParts.memOk) hs0.engParts heq3
      exact hr.copyRes (fun _ _ hs2 => hs2)
    · rename_i s1 _ heq3
      have hs1 : MemInv s1 := of_eq (P := EngParts.memOk) hs0.engParts heq3
      exact hs1.copyOwnParts.engStore.copyRes (fun _ _ hs2 => hs2.copyLanded)
  · split
    · exact hs0_2.copyPut.copyLanded
    · split
      · rename_i r heq4
        have hr : r.memOk := of_eq (P := EngParts.memOk) h.engParts heq4
        exact hr.copyRes (fun _ _ hs2 => hs2)
      · rename_i s1 _ heq4
        have hs1 : MemInv s1 := of_eq (P := EngParts.memOk) h.engParts heq4
        exact hs1.copyOwnParts.copyOwn.engFetch.copyRes (fun _ _ hs2 => hs2.copyPut.copyLanded)

theorem MemInv.copyNext {s : State} {o : CopyOp} (h : MemInv s) : MemInv (s.copyNext o) := by
  unfold State.copyNext
  split
  extract_lets i j l base pitch at_
  refine ite_inv h.copyPart ?_
  cases o.idx with
  | some v => exact h.copyPart
  | none =>
    cases heq : s.engParts o.eng .rd clsAny ((dfield o.desc 383 320 + 4 * i) % 2 ^ 64) 4 with
    | stop r => exact EngRes.memOk.copyRes (of_eq (P := EngParts.memOk) h.engParts heq) (fun _ _ hs2 => hs2)
    | ok s1 ps =>
      have hs1 : MemInv s1 := of_eq (P := EngParts.memOk) h.engParts heq
      exact hs1.copyOwnParts.engFetch.copyRes (fun _ _ hs2 => hs2.setOp.copyPart)

theorem MemInv.haloNext {s : State} {o : CopyOp} (h : MemInv s) : MemInv (s.haloNext o) := by
  unfold State.haloNext
  extract_lets width src dst n s0
  have hs0 : MemInv s0 := h.copyOwn
  exact ite_inv h.copyFault hs0.copyPut.copyLanded

theorem MemInv.execCopyTransfer {op : Nat} {s : State} (h : MemInv s) : OutMemOk (execCopyTransfer op s) := by
  unfold Machine.execCopyTransfer
  split
  · exact h
  · split
    · exact h
    · exact ite_inv h.haloNext h
    · exact ite_inv h (ite_inv h.setOp.copyNext h)

theorem MemInv.execHaloStart {op : Nat} {s : State} (h : MemInv s) : OutMemOk (execHaloStart op s) := by
  unfold Machine.execHaloStart
  split
  · exact h
  · split
    · exact h
    · split
      · split
        · exact h
        · split
          · rename_i s1 heq5
            have hs1 : MemInv s1 := h.force _ heq5
            exact hs1.pullFor.setOp
          · exact h
      · split
        · exact h
        · split
          · rename_i s1 heq5
            have hs1 : MemInv s1 := h.force _ heq5
            exact hs1.pullFor.setOp
          · exact h

/-! ### Fetching an instruction -/

theorem MemInv.blockBytes {s : State} {key : Nat} (h : MemInv s) : FstAll MemInv (s.blockBytes key) := by
  unfold State.blockBytes
  split
  · exact h
  · extract_lets s1
    exact h.atHome

theorem MemInv.cacheBlock {s : State} {cap : Nat} {m : NMap (List Byte)} {blk : Nat} {bs : List Byte} (h : MemInv s) :
    FstAll MemInv (s.cacheBlock cap m blk bs) := by
  unfold State.cacheBlock
  split
  · exact h
  · split
    rename_i s1 heq2
    exact h.fresh.of_eq heq2

theorem MemInv.fillL0 {s : State} {w blk : Nat} {bs : List Byte} (h : MemInv s) : MemInv (s.fillL0 w blk bs) := by
  unfold State.fillL0
  extract_lets g
  split
  rename_i s1 _ heq
  have hs1 : MemInv s1 := h.cacheBlock.of_eq heq
  extract_lets c
  exact hs1.setCore

theorem MemInv.fillCore {s : State} {w blk : Nat} {bs : List Byte} (h : MemInv s) : MemInv (s.fillCore w blk bs) := by
  unfold State.fillCore
  extract_lets g
  split
  rename_i s1 _ heq
  have hs1 : MemInv s1 := h.cacheBlock.of_eq heq
  extract_lets c
  exact hs1.setCore

theorem MemInv.fetchBlock {s : State} {w rgn key : Nat} (h : MemInv s) : FstAll MemInv (s.fetchBlock w rgn key) := by
  unfold State.fetchBlock
  extract_lets blk c l0
  split
  rename_i s1 _ heq
  have hs1 : MemInv s1 := h.blockBytes.of_eq heq
  extract_lets bad both home
  have hboth : ∀ (s : State), MemInv s → MemInv (both s) := by
    intro _ hs2
    unfold both
    exact hs2.fillCore.fillL0
  have hhome : ∀ (s : State), MemInv s → FstAll MemInv (home s) := by
    intro _ hs2
    unfold home
    split
    · split
      rename_i s12 heq3
      have hs12 : MemInv s12 := hs2.fresh.of_eq heq3
      exact hs12.dataError
    · exact hboth _ hs2
  split
  · exact hhome _ hs1
  · split
    · exact hs1
    · split
      rename_i s12 heq5
      have hs12 : MemInv s12 := hs1.fresh.of_eq heq5
      exact ite_inv hs12 (hhome _ hs12)
  · split
    · exact hs1.fillL0
    · split
      rename_i s12 heq5
      have hs12 : MemInv s12 := hs1.fresh.of_eq heq5
      exact ite_inv hs12.fillL0 (hhome _ hs12)
  · split
    · exact hs1
    · split
      rename_i s12 heq5
      have hs12 : MemInv s12 := hs1.fresh.of_eq heq5
      exact ite_inv hs12 (ite_inv hs12.fillL0 (hhome _ hs12))

theorem MemInv.fetchedOf {s : State} {u : Unit2} {bs : List Byte} (h : MemInv s) : (fetchedOf s u bs).memOk := by
  unfold Machine.fetchedOf
  split
  · exact h
  · split
    · exact h
    · split
      · exact h
      · split <;> exact h

theorem MemInv.fetch {s : State} {w : Nat} (h : MemInv s) : (s.fetch w).memOk := by
  unfold State.fetch
  split
  · exact trivial
  · split
    · exact trivial
    · split
      · exact trivial
      · extract_lets pc blk
        split
        · rename_i s1 _ heq4
          exact of_eq (P := TransRes.memOk) h.translate heq4
        · rename_i s1 _ heq4
          exact of_eq (P := TransRes.memOk) h.translate heq4
        · rename_i s1 heq4
          exact of_eq (P := TransRes.memOk) h.translate heq4
        · rename_i s1 _ heq4
          have hs1 : MemInv s1 := of_eq (P := TransRes.memOk) h.translate heq4
          split
          · exact hs1.fetchedOf
          · split
            rename_i s12 _ heq6
            have hs12 : MemInv s12 := hs1.fetchBlock.of_eq heq6
            exact MemInv.fetchedOf hs12

theorem MemInv.settlePath {s : State} {w : Nat} {lanes : List Nat} (h : MemInv s) : MemInv (s.settlePath w lanes) := h

theorem MemInv.faultPath {s : State} {w : Nat} {f : Flt} (h : MemInv s) : MemInv (s.faultPath w f) := by
  unfold State.faultPath
  split
  rename_i pc heq
  extract_lets rgn s1
  have hs1 : MemInv s1 := foldl_inv h.holdActs (fun _ _ hs2 => hs2.raise)
  exact (ite_inv hs1 hs1.walkError).settlePath.actAll

theorem MemInv.quotaPath {s : State} {w rgn : Nat} (h : MemInv s) : MemInv (s.quotaPath w rgn) := by
  unfold State.quotaPath
  split
  rename_i pc heq
  exact (foldl_inv h.holdActs (fun _ _ hs2 => hs2.raiseQuota?.getD hs2)).settlePath.actAll

theorem MemInv.skipFiller {s : State} {w : Nat} (h : MemInv s) : MemInv (s.skipFiller w) := h

theorem MemInv.tick {s : State} (h : MemInv s) : MemInv s.tick := h

/-! ### Branches, joins, exits and spawning -/

theorem MemInv.noteBackward {s : State} {c : Ctx} (h : MemInv s) : MemInv (s.noteBackward c) := by
  unfold State.noteBackward
  extract_lets back s1 q
  have hs1 : MemInv s1 := h
  split
  · clear_value back
    split
    · exact h
    · exact hs1
  · clear_value back
    split
    · exact h
    · extract_lets k b
      exact hs1.setCore

theorem MemInv.goTo {s : State} {c : Ctx} {lane : Nat} {tgt : DWord} (h : MemInv s) : MemInv (s.goTo c lane tgt) := h

theorem MemInv.branchLane {s : State} {c : Ctx} {lane : Nat} {tgt : DWord} (h : MemInv s) :
    (s.branchLane c lane tgt).memOk := by
  unfold State.branchLane
  split
  · exact h
  · rename_i heq
    exact h.goTo

theorem MemInv.callLane {s : State} {c : Ctx} {lane : Nat} {tgt : DWord} (h : MemInv s) :
    (s.callLane c lane tgt).memOk := by
  unfold State.callLane
  extract_lets t go
  have hgo : ∀ s1, MemInv s1 → MemInv (go s1) := by
    intro _ hs1
    unfold go
    exact hs1.updThread.goTo
  split
  · exact h
  · split
    · exact hgo _ h
    · split
      · exact h
      · split
        · rename_i s1 a heq
          have hs1 : MemInv s1 := of_eq (P := Lane.memOk) h.issueGlob heq
          exact hgo _ hs1
        · exact h.issueGlob

theorem MemInv.retLane {s : State} {c : Ctx} {lane : Nat} (h : MemInv s) : (s.retLane c lane).memOk := by
  unfold State.retLane
  extract_lets t q
  split
  · split
    · exact h
    · rename_i heq2
      exact MemInv.goTo h.updThread
  · split
    · exact h
    · split
      · rename_i s1 _ _ heq3
        exact of_eq (P := Trans2.memOk) h.reach heq3
      · rename_i s1 _ heq3
        exact of_eq (P := Trans2.memOk) h.reach heq3
      · rename_i s1 heq3
        exact of_eq (P := Trans2.memOk) h.reach heq3
      · rename_i s1 _ heq3
        have hs1 : MemInv s1 := of_eq (P := Trans2.memOk) h.reach heq3
        split
        · exact h
        · rename_i s2 _ heq4
          have hs2 : MemInv s2 := hs1.readNow _ heq4
          extract_lets ra
          split
          · exact hs2
          · rename_i heq5
            exact MemInv.goTo hs2.updThread

theorem MemInv.branching {i : Instr} {s : State} {g : Ctx → State → Nat → Lane} (h : MemInv s)
    (hg : ∀ (c : Ctx) (s : State) (n : Nat), MemInv s → (g c s n).memOk) : OutMemOk (branching i s g) := by
  unfold Machine.branching
  exact h.run (fun _ _ hs2 => (hs2.eachLane (fun _ _ hs3 => hg _ _ _ hs3)).noteBackward)

theorem MemInv.putMask {s : State} {c : Ctx} {m : Word} (h : MemInv s) : MemInv (s.putMask c m) := by
  unfold State.putMask
  exact ite_inv h h.putDst

theorem MemInv.joinLane {s : State} {c : Ctx} {lane k : Nat} {v : Word} (h : MemInv s) : (s.joinLane c lane k v).memOk := by
  unfold State.joinLane
  split
  · exact h
  · extract_lets inst bad j j1
    split
    · clear_value bad
      split <;> exact h
    · rename_i s4 heq2
      have hs4 : MemInv s4 := h.drain _ heq2
      clear_value bad
      split
      · exact h
      · exact hs4

theorem MemInv.execJoin {f : Frame} {s : State} (h : MemInv s) : OutMemOk (execJoin f s) := by
  unfold Machine.execJoin
  refine MemInv.run h ?_
  intro _ _ hs2
  extract_lets k s2_2
  have hs2_2 : MemInv s2_2 := hs2.eachLane (fun _ _ hs3 => hs3.joinLane)
  exact hs2_2

theorem MemInv.syncLane {s : State} {c : Ctx} {lane : Nat} {v : Word} (h : MemInv s) : (s.syncLane c lane v).memOk := by
  unfold State.syncLane
  split
  · exact h
  · extract_lets insts arrive
    split
    · exact h
    · split
      · exact h
      · rename_i s4 heq3
        have hs4 : MemInv s4 := h.drain _ heq3
        exact hs4

theorem MemInv.execWsync {f : Frame} {s : State} (h : MemInv s) : OutMemOk (execWsync f s) := by
  unfold Machine.execWsync
  refine MemInv.run h ?_
  intro _ _ hs2
  extract_lets s2_2
  have hs2_2 : MemInv s2_2 := hs2.eachLane (fun _ _ hs3 => hs3.syncLane)
  exact hs2_2

theorem MemInv.exitLane {s : State} {c : Ctx} {lane : Nat} (h : MemInv s) : (s.exitLane c lane).memOk := by
  unfold State.exitLane
  split
  · exact h
  · rename_i s4 heq
    have hs4 : MemInv s4 := h.returnAll _ heq
    exact hs4.exitThread

theorem MemInv.execYield {f : Frame} {s : State} (h : MemInv s) : OutMemOk (execYield f s) := by
  unfold Machine.execYield
  exact h.issue (fun _ _ hs2 => ite_inv hs2.settleTurn (MemInv.actAll hs2)) (fun _ _ hs2 => hs2)

theorem MemInv.updBin {s : State} {k i : Nat} {g : SpawnBin → SpawnBin} (h : MemInv s) : MemInv (s.updBin k i g) := h

theorem MemInv.newChunk {s : State} {rgn : Nat} {x : Region} (h : MemInv s) :
    OptAll (FstAll MemInv) (State.spawnChunk.newChunk s rgn x) := by
  unfold State.spawnChunk.newChunk
  exact ite_inv OptAll.none (OptAll.mapOf (fun _ => h.updRegion))

theorem MemInv.spawnChunk {s : State} {rgn : Nat} {b : SpawnBin} (h : MemInv s) :
    OptAll (FstAll MemInv) (s.spawnChunk rgn b) := by
  unfold State.spawnChunk
  split
  · exact OptAll.none
  · split
    · exact ite_inv (OptAll.some h) h.newChunk
    · exact h.newChunk

theorem MemInv.putRec {s : State} {k i : Nat} {r : BinRec} (h : MemInv s) : MemInv (s.putRec k i r) := by
  unfold State.putRec
  split
  · split
    rename_i s1 _ heq3
    have hs1 : MemInv s1 := h.gathPut.of_eq heq3
    exact MemInv.updBin hs1
  · exact h

theorem MemInv.binTry {s : State} {k i : Nat} {b : SpawnBin} {recs : List BinRec} (h : MemInv s) :
    FstAll MemInv (s.binTry k i b recs) := by
  unfold State.binTry
  split
  · rename_i s1 _ y heq
    have hs1 : MemInv s1 := h.gathReads.of_eq heq
    exact hs1.updBin
  · rename_i s1 heq
    have hs1 : MemInv s1 := h.gathReads.of_eq heq
    exact ite_inv hs1 hs1.updBin

theorem MemInv.binRetry {s : State} {k i : Nat} (h : MemInv s) : FstAll MemInv (s.binRetry k i) := by
  unfold State.binRetry
  split
  · exact h
  · split
    · exact h
    · split
      · rename_i s1 heq3
        have hs1 : MemInv s1 := h.gathTry.of_eq heq3
        exact hs1.updBin
      · rename_i s1 _ heq3
        have hs1 : MemInv s1 := h.gathTry.of_eq heq3
        exact hs1.updBin

theorem MemInv.freeChunks {s : State} {rgn : Nat} (h : MemInv s) : MemInv (s.freeChunks rgn) := h

theorem MemInv.unspillBin {s : State} {k i : Nat} (h : MemInv s) : MemInv (s.unspillBin k i) := by
  unfold State.unspillBin
  extract_lets c room
  split
  · exact h
  · split
    · exact MemInv.freeChunks h.setCluster
    · extract_lets first
      split
      · exact h.freeChunks
      · split
        rename_i s1 _ heq4
        have hs1 : MemInv s1 := h.binTry.of_eq heq4
        exact MemInv.freeChunks (ite_inv hs1.updBin hs1)

theorem MemInv.spawnPut {s : State} {k rgn i : Nat} {b : SpawnBin} {data : BitVec 128} (h : MemInv s) :
    OkAll MemInv (s.spawnPut k rgn i b data) := by
  unfold State.spawnPut
  extract_lets put
  have hput : ∀ (s : State) (y : BinRec), MemInv s → MemInv (put s y) := by
    intro _ _ hs2
    unfold put
    extract_lets c
    exact hs2.setCluster
  split
  · exact hput _ _ h
  · split
    · exact trivial
    · rename_i s1 _ heq2
      have hs1 : MemInv s1 := h.spawnChunk _ heq2
      extract_lets r
      exact (hput _ _ hs1).putRec

theorem MemInv.spawnAppend {s : State} {k rgn : Nat} {entry : DWord} {tag : Option (BitVec 5)} {sdep : Nat}
    {data : BitVec 128} (h : MemInv s) : OkAll MemInv (s.spawnAppend k rgn entry tag sdep data) := by
  unfold State.spawnAppend
  split
  · exact trivial
  · rename_i b heq
    split
    · exact h.spawnPut
    · extract_lets s1
      have hs1 : MemInv s1 := h.unspillBin
      exact hs1.spawnPut

theorem MemInv.spawnLane {s : State} {c : Ctx} {lane : Nat} {flt : Bool} (h : MemInv s) :
    (s.spawnLane c lane flt).memOk := by
  unfold State.spawnLane
  extract_lets entry t data
  split
  · exact h
  · rename_i heq
    split
    · exact h
    · split
      · exact h
      · rename_i s4 heq3
        have hs4 : MemInv s4 := h.releaseAt _ heq3
        split
        · rename_i s2 heq4
          exact of_eq (P := OkAll MemInv) hs4.spawnAppend heq4
        · exact ite_inv hs4 hs4

end Sys2Proof
end

section
/-! PROOFS. Every step keeps memory in its canonical form (O2): placement, gathering, sweeps and collectives. -/

namespace Sys2Proof

open Sys2Proof.Machine

/-! ### Waves as they start -/

theorem MemInv.setRoles {s : State} {g scrn tobn : Nat} (h : MemInv s) : MemInv (s.setRoles g scrn tobn) := by
  unfold State.setRoles
  extract_lets c s1 y
  have hs1 : MemInv s1 := h.dropWhere
  exact ite_inv h hs1.setCore

theorem MemInv.beginMove {s : State} {frame slice : Nat} (h : MemInv s) : FstAll MemInv (s.beginMove frame slice) := by
  unfold State.beginMove
  exact ite_inv h h

theorem MemInv.askHome {s : State} {frame slice : Nat} (h : MemInv s) : MemInv (s.askHome frame slice) := by
  unfold State.askHome
  exact h.beginMove.fst

theorem MemInv.placedFor {s : State} {r : Nat} (h : MemInv s) : MemInv (s.placedFor r) := h

theorem MemInv.noteCore {s : State} {g : Nat} {x : Wave} (h : MemInv s) : MemInv (s.noteCore g x) := h

theorem MemInv.seat {s : State} {g slot : Nat} {x : Wave} (h : MemInv s) : MemInv (s.seat g slot x) := by
  unfold State.seat
  extract_lets w s1 y
  have hs1 : MemInv s1 := h.force.getD h
  have hy : MemInv y := hs1.dropClean.noteCore.setWave
  exact MemInv.wakeCore hy

theorem MemInv.takePlace {s : State} {g : Nat} {y : Wg} (h : MemInv s) : MemInv (s.takePlace g y) := h

theorem MemInv.seatWg {s : State} {rgn : Nat} {x : Region} {index g : Nat} {p : Plan} {group : Option Nat}
    {member : Nat} (h : MemInv s) : MemInv (s.seatWg rgn x index g p group member) := by
  unfold State.seatWg
  extract_lets wid r s2 lane
  have hs2 : MemInv s2 := h.setRoles.takePlace
  exact foldl_inv hs2 (fun _ _ hs3 => hs3.seat)

theorem MemInv.seatDelivered {s : State} {d : Delivery} {x : Region} {g entry : Nat} {p : Plan} (h : MemInv s) :
    MemInv (s.seatDelivered d x g entry p) := by
  unfold State.seatDelivered
  extract_lets wid r index s2 lane s3
  have hs3 : MemInv s3 := h.setRoles.takePlace.updRegion
  exact foldl_inv hs3 (fun _ _ hs => hs.seat)

theorem MemInv.seatCaller {s : State} {rgn : Nat} {x : Region} {cluster q wg h : Nat} (hs : MemInv s) :
    MemInv (s.seatCaller rgn x cluster q wg h) := by
  unfold State.seatCaller
  extract_lets r regs t y s1
  have hs1 : MemInv s1 := foldl_inv hs (fun _ _ hs2 => hs2.setCore)
  exact hs1

/-! ### Gathering queues and spawn bins -/

theorem MemInv.setQueue {s : State} {k n : Nat} {q : GQueue} (h : MemInv s) : MemInv (s.setQueue k n q) := h

theorem MemInv.queueTry {s : State} {k n rgn : Nat} {vas : List Nat} (h : MemInv s) :
    FstAll MemInv (s.queueTry k n rgn vas) := by
  unfold State.queueTry
  split
  · rename_i s1 _ y heq
    have hs1 : MemInv s1 := h.gathReads.of_eq heq
    refine FstAll.intro ?_
    exact MemInv.setQueue hs1
  · rename_i s1 heq
    have hs1 : MemInv s1 := h.gathReads.of_eq heq
    refine FstAll.intro ?_
    split
    · exact hs1
    · exact MemInv.setQueue hs1

theorem MemInv.queueRetry {s : State} {k n : Nat} (h : MemInv s) : FstAll MemInv (s.queueRetry k n) := by
  unfold State.queueRetry
  extract_lets q
  split
  · exact h
  · exact h
  · split
    · rename_i s1 heq3
      have hs1 : MemInv s1 := h.gathTry.of_eq heq3
      refine FstAll.intro ?_
      exact MemInv.setQueue hs1
    · rename_i s1 _ heq3
      have hs1 : MemInv s1 := h.gathTry.of_eq heq3
      refine FstAll.intro ?_
      exact MemInv.setQueue hs1

theorem MemInv.unspillQueue {s : State} {k n : Nat} (h : MemInv s) : MemInv (s.unspillQueue k n) := by
  unfold State.unspillQueue
  extract_lets q room first
  split
  · exact h
  · split
    · exact h
    · split
      rename_i s1 _ heq3
      have hs1 : MemInv s1 := h.queueTry.of_eq heq3
      extract_lets q1
      exact ite_inv hs1.setQueue hs1

theorem MemInv.spillPut {s : State} {k n pos : Nat} {data : BitVec 128} (h : MemInv s) :
    MemInv (s.spillPut k n pos data) := by
  unfold State.spillPut
  extract_lets q
  split
  · exact h
  · split
    rename_i s1 _ heq2
    have hs1 : MemInv s1 := h.gathPut.of_eq heq2
    extract_lets q1
    exact MemInv.setQueue hs1

theorem MemInv.rewriteQueue {s : State} {k n : Nat} (h : MemInv s) : FstAll MemInv (s.rewriteQueue k n) := by
  unfold State.rewriteQueue
  extract_lets q put s1
  have hput : ∀ (s : State) (y : GSlot), MemInv s → MemInv (put s y) := by
    intro _ _ hs2
    unfold put
    split
    · exact ite_inv hs2 hs2.spillPut
    · exact hs2
  have hs1 : MemInv s1 := foldl_inv h.setQueue (fun _ _ hs2 => hput _ _ hs2)
  exact ite_inv h hs1

theorem MemInv.addSlot {s : State} {k n rgn : Nat} {tag : Option (BitVec 5)} {data : Option (BitVec 128)}
    {spill : Option Nat} (h : MemInv s) : MemInv (s.addSlot k n rgn tag data spill) := by
  unfold State.addSlot
  extract_lets q t s1
  have hs1 : MemInv s1 := h.setQueue
  split
  · exact hs1.spillPut
  · exact hs1

theorem MemInv.produceLane {s : State} {c : Ctx} {lane : Nat} {flt enq : Bool} (h : MemInv s) :
    (s.produceLane c lane flt enq).memOk := by
  unfold State.produceLane
  extract_lets id data
  split
  · exact h
  · split
    · exact h
    · rename_i s4 heq2
      have hs4 : MemInv s4 := (ite_inv h.releaseAt (OptAll.some h)) _ heq2
      extract_lets on s2 q
      have hs2 : MemInv s2 := ite_inv hs4.unspillQueue hs4
      split
      · exact ite_inv hs2 hs2
      · exact hs2.addSlot

theorem MemInv.publishLane {s : State} {c : Ctx} {lane : Nat} (h : MemInv s) : (s.publishLane c lane).memOk := by
  unfold State.publishLane
  split
  · exact h
  · split
    · exact h
    · rename_i s4 heq2
      have hs4 : MemInv s4 := h.releaseAt _ heq2
      extract_lets q ticket mine data put s2
      have hs2 : MemInv s2 := hs4.setQueue
      split
      · exact hs4
      · show MemInv _
        split
        · exact hs2.spillPut
        · exact hs2

theorem MemInv.configLane {s : State} {c : Ctx} {lane : Nat} (h : MemInv s) : (s.configLane c lane).memOk := by
  unfold State.configLane
  split
  · exact h
  · extract_lets q
    split
    · exact h
    · split
      · rename_i heq
        exact of_eq (P := DescRes.memOk) h.readDesc heq
      · rename_i s1 d heq
        have hs1 : MemInv s1 := of_eq (P := DescRes.memOk) h.readDesc heq
        split
        · exact hs1
        · rename_i hd
          extract_lets bad
          exact ite_inv hs1 (ite_inv hs1 hs1.setQueue)

theorem MemInv.voidRecord {s : State} {k n : Nat} {t : GSlot} (h : MemInv s) : MemInv (s.voidRecord k n t) := by
  unfold State.voidRecord
  exact h.engRecord

theorem MemInv.disableLane {s : State} {c : Ctx} {lane : Nat} (h : MemInv s) : (s.disableLane c lane).memOk := by
  unfold State.disableLane
  split
  · exact h
  · extract_lets q s1
    have hs1 : MemInv s1 := h.setQueue
    exact foldl_inv hs1 (fun _ _ hs2 => hs2.voidRecord)

theorem MemInv.ackLane {s : State} {c : Ctx} {lane : Nat} (h : MemInv s) : (s.ackLane c lane).memOk := by
  unfold State.ackLane
  split
  · exact h
  · extract_lets q b
    exact ite_inv h h.setQueue

theorem MemInv.queryLane {s : State} {c : Ctx} {lane : Nat} (h : MemInv s) : (s.queryLane c lane).memOk := by
  unfold State.queryLane
  split <;> exact h

theorem MemInv.rewriteBin {s : State} {k i : Nat} (h : MemInv s) : FstAll MemInv (s.rewriteBin k i) := by
  unfold State.rewriteBin
  split
  · exact h
  · split
    · exact h
    · extract_lets left s1
      exact foldl_inv h.updBin (fun _ _ hs2 => ite_inv hs2 hs2.putRec)

theorem MemInv.fireBin {s : State} {k n : Nat} {q : GQueue} {rgn : Nat} {batch : List GSlot} (h : MemInv s) :
    FstAll MemInv (s.fireBin k n q rgn batch) := by
  unfold State.fireBin
  split
  · exact h
  · extract_lets recs d
    exact h

theorem MemInv.putBatch {s : State} {k n rgn : Nat} {q : GQueue} {off : Nat} {l : List GSlot} (h : MemInv s) :
    FstAll MemInv (s.putBatch k n rgn q off l) := by
  induction l generalizing s off with
  | nil =>
    rw [State.putBatch]
    exact h
  | cons y l ih =>
    rw [State.putBatch]
    split
    rename_i s1 _ heq
    have hs1 : MemInv s1 := h.gathPut.of_eq heq
    split
    · exact ih hs1
    · exact FstAll.intro hs1.setQueue

theorem MemInv.fireCaller {s : State} {k n : Nat} {q : GQueue} {rgn : Nat} {batch : List GSlot} (h : MemInv s) :
    FstAll MemInv (s.fireCaller k n q rgn batch) := by
  unfold State.fireCaller
  split
  · exact h
  · split
    rename_i s1 _ heq2
    have hs1 : MemInv s1 := h.putBatch.of_eq heq2
    extract_lets q1 len s2 c word
    have hs2 : MemInv s2 := hs1.setQueue
    exact ite_inv hs1 (MemInv.wakeWhere hs2.setCluster)

theorem MemInv.queueReady {s : State} {k n : Nat} (h : MemInv s) : FstAll MemInv (s.queueReady k n) := by
  unfold State.queueReady
  split
  · rename_i s1 heq
    have hs1 : MemInv s1 := h.queueRetry.of_eq heq
    exact hs1.rewriteQueue
  · exact h.queueRetry

theorem MemInv.binReady {s : State} {k i : Nat} (h : MemInv s) : FstAll MemInv (s.binReady k i) := by
  unfold State.binReady
  split
  · rename_i s1 heq
    have hs1 : MemInv s1 := h.binRetry.of_eq heq
    exact hs1.rewriteBin
  · exact h.binRetry

theorem MemInv.fireQueue {s : State} {k n : Nat} (h : MemInv s) : FstAll MemInv (s.fireQueue k n) := by
  unfold State.fireQueue
  split
  · exact h
  · rename_i s2 _ heq2
    exact h.queueReady.of_eq heq2
  · rename_i s2 _ heq2
    have hs2 : MemInv s2 := h.queueReady.of_eq heq2
    extract_lets q batch
    split
    · rename_i s22 heq3
      exact hs2.queueTry.of_eq heq3
    · rename_i s22 heq3
      have hs22 : MemInv s22 := hs2.queueTry.of_eq heq3
      split
      · rename_i s23 heq4
        exact (ite_inv hs22.fireCaller hs22.fireBin).of_eq heq4
      · rename_i s23 heq4
        have hs23 : MemInv s23 := (ite_inv hs22.fireCaller hs22.fireBin).of_eq heq4
        extract_lets q2
        exact MemInv.unspillQueue hs23.setQueue

theorem MemInv.fireSpawn {s : State} {k i : Nat} (h : MemInv s) : FstAll MemInv (s.fireSpawn k i) := by
  unfold State.fireSpawn
  split
  · rename_i s2 heq
    exact h.binReady.of_eq heq
  · rename_i s2 heq
    have hs2 : MemInv s2 := h.binReady.of_eq heq
    split
    · exact hs2
    · rename_i b heq2
      extract_lets batch
      split
      · rename_i s22 heq3
        exact hs2.binTry.of_eq heq3
      · rename_i s22 heq3
        have hs22 : MemInv s22 := hs2.binTry.of_eq heq3
        split
        · exact hs22
        · extract_lets d y_2 s2_2
          have hy_2 : MemInv y_2 := hs22.updBin
          have hs2_2 : MemInv s2_2 := hy_2
          exact hs2_2.unspillBin

theorem MemInv.fireFirst {s : State} {k : Nat} {l : List Fire} (h : MemInv s) : FstAll MemInv (s.fireFirst k l) := by
  induction l generalizing s with
  | nil =>
    rw [State.fireFirst]
    exact h
  | cons y l ih =>
    rw [State.fireFirst]
    exact ite_inv (ite_inv h.fireSpawn h.fireQueue) (ih (ite_inv h.fireSpawn h.fireQueue).fst)

theorem MemInv.execGatherFiring {cluster : Nat} {s : State} (h : MemInv s) : OutMemOk (execGatherFiring cluster s) := by
  unfold Machine.execGatherFiring
  split
  · exact h
  · extract_lets r c
    have hr : FstAll MemInv r := h.fireFirst
    exact ite_inv hr.fst.setCluster hr.fst

theorem MemInv.execReservationVoid {cluster queue ticket : Nat} {s : State} (h : MemInv s) :
    OutMemOk (execReservationVoid cluster queue ticket s) := by
  unfold Machine.execReservationVoid
  extract_lets q due
  split
  · exact h
  · exact MemInv.voidRecord h.setQueue

theorem MemInv.execGatherFaultRetry {cluster queue : Nat} {s : State} (h : MemInv s) :
    OutMemOk (execGatherFaultRetry cluster queue s) := by
  unfold Machine.execGatherFaultRetry
  split
  · split
    · rename_i s1 heq2
      have hs1 : MemInv s1 := h.queueReady.of_eq heq2
      exact hs1.unspillQueue
    · rename_i s1 heq2
      exact h.queueReady.of_eq heq2
  · split
    · rename_i s1 heq2
      have hs1 : MemInv s1 := h.binReady.of_eq heq2
      exact hs1.unspillBin
    · rename_i s1 heq2
      exact h.binReady.of_eq heq2

theorem MemInv.execDeliveredWavePlace {delivery core : Nat} {s : State} (h : MemInv s) :
    OutMemOk (execDeliveredWavePlace delivery core s) := by
  unfold Machine.execDeliveredWavePlace
  split
  · exact h
  · rename_i d heq
    split
    · exact h
    · split
      · exact h
      · split
        · extract_lets s1 s2
          have hs1 : MemInv s1 := h
          have hs2 : MemInv s2 := hs1.seatDelivered
          show MemInv _
          exact ite_inv (MemInv.writeState hs2.updRegion) hs2
        · exact h

/-! ### Context tensors and sweeps -/

theorem MemInv.sweepDesc {s : State} {c : Ctx} {lane va : Nat} (h : MemInv s) : (s.sweepDesc c lane va).memOk := by
  unfold State.sweepDesc
  split
  · rename_i r heq
    exact of_eq (P := DescRes.memOk) h.readDesc heq
  · rename_i s1 _ heq
    have hs1 : MemInv s1 := of_eq (P := DescRes.memOk) h.readDesc heq
    split <;> exact hs1

theorem MemInv.sweepLane {s : State} {c : Ctx} {lane : Nat} (h : MemInv s) : (s.sweepLane c lane).memOk := by
  unfold State.sweepLane
  simp only []
  obtain ⟨r, hr⟩ : ∃ r, s.sweepDesc c lane (c.tensor lane) = r := ⟨_, rfl⟩
  rw [hr]
  refine DescRes.memOk.andThen (hr ▸ h.sweepDesc) fun s1 d hs1 => ?_
  obtain ⟨o, ho⟩ : ∃ o, misaligned (c.b lane 2) 8 = o := ⟨_, rfl⟩
  rw [ho]
  refine unlessFault_memOk (fun _ => hs1) ?_
  obtain ⟨r1, hr1⟩ : ∃ r, s1.reach (c.x.agent c.w) .wr clsHome .tagged (c.b lane 2) 8 = r := ⟨_, rfl⟩
  rw [hr1]
  refine Trans2.memOk.andThen (hr1 ▸ hs1.reach) fun s2 _ hs2 => ?_
  obtain ⟨o2, ho2⟩ : ∃ o, s2.releaseAt c.w lane .dev = o := ⟨_, rfl⟩
  rw [ho2]
  refine releasedThen_memOk (ho2 ▸ hs2.releaseAt) h fun s3 hs3 => ?_
  exact ite_inv hs3 hs3

theorem MemInv.reachHome {s : State} {c : Ctx} {va n : Nat} (h : MemInv s) :
    ExcAll Lane.memOk (FstAll MemInv) (s.reachHome c va n) := by
  unfold State.reachHome
  split
  · rename_i s1 _ _ heq
    exact of_eq (P := Trans2.memOk) h.reach heq
  · rename_i s1 _ heq
    exact of_eq (P := Trans2.memOk) h.reach heq
  · rename_i s1 heq
    exact of_eq (P := Trans2.memOk) h.reach heq
  · rename_i s1 _ heq
    have hs1 : MemInv s1 := of_eq (P := Trans2.memOk) h.reach heq
    extract_lets key
    exact ite_inv hs1 hs1

theorem MemInv.putHome {s : State} {c : Ctx} {lane va key : Nat} {bs : List Byte} (h : MemInv s) :
    (s.putHome c lane va key bs).memOk := by
  unfold State.putHome
  split
  · exact h
  · split
    · rename_i s1 heq2
      exact of_eq (P := ExcAll (SndAll MemInv) MemInv) h.homeWrite heq2
    · rename_i s1 heq2
      exact of_eq (P := ExcAll (SndAll MemInv) MemInv) h.homeWrite heq2

theorem MemInv.editHome {s : State} {c : Ctx} {lane va key : Nat} {g : Byte → Byte} (h : MemInv s) :
    (s.editHome c lane va key g).memOk := by
  unfold State.editHome
  extract_lets tag
  exact ite_inv h.dataError h.putHome

theorem MemInv.ctxSetLane {s : State} {c : Ctx} {lane : Nat} (h : MemInv s) : (s.ctxSetLane c lane).memOk := by
  unfold State.ctxSetLane
  split
  · exact h
  · rename_i e _
    extract_lets v
    refine ite_inv h ?_
    obtain ⟨o, ho⟩ : ∃ o, s.releaseAt c.w lane .dev = o := ⟨_, rfl⟩
    rw [ho]
    refine releasedThen_memOk (ho ▸ h.releaseAt) h fun s1 hs1 => ?_
    obtain ⟨r, hr⟩ : ∃ r, s1.reachHome c e.ctxVa.toNat 2 = r := ⟨_, rfl⟩
    rw [hr]
    exact reachedThen_memOk (hr ▸ hs1.reachHome) fun _ _ hs2 => hs2.putHome

theorem MemInv.wakeNow {s : State} {c : Ctx} {lane k : Nat} {d : BitVec 512} (h : MemInv s) :
    (s.wakeNow c lane k d).memOk := by
  rw [State.wakeNow]
  obtain ⟨r, hr⟩ : ∃ r, s.reachHome c (swCtx d k) 1 = r := ⟨_, rfl⟩
  rw [hr]
  refine reachedThen_memOk (hr ▸ h.reachHome) fun s1 ctx hs1 => ?_
  obtain ⟨r1, hr1⟩ : ∃ r, s1.reachHome c (swSkip d (k / 64)) 1 = r := ⟨_, rfl⟩
  rw [hr1]
  refine reachedThen_memOk (hr1 ▸ hs1.reachHome) fun s2 skip hs2 => ?_
  obtain ⟨r2, hr2⟩ : ∃ r, s2.editHome c lane (swCtx d k) ctx wokenByte = r := ⟨_, rfl⟩
  rw [hr2]
  exact Lane.memOk.andThen (hr2 ▸ hs2.editHome) fun _ _ hs3 => hs3.editHome

theorem MemInv.ctxWakeLane {s : State} {c : Ctx} {lane : Nat} (h : MemInv s) : (s.ctxWakeLane c lane).memOk := by
  unfold State.ctxWakeLane
  extract_lets va k
  split
  · rename_i r heq
    exact of_eq (P := DescRes.memOk) h.sweepDesc heq
  · rename_i s1 _ heq
    have hs1 : MemInv s1 := of_eq (P := DescRes.memOk) h.sweepDesc heq
    split
    · exact hs1
    · split
      · exact h
      · rename_i y s4 heq3
        have hs4 : MemInv s4 := hs1.releaseAt _ heq3
        extract_lets mine note
        exact ite_inv hs4 hs4.wakeNow

theorem MemInv.execSweepStart {die : Nat} {s : State} (h : MemInv s) : OutMemOk (execSweepStart die s) := by
  unfold Machine.execSweepStart
  extract_lets x
  split
  · rename_i y2 l2 _ heq _
    extract_lets same
    exact ite_inv h h.setDie
  · exact h

theorem MemInv.sweepParts {s : State} {e : EngOf} {need : Need} {va n : Nat} (h : MemInv s) :
    (s.sweepParts e need va n).memOk := by
  unfold State.sweepParts
  split
  · rename_i r heq
    exact of_eq (P := EngParts.memOk) h.engParts heq
  · rename_i s1 _ heq
    have hs1 : MemInv s1 := of_eq (P := EngParts.memOk) h.engParts heq
    split <;> exact hs1

theorem MemInv.sweepRead {s : State} {e : EngOf} {va n : Nat} (h : MemInv s) : (s.sweepRead e va n).memOk := by
  unfold State.sweepRead
  split
  · rename_i r heq
    exact of_eq (P := EngParts.memOk) h.sweepParts heq
  · rename_i s1 _ heq
    have hs1 : MemInv s1 := of_eq (P := EngParts.memOk) h.sweepParts heq
    exact hs1.engFetch

theorem MemInv.counterRead {s : State} {e : EngOf} {va : Nat} (h : MemInv s) : (s.counterRead e va).memOk := by
  rw [State.counterRead]
  split
  · rename_i r heq
    exact of_eq (P := EngParts.memOk) h.engParts heq
  · rename_i s1 _ heq
    have hs1 : MemInv s1 := of_eq (P := EngParts.memOk) h.engParts heq
    exact hs1.engFetch

theorem MemInv.sweepEdit {s : State} {e : EngOf} {va : Nat} {g : Byte → Byte} (h : MemInv s) :
    (s.sweepEdit e va g).memOk := by
  rw [State.sweepEdit]
  split
  · rename_i r heq
    exact of_eq (P := EngParts.memOk) h.sweepParts heq
  · rename_i s1 _ heq
    have hs1 : MemInv s1 := of_eq (P := EngParts.memOk) h.sweepParts heq
    split
    · rename_i s2 _ heq2
      have hs2 : MemInv s2 := of_eq (P := EngRes.memOk) hs1.engFetch heq2
      exact hs2.engStore
    · exact hs1.engFetch

theorem MemInv.ctxEval {s : State} {e : EngOf} {x : Sweep} {k : Nat} {bs : List Byte} (h : MemInv s) :
    (s.ctxEval e x k bs).memOk := by
  unfold State.ctxEval
  extract_lets w0 w1 is va n
  have his : ∀ (s : State) (y : Bool), MemInv s → (is s y).memOk := by
    intro _ _ hs2
    unfold is
    exact hs2
  split
  · exact h
  · exact h
  · exact h
  · split
    · exact h
    · split
      · rename_i s2 _ heq3
        have hs2 : MemInv s2 := of_eq (P := EngRes.memOk) h.counterRead heq3
        exact his _ _ hs2
      · exact h.counterRead
  · split
    · exact his _ _ h
    · split
      · rename_i s2 _ heq3
        have hs2 : MemInv s2 := of_eq (P := EngRes.memOk) h.sweepRead heq3
        exact his _ _ hs2
      · exact h.sweepRead
  · exact his _ _ h
  · exact h

theorem MemInv.ctxScan {s : State} {e : EngOf} {x : Sweep} {l : List Nat} (h : MemInv s) : (s.ctxScan e x l).memOk := by
  induction l generalizing s with
  | nil =>
    rw [State.ctxScan]
    exact h
  | cons n l ih =>
    rw [State.ctxScan]
    split
    · rename_i s2 _ heq
      have hs2 : MemInv s2 := of_eq (P := EngRes.memOk) h.sweepRead heq
      split
      · rename_i r heq2
        have hr : r.memOk := of_eq (P := SwRes.memOk) hs2.ctxEval heq2
        exact hr
      · rename_i s22 _ heq2
        have hs22 : MemInv s22 := of_eq (P := SwRes.memOk) hs2.ctxEval heq2
        split
        · rename_i r heq3
          have hr : r.memOk := of_eq (P := SwRes.memOk) (ih hs22) heq3
          exact hr
        · rename_i s3 _ heq3
          have hs3 : MemInv s3 := of_eq (P := SwRes.memOk) (ih hs22) heq3
          exact hs3
    · exact h.sweepRead

theorem MemInv.sweepEdits {s : State} {e : EngOf} {g : Byte → Byte} {l : List Nat} (h : MemInv s) :
    BothAll MemInv (OptAll EngRes.memOk) (s.sweepEdits e g l) := by
  induction l generalizing s with
  | nil =>
    rw [State.sweepEdits]
    exact ⟨h, OptAll.none⟩
  | cons n l ih =>
    rw [State.sweepEdits]
    split
    · rename_i s2 _ heq
      have hs2 : MemInv s2 := of_eq (P := EngRes.memOk) h.sweepEdit heq
      exact ih hs2
    · exact ⟨h, OptAll.some h.sweepEdit⟩

theorem Machine.EngRes.memOk.sweepFail {e : EngOf} {r : EngRes} (hr : r.memOk) : MemInv (sweepFail e r) := by
  unfold Machine.sweepFail
  split
  · exact hr
  · exact MemInv.engRecord hr
  · exact MemInv.dataError (MemInv.engRecord hr)
  · exact MemInv.engFull hr
  · exact MemInv.engQuota hr
  · exact hr

theorem MemInv.setSweep {s : State} {die n : Nat} {y : Option Sweep} (h : MemInv s) : MemInv (s.setSweep die n y) := h

theorem MemInv.keepSweep {s : State} {die n : Nat} {y : Sweep} (h : MemInv s) : MemInv (s.keepSweep die n y) := by
  unfold State.keepSweep
  exact ite_inv h.setSweep h

theorem MemInv.sweepEnd {s : State} {die n : Nat} {x : Sweep} (h : MemInv s) : MemInv (s.sweepEnd die n x) := by
  rw [State.sweepEnd]
  split
  · rename_i a _ heq
    have ha : MemInv a := of_eq (P := EngParts.memOk) h.engParts heq
    exact ha.setSweep.raiseCtr
  · rename_i a heq
    have ha : a.memOk := of_eq (P := EngParts.memOk) h.engParts heq
    exact ite_inv ha.sweepFail.keepSweep ha.sweepFail.setSweep

theorem MemInv.nextChunk {s : State} {die n : Nat} {x : Sweep} (h : MemInv s) : MemInv (s.nextChunk die n x) := by
  unfold State.nextChunk
  split
  · exact h
  · exact ite_inv h.setSweep h.sweepEnd

theorem MemInv.setSkip {s : State} {e : EngOf} {x : Sweep} (h : MemInv s) : FstAll MemInv (s.setSkip e x) := by
  rw [State.setSkip]
  split
  · rename_i s2 _ heq
    exact of_eq (P := EngRes.memOk) h.sweepEdit heq
  · exact h.sweepEdit.sweepFail

theorem MemInv.askStep {s : State} {die n : Nat} {x : Sweep} {ready : List CtxSeen} {h : Nat} (hs : MemInv s) :
    MemInv (s.askStep die n x ready h) := by
  unfold State.askStep
  extract_lets mine el d
  clear_value mine
  split <;> exact hs

theorem MemInv.elemPages {s : State} {e : EngOf} {d : BitVec 512} {l : List CtxSeen} (h : MemInv s) :
    BothAll MemInv (OptAll EngRes.memOk) (s.elemPages e d l) := by
  induction l generalizing s with
  | nil =>
    rw [State.elemPages]
    exact ⟨h, OptAll.none⟩
  | cons y l ih =>
    rw [State.elemPages]
    split
    · rename_i a _ heq
      have ha : MemInv a := of_eq (P := EngParts.memOk) h.engParts heq
      exact ih ha
    · rename_i a heq
      have ha : a.memOk := of_eq (P := EngParts.memOk) h.engParts heq
      exact ⟨h, OptAll.some ha⟩

theorem MemInv.ctxRecords {s : State} {e : EngOf} {x : Sweep} {l : List CtxSeen} (h : MemInv s) :
    MemInv (s.ctxRecords e x l) := by
  unfold State.ctxRecords
  exact foldl_inv h (fun _ _ hs2 => hs2.engRecord)

theorem MemInv.chunkTry {s : State} {die n : Nat} {x : Sweep} {l : List CtxSeen} (h : MemInv s) :
    FstAll MemInv (s.chunkTry die n x l) := by
  unfold State.chunkTry
  extract_lets e turned stop ready
  have hstop : ∀ (y : EngRes), y.memOk → FstAll MemInv (stop y) := by
    intro _ hy
    unfold stop
    extract_lets s1
    have hs1 : MemInv s1 := hy.sweepFail
    exact ite_inv hs1 hs1.nextChunk
  split
  · rename_i heq
    exact hstop _ ((h.sweepEdits.of_eq heq).2 _ rfl)
  · rename_i s3 heq
    have hs3 : MemInv s3 := (h.sweepEdits.of_eq heq).1
    split
    · rename_i s1 heq2
      have hr2 : FstAll MemInv (s1, true) := by
        rw [← heq2]
        exact ite_inv hs3.setSkip hs3
      split
      · rename_i heq3
        clear_value ready
        split
        · exact hr2
        · exact hstop _ ((hs3.elemPages.of_eq heq3).2 _ rfl)
      · rename_i heq3
        clear_value ready
        split
        · exact hr2
        · exact (hs3.elemPages.of_eq heq3).1.keepSweep.askStep.askStep
    · rename_i s1 heq2
      have hr2 : FstAll MemInv (s1, false) := by
        rw [← heq2]
        exact ite_inv hs3.setSkip hs3
      split
      · rename_i heq3
        clear_value ready
        split
        · exact MemInv.nextChunk hr2
        · exact hstop _ ((hs3.elemPages.of_eq heq3).2 _ rfl)
      · rename_i heq3
        clear_value ready
        split
        · exact MemInv.nextChunk hr2
        · exact (hs3.elemPages.of_eq heq3).1.keepSweep.askStep.askStep

theorem MemInv.chunkSeen {s : State} {die n : Nat} {x : Sweep} {l : List CtxSeen} (h : MemInv s) :
    MemInv (s.chunkSeen die n x l) := by
  unfold State.chunkSeen
  split
  · rename_i s1 heq
    exact h.chunkTry.of_eq heq
  · exact h.ctxRecords.chunkTry.fst

theorem MemInv.execSweepChunk {die engine : Nat} {s : State} (h : MemInv s) :
    OutMemOk (execSweepChunk die engine s) := by
  unfold Machine.execSweepChunk
  split
  · exact h
  · extract_lets e fail
    have hfail : ∀ (y : EngRes), y.memOk → OutMemOk (fail y) := by
      intro _ hy
      unfold fail
      exact ite_inv hy.sweepFail hy.sweepFail.nextChunk
    split
    · exact h
    · split
      · exact h.sweepEnd
      · split
        · rename_i s2 _ heq4
          have hs2 : MemInv s2 := of_eq (P := EngRes.memOk) h.sweepRead heq4
          split
          · exact hs2.nextChunk
          · split
            · rename_i s22 _ heq6
              have hs22 : MemInv s22 := of_eq (P := SwRes.memOk) hs2.ctxScan heq6
              exact hs22.chunkSeen
            · rename_i r heq6
              have hr : r.memOk := of_eq (P := SwRes.memOk) hs2.ctxScan heq6
              exact hfail _ hr
        · exact hfail _ h.sweepRead

theorem MemInv.applyWake {s : State} {e : EngOf} {x : Sweep} {k : Word} (h : MemInv s) :
    FstAll MemInv (s.applyWake e x k) := by
  rw [State.applyWake]
  have hfail : ∀ y : EngRes, y.memOk → FstAll MemInv (sweepFail e y, y.again) := fun _ hy => hy.sweepFail
  obtain ⟨r, hr⟩ : ∃ r, s.sweepEdit e (swCtx x.desc k.toNat) wokenByte = r := ⟨_, rfl⟩
  rw [hr]
  refine EngRes.memOk.andThen (hr ▸ h.sweepEdit) (fun s1 _ hs1 => ?_) hfail
  obtain ⟨r1, hr1⟩ : ∃ r, s1.sweepEdit e (swSkip x.desc x.cursor) (fun b => b &&& ~~~(1#8 <<< (x.cursor % 8))) = r := ⟨_, rfl⟩
  rw [hr1]
  exact EngRes.memOk.andThen (hr1 ▸ hs1.sweepEdit) (fun _ _ hs2 => hs2) hfail

theorem MemInv.applyWakes {s : State} {die n : Nat} {x : Sweep} {l : List Word} (h : MemInv s) :
    FstAll MemInv (s.applyWakes die n x l) := by
  induction l generalizing s with
  | nil =>
    rw [State.applyWakes]
    exact h
  | cons y l ih =>
    rw [State.applyWakes]
    split
    · exact h
    · split
      · rename_i s1 heq2
        exact h.applyWake.of_eq heq2
      · rename_i s1 heq2
        have hs1 : MemInv s1 := h.applyWake.of_eq heq2
        exact ih hs1

theorem MemInv.wakesThenNext {s : State} {die n : Nat} {x : Sweep} (h : MemInv s) : MemInv (s.wakesThenNext die n x) := by
  unfold State.wakesThenNext
  have hw : FstAll MemInv (s.applyWakes die n x x.held) := h.applyWakes
  split
  · rename_i heq
    exact MemInv.nextChunk (hw.of_eq heq)
  · rename_i left _ heq
    exact MemInv.keepSweep (hw.of_eq heq)

theorem MemInv.allQuiet {s : State} {e : EngOf} {x : Sweep} {l : List Nat} (h : MemInv s) : (s.allQuiet e x l).memOk := by
  induction l generalizing s with
  | nil =>
    rw [State.allQuiet]
    exact h
  | cons n l ih =>
    rw [State.allQuiet]
    split
    · rename_i s2 _ heq
      have hs2 : MemInv s2 := of_eq (P := EngRes.memOk) h.sweepRead heq
      extract_lets kind
      exact ite_inv (ih hs2) hs2
    · exact h.sweepRead

theorem MemInv.execChunkStepComplete {die engine : Nat} {s : State} (h : MemInv s) :
    OutMemOk (execChunkStepComplete die engine s) := by
  unfold Machine.execChunkStepComplete
  split
  · exact h
  · rename_i x heq
    split
    · exact h
    · extract_lets e s1
      have hs1 : MemInv s1 := foldl_inv h (fun _ _ hs => hs.writeBackAll.writeBackSvc)
      have hquiet : ∀ {c : Bool} {elems : List Nat}, SwRes.memOk (if c then .ok s1 false else s1.allQuiet e x elems) :=
          ite_inv (P := SwRes.memOk) hs1 hs1.allQuiet
      split
      · rename_i s2 quiet heq2
        have hs2 : MemInv s2 := of_eq (P := SwRes.memOk) hquiet heq2
        have hskip : FstAll MemInv (if quiet then s2.setSkip e x else (s2, false)) := ite_inv (P := FstAll MemInv)
            hs2.setSkip hs2
        split
        · rename_i heq3
          exact hskip.of_eq heq3
        · rename_i heq3
          exact MemInv.wakesThenNext (hskip.of_eq heq3)
      · rename_i r heq2
        have hr : r.memOk := of_eq (P := SwRes.memOk) hquiet heq2
        exact ite_inv (P := OutMemOk) hr.sweepFail (MemInv.wakesThenNext hr.sweepFail)

/-! ### Collectives -/

theorem MemInv.collLane {s : State} {c : Ctx} {lane : Nat} {kind : CollKind} {red : CollRed} (h : MemInv s) :
    (s.collLane c lane kind red).memOk := by
  unfold State.collLane
  simp only []
  obtain ⟨o, ho⟩ : ∃ o, misaligned (addrSum (c.a lane 2) 0 1 c.immX 64) 64 = o := ⟨_, rfl⟩
  obtain ⟨p, hp⟩ : ∃ p, misaligned (c.b lane 2) 8 = p := ⟨_, rfl⟩
  rw [ho, hp]
  refine unlessMisaligned_memOk (fun _ => h) (fun _ => h) ?_
  obtain ⟨r, hr⟩ : ∃ r, s.reach (c.x.agent c.w) .wr clsHome .tagged (c.b lane 2) 8 = r := ⟨_, rfl⟩
  rw [hr]
  refine Trans2.memOk.andThen (hr ▸ h.reach) fun s1 ps hs1 => ?_
  obtain ⟨r1, hr1⟩ : ∃ r, s1.readDesc c lane (addrSum (c.a lane 2) 0 1 c.immX 64) 64 = r := ⟨_, rfl⟩
  rw [hr1]
  refine DescRes.memOk.andThen (hr1 ▸ hs1.readDesc) fun s2 d hs2 => ?_
  have hgo : MemInv ((collLinks d).foldl (fun s l => s.noteLink c.x.rgn (placeOf 2 l 0)) s2) :=
    foldl_inv hs2 fun _ _ hs3 => hs3.noteLink
  exact ite_inv hs2 (ite_inv hs2 (ite_inv hs2 hgo))

theorem MemInv.collEnd {s : State} {o : CollOp} (h : MemInv s) : MemInv (s.collEnd o) := by
  unfold State.collEnd
  exact MemInv.raiseCtr h

theorem MemInv.collFail {s : State} {o : CollOp} {f : Flt} (h : MemInv s) : MemInv (s.collFail o f) := by
  unfold State.collFail
  exact h.engRecord.collEnd

theorem MemInv.collParts {s : State} {e : EngOf} {need : Need} {va n : Nat} (h : MemInv s) :
    (s.collParts e need va n).memOk := by
  unfold State.collParts
  split
  · rename_i r heq
    exact of_eq (P := EngParts.memOk) h.engParts heq
  · rename_i s1 _ heq
    have hs1 : MemInv s1 := of_eq (P := EngParts.memOk) h.engParts heq
    split <;> exact hs1

theorem MemInv.collSpoil {s : State} {o : CollOp} {n : Nat} (h : MemInv s) : MemInv (s.collSpoil o n) := by
  unfold State.collSpoil
  extract_lets e
  refine foldl_inv h ?_
  intro _ _ hs2
  split
  · exact hs2
  · rename_i s1 _ heq
    have hs1 : MemInv s1 := of_eq (P := EngParts.memOk) hs2.collParts heq
    split
    rename_i s12 heq2
    have hs12 : MemInv s12 := hs1.fresh.of_eq heq2
    split
    · rename_i s22 _ heq3
      exact of_eq (P := EngRes.memOk) hs12.engStore heq3
    · exact hs12

theorem Machine.EngRes.memOk.collStop {o : CollOp} {n : Nat} {r : EngRes} (hr : r.memOk) : MemInv (collStop o n r) := by
  unfold Machine.collStop
  extract_lets fail
  have hfail : ∀ (s : State) (y : BitVec 8) (n : Nat) (y2 : Bool), MemInv s → MemInv (fail s y n y2) := by
    intro _ _ _ _ hs
    unfold fail
    exact hs.collSpoil.collFail
  split
  · exact hr
  · exact hfail _ _ _ _ hr
  · exact MemInv.dataError (hfail _ _ _ _ hr)
  · exact hfail _ _ _ _ hr
  · exact MemInv.engQuota hr
  · exact hr

theorem MemInv.collRun {s : State} {o : CollOp} {others : List (Nat × List Word)} (h : MemInv s) :
    MemInv (s.collRun o others) := by
  unfold State.collRun
  extract_lets ty w inLen e
  split
  · rename_i r heq
    have hr : r.memOk := of_eq (P := EngParts.memOk) h.collParts heq
    exact hr.collStop
  · rename_i s1 _ heq
    have hs1 : MemInv s1 := of_eq (P := EngParts.memOk) h.collParts heq
    split
    · rename_i s2 _ heq2
      have hs2 : MemInv s2 := of_eq (P := EngRes.memOk) hs1.engFetch heq2
      split
      · exact h
      · extract_lets out
        split
        · rename_i r heq4
          have hr : r.memOk := of_eq (P := EngParts.memOk) hs2.collParts heq4
          exact hr.collStop
        · rename_i s12 _ heq4
          have hs12 : MemInv s12 := of_eq (P := EngParts.memOk) hs2.collParts heq4
          split
          · rename_i s22 _ heq5
            have hs22 : MemInv s22 := of_eq (P := EngRes.memOk) hs12.engStore heq5
            exact hs22.collEnd
          · exact hs12.engStore.collStop
    · exact hs1.engFetch.collStop

theorem MemInv.execCollExecute {op : Nat} {agree failed : Bool} {others : List (Nat × List Word)} {s : State}
    (h : MemInv s) : OutMemOk (execCollExecute op agree failed others s) := by
  unfold Machine.execCollExecute
  split
  · exact h
  · exact ite_inv h (ite_inv h.collSpoil.collFail (ite_inv h.collFail (ite_inv h.collSpoil.collFail h.collRun)))

end Sys2Proof
end

section
/-! PROOFS. Every step keeps memory in its canonical form (O2): regions, the fabric, the scheduler and facet sets. -/

namespace Sys2Proof

open Sys2Proof.Machine

/-! ### Regions -/

theorem MemInv.linkRegion {s : State} {r : Nat} (h : MemInv s) : MemInv (s.linkRegion r) := h

theorem MemInv.becomeReady {s : State} {r : Nat} (h : MemInv s) : MemInv (s.becomeReady r) := h

theorem MemInv.tryReady {s : State} {r : Nat} (h : MemInv s) : MemInv (s.tryReady r) := by
  unfold State.tryReady
  split
  · exact h
  · split
    · exact h
    · split
      · exact MemInv.writeState (MemInv.linkRegion h.becomeReady.updRegion)
      · exact h.becomeReady.updRegion
      · exact h

theorem MemInv.armDep {s : State} {r : Nat} {x : Region} {i : Nat} (h : MemInv s) : MemInv (s.armDep r x i) := by
  rw [State.armDep]
  split
  · exact h.postEng
  · extract_lets va
    split
    · split
      · extract_lets y_2
        exact h
      · exact h.postEng
    · exact h.postEng

theorem MemInv.accept {s : State} {x : Region} (h : MemInv s) : MemInv (s.accept x) := by
  unfold State.accept
  extract_lets r y s1 s2
  have hs1 : MemInv s1 := h
  have hs2 : MemInv s2 := hs1.writeState.putNum.putNum
  exact foldl_inv hs2 (fun _ _ hs3 => hs3.armDep)

theorem MemInv.launch {s : State} {by_ : Issuer} {va : Nat} (h : MemInv s) : FstAll MemInv (s.launch by_ va) := by
  unfold State.launch
  split
  · exact h
  · rename_i y2 heq
    exact h.accept.tryReady

theorem MemInv.execDependenceMet {rgn index : Nat} {s : State} (h : MemInv s) :
    OutMemOk (execDependenceMet rgn index s) := by
  unfold Machine.execDependenceMet
  split
  · exact h
  · split
    · exact h
    · split
      · exact h
      · rename_i s4 heq3
        have hs4 : MemInv s4 := h.force _ heq3
        extract_lets s1
        have hs1 : MemInv s1 := hs4
        exact MemInv.tryReady hs1.updRegion

theorem MemInv.launchPrism {s : State} {by_ : Issuer} {va : Nat} (h : MemInv s) : FstAll MemInv (s.launchPrism by_ va) := by
  unfold State.launchPrism
  split
  · exact h
  · split
    split
    · exact h
    · split
      · exact h
      · split
        · exact h
        · rename_i l heq5
          extract_lets asr wins frames own key taken facets all
          split
          · exact h
          · split
            · exact h
            · split
              · exact h
              · split
                · exact h
                · split
                  rename_i s1 ids heq10
                  have hr : FstAll MemInv (s1, ids) := by
                    rw [← heq10]
                    exact foldl_inv h (fun _ _ hs2 => hs2.fst.accept)
                  extract_lets q
                  exact hr

theorem MemInv.dropFrames {s : State} {frames : List Nat} (h : MemInv s) : OptAll MemInv (s.dropFrames frames) := by
  unfold State.dropFrames
  extract_lets keep mine served
  split
  · exact OptAll.none
  · refine OptAll.map (P := MemInv) (foldl_inv (OptAll.some h) (fun _ _ hs2 => hs2.bind (fun _ hs1 => hs1.performUpTo))) ?_
    intro _ hs1
    extract_lets s2
    have hs2 : MemInv s2 := by
      unfold s2
      exact hs1
    exact foldl_inv hs2 (fun _ _ hs3 => hs3.dropWhere)

theorem MemInv.bindFacet {s : State} {r tag : Nat} (h : MemInv s) : MemInv (s.bindFacet r tag) := by
  unfold State.bindFacet
  exact MemInv.writeState h.updRegion

theorem MemInv.execSetOpen {req set : Nat} {s : State} (h : MemInv s) : OutMemOk (execSetOpen req set s) := by
  unfold Machine.execSetOpen
  split
  · extract_lets frames taken gen
    split
    · exact h
    · rename_i s4 heq3
      have hs4 : MemInv s4 := (ite_inv OptAll.none h.dropFrames) _ heq3
      extract_lets gone y_2 s1 s2 s3
      have hs1 : MemInv s1 := hs4
      have hs2 : MemInv s2 := hs1.putNum
      have hs3 : MemInv s3 := foldl_inv hs2.bindFacet (fun _ _ hs5 => hs5.bindFacet)
      exact hs3.tryReady.resolveNone
  · exact h

theorem MemInv.execRegionEnd {rgn : Nat} {s : State} (h : MemInv s) : OutMemOk (execRegionEnd rgn s) := by
  unfold Machine.execRegionEnd
  split
  · exact h
  · exact ite_inv (MemInv.writeState (MemInv.raiseDone h.pushRegion.updRegion)) h

theorem MemInv.execPrefixEnd {set : Nat} {s : State} (h : MemInv s) : OutMemOk (execPrefixEnd set s) := by
  unfold Machine.execPrefixEnd
  split
  · exact h
  · split
    · exact h
    · exact ite_inv (foldl_inv h.pushRegion.updSet (fun _ _ hs2 => hs2.tryReady)) h

theorem MemInv.replayAll {s : State} {mine : Nat → Bool} {cond : Thread → Bool} (h : MemInv s) :
    MemInv (s.replayAll mine cond) := by
  unfold State.replayAll
  extract_lets hit fix s1
  have hs1 : MemInv s1 := foldl_inv h (fun _ _ hs2 => hs2.wakeCore)
  exact hs1

theorem MemInv.resumeRegion {s : State} {r : Nat} (h : MemInv s) : MemInv (s.resumeRegion r) := by
  unfold State.resumeRegion
  extract_lets rs mine s1 go free s2
  have hs1 : MemInv s1 := foldl_inv h (fun _ _ hs3 => MemInv.tryReady (MemInv.writeState (MemInv.linkRegion hs3.updRegion)))
  have hs2 : MemInv s2 := hs1
  exact hs2.replayAll

theorem MemInv.control {s : State} {r : Nat} {x : Region} {y : RegionOp} (h : MemInv s) :
    FstAll MemInv (s.control r x y) := by
  unfold State.control
  split
  · exact h.suspendRegion
  · extract_lets above
    exact ite_inv h h.resumeRegion
  · exact h.killRegion
  · extract_lets mine
    exact ite_inv h.replayAll h

theorem MemInv.controlNamed {s : State} {top va : Nat} {op : RegionOp} (h : MemInv s) :
    FstAll MemInv (s.controlNamed top va op) := by
  unfold State.controlNamed
  split
  · exact h
  · split
    · exact h
    · exact h.control

theorem MemInv.rlaunchLane {s : State} {c : Ctx} {lane : Nat} {aligned : Bool} {act : State → Nat → State × Nat}
    (h : MemInv s) (hact : ∀ (s : State) (n : Nat), MemInv s → FstAll MemInv (act s n)) :
    (s.rlaunchLane c lane aligned act).memOk := by
  unfold State.rlaunchLane
  extract_lets va
  split
  · exact h
  · split
    · exact h
    · rename_i s4 heq2
      have hs4 : MemInv s4 := h.releaseAt _ heq2
      split
      rename_i s1 _ heq3
      have hs1 : MemInv s1 := (hact _ _ hs4).of_eq heq3
      split <;> exact hs1

theorem MemInv.wdqLane {s : State} {c : Ctx} {lane : Nat} (h : MemInv s) : (s.wdqLane c lane).memOk := by
  unfold State.wdqLane
  extract_lets ans b
  split
  · exact h
  · split
    · exact h
    · split
      · exact h
      · split
        · exact h
        · split
          · exact h
          · exact ite_inv h h.putOp

theorem MemInv.execWdqServe {op : Nat} {s : State} (h : MemInv s) : OutMemOk (execWdqServe op s) := by
  unfold Machine.execWdqServe
  split
  · exact h
  · extract_lets earlier
    split
    · exact h.copyPut.setOp.land
    · exact h
    · split
      · exact h
      · extract_lets more s1
        have hs1 : MemInv s1 := ite_inv h.updRegion h
        exact hs1.setOp

/-! ### The fabric -/

theorem MemInv.linkEvent {s : State} {link : Nat} {sub : BitVec 8} {roots : List Nat} (h : MemInv s) :
    MemInv (s.linkEvent link sub roots) := by
  unfold State.linkEvent
  extract_lets s1
  have hs1 : MemInv s1 := by
    unfold s1
    refine foldl_inv h ?_
    intro _ _ hs2
    extract_lets s2_2
    have hs2_2 : MemInv s2_2 := hs2.postEvent
    split
    · exact hs2_2.signal
    · exact hs2_2
  exact hs1.postFjoub

theorem MemInv.answer {s : State} {link fn : Nat} {abort : Bool} {data : List Byte} (h : MemInv s) :
    MemInv (s.answer link fn abort data) := h

theorem MemInv.refuseWrite {s : State} {link fn : Nat} {x : FSet} (h : MemInv s) : MemInv (s.refuseWrite link fn x) := by
  unfold State.refuseWrite
  exact h.linkEvent.answer

theorem MemInv.outsideError {s : State} {key : Nat} (h : MemInv s) : MemInv (s.outsideError key) := h

theorem MemInv.execHostRequest {fn : Nat} {wr : Bool} {key : Nat} {data : List Byte} {size : Nat} {s : State}
    (h : MemInv s) : OutMemOk (execHostRequest fn wr key data size s) := by
  unfold Machine.execHostRequest
  extract_lets n
  split
  · exact h
  · rename_i s4 heq
    have hs4 : MemInv s4 := (ite_inv OptAll.none h.force) _ heq
    split
    · split
      · exact hs4.refuseWrite
      · exact hs4.baseWrite.answer
    · split
      · split
        rename_i s1 heq4
        have hs1 : MemInv s1 := hs4.fresh.of_eq heq4
        exact hs1.outsideError.answer
      · extract_lets s1
        have hs1 : MemInv s1 := hs4.atHome
        exact hs1.answer

theorem MemInv.execPeerRequest {link : Nat} {op : PeerOp} {key : Nat} {data : List Byte} {size : Nat} {s : State}
    (h : MemInv s) : OutMemOk (execPeerRequest link op key data size s) := by
  unfold Machine.execPeerRequest
  split
  split
  · exact h
  · rename_i s4 heq2
    have hs4 : MemInv s4 := (ite_inv OptAll.none h.force) _ heq2
    split
    · exact hs4.refuseWrite
    · split
      · exact hs4.baseWrite.answer
      · split
        · exact hs4.outsideError.answer
        · extract_lets s1 old s2
          have hs1 : MemInv s1 := hs4.atHome
          have hs2 : MemInv s2 := ite_inv hs1 hs1.baseWrite
          exact hs2.answer

theorem MemInv.execAtsTranslationResponse {va : HostAddr} {key size : Nat} {rd wr : Bool} {s : State} (h : MemInv s) :
    OutMemOk (execAtsTranslationResponse va key size rd wr s) := by
  unfold Machine.execAtsTranslationResponse
  split
  · exact h
  · extract_lets l apart left
    exact ite_inv h h

theorem MemInv.setPending {s : State} {l : List AtsInval} (h : MemInv s) : MemInv (s.setPending l) := h

theorem MemInv.invalidate {s : State} {r : AtsInval} (h : MemInv s) : OptAll MemInv (s.invalidate r) := by
  unfold State.invalidate
  extract_lets gone inFrame
  split
  · exact OptAll.none
  · refine OptAll.map (P := MemInv) (foldl_inv (OptAll.some h) (fun _ _ hs2 => hs2.bind (fun _ hs1 => hs1.performUpTo))) ?_
    intro _ hs1
    extract_lets s2
    have hs2 : MemInv s2 := MemInv.setPending hs1
    exact (foldl_inv hs2 (fun _ _ hs3 => hs3.dropWhere)).answer

theorem MemInv.execAtsInvalidateRequest {va : HostAddr} {size : Nat} {s : State} (h : MemInv s) :
    OutMemOk (execAtsInvalidateRequest va size s) := by
  unfold Machine.execAtsInvalidateRequest
  extract_lets r s1
  have hs1 : MemInv s1 := ite_inv h h.setPending
  exact ite_inv h (hs1.invalidate.getD hs1)

/-! ### Placement, saving and restoration -/

theorem MemInv.noteOffer {s : State} {die r : Nat} (h : MemInv s) : MemInv (s.noteOffer die r) := h

theorem MemInv.placeNew {s : State} {r : Nat} {x : Region} {n : Next} {ps : List (Nat × Nat × Nat × Plan)}
    (h : MemInv s) : MemInv (s.placeNew r x n ps) := by
  unfold State.placeNew
  extract_lets q k grouped first s1 s2 s3
  have hs1 : MemInv s1 := ite_inv h h
  have hs2 : MemInv s2 := foldl_inv hs1 (fun _ _ hs4 => hs4.seatWg)
  have hs3 : MemInv s3 := hs2.updRegion
  exact ite_inv hs3.seatCaller hs3

theorem MemInv.execWorkgroupPlace {rgn core : Nat} {s : State} (h : MemInv s) :
    OutMemOk (execWorkgroupPlace rgn core s) := by
  unfold Machine.execWorkgroupPlace
  split
  · exact h
  · rename_i y2 heq
    extract_lets die
    split
    · exact h
    · split
      · exact h
      · split
        · exact h
        · split
          · exact h
          · extract_lets s1
            have hs1 : MemInv s1 := h.placeNew.placedFor.noteOffer
            show MemInv _
            exact ite_inv (MemInv.writeState hs1.updRegion) hs1

theorem MemInv.execPlacementStarvationHold {die rgn : Nat} {s : State} (h : MemInv s) :
    OutMemOk (execPlacementStarvationHold die rgn s) := by
  unfold Machine.execPlacementStarvationHold
  split
  · exact h
  · rename_i y _ _
    extract_lets earlier since y_2
    have hsince : ∀ (y : Option Nat), MemInv (since y) := by
      intro _
      unfold since
      exact h.updRegion
    split
    · exact hsince _
    · split
      · exact hsince _
      · exact ite_inv h h.setDie

theorem MemInv.settleWave {s : State} {w : Nat} (h : MemInv s) : OptAll MemInv (s.settleWave w) := by
  unfold State.settleWave
  split
  · exact OptAll.some h
  · exact foldl_inv (OptAll.some h) (fun _ _ hs2 => hs2.bind (fun _ hs1 => hs1.returnAll))

theorem MemInv.writeRecord {s : State} {x : Region} {y : Wg} {image : Nat} (h : MemInv s) :
    MemInv (s.writeRecord x y image) := by
  unfold State.writeRecord
  exact foldl_inv h (fun _ _ hs2 => hs2.baseWrite)

theorem MemInv.saveOne {s : State} {wid : Nat} {y : Wg} {caller : Option Wave} {engines : List (Nat × Engine)}
    {migrate : Bool} (h : MemInv s) : MemInv (s.saveOne wid y caller engines migrate) := by
  unfold State.saveOne
  extract_lets mine
  split
  rename_i s1 heq
  have hs1 : MemInv s1 := (foldl_inv h.writeBackAll (fun _ _ hs2 => hs2.owe)).fresh.of_eq heq
  extract_lets rec_ c entry s1_2 s2
  have hs1_2 : MemInv s1_2 := hs1.setCore
  have hs2 : MemInv s2 := hs1_2
  split
  · exact hs2.writeRecord
  · exact hs2

theorem MemInv.markSaving {s : State} {ws : List Nat} (h : MemInv s) : MemInv (s.markSaving ws) := by
  unfold State.markSaving
  extract_lets mark new s1
  have hs1 : MemInv s1 := h
  exact foldl_inv hs1 (fun _ _ hs2 => hs2.wakeCore)

theorem MemInv.saveGroup {s : State} {wid : Nat} {y : Wg} {migrate : Bool} (h : MemInv s) :
    OptAll MemInv (s.saveGroup wid y migrate) := by
  unfold State.saveGroup
  extract_lets ms mine full gr busy
  split
  · exact OptAll.none
  · refine OptAll.map (P := MemInv) (foldl_inv (OptAll.some h) (fun _ _ hs2 => hs2.bind (fun _ hs1 => hs1.settleWave))) ?_
    intro _ hs1
    extract_lets caller engines s2
    have hs2 : MemInv s2 := by
      unfold s2
      refine foldl_inv hs1 ?_
      intro _ _ hs3
      split
      · exact hs3.saveOne
      · exact hs3
    clear_value gr
    split
    · exact hs2
    · extract_lets s3
      have hs3 : MemInv s3 := ite_inv hs2.clearEngines hs2
      exact hs3

theorem MemInv.execWorkgroupSave {wg : Nat} {migrate : Bool} {s : State} (h : MemInv s) :
    OutMemOk (execWorkgroupSave wg migrate s) := by
  unfold Machine.execWorkgroupSave
  split
  · exact h
  · extract_lets npre ms s1
    have hs1 : MemInv s1 := h.markSaving
    exact ite_inv h (hs1.saveGroup.getD hs1)

theorem MemInv.reseat {s : State} {g old : Nat} {x : Wave} {p : Spot} (h : MemInv s) : MemInv (s.reseat g old x p) := by
  unfold State.reseat
  extract_lets w y s1
  exact h.seat

theorem MemInv.undefWave {s : State} {x : Wave} (h : MemInv s) : FstAll MemInv (s.undefWave x) := h

theorem MemInv.undefWg {s : State} {wid : Nat} (h : MemInv s) : MemInv (s.undefWg wid) := by
  unfold State.undefWg
  split
  · exact h
  · split
    rename_i s1 heq2
    have hs1 : MemInv s1 := h.fresh.of_eq heq2
    split
    rename_i s12 heq3
    have hs12 : MemInv s12 := hs1.fresh.of_eq heq3
    extract_lets bytes tile
    exact hs12

theorem MemInv.readRecord {s : State} {wid : Nat} {z : Saved} (h : MemInv s) : FstAll MemInv (s.readRecord wid z) := by
  unfold State.readRecord
  split
  · refine foldl_inv (P := FstAll MemInv) h.undefWg ?_
    intro _ _ hs2
    split
    rename_i s1 w heq2
    have hs1 : MemInv s1 := hs2.fst.undefWave.of_eq heq2
    exact hs1
  · exact h

theorem MemInv.restoreOne {s : State} {wid g : Nat} {p : Plan} (h : MemInv s) : MemInv (s.restoreOne wid g p) := by
  unfold State.restoreOne
  split
  · exact h
  · rename_i z heq
    split
    rename_i sr l heq2
    have hsr : MemInv sr := h.readRecord.of_eq heq2
    extract_lets s0 put tell s1
    have hs0 : MemInv s0 := hsr.setRoles
    have hs1 : MemInv s1 := hs0
    exact foldl_inv hs1 (fun _ _ hs2 => hs2.reseat)

theorem MemInv.undefGroup {s : State} {q : Nat} {z : Saved} (h : MemInv s) : FstAll MemInv (s.undefGroup q z) := by
  unfold State.undefGroup
  split
  rename_i s1 heq
  have hs1 : MemInv s1 := h.fresh.of_eq heq
  split
  rename_i s2 y heq2
  have hr : FstAll MemInv (s2, y) := by
    rw [← heq2]
    split
    · split
      rename_i s12 w heq4
      have hs12 : MemInv s12 := hs1.undefWave.of_eq heq4
      exact hs12
    · exact hs1
  exact hr

theorem MemInv.restoreCaller {s : State} {q k : Nat} {z : Option Saved} {bad : Bool} (h : MemInv s) :
    MemInv (s.restoreCaller q k z bad) := by
  unfold State.restoreCaller
  extract_lets s0
  have hs0 : MemInv s0 := h
  split
  · exact hs0
  · split
    rename_i s1 y2 heq
    have hs1 : MemInv s1 := of_eq (P := FstAll MemInv) (ite_inv hs0.undefGroup (FstAll.intro hs0)) heq
    extract_lets s2
    have hs2 : MemInv s2 := foldl_inv hs1 (fun _ _ hs3 => hs3.setCore)
    split <;> exact hs2

theorem MemInv.askHomes {s : State} {x : Region} {y : Wg} {g : Nat} (h : MemInv s) : MemInv (s.askHomes x y g) := by
  unfold State.askHomes
  refine foldl_inv h ?_
  intro _ _ hs2
  split
  · exact hs2
  · split
    · exact hs2.askHome
    · exact hs2

theorem MemInv.execWorkgroupRestore {wg core : Nat} {s : State} (h : MemInv s) :
    OutMemOk (execWorkgroupRestore wg core s) := by
  unfold Machine.execWorkgroupRestore
  split
  · exact h
  · split
    · exact h
    · extract_lets die
      split
      · exact h
      · split
        · exact h
        · split
          · exact h
          · extract_lets z bad s1 s2 moved s3
            have hs1 : MemInv s1 := foldl_inv h (fun _ _ hs4 => hs4.restoreOne)
            have hs2 : MemInv s2 := by
              unfold s2
              split
              · exact hs1.restoreCaller
              · exact hs1
            have hs3 : MemInv s3 := by
              unfold s3
              refine foldl_inv hs2 ?_
              intro _ _ hs4
              split
              · exact hs4.askHomes
              · exact hs4
            exact hs3.placedFor.noteOffer.linkRegion.countFwd

theorem MemInv.execPreemptDecision {rgn : Nat} {s : State} (h : MemInv s) : OutMemOk (execPreemptDecision rgn s) := by
  unfold Machine.execPreemptDecision
  split
  · exact h
  · extract_lets after cores
    split
    · exact h
    · split
      · exact h
      · extract_lets best
        clear_value best
        split
        · exact h
        · exact MemInv.markSaving h.updRegion

theorem MemInv.addTime {s : State} {r n : Nat} (h : MemInv s) : MemInv (s.addTime r n) := by
  unfold State.addTime
  refine foldl_inv h ?_
  intro _ _ hs2
  extract_lets s1
  have hs1 : MemInv s1 := hs2.updRegion
  split
  · exact hs1.putNum
  · exact hs1

theorem MemInv.execTimeQuotaCharge {core : Nat} {s : State} (h : MemInv s) : OutMemOk (execTimeQuotaCharge core s) := by
  unfold Machine.execTimeQuotaCharge
  extract_lets s1 c s2 due
  have hs1 : MemInv s1 := foldl_inv h (fun _ _ hs3 => hs3.owe)
  have hs2 : MemInv s2 := foldl_inv hs1.setCore (fun _ _ hs3 => hs3.addTime)
  exact foldl_inv hs2 (fun _ _ hs3 => hs3.quotaEvent)

/-! ### Facet sets and the present unit -/

theorem MemInv.beginCommit {s : State} {i w : Nat} {x : FSet} (h : MemInv s) : MemInv (s.beginCommit i w x) := by
  unfold State.beginCommit
  exact h.updSet.squashFacets

theorem MemInv.commitLane {s : State} {c : Ctx} {lane : Nat} (h : MemInv s) : (s.commitLane c lane).memOk := by
  unfold State.commitLane
  extract_lets w
  split
  · exact h
  · exact h
  · split
    · exact h
    · split
      · exact h
      · extract_lets s1
        have hs1 : MemInv s1 := h.beginCommit
        split <;> exact hs1

theorem MemInv.squashLane {s : State} {c : Ctx} {lane : Nat} (h : MemInv s) : (s.squashLane c lane).memOk := by
  unfold State.squashLane
  extract_lets m
  split
  · exact h
  · exact h
  · split
    · exact h
    · extract_lets s1
      have hs1 : MemInv s1 := h.squashFacets
      split <;> exact hs1

theorem MemInv.drainWinner {s : State} {x : FSet} (h : MemInv s) : OptAll MemInv (s.drainWinner x) := by
  unfold State.drainWinner
  extract_lets rs todo
  exact foldl_inv (OptAll.some h) (fun _ _ hs2 => hs2.bind (fun _ hs1 => hs1.performUpTo))

theorem MemInv.releasePresents {s : State} {rs : List Nat} (h : MemInv s) : MemInv (s.releasePresents rs) := h

theorem MemInv.execCommitPublish {set : Nat} {s : State} (h : MemInv s) : OutMemOk (execCommitPublish set s) := by
  unfold Machine.execCommitPublish
  split
  · exact h
  · split
    · exact h
    · rename_i s4 heq2
      have hs4 : MemInv s4 := h.drainWinner _ heq2
      split
      · exact hs4
      · extract_lets rs won old s1 s2 woken s3
        have hold : MemInv old := foldl_inv (foldl_inv hs4 (fun _ _ hs5 => hs5.pushRegion)) (fun _ _ hs5 => hs5.noteConst)
        have hs1 : MemInv s1 := hold.updSet.clearWindow
        have hs2 : MemInv s2 := hs1.ctrFlush.releasePresents.raiseResc
        have hs3 : MemInv s3 := hs2
        exact foldl_inv hs3 (fun _ _ hs5 => hs5.wakeCore)

theorem MemInv.untag {s : State} {i : Nat} (h : MemInv s) : MemInv (s.untag i) := h

theorem MemInv.execRetireWalk {set : Nat} {s : State} (h : MemInv s) : OutMemOk (execRetireWalk set s) := by
  unfold Machine.execRetireWalk
  split
  · exact h
  · split
    · exact h
    · extract_lets mine s1 s2
      have hs1 : MemInv s1 := foldl_inv h (fun _ _ hs3 => MemInv.touch (MemInv.setPoison (putBytes_wf _ _ hs3)))
      have hs2 : MemInv s2 := hs1.updSet
      exact MemInv.untag hs2

theorem MemInv.doneCheck {s : State} {c : Ctx} {d : BitVec 512} (h : MemInv s) :
    ExcAll Lane.memOk MemInv (s.doneCheck c d) := by
  unfold State.doneCheck
  extract_lets va
  split
  · exact h
  · split
    · rename_i a _ heq2
      exact of_eq (P := TransRes.memOk) h.translate heq2
    · rename_i a _ heq2
      exact of_eq (P := TransRes.memOk) h.translate heq2
    · rename_i a _ heq2
      exact of_eq (P := TransRes.memOk) h.translate heq2
    · rename_i a heq2
      exact of_eq (P := TransRes.memOk) h.translate heq2

theorem MemInv.presentLane {s : State} {c : Ctx} {lane : Nat} (h : MemInv s) : (s.presentLane c lane).memOk := by
  unfold State.presentLane
  extract_lets q va
  split
  · exact h
  · split
    · rename_i r heq2
      exact of_eq (P := DescRes.memOk) h.readDesc heq2
    · rename_i s1 _ heq2
      have hs1 : MemInv s1 := of_eq (P := DescRes.memOk) h.readDesc heq2
      split
      · exact hs1
      · split
        · rename_i r heq4
          exact of_eq (P := ExcAll Lane.memOk MemInv) hs1.doneCheck heq4
        · rename_i s2 heq4
          have hs2 : MemInv s2 := of_eq (P := ExcAll Lane.memOk MemInv) hs1.doneCheck heq4
          split
          · exact hs2
          · split
            · exact h
            · rename_i s4 heq6
              have hs4 : MemInv s4 := hs2.releaseAt _ heq6
              extract_lets e put
              exact hs4

theorem MemInv.presentPlace {s : State} {rgn va : Nat} (h : MemInv s) : FstAll MemInv (s.presentPlace rgn va) := by
  unfold State.presentPlace
  split
  · refine FstAll.intro ?_
    split
    · exact h.dataError
    · exact h
  · exact h

theorem MemInv.surfacePieces {s : State} {rgn : Nat} {acc : List Byte} {l : List (Nat × Nat)} (h : MemInv s) :
    (s.surfacePieces rgn acc l).memOk := by
  induction l generalizing s acc with
  | nil =>
    rw [State.surfacePieces]
    exact h
  | cons e l ih =>
    rw [State.surfacePieces]
    split
    · rename_i s2 heq
      exact h.presentPlace.of_eq heq
    · rename_i s2 _ _ heq
      have hs2 : MemInv s2 := h.presentPlace.of_eq heq
      split
      · exact hs2
      · split
        · exact hs2.dataError
        · extract_lets s1
          have hs1 : MemInv s1 := ite_inv hs2 hs2.atHome
          exact ih hs1

theorem MemInv.surface {s : State} {rgn : Nat} {d : BitVec 512} (h : MemInv s) : (s.surface rgn d).memOk := by
  unfold State.surface
  extract_lets n
  exact h.surfacePieces

theorem MemInv.again {s : State} {q : Nat} (h : MemInv s) : MemInv (s.again q) := by
  unfold State.again
  extract_lets out
  have hout : ∀ (s : State) (y : OutFrame), MemInv s → MemInv (out s y) := by
    intro _ _ hs2
    unfold out
    exact hs2
  split
  · split
    · rename_i a _ heq2
      have ha : MemInv a := of_eq (P := Surface.memOk) h.surface heq2
      exact hout _ _ ha
    · rename_i a _ _ heq2
      have ha : MemInv a := of_eq (P := Surface.memOk) h.surface heq2
      exact hout _ _ ha
  · exact hout _ _ h

theorem MemInv.flipHead {s : State} {q : Nat} {e : PEntry} (h : MemInv s) : MemInv (s.flipHead q e) := by
  unfold State.flipHead
  extract_lets drop keep
  split
  · rename_i s1 sub va heq
    have hr : (Surface.bad s1 sub va).memOk := by
      rw [← heq]
      exact MemInv.surface h
    exact MemInv.again (MemInv.postEng hr)
  · rename_i s1 bs heq
    have hr : (Surface.ok s1 bs).memOk := by
      rw [← heq]
      exact MemInv.surface h
    exact hr

theorem MemInv.raiseFor {s : State} {q : Nat} {up : Bool} (h : MemInv s) : MemInv (s.raiseFor q up) := h

theorem MemInv.missedSlot {s : State} {q : Nat} (h : MemInv s) : MemInv (s.missedSlot q) := by
  unfold State.missedSlot
  refine MemInv.again ?_
  split
  · exact h.postEvent
  · exact h.postFjoub

theorem MemInv.execPresentFlip {queue : Nat} {s : State} (h : MemInv s) : OutMemOk (execPresentFlip queue s) := by
  unfold Machine.execPresentFlip
  split
  · exact h
  · extract_lets head load s1
    have hs1 : MemInv s1 := MemInv.raiseFor h
    split
    · split
      · exact h
      · show MemInv _
        clear_value head
        split
        · exact hs1.flipHead
        · exact hs1.missedSlot
    · clear_value head
      split
      · exact h.flipHead
      · exact h

theorem MemInv.execPresentGuard {queue : Nat} {s : State} (h : MemInv s) : OutMemOk (execPresentGuard queue s) := by
  unfold Machine.execPresentGuard
  split
  · exact h
  · extract_lets ready
    exact ite_inv h.raiseFor h

theorem MemInv.execPresentReadoutDone {index : Nat} {s : State} (h : MemInv s) :
    OutMemOk (execPresentReadoutDone index s) := by
  unfold Machine.execPresentReadoutDone
  split
  · exact h
  · extract_lets s1 va
    have hs1 : MemInv s1 := h
    split
    · exact hs1
    · split
      · rename_i s2 heq3
        have hs2 : MemInv s2 := hs1.presentPlace.of_eq heq3
        exact hs2.postEng
      · rename_i s2 _ _ heq3
        have hs2 : MemInv s2 := hs1.presentPlace.of_eq heq3
        exact ite_inv hs2.raiseCtr hs2.postEng

end Sys2Proof
end

section
/-! PROOFS. Every step keeps memory in its canonical form (O2): calculations, loads, stores, textures and their events. -/

namespace Sys2Proof

open Sys2Proof.Machine

/-! ### Floating point -/

theorem MemInv.fpu {i : Instr} {s : State} {ty : FTy} {rnd : Rnd} {sat ftz : Bool} {e : Ctx → Nat → XR} (h : MemInv s) :
    OutMemOk (fpu i s ty rnd sat ftz e) := by
  unfold Machine.fpu
  exact h.alu

theorem MemInv.pairwise {i : Instr} {s : State} {ty : FTy} {rnd : Rnd} {sat ftz : Bool} {e : Ctx → XR → XR → XR → XR}
    (h : MemInv s) : OutMemOk (pairwise i s ty rnd sat ftz e) := by
  unfold Machine.pairwise
  exact h.alu

theorem MemInv.execHdot2 {f : Frame} {ty : FTy} {dt : Bool} {rnd : Rnd} {sat ftz : Bool} {s : State} (h : MemInv s) :
    OutMemOk (execHdot2 f ty dt rnd sat ftz s) := by
  unfold Machine.execHdot2
  extract_lets df el
  exact h.alu

theorem MemInv.execCvt {f : Frame} {dt st : CvtTy} {rnd : Rnd} {sat ftz : Bool} {sel : BitVec 2} {slot : BitVec 3}
    {s : State} (h : MemInv s) : OutMemOk (execCvt f dt st rnd sat ftz sel slot s) := by
  unfold Machine.execCvt
  refine MemInv.run h ?_
  intro _ _ hs2
  extract_lets r named d
  exact hs2.compute

theorem MemInv.execQpack {f : Frame} {slot : BitVec 3} {s : State} (h : MemInv s) : OutMemOk (execQpack f slot s) := by
  unfold Machine.execQpack
  refine MemInv.run h ?_
  intro _ _ hs2
  extract_lets r ty e
  exact hs2.compute

theorem MemInv.execQunpk {f : Frame} {slot : BitVec 3} {ty : FTy} {s : State} (h : MemInv s) :
    OutMemOk (execQunpk f slot ty s) := by
  unfold Machine.execQunpk
  refine MemInv.run h ?_
  intro _ _ hs2
  extract_lets r
  exact hs2.compute

/-! ### Integers, logic and addresses -/

theorem MemInv.arith {i : Instr} {s : State} {ty : IntTy} {sat : Bool} {e : Ctx → Nat → ℤ} (h : MemInv s) :
    OutMemOk (arith i s ty sat e) := by
  unfold Machine.arith
  exact h.alu

/-! ### The Caller's instructions and the matrix engines -/

theorem MemInv.setTile {s : State} {wg n : Nat} {t : Tile} (h : MemInv s) : MemInv (s.setTile wg n t) := h

theorem MemInv.spoil {s : State} {wg n : Nat} (h : MemInv s) : MemInv (s.spoil wg n) := h

theorem MemInv.putCmd {s : State} {c : Ctx} {eng : Nat} {cmd : ECmd} (h : MemInv s) : MemInv (s.putCmd c eng cmd) := h

theorem MemInv.engineCmd {i : Instr} {s : State} {g : Ctx → State → Nat → Lane} (h : MemInv s)
    (hg : ∀ (c : Ctx) (s : State) (n : Nat), MemInv s → (g c s n).memOk) : OutMemOk (engineCmd i s g) := by
  unfold Machine.engineCmd
  exact h.perLaneIf (fun _ _ _ hs2 => hg _ _ _ hs2)

theorem MemInv.engineGo {s : State} {c : Ctx} {lane eng : Nat} {cmd : ECmd} (h : MemInv s) :
    (s.engineGo c lane eng cmd).memOk := by
  unfold State.engineGo
  split
  · exact h
  · rename_i s4 heq
    have hs4 : MemInv s4 := h.engineIssue _ heq
    exact hs4.putCmd

theorem MemInv.mmaLane {s : State} {c : Ctx} {lane : Nat} {z : Bool} {sa sb : BitVec 3} {bh : Bool} (h : MemInv s) :
    (s.mmaLane c lane z sa sb bh).memOk := by
  unfold State.mmaLane
  extract_lets m eng a b off
  split
  · exact h
  · exact h
  · split
    · exact h
    · split
      · exact h
      · split
        · exact h.engineGo
        · split
          · exact ite_inv h.engineGo h
          · exact h

theorem MemInv.azeroLane {s : State} {c : Ctx} {lane : Nat} (h : MemInv s) : (s.azeroLane c lane).memOk := by
  unfold State.azeroLane
  extract_lets m
  split
  · exact h
  · exact h
  · exact ite_inv h h.engineGo

theorem MemInv.bindHandle {s : State} {c : Ctx} {lane n hnd base pitch : Nat} {slot : BitVec 3} {q : Bool}
    (h : MemInv s) : (s.bindHandle c lane n hnd base pitch slot q).memOk := by
  unfold State.bindHandle
  split
  · exact h
  · split
    · exact h
    · rename_i s4 heq2
      have hs4 : MemInv s4 := h.engineIssue _ heq2
      extract_lets h_2
      exact hs4

theorem MemInv.tfetchLane {s : State} {c : Ctx} {lane : Nat} {fs : BitVec 3} {q : Bool} (h : MemInv s) :
    (s.tfetchLane c lane fs q).memOk := by
  unfold State.tfetchLane
  extract_lets m base pitch hnd
  split
  · exact h
  · exact h
  · split
    · exact h
    · split
      · exact ite_inv h (ite_inv h h.bindHandle)
      · exact h.bindHandle

theorem MemInv.trelLane {s : State} {c : Ctx} {lane : Nat} (h : MemInv s) : (s.trelLane c lane).memOk := by
  unfold State.trelLane
  extract_lets m free
  split <;> exact h

theorem MemInv.fetchAt {s : State} {e : EngOf} {va n i : Nat} (h : MemInv s) : (s.fetchAt e va n i).memOk := by
  unfold State.fetchAt
  split
  · rename_i s1 _ heq
    have hs1 : MemInv s1 := of_eq (P := EngParts.memOk) h.engParts heq
    exact hs1.engRecord
  · rename_i s1 _ heq
    have hs1 : MemInv s1 := of_eq (P := EngParts.memOk) h.engParts heq
    exact hs1.engQuota
  · rename_i s1 heq
    exact of_eq (P := EngParts.memOk) h.engParts heq
  · exact h
  · rename_i s1 _ heq
    have hs1 : MemInv s1 := of_eq (P := EngParts.memOk) h.engParts heq
    split
    · rename_i s2 _ _ heq2
      have hs2 : MemInv s2 := of_eq (P := EngRes.memOk) hs1.engFetch heq2
      exact hs2.engRecord.dataError
    · rename_i s2 _ heq2
      exact of_eq (P := EngRes.memOk) hs1.engFetch heq2
    · exact hs1

theorem MemInv.fetchRow {s : State} {e : EngOf} {y : Handle} {row : Nat} (h : MemInv s) : (s.fetchRow e y row).memOk := by
  rw [State.fetchRow]
  have hfetch : ∀ s1 va n skip, MemInv s1 → (State.fetchAt s1 e va n skip).memOk := fun _ _ _ _ hs1 => hs1.fetchAt
  generalize State.fetchAt = fetch at hfetch ⊢
  split
  · rename_i s1 keys heq
    have hs1 : MemInv s1 := of_eq (P := FetchRes.memOk) (hfetch _ _ _ _ h) heq
    refine ite_inv hs1 ?_
    extract_lets off va
    split
    · rename_i s2 ks heq2
      have hs2 : MemInv s2 := of_eq (P := FetchRes.memOk) (hfetch _ _ _ _ hs1) heq2
      exact hs2
    · exact hfetch _ _ _ _ hs1
  · exact hfetch _ _ _ _ h

theorem MemInv.execTfetchRowFetch {cluster handle row : Nat} {s : State} (h : MemInv s) :
    OutMemOk (execTfetchRowFetch cluster handle row s) := by
  unfold Machine.execTfetchRowFetch
  split
  · exact h
  · split
    · exact h
    · rename_i y _ _
      split
      · exact h
      · extract_lets put
        have hput : ∀ (s : State) (y : Handle → Handle), MemInv s → MemInv (put s y) := by
          intro _ _ hs2
          unfold put
          exact hs2
        split
        · rename_i s1 heq4
          have hs1 : MemInv s1 := of_eq (P := FetchRes.memOk) h.fetchRow heq4
          exact hput _ _ hs1
        · rename_i s1 heq4
          exact of_eq (P := FetchRes.memOk) h.fetchRow heq4
        · rename_i s1 _ heq4
          have hs1 : MemInv s1 := of_eq (P := FetchRes.memOk) h.fetchRow heq4
          exact ite_inv h (hput _ _ hs1)

theorem MemInv.absmaxBad {s : State} {c : Ctx} {va : Nat} (h : MemInv s) : ExcAll Lane.memOk MemInv (s.absmaxBad c va) := by
  unfold State.absmaxBad
  split
  · exact h
  · split
    · rename_i a _ heq2
      exact of_eq (P := TransRes.memOk) h.translate heq2
    · rename_i a _ heq2
      exact of_eq (P := TransRes.memOk) h.translate heq2
    · rename_i a _ heq2
      exact of_eq (P := TransRes.memOk) h.translate heq2
    · rename_i a heq2
      exact of_eq (P := TransRes.memOk) h.translate heq2

theorem MemInv.drainLane {s : State} {c : Ctx} {lane : Nat} {fs : BitVec 3} (h : MemInv s) :
    (s.drainLane c lane fs).memOk := by
  unfold State.drainLane
  extract_lets m opt dst str eng bar form bad clsBad merge a
  split
  · exact h
  · exact h
  · split
    · exact h
    · split
      · exact h
      · split
        · exact h
        · split
          · rename_i r heq6
            have hr : ExcAll Lane.memOk MemInv (Except.error r) := by
              rw [← heq6]
              exact ite_inv h.absmaxBad h
            exact hr
          · rename_i s2 heq6
            have hr : ExcAll Lane.memOk MemInv (Except.ok s2) := by
              rw [← heq6]
              exact ite_inv h.absmaxBad h
            exact MemInv.engineGo hr

theorem MemInv.cmdDone {s : State} {x : AtWork} (h : MemInv s) : MemInv (s.cmdDone x) := by
  unfold State.cmdDone
  extract_lets c y e
  exact h.setCore.wakeWhere.groupEnd

theorem MemInv.engineHalt {s : State} {x : AtWork} {tile cause : Nat} {sub : BitVec 8} {slot : Nat} (h : MemInv s) :
    MemInv (s.engineHalt x tile cause sub slot) := by
  unfold State.engineHalt
  extract_lets s1 c word y
  have hs1 : MemInv s1 := h.spoil
  exact hs1.setCore.cmdDone

theorem MemInv.handlePoison {s : State} {x : AtWork} {bh : Option (Nat × Nat)} {key : Nat} (h : MemInv s) :
    MemInv (s.handlePoison x bh key) := by
  unfold State.handlePoison
  extract_lets n s1
  have hs1 : MemInv s1 := h
  exact hs1.engRecord.dataError

theorem MemInv.mmaRead {s : State} {x : AtWork} {y : Wg} {ra rb : SlotRec} {sa sb : Source} (h : MemInv s) :
    OptAll (FstAll MemInv) (s.mmaRead x y ra rb sa sb) := by
  unfold State.mmaRead
  extract_lets tag todo at_
  split
  rename_i s1 heq
  have hs1 : MemInv s1 := h.fresh.of_eq heq
  split
  rename_i s12 heq2
  have hs12 : MemInv s12 := hs1.fresh.of_eq heq2
  extract_lets now keys s3
  have hs3 : MemInv s3 := foldl_inv hs12 (fun _ _ hs2 => ite_inv hs2 hs2.atHome)
  exact ite_inv OptAll.none (OptAll.some hs3)

theorem MemInv.mmaFinish {s : State} {x : AtWork} {y : Wg} {z : Bool} {ra rb : SlotRec} {sa nb tile : Nat}
    {rows : OperandRows} (h : MemInv s) : MemInv (s.mmaFinish x y z ra rb sa nb tile rows) := by
  unfold State.mmaFinish
  extract_lets rowsA rowsB vals
  exact ite_inv h.engineHalt (ite_inv h.engineHalt h.setTile.cmdDone)

theorem MemInv.runMma {s : State} {x : AtWork} {y : Wg} {z : Bool} {sa sb : Nat} {bh : Option (Nat × Nat)}
    {tile a b : Nat} (h : MemInv s) : MemInv (s.runMma x y z sa sb bh tile a b) := by
  unfold State.runMma
  extract_lets nb ra rb
  split
  · exact h.engineHalt
  · exact h.engineHalt
  · split
    · exact h.engineHalt
    · split
      · exact h
      · exact h.engineHalt
      · exact h.engineHalt
      · exact h.engineHalt
      · split
        · exact h.cmdDone
        · split
          · exact h
          · rename_i s1 _ _ heq7
            have hs1 : MemInv s1 := h.mmaRead _ heq7
            exact hs1.handlePoison.engineHalt
          · rename_i s1 _ heq7
            have hs1 : MemInv s1 := h.mmaRead _ heq7
            extract_lets e read y_2
            exact ite_inv hs1.setCore hs1.mmaFinish

theorem MemInv.execEngineMmaExecute {core : Nat} {s : State} (h : MemInv s) : OutMemOk (execEngineMmaExecute core s) := by
  unfold Machine.execEngineMmaExecute
  split
  · exact h
  · split
    · exact h.runMma
    · exact h

theorem MemInv.execEngineAzeroExecute {core : Nat} {s : State} (h : MemInv s) :
    OutMemOk (execEngineAzeroExecute core s) := by
  unfold Machine.execEngineAzeroExecute
  split
  · exact h
  · split
    · exact h.setTile.cmdDone
    · exact h

theorem MemInv.drainLand {s : State} {d : DrainOf} {n : Nat} {flt : Bool} (h : MemInv s) : MemInv (s.drainLand d n flt) := by
  unfold State.drainLand
  split
  · exact h.barLand
  · exact h

theorem MemInv.drainPush {s : State} {g str : Nat} {ws : List Word} (h : MemInv s) : MemInv (s.drainPush g str ws) := by
  unfold State.drainPush
  extract_lets c e e1 s1
  have hs1 : MemInv s1 := h.setCore
  exact foldl_inv hs1 (fun _ _ hs2 => hs2.wakeWhere)

theorem MemInv.drainVoid {s : State} {x : AtWork} {d : DrainOf} (h : MemInv s) : MemInv (s.drainVoid x d) := by
  unfold State.drainVoid
  split
  exact ite_inv h.drainPush h.drainLand

theorem MemInv.setRow {s : State} {g n : Nat} {piece : Nat} (h : MemInv s) : MemInv (s.setRow g n piece) := h

theorem MemInv.mergeMax {s : State} {x : AtWork} {va m : Nat} (h : MemInv s) : FstAll MemInv (s.mergeMax x va m) := by
  unfold State.mergeMax
  split
  · exact h
  · split
    · rename_i s1 _ heq2
      have hs1 : MemInv s1 := of_eq (P := EngParts.memOk) h.engParts heq2
      exact hs1.engRecord
    · rename_i s1 _ heq2
      have hs1 : MemInv s1 := of_eq (P := EngParts.memOk) h.engParts heq2
      exact hs1.engQuota
    · rename_i s1 heq2
      exact of_eq (P := EngParts.memOk) h.engParts heq2
    · exact h
    · rename_i s1 l heq2
      have hs1 : MemInv s1 := of_eq (P := EngParts.memOk) h.engParts heq2
      split
      · rename_i s2 _ heq3
        have hs2 : MemInv s2 := of_eq (P := EngRes.memOk) hs1.engFetch heq3
        split
        · rename_i s3 _ heq4
          exact of_eq (P := EngRes.memOk) hs2.engStore heq4
        · rename_i s3 _ heq4
          have hs3 : MemInv s3 := of_eq (P := EngRes.memOk) hs2.engStore heq4
          exact hs3.engFull
        · exact hs2
      · rename_i s2 _ _ heq3
        have hs2 : MemInv s2 := of_eq (P := EngRes.memOk) hs1.engFetch heq3
        exact hs2.dataError
      · exact hs1

theorem MemInv.drainMerge {s : State} {x : AtWork} {d : DrainOf} {t : Tile} (h : MemInv s) :
    FstAll MemInv (s.drainMerge x d t) := by
  unfold State.drainMerge
  split
  · exact h
  · exact h.mergeMax

theorem MemInv.drainNext {s : State} {x : AtWork} {r piece left : Nat} (h : MemInv s) :
    MemInv (s.drainNext x r piece left) := by
  unfold State.drainNext
  exact ite_inv h.setRow (ite_inv h.cmdDone h.setRow)

theorem MemInv.drainRow {s : State} {x : AtWork} {d : DrainOf} {y : Wg} {slot : SlotRec} {r piece : Nat}
    (h : MemInv s) : MemInv (s.drainRow x d y slot r piece) := by
  unfold State.drainRow
  extract_lets t
  split
  split
  · exact h.setRow.drainPush
  · split
    · exact h.drainNext
    · split
      · rename_i s2 heq4
        have hr : FstAll MemInv (s2, false) := by
          rw [← heq4]
          exact ite_inv h.drainMerge h
        exact hr
      · rename_i s2 heq4
        have hr : FstAll MemInv (s2, true) := by
          rw [← heq4]
          exact ite_inv h.drainMerge h
        exact ite_inv hr (MemInv.drainNext (MemInv.drainLand (MemInv.copyPut hr)))

theorem MemInv.drainStart {s : State} {x : AtWork} {d : DrainOf} {y : Wg} {slot : SlotRec} (h : MemInv s) :
    MemInv (s.drainStart x d y slot) := by
  unfold State.drainStart
  extract_lets ok sub void
  have hvoid : ∀ (y : Flt), MemInv (void y) := by
    intro _
    unfold void
    extract_lets s1
    have hs1 : MemInv s1 := h.engRecord.drainVoid
    exact ite_inv hs1.setRow hs1.cmdDone
  clear_value sub
  split
  · exact h.engineHalt
  · exact ite_inv (hvoid _) (ite_inv (hvoid _) h.drainRow)

theorem MemInv.runDrain {s : State} {x : AtWork} {d : DrainOf} {y : Wg} (h : MemInv s) : MemInv (s.runDrain x d y) := by
  unfold State.runDrain
  extract_lets slot e pushed
  split
  · exact h.drainStart
  · split
    · exact h.drainRow
    · split
      · exact h
      · split
        · split
          · rename_i s1 heq5
            have hs1 : MemInv s1 := h.drainMerge.of_eq heq5
            exact ite_inv hs1.cmdDone hs1
          · rename_i s1 heq5
            exact h.drainMerge.of_eq heq5
        · exact h.cmdDone

theorem MemInv.execEngineDrainExecute {core : Nat} {s : State} (h : MemInv s) :
    OutMemOk (execEngineDrainExecute core s) := by
  unfold Machine.execEngineDrainExecute
  split
  · exact h
  · split
    · exact h.runDrain
    · exact h

theorem MemInv.mwaitLane {s : State} {c : Ctx} {lane : Nat} (h : MemInv s) : (s.mwaitLane c lane).memOk := by
  unfold State.mwaitLane
  extract_lets mask engs e
  split
  · exact h
  · split
    · split
      · exact h
      · rename_i s4 heq3
        exact h.acquireAt _ heq3
    · exact h

theorem MemInv.putDecision {s : State} {wg : Nat} {v : Word} (h : MemInv s) : MemInv (s.putDecision wg v) := by
  unfold State.putDecision
  extract_lets s1
  have hs1 : MemInv s1 := h
  exact foldl_inv hs1 (fun _ _ hs2 => hs2.wakeWhere)

theorem MemInv.dqPutLane {s : State} {c : Ctx} {lane : Nat} {all : Bool} (h : MemInv s) :
    (s.dqPutLane c lane all).memOk := by
  unfold State.dqPutLane
  extract_lets b targets
  split
  · exact h
  · split
    · exact h
    · split
      · exact h
      · rename_i s4 heq3
        have hs4 : MemInv s4 := h.releaseAt _ heq3
        exact foldl_inv hs4 (fun _ _ hs2 => hs2.putDecision)

theorem MemInv.takeLane {s : State} {c : Ctx} {lane : Nat} {nb : Bool} (h : MemInv s) : (s.takeLane c lane nb).memOk := by
  unfold State.takeLane
  extract_lets k y
  split
  · split
    · exact h
    · rename_i s4 heq2
      have hr : OptAll MemInv (some s4) := by
        rw [← heq2]
        exact MemInv.acquireAt h.setCluster
      exact (hr _ rfl)
  · exact ite_inv h h

theorem MemInv.discardCmd {s : State} {x : AtWork} (h : MemInv s) : MemInv (s.discardCmd x) := by
  unfold State.discardCmd
  split
  · exact h.spoil
  · exact h.spoil
  · exact h.drainVoid

theorem MemInv.discardAll {s : State} {g : Nat} (h : MemInv s) : MemInv (s.discardAll g) := by
  unfold State.discardAll
  extract_lets e s1 c y
  have hs1 : MemInv s1 := by
    unfold s1
    split
    · split
      · exact foldl_inv h (fun _ _ hs2 => hs2.discardCmd)
      · exact h
    · exact h
  exact hs1.setCore

theorem MemInv.writeMestat {s : State} {g v : Nat} (h : MemInv s) : MemInv (s.writeMestat g v) := by
  unfold State.writeMestat
  extract_lets halted s1 c y
  have hs1 : MemInv s1 := ite_inv h.discardAll h
  exact ite_inv h (ite_inv hs1.setCore hs1)

/-! ### Loads and stores -/

theorem MemInv.loadLane {s : State} {c : Ctx} {lane : Nat} {m : MemMod} {tagging : Tagging} (h : MemInv s) :
    (s.loadLane c lane m tagging).memOk := by
  unfold State.loadLane
  extract_lets va
  split
  · exact h
  · exact h.issueGlob

theorem MemInv.storeLane {s : State} {c : Ctx} {lane : Nat} {m : MemMod} {tagging : Tagging} (h : MemInv s) :
    (s.storeLane c lane m tagging).memOk := by
  unfold State.storeLane
  extract_lets va
  split
  · exact h
  · exact h.issueGlob

theorem MemInv.loadWinLane {s : State} {c : Ctx} {lane : Nat} {m : MemMod} {tob : Bool} (h : MemInv s) :
    (s.loadWinLane c lane m tob).memOk := by
  unfold State.loadWinLane
  extract_lets va
  split
  · exact h
  · exact h.issueWin

theorem MemInv.storeWinLane {s : State} {c : Ctx} {lane : Nat} {m : MemMod} {tob : Bool} (h : MemInv s) :
    (s.storeWinLane c lane m tob).memOk := by
  unfold State.storeWinLane
  extract_lets va
  split
  · exact h
  · exact h.issueWin

theorem MemInv.loadConstLane {s : State} {c : Ctx} {lane : Nat} {m : MemMod} (h : MemInv s) :
    (s.loadConstLane c lane m).memOk := by
  unfold State.loadConstLane
  extract_lets va
  split
  · exact h
  · split
    exact ite_inv h h.issueGlob

theorem MemInv.ldrLane {s : State} {c : Ctx} {lane : Nat} {m : MemMod} (h : MemInv s) : (s.ldrLane c lane m).memOk := by
  unfold State.ldrLane
  extract_lets va
  split
  · exact h
  · exact h.issueGlob

theorem MemInv.stcLane {s : State} {c : Ctx} {lane : Nat} {m : MemMod} (h : MemInv s) : (s.stcLane c lane m).memOk := by
  unfold State.stcLane
  extract_lets va
  split
  · exact h
  · exact h.issueGlob

theorem MemInv.askWalk {s : State} {rgn k va : Nat} (h : MemInv s) : MemInv (s.askWalk rgn k va) := by
  unfold State.askWalk
  extract_lets c here
  exact ite_inv h h.setCluster

theorem MemInv.pfLane {s : State} {c : Ctx} {lane : Nat} {m : MemMod} (h : MemInv s) : MemInv (s.pfLane c lane m) := by
  unfold State.pfLane
  extract_lets va asr k own
  split
  · exact h.askWalk
  · extract_lets key
    split
    · exact h
    · split
      · exact h.atHome
      · split
        · exact h
        · exact ite_inv (foldl_inv h (fun _ _ hs2 => hs2.fill)) h

/-! ### Textures and rays -/

theorem MemInv.unitRead {s : State} {q : Asked} {va n : Nat} (h : MemInv s) : (s.unitRead q va n).memOk := by
  unfold State.unitRead
  split
  · rename_i s1 _ _ heq
    exact of_eq (P := Trans2.memOk) h.reach heq
  · rename_i s1 _ heq
    exact of_eq (P := Trans2.memOk) h.reach heq
  · rename_i s1 heq
    exact of_eq (P := Trans2.memOk) h.reach heq
  · rename_i s1 _ heq
    have hs1 : MemInv s1 := of_eq (P := Trans2.memOk) h.reach heq
    extract_lets tag
    split
    · exact hs1
    · split
      · exact h
      · rename_i s4 heq3
        have hs4 : MemInv s4 := (hs1.engineIssue.bind (fun _ hs12 => hs12.settleFor)) _ heq3
        extract_lets s3 bad
        have hs3 : MemInv s3 := foldl_inv hs4 (fun _ _ hs2 => ite_inv hs2 hs2.atHome)
        exact ite_inv hs3 (foldl_inv hs3 (fun _ _ hs2 => hs2.dataError))

theorem Machine.URes.memOk.go {r : URes} {k : State → List Byte → URun} (hr : r.memOk)
    (hk : ∀ (s : State) (y : List Byte), MemInv s → (k s y).memOk) : (r.go k).memOk := by
  unfold URes.go
  split
  · exact hk _ _ hr
  · exact hr
  · exact hr

theorem MemInv.sampleTaps {s : State} {q : Asked} {t : Tex} {l : List Tap} {y : Option (List XQ)} (h : MemInv s) :
    (s.sampleTaps q t l y).memOk := by
  induction l generalizing s y with
  | nil =>
    unfold State.sampleTaps
    exact h
  | cons y2 l ih =>
    rw [State.sampleTaps]
    split
    split
    · rename_i a _ heq2
      have ha : MemInv a := of_eq (P := URes.memOk) h.unitRead heq2
      exact ih ha
    · rename_i a heq2
      have ha : MemInv a := of_eq (P := URes.memOk) h.unitRead heq2
      exact ih ha
    · rename_i a heq2
      exact of_eq (P := URes.memOk) h.unitRead heq2

theorem MemInv.texDesc {s : State} {q : Asked} {k : State → Tex → URun} (h : MemInv s)
    (hk : ∀ (s : State) (y : Tex), MemInv s → (k s y).memOk) : (s.texDesc q k).memOk := by
  unfold State.texDesc
  extract_lets va
  split
  · exact h
  · refine URes.memOk.go h.unitRead ?_
    intro _ _ hs2
    extract_lets d
    exact ite_inv hs2 (hk _ _ hs2)

theorem MemInv.sample {s : State} {q : Asked} {lod : Nat → Nat} (h : MemInv s) : (s.sample q lod).memOk := by
  unfold State.sample
  refine MemInv.texDesc h ?_
  intro _ _ hs2
  split
  · exact hs2.sampleTaps
  · exact hs2

theorem MemInv.texFetch {s : State} {q : Asked} (h : MemInv s) : (s.texFetch q).memOk := by
  unfold State.texFetch
  refine MemInv.texDesc h ?_
  intro _ _ hs2
  extract_lets l x y_2
  split
  exact ite_inv hs2 (hs2.unitRead.go (fun _ _ hs3 => hs3))

theorem MemInv.texQuery {s : State} {q : Asked} (h : MemInv s) : (s.texQuery q).memOk := by
  unfold State.texQuery
  refine MemInv.texDesc h ?_
  intro _ _ hs2
  extract_lets l
  split
  exact hs2

theorem MemInv.traverse {q : Asked} {r : Ray} {fuel : Nat} {l : List (Nat × Bool)} {best : Option Hit} {s : State}
    (h : MemInv s) : (State.traverse q r fuel l best s).memOk := by
  induction fuel generalizing l best s with
  | zero =>
    cases l with
    | nil => exact h
    | cons e rest => exact h
  | succ n ih =>
    cases l with
    | nil => exact h
    | cons e rest =>
      obtain ⟨va, leaf⟩ := e
      rw [State.traverse]
      split
      · rename_i heq
        exact of_eq (P := URes.memOk) h.unitRead heq
      · rename_i heq
        exact of_eq (P := URes.memOk) h.unitRead heq
      · rename_i heq
        exact of_eq (P := URes.memOk) h.unitRead heq
      · rename_i s1 bs heq
        have hs1 : MemInv s1 := of_eq (P := URes.memOk) h.unitRead heq
        extract_lets v
        exact ite_inv hs1 (ite_inv (ih hs1) (ih hs1))

theorem MemInv.traceRay {s : State} {q : Asked} (h : MemInv s) : (s.traceRay q).memOk := by
  unfold State.traceRay
  split
  · exact h
  · extract_lets v miss
    split
    · exact h
    · split
      · exact h
      · split
        · exact h.traverse
        · split
          rename_i s1 heq5
          exact h.fresh.of_eq heq5

theorem MemInv.unitRun {s : State} {q : Asked} (h : MemInv s) : (s.unitRun q).memOk := by
  unfold State.unitRun
  split
  · exact h.sample
  · exact h.sample
  · exact h.texFetch
  · exact h.texQuery
  · exact h.traceRay

theorem MemInv.unitLane {s : State} {c : Ctx} {lane : Nat} {op : UnitOp} (h : MemInv s) :
    (s.unitLane c lane op).memOk := by
  unfold State.unitLane
  split
  · rename_i a _ heq
    exact of_eq (P := URun.memOk) h.unitRun heq
  · rename_i a heq
    exact of_eq (P := URun.memOk) h.unitRun heq

theorem MemInv.unitAgain {s : State} {w lane : Nat} {a : Machine.Acc} (h : MemInv s) : MemInv (s.unitAgain w lane a) := by
  unfold State.unitAgain
  split
  · split
    rename_i s1 heq3
    have hs1 : MemInv s1 := h.fresh.of_eq heq3
    split
    · exact hs1
    · split
      · rename_i a2 _ heq5
        have ha2 : MemInv a2 := of_eq (P := URun.memOk) hs1.unitRun heq5
        exact ha2.updThread
      · exact hs1
  · exact h

/-! ### Events of waves, memory and homes -/

theorem MemInv.strike {s : State} {w : Nat} {a : Machine.Acc} {err : Bool} (h : MemInv s) : MemInv (s.strike w a err) := by
  unfold State.strike
  split
  · exact h.strikeGrain
  · exact h

theorem MemInv.execLlResultReturn {w lane acc : Nat} {err : Bool} {s : State} (h : MemInv s) :
    OutMemOk (execLlResultReturn w lane acc err s) := by
  unfold Machine.execLlResultReturn
  split
  · exact h
  · split
    · exact h
    · split
      · rename_i s1 heq3
        exact h.strike.unitAgain.returnAcc _ heq3
      · exact h

theorem MemInv.clearFor {s : State} {w lane : Nat} {a : Machine.Acc} (h : MemInv s) :
    OptAll MemInv (s.clearFor w lane a) := by
  unfold State.clearFor
  exact (foldl_inv (OptAll.some h) (fun _ _ hs2 => hs2.bind (fun _ hs1 => hs1.performElem))).bind (fun _ hs1 => ite_inv
      (OptAll.some hs1) hs1.force)

theorem MemInv.storeGrain {s : State} {w lane : Nat} {a b rest : Machine.Acc} (h : MemInv s) :
    OptAll MemInv (s.storeGrain w lane a b rest) := by
  unfold State.storeGrain
  refine OptAll.map (P := Perf.memOk) h.perform ?_
  intro _ hp
  split
  · exact hp.s.updThread.releaseLast.takeFault
  · exact hp.s.updThread.passOver

theorem MemInv.peek {s : State} {w : Nat} {a : Machine.Acc} (h : MemInv s) : OptAll (FstAll MemInv) (s.peek w a) := by
  unfold State.peek
  split
  rename_i s2 l _ heq
  have hs2 : MemInv s2 := h.readParts.of_eq heq
  exact ite_inv OptAll.none (OptAll.some hs2)

theorem MemInv.loadEarly {s : State} {w lane : Nat} {a acq : Machine.Acc} {wid : Wid} (h : MemInv s) :
    OptAll MemInv (s.loadEarly w lane a acq wid) := by
  unfold State.loadEarly
  refine OptAll.bind (P := MemInv) h.force ?_
  intro _ hs1
  exact OptAll.map (P := FstAll MemInv) hs1.peek (fun _ he => he.fst.updThread)

theorem MemInv.storePart {s : State} {w lane : Nat} {a : Machine.Acc} (h : MemInv s) :
    OptAll MemInv (s.storePart w lane a) := by
  unfold State.storePart
  split
  · split
    · rename_i fst heq2
      exact h.performUpTo
    · rename_i b a2 heq2
      exact h.clearFor.bind (fun _ hs1 => ite_inv (OptAll.some hs1) hs1.storeGrain)
  · extract_lets ahead
    split
    · exact h.loadEarly
    · exact h.performUpTo
    · rename_i b a2 _ heq3
      split
      · exact h.performUpTo
      · refine OptAll.bind (P := MemInv) h.clearFor ?_
        intro _ hs1
        split
        · exact OptAll.some hs1
        · split
          · exact hs1.performUpTo
          · rename_i s2 _ heq6
            have hs2 : MemInv s2 := hs1.peek _ heq6
            exact OptAll.some hs2.updThread
  · exact h.performUpTo

theorem MemInv.execStorePerform {w lane acc : Nat} {err : Bool} {s : State} (h : MemInv s) :
    OutMemOk (execStorePerform w lane acc err s) := by
  unfold Machine.execStorePerform
  split
  · exact h
  · rename_i a heq
    split
    · split
      · rename_i s1 heq3
        exact h.storePart _ heq3
      · exact h
    · extract_lets s1
      have hs1 : MemInv s1 := by
        unfold s1
        split
        · exact h.strikeGrain.dataError
        · exact h
      split
      · exact hs1
      · split
        · rename_i s12 heq4
          exact hs1.storePart _ heq4
        · exact h
    · extract_lets s1
      have hs1 : MemInv s1 := by
        unfold s1
        split
        · exact h.strikeGrain.dataError
        · exact h
      split
      · exact hs1
      · split
        · rename_i s12 heq4
          exact hs1.storePart _ heq4
        · exact h
    · exact h

theorem MemInv.execHomeAtomicPerform {w lane acc : Nat} {err : Bool} {s : State} (h : MemInv s) :
    OutMemOk (execHomeAtomicPerform w lane acc err s) := by
  unfold Machine.execHomeAtomicPerform
  split
  · exact h
  · split
    · exact h
    · split
      · rename_i s1 heq3
        exact h.strike.performUpTo _ heq3
      · exact h

theorem MemInv.execServiceWaveRequest {cluster : Nat} {s : State} (h : MemInv s) :
    OutMemOk (execServiceWaveRequest cluster s) := by
  unfold Machine.execServiceWaveRequest
  split
  · exact h
  · split
    · exact h
    · rename_i s4 heq2
      have hs4 : MemInv s4 := h.serveOne _ heq2
      split
      · exact hs4
      · split
        · rename_i s1 heq4
          exact hs4.returnOne _ heq4
        · exact hs4

theorem MemInv.execFeedElementWrite {w stream : Nat} {s : State} (h : MemInv s) :
    OutMemOk (execFeedElementWrite w stream s) := by
  unfold Machine.execFeedElementWrite
  split
  · exact h
  · extract_lets held
    split
    · exact h
    · split
      · rename_i s1 heq3
        exact h.performUpTo _ heq3
      · exact h

theorem MemInv.execCoreGate {core : Nat} {s : State} (h : MemInv s) : OutMemOk (execCoreGate core s) := by
  unfold Machine.execCoreGate
  extract_lets c
  exact ite_inv h h.setCore

theorem MemInv.execCoreWake {core : Nat} {s : State} (h : MemInv s) : OutMemOk (execCoreWake core s) := by
  unfold Machine.execCoreWake
  extract_lets c
  split
  · exact h
  · split
    rename_i s1 heq2
    have hs1 : MemInv s1 := h.fresh.of_eq heq2
    exact hs1.setCore

theorem MemInv.execPageWalk {cluster : Nat} {s : State} (h : MemInv s) : OutMemOk (execPageWalk cluster s) := by
  unfold Machine.execPageWalk
  extract_lets c
  split
  · exact h
  · split
    · rename_i s1 f bad heq2
      have hr : FstAll MemInv (s1, WalkRes.fault f bad) := by
        rw [← heq2]
        exact MemInv.walkBy h.setCluster
      show MemInv _
      split
      · exact MemInv.dataError hr
      · exact hr
    · rename_i s1 l3 heq2
      have hr : FstAll MemInv (s1, WalkRes.leaf l3) := by
        rw [← heq2]
        exact MemInv.walkBy h.setCluster
      extract_lets served y s2
      have hs2 : MemInv s2 := MemInv.setCluster hr
      split
      · exact hs2
      · split
        · exact hs2.quotaEvent
        · rename_i s22 heq4
          have hs22 : MemInv s22 := of_eq (P := ChargeRes.memOk) hs2.charge heq4
          exact hs22.install

theorem MemInv.moveLines {s : State} {frame : Nat} {homes : NMap Nat} (h : MemInv s) : MemInv (s.moveLines frame homes) := by
  unfold State.moveLines
  extract_lets here
  refine foldl_inv h ?_
  intro _ _ hs2
  extract_lets s1
  exact hs2.makeWay.getD hs2

theorem MemInv.execHomeMove {frame slice : Nat} {s : State} (h : MemInv s) : OutMemOk (execHomeMove frame slice s) := by
  unfold Machine.execHomeMove
  split
  · exact h
  · extract_lets reqs put clean s1
    have hs1 : MemInv s1 := h.moveLines
    exact hs1

theorem MemInv.execHomeForward {frame : Nat} {s : State} (h : MemInv s) : OutMemOk (execHomeForward frame s) := by
  unfold Machine.execHomeForward
  split
  · exact h
  · split
    · exact h
    · split
      · exact h
      · rename_i s4 heq3
        have hs4 : MemInv s4 := h.performUpTo _ heq3
        extract_lets put
        exact hs4

end Sys2Proof
end

section
/-! PROOFS. Every step keeps memory in its canonical form (O2): the package, bins, CSRs, and the step. -/

namespace Sys2Proof

open Sys2Proof.Machine

/-! ### The package -/

theorem MemInv.fenceSegment {s : State} {core : Nat} {acc : Bool} {quad seg : Nat} (h : MemInv s) :
    MemInv (s.fenceSegment core acc quad seg) := by
  unfold State.fenceSegment
  extract_lets n c s1 y s2 s3
  have hs1 : MemInv s1 := h.setCore
  have hs2 : MemInv s2 := ite_inv hs1.setCluster hs1
  have hs3 : MemInv s3 := hs2.markSaving
  exact hs3.countLife.postFjoub

theorem MemInv.execSegmentTest {core : Nat} {acc : Bool} {quad seg : Nat} {fail : Bool} {s : State} (h : MemInv s) :
    OutMemOk (execSegmentTest core acc quad seg fail s) := by
  unfold Machine.execSegmentTest
  extract_lets valid s1
  have hs1 : MemInv s1 := h.countLife
  exact ite_inv h (ite_inv hs1.fenceSegment hs1)

theorem MemInv.execPowerCapStep {above : Bool} {s : State} (h : MemInv s) : OutMemOk (execPowerCapStep above s) := h

theorem MemInv.reply {s : State} {fn : Nat} {tag : BitVec 16} {status : Nat} {data : List Byte} (h : MemInv s) :
    MemInv (s.reply fn tag status data) := h

theorem MemInv.refuse {s : State} {fn : Nat} {tag : BitVec 16} (h : MemInv s) : MemInv (s.refuse fn tag) := h

theorem MemInv.command {s : State} {fn : Nat} {tag : BitVec 16} {cmd : BitVec 512} {pf : Bool} {act : State → State}
    (h : MemInv s) (hact : ∀ (s : State), MemInv s → MemInv (act s)) : OutMemOk (s.command fn tag cmd pf act) := by
  unfold State.command
  split
  · exact h
  · extract_lets s1
    have hs1 : MemInv s1 := h
    exact ite_inv hs1.reply (hact _ hs1)

theorem Machine.replyWith_memOk {fn : Nat} {tag : BitVec 16} {r : State × Nat} (hr : FstAll MemInv r) :
    MemInv (replyWith fn tag r) := by
  unfold Machine.replyWith
  exact hr.fst.reply

theorem MemInv.bindPf {s : State} {fn r : Nat} (h : MemInv s) : MemInv (s.bindPf fn r) := by
  unfold State.bindPf
  split
  · split
    · extract_lets put
      exact h
    · exact h
  · exact h

theorem MemInv.execFwLaunch {fn : Nat} {tag : BitVec 16} {rcb : DWord} {s : State} (h : MemInv s) :
    OutMemOk (execFwLaunch fn tag rcb s) := by
  unfold Machine.execFwLaunch
  refine MemInv.command h ?_
  intro _ hs2
  split
  rename_i s1 _ heq
  have hs1 : MemInv s1 := hs2.launch.of_eq heq
  exact replyWith_memOk (ite_inv hs1.bindPf hs1)

theorem MemInv.fwControl {s : State} {fn : Nat} {tag : BitVec 16} {rcb : DWord} {op : RegionOp} (h : MemInv s) :
    MemInv (s.fwControl fn tag rcb op) := by
  unfold State.fwControl
  split
  · exact replyWith_memOk h.controlNamed
  · exact h.reply

theorem MemInv.freeFrames {s : State} {r : Nat} {root : Region} {frame count : Nat} (h : MemInv s) :
    MemInv (s.freeFrames r root frame count) := by
  unfold State.freeFrames
  extract_lets fs s1
  have hs1 : MemInv s1 := foldl_inv h (fun _ _ hs2 => hs2.putNum)
  refine foldl_inv hs1 ?_
  intro _ _ hs2
  split
  · exact MemInv.putNum hs2.updRegion
  · exact hs2

theorem MemInv.execFwFreeFrames {fn : Nat} {tag : BitVec 16} {rcb frame count : DWord} {s : State} (h : MemInv s) :
    OutMemOk (execFwFreeFrames fn tag rcb frame count s) := by
  unfold Machine.execFwFreeFrames
  refine MemInv.command h ?_
  intro _ hs2
  split
  · exact hs2.reply
  · split
    · exact hs2.reply
    · split
      · exact hs2.freeFrames.reply
      · exact hs2.reply

theorem MemInv.bindVf {s : State} {vf r : Nat} {b : FnBind} {q : Rcb → Rcb} (h : MemInv s) : MemInv (s.bindVf vf r b q) :=
  h

theorem MemInv.execFwSetQuota {fn : Nat} {tag : BitVec 16} {vf : BitVec 8} {rcb : DWord} {pasid : BitVec 20}
    {partition : BitVec 8} {pq : BitVec 4} {memq timeq : DWord} {regq scrq : Word} {accq : DWord} {s : State}
    (h : MemInv s) : OutMemOk (execFwSetQuota fn tag vf rcb pasid partition pq memq timeq regq scrq accq s) := by
  unfold Machine.execFwSetQuota
  extract_lets names args good
  refine MemInv.command h ?_
  intro _ hs2
  split
  · extract_lets b
    exact hs2.bindVf.reply
  · exact hs2.reply

theorem MemInv.execFwSetPresent {fn : Nat} {tag : BitVec 16} {en : BitVec 48} {guard : BitVec 16}
    {intervals : List Word} {s : State} (h : MemInv s) : OutMemOk (execFwSetPresent fn tag en guard intervals s) := by
  unfold Machine.execFwSetPresent
  extract_lets iv
  refine MemInv.command h ?_
  intro _ hs2
  split
  · extract_lets go
    exact MemInv.reply hs2
  · exact hs2.reply

theorem MemInv.execFwHomeMove {fn : Nat} {tag : BitVec 16} {frame slice : DWord} {s : State} (h : MemInv s) :
    OutMemOk (execFwHomeMove fn tag frame slice s) := by
  unfold Machine.execFwHomeMove
  refine MemInv.command h ?_
  intro _ hs2
  split
  · rename_i s1 heq
    have hs1 : MemInv s1 := hs2.beginMove.of_eq heq
    exact hs1.reply
  · rename_i s1 heq
    have hs1 : MemInv s1 := hs2.beginMove.of_eq heq
    exact hs1.refuse

theorem MemInv.changeMode {s : State} {modes : List Word} {parts : List (List DWord)} (h : MemInv s) :
    MemInv (s.changeMode modes parts) := by
  unfold State.changeMode
  extract_lets s1 die
  have hs1 : MemInv s1 := foldl_inv h (fun _ _ hs2 => hs2.dropWhere)
  exact hs1

theorem MemInv.execFwWriteSlot {fn : Nat} {tag : BitVec 16} {version rollback length : Word} {image sig : List Byte}
    {s : State} (h : MemInv s) : OutMemOk (execFwWriteSlot fn tag version rollback length image sig s) := by
  unfold Machine.execFwWriteSlot
  extract_lets header
  refine MemInv.command h ?_
  intro _ hs2
  split
  · exact hs2.reply
  · extract_lets n y_2
    exact MemInv.reply hs2

theorem MemInv.execFwRollBack {fn : Nat} {tag : BitVec 16} {slot : DWord} {nonce : BitVec 256} {sig : List Byte}
    {s : State} (h : MemInv s) : OutMemOk (execFwRollBack fn tag slot nonce sig s) := by
  unfold Machine.execFwRollBack
  refine MemInv.command h ?_
  intro _ hs2
  split
  · split
    rename_i s1 heq2
    have hs1 : MemInv s1 := hs2.fresh.of_eq heq2
    exact MemInv.reply hs1
  · exact hs2.reply

/-- A reset takes on the memory that it is given. -/
theorem MemInv.restart {s : State} {mem : List Host.Cell} {poison : List Nat} {fw : Firmware} {life : Lifetime}
    (hmem : Memory.wf mem = true) : MemInv (s.restart mem poison fw life) := hmem

theorem MemInv.execDeviceReset {s : State} (h : MemInv s) : OutMemOk (execDeviceReset s) := MemInv.restart h

/-- A loss of supply drops the entries of local memory together. -/
theorem MemInv.execPowerLoss {s : State} (h : MemInv s) : OutMemOk (execPowerLoss s) :=
  MemInv.restart (NMap.canonical_filter _ h)

/-! ### Bins and pixel locks -/

theorem MemInv.setBin {s : State} {die : Nat} {b : BinDesc} (h : MemInv s) : MemInv (s.setBin die b) := h

theorem MemInv.binWrite {s : State} {die : Nat} {b : BinDesc} {va : Nat} {bs : List Byte} (h : MemInv s) :
    FstAll MemInv (s.binWrite die b va bs) := by
  unfold State.binWrite
  extract_lets k e
  split
  · rename_i a _ heq
    have ha : MemInv a := of_eq (P := Trans2.memOk) h.reach heq
    refine FstAll.intro ?_
    exact FstAll.fst (foldl_inv ha (fun _ _ hs2 => ite_inv hs2.fst hs2.fst.baseWrite))
  · rename_i a _ _ heq
    have ha : MemInv a := of_eq (P := Trans2.memOk) h.reach heq
    exact ha.engRecord
  · rename_i a _ heq
    have ha : MemInv a := of_eq (P := Trans2.memOk) h.reach heq
    exact ha.engQuota
  · rename_i a heq
    exact of_eq (P := Trans2.memOk) h.reach heq

theorem MemInv.binWrites {s : State} {die : Nat} {b : BinDesc} {l : List (Nat × List Byte)} (h : MemInv s) :
    FstAll MemInv (s.binWrites die b l) := by
  induction l generalizing s with
  | nil =>
    rw [State.binWrites]
    exact h
  | cons e l ih =>
    rw [State.binWrites]
    split
    · rename_i s1 heq
      have hr : FstAll MemInv (s1, true) := by
        rw [← heq]
        exact ite_inv h h.binWrite
      exact ih hr
    · rename_i s1 heq
      have hr : FstAll MemInv (s1, false) := by
        rw [← heq]
        exact ite_inv h h.binWrite
      exact hr

theorem MemInv.binSettle {s : State} {die : Nat} {b : BinDesc} (h : MemInv s) : FstAll MemInv (s.binSettle die b) := by
  unfold State.binSettle
  split
  rename_i s1 _ heq
  have hs1 : MemInv s1 := h.binWrites.of_eq heq
  exact hs1

theorem MemInv.binAppend {s : State} {die : Nat} {b : BinDesc} {tile : Nat} {seq : Word} {payload : BitVec 64}
    (h : MemInv s) : FstAll MemInv (s.binAppend die b tile seq payload) := by
  unfold State.binAppend
  extract_lets l pos
  split
  rename_i s1 l2 l3 heq
  have hr : FstAll MemInv (s1, l2, l3) := by
    rw [← heq]
    split
    · split
      rename_i s12 heq3
      have hs12 : MemInv s12 := h.fresh.of_eq heq3
      extract_lets c link
      exact hs12
    · exact h
  extract_lets at_
  exact MemInv.binSettle hr

theorem MemInv.binAdd {s : State} {die : Nat} {b : BinDesc} {p : Prim} (h : MemInv s) :
    FstAll MemInv (s.binAdd die b p) := by
  unfold State.binAdd
  exact foldl_inv h (fun _ _ hs2 => hs2.fst.binAppend)

theorem MemInv.askTile {s : State} {die : Nat} {b : BinDesc} {tile : Nat} {l : TileList} (h : MemInv s) :
    MemInv (s.askTile die b tile l) := h

theorem MemInv.binFlush {s : State} {die : Nat} {b : BinDesc} (h : MemInv s) : MemInv (s.binFlush die b) := by
  unfold State.binFlush
  extract_lets b1
  exact foldl_inv h.setBin (fun _ _ hs2 => ite_inv hs2 hs2.askTile)

theorem MemInv.binOverflow {s : State} {die : Nat} {b : BinDesc} {p : Prim} (h : MemInv s) :
    MemInv (s.binOverflow die b p) := by
  unfold State.binOverflow
  exact MemInv.postEvent h.binFlush

theorem MemInv.binAlone {s : State} {die : Nat} {old b : BinDesc} {p : Prim} (h : MemInv s) :
    MemInv (s.binAlone die old b p) := by
  unfold State.binAlone
  split
  · exact h.setBin
  · split
    rename_i s1 b1 heq2
    have hs1 : MemInv s1 := h.binAppend.of_eq heq2
    split
    · extract_lets one
      exact hs1.binFlush
    · exact hs1.setBin

theorem MemInv.settleBins {s : State} {die : Nat} (h : MemInv s) : MemInv (s.settleBins die) := by
  unfold State.settleBins
  refine foldl_inv h ?_
  intro _ _ hs2
  split
  rename_i s1 b1 heq
  have hs1 : MemInv s1 := hs2.binSettle.of_eq heq
  exact hs1.setBin

theorem MemInv.binOpen {s : State} {c : Ctx} {die va : Nat} {d : BitVec 512} (h : MemInv s) :
    OptAll (FstAll MemInv) (s.binOpen c die va d) := by
  unfold State.binOpen
  extract_lets x tag b
  split
  · exact OptAll.none
  · split
    · exact ite_inv OptAll.none (OptAll.some h)
    · exact ite_inv OptAll.none (OptAll.some (FstAll.intro (MemInv.setBin h)))

theorem MemInv.binGo {s : State} {c : Ctx} {lane : Nat} {k : State → Nat → BinDesc → Lane} (h : MemInv s)
    (hk : ∀ s1 n b, MemInv s1 → (k s1 n b).memOk) : (s.binGo c lane k).memOk := by
  unfold State.binGo
  extract_lets va die
  split
  · rename_i heq
    exact of_eq (P := DescRes.memOk) h.readDesc heq
  · rename_i s1 d heq
    have hs1 : MemInv s1 := of_eq (P := DescRes.memOk) h.readDesc heq
    split
    · exact hs1
    · rename_i hbad
      split
      · exact h
      · rename_i s2 heq2
        have hs2 : MemInv s2 := hs1.releaseAt _ heq2
        extract_lets s3
        have hs3 : MemInv s3 := hs2.settleBins
        split
        · exact hs3
        · rename_i s4 b heq3
          have hs4 : MemInv s4 := hs3.binOpen _ heq3
          exact hk _ _ _ hs4

theorem MemInv.binRecord {s : State} {die : Nat} {b : BinDesc} {r : Nat} (h : MemInv s) : (s.binRecord die b r).memOk := by
  unfold State.binRecord
  extract_lets b1
  split
  · exact h.setBin
  · split
    · exact h.binOverflow
    · split
      rename_i s1 b12 heq3
      have hs1 : MemInv s1 := h.binAdd.of_eq heq3
      exact hs1.setBin

theorem MemInv.binClose {s : State} {die : Nat} {b : BinDesc} (h : MemInv s) : MemInv (s.binClose die b) := by
  unfold State.binClose
  extract_lets x s1
  have hs1 : MemInv s1 := h.setDie
  split
  · exact hs1
  · split
    · exact hs1.raiseCtr
    · exact hs1.engRecord

theorem MemInv.execFlushComplete {die desc : Nat} {s : State} (h : MemInv s) : OutMemOk (execFlushComplete die desc s) := by
  unfold Machine.execFlushComplete
  split
  · exact h
  · rename_i b heq
    extract_lets s0 s1 b1
    have hs0 : MemInv s0 := h.settleBins
    have hs1 : MemInv s1 := foldl_inv hs0 (fun _ _ hs2 => hs2.writeBackAll.writeBackSvc)
    split
    · exact hs0
    · split
      · split
        · exact hs1.binAlone
        · split
          rename_i s12 b12 heq5
          have hs12 : MemInv s12 := hs1.binAdd.of_eq heq5
          exact hs12.setBin
      · exact ite_inv hs1.binClose hs1.setBin

theorem MemInv.updTile {s : State} {w : Nat} {g : TileSt → TileSt} (h : MemInv s) : MemInv (s.updTile w g) := h

theorem MemInv.pxlockLane {s : State} {c : Ctx} {lane : Nat} (h : MemInv s) : (s.pxlockLane c lane).memOk := by
  unfold State.pxlockLane
  extract_lets px seq s1
  have hs1 : MemInv s1 := h.updTile
  split
  · exact h
  · split
    · exact h
    · split
      · exact h
      · split
        · exact h
        · extract_lets free
          split
          · exact hs1
          · split
            · split
              · rename_i s12 heq7
                exact hs1.updTile.acquireAt _ heq7
              · exact h
            · exact hs1

theorem MemInv.pxunlockLane {s : State} {c : Ctx} {lane : Nat} {all : Bool} (h : MemInv s) :
    (s.pxunlockLane c lane all).memOk := by
  unfold State.pxunlockLane
  extract_lets px seq clear
  split
  · split
    · exact h
    · rename_i s4 heq2
      have hs4 : MemInv s4 := h.releaseAt _ heq2
      exact hs4.updTile.pxWake
  · exact h

/-! ### CSRs, traps and caches -/

theorem MemInv.csrWrite {s : State} {c : Ctx} {lane n v : Nat} (h : MemInv s) : OkAll MemInv (s.csrWrite c lane n v) := by
  unfold State.csrWrite
  split
  · split
    · exact h
    · rename_i t heq2
      split
      · rename_i t1 heq3
        exact h.updThread
      · exact trivial
  · split
    · split
      · exact h
      · exact trivial
    · split
      · exact trivial
      · split
        · split
          · exact trivial
          · exact ite_inv h.writeMestat h
        · exact trivial

theorem MemInv.settlePair {s : State} {c : Ctx} {lane words : Nat} {o : Operand} (h : MemInv s) :
    OptAll MemInv (s.settlePair c lane words o) := by
  unfold State.settlePair
  extract_lets hs s1
  have hs1 : MemInv s1 := ite_inv h.updThread h
  exact foldl_inv (OptAll.some hs1) (fun _ _ hs2 => hs2.bind (fun _ hs12 => hs12.returnAcc))

theorem MemInv.csrrLane {s : State} {c : Ctx} {lane : Nat} (h : MemInv s) : (s.csrrLane c lane).memOk := by
  unfold State.csrrLane
  extract_lets n
  split
  · exact h
  · split
    · exact h
    · rename_i s4 heq2
      have hs4 : MemInv s4 := h.settlePair _ heq2
      split <;> exact hs4

theorem MemInv.csrwLane {s : State} {c : Ctx} {lane : Nat} (h : MemInv s) : (s.csrwLane c lane).memOk := by
  unfold State.csrwLane
  extract_lets n
  split
  · exact h
  · split
    · exact h
    · rename_i s4 heq2
      have hs4 : MemInv s4 := h.settlePair _ heq2
      extract_lets x
      split
      · exact hs4
      · rename_i s2 heq3
        exact of_eq (P := OkAll MemInv) hs4.csrWrite heq3

theorem MemInv.dropBlocks {s : State} {asr base size : Nat} (h : MemInv s) : MemInv (s.dropBlocks asr base size) := h

theorem MemInv.icinvLane {s : State} {c : Ctx} {lane : Nat} (h : MemInv s) : (s.icinvLane c lane).memOk := by
  unfold State.icinvLane
  extract_lets r
  split
  · exact h
  · rename_i s4 heq
    have hs4 : MemInv s4 := h.releaseAt _ heq
    exact hs4.dropBlocks

theorem MemInv.dropTranslations {s : State} {asr : Nat} {all : Bool} {base size : Nat} (h : MemInv s) :
    OptAll MemInv (s.dropTranslations asr all base size) := by
  unfold State.dropTranslations
  extract_lets goes gone left served tidy
  split
  · exact OptAll.none
  · refine OptAll.map (P := MemInv) (foldl_inv (OptAll.some h) (fun _ _ hs2 => hs2.bind (fun _ hs1 => hs1.performUpTo))) ?_
    intro _ hs1
    extract_lets s2 held drops
    have hs2 : MemInv s2 := by
      unfold s2
      exact hs1
    exact foldl_inv hs2 (fun _ _ hs3 => hs3.dropWhere)

theorem MemInv.tlbinvLane {s : State} {c : Ctx} {lane : Nat} {all : Bool} (h : MemInv s) :
    (s.tlbinvLane c lane all).memOk := by
  unfold State.tlbinvLane
  extract_lets r
  split
  · exact h
  · split
    · exact h
    · rename_i s4 heq2
      exact h.dropTranslations _ heq2

/-! ### Every instruction and event -/

theorem MemInv.exec {i : Instr} {s : State} (h : MemInv s) : OutMemOk (exec i s) := by
  unfold Machine.exec
  split
  · exact h.arith
  · exact h.arith
  · exact h.run (fun _ _ hs2 => hs2.compute)
  · exact h.run (fun _ _ hs2 => hs2.compute)
  · exact h.arith
  · exact h.arith
  · exact h.arith
  · exact h.arith
  · exact h.arith
  · exact h.alu
  · exact h.alu
  · exact h.arith
  · exact h.arith
  · exact h.arith
  · exact h.arith
  · exact h.alu
  · exact h.alu
  · exact h.alu
  · exact h.alu
  · exact h.alu
  · exact h.alu
  · exact h.alu
  · exact h.alu
  · exact h.alu
  · exact h.alu
  · exact h.alu
  · exact h.alu
  · exact h.alu
  · exact h.alu
  · exact h.alu
  · exact h.alu
  · exact h.alu
  · exact h.alu
  · exact h.alu
  · exact h.alu
  · exact h.alu
  · exact h.alu
  · exact h.alu
  · exact h.arith
  · exact h.alu
  · exact h.alu
  · exact h.alu
  · exact h.fpu
  · exact h.fpu
  · exact h.fpu
  · exact h.fpu
  · exact h.fpu
  · exact h.fpu
  · exact h.alu
  · exact h.alu
  · exact h.fpu
  · exact h.fpu
  · exact h.fpu
  · exact h.fpu
  · exact h.fpu
  · exact h.fpu
  · exact h.alu
  · exact h.alu
  · exact h.alu
  · exact h.alu
  · exact h.pairwise
  · exact h.pairwise
  · exact h.pairwise
  · exact h.execHdot2
  · exact h.execCvt
  · exact h.execQpack
  · exact h.execQunpk
  · exact h.branching (fun _ _ _ hs2 => hs2.branchLane)
  · exact h.branching (fun _ _ _ hs2 => hs2.branchLane)
  · exact h.branching (fun _ _ _ hs2 => hs2.callLane)
  · exact h.branching (fun _ _ _ hs2 => hs2.callLane)
  · exact h.branching (fun _ _ _ hs2 => hs2.retLane)
  · exact h.run (fun _ _ hs2 => hs2.putMask)
  · exact h.run (fun _ _ hs2 => hs2.putMask)
  · exact h.execJoin
  · exact h.execWsync
  · exact h.perLane (fun _ _ _ hs2 => hs2.exitLane)
  · exact h.execYield
  · exact h.run (fun _ _ hs2 => hs2)
  · exact h.perLane (fun _ _ _ hs2 => hs2.spawnLane)
  · exact h.perLane (fun _ _ _ hs2 => hs2.loadLane)
  · exact h.perLane (fun _ _ _ hs2 => hs2.loadWinLane)
  · exact h.perLane (fun _ _ _ hs2 => hs2.loadConstLane)
  · exact h.perLane (fun _ _ _ hs2 => hs2.ldrLane)
  · exact h.perLane (fun _ _ _ hs2 => hs2.storeLane)
  · exact h.perLane (fun _ _ _ hs2 => hs2.storeWinLane)
  · exact h.perLane (fun _ _ _ hs2 => hs2.stcLane)
  · exact h.perLane (fun _ _ _ hs2 => hs2.pfLane)
  · exact h.atomic
  · exact h.execAtomS
  · exact h.atomic
  · exact h.atomic
  · exact h.atomic
  · exact h.atomic
  · exact h.atomic
  · exact h.perLane (fun _ _ _ hs2 => hs2.onBar (fun _ _ hs3 => hs3.barInitLane))
  · exact h.perLane (fun _ _ _ hs2 => hs2.onBar (fun _ _ hs3 => hs3.arriveLane))
  · exact h.perLane (fun _ _ _ hs2 => hs2.onBar (fun _ _ hs3 => hs3.expectLane))
  · exact h.perLane (fun _ _ _ hs2 => hs2.onBar (fun _ _ hs3 => hs3.waitLane))
  · exact h.perLane (fun _ _ _ hs2 => hs2.onBar (fun _ _ hs3 => hs3.cwatchLane))
  · exact h.execFence
  · exact h.slotted (fun _ _ _ hs2 => hs2.copyLane)
  · exact h.slotted (fun _ _ _ hs2 => hs2.haloLane)
  · exact h.perLane (fun _ _ _ hs2 => hs2.produceLane)
  · exact h.perLane (fun _ _ _ hs2 => hs2.produceLane)
  · exact h.perLane (fun _ _ _ hs2 => hs2.publishLane)
  · exact h.perLane (fun _ _ _ hs2 => hs2.configLane)
  · exact h.perLane (fun _ _ _ hs2 => hs2.disableLane)
  · exact h.perLane (fun _ _ _ hs2 => hs2.ackLane)
  · exact h.perLane (fun _ _ _ hs2 => hs2.queryLane)
  · exact h.perLane (fun _ _ _ hs2 => hs2.rlaunchLane (fun _ _ hs3 => hs3.launch))
  · exact h.perLane (fun _ _ _ hs2 => hs2.rlaunchLane (fun _ _ hs3 => hs3.launchPrism))
  · exact h.perLane (fun _ _ _ hs2 => hs2.rlaunchLane (fun _ _ hs3 => hs3.controlNamed))
  · exact h.perLane (fun _ _ _ hs2 => hs2.rlaunchLane (fun _ _ hs3 => hs3.controlNamed))
  · exact h.perLane (fun _ _ _ hs2 => hs2.rlaunchLane (fun _ _ hs3 => hs3.controlNamed))
  · exact h.perLane (fun _ _ _ hs2 => hs2.rlaunchLane (fun _ _ hs3 => hs3.controlNamed))
  · exact h.slotted (fun _ _ _ hs2 => hs2.wdqLane)
  · exact h.perLane (fun _ _ _ hs2 => hs2.sweepLane)
  · exact h.perLane (fun _ _ _ hs2 => hs2.ctxSetLane)
  · exact h.perLane (fun _ _ _ hs2 => hs2.ctxWakeLane)
  · exact h.perLane (fun _ _ _ hs2 => hs2.collLane)
  · exact h.engineCmd (fun _ _ _ hs2 => hs2.mmaLane)
  · exact h.engineCmd (fun _ _ _ hs2 => hs2.mmaLane)
  · exact h.perLane (fun _ _ _ hs2 => hs2.tfetchLane)
  · exact h.perLane (fun _ _ _ hs2 => hs2.trelLane)
  · exact h.engineCmd (fun _ _ _ hs2 => hs2.drainLane)
  · exact h.engineCmd (fun _ _ _ hs2 => hs2.azeroLane)
  · exact h.perLane (fun _ _ _ hs2 => hs2.dqPutLane)
  · exact h.perLane (fun _ _ _ hs2 => hs2.takeLane)
  · exact h.perLane (fun _ _ _ hs2 => hs2.mwaitLane)
  · exact h.perLane (fun _ _ _ hs2 => hs2.commitLane)
  · exact h.perLane (fun _ _ _ hs2 => hs2.squashLane)
  · exact h.perLane (fun _ _ _ hs2 => hs2.loadLane)
  · exact h.perLane (fun _ _ _ hs2 => hs2.storeLane)
  · exact h.perLane (fun _ _ _ hs2 => hs2.presentLane)
  · exact h.perLane (fun _ _ _ hs2 => hs2.unitLane)
  · exact h.perLane (fun _ _ _ hs2 => hs2.unitLane)
  · exact h.perLane (fun _ _ _ hs2 => hs2.unitLane)
  · exact h.perLane (fun _ _ _ hs2 => hs2.unitLane)
  · exact h.perLane (fun _ _ _ hs2 => hs2.unitLane)
  · exact h.perLane (fun _ _ _ hs2 => hs2.binGo (fun _ _ _ hs1 => hs1.binRecord))
  · exact h.perLane (fun _ _ _ hs2 => hs2.binGo (fun _ _ _ hs1 => hs1.binFlush))
  · exact h.perLane (fun _ _ _ hs2 => hs2.pxlockLane)
  · exact h.perLane (fun _ _ _ hs2 => hs2.pxunlockLane)
  · exact h.perLane (fun _ _ _ hs2 => hs2.csrrLane)
  · exact h.perLane (fun _ _ _ hs2 => hs2.csrwLane)
  · exact h.perLane (fun _ _ _ hs2 => hs2.csrwLane)
  · exact h.perLane (fun _ _ _ hs2 => hs2.csrwLane)
  · exact h.perLane (fun _ _ _ hs2 => hs2.csrwLane)
  · exact h.perLane (fun _ _ _ hs2 => hs2.csrwLane)
  · exact h.perLane (fun _ _ _ hs2 => hs2.csrwLane)
  · exact h.perLane (fun _ _ _ hs2 => hs2)
  · exact h.perLane (fun _ _ _ hs2 => hs2)
  · exact h.perLane (fun _ _ _ hs2 => ite_inv hs2.updThread hs2)
  · exact h.perLane (fun _ _ _ hs2 => hs2.icinvLane)
  · exact h.perLane (fun _ _ _ hs2 => hs2.tlbinvLane)
  · exact h
  · exact h.execLlResultReturn
  · exact h.execStorePerform
  · exact h.execHomeAtomicPerform
  · exact h.execServiceWaveRequest
  · exact h.execCwatchArrival
  · exact ite_inv h h.wakeWhere
  · exact h.execFeedElementWrite
  · exact h.execCopyTransfer
  · exact h.execHaloStart
  · exact h.faultPath
  · exact h.execCoreGate
  · exact h.execCoreWake
  · exact h.execPageWalk
  · exact h.execGatherFiring
  · exact h.execReservationVoid
  · exact h.execGatherFaultRetry
  · exact h.execDeliveredWavePlace
  · exact h.execWdqServe
  · exact h.execSweepStart
  · exact h.execSweepChunk
  · exact h.execChunkStepComplete
  · exact h.execCollExecute
  · exact h.execTfetchRowFetch
  · exact h.execEngineMmaExecute
  · exact h.execEngineDrainExecute
  · exact h.execEngineAzeroExecute
  · exact h.execCommitPublish
  · exact h.execSetOpen
  · exact h.execPrefixEnd
  · exact h.execRetireWalk
  · exact h.execPresentFlip
  · exact h.execPresentGuard
  · exact h.execPresentReadoutDone
  · exact h.execFlushComplete
  · exact h.execHomeMove
  · exact h.execHomeForward
  · exact h.execDependenceMet
  · exact h.execWorkgroupPlace
  · exact h.execPlacementStarvationHold
  · exact h.execPreemptDecision
  · exact h.execWorkgroupSave
  · exact h.execWorkgroupRestore
  · exact ite_inv h h.countFwd
  · exact h.execRegionEnd
  · exact h.execTimeQuotaCharge
  · exact h.execSegmentTest
  · exact h.execPowerCapStep
  · exact h.execFwLaunch
  · exact h.command (fun _ hs2 => replyWith_memOk hs2.launchPrism)
  · exact h.command (fun _ hs2 => hs2.fwControl)
  · exact h.command (fun _ hs2 => hs2.fwControl)
  · exact h.command (fun _ hs2 => hs2.fwControl)
  · exact h.command (fun _ hs2 => hs2.fwControl)
  · exact h.execFwFreeFrames
  · exact h.execFwSetQuota
  · exact h.execFwSetPresent
  · exact h.execFwHomeMove
  · exact h.command (fun _ hs2 => ite_inv hs2.reply (ite_inv hs2.refuse hs2.changeMode.reply))
  · exact h.command (fun _ hs2 => ite_inv (MemInv.reply hs2) hs2.reply)
  · exact h.command (fun _ hs2 => ite_inv hs2.reply (MemInv.reply hs2))
  · exact h.execFwWriteSlot
  · exact h.command (fun _ hs2 => MemInv.reply hs2)
  · exact h.execFwRollBack
  · exact h.command (fun _ hs2 => hs2.reply)
  · exact h.command (fun _ hs2 => hs2)
  · exact ite_inv h (h.command (fun _ hs2 => hs2.reply))
  · exact h
  · exact h.execDeviceReset
  · exact h
  · exact h.execHostRequest
  · exact h.execPeerRequest
  · exact h.execAtsTranslationResponse
  · exact h.execAtsInvalidateRequest
  · exact ite_inv h.countLife.linkEvent h
  · exact ite_inv (MemInv.linkEvent h) h
  · exact h.execPowerLoss

/-! ### A step -/

theorem MemInv.carryOut {s : State} {w : Nat} {y : Fetched} (h : MemInv s) (hy : y.memOk) :
    OutMemOk (Machine.carryOut s w y) := by
  unfold Machine.carryOut
  split
  · exact MemInv.exec hy
  · exact MemInv.skipFiller hy
  · exact MemInv.exec hy
  · exact MemInv.faultPath hy
  · exact MemInv.quotaPath hy
  · exact hy
  · exact h

theorem MemInv.issueNext {s : State} (h : MemInv s) : OutMemOk (issueNext s) := by
  unfold Machine.issueNext
  exact h.carryOut h.fetch

theorem MemInv.step {s : State} (h : MemInv s) : OutMemOk (step s) := by
  unfold Machine.step
  split
  · split
    · exact MemInv.exec h
    · exact h
    · exact h
  · extract_lets s1
    have hs1 : MemInv s1 := h.tick
    split
    · exact ite_inv (MemInv.exec hs1) hs1
    · exact MemInv.issueNext hs1
    · exact hs1.issueNext

/-- Settles O2: memory is written by `putBytes` alone, in `State.homeWrite` and where a retiring set's versions become base, and cut
by a loss of supply; each keeps its canonical form, and with them every instruction and every event (`MemInv.step`). -/
theorem stepKeepsMemory : Obligations.StepKeepsMemory := by
  unfold Obligations.StepKeepsMemory
  intro s t hmem hstep
  have hout : OutMemOk (step s) := hmem.step
  rw [hstep] at hout
  exact hout

end Sys2Proof
end

section
/-! PROOFS. The state after reset (O1). -/

namespace Sys2Proof

open Sys2Proof.Machine

/-- Settles O1: memory lists nothing, no thread is resident, no region is accepted, and each die and each core is fresh. -/
theorem resetInv : Obligations.ResetInv := by
  refine ⟨rfl, List.forall_mem_nil _, State.reset_aligned, rfl, rfl, rfl, rfl, rfl, fun d => ?_, fun _ => rfl⟩
  unfold State.die
  rcases d with - | - | d <;> rfl

end Sys2Proof
end

section
/-! PROOFS. An access that the TLB of its core maps (O29): the piece that it is, the leaf that it finds, and the checks of
that leaf. -/

namespace Sys2Proof.Machine

open Sys2Proof

/-- An access within one frame is one piece. -/
theorem framePieces_of_one_frame {va size : Nat} (hpos : 0 < size) (hfit : va % 4096 + size ≤ 4096) (hva : va < 2 ^ 64) :
    framePieces va size = [(va, size)] := by
  have hcount : (va + size + 4095) / 4096 - va / 4096 = 1 := by omega
  have hlo : max va (4096 * (va / 4096)) = va := by omega
  have hhi : min (va + size) (4096 * (va / 4096) + 4096) - va = size := by omega
  simp [framePieces, hcount, hlo, hhi]
  omega

variable {s : State} {x : Wave} {w g va : Nat} {a : Agent} {leaf : Leaf} {need : Need} {cls : PgCls → Option (BitVec 8)}

theorem State.lookup_of_core_hit (hcore : coreOfWave w = some g)
    (hfind : tlbFind (s.core g).tlb (s.asrOf x.rgn) va = some leaf) : s.lookup (x.agent w) va = .ok s leaf := by
  simp [State.lookup, Wave.agent, hcore, hfind]

/-- A leaf that permits the access, on a class it is admitted on, in a partition of the cluster, passes the checks of R280. -/
theorem State.checkLeaf_of_permitted (hperm : (match need with | .rd => leaf.rd | .wr => leaf.wr || leaf.cls == .r | .ex => leaf.ex) = true)
    (hcls : cls leaf.cls = none) (hpart : s.inPartition a.cluster (leaf.key + (va - leaf.va)) = true) :
    s.checkLeaf a leaf va need cls = none := by
  unfold State.checkLeaf
  cases need with
  | wr =>
    rw [← Bool.not_eq_false] at hperm
    simp_all
  | _ => simp_all

theorem State.checkLeaf_of_unreadable (hrd : leaf.rd = false) :
    s.checkLeaf a leaf va .rd cls = some { code := 5, sub := 0, addr := some va } := by
  unfold State.checkLeaf
  simp [hrd]

/-- A place in local memory lies behind no link. -/
theorem State.noteLink_of_local {rgn key : Nat} (h : locOf key = 0) : s.noteLink rgn key = s := by
  simp [State.noteLink, linkOf, h]

theorem State.translate_of_checked (hlook : s.lookup a va = .ok s leaf) (hcheck : s.checkLeaf a leaf va need cls = none)
    (hloc : locOf leaf.key = 0) : s.translate a va need cls = .ok s leaf := by
  simp [State.translate, hlook, hcheck, State.noteLink_of_local hloc, hloc]

/-- A leaf that refuses the access leaves the TLBs (R282). -/
theorem State.translate_of_unreadable (hlook : s.lookup a va = .ok s leaf) (hrd : leaf.rd = false) :
    s.translate a va .rd cls = .fault (s.uninstall a leaf) { code := 5, sub := 0, addr := some va } := by
  simp [State.translate, hlook, State.checkLeaf_of_unreadable hrd]

/-- An access of one piece whose translation is done is that piece. -/
theorem State.translateParts_of_translated {n : Nat} (h : s.translate a va need cls = .ok s leaf)
    (hloc : locOf (leaf.key + (va - leaf.va)) = 0) :
    s.translateParts a need cls [(va, n)] = ⟨s, [⟨leaf.key + (va - leaf.va), va, n, leaf.cls⟩], none⟩ := by
  have hkey := State.hostKey_of_local (s := s) (fn := s.fnOf a.rgn) (key := leaf.key + (va - leaf.va)) (by omega)
  simp [State.translateParts, h, hkey]

/-- Settles O29: the access is one piece (`framePieces_of_one_frame`), its leaf is that of the core's TLB, and it passes the checks
or is refused by the first of them. -/
theorem translationHit : Obligations.TranslationHit := by
  unfold Obligations.TranslationHit
  intro s x w g va size leaf cls mode hcore hfind hloc hpos hfit hva
  have hlook := State.lookup_of_core_hit hcore hfind
  have hpieces := framePieces_of_one_frame hpos hfit hva
  have hleaf : locOf leaf.key = 0 := by
    unfold locOf at hloc ⊢
    omega
  refine ⟨fun hrd hcls hpart => ?read, fun hwr hcls hpart hwin => ?write, fun hrd => ?refused⟩
  case read =>
    have ht := State.translate_of_checked hlook (State.checkLeaf_of_permitted (need := .rd) hrd hcls hpart) hleaf
    simp [State.reach, hpieces, State.translateParts_of_translated ht hloc]
  case write =>
    have hperm : (leaf.wr || leaf.cls == .r) = true := by rw [hwr, Bool.true_or]
    have ht := State.translate_of_checked hlook (State.checkLeaf_of_permitted (need := .wr) hperm hcls hpart) hleaf
    have hbad : s.windowBad (x.agent w).rgn mode (leaf.key + (va - leaf.va)) = none := hwin
    simp [State.reach, hpieces, State.translateParts_of_translated ht hloc, State.windowBadPart, hbad]
  case refused =>
    simp [State.reach, hpieces, State.translateParts, State.translate_of_unreadable hlook hrd]

end Sys2Proof.Machine
end

section
/-! PROOFS. The value each atomic leaves (O34, R252 to R255): bounds of results, and the elements of a sector. -/

namespace Sys2Proof.Machine

open Sys2Proof

/-! ### Encodings fit their format -/

theorem withSign_lt {f : Fmt} {neg : Bool} {mag : Nat} (h : mag < 2 ^ (f.width - 1)) : withSign f neg mag < 2 ^ f.width := by
  have hw : 2 ^ f.width = 2 ^ (f.width - 1) + 2 ^ (f.width - 1) := by cases f <;> rfl
  unfold withSign
  split <;> omega

theorem maxBits_lt (f : Fmt) : f.maxBits < 2 ^ (f.width - 1) := by
  cases f <;> decide

theorem infBits_lt {f : Fmt} {i : Nat} (h : f.infBits = some i) : i < 2 ^ (f.width - 1) := by
  cases f <;> cases h <;> decide

theorem nanBits_lt (f : Fmt) : f.nanBits < 2 ^ f.width := by
  cases f <;> decide

theorem overflowBits_lt (f : Fmt) (mode : Rnd) (sat neg : Bool) : overflowBits f mode sat neg < 2 ^ f.width := by
  unfold overflowBits
  split
  · exact withSign_lt (maxBits_lt f)
  · cases hi : f.infBits with
    | none => exact nanBits_lt f
    | some i => exact withSign_lt (ite_inv (P := (· < 2 ^ (f.width - 1))) (maxBits_lt f) (infBits_lt hi))

theorem roundF_lt (x : XR) (f : Fmt) (mode : Rnd) (sat : Bool) : roundF x f mode sat < 2 ^ f.width := by
  unfold roundF
  split
  · exact nanBits_lt f
  · split
    · exact withSign_lt (maxBits_lt f)
    · split
      · rename_i i hi
        exact withSign_lt (infBits_lt hi)
      · exact nanBits_lt f
  · extract_lets b
    split
    · exact overflowBits_lt ..
    · rename_i hb
      exact withSign_lt ((Nat.not_lt.mp hb).trans_lt (maxBits_lt f))

theorem fres_keep (x : XR) (f : Fmt) (mode : Rnd) (sat : Bool) : fres x f mode sat false = roundF x f mode sat := by
  simp [fres]

/-! ### Integers as their types order them -/

theorem lowBits_lt (e : Int) (w : Nat) : lowBits e w < 2 ^ w := by
  have hpos : (0 : Int) < 2 ^ w := by positivity
  have hlt := Int.emod_lt_of_pos e hpos
  have hnn := Int.emod_nonneg e hpos.ne'
  unfold lowBits
  zify
  rwa [Int.toNat_of_nonneg hnn]

/-- A value and the integer it stands for agree modulo the width of the type. -/
theorem lowBits_intOf_add (x y : Nat) (t : IntTy) : lowBits (intOf x t + intOf y t) t.width = (x + y) % 2 ^ t.width := by
  have hcast : ∀ v : Nat, ∃ k : Int, intOf v t = v + k * (2 ^ t.width : Nat) := by
    intro v
    unfold intOf
    split
    · exact ⟨-1, by push_cast; ring⟩
    · exact ⟨0, by ring⟩
  obtain ⟨j, hj⟩ := hcast x
  obtain ⟨k, hk⟩ := hcast y
  have hsum : (x : Int) + j * (2 ^ t.width : Nat) + (y + k * (2 ^ t.width : Nat)) = ((x + y : Nat) : Int) + (j + k) * (2 ^ t.width : Nat) := by
    push_cast; ring
  have hpow : ((2 : Int) ^ t.width) = ((2 ^ t.width : Nat) : Int) := by push_cast; rfl
  rw [lowBits, hj, hk, hsum, hpow, Int.add_mul_emod_self_right, ← Int.natCast_emod, Int.toNat_natCast]

/-- A signed value below the width of its type is the integer that the bit vector stands for. -/
theorem intOf_signed {x : Nat} {t : IntTy} (ht : t.signed = true) (hx : x < 2 ^ t.width) :
    intOf x t = (BitVec.ofNat t.width x).toInt := by
  have hmod : (BitVec.ofNat t.width x).toNat = x := by rw [BitVec.toNat_ofNat, Nat.mod_eq_of_lt hx]
  rw [BitVec.toInt_eq_toNat_cond, hmod, intOf, ht]
  have hw : 2 ^ t.width = 2 * 2 ^ (t.width - 1) := by cases t <;> rfl
  by_cases h : 2 ^ (t.width - 1) ≤ x
  · rw [if_pos (by simpa using h), if_neg (by omega)]
    push_cast
    rfl
  · rw [if_neg (by simpa using h), if_pos (by omega)]

theorem intOf_unsigned (x : Nat) {t : IntTy} (ht : t.signed = false) : intOf x t = x := by
  simp [intOf, ht]

/-- The order of a signed type is that of its bit vectors. -/
theorem intOf_le_iff_sle {x y : Nat} {t : IntTy} (ht : t.signed = true) (hx : x < 2 ^ t.width) (hy : y < 2 ^ t.width) :
    intOf x t ≤ intOf y t ↔ (BitVec.ofNat t.width x).sle (BitVec.ofNat t.width y) = true := by
  rw [BitVec.sle_iff_toInt_le, intOf_signed ht hx, intOf_signed ht hy]

theorem intOf_inj {x y : Nat} {t : IntTy} (ht : t.signed = true) (hx : x < 2 ^ t.width) (hy : y < 2 ^ t.width)
    (h : intOf x t = intOf y t) : x = y := by
  rw [intOf_signed ht hx, intOf_signed ht hy, BitVec.toInt_inj] at h
  simpa [Nat.mod_eq_of_lt hx, Nat.mod_eq_of_lt hy] using congrArg BitVec.toNat h

/-- The smaller and the larger of two values, as a signed type orders them. -/
theorem pick_signed {x y : Nat} {t : IntTy} (ht : t.signed = true) (hx : x < 2 ^ t.width) (hy : y < 2 ^ t.width) :
    (if decide (intOf x t ≤ intOf y t) then x else y) = (if (BitVec.ofNat t.width x).sle (BitVec.ofNat t.width y) then x else y) ∧
      (if decide (intOf y t ≤ intOf x t) then x else y) =
        if (BitVec.ofNat t.width x).sle (BitVec.ofNat t.width y) then y else x := by
  have hle := intOf_le_iff_sle ht hx hy
  constructor
  · simp only [decide_eq_true_eq, hle]
  · by_cases h : intOf x t ≤ intOf y t
    · rw [if_pos (hle.mp h)]
      split
      · rename_i h'
        exact intOf_inj ht hx hy (le_antisymm h (of_decide_eq_true h'))
      · rfl
    · rw [if_neg (mt hle.mpr h), if_pos (decide_eq_true (le_of_not_ge h))]

/-- The smaller and the larger of two values, as an unsigned type orders them. -/
theorem pick_unsigned {x y : Nat} {t : IntTy} (ht : t.signed = false) :
    (if decide (intOf x t ≤ intOf y t) then x else y) = min x y ∧ (if decide (intOf y t ≤ intOf x t) then x else y) = max x y := by
  simp only [intOf_unsigned _ ht, Int.ofNat_le, decide_eq_true_eq]
  constructor <;> split <;> omega

/-! ### Elements -/

/-- The elements of a value are those it was put together from. -/
theorem elemOf_ofElems {w : Nat} {l : List Nat} (hl : ∀ x ∈ l, x < 2 ^ w) {i : Nat} (hi : i < l.length) :
    ofElems w l / 2 ^ (w * i) % 2 ^ w = l[i] := by
  induction l generalizing i with
  | nil => exact absurd hi (Nat.not_lt_zero _)
  | cons x xs ih =>
    have hx : x < 2 ^ w := hl x List.mem_cons_self
    cases i with
    | zero => simp [ofElems, Nat.mod_eq_of_lt hx]
    | succ i =>
      have hrest := ih (fun y hy => hl y (List.mem_cons_of_mem _ hy)) (Nat.lt_of_succ_lt_succ hi)
      rw [ofElems, Nat.mul_succ, Nat.add_comm (w * i), Nat.pow_add, ← Nat.div_div_eq_div_mul,
        Nat.add_mul_div_left _ _ (by positivity), Nat.div_eq_of_lt hx, Nat.zero_add, hrest, List.getElem_cons_succ]

/-- One element of n that a function gives. -/
theorem elemOf_ofElems_map {w n : Nat} {g : Nat → Nat} (hg : ∀ i, g i < 2 ^ w) {i : Nat} (hi : i < n) :
    ofElems w ((List.range n).map g) / 2 ^ (w * i) % 2 ^ w = g i := by
  rw [elemOf_ofElems (by simpa using fun i _ => hg i) (by simpa using hi)]
  simp

/-- A combination of two words is a word. -/
theorem combine_word_lt {op : AtomOp} {ty : AtomTy} {x y : Nat} (hty : ty = .s32 ∨ ty = .z32 ∨ ty = .b32) (hx : x < 2 ^ 32)
    (hy : y < 2 ^ 32) : combine op ty x y < 2 ^ 32 := by
  have hpick : ∀ c : Bool, (if c then x else y) < 2 ^ 32 := fun c => ite_inv (P := (· < 2 ^ 32)) hx hy
  rcases hty with rfl | rfl | rfl
  all_goals
    cases op with
    | add => exact lowBits_lt _ 32
    | min => exact hpick _
    | max => exact hpick _
    | and => exact Nat.and_lt_two_pow _ hy
    | or => exact Nat.or_lt_two_pow hx hy
    | xor => exact Nat.xor_lt_two_pow hx hy
    | exch => exact hy

/-- A combination of two encodings is an encoding. -/
theorem combine_float_lt {op : AtomOp} {ty : AtomTy} {f : Fmt} {x y : Nat} (hty : ty = .f32 ∧ f = .f32 ∨ ty = .bf16 ∧ f = .bf16)
    (hy : y < 2 ^ f.width) : combine op ty x y < 2 ^ f.width := by
  rcases hty with ⟨rfl, rfl⟩ | ⟨rfl, rfl⟩
  all_goals
    cases op with
    | add => exact roundF_lt ..
    | min => exact roundF_lt ..
    | max => exact roundF_lt ..
    | _ => exact hy

/-- A combination of two elements is an element. -/
theorem combine_lt {op : AtomOp} {ty : AtomTy} {x y : Nat} (hty : ty = .s32 ∨ ty = .z32 ∨ ty = .b32 ∨ ty = .f32 ∨ ty = .bf16)
    (hx : x < 2 ^ ty.elemBits) (hy : y < 2 ^ ty.elemBits) : combine op ty x y < 2 ^ ty.elemBits := by
  rcases hty with rfl | rfl | rfl | rfl | rfl
  · exact combine_word_lt (.inl rfl) hx hy
  · exact combine_word_lt (.inr (.inl rfl)) hx hy
  · exact combine_word_lt (.inr (.inr rfl)) hx hy
  · exact combine_float_lt (.inl ⟨rfl, rfl⟩) hy
  · exact combine_float_lt (.inr ⟨rfl, rfl⟩) hy

theorem elemBits_eq (ty : AtomTy) : ty.elemBits = if ty = .bf16 then 16 else 32 := by
  cases ty <;> rfl

/-- Settles O34: the integers by `intOf`, the floating values as `fres` without flushing, the sectors element by element. -/
theorem atomicValues : Obligations.AtomicValues := by
  unfold Obligations.AtomicValues
  intro els fmt
  refine ⟨?z32, ?s32, ?z64, ?s64, ?unsigned, ?signed32, ?signed64, ?float, fun op old x => rfl, ?bits, fun ty old cmp new => rfl,
    fun old cmp new => rfl, ?mred, ?mscale⟩
  case z32 => exact fun old x => lowBits_intOf_add old x .z32
  case s32 => exact fun old x _ _ => lowBits_intOf_add old x .s32
  case z64 => exact fun old x => lowBits_intOf_add old x .z64
  case s64 => exact fun old x => lowBits_intOf_add old x .s64
  case unsigned =>
    rintro ty old x (rfl | rfl)
    · exact pick_unsigned (t := .z32) rfl
    · exact pick_unsigned (t := .z64) rfl
  case signed32 => exact fun old x ho hx => pick_signed (t := .s32) rfl ho hx
  case signed64 => exact fun old x ho hx => pick_signed (t := .s64) rfl ho hx
  case float =>
    rintro ty old x (rfl | rfl) y z
    all_goals exact ⟨rfl, (fres_keep ..).symm, (fres_keep ..).symm⟩
  case bits =>
    rintro ty old x (rfl | rfl)
    all_goals exact ⟨rfl, rfl, rfl, rfl⟩
  case mred =>
    intro op ty old x i hty hi
    rw [show els ty = ty.elemBits from (elemBits_eq ty).symm] at hi ⊢
    exact elemOf_ofElems_map (fun j => combine_lt hty (Nat.mod_lt _ (by positivity)) (Nat.mod_lt _ (by positivity))) hi
  case mscale =>
    rintro rnd ty a b old x i (rfl | rfl) hi
    · exact elemOf_ofElems_map (w := 32) (fun j => roundF_lt _ .f32 rnd false) hi
    · exact elemOf_ofElems_map (w := 16) (fun j => roundF_lt _ .bf16 rnd false) hi

end Sys2Proof.Machine
end

section
/-! PROOFS. Issuing an atomic (O32, R245 to R256). -/

namespace Sys2Proof.Machine

open Sys2Proof

variable {r r1 : State} {c : Ctx} {l : Nat} {ctl : AtomCtl} {base home : Bool} {size : Nat} {kind : AccKind}
  {n : Option Nat} {parts : List Part}

/-- An atomic adds its offset to its base alone (R252). -/
theorem Ctx.atomAddr_eq (c : Ctx) (l : Nat) (ctl : AtomCtl) : c.atomAddr l ctl = lowBits (c.a l 2 + ctl.off.toInt) 64 := by
  simp [Ctx.atomAddr, addrSum]

theorem Ctx.atomWinAddr_eq (c : Ctx) (l : Nat) (ctl : AtomCtl) : c.atomWinAddr l ctl = lowBits (c.a l + ctl.off.toInt) 32 := by
  simp [Ctx.atomWinAddr, addrSum]

/-- An access marked `.base` carries no tag, any other that of its region (R332). -/
theorem State.accTag_baseMode (r : State) (rgn : Nat) (base : Bool) :
    r.accTag rgn (baseMode base) = if base then none else r.liveTag rgn := by
  cases base with
  | true => rfl
  | false => unfold State.accTag baseMode; cases r.liveTag rgn <;> rfl

/-- A lane's atomic as it waits to be performed. -/
def Ctx.atomAcc (c : Ctx) (ctl : AtomCtl) (k : AccKind) (sp : Space) (ps : List Part) (tag : Option (BitVec 5)) (n : Option Nat) :
    Acc :=
  ⟨c.id, k, sp, ps, ctl.ord, ctl.scope, tag, n.map fun n => ⟨c.e.f.d, n, true⟩, c.e.f.la.toNat, none, c.pc, none, [], [], none,
    none, 0⟩

/-- The access that a lane's request comes to where its pages are reached. -/
theorem State.issueGlob_atom
    (hr : r.reach (c.x.agent c.w) .wr (if home then clsHome else clsAtom ctl.scope) (baseMode base) (c.atomAddr l ctl) size =
      .ok r1 parts) :
    r.issueGlob c l (c.atomReq l ctl base size home kind n) =
      .pend r1 (c.atomAcc ctl kind .glob parts (if base then none else r1.liveTag c.x.rgn) n) := by
  rw [State.issueGlob_ok _ _ _ hr, ← State.accTag_baseMode]
  rfl

/-- A reached atomic waits, and joins the queue of the service wave where that performs it (R247). -/
theorem State.atomLane_reached (ha : c.atomAddr l ctl % size = 0)
    (hr : r.reach (c.x.agent c.w) .wr (if home then clsHome else clsAtom ctl.scope) (baseMode base) (c.atomAddr l ctl) size =
      .ok r1 parts) :
    let a := c.atomAcc ctl kind .glob parts (if base then none else r1.liveTag c.x.rgn) n
    r.atomLane c l (c.atomReq l ctl base size home kind n) =
      if viaService c.w a then
        .pend ((r1.setCluster (clusterOfWave c.w) { r1.cluster (clusterOfWave c.w) with
            svc := (r1.cluster (clusterOfWave c.w)).svc ++ [⟨c.w, l, c.id⟩] }).updThread c.w l
          fun t => { t with clsAt := true }) a
      else .pend r1 a := by
  have hm : misaligned (c.atomReq l ctl base size home kind n).va (c.atomReq l ctl base size home kind n).size = none :=
    misaligned_of_dvd ha
  unfold State.atomLane
  rw [hm, State.issueGlob_atom hr]

theorem State.atomLane_misaligned (ha : c.atomAddr l ctl % size ≠ 0) :
    r.atomLane c l (c.atomReq l ctl base size home kind n) =
      .fault r { code := 2, sub := 1, addr := some (c.atomAddr l ctl), wr := true } := by
  have hm : misaligned (c.atomReq l ctl base size home kind n).va (c.atomReq l ctl base size home kind n).size = _ :=
    misaligned_of_not_dvd ha
  unfold State.atomLane
  rw [hm]
  rfl

/-- The context of an instruction that begins where a unit has room holds the frame that its description gives. -/
theorem frame_of_beginsIf {i : Instr} {s s1 : State} {fits : Ctx → State → Bool} {c : Ctx} {f : Frame} (h : BeginsIf i s fits c s1)
    (hf : ∀ u e, descOf u i = some e → e.f = f) : c.e.f = f := by
  obtain ⟨e, he, hce, -, -⟩ := State.startOf_go h
  exact hce ▸ hf _ e he

/-- A window atomic that is aligned and lies in its window waits to be performed. -/
theorem State.issueWin_within {q : Req} {tob : Bool} (h : q.va + q.size ≤ (if tob then r.tobSize c.x.wg else r.scrSize c.x.wg)) :
    r.issueWin c q tob =
      .pend r (c.acc q (if tob then .tob c.x.wg else .scr c.x.wg) [⟨q.va, q.va, q.size, .h⟩] none) := by
  unfold State.issueWin
  exact if_neg (Nat.not_lt.mpr h)

/-- Settles O32: the lanes by the lemmas about each, with the frame that the instruction's description holds. -/
theorem atomicsIssue : Obligations.AtomicsIssue := by
  unfold Obligations.AtomicsIssue
  intro f ctl base s s1 c va win mode tag acc req issues
  have hva : ∀ l, c.atomAddr l ctl = va l := fun l => c.atomAddr_eq l ctl
  have hacc : c.e.f = f → ∀ k sp ps t n, c.atomAcc ctl k sp ps t n = acc k sp ps t n := by
    rintro rfl k sp ps t n
    rfl
  have hissues : ∀ i home size n k, (∀ u e, descOf u i = some e → e.f = f) →
      exec i s = atomic i s (req home size n k) → issues i home size n k := by
    intro i home size n k hframe hexec hbegin
    have hf : c.e.f = f := frame_of_beginsIf hbegin hframe
    refine ⟨hexec.trans (perLaneIf_lanes hbegin), fun r r1 l parts => ?_⟩
    rw [← hva]
    refine ⟨fun ha hr => ?_, State.atomLane_misaligned⟩
    have hlane := State.atomLane_reached (kind := k c l) (n := n) ha hr
    rw [← hacc hf]
    exact ⟨fun hsvc => hlane.trans (if_neg (Bool.eq_false_iff.mp hsvc)), fun hsvc => hlane.trans (if_pos hsvc)⟩
  refine ⟨fun op ty => hissues _ _ _ _ _ ?_ rfl, fun op ty => hissues _ _ _ _ _ ?_ rfl, fun ty => hissues _ _ _ _ _ ?_ rfl,
    fun op ty => hissues _ _ _ _ _ ?_ rfl, hissues _ _ _ _ _ ?_ rfl, fun rnd ty => hissues _ _ _ _ _ ?_ rfl, ?window, ?literal⟩
  case window =>
    intro op ty tob h
    have hf : c.e.f = f := frame_of_begins h (by rintro _ _ ⟨⟩; rfl)
    refine ⟨_, perLane_lanes h, fun r l ha hfit => ?_⟩
    rw [← hacc hf]
    have hw : c.atomWinAddr l ctl = win l := c.atomWinAddr_eq l ctl
    rw [← hw] at ha hfit ⊢
    simp only [misaligned_of_dvd (n := atomSize ty) ha]
    exact State.issueWin_within hfit
  case literal =>
    refine fun l ty => ⟨fun n hn => ?_, fun h => ?_⟩
    · simp only [Ctx.atomB, hn]
      rfl
    · unfold Ctx.atomB
      split
      · rename_i n hn
        exact absurd hn ((h.resolve_left (fun h => h rfl)) n)
      · rfl
  all_goals
    rintro _ _ ⟨⟩
    rfl

end Sys2Proof.Machine
end

section
/-! PROOFS. The gathering instructions (O41, R257 to R260, R266, R267). -/

namespace Sys2Proof.Machine

open Sys2Proof

/-! ### Slots -/

section

variable (r : State) (k n rgn : Nat) (tag : Option (BitVec 5))

/-- An entry on chip is the last slot, at the next ticket (R259). -/
theorem State.addSlot_onChip (data : Option (BitVec 128)) :
    r.addSlot k n rgn tag data none = r.setQueue k n { r.queue k n with
      ticket := nextTicket (r.queue k n).ticket
      slots := (r.queue k n).slots ++ [⟨(r.queue k n).ticket, data, r.clusterClk k, rgn, tag, none⟩] } := rfl

/-- The queue with an entry appended that stands in the spill ring (R260). -/
def State.addSpilled (data : Option (BitVec 128)) (pos : Nat) : State :=
  r.setQueue k n { r.queue k n with
    ticket := nextTicket (r.queue k n).ticket
    slots := (r.queue k n).slots ++ [⟨(r.queue k n).ticket, data, r.clusterClk k, rgn, tag, some pos⟩]
    sOff := ((r.queue k n).sOff + 1) % max 1 (r.queue k n).ssize }

theorem State.addSlot_published (d : BitVec 128) (pos : Nat) :
    r.addSlot k n rgn tag (some d) (some pos) = (r.addSpilled k n rgn tag (some d) pos).spillPut k n pos d := rfl

theorem State.addSlot_reserved (pos : Nat) :
    r.addSlot k n rgn tag none (some pos) = r.addSpilled k n rgn tag none pos := rfl

end

/-! ### Producers -/

section

variable {r r1 : State} {c : Ctx} {l k n : Nat} {flt enq : Bool}

/-- The state on which a producer acts: `gq.enq` releases first (R266). -/
def State.produceFrom (r : State) (c : Ctx) (l : Nat) (enq : Bool) : Option State :=
  if enq then r.releaseAt c.w l .dev else some r

theorem State.produceLane_room {spill : Option Nat} (hq : r.queueFor c.x.rgn (c.a l) = .ok (k, n))
    (hfrom : r.produceFrom c l enq = some r1) (hon : (r1.queue k n).enabled = true)
    (hroom : (r1.unspillQueue k n).roomFor k n = some spill) :
    let r2 := r1.unspillQueue k n
    r.produceLane c l flt enq =
      .pend (r2.addSlot k n c.x.rgn (r2.liveTag c.x.rgn) (if enq then some (BitVec.ofNat 128 (c.b l 4)) else none) spill)
        (c.calc l l [if enq then 1 else BitVec.ofNat 32 (r2.queue k n).ticket]) := by
  unfold State.produceFrom at hfrom
  unfold State.produceLane
  simp only [hq, hfrom, hon, if_true, hroom]

theorem State.produceLane_full (hq : r.queueFor c.x.rgn (c.a l) = .ok (k, n))
    (hfrom : r.produceFrom c l enq = some r1) (hon : (r1.queue k n).enabled = true)
    (hroom : (r1.unspillQueue k n).roomFor k n = none) :
    r.produceLane c l flt enq =
      if flt then .fault (r1.unspillQueue k n) { code := 9, sub := 0, det0 := c.a l }
      else .pend (r1.unspillQueue k n) (c.calc l l [if enq then 0 else 0xFFFFFFFF]) := by
  unfold State.produceFrom at hfrom
  unfold State.produceLane
  simp only [hq, hfrom, hon, if_true, hroom]

theorem State.produceLane_disabled (hq : r.queueFor c.x.rgn (c.a l) = .ok (k, n)) (hoff : (r.queue k n).enabled = false) :
    r.produceLane c l flt false =
      if flt then .fault r { code := 9, sub := 1, det0 := c.a l } else .pend r (c.calc l l [0xFFFFFFFF]) := by
  unfold State.produceLane
  simp only [hq, hoff, Bool.false_eq_true, if_false]

/-- An identifier above its 15 bits names no queue (R257). -/
theorem State.produceLane_ill_formed (h : 2 ^ 15 ≤ c.a l) :
    r.produceLane c l flt enq = .fault r { code := 5, sub := 0x0B, det0 := c.a l } := by
  have hid : queueOf (c.a l) = none := if_pos (.inl (by omega))
  unfold State.produceLane State.queueFor
  simp only [hid]
  rfl

/-- A slot that the region has reserved becomes published (R266). -/
theorem State.publishLane_reserved {t : GSlot} (hq : r.queueFor c.x.rgn (c.a l) = .ok (k, n))
    (hrel : r.releaseAt c.w l .dev = some r1)
    (ht : ((r1.queue k n).slots.find? fun t => t.ticket == c.b l && t.data.isNone && t.rgn == c.x.rgn) = some t) :
    let put : GSlot → GSlot := fun u => if u.ticket == c.b l && u.data.isNone && u.rgn == c.x.rgn then
      { u with data := some (BitVec.ofNat 128 (c.d l 4)), clk := r1.clusterClk k } else u
    let r3 := r1.setQueue k n { r1.queue k n with slots := (r1.queue k n).slots.map put }
    r.publishLane c l = .ok (match t.spill with
      | some pos => r3.spillPut k n pos (BitVec.ofNat 128 (c.d l 4))
      | none => r3) [] := by
  unfold State.publishLane
  simp only [hq, hrel, ht] <;> rfl

end

/-! ### Configuration -/

section

variable {r r1 : State} {c : Ctx} {l k n : Nat} (hq : r.queueCfg c.x.rgn (c.a l) = .ok (k, n))
include hq

theorem State.configLane_busy (h : (r.queue k n).enabled = true ∨ (r.queue k n).slots ≠ []) :
    r.configLane c l = .fault r { code := 9, sub := 3, det0 := c.a l } := by
  unfold State.configLane
  simp only [hq, if_pos h]

section

variable {d : BitVec 512} (hoff : (r.queue k n).enabled = false) (hnil : (r.queue k n).slots = [])
  (hd : r.readDesc c l (addrSum (c.b l 2) 0 1 c.offX 64) 64 = .ok r1 d)
include hoff hnil hd

theorem State.configLane_ill_formed (hbad : queueDescBad d = true) :
    r.configLane c l = .fault r1 { code := 9, sub := 2, det0 := c.a l } := by
  unfold State.configLane
  simp only [hq, hoff, hnil, hd, hbad, Bool.false_eq_true, ne_eq, not_true_eq_false, or_self, if_false, if_true]

/-- A queue whose delivery area and whose spill ring, where it has them, lie on pages of class H starts afresh (R267). -/
theorem State.configLane_configured (hbad : queueDescBad d = false)
    (hdel : dfield d 511 448 = 0 ∨ r1.rangeHome c.x.rgn (dfield d 511 448) (dfield d 351 320) = true)
    (hspill : dfield d 447 384 = 0 ∨ r1.rangeHome c.x.rgn (dfield d 447 384) (dfield d 383 352) = true) :
    r.configLane c l = .ok (r1.setQueue k n (queueOfDesc d c.x.rgn)) [] := by
  have hfine : ∀ {base size : Nat}, base = 0 ∨ r1.rangeHome c.x.rgn base size = true →
      (decide (base ≠ 0) && !r1.rangeHome c.x.rgn base size) = false := by
    rintro base size (h | h) <;> simp [h]
  unfold State.configLane
  simp only [hq, hoff, hnil, hd, hbad, hfine hdel, hfine hspill, Bool.false_eq_true, ne_eq, not_true_eq_false, or_self, if_false]

end

/-- A disable drops every reservation, and each has its record (R267). -/
theorem State.disableLane_voids :
    let left := (r.queue k n).slots.filter fun t => t.data.isSome
    r.disableLane c l = .ok (((r.queue k n).slots.filter fun t => t.data.isNone).foldl
      (fun r t => r.engRecord ⟨t.rgn, none, k, 0, 0⟩ { code := 0x10, sub := 0, det0 := queueId k n, det1 := t.ticket })
      (r.setQueue k n { r.queue k n with enabled := false, slots := left, cons := if left = [] then 0 else (r.queue k n).cons })) [] := by
  change r.disableLane c l = .ok (((r.queue k n).slots.filter fun t => t.data.isNone).foldl (fun r t => r.voidRecord k n t) _) []
  unfold State.disableLane
  simp only [hq, GQueue.rest_eq, Bool.false_eq_true, false_or, ne_eq, ite_not]

theorem State.ackLane_beyond (h : ((r.queue k n).unfreed.map Prod.fst).sum < c.b l) :
    r.ackLane c l = .fault r { code := 9, sub := 4, det0 := c.a l } := by
  unfold State.ackLane
  simp only [hq, if_pos h]

theorem State.ackLane_frees (h : c.b l ≤ ((r.queue k n).unfreed.map Prod.fst).sum) :
    r.ackLane c l =
      .ok (r.setQueue k n { r.queue k n with unfreed := freeEntries (c.b l) (r.queue k n).unfreed }) [] := by
  unfold State.ackLane
  simp only [hq, if_neg (Nat.not_lt.mpr h)]

theorem State.queryLane_word : r.queryLane c l = .ok r [(r.queue k n).word] := by
  unfold State.queryLane
  simp only [hq]

end

/-- As many entries are freed as are named, where there are so many. -/
theorem sum_freeEntries {m : Nat} {q : List (Nat × Nat)} (h : m ≤ (q.map Prod.fst).sum) :
    ((freeEntries m q).map Prod.fst).sum = (q.map Prod.fst).sum - m := by
  induction q generalizing m with
  | nil => exact (Nat.zero_sub m).symm
  | cons e q ih =>
    obtain ⟨a, b⟩ := e
    rw [List.map_cons, List.sum_cons] at h ⊢
    rw [freeEntries]
    split
    · rename_i hm
      simp [hm]
    · split
      · rw [ih (by omega)]
        omega
      · simp
        omega

/-- Settles O41: each lane by its own lemma, in the order of the statement. -/
theorem gatherInstructions : Obligations.GatherInstructions := by
  unfold Obligations.GatherInstructions
  intro f flt s s1 c
  refine ⟨perLane_lanes, perLane_lanes, perLane_lanes, perLane_lanes, perLane_lanes, perLane_lanes, perLane_lanes,
    ?producers, ?configuration⟩
  case producers =>
    intro r r1 l k n r2 q slot
    refine ⟨?enq, ?resv, ?spilled, ?resvFull, ?enqFull, State.produceLane_disabled,
      fun h enq => State.produceLane_ill_formed h, ?publish⟩
    case enq =>
      intro hq hrel hon hroom
      exact State.produceLane_room (enq := true) hq hrel hon hroom
    case resv =>
      rintro hq rfl hon hroom
      exact State.produceLane_room (enq := false) hq rfl hon hroom
    case spilled =>
      intro pos hq hon hroom put
      refine ⟨fun hrel => State.produceLane_room (enq := true) hq hrel hon hroom, ?_⟩
      rintro rfl
      exact State.produceLane_room (enq := false) hq rfl hon hroom
    case resvFull =>
      rintro hq rfl hon hroom
      exact State.produceLane_full (enq := false) hq rfl hon hroom
    case enqFull =>
      intro hq hrel hon hroom
      exact State.produceLane_full (enq := true) hq hrel hon hroom
    case publish =>
      intro t hq hrel q1 ht put r3
      exact State.publishLane_reserved hq hrel ht
  case configuration =>
    intro r r1 l k n d hq
    exact ⟨State.configLane_busy hq, fun hoff hnil hd => ⟨State.configLane_ill_formed hq hoff hnil hd,
        State.configLane_configured hq hoff hnil hd⟩, State.disableLane_voids hq, State.ackLane_beyond hq,
      fun h => ⟨State.ackLane_frees hq h, sum_freeEntries h⟩, State.queryLane_word hq⟩

end Sys2Proof.Machine
end

section
/-! PROOFS. The six forms of `rlaunch` (O43, R351, R352, R357). -/

namespace Sys2Proof.Machine

open Sys2Proof

/-! ### The request of a lane -/

section

variable {r r1 r2 : State} {c : Ctx} {l reason : Nat} {aligned : Bool} {act : State → Nat → State × Nat}

theorem State.rlaunchLane_misaligned (h : addrSum (c.a l 2) 0 1 c.offX 64 % 512 ≠ 0) :
    r.rlaunchLane c l true act = .ok r [0x1001] := by
  unfold State.rlaunchLane
  dsimp only
  rw [if_pos (by simpa using h)]
  rfl

/-- An issuer that its own request leaves running is answered with the reason (R357). -/
theorem State.rlaunchLane_answered {t : Thread} {y : Region}
    (halign : aligned = true → addrSum (c.a l 2) 0 1 c.offX 64 % 512 = 0) (hrel : r.releaseAt c.w l .dev = some r1)
    (hact : act r1 (addrSum (c.a l 2) 0 1 c.offX 64) = (r2, reason)) (ht : r2.thread? c.w l = some t)
    (hy : r2.region? c.x.rgn = some y) (hst : y.st ≠ .suspended) :
    r.rlaunchLane c l aligned act = .ok r2 [launchStatus reason] := by
  have hgo : ¬(aligned && addrSum (c.a l 2) 0 1 c.offX 64 % 512 != 0) = true := by simpa using halign
  unfold State.rlaunchLane
  simp only [if_neg hgo, hrel, hact, ht, hy, if_neg hst]

theorem launchStatus_eq (reason : Nat) :
    launchStatus reason = BitVec.ofNat 32 (256 * reason + if reason = 0 then 0 else 1) := by
  unfold launchStatus
  rw [Nat.mul_comm]

end

/-! ### A launch -/

section

variable {r : State} {by_ : Issuer} {va : Nat} {x : Region}

/-- A region that a block describes waits, with no dependence met (R352). -/
def Region.Fresh (va : Nat) (x : Region) : Prop := x.st = .waiting ∧ x.depDone = [] ∧ x.rcbVa = BitVec.ofNat 64 va

theorem State.readRegion_fresh (r : State) (by_ : Issuer) (va : Nat) : OkAll (Region.Fresh va) (r.readRegion by_ va) := by
  unfold State.readRegion
  split
  · exact trivial
  · split
    · exact trivial
    · extract_lets d own ovr facet
      split
      · exact trivial
      · split
        · exact trivial
        · extract_lets y sysUp depBad tooMuch
          exact ite_inv trivial (ite_inv trivial (ite_inv trivial (ite_inv trivial (ite_inv trivial (ite_inv trivial
            ⟨rfl, rfl, rfl⟩)))))

theorem State.readRegion_misaligned (h : va % 512 ≠ 0) : r.readRegion by_ va = .error 0x10 := if_pos h

theorem State.launch_refused {n : Nat} (h : r.readRegion by_ va = .error n) : r.launch by_ va = (r, n) := by
  unfold State.launch
  rw [h]

theorem State.launch_accepted (h : r.readRegion by_ va = .ok x) :
    r.launch by_ va = ((r.accept x).tryReady r.nextId, 0) := by
  unfold State.launch
  rw [h]
  rfl

/-- The region that an acceptance enters (R352). -/
def State.entered (s : State) (x : Region) : Region :=
  { x with root := if x.parent = none then s.nextId else x.root }

/-- A region without dependences is entered under the next number (R352, R354). -/
theorem State.accept_region? (h : x.rcb.depn = 0) : (r.accept x).region? r.nextId = some (r.entered x) := by
  unfold State.accept
  extract_lets n y s1 s2
  have hregions : s2.regions = s1.regions :=
    State.regions_of_bystanders (by simp only [s2, State.putNum_bystanders, State.writeState_bystanders])
  rw [show y.rcb.depn = 0 from h]
  exact (congrArg (NMap.find · r.nextId) hregions).trans (NMap.find_ins_same ..)

theorem State.writeState_region? (s : State) (d n : Nat) : (s.writeState d).region? n = s.region? n := by
  unfold State.region?
  rw [State.regions_of_bystanders (s.writeState_bystanders d)]

/-- A waiting region whose dependences are met, and which no prism launch holds, becomes ready (R352). -/
theorem State.tryReady_ready {n : Nat} (hx : r.region? n = some x) (hst : x.st = .waiting)
    (hdep : x.rcb.depn ≤ x.depDone.length) (hheld : r.heldByPrism n = false) :
    ∃ y, (r.tryReady n).region? n = some y ∧ y.st = .ready ∧ y.rcb = x.rcb ∧ y.rcbVa = x.rcbVa ∧ y.parent = x.parent := by
  have hgo : ¬(decide (x.depDone.length < x.rcb.depn) || r.heldByPrism n) = true := by simp [hheld, hdep]
  unfold State.tryReady
  rw [hx]
  dsimp only
  rw [if_neg hgo, hst]
  dsimp only
  rw [State.writeState_region?]
  unfold State.region? at hx ⊢
  simp only [State.linkRegion, State.becomeReady, State.updRegion_find, hx, Option.map_some]
  exact ⟨_, rfl, rfl, rfl, rfl, rfl⟩

/-- An accepted region without dependences is ready (R352). -/
theorem State.launch_ready (h : r.readRegion by_ va = .ok x) (hdep : x.rcb.depn = 0)
    (hheld : (r.accept x).heldByPrism r.nextId = false) :
    (r.launch by_ va).2 = 0 ∧ ∃ y, (r.launch by_ va).1.region? r.nextId = some y ∧ y.st = .ready ∧ y.rcb = x.rcb ∧
      y.rcbVa = BitVec.ofNat 64 va ∧ y.parent = x.parent := by
  obtain ⟨hst, -, hva⟩ : x.Fresh va := of_eq (P := OkAll (Region.Fresh va)) (r.readRegion_fresh by_ va) h
  obtain ⟨y, hy, hready, hrcb, hyva, hparent⟩ :=
    State.tryReady_ready (State.accept_region? (r := r) hdep) hst (hdep.trans_le (Nat.zero_le _)) hheld
  rw [State.launch_accepted h]
  exact ⟨rfl, y, hy, hready, hrcb, hyva.trans hva, hparent⟩

end

/-! ### Control -/

section

variable {r : State} {top va : Nat} {op : RegionOp}

theorem State.controlNamed_misaligned (h : va % 512 ≠ 0) : r.controlNamed top va op = (r, 0x10) := if_pos h

theorem State.controlNamed_unnamed (h : va % 512 = 0) (hnone : r.regionNamed top va = none) :
    r.controlNamed top va op = (r, 0x11) := by
  unfold State.controlNamed
  rw [if_neg (not_not.mpr h), hnone]

theorem State.controlNamed_eq {n : Nat} {x : Region} (h : va % 512 = 0) (hx : r.regionNamed top va = some (n, x)) :
    r.controlNamed top va op = r.control n x op := by
  unfold State.controlNamed
  rw [if_neg (not_not.mpr h), hx]

theorem State.control_resume_refused {n : Nat} {x : Region} (h : x.st ≠ .suspended) :
    r.control n x .resume = (r, 0x18) := if_pos (.inl h)

theorem State.control_replay_refused {n seq : Nat} {x : Region}
    (h : (r.anyThread (fun d => d == n) fun t => t.heldWith seq false) = false) :
    r.control n x (.replay seq false) = (r, 0x19) := by
  unfold State.control
  simp only [h, Bool.or_self, Bool.false_eq_true, if_false]

end

/-- Settles O43: a launch is its validation and acceptance, a control form acts on the region that its address names, and what a
kill discards holds every wave of the region. -/
theorem regionLaunches : Obligations.RegionLaunches := by
  unfold Obligations.RegionLaunches
  intro f s s1 c
  refine ⟨perLane_lanes, perLane_lanes, perLane_lanes, perLane_lanes, perLane_lanes, perLane_lanes, ?lane, ?launch, ?control,
    fun r n x hx hended hkilled => State.killRegion_vacated hx hended hkilled⟩
  case lane =>
    intro r r1 r2 l reason aligned act t y va
    refine ⟨State.rlaunchLane_misaligned, fun halign hrel hact ht hy hst => ?_⟩
    rw [← launchStatus_eq]
    exact State.rlaunchLane_answered halign hrel hact ht hy hst
  case launch =>
    intro r by_ va n x
    exact ⟨State.launch_refused, State.launch_ready, fun h => State.launch_refused (State.readRegion_misaligned h)⟩
  case control =>
    intro r top va n op x
    refine ⟨State.controlNamed_misaligned, State.controlNamed_unnamed, fun h hx => ?_⟩
    simp only [State.controlNamed_eq h hx]
    exact ⟨rfl, rfl, State.control_resume_refused, fun seq => State.control_replay_refused⟩

end Sys2Proof.Machine
end

section
/-! PROOFS. What stands around memory: a write of memory, and a copy written back or dropped, changes no table of the device but those
of memory, of the cores and of the waves' reservations. -/

namespace Sys2Proof.Machine

open Sys2Proof

/-- A state without memory, its tables, the waves and the cores. -/
def State.around (s : State) : State :=
  { s with mem := [], l2 := [], fv := 0, poison := [], versions := [], waves := [], cores := [], constOld := [] }

section

variable {s t : State} (h : t.around = s.around)
include h

theorem State.prisms_of_around : t.prisms = s.prisms := congrArg State.prisms (a₁ := t.around) (a₂ := s.around) h
theorem State.ctrHeld_of_around : t.ctrHeld = s.ctrHeld := congrArg State.ctrHeld (a₁ := t.around) (a₂ := s.around) h
theorem State.presents_of_around : t.presents = s.presents := congrArg State.presents (a₁ := t.around) (a₂ := s.around) h
theorem State.scanout_of_around : t.scanout = s.scanout := congrArg State.scanout (a₁ := t.around) (a₂ := s.around) h
theorem State.readouts_of_around : t.readouts = s.readouts := congrArg State.readouts (a₁ := t.around) (a₂ := s.around) h
theorem State.answers_of_around : t.answers = s.answers := congrArg State.answers (a₁ := t.around) (a₂ := s.around) h
theorem State.ats_of_around : t.ats = s.ats := congrArg State.ats (a₁ := t.around) (a₂ := s.around) h
theorem State.atsPending_of_around : t.atsPending = s.atsPending :=
  congrArg State.atsPending (a₁ := t.around) (a₂ := s.around) h
theorem State.fclk_of_around : t.fclk = s.fclk := congrArg State.fclk (a₁ := t.around) (a₂ := s.around) h

end

/-! ### Physical memory -/

@[simp] theorem State.fresh_around (s : State) : s.fresh.2.around = s.around := rfl
@[simp] theorem State.healed_around (s : State) (key n : Nat) : (s.healed key n).around = s.around := rfl
@[simp] theorem State.setPoison_around (s : State) (i : Nat) (p : BitVec 2) : (s.setPoison i p).around = s.around := rfl
@[simp] theorem State.setCore_around (s : State) (g : Nat) (c : Core) : (s.setCore g c).around = s.around := rfl
@[simp] theorem State.clearResv_around (s : State) (pt : ResvAt) (grain : Nat) (b : Option (Nat × Nat)) :
    (s.clearResv pt grain b).around = s.around := rfl

@[simp] theorem State.clearResvs_around (s : State) (pt : ResvAt) (key n : Nat) (b : Option (Nat × Nat)) :
    (s.clearResvs pt key n b).around = s.around :=
  foldl_same State.around (fun (s : State) g => s.clearResv pt g b) (fun _ _ => rfl) _ s

theorem State.sameButL2.around {s t : State} (h : s.sameButL2 t) : t.around = s.around := by
  rw [h]
  rfl

@[simp] theorem State.touch_around (s : State) (i : Nat) (wr : Bool) : (s.touch i wr).around = s.around :=
  (s.touch_sameButL2 i wr).around

@[simp] theorem State.promote_around (s : State) (key : Nat) : (s.promote key).around = s.around := by
  unfold State.promote
  split
  · split
    · exact foldl_same State.around _ (fun s v => by rw [State.touch_around, State.setPoison_around]; rfl) _ s
    · rfl
  · rfl

@[simp] theorem State.atHome_around (s : State) (key n : Nat) : (s.atHome key n).around = s.around :=
  foldl_same State.around _ (fun s i => by rw [State.touch_around, State.promote_around]) _ s

@[simp] theorem State.noteConst_around (s : State) (key n : Nat) (b : Option (Nat × Nat)) :
    (s.noteConst key n b).around = s.around := by
  unfold State.noteConst
  extract_lets live old
  split <;> rfl

theorem State.makeVersion_around {s t : State} {i f sec : Nat} (h : s.makeVersion i f sec = some t) : t.around = s.around := by
  unfold State.makeVersion at h
  extract_lets here ovf new beside at h
  have hbeside (hb : beside = some t) : t.around = s.around := by
    unfold beside at hb
    split at hb <;> cases hb
    rfl
  split at h
  · cases h; rfl
  · split at h
    · split at h
      · rename_i s1 heq
        cases h
        change (s1.touch sec false).around = s.around
        rw [State.touch_around]
        split at heq
        · cases heq; rfl
        · exact (State.makeWay_sameButL2 heq).around
      · exact hbeside h
    · exact hbeside h

theorem State.homeWrite1_around {s t : State} {tag : Option (BitVec 5)} {b : Option (Nat × Nat)} {key : Nat} {bs : List Byte}
    (h : s.homeWrite1 tag b key bs = some t) : t.around = s.around := by
  unfold State.homeWrite1 at h
  split at h
  · obtain ⟨s1, hs1, rfl⟩ := Option.map_eq_some_iff.1 h
    rw [State.clearResvs_around]
    exact (State.makeVersion_around hs1 : s1.around = s.around)
  · cases h
    rw [State.clearResvs_around, State.healed_around]
    exact ((State.touch_around ..).trans (State.promote_around ..)).trans (State.noteConst_around ..)

@[simp] theorem State.homeWrite_around (s : State) (tag : Option (BitVec 5)) (b : Option (Nat × Nat)) (key : Nat)
    (bs : List Byte) : (Written.state (s.homeWrite tag b key bs)).around = s.around := by
  rw [State.homeWrite_eq_foldl]
  refine foldl_same (fun r => (Written.state r).around) _ (fun r p => ?_) _ (.ok s)
  unfold State.homeWriteStep
  split
  · rfl
  · split
    · rename_i s1 hs1
      exact State.homeWrite1_around hs1
    · rfl

@[simp] theorem State.baseWrite_around (s : State) (key : Nat) (bs : List Byte) : (s.baseWrite key bs).around = s.around := by
  rw [← State.homeWrite_around s none none key bs]
  unfold State.baseWrite
  split <;> rename_i heq <;> rw [heq] <;> rfl

@[simp] theorem State.putNum_around (s : State) (key n v : Nat) : (s.putNum key n v).around = s.around :=
  State.baseWrite_around ..

@[simp] theorem State.writeState_around (s : State) (r : Nat) : (s.writeState r).around = s.around := by
  unfold State.writeState
  split
  · exact State.putNum_around ..
  · rfl

/-! ### The cores' copies -/

@[simp] theorem State.dropCopy_around (s : State) (g i : Nat) : (s.dropCopy g i).around = s.around := rfl

@[simp] theorem State.writeBack_around (s : State) (g i : Nat) : (s.writeBack g i).around = s.around := by
  unfold State.writeBack
  dsimp only
  split
  · split
    · exact (State.baseWrite_around ..).trans (State.setCore_around ..)
    · rfl
  · rfl

@[simp] theorem State.writeBackAll_around (s : State) (g : Nat) : (s.writeBackAll g).around = s.around :=
  foldl_same State.around _ (fun s _ => s.writeBack_around ..) _ s

@[simp] theorem State.writeBackSvc_around (s : State) (g : Nat) : (s.writeBackSvc g).around = s.around :=
  foldl_same State.around _ (fun s e => by split; exacts [s.writeBack_around .., rfl]) _ s

@[simp] theorem State.pushRegion_around (s : State) (r : Nat) : (s.pushRegion r).around = s.around := by
  unfold State.pushRegion
  split
  · rfl
  · exact foldl_same State.around _ (fun s g => by rw [State.writeBackSvc_around, State.writeBackAll_around]) _ s

@[simp] theorem State.dropWhere_around (s : State) (g : Nat) (cond : Nat → Bool) : (s.dropWhere g cond).around = s.around :=
  foldl_same State.around _ (fun s e => by
    split
    · rw [State.dropCopy_around, State.writeBack_around]
    · rfl) _ s

@[simp] theorem State.dropWhere_bystanders (s : State) (g : Nat) (cond : Nat → Bool) :
    (s.dropWhere g cond).bystanders = s.bystanders :=
  foldl_same State.bystanders _ (fun s e => by
    split
    · rw [State.dropCopy_bystanders, State.writeBack_bystanders]
    · rfl) _ s

end Sys2Proof.Machine
end

section
/-! PROOFS. What stays of the facet sets while anything is performed (O50, R320 to R330): how many there are, and that one that is
RETIRING stays so. Memory, copies and records leave them alone (`State.bystanders`); facets are squashed, and a set left without a facet
resolves. -/

namespace Sys2Proof

open Sys2Proof.Machine

/-- As many facet sets as in a state, and those RETIRING that were. -/
def SetsFrom (base s : State) : Prop :=
  s.sets.length = base.sets.length ∧
    ∀ (i : Nat) (x : FSet), base.sets[i]? = some x → x.st = .retiring → ∃ y : FSet, s.sets[i]? = some y ∧ y.st = .retiring

theorem SetsFrom.refl (s : State) : SetsFrom s s := ⟨rfl, fun _ x hx hst => ⟨x, hx, hst⟩⟩

theorem SetsFrom.of_sets {base s t : State} (h : SetsFrom base s) (hst : t.sets = s.sets) : SetsFrom base t := by
  unfold SetsFrom
  rw [hst]
  exact h

theorem SetsFrom.of_bystanders {base s t : State} (h : SetsFrom base s) (hst : t.bystanders = s.bystanders) : SetsFrom base t :=
  h.of_sets (State.sets_of_bystanders hst)

theorem SetsFrom.updSet {base s : State} {i : Nat} {g : FSet → FSet} (h : SetsFrom base s)
    (hg : ∀ x, x.st = .retiring → (g x).st = .retiring) : SetsFrom base (s.updSet i g) := by
  refine ⟨(List.length_modify ..).trans h.1, fun j x hx hst => ?_⟩
  obtain ⟨y, hy, hyst⟩ := h.2 j x hx hst
  have hget : (s.updSet i g).sets[j]? = some (if i = j then g y else y) := by
    unfold State.updSet
    rw [List.getElem?_modify, hy]
    rfl
  refine ⟨_, hget, ?_⟩
  split
  · exact hg y hyst
  · exact hyst

/-- What an access leaves keeps the facet sets. -/
def Machine.Perf.setsFrom (base : State) (p : Perf) : Prop := SetsFrom base p.s

theorem Machine.Perf.setsFrom.intro {base : State} {p : Perf} (h : SetsFrom base p.s) : p.setsFrom base := h
theorem Machine.Perf.setsFrom.s {base : State} {p : Perf} (h : p.setsFrom base) : SetsFrom base p.s := h

theorem SetsFrom.setCore {base s : State} {g : Nat} {c : Core} (h : SetsFrom base s) : SetsFrom base (s.setCore g c) := h

theorem SetsFrom.setCluster {base s : State} {k : Nat} {c : Cluster} (h : SetsFrom base s) : SetsFrom base (s.setCluster k c) := h

theorem SetsFrom.setWave {base s : State} {w : Nat} {x : Wave} (h : SetsFrom base s) : SetsFrom base (s.setWave w x) := h

theorem SetsFrom.updThread {base s : State} {w lane : Nat} {g : Thread → Thread} (h : SetsFrom base s) :
    SetsFrom base (s.updThread w lane g) := h

theorem SetsFrom.updWg {base s : State} {wg : Nat} {g : Wg → Wg} (h : SetsFrom base s) : SetsFrom base (s.updWg wg g) := h

theorem SetsFrom.fresh {base s : State} (h : SetsFrom base s) : SndAll (SetsFrom base) s.fresh := h

theorem SetsFrom.atHome {base s : State} {key n : Nat} (h : SetsFrom base s) : SetsFrom base (s.atHome key n) :=
  h.of_bystanders (State.atHome_bystanders ..)

theorem SetsFrom.homeWrite {base s : State} {tag : Option (BitVec 5)} {by_ : Option (Nat × Nat)} {key : Nat} {bs : List Byte}
    (h : SetsFrom base s) : ExcAll (SndAll (SetsFrom base)) (SetsFrom base) (s.homeWrite tag by_ key bs) := by
  have hw : SetsFrom base (Written.state (s.homeWrite tag by_ key bs)) := h.of_bystanders (State.homeWrite_bystanders ..)
  revert hw
  cases s.homeWrite tag by_ key bs with
  | ok t => exact id
  | error e => exact id

theorem SetsFrom.baseWrite {base s : State} {key : Nat} {bs : List Byte} (h : SetsFrom base s) : SetsFrom base (s.baseWrite key bs) :=
  h.of_bystanders (State.baseWrite_bystanders ..)

theorem SetsFrom.putNum {base s : State} {key n v : Nat} (h : SetsFrom base s) : SetsFrom base (s.putNum key n v) :=
  h.of_bystanders (State.putNum_bystanders ..)

theorem SetsFrom.dropCopy {base s : State} {g sector : Nat} (h : SetsFrom base s) : SetsFrom base (s.dropCopy g sector) :=
  h.of_bystanders (State.dropCopy_bystanders ..)

theorem SetsFrom.writeBack {base s : State} {g sector : Nat} (h : SetsFrom base s) : SetsFrom base (s.writeBack g sector) :=
  h.of_bystanders (State.writeBack_bystanders ..)

theorem SetsFrom.writeBackAll {base s : State} {g : Nat} (h : SetsFrom base s) : SetsFrom base (s.writeBackAll g) :=
  h.of_bystanders (State.writeBackAll_bystanders ..)

theorem SetsFrom.writeBackSvc {base s : State} {g : Nat} (h : SetsFrom base s) : SetsFrom base (s.writeBackSvc g) :=
  h.of_bystanders (State.writeBackSvc_bystanders ..)

theorem SetsFrom.dropClean {base s : State} {g : Nat} (h : SetsFrom base s) : SetsFrom base (s.dropClean g) :=
  h.of_bystanders (State.dropClean_bystanders ..)

theorem SetsFrom.dropWhere {base s : State} {g : Nat} {cond : Nat → Bool} (h : SetsFrom base s) : SetsFrom base (s.dropWhere g cond) := by
  unfold State.dropWhere
  exact foldl_inv h (fun _ _ hs2 => ite_inv hs2.writeBack.dropCopy hs2)

theorem SetsFrom.fill {base s : State} {g sector : Nat} {cls : PgCls} (h : SetsFrom base s) : SetsFrom base (s.fill g sector cls) :=
  h.of_bystanders (State.fill_bystanders ..)

theorem SetsFrom.coreRead {base s : State} {g key n : Nat} {cls : PgCls} (h : SetsFrom base s) :
    FstAll (SetsFrom base) (s.coreRead g key n cls) :=
  h.of_bystanders (State.coreRead_bystanders ..)

theorem SetsFrom.coreWrite {base s : State} {g key : Nat} {bs : List Byte} {svc : Bool} {by_ : Option (Nat × Nat)}
    (h : SetsFrom base s) : SetsFrom base (s.coreWrite g key bs svc by_) :=
  h.of_bystanders (State.coreWrite_bystanders ..)

theorem SetsFrom.updRegion {base s : State} {r : Nat} {g : Region → Region} (h : SetsFrom base s) : SetsFrom base (s.updRegion r g) := h

theorem SetsFrom.readAt {base s : State} {pt : Point} {tag : Option (BitVec 5)} {p : Machine.Part} (h : SetsFrom base s) :
    FstAll (SetsFrom base) (s.readAt pt tag p) := by
  unfold State.readAt
  split
  · exact h
  · exact h
  · exact h.coreRead
  · extract_lets s1
    exact h.atHome

theorem SetsFrom.writeAt {base s : State} {pt : Point} {tag : Option (BitVec 5)} {by_ : Option (Nat × Nat)} {p : Machine.Part}
    {bs : List Byte} (h : SetsFrom base s) : ExcAll (SndAll (SetsFrom base)) (SetsFrom base) (s.writeAt pt tag by_ p bs) := by
  unfold State.writeAt
  split
  · exact h.updWg
  · exact h.updWg
  · exact h.coreWrite
  · exact h.homeWrite

theorem SetsFrom.readParts {base s : State} {w : Nat} {a : Machine.Acc} {l : List Machine.Part} (h : SetsFrom base s) :
    FstAll (SetsFrom base) (s.readParts w a l) := by
  induction l generalizing s with
  | nil =>
    rw [State.readParts]
    exact h
  | cons y l ih =>
    rw [State.readParts]
    split
    rename_i s1 _ heq
    have hs1 : SetsFrom base s1 := h.readAt.of_eq heq
    extract_lets bad
    split
    rename_i s2 _ _ heq2
    exact (ih hs1).of_eq heq2

theorem SetsFrom.constGrain {base s : State} {g rgn w lane grain : Nat} (h : SetsFrom base s) :
    FstAll (SetsFrom base) (s.constGrain g rgn w lane grain) := by
  unfold State.constGrain
  extract_lets s1 now all held put
  have hs1 : SetsFrom base s1 := h.atHome
  have hput : ∀ (s : State) (y : List Byte), SetsFrom base s → SetsFrom base (put s y) := by
    intro _ _ hs2
    unfold put
    extract_lets c
    exact hs2.setCore
  split
  · exact hput _ _ hs1
  · exact hput _ _ hs1
  · split
    rename_i s12 heq3
    have hs12 : SetsFrom base s12 := hs1.fresh.of_eq heq3
    extract_lets bs
    exact hput _ _ hs12

theorem SetsFrom.constRead {base s : State} {g rgn w lane key n : Nat} (h : SetsFrom base s) :
    FstAll (SetsFrom base) (s.constRead g rgn w lane key n) := by
  unfold State.constRead
  extract_lets r
  have hr : FstAll (SetsFrom base) r := by
    unfold r
    refine foldl_inv h ?_
    intro _ _ hs2
    split
    rename_i s1 _ _ heq
    exact hs2.fst.constGrain.of_eq heq
  exact hr.fst

theorem SetsFrom.constParts {base s : State} {g rgn w lane : Nat} {l : List Machine.Part} (h : SetsFrom base s) :
    FstAll (SetsFrom base) (s.constParts g rgn w lane l) := by
  induction l generalizing s with
  | nil =>
    rw [State.constParts]
    exact h
  | cons y l ih =>
    rw [State.constParts]
    split
    rename_i s1 _ _ heq
    have hs1 : SetsFrom base s1 := h.constRead.of_eq heq
    split
    rename_i s2 _ _ heq2
    exact (ih hs1).of_eq heq2

theorem SetsFrom.writeParts {base s : State} {w lane : Nat} {a : Machine.Acc} {l : List Machine.Part} {l2 : List Byte}
    (h : SetsFrom base s) : ExcAll (SndAll (SetsFrom base)) (SetsFrom base) (s.writeParts w lane a l l2) := by
  induction l generalizing s l2 with
  | nil =>
    rw [State.writeParts]
    exact h
  | cons y l ih =>
    rw [State.writeParts]
    split
    · exact ih h
    · split
      · rename_i e heq2
        exact of_eq (P := ExcAll (SndAll (SetsFrom base)) (SetsFrom base)) h.writeAt heq2
      · rename_i s2 heq2
        have hs2 : SetsFrom base s2 := of_eq (P := ExcAll (SndAll (SetsFrom base)) (SetsFrom base)) h.writeAt heq2
        exact ih hs2

theorem SetsFrom.pushFor {base s : State} {w : Nat} {scope : Scope} {clsAt : Bool} (h : SetsFrom base s) :
    SetsFrom base (s.pushFor w scope clsAt) := by
  unfold State.pushFor
  extract_lets s1
  have hs1 : SetsFrom base s1 := by
    unfold s1
    split
    · exact ite_inv h.writeBackAll h
    · exact h
  exact ite_inv hs1.writeBackSvc hs1

theorem SetsFrom.pullFor {base s : State} {w : Nat} {scope : Scope} (h : SetsFrom base s) : SetsFrom base (s.pullFor w scope) := by
  unfold State.pullFor
  split
  · exact ite_inv h.dropClean h
  · exact h

theorem SetsFrom.perform {base s : State} {w lane : Nat} {a : Machine.Acc} (h : SetsFrom base s) :
    OptAll (Perf.setsFrom base) (s.perform w lane a) := by
  unfold State.perform
  split
  · exact OptAll.none
  · extract_lets clsAt s0 cut done rgn clear wide
    have hs0 : SetsFrom base s0 := ite_inv h.pushFor h
    have hdone : ∀ (s : State) (y : Option (List Word)), SetsFrom base s → Perf.setsFrom base (done s y) := by
      intro _ _ hs2
      unfold done
      exact Perf.setsFrom.intro (ite_inv hs2.pullFor hs2)
    have hclear : ∀ (s : State), SetsFrom base s → SetsFrom base (clear s) := by
      intro _ hs2
      unfold clear
      exact hs2.updThread
    have hwide : SetsFrom base wide := by
      unfold wide
      split
      · exact ite_inv hs0.writeBack.dropCopy hs0
      · exact hs0
    split
    · exact OptAll.some (Perf.setsFrom.intro h)
    · exact OptAll.some (hdone _ _ hs0)
    · split
      · exact OptAll.some (hdone _ _ hs0)
      · extract_lets reserve
        have hreserve : ∀ (s : State), SetsFrom base s → SetsFrom base (reserve s) := by
          intro _ hs2
          unfold reserve
          split
          · split
            · exact hs2.updThread
            · exact hs2
          · exact hs2
        split
        · exact OptAll.some (hdone _ _ (hreserve _ hs0))
        · split
          rename_i s2 l _ heq5
          have hs2 : SetsFrom base s2 := hs0.readParts.of_eq heq5
          split
          · refine OptAll.some ?_
            extract_lets y_2
            have hy_2 : Perf.setsFrom base y_2 := hdone _ _ (hreserve _ hs2)
            exact hy_2
          · exact OptAll.some (hdone _ _ (hreserve _ hs2))
    · split
      · exact OptAll.some (hdone _ _ hs0)
      · split
        rename_i s2 l _ heq4
        have hs2 : SetsFrom base s2 := hs0.constParts.of_eq heq4
        split
        · refine OptAll.some ?_
          extract_lets y_2
          have hy_2 : Perf.setsFrom base y_2 := hdone _ _ hs2
          exact hy_2
        · exact OptAll.some (hdone _ _ hs2)
    · split
      · rename_i s1 heq3
        have hs1 : SetsFrom base s1 := of_eq (P := ExcAll (SndAll (SetsFrom base)) (SetsFrom base)) hs0.writeParts heq3
        exact OptAll.some (hdone _ _ hs1)
      · rename_i s1 heq3
        have hs1 : SetsFrom base s1 := of_eq (P := ExcAll (SndAll (SetsFrom base)) (SetsFrom base)) hs0.writeParts heq3
        exact OptAll.some (Perf.setsFrom.intro hs1)
    · split
      · split
        · split
          · exact OptAll.some (hdone _ _ (hclear _ hs0))
          · split
            · rename_i s1 heq7
              have hs1 : SetsFrom base s1 := of_eq (P := ExcAll (SndAll (SetsFrom base)) (SetsFrom base)) hs0.writeParts heq7
              exact OptAll.some (hdone _ _ (hclear _ hs1))
            · rename_i s1 heq7
              have hs1 : SetsFrom base s1 := of_eq (P := ExcAll (SndAll (SetsFrom base)) (SetsFrom base)) hs0.writeParts heq7
              exact OptAll.some (Perf.setsFrom.intro (hclear _ hs1))
        · exact OptAll.some (hdone _ _ (hclear _ hs0))
      · exact OptAll.some (hdone _ _ hs0)
    · split
      · exact OptAll.some (hdone _ _ hs0)
      · split
        rename_i s2 l _ heq9
        have hs2 : SetsFrom base s2 := hwide.readParts.of_eq heq9
        split
        · refine OptAll.some ?_
          extract_lets y_2
          have hy_2 : Perf.setsFrom base y_2 := hdone _ _ hs2
          exact hy_2
        · extract_lets old
          split
          · rename_i s1 heq10
            have hs1 : SetsFrom base s1 := of_eq (P := ExcAll (SndAll (SetsFrom base)) (SetsFrom base)) hs2.writeParts heq10
            exact OptAll.some (hdone _ _ hs1)
          · rename_i s1 heq10
            have hs1 : SetsFrom base s1 := of_eq (P := ExcAll (SndAll (SetsFrom base)) (SetsFrom base)) hs2.writeParts heq10
            exact OptAll.some (Perf.setsFrom.intro hs1)

theorem SetsFrom.passOver {before after : State} {y : Party} {b : Machine.Acc} (hafter : SetsFrom base after) :
    SetsFrom base (before.passOver after y b) := by
  unfold State.passOver
  split
  · exact hafter
  · extract_lets fix
    exact hafter

theorem SetsFrom.wakeCore {base s : State} {g : Option Nat} {b : WakeBit} (h : SetsFrom base s) : SetsFrom base (s.wakeCore g b) :=
  h.of_bystanders (State.wakeCore_bystanders ..)

theorem SetsFrom.wakeWhere {base s : State} {w : Nat} {b : WakeBit} {cond : Why → Bool} (h : SetsFrom base s) :
    SetsFrom base (s.wakeWhere w b cond) := by
  unfold State.wakeWhere
  split
  · exact h
  · rename_i x heq
    extract_lets lanes
    exact ite_inv h h.setWave.wakeCore

theorem SetsFrom.wakeAll {base s : State} {b : WakeBit} {cond : Why → Bool} (h : SetsFrom base s) : SetsFrom base (s.wakeAll b cond) := by
  unfold State.wakeAll
  exact foldl_inv h (fun _ _ hs2 => hs2.wakeWhere)

theorem SetsFrom.writeState {base s : State} {r : Nat} (h : SetsFrom base s) : SetsFrom base (s.writeState r) :=
  h.of_bystanders (State.writeState_bystanders ..)

theorem SetsFrom.signal {base s : State} {fn vector : Nat} (h : SetsFrom base s) : SetsFrom base (s.signal fn vector) := h

theorem SetsFrom.post {base s : State} {dom : Nat} {r : Rec} (h : SetsFrom base s) : FstAll (SetsFrom base) (s.post dom r) := by
  unfold State.post
  split
  · exact h
  · extract_lets key next full s1 s2
    have hs1 : SetsFrom base s1 := by
      unfold s1
      clear_value key full next
      split
      · exact h.baseWrite.updRegion
      · exact h.updRegion
    have hs2 : SetsFrom base s2 := hs1.writeState
    exact ite_inv hs2.signal hs2

theorem SetsFrom.engRec {base s : State} {rgn : Nat} {core : Option Nat} {cluster pc : Nat} {eng : Bool} {f : Flt}
    (h : SetsFrom base s) : FstAll (SetsFrom base) (s.engRec rgn core cluster pc eng f) := h

theorem SetsFrom.postEng {base s : State} {rgn : Nat} {core : Option Nat} {cluster pc : Nat} {f : Flt} (h : SetsFrom base s) :
    SetsFrom base (s.postEng rgn core cluster pc f) := by
  unfold State.postEng
  split
  rename_i s1 _ heq
  have hs1 : SetsFrom base s1 := h.engRec.of_eq heq
  exact hs1.post.fst

theorem SetsFrom.postEvent {base s : State} {dom rgn : Nat} {f : Flt} (h : SetsFrom base s) : SetsFrom base (s.postEvent dom rgn f) := by
  unfold State.postEvent
  split
  rename_i s1 heq
  have hs1 : SetsFrom base s1 := h.fresh.of_eq heq
  split
  rename_i s12 _ heq2
  have hs12 : SetsFrom base s12 := hs1.engRec.of_eq heq2
  exact hs12.post.fst

theorem SetsFrom.pushRegion {base s : State} {r : Nat} (h : SetsFrom base s) : SetsFrom base (s.pushRegion r) :=
  h.of_bystanders (State.pushRegion_bystanders ..)

theorem SetsFrom.raiseDone {base s : State} {r : Nat} (h : SetsFrom base s) : SetsFrom base (s.raiseDone r) :=
  h.of_bystanders (State.raiseDone_bystanders ..)

theorem SetsFrom.owe {base s : State} {w : Nat} (h : SetsFrom base s) : SetsFrom base (s.owe w) := by
  unfold State.owe
  split
  · rename_i x _ heq _
    extract_lets c n y_2
    have hy_2 : SetsFrom base y_2 := h.setCore
    exact hy_2
  · exact h

theorem SetsFrom.performKept {base s : State} {e : Pend} (h : SetsFrom base s) : SetsFrom base (s.performKept e) := by
  unfold State.performKept
  split
  · rename_i p heq
    have hp : Perf.setsFrom base p := h.perform _ heq
    exact hp.s.updThread
  · exact h

theorem SetsFrom.flushWave {base s : State} {w : Nat} {x : Wave} (h : SetsFrom base s) : SetsFrom base (s.flushWave w x) := by
  unfold State.flushWave
  refine foldl_inv h ?_
  intro _ _ hs2
  split
  · split
    · exact hs2
    · exact foldl_inv hs2 (fun _ _ hs3 => hs3.performKept)
  · exact hs2

theorem SetsFrom.clearEngines {base s : State} {cluster : Nat} {members : List Nat} (h : SetsFrom base s) :
    SetsFrom base (s.clearEngines cluster members) := by
  unfold State.clearEngines
  refine foldl_inv h ?_
  intro _ _ hs2
  extract_lets g c none_ y e
  exact hs2.setCore

theorem SetsFrom.spoilBin {base s : State} {b : BinDesc} (h : SetsFrom base s) : SetsFrom base (s.spoilBin b) := by
  unfold State.spoilBin
  refine foldl_inv h ?_
  intro _ _ hs2
  split
  · split
    rename_i s1 heq2
    have hs1 : SetsFrom base s1 := hs2.fresh.of_eq heq2
    exact hs1.baseWrite
  · exact hs2

theorem SetsFrom.countFwd {base s : State} (h : SetsFrom base s) : SetsFrom base s.countFwd := by
  unfold State.countFwd
  extract_lets keep
  exact ite_inv h h

theorem SetsFrom.discardWork {base s : State} {rs : List Nat} (h : SetsFrom base s) : SetsFrom base (s.discardWork rs) := by
  unfold State.discardWork
  extract_lets mine dead s1 s2 s2b s3 cluster
  have hs1 : SetsFrom base s1 := foldl_inv h (fun _ _ hs4 => hs4.flushWave.owe)
  have hs2 : SetsFrom base s2 := foldl_inv hs1 (fun _ _ hs4 => hs4.wakeCore)
  have hs2b : SetsFrom base s2b := foldl_inv hs2 (fun _ _ hs4 => hs4.spoilBin)
  have hs3 : SetsFrom base s3 := foldl_inv hs2b (fun _ _ hs4 => hs4.clearEngines)
  exact SetsFrom.countFwd hs3

theorem SetsFrom.raiseResc {base s : State} {i : Nat} (h : SetsFrom base s) : SetsFrom base (s.raiseResc i) :=
  h.of_bystanders (State.raiseResc_bystanders ..)

theorem SetsFrom.clearWindow {base s : State} {i : Nat} (h : SetsFrom base s) : SetsFrom base (s.clearWindow i) := h

theorem SetsFrom.resolveNone {base s : State} {i : Nat} (h : SetsFrom base s) : SetsFrom base (s.resolveNone i) := by
  unfold State.resolveNone
  extract_lets x live s1
  have hs1 : SetsFrom base s1 := h.updSet (fun _ _ => rfl)
  exact ite_inv (SetsFrom.wakeAll (SetsFrom.raiseResc (SetsFrom.clearWindow hs1))) h

theorem SetsFrom.stopRegions {base s : State} {rs : List Nat} (h : SetsFrom base s) : SetsFrom base (s.stopRegions rs) := by
  unfold State.stopRegions
  exact foldl_inv h (fun _ _ hs2 => hs2.updRegion)

theorem SetsFrom.squashFacets {base s : State} {i mask : Nat} (h : SetsFrom base s) : SetsFrom base (s.squashFacets i mask) := by
  unfold State.squashFacets
  extract_lets x fs rs s1 s2 s3
  have hs1 : SetsFrom base s1 := h.discardWork
  have hs2 : SetsFrom base s2 := hs1.updSet (fun _ hst => hst)
  have hs3 : SetsFrom base s3 := hs2
  exact hs3.stopRegions.resolveNone

theorem SetsFrom.squashWaiting {base s : State} {rs : List Nat} (h : SetsFrom base s) : SetsFrom base (s.squashWaiting rs) := by
  unfold State.squashWaiting
  extract_lets hit mark
  exact SetsFrom.stopRegions h

theorem SetsFrom.squashKilled {base s : State} {rs : List Nat} (h : SetsFrom base s) : SetsFrom base (s.squashKilled rs) := by
  unfold State.squashKilled
  refine foldl_inv h.squashWaiting ?_
  intro _ _ hs2
  extract_lets x live fs
  exact ite_inv (ite_inv hs2.squashFacets (ite_inv hs2 hs2.squashFacets)) hs2

theorem SetsFrom.killRegion {base s : State} {r : Nat} (h : SetsFrom base s) : SetsFrom base (s.killRegion r) := by
  unfold State.killRegion
  extract_lets rs s1
  have hs1 : SetsFrom base s1 := h.squashKilled.discardWork
  exact foldl_inv hs1 (fun _ _ hs2 => SetsFrom.writeState (SetsFrom.raiseDone hs2.pushRegion.updRegion))

theorem SetsFrom.overflowAction {base s : State} {rgn : Nat} (h : SetsFrom base s) : SetsFrom base (s.overflowAction rgn) := by
  unfold State.overflowAction
  split
  · exact h
  · exact ite_inv h.squashFacets h.squashFacets

theorem SetsFrom.fixTurn {base s : State} {w : Nat} (h : SetsFrom base s) : SetsFrom base (s.fixTurn w) := h

theorem SetsFrom.deliverThread {base s : State} {w lane rgn : Nat} {code sub : BitVec 8} (h : SetsFrom base s) :
    SetsFrom base (s.deliverThread w lane rgn code sub) := by
  unfold State.deliverThread
  exact h.updThread.fixTurn.wakeCore

theorem SetsFrom.replayThread {base s : State} {w lane : Nat} (h : SetsFrom base s) : SetsFrom base (s.replayThread w lane) := by
  unfold State.replayThread
  exact h.updThread.fixTurn.wakeCore

theorem SetsFrom.domainAct {base s : State} {w lane rgn : Nat} {code sub : BitVec 8} {marked : Bool} (h : SetsFrom base s) :
    SetsFrom base (s.domainAct w lane rgn code sub marked) := by
  unfold State.domainAct
  split
  · exact h.overflowAction
  · split
    · exact ite_inv h.deliverThread (ite_inv h.replayThread h.killRegion)
    · exact h
    · exact h.killRegion

theorem SetsFrom.doAct {base s : State} {y : DomAct} (h : SetsFrom base s) : SetsFrom base (s.doAct y) := by
  unfold State.doAct
  split
  · exact h.domainAct
  · exact h.killRegion

theorem SetsFrom.act {base s : State} {a : DomAct} (h : SetsFrom base s) : SetsFrom base (s.act a) := by
  unfold State.act
  split
  · exact h
  · exact h.doAct

theorem SetsFrom.dataError {base s : State} {rgn key : Nat} (h : SetsFrom base s) : SetsFrom base (s.dataError rgn key) := by
  unfold State.dataError
  extract_lets s1
  have hs1 : SetsFrom base s1 := h.postEvent
  split
  · exact hs1
  · exact hs1
  · exact hs1.act

theorem SetsFrom.walkError {base s : State} {rgn : Nat} {f : Flt} (h : SetsFrom base s) : SetsFrom base (s.walkError rgn f) := by
  unfold State.walkError
  split
  · exact h.dataError
  · exact h

theorem SetsFrom.takeFault {base s : State} {w lane : Nat} {pc : DWord} {f : Flt} (h : SetsFrom base s) :
    SetsFrom base (s.takeFault w lane pc f) := by
  unfold State.takeFault
  split
  · split
    rename_i s1 _ heq3
    have hs1 : SetsFrom base s1 := h.post.of_eq heq3
    extract_lets s2
    have hs2 : SetsFrom base s2 := hs1.updThread.fixTurn.act
    exact hs2.walkError
  · exact h

theorem SetsFrom.feedWake {base s : State} {w : Nat} {a : Machine.Acc} (h : SetsFrom base s) : SetsFrom base (s.feedWake w a) := by
  unfold State.feedWake
  split
  · exact h
  · exact h.wakeWhere

theorem SetsFrom.releaseLast {base s : State} {w lane id : Nat} (h : SetsFrom base s) : SetsFrom base (s.releaseLast w lane id) := by
  unfold State.releaseLast
  extract_lets s1
  have hs1 : SetsFrom base s1 := by
    unfold s1
    split
    · exact h
    · exact foldl_inv h (fun _ _ hs2 => foldl_inv hs2 (fun _ _ hs3 => hs3.performKept))
  exact hs1.pushFor

theorem SetsFrom.performRaw {base s : State} {w lane : Nat} {a : Machine.Acc} (h : SetsFrom base s) :
    OptAll (SetsFrom base) (s.performRaw w lane a) := by
  unfold State.performRaw
  split
  · exact OptAll.some h
  · extract_lets ahead s0 rgn
    have hs0 : SetsFrom base s0 := ite_inv h.updThread h
    refine OptAll.map (P := Perf.setsFrom base) hs0.perform ?_
    intro _ hp
    extract_lets done s1 s2 s3
    have hs1 : SetsFrom base s1 := hp.s.updThread.feedWake
    have hs2 : SetsFrom base s2 := ite_inv hs1.passOver hs1
    have hs3 : SetsFrom base s3 := by
      unfold s3
      split
      · exact hs2.dataError
      · exact hs2
    split
    · exact hs3.releaseLast.takeFault
    · exact hs3

theorem SetsFrom.forceIn {base s : State} {y : Party} {scope : Scope} {n : Nat} (h : SetsFrom base s) :
    OptAll (SetsFrom base) (s.forceIn y scope n) := by
  induction n generalizing s y scope with
  | zero =>
    rw [State.forceIn]
    exact OptAll.some h
  | succ n ih =>
    rw [State.forceIn]
    refine foldl_inv (OptAll.some h) ?_
    intro _ _ hs2
    refine OptAll.bind (P := (SetsFrom base)) hs2 ?_
    intro _ hs1
    refine OptAll.map (P := (SetsFrom base)) ?_ (fun _ hs12 => foldl_inv hs12 (fun _ _ hs3 => hs3.pushFor))
    refine foldl_inv (OptAll.some hs1) ?_
    intro _ _ hs3
    refine OptAll.bind (P := (SetsFrom base)) hs3 ?_
    intro _ hs12
    beta_reduce
    split
    · exact OptAll.some hs12
    · rename_i a3 heq
      exact (ite_inv (OptAll.some hs12) (ih hs12)).bind (fun _ hs13 => hs13.performRaw)

theorem SetsFrom.force {base s : State} {y : Party} {scope : Scope} (h : SetsFrom base s) : OptAll (SetsFrom base) (s.force y scope) := by
  unfold State.force
  exact h.forceIn

theorem SetsFrom.performOne {base s : State} {w lane : Nat} {a : Machine.Acc} (h : SetsFrom base s) :
    OptAll (SetsFrom base) (s.performOne w lane a) := by
  unfold State.performOne
  exact ite_inv h.performRaw (h.force.bind (fun _ hs1 => hs1.performRaw))

theorem SetsFrom.performList {base s : State} {l : List (Nat × Nat × Nat)} (h : SetsFrom base s) : OptAll (SetsFrom base) (s.performList l) := by
  induction l generalizing s with
  | nil =>
    rw [State.performList]
    exact OptAll.some h
  | cons e l ih =>
    rw [State.performList]
    split
    · exact ih h
    · rename_i a heq
      exact h.performOne.bind (fun _ hs1 => ih hs1)

theorem SetsFrom.serveOne {base s : State} {k : Nat} {q : SvcReq} (h : SetsFrom base s) : OptAll (SetsFrom base) (s.serveOne k q) := by
  unfold State.serveOne
  refine OptAll.map (P := (SetsFrom base)) h.performList ?_
  intro _ hs1
  extract_lets c
  exact hs1.setCluster

theorem SetsFrom.performElem {base s : State} {e : Nat × Nat × Nat} (h : SetsFrom base s) : OptAll (SetsFrom base) (s.performElem e) := by
  unfold State.performElem
  extract_lets k q
  exact ite_inv (foldl_inv (OptAll.some h) (fun _ _ hs2 => hs2.bind (fun _ hs1 => hs1.serveOne))) h.performList

theorem SetsFrom.performUpTo {base s : State} {w lane id : Nat} (h : SetsFrom base s) : OptAll (SetsFrom base) (s.performUpTo w lane id) := by
  unfold State.performUpTo
  exact foldl_inv (OptAll.some h) (fun _ _ hs2 => hs2.bind (fun _ hs1 => hs1.performElem))

theorem SetsFrom.engRecord {base s : State} {e : EngOf} {f : Flt} (h : SetsFrom base s) : SetsFrom base (s.engRecord e f) := by
  unfold State.engRecord
  exact h.postEng

theorem SetsFrom.engFull {base s : State} {e : EngOf} {va : Nat} (h : SetsFrom base s) : SetsFrom base (s.engFull e va) := by
  unfold State.engFull
  exact h.engRecord.overflowAction

theorem SetsFrom.raiseCtr {base s : State} {e : EngOf} {key : Nat} {va : Option Nat} {refused : Option Flt} (h : SetsFrom base s) :
    SetsFrom base (s.raiseCtr e key va refused) := by
  unfold State.raiseCtr
  extract_lets tag
  split
  · exact h
  · split
    · exact h.engRecord
    · split
      · exact h
      · split
        · exact h.dataError
        · split
          · rename_i s1 heq5
            exact of_eq (P := ExcAll (SndAll (SetsFrom base)) (SetsFrom base)) h.homeWrite heq5
          · rename_i s1 heq5
            have hs1 : SetsFrom base s1 := of_eq (P := ExcAll (SndAll (SetsFrom base)) (SetsFrom base)) h.homeWrite heq5
            exact hs1.engFull

theorem SetsFrom.ctrFlush {base s : State} {rs : List Nat} (h : SetsFrom base s) : SetsFrom base (s.ctrFlush rs) := by
  unfold State.ctrFlush
  exact foldl_inv h (fun _ _ hs2 => hs2.raiseCtr)

theorem SetsFrom.dropFrames {base s : State} {frames : List Nat} (h : SetsFrom base s) : OptAll (SetsFrom base) (s.dropFrames frames) := by
  unfold State.dropFrames
  extract_lets keep mine served
  split
  · exact OptAll.none
  · refine OptAll.map (P := (SetsFrom base)) (foldl_inv (OptAll.some h) (fun _ _ hs2 => hs2.bind (fun _ hs1 => hs1.performUpTo))) ?_
    intro _ hs1
    extract_lets s2
    have hs2 : SetsFrom base s2 := by
      unfold s2
      exact hs1
    exact foldl_inv hs2 (fun _ _ hs3 => hs3.dropWhere)
end Sys2Proof
end

section
/-! PROOFS. `commit`, `squash` and the events of a facet set (O50, R319 to R330). -/

namespace Sys2Proof.Machine

open Sys2Proof

/-! ### Handles, `commit` and `squash` -/

section

variable {r r1 : State} {rgn h : Nat}

theorem State.handleCheck_foreign (hused : (r.sets.getD (h % 4) .fresh).used = true)
    (hroot : r.rootOf rgn ≠ (r.sets.getD (h % 4) .fresh).root) : r.handleCheck rgn h = .fault { code := 5, sub := 0x0D } :=
  if_pos (by simp only [hused, Bool.true_and, bne_iff_ne]; exact hroot)

theorem State.handleCheck_closed (hroot : r.rootOf rgn = (r.sets.getD (h % 4) .fresh).root)
    (hold : h / 65536 ≠ (r.sets.getD (h % 4) .fresh).gen.toNat ∨ (r.sets.getD (h % 4) .fresh).st ≠ .opened) :
    r.handleCheck rgn h = .closed :=
  (if_neg (by simp [hroot])).trans (if_pos hold)

theorem State.handleCheck_ok (hroot : r.rootOf rgn = (r.sets.getD (h % 4) .fresh).root)
    (hgen : h / 65536 = (r.sets.getD (h % 4) .fresh).gen.toNat) (hst : (r.sets.getD (h % 4) .fresh).st = .opened) :
    r.handleCheck rgn h = .ok (h % 4) (r.sets.getD (h % 4) .fresh) :=
  (if_neg (by simp [hroot])).trans (if_neg (not_or.mpr ⟨not_not.mpr hgen, not_not.mpr hst⟩))

variable {c : Ctx} {l i : Nat} {x : FSet} {t : Thread}

theorem State.commitLane_closed (hc : r.handleCheck c.x.rgn (c.a l) = .closed) : r.commitLane c l = .ok r [1] := by
  unfold State.commitLane
  simp only [hc]

theorem State.squashLane_closed (hc : r.handleCheck c.x.rgn (c.a l) = .closed) : r.squashLane c l = .ok r [1] := by
  unfold State.squashLane
  simp only [hc]

section

variable (hc : r.handleCheck c.x.rgn (c.a l) = .ok i x)
include hc

theorem State.commitLane_illFormed (hw : c.facetArg l = 0 ∨ 7 < c.facetArg l) :
    r.commitLane c l = .fault r { code := 0x0E, sub := 6 } := by
  unfold State.commitLane
  simp only [hc, if_pos hw]

theorem State.commitLane_gone (h0 : 0 < c.facetArg l) (h7 : c.facetArg l ≤ 7)
    (hgone : x.facets.length < c.facetArg l ∨ x.isSquashed (c.facetArg l) = true) : r.commitLane c l = .ok r [1] := by
  unfold State.commitLane
  simp only [hc, if_neg (show ¬(c.facetArg l = 0 ∨ 7 < c.facetArg l) by omega), if_pos hgone]

theorem State.commitLane_begins (h0 : 0 < c.facetArg l) (hn : c.facetArg l ≤ x.facets.length) (h7 : c.facetArg l ≤ 7)
    (hlive : x.isSquashed (c.facetArg l) = false) (hbegin : r.beginCommit i (c.facetArg l) x = r1)
    (ht : r1.thread? c.w l = some t) : r.commitLane c l = .block r1 (.commit i c.e.f.d c.npc) := by
  have hgo : ¬(x.facets.length < c.facetArg l ∨ x.isSquashed (c.facetArg l) = true) := by
    simpa [hlive] using hn
  unfold State.commitLane
  simp only [hc, if_neg (show ¬(c.facetArg l = 0 ∨ 7 < c.facetArg l) by omega), if_neg hgo, hbegin, ht]

theorem State.squashLane_illFormed (hw : c.facetArg l % 2 = 1 ∨ 2 ^ (x.facets.length + 1) ≤ c.facetArg l) :
    r.squashLane c l = .fault r { code := 0x0E, sub := 6 } := by
  unfold State.squashLane
  simp only [hc, if_pos hw]

theorem State.squashLane_done (heven : c.facetArg l % 2 = 0) (hlt : c.facetArg l < 2 ^ (x.facets.length + 1))
    (ht : (r.squashFacets i (c.facetArg l)).thread? c.w l = some t) :
    r.squashLane c l = .ok (r.squashFacets i (c.facetArg l)) [0] := by
  unfold State.squashLane
  simp only [hc, if_neg (show ¬(c.facetArg l % 2 = 1 ∨ 2 ^ (x.facets.length + 1) ≤ c.facetArg l) by omega), ht]

end

end

/-! ### Publication (R330) -/

/-- A result of a lane changes no thread but that lane's. -/
theorem Wave.putDst_threads_ne (x : Wave) {l k : Nat} (o : Operand) (ws : List Word) (h : l ≠ k) :
    (x.putDst l o ws).threads[k]? = x.threads[k]? := by
  unfold Wave.putDst
  split
  · rfl
  · rfl
  · rw [Wave.updThread_thread]
    simp [h]

/-- A result leaves its lane's thread at its place, in its state. -/
theorem Wave.putDst_threads {x : Wave} {l : Nat} {t : Thread} (o : Operand) (ws : List Word) (ht : x.threads[l]? = some t) :
    ∃ v, (x.putDst l o ws).threads[l]? = some v ∧ v.st = t.st ∧ v.pc = t.pc := by
  unfold Wave.putDst
  split
  · exact ⟨t, ht, rfl, rfl⟩
  · exact ⟨t, ht, rfl, rfl⟩
  · refine ⟨t.putDst x.unit o ws, ?_, Thread.putDst_st .., Thread.putDst_pc ..⟩
    rw [Wave.updThread_thread, ht]
    simp

/-- One lane of a wave receives status 0, where it is committing the set. -/
def Wave.commitStep (i : Nat) (y : Wave) (l : Nat) : Wave :=
  match (y.threads[l]?).bind (Thread.committed i) with
  | some (d, t) => ({ y with threads := y.threads.set l t } : Wave).putDst l d [0]
  | none => y

theorem Wave.committed_eq (x : Wave) (i : Nat) :
    x.committed i = ((List.range x.threads.length).foldl (Wave.commitStep i) x).fixTurn := rfl

theorem Wave.commitStep_threads_ne (x : Wave) {i l k : Nat} (h : l ≠ k) :
    (x.commitStep i l).threads[k]? = x.threads[k]? := by
  unfold Wave.commitStep
  split
  · rw [Wave.putDst_threads_ne _ _ _ h]
    exact List.getElem?_set_ne h
  · rfl

/-- The lane runs from a place on. -/
def Wave.RunsAt (k : Nat) (pc : DWord) (x : Wave) : Prop := ∃ v, x.threads[k]? = some v ∧ v.st = .running ∧ v.pc = pc

theorem Wave.commitStep_runsAt {x : Wave} {i k l : Nat} {pc : DWord} (h : x.RunsAt k pc) : (x.commitStep i l).RunsAt k pc := by
  obtain ⟨v, hv, hst, hpc⟩ := h
  by_cases hl : l = k
  · subst hl
    have : (x.threads[l]?).bind (Thread.committed i) = none := by
      rw [hv, Option.bind_some, Thread.committed, hst]
    exact ⟨v, by rw [Wave.commitStep, this]; exact hv, hst, hpc⟩
  · exact ⟨v, (x.commitStep_threads_ne hl).trans hv, hst, hpc⟩

theorem Wave.commitStep_commits {x : Wave} {i k : Nat} {t : Thread} {d : Operand} {pc : DWord} (ht : x.threads[k]? = some t)
    (hst : t.st = .blocked (.commit i d pc)) : (x.commitStep i k).RunsAt k pc := by
  have hcommit : (x.threads[k]?).bind (Thread.committed i) = some (d, { t.countWindow with st := .running, pc := pc }) := by
    rw [ht, Option.bind_some, Thread.committed, hst]
    exact if_pos rfl
  have hk : k < x.threads.length := (List.getElem?_eq_some_iff.1 ht).1
  unfold Wave.commitStep
  rw [hcommit]
  exact Wave.putDst_threads (x := { x with threads := x.threads.set k { t.countWindow with st := .running, pc := pc } }) d [0]
    (List.getElem?_set_self hk)

/-- Whichever lanes are served before and after it, a committing lane goes on behind its `commit` (R330). -/
theorem Wave.foldl_commitStep {i k : Nat} {t : Thread} {d : Operand} {pc : DWord} (hst : t.st = .blocked (.commit i d pc))
    (ls : List Nat) {x : Wave} (ht : x.threads[k]? = some t) (hk : k ∈ ls) : (ls.foldl (Wave.commitStep i) x).RunsAt k pc := by
  induction ls generalizing x with
  | nil => cases hk
  | cons l ls ih =>
    rw [List.foldl_cons]
    by_cases hl : l = k
    · subst hl
      exact foldl_keeps (Wave.RunsAt l pc) _ (fun x _ => Wave.commitStep_runsAt) ls (Wave.commitStep_commits ht hst)
    · exact ih ((x.commitStep_threads_ne hl).trans ht) ((List.mem_cons.1 hk).resolve_left (Ne.symm hl))

theorem Wave.committed_runsAt {x : Wave} {i k : Nat} {t : Thread} {d : Operand} {pc : DWord} (ht : x.threads[k]? = some t)
    (hst : t.st = .blocked (.commit i d pc)) : (x.committed i).RunsAt k pc := by
  have hk : k < x.threads.length := (List.getElem?_eq_some_iff.1 ht).1
  obtain ⟨v, hv, hrun⟩ := Wave.foldl_commitStep hst (List.range x.threads.length) ht (List.mem_range.2 hk)
  rw [Wave.committed_eq]
  exact ⟨v, by rw [Wave.fixTurn_threads]; exact hv, hrun⟩

theorem Wave.commits_of_blocked {x : Wave} {i k : Nat} {t : Thread} {d : Operand} {pc : DWord} (ht : x.threads[k]? = some t)
    (hst : t.st = .blocked (.commit i d pc)) : x.commits i = true := by
  refine List.any_eq_true.2 ⟨t, List.mem_of_getElem? ht, ?_⟩
  rw [Thread.committed, hst]
  simp

theorem State.clearWindow_bystanders (s : State) (i : Nat) : (s.clearWindow i).bystanders = s.bystanders := by
  unfold State.clearWindow
  extract_lets fs drop
  have hdrop (t : Thread) : (drop t).bare = t.bare := by
    unfold drop
    split
    · split <;> rfl
    · rfl
  simp only [State.bystanders, List.map_map, Function.comp_def, Wave.bare, hdrop]

/-- Where the winner's regions hold no counter back, publication raises none. -/
theorem State.ctrFlush_none {s : State} {rs : List Nat} (h : ∀ c ∈ s.ctrHeld, c.rgn ∉ rs) :
    s.ctrFlush rs = { s with ctrHeld := s.ctrHeld.filter fun c => !rs.contains c.rgn } := by
  have hnone : (s.ctrHeld.filter fun c => rs.contains c.rgn) = [] := by
    simpa [List.filter_eq_nil_iff] using h
  unfold State.ctrFlush
  rw [hnone]
  rfl

theorem SetsFrom.wakeCores {base s : State} (ws : NMap Wave) (b : WakeBit) (h : SetsFrom base s) :
    SetsFrom base (ws.foldl (fun s e => s.wakeCore (coreOfWave e.1) b) s) :=
  foldl_keeps (SetsFrom base) _ (fun _ _ hs => hs.wakeCore) ws h

theorem State.thread?_wakeCores (s : State) (ws : NMap Wave) (b : WakeBit) (w l : Nat) :
    (ws.foldl (fun s e => s.wakeCore (coreOfWave e.1) b) s).thread? w l = s.thread? w l :=
  foldl_same (fun s : State => s.thread? w l) (fun s (e : Nat × Wave) => s.wakeCore (coreOfWave e.1) b)
    (fun _ _ => State.thread?_wakeCore ..) ws s

/-- A committing thread runs behind its `commit` once its wave is served. -/
theorem Wave.served_runsAt {x : Wave} {i k : Nat} {t : Thread} {d : Operand} {pc : DWord} (ht : x.threads[k]? = some t)
    (hst : t.st = .blocked (.commit i d pc)) : (if x.commits i then x.committed i else x).RunsAt k pc := by
  rw [if_pos (Wave.commits_of_blocked ht hst)]
  exact Wave.committed_runsAt ht hst

theorem commitPublish_publishes {s r : State} {n : Nat} {x : FSet} (hx : s.sets[n]? = some x) (hst : x.st = .resolving)
    (hdrain : s.drainWinner x = some r) (hres : (r.sets[n]?).map FSet.st = some .resolving) (hbusy : r.commitBusy x = false) :
    ∃ t, execCommitPublish n s = .next t ∧ (t.sets[n]?).map FSet.st = some .retiring ∧
      ∀ (w l : Nat) (u : Thread) (d : Operand) (npc : DWord), r.thread? w l = some u → u.st = .blocked (.commit n d npc) →
        (∀ h ∈ r.ctrHeld, h.rgn ∉ r.winnerRegions x) → ∃ v, t.thread? w l = some v ∧ v.st = .running ∧ v.pc = npc := by
  obtain ⟨y, hy, hyst⟩ := Option.map_eq_some_iff.1 hres
  have hhere : (s.sets[n]?).filter (fun x => decide (x.st = .resolving)) = some x := by simp [hx, hst]
  have hgo : ¬(decide ((r.sets.getD n .fresh).st ≠ .resolving) || r.commitBusy x) = true := by
    simp [List.getD, hy, hyst, hbusy]
  unfold execCommitPublish
  rw [hhere]
  dsimp -zeta only
  rw [hdrain]
  dsimp -zeta only
  rw [if_neg hgo]
  extract_lets rs won old s1 s2 woken s3
  have hold : old.bystanders = r.bystanders :=
    (foldl_same State.bystanders _ (fun _ _ => State.noteConst_bystanders ..) won _).trans
      (foldl_same State.bystanders _ State.pushRegion_bystanders rs r)
  have haround : old.around = r.around :=
    (foldl_same State.around _ (fun _ _ => State.noteConst_around ..) won _).trans
      (foldl_same State.around _ State.pushRegion_around rs r)
  have hctr : old.ctrHeld = r.ctrHeld := State.ctrHeld_of_around haround
  refine ⟨_, rfl, ?_, fun w l u d npc hu hust hnone => ?_⟩
  · have hs1 : s1.sets[n]? = some { y with st := .retiring } := by
      change (old.sets.modify n _)[n]? = _
      rw [List.getElem?_modify, State.sets_of_bystanders hold, hy]
      simp
    have hflushed : SetsFrom s1 ((s1.ctrFlush rs).releasePresents rs) := (SetsFrom.refl s1).ctrFlush.of_sets rfl
    have hs2 : SetsFrom s1 s2 := hflushed.raiseResc
    obtain ⟨z, hz, hzst⟩ := (SetsFrom.wakeCores woken .sync (s := s3) hs2).2 n _ hs1 rfl
    rw [hz, Option.map_some, hzst]
  · have hs1 : s1.bystanders = (old.updSet n fun y => { y with st := .retiring }).bystanders :=
      State.clearWindow_bystanders ..
    have hs2 : s2.bystanders = s1.bystanders := by
      have hflush : s1.ctrFlush rs = _ := State.ctrFlush_none fun c hc => hnone c (hctr ▸ hc)
      unfold s2
      rw [State.raiseResc_bystanders, hflush]
      rfl
    obtain ⟨u1, hu1, hbare1⟩ := State.thread?_of_bystanders hold hu
    obtain ⟨u2, hu2, hbare2⟩ := State.thread?_of_bystanders (hs2.trans hs1) (u := u1) hu1
    have hust2 : u2.st = .blocked (.commit n d npc) :=
      (congrArg Thread.st (hbare2.trans hbare1) : u2.bare.st = u.bare.st).trans hust
    obtain ⟨z, hz, hzl⟩ := Option.bind_eq_some_iff.1 hu2
    obtain ⟨v, hv, hrun⟩ := Wave.served_runsAt hzl hust2
    refine ⟨v, ?_, hrun⟩
    rw [State.thread?_wakeCores, ← hv]
    have hfind := NMap.find_mapVal (fun x : Wave => if x.commits n then x.committed n else x) s2.waves w
    rw [hz] at hfind
    exact State.thread?_of_find (r := s3) hfind

/-! ### Opening and the end of the prefix (R320, R321) -/

/-- The tables of facet sets: the prism launches that wait, and the sets. -/
def State.books (s : State) : List PrismReq × List FSet := (s.prisms, s.sets)

theorem State.books_eq {s t : State} (ha : t.around = s.around) (hb : t.bystanders = s.bystanders) : t.books = s.books := by
  unfold State.books
  rw [State.prisms_of_around ha, State.sets_of_bystanders hb]

theorem State.putNum_books (s : State) (key n v : Nat) : (s.putNum key n v).books = s.books :=
  State.books_eq (State.putNum_around ..) (State.putNum_bystanders ..)

theorem State.writeState_books (s : State) (r : Nat) : (s.writeState r).books = s.books :=
  State.books_eq (State.writeState_around ..) (State.writeState_bystanders ..)

theorem State.bindFacet_books (s : State) (r tag : Nat) : (s.bindFacet r tag).books = s.books :=
  State.writeState_books ..

theorem State.tryReady_books (s : State) (r : Nat) : (s.tryReady r).books = s.books := by
  unfold State.tryReady
  split
  · rfl
  · split
    · rfl
    · split
      · exact State.writeState_books ..
      · rfl
      · rfl

theorem FSet.allMask_pos {x : FSet} (h : x.facets ≠ []) : 0 < x.allMask := by
  have hlen : 1 ≤ x.facets.length := List.length_pos_iff.2 h
  have hpow : 2 ^ 2 ≤ 2 ^ (x.facets.length + 1) := Nat.pow_le_pow_right (by decide) (by omega)
  unfold FSet.allMask
  omega

/-- A set none of whose facets is squashed does not resolve without a winner. -/
theorem State.resolveNone_live {s : State} {i : Nat} {y : FSet} (hy : s.sets[i]? = some y) (hsq : y.squashed = 0)
    (hf : y.facets ≠ []) : s.resolveNone i = s := by
  have hget : s.sets.getD i .fresh = y := by rw [List.getD_eq_getElem?_getD, hy]; rfl
  have hmask : y.allMask &&& y.squashed.toNat ≠ y.allMask := by
    rw [hsq]
    simpa using (FSet.allMask_pos hf).ne
  unfold State.resolveNone
  rw [hget]
  exact if_neg fun h => hmask h.2

/-- SET_OPEN takes a launch none of whose facets has gone (R321). -/
theorem setOpen_opens {s r : State} {m n : Nat} {p : PrismReq} {x : FSet} (hp : s.prisms[m]? = some p)
    (hx : s.sets[n]? = some x) (hfree : x.st = .free)
    (happart : ∀ y ∈ s.sets, y.st ≠ .free → ∀ f ∈ y.frames, f ∉ s.winFrames (s.fnOf p.preRgn) p.wins)
    (hdrop : s.dropFrames (s.winFrames (s.fnOf p.preRgn) p.wins) = some r) (hsame : r.prisms = s.prisms) (hgone : p.gone = 0)
    (hfacets : p.facets ≠ []) :
    ∃ t, execSetOpen m n s = .next t ∧ t.prisms = s.prisms.eraseIdx m ∧
      ∃ y, t.sets[n]? = some y ∧ y.st = .prefixing ∧ y.gen = x.gen + 1 ∧ y.preRgn = p.preRgn ∧ y.facets = p.facets ∧
        y.frames = s.winFrames (s.fnOf p.preRgn) p.wins ∧ y.squashed = 0 := by
  have hlen : n < r.sets.length := by
    obtain ⟨hsets, -⟩ : SetsFrom s r := (SetsFrom.refl s).dropFrames r hdrop
    exact hsets ▸ (List.getElem?_eq_some_iff.1 hx).1
  unfold execSetOpen
  rw [hp, hx]
  dsimp -zeta only
  extract_lets frames taken gen
  have htaken : taken = false := by
    simp only [taken, List.any_eq_false, Bool.and_eq_true, decide_eq_true_eq, List.any_eq_true, List.contains_iff_mem]
    rintro y hy ⟨hst, f, hf, hmem⟩
    exact happart y hy hst f hf hmem
  rw [if_neg (by simp [hfree, htaken]), hdrop]
  dsimp -zeta only
  extract_lets gone y s1 s2 s3
  have hzero : gone = 0 := by
    unfold gone
    rw [hsame, hp]
    exact hgone
  have hbooks : (s3.tryReady p.preRgn).books = s1.books := by
    refine (State.tryReady_books ..).trans ?_
    refine (foldl_same State.books _ (fun s e => State.bindFacet_books ..) _ _).trans ?_
    exact (State.bindFacet_books ..).trans (State.putNum_books ..)
  have hset : (s3.tryReady p.preRgn).sets[n]? = some y := by
    rw [show (s3.tryReady p.preRgn).sets = s1.sets from congrArg Prod.snd hbooks]
    exact List.getElem?_set_self hlen
  have hsq : y.squashed = 0 := by
    unfold y
    rw [hzero]
    rfl
  refine ⟨_, rfl, ?_⟩
  rw [State.resolveNone_live hset hsq hfacets]
  refine ⟨?_, y, hset, rfl, rfl, rfl, rfl, rfl, hsq⟩
  rw [show (s3.tryReady p.preRgn).prisms = s1.prisms from congrArg Prod.fst hbooks, ← hsame]

theorem prefixEnd_ends {s : State} {n : Nat} {x : FSet} {r : Region} (hx : s.sets[n]? = some x) (hst : x.st = .prefixing)
    (hr : s.region? x.preRgn = some r) (hdone : r.st = .ended ∨ r.st = .running ∧ s.regionDone x.preRgn r = true) :
    execPrefixEnd n s = .next (x.facets.foldl (fun s f => s.tryReady f)
      ((s.pushRegion x.preRgn).updSet n fun y => { y with st := .opened })) := by
  unfold execPrefixEnd
  simp only [hx, hr]
  exact if_pos (by simpa [hst] using hdone)

/-! ### Retirement (R320, R325) -/

/-- The winner's version of a sector becomes base. -/
def State.makeBase (s : State) (v : Version) : State :=
  (({ s with mem := putBytes s.mem (64 * v.sector) (sectorBytes v.data) } : State).setPoison v.sector v.poison).touch
    v.sector true

theorem State.makeBase_mem (s : State) (v : Version) :
    (s.makeBase v).mem = putBytes s.mem (64 * v.sector) (sectorBytes v.data) := by
  unfold State.makeBase
  rw [State.touch_sameButL2]
  rfl

theorem State.makeBase_versions (s : State) (v : Version) : (s.makeBase v).versions = s.versions := by
  unfold State.makeBase
  rw [State.touch_sameButL2]
  rfl

theorem State.makeBase_sets (s : State) (v : Version) : (s.makeBase v).sets = s.sets := by
  unfold State.makeBase
  rw [State.touch_sameButL2]
  rfl

theorem retireWalk_frees {s : State} {n : Nat} {x : FSet} (hx : s.sets[n]? = some x) (hst : x.st = .retiring) :
    ∃ t, execRetireWalk n s = .next t ∧ (∃ y, t.sets[n]? = some y ∧ y.st = .free ∧ y.frames = []) ∧
      t.versions = s.versions.filter (fun v => v.set != n) ∧
      t.mem = ((s.versions.filter fun v => v.set == n && v.facet == x.winner).foldl State.makeBase s).mem := by
  unfold execRetireWalk
  rw [hx]
  dsimp -zeta only
  rw [if_neg (not_not.mpr hst)]
  extract_lets mine s1 s2
  have hsets : s1.sets = s.sets := foldl_same State.sets State.makeBase State.makeBase_sets _ s
  have hversions : s1.versions = s.versions := foldl_same State.versions State.makeBase State.makeBase_versions _ s
  refine ⟨_, rfl, ⟨{ x with st := .free, frames := [] }, ?_, rfl, rfl⟩, ?_, rfl⟩
  · change (s1.sets.modify n _)[n]? = _
    rw [List.getElem?_modify, hsets, hx]
    simp
  · change s1.versions.filter (fun v => !mine v) = _
    rw [hversions]
    rfl

/-- Settles O50: the lanes by the checks of R328; publication keeps the set RETIRING and lets the committing thread go on; a set opens
over frames that no other holds; retirement makes the winner's versions base. -/
theorem facetSets : Obligations.FacetSets := by
  unfold Obligations.FacetSets
  intro f s s1 c
  refine ⟨perLane_lanes, perLane_lanes, ?handle, ?lanes, fun r i w x => rfl, ?publish, ?opening, ?ending, ?retiring⟩
  case handle =>
    intro r rgn h x
    exact ⟨State.handleCheck_foreign, State.handleCheck_closed, State.handleCheck_ok⟩
  case lanes =>
    intro r r1 l i x t w
    exact ⟨fun hc => ⟨State.commitLane_closed hc, State.squashLane_closed hc⟩, fun hc => ⟨State.commitLane_illFormed hc,
      State.commitLane_gone hc, State.commitLane_begins hc, State.squashLane_illFormed hc, State.squashLane_done hc⟩⟩
  case publish =>
    intro n x r hx hst hdrain hres hbusy
    obtain ⟨t, ht, hset, hrun⟩ := commitPublish_publishes hx hst hdrain hres hbusy
    refine ⟨t, ht, hset, fun w l y u d npc hy hu hust hnone => ?_⟩
    obtain ⟨v, hv, hvst, hvpc⟩ := hrun w l u d npc ((State.thread?_of_find hy).trans hu) hust hnone
    obtain ⟨z, hz, hzl⟩ := Option.bind_eq_some_iff.1 hv
    exact ⟨z, v, hz, hzl, hvst, hvpc⟩
  case opening =>
    intro m n p x hp hx hfree frames happart r hdrop hsame hgone hfacets
    exact setOpen_opens hp hx hfree happart hdrop hsame hgone hfacets
  case ending =>
    intro n x r hx hst hr hdone
    exact prefixEnd_ends hx hst hr hdone
  case retiring =>
    intro n x hx hst
    obtain ⟨t, ht, hset, hversions, hmem⟩ := retireWalk_frees hx hst
    refine ⟨t, ht, hset, hversions, fun hnone => ?_, fun v hv => ?_⟩
    · have hnil : (s.versions.filter fun v => v.set == n && v.facet == x.winner) = [] := by
        simpa [List.filter_eq_nil_iff] using hnone
      rw [hmem, hnil]
      rfl
    · rw [hmem, hv]
      exact State.makeBase_mem ..

end Sys2Proof.Machine
end

section
/-! PROOFS. The events of the package and of the fabric (O60, R404 to R423). -/

namespace Sys2Proof.Machine

open Sys2Proof

/-! ### A segment that fails (R405) -/

/-- What a wake leaves of a core: whether it is available, and its fenced segments. -/
def State.fencing (s : State) (g : Nat) : Bool × List Nat := ((s.core g).available, (s.core g).fenced)

theorem State.wakeCore_fencing (s : State) (h : Option Nat) (b : WakeBit) (g : Nat) :
    (s.wakeCore h b).fencing g = s.fencing g := by
  unfold State.wakeCore
  split
  · rename_i k
    dsimp only
    split
    · unfold State.fencing
      by_cases hk : g = k
      · subst hk
        rw [State.core_setCore]
      · rw [State.core_setCore_ne _ _ hk]
    · rfl
  · rfl

theorem State.wakeCore_clusters (s : State) (h : Option Nat) (b : WakeBit) : (s.wakeCore h b).clusters = s.clusters := by
  unfold State.wakeCore
  split
  · dsimp only
    split <;> rfl
  · rfl

theorem State.markSaving_fencing (s : State) (ws : List Nat) (g : Nat) : (s.markSaving ws).fencing g = s.fencing g :=
  foldl_same (fun s : State => s.fencing g) _ (fun _ _ => State.wakeCore_fencing ..) _ _

theorem State.markSaving_clusters (s : State) (ws : List Nat) : (s.markSaving ws).clusters = s.clusters :=
  foldl_same State.clusters _ (fun _ _ => State.wakeCore_clusters ..) _ _

theorem State.markSaving_mem (s : State) (ws : List Nat) : (s.markSaving ws).mem = s.mem :=
  foldl_same State.mem _ (fun _ _ => State.wakeCore_mem ..) _ _

theorem State.fenceSegment_fencing (s : State) (g : Nat) (acc : Bool) (q k : Nat) :
    (s.fenceSegment g acc q k).fencing g = (false, (s.core g).fenced ++ [segNumber acc q k]) := by
  unfold State.fenceSegment
  extract_lets n c s1 y s2 s3
  have hs1 : s1.fencing g = (false, (s.core g).fenced ++ [segNumber acc q k]) := by
    unfold State.fencing s1
    rw [State.core_setCore]
  have hs2 : s2.fencing g = s1.fencing g := by
    unfold s2
    split <;> rfl
  exact (State.markSaving_fencing s2 _ g).trans (hs2.trans hs1)

theorem State.fenceSegment_groups (s : State) (g q k : Nat) :
    ((s.fenceSegment g true q k).cluster (g / 4)).groups = false := by
  unfold State.fenceSegment
  extract_lets n c s1 y s2 s3
  have hs3 : s3.cluster (g / 4) = s2.cluster (g / 4) :=
    congrArg (fun m => NMap.get Cluster.fresh m (g / 4)) (State.markSaving_clusters s2 _)
  have hs2 : (s2.cluster (g / 4)).groups = false := by
    unfold s2
    rw [if_pos rfl, State.cluster_setCluster]
  exact (congrArg Cluster.groups hs3).trans hs2

theorem State.fenceSegment_mem (s : State) (g : Nat) (acc : Bool) (q k : Nat) : (s.fenceSegment g acc q k).mem = s.mem := by
  unfold State.fenceSegment
  extract_lets n c s1 y s2 s3
  have hs2 : s2.mem = s.mem := by
    unfold s2
    split <;> rfl
  exact (State.markSaving_mem s2 _).trans hs2

theorem segmentTest_runs {s : State} {g q k : Nat} {acc : Bool} (hg : g < 192)
    (hseg : if acc then q = 0 ∧ k < 4 else q < 4 ∧ k < 8)
    (hnew : (s.core g).fenced.contains (segNumber acc q k) = false) (fail : Bool) :
    execSegmentTest g acc q k fail s =
      .next (if fail then (s.countLife lifeTests).fenceSegment g acc q k else s.countLife lifeTests) := by
  have hvalid : (decide (g < 192) && (if acc then q == 0 && decide (k < 4) else decide (q < 4) && decide (k < 8))) = true := by
    cases acc <;> simpa [hg] using hseg
  unfold execSegmentTest
  simp only [hvalid, hnew, Bool.not_true, Bool.or_self, Bool.false_eq_true, if_false]

/-! ### A frozen device (R412), reset and loss of supply (R411, R413) -/

theorem step_frozen_idle {s : State} (hf : s.frozen = true) (ha : s.agenda = []) : step s = .next s := by
  unfold step
  rw [if_pos hf, ha]

theorem step_frozen_passes {s : State} {e : Sched} {rest : List (Sched)} (hf : s.frozen = true)
    (ha : s.agenda = e :: rest) (he : e ≠ .event .deviceReset) : step s = .next { s with agenda := rest } := by
  unfold step
  rw [if_pos hf, ha]
  split
  · rename_i heq
    exact absurd (List.cons.inj heq).1 he
  · rename_i heq
    rw [(List.cons.inj heq).2]
  · rename_i heq
    cases heq

/-- What a boot keeps of the firmware: its counter and slots; the active slot is that of a roll back, where one was given (R411). -/
theorem Firmware.boot_keeps (f : Firmware) (nonce : BitVec 256) : (f.boot nonce).counter = f.counter ∧
    (f.boot nonce).slots = f.slots ∧ (f.boot nonce).active = f.next.getD f.active ∧ (f.boot nonce).next = none := by
  unfold Firmware.boot
  dsimp only
  split
  · split
    · exact ⟨rfl, rfl, rfl, rfl⟩
    · exact ⟨rfl, rfl, rfl, rfl⟩
  · exact ⟨rfl, rfl, rfl, rfl⟩

theorem Firmware.rollKey_counter (f : Firmware) : f.rollKey.counter = f.counter := by
  unfold Firmware.rollKey
  split <;> rfl

theorem Firmware.skipIndex_counter (f : Firmware) (id : Bool) : (f.skipIndex id).counter = f.counter := by
  unfold Firmware.skipIndex
  split
  · rfl
  · split
    · exact Firmware.rollKey_counter _
    · exact Firmware.rollKey_counter _

theorem mem_local_lost (m : List Host.Cell) (c : Host.Cell) :
    c ∈ (m.filter fun c => locOf c.1 != 0) ↔ c ∈ m ∧ 2 ^ 52 ≤ c.1 := by
  have hloc : locOf c.1 ≠ 0 ↔ 2 ^ 52 ≤ c.1 := by
    unfold locOf
    omega
  rw [List.mem_filter, bne_iff_ne, hloc]

/-! ### Requests of the host and of peers (R414, R418) -/

theorem State.force_of_dueFor {s : State} {y : Party} {sc : Scope} (h : s.dueFor y sc = []) : s.force y sc = some s := by
  unfold State.force State.forceIn
  rw [h]
  rfl

section

variable {s s1 : State} {key n : Nat} {data : List Byte}

theorem linkUp_of_up {link : Nat} (hlt : link < 9) (hup : s.links.getD link true = true) : linkUp s link = true := by
  simpa [linkUp, hlt] using hup

theorem inLocal_of_le (h : key + n ≤ 192 * 2 ^ 30) : inLocal key n = true := decide_eq_true h

section

variable {fn : Nat} (hfn : fn < 32) (hup : s.links.getD 8 true = true) (hforce : s.force (.outside .host) .sys = some s1)
include hfn hup hforce

theorem hostRequest_read (hloc : key + n ≤ 192 * 2 ^ 30) (hclean : s1.poisoned key n = false) :
    execHostRequest fn false key data n s =
      .next ((s1.atHome key n).answer 8 fn false ((s1.atHome key n).homeBytes none key n)) := by
  unfold execHostRequest
  simp [linkUp_of_up (by decide) hup, inLocal_of_le hloc, Nat.not_le.mpr hfn, hforce, hclean]

theorem hostRequest_write (hloc : key + data.length ≤ 192 * 2 ^ 30) (hwin : s1.windowHit key data.length = none) :
    execHostRequest fn true key data data.length s = .next ((s1.baseWrite key data).answer 8 fn false []) := by
  unfold execHostRequest
  simp [linkUp_of_up (by decide) hup, inLocal_of_le hloc, Nat.not_le.mpr hfn, hforce, hwin]

theorem hostRequest_aborted {x : FSet} (hloc : key + data.length ≤ 192 * 2 ^ 30)
    (hwin : s1.windowHit key data.length = some x) :
    execHostRequest fn true key data data.length s = .next (s1.refuseWrite 8 fn x) := by
  unfold execHostRequest
  simp [linkUp_of_up (by decide) hup, inLocal_of_le hloc, Nat.not_le.mpr hfn, hforce, hwin]

end

section

variable {link : Nat} (hlink : link < 8) (hup : s.links.getD link true = true)
  (hloc : key + n ≤ 192 * 2 ^ 30) (hforce : s.force (.outside .peer) .sys = some s1)
include hlink hup hloc hforce

theorem peerRequest_load (hclean : s1.poisoned key n = false) : execPeerRequest link .load key data n s =
    .next ((s1.atHome key n).answer link 0 false ((s1.atHome key n).homeBytes none key n)) := by
  unfold execPeerRequest
  simp [peerAcc, linkUp_of_up (by omega) hup, inLocal_of_le hloc, Nat.not_le.mpr hlink, hforce, hclean]

theorem peerRequest_store (hn : data.length = n) (hwin : s1.windowHit key n = none) :
    execPeerRequest link .store key data 0 s = .next ((s1.baseWrite key data).answer link 0 false []) := by
  unfold execPeerRequest
  simp [peerAcc, linkUp_of_up (by omega) hup, inLocal_of_le hloc, Nat.not_le.mpr hlink, hforce, hn, hwin]

theorem peerRequest_rmw {op : AtomOp} {ty : AtomTy} (hn : n = 4 * ty.words) (hwin : s1.windowHit key n = none)
    (hclean : s1.poisoned key n = false) : execPeerRequest link (.rmw op ty) key data 0 s =
      let r := s1.atHome key n
      .next ((r.baseWrite key (toLe n (AccKind.newVal (.rmw op ty (leBytes data % 2 ^ (32 * ty.words)))
        (leBytes (r.homeBytes none key n))))).answer link 0 false (r.homeBytes none key n)) := by
  subst hn
  unfold execPeerRequest
  simp [peerAcc, linkUp_of_up (by omega) hup, inLocal_of_le hloc, Nat.not_le.mpr hlink, hforce, hwin, hclean]

end

end

/-! ### Translations with the host (R417) -/

theorem pageSize_of_le {i : Nat} (h : i ≤ 40) : pageSize (2 ^ (12 + i)) = true :=
  List.any_eq_true.2 ⟨i, List.mem_range.2 (by omega), beq_self_eq_true _⟩

theorem atsTranslationResponse_held {s : State} {fn va key i : Nat} {rd wr : Bool} (hfn : fn < 32)
    (hup : s.links.getD 8 true = true) (hi : i ≤ 40) (hva : va < 2 ^ 52) (hkey : key < 2 ^ 52) (hats : s.ats = [])
    (hpend : s.atsPending = []) : execAtsTranslationResponse ⟨fn, va⟩ key (2 ^ (12 + i)) rd wr s =
      let size := 2 ^ (12 + i)
      let left : HostAddr → Bool := fun q => q.fn != fn ||
        decide (2 ^ 52 + q.addr < 2 ^ 52 + va / size * size) || decide (2 ^ 52 + va / size * size + size ≤ 2 ^ 52 + q.addr)
      .next { s with
        ats := [⟨fn + 32 * (s.fns.getD fn .fresh).pasid.toNat, 2 ^ 52 + va / size * size, size,
          2 ^ 52 + key / size * size, .h, rd, wr, rd⟩]
        transReqs := s.transReqs.filter left, pageReqs := s.pageReqs.filter left } := by
  have hgo : ¬(decide (32 ≤ fn) || !linkUp s 8 || !pageSize (2 ^ (12 + i)) || decide (2 ^ 52 ≤ va) ||
      decide (2 ^ 52 ≤ key)) = true := by
    simp [linkUp_of_up (by decide) hup, pageSize_of_le hi, hfn]
    exact ⟨hva, hkey⟩
  unfold execAtsTranslationResponse
  rw [if_neg hgo, hpend, hats]
  rfl

theorem State.invalidate_waits {s : State} {y : AtsInval} (h : s.atsCounter (s.ats.filter fun l => l.inRange y) = true) :
    s.invalidate y = none := if_pos h

section

variable {s : State} {fn va size : Nat} (hfn : fn < 32) (hup : s.links.getD 8 true = true) (hpend : s.atsPending = [])
include hfn hup hpend

/-- The first Invalidate Request is pending, and completed where it can be. -/
theorem atsInvalidateRequest_pends : execAtsInvalidateRequest ⟨fn, va⟩ size s =
    .next (((s.setPending [⟨⟨fn, va⟩, size⟩]).invalidate ⟨⟨fn, va⟩, size⟩).getD (s.setPending [⟨⟨fn, va⟩, size⟩])) := by
  unfold execAtsInvalidateRequest
  simp [linkUp_of_up (by decide) hup, Nat.not_le.mpr hfn, hpend]

theorem atsInvalidateRequest_waits (hctr : s.atsCounter (s.ats.filter fun l => l.inRange ⟨⟨fn, va⟩, size⟩) = true) :
    execAtsInvalidateRequest ⟨fn, va⟩ size s = .next { s with atsPending := [⟨⟨fn, va⟩, size⟩], fclk := 23 } := by
  have hnone : (s.setPending [⟨⟨fn, va⟩, size⟩]).invalidate ⟨⟨fn, va⟩, size⟩ = none := State.invalidate_waits hctr
  rw [atsInvalidateRequest_pends hfn hup hpend, hnone]
  rfl

end

/-- Where no copy, no collective and no wave may use the translations, a request is completed at once. -/
theorem State.invalidate_done {s : State} {y : AtsInval} (hcopies : s.copies = []) (hcolls : s.colls = [])
    (hwaves : s.waves = []) (hpend : s.atsPending = [y]) : ∃ t, s.invalidate y = some t ∧
      t.ats = s.ats.filter (fun l => !l.inRange y) ∧ t.answers = s.answers ++ [⟨8, y.base.fn, false, []⟩] ∧
      t.atsPending = [] ∧ t.fclk = s.cappedClk := by
  unfold State.invalidate
  extract_lets gone inFrame
  have hctr : s.atsCounter gone = false := by
    unfold State.atsCounter
    rw [hcopies, hcolls]
    rfl
  have hthrough : s.throughAts gone = [] := by
    unfold State.throughAts
    rw [hwaves]
    rfl
  rw [if_neg (Bool.eq_false_iff.1 hctr), hthrough, List.foldl_nil, Option.map_some]
  extract_lets s2
  have hleft : s2.atsPending = [] := by
    change (s.atsPending.filter fun x => !decide (x = y)) = []
    rw [hpend]
    simp
  have hclk : s2.fclk = s.cappedClk := by
    change (if (s.atsPending.filter fun x => !decide (x = y)).isEmpty then s.cappedClk else 23) = s.cappedClk
    rw [hpend]
    simp
  have haround : ((s2.cores.map Prod.fst).foldl (fun (s : State) g => s.dropWhere g inFrame) s2).around = s2.around :=
    foldl_same State.around _ (fun s g => State.dropWhere_around ..) _ s2
  refine ⟨_, rfl, ?_, ?_, ?_, ?_⟩
  · exact State.ats_of_around haround
  · exact congrArg (· ++ [_]) (State.answers_of_around (s := s2) haround)
  · exact (State.atsPending_of_around haround).trans hleft
  · exact (State.fclk_of_around haround).trans hclk

theorem Leaf.apart_of_not_inRange {l : Leaf} {fn va size : Nat} (h : l.inRange ⟨⟨fn, va⟩, size⟩ = false) :
    l.asr % 32 ≠ fn ∨ 2 ^ 52 + va + size ≤ l.va ∨ l.va + l.size ≤ 2 ^ 52 + va := by
  by_contra hin
  push Not at hin
  obtain ⟨hfn, hlo, hhi⟩ := hin
  simp only [Leaf.inRange, hfn, beq_self_eq_true, decide_eq_true hlo, decide_eq_true hhi, Bool.and_self,
    Bool.true_eq_false] at h

/-! ### Links (R423) -/

theorem linkRetrain_up {s : State} {link : Nat} (hlt : link < 9) (hup : s.links.getD link true = true) :
    execLinkRetrain link s = .next ((s.countLife (lifeRetrain link)).linkEvent link (if link = 8 then 1 else 3)
      (s.linkRoots link)) := if_pos (linkUp_of_up hlt hup)

theorem linkDown_up {s : State} {link : Nat} (hlt : link < 9) (hup : s.links.getD link true = true) :
    execLinkDown link s = .next (({ s with links := s.links.set link false } : State).linkEvent link
      (if link = 8 then 2 else 4) (s.linkRoots link)) := if_pos (linkUp_of_up hlt hup)

/-- Settles O60: each event by its own lemma, in the order of the statement. -/
theorem packageAndFabric : Obligations.PackageAndFabric := by
  unfold Obligations.PackageAndFabric
  intro s
  refine ⟨?segment, ?capped, ?active, rfl, step_frozen_idle, fun e rest => step_frozen_passes, ?reset, ?supply, rfl, ?host,
    fun y sc => State.force_of_dueFor, ?peer, fun fn va key i rd wr => atsTranslationResponse_held, ?invalidated,
    fun fn va size => atsInvalidateRequest_waits, ?links, fun link sub => ⟨rfl, rfl⟩⟩
  case segment =>
    intro g acc q k hg hseg hnew
    refine ⟨segmentTest_runs hg hseg hnew false, _, segmentTest_runs hg hseg hnew true, ?_, ?_, ?_, ?_⟩
    · exact congrArg Prod.fst (State.fenceSegment_fencing ..)
    · exact congrArg Prod.snd (State.fenceSegment_fencing ..)
    · rintro rfl
      exact State.fenceSegment_groups ..
    · exact State.fenceSegment_mem ..
  case capped =>
    change execPowerCapStep true s = _
    simp only [execPowerCapStep, if_true, List.isEmpty_iff]
  case active =>
    change execPowerCapStep false s = _
    simp only [execPowerCapStep, Bool.false_eq_true, if_false, ite_self]
  case reset =>
    obtain ⟨hctr, hslots, hactive, hnext⟩ := Firmware.boot_keeps s.fw (BitVec.ofNat 256 s.fresh.1)
    exact ⟨_, rfl, rfl, rfl, rfl, rfl, rfl, rfl, rfl, rfl, rfl, rfl, rfl, rfl, hctr, hslots, hactive, hnext⟩
  case supply =>
    refine ⟨_, rfl, fun c => mem_local_lost .., rfl, rfl, rfl, rfl, ?_⟩
    refine (Firmware.boot_keeps _ _).1.trans ?_
    split
    · rfl
    · exact Firmware.skipIndex_counter ..
  case host =>
    intro fn key data n hfn hup hloc
    exact ⟨fun s1 hforce => hostRequest_read hfn hup hforce hloc, fun s1 hle hforce => hostRequest_write hfn hup hforce (by omega),
      fun s1 x hle hforce => hostRequest_aborted hfn hup hforce (by omega)⟩
  case peer =>
    intro link key data n s1 hlink hup hloc hforce
    exact ⟨peerRequest_load hlink hup hloc hforce, peerRequest_store hlink hup hloc hforce,
      fun op ty => peerRequest_rmw hlink hup hloc hforce⟩
  case invalidated =>
    intro fn va size hfn hup hcopies hcolls hwaves hpend
    obtain ⟨t, ht, hats, hanswers, hnone, hclk⟩ := State.invalidate_done (s := s.setPending [⟨⟨fn, va⟩, size⟩])
      (y := ⟨⟨fn, va⟩, size⟩) hcopies hcolls hwaves rfl
    refine ⟨t, ?_, fun l hl => ?_, hanswers, hnone, hclk⟩
    · refine (atsInvalidateRequest_pends hfn hup hpend).trans ?_
      rw [ht]
      rfl
    · rw [hats, List.mem_filter, Bool.not_eq_true'] at hl
      exact ⟨hl.1, Leaf.apart_of_not_inRange hl.2⟩
  case links =>
    intro link hlt hup
    exact ⟨linkRetrain_up hlt hup, linkDown_up hlt hup⟩

end Sys2Proof.Machine
end

section
/-! PROOFS. Fjoub's commands and their replies (O59, R409 to R416). -/

namespace Sys2Proof.Machine

open Sys2Proof

/-! ### The bytes of a command (R409) -/

/-- Bits of a word of 512 that a number gives. -/
theorem extract_ofNat (v : Nat) {start len : Nat} (h : start + len ≤ 512) :
    ((BitVec.ofNat 512 v).extractLsb' start len).toNat = v / 2 ^ start % 2 ^ len := by
  rw [BitVec.extractLsb'_toNat, BitVec.toNat_ofNat, Nat.shiftRight_eq_div_pow,
    show (512 : Nat) = start + (512 - start) by omega, Nat.pow_add, Nat.mod_mul_right_div_self]
  exact Nat.mod_mod_of_dvd _ (Nat.pow_dvd_pow 2 (by omega))

section

variable (code : BitVec 8) (op : BitVec 2) (tag : BitVec 16) (args : List DWord)

theorem cmdWord_code : (cmdWord code op tag args).extractLsb' 0 8 = code := by
  apply BitVec.eq_of_toNat_eq
  have := code.isLt
  rw [cmdWord, extract_ofNat _ (by decide)]
  omega

theorem cmdWord_op : (cmdWord code op tag args).extractLsb' 8 2 = op := by
  apply BitVec.eq_of_toNat_eq
  have := code.isLt
  have := op.isLt
  rw [cmdWord, extract_ofNat _ (by decide)]
  omega

theorem cmdWord_tag : (cmdWord code op tag args).extractLsb' 16 16 = tag := by
  apply BitVec.eq_of_toNat_eq
  have := code.isLt
  have := op.isLt
  have := tag.isLt
  rw [cmdWord, extract_ofNat _ (by decide)]
  omega

theorem cmdWord_arg {i : Nat} {x : DWord} (hi : i < 7) (hx : args[i]? = some x) :
    (cmdWord code op tag args).extractLsb' (64 * (i + 1)) 64 = x := by
  apply BitVec.eq_of_toNat_eq
  have hdrop : (code.toNat + 2 ^ 8 * op.toNat + 2 ^ 16 * tag.toNat + 2 ^ 64 * argsNat args) / 2 ^ 64 = argsNat args := by
    have := code.isLt
    have := op.isLt
    have := tag.isLt
    omega
  rw [cmdWord, extract_ofNat _ (by omega), show 64 * (i + 1) = 64 + 64 * i by omega, Nat.pow_add,
    ← Nat.div_div_eq_div_mul, hdrop]
  exact argsNat_get args i x hx

end

/-! ### Operations on regions -/

section

variable {s t : State} {fn n top : Nat} {tag : BitVec 16} {rcb : DWord} {op : RegionOp}

theorem State.fwControl_answered (htop : (s.fns.getD fn .fresh).root = some top)
    (hact : s.controlNamed top rcb.toNat op = (t, n)) : s.fwControl fn tag rcb op = t.reply fn tag n [] := by
  unfold State.fwControl
  rw [htop]
  dsimp only
  rw [hact]
  rfl

end

/-! ### Signatures and slots (R410, R411) -/

theorem xmssCheck_refuses (key sig m : List Byte) (h : sig.length ≠ 2500 ∨ 1024 ≤ beNum (sig.take 4)) :
    xmssCheck key sig m = false := by
  unfold xmssCheck
  split
  · rfl
  · rename_i hlen
    have hindex : ¬ beNum (sig.take 4) < 1024 := Nat.not_lt.2 (h.resolve_left hlen)
    dsimp only
    rw [decide_eq_false hindex, Bool.and_false, Bool.false_and]

theorem FwSlot.rollback_eq (x : FwSlot) : x.rollback = x.header.toNat / 2 ^ 32 % 2 ^ 32 := by
  unfold FwSlot.rollback
  rw [BitVec.extractLsb'_toNat, Nat.shiftRight_eq_div_pow]

theorem Firmware.bootOk_eq {f : Firmware} {n : Nat} {x : FwSlot} (h : f.slots[n]? = some x) : f.bootOk n =
    (xmssCheck umawinKey x.sig (toLe 16 x.header.toNat ++ x.image) && decide (f.counter ≤ x.header.toNat / 2 ^ 32 % 2 ^ 32)) := by
  unfold Firmware.bootOk
  rw [h]
  dsimp only
  rw [FwSlot.rollback_eq]
  rfl

section

variable {version rollback length : Word} {image sig : List Byte}

/-- The header of a slot (R411). -/
def slotHeader (version rollback length : Word) : BitVec 128 := (0 : Word) ++ length ++ rollback ++ version

theorem extract_third_word (a b c d : Word) : (a ++ b ++ c ++ d).extractLsb' 64 32 = b := by
  ext i hi
  simp only [BitVec.getElem_extractLsb', BitVec.getLsbD_append, show ¬ 64 + i < 32 by omega, show ¬ 64 + i - 32 < 32 by omega,
    show 64 + i - 32 - 32 = i by omega, if_false, hi, if_true, BitVec.getLsbD_eq_getElem hi]

theorem slotHeader_length : ((slotHeader version rollback length).extractLsb' 64 32).toNat = length.toNat :=
  congrArg BitVec.toNat (extract_third_word 0 length rollback version)

theorem leBytes_slotHeader (header : BitVec 128) (l : List Byte) :
    BitVec.ofNat 128 (leBytes ((toLe 16 header.toNat ++ l).take 16)) = header := by
  have htake : (toLe 16 header.toNat ++ l).take 16 = toLe 16 header.toNat :=
    (List.take_append_of_le_length (by rw [toLe_length])).trans (List.take_of_length_le (by rw [toLe_length]))
  rw [htake, leBytes_toLe]
  apply BitVec.eq_of_toNat_eq
  have := header.isLt
  rw [BitVec.toNat_ofNat]
  omega

theorem FwSlot.written_ok (himage : image.length = length.toNat) (hsig : sig.length = 2500) :
    FwSlot.written (toLe 16 (slotHeader version rollback length).toNat ++ image ++ sig) =
      some ⟨slotHeader version rollback length, image, sig⟩ := by
  have hlen : (toLe 16 (slotHeader version rollback length).toNat).length = 16 := toLe_length ..
  unfold FwSlot.written
  rw [List.append_assoc]
  simp only [leBytes_slotHeader, slotHeader_length]
  rw [if_pos (by simp only [List.length_append, hlen, himage, hsig]; omega)]
  have himg : ((toLe 16 (slotHeader version rollback length).toNat ++ (image ++ sig)).drop 16).take length.toNat = image := by
    rw [List.drop_left' hlen, ← himage, List.take_left]
  have hsg : (toLe 16 (slotHeader version rollback length).toNat ++ (image ++ sig)).drop (16 + length.toNat) = sig := by
    rw [← List.drop_drop, List.drop_left' hlen, ← himage, List.drop_left]
  rw [himg, hsg]

theorem FwSlot.written_none (h : image.length + sig.length ≠ length.toNat + 2500) :
    FwSlot.written (toLe 16 (slotHeader version rollback length).toNat ++ image ++ sig) = none := by
  unfold FwSlot.written
  rw [List.append_assoc]
  simp only [leBytes_slotHeader, slotHeader_length]
  exact if_neg (by simp only [List.length_append, toLe_length]; omega)

end

/-! ### The commands of every function -/

section

variable {s t : State} {fn n : Nat} {tag : BitVec 16}

/-- The state in which a command is carried out (R409). -/
def State.taken (s : State) (fn : Nat) (cmd : BitVec 512) : State := { s with commands := s.commands ++ [⟨fn, cmd⟩] }

/-- A command of a function that may give it, over a link that is up, is carried out. -/
theorem State.command_taken {cmd : BitVec 512} {act : State → State} (hfn : fn < 32) (hup : s.links.getD 8 true = true)
    (hb : s.bound fn = true) : s.command fn tag cmd false act = .next (act (s.taken fn cmd)) :=
  s.command_run tag cmd act hfn hup hb nofun

section

variable {rcb a b : DWord} (hfn : fn < 32) (hup : s.links.getD 8 true = true)
include hfn hup

theorem fwLaunch_unbound (hb : s.bound fn = false) :
    execFwLaunch fn tag rcb s = .next ((s.taken fn (cmdWord 1 0 tag [rcb])).reply fn tag 0x20 []) :=
  s.command_refused tag _ _ hfn hup (.inl hb)

theorem fwHomeMove_unbound (hb : s.bound fn = false) :
    execFwHomeMove fn tag a b s = .next ((s.taken fn (cmdWord 7 0 tag [a, b])).reply fn tag 0x20 []) :=
  s.command_refused tag _ _ hfn hup (.inl hb)

theorem fwSetPower_notPf (h0 : fn ≠ 0) :
    execFwSetPower fn tag a s = .next ((s.taken fn (cmdWord 9 0 tag [a])).reply fn tag 0x20 []) :=
  s.command_refused tag _ _ hfn hup (.inr ⟨rfl, h0⟩)

end

section

variable (hfn : fn < 32) (hup : s.links.getD 8 true = true) (hb : s.bound fn = true)
include hfn hup hb

theorem fwLaunch_answered {rcb : DWord} (h : (s.taken fn (cmdWord 1 0 tag [rcb])).launch
      ((s.taken fn (cmdWord 1 0 tag [rcb])).hostIssuer fn) rcb.toNat = (t, n)) :
    execFwLaunch fn tag rcb s = .next ((if n = 0 then t.bindPf fn s.nextRegion else t).reply fn tag n []) := by
  refine (State.command_taken hfn hup hb).trans ?_
  rw [h]
  rfl

theorem fwPrismLaunch_answered {a : DWord} (h : (s.taken fn (cmdWord 2 0 tag [a])).launchPrism
      ((s.taken fn (cmdWord 2 0 tag [a])).hostIssuer fn) a.toNat = (t, n)) :
    execFwPrismLaunch fn tag a s = .next (t.reply fn tag n []) := by
  refine (State.command_taken hfn hup hb).trans ?_
  rw [h]
  rfl

/-- A control form answers with its reason (R357). -/
theorem command_control {rcb : DWord} {op : RegionOp} {cmd : BitVec 512} {top : Nat}
    (htop : (s.fns.getD fn .fresh).root = some top) (h : (s.taken fn cmd).controlNamed top rcb.toNat op = (t, n)) :
    s.command fn tag cmd false (fun s => s.fwControl fn tag rcb op) = .next (t.reply fn tag n []) :=
  (State.command_taken hfn hup hb).trans
    (congrArg _ (State.fwControl_answered (s := s.taken fn cmd) htop h))

theorem fwFreeFrames_answered {rcb a b : DWord} {top m : Nat} {x root : Region} (htop : (s.fns.getD fn .fresh).root = some top)
    (hx : (s.taken fn (cmdWord 4 0 tag [rcb, a, b])).regionNamed top rcb.toNat = some (m, x))
    (hroot : (s.taken fn (cmdWord 4 0 tag [rcb, a, b])).region? x.root = some root) : execFwFreeFrames fn tag rcb a b s =
      let r := s.taken fn (cmdWord 4 0 tag [rcb, a, b])
      .next (if 8 * 6 * 2 ^ 20 < a.toNat + b.toNat then r.reply fn tag 0x24 []
        else (r.freeFrames m root a.toNat b.toNat).reply fn tag 0 []) := by
  refine (State.command_taken hfn hup hb).trans ?_
  have htop' : ((s.taken fn (cmdWord 4 0 tag [rcb, a, b])).fns.getD fn .fresh).root = some top := htop
  rw [htop', Option.bind_some, hx]
  dsimp only
  rw [hroot]
  rfl

theorem fwAttest_answered {nonce : BitVec 256} : execFwAttest fn tag nonce s =
    let r := s.taken fn (cmdWord 0x0A 0 tag (args256 nonce))
    .next (if 1024 ≤ s.fw.idIndex then r.reply fn tag 0x22 []
      else ({ r with fw := s.fw.useIndex } : State).reply fn tag 0 (s.fw.quote (toLe 32 nonce.toNat))) :=
  State.command_taken hfn hup hb

theorem fwReadCounters_answered : execFwReadCounters fn tag s =
    .next ((s.taken fn (cmdWord 0x0E 0 tag [])).reply fn tag 0 s.counterBytes) := State.command_taken hfn hup hb

theorem fwInvalidCode_refused {code : BitVec 8} (h : code = 0 ∨ 0x10 ≤ code.toNat) :
    execFwInvalidCode fn tag code s = .next ((s.taken fn (cmdWord code 0 tag [])).reply fn tag 0x21 []) := by
  have hno : ¬(code ≠ 0 ∧ code.toNat < 0x10) := by
    rintro ⟨hne, hlt⟩
    rcases h with h | h
    · exact hne h
    · omega
  unfold execFwInvalidCode
  rw [if_neg hno]
  exact State.command_taken hfn hup hb

end

theorem fwInvalidCode_known {code : BitVec 8} (h : ¬(code = 0 ∨ 0x10 ≤ code.toNat)) :
    execFwInvalidCode fn tag code s = .next s := by
  obtain ⟨hne, hlt⟩ := not_or.1 h
  exact if_pos ⟨hne, Nat.not_le.1 hlt⟩

end

/-! ### The commands of the PF -/

section

variable {s : State} {tag : BitVec 16} (hup : s.links.getD 8 true = true)
include hup

/-- A command of the PF is carried out. -/
theorem State.command_pf {cmd : BitVec 512} {act : State → State} :
    s.command 0 tag cmd true act = .next (act (s.taken 0 cmd)) := s.command_run tag cmd act (by decide) hup rfl fun _ => rfl

section

variable {vf partition : BitVec 8} {pasid : BitVec 20} {pq : BitVec 4} {rcb memq timeq accq : DWord} {regq scrq : Word}

/-- The arguments of a set-quota command (R409, R416). -/
def quotaArgs (vf partition : BitVec 8) (pasid : BitVec 20) (pq : BitVec 4) (rcb memq timeq accq : DWord) (regq scrq : Word) :
    List DWord :=
  [rcb, BitVec.ofNat 64 (vf.toNat + 2 ^ 8 * partition.toNat + 2 ^ 16 * pq.toNat + 2 ^ 32 * pasid.toNat), memq, timeq,
    BitVec.ofNat 64 (regq.toNat + 2 ^ 32 * scrq.toNat), accq]

theorem fwSetQuota_refused (h : vf = 0 ∨ 32 ≤ vf.toNat ∨ 8 ≤ partition.toNat ∨ 2 ^ 40 ≤ memq.toNat ∨ 2 ^ 16 ≤ accq.toNat) :
    execFwSetQuota 0 tag vf rcb pasid partition pq memq timeq regq scrq accq s =
      .next ((s.taken 0 (cmdWord 5 0 tag (quotaArgs vf partition pasid pq rcb memq timeq accq regq scrq))).reply 0 tag
        0x24 []) := by
  have hbad : (vf != 0 && decide (vf.toNat < 32) && decide (partition.toNat < 8) && decide (memq.toNat < 2 ^ 40) &&
      decide (accq.toNat < 2 ^ 16)) = false := by
    rcases h with h | h | h | h | h
    · simp [h]
    · simp [Nat.not_lt.2 h]
    · simp [Nat.not_lt.2 h]
    · rw [decide_eq_false (Nat.not_lt.2 h), Bool.and_false, Bool.false_and]
    · rw [decide_eq_false (Nat.not_lt.2 h), Bool.and_false]
  unfold execFwSetQuota
  extract_lets names args good
  rw [State.command_pf hup]
  rw [show good = false from hbad]
  rfl

theorem fwSetQuota_binds {m : Nat} {x : Region} (hvf : vf ≠ 0) (hlt : vf.toNat < 32) (hpart : partition.toNat < 8)
    (hmemq : memq.toNat < 2 ^ 40) (haccq : accq.toNat < 2 ^ 16)
    (hx : (s.taken 0 (cmdWord 5 0 tag (quotaArgs vf partition pasid pq rcb memq timeq accq regq scrq))).tenantRoot
      rcb.toNat = some (m, x)) :
    execFwSetQuota 0 tag vf rcb pasid partition pq memq timeq regq scrq accq s =
      .next (((s.taken 0 (cmdWord 5 0 tag (quotaArgs vf partition pasid pq rcb memq timeq accq regq scrq))).bindVf vf.toNat m
        ⟨some m, pasid, partition.toNat, pq⟩ (quotaOf pq memq timeq regq scrq accq)).reply 0 tag 0 []) := by
  have hgood : (vf != 0 && decide (vf.toNat < 32) && decide (partition.toNat < 8) && decide (memq.toNat < 2 ^ 40) &&
      decide (accq.toNat < 2 ^ 16)) = true := by
    rw [bne_iff_ne.2 hvf, decide_eq_true hlt, decide_eq_true hpart, decide_eq_true hmemq, decide_eq_true haccq]
    rfl
  unfold execFwSetQuota
  extract_lets names args good
  rw [State.command_pf hup]
  have hx' : (s.taken 0 (cmdWord 5 0 tag args)).tenantRoot rcb.toNat = some (m, x) := hx
  rw [show good = true from hgood, hx']
  rfl

end

theorem fwSetPresent_programs {en : BitVec 48} {guard : BitVec 16} {ivs : List Word} (h : en.toNat < 16) :
    ∃ t : State, execFwSetPresent 0 tag en guard ivs s = .next (t.reply 0 tag 0 []) ∧ t.presEn = en.setWidth 4 ∧
      t.presGuard = guard.toNat ∧ t.presents.length = s.presents.length ∧
      ∀ q p, s.presents[q]? = some p → (t.presents[q]?).map PQueue.interval = some (ivs.getD q 0).toNat := by
  unfold execFwSetPresent
  extract_lets iv
  rw [State.command_pf hup, if_pos h]
  refine ⟨_, rfl, rfl, rfl, List.length_mapIdx, fun q p hp => ?_⟩
  have hget := List.getElem?_mapIdx (l := s.presents) (f := fun q p => PQueue.program p (ivs.getD q 0).toNat s.us
    (en.getLsbD q && !s.presEn.getLsbD q)) (i := q)
  exact (congrArg (Option.map PQueue.interval) hget).trans (by rw [hp]; rfl)

theorem fwSetPresent_refused {en : BitVec 48} {guard : BitVec 16} {ivs : List Word} (h : 16 ≤ en.toNat) :
    execFwSetPresent 0 tag en guard ivs s = .next ((s.taken 0 (cmdWord 6 0 tag
      [en ++ guard, ivs.getD 1 0 ++ ivs.getD 0 0, ivs.getD 3 0 ++ ivs.getD 2 0])).reply 0 tag 0x24 []) := by
  unfold execFwSetPresent
  extract_lets iv
  rw [State.command_pf hup, if_neg (Nat.not_lt.2 h)]

theorem fwHomeMove_begins {a b : DWord} (h : (s.taken 0 (cmdWord 7 0 tag [a, b])).mayMove a.toNat b.toNat = true) :
    execFwHomeMove 0 tag a b s =
      let r := s.taken 0 (cmdWord 7 0 tag [a, b])
      .next (({ r with homeFwd := s.homeFwd ++ [⟨a.toNat, r.homeOf (4096 * a.toNat), b.toNat, [], false⟩] } : State).reply
        0 tag 0 []) := by
  refine (State.command_pf hup).trans ?_
  unfold State.beginMove
  rw [if_pos h]
  rfl

section

variable {a : DWord} {data : List Byte}

theorem fwSetL2Mode_illFormed (h : modeOk (modesOf a) (partsOf data) = false) :
    execFwSetL2Mode 0 tag a data s = .next ((s.taken 0 (cmdWord 8 0 tag [a])).reply 0 tag 0x24 []) :=
  (State.command_pf hup).trans (congrArg _ (if_pos (by simp [h])))

theorem fwSetL2Mode_changes (hlen : data.length = 64) (h : modeOk (modesOf a) (partsOf data) = true)
    (hidle : (s.taken 0 (cmdWord 8 0 tag [a])).idleForMode = true) : execFwSetL2Mode 0 tag a data s =
      .next (((s.taken 0 (cmdWord 8 0 tag [a])).changeMode (modesOf a) (partsOf data)).reply 0 tag 0 []) :=
  (State.command_pf hup).trans (congrArg _ ((if_neg (by simp [h, hlen])).trans (if_neg (by rw [hidle]; decide))))

end

theorem fwSetPower_limits {a : DWord} : execFwSetPower 0 tag a s = .next (if 600 ≤ a.toNat ∧ a.toNat ≤ 1300
    then ({ s.taken 0 (cmdWord 9 0 tag [a]) with pwrLimit := a.toNat } : State).reply 0 tag 0 []
    else (s.taken 0 (cmdWord 9 0 tag [a])).reply 0 tag 0x24 []) := State.command_pf hup

theorem fwConfirm_done : execFwConfirm 0 tag s =
    .next (({ s.taken 0 (cmdWord 0x0C 0 tag []) with fw := s.fw.confirm } : State).reply 0 tag 0 []) := State.command_pf hup

theorem fwFreeze_stops : execFwFreeze 0 tag s = .next { s.taken 0 (cmdWord 0x0F 0 tag []) with frozen := true } :=
  State.command_pf hup

theorem fwWriteSlot_written {version rollback length : Word} {image sig : List Byte} (himage : image.length = length.toNat)
    (hsig : sig.length = 2500) : execFwWriteSlot 0 tag version rollback length image sig s =
      .next (({ s.taken 0 (cmdWord 0x0B 0 tag []) with fw := { s.fw with
        slots := s.fw.slots.set s.fw.idle ⟨slotHeader version rollback length, image, sig⟩
        pending := some s.fw.idle, tries := 0, next := none } } : State).reply 0 tag 0 []) := by
  unfold execFwWriteSlot
  extract_lets header
  rw [State.command_pf hup]
  have hslot := FwSlot.written_ok (version := version) (rollback := rollback) himage hsig
  change FwSlot.written (toLe 16 header.toNat ++ image ++ sig) = _ at hslot
  rw [hslot]
  rfl

theorem fwWriteSlot_refused {version rollback length : Word} {image sig : List Byte}
    (h : image.length + sig.length ≠ length.toNat + 2500) : execFwWriteSlot 0 tag version rollback length image sig s =
      .next ((s.taken 0 (cmdWord 0x0B 0 tag [])).reply 0 tag 0x24 []) := by
  unfold execFwWriteSlot
  extract_lets header
  rw [State.command_pf hup]
  have hslot := FwSlot.written_none (version := version) (rollback := rollback) h
  change FwSlot.written (toLe 16 header.toNat ++ image ++ sig) = _ at hslot
  rw [hslot]

/-- The authorisation of a roll back (R411): to the slot that does not run, with the nonce, signed, and a slot that boots. -/
def Firmware.rollBackOk (f : Firmware) (slot : DWord) (nonce : BitVec 256) (sig : List Byte) : Bool :=
  slot.toNat == f.idle && nonce == f.nonce && xmssCheck umawinKey sig (rollBackBytes slot.toNat nonce) && f.bootOk slot.toNat

theorem fwRollBack_decides (slot : DWord) (nonce : BitVec 256) (sig : List Byte) :
    ∃ t : State, execFwRollBack 0 tag slot nonce sig s =
        .next (t.reply 0 tag (if s.fw.rollBackOk slot nonce sig then 0 else 0x23) []) ∧ t.mem = s.mem ∧
      t.fw.active = s.fw.active ∧ t.fw.next = (if s.fw.rollBackOk slot nonce sig then some slot.toNat else s.fw.next) ∧
      t.fw.pending = if s.fw.rollBackOk slot nonce sig then none else s.fw.pending := by
  have hiff : (slot.toNat = s.fw.idle ∧ nonce = s.fw.nonce ∧
      xmssCheck umawinKey sig (rollBackBytes slot.toNat nonce) = true ∧ s.fw.bootOk slot.toNat = true) ↔
      s.fw.rollBackOk slot nonce sig = true := by
    simp only [Firmware.rollBackOk, Bool.and_eq_true, beq_iff_eq, and_assoc]
  by_cases h : s.fw.rollBackOk slot nonce sig = true
  · simp only [h, if_true]
    exact ⟨_, (State.command_pf hup).trans (congrArg _ (if_pos (hiff.2 h))), rfl, rfl, rfl, rfl⟩
  · simp only [h]
    exact ⟨_, (State.command_pf hup).trans (congrArg _ (if_neg fun hc => h (hiff.1 hc))), rfl, rfl, rfl, rfl⟩

end

/-- Settles O59: each command by its own lemma, in the order of the statement. -/
theorem firmwareCommands : Obligations.FirmwareCommands := by
  unfold Obligations.FirmwareCommands
  intro s fn tag rcb a b data hfn hup got reply
  refine ⟨fun code op args => ⟨cmdWord_code .., cmdWord_op .., cmdWord_tag .., fun i x hi hx => cmdWord_arg _ _ _ _ hi hx⟩, ?unbound, ?virtual,
    ?each, ?physical, fun n x => Firmware.bootOk_eq, xmssCheck_refuses⟩
  case unbound =>
    intro hb
    exact ⟨fwLaunch_unbound hfn hup hb, fwHomeMove_unbound hfn hup hb⟩
  case virtual =>
    intro h0
    exact fwSetPower_notPf hfn hup h0
  case each =>
    intro hb
    refine ⟨fun n t => fwLaunch_answered hfn hup hb, fun n t => fwPrismLaunch_answered hfn hup hb, ?control,
      fun nonce => fwAttest_answered hfn hup hb, fwReadCounters_answered hfn hup hb,
      fun code => ⟨fwInvalidCode_refused hfn hup hb, fwInvalidCode_known⟩⟩
    case control =>
      intro top t n htop
      refine ⟨command_control hfn hup hb htop, command_control hfn hup hb htop, command_control hfn hup hb htop, ?replay,
        fun m x root => fwFreeFrames_answered hfn hup hb htop⟩
      case replay =>
        intro seq all h
        cases all
        · exact command_control hfn hup hb htop h
        · exact command_control hfn hup hb htop h
  case physical =>
    rintro rfl
    refine ⟨?quota, ?present, fwHomeMove_begins hup, ?l2mode, fwSetPower_limits hup, ?slot, fwConfirm_done hup,
      fun nonce => fwRollBack_decides hup a nonce data, fwFreeze_stops hup⟩
    case quota =>
      intro vf partition pasid pq memq timeq accq regq scrq m x r exec_
      exact ⟨fwSetQuota_refused hup, fwSetQuota_binds hup⟩
    case present =>
      intro en guard ivs r
      exact ⟨fwSetPresent_refused hup, fwSetPresent_programs hup⟩
    case l2mode =>
      intro hlen r
      exact ⟨fwSetL2Mode_illFormed hup, fwSetL2Mode_changes hup hlen⟩
    case slot =>
      intro version rollback length image sig x
      exact ⟨fwWriteSlot_written hup, fwWriteSlot_refused hup⟩

end Sys2Proof.Machine
end

section
/-! PROOFS. `present` and the events of the present unit (O51, R334 to R338, R363). -/

namespace Sys2Proof.Machine

open Sys2Proof

/-! ### `present` (R335) -/

section

variable {r r1 r2 r3 : State} {c : Ctx} {l : Nat} {d : BitVec 512}

theorem State.presentLane_denied (h : r.granted c.x.rgn (c.a l) = false) :
    r.presentLane c l = .fault r { code := 5, sub := 0x0F, det0 := c.a l } := if_pos (by rw [h]; rfl)

section

variable (hgrant : r.granted c.x.rgn (c.a l) = true) (hd : r.readDesc c l (addrSum (c.b l 2) 0 1 c.offX 64) 64 = .ok r1 d)
include hgrant hd

theorem State.presentLane_illFormed (hbad : frameBad d = true) :
    r.presentLane c l = .fault r1 { code := 5, sub := 0x0E, addr := some (addrSum (c.b l 2) 0 1 c.offX 64) } := by
  unfold State.presentLane
  simp only [hgrant, Bool.not_true, Bool.false_eq_true, if_false, hd, hbad, if_true]

section

variable (hfine : frameBad d = false) (hdone : r1.doneCheck c d = .ok r2)
include hfine hdone

theorem State.presentLane_full (hfull : 16 ≤ (r2.presents.getD (c.a l) .fresh).entries.length) :
    r.presentLane c l = .ok r2 [1] := by
  unfold State.presentLane
  simp only [hgrant, Bool.not_true, Bool.false_eq_true, if_false, hd, hfine, hdone, if_pos hfull]

theorem State.presentLane_appends (hroom : (r2.presents.getD (c.a l) .fresh).entries.length < 16)
    (hrel : r2.releaseAt c.w l .dev = some r3) :
    let e : PEntry := ⟨d, c.x.rgn, r3.liveTag c.x.rgn, r3.presentFree c.x.rgn⟩
    let put : PQueue → PQueue := fun p => { p with entries := p.entries ++ [e] }
    r.presentLane c l = .ok { r3 with presents := r3.presents.modify (c.a l) put } [0] := by
  unfold State.presentLane
  simp only [hgrant, Bool.not_true, Bool.false_eq_true, if_false, hd, hfine, hdone, if_neg (Nat.not_le.2 hroom), hrel]

end

end

end

/-! ### A surface is read (R336) -/

/-- A set whose window holds a place is one of the device's, where it is not free. -/
theorem State.mem_sets_of_windowOf {s : State} {key i : Nat} {x : FSet} (h : s.windowOf key = some (i, x)) : x ∈ s.sets := by
  have hfound := List.find?_some h
  have hmem := List.mem_of_find?_eq_some h
  obtain ⟨j, -, hj⟩ := List.mem_map.1 hmem
  have hx : s.sets.getD i .fresh = x := by
    obtain ⟨rfl, rfl⟩ := Prod.mk.inj hj
    rfl
  have hst : x.st ≠ .free := by
    simp only [Bool.and_eq_true, decide_eq_true_eq] at hfound
    exact hfound.1
  rw [List.getD_eq_getElem?_getD] at hx
  cases hget : s.sets[i]? with
  | none =>
    rw [hget] at hx
    exact absurd (hx ▸ rfl) hst
  | some y =>
    rw [hget] at hx
    exact hx ▸ List.mem_of_getElem? hget

/-- Where no set is RETIRING, nothing is promoted. -/
theorem State.promote_still {s : State} (h : ∀ x ∈ s.sets, x.st ≠ .retiring) (key : Nat) : s.promote key = s := by
  unfold State.promote
  split
  · rename_i i x hwin
    exact if_neg (h x (State.mem_sets_of_windowOf hwin))
  · rfl

/-- No set is RETIRING, and memory is as given. -/
def State.Still (m : List Host.Cell) (s : State) : Prop := (∀ x ∈ s.sets, x.st ≠ .retiring) ∧ s.mem = m

theorem State.Still.atHome {m : List Host.Cell} {s : State} (h : s.Still m) (key n : Nat) : (s.atHome key n).Still m := by
  refine foldl_keeps (State.Still m) _ (fun s i hs => ?_) _ h
  obtain ⟨hset, hmem⟩ := hs
  rw [State.promote_still hset]
  exact ⟨(State.sets_of_bystanders (s.touch_bystanders i false)).symm ▸ hset, (s.touch_mem i false).trans hmem⟩

/-- A property that reading at home keeps holds after a surface that was read. -/
theorem State.surfacePieces_keeps {P : State → Prop} (hP : ∀ s key n, P s → P (s.atHome key n)) {rgn : Nat}
    (ps : List (Nat × Nat)) {s t : State} {acc bs : List Byte} (h : s.surfacePieces rgn acc ps = .ok t bs) (hs : P s) : P t := by
  induction ps generalizing s acc with
  | nil =>
    rw [State.surfacePieces] at h
    cases h
    exact hs
  | cons p ps ih =>
    rw [State.surfacePieces] at h
    split at h
    · cases h
    · rename_i s1 key leaf hplace
      have hs1 : s1 = s := by
        unfold State.presentPlace at hplace
        split at hplace
        · cases hplace
        · exact (congrArg Prod.fst hplace).symm
      subst hs1
      split at h
      · cases h
      · split at h
        · cases h
        · refine ih h ?_
          split
          · exact hs
          · exact hP _ _ _ hs

theorem State.surface_keeps {P : State → Prop} (hP : ∀ s key n, P s → P (s.atHome key n)) {s t : State} {rgn : Nat}
    {d : BitVec 512} {bs : List Byte} (h : s.surface rgn d = .ok t bs) (hs : P s) : P t :=
  State.surfacePieces_keeps hP _ h hs

/-! ### The head of a queue flips (R338) -/

/-- The state with the head of a queue gone. -/
def State.headDropped (s : State) (n : Nat) : State :=
  { s with presents := s.presents.modify n fun p => { p with entries := p.entries.drop 1 } }

section

variable {s r1 : State} {n : Nat} {e : PEntry} {bs : List Byte}
  (h : (s.headDropped n).surface e.rgn e.desc = .ok r1 bs)
include h

theorem State.flipHead_read : s.flipHead n e = { r1 with
    presents := r1.presents.modify n fun p => { p with last := some (e.desc, e.rgn) }
    scanout := r1.scanout ++ [⟨n, some e.desc, bs⟩]
    readouts := r1.readouts ++ [⟨n, e.desc, e.rgn⟩] } := by
  unfold State.flipHead
  extract_lets drop keep
  change (match (s.headDropped n).surface e.rgn e.desc with | .bad _ _ _ => _ | .ok _ _ => _) = _
  rw [h]

theorem State.surface_around : r1.around = (s.headDropped n).around :=
  State.surface_keeps (P := fun t => t.around = (s.headDropped n).around) (fun _ _ _ ht => (State.atHome_around ..).trans ht)
    h rfl

theorem State.flipHead_mem (hset : ∀ x ∈ s.sets, x.st ≠ .retiring) : (s.flipHead n e).mem = s.mem := by
  rw [State.flipHead_read h]
  exact (State.surface_keeps (P := State.Still s.mem) (fun _ _ _ ht => ht.atHome _ _) h ⟨hset, rfl⟩).2

theorem State.flipHead_presents {p : PQueue} {rest : List PEntry} (hp : s.presents[n]? = some p) (hrest : p.entries = e :: rest) :
    ((s.flipHead n e).presents[n]?).map PQueue.entries = some rest := by
  rw [State.flipHead_read h]
  dsimp only
  rw [State.presents_of_around (State.surface_around h), State.headDropped]
  simp only [List.getElem?_modify_eq, hp, Option.map_some, Option.map_eq_map, hrest, List.drop_one, List.tail_cons]

end

/-! ### The events of the unit -/

section

variable {s : State} {n : Nat} {p : PQueue}

theorem PQueue.released_head {e : PEntry} {rest : List PEntry} (hhead : p.entries = e :: rest) (hrel : e.released = true) :
    p.entries.head?.filter PEntry.released = some e := by
  rw [hhead, List.head?_cons, Option.filter_some, if_pos hrel]

theorem presentFlip_eager {e : PEntry} {rest : List PEntry} (hp : s.presents[n]? = some p) (hhead : p.entries = e :: rest)
    (hrel : e.released = true) (hen : s.presEn.getLsbD n = false) : execPresentFlip n s = .next (s.flipHead n e) := by
  unfold execPresentFlip
  simp only [hp, hen, PQueue.released_head hhead hrel, Bool.false_eq_true, if_false]

theorem presentFlip_slot {e : PEntry} {rest : List PEntry} (hp : s.presents[n]? = some p) (hhead : p.entries = e :: rest)
    (hrel : e.released = true) (hen : s.presEn.getLsbD n = true) (hslot : p.slot ≤ s.us) : execPresentFlip n s =
      let load : PQueue → PQueue := fun p => { p with slot := p.slot + p.interval }
      .next ((({ s with presents := s.presents.modify n load } : State).raiseFor n false).flipHead n e) := by
  unfold execPresentFlip
  simp only [hp, hen, PQueue.released_head hhead hrel, if_true, if_neg (Nat.not_lt.2 hslot)]

theorem presentFlip_missed (hp : s.presents[n]? = some p) (hnil : p.entries = []) (hen : s.presEn.getLsbD n = true)
    (hslot : p.slot ≤ s.us) : execPresentFlip n s =
      let load : PQueue → PQueue := fun p => { p with slot := p.slot + p.interval }
      .next ((({ s with presents := s.presents.modify n load } : State).raiseFor n false).missedSlot n) := by
  unfold execPresentFlip
  simp [hp, hnil, hen, Nat.not_lt.2 hslot]

theorem presentGuard_raises (hp : s.presents[n]? = some p) (hnil : p.entries = []) (hen : s.presEn.getLsbD n = true)
    (hslot : p.slot ≤ s.us + s.presGuard) : execPresentGuard n s = .next (s.raiseFor n true) := by
  unfold execPresentGuard
  simp [hp, hnil, hen, hslot]

theorem getLsbD_setBit (v : BitVec 4) {r : Nat} (h : r < 4) : (v ||| BitVec.ofNat 4 (2 ^ r)).getLsbD r = true := by
  rw [BitVec.getLsbD_or, BitVec.getLsbD_ofNat, Nat.testBit_two_pow_self, decide_eq_true h, Bool.and_self, Bool.or_true]

theorem State.raiseFor_raised {r : Nat} {x : Region} (hx : s.region? n = some x) (hr : r < 4) (hst : x.st = .running)
    (hpq : x.rcb.pq.getLsbD r = true) : ∃ y, (s.raiseFor r true).region? n = some y ∧ y.raised.getLsbD r = true := by
  unfold State.raiseFor
  extract_lets bit go
  refine ⟨go x, (NMap.find_mapVal go s.regions n).trans (congrArg (Option.map go) hx), ?_⟩
  have hgo : go x = { x with raised := x.raised ||| bit } :=
    (if_neg (by decide)).trans (if_pos (show (x.st = .running ∨ x.st = .ready) ∧ _ from ⟨.inl hst, hpq⟩))
  rw [hgo]
  exact getLsbD_setBit _ hr

end

/-! ### A surface has been read out -/

theorem State.presentPlace_of_place {s : State} {rgn va key : Nat} {leaf : Leaf}
    (h : s.place (s.fnOf rgn) (s.asrOf rgn) va = some (key, leaf)) : s.presentPlace rgn va = (s, some (key, leaf)) := by
  unfold State.place at h
  unfold State.presentPlace
  split at h
  · cases h
    simp only [*]
  · cases h

section

variable {s : State} {n : Nat} {x : Readout} (hx : s.readouts[n]? = some x)
include hx

theorem presentReadoutDone_silent (hva : dfield x.desc 511 448 = 0) :
    execPresentReadoutDone n s = .next { s with readouts := s.readouts.eraseIdx n } := by
  unfold execPresentReadoutDone
  rw [hx]
  exact if_pos hva

section

variable {key : Nat} {leaf : Leaf} (hva : dfield x.desc 511 448 ≠ 0)
  (hplace : let r := { s with readouts := s.readouts.eraseIdx n }
    r.place (r.fnOf x.rgn) (r.asrOf x.rgn) (dfield x.desc 511 448) = some (key, leaf))
include hva hplace

theorem presentReadoutDone_placed : execPresentReadoutDone n s =
    let r := { s with readouts := s.readouts.eraseIdx n }
    if leaf.home then .next (r.raiseCtr ⟨x.rgn, none, 0, 0, r.nextId⟩ key (some (dfield x.desc 511 448)))
    else .next (r.postEng x.rgn none 0 0 { code := 0x0A, sub := 3, addr := some (dfield x.desc 511 448), wr := true }) := by
  unfold execPresentReadoutDone
  rw [hx]
  dsimp -zeta only
  extract_lets r va
  rw [if_neg hva, State.presentPlace_of_place (s := r) hplace]

theorem presentReadoutDone_raises (hwr : leaf.wr = true) (hcls : leaf.cls = .h) :
    execPresentReadoutDone n s =
      let r := { s with readouts := s.readouts.eraseIdx n }
      .next (r.raiseCtr ⟨x.rgn, none, 0, 0, r.nextId⟩ key (some (dfield x.desc 511 448))) :=
  (presentReadoutDone_placed hx hva hplace).trans (if_pos (by simp [Leaf.home, hwr, hcls]))

theorem presentReadoutDone_refused (h : leaf.wr = false ∨ leaf.cls ≠ .h) :
    execPresentReadoutDone n s =
      let r := { s with readouts := s.readouts.eraseIdx n }
      .next (r.postEng x.rgn none 0 0 { code := 0x0A, sub := 3, addr := some (dfield x.desc 511 448), wr := true }) :=
  (presentReadoutDone_placed hx hva hplace).trans (if_neg (by rcases h with h | h <;> simp [Leaf.home, h]))

end

end

/-! ### A counter is raised (R214, R325) -/

section

variable {s r : State} {e : EngOf} {key va : Nat} (hlink : s.cutOff key = false)
include hlink

theorem State.raiseCtr_refused {sub : BitVec 8} (h : s.windowBad e.rgn .tagged key = some sub) :
    s.raiseCtr e key (some va) = s.engRecord e { code := 0x0E, sub := sub, addr := some va, wr := true } := by
  unfold State.raiseCtr
  simp only [hlink, Bool.false_eq_true, if_false, h, Option.getD_none]

variable (hwin : s.windowBad e.rgn .tagged key = none)
include hwin

theorem State.raiseCtr_held (h : s.heldPart (s.liveTag e.rgn) e.id key = true) : s.raiseCtr e key (some va) =
    { s with ctrHeld := s.ctrHeld ++ [⟨e.rgn, e.core, e.cluster, e.pc, e.id, key, some va⟩] } := by
  unfold State.raiseCtr
  simp only [hlink, Bool.false_eq_true, if_false, hwin, h, if_true]

theorem State.raiseCtr_poisoned (hfree : s.heldPart (s.liveTag e.rgn) e.id key = false)
    (h : s.poisonedFor (s.liveTag e.rgn) key 8 = true) : s.raiseCtr e key (some va) = s.dataError e.rgn key := by
  unfold State.raiseCtr
  simp only [hlink, Bool.false_eq_true, if_false, hwin, hfree, h, if_true]

theorem State.raiseCtr_done (hfree : s.heldPart (s.liveTag e.rgn) e.id key = false)
    (hclean : s.poisonedFor (s.liveTag e.rgn) key 8 = false)
    (hw : s.homeWrite (s.liveTag e.rgn) none key
      (toLe 8 ((leBytes (s.homeBytes (s.liveTag e.rgn) key 8) + 1) % 2 ^ 64)) = .ok r) : s.raiseCtr e key (some va) = r := by
  unfold State.raiseCtr
  simp only [hlink, Bool.false_eq_true, if_false, hwin, hfree, hclean, hw]

end

/-- Settles O51: each lane and each event by its own lemma; what reading a surface leaves is what reading at home leaves. -/
theorem presents : Obligations.Presents := by
  unfold Obligations.Presents
  intro f s s1 c
  refine ⟨perLane_lanes, ?lane, ?flip, ?empty, fun n x r => State.raiseFor_raised, ?readout, ?raise⟩
  case lane =>
    intro r r1 r2 r3 l d q va
    exact ⟨State.presentLane_denied, fun hgrant hd => ⟨State.presentLane_illFormed hgrant hd, fun hfine hdone =>
      ⟨State.presentLane_full hgrant hd hfine hdone, State.presentLane_appends hgrant hd hfine hdone⟩⟩⟩
  case flip =>
    intro n p e rest hp hhead hrel
    refine ⟨presentFlip_eager hp hhead hrel, presentFlip_slot hp hhead hrel, ?_⟩
    intro drop r r1 bs h
    have haround := State.surface_around h
    have hread := State.flipHead_read h
    refine ⟨?_, ?_, by rw [hread], State.flipHead_mem h, State.flipHead_presents h hp hhead⟩
    · rw [hread]
      exact congrArg (· ++ [_]) (State.scanout_of_around (s := s.headDropped n) haround)
    · rw [hread]
      exact congrArg (· ++ [_]) (State.readouts_of_around (s := s.headDropped n) haround)
  case empty =>
    intro n p hp hnil hen
    exact ⟨presentFlip_missed hp hnil hen, presentGuard_raises hp hnil hen⟩
  case readout =>
    intro n x hx r va
    exact ⟨presentReadoutDone_silent hx, fun key leaf hva hplace =>
      ⟨presentReadoutDone_raises hx hva hplace, presentReadoutDone_refused hx hva hplace⟩⟩
  case raise =>
    intro e key va hlink
    exact ⟨fun sub => State.raiseCtr_refused hlink, State.raiseCtr_held hlink, State.raiseCtr_poisoned hlink,
      fun r => State.raiseCtr_done hlink⟩

end Sys2Proof.Machine
end

section
/-! PROOFS. `wdq` and the distribution of work items (O44, R358, R359). -/

namespace Sys2Proof.Machine

open Sys2Proof

section

variable {r : State} {c : Ctx} {l : Nat}

theorem State.wdqLane_misaligned (h : addrSum (c.a l) 0 1 c.offX 32 % 4 ≠ 0) :
    r.wdqLane c l = .fault r { code := 2, sub := 1, addr := some (addrSum (c.a l) 0 1 c.offX 32) } := if_pos h

/-- A lane whose answer word and barrier lie in its window takes a slot where one is free (R213, R358). -/
theorem State.wdqLane_takes_slot {wg off : Nat} {b : BarRef} (ha : addrSum (c.a l) 0 1 c.offX 32 % 4 = 0) (hb : c.b l % 32 = 0)
    (hp : r.winPlace c.x false (addrSum (c.a l) 0 1 c.offX 32) = .ok ⟨wg, off⟩) (hfit : off + 4 ≤ r.scrSize wg)
    (hbar : r.barAt c.x false (c.b l) = .ok b) (hwg : b.wg = wg) :
    r.wdqLane c l = r.putOp { c.op r l .wdq wg wg 0 4 (.bar b) with off := off } := by
  unfold State.wdqLane
  simp only [ha, hb, hp, hbar, hwg, if_neg (Nat.not_lt.2 hfit), ne_eq, not_true_eq_false, if_false]

end

section

variable {s : State} {o : CopyOp} (ho : s.copies = [o]) (hkind : o.kind = .wdq)
include ho hkind

/-- The one request in flight is the one to be served. -/
theorem State.find_wdq : (s.copies.find? fun p => p.id == o.id && decide (p.kind = .wdq)) = some o := by
  rw [ho, List.find?_cons_of_pos (by simp [hkind])]

/-- A request that has no item yet is handed one, where the region has one left, and the token of the end where not (R359). -/
theorem wdqServe_hands_out {x : Region} (hidx : o.idx = none) (hx : s.region? o.rgn = some x) : execWdqServe o.id s =
    let more := decide (x.nextItem < x.rcb.witems)
    let s1 := if more then s.updRegion o.rgn fun y => { y with nextItem := y.nextItem + 1 } else s
    .next (s1.setOp o.id fun p => some { p with idx := some (if more then x.nextItem else 0xFFFFFFFF) }) := by
  unfold execWdqServe
  rw [State.find_wdq ho hkind]
  dsimp only
  rw [hidx, hx]
  exact if_neg (by simp [ho])

theorem wdqServe_item {x : Region} (hx : s.region? o.rgn = some x) (hidx : o.idx = none) (hmore : x.nextItem < x.rcb.witems) :
    execWdqServe o.id s = .next ((s.updRegion o.rgn fun y => { y with nextItem := y.nextItem + 1 }).setOp o.id
      fun p => some { p with idx := some x.nextItem }) := by
  simp only [wdqServe_hands_out ho hkind hidx hx, decide_eq_true hmore, if_true]

theorem wdqServe_end {x : Region} (hx : s.region? o.rgn = some x) (hidx : o.idx = none) (hend : x.rcb.witems ≤ x.nextItem) :
    execWdqServe o.id s = .next (s.setOp o.id fun p => some { p with idx := some 0xFFFFFFFF }) := by
  simp only [wdqServe_hands_out ho hkind hidx hx, decide_eq_false (Nat.not_lt.2 hend), Bool.false_eq_true, if_false]

/-- The answer arrives in the answer word, and its bytes land (R371). -/
theorem wdqServe_arrives {v : Nat} {b : BarRef} (hdone : o.done = .bar b) (hidx : o.idx = some v) : execWdqServe o.id s =
    .next (((s.copyPut o.wg false o.off (toLe 4 v)).setOp o.id fun _ => none).barLand b 4 false) := by
  unfold execWdqServe
  rw [State.find_wdq ho hkind]
  dsimp only
  rw [hidx, hdone]
  rfl

end

/-- Settles O44: the lane by the slot it takes, a serve by whether the request has its item. -/
theorem workItems : Obligations.WorkItems := by
  unfold Obligations.WorkItems
  intro f s s1 c
  refine ⟨perLaneIf_lanes, ?lane, fun o x b ho hkind hdone hx => ⟨fun hidx hmore => wdqServe_item ho hkind hx hidx hmore,
    fun hidx hend => wdqServe_end ho hkind hx hidx hend, fun v hidx => wdqServe_arrives ho hkind hdone hidx⟩⟩
  case lane =>
    intro r l wg off b ans
    exact ⟨State.wdqLane_misaligned, State.wdqLane_takes_slot⟩

end Sys2Proof.Machine
end

section
/-! PROOFS. The Caller's engine and queue instructions (O48, R227 to R242). -/

namespace Sys2Proof.Machine

open Sys2Proof

/-! ### Engine commands (R228 to R239) -/

/-- The fields of OPT of a drain to a window (R237). -/
theorem mcwOpt_window {m : Nat} (h : mcwOpt m = 0 ∨ mcwOpt m = 64) : field (mcwOpt m) 7 6 = mcwOpt m / 64 ∧
    mcwOpt m / 64 < 2 ∧ field (mcwOpt m) 5 4 = 0 ∧ field (mcwOpt m) 3 0 = 0 := by
  rcases h with h | h <;> rw [h] <;> decide

section

variable {r r1 : State} {c : Ctx} {l wg : Nat} {y : Wg} {sa sb fs : BitVec 3} {z : Bool}

theorem State.engineGo_issued {eng : Nat} {cmd : ECmd} (h : r.engineIssue c.w l c.id = some r1) :
    r.engineGo c l eng cmd = .ok (r1.putCmd c eng cmd) [] := by
  unfold State.engineGo
  rw [h]

section

variable (hp : r.enginePartner c (mcwEng (c.mcw l)) = some (wg, y))
include hp

section

variable (hform : mcwBad (c.mcw l) true true false false = none)
include hform

theorem State.mmaLane_tobs (htob : tobBad (y.tobBanks * 131072) (mcwEng (c.mcw l)) [c.a l, c.b l] = none)
    (htile : mcwTile (c.mcw l) < y.accN) (hissue : r.engineIssue c.w l c.id = some r1) :
    r.mmaLane c l z sa sb false = .ok (r1.putCmd c (mcwEng (c.mcw l))
      (.mma z sa.toNat sb.toNat none (mcwTile (c.mcw l)) (c.a l % 2 ^ 30) (c.b l % 2 ^ 30))) [] := by
  unfold State.mmaLane
  simp only [hform, hp, Bool.false_eq_true, if_false, htob, if_neg (Nat.not_le.2 htile), Bool.not_false, if_true]
  exact State.engineGo_issued hissue

theorem State.mmaLane_noTile (htob : tobBad (y.tobBanks * 131072) (mcwEng (c.mcw l)) [c.a l, c.b l] = none)
    (htile : y.accN ≤ mcwTile (c.mcw l)) : r.mmaLane c l z sa sb false = .fault r { code := 3, sub := 3 } := by
  unfold State.mmaLane
  simp only [hform, hp, Bool.false_eq_true, if_false, htob, if_pos htile]

theorem State.azeroLane_enters (htile : mcwTile (c.mcw l) < y.accN) (hissue : r.engineIssue c.w l c.id = some r1) :
    r.azeroLane c l = .ok (r1.putCmd c (mcwEng (c.mcw l)) (.azero (mcwTile (c.mcw l)))) [] := by
  unfold State.azeroLane
  simp only [hform, hp, if_neg (Nat.not_le.2 htile)]
  exact State.engineGo_issued hissue

end

section

variable {g : Nat × Group} {h : Handle} (hform : mcwBad (c.mcw l) true true true false = none)
  (htob : tobBad (y.tobBanks * 131072) (mcwEng (c.mcw l)) [c.a l] = none) (htile : mcwTile (c.mcw l) < y.accN)
  (hg : r.callerGroup c = some g) (hh : g.2.handle (mcwHnd (c.mcw l)) = some h)
include hform htob htile hg hh

/-- Operand B of a command with a handle is the bound tile (R234). -/
theorem State.mmaLane_handle (hbound : h.bound = true) (hissue : r.engineIssue c.w l c.id = some r1) :
    r.mmaLane c l z sa sb true = .ok (r1.putCmd c (mcwEng (c.mcw l))
      (.mma z sa.toNat sb.toNat (some (mcwHnd (c.mcw l), h.inst)) (mcwTile (c.mcw l)) (c.a l % 2 ^ 30) 0)) [] := by
  unfold State.mmaLane
  simp only [hform, hp, if_true, htob, if_neg (Nat.not_le.2 htile), Bool.not_true, Bool.false_eq_true, if_false, hg,
    Option.bind_some, hh, hbound]
  exact State.engineGo_issued hissue

theorem State.mmaLane_unbound (hbound : h.bound = false) :
    r.mmaLane c l z sa sb true = .fault r { code := 0x0C, sub := 3 } := by
  unfold State.mmaLane
  simp only [hform, hp, if_true, htob, if_neg (Nat.not_le.2 htile), Bool.not_true, Bool.false_eq_true, if_false, hg,
    Option.bind_some, hh, hbound]

end

/-- A drain to a window without a merge and without a barrier (R237, R238). -/
theorem State.drainLane_enters (hform : mcwBad (c.mcw l) true true false true = none) (htile : mcwTile (c.mcw l) < y.accN)
    (hopt : mcwOpt (c.mcw l) = 0 ∨ mcwOpt (c.mcw l) = 64) (hs : c.e.f.isS = true) (ha : c.e.f.a ≠ .zeroLit)
    (hb : c.e.f.b = .zeroLit) (hbad : drainBad y (mcwEng (c.mcw l)) (mcwOpt (c.mcw l) / 64) (c.a l 2) none = none)
    (hissue : r.engineIssue c.w l c.id = some r1) :
    r.drainLane c l fs = .ok (r1.putCmd c (mcwEng (c.mcw l))
      (.drain fs.toNat (mcwOpt (c.mcw l) / 64) 0 (mcwTile (c.mcw l)) (c.a l 2 % 2 ^ 30) (c.a l 2 / 2 ^ 32) none none)) [] := by
  obtain ⟨hdst, hlt, hstr, hlow⟩ := mcwOpt_window hopt
  have h2 : (mcwOpt (c.mcw l) / 64 == 2) = false := beq_eq_false_iff_ne.2 (by omega)
  have h3 : (mcwOpt (c.mcw l) / 64 == 3) = false := beq_eq_false_iff_ne.2 (by omega)
  have hcls : (c.e.f.a == .zeroLit) = false := beq_eq_false_iff_ne.2 ha
  unfold State.drainLane
  simp only [hdst, hstr, hlow, hform, h2, h3, hcls, hp, hs, hb, Option.isSome_none, bne_self_eq_false, Bool.and_false,
    Bool.or_self, Bool.false_eq_true, if_false, if_neg (Nat.not_le.2 htile), true_or, if_true, hbad, Option.map_none]
  exact State.engineGo_issued hissue

end

end

/-! ### Tile fetches (R234 to R236) -/

section

variable {r r1 : State} {c : Ctx} {l n : Nat} {g : Group} {fs : BitVec 3} {q : Bool}
  (hform : mcwBad (c.mcw l) false false true false = none) (hg : r.callerGroup c = some (n, g))
include hform hg

theorem State.tfetchLane_misaligned (h : c.a l 2 % 128 ≠ 0) :
    r.tfetchLane c l fs q = .fault r { code := 2, sub := 1, addr := some (c.a l 2) } := by
  unfold State.tfetchLane
  simp only [hform, hg, if_pos (Or.inl h : c.a l 2 % 128 ≠ 0 ∨ _)]

theorem State.trelLane_releases :
    let free : Group → Group := fun g => { g with handles := g.handles.upd (mcwHnd (c.mcw l)) fun h => { h with bound := false } }
    r.trelLane c l = .ok { r with groups := r.groups.upd n free } [] := by
  unfold State.trelLane
  simp only [hform, hg]

section

variable (hbase : c.a l 2 % 128 = 0) (hpitch : c.b l ≠ 0) (hmul : c.b l % 128 = 0)
include hbase hpitch hmul

theorem State.tfetchLane_binds (hh : g.handle (mcwHnd (c.mcw l)) = none) (hissue : r.engineIssue c.w l c.id = some r1) :
    let h : Handle := ⟨c.id, true, false, BitVec.ofNat 64 (c.a l 2), c.b l, 0, false, [], [], c.pc⟩
    let bind : Group → Group := fun g => { g with handles := g.handles.ins (mcwHnd (c.mcw l)) h }
    r.tfetchLane c l fs false = .ok { r1 with groups := r1.groups.upd n bind } [] := by
  have hgo : ¬(c.a l 2 % 128 ≠ 0 ∨ c.b l = 0 ∨ c.b l % 128 ≠ 0) := by simp [hbase, hpitch, hmul]
  unfold State.tfetchLane State.bindHandle
  simp only [hform, hg, if_neg hgo, hh, hissue, Bool.false_eq_true, if_false]

theorem State.tfetchLane_bound {h : Handle} (hh : g.handle (mcwHnd (c.mcw l)) = some h) (hbound : h.bound = true) :
    r.tfetchLane c l fs q = .fault r { code := 0x0C, sub := 2 } := by
  have hgo : ¬(c.a l 2 % 128 ≠ 0 ∨ c.b l = 0 ∨ c.b l % 128 ≠ 0) := by simp [hbase, hpitch, hmul]
  unfold State.tfetchLane
  simp only [hform, hg, if_neg hgo, hh, hbound, if_true]

end

end

/-! ### Waiting, decisions and batches (R240 to R242) -/

/-- The engines that a mask names (R240). -/
def namedEngines (mask : Nat) : List Nat := [0, 1, 2, 3].filter fun n => (mask % 16).testBit n

/-- An engine of the Caller's cluster. -/
def State.callerEngine (r : State) (c : Ctx) (n : Nat) : Engine := (r.core (4 * clusterOfWave c.w + n)).engine

section

variable {r r1 : State} {c : Ctx} {l : Nat}

theorem State.mwaitLane_eq (hp : ∀ n ∈ namedEngines (c.a l), (r.enginePartner c n).isSome = true) : r.mwaitLane c l =
    if (namedEngines (c.a l)).all fun n => (r.callerEngine c n).settled then
      match r.acquireAt c.w l .cls with
      | none => .stay r
      | some r1 => .ok r1 [BitVec.ofNat 32 (b2n ((namedEngines (c.a l)).any fun n => (r.callerEngine c n).mestat.getLsbD 0))]
    else .block r .engines := by
  refine if_neg ?_
  rw [List.any_eq_true]
  rintro ⟨n, hn, hnone⟩
  rw [Option.isNone_iff_eq_none] at hnone
  simpa [hnone] using hp n hn

theorem State.mwaitLane_idle
    (hidle : ∀ n ∈ namedEngines (c.a l), (r.enginePartner c n).isSome = true ∧ (r.callerEngine c n).queue = [])
    (hacq : r.acquireAt c.w l .cls = some r1) : r.mwaitLane c l =
      .ok r1 [BitVec.ofNat 32 (b2n ((namedEngines (c.a l)).any fun n => (r.callerEngine c n).mestat.getLsbD 0))] := by
  have hall : ((namedEngines (c.a l)).all fun n => (r.callerEngine c n).settled) = true :=
    List.all_eq_true.2 fun n hn => by simp [Engine.settled, (hidle n hn).2]
  rw [State.mwaitLane_eq fun n hn => (hidle n hn).1, if_pos hall, hacq]

theorem State.mwaitLane_waits (hp : ∀ n ∈ namedEngines (c.a l), (r.enginePartner c n).isSome = true)
    (hbusy : ∃ n ∈ namedEngines (c.a l), (r.callerEngine c n).queue ≠ [] ∧ (r.callerEngine c n).mestat.getLsbD 0 = false) :
    r.mwaitLane c l = .block r .engines := by
  obtain ⟨n, hn, hq, hrun⟩ := hbusy
  have hunsettled : (r.callerEngine c n).settled = false := by
    rw [Engine.settled, hrun, Bool.or_false]
    simpa using hq
  have hall : ¬((namedEngines (c.a l)).all fun n => (r.callerEngine c n).settled) = true := fun h => by
    rw [List.all_eq_true.1 h n hn] at hunsettled
    cases hunsettled
  rw [State.mwaitLane_eq hp, if_neg hall]

section

variable {n wg : Nat} {g : Group} {y : Wg} (hg : r.callerGroup c = some (n, g)) (hb : c.b l < 4)
  (hm : g.members.find (c.b l) = some wg) (hy : r.wgs.find wg = some y)
include hg hb hm hy

theorem State.dqPutLane_appends (hroom : y.dq.length < 64) (hrel : r.releaseAt c.w l .cls = some r1) :
    r.dqPutLane c l false = .ok (r1.putDecision wg (BitVec.ofNat 32 (c.a l))) [] := by
  unfold State.dqPutLane
  simp [hg, Nat.not_lt.2 (Nat.le_of_lt_succ hb), hm, hy, hroom, hrel]

theorem State.dqPutLane_full (hfull : 64 ≤ y.dq.length) : r.dqPutLane c l false = .block r .decision := by
  unfold State.dqPutLane
  simp [hg, Nat.not_lt.2 (Nat.le_of_lt_succ hb), hm, hy, hfull]

end

variable {nb : Bool}

theorem State.takeLane_oldest {d : TakeDesc} {rest : List TakeDesc} (htake : (r.cluster (clusterOfWave c.w)).take = d :: rest)
    (hacq : (r.setCluster (clusterOfWave c.w) { r.cluster (clusterOfWave c.w) with take := rest }).acquireAt c.w l .cls = some r1) :
    r.takeLane c l nb = .pend r1 (c.calc l l (wordsOf 2 d.word.toNat)) := by
  unfold State.takeLane
  simp only [htake, hacq]

theorem State.takeLane_empty (htake : (r.cluster (clusterOfWave c.w)).take = []) :
    r.takeLane c l nb = if nb then .pend r (c.calc l l [0, 0]) else .block r .take := by
  unfold State.takeLane
  simp only [htake]

end

/-- Settles O48: each instruction by its lane, in the order of the statement. -/
theorem matrixIssue : Obligations.MatrixIssue := by
  unfold Obligations.MatrixIssue
  intro f sa sb fs bh q all nb s s1 c
  refine ⟨perLaneIf_lanes, perLaneIf_lanes, perLaneIf_lanes, perLaneIf_lanes, perLane_lanes, perLane_lanes, perLane_lanes,
    perLane_lanes, perLane_lanes, fun r eng cmd => rfl, ?engine, ?fetch, ?queues⟩
  case engine =>
    intro r r1 l wg y m hp hissue
    refine ⟨fun z hform htob => ⟨fun htile => State.mmaLane_tobs hp hform htob htile hissue, State.mmaLane_noTile hp hform htob⟩,
      fun z g h hform htob htile hg hh => ⟨fun hbound => State.mmaLane_handle hp hform htob htile hg hh hbound hissue,
        State.mmaLane_unbound hp hform htob htile hg hh⟩,
      fun hform htile => State.azeroLane_enters hp hform htile hissue, fun hform htile hopt hs ha hb hbad => ?drain⟩
    case drain => exact State.drainLane_enters hp hform htile hopt hs ha hb hbad hissue
  case fetch =>
    intro r r1 l n g m hform hg
    exact ⟨State.tfetchLane_binds hform hg, fun h hbase hpitch hmul => State.tfetchLane_bound hform hg hbase hpitch hmul,
      State.tfetchLane_misaligned hform hg, State.trelLane_releases hform hg⟩
  case queues =>
    intro r r1 l e engs
    exact ⟨State.mwaitLane_idle, State.mwaitLane_waits, fun n g wg y hg hb hm hy =>
      ⟨State.dqPutLane_appends hg hb hm hy, State.dqPutLane_full hg hb hm hy⟩,
      fun d rest => State.takeLane_oldest, State.takeLane_empty⟩

end Sys2Proof.Machine
end

section
/-! PROOFS. Context tensors and the sweep engines (O46, R394 to R401). -/

namespace Sys2Proof.Machine

open Sys2Proof

/-! ### The instructions (R400, R401)

Where a lemma names an operation by `exists_eq`, the kernel is kept from computing that operation when it compares two matches on its
results. -/

section

variable {r r1 r2 r3 : State} {c : Ctx} {l : Nat}

/-- A sweep joins the queue of its die; a full queue answers 1 (R400). -/
theorem State.sweepLane_queues {d : BitVec 512} {p : Part} (hd : r.sweepDesc c l (c.tensor l) = .ok r1 d) (hctr : c.b l 2 % 8 = 0)
    (hreach : r1.reach (c.x.agent c.w) .wr clsHome .tagged (c.b l 2) 8 = .ok r2 [p]) (hrel : r2.releaseAt c.w l .dev = some r3) :
    let k := clusterOfWave c.w / 24
    r.sweepLane c l =
      if 64 ≤ (r3.die k).sweepQ.length then .ok r3 [1]
      else
        let y : Sweep := ⟨r3.nextId, c.x.rgn, r3.liveTag c.x.rgn, BitVec.ofNat 64 (c.tensor l), d,
          BitVec.ofNat 32 (if c.e.f.isS then 0 else c.c l), c.b l 2, 0, false, false, [], [], c.pc,
          if c.x.kind = .tile ∨ c.x.kind = .step then c.x.src else 0⟩
        .ok (({ r3 with nextId := r3.nextId + 1 } : State).setDie k
          { r3.die k with sweepQ := (r3.die k).sweepQ ++ [y] }) [0] := by
  obtain ⟨reach, hdef⟩ := exists_eq (a' := State.reach)
  rw [State.sweepLane.eq_def]
  rw [← hdef] at hreach ⊢
  simp only [hd, misaligned_of_dvd hctr, hreach, hrel]

theorem State.ctxSetLane_noElem (h : (c.thread l).elem = none) : r.ctxSetLane c l = .fault r { code := 0x17, sub := 8 } := by
  unfold State.ctxSetLane
  rw [h]

section

variable {e : Elem} (he : (c.thread l).elem = some e)
include he

theorem State.ctxSetLane_badKind (hk : 6 ≤ c.a l % 16) : r.ctxSetLane c l = .fault r { code := 0x17, sub := 6 } := by
  unfold State.ctxSetLane
  rw [he]
  exact if_pos (Or.inl (by omega))

theorem State.ctxSetLane_writes {key : Nat} (hk : c.a l % 16 < 6) (hsz : c.a l % 16 ≠ 2 ∨ e.csz ≠ 0)
    (hrel : r.releaseAt c.w l .dev = some r1) (hreach : r1.reachHome c e.ctxVa.toNat 2 = .ok (r2, key)) :
    r.ctxSetLane c l = r2.putHome c l e.ctxVa.toNat key (toLe 2 (c.a l % 65536)) := by
  have hgo : ¬(6 ≤ c.a l % 2 ^ 16 % 16 ∨ c.a l % 2 ^ 16 % 16 = 2 ∧ e.csz = 0) := by omega
  obtain ⟨reach, hdef⟩ := exists_eq (a' := State.reachHome)
  rw [State.ctxSetLane.eq_def]
  rw [← hdef] at hreach ⊢
  simp only [he, if_neg hgo, hrel, hreach]
  rfl

end

theorem State.reachHome_part {va m : Nat} {p : Part} (hreach : r.reach (c.x.agent c.w) .wr clsHome .tagged va m = .ok r1 [p])
    (hheld : r1.heldPart (r1.liveTag c.x.rgn) c.id p.key = false) : r.reachHome c va m = .ok (r1, p.key) := by
  unfold State.reachHome
  rw [hreach]
  exact if_neg (by rw [List.map_cons, List.headD_cons, hheld]; exact Bool.false_ne_true)

section

variable {va key : Nat} (hcut : r.cutOff key = false)
include hcut

theorem State.putHome_writes {bs : List Byte} (hw : r.homeWrite (r.liveTag c.x.rgn) (some (c.w, l)) key bs = .ok r1) :
    r.putHome c l va key bs = .ok r1 [] := by
  unfold State.putHome
  simp only [hcut, Bool.false_eq_true, if_false, hw]

theorem State.editHome_sound {g : Byte → Byte} (hpoison : r.poisonedFor (r.liveTag c.x.rgn) key 1 = false) :
    r.editHome c l va key g = r.putHome c l va key ((r.homeBytes (r.liveTag c.x.rgn) key 1).map g) := by
  unfold State.editHome
  simp only [hcut, hpoison, Bool.and_false, Bool.false_eq_true, if_false]

end

/-- The chunk of a wake is in flight in a sweep of the same descriptor, so that the wake is held for it (R401). -/
def State.flyingFor (s : State) (c : Ctx) (lane : Nat) (x : Sweep) : Bool :=
  s.sameSweep (s.asrOf c.x.rgn) (s.liveTag c.x.rgn) (BitVec.ofNat 64 (c.tensor lane)) x && x.flying && x.cursor == c.b lane / 64

section

variable {d : BitVec 512} (hd : r.sweepDesc c l (c.tensor l) = .ok r1 d)
include hd

theorem State.ctxWakeLane_outside (hk : swCount d ≤ c.b l) : r.ctxWakeLane c l = .fault r1 { code := 0x17, sub := 7 } := by
  unfold State.ctxWakeLane
  simp only [hd, if_pos hk]

section

variable (hk : c.b l < swCount d) (hrel : r1.releaseAt c.w l .dev = some r2)
include hk hrel

theorem State.ctxWakeLane_eq : r.ctxWakeLane c l =
    if (r2.dies.any fun x => x.engines.any fun e => r2.flyingFor c l e.2) then
      .ok { r2 with dies := r2.dies.map fun x => { x with engines := x.engines.map fun e =>
        (e.1, if r2.flyingFor c l e.2 then e.2.hold (c.b l) else e.2) } } []
    else r2.wakeNow c l (c.b l) d := by
  unfold State.ctxWakeLane
  simp only [hd, if_neg (Nat.not_le.2 hk), hrel]
  rfl

theorem State.ctxWakeLane_now (hnone : ∀ x ∈ r2.dies, ∀ e ∈ x.engines, r2.flyingFor c l e.2 = false) :
    r.ctxWakeLane c l = r2.wakeNow c l (c.b l) d := by
  rw [State.ctxWakeLane_eq hd hk hrel, if_neg]
  simpa only [List.any_eq_true, not_exists, not_and, Bool.not_eq_true] using hnone

theorem State.ctxWakeLane_held (hsome : ∃ x ∈ r2.dies, ∃ e ∈ x.engines, r2.flyingFor c l e.2 = true) : r.ctxWakeLane c l =
    .ok { r2 with dies := r2.dies.map fun x => { x with engines := x.engines.map fun e =>
      (e.1, if r2.flyingFor c l e.2 then e.2.hold (c.b l) else e.2) } } [] := by
  rw [State.ctxWakeLane_eq hd hk hrel, if_pos]
  simpa only [List.any_eq_true] using hsome

end

end

/-- A wake makes the context ready, then clears the skip bit of its chunk (R401). -/
theorem State.wakeNow_edits {k ctx skip : Nat} {d : BitVec 512} (hctx : r.reachHome c (swCtx d k) 1 = .ok (r1, ctx))
    (hskip : r1.reachHome c (swSkip d (k / 64)) 1 = .ok (r2, skip))
    (hedit : r2.editHome c l (swCtx d k) ctx wokenByte = .ok r3 []) : r.wakeNow c l k d =
      r3.editHome c l (swSkip d (k / 64)) skip fun b => b &&& ~~~(1#8 <<< (k / 64 % 8)) := by
  obtain ⟨reach, hdef⟩ := exists_eq (a' := State.reachHome)
  rw [State.wakeNow.eq_def]
  rw [← hdef] at hctx hskip ⊢
  simp only [hctx, hskip, hedit]

end

/-! ### The engines (R395 to R397) -/

section

variable {s s1 s2 : State} {die n : Nat}

/-- The first queued sweep takes engine 0 where no engine and no earlier entry of a queue holds a sweep of its descriptor (R398). -/
theorem sweepStart_takes_engine {y : Sweep} {rest : List Sweep} (hq : (s.die die).sweepQ = y :: rest)
    (hfree : (s.die die).engines.find 0 = none)
    (hothers : ∀ d ∈ s.dies, (∀ e ∈ d.engines, e.2.descVa ≠ y.descVa) ∧ ∀ z ∈ d.sweepQ, y.id ≤ z.id) :
    execSweepStart die s = .next (s.setDie die
      { s.die die with sweepQ := rest, engines := (s.die die).engines.ins 0 y }) := by
  have hfind : ((List.range 8).find? fun n => ((s.die die).engines.find n).isNone) = some 0 := by
    rw [show List.range 8 = 0 :: (List.range 7).map Nat.succ from rfl, List.find?_cons_of_pos (by rw [hfree]; rfl)]
  have hno : ¬(s.dies.any fun d => (d.engines.any fun e => s.sameSweep (s.asrOf y.rgn) y.tag y.descVa e.2) ||
      d.sweepQ.any fun z => decide (z.id < y.id) && s.sameSweep (s.asrOf y.rgn) y.tag y.descVa z) = true := by
    simp only [List.any_eq_true, Bool.or_eq_true, Bool.and_eq_true, decide_eq_true_eq, not_exists, not_and]
    rintro d hd (⟨e, he, hsame⟩ | ⟨z, hz, hlt, -⟩)
    · exact (hothers d hd).1 e he (by simpa [State.sameSweep] using (Bool.and_eq_true_iff.1 hsame).2)
    · exact absurd hlt (Nat.not_lt.2 ((hothers d hd).2 z hz))
  unfold execSweepStart
  simp only [hq, hfind, if_neg hno]

section

variable {x : Sweep} (hx : (s.die die).engines.find n = some x)
include hx

section

variable (hquota : s.quotaWait x.rgn = false)
include hquota

section

variable (hfly : x.flying = false)
include hfly

section

variable {bs : List Byte} (hcur : x.cursor < swChunks x.desc)
  (hread : s.sweepRead (s.sweepEng die x) (swSkip x.desc x.cursor) 1 = .ok s1 bs)
include hcur hread

/-- A chunk that may be skipped is passed by (R395). -/
theorem sweepChunk_skipped (hbit : (leBytes bs).testBit (x.cursor % 8) = true) :
    execSweepChunk die n s = .next (s1.nextChunk die n x) := by
  unfold execSweepChunk
  simp only [hx, hfly, hquota, Bool.or_self, Bool.false_eq_true, if_false, if_neg (Nat.not_le.2 hcur), hread, hbit, if_true]

theorem sweepChunk_evaluated {l : List CtxSeen} (hbit : (leBytes bs).testBit (x.cursor % 8) = false)
    (hscan : s1.ctxScan (s.sweepEng die x) x (chunkElems x.desc x.cursor) = .ok s2 l) :
    execSweepChunk die n s = .next (s2.chunkSeen die n x l) := by
  unfold execSweepChunk
  simp only [hx, hfly, hquota, Bool.or_self, Bool.false_eq_true, if_false, if_neg (Nat.not_le.2 hcur), hread, hbit, hscan]

end

theorem sweepChunk_past_last (hcur : swChunks x.desc ≤ x.cursor) : execSweepChunk die n s = .next (s.sweepEnd die n x) := by
  obtain ⟨read, hdef⟩ := exists_eq (a' := State.sweepRead)
  rw [execSweepChunk.eq_def, ← hdef]
  simp only [hx, hfly, hquota, Bool.or_self, Bool.false_eq_true, if_false, if_pos hcur]

end

section

variable (hfly : x.flying = true) (hidle : s.stepBusy x = false) (hcores : x.cores = [])
include hfly hidle hcores

theorem chunkStepComplete_noSkip (hskip : x.noSkip = true) :
    execChunkStepComplete die n s = .next (s.wakesThenNext die n x) := by
  unfold execChunkStepComplete
  simp only [hx, hfly, hidle, hquota, hskip, hcores, Bool.not_true, Bool.or_self, Bool.false_eq_true, if_false, if_true,
    List.foldl_nil]

section

variable {quiet : Bool} (hskip : x.noSkip = false)
  (hquiet : s.allQuiet (s.sweepEng die x) x (chunkElems x.desc x.cursor) = .ok s2 quiet)
include hskip hquiet

theorem chunkStepComplete_eq : execChunkStepComplete die n s =
    match if quiet then s2.setSkip (s.sweepEng die x) x else (s2, false) with
    | (s3, true) => .next s3
    | (s3, false) => .next (s3.wakesThenNext die n x) := by
  unfold execChunkStepComplete
  simp only [hx, hfly, hidle, hquota, hskip, hcores, Bool.not_true, Bool.or_self, Bool.false_eq_true, if_false,
    List.foldl_nil, hquiet] <;> rfl

/-- The skip bit of a chunk is set where each of its contexts sleeps or is done (R395). -/
theorem chunkStepComplete_quiet {s3 : State} {again : Bool} (hq : quiet = true)
    (hset : s2.setSkip (s.sweepEng die x) x = (s3, again)) :
    execChunkStepComplete die n s = .next (if again then s3 else s3.wakesThenNext die n x) := by
  rw [chunkStepComplete_eq hx hquota hfly hidle hcores hskip hquiet, if_pos hq, hset]
  cases again <;> rfl

theorem chunkStepComplete_restless (hq : quiet = false) :
    execChunkStepComplete die n s = .next (s2.wakesThenNext die n x) := by
  rw [chunkStepComplete_eq hx hquota hfly hidle hcores hskip hquiet, hq]
  rfl

end

end

end

theorem State.nextChunk_eq : s.nextChunk die n x =
    if x.cursor + 1 < swChunks x.desc then
      s.setSweep die n (some { x with cursor := x.cursor + 1, flying := false, noSkip := false, held := [] })
    else s.sweepEnd die n x := by
  unfold State.nextChunk
  rw [hx]

end

/-- The cursor goes on once every held wake is applied (R401). -/
theorem State.wakesThenNext_eq {x : Sweep} {s3 : State} {left : List Word} (h : s.applyWakes die n x x.held = (s3, left)) :
    s.wakesThenNext die n x =
      if left = [] then s3.nextChunk die n { x with cores := [] }
      else s3.keepSweep die n { x with cores := [], noSkip := true, held := left } := by
  unfold State.wakesThenNext
  rw [h]
  cases left with
  | nil => rfl
  | cons k ks => exact (if_neg (List.cons_ne_nil k ks)).symm

theorem State.sweepEnd_raises {x : Sweep} {p : Part} (h : s.engParts (s.sweepEng die x) .wr clsHome x.ctr 8 = .ok s1 [p]) :
    s.sweepEnd die n x = (s1.setSweep die n none).raiseCtr (s.sweepEng die x) p.key (some x.ctr) := by
  obtain ⟨parts, hdef⟩ := exists_eq (a' := State.engParts)
  rw [State.sweepEnd.eq_def]
  rw [← hdef] at h ⊢
  simp only [h, List.map_cons, List.headD_cons]

end

/-- Settles O46: the instructions by their lanes, then the events of the engines. -/
theorem sweeps : Obligations.Sweeps := by
  unfold Obligations.Sweeps
  intro f s s1 s2 c die n
  refine ⟨perLane_lanes, perLane_lanes, perLane_lanes, ?sweep, ?set, ?reach, ?home, ?wake, ?wakeNow, fun b => rfl,
    fun y rest => sweepStart_takes_engine, ?engine⟩
  case sweep => exact fun r r1 r2 r3 l d p => State.sweepLane_queues
  case set =>
    exact fun r r1 l e => ⟨State.ctxSetLane_noElem, State.ctxSetLane_badKind, fun r2 key he => State.ctxSetLane_writes he⟩
  case reach => exact fun r r1 va m p => State.reachHome_part
  case home => exact fun r r1 l va key bs g hcut => ⟨State.putHome_writes hcut, State.editHome_sound hcut⟩
  case wake =>
    intro r r1 r2 l d hd
    exact ⟨State.ctxWakeLane_outside hd, fun hk hrel =>
      ⟨State.ctxWakeLane_now hd hk hrel, State.ctxWakeLane_held hd hk hrel⟩⟩
  case wakeNow => exact fun r r1 r2 r3 l k ctx skip d => State.wakeNow_edits
  case engine =>
    intro x hx hquota
    refine ⟨fun bs hfly hcur hread => ⟨sweepChunk_skipped hx hquota hfly hcur hread,
        fun l => sweepChunk_evaluated hx hquota hfly hcur hread⟩, sweepChunk_past_last hx hquota, ?complete,
      fun s3 left => State.wakesThenNext_eq, fun h => ?next, fun h => ?last, fun p => State.sweepEnd_raises⟩
    case complete =>
      exact fun hfly hidle hcores => ⟨chunkStepComplete_noSkip hx hquota hfly hidle hcores, fun hskip quiet hquiet =>
        ⟨chunkStepComplete_restless hx hquota hfly hidle hcores hskip hquiet,
          fun s3 again => chunkStepComplete_quiet hx hquota hfly hidle hcores hskip hquiet⟩⟩
    case next => rw [State.nextChunk_eq hx, if_pos h]
    case last => rw [State.nextChunk_eq hx, if_neg (Nat.not_lt.2 h)]

end Sys2Proof.Machine
end

section
/-! PROOFS. Collectives (O47, R419 to R423). -/

namespace Sys2Proof.Machine

open Sys2Proof

/-! ### Issue (R421) -/

section

variable {r r1 r2 : State} {c : Ctx} {l : Nat} {kind : CollKind} {red : CollRed} {d : BitVec 512} {p : Part}

/-- The element count that applies (R420). -/
def collCount (c : Ctx) (d : BitVec 512) : Nat := if c.e.f.form = .l ∧ c.e.f.i ≠ 0 then c.e.f.i.toNat else dfield d 383 352

section

variable (hva : addrSum (c.a l 2) 0 1 c.immX 64 % 64 = 0) (hctr : c.b l 2 % 8 = 0)
  (hreach : r.reach (c.x.agent c.w) .wr clsHome .tagged (c.b l 2) 8 = .ok r1 [p])
  (hd : r1.readDesc c l (addrSum (c.a l 2) 0 1 c.immX 64) 64 = .ok r2 d)
include hva hctr hreach hd

/-- What `coll` comes to once its counter may be written and its descriptor is read; the kernel is kept from computing `reach` where it
compares the matches on its result. -/
theorem State.collLane_eq : r.collLane c l kind red =
    if collBad d (collCount c d) then .fault r2 { code := 0x14, sub := 0x10 }
    else if (facetOf (r2.liveTag c.x.rgn)).isSome then .fault r2 { code := 5, sub := 0x16 }
    else if 18 ≤ (r2.collsOf (clusterOfWave c.w / 24)).length then .ok r2 [1]
    else
      let t := (collLinks d).foldl (fun s n => s.noteLink c.x.rgn (placeOf 2 n 0)) r2
      .ok { t with nextId := t.nextId + 1, colls := t.colls ++
        [⟨r2.nextId, clusterOfWave c.w / 24, c.x.rgn, kind, red, d, collCount c d, p.key, c.pc,
          if c.x.kind = .tile ∨ c.x.kind = .step then c.x.src else 0, c.b l 2⟩] } [0] := by
  obtain ⟨reach, hdef⟩ := exists_eq (a' := State.reach)
  rw [State.collLane.eq_def]
  rw [← hdef] at hreach ⊢
  simp only [misaligned_of_dvd hva, misaligned_of_dvd hctr, hreach, hd]
  rfl

theorem State.collLane_illFormed (hbad : collBad d (collCount c d) = true) :
    r.collLane c l kind red = .fault r2 { code := 0x14, sub := 0x10 } := by
  rw [State.collLane_eq hva hctr hreach hd, if_pos hbad]

section

variable (hwell : collBad d (collCount c d) = false)
include hwell

theorem State.collLane_facet (htag : (facetOf (r2.liveTag c.x.rgn)).isSome = true) :
    r.collLane c l kind red = .fault r2 { code := 5, sub := 0x16 } := by
  rw [State.collLane_eq hva hctr hreach hd, hwell, if_neg Bool.false_ne_true, if_pos htag]

section

variable (htag : (facetOf (r2.liveTag c.x.rgn)).isSome = false)
include htag

theorem State.collLane_full (hfull : 18 ≤ (r2.collsOf (clusterOfWave c.w / 24)).length) :
    r.collLane c l kind red = .ok r2 [1] := by
  rw [State.collLane_eq hva hctr hreach hd, hwell, htag, if_neg Bool.false_ne_true, if_neg Bool.false_ne_true, if_pos hfull]

theorem State.collLane_queues (hroom : (r2.collsOf (clusterOfWave c.w / 24)).length < 18) :
    let t := (collLinks d).foldl (fun s n => s.noteLink c.x.rgn (placeOf 2 n 0)) r2
    r.collLane c l kind red = .ok { t with nextId := t.nextId + 1, colls := t.colls ++
      [⟨r2.nextId, clusterOfWave c.w / 24, c.x.rgn, kind, red, d, collCount c d, p.key, c.pc,
        if c.x.kind = .tile ∨ c.x.kind = .step then c.x.src else 0, c.b l 2⟩] } [0] := by
  rw [State.collLane_eq hva hctr hreach hd, hwell, htag, if_neg Bool.false_ne_true, if_neg Bool.false_ne_true,
    if_neg (Nat.not_le.2 hroom)]

end

end

end

end

/-! ### The transfer (R421 to R423) -/

section

variable {s : State} {o : CollOp} {agree failed : Bool} {others : List (Nat × List Word)}
  (ho : (s.colls.find? fun p => p.id == o.id) = some o) (hquota : s.quotaWait o.rgn = false)
  (hfirst : ((s.collsOf o.die).take 2).contains o = true)
include ho hquota hfirst

theorem collExecute_eq : execCollExecute o.id agree failed others s =
    if (collLinks o.desc).any fun n => !(s.links.getD n true) then
      .next ((s.collSpoil o o.outBytes).collFail o { code := 0x14, sub := 0x12 })
    else if !agree then .next (s.collFail o { code := 0x14, sub := 0x11 })
    else if failed then .next ((s.collSpoil o o.outBytes).collFail o { code := 0x14, sub := 0x12 })
    else .next (s.collRun o others) := by
  unfold execCollExecute
  rw [ho]
  exact if_neg (by rw [hquota, hfirst]; exact Bool.false_ne_true)

/-- With every link up it is the other members that decide. -/
theorem collExecute_up (hup : ∀ n ∈ collLinks o.desc, s.links.getD n true = true) :
    execCollExecute o.id agree failed others s =
    if !agree then .next (s.collFail o { code := 0x14, sub := 0x11 })
    else if failed then .next ((s.collSpoil o o.outBytes).collFail o { code := 0x14, sub := 0x12 })
    else .next (s.collRun o others) := by
  rw [collExecute_eq ho hquota hfirst, if_neg]
  simpa using hup

theorem collExecute_linkDown {n : Nat} (hn : n ∈ collLinks o.desc) (hdown : s.links.getD n true = false) :
    execCollExecute o.id agree failed others s =
      .next ((s.collSpoil o o.outBytes).collFail o { code := 0x14, sub := 0x12 }) := by
  rw [collExecute_eq ho hquota hfirst, if_pos (List.any_eq_true.2 ⟨n, hn, by rw [hdown]; rfl⟩)]

end

/-- Settles O47: issue, then the transfer by what its members and links came to. -/
theorem collectives : Obligations.Collectives := by
  unfold Obligations.Collectives
  intro f kind red s s1 c
  refine ⟨perLane_lanes, ?lane, ?transfer, fun op ty a b xs => ⟨rfl, rfl⟩⟩
  case lane =>
    intro r r1 r2 l d p hva hctr hreach hd count
    exact ⟨State.collLane_illFormed hva hctr hreach hd, State.collLane_facet hva hctr hreach hd,
      State.collLane_full hva hctr hreach hd, State.collLane_queues hva hctr hreach hd⟩
  case transfer =>
    intro o others ho hquota hfirst
    exact ⟨fun hup => ⟨collExecute_up ho hquota hfirst hup, collExecute_up ho hquota hfirst hup,
      collExecute_up ho hquota hfirst hup⟩, fun n agree failed => collExecute_linkDown ho hquota hfirst⟩

end Sys2Proof.Machine
end

section
/-! PROOFS. The render path: bin descriptors and the pixel interlock (O53, R373 to R380). -/

namespace Sys2Proof.Machine

open Sys2Proof

/-! ### `bin.put` (R373 to R376) -/

section

variable {r r1 r2 r3 : State} {c : Ctx} {l : Nat} {k : State → Nat → BinDesc → Lane} {d : BitVec 512} {b : BinDesc}

section

variable (hd : r.readDesc c l (addrSum (c.a l 2) 0 1 c.offX 64) 64 clsHome = .ok r1 d)
include hd

theorem State.binGo_illFormed (hbad : r1.binBad (r1.fnOf c.x.rgn) (r1.asrOf c.x.rgn) d = true) :
    r.binGo c l k = .fault r1 { code := 5, sub := 0x15, addr := some (addrSum (c.a l 2) 0 1 c.offX 64) } := by
  unfold State.binGo
  simp only [hd, hbad, if_true]

theorem State.binGo_opens (hwell : r1.binBad (r1.fnOf c.x.rgn) (r1.asrOf c.x.rgn) d = false)
    (hrel : r1.releaseAt c.w l .dev = some r2)
    (hopen : (r2.settleBins (clusterOfWave c.w / 24)).binOpen c (clusterOfWave c.w / 24) (addrSum (c.a l 2) 0 1 c.offX 64) d =
      some (r3, b)) : r.binGo c l k = k r3 (clusterOfWave c.w / 24) b := by
  unfold State.binGo
  simp only [hd, hwell, Bool.false_eq_true, if_false, hrel, hopen]

end

section

variable {die rec_ : Nat}

theorem State.binRecord_empty (h : b.clip b.seq rec_ = none) :
    r.binRecord die b rec_ = .ok (r.setBin die { b with seq := b.seq + 1 }) [b.seq] := by
  unfold State.binRecord
  rw [h]

section

variable {p : Prim} (hclip : b.clip b.seq rec_ = some p)
include hclip

theorem State.binRecord_appends (hroom : BinDesc.overflows { b with seq := b.seq + 1 } p = false) : r.binRecord die b rec_ =
    .ok ((r.binAdd die { b with seq := b.seq + 1 } p).1.setBin die (r.binAdd die { b with seq := b.seq + 1 } p).2) [b.seq] := by
  unfold State.binRecord
  simp only [hclip, hroom, Bool.false_eq_true, if_false]

theorem State.binRecord_overflows (hfull : BinDesc.overflows { b with seq := b.seq + 1 } p = true) :
    r.binRecord die b rec_ = .ok (r.binOverflow die { b with seq := b.seq + 1 } p) [b.seq] := by
  unfold State.binRecord
  simp only [hclip, hfull, if_true]

end

end

end

/-! ### The pixel interlock (R379, R380) -/

section

variable {r : State} {c : Ctx} {l : Nat} {x : Wave} {all : Bool} (hx : r.waves.find c.w = some x)
include hx

theorem State.pxlockLane_noTile (ht : x.tile = none) : r.pxlockLane c l = .fault r { code := 5, sub := 0x10 } := by
  unfold State.pxlockLane
  simp only [hx, ht]

theorem State.pxunlockLane_noTile (ht : x.tile = none) : r.pxunlockLane c l all = .fault r { code := 5, sub := 0x10 } := by
  unfold State.pxunlockLane
  rw [hx]
  exact if_neg (by rw [Option.any_some, ht]; exact Bool.false_ne_true)

section

variable {t : TileSt} (ht : x.tile = some t)
include ht

theorem State.pxlockLane_outside (hout : t.outside (BitVec.ofNat 32 (c.a l)) = true) :
    r.pxlockLane c l = .fault r { code := 5, sub := 0x11 } := by
  unfold State.pxlockLane
  simp only [hx, ht, hout, if_true]

section

variable (hin : t.outside (BitVec.ofNat 32 (c.a l)) = false)
include hin

theorem State.pxlockLane_notListed (hseq : BitVec.ofNat 32 (c.b l) ∉ t.seqs) :
    r.pxlockLane c l = .fault r { code := 5, sub := 0x12 } := by
  have hno : t.seqs.contains (BitVec.ofNat 32 (c.b l)) = false := by simpa using hseq
  unfold State.pxlockLane
  simp only [hx, ht, hin, hno, Bool.false_eq_true, if_false, Bool.not_false, if_true]

section

variable (hseq : BitVec.ofNat 32 (c.b l) ∈ t.seqs)
include hseq

theorem State.pxlockLane_held (hheld : t.held.contains ⟨BitVec.ofNat 32 (c.a l), BitVec.ofNat 32 (c.b l)⟩ = true) :
    r.pxlockLane c l = .ok (r.updTile c.w fun t => t.name (BitVec.ofNat 32 (c.b l)) l) [] := by
  unfold State.pxlockLane
  simp only [hx, ht, hin, List.contains_iff_mem.2 hseq, hheld, Bool.false_eq_true, if_false, Bool.not_true, Bool.true_or, if_true]

section

variable (hfree : t.held.contains ⟨BitVec.ofNat 32 (c.a l), BitVec.ofNat 32 (c.b l)⟩ = false)
  (hclear : x.pxClear t (BitVec.ofNat 32 (c.a l)) (BitVec.ofNat 32 (c.b l)) = false)
include hfree hclear

theorem State.pxlockLane_grants {r1 : State} (hgrant : x.pxGrant t (BitVec.ofNat 32 (c.a l)) (BitVec.ofNat 32 (c.b l)) = true)
    (hacq : ((r.updTile c.w fun t => t.name (BitVec.ofNat 32 (c.b l)) l).updTile c.w fun t =>
      { t with held := t.held ++ [⟨BitVec.ofNat 32 (c.a l), BitVec.ofNat 32 (c.b l)⟩] }).acquireAt c.w l .dev = some r1) :
    r.pxlockLane c l = .ok r1 [] := by
  unfold State.pxlockLane
  simp only [hx, ht, hin, List.contains_iff_mem.2 hseq, hfree, hclear, Bool.false_eq_true, if_false, Bool.not_true, Bool.or_self,
    hgrant, if_true, hacq]

theorem State.pxlockLane_waits (hgrant : x.pxGrant t (BitVec.ofNat 32 (c.a l)) (BitVec.ofNat 32 (c.b l)) = false) :
    r.pxlockLane c l = .block (r.updTile c.w fun t => t.name (BitVec.ofNat 32 (c.b l)) l)
      (.pixel (BitVec.ofNat 32 (c.a l)) (BitVec.ofNat 32 (c.b l))) := by
  unfold State.pxlockLane
  simp only [hx, ht, hin, List.contains_iff_mem.2 hseq, hfree, hclear, Bool.false_eq_true, if_false, Bool.not_true, Bool.or_self,
    hgrant]

end

end

end

theorem State.pxunlockLane_clears {r1 : State} (hrel : r.releaseAt c.w l .dev = some r1) : r.pxunlockLane c l all =
    let clear : TileSt → TileSt := fun t =>
      if all then { t with clearAll := t.clearAll ++ [BitVec.ofNat 32 (c.b l)],
                           held := t.held.filter fun h => h.seq != BitVec.ofNat 32 (c.b l) }
      else { t with clear := t.clear ++ [⟨BitVec.ofNat 32 (c.a l), BitVec.ofNat 32 (c.b l)⟩],
                    held := t.held.filter fun h => !decide (h = ⟨BitVec.ofNat 32 (c.a l), BitVec.ofNat 32 (c.b l)⟩) }
    .ok ((r1.updTile c.w clear).pxWake c.w) [] := by
  have htile : (r.waves.find c.w).any (fun x => x.tile.isSome) = true := by rw [hx, Option.any_some, ht]; rfl
  unfold State.pxunlockLane
  rw [if_pos htile, hrel]

end

end

/-! ### The end of a flush (R377) -/

/-- A die whose descriptors have no writes left to make has nothing to settle. -/
theorem State.settleBins_of_noWrites {s : State} {die : Nat} (h : ∀ y ∈ (s.die die).bins, y.writes = []) :
    s.settleBins die = s := by
  have hnone : ((s.die die).bins.filter fun b => !b.writes.isEmpty) = [] :=
    List.filter_eq_nil_iff.2 fun y hy => by simp [h y hy]
  unfold State.settleBins
  rw [hnone, List.foldl_nil]

/-- Chunks and lists are freed and the flush number advances; a frame that ends closes its descriptor. -/
theorem flushComplete_frees {s : State} {die : Nat} {b : BinDesc}
    (hb : ((s.die die).bins.find? fun y => y.id == b.id) = some b) (hflush : b.flushing = true)
    (hwrites : ∀ y ∈ (s.die die).bins, y.writes = []) (hidle : s.tileBusy b = false) (hcores : b.cores = [])
    (hpending : b.pending = []) :
    let b1 : BinDesc := { b with flushing := false, lists := [], flush := b.flush + 1, cores := [], pending := [] }
    execFlushComplete die b.id s = if b.ending then .next (s.binClose die b1) else .next (s.setBin die b1) := by
  have hempty : b.writes = [] := hwrites b (List.mem_of_find?_eq_some hb)
  unfold execFlushComplete
  simp only [State.settleBins_of_noWrites hwrites, hb, hflush, hempty, hidle, hcores, hpending, Bool.not_true,
    List.isEmpty_nil, Bool.or_self, Bool.false_eq_true, if_false, List.foldl_nil]

/-- Settles O53: `bin.put`, the interlock, and the end of a flush. -/
theorem rendering : Obligations.Rendering := by
  unfold Obligations.Rendering
  intro f all s s1 c
  refine ⟨perLane_lanes, perLane_lanes, perLane_lanes, perLane_lanes, ?go, ?record, ?pixel, ?flush⟩
  case go =>
    intro r r1 r2 r3 l d b k va hd
    exact ⟨State.binGo_illFormed hd, State.binGo_opens hd⟩
  case record =>
    intro r die rec_ b b1
    exact ⟨State.binRecord_empty, fun p => State.binRecord_appends, fun p => State.binRecord_overflows⟩
  case pixel =>
    intro r l x t hx px seq u
    refine ⟨fun ht => ⟨State.pxlockLane_noTile hx ht, State.pxunlockLane_noTile hx ht⟩, fun ht =>
      ⟨State.pxlockLane_outside hx ht, State.pxlockLane_notListed hx ht, State.pxlockLane_held hx ht,
        fun hin hseq hfree hclear => ⟨fun r1 => State.pxlockLane_grants hx ht hin hseq hfree hclear,
          State.pxlockLane_waits hx ht hin hseq hfree hclear⟩, fun r1 hrel hall => ?_, fun r1 hrel hall => ?_⟩⟩
    · subst hall
      exact State.pxunlockLane_clears hx ht hrel
    · subst hall
      exact State.pxunlockLane_clears hx ht hrel
  case flush =>
    intro die b hb hflush hwrites hidle hcores hpending b1
    have hdone := flushComplete_frees hb hflush hwrites hidle hcores hpending
    exact ⟨fun hending => hdone.trans (if_neg (by rw [hending]; exact Bool.false_ne_true)),
      fun hending => hdone.trans (if_pos hending)⟩

end Sys2Proof.Machine
end

section
/-! PROOFS. Texture sampling and ray traversal (O52, R381 to R392). -/

namespace Sys2Proof.Machine

open Sys2Proof

/-! ### The units (R307, R383) -/

section

variable {r r1 r2 : State} {l : Nat} {op : UnitOp}

section

variable {c : Ctx}

/-- What the unit came to with the operands read at issue is the result to come, which may be read anew. -/
theorem State.unitLane_result {ws : List Word} (h : r.unitRun ⟨c.w, l, c.id, c.x.agent c.w, op⟩ = .ok r1 ws) :
    r.unitLane c l op = .pend r1 { c.calc l l ws with redo := some op } := by
  unfold State.unitLane
  rw [h]

theorem State.unitLane_stops {o : Lane} (h : r.unitRun ⟨c.w, l, c.id, c.x.agent c.w, op⟩ = .stop o) :
    r.unitLane c l op = o := by
  unfold State.unitLane
  rw [h]

end

section

variable {w n : Nat} {a : Acc}

theorem State.unitAgain_noRedo (h : a.redo = none) : r.unitAgain w l a = r := by
  unfold State.unitAgain
  rw [h]

section

variable {x : Wave} (hredo : a.redo = some op) (hx : r.waves.find w = some x) (hfresh : r.fresh = (n, r1))
include hredo hx hfresh

theorem State.unitAgain_even (hn : n % 2 = 0) : r.unitAgain w l a = r1 := by
  unfold State.unitAgain
  simp only [hredo, hx, hfresh, if_pos hn]

theorem State.unitAgain_odd {ws : List Word} (hn : n % 2 = 1) (hrun : r1.unitRun ⟨w, l, a.id, x.agent w, op⟩ = .ok r2 ws) :
    r.unitAgain w l a = r2.updThread w l fun t => t.setAcc a.id fun b => some { b with val := some ws } := by
  unfold State.unitAgain
  simp only [hredo, hx, hfresh, if_neg (by omega : ¬n % 2 = 0), hrun]

end

end

end

/-! ### Textures (R381 to R387) -/

section

variable {r r1 r2 : State} {q : Asked} {bs : List Byte} {lod : Nat → Nat}

theorem State.unitRun_texQ (h : q.op.kind = .texQ) : r.unitRun q = r.texQuery q := by
  unfold State.unitRun
  rw [h]

theorem State.unitRun_texF (h : q.op.kind = .texF) : r.unitRun q = r.texFetch q := by
  unfold State.unitRun
  rw [h]

theorem State.texDesc_misaligned {k : State → Tex → URun} (h : q.op.b % 64 ≠ 0) :
    r.texDesc q k = .stop (.fault r { code := 2, sub := 1, addr := some q.op.b }) := by
  unfold State.texDesc
  simp only [misaligned_of_not_dvd h]

section

variable (halign : q.op.b % 64 = 0) (hread : r.unitRead q q.op.b 64 = .ok r1 bs)
include halign hread

theorem State.texDesc_eq {k : State → Tex → URun} : r.texDesc q k =
    if texBad (descOfBytes bs) then .stop (.fault r1 { code := 5, sub := 0x13, addr := some q.op.b })
    else k r1 (Tex.ofDesc (descOfBytes bs)) := by
  unfold State.texDesc
  simp only [misaligned_of_dvd halign, hread]
  rfl

theorem State.sample_illFormed (hbad : texBad (descOfBytes bs) = true) :
    r.sample q lod = .stop (.fault r1 { code := 5, sub := 0x13, addr := some q.op.b }) := by
  rw [State.sample, State.texDesc_eq halign hread, if_pos hbad]

section

variable (hwell : texBad (descOfBytes bs) = false)
include hwell

theorem State.texDesc_continues {k : State → Tex → URun} : r.texDesc q k = k r1 (Tex.ofDesc (descOfBytes bs)) := by
  rw [State.texDesc_eq halign hread, hwell, if_neg Bool.false_ne_true]

theorem State.texQuery_level (hk : q.op.c < (Tex.ofDesc (descOfBytes bs)).levels) :
    let t := Tex.ofDesc (descOfBytes bs)
    r.texQuery q = .ok r1 [BitVec.ofNat 32 (t.dims q.op.c).1, BitVec.ofNat 32 (t.dims q.op.c).2, BitVec.ofNat 32 t.levels,
      BitVec.ofNat 32 t.fmt] := by
  unfold State.texQuery
  simp only [State.texDesc_continues halign hread hwell, if_neg (Nat.not_le.2 hk)]

theorem State.texQuery_noLevel (hk : (Tex.ofDesc (descOfBytes bs)).levels ≤ q.op.c) : r.texQuery q = .ok r1 [0, 0, 0, 0] := by
  unfold State.texQuery
  simp only [State.texDesc_continues halign hread hwell, if_pos hk]
  rfl

/-- A fetch answers +0 outside its level, and else the channels of the texel (R386; log 39). -/
theorem State.texFetch_eq :
    let t := Tex.ofDesc (descOfBytes bs)
    let x := intOf (q.op.a % 2 ^ 32) .s32
    let y := intOf (q.op.a / 2 ^ 32) .s32
    r.texFetch q =
      if t.levels ≤ q.op.c ∨ x < 0 ∨ y < 0 ∨ ((t.dims q.op.c).1 : Int) ≤ x ∨ ((t.dims q.op.c).2 : Int) ≤ y then
        .ok r1 [0, 0, 0, 0]
      else (r1.unitRead q (t.addr q.op.c x.toNat y.toNat) t.size).go fun s bs => .ok s ((t.channels bs).map XQ.round) := by
  unfold State.texFetch
  exact State.texDesc_continues halign hread hwell

theorem State.texFetch_inside {cs : List Byte} :
    let t := Tex.ofDesc (descOfBytes bs)
    let x := intOf (q.op.a % 2 ^ 32) .s32
    let y := intOf (q.op.a / 2 ^ 32) .s32
    q.op.c < t.levels → 0 ≤ x → 0 ≤ y → x < (t.dims q.op.c).1 → y < (t.dims q.op.c).2 →
      r1.unitRead q (t.addr q.op.c x.toNat y.toNat) t.size = .ok r2 cs →
        r.texFetch q = .ok r2 ((t.channels cs).map XQ.round) := by
  intro t x y hk hx hy hw hh hcs
  rw [State.texFetch_eq halign hread hwell, if_neg, hcs]
  · rfl
  · rintro (h | h | h | h | h)
    exacts [Nat.not_le.2 hk h, Int.not_lt.2 hx h, Int.not_lt.2 hy h, Int.not_le.2 hw h, Int.not_le.2 hh h]

theorem State.sample_finite {u v : Int} {n d : Nat} (hu : XQ.ofBits (q.op.a % 2 ^ 32) .f32 = .fin u n)
    (hv : XQ.ofBits (q.op.a / 2 ^ 32) .f32 = .fin v d) :
    let t := Tex.ofDesc (descOfBytes bs)
    r.sample q lod = r1.sampleTaps q t (t.taps (lod t.levels) (u, n) (v, d)) (some (List.replicate 4 (.fin 0 1))) := by
  unfold State.sample
  rw [State.texDesc_continues halign hread hwell, hu, hv]

/-- An infinite or undefined coordinate answers +0 in every channel. -/
theorem State.sample_notFinite (hu : ∀ u n, XQ.ofBits (q.op.a % 2 ^ 32) .f32 ≠ .fin u n) :
    r.sample q lod = .ok r1 [0, 0, 0, 0] := by
  unfold State.sample
  rw [State.texDesc_continues halign hread hwell]
  cases h : XQ.ofBits (q.op.a % 2 ^ 32) .f32 with
  | nan => rfl
  | inf neg => rfl
  | fin u n => exact absurd h (hu u n)

end

end

/-! ### Taps (R384, R387) -/

section

variable {t : Tex} {p : Tap} {ps : List Tap} {acc : Option (List XQ)}

/-- The read of a tap's texel. -/
def State.tapRead (r : State) (q : Asked) (t : Tex) (p : Tap) : URes :=
  r.unitRead q (t.addr p.level (texIndex t.amu p.i (t.dims p.level).1) (texIndex t.amv p.j (t.dims p.level).2)) t.size

theorem State.sampleTaps_read (hread : r.tapRead q t p = .ok r1 bs) : r.sampleTaps q t (p :: ps) acc =
    r1.sampleTaps q t ps (acc.map fun xs => (xs.zip (t.channels bs)).map fun e => e.1.add (e.2.scale p.w 24)) := by
  unfold State.tapRead at hread
  simp only [State.sampleTaps, hread]

theorem State.sampleTaps_poison (hread : r.tapRead q t p = .poison r1) :
    r.sampleTaps q t (p :: ps) acc = r1.sampleTaps q t ps none := by
  unfold State.tapRead at hread
  simp only [State.sampleTaps, hread]

theorem State.sampleTaps_stop {o : Lane} (hread : r.tapRead q t p = .stop o) : r.sampleTaps q t (p :: ps) acc = .stop o := by
  unfold State.tapRead at hread
  simp only [State.sampleTaps, hread]

end

end

/-! ### Rays (R390 to R392) -/

section

variable {r : State} {q : Asked}

/-- A traversal that has nothing left to visit answers its closest hit, or a miss. -/
theorem State.traverse_nil {ray : Ray} {n : Nat} {h : Option Hit} : State.traverse q ray n [] h r = .ok r (match h with
    | some x => [x.t.round, BitVec.ofNat 32 x.prim, x.u.round, x.w.round]
    | none => [0x7F800000, 0xFFFFFFFF, 0, 0]) := by
  cases n <;> rfl

section

variable (hkind : q.op.kind = .trace) (halign : q.op.b % 64 = 0)
include hkind halign

theorem State.unitRun_trace : r.unitRun q =
    if (List.range 8).any fun i => decide (fpAt q.op.a i .f32 = .nan) then .ok r [0x7F800000, 0xFFFFFFFF, 0, 0]
    else if (List.range 3).all fun i => (fpAt q.op.a (3 + i) .f32).isZero then .ok r [0x7F800000, 0xFFFFFFFF, 0, 0]
    else
      match v3At q.op.a 0 .f32, v3At q.op.a 3 .f32 with
      | some o, some d => State.traverse q ⟨o, d, .ofXR (fpAt q.op.a 6 .f32), .ofXR (fpAt q.op.a 7 .f32)⟩ 65536
          [(q.op.b, false)] none r
      | _, _ => .ok r.fresh.2 (wordsOf 4 r.fresh.1) := by
  unfold State.unitRun State.traceRay
  rw [hkind]
  simp only [misaligned_of_dvd halign] <;> rfl

theorem State.unitRun_trace_undefined {i : Nat} (hi : i < 8) (hnan : fpAt q.op.a i .f32 = .nan) :
    r.unitRun q = .ok r [0x7F800000, 0xFFFFFFFF, 0, 0] := by
  rw [State.unitRun_trace hkind halign, if_pos]
  exact List.any_eq_true.2 ⟨i, List.mem_range.2 hi, decide_eq_true hnan⟩

theorem State.unitRun_trace_visits {o d : V3} (hdef : ∀ i, i < 8 → fpAt q.op.a i .f32 ≠ .nan)
    (ho : v3At q.op.a 0 .f32 = some o) (hd : v3At q.op.a 3 .f32 = some d)
    (hdir : ∃ i, i < 3 ∧ (fpAt q.op.a (3 + i) .f32).isZero = false) :
    r.unitRun q = State.traverse q ⟨o, d, .ofXR (fpAt q.op.a 6 .f32), .ofXR (fpAt q.op.a 7 .f32)⟩ 65536
      [(q.op.b, false)] none r := by
  obtain ⟨i, hi, hne⟩ := hdir
  rw [State.unitRun_trace hkind halign, if_neg, if_neg, ho, hd]
  · intro hall
    rw [List.all_eq_true.1 hall i (List.mem_range.2 hi)] at hne
    cases hne
  · intro hany
    obtain ⟨j, hj, hnan⟩ := List.any_eq_true.1 hany
    exact hdef j (List.mem_range.1 hj) (of_decide_eq_true hnan)

end

end

/-- Settles O52: the units, their textures, and their rays. -/
theorem texturesAndRays : Obligations.TexturesAndRays := by
  unfold Obligations.TexturesAndRays
  intro f s s1 c
  refine ⟨perLane_lanes, perLane_lanes, perLane_lanes, perLane_lanes, perLane_lanes, ?unit, ?kinds, ?noRedo, ?again, ?textures,
    ?taps, fun r q ray n h => ⟨State.traverse_nil, State.traverse_nil⟩, ?rays⟩
  case unit => exact fun r r1 l op ws o => ⟨State.unitLane_result, State.unitLane_stops⟩
  case kinds => exact fun r q => ⟨fun h => by rw [State.unitRun, h], fun h => by rw [State.unitRun, h]⟩
  case noRedo => exact fun r w l a => State.unitAgain_noRedo
  case again =>
    intro r r1 r2 w l n a op x ws hredo hx hfresh
    exact ⟨State.unitAgain_even hredo hx hfresh, State.unitAgain_odd hredo hx hfresh⟩
  case textures =>
    intro r r1 r2 q bs lod
    refine ⟨fun hkind h => (State.unitRun_texQ hkind).trans (State.texDesc_misaligned h), State.sample_illFormed,
      fun halign hread hwell => ⟨?_, ?_, ?_, ?_, ?_, State.sample_notFinite halign hread hwell⟩⟩
    · exact fun hkind hk => (State.unitRun_texQ hkind).trans (State.texQuery_level halign hread hwell hk)
    · exact fun hkind hk => (State.unitRun_texQ hkind).trans (State.texQuery_noLevel halign hread hwell hk)
    · intro hkind hout
      rw [State.unitRun_texF hkind, State.texFetch_eq halign hread hwell, if_pos hout]
    · intro cs hkind hk hx hy hw hh hcs
      rw [State.unitRun_texF hkind, State.texFetch_inside halign hread hwell hk hx hy hw hh hcs]
    · exact fun u n v d => State.sample_finite halign hread hwell
  case taps =>
    intro r r1 q t p ps bs acc
    refine ⟨fun xs h => ?_, fun h => ?_, State.sampleTaps_poison, fun o => State.sampleTaps_stop, State.sampleTaps_read⟩
    · rw [h, State.sampleTaps]
    · rw [h, State.sampleTaps, onesWords]
  case rays =>
    intro r q hkind halign
    exact ⟨fun i => State.unitRun_trace_undefined hkind halign, fun o d => State.unitRun_trace_visits hkind halign⟩

end Sys2Proof.Machine
end
